-- ==== Sys2Proof/Word.lean ====
section
/-! DEFINITION. The word types of the Calad-3 engine, the sparse stores that hold its memories, and the
value types that registers and elements stand for. Everything with a rule of the spec behind its computation
lives under `Machine/`. -/

namespace Sys2Proof

/-- A word is 32 bits (R10). -/
abbrev Word := BitVec 32

/-- A double word: the summary (R127), an FP64 element (R44). -/
abbrev DWord := BitVec 64

/-- The bits of one element of any format of R36, in the low bits; the bits above its width are zero. -/
abbrev Code := BitVec 64

/-- One of the 16 harts (R132). -/
abbrev Hart := Fin 16

/-- A reader of per-reader registers (R507): harts 0 to 15, and 16 for the management processor. -/
abbrev Reader := Fin 17

/-- One of the tile registers T0 to T63 (R105). -/
abbrev TileReg := Fin 64

/-- A sparse store: keys strictly rising, no entry equal to what an unlisted key reads as.
`Machine/Ops.lean` holds its reads and writes. -/
abbrev Store (α : Type) := List (Nat × α)

/-- The formats of R36 that an instruction, a descriptor or a message may name. -/
inductive Fmt where
  | fp32 | bf16 | fp16 | e4m3 | e5m2 | fp64 | int32 | int16 | int8 | int4 | fp4 | e8m0
deriving DecidableEq, Repr

/-- The exact value of an element: a NaN (signalling or quiet, R40), an infinity, or the finite value
`(-1)^neg * m * 2^e`, which keeps the sign of zero (R42). Integers are finite values. -/
inductive Num where
  | nan (signalling : Bool)
  | inf (neg : Bool)
  | fin (neg : Bool) (m : Nat) (e : Int)
deriving DecidableEq, Repr

/-- The five sticky flags of R94. -/
structure FpFlags where
  nv : Bool := false
  dz : Bool := false
  ovf : Bool := false
  uf : Bool := false
  nx : Bool := false
deriving DecidableEq, Repr

/-- The three configurations of R3. -/
inductive EngineConfig where
  | c3s | c3m | c3l
deriving DecidableEq, Repr

/-- The kinds of failure of a fabric request (R356). -/
inductive FabricFault where
  | translation | permission | data
deriving DecidableEq, Repr

end Sys2Proof
end

