-- ==== Sys2Proof/Syntax.lean ====
section
/-! DEFINITION. The commands of the engine: one constructor of `Instr` for each of the 254 rows of
spec/opcode_table.json, in the table's order, with the operands that the row's rule names. -/

namespace Sys2Proof

/-- The fields of an Xcalad instruction (R116) other than MAJOR, OP and FN. -/
structure XArgs where
  grp : BitVec 2 := 0
  s : Bool := false
  sat : Bool := false
  fmta : BitVec 4 := 0
  fmtd : BitVec 4 := 0
  bx : Bool := false
  td : BitVec 6 := 0
  ta : BitVec 6 := 0
  tb : BitVec 6 := 0
  count : BitVec 14 := 0
  pred : BitVec 3 := 0
deriving DecidableEq, Repr

/-- An Xcalad instruction as a hart issues it: OP, FN and the other fields (R116). -/
structure XInstr where
  op : BitVec 6
  fn : BitVec 3
  a : XArgs
deriving DecidableEq, Repr

/-- The widths of the RV32 scalar loads (R401). -/
inductive LoadOp where
  | lb | lh | lw | lbu | lhu
deriving DecidableEq, Repr

/-- The widths of the RV32 scalar stores (R401). -/
inductive StoreOp where
  | sb | sh | sw
deriving DecidableEq, Repr

/-- What a fabric read line brings: 16 words, or a failure (R356). -/
inductive LineResult where
  | ok (words : Vector Word 16)
  | fail (k : FabricFault)
deriving DecidableEq, Repr

/-- The fabric's answer to a write line (R356). -/
inductive WriteResult where
  | ack
  | fail (k : FabricFault)
deriving DecidableEq, Repr

/-- What a descriptor-set fetch from chip memory brings: the lines of its burst, one descriptor in each. For a list in
Icefield the engine reads the words itself (R323). -/
inductive FetchResult where
  | lines (ls : List LineResult)
  | icefield
deriving DecidableEq, Repr

/-- The target of a register write that has no row of its own (R19): an engine register by its offset, a CSR of the
writing hart by its number, or a register or slot that the master of a hod writes, by its offset (R417). -/
inductive RegTarget where
  | reg (off : BitVec 16)
  | csr (num : BitVec 12)
  | master (hod : Fin 3) (off : BitVec 16)
deriving DecidableEq, Repr

/-- The form of a course's operand (R234): its format, and its block scaling, 0 none, 1 blocks of 16, 2 blocks of 32.
The course block has no place for it (log entry 30). -/
structure OpForm where
  fmt : Fmt
  block : BitVec 2 := 0
deriving DecidableEq, Repr

/-- Why a DATA message is refused (R372). -/
inductive Reason where
  | late | bound | melted | retry
deriving DecidableEq, Repr

/-- The shape of a product or of a vector order, as firmware's tile plan reads it (R427). -/
structure OrderShape where
  m : Nat := 1
  n : Nat := 1
  k : Nat := 1
  fold : Nat := 1
  causal : Bool := false
  fmtB : Fmt := .bf16
  block : Nat := 0
  streamWords : Nat := 0
  resident : Bool := false
  malformed : Bool := false
  outTiles : Nat := 0
  /-- The harts that firmware runs the order's kernel on (R428). -/
  kernel : List (Fin 16) := []
  strict : Bool := false
  sat : Bool := false
  mask : Bool := false
deriving DecidableEq, Repr

/-- Where a window order acts (R423, R375). -/
inductive WindowOp where
  | open | close | credit
deriving DecidableEq, Repr

/-- An error that a check of the lanes meets when an instruction completes (R462): the residue of a word that a
physical lane group delivers, or a bit of a tile container that has changed since the container was written. -/
inductive LaneCheck where
  | residue (g : Fin 17)
  | container (t : TileReg) (n : Fin 4096)
deriving DecidableEq, Repr

/-- The parts of a deadlock report (R368, R531): the blocked party that closed the cycle. -/
inductive Party where
  | channel (c : Fin 32)
  | hartWait (h : Hart)
deriving DecidableEq, Repr

/-- THE commands of the engine. -/
inductive Instr where
  -- Xcalad instructions: a hart issues one (R130, R133)
  | mov (h : Hart) (x : XArgs)
  | movX (h : Hart) (x : XArgs)
  | iotaX (h : Hart) (x : XArgs)
  | setxX (h : Hart) (x : XArgs)
  | ldX (h : Hart) (x : XArgs)
  | stX (h : Hart) (x : XArgs)
  | stXAdd (h : Hart) (x : XArgs)
  | arithAdd (h : Hart) (x : XArgs)
  | arithSub (h : Hart) (x : XArgs)
  | arithMul (h : Hart) (x : XArgs)
  | arithAbs (h : Hart) (x : XArgs)
  | arithNeg (h : Hart) (x : XArgs)
  | arithFms (h : Hart) (x : XArgs)
  | arithFma (h : Hart) (x : XArgs)
  | arithX (h : Hart) (fn : BitVec 3) (x : XArgs)
  | maxminMax (h : Hart) (x : XArgs)
  | maxminMin (h : Hart) (x : XArgs)
  | maxminX (h : Hart) (fn : BitVec 3) (x : XArgs)
  | cvt (h : Hart) (x : XArgs)
  | sfuExp2 (h : Hart) (x : XArgs)
  | sfuLog2 (h : Hart) (x : XArgs)
  | sfuRcp (h : Hart) (x : XArgs)
  | sfuRsq (h : Hart) (x : XArgs)
  | sfuTanh (h : Hart) (x : XArgs)
  | sfuLogistic (h : Hart) (x : XArgs)
  | sfuErf (h : Hart) (x : XArgs)
  | sfuExp (h : Hart) (x : XArgs)
  | cmp (h : Hart) (fn : BitVec 3) (x : XArgs)
  | cmpX (h : Hart) (fn : BitVec 3) (x : XArgs)
  | pany (h : Hart) (x : XArgs)
  | pall (h : Hart) (x : XArgs)
  | pand (h : Hart) (x : XArgs)
  | por (h : Hart) (x : XArgs)
  | pandn (h : Hart) (x : XArgs)
  | pxor (h : Hart) (x : XArgs)
  | pltX (h : Hart) (x : XArgs)
  | rsum (h : Hart) (fn : BitVec 3) (x : XArgs)
  | rmax (h : Hart) (fn : BitVec 3) (x : XArgs)
  | segmentedReduce (h : Hart) (max : Bool) (alt : Bool) (x : XArgs)
  | rdot (h : Hart) (fn : BitVec 3) (x : XArgs)
  | rarg (h : Hart) (fn : BitVec 3) (x : XArgs)
  | rowb (h : Hart) (fn : BitVec 3) (x : XArgs)
  | colb (h : Hart) (fn : BitVec 3) (x : XArgs)
  | raccClr (h : Hart) (x : XArgs)
  | raccSum (h : Hart) (x : XArgs)
  | raccSsq (h : Hart) (x : XArgs)
  | raccMax (h : Hart) (x : XArgs)
  | rdsum (h : Hart) (x : XArgs)
  | rdmax (h : Hart) (x : XArgs)
  | rdcnt (h : Hart) (x : XArgs)
  | rdlse (h : Hart) (x : XArgs)
  | softmax (h : Hart) (x : XArgs)
  | logsoftmax (h : Hart) (x : XArgs)
  | rmsnorm (h : Hart) (x : XArgs)
  | layernorm (h : Hart) (x : XArgs)
  | trans (h : Hart) (x : XArgs)
  | perm (h : Hart) (x : XArgs)
  | gatherXRow (h : Hart) (x : XArgs)
  | gatherXElement (h : Hart) (x : XArgs)
  | scatterXRowWrite (h : Hart) (x : XArgs)
  | scatterXElementWrite (h : Hart) (x : XArgs)
  | scatterXRowAdd (h : Hart) (x : XArgs)
  | scatterXElementAdd (h : Hart) (x : XArgs)
  | compact (h : Hart) (x : XArgs)
  | expand (h : Hart) (x : XArgs)
  | vsyncHarts (h : Hart) (x : XArgs)
  | vsyncIcefield (h : Hart) (x : XArgs)
  | probe (h : Hart) (x : XArgs)
  | mpruneBrick (h : Hart) (x : XArgs)
  | mpruneRow (h : Hart) (x : XArgs)
  | mpruneNm (h : Hart) (x : XArgs)
  | mpruneThresh (h : Hart) (x : XArgs)
  | mgrowScore (h : Hart) (x : XArgs)
  | mgrowThresh (h : Hart) (x : XArgs)
  | mgrowRand (h : Hart) (x : XArgs)
  | mapply (h : Hart) (fn : BitVec 3) (x : XArgs)
  | mpack (h : Hart) (fn : BitVec 3) (x : XArgs)
  | munpack (h : Hart) (x : XArgs)
  | mtrans (h : Hart) (x : XArgs)
  | sort (h : Hart) (fn : BitVec 3) (x : XArgs)
  | merge (h : Hart) (fn : BitVec 3) (x : XArgs)
  | topk (h : Hart) (fn : BitVec 3) (x : XArgs)
  | unique (h : Hart) (fn : BitVec 3) (x : XArgs)
  | isect (h : Hart) (fn : BitVec 3) (x : XArgs)
  | hist (h : Hart) (fn : BitVec 3) (x : XArgs)
  | route (h : Hart) (fn : BitVec 3) (x : XArgs)
  -- the vector unit (R134, R139, R464)
  | vectorAccept
  | instructionRetire (h : Hart) (check : Option LaneCheck)
  | instructionReplay
  -- Keystone (R398 to R412)
  | vfault (h : Hart)
  | rv32Instruction (h : Hart) (w : Option Word) (met : Word)
  | ecall (h : Hart)
  | wfi (h : Hart)
  | wfiWake (h : Hart)
  | scalarLoad (h : Hart) (op : LoadOp) (rd : BitVec 5) (addr : Word)
  | scalarStore (h : Hart) (op : StoreOp) (addr : Word) (val : Word)
  | summaryRead (h : Hart) (high : Bool) (rd : BitVec 5)
  | vflagsRead (h : Hart) (rd : BitVec 5)
  | mquotaRead (h : Hart) (rd : BitVec 5)
  | tileLease (r : Reader) (w : Word) (lost : List Hart)
  | leaseEffect (t : TileReg)
  -- the mortar port (R232 to R276)
  | courseStart (r : Reader) (addr : Word)
  | courseStop (r : Reader)
  | courseDrop (r : Reader)
  | courseBegin (a b c d : OpForm)
  | courseComplete
  | operandTransfer
  | resultTransfer (tag : DWord) (payload : List Word) (slush : List Nat)
  | b00Stack (check : Option LaneCheck)
  | b01Running (check : Option LaneCheck)
  | b02Header (check : Option LaneCheck)
  | b03Stretcher (check : Option LaneCheck)
  | b04Soldier (check : Option LaneCheck)
  | b05Flemish (check : Option LaneCheck)
  | b06English (check : Option LaneCheck)
  | b07Dutch (check : Option LaneCheck)
  | b08Monk (check : Option LaneCheck)
  | b09Sailor (check : Option LaneCheck)
  | b10Rowlock (check : Option LaneCheck)
  | b11Garden (check : Option LaneCheck)
  | b12Basket (check : Option LaneCheck)
  | b13Quoin (check : Option LaneCheck)
  | b14Coping (check : Option LaneCheck)
  | b15Lintel (check : Option LaneCheck)
  | peerTimeout
  -- Icefield (R277 to R317)
  | floeCommit (r : Reader) (f : Fin 64) (lost : List Reader)
  | floeRead (r : Reader) (f : Fin 64) (lost : List Reader)
  | floeCommitEffect
  | segmentMelt (seg : Fin 64)
  | revivalRampEnd
  | segmentSelftestEnd (failed : List (Nat × Nat)) (badSpares : List (Nat × Nat))
  | segmentFillEnd
  | scrubVisit
  | correctedWriteback
  | fieldSparing
  | sbAllocate (together : Nat)
  | accessRetire (id : Nat)
  -- drifts (R318 to R369)
  | drfGo (r : Reader) (ch : BitVec 5) (met : List (Reader × Bool))
  | drfRearm (r : Reader) (ch : BitVec 5) (met : List (Reader × Bool))
  | drfResume (r : Reader) (ch : BitVec 5)
  | drfStop (r : Reader) (ch : Fin 32)
  | drfOwn (r : Reader) (ch : Fin 32) (h : Hart)
  | fbConfig (r : Reader) (b : Fin 16) (word : Fin 5) (v : Word) (lost : List Hart)
  | fbPost (r : Reader) (b : Fin 16)
  | fbRelease (r : Reader) (b : Fin 16)
  | descriptorSetFetch (ch : Fin 32) (res : FetchResult)
  | fabricReadLine (ch : Fin 32) (addr : BitVec 48) (res : LineResult)
  | fabricWriteResponse (ch : Fin 32) (res : WriteResult)
  | setRetire (ch : Fin 32)
  | shadowEffect (ch : Fin 32)
  | channelHalt (ch : Fin 32)
  | channelStopped (ch : Fin 32)
  | slotGrant (ch : Fin 32)
  | indexQueueResume (ch : Fin 32)
  | deadlock (p : Party)
  | moraineLine (res : LineResult)
  -- neighbour ports and windows (R370 to R397)
  | windowOpen (r : Reader) (w : Fin 64) (lost : List Reader)
  | windowClose (r : Reader) (w : Fin 64) (lost : List Reader)
  | windowCredit (r : Reader) (w : Fin 64) (lost : List Reader)
  | windowRead (r : Reader) (w : Fin 64) (lost : List Reader)
  | windowCloseEffect (w : Fin 64)
  | nbrSend (r : Reader) (addr : Word)
  | nbrSendStop (r : Reader) (p : Fin 4)
  | sendDescriptorStart (p : Fin 4)
  | sendComplete (p : Fin 4)
  | data (p : Fin 4) (win : Fin 64) (gen : BitVec 16) (line : BitVec 20) (seq : BitVec 16)
      (wmask smark : BitVec 16) (payload : Vector Word 16)
  | arrivalLanded (p : Fin 4)
  | ack (p : Fin 4) (seq : BitVec 16)
  | refuse (p : Fin 4) (seq : BitVec 16) (why : Reason)
  | grant (p : Fin 4) (win : Fin 64) (gen : BitVec 16) (lines : BitVec 20) (seq : BitVec 16) (credit : BitVec 24)
  | revoke (p : Fin 4) (win : Fin 64) (gen : BitVec 16) (seq : BitVec 16)
  | helloMsg (p : Fin 4) (lo hi : Nat)
  | echo (p : Fin 4) (seq : BitVec 16) (payload : Vector Word 16) (rttNs : BitVec 20)
  | echoTimeout (p : Fin 4)
  | ackTimer (p : Fin 4)
  | resendTimeout (p : Fin 4)
  | retryResend (p : Fin 4)
  | helloTimer (p : Fin 4)
  | portSilence (p : Fin 4)
  | portDownCmd (r : Reader) (p : Fin 4)
  | portRetryCmd (r : Reader) (p : Fin 4)
  -- hods and orders (R417 to R433)
  | hodIprodAdvance (hod : Fin 3) (v : Word)
  | hodOprodAdvance (hod : Fin 3) (h : Hart) (v : Word)
  | hodScan (images : List (BitVec 48 × BitVec 16))
  | ordHello
  | ordKill
  | ordKillDrained
  | ordRelease
  | ordHalt
  | ordRun
  | ordCalib
  | ordPageDone (bound : Bool)
  | pageTimeout (ch : Fin 32)
  | ordLoadExt (f : Fin 64) (words : Nat) (ch : BitVec 5)
  | extVerified (ok : Bool) (code : Word)
  | ordDropExt (ext : BitVec 16)
  | ordObssel (sel : List (Fin 16 × BitVec 8))
  | ordFloeSet (f : Fin 64) (entry : Vector Word 8)
  | ordWeightPush (f : Fin 64) (list : BitVec 48) (ch : BitVec 5)
  | ordAttnFwd (streamWords : Nat) (kernel : List (Fin 16))
  | ordAttnBwd (sh : OrderShape)
  | ordMatmul (sh : OrderShape) (bond : BitVec 4)
  | ordMoeRoute (sh : OrderShape)
  | ordMoeCombine (sh : OrderShape)
  | ordMaskMaint (sh : OrderShape)
  | ordSample (sh : OrderShape) (split : Nat)
  | ordScore (sh : OrderShape) (split : Nat)
  | ordRlLoss (sh : OrderShape) (split : Nat)
  | ordElemwise (sh : OrderShape) (ops : List XInstr)
  | ordReduce (sh : OrderShape)
  | ordSortset (sh : OrderShape)
  | ordMove (list : BitVec 48) (ch : BitVec 5)
  | ordWindow (op : WindowOp) (w : Fin 64) (stage : Vector Word 4) (credit : BitVec 24)
  | ordExtCall (ext : BitVec 16) (harts : List Hart) (tiles : List TileReg) (chans : List (Fin 32))
      (floes : List (Fin 64)) (params : Word)
  | ordFence
  | ordIceRead (src : Word) (words : Nat) (dst : BitVec 48) (ch : BitVec 5)
  | ordIceWrite (dst : Word) (words : Nat) (src : BitVec 48) (ch : BitVec 5)
  | ordRegRead (addr : Word)
  | ordRegWrite (off : BitVec 16) (v : Word)
  | ordStatus
  -- registers, timers, calibration, observation
  | hctlHalt (r : Reader) (mask resumed : BitVec 16)
  | hctlRun (r : Reader) (mask halted : BitVec 16)
  | evset (r : Reader) (mask : BitVec 16)
  | timerExpiry (n : Fin 4)
  | calibPeriod (slacks : List Nat) (guarded : List (Fin 35))
  | guardEvent (region : Fin 35) (slackAfter : Nat)
  | paceWindow (pace : BitVec 12) (cleared : Bool)
  | paceClear (r : Reader)
  | calTap (r : Reader) (on : Bool)
  | obsSelect (r : Reader) (n : Fin 16) (code : BitVec 8)
  | registerWrite (r : Reader) (t : RegTarget) (v : Word) (lost : List Hart) (met : Word)
  -- resets, power, faults, start-up
  | reset (retained : List (Fin 64))
  | powerOffRequest
  | powerOffAck (timeout : Bool) (rail : List (Fin 64))
  | powerLoss (rail : List (Fin 64))
  | uncorrectableFault (code : BitVec 8) (src : BitVec 4) (unit : BitVec 6) (loc loc2 : Word)
  | recoveryDrained
  | laneRampEnd (g : Fin 17)
  | laneSelftestEnd (g : Fin 17) (pass : Bool)
  | laneGroupRejoin (g : Fin 17) (slack : List Nat)
  | recordRead (slotA slotB : Option (List Word))
  | recordTimeout (slotA slotB : Option (List Word))
  | localStoreFillEnd
  | startupLaneTestEnd (failed : List (Fin 17))
  | icefieldSelftestEnd (failed : List (Nat × Nat)) (badSpares : List (Nat × Nat))
  | icefieldFillEnd
  | firmwareDelivered (image : List Word)
  | fwRefused (code : Word)
  | keystoneStart
  | fwready (h : Hart)
  | neighbourWaitEnd (timeout : Bool)
  | operandCredit
  | localStoreScrub
  | eventCounterLowRead (r : Reader) (n : Fin 8)
deriving DecidableEq, Repr

end Sys2Proof
end

