-- ==== Sys2Proof/Decode.lean ====
section
/-! DEFINITION. The opcode table gives no command any bits: no word spells a command. -/

namespace Sys2Proof

/-- The command that a word spells by the table's bits. No row of the table gives bits, so none does. -/
def decodeTableWord (_nbits _w : Nat) : Option Instr := none

end Sys2Proof
end

