-- ==== Sys2Proof/Config.lean ====
section
/-! DEFINITION. The parameters of the three configurations (R3) and the values that the spec leaves open.
Every open value is an opaque constant without a body: nothing can be proved about it. -/

namespace Sys2Proof.Config

/-- Lanes (R3). -/
def lanes : EngineConfig → Nat
  | .c3s => 256 | .c3m => 512 | .c3l => 1024

/-- Active lane groups of 64 lanes (R3); physical groups are 0 to this number, one of them spare (R463). -/
def groups : EngineConfig → Nat
  | .c3s => 4 | .c3m => 8 | .c3l => 16

/-- Icefield banks, one per lane (R5). -/
def banks : EngineConfig → Nat := lanes

/-- `n = log2 N` of R277. -/
def bankBits : EngineConfig → Nat
  | .c3s => 8 | .c3m => 9 | .c3l => 10

/-- Words per bank, the levels of R277. -/
def levels : EngineConfig → Nat
  | .c3s => 8192 | .c3m => 16384 | .c3l => 16384

/-- Spare array rows per bank (R3). -/
def spareRows : Nat := 32

/-- Icefield capacity in MiB, which is also the number of segments (R3). -/
def segments : EngineConfig → Nat
  | .c3s => 8 | .c3m => 32 | .c3l => 64

/-- Physical words W (R277). -/
def physWords (c : EngineConfig) : Nat := banks c * levels c

/-- Granules of 1024 words (R278). -/
def granules (c : EngineConfig) : Nat := physWords c / 1024

/-- Steps per 64 by 64 FP32 tile (R3). -/
def tileSteps : EngineConfig → Nat
  | .c3s => 16 | .c3m => 8 | .c3l => 4

/-- Drift channels (R3). -/
def driftCh : EngineConfig → Nat
  | .c3s => 16 | .c3m => 24 | .c3l => 32

/-- Whether persistent drifts re-arm at the end of a layer (R3). -/
def rearm : EngineConfig → Bool
  | .c3s => false | .c3m => false | .c3l => true

/-- Calibration regions (R444): lane groups with the spare, bank groups, crossbar, Keystone. -/
def regions (c : EngineConfig) : Nat := (groups c + 1) + groups c + 2

/-- The nanoseconds that the steps up to a number last (R408, R435): the pace is no number of the model (R17), so nothing is
known of it. Free value, log entry 6. -/
opaque nanosAtStep : Nat → Nat

/-- The bits that fast mode gives for a special function, chosen by the function's number and the input (R98).
`Machine/Sfu.lean` holds them to the bounds of R97. Free value, log entry 7. -/
opaque fastSfu : Nat → BitVec 32 → BitVec 32

/-- Whether a word or row of a stopped access had been written (R315, R360): the counter and the word or row.
Free value, log entry 8. -/
opaque stoppedWritten : Nat → Nat → Bool

/-- What a word of a permafrost segment holds when an abrupt removal tore its write (R457), by the counter and the cell: the
old value, the new one, or a codeword whose check symbols do not match. Free value, log entry 9. -/
opaque tornKind : Nat → Nat → Fin 3
/-- The codeword of such a word that reads as uncorrectable. Free value, log entry 9. -/
opaque tornCell : Nat → Nat → BitVec 44

/-- The slack, in taps, that the guard comparator of a calibration region measures in a step (R447, R553), by the step and the
region: slacks are analogue and no number of the model. Free value, log entry 184. -/
opaque stepSlack : Nat → Nat → Nat

/-- The operand credits of the quadrant after reset (R236, R519: per host chip). Log entry 5. -/
opaque operandCredits : BitVec 8

/-- The target token of a row of a scoring or loss course: the course's number of free values and the row. The spec
gives no place for it. Free value, log entry 31. -/
opaque targetToken : Nat → Nat → BitVec 32

/-- The log-probability of a draw that B15 combines, from the combined m and s, the winning z and its index: every engine
of the ring has the same. The records of R268 do not hold the y that it is computed from. Free value, log entry 37. -/
opaque drawLogProb : BitVec 32 → BitVec 32 → BitVec 32 → BitVec 32 → BitVec 32

/-- The engine's chip, die and block numbers, which its HELLO carries (R395). The host chip fixes them. Log entry 163. -/
opaque chipNumber : BitVec 32
/-- The die number. -/
opaque dieNumber : BitVec 32
/-- The block number. -/
opaque blockNumber : BitVec 32

/-- Data bits of a drift's mark words, and every other data bit that the spec gives no value, by the counter.
Free value, log entry 2. -/
opaque freeWord : Nat → BitVec 32

end Sys2Proof.Config
end

