-- ==== Sys2Proof/Machine/Num.lean ====
section
/-! DEFINITION. The number formats of 02_number_formats: codes, exact values, rounding and conversion. Exact values
are dyadic: `Num.fin neg m e` is `(-1)^neg * m * 2^e`. -/

namespace Sys2Proof

/-- The format of a code of R36, if the code is not reserved. -/
def Fmt.ofCode (c : BitVec 4) : Option Fmt :=
  match c.toNat with
  | 0 => some .fp32 | 1 => some .bf16 | 2 => some .fp16 | 3 => some .e4m3 | 4 => some .e5m2 | 5 => some .fp64
  | 6 => some .int32 | 7 => some .int16 | 8 => some .int8 | 9 => some .int4 | 10 => some .fp4 | 11 => some .e8m0
  | _ => none

/-- The code of a format (R36). -/
def Fmt.code : Fmt → BitVec 4
  | .fp32 => 0 | .bf16 => 1 | .fp16 => 2 | .e4m3 => 3 | .e5m2 => 4 | .fp64 => 5
  | .int32 => 6 | .int16 => 7 | .int8 => 8 | .int4 => 9 | .fp4 => 10 | .e8m0 => 11

/-- Bits of an element (R36). -/
def Fmt.width : Fmt → Nat
  | .fp32 => 32 | .bf16 => 16 | .fp16 => 16 | .e4m3 => 8 | .e5m2 => 8 | .fp64 => 64
  | .int32 => 32 | .int16 => 16 | .int8 => 8 | .int4 => 4 | .fp4 => 4 | .e8m0 => 8

/-- A floating-point format, the scale format left out. -/
def Fmt.isFloat : Fmt → Bool
  | .fp32 | .bf16 | .fp16 | .e4m3 | .e5m2 | .fp64 | .fp4 => true
  | _ => false

/-- An integer format (R45). -/
def Fmt.isInt : Fmt → Bool
  | .int32 | .int16 | .int8 | .int4 => true
  | _ => false

/-- A format that may be named everywhere (R36). -/
def Fmt.everywhere : Fmt → Bool
  | .int4 | .fp4 | .e8m0 => false
  | _ => true

/-- One of the two FP8 formats. -/
def Fmt.isFp8 : Fmt → Bool
  | .e4m3 | .e5m2 => true
  | _ => false

/-- Fraction bits (R38). -/
def Fmt.mbits : Fmt → Nat
  | .fp32 => 23 | .bf16 => 7 | .fp16 => 10 | .e4m3 => 3 | .e5m2 => 2 | .fp64 => 52 | .fp4 => 1
  | _ => 0

/-- Exponent bias (R38). -/
def Fmt.bias : Fmt → Int
  | .fp32 => 127 | .bf16 => 127 | .fp16 => 15 | .e4m3 => 7 | .e5m2 => 15 | .fp64 => 1023 | .fp4 => 1
  | _ => 0

/-- The exponent of the smallest normal value (R38). -/
def Fmt.emin (f : Fmt) : Int := 1 - f.bias

/-- The all-ones exponent field (R38). -/
def Fmt.emax (f : Fmt) : Nat := 2 ^ (f.width - 1 - f.mbits) - 1

/-- The code of the largest finite value, sign clear (R38). -/
def Fmt.maxCode : Fmt → Nat
  | .fp32 => 0x7F7FFFFF | .bf16 => 0x7F7F | .fp16 => 0x7BFF | .e4m3 => 0x7E | .e5m2 => 0x7B
  | .fp64 => 0x7FEFFFFFFFFFFFFF | .fp4 => 0x7
  | _ => 0

/-- The canonical NaN of a format (R39); an integer format has none and takes 0 (R66). -/
def Fmt.nanCode : Fmt → Nat
  | .fp32 => 0x7FC00000 | .bf16 => 0x7FC0 | .fp16 => 0x7E00 | .e4m3 => 0x7F | .e5m2 => 0x7E
  | .fp64 => 0x7FF8000000000000 | .e8m0 => 0xFF
  | _ => 0

/-- The code of plus infinity (R39); E4M3 has its NaN in its place (R64). -/
def Fmt.infCode : Fmt → Nat
  | .e4m3 => 0x7F
  | f => f.emax * 2 ^ f.mbits

/-- The smallest and largest value of an integer format (R45). -/
def Fmt.intMin (f : Fmt) : Int := -(2 ^ (f.width - 1))
/-- The largest value of an integer format (R45). -/
def Fmt.intMax (f : Fmt) : Int := 2 ^ (f.width - 1) - 1

/-! ## Exact values -/

/-- The signed significand of a finite value; 0 for the others. -/
def Num.signed : Num → Int
  | .fin n m _ => if n then -(m : Int) else m
  | _ => 0

/-- The exponent of a finite value. -/
def Num.expo : Num → Int
  | .fin _ _ e => e
  | _ => 0

/-- A NaN. -/
def Num.isNan : Num → Bool
  | .nan _ => true
  | _ => false

/-- A signalling NaN (R40). -/
def Num.isSnan : Num → Bool
  | .nan s => s
  | _ => false

/-- An infinity. -/
def Num.isInf : Num → Bool
  | .inf _ => true
  | _ => false

/-- A zero of either sign. -/
def Num.isZero : Num → Bool
  | .fin _ m _ => m == 0
  | _ => false

/-- The sign; that of a NaN is clear (R41). -/
def Num.neg : Num → Bool
  | .fin n _ _ => n
  | .inf n => n
  | _ => false

/-- The value with its sign inverted. -/
def Num.negate : Num → Num
  | .fin n m e => .fin (!n) m e
  | .inf n => .inf (!n)
  | x => x

/-- The magnitude. -/
def Num.abs : Num → Num
  | .fin _ m e => .fin false m e
  | .inf _ => .inf false
  | x => x

/-- The finite value `m * 2^e` of a signed significand; zero takes the given sign. -/
def Num.ofInt (zneg : Bool) (m : Int) (e : Int) : Num :=
  .fin (if m = 0 then zneg else decide (m < 0)) m.natAbs e

/-- `floor(log2 |x|)` of a nonzero finite value. -/
def Num.log2 : Num → Int
  | .fin _ m e => (Nat.log2 m : Int) + e
  | _ => 0

/-- `m * 2^(e - g)` rounded down: an entry of the aligned adder (R77). -/
def alignTo (g : Int) (m e : Int) : Int :=
  if g ≤ e then m * 2 ^ (e - g).toNat else m.fdiv (2 ^ (g - e).toNat)

/-- The sum of two dyadic values, exact. -/
def addDyadic (m₁ e₁ m₂ e₂ : Int) : Int × Int :=
  let g := min e₁ e₂
  (alignTo g m₁ e₁ + alignTo g m₂ e₂, g)

/-- Whether `m₁ * 2^e₁ ≤ m₂ * 2^e₂`. -/
def leDyadic (m₁ e₁ m₂ e₂ : Int) : Bool :=
  let g := min e₁ e₂
  decide (alignTo g m₁ e₁ ≤ alignTo g m₂ e₂)

/-- The position of a value in the order of R102: the class, and for finite values the signed value. -/
def Num.le (a b : Num) : Bool :=
  match a, b with
  | .nan _, _ => false
  | _, .nan _ => false
  | .inf true, _ => true
  | _, .inf false => true
  | .inf false, _ => false
  | _, .inf true => false
  | .fin n₁ m₁ e₁, .fin n₂ m₂ e₂ =>
    if m₁ = 0 ∧ m₂ = 0 then n₁ || !n₂
    else leDyadic (Num.fin n₁ m₁ e₁).signed e₁ (Num.fin n₂ m₂ e₂).signed e₂

/-- Strictly less in the order of R102. -/
def Num.lt (a b : Num) : Bool := a.le b && !b.le a

/-- The same place in the order of R102. -/
def Num.eqv (a b : Num) : Bool := a.le b && b.le a

/-! ## From bits to values -/

/-- The value of a floating-point code (R38, R39). -/
def Fmt.decodeFloat (f : Fmt) (c : Nat) : Num :=
  let neg := c.testBit (f.width - 1)
  let E := c / 2 ^ f.mbits % (f.emax + 1)
  let fr := c % 2 ^ f.mbits
  let normal := Num.fin neg (2 ^ f.mbits + fr) ((E : Int) - f.bias - f.mbits)
  if E = 0 then .fin neg fr (f.emin - f.mbits)
  else if E = f.emax then
    match f with
    | .fp4 => normal
    | .e4m3 => if fr = 7 then .nan false else normal
    | _ => if fr = 0 then .inf neg else .nan (decide (fr < 2 ^ (f.mbits - 1)))
  else normal

/-- The value of an element (R38, R39, R45, R49). -/
def Fmt.decode (f : Fmt) (c : Code) : Num :=
  let n := c.toNat % 2 ^ f.width
  match f with
  | .e8m0 => if n = 255 then .nan false else .fin false 1 ((n : Int) - 127)
  | .int32 | .int16 | .int8 | .int4 =>
    if n < 2 ^ (f.width - 1) then .fin false n 0 else .fin true (2 ^ f.width - n) 0
  | _ => f.decodeFloat n

/-- A subnormal element: exponent field zero, fraction not (R38). -/
def Fmt.subnormal (f : Fmt) (c : Code) : Bool :=
  f.isFloat && c.toNat / 2 ^ f.mbits % (f.emax + 1) == 0 && c.toNat % 2 ^ f.mbits != 0

/-! ## From values to bits -/

/-- `m / 2^k` rounded to nearest, ties to even (R59), and whether it was exact. -/
def rne (m : Nat) (k : Nat) : Nat × Bool :=
  let q := m / 2 ^ k
  let r := m % 2 ^ k
  let up := decide (2 ^ k < 2 * r) || (decide (2 * r = 2 ^ k) && decide (0 < k) && q.testBit 0)
  (if up then q + 1 else q, r == 0)

/-- A code with a sign (R38). -/
def Fmt.withSign (f : Fmt) (neg : Bool) (c : Nat) : Code :=
  BitVec.ofNat 64 (c + if neg then 2 ^ (f.width - 1) else 0)

/-- What rounding a finite value gives: bits, flags, and whether saturation took the place of an overflow. -/
structure Rounded where
  code : Code
  flags : FpFlags := {}
  sate : Bool := false
deriving DecidableEq, Repr

/-- The value beyond a floating-point target's range (R61, R71). -/
def Fmt.beyond (f : Fmt) (sat neg : Bool) : Rounded :=
  { code := f.withSign (neg && (sat || f != .e4m3)) (if sat then f.maxCode else f.infCode)
    flags := { ovf := true, nx := true }, sate := sat }

/-- Rounds the finite nonzero or zero value `(-1)^neg * m * 2^e` into a floating-point format (R59 to R63), with the
flags of R71 and R95. With `flush`, a result below the smallest normal is zero (R83). -/
def Fmt.roundFloat (f : Fmt) (sat flush : Bool) (neg : Bool) (m : Nat) (e : Int) : Rounded :=
  if m = 0 then { code := f.withSign neg 0 } else
    let L : Int := (Nat.log2 m : Int) + e
    let lowest := f.emin - f.mbits
    let q := if flush then L - f.mbits else max (L - f.mbits) lowest
    let (r, exact) := if e < q then rne m (q - e).toNat else (m * 2 ^ (e - q).toNat, true)
    if flush && !(leDyadic (2 ^ f.mbits) lowest r q) then { code := f.withSign neg 0 }
    else if q < lowest then { code := f.withSign neg (2 ^ f.mbits) }
    else
      -- the code's integer value rises with the value; a carry out of the significand steps the exponent field
      let bits := (q - lowest).toNat * 2 ^ f.mbits + r
      if f.maxCode < bits then f.beyond sat neg
      else
        { code := f.withSign neg bits
          flags := { nx := !exact, uf := !exact && decide (bits < 2 ^ f.mbits) } }

/-- An integer into an integer format: saturating or wrapping (R67, R100). -/
def Fmt.wrapInt (f : Fmt) (sat : Bool) (v : Int) : Rounded :=
  let out := decide (v < f.intMin) || decide (f.intMax < v)
  let w := if sat then max f.intMin (min f.intMax v) else v
  { code := BitVec.ofNat 64 (w.emod (2 ^ f.width)).toNat, sate := sat && out }

/-- A finite value into an integer format: nearest, ties to even, always saturating (R65, R71). -/
def Fmt.roundInt (f : Fmt) (neg : Bool) (m : Nat) (e : Int) : Rounded :=
  let (r, exact) := if e < 0 then rne m (-e).toNat else (m * 2 ^ e.toNat, true)
  let v : Int := if neg then -(r : Int) else r
  let out := decide (v < f.intMin) || decide (f.intMax < v)
  { (f.wrapInt true v) with flags := { nv := out, nx := !exact && !out } }

/-- A value into a target format (R59 to R66, R71). `fromInt` marks an integer source (R67, R68). -/
def Fmt.encode (f : Fmt) (sat fromInt : Bool) (v : Num) : Rounded :=
  if f.isInt then
    match v with
    | .nan _ => { code := 0, flags := { nv := true } }
    | .inf n => { (f.wrapInt true (if n then f.intMin else f.intMax)) with flags := { nv := true } }
    | .fin n m e => if fromInt then f.wrapInt sat (alignTo 0 (Num.fin n m e).signed e) else f.roundInt n m e
  else
    match v with
    | .nan s => { code := BitVec.ofNat 64 f.nanCode, flags := { nv := s } }
    | .inf n => { code := f.withSign (n && f != .e4m3) f.infCode, flags := { nv := f == .e4m3 } }
    | .fin n m e => f.roundFloat sat false n m e

/-- A conversion between two formats (R58 to R71). -/
def convert (src dst : Fmt) (sat : Bool) (c : Code) : Rounded :=
  if src = dst then { code := c } else dst.encode sat src.isInt (src.decode c)

/-- Whether the engine performs a pair of formats (R69). -/
def pairExists (src dst : Fmt) : Bool :=
  match src with
  | .int4 => dst == .int8
  | .fp4 => dst == .e4m3
  | .e8m0 => false
  | _ => dst.everywhere

/-- The default SAT of a target format (R62). -/
def Fmt.defaultSat : Fmt → Bool
  | .e5m2 | .fp16 | .bf16 | .fp32 | .fp64 => false
  | _ => true

/-! ## Shared block exponent (R49 to R57) -/

/-- A block-scaled element as the exact value `x * 2^(e - 127)`; a NaN scale makes it NaN, which is signalling where the
element is (R54, R55, R71). -/
def scaled (x : Num) (scale : BitVec 8) : Num :=
  match x with
  | .nan sig => .nan sig
  | .fin n m e => if scale = 0xFF then .nan false else .fin n m (e + (scale.toNat : Int) - 127)
  | .inf n => if scale = 0xFF then .nan false else .inf n

/-- `emax` of R56. -/
def Fmt.blockEmax : Fmt → Int
  | .e4m3 => 8 | .e5m2 => 15 | _ => 6

/-- The scale and the elements of one block of a block-scaled store (R56, R57): the elements that are valid. -/
def storeBlock (src dst : Fmt) (xs : List Code) : BitVec 8 × List Rounded :=
  let vs := xs.map src.decode
  if vs.any fun v => v.isNan || v.isInf then
    (0xFF, vs.map fun _ => { code := BitVec.ofNat 64 dst.nanCode, flags := { nv := true } })
  else
    let mags := (vs.filter fun v => !v.isZero).map Num.log2
    match mags with
    | [] => (0x7F, vs.map (dst.encode true src.isInt))
    | a :: r =>
      let e := r.foldl max a - dst.blockEmax + 127
      let sc := max 0 (min 254 e)
      (BitVec.ofInt 8 sc, vs.map fun v =>
        match v with
        | .fin n m x => dst.encode true false (.fin n m (x + 127 - sc))
        | v => dst.encode true false v)

end Sys2Proof
end

