-- ==== Sys2Proof/Machine/State.lean ====
section
/-! DEFINITION. The state of the engine: every piece of state the spec gives it, as plain data, the queue of
waiting commands, and the state right after reset. INVENTORY.md lists each field with its rule and reset value. -/

namespace Sys2Proof.Machine

/-- No command of the table is stopped with a fault: the spec gives every one an outcome in every state, so this
type has no constructor and nothing raises it (safe). -/
inductive Fault where
deriving DecidableEq, Repr

/-- Why the model has no meaning for a command. -/
inductive Refusal where
  /-- Raised by an arm of `exec` whose command has no meaning yet; safe, the model stops. -/
  | notModelled (mnemonic : String)
deriving DecidableEq, Repr

/-! ## Harts -/

/-- Privilege modes (R398). -/
inductive Mode where
  | m | u
deriving DecidableEq, Repr

/-- What a hart waits for: nothing, an event (R412), a scalar window access (R137) with the number of its scoreboard
access and the bytes of its instruction, a lease write (R112). -/
inductive HartWait where
  | run
  | wfi
  | load (op : LoadOp) (rd : BitVec 5) (addr : Word) (id len : Nat)
  | store (op : StoreOp) (addr : Word) (val : Word) (id len : Nat)
  | lease
deriving DecidableEq, Repr

/-- The hart is inside an access of the Icefield window, which ends at an instruction boundary only when it completes. -/
def HartWait.inWindow : HartWait → Bool
  | .load _ _ _ _ _ | .store _ _ _ _ _ => true
  | _ => false

/-- The accumulator formats of a bank entry's mode mark (R173). -/
inductive SumMode where
  | fast | strict32 | strict64
deriving DecidableEq, Repr

/-- A running sum (R81, R92): the value `m * 2^e` of the adder or accumulator with its alignment exponent, and the
classes of the terms taken in (R88). -/
structure RunSum where
  empty : Bool := true
  nan : Bool := false
  pinf : Bool := false
  ninf : Bool := false
  allNegZero : Bool := true
  m : Int := 0
  e : Int := 0
deriving DecidableEq, Repr

/-- One entry of a hart's statistic bank (R171). -/
structure StatEntry where
  sum : RunSum := {}
  max : Option Num := none
  count : Nat := 0
  mark : Option SumMode := none
  slush : Bool := false
deriving DecidableEq, Repr

/-- An Xcalad instruction in a vector queue, with everything it read at issue (R118, R151, R176, R193). -/
structure XEntry where
  x : XInstr
  n : Nat := 0
  pc : Word := 0
  scalar : Word := 0
  rstr : BitVec 24 := 64
  estr : BitVec 24 := 1
  ldVr : Nat := 256
  ldVc : Nat := 64
  eps : Word := 0
  mparam : Word := 0
  mseed : Word := 0
  mkeyl : Word := 0
  mkeyh : Word := 0
  mbase : Word := 0
  xarg : Word := 0
  /-- The waiting scoreboard access it presented at the head of its queue (R136). -/
  sb : Option Nat := none
deriving DecidableEq, Repr

/-- The engine CSRs of a hart (R547, R548). -/
structure HartCsrs where
  vfCode : BitVec 4 := 0
  vfOvf : Bool := false
  vfV : Bool := false
  vfpc : Word := 0
  even : BitVec 9 := 0
  /-- The edge bits of CE_KS_EVPEND; the level bits are conditions (R410). -/
  evpend : BitVec 9 := 0
  arrWin : BitVec 6 := 0
  arrTarget : BitVec 26 := 0
  drw : Word := 0
  fbw : BitVec 16 := 0
  vflags : FpFlags := {}
  rstr : BitVec 24 := 64
  estr : BitVec 24 := 1
  ldVr : BitVec 9 := 256
  ldVc : BitVec 7 := 64
  eps : Word := 0
  mparam : Word := 0
  mquota : Word := 0
  mseed : Word := 0
  mkeyl : Word := 0
  mkeyh : Word := 0
  mbase : Word := 0
  xarg : Word := 0
deriving DecidableEq, Repr

/-- The machine-mode CSRs of the RISC-V privileged architecture that a hart has (R399, R400, R406 to R408). -/
structure TrapCsrs where
  mie : Bool := false
  mpie : Bool := false
  mpp : Mode := .u
  mprv : Bool := false
  mtvec : Word := 0
  mscratch : Word := 0
  mepc : Word := 0
  mcause : Word := 0
  mtval : Word := 0
  mieReg : Word := 0
  mcounteren : Word := 0
  pmpcfg : Vector (BitVec 8) 8 := Vector.replicate 8 0
  pmpaddr : Vector Word 8 := Vector.replicate 8 0
deriving DecidableEq, Repr

/-- One hart (R132). -/
structure HartState where
  x : Vector Word 32 := Vector.replicate 32 0
  pc : Word := 0
  mode : Mode := .m
  trap : TrapCsrs := {}
  csr : HartCsrs := {}
  reservation : Option Word := none
  instret : BitVec 64 := 0
  halted : Bool := true
  wait : HartWait := .run
  preds : Vector (BitVec 256) 8 := Vector.replicate 8 0
  vqueue : List XEntry := []
  summary : DWord := 0x0400000000000000
  bank : Store StatEntry := []
  issued : Nat := 0
  retired : Nat := 0
  /-- mtval of a DEADLOCK that the hart takes at the end of the access or lease write under way (R368). -/
  dlock : Option Word := none
deriving DecidableEq, Repr

/-! ## Tile registers and the vector unit -/

/-- Lease modes of R110. -/
inductive LeaseMode where
  | free | exclusive | shared
deriving DecidableEq, Repr

/-- One tile register: 4096 containers, bit 32 of a container is its slush bit (R105). -/
structure Tile where
  data : Store (BitVec 33) := []
  /-- Containers with a bit that has changed since they were written, so that their stored parity or residue no longer
  agrees with them (R462). -/
  upset : Store Bool := []
  vr : Nat := 256
  vc : Nat := 64
  lease : LeaseMode := .free
  owner : Hart := 0
deriving DecidableEq, Repr

/-- A lease change that waits for its register (R112). -/
structure LeaseReq where
  who : Reader
  tile : TileReg
  hart : Hart
  mode : LeaseMode
deriving DecidableEq, Repr

/-- What an instruction that has completed releases when it retires (R139): its summary, its flags, its fault. -/
structure XResult where
  sum : DWord
  flags : FpFlags := {}
  fault : Option (BitVec 4) := none
deriving DecidableEq, Repr

/-- An accepted instruction that has not retired (R134, R138, R139). -/
structure Inflight where
  hart : Hart
  e : XEntry
  predv : BitVec 256 := 0
  quota : Word := 0
  accepted : Nat := 0
  occ : Nat := 1
  done : Nat := 1
  sb : Option Nat := none
  /-- It has completed and waits to retire behind an earlier instruction of its hart (R139). -/
  result : Option XResult := none
  /-- The physical lane groups that process it (R464). -/
  groups : List (Fin 17) := []
  /-- Results withheld by a failed residue check; it waits for its replay (R464). -/
  withheld : Bool := false
  /-- Scoreboard entries allocated before its acceptance, which a VSYNC of FN 1 waits for (R182). -/
  waitFor : List Nat := []
  /-- It touches Moraine words; its Moraine writes have been issued (R363). -/
  mor : Bool := false
  morIssued : Bool := false
deriving DecidableEq, Repr

/-- The vector unit. -/
structure VectorUnit where
  rr : Hart := 0
  inflight : List Inflight := []
  busyUntil : Nat := 0
  /-- The physical group being fenced: its number, from the failing check until the replay (R464). -/
  fence : Option (Fin 17) := none
  /-- The step of the failing check, the last step of its fence, in which nothing is accepted, and the step in which the last
  withheld instruction was accepted again (R464). -/
  fenceAt : Nat := 0
  fenceUntil : Nat := 0
  replayUntil : Nat := 0
deriving DecidableEq, Repr

/-! ## Icefield -/

/-- States of a floe entry (R283). -/
inductive FloeState where
  | unused | live | permafrost | melted
deriving DecidableEq, Repr

/-- One entry of the floe table (R283). -/
structure FloeEntry where
  state : FloeState := .unused
  wbase : BitVec 16 := 0
  hash : Bool := false
  mor : Bool := false
  size : BitVec 17 := 0
  pbase : BitVec 14 := 0
  res : BitVec 15 := 0
  wepoch : BitVec 16 := 0
  mbase : BitVec 48 := 0
deriving DecidableEq, Repr

/-- States of a segment (R290). -/
inductive SegState where
  | melted | live | permafrost | reviving
deriving DecidableEq, Repr

/-- A commit that has been accepted (R286): waiting for its ranges, or holding them for a revival. -/
structure Commit where
  floe : Fin 64
  entry : FloeEntry
  who : Reader
  /-- The open order that asked for the commit, when firmware made it (R423). -/
  order : Option Nat := none
  sb : Option Nat := none
  revived : Bool := true
deriving DecidableEq, Repr

/-- A revival in progress (R292): the segments still to do, in order, the one under test or fill, and the state
they take. -/
structure Revival where
  segs : List (Fin 64)
  /-- Segments already filled: cut short, the revival leaves them melted too (R458). -/
  filled : List (Fin 64) := []
  target : SegState
  ramped : Nat := 0
  tested : Bool := false
deriving DecidableEq, Repr

/-- One spare-map entry of a bank (R310, R529). -/
structure SpareEntry where
  row : BitVec 10 := 0
  used : Bool := false
  bad : Bool := false
deriving DecidableEq, Repr

/-- Who presents an access to the range scoreboard (R297, R298). -/
inductive Requester where
  | vector (h : Hart)
  | scalar (h : Hart)
  | mortar
  | drift (c : Fin 32)
  | arrival (p : Fin 4)
  | departure (p : Fin 4)
  | commit
  | sparing (bank row : Nat)
deriving DecidableEq, Repr

/-- A range of window words (R295), inclusive, and whether it writes. -/
structure Range where
  lo : Nat
  hi : Nat
  write : Bool
deriving DecidableEq, Repr

/-- An access at the scoreboard: one entry for each of its ranges (R295, R298). -/
structure Access where
  id : Nat
  who : Requester
  ranges : List Range
deriving DecidableEq, Repr

/-- The range scoreboard (R295 to R299): its allocated accesses, and the waiting ones in their order of presentation
(R296, R297). -/
structure Scoreboard where
  alloc : List Access := []
  waiting : List Access := []
  nextId : Nat := 0
deriving DecidableEq, Repr

/-- One entry of CE_ERR_ICE_LOG (R542). -/
structure LogEntry where
  bank : BitVec 10
  row : BitVec 10
  hits : Nat
deriving DecidableEq, Repr

/-- A Moraine line in transfer (R361, R362): the floe, the fabric byte address of the line, the scoreboard access it
belongs to, and the bytes that it writes, by offset; none for a read. -/
structure MorLine where
  floe : Fin 64
  addr : Nat
  acc : Nat
  write : Option (List (Nat × BitVec 8)) := none
deriving DecidableEq, Repr

/-- A Moraine word that has arrived for an access that is not done with it: the access, the fabric byte address, and
the word with its slush mark in bit 32 (R362, R364). -/
structure MorWord where
  acc : Nat
  addr : Nat
  w : BitVec 33
deriving DecidableEq, Repr

/-- A word being built: its data, its bytes written so far, and those of them that are marked. -/
structure Shadow where
  data : Word := 0
  written : BitVec 4 := 0
  marked : BitVec 4 := 0
deriving DecidableEq, Repr

/-- An entry of the Firn buffer that an access of a wide-port requester holds (R300, R301): the access, the line it holds
(its floe and its first window word), and, by word of the line, what it has read and what it has gathered to write. -/
structure FirnEntry where
  acc : Nat
  who : Requester
  line : Option (Fin 64 × Nat) := none
  read : Store (Option (BitVec 33)) := []
  write : Store Shadow := []
deriving DecidableEq, Repr

/-- A request for a Firn entry: the access, its requester, and the step of the request (R303). -/
structure FirnAsk where
  acc : Nat
  who : Requester
  step : Nat
deriving DecidableEq, Repr

/-- The Icefield scratchpad. -/
structure Icefield where
  /-- Codewords by cell: see `Machine/Ice.lean` for the cell number of a bank, level or spare row. -/
  cells : Store (BitVec 44) := []
  floes : Vector FloeEntry 64 := Vector.replicate 64 {}
  segs : Vector SegState 64 := Vector.replicate 64 .live
  fstage : Vector (Vector Word 8) 17 := Vector.replicate 17 (Vector.replicate 8 0)
  fstat : Vector (BitVec 4) 17 := Vector.replicate 17 0
  commit : Option Commit := none
  revival : Option Revival := none
  meltQ : List (Fin 64) := []
  spares : Store SpareEntry := []
  sparing : List (Nat × Nat) := []
  sb : Scoreboard := {}
  scrubPeriod : BitVec 16 := 2048
  /-- The period in force: that of CE_ICE_SCRUB at the last visit (R527). -/
  scrubInForce : BitVec 16 := 2048
  scrubLevel : Nat := 0
  spsel : Vector (BitVec 10) 17 := Vector.replicate 17 0
  log : List LogEntry := []
  /-- Corrected words that wait for their write-back: the cell and the corrected codeword (R306). -/
  writebacks : List (Nat × BitVec 44) := []
  /-- The Firn buffer by entry number (R300), and the accesses that wait for an entry, in the order of their requests
(R303). -/
  firn : Vector (Option FirnEntry) 64 := Vector.replicate 64 none
  firnQ : List FirnAsk := []
  /-- Moraine lines in transfer (R361), the oldest first; the first eight are staged in Firn entries 56 to 63. -/
  morLines : List MorLine := []
  /-- Moraine words that have arrived and are not used yet. -/
  morData : List MorWord := []
  /-- Accesses that retire when their last Moraine write line is acknowledged (R362). -/
  morClosing : List Nat := []
deriving DecidableEq, Repr

/-! ## Drifts -/

/-- A descriptor of format 2 or 3, decoded (R326, R331). -/
structure Desc where
  ver : Nat
  dir : BitVec 2 := 0
  s : Bool := false
  sat : Bool := false
  sfmt : BitVec 4 := 0
  dfmt : BitVec 4 := 0
  blk : BitVec 2 := 0
  bax : Bool := false
  tord : Bool := false
  pad : BitVec 3 := 0
  rel : Bool := false
  evt : Bool := false
  last : Bool := false
  persist : Bool := false
  idx : Bool := false
  iel : Bool := false
  bufi : Bool := false
  isrc : Bool := false
  faddr : BitVec 48 := 0
  iaddr : Word := 0
  ncol : Nat := 0
  nrow : Nat := 0
  frs : Int := 0
  irs : Int := 0
  srs : Int := 0
  padv : Word := 0
  padc : Nat := 0
  padr : Nat := 0
  saddr : BitVec 48 := 0
  isaddr : Word := 0
  ich : Nat := 0
  buf : Fin 16 := 0
  imax : Nat := 0
  /-- A reserved field is not zero. -/
  resv : Bool := false
deriving DecidableEq, Repr

/-- A write line issued to the fabric: its line address, its bytes by offset, the offsets that go with the poison
indication (R355, R357), and the lowest row with a byte in it. -/
structure WLine where
  addr : Nat
  bytes : List (Nat × BitVec 8)
  poison : List Nat := []
  row : Nat := 0
deriving DecidableEq, Repr

/-- A descriptor set in transfer (R323). -/
structure DriftSet where
  /-- The number of its first descriptor, counted from the chain's first. -/
  first : Nat := 0
  descs : List Desc := []
  /-- The code of the descriptor that failed its checks after these (R324). -/
  failCode : Option (BitVec 4) := none
  chainEnd : Bool := false
  /-- Its scoreboard access (R325). -/
  sb : Option Nat := none
  /-- The descriptor in progress, and the row it starts or resumes at (R359). -/
  cur : Nat := 0
  startRow : Nat := 0
  /-- The granted slot of a flow buffer and its scoreboard access (R348). -/
  slot : Option Nat := none
  slotSb : Option Nat := none
  /-- The Moraine words of its Icefield reads have been requested (R362). -/
  morAsked : Bool := false
  /-- Its indices so far (R344), or the indices that it has still to deliver (R343). -/
  idxs : List Int := []
  /-- Fabric lines that it needs once they are known, in the order of their requests, how many of them have been
requested, and those that have arrived (R355). -/
  need : Option (List Nat) := none
  issued : Nat := 0
  got : List (Nat × LineResult) := []
  /-- Its data has moved; write lines may still be outstanding. -/
  performed : Bool := false
  wlines : List WLine := []
  /-- A format 2 fault of a store: the lowest row that is not complete, the cause, and the fabric line (R358). -/
  fail : Option (Nat × BitVec 3 × Nat) := none
  /-- Flags of its strict conversions so far, which its retirement sets (R94). -/
  flags : FpFlags := {}
deriving DecidableEq, Repr

/-- A new pair of bases that waits in the shadow (R352). -/
structure Bases where
  fabric : BitVec 48 := 0
  word : BitVec 26 := 0
deriving DecidableEq, Repr

/-- One drift channel (R318 to R360). -/
structure Channel where
  owner : Hart := 0
  batch : BitVec 5 := 16
  state : BitVec 4 := 0
  hcause : BitVec 3 := 0
  posDesc : BitVec 12 := 0
  posRow : BitVec 20 := 0
  extVr : Nat := 0
  extVc : Nat := 0
  marksRd : Nat := 0
  marksWr : Nat := 0
  idxbad : Nat := 0
  bases : Bases := {}
  shadow : Option Bases := none
  /-- The reader whose GO started its chain; none when firmware started it for an order (R23, R428). -/
  starter : Option Reader := none
  /-- Where the next set is fetched: list in Icefield or not, its address, the number of descriptors asked for, and the
access of a fetch from Icefield (R323). -/
  fetchN : Option Nat := none
  fetchSb : Option Nat := none
  /-- A fetch of a format 2 chain that failed: its cause and its fabric line (R356, R358). -/
  fetchFail : Option (BitVec 3 × Nat) := none
  listIce : Bool := false
  listAddr : Nat := 0
  version : Option Nat := none
  fetched : Nat := 0
  set : Option DriftSet := none
  next : Option DriftSet := none
  cached : Option DriftSet := none
  /-- The index queue of 256 indices (R343). -/
  queue : List Int := []
  marked : Bool := false
  stopping : Bool := false
  halting : Bool := false
  /-- The chain has a descriptor with PERSIST (R351), and the length of its first set. -/
  persist : Bool := false
  firstLen : Nat := 0
  /-- The channels that its index descriptors fetched so far feed (R343). -/
  feeds : List (Fin 32) := []
  /-- The open order that firmware started the chain for (R429). -/
  order : Option Nat := none
deriving DecidableEq, Repr

/-- One flow buffer (R347, R533). -/
structure FlowBuf where
  base : Word := 0
  slot : BitVec 20 := 0
  count : BitVec 9 := 0
  prod : BitVec 6 := 0
  cons : BitVec 6 := 0
  head : Word := 0
  tail : Word := 0
deriving DecidableEq, Repr

/-- The drift registers of one reader (R530). -/
structure DriftRegs where
  list : Word := 0
  listh : BitVec 16 := 0
  lsrc : Bool := false
  fbase : Word := 0
  fbaseh : BitVec 16 := 0
  ioff : BitVec 26 := 0
  rstat : BitVec 4 := 0
deriving DecidableEq, Repr

/-- What the detector of deadlocks keeps (R366, R368): the parties that are blocked, in the order in which they became so, and
the cycles that it has reported and that have not been broken since, each as its harts from the lowest on in the order of its
edges. -/
structure CycleWatch where
  blocked : List Party := []
  cycles : List (List Hart) := []
deriving DecidableEq, Repr

/-- The drift engine. -/
structure Drifts where
  ch : Vector Channel 32 := Vector.replicate 32 {}
  fb : Vector FlowBuf 16 := Vector.replicate 16 {}
  regs : Vector DriftRegs 17 := Vector.replicate 17 {}
  vers : BitVec 2 := 3
  dlckHarts : BitVec 16 := 0
  dlckParty : BitVec 6 := 0
  dlckKind : Bool := false
  dlckV : Bool := false
  watch : CycleWatch := {}
deriving DecidableEq, Repr

/-! ## Mortar sequencer -/

/-- A course block and its parameter block, decoded (R240, R250). -/
structure CourseDesc where
  bond : BitVec 4 := 0
  s : Bool := false
  sat : Bool := false
  fmtp : BitVec 4 := 0
  fmto : BitVec 4 := 0
  wreg : BitVec 6 := 0
  tra : Bool := false
  trb : Bool := false
  gat : Bool := false
  spb : Bool := false
  m : Nat := 0
  n : Nat := 0
  k : Nat := 0
  a : Word := 0
  b : Word := 0
  c : Word := 0
  out : Word := 0
  aux0 : Word := 0
  aux1 : Word := 0
  tau : Word := 0
  p : Vector Word 8 := Vector.replicate 8 0
  /-- A reserved bit of the course block is set. -/
  resv : Bool := false
deriving DecidableEq, Repr

/-- A summary under construction (R127). -/
structure SumAcc where
  valid : Nat := 0
  nan : Bool := false
  inf : Bool := false
  nz : Bool := false
  sate : Bool := false
  empty : Nat := 0
  slush : Nat := 0
  maxexp : Option Int := none
deriving DecidableEq, Repr

/-- An operand tile as it travels to the quadrant (R232): its tag fields, its payload words, the element positions that
are marked, and its scale words. -/
structure OpTile where
  kind : BitVec 3
  i : Nat
  j : Nat
  kx : Nat
  fmt : Fmt
  last : Bool := false
  sparse : Bool := false
  vr : Nat := 64
  vc : Nat := 64
  words : List Word := []
  scales : List Word := []
  marks : List Nat := []
deriving DecidableEq, Repr

/-- A result tile that has landed and waits for the bond (R236); the elements with their slush bits by position. -/
structure Landed where
  kind : BitVec 3
  i : Nat
  j : Nat
  int : Bool
  elems : Store (BitVec 33) := []
deriving DecidableEq, Repr

/-- The running statistics of one row of a row band (R257, R268, R270). -/
structure RowStat where
  m : Word := 0xFF800000
  s : RunSum := {}
  t : RunSum := {}
  k : Nat := 0
  nan : Bool := false
  slush : Bool := false
  seen : Bool := false
  /-- y of the target token. -/
  target : Word := 0
  /-- Per draw: the winning score, the vocabulary index and its y, if any. -/
  draws : List (Option (Word × Word × Word)) := []
  /-- B14: the coefficient g; B07: the statistic D; B11: the scale r. -/
  g : Word := 0
  /-- B14: a row without a gradient. -/
  bad : Bool := false
  /-- B09, B10: the row's slot entry is no sequence slot (R225). -/
  noSlot : Bool := false
deriving DecidableEq, Repr

/-- A place in the work of a course: row band, sweep, column tile, phase (R248). -/
structure Cursor where
  band : Nat := 0
  sweep : Nat := 1
  j : Nat := 0
  ph : Nat := 0
deriving DecidableEq, Repr

/-- Words that a course writes to one floe: window word, container, byte mask; and what a word adds to SUMMARY once it
is written (R246, R276). -/
structure OutWords where
  floe : Fin 64
  ws : List (Nat × BitVec 33 × BitVec 4)
  sums : List (Nat × SumAcc) := []
deriving DecidableEq, Repr

/-- A key tile of B07 whose P and dS wait until the row band shows where its +infinity scores are (R262): its place, the
entries of the LSE source and the scores by row, and the tile of dP. -/
structure DutchTile where
  at' : Cursor
  lse : List (BitVec 33)
  xs : List (List (BitVec 33))
  dp : Landed
deriving DecidableEq, Repr

/-- A running course. -/
structure CourseRun where
  addr : Word
  who : Reader
  slot : Bool := false
  /-- The formats of operands A, B, C and D. -/
  forms : Vector OpForm 4
  d : CourseDesc
  checked : Bool := false
  /-- The number of its free values. -/
  free : Nat := 0
  /-- The next operand tile to send, and whether none is left. -/
  send : Cursor := {}
  sendDone : Bool := false
  /-- The next piece of bond work. -/
  at' : Cursor := {}
  made : Option OpTile := none
  credits : Nat := 4
  /-- Result tiles that operand tiles already sent will bring and that have not come yet: kind and indices. -/
  owed : List (BitVec 3 × Nat × Nat) := []
  landed : List Landed := []
  /-- Output words of the tile at hand that are not written yet, and the place of that tile. -/
  out : List OutWords := []
  outAt : Cursor := {}
  rows : Store RowStat := []
  stat : Store StatEntry := []
  /-- The running output of the row band by row (R257): FP32 words with their marks. -/
  acc : Store (List (BitVec 33)) := []
  sum : SumAcc := {}
  flags : FpFlags := {}
  status : BitVec 4 := 1
  /-- A fault found during the course: its status, and the last piece of work that may write (R276). -/
  fault : Option (BitVec 4 × Cursor) := none
  /-- B07: key tiles whose elements wait for the rest of the row band (R262). -/
  kept : List DutchTile := []
  /-- B15: row bands of the own block that are in place, and blocks handed to the port (R273). -/
  own : Nat := 0
  hops : Nat := 0
  /-- The management time at which it started (R273). -/
  since : Nat := 0
  /-- Its bond step has failed a residue check and waits for its replay (R464). -/
  replay : Bool := false
  /-- A prologue's step has failed so (R245, R464). -/
  proReplay : Bool := false
  /-- Its bond step was discarded: nothing more is written (R467, R478). -/
  lost : Bool := false
  stopping : Bool := false
  finished : Bool := false
deriving DecidableEq, Repr

/-- A scoreboard access of the sequencer (R239): what it is for, its number, and whether its Moraine words have been
requested. -/
structure MortarAcc where
  key : Nat
  id : Nat
  asked : Bool := false
deriving DecidableEq, Repr

/-- The mortar sequencer (R242). -/
structure Mortar where
  run : Option CourseRun := none
  /-- The next course, and behind it one more while none runs. -/
  pend : Option (Word × Reader) := none
  waiting : Option (Word × Reader) := none
  /-- Dropped courses whose SUMMARY and STATUS are not written yet (R247). -/
  dropped : List (Word × Reader) := []
  slot : Bool := false
  opCredits : BitVec 8 := Config.operandCredits
  last : Vector (BitVec 2) 17 := Vector.replicate 17 0
  acc : List MortarAcc := []
  /-- Accesses whose Moraine write lines the course waits for (R363). -/
  writes : List Nat := []
  /-- Blocks read for the work at hand, by key: words by offset. -/
  aux : List (Nat × Store (BitVec 33)) := []
  /-- The last operand transfer: its tag and its tile (the port's output). -/
  sent : Option (DWord × OpTile) := none
deriving DecidableEq, Repr

/-! ## Neighbour ports -/

/-- A message as its header and payload fields (R372). -/
structure NbrMsg where
  type : BitVec 4
  win : BitVec 6 := 0
  gen : BitVec 16 := 0
  line : BitVec 20 := 0
  reason : BitVec 4 := 0
  seq : BitVec 16 := 0
  wmask : BitVec 16 := 0
  smark : BitVec 16 := 0
  credit : BitVec 24 := 0
  payload : List Word := []
deriving DecidableEq, Repr

/-- The states of a port (R394, R534). -/
inductive PortState where
  | absent | down | test | negotiating | up | novers
deriving DecidableEq, Repr

/-- One window of the partner in the mirror (R385). -/
structure Mirror where
  isOpen : Bool := false
  gen : BitVec 16 := 0
  lines : BitVec 20 := 0
  credit : BitVec 24 := 0
deriving DecidableEq, Repr

/-- How far a send descriptor has come (R386, R387). -/
inductive SendPhase where
  | queued | presented | sending | complete
deriving DecidableEq, Repr

/-- A send descriptor in a port's queue (R383, R384). `id` tells it from the others. -/
structure SendDesc where
  id : Nat
  addr : Word
  who : Reader
  win : BitVec 6 := 0
  gen : BitVec 16 := 0
  anygen : Bool := false
  evt : Bool := false
  src : Word := 0
  dline : Nat := 0
  nlines : Nat := 0
  lmask : BitVec 16 := 0
  resv : Bool := false
  /-- B15's own send: no descriptor in Icefield stands behind it (R273). -/
  bond : Bool := false
  phase : SendPhase := .queued
  sb : Option Nat := none
  /-- The access of its descriptor words at completion. -/
  doneSb : Option Nat := none
  nextLine : Nat := 0
  landed : Nat := 0
  outstanding : Nat := 0
  status : BitVec 4 := 0
  stop : Bool := false
  marked : Bool := false
deriving DecidableEq, Repr

/-- A write of CE_NBR_SEND whose descriptor words are still being read: its address, its writer, its access. -/
structure SendRead where
  addr : Word
  who : Reader
  sb : Nat
  asked : Bool := false
  /-- Its writer has written CE_NBR_SEND again, whose outcome CE_NBR_SSTAT holds (R535). -/
  quiet : Bool := false
  /-- Ports whose STOP code its writer has written since (R535). -/
  stops : List (Fin 4) := []
deriving DecidableEq, Repr

/-- A sequenced message that is not answered (R390): the message, its descriptor if it is DATA, and how often it was
resent. -/
structure Unanswered where
  msg : NbrMsg
  desc : Option Nat := none
  resends : Nat := 0
deriving DecidableEq, Repr

/-- An arrival that has passed its checks and waits for its line (R379). -/
structure Arrival where
  win : Fin 64
  word : Nat
  seq : BitVec 16
  wmask : BitVec 16
  smark : BitVec 16
  payload : Vector Word 16
  sb : Nat
  /-- Its words are written; Moraine lines may still be outstanding. -/
  written : Bool := false
  /-- Its port has gone down since it came: nothing acknowledges it (R396). -/
  stale : Bool := false
deriving DecidableEq, Repr

/-- One neighbour port. -/
structure Port where
  state : PortState := .down
  ver : BitVec 2 := 0
  cause : BitVec 4 := 0
  rtt : BitVec 20 := 0
  txSeq : BitVec 16 := 0
  rxSeq : BitVec 16 := 0
  unanswered : List Unanswered := []
  arrivals : List Arrival := []
  /-- The number that an ACK carries: the highest one landed with nothing before it still waiting; and the numbers landed
  beyond a waiting arrival (R389). -/
  landed : BitVec 16 := 0xFFFF
  ahead : List (BitVec 16) := []
  unacked : Nat := 0
  /-- Sequenced messages that wait for the limit of R390, with the descriptor of each. -/
  txWait : List (NbrMsg × Option Nat) := []
  /-- A RETRY has arrived and the resending is due (R390). -/
  retryPending : Bool := false
  mirror : Vector Mirror 64 := Vector.replicate 64 {}
  sends : List SendDesc := []
  /-- Echoes of our own test that came back intact (R395). -/
  echoes : Nat := 0
  partnerLo : Nat := 0
  partnerHi : Nat := 0
  failReported : Bool := false
  /-- Messages handed to the link, the oldest first (the port's output). -/
  tx : List NbrMsg := []
deriving DecidableEq, Repr

/-- One window (R374). -/
structure Window where
  isOpen : Bool := false
  closing : Bool := false
  /-- It closes with its port, without a REVOKE (R396). -/
  silent : Bool := false
  addr : Word := 0
  lines : BitVec 20 := 0
  port : Fin 4 := 0
  credit0 : BitVec 24 := 0
  gen : BitVec 16 := 0
  arr : Word := 0
  granted : BitVec 24 := 0
deriving DecidableEq, Repr

/-- The neighbour registers of one reader (R535). -/
structure NbrRegs where
  stage : Vector Word 4 := Vector.replicate 4 0
  wcred : BitVec 24 := 0
  wstat : BitVec 4 := 0
  infoOpen : Bool := false
  infoClosing : Bool := false
  infoGen : BitVec 16 := 0
  warr : Word := 0
  sstat : BitVec 2 := 0
deriving DecidableEq, Repr

/-- The neighbour ports and windows. -/
structure Neighbours where
  ports : Vector Port 4 := Vector.replicate 4 {}
  windows : Vector Window 64 := Vector.replicate 64 {}
  regs : Vector NbrRegs 17 := Vector.replicate 17 {}
  late : Word := 0
  vers : BitVec 8 := 0xFF
  /-- The ports that the chip connects, by number; nothing changes it (R371). -/
  connected : BitVec 4 := 0xF
  /-- Readers whose CLOSE of a window waits for its effect (R381), with the order that asked for it, if one did. -/
  closers : List (Fin 64 × Option Reader × Option Nat) := []
  reading : List SendRead := []
  nextSend : Nat := 0
deriving DecidableEq, Repr

/-! ## Hods and firmware -/

/-- An order as firmware took it from a ring (R419, R430). -/
structure Order where
  hod : Fin 3
  words : List Word
deriving DecidableEq, Repr

/-- What the course blocks of an order with a product hold (R423, R426, R427): the bonds, the extents that one course
may not split, and the parameters that the order sets. A field that is none is left to firmware. -/
structure OrderWork where
  bonds : List (BitVec 4)
  /-- Rows of each course, where no band may be split off (R427). -/
  m : Option Nat := none
  n : Option Nat := none
  k : Option Nat := none
  s : Bool := false
  sat : Bool := false
  fmto : Option (BitVec 4) := none
  causal : Bool := false
  mask : Bool := false
  offset : Option Word := none
  tau : Option Word := none
  /-- Bond, columns and reduction of each kind of course, where they differ; none where `n` and `k` say it (R423). -/
  shapes : List (BitVec 4 × Nat × Nat) := []
  /-- The format of operands A, B and C, and where Q, K, V, O, LSE and the mask stand, where the order's words say so. -/
  fmt : Option Fmt := none
  blocks : Option (Vector Word 6) := none
deriving DecidableEq, Repr

/-- An order that firmware serves and has not replied to (R421, R473). `id` is the model's number for it: an order's
TAG need not be unique. -/
structure OpenOrder where
  id : Nat := 0
  hod : Fin 3
  op : BitVec 8
  tag : BitVec 16
  job : BitVec 16
  /-- The tile plan of R427: row tiles, column tiles, reduction tiles, depth, slots of the flow buffer. -/
  plan : List Nat := []
  /-- Output tiles that the order's shape has (R425). -/
  tiles : Nat := 0
  /-- The harts that run the order's kernel (R428). -/
  kernel : List Hart := []
  /-- What its courses hold; none for an order of the vector unit alone. -/
  work : Option OrderWork := none
  /-- Output tiles that its courses have written, and the summary and STATUS of its last output (R425). -/
  written : Nat := 0
  last : Option (DWord × BitVec 4) := none
  /-- The opcodes of the instructions that write the outputs of an order of the vector unit alone (R423, R425). -/
  vops : List (BitVec 6) := []
  /-- The weight epoch that the order reads; 0xFFFF for none (R32). -/
  reads : BitVec 16 := 0xFFFF
  chans : List (Fin 32) := []
  marked : Bool := false
  /-- A weight push (R294): its floe, epoch and drift list, and the events done. -/
  floe : Fin 64 := 0
  wepoch : BitVec 16 := 0xFFFF
  list : BitVec 48 := 0
  phase : Nat := 0
  /-- The status that the order ends with once its channel has stopped (R429). -/
  ending : Option (BitVec 16) := none
  /-- An extension image that is copied to a staging floe (R414): words, and the access of firmware that reads them. -/
  image : Nat := 0
  imageSb : Option Nat := none
deriving DecidableEq, Repr

/-- One hod (R417, R545). -/
structure Hod where
  iprod : Word := 0
  icons : Word := 0
  oprod : Word := 0
  ocons : Word := 0
  serve : BitVec 16 := 1
  versEn : BitVec 2 := 3
  neg : BitVec 4 := 0
  ovf : Word := 0
  /-- Slot words by 16 times the slot plus the word. -/
  inSlots : Store Word := []
  outSlots : Store Word := []
  notify : Bool := false
deriving DecidableEq, Repr

/-- A resident extension (R413, R414). -/
structure Extension where
  id : BitVec 16
  codeAddr : Nat
  codeLen : Nat
  dataAddr : Nat
  dataLen : Nat
  entry : Nat
  nharts : Nat
  ntiles : Nat
  nch : Nat
  caps : BitVec 5 := 0
deriving DecidableEq, Repr

/-- A running extension call (R415, R416). -/
structure ExtCall where
  ext : BitVec 16
  /-- Its open order, and the weight epoch that the order reads (R32). -/
  order : Nat := 0
  reads : BitVec 16 := 0xFFFF
  hod : Fin 3
  tag : BitVec 16
  job : BitVec 16
  harts : List Hart
  ended : List Hart := []
  result : Word := 0
  tiles : List TileReg
  chans : List (Fin 32)
  /-- The status and words of its reply, once the call has ended and firmware waits for its channels, courses and
  leases (R416). -/
  ending : Option (BitVec 16 × List Word) := none
deriving DecidableEq, Repr

/-- The hods and what firmware keeps of its orders. -/
structure Hods where
  hod : Vector Hod 3 := Vector.replicate 3 {}
  orders : List Order := []
  openOrders : List OpenOrder := []
  nextOrder : Nat := 0
  /-- Jobs under KILL, with the open order of the KILL. -/
  kills : List (BitVec 16 × Nat) := []
  killed : List (BitVec 16) := []
  /-- Channels whose missing page was requested, with the report's TAG (R429). -/
  pageReqs : List (Fin 32 × BitVec 16) := []
  reportSeq : BitVec 16 := 0
  exts : List Extension := []
  calls : List ExtCall := []
  /-- Messages for an outbound ring that has no free slot yet, the oldest first. -/
  outQ : List (Fin 3 × List Word) := []
  /-- An extension image that the security engine verifies: its open order and the image. -/
  verifying : Option (Nat × List Word) := none
deriving DecidableEq, Repr

/-! ## Keystone -/

/-- One timer (R409, R517). `since` is the time, in nanoseconds, at which COUNT was loaded. -/
structure Timer where
  en : Bool := false
  owner : Hart := 0
  /-- A hart owns it; TMR3 has no owner once the frost monitor has taken or left it (R433, R449). -/
  owned : Bool := true
  frost : Bool := false
  count : Word := 0
  reload : Word := 0
  since : Nat := 0
deriving DecidableEq, Repr

/-- The registers and the local store of Keystone. -/
structure Keystone where
  store : Store (BitVec 44) := []
  scrubAt : Nat := 0
  timers : Vector Timer 4 := Vector.replicate 4 {}
  confReg : BitVec 16 := 0
  confReason : BitVec 4 := 0
  confSrc : BitVec 5 := 0
  confV : Bool := false
  preempt : Word := 0
deriving DecidableEq, Repr

/-! ## Pace, calibration, observation -/

/-- One calibration region (R444). -/
structure Region where
  tap : BitVec 6 := 20
  slack : BitVec 6 := 0
  /-- The step of that measurement, if one was made. -/
  measured : Option Nat := none
deriving DecidableEq, Repr

/-- Pace and live calibration (R438, R444, R536). -/
structure Calibration where
  pace : BitVec 12 := 0
  min : BitVec 12 := 0xFFF
  max : BitVec 12 := 0
  tapClaim : Bool := false
  on : Bool := false
  regions : Vector Region 35 := Vector.replicate 35 {}
  rsel : Vector (BitVec 6) 17 := Vector.replicate 17 0
  /-- The region that the tap showed before the last management write of CE_CAL_RSEL, and the step of that write (R553). -/
  tapWas : BitVec 6 := 0
  tapSince : Option Nat := none
  emerg : Word := 0
deriving DecidableEq, Repr

/-- One observation output (R537, R551). -/
structure ObsOut where
  code : BitVec 8 := 0
  src : BitVec 2 := 0
  toggle : Bool := false
deriving DecidableEq, Repr

/-- One event counter (R538). -/
structure EvCounter where
  event : BitVec 8 := 0
  en : Bool := false
  count : BitVec 48 := 0
  /-- The selection before the last write of the selector, and the step of that write: the new one counts from the step after
  it (R555). -/
  eventWas : BitVec 8 := 0
  enWas : Bool := false
  since : Option Nat := none
deriving DecidableEq, Repr

/-- Observation outputs and event counters. -/
structure Observation where
  out : Vector ObsOut 16 := Vector.replicate 16 {}
  ev : Vector EvCounter 8 := Vector.replicate 8 {}
  /-- The high words latched by a read of a low word, per counter and reader (R538). -/
  latch : List (Fin 8 × Reader × BitVec 16) := []
deriving DecidableEq, Repr

/-! ## Errors, lane groups, recovery -/

/-- The states of a physical lane group (R543). -/
inductive LaneState where
  | active | spare | fenced | testing | retired
deriving DecidableEq, Repr

/-- One physical lane group (R463, R543). `home` is the logical number it lost by a LANES fault, if it may take it
back (R465). -/
structure LaneGroup where
  state : LaneState := .active
  logical : BitVec 4 := 0
  fences : Nat := 0
  home : Option (BitVec 4) := none
  /-- Its self-test has passed, and its region is being brought into its band (R465). -/
  tested : Bool := false
deriving DecidableEq, Repr

/-- The state of R539. -/
inductive ErrState where
  | running | recovering | stopped
deriving DecidableEq, Repr

/-- What an uncorrectable fault's report will say, and what event 5 will poison (R470, R471, R474). -/
structure FaultRec where
  code : BitVec 8
  src : BitVec 4
  unit : BitVec 6
  loc : Word
  loc2 : Word
  count : Nat := 0
  time : BitVec 64 := 0
  /-- The step of event 1: a fault of the same step with a lower code takes the record (R475). -/
  step : Nat := 0
  jobs : List (BitVec 16) := []
  /-- Window ranges whose write had not retired at event 1. -/
  ranges : List Range := []
  /-- Containers that instructions accepted and not retired would have written: register, containers. -/
  marks : List (TileReg × List Nat) := []
  /-- Event 7 waits for verified firmware: words poisoned at event 5, and whether a range reached Moraine words. -/
  reload : Option (Nat × Bool) := none
deriving DecidableEq, Repr

/-- Error counters and recovery (R470, R539 to R544). -/
structure Errors where
  stat : ErrState := .running
  frec : Vector Word 10 := Vector.replicate 10 0
  iceCe : Word := 0
  iceUe : Word := 0
  icePoison : Word := 0
  ksCe : Word := 0
  lanes : Vector LaneGroup 17 := Vector.replicate 17 {}
  drfCh : BitVec 5 := 0
  drfMor : Bool := false
  drfKind : BitVec 2 := 0
  drfLost : Bool := false
  drfCount : BitVec 8 := 0
  recovery : Option FaultRec := none
deriving DecidableEq, Repr

/-! ## Start-up -/

/-- What the record check found (R498). -/
inductive SlotOutcome where
  | valid | absent | format | crc | mismatch | content
deriving DecidableEq, Repr

/-- What an orderly power-off request waits for (R457, R492): nothing, the end of the Icefield test or fill that runs, or
the engine's work. -/
inductive OffWait where
  | atOnce | tested | filled | drained
deriving DecidableEq, Repr

/-- Start-up (R482) and CE_KS_BOOT (R516). -/
structure Startup where
  stage : BitVec 4 := 1
  fwready : Bool := false
  fwref : Bool := false
  defaults : Bool := false
  laneShort : Bool := false
  newSpare : Nat := 0
  recordDone : Bool := false
  storeFilled : Bool := false
  lanesTested : Bool := false
  iceTested : Bool := false
  iceFilled : Bool := false
  fwDelivered : Bool := false
  /-- Stage 7 runs, or has run, once more after a KS_UE before stage 8 (R492). -/
  fwAgain : Bool := false
  /-- That KS_UE was met before the first delivery, so two deliveries are due. -/
  fwTwice : Bool := false
  keystoneStarted : Bool := false
  ready : Bool := false
  retained : List (Fin 64) := []
  rfmt : BitVec 8 := 0
  sta : SlotOutcome := .absent
  stb : SlotOutcome := .absent
  slotB : Bool := false
  seq : Word := 0
  caloff : Bool := false
  meltSeg : Nat := 0
  retired : BitVec 17 := 0
  /-- Hod 0 reports held until READY (R489), the oldest first. -/
  held : List (BitVec 8 × List Word) := []
  /-- A fault met before stage 8 (R492). -/
  earlyFault : Option FaultRec := none
deriving DecidableEq, Repr

/-! ## The whole state -/

/-- The state of the engine. -/
structure State where
  /-- The commands that wait, first in first out. -/
  pending : List Instr := []
  cfg : EngineConfig := .c3l
  cycle : Nat := 0
  /-- Nanoseconds since the end of reset (R408). -/
  time : Nat := 0
  freeCtr : Nat := 0
  powered : Bool := true
  powerReq : Bool := false
  offWait : OffWait := .atOnce
  /-- The segments whose retention rail is held while the engine is unpowered (R456). -/
  railHeld : List (Fin 64) := []
  /-- The spare map that the retained cells of spare rows stand by, until the record has been applied (R311, R456). It is no
  register. -/
  railMap : Store SpareEntry := []
  harts : Vector HartState 16 := Vector.replicate 16 {}
  tiles : Vector Tile 64 := Vector.replicate 64 {}
  leaseQ : List LeaseReq := []
  vu : VectorUnit := {}
  ice : Icefield := {}
  drf : Drifts := {}
  mortar : Mortar := {}
  nbr : Neighbours := {}
  hods : Hods := {}
  ks : Keystone := {}
  cal : Calibration := {}
  obs : Observation := {}
  err : Errors := {}
  boot : Startup := {}
deriving DecidableEq, Repr

/-- The lane map without a record (R463): physical group g is logical group g, and the last one is the spare.
Physical group 16 of a smaller configuration does not exist and stands as retired. -/
def resetLanes (c : EngineConfig) : Vector LaneGroup 17 :=
  Vector.ofFn fun g : Fin 17 =>
    if g.val < Config.groups c then { logical := BitVec.ofNat 4 g.val }
    else if g.val = Config.groups c then { state := .spare }
    else { state := .retired }

/-- Every register at its reset value (R21, R480) for a configuration, at stage 1 of start-up. -/
def State.resetFor (c : EngineConfig) : State :=
  { cfg := c, err := { lanes := resetLanes c } }

/-- The machine right after reset (R480). The configuration is fixed at design time (R3); reset takes C3-L, log
entry 1. -/
def State.reset : State := State.resetFor .c3l

end Sys2Proof.Machine
end

