-- ==== Sys2Proof/Machine/Flags.lean ====
section
/-! DEFINITION. The exception flags of R94 and the summary of R127 and R128. -/

namespace Sys2Proof

/-- The flags of two results together (R94). -/
def FpFlags.or (a b : FpFlags) : FpFlags :=
  { nv := a.nv || b.nv, dz := a.dz || b.dz, ovf := a.ovf || b.ovf, uf := a.uf || b.uf, nx := a.nx || b.nx }

/-- The flags as CE_KS_VFLAGS shows them (R548). -/
def FpFlags.toWord (f : FpFlags) : Word :=
  (if f.nx then 1 else 0) ||| (if f.uf then 2 else 0) ||| (if f.ovf then 4 else 0) |||
  (if f.dz then 8 else 0) ||| (if f.nv then 16 else 0)

/-- The flags that a write to CE_KS_VFLAGS leaves (R548). -/
def FpFlags.ofWord (w : Word) : FpFlags :=
  { nx := w.getLsbD 0, uf := w.getLsbD 1, ovf := w.getLsbD 2, dz := w.getLsbD 3, nv := w.getLsbD 4 }

end Sys2Proof

namespace Sys2Proof.Machine

/-! ## The summary (R127, R128) -/

/-- Takes one valid result into a summary: its format, its bits, whether its container is marked, whether
saturation produced it. -/
def SumAcc.add (a : SumAcc) (f : Fmt) (c : Code) (marked sate : Bool) : SumAcc :=
  let a := { a with valid := a.valid + 1 }
  if marked then { a with slush := a.slush + 1 }
  else
    let a := { a with sate := a.sate || sate }
    match f.decode c with
    | .nan _ => { a with nan := true }
    | .inf _ => { a with inf := true, nz := true }
    | .fin n m e =>
      if m = 0 then a
      else
        let l := (Num.fin n m e).log2
        { a with nz := true, maxexp := some (match a.maxexp with | some x => max x l | none => l) }

/-- Two summaries together. -/
def SumAcc.join (a b : SumAcc) : SumAcc :=
  { valid := a.valid + b.valid, nan := a.nan || b.nan, inf := a.inf || b.inf, nz := a.nz || b.nz, sate := a.sate || b.sate
    empty := a.empty + b.empty, slush := a.slush + b.slush
    maxexp := match a.maxexp, b.maxexp with | some x, some y => some (max x y) | some x, none => some x | none, y => y }

/-- The 64-bit layout of R127; EMPTY stays at 511 beyond that (R229). -/
def SumAcc.toWord (a : SumAcc) : DWord :=
  let mx : BitVec 12 := match a.maxexp with | some x => BitVec.ofInt 12 x | none => 0x800
  (0 : BitVec 5) ++ mx ++ BitVec.ofNat 15 a.slush ++ (0 : BitVec 4) ++ BitVec.ofNat 9 (min a.empty 511) ++
    BitVec.ofBool a.sate ++ BitVec.ofBool a.nz ++ BitVec.ofBool a.inf ++ BitVec.ofBool a.nan ++ BitVec.ofNat 15 a.valid

/-- The summary with every field zero but MAXEXP (R128). -/
def emptySummary : DWord := 0x0400000000000000

end Sys2Proof.Machine
end

