-- ==== Sys2Proof/Machine/Check.lean ====
section
/-! DEFINITION. The symbol code of Icefield and of the local store (R304 to R306): check symbols, the slush and poison
patterns, syndromes, and the class of a stored word. -/

namespace Sys2Proof.Machine

/-- A symbol times α, in GF(16) on x^4 + x + 1 (R304). -/
def gfAlpha (a : BitVec 4) : BitVec 4 := (a <<< 1) ^^^ (if a.getLsbD 3 then 3 else 0)

/-- The product of two symbols (R304). -/
def gfMul (a b : BitVec 4) : BitVec 4 :=
  let a1 := gfAlpha a
  let a2 := gfAlpha a1
  let a3 := gfAlpha a2
  (if b.getLsbD 0 then a else 0) ^^^ (if b.getLsbD 1 then a1 else 0) ^^^
    (if b.getLsbD 2 then a2 else 0) ^^^ (if b.getLsbD 3 then a3 else 0)

/-- Powers of α. -/
def gfPow : Nat → BitVec 4
  | 0 => 1
  | n + 1 => gfAlpha (gfPow n)

/-- The rows c2, c1, c0 of the table of R305, for data symbols 0 to 7. -/
def checkRows : List (BitVec 12) := [0x7E8, 0x84D, 0x94C, 0xEB4, 0x7F9, 0x95D, 0xFA4, 0x111]

/-- A symbol times a row of the table. -/
def rowMul (d : BitVec 4) (row : BitVec 12) : BitVec 12 :=
  gfMul (row.extractLsb' 8 4) d ++ gfMul (row.extractLsb' 4 4) d ++ gfMul (row.extractLsb' 0 4) d

/-- The check symbols c2, c1, c0 of a word (R305). -/
def checkBits (d : Word) : BitVec 12 :=
  (checkRows.zipIdx.map fun (row, i) => rowMul (d.extractLsb' (4 * i) 4) row).foldl (· ^^^ ·) 0

/-- A stored codeword from its check symbols and data bits (R304). -/
def codeword (c : BitVec 12) (d : Word) : BitVec 44 := c ++ d

/-- A clean codeword. -/
def encodeClean (d : Word) : BitVec 44 := codeword (checkBits d) d

/-- A slush-marked codeword (R306). -/
def encodeSlush (d : Word) : BitVec 44 := codeword (checkBits d ^^^ 0x0FF) d

/-- A poisoned codeword (R306). -/
def encodePoison (d : Word) : BitVec 44 := codeword (checkBits d ^^^ 0xF0F) d

/-- A codeword, marked or not (R307). -/
def encodeWord (d : Word) (mark : Bool) : BitVec 44 := if mark then encodeSlush d else encodeClean d

/-- The data bits of a codeword. -/
def cwData (c : BitVec 44) : Word := c.extractLsb' 0 32

/-- The symbol at a code position: 0 to 2 are the check symbols, 3 to 10 the data symbols (R304). -/
def cwSymbol (c : BitVec 44) (pos : Nat) : BitVec 4 :=
  if pos < 3 then c.extractLsb' (32 + 4 * pos) 4 else c.extractLsb' (4 * (pos - 3)) 4

/-- The code positions. -/
def positions : List Nat := List.range 11

/-- The syndrome S_j (R306). -/
def syndrome (c : BitVec 44) (j : Nat) : BitVec 4 :=
  (positions.map fun p => gfMul (cwSymbol c p) (gfPow (j * p % 15))).foldl (· ^^^ ·) 0

/-- The classes of R306. -/
inductive CwClass where
  | clean | slush | poisoned
  | single (pos : Nat) (value : BitVec 4)
  | bad
deriving DecidableEq, Repr

/-- The class of a stored word (R306). -/
def classify (c : BitVec 44) : CwClass :=
  let s0 := syndrome c 0
  let s1 := syndrome c 1
  let s2 := syndrome c 2
  if s0 = 0 && s1 = 0 && s2 = 0 then .clean
  else if s0 = 0 && s1 = 2 && s2 = 6 then .slush
  else if s0 = 0 && s1 = 6 && s2 = 0xD then .poisoned
  else if s0 ≠ 0 && gfMul s1 s1 = gfMul s0 s2 then
    match positions.find? fun p => gfMul s0 (gfPow p) == s1 with
    | some p => .single p s0
    | none => .bad
  else .bad

/-- A codeword with the symbol at a position corrected by a value. -/
def correctAt (c : BitVec 44) (pos : Nat) (v : BitVec 4) : BitVec 44 :=
  c ^^^ (v.setWidth 44 <<< (if pos < 3 then 32 + 4 * pos else 4 * (pos - 3)))

end Sys2Proof.Machine
end

