-- ==== Sys2Proof/Machine/Ops.lean ====
section
/-! DEFINITION. The named operations that the meanings share: sparse stores, state updates, registers of a hart,
events, hod messages, the range scoreboard, traps and the return from one. -/

namespace Sys2Proof.Machine

/-! ## Sparse stores -/

/-- What a store holds at a key; `d` is what an unlisted key reads as. -/
def sget {α : Type} (d : α) : Store α → Nat → α
  | [], _ => d
  | (k, v) :: r, i => if i = k then v else if i < k then d else sget d r i

/-- Writes one key and keeps the canonical form: writing the default removes the entry. -/
def sset {α : Type} [DecidableEq α] (d : α) : Store α → Nat → α → Store α
  | [], i, v => if v = d then [] else [(i, v)]
  | (k, w) :: r, i, v =>
    if i = k then (if v = d then r else (i, v) :: r)
    else if i < k then (if v = d then (k, w) :: r else (i, v) :: (k, w) :: r)
    else (k, w) :: sset d r i v

/-- The canonical form: keys strictly rising from `lo`, no entry equal to the default. -/
def swfFrom {α : Type} [DecidableEq α] (d : α) : Nat → Store α → Bool
  | _, [] => true
  | lo, (k, v) :: r => decide (lo ≤ k) && decide (v ≠ d) && swfFrom d (k + 1) r

/-- A store in canonical form. -/
def swf {α : Type} [DecidableEq α] (d : α) (m : Store α) : Bool := swfFrom d 0 m

/-- Writes a list of keys in order. -/
def ssetMany {α : Type} [DecidableEq α] (d : α) (m : Store α) (ws : List (Nat × α)) : Store α :=
  ws.foldl (fun acc w => sset d acc w.1 w.2) m

/-! ## Vectors -/

/-- Replaces one element. -/
def vset {α : Type} {n : Nat} (v : Vector α n) (i : Fin n) (x : α) : Vector α n := v.set i.val x i.isLt

/-- Changes one element. -/
def vmod {α : Type} {n : Nat} (v : Vector α n) (i : Fin n) (f : α → α) : Vector α n := vset v i (f (v.get i))

/-- Every index of a vector. -/
def fins (n : Nat) : List (Fin n) := List.finRange n

/-! ## Updates of State -/

/-- Changes one hart. -/
def State.modHart (s : State) (h : Hart) (f : HartState → HartState) : State :=
  { s with harts := vmod s.harts h f }

/-- One hart. -/
def State.hart (s : State) (h : Hart) : HartState := s.harts.get h

/-- Changes one tile register. -/
def State.modTile (s : State) (t : TileReg) (f : Tile → Tile) : State := { s with tiles := vmod s.tiles t f }

/-- Changes one drift channel. -/
def State.modCh (s : State) (c : Fin 32) (f : Channel → Channel) : State :=
  { s with drf := { s.drf with ch := vmod s.drf.ch c f } }

/-- One drift channel. -/
def State.chan (s : State) (c : Fin 32) : Channel := s.drf.ch.get c

/-- Changes one neighbour port. -/
def State.modPort (s : State) (p : Fin 4) (f : Port → Port) : State :=
  { s with nbr := { s.nbr with ports := vmod s.nbr.ports p f } }

/-- Changes one window. -/
def State.modWin (s : State) (w : Fin 64) (f : Window → Window) : State :=
  { s with nbr := { s.nbr with windows := vmod s.nbr.windows w f } }

/-- Changes the neighbour registers of one reader. -/
def State.modNbrRegs (s : State) (r : Reader) (f : NbrRegs → NbrRegs) : State :=
  { s with nbr := { s.nbr with regs := vmod s.nbr.regs r f } }

/-- Changes the drift registers of one reader. -/
def State.modDrfRegs (s : State) (r : Reader) (f : DriftRegs → DriftRegs) : State :=
  { s with drf := { s.drf with regs := vmod s.drf.regs r f } }

/-- Changes one hod. -/
def State.modHod (s : State) (h : Fin 3) (f : Hod → Hod) : State :=
  { s with hods := { s.hods with hod := vmod s.hods.hod h f } }

/-- Changes one timer. -/
def State.modTimer (s : State) (n : Fin 4) (f : Timer → Timer) : State :=
  { s with ks := { s.ks with timers := vmod s.ks.timers n f } }

/-- Changes one lane group. -/
def State.modLane (s : State) (g : Fin 17) (f : LaneGroup → LaneGroup) : State :=
  { s with err := { s.err with lanes := vmod s.err.lanes g f } }

/-- Sets the outcome in one reader's CE_ICE_FSTAT (R288). -/
def State.setFstat (s : State) (r : Reader) (c : BitVec 4) : State :=
  { s with ice := { s.ice with fstat := vset s.ice.fstat r c } }

/-- Sets the outcome in one reader's CE_NBR_WSTAT (R375). -/
def State.setWstat (s : State) (r : Reader) (c : BitVec 4) : State :=
  s.modNbrRegs r fun g => { g with wstat := c }

/-- Sets the outcome in one reader's CE_DRF_RSTAT (R352). -/
def State.setRstat (s : State) (r : Reader) (c : BitVec 4) : State :=
  s.modDrfRegs r fun g => { g with rstat := c }

/-- Changes the scoreboard. -/
def State.modSb (s : State) (f : Scoreboard → Scoreboard) : State :=
  { s with ice := { s.ice with sb := f s.ice.sb } }

/-- Applies an operation to each element of a list in turn. -/
def State.forEach {α : Type} (s : State) (l : List α) (f : State → α → State) : State := l.foldl f s

/-! ## Readers -/

/-- The management processor's reader number (R507). -/
def mgmt : Reader := 16

/-- The hart of a reader, if it is one. -/
def Reader.hart? (r : Reader) : Option Hart := if h : r.val < 16 then some ⟨r.val, h⟩ else none

/-- A hart as a reader. -/
def Hart.reader (h : Hart) : Reader := ⟨h.val, Nat.lt_succ_of_lt h.isLt⟩

/-- A write that machine-mode code or the management processor makes (R506). -/
def State.privileged (s : State) (r : Reader) : Bool :=
  match Reader.hart? r with
  | some h => (s.hart h).mode == .m
  | none => true

/-- The open order whose kernel a hart runs: firmware gives a hart to one order at a time (R426, R428). -/
def State.kernelOf (s : State) (h : Hart) : Option OpenOrder := s.hods.openOrders.find? fun o => o.kernel.contains h

/-- A KILL of `k` means job `j`. -/
def killMeans (k job : BitVec 16) : Bool := k == 0xFFFF || k == job

/-- A hart runs the kernel of an order whose job is under KILL: firmware issues that job's work no more (R428). -/
def State.underKill (s : State) (h : Hart) : Bool :=
  match s.kernelOf h with
  | some o => s.hods.kills.any fun k => killMeans k.1 o.job
  | none => false

/-- Whether a reader can act at all: the engine is powered (R27), and a hart is neither halted nor waiting, nor does it work
for a job under KILL (R428). -/
def State.canAct (s : State) (r : Reader) : Bool :=
  s.powered && match Reader.hart? r with
    | some h => !(s.hart h).halted && (s.hart h).wait == .run && !s.underKill h
    | none => true

/-! ## Writes of one register in one step (R431) -/

/-- A write that reaches a register which machine-mode code alone writes (R506). -/
def State.mayWrite (s : State) (r : Reader) : Bool := s.canAct r && s.privileged r

/-- Of two writers of a single-command register, the first has priority: the management processor, or else the lower
hart. -/
def Reader.before (a b : Reader) : Bool := b != mgmt && (a == mgmt || decide (a.val < b.val))

/-- A write of a single-command register is the one taken among the other readers' writes of the same step. -/
def State.takes (s : State) (r : Reader) (others : List Reader) : Bool :=
  others.all fun q => q == r || !s.mayWrite q || Reader.before r q

/-- The other readers whose write of the same step is not taken. -/
def State.losers (s : State) (r : Reader) (others : List Reader) : List Reader :=
  others.filter fun q => q != r && s.mayWrite q

/-- A write of a state register stands among the harts' writes of the same step: the management processor's, or else the
highest hart's. -/
def stands (r : Reader) (others : List Hart) : Bool := r == mgmt || others.all fun h => decide (h.val ≤ r.val)

/-! ## Counters -/

/-- A counter field that holds its largest value once it reaches it (R508). -/
def incSat {w : Nat} (b : BitVec w) : BitVec w := if b = BitVec.allOnes w then b else b + 1

/-- As `incSat`, several counts at once. -/
def addSat {w : Nat} (b : BitVec w) (n : Nat) : BitVec w :=
  if 2 ^ w ≤ b.toNat + n then BitVec.allOnes w else b + BitVec.ofNat w n

/-- Counts the harts' state writes that another write of the same step beats in CE_KS_PREEMPT (R431). -/
def State.countPreempt (s : State) (lost : List Hart) : State :=
  { s with ks := { s.ks with preempt := addSat s.ks.preempt lost.length } }

/-- A write of a state register in a step in which the harts `lost` write it too. Of the writes that reach the register one
stands, and it counts the others; a write that does not reach it is ignored and counts for nothing (R431, R506). -/
def State.stateWrite (s : State) (reaches : Reader → Bool) (r : Reader) (lost : List Hart) (f : State → State) : State :=
  let met := lost.filter fun h => Hart.reader h != r && reaches (Hart.reader h)
  if !reaches r then f s else if stands r met then f (s.countPreempt met) else s

/-- Takes the next number of the model's counter for free values (log entry 2). -/
def State.fresh (s : State) : State := { s with freeCtr := s.freeCtr + 1 }

/-- A counter counts an event in a step: a write of its selector acts from the step after it (R538, R555). -/
def EvCounter.counts (c : EvCounter) (now : Nat) (code : BitVec 8) : Bool :=
  match c.since with
  | some t => if now ≤ t then c.enWas && c.eventWas == code else c.en && c.event == code
  | none => c.en && c.event == code

/-- A counter after some occurrences of an event in a step. -/
def EvCounter.add (c : EvCounter) (now : Nat) (code : BitVec 8) (n : Nat) : EvCounter :=
  if c.counts now code then { c with count := c.count + BitVec.ofNat 48 n } else c

/-- Counts an event in every enabled counter that selects it (R538, R555). -/
def State.countEvent (s : State) (code : BitVec 8) (n : Nat) : State :=
  { s with obs := { s.obs with ev := s.obs.ev.map fun c => c.add s.cycle code n } }

/-- Inverts every observation output that shows a toggle signal (R551, R552). -/
def State.toggleObs (s : State) (code : BitVec 8) : State :=
  { s with obs := { s.obs with out := s.obs.out.map fun o =>
      if o.src == 1 && o.code == code then { o with toggle := !o.toggle } else o } }

/-! ## Stalled channels (R343, R348, R366) -/

/-- LOAD. -/
def Desc.isLoad (d : Desc) : Bool := d.dir == 0
/-- STORE. -/
def Desc.isStore (d : Desc) : Bool := d.dir == 1
/-- COPY. -/
def Desc.isCopy (d : Desc) : Bool := d.dir == 2
/-- INDEX. -/
def Desc.isIndex (d : Desc) : Bool := d.dir == 3
/-- It transfers nothing (R327). -/
def Desc.empty (d : Desc) : Bool := d.ncol == 0 || d.nrow == 0
/-- The index stream of R344 applies: a load or store with IDX. -/
def Desc.indexed (d : Desc) : Bool := d.idx && (d.isLoad || d.isStore)
/-- Indices that the descriptor takes (R344). -/
def Desc.indexCount (d : Desc) : Nat := if d.iel then d.nrow * d.ncol else d.nrow

/-- The role of a channel in the buffer that a descriptor names: producer, consumer, or none (R348). -/
def Desc.role (d : Desc) (b : FlowBuf) (c : Fin 32) : Option Bool :=
  let p := b.prod.toNat == c.val
  let q := b.cons.toNat == c.val
  if d.isLoad then (if p then some true else none)
  else if d.isCopy then (if p then some true else if q then some false else none)
  else if q then some false else none

/-- The Icefield side of a descriptor is a flow buffer (R347). -/
def Desc.buffered (d : Desc) : Bool := d.bufi && !(d.isIndex && !d.isrc)

/-- The descriptor in progress of a running channel whose set is allocated. -/
def State.current (s : State) (c : Fin 32) : Option (DriftSet × Desc) :=
  let x := s.chan c
  if x.state != 1 || x.halting || x.stopping then none
  else match x.set with
    | none => none
    | some st =>
      if (match st.sb with | some id => s.ice.sb.alloc.any fun a => a.id == id | none => true) then
        (st.descs[st.cur]?).map fun d => (st, d)
      else none

/-- What a channel is stalled on. -/
inductive Stall where
  | space (b : Fin 16)
  | data (b : Fin 16)
  | queueFull (k : Fin 32)
  | queueEmpty (k : Fin 32)
deriving DecidableEq, Repr

/-- Slots of data in a flow buffer (R348). -/
def FlowBuf.full (b : FlowBuf) : Nat := (b.head - b.tail).toNat

/-- A slot is free for the producer, or holds data for the consumer (R348). -/
def FlowBuf.open (b : FlowBuf) (producer : Bool) : Bool :=
  if producer then decide (b.full < b.count.toNat) else b.full != 0

/-- The coupled channel of a descriptor (R343). -/
def Desc.coupled (d : Desc) : Fin 32 := (BitVec.ofNat 5 d.ich).toFin

/-- Why a channel is stalled, if it is. -/
def State.stall (s : State) (c : Fin 32) : Option Stall :=
  match s.current c with
  | none => none
  | some (st, d) =>
    if d.empty then none
    else if d.buffered && st.slot.isNone then
      let b := s.drf.fb.get d.buf
      match d.role b c with
      | some p => if b.open p then none else some (if p then .space d.buf else .data d.buf)
      | none => none
    else if d.isIndex && st.performed && !st.idxs.isEmpty && decide (256 ≤ (s.chan d.coupled).queue.length) then
      some (.queueFull d.coupled)
    else if d.indexed && !st.performed && decide (st.idxs.length < d.indexCount) && (s.chan c).queue.isEmpty then
      some (.queueEmpty d.coupled)
    else none

/-! ## Sends that wait for credit (R388) -/

/-- No further line of a descriptor will be sent. -/
def SendDesc.doneSending (d : SendDesc) : Bool :=
  d.phase == .complete || (d.phase == .sending && (d.stop || d.status == 2 || decide (d.nlines ≤ d.nextLine)))

/-- A descriptor that is stopped: one that still waits in its queue completes at once (R386). -/
def SendDesc.stopped (d : SendDesc) : SendDesc :=
  match d.phase with
  | .queued => { d with stop := true, status := 7, phase := .complete }
  | _ => { d with stop := true }

/-- The descriptor at the head of a port's queue waits for credit. -/
def Port.noCredit (q : Port) : Bool :=
  match q.sends.find? fun d => !d.doneSending with
  | some d =>
    let m := q.mirror.get d.win.toFin
    d.phase == .sending && q.state == .up && m.isOpen && m.credit == 0
  | none => false

/-! ## The step counter -/

/-- Harts in WFI. -/
def State.wfiHarts (s : State) : Nat := ((fins 16).filter fun h => (s.hart h).wait == .wfi).length

/-- Release and the record's application end within a step: stage 2 follows stage 1, and stages 4a to 4c follow stage 3
(R482, log entry 127). -/
def Startup.tick (b : Startup) : Startup :=
  { b with stage := if b.stage = 1 then 2 else if b.stage = 3 then 4 else b.stage }

/-- Moves the step counter forward to step `n` (R434), with the events that every step counts (R555): steps,
occupied steps, steps with a waiting access, harts in WFI, and the time that they last. It never moves it back. -/
def State.advanceTo (s : State) (n : Nat) : State :=
  let d := n - s.cycle
  let busy := min s.vu.busyUntil n - min s.vu.busyUntil s.cycle
  let s := { s with cycle := s.cycle + d, time := s.time + (Config.nanosAtStep n - Config.nanosAtStep s.cycle) }
  let s := s.countEvent 0x01 d
  let s := s.countEvent 0x02 busy
  let s := s.countEvent 0x06 (if s.ice.sb.waiting.isEmpty then 0 else d)
  let s := s.countEvent 0x60 (d * s.wfiHarts)
  let s := s.countEvent 0x23 (d * ((fins 32).filter fun c => (s.stall c).isSome).length)
  let s := s.countEvent 0x43 (d * ((fins 4).filter fun p => (s.nbr.ports.get p).noCredit).length)
  let s := if d % 2 = 1 then s.toggleObs 0x01 else s
  { s with boot := if d = 0 then s.boot else s.boot.tick }

/-- The management time now, in nanoseconds (R408). -/
def State.nanos (s : State) : BitVec 64 := BitVec.ofNat 64 s.time

/-- Moves the management time forward to a nanosecond at which an event falls; it never moves it back (R408, R409). -/
def State.timeTo (s : State) (t : Nat) : State := { s with time := max s.time t }

/-! ## Registers of a hart -/

/-- Reads x0 to x31; x0 reads zero. -/
def HartState.getX (h : HartState) (r : BitVec 5) : Word := if r = 0 then 0 else h.x.get r.toFin

/-- Writes x0 to x31; a write to x0 is discarded. -/
def HartState.setX (h : HartState) (r : BitVec 5) (v : Word) : HartState :=
  if r = 0 then h else { h with x := vset h.x r.toFin v }

/-- A predicate: p0 reads as all ones (R114). -/
def HartState.getPred (h : HartState) (p : BitVec 3) : BitVec 256 :=
  if p = 0 then BitVec.allOnes 256 else h.preds.get p.toFin

/-- Writes a predicate; writes to p0 are ignored (R114). -/
def HartState.setPred (h : HartState) (p : BitVec 3) (v : BitVec 256) : HartState :=
  if p = 0 then h else { h with preds := vset h.preds p.toFin v }

/-- Adds flags to a hart's sticky flags (R94). -/
def State.raiseFlags (s : State) (h : Hart) (f : FpFlags) : State :=
  s.modHart h fun t => { t with csr := { t.csr with vflags := t.csr.vflags.or f } }

/-! ## Events (R410) -/

/-- Sets an edge event of a hart. -/
def State.raiseEvent (s : State) (h : Hart) (bit : Nat) : State :=
  s.modHart h fun t => { t with csr := { t.csr with evpend := t.csr.evpend ||| BitVec.ofNat 9 (2 ^ bit) } }

/-- A channel raises its drift event: the owner's DRIFT bit, when CE_KS_DRW selects the channel (R322, R410). -/
def State.driftEvent (s : State) (c : Fin 32) : State :=
  let o := (s.chan c).owner
  if (s.hart o).csr.drw.getLsbD c.val then s.raiseEvent o 0 else s

/-- Raises an edge event of the hart that made a command, if a hart made it. -/
def State.raiseFor (s : State) (r : Reader) (bit : Nat) : State :=
  match Reader.hart? r with
  | some h => s.raiseEvent h bit
  | none => s

/-- ARR: the arrival counter of the named window is at or above the target (R410, R548). -/
def State.arrPending (s : State) (h : Hart) : Bool :=
  let c := (s.hart h).csr
  c.arrTarget.toNat ≤ (s.nbr.windows.get c.arrWin.toFin).arr.toNat

/-- FB: a selected flow buffer has data for its consumer hart or space for its producer hart (R410). -/
def State.fbPending (s : State) (h : Hart) : Bool :=
  (fins 16).any fun i =>
    let b := s.drf.fb.get i
    (s.hart h).csr.fbw.getLsbD i.val && b.count != 0 &&
      ((b.cons.toNat == 32 + h.val && b.full != 0) || (b.prod.toNat == 32 + h.val && b.full < b.count.toNat))

/-- HODIN: a hod that the hart serves holds an unconsumed message (R410). -/
def State.hodinPending (s : State) (h : Hart) : Bool :=
  (fins 3).any fun i => let d := s.hods.hod.get i; d.serve.getLsbD h.val && d.iprod != d.icons

/-- HODOUT: a hod that the hart serves has a free outbound slot (R410). -/
def State.hodoutPending (s : State) (h : Hart) : Bool :=
  (fins 3).any fun i => let d := s.hods.hod.get i; d.serve.getLsbD h.val && decide ((d.oprod - d.ocons).toNat < 64)

/-- CE_KS_EVPEND of a hart: its edge bits and the level conditions (R410). -/
def State.evpend (s : State) (h : Hart) : BitVec 9 :=
  ((s.hart h).csr.evpend &&& 0b100100111) |||
    (if s.arrPending h then 0b1000 else 0) ||| (if s.fbPending h then 0b10000 else 0) |||
    (if s.hodinPending h then 0b1000000 else 0) ||| (if s.hodoutPending h then 0b10000000 else 0)

/-- An enabled event is pending (R412). -/
def State.eventReady (s : State) (h : Hart) : Bool := s.evpend h &&& (s.hart h).csr.even != 0

/-- VFAULT is pending and mie enables it (R407). -/
def State.vfaultReady (s : State) (h : Hart) : Bool :=
  (s.hart h).csr.vfV && (s.hart h).trap.mieReg.getLsbD 16

/-! ## Hod messages (R417 to R424) -/

/-- The header of a message (R419). -/
def msgHeader (op : BitVec 8) (rsp : Bool) (cont : BitVec 2) (tag : BitVec 16) (pver : BitVec 4)
    (status job wepoch : BitVec 16) : List Word :=
  [tag ++ (0 : BitVec 5) ++ cont ++ BitVec.ofBool rsp ++ op,
   status ++ (0 : BitVec 12) ++ pver, wepoch ++ job]

/-- The words of a message padded to whole slots. -/
def padSlots (ws : List Word) : List Word :=
  ws ++ List.replicate ((16 - ws.length % 16) % 16) 0

/-- Slots that a list of words fills. -/
def slotsOf (ws : List Word) : Nat := (padSlots ws).length / 16

/-- Whether an outbound ring has room for a message (R545). -/
def Hod.room (d : Hod) (ws : List Word) : Bool := decide ((d.oprod - d.ocons).toNat + slotsOf ws ≤ 64)

/-- Fills the outbound slots from OPROD onward and advances OPROD past them, which raises the notification line
(R418). -/
def Hod.post (d : Hod) (ws : List Word) : Hod :=
  let base := d.oprod.toNat % 64 * 16
  let pairs := (padSlots ws).zipIdx.map fun (w, i) => ((base + i) % 1024, w)
  { d with outSlots := ssetMany 0 d.outSlots pairs, oprod := d.oprod + BitVec.ofNat 32 (slotsOf ws), notify := true }

/-- Posts a message in a hod, behind those that wait for a free slot. -/
def State.postOut (s : State) (h : Fin 3) (ws : List Word) : State :=
  if (s.hods.outQ.all fun q => q.1 != h) && (s.hods.hod.get h).room ws then s.modHod h (·.post ws)
  else { s with hods := { s.hods with outQ := s.hods.outQ ++ [(h, ws)] } }

/-- Posts the messages of a hod that waited, as far as slots are free. -/
def flushOut (h : Fin 3) : List (Fin 3 × List Word) → State → State
  | [], s => s
  | (g, ws) :: r, s =>
    if g = h then
      if (s.hods.hod.get h).room ws then flushOut h r (s.modHod h (·.post ws))
      else { s with hods := { s.hods with outQ := s.hods.outQ ++ (g, ws) :: r } }
    else flushOut h r { s with hods := { s.hods with outQ := s.hods.outQ ++ [(g, ws)] } }

/-- Takes up the waiting messages of a hod after its master has advanced OCONS; firmware posts none during a recovery
(R470). -/
def State.flushHod (s : State) (h : Fin 3) : State :=
  if s.err.stat == .recovering then s else flushOut h s.hods.outQ { s with hods := { s.hods with outQ := [] } }

/-- Posts a report in Hod 0 with a PVER (R424): its TAG is the report sequence number, its job fields are zero. -/
def State.reportPver (s : State) (pver : BitVec 4) (op : BitVec 8) (ws : List Word) : State :=
  let hdr := msgHeader op true 0 s.hods.reportSeq pver 0 0 0
  { s with hods := { s.hods with reportSeq := s.hods.reportSeq + 1 } }.postOut 0 (hdr ++ ws)

/-- Posts a report in Hod 0 under the version negotiated there. -/
def State.reportNow (s : State) (op : BitVec 8) (ws : List Word) : State :=
  s.reportPver (s.hods.hod.get 0).neg op ws

/-- Sends a report: before READY reports are held (R489). -/
def State.report (s : State) (op : BitVec 8) (ws : List Word) : State :=
  if s.boot.ready then s.reportNow op ws else { s with boot := { s.boot with held := s.boot.held ++ [(op, ws)] } }

/-- The one reply to an order (R421): one slot under version 1 (R422), and none during a recovery, which an open order
does not outlive (R473). -/
def State.reply (s : State) (hod : Fin 3) (op : BitVec 8) (tag job : BitVec 16) (status : BitVec 16)
    (ws : List Word) : State :=
  if s.err.stat == .recovering then s
  else
    let neg := (s.hods.hod.get hod).neg
    let ws := if neg = 2 then ws else ws.take 13
    let cont := BitVec.ofNat 2 (slotsOf (List.replicate 3 0 ++ ws) - 1)
    s.postOut hod (msgHeader op true cont tag neg status job 0 ++ ws)

/-- The open order with a number. -/
def State.orderOf (s : State) (n : Nat) : Option OpenOrder := s.hods.openOrders.find? fun o => o.id == n

/-- Changes one open order. -/
def State.modOrder (s : State) (n : Nat) (f : OpenOrder → OpenOrder) : State :=
  { s with hods := { s.hods with openOrders := s.hods.openOrders.map fun o => if o.id == n then f o else o } }

/-- The open orders without one of them. -/
def State.closeOrder (s : State) (n : Nat) : State :=
  { s with hods := { s.hods with openOrders := s.hods.openOrders.filter fun o => o.id != n } }

/-- Replies to an open order and ends it (R421). -/
def State.endOrder (s : State) (o : OpenOrder) (status : BitVec 16) (ws : List Word) : State :=
  (s.reply o.hod o.op o.tag o.job status ws).closeOrder o.id

/-- The last output of an order of the vector unit alone: the summary of an instruction of its kernel, of an opcode that
writes the order's outputs (R423, R425). -/
def State.noteVector (s : State) (h : Hart) (op : BitVec 6) (sum : DWord) : State :=
  match s.kernelOf h with
  | some o => if o.vops.contains op then s.modOrder o.id fun p => { p with last := some (sum, 1) } else s
  | none => s

/-! ## The range scoreboard (R295 to R299) -/

/-- Two ranges conflict when they share a word and one of them writes (R295). -/
def Range.conflicts (a b : Range) : Bool :=
  decide (a.lo ≤ b.hi) && decide (b.lo ≤ a.hi) && (a.write || b.write)

/-- Two accesses conflict when ranges of theirs do. -/
def Access.conflicts (a b : Access) : Bool := a.ranges.any fun x => b.ranges.any fun y => x.conflicts y

/-- Entries allocated (R295). -/
def Scoreboard.entries (sb : Scoreboard) : Nat := (sb.alloc.map fun a => a.ranges.length).sum

/-- Entries that drifts hold (R325). -/
def Scoreboard.driftEntries (sb : Scoreboard) : Nat :=
  (sb.alloc.map fun a => match a.who with | .drift _ => a.ranges.length | _ => 0).sum

/-- Entries that the arrivals of one port hold (R380). -/
def Scoreboard.arrivalEntries (sb : Scoreboard) (p : Fin 4) : Nat :=
  (sb.alloc.filter fun a => a.who == .arrival p).length

/-- The limits on entries of one kind of requester (R325, R380). -/
def Scoreboard.within (sb : Scoreboard) (a : Access) : Bool :=
  decide (sb.entries + a.ranges.length ≤ 64) &&
    match a.who with
    | .drift _ => decide (sb.driftEntries + a.ranges.length ≤ 40)
    | .arrival p => decide (sb.arrivalEntries p < 4)
    | _ => true

/-- R296: a free entry, no allocated conflict, no earlier waiter that conflicts. -/
def Scoreboard.mayAllocate (sb : Scoreboard) (earlier : List Access) (a : Access) : Bool :=
  sb.within a && !(sb.alloc.any a.conflicts) && !(earlier.any a.conflicts)

/-- Presents an access: it joins the waiting ones (R296). -/
def State.present (s : State) (who : Requester) (rs : List Range) : State × Nat :=
  let id := s.ice.sb.nextId
  (s.modSb fun sb => { sb with waiting := sb.waiting ++ [{ id, who, ranges := rs }], nextId := id + 1 }, id)

/-- The accesses presented before one that waits. -/
def Scoreboard.before (sb : Scoreboard) (id : Nat) : List Access := sb.waiting.takeWhile fun a => a.id != id

/-- Whether a waiting access may be allocated now. -/
def Scoreboard.ready (sb : Scoreboard) (id : Nat) : Bool :=
  match sb.waiting.find? fun a => a.id == id with
  | some a => sb.mayAllocate (sb.before id) a
  | none => false

/-- Allocates a waiting access. -/
def State.allocate (s : State) (id : Nat) : State :=
  s.modSb fun sb =>
    { sb with alloc := sb.alloc ++ sb.waiting.filter (fun a => a.id == id)
              waiting := sb.waiting.filter fun a => a.id != id }

/-- Frees the entries of an access (R299), allocated or waiting. -/
def State.release (s : State) (id : Nat) : State :=
  s.modSb fun sb =>
    { sb with alloc := sb.alloc.filter (fun a => a.id != id), waiting := sb.waiting.filter fun a => a.id != id }

/-- An access that is presented, allocated and retired in one step (R239): whether nothing holds it. -/
def State.freeNow (s : State) (who : Requester) (rs : List Range) : Bool :=
  s.ice.sb.mayAllocate s.ice.sb.waiting { id := s.ice.sb.nextId, who, ranges := rs }

/-! ## Traps (R399, R406) -/

/-- Takes a trap: the pc and the mode are saved, interrupts go off, and the hart goes to its mtvec in machine mode,
or, for an interrupt with vectored mtvec, to the entry of its cause (R399, and the privileged architecture it names).
-/
def HartState.takeTrap (h : HartState) (interrupt : Bool) (cause : Nat) (tval : Word) : HartState :=
  let base := h.trap.mtvec &&& 0xFFFFFFFC#32
  let target := if interrupt && h.trap.mtvec.getLsbD 0 then base + BitVec.ofNat 32 (4 * cause) else base
  { h with
    trap := { h.trap with mepc := h.pc, mcause := BitVec.ofNat 32 (cause + if interrupt then 2 ^ 31 else 0),
                          mtval := tval, mpie := h.trap.mie, mie := false, mpp := h.mode }
    mode := .m, pc := target, wait := .run }

/-- Returns from a trap: the mode and the interrupt enable come back from MPP and MPIE (MRET of the privileged
architecture); MPP becomes U, the least privileged mode. -/
def HartState.mret (h : HartState) : HartState :=
  { h with mode := h.trap.mpp, pc := h.trap.mepc
           trap := { h.trap with mie := h.trap.mpie, mpie := true, mpp := .u
                                 mprv := h.trap.mprv && h.trap.mpp == .m } }

/-- Starts a chain (R320, R532): the channel's bases, its list, and every status field of the chain at zero. -/
def State.startChain (s : State) (c : Fin 32) (ice : Bool) (addr : Nat) (bases : Bases)
    (starter : Option Reader) (order : Option Nat) : State :=
  s.modCh c fun x =>
    { x with state := 1, hcause := 0, posDesc := 0, posRow := 0, marksRd := 0, marksWr := 0, idxbad := 0, bases
             shadow := none, starter, fetchN := none, fetchSb := none, fetchFail := none, listIce := ice
             listAddr := addr, version := none, fetched := 0
             set := none, next := none, cached := none, marked := false, stopping := false, halting := false
             persist := false, firstLen := 0, feeds := [], order }

/-- Asks a channel to stop: a RUNNING, ARMED or HALTED channel (R360). -/
def State.stopChannel (s : State) (c : Fin 32) : State :=
  s.modCh c fun x => if x.state == 1 || x.state == 4 || x.state == 5 then { x with stopping := true } else x

/-- A course that runs is to stop; one whose last output is written completes as stopped too (R247). -/
def CourseRun.stop (c : CourseRun) : CourseRun :=
  { c with stopping := true, status := if c.finished && c.status == 1 then 7 else c.status }

/-- A reader is one of some harts. -/
def readerIn (hs : List Hart) (r : Reader) : Bool := match Reader.hart? r with | some h => hs.contains h | none => false

/-- Drops the courses that some writers have pending, and stops the running course that one of them started (R247). -/
def State.stopCourses (s : State) (sel : Reader → Bool) : State :=
  let m := s.mortar
  let l := m.pend.toList ++ m.waiting.toList
  let keep := l.filter fun c => !sel c.2
  let run := m.run.map fun r => if sel r.who then r.stop else r
  { s with mortar := { m with run, pend := keep[0]?, waiting := keep[1]?, dropped := m.dropped ++ l.filter fun c => sel c.2 } }

/-- Ends an extension call for every hart: stops its channels and courses and asks for its tile leases to become Free
(R416); each lease changes once its register is no longer named (R112). A hart inside a window access completes it first,
and a chain of the management processor belongs to no call (R23). The reply, of this status and these words, waits for all
of it. -/
def State.endCall (s : State) (c : ExtCall) (st : BitVec 16) (ws : List Word) : State :=
  let calls := s.hods.calls.map fun (d : ExtCall) => if d.order == c.order then { d with ending := some (st, ws) } else d
  let s := { s with hods := { s.hods with calls } }
  let free : List LeaseReq := c.tiles.map fun t => { who := mgmt, tile := t, hart := 0, mode := .free }
  let s := { s with leaseQ := s.leaseQ ++ free }
  let chans := c.chans.filter fun k => (s.chan k).starter != some mgmt
  let s := (s.forEach chans State.stopChannel).stopCourses (readerIn c.harts)
  s.forEach c.harts fun s h => s.modHart h fun t =>
    { t with mode := .m, halted := true, wait := if t.wait.inWindow then t.wait else .run }

/-- The running extension call of a hart. -/
def State.callOf (s : State) (h : Hart) : Option ExtCall := s.hods.calls.find? fun c => c.harts.contains h

/-- A trap in an extension call ends the whole call with EXTFAULT (R416); the reply carries mcause, mepc and mtval
of the first trapping hart. -/
def State.extFault (s : State) (h : Hart) : State :=
  match s.callOf h with
  | none => s
  | some c =>
    let t := (s.hart h).trap
    if c.ending.isSome then s else s.endCall c 0x0B [t.mcause, t.mepc, t.mtval]

/-- A hart takes an exception (R406); in an extension call it ends the call. -/
def State.trap (s : State) (h : Hart) (cause : Nat) (tval : Word) : State :=
  let fromCall := (s.hart h).mode == .u
  let s := s.modHart h (·.takeTrap false cause tval)
  if fromCall then s.extFault h else s

/-- A hart that was in a window access or a lease write takes the DEADLOCK that waited for its end (R368). -/
def State.takeDeadlock (s : State) (h : Hart) : State :=
  match (s.hart h).dlock with
  | some v => if (s.hart h).wait == .run then (s.modHart h fun t => { t with dlock := none }).trap h 25 v else s
  | none => s

/-! ## Conflicts of shared resources (R432, R515) -/

/-- Records a refused write in CE_KS_CONFL. -/
def State.conflict (s : State) (reg : BitVec 16) (reason : BitVec 4) (src : Reader) : State :=
  { s with ks := { s.ks with confReg := reg, confReason := reason, confSrc := BitVec.ofNat 5 src.val, confV := true } }

/-! ## Lane groups -/

/-- The physical lane groups that the configuration has (R463). -/
def State.hasLane (s : State) (g : Fin 17) : Bool := decide (g.val ≤ Config.groups s.cfg)

/-- Healthy physical lane groups, active or spare (R477). -/
def State.healthyLanes (s : State) : Nat :=
  ((fins 17).filter fun g => s.hasLane g &&
    ((s.err.lanes.get g).state == .active || (s.err.lanes.get g).state == .spare)).length

/-- The spare lane group that is ready (R463, R467). -/
def State.readySpare (s : State) : Option (Fin 17) :=
  (fins 17).find? fun g => s.hasLane g && (s.err.lanes.get g).state == .spare

end Sys2Proof.Machine
end

