-- ==== Sys2Proof/Machine/Floe.lean ====
section
/-! DEFINITION. The geometry of Icefield: floe entries, the floe lookup, the grout hash, banks, levels and array rows,
the spare maps, and the cell of a word (R277 to R284, R310). -/

namespace Sys2Proof.Machine

/-! ## Floe entries (R283) -/

/-- The STATE field. -/
def FloeState.bits : FloeState → BitVec 2
  | .unused => 0 | .live => 1 | .permafrost => 2 | .melted => 3

/-- The state of a STATE field. -/
def FloeState.ofBits (b : BitVec 2) : FloeState :=
  if b = 1 then .live else if b = 2 then .permafrost else if b = 3 then .melted else .unused

/-- The entry that eight staging words hold. -/
def FloeEntry.ofWords (w : Vector Word 8) : FloeEntry :=
  { state := FloeState.ofBits ((w.get 0).extractLsb' 16 2), wbase := (w.get 0).extractLsb' 0 16
    hash := (w.get 0).getLsbD 18, mor := (w.get 0).getLsbD 19, size := (w.get 1).extractLsb' 0 17
    pbase := (w.get 2).extractLsb' 0 14, res := (w.get 2).extractLsb' 14 15, wepoch := (w.get 3).extractLsb' 0 16
    mbase := (w.get 5).extractLsb' 0 16 ++ w.get 4 }

/-- A reserved bit of the staging words is set. -/
def floeReserved (w : Vector Word 8) : Bool :=
  (w.get 0).extractLsb' 20 12 != 0 || (w.get 1).extractLsb' 17 15 != 0 || (w.get 2).extractLsb' 29 3 != 0 ||
    (w.get 3).extractLsb' 16 16 != 0 || (w.get 5).extractLsb' 16 16 != 0 || w.get 6 != 0 || w.get 7 != 0

/-- The eight words of an entry. -/
def FloeEntry.toWords (f : FloeEntry) : Vector Word 8 :=
  #v[(0 : BitVec 12) ++ BitVec.ofBool f.mor ++ BitVec.ofBool f.hash ++ f.state.bits ++ f.wbase,
     f.size.setWidth 32, (0 : BitVec 3) ++ f.res ++ f.pbase, f.wepoch.setWidth 32,
     f.mbase.extractLsb' 0 32, (f.mbase.extractLsb' 32 16).setWidth 32, 0, 0]

/-- A used entry. -/
def FloeEntry.used (f : FloeEntry) : Bool := f.state != .unused

/-- The window words of an entry, from the first to the one past the last (R284). -/
def FloeEntry.window (f : FloeEntry) : Nat × Nat := (f.wbase.toNat * 1024, (f.wbase.toNat + f.size.toNat) * 1024)

/-- The floe at a number. -/
def State.floe (s : State) (f : Fin 64) : FloeEntry := s.ice.floes.get f

/-- The floe whose window holds a word (R284). -/
def State.floeOf (s : State) (w : Nat) : Option (Fin 64) :=
  (fins 64).find? fun i =>
    let f := s.floe i
    f.used && decide (f.window.1 ≤ w) && decide (w < f.window.2)

/-- Any floe is Moraine-backed (R303). -/
def State.anyMor (s : State) : Bool := (fins 64).any fun i => (s.floe i).used && (s.floe i).mor

/-! ## Where a word lies -/

/-- Where R284 serves a window word from. -/
inductive Place where
  | phys (p : Nat) (hash : Bool)
  | moraine (floe : Fin 64) (addr : Nat)
deriving DecidableEq, Repr

/-- The place of a window word in a floe; none outside it (R284). -/
def State.place (s : State) (i : Fin 64) (w : Nat) : Option Place :=
  let f := s.floe i
  if f.used && decide (f.window.1 ≤ w) && decide (w < f.window.2) then
    let o := w - f.window.1
    if o < f.res.toNat * 1024 then some (.phys (f.pbase.toNat * 1024 + o) f.hash)
    else some (.moraine i (f.mbase.toNat + 4 * (o - f.res.toNat * 1024)))
  else none

/-- The segment of a physical word (R278). -/
def segOf (p : Nat) : Fin 64 := ⟨p / 2 ^ 18 % 64, Nat.mod_lt _ (by decide)⟩

/-- The state of the segment that holds a physical word. -/
def State.segAt (s : State) (p : Nat) : SegState := s.ice.segs.get (segOf p)

/-- The bits that the hash adds to the bank at a level (R279). -/
def hashBits (c : EngineConfig) (q : Nat) : Nat :=
  let n := Config.bankBits c
  (q % 2 ^ n) ^^^ (q / 2 ^ n % 2 ^ (match c with | .c3s => 5 | .c3m => 5 | .c3l => 4))

/-- The bank of a physical word (R279). -/
def bankOf (c : EngineConfig) (hash : Bool) (p : Nat) : Nat :=
  let x := p % Config.banks c
  if hash then x ^^^ hashBits c (p / Config.banks c) else x

/-- The physical word at a bank and level, with the hash on or off (R279, R280). -/
def physOf (c : EngineConfig) (hash : Bool) (bank q : Nat) : Nat :=
  q * Config.banks c + (if hash then bank ^^^ hashBits c q else bank)

/-- Cells of one bank: its levels, then 16 levels of each spare row. -/
def bankCells (c : EngineConfig) : Nat := Config.levels c + 16 * Config.spareRows

/-- The spare-map entry `n` of a bank (R310). -/
def State.spare (s : State) (bank n : Nat) : SpareEntry := sget {} s.ice.spares (bank * Config.spareRows + n)

/-- Writes a spare-map entry. -/
def State.setSpare (s : State) (bank n : Nat) (e : SpareEntry) : State :=
  { s with ice := { s.ice with spares := sset {} s.ice.spares (bank * Config.spareRows + n) e } }

/-- The spare row that serves an array row of a bank. -/
def State.sparedBy (s : State) (bank row : Nat) : Option Nat :=
  (List.range Config.spareRows).find? fun n =>
    let e := s.spare bank n
    e.used && !e.bad && e.row.toNat == row

/-- The lowest-numbered spare row of a bank that is neither used nor BAD (R313, R559). -/
def State.freeSpare (s : State) (bank : Nat) : Option Nat :=
  (List.range Config.spareRows).find? fun n => let e := s.spare bank n; !e.used && !e.bad

/-- The cell of spare row `n`, column `c`. -/
def spareCell (cfg : EngineConfig) (bank n col : Nat) : Nat := bank * bankCells cfg + Config.levels cfg + 16 * n + col

/-- The cell that serves a level of a bank, through the spare map (R310). -/
def State.cellAt (s : State) (bank q : Nat) : Nat :=
  match s.sparedBy bank (q / 16) with
  | some n => spareCell s.cfg bank n (q % 16)
  | none => bank * bankCells s.cfg + q

/-- The stored codeword of a level of a bank. -/
def State.codewordAt (s : State) (bank q : Nat) : BitVec 44 := sget 0 s.ice.cells (s.cellAt bank q)

/-- Stores a codeword; a write of a word cancels its waiting write-back (R306). -/
def State.setCell (s : State) (cell : Nat) (c : BitVec 44) : State :=
  { s with ice := { s.ice with cells := sset 0 s.ice.cells cell c
                               writebacks := s.ice.writebacks.filter fun w => w.1 != cell } }

/-- The bank and level of a physical word. -/
def State.bankLevel (s : State) (p : Nat) (hash : Bool) : Nat × Nat := (bankOf s.cfg hash p, p / Config.banks s.cfg)

/-- The floe whose resident range holds a physical word. -/
def State.floeAtPhys (s : State) (p : Nat) : Option (Fin 64) :=
  (fins 64).find? fun i =>
    let f := s.floe i
    f.used && decide (f.pbase.toNat * 1024 ≤ p) && decide (p < (f.pbase.toNat + f.res.toNat) * 1024)

/-- The floe that maps a level. A floe boundary falls on a whole level (R280), so the first word of the level tells. -/
def State.floeAtLevel (s : State) (q : Nat) : Option (Fin 64) := s.floeAtPhys (q * Config.banks s.cfg)

/-- The segment that holds a level (R278). -/
def segOfLevel (c : EngineConfig) (q : Nat) : Fin 64 := segOf (q * Config.banks c)

/-- The levels of a segment (R278). -/
def levelsOf (c : EngineConfig) (seg : Fin 64) : List Nat :=
  let n := 2 ^ 18 / Config.banks c
  (List.range n).map fun i => seg.val * n + i

/-- The segments that the configuration has. -/
def State.hasSeg (s : State) (seg : Fin 64) : Bool := decide (seg.val < Config.segments s.cfg)

/-- The segments that a resident range touches. -/
def FloeEntry.segs (f : FloeEntry) : List (Fin 64) :=
  (fins 64).filter fun g =>
    decide (g.val * 256 < f.pbase.toNat + f.res.toNat) && decide (f.pbase.toNat < (g.val + 1) * 256) && decide (0 < f.res.toNat)

/-- A resident range touches an array row, of any bank (R289). -/
def FloeEntry.meetsRow (c : EngineConfig) (f : FloeEntry) (row : Nat) : Bool :=
  let lo := 16 * row * Config.banks c
  let hi := 16 * (row + 1) * Config.banks c
  decide (f.pbase.toNat * 1024 < hi) && decide (lo < (f.pbase.toNat + f.res.toNat) * 1024) && decide (0 < f.res.toNat)

/-- Some segment is reviving (R564). -/
def State.reviving (s : State) : Bool := (fins 64).any fun g => s.ice.segs.get g == .reviving

/-! ## The Firn buffer (R300 to R303) -/

/-- The wide-port requester of an access: the drift engine, the mortar sequencer, or a neighbour port; none for the
others, which use no Firn entry (R301). -/
def Requester.wide : Requester → Option Nat
  | .drift _ => some 0
  | .mortar => some 1
  | .arrival p | .departure p => some (2 + p.val)
  | _ => none

/-- A drift's access. -/
def Requester.isDrift (r : Requester) : Bool := r.wide == some 0

/-- An access of a neighbour port. -/
def Requester.isNbr (r : Requester) : Bool := match r.wide with | some n => decide (2 ≤ n) | none => false

/-- The Firn entries of the accesses of some requesters. -/
def State.firnOf (s : State) (p : Requester → Bool) : Nat :=
  ((fins 64).filter fun i => match s.ice.firn.get i with | some e => p e.who | none => false).length

/-- Firn entries that stage Moraine lines: one for each line in transfer, eight at most (R303, R361). -/
def State.firnMor (s : State) : Nat := min 8 s.ice.morLines.length

/-- Firn entries in use. -/
def State.firnUsed (s : State) : Nat := s.firnOf (fun _ => true) + s.firnMor

/-- The entries below this number are for wide-port accesses: 56 to 63 stage Moraine lines alone while a floe has MOR = 1,
and none of them is granted from the acceptance of the commit that sets the first MOR = 1 (R303). -/
def State.firnLimit (s : State) : Nat :=
  if s.anyMor || s.ice.commit.any fun c => c.entry.used && c.entry.mor then 56 else 64

/-- The place of a requester among those of one step (R297): sparing locks, commits, the vector unit, the mortar sequencer,
channels, arrivals (W, E, X, L, R380), departures, harts. Among departures the port order is DEDUCED, log entry 138. -/
def Requester.rank : Requester → Nat
  | .sparing _ _ => 0
  | .commit => 1
  | .vector _ => 2
  | .mortar => 3
  | .drift c => 4 + c.val
  | .arrival p => 36 + p.val
  | .departure p => 40 + p.val
  | .scalar h => 44 + h.val

/-- The Firn entry of an access. -/
def State.firnFor (s : State) (acc : Nat) : Option (Fin 64) :=
  (fins 64).find? fun i => match s.ice.firn.get i with | some e => e.acc == acc | none => false

/-- The entry that an access of a requester may be granted: the lowest free one, while the requester holds fewer than 32
(R303). -/
def State.firnFree (s : State) (who : Requester) : Option (Fin 64) :=
  if 32 ≤ s.firnOf fun r => r.wide == who.wide then none
  else (fins 64).find? fun i => decide (i.val < s.firnLimit) && (s.ice.firn.get i).isNone

/-- Sets a Firn entry. -/
def State.setFirn (s : State) (i : Fin 64) (e : Option FirnEntry) : State :=
  { s with ice := { s.ice with firn := vset s.ice.firn i e } }

/-- Grants free entries in the order of the requests (R303). -/
def firnGrants : List FirnAsk → State → State
  | [], s => s
  | q :: r, s =>
    match s.firnFree q.who with
    | some i => firnGrants r (s.setFirn i (some { acc := q.acc, who := q.who }))
    | none => firnGrants r { s with ice := { s.ice with firnQ := s.ice.firnQ ++ [q] } }

/-- Grants what can be granted. -/
def State.firnGrant (s : State) : State := firnGrants s.ice.firnQ { s with ice := { s.ice with firnQ := [] } }

/-- A request in its place among those that wait: behind the earlier ones, and among those of its step in the order of R297
(R303; DEDUCED, log entry 186). -/
def insertAsk (q : FirnAsk) : List FirnAsk → List FirnAsk
  | [] => [q]
  | p :: r => if p.step = q.step ∧ q.who.rank < p.who.rank then q :: p :: r else p :: insertAsk q r

/-- An access asks for its Firn entry, once (R301, R303). -/
def State.firnAsk (s : State) (acc : Nat) (who : Requester) : State :=
  if (s.firnFor acc).isSome || s.ice.firnQ.any fun q => q.acc == acc then s
  else { s with ice := { s.ice with firnQ := insertAsk { acc, who, step := s.cycle } s.ice.firnQ } }.firnGrant

/-- Takes an access out of the Firn buffer and of its requests, and grants what that frees (R302, R303). -/
def State.firnDrop (s : State) (acc : Nat) : State :=
  let firn := s.ice.firn.map fun e => e.filter fun x => x.acc != acc
  { s with ice := { s.ice with firn, firnQ := s.ice.firnQ.filter fun q => q.acc != acc } }.firnGrant

end Sys2Proof.Machine
end

