-- ==== Sys2Proof/Machine/Arith.lean ====
section
/-! DEFINITION. Arithmetic of 03_arithmetic: products, the aligned sums of fast mode and the sequences of strict
mode, element-wise operations, maximum, minimum and comparison. Flags are the strict-mode flags; a caller in fast
mode drops them (R94). -/

namespace Sys2Proof

/-- The exact product (R74); zero times infinity is an invalid NaN (R88). -/
def Num.times : Num → Num → Num
  | .nan a, .nan b => .nan (a || b)
  | .nan a, _ => .nan a
  | _, .nan b => .nan b
  | .inf a, .inf b => .inf (a != b)
  | .inf a, .fin b m _ => if m = 0 then .nan true else .inf (a != b)
  | .fin a m _, .inf b => if m = 0 then .nan true else .inf (a != b)
  | .fin a m e, .fin b n f => .fin (a != b) (m * n) (e + f)

/-- One term of a group (R76): its exact value, and the entries it makes in the aligned adder as significand and
exponent (one, or the partial products of R86). -/
structure Term where
  v : Num
  parts : List (Int × Int)
deriving DecidableEq, Repr

/-- A term that enters the adder whole. -/
def Term.whole (v : Num) : Term := { v, parts := [(v.signed, v.expo)] }

/-- The partial products of passes 1 to 3 of a fast FP64 product (R85 to R87): the significands are taken with their
hidden bit and split at bit 26. -/
def splitParts (a b : Num) : List (Int × Int) :=
  match a, b with
  | .fin s m e, .fin t n f =>
    let sg : Int := if s != t then -1 else 1
    let x := e + f
    [(sg * ((m / 2 ^ 26 * (n / 2 ^ 26) : Nat) : Int), x + 52),
     (sg * ((m / 2 ^ 26 * (n % 2 ^ 26) : Nat) : Int), x + 26),
     (sg * ((m % 2 ^ 26 * (n / 2 ^ 26) : Nat) : Int), x + 26)]
  | _, _ => []

/-- A product as a term; `split` for a fast-mode FP64 product (R86). -/
def Term.prod (split : Bool) (a b : Num) : Term :=
  let p := a.times b
  if split then { v := p, parts := splitParts a b } else .whole p

/-- The aligned adder (R77): the sum of the entries on the grid `2^(A - 79)`. -/
def alignedSum (parts : List (Int × Int)) : Int × Int :=
  match parts.filter fun p => p.1 != 0 with
  | [] => (0, 0)
  | p :: r =>
    let lg := fun q : Int × Int => (Nat.log2 q.1.natAbs : Int) + q.2
    let g := r.foldl (fun a q => max a (lg q)) (lg p) - 79
    ((p :: r).foldl (fun a q => a + alignTo g q.1 q.2) 0, g)

/-- The exact sum of finite values. -/
def exactSum (vs : List Num) : Int × Int :=
  vs.foldl (fun a v => addDyadic a.1 a.2 v.signed v.expo) (0, 0)

/-- Minus zero. -/
def Num.isNegZero (v : Num) : Bool := v.isZero && v.neg

end Sys2Proof

namespace Sys2Proof.Machine

/-! ## Running sums (R76 to R82, R88, R92) -/

/-- The classes of R88 with more terms taken in; infinities of both signs make a NaN. -/
def RunSum.classify (r : RunSum) (vs : List Num) : RunSum :=
  let p := r.pinf || vs.any fun v => v == .inf false
  let n := r.ninf || vs.any fun v => v == .inf true
  { r with empty := r.empty && vs.isEmpty, pinf := p, ninf := n
           nan := r.nan || vs.any Num.isNan || (p && n) }

/-- No NaN and no infinity so far. -/
def RunSum.finite (r : RunSum) : Bool := !r.nan && !r.pinf && !r.ninf

/-- The invalid flag of the terms that a sweep adds (R88). -/
def RunSum.invalid (r : RunSum) (vs : List Num) : Bool :=
  vs.any Num.isSnan ||
    (!r.nan && !(vs.any Num.isNan) && (r.classify vs).pinf && (r.classify vs).ninf && !vs.isEmpty)

/-- Adds one sweep in fast mode: the carried value is one term of the group (R76, R81). -/
def RunSum.addFast (r : RunSum) (ts : List Term) : RunSum :=
  let c := r.classify (ts.map (·.v))
  if ts.isEmpty then r
  else if c.finite then
    let s := alignedSum ((r.m, r.e) :: ts.flatMap (·.parts))
    { c with m := s.1, e := s.2, allNegZero := r.allNegZero && ts.all fun t => t.v.isNegZero }
  else c

/-- Adds integers: without loss, in both modes (R101). -/
def RunSum.addInt (r : RunSum) (vs : List Num) : RunSum :=
  { r with empty := r.empty && vs.isEmpty, m := vs.foldl (fun a v => a + alignTo 0 v.signed v.expo) r.m, e := 0
           allNegZero := false }

/-- One step of the strict sequence (R92): an addition or a fused multiply-add rounded once into the accumulator
format. An accumulator that has overflowed stays infinite. -/
def RunSum.strictStep (acc : Fmt) (st : RunSum × FpFlags) (v : Num) : RunSum × FpFlags :=
  let (r, fl) := st
  if r.finite then
    let s := if r.empty then (v.signed, v.expo) else addDyadic r.m r.e v.signed v.expo
    let zneg := if r.empty then v.neg else r.m == 0 && r.allNegZero && v.isNegZero
    let neg := if s.1 = 0 then zneg else decide (s.1 < 0)
    let o := acc.roundFloat false false neg s.1.natAbs s.2
    let r' : RunSum := match acc.decode o.code with
      | .fin n m e => { r with empty := false, m := (Num.fin n m e).signed, e, allNegZero := n && m == 0 }
      | .inf n => { r with empty := false, pinf := !n, ninf := n, m := 0, allNegZero := false }
      | .nan _ => { r with empty := false, nan := true }
    (r', fl.or o.flags)
  else (r, fl)

/-- Adds one sweep in strict mode, in ascending order; the classification comes first (R88, R89, R92). -/
def RunSum.addStrict (acc : Fmt) (r : RunSum) (vs : List Num) : RunSum × FpFlags :=
  let c := r.classify vs
  if c.finite then vs.foldl (RunSum.strictStep acc) (r, {})
  else (c, { nv := r.invalid vs })

/-- The strict accumulator format (R92). -/
def accFmt (fs : List Fmt) : Fmt := if fs.contains .fp64 then .fp64 else .fp32

/-- Rounds a running sum once into the destination (R79, R80, R88, R92, R101). -/
def RunSum.result (r : RunSum) (dst : Fmt) (sat : Bool) : Rounded :=
  if dst.isInt && r.finite && decide (0 ≤ r.e) then dst.wrapInt sat (alignTo 0 r.m r.e)
  else if r.nan then { code := BitVec.ofNat 64 dst.nanCode }
  else if r.pinf || r.ninf then dst.encode sat false (.inf r.ninf)
  else dst.encode sat false (Num.ofInt (!r.empty && r.allNegZero) r.m r.e)

/-- The value that a running sum holds. -/
def RunSum.value (r : RunSum) : Num :=
  if r.nan then .nan false
  else if r.pinf || r.ninf then .inf r.ninf
  else Num.ofInt (!r.empty && r.allNegZero) r.m r.e

/-- One whole group (R76, R92): its terms in ascending element order, rounded into the destination. -/
def groupSum (strict sat : Bool) (acc dst : Fmt) (ts : List Term) : Rounded :=
  if dst.isInt then (RunSum.addInt {} (ts.map (·.v))).result dst sat
  else if strict then
    let (r, fl) := RunSum.addStrict acc {} (ts.map (·.v))
    let o := r.result dst sat
    { o with flags := fl.or o.flags }
  else (RunSum.addFast {} ts).result dst sat

/-! ## Element-wise operations (R83, R84, R90, R91, R100) -/

/-- An operand of a fast element-wise operation: a subnormal counts as zero of its sign (R83). -/
def readFlushed (strict : Bool) (f : Fmt) (c : Code) : Num :=
  let v := f.decode c
  if !strict && f.subnormal c then .fin v.neg 0 0 else v

/-- A group of one or two terms of an element-wise operation on floating-point operands. -/
def elemGroup (strict sat : Bool) (fd : Fmt) (ts : List Term) : Rounded :=
  let vs := ts.map (·.v)
  let c := RunSum.classify {} vs
  if !c.finite then
    let o := c.result fd sat
    { o with flags := o.flags.or { nv := RunSum.invalid {} vs } }
  else
    let ex := exactSum vs
    let zneg := vs.all Num.isNegZero
    if strict then fd.encode sat false (Num.ofInt zneg ex.1 ex.2)
    else
      let s := alignedSum (ts.flatMap (·.parts))
      if s.1 = 0 then fd.encode sat false (Num.ofInt zneg 0 0)
      else
        let o := fd.roundFloat sat true (decide (s.1 < 0)) s.1.natAbs s.2
        -- a flushed result has the sign of the exact result (R83)
        if o.code.toNat % 2 ^ (fd.width - 1) = 0 then
          { o with code := fd.withSign (if ex.1 = 0 then decide (s.1 < 0) else decide (ex.1 < 0)) 0 }
        else o

/-- The element-wise operations of R160. -/
inductive EOp where
  | add | sub | mul | abs | neg | fms | fma
deriving DecidableEq, Repr

/-- The exact integer result (R100). -/
def EOp.int (op : EOp) (a b d : Int) : Int :=
  match op with
  | .add => a + b
  | .sub => a - b
  | .mul => a * b
  | .abs => a.natAbs
  | .neg => -a
  | .fms => a * b - d
  | .fma => a * b + d

/-- The integer value of an element. -/
def intVal (f : Fmt) (c : Code) : Int := alignTo 0 (f.decode c).signed (f.decode c).expo

/-- ABS and NEG (R161): the sign changes exactly, a NaN becomes canonical, then the conversion into FMTD. -/
def signOp (isAbs sat : Bool) (fa fd : Fmt) (a : Code) : Rounded :=
  if fa.isInt then
    let r := fa.wrapInt sat (if isAbs then (intVal fa a).natAbs else -(intVal fa a))
    let o := convert fa fd sat r.code
    { o with sate := r.sate || o.sate }
  else
    match fa.decode a with
    | .nan _ => fd.encode sat false (.nan false)
    | v => fd.encode sat false (if isAbs then v.abs else v.negate)

/-- An element-wise operation on elements of FMTA, operand B's format and FMTD (R160). -/
def elementwise (op : EOp) (strict sat : Bool) (fa fb fd : Fmt) (a b d : Code) : Rounded :=
  match op with
  | .abs => signOp true sat fa fd a
  | .neg => signOp false sat fa fd a
  | _ =>
    if fa.isInt then fd.wrapInt sat (op.int (intVal fa a) (intVal fb b) (intVal fd d))
    else
      let x := readFlushed strict fa a
      let y := readFlushed strict fb b
      let z := readFlushed strict fd d
      let split := !strict && fa == .fp64
      elemGroup strict sat fd (match op with
        | .add => [.whole x, .whole y]
        | .sub => [.whole x, .whole y.negate]
        | .fma => [.prod split x y, .whole z]
        | .fms => [.prod split x y, .whole z.negate]
        | _ => [.prod split x y])

/-- FP32 element-wise steps of the sequences of R174 and R176 (non-saturating, R62). -/
def fp32Op (op : EOp) (strict : Bool) (a b : Word) : Word × FpFlags :=
  let r := elementwise op strict false .fp32 .fp32 .fp32 (a.setWidth 64) (b.setWidth 64) 0
  (r.code.setWidth 32, if strict then r.flags else {})

/-! ## Maximum, minimum, comparison (R102 to R104) -/

/-- `b` wins over `a`: strictly greater for a maximum, strictly less for a minimum. -/
def beats (isMin : Bool) (b a : Num) : Bool := if isMin then b.lt a else a.lt b

/-- The chosen operand of a maximum or minimum: `some false` the first, `some true` the second, none when both are
NaN (R103). -/
def chooseOf (isMin : Bool) (a b : Num) : Option Bool :=
  if a.isNan then (if b.isNan then none else some true)
  else if b.isNan then some false
  else some (beats isMin b a)

/-- Delivers a chosen element into FMTD (R162): its bits when it lies in FMTD, else its conversion. -/
def deliver (src dst : Fmt) (sat : Bool) (c : Code) : Rounded :=
  if (src.decode c).isNan then { code := BitVec.ofNat 64 dst.nanCode } else convert src dst sat c

/-- MAX and MIN of two elements (R162). -/
def maxmin (isMin sat : Bool) (fa fb fd : Fmt) (a b : Code) : Rounded :=
  let x := fa.decode a
  let y := fb.decode b
  let o := match chooseOf isMin x y with
    | some false => deliver fa fd sat a
    | some true => deliver fb fd sat b
    | none => { code := BitVec.ofNat 64 fd.nanCode }
  { o with flags := o.flags.or { nv := x.isSnan || y.isSnan } }

/-- The predicates of R104, by FN (R164). -/
def compareElems (p : Nat) (a b : Num) : Bool × Bool :=
  let un := a.isNan || b.isNan
  let sn := a.isSnan || b.isSnan
  match p with
  | 0 => (a.eqv b, sn)
  | 1 => (!un && !(a.eqv b), sn)
  | 2 => (a.lt b, un)
  | 3 => (a.le b, un)
  | 4 => (b.lt a, un)
  | 5 => (b.le a, un)
  | _ => (un, sn)

/-- Whether an element counts as nonzero where an instruction tests it: zeros of both signs do not, a NaN does. -/
def nonzero (f : Fmt) (c : Code) : Bool := !(f.decode c).isZero

/-- The order of selection by magnitude (R195): NaN below every number, zeros equal. -/
def magLess (a b : Num) : Bool :=
  match a.isNan, b.isNan with
  | true, true => false
  | true, false => true
  | false, true => false
  | _, _ => a.abs.lt b.abs

end Sys2Proof.Machine
end

