-- ==== Sys2Proof/Machine/Sfu.lean ====
section
/-! DEFINITION. The special-function unit (R96 to R99, R163): correctly rounded results by fixed-point evaluation to
320 fraction bits, and the fast results, which are open within the bounds of R97. -/

namespace Sys2Proof.Machine

/-- Fraction bits of the fixed-point evaluation. The results of FP32 inputs that are not exact lie much farther from
a rounding boundary than its error. -/
def fixP : Nat := 320

/-- 1 in fixed point. -/
def fixOne : Nat := 2 ^ fixP

/-- `ln 2` in fixed point, rounded down. -/
def fixLn2 : Nat :=
  0xb17217f7d1cf79abc9e3b39803f2f6af40f343267298b62d8a0d175b8baafa2be7b876206debac98

/-- `2 / sqrt(pi)` in fixed point, rounded down. -/
def fixErf : Nat :=
  0x120dd750429b6d11ae3a914fed7fd8688281341d7587cea2e7342b06199cc416180eb39f0b24e1e22

/-- A dyadic value in fixed point, rounded down. -/
def toFix (m : Int) (e : Int) : Int := alignTo (-(fixP : Int)) m e

/-- A fixed-point value times `2^k` as an exact value, its lowest bit set to stand for what lies below. -/
def ofFix (neg : Bool) (m : Nat) (k : Int) : Num := .fin neg (2 * m + 1) (k - fixP - 1)

/-- `e^x` for a fixed-point `x` from 0 to 1, by its series: `n` terms from term `i` with value `t`. -/
def expSeries (x : Nat) : Nat → Nat → Nat → Nat
  | 0, _, _ => 0
  | n + 1, i, t => t + expSeries x n (i + 1) (t * x / fixOne / (i + 1))

/-- `e^x` of a fixed-point `x`: a significand from 1 to 2 in fixed point and a power of two. -/
def expFix (x : Int) : Nat × Int :=
  let k := x.fdiv fixLn2
  (expSeries (x - k * fixLn2).toNat 100 0 fixOne, k)

/-- `atanh z` for a fixed-point `z` below 1/2, by its series. -/
def atanhSeries (z2 : Nat) : Nat → Nat → Nat → Nat
  | 0, _, _ => 0
  | n + 1, i, t => t / (2 * i + 1) + atanhSeries z2 n (i + 1) (t * z2 / fixOne)

/-- `ln(m * 2^e)` in fixed point, for `0 < m`. -/
def lnFix (m : Nat) (e : Int) : Int :=
  let L := Nat.log2 m
  let y := m * fixOne / 2 ^ L
  let z := (y - fixOne) * fixOne / (y + fixOne)
  (L + e) * fixLn2 + 2 * (atanhSeries (z * z / fixOne) 110 0 z : Nat)

/-- The alternating series of erf without its factor, for a fixed-point square `x2`. -/
def erfSeries (x2 : Nat) : Nat → Nat → Int → Int
  | 0, _, _ => 0
  | n + 1, i, t => t.fdiv (2 * i + 1) + erfSeries x2 n (i + 1) (-(t * x2).fdiv (fixOne * (i + 1)))

/-- The integer square root, bit by bit from bit `k`. -/
def isqrtBits (n : Nat) : Nat → Nat → Nat
  | 0, r => if (r + 1) * (r + 1) ≤ n then r + 1 else r
  | k + 1, r =>
    let r' := r + 2 ^ (k + 1)
    isqrtBits n k (if r' * r' ≤ n then r' else r)

/-- The functions of R163 by FN. -/
inductive Sfu where
  | exp2 | log2 | rcp | rsq | tanh | logistic | erf | exp
deriving DecidableEq, Repr

/-- The function that FN selects (R163). -/
def Sfu.ofFn (fn : BitVec 3) : Sfu :=
  match fn.toNat with
  | 0 => .exp2 | 1 => .log2 | 2 => .rcp | 3 => .rsq | 4 => .tanh | 5 => .logistic | 6 => .erf | _ => .exp

/-- The number of a function. -/
def Sfu.num : Sfu → Nat
  | .exp2 => 0 | .log2 => 1 | .rcp => 2 | .rsq => 3 | .tanh => 4 | .logistic => 5 | .erf => 6 | .exp => 7

/-- A value just below `(-1)^neg * m * 2^e` in magnitude. -/
def justBelow (neg : Bool) (m : Nat) (e : Int) : Num := .fin neg (m * 2 ^ 200 - 1) (e - 200)

/-- `1 / (m * 2^e)`, exact or with its lowest bit standing for what lies below. -/
def rcpValue (neg : Bool) (m : Nat) (e : Int) : Num :=
  if 2 ^ fixP % m = 0 then .fin neg (2 ^ fixP / m) (-(fixP : Int) - e)
  else .fin neg (2 * (2 ^ fixP / m) + 1) (-(fixP : Int) - e - 1)

/-- `1 / sqrt(m * 2^e)`. -/
def rsqValue (m : Nat) (e : Int) : Num :=
  let (m, e) := if e % 2 = 0 then (m, e) else (2 * m, e - 1)
  let r := isqrtBits (2 ^ 200 / m) 101 0
  if r * r * m = 2 ^ 200 then .fin false r (-100 - e / 2) else .fin false (2 * r + 1) (-101 - e / 2)

/-- `log2(m * 2^e)`. -/
def log2Value (m : Nat) (e : Int) : Num :=
  let L := Nat.log2 m
  if m = 2 ^ L then Num.ofInt false (L + e) 0
  else
    let v := (lnFix m e * fixOne).fdiv fixLn2
    ofFix (decide (v < 0)) v.natAbs 0

/-- The mathematical value of a function at a finite nonzero input, as an exact value whose lowest bit may stand for
what lies below; the arguments beyond which only the limit matters are cut off. -/
def Sfu.value (f : Sfu) (neg : Bool) (m : Nat) (e : Int) : Num :=
  let big := 9 ≤ (Nat.log2 m : Int) + e
  let small := (Nat.log2 m : Int) + e < -60
  let x : Int := if big then (if neg then -1 else 1) * 512 * fixOne else toFix (Num.fin neg m e).signed e
  match f with
  | .exp2 =>
    let k := x.fdiv fixOne
    let fr := (x - k * fixOne).toNat
    if fr = 0 then .fin false 1 k
    else
      let p := expSeries (fr * fixLn2 / fixOne) 100 0 fixOne
      ofFix false p k
  | .exp => let p := expFix x; ofFix false p.1 p.2
  | .log2 => log2Value m e
  | .rcp => rcpValue neg m e
  | .rsq => rsqValue m e
  | .tanh =>
    if small then justBelow neg m e
    else if 6 ≤ (Nat.log2 m : Int) + e then justBelow neg 1 0
    else
      -- (e^(2|x|) - 1) / (e^(2|x|) + 1)
      let p := expFix (2 * (x.natAbs : Int))
      let y := p.1 * 2 ^ p.2.toNat
      ofFix neg ((y - fixOne) * fixOne / (y + fixOne)) 0
  | .logistic =>
    if neg then
      -- e^x / (1 + e^x)
      let p := expFix x
      ofFix false (p.1 * fixOne / (fixOne + p.1 / 2 ^ (-p.2).toNat)) p.2
    else if 8 ≤ (Nat.log2 m : Int) + e then justBelow false 1 0
    else
      let p := expFix (-x)
      ofFix false (fixOne * fixOne / (fixOne + p.1 / 2 ^ (-p.2).toNat)) 0
  | .erf =>
    if 3 ≤ (Nat.log2 m : Int) + e then justBelow neg 1 0
    else
      let a := x.natAbs
      let s := erfSeries (a * a / fixOne) 400 0 a
      ofFix neg (fixErf * s.toNat / fixOne) 0

/-- The results of special inputs (R99): the FP32 code and the strict flags; none for an input of the general case.
-/
def Sfu.special (f : Sfu) (x : Num) : Option (Nat × FpFlags) :=
  match x with
  | .nan s => some (0x7FC00000, { nv := s })
  | .inf n =>
    some (match f with
      | .exp2 | .exp => if n then (0, {}) else (0x7F800000, {})
      | .log2 => if n then (0x7FC00000, { nv := true }) else (0x7F800000, {})
      | .rcp => if n then (0x80000000, {}) else (0, {})
      | .rsq => if n then (0x7FC00000, { nv := true }) else (0, {})
      | .tanh | .erf => if n then (0xBF800000, {}) else (0x3F800000, {})
      | .logistic => if n then (0, {}) else (0x3F800000, {}))
  | .fin n m e =>
    if m = 0 then
      some (match f with
        | .exp2 | .exp => (0x3F800000, {})
        | .log2 => (0xFF800000, { dz := true })
        | .rcp | .rsq => (if n then 0xFF800000 else 0x7F800000, { dz := true })
        | .tanh | .erf => (if n then 0x80000000 else 0, {})
        | .logistic => (0x3F000000, {}))
    else
      match f with
      | .log2 | .rsq => if n then some (0x7FC00000, { nv := true }) else none
      | .exp2 | .exp => if !n && 7 ≤ (Nat.log2 m : Int) + e then some (0x7F800000, { ovf := true, nx := true }) else none
      | _ => none

/-- The correctly rounded FP32 result and its flags (R96, R99). -/
def Sfu.strict (f : Sfu) (c : Word) : Word × FpFlags :=
  let x := Fmt.fp32.decode (c.setWidth 64)
  match f.special x with
  | some (r, fl) => (BitVec.ofNat 32 r, fl)
  | none =>
    match x with
    | .fin n m e => let r := Fmt.fp32.encode false false (f.value n m e); (r.code.setWidth 32, r.flags)
    | _ => (0x7FC00000, {})

/-- Ulps of the bound of R97. -/
def Sfu.bound : Sfu → Nat
  | .rcp | .rsq => 1
  | .erf => 3
  | _ => 2

/-- Whether FP32 bits are a normal number, or a zero where the bound is absolute, within the bound of R97 of an exact value: `b` ulps of the correctly
rounded result `c`, or an absolute error of 2^-22 for log2 of an input from 0.5 to 2. -/
def Sfu.within (f : Sfu) (x exact : Num) (c bits : Word) : Bool :=
  match Fmt.fp32.decode (bits.setWidth 64), Fmt.fp32.decode (c.setWidth 64), exact with
  | .fin n m e, .fin _ _ u, .fin p q g =>
    let d := addDyadic (Num.fin n m e).signed e (-(Num.fin p q g).signed) g
    let half : Num := .fin false 1 (-1)
    let two : Num := .fin false 1 1
    let near := f == .log2 && half.le x && x.le two
    (decide (2 ^ 23 ≤ m) || (near && m == 0)) &&
      (if near then leDyadic d.1.natAbs d.2 1 (-22) else leDyadic d.1.natAbs d.2 f.bound u)
  | _, _, _ => false

/-- A fast result (R97, R98): the design's bits, which the spec leaves open within the bound, flushed (R83). -/
def Sfu.fastGeneral (f : Sfu) (c : Word) : Word :=
  let x := readFlushed false .fp32 (c.setWidth 64)
  match f.special x with
  | some (r, _) => BitVec.ofNat 32 r
  | none =>
    match x with
    | .fin n m e =>
      let v := f.value n m e
      let exact := Fmt.fp32.encode false false v
      let flushed := (Fmt.fp32.roundFloat false true (v.neg) v.signed.natAbs v.expo).code.setWidth 32
      let bits := Config.fastSfu f.num (c)
      if Fmt.fp32.subnormal exact.code || (Fmt.fp32.decode exact.code).isInf || (Fmt.fp32.decode exact.code).isZero then
        flushed
      else if f.within x v flushed bits then bits else flushed
    | _ => 0x7FC00000

/-- The scaling constant of EXP (R163). -/
def expScale : Word := 0x3FB8AA3B

/-- A special function on an FP32 input (R96, R163): EXP scales first in fast mode. -/
def Sfu.apply (f : Sfu) (strict : Bool) (c : Word) : Word × FpFlags :=
  if strict then f.strict c
  else
    match f with
    | .exp => (Sfu.fastGeneral .exp2 (fp32Op .mul false c expScale).1, {})
    | _ => (f.fastGeneral c, {})

/-- `1/k` correctly rounded to FP32, `0 < k` (R98, R174). -/
def oneOver (k : Nat) : Word := ((Fmt.fp32.encode false false (rcpValue false k 0)).code).setWidth 32

/-- `-ln k` correctly rounded to FP32, `0 < k`; the negation of `ln 1 = +0` for 1 (R98, R174, log entry 20). -/
def negLn (k : Nat) : Word :=
  if k = 1 then 0x80000000 else ((Fmt.fp32.encode false false (ofFix true (lnFix k 0).toNat 0)).code).setWidth 32

/-- `ln 2` as the sequences use it (R174). -/
def ln2Word : Word := 0x3F317218

end Sys2Proof.Machine
end

