-- ==== Sys2Proof/Machine/Operands.lean ====
section
/-! DEFINITION. Tile operands: elements in containers (R105 to R107), valid positions and extents (R108, R123, R562,
R563), active rows (R121), and the writing of elements with their slush bits (R126). -/

namespace Sys2Proof

/-- Elements per tile register (R106). -/
def Fmt.cap (f : Fmt) : Nat := 131072 / f.width

/-- Rows of 64 elements per tile register (R106). -/
def Fmt.rowsPer (f : Fmt) : Nat := f.cap / 64

end Sys2Proof

namespace Sys2Proof.Machine

/-- Register `b + j`. -/
def regAt (b : TileReg) (j : Nat) : TileReg := ⟨(b.val + j) % 64, Nat.mod_lt _ (by decide)⟩

/-- A tile operand: `n` consecutive registers from a base, in a format (R120). -/
structure Opd where
  base : TileReg
  fmt : Fmt
  n : Nat
deriving DecidableEq, Repr

/-- The registers of an operand. -/
def Opd.regs (o : Opd) : List TileReg := (List.range o.n).map (regAt o.base)

/-- Elements of an operand. -/
def Opd.size (o : Opd) : Nat := o.n * o.fmt.cap

/-- Container `k` of the registers from a base: 32 data bits and the slush bit. -/
def contAt (ts : Vector Tile 64) (b : TileReg) (k : Nat) : BitVec 33 :=
  sget 0 (ts.get (regAt b (k / 4096))).data (k % 4096)

/-- The data bits of a container. -/
def contData (c : BitVec 33) : Word := c.setWidth 32

/-- The slush bit of a container. -/
def contMark (c : BitVec 33) : Bool := c.getLsbD 32

/-- A container from its data and slush bit. -/
def mkCont (d : Word) (m : Bool) : BitVec 33 := BitVec.ofBool m ++ d

/-- Element `i` of the registers from a base, and whether a container that holds it is marked (R106). -/
def readElem (ts : Vector Tile 64) (b : TileReg) (f : Fmt) (i : Nat) : Code × Bool :=
  if f.width = 64 then
    let lo := contAt ts b (2 * i)
    let hi := contAt ts b (2 * i + 1)
    (contData hi ++ contData lo, contMark lo || contMark hi)
  else
    let p := 32 / f.width
    let c := contAt ts b (i / p)
    (BitVec.ofNat 64 ((contData c).toNat / 2 ^ (i % p * f.width) % 2 ^ f.width), contMark c)

/-- An element of an operand. -/
def Opd.get (ts : Vector Tile 64) (o : Opd) (i : Nat) : Code × Bool := readElem ts o.base o.fmt i

/-! ## Active and valid positions -/

/-- The active rows (R121). -/
def activeRows (count : Nat) (pred : BitVec 256) : List Nat :=
  (List.range ((count + 63) / 64)).filter fun r => pred.getLsbD r

/-- The positions of a row below COUNT. -/
def rowIdx (count r : Nat) : List Nat :=
  (List.range 64).filterMap fun c => if 64 * r + c < count then some (64 * r + c) else none

/-- The positions below COUNT in active rows, in element order (R121). -/
def activeIdx (count : Nat) (pred : BitVec 256) : List Nat := (activeRows count pred).flatMap (rowIdx count)

/-- The number of valid columns of a row of an operand, counted in its format: none outside its registers (R108). -/
def rowWidth (ts : Vector Tile 64) (o : Opd) (row : Nat) : Nat :=
  let j := row / o.fmt.rowsPer
  let t := ts.get (regAt o.base j)
  if j < o.n && row % o.fmt.rowsPer < t.vr then min t.vc 64 else 0

/-- A valid position (R108). -/
def validAt (ts : Vector Tile 64) (o : Opd) (i : Nat) : Bool := decide (i % 64 < rowWidth ts o (i / 64))

/-- The covered columns of a row over some sources (R123). -/
def coverWidth (ts : Vector Tile 64) (srcs : List Opd) (row : Nat) : Nat :=
  srcs.foldl (fun a o => min a (rowWidth ts o row)) 64

/-- The extent of register `j` of a destination over some sources (R123). -/
def coverExt (ts : Vector Tile 64) (srcs : List Opd) (d : Opd) (j : Nat) : Nat × Nat :=
  (List.range d.fmt.rowsPer).foldl (fun a r =>
    let w := coverWidth ts srcs (j * d.fmt.rowsPer + r)
    if w = 0 then a else (r + 1, max a.2 w)) (0, 0)

/-- A change of extents: register, VR, VC. -/
abbrev ExtList := List (TileReg × Nat × Nat)

/-- The registers of a destination that hold a position below COUNT. -/
def regsBelow (d : Opd) (count : Nat) : List Nat := (List.range d.n).filter fun j => decide (j * d.fmt.cap < count)

/-- The extents of R123. -/
def coverExts (ts : Vector Tile 64) (srcs : List Opd) (d : Opd) (count : Nat) : ExtList :=
  (regsBelow d count).map fun j => (regAt d.base j, coverExt ts srcs d j)

/-- A fixed extent for every register that holds a position below COUNT (R147, R153). -/
def fixedExts (d : Opd) (count vr vc : Nat) : ExtList := (regsBelow d count).map fun j => (regAt d.base j, vr, vc)

/-- The extents of a compacted destination of `n` results (R169). -/
def compactExts (d : Opd) (n : Nat) : ExtList :=
  (List.range d.n).map fun j =>
    let m := min (n - j * d.fmt.cap) d.fmt.cap
    (regAt d.base j, (m + 63) / 64, if 64 < m then 64 else m)

/-- The extents that the row axis gives (R562): over the sources, with the rows counted in FMTA. -/
def rowAxisExts (ts : Vector Tile 64) (srcs : List Opd) (d : Opd) (rows : List Nat) : ExtList :=
  ((List.range d.n).filter fun j => rows.any fun r => r / d.fmt.rowsPer == j).map fun j =>
    let vr := (List.range d.fmt.rowsPer).foldl
      (fun a r => if coverWidth ts srcs (j * d.fmt.rowsPer + r) = 0 then a else r + 1) 0
    (regAt d.base j, vr, 1)

/-- The extent of the column axis (R562): the highest covered column among the reduced positions. -/
def colAxisVc (ts : Vector Tile 64) (srcs : List Opd) (idx : List Nat) : Nat :=
  idx.foldl (fun a i => if i % 64 < coverWidth ts srcs (i / 64) then max a (i % 64 + 1) else a) 0

/-- Sets extents. -/
def setExts (ts : Vector Tile 64) (l : ExtList) : Vector Tile 64 :=
  l.foldl (fun ts e => vmod ts e.1 fun t => { t with vr := e.2.1, vc := e.2.2 }) ts

/-! ## Writing elements -/

/-- One element that an instruction writes: its index, its bits, whether a contributor is marked, and whether
saturation produced it. -/
structure EWrite where
  i : Nat
  code : Code
  mark : Bool := false
  sate : Bool := false
deriving DecidableEq, Repr

/-- A piece of a container to write: container, lowest bit, width, bits, mark. -/
structure Piece where
  k : Nat
  lsb : Nat
  w : Nat
  bits : Nat
  mark : Bool
deriving DecidableEq, Repr

/-- The pieces of an element (R106). -/
def EWrite.pieces (f : Fmt) (e : EWrite) : List Piece :=
  if f.width = 64 then
    [{ k := 2 * e.i, lsb := 0, w := 32, bits := e.code.toNat % 2 ^ 32, mark := e.mark },
     { k := 2 * e.i + 1, lsb := 0, w := 32, bits := e.code.toNat / 2 ^ 32, mark := e.mark }]
  else
    let p := 32 / f.width
    [{ k := e.i / p, lsb := e.i % p * f.width, w := f.width, bits := e.code.toNat % 2 ^ f.width, mark := e.mark }]

/-- Neighbouring pieces of one container together; the pieces come in ascending order. -/
def groupPieces : List Piece → List (Nat × List Piece)
  | [] => []
  | p :: r =>
    match groupPieces r with
    | (k, ps) :: g => if k = p.k then (k, p :: ps) :: g else (p.k, [p]) :: (k, ps) :: g
    | [] => [(p.k, [p])]

/-- Replaces a field of a word. -/
def putBits (d : Nat) (lsb w bits : Nat) : Nat := d - d / 2 ^ lsb % 2 ^ w * 2 ^ lsb + bits * 2 ^ lsb

/-- A container after its pieces are written (R126): marked by a marked contributor, or when it was marked and keeps
a part that is not written. -/
def newCont (old : BitVec 33) (ps : List Piece) : BitVec 33 :=
  let d := ps.foldl (fun d p => putBits d p.lsb p.w p.bits) (contData old).toNat
  let full := decide ((ps.map (·.w)).sum = 32)
  mkCont (BitVec.ofNat 32 d) ((ps.any (·.mark)) || (contMark old && !full))

/-- Writes one container, with its parity and residue (R462). -/
def setCont (ts : Vector Tile 64) (b : TileReg) (k : Nat) (c : BitVec 33) : Vector Tile 64 :=
  vmod ts (regAt b (k / 4096)) fun t =>
    { t with data := sset 0 t.data (k % 4096) c, upset := sset false t.upset (k % 4096) false }

/-- Writes elements, in ascending order, to the registers from a base. -/
def writeElems (ts : Vector Tile 64) (b : TileReg) (f : Fmt) (ws : List EWrite) : Vector Tile 64 :=
  (groupPieces (ws.flatMap (·.pieces f))).foldl (fun ts g => setCont ts b g.1 (newCont (contAt ts b g.1) g.2)) ts

/-- Takes written elements into a summary (R127, R128): those at valid positions of the tiles after the write. -/
def sumInto (after : Vector Tile 64) (d : Opd) (a : SumAcc) (ws : List EWrite) : SumAcc :=
  ws.foldl (fun a w =>
    if validAt after d w.i then a.add d.fmt w.code (readElem after d.base d.fmt w.i).2 w.sate else a) a

/-- The summary of written elements. -/
def sumWrites (after : Vector Tile 64) (d : Opd) (ws : List EWrite) : SumAcc := sumInto after d {} ws

/-- The summary of the elements written to two groups (R229). -/
def sumWrites2 (after : Vector Tile 64) (d : Opd) (ws : List EWrite) (t : Opd) (us : List EWrite) : SumAcc :=
  sumInto after t (sumWrites after d ws) us

/-! ## The effect of an Xcalad instruction -/

/-- One word that an instruction writes to Icefield: its window word, the whole word after the write, the bytes that
are written, and whether it is stored with the slush mark (R307). -/
structure IceWrite where
  word : Nat
  data : Word
  mask : BitVec 4 := 0xF
  mark : Bool := false
deriving DecidableEq, Repr

/-- Everything an Xcalad instruction does at its retirement (R121, R123, R126, R127). -/
structure XEffect where
  writes : List (TileReg × Fmt × List EWrite) := []
  exts : ExtList := []
  sum : DWord := emptySummary
  flags : FpFlags := {}
  pred : Option (BitVec 3 × BitVec 256) := none
  bank : List (Nat × StatEntry) := []
  quota : Option Word := none
  ice : List IceWrite := []
  fault : Option (BitVec 4) := none
deriving DecidableEq, Repr

/-- Tiles after the effect. -/
def XEffect.tiles (e : XEffect) (ts : Vector Tile 64) : Vector Tile 64 :=
  setExts (e.writes.foldl (fun ts w => writeElems ts w.1 w.2.1 w.2.2) ts) e.exts

/-- The effect of writing one destination: its elements, extents, flags, and the summary over it. -/
def destEffect (ts : Vector Tile 64) (d : Opd) (ws : List EWrite) (exts : ExtList) (fl : FpFlags)
    (empty : Nat := 0) : XEffect :=
  let e : XEffect := { writes := [(d.base, d.fmt, ws)], exts, flags := fl }
  { e with sum := { (sumWrites (e.tiles ts) d ws) with empty }.toWord }

/-- An effect on `d` that writes a second group too, with the summary over both (R229). -/
def XEffect.withSecond (e : XEffect) (ts : Vector Tile 64) (d : Opd) (ws : List EWrite) (t : Opd) (us : List EWrite)
    (exts : ExtList) : XEffect :=
  let e : XEffect := { e with writes := e.writes ++ [(t.base, t.fmt, us)], exts := e.exts ++ exts }
  { e with sum := (sumWrites2 (e.tiles ts) d ws t us).toWord }

/-- The flags of a list of results together. -/
def orFlags (l : List FpFlags) : FpFlags := l.foldl FpFlags.or {}

/-- An element write from a rounded result. -/
def EWrite.of (i : Nat) (r : Rounded) (mark : Bool) : EWrite := { i, code := r.code, mark, sate := r.sate }

/-- A compacted destination (R169, R213): the results, and +0 up to the end of the last row they reach. -/
def compactWrites (rs : List (Rounded × Bool)) : List EWrite :=
  (rs.zipIdx.map fun (r, j) => EWrite.of j r.1 r.2) ++
    ((List.range (64 * ((rs.length + 63) / 64) - rs.length)).map fun j => { i := rs.length + j, code := 0 })

/-- Neighbouring elements of one container together, `q` elements to a container; the elements come in ascending
order. -/
def groupElems (q : Nat) : List EWrite → List (List EWrite)
  | [] => []
  | e :: r =>
    match groupElems q r with
    | (d :: l) :: g => if d.i / q = e.i / q then (e :: d :: l) :: g else [e] :: (d :: l) :: g
    | _ => [[e]]

/-- The elements with the marks of the containers that they fill: an element of a marked container counts as marked
(R126). -/
def joinMarks (f : Fmt) (ws : List EWrite) : List EWrite :=
  (groupElems (max 1 (32 / f.width)) ws).flatMap fun g => g.map fun e => { e with mark := g.any (·.mark) }

/-- The elements of a compacted destination that its registers hold. -/
def Opd.clip (d : Opd) (ws : List EWrite) : List EWrite := ws.filter fun w => decide (w.i < d.size)

end Sys2Proof.Machine
end

