-- ==== Sys2Proof/Machine/Xdecode.lean ====
section
/-! DEFINITION. Decoding of Xcalad instructions: opcodes (R141), operand groups and span (R119, R120, R557), the
decode checks in their order (R130), and the costs of occupancy and latency (R138, R139, R184, R230). -/

namespace Sys2Proof.Machine

/-- What OP and FN select (R141, R556). -/
inductive XKind where
  | mov | movX | iota | setx | ld
  | st (add : Bool)
  | arith (op : EOp) (x : Bool)
  | maxmin (isMin x : Bool)
  | cvt
  | sfu (f : Sfu)
  | cmp (p : Nat) (x : Bool)
  | pany | pall
  | plogic (k : Nat)
  | plt
  | rsum (ax : Nat) (sq : Bool)
  | rmax (ax : Nat) (isMin : Bool)
  | rdot (ax : Nat) (acc : Bool)
  | rarg (ax : Nat) (isMin : Bool)
  | rowb (k : Nat)
  | colb (k : Nat)
  | racc (k : Nat)
  | norm (k : Nat)
  | trans | perm
  | gather (elem : Bool)
  | scatter (elem add : Bool)
  | compact | expand
  | vsync (ice : Bool)
  | probe
  | mprune (m : Nat)
  | mgrow (m : Nat)
  | mapply (inf : Bool)
  | mpack (scaled : Bool)
  | munpack | mtrans
  | sort (desc pay : Bool)
  | merge (desc pay : Bool)
  | topk (small seq acc : Bool)
  | unique (len : Bool)
  | isect (idx : Bool)
  | hist (expo acc : Bool)
  | route (chosen : Bool)
deriving DecidableEq, Repr

/-- The element-wise operation of FN (R160); 0b101 is not listed. -/
def eopOf (fn : Nat) : Option EOp :=
  match fn with
  | 0 => some .add | 1 => some .sub | 2 => some .mul | 3 => some .abs | 4 => some .neg | 6 => some .fms
  | 7 => some .fma | _ => none

/-- What an instruction's OP and FN select; none where either is reserved (R141, R556). -/
def xkindOf (x : XInstr) : Option XKind :=
  let fn := x.fn.toNat
  let z := fun k : XKind => if fn = 0 then some k else none
  let b := x.fn.getLsbD
  let ax := fn % 4
  match x.op.toNat with
  | 0x01 => z .mov
  | 0x02 => z .movX
  | 0x03 => z .iota
  | 0x04 => z .setx
  | 0x05 => z .ld
  | 0x06 => if fn < 2 then some (.st (fn == 1)) else none
  | 0x07 => (eopOf fn).map fun o => .arith o false
  | 0x08 => (eopOf fn).map fun o => .arith o true
  | 0x09 => if fn < 2 then some (.maxmin (fn == 1) false) else none
  | 0x0A => if fn < 2 then some (.maxmin (fn == 1) true) else none
  | 0x0B => z .cvt
  | 0x0C => some (.sfu (Sfu.ofFn x.fn))
  | 0x0D => if fn < 7 then some (.cmp fn false) else none
  | 0x0E => if fn < 7 then some (.cmp fn true) else none
  | 0x0F => if fn = 0 then some .pany else if fn = 1 then some .pall else if fn < 6 then some (.plogic fn)
            else if fn = 6 then some .plt else none
  | 0x10 => some (.rsum ax (b 2))
  | 0x11 => some (.rmax ax (b 2))
  | 0x12 => if ax < 3 then some (.rdot ax (b 2)) else none
  | 0x13 => if ax < 3 then some (.rarg ax (b 2)) else none
  | 0x14 => if fn < 5 then some (.rowb fn) else none
  | 0x15 => if fn < 5 then some (.colb fn) else none
  | 0x16 => some (.racc fn)
  | 0x17 => if fn < 4 then some (.norm fn) else none
  | 0x18 => z .trans
  | 0x19 => z .perm
  | 0x1A => if fn < 2 then some (.gather (b 0)) else none
  | 0x1B => if fn < 4 then some (.scatter (b 0) (b 1)) else none
  | 0x1C => if fn = 0 then some .compact else if fn = 1 then some .expand else none
  | 0x20 => some (.mprune (fn % 4))
  | 0x21 => if fn % 4 < 3 then some (.mgrow (fn % 4)) else none
  | 0x22 => if fn % 4 < 2 then some (.mapply (b 0)) else none
  | 0x23 => some (.mpack (b 0))
  | 0x24 => some .munpack
  | 0x25 => some .mtrans
  | 0x26 => some (.sort (b 0) (b 1))
  | 0x27 => some (.merge (b 0) (b 1))
  | 0x28 => some (.topk (b 0) (b 1) (b 2))
  | 0x29 => some (.unique (b 0))
  | 0x2A => some (.isect (b 0))
  | 0x2B => if fn % 4 < 2 then some (.hist (b 0) (b 2)) else none
  | 0x2C => some (.route (b 0))
  | 0x38 => if fn < 2 then some (.vsync (b 0)) else none
  | 0x39 => z .probe
  | _ => none

/-- A scalar form: TB names an integer register (R118, R141, R196, R207). -/
def XKind.scalar : XKind → Bool
  | .movX | .iota | .setx | .ld | .st _ | .arith _ true | .maxmin _ true | .cmp _ true | .plt | .gather _
  | .scatter _ _ | .mprune _ | .mgrow _ | .mtrans => true
  | _ => false

/-- An opcode of 06_masks_and_irregular_data (R227). -/
def XKind.irregular : XKind → Bool
  | .mprune _ | .mgrow _ | .mapply _ | .mpack _ | .munpack | .mtrans | .sort _ _ | .merge _ _ | .topk _ _ _
  | .unique _ | .isect _ | .hist _ _ | .route _ => true
  | _ => false

/-- The format of a field, where it may be named everywhere (R36). -/
def fieldFmt (c : BitVec 4) : Option Fmt := (Fmt.ofCode c).filter Fmt.everywhere

/-- The format of operand B (R116, R117). -/
def fmtB (a : XArgs) (fa : Fmt) : Fmt := if a.bx then (match fa with | .e4m3 => .e5m2 | .e5m2 => .e4m3 | f => f) else fa

/-- Same kind (R141). -/
def sameKind (a d : Fmt) : Bool := a.isFloat == d.isFloat

/-- The formats of SFU and NORM (R141). -/
def sfuFmt : Fmt → Bool
  | .fp32 | .bf16 | .fp16 | .e4m3 | .e5m2 => true
  | _ => false

/-- The value formats of bricks (R189). -/
def brickFmt : Fmt → Bool
  | .e4m3 | .e5m2 | .int8 | .bf16 | .fp16 | .fp32 => true
  | _ => false

/-- Opcodes whose operand B may be a floating-point tile or scalar in FMTA (R143); the scalar of MOV.X is one (R145).
-/
def XKind.bFloat : XKind → Bool
  | .movX | .arith _ _ | .maxmin _ _ | .cmp _ _ | .rdot _ _ | .rowb _ | .colb _ | .compact | .expand | .isect _ => true
  | .rsum ax _ | .rmax ax _ => ax == 3
  | _ => false

/-- The format check of a kind that uses both fields, on their formats (R141, R143, R185, R231). -/
def XKind.formatsOk (k : XKind) (a d : Fmt) : Bool :=
  match k with
  | .mov | .ld | .st _ | .maxmin _ false | .compact | .expand | .sort _ _ | .merge _ _ | .topk _ _ _ | .unique _
  | .isect false => a == d
  | .isect true => d == .int32
  | .movX | .maxmin _ true => a == d && a != .fp64
  | .arith _ false | .rsum _ _ | .rmax _ _ | .rdot _ _ | .rowb _ | .colb _ | .racc _ => sameKind a d
  | .arith _ true => sameKind a d && a != .fp64
  | .cvt => pairExists a d
  | .sfu _ | .norm _ => sfuFmt a && sfuFmt d
  | .cmp _ false => true
  | .cmp _ true => a != .fp64
  | .rarg _ _ => d == .int32
  | .trans => a == d && (a == .fp32 || a == .int32)
  | .perm | .gather _ | .scatter _ _ => a == .int32
  | .mprune _ => brickFmt a && d == .int32
  | .mgrow _ => a.isFloat && d == .int32
  | .mapply inf => a == d && brickFmt a && !(inf && a == .e4m3)
  | .mpack sc => brickFmt d && (!sc || d.width == 8)
  | .munpack => brickFmt a && (d == .bf16 || d == .fp16 || d == .fp32 || d == .fp64 || d.width == 8)
  | .hist expo _ => d == .int32 && (if expo then a.isFloat else a == .int32)
  | .route _ => a.isFloat && d.isFloat
  | _ => true

/-- Whether a kind uses the field FMTA (R142, R143). -/
def XKind.usesA : XKind → Bool
  | .iota | .setx | .plogic _ | .plt | .vsync _ => false
  | _ => true

/-- Whether a kind uses the field FMTD (R142, R143). -/
def XKind.usesD : XKind → Bool
  | .pany | .pall | .plogic _ | .plt | .vsync _ | .probe | .mtrans => false
  | _ => true

/-- The FORMAT check (R37, R117, R130, R143). -/
def XKind.formatCheck (k : XKind) (x : XArgs) : Bool :=
  let fa := fieldFmt x.fmta
  let fd := fieldFmt x.fmtd
  let bx := !x.bx || (k.bFloat && k.usesA && (match fa with | some f => f.isFp8 | none => false))
  bx && match k.usesA, k.usesD with
    | true, true => (match fa, fd with | some a, some d => k.formatsOk a d | _, _ => false)
    | true, false => (match fa with | some a => k != .mtrans || brickFmt a | none => false)
    | false, true => (match fd with | some d => k != .iota || d == .int32 || d == .fp32 | none => false)
    | false, false => true

/-! ## Operand groups -/

/-- How an operand group is sized (R120, R557). -/
inductive GroupSize where
  | elem
  | one
  | packed (b l : Nat)
deriving DecidableEq, Repr

/-- A tile operand of an instruction: its base, format, size, and how it is used. -/
structure Use where
  base : TileReg
  fmt : Fmt
  size : GroupSize
  rd : Bool
  wr : Bool
deriving DecidableEq, Repr

/-- Brick size B of CE_KS_MPARAM (R187, R192). -/
def brickB (mp : Word) : Nat := if mp.getLsbD 16 then 16 else 32

/-- Capacity K of a capacity code (R187). -/
def brickK (kc : Nat) : Nat := 4 * (kc + 1)

/-- KC of CE_KS_MPARAM. -/
def mpKC (mp : Word) : Nat := (mp.extractLsb' 17 3).toNat

/-- KCT of CE_KS_MPARAM. -/
def mpKCT (mp : Word) : Nat := (mp.extractLsb' 20 3).toNat

/-- Words of a packed brick (R187). -/
def brickLen (kc : Nat) (f : Fmt) : Nat := 2 + brickK kc * f.width / 32

/-- The tile operands of an instruction in the formats of its fields; fields that a kind does not use name none
(R142). -/
def XKind.uses (k : XKind) (x : XArgs) (mp : Word) : List Use :=
  let fa := (fieldFmt x.fmta).getD .fp32
  let fd := (fieldFmt x.fmtd).getD .fp32
  let fb := fmtB x fa
  let ta : TileReg := x.ta.toFin
  let tb : TileReg := x.tb.toFin
  let td : TileReg := x.td.toFin
  let A : Use := ⟨ta, fa, .elem, true, false⟩
  let B : Use := ⟨tb, fb, .elem, true, false⟩
  let D : Use := ⟨td, fd, .elem, false, true⟩
  let Drw : Use := ⟨td, fd, .elem, true, true⟩
  let bk : Fmt → Nat → Bool → Bool → TileReg → Use := fun f kc r w t =>
    ⟨t, f, .packed (brickB mp) (brickLen kc f), r, w⟩
  match k with
  | .mov | .cvt | .sfu _ | .norm _ | .trans => [A, D]
  | .movX | .iota | .setx | .ld => [D]
  | .st _ => [⟨td, fd, .elem, true, false⟩]
  | .arith op s =>
    match op with
    | .abs | .neg => [A, D]
    | .fms | .fma => if s then [A, Drw] else [A, B, Drw]
    | _ => if s then [A, D] else [A, B, D]
  | .maxmin _ s | .cmp _ s => if s then [A, D] else [A, B, D]
  | .pany | .pall | .probe => [A]
  | .plogic _ | .plt | .vsync _ => []
  | .rsum ax _ | .rmax ax _ =>
    if ax = 3 then [A, B, D] else [A, ⟨td, fd, if ax = 0 then .elem else .one, false, true⟩]
  | .rdot ax acc => [A, B, ⟨td, fd, if ax = 0 then .elem else .one, acc, true⟩]
  | .rarg ax _ => [A, ⟨td, .int32, if ax = 0 then .elem else .one, false, true⟩]
  | .rowb _ | .colb _ => [A, B, D]
  | .racc n => if n = 0 then [] else if n < 4 then [A] else [D]
  | .perm => [A, Drw]
  | .gather _ => [A, D]
  | .scatter _ _ => [A, ⟨td, fd, .elem, true, false⟩]
  | .compact => [A, B, D]
  | .expand => [A, B, D]
  | .mprune _ => [⟨ta, fa, .elem, true, true⟩, ⟨td, .int32, .one, true, true⟩]
  | .mgrow _ => [A, ⟨td, .int32, .one, true, true⟩]
  | .mapply _ => [A, ⟨tb, .int32, .one, true, false⟩, D]
  | .mpack _ => [A, ⟨tb, .int32, .one, true, false⟩, bk fd (mpKC mp) false true td]
  | .munpack => [bk fa (mpKC mp) true false ta, D, ⟨tb, .int32, .one, false, true⟩]
  | .mtrans => [bk fa (mpKC mp) true false ta]
  | .sort _ p | .merge _ p => if p then [A, ⟨tb, .int32, .elem, true, true⟩, D] else [A, D]
  | .topk _ seq acc =>
    let sz := if seq then GroupSize.one else .elem
    [A, ⟨td, fd, sz, acc, true⟩, ⟨tb, .int32, sz, acc, true⟩]
  | .unique l => if l then [A, D, ⟨tb, .int32, .elem, false, true⟩] else [A, D]
  | .isect _ => [A, B, D]
  | .hist _ acc => [A, ⟨td, .int32, .elem, acc, true⟩]
  | .route _ => [A, D, ⟨tb, .int32, .elem, false, true⟩]

/-- The formats that set the span and the row group (R119, R557). -/
def XKind.spanFmts (k : XKind) (x : XArgs) (mp : Word) : List Fmt :=
  let us := k.uses x mp
  match k with
  | .mprune _ | .mgrow _ | .mpack _ | .mtrans => (us.take 1).map (·.fmt)
  | .mapply _ => [(us.map (·.fmt)).headD .fp32]
  | .munpack => (us.drop 1 |>.take 1).map (·.fmt)
  | _ => us.map (·.fmt)

/-- G (R116). -/
def groupG (g : BitVec 2) : Nat := if g = 0 then 1 else if g = 1 then 2 else 4

/-- The widest of some formats, 8 bits when there is none: a predicate operation without a tile operand has the row
group of an 8-bit format (DESIGN CHOICE, log entry 147). -/
def widest (fs : List Fmt) : Nat := fs.foldl (fun a f => max a f.width) 8

/-- The span S (R119). -/
def XKind.span (k : XKind) (x : XArgs) (mp : Word) : Nat :=
  min 16384 (groupG x.grp * 131072 / widest (k.spanFmts x mp))

/-- The registers of a group for a span (R120, R557). -/
def Use.regs (u : Use) (s : Nat) : Nat :=
  match u.size with
  | .elem => (s + u.fmt.cap - 1) / u.fmt.cap
  | .one => 1
  | .packed b l =>
    let n := (s / b * l + 4095) / 4096
    if n ≤ 1 then 1 else if n ≤ 2 then 2 else if n ≤ 4 then 4 else 8

/-- A group as an operand. -/
def Use.opd (u : Use) (s : Nat) : Opd := { base := u.base, fmt := u.fmt, n := u.regs s }

/-- The registers that a group names. -/
def Use.names (u : Use) (s : Nat) : List TileReg := (u.opd s).regs

/-! ## Decode checks (R130) -/

/-- Whether a hart may read a register (R110). -/
def Tile.mayRead (t : Tile) (h : Hart) : Bool :=
  match t.lease with
  | .free => false
  | .exclusive => t.owner == h
  | .shared => true

/-- Whether a hart may write a register (R110). -/
def Tile.mayWrite (t : Tile) (h : Hart) : Bool := t.lease == .exclusive && t.owner == h

/-- The ILLEGAL conditions of R196, R201, R228 and R231 beyond OP and FN. -/
def XKind.illegal (k : XKind) (x : XArgs) (mp xarg scalar : Word) : Bool :=
  let b := brickB mp
  let badCap := mp.getLsbD 16 && (decide (3 < mpKC mp) || decide (3 < mpKCT mp))
  let cnt := x.count.toNat
  (k.irregular && badCap) ||
  match k with
  | .mprune m =>
    let M := 2 ^ (scalar.extractLsb' 8 3).toNat
    decide (cnt % b ≠ 0) || (m == 2 && (decide (M < 4) || decide (b < M)))
  | .mgrow _ | .mapply _ | .mpack _ | .munpack => decide (cnt % b ≠ 0)
  | .mtrans => decide (cnt % (64 * b) ≠ 0)
  | .merge _ _ => xarg == 0
  | .topk _ _ _ => let kk := (xarg.extractLsb' 0 7).toNat; decide (kk = 0) || decide (64 < kk)
  | .hist _ _ => xarg == 0 || decide (16383 < xarg.toNat)
  | .route _ =>
    let kk := (xarg.extractLsb' 0 4).toNat
    decide (kk = 0) || decide (8 < kk) || (xarg.extractLsb' 4 15 == 0)
  | _ => false

/-- Two groups that an instruction writes overlap (R227). -/
def overlapWritten (us : List Use) (s : Nat) : Bool :=
  match us.filter (·.wr) with
  | [a, b] => (a.names s).any fun r => (b.names s).contains r
  | _ => false

/-- The mtval codes of XDECODE (R406). -/
def xIllegal : Nat := 1
/-- FORMAT. -/
def xFormat : Nat := 2
/-- ALIGN. -/
def xAlign : Nat := 3
/-- LEASE. -/
def xLease : Nat := 4
/-- SPAN. -/
def xSpan : Nat := 5

/-- The decode checks in the order of R130; the overlap check of R227 stands between FORMAT and ALIGN. The operands
are the issuing hart, its CE_KS_MPARAM and CE_KS_XARG, the scalar that TB names, and the tiles. -/
def xcheck (h : Hart) (mp xarg scalar : Word) (ts : Vector Tile 64) (x : XInstr) : Except Nat XKind :=
  match xkindOf x with
  | none => .error xIllegal
  | some k =>
    if x.a.grp = 3 || (k.scalar && x.a.tb.getLsbD 5) || k.illegal x.a mp xarg scalar then .error xIllegal
    else if !k.formatCheck x.a then .error xFormat
    else
      let us := k.uses x.a mp
      let s := k.span x.a mp
      if k.irregular && overlapWritten us s then .error xIllegal
      else if us.any fun u => decide (u.base.val % u.regs s ≠ 0) then .error xAlign
      else if us.any fun u => (u.names s).any fun r =>
          (u.rd && !(ts.get r).mayRead h) || (u.wr && !(ts.get r).mayWrite h) then .error xLease
      else if s < x.a.count.toNat then .error xSpan
      else .ok k

/-! ## Occupancy and latency -/

/-- Kinds that ignore the predicate: every row is taken as switched on (R149, R165, R182). -/
def XKind.ignoresPred : XKind → Bool
  | .setx | .vsync _ | .plogic _ | .plt => true
  | _ => false

/-- The row groups that hold an active row (R138, R226). -/
def XKind.rowGroups (k : XKind) (x : XArgs) (mp : Word) (lanes : Nat) (pred : BitVec 256) : Nat :=
  let w := widest (k.spanFmts x mp)
  let per := lanes / 64 * (if w = 64 then 1 else 32 / w)
  let rows := activeRows x.count.toNat (if k.ignoresPred then BitVec.allOnes 256 else pred)
  ((List.range 256).filter fun g => rows.any fun r => r / per == g).length

/-- D and c of an instruction in a mode (R139, R184, R230); c = 0 stands for one step of occupancy. Where FMTA and FMTD
give an arithmetic instruction different classes, the dearer one counts, and FMA and FMS of INT8 and INT16 take the class
of their multiply (DESIGN CHOICE, log entry 148). -/
def XKind.cost (k : XKind) (x : XArgs) : Nat × Nat :=
  let fa := (fieldFmt x.fmta).getD .fp32
  let fd := (fieldFmt x.fmtd).getD .fp32
  let st := x.s
  let pick := fun (df ds cf cs : Nat) => if st then (ds, cs) else (df, cf)
  let same := fun (d c : Nat) => (d, c)
  let mem := fun (d c : Nat) => (d, if fd == .fp64 then 2 * c else c)
  if x.count = 0 then (1, 0) else
  match k with
  | .mov | .movX | .iota | .cvt | .cmp _ _ | .maxmin _ _ | .pany | .pall | .plogic _ | .plt => same 4 1
  | .setx | .vsync _ => same 1 0
  | .ld => mem 12 1
  | .st add => if add then mem 16 2 else mem 12 1
  | .arith op _ =>
    match op with
    | .abs | .neg => same 4 1
    | .add | .sub => if fa.isInt then same 4 1 else if fa == .fp64 || fd == .fp64 then pick 6 6 4 5 else same 6 1
    | _ =>
      if fa.isInt then (if fa == .int32 || fd == .int32 then same 6 4 else same 6 1)
      else if fa == .fp64 || fd == .fp64 then pick 6 6 4 5 else same 6 1
  | .sfu _ => pick 8 64 1 8
  | .rsum ax _ | .rmax ax _ | .rdot ax _ | .rarg ax _ =>
    if ax = 3 then pick 14 14 2 64 else if ax = 2 then pick 14 14 1 64 else pick 10 10 1 64
  | .rowb n | .colb n => if n < 3 then same 6 1 else same 4 1
  | .racc n => if n = 0 then same 1 0 else if n < 4 then pick 10 10 1 64 else if n < 7 then same 4 1 else pick 24 80 1 8
  | .norm n =>
    match n with
    | 0 => pick 48 160 5 138
    | 1 => pick 54 166 5 138
    | 2 => pick 44 156 2 65
    | _ => pick 66 178 4 130
  | .trans => same 8 2
  | .perm => same 8 4
  | .gather e => if e then mem 16 4 else mem 12 1
  | .scatter e add => if e then (if add then mem 20 8 else mem 16 4) else (if add then mem 16 2 else mem 12 1)
  | .compact | .expand => same 12 2
  | .probe => same 10 1
  | .mprune m => if m = 3 then same 8 1 else if m = 1 then same 12 3 else same 10 2
  | .mgrow m => if m = 1 then same 8 1 else if m = 2 then same 20 4 else same 10 2
  | .mapply _ => same 4 1
  | .mpack _ | .munpack => same 12 2
  | .mtrans => same 12 0
  | .sort _ _ => same 12 6
  | .merge _ _ => same 16 3
  | .topk _ _ acc => same 14 (if acc then 6 else 4)
  | .unique _ => same 10 2
  | .isect _ => same 14 2
  | .hist _ _ => same 14 4
  | .route _ => pick 40 152 6 140

/-- Occupancy and D (R138, R139, R184, R230). -/
def XKind.timing (k : XKind) (x : XArgs) (mp xarg : Word) (lanes : Nat) (pred : BitVec 256) : Nat × Nat :=
  let (d, c) := k.cost x
  let o := max 1 (k.rowGroups x mp lanes pred * c)
  if x.count = 0 then (1, d)
  else match k with
    | .mtrans =>
      let panels := x.count.toNat / (64 * brickB mp)
      (max 1 (panels * (brickLen (mpKCT mp) ((fieldFmt x.fmta).getD .fp32) + 1024 / lanes)), d)
    | .isect _ => (o + (xarg.toNat + lanes - 1) / lanes, d)
    | _ => (o, d)

end Sys2Proof.Machine
end

