-- ==== Sys2Proof/Machine/Xelem.lean ====
section
/-! DEFINITION. The moves, element-wise operations, comparisons, predicate writes and broadcasts of
05_instruction_catalogue: what each writes (R146 to R170), as an `XEffect`. -/

namespace Sys2Proof.Machine

/-- What an instruction reads at its completion besides its captured scalars: its kind, its predicate as read at
acceptance, the quota, the tiles, the predicates and the statistic bank of its hart, and of Icefield the words it
reads by window word, the window of the floe it names, none if there is no such floe, and the words of that floe that
lie in melted segments (R158). -/
structure XIn where
  k : XKind
  e : XEntry
  pred : BitVec 256
  quota : Word
  ts : Vector Tile 64
  hart : HartState
  mem : Store (BitVec 33) := []
  floe : Option (Nat × Nat) := none
  hashed : Bool := false
  melted : List Nat := []

/-- The fields of the instruction. -/
def XIn.a (x : XIn) : XArgs := x.e.x.a
/-- FMTA. -/
def XIn.fa (x : XIn) : Fmt := (fieldFmt x.a.fmta).getD .fp32
/-- FMTD. -/
def XIn.fd (x : XIn) : Fmt := (fieldFmt x.a.fmtd).getD .fp32
/-- The format of operand B. -/
def XIn.fb (x : XIn) : Fmt := fmtB x.a x.fa
/-- COUNT. -/
def XIn.count (x : XIn) : Nat := x.a.count.toNat
/-- The span. -/
def XIn.span (x : XIn) : Nat := x.k.span x.a x.e.mparam
/-- A group of registers from a base in a format, sized as an element-wise operand (R120). -/
def XIn.group (x : XIn) (b : TileReg) (f : Fmt) : Opd := { base := b, fmt := f, n := (x.span + f.cap - 1) / f.cap }
/-- Operand A. -/
def XIn.oa (x : XIn) : Opd := x.group x.a.ta.toFin x.fa
/-- Operand B. -/
def XIn.ob (x : XIn) : Opd := x.group x.a.tb.toFin x.fb
/-- The destination. -/
def XIn.od (x : XIn) : Opd := x.group x.a.td.toFin x.fd
/-- The positions below COUNT in active rows. -/
def XIn.idx (x : XIn) : List Nat := activeIdx x.count x.pred
/-- The active rows. -/
def XIn.rows (x : XIn) : List Nat := activeRows x.count x.pred
/-- The scalar of R145 as an element of operand B. -/
def XIn.scalar (x : XIn) : Code := BitVec.ofNat 64 (x.e.scalar.toNat % 2 ^ x.fb.width)

/-- An element-wise instruction: each result from its index, with its mark; extents by R123 over some sources. -/
def XIn.mapEffect (x : XIn) (srcs : List Opd) (f : Nat → Rounded × Bool) : XEffect :=
  let rs := x.idx.map fun i => (i, f i)
  destEffect x.ts x.od (rs.map fun r => EWrite.of r.1 r.2.1 r.2.2) (coverExts x.ts srcs x.od x.count)
    (orFlags (rs.map fun r => r.2.1.flags))

/-- The extent 256 by 64 for every destination register that is written (R147, R148). -/
def XIn.fullExts (x : XIn) : ExtList :=
  ((List.range x.od.n).filter fun j => x.idx.any fun i => i / x.fd.cap == j).map fun j => (regAt x.od.base j, 256, 64)

/-- MOV (R146). -/
def xMov (x : XIn) : XEffect :=
  x.mapEffect [x.oa] fun i => let (c, m) := x.oa.get x.ts i; ({ code := c }, m)

/-- MOV.X (R147): a scalar in the other FP8 format converts into FMTD (DEDUCED, log entry 29). -/
def xMovX (x : XIn) : XEffect :=
  let r : Rounded := if x.fb = x.fd then { code := x.scalar } else convert x.fb x.fd x.a.sat x.scalar
  destEffect x.ts x.od (x.idx.map fun i => EWrite.of i r false) x.fullExts (if x.idx.isEmpty then {} else r.flags)

/-- IOTA.X (R148). -/
def xIota (x : XIn) : XEffect :=
  let rs : List (Nat × Rounded) := x.idx.map fun i =>
    (i, x.fd.encode x.a.sat true (Num.ofInt false (x.e.scalar.toInt + (i : Int)) 0))
  destEffect x.ts x.od (rs.map fun r => EWrite.of r.1 r.2 false) x.fullExts (orFlags (rs.map (·.2.flags)))

/-- SETX.X (R149). -/
def xSetx (x : XIn) : XEffect :=
  let vr := min 256 (x.e.scalar.extractLsb' 0 9).toNat
  let vc := min 64 (x.e.scalar.extractLsb' 16 7).toNat
  { exts := x.od.regs.map fun r => (r, vr, vc) }

/-- CVT (R159). -/
def xCvt (x : XIn) : XEffect :=
  x.mapEffect [x.oa] fun i => let (c, m) := x.oa.get x.ts i; (convert x.fa x.fd x.a.sat c, m)

/-- ARITH and ARITH.X (R160, R161): TD is a source of FMA and FMS. -/
def xArith (op : EOp) (scalar : Bool) (x : XIn) : XEffect :=
  let unary := op == .abs || op == .neg
  let third := op == .fma || op == .fms
  let srcs := [x.oa] ++ (if scalar || unary then [] else [x.ob]) ++ (if third then [x.od] else [])
  x.mapEffect srcs fun i =>
    let (a, ma) := x.oa.get x.ts i
    let (b, mb) := if unary then (0, false) else if scalar then (x.scalar, false) else x.ob.get x.ts i
    let (d, md) := if third then x.od.get x.ts i else (0, false)
    (elementwise op x.a.s x.a.sat x.fa x.fb x.fd a b d, ma || mb || md)

/-- MAXMIN and MAXMIN.X (R162). -/
def xMaxmin (isMin scalar : Bool) (x : XIn) : XEffect :=
  x.mapEffect ([x.oa] ++ if scalar then [] else [x.ob]) fun i =>
    let (a, ma) := x.oa.get x.ts i
    let (b, mb) := if scalar then (x.scalar, false) else x.ob.get x.ts i
    (maxmin isMin x.a.sat x.fa x.fb x.fd a b, ma || mb)

/-- A special function of one element: exactly into FP32, the function, then into FMTD (R163). -/
def sfuElem (f : Sfu) (strict sat : Bool) (fa fd : Fmt) (c : Code) : Rounded :=
  let i := convert fa .fp32 false c
  let r := f.apply strict (i.code.setWidth 32)
  let o := convert .fp32 fd sat (r.1.setWidth 64)
  { o with flags := (i.flags.or r.2).or o.flags }

/-- SFU (R163). -/
def xSfu (f : Sfu) (x : XIn) : XEffect :=
  x.mapEffect [x.oa] fun i => let (c, m) := x.oa.get x.ts i; (sfuElem f x.a.s x.a.sat x.fa x.fd c, m)

/-- One in a format (R164). -/
def oneCode (f : Fmt) : Code := (f.encode false true (.fin false 1 0)).code

/-- CMP and CMP.X (R164). -/
def xCmp (p : Nat) (scalar : Bool) (x : XIn) : XEffect :=
  x.mapEffect ([x.oa] ++ if scalar then [] else [x.ob]) fun i =>
    let (a, ma) := x.oa.get x.ts i
    let (b, mb) := if scalar then (x.scalar, false) else x.ob.get x.ts i
    let (r, nv) := compareElems p (x.fa.decode a) (x.fb.decode b)
    ({ code := if r then oneCode x.fd else 0, flags := { nv } }, ma || mb)

/-! ## Predicates (R165, R166) -/

/-- The summary of a predicate write (R166). -/
def predSummary (v : BitVec 256) : DWord :=
  let n := ((List.range 256).filter v.getLsbD).length
  { valid := n, nz := decide (n ≠ 0) : SumAcc }.toWord

/-- A predicate write to the predicate that TD names. -/
def XIn.predEffect (x : XIn) (v : BitVec 256) : XEffect :=
  { pred := some (x.a.td.setWidth 3, v), sum := predSummary v }

/-- A predicate from the bits of its rows. -/
def predOf (f : Nat → Bool) : BitVec 256 :=
  BitVec.ofNat 256 ((List.range 256).foldl (fun a r => if f r then a + 2 ^ r else a) 0)

/-- The valid positions of an active row below COUNT. -/
def XIn.validIdx (x : XIn) (r : Nat) : List Nat := (rowIdx x.count r).filter (validAt x.ts x.oa)

/-- PANY (R165). -/
def xPany (x : XIn) : XEffect :=
  x.predEffect (predOf fun r => x.rows.contains r &&
    (x.validIdx r).any fun i => nonzero x.fa (x.oa.get x.ts i).1)

/-- PALL (R165). -/
def xPall (x : XIn) : XEffect :=
  x.predEffect (predOf fun r => x.rows.contains r && !(x.validIdx r).isEmpty &&
    (x.validIdx r).all fun i => nonzero x.fa (x.oa.get x.ts i).1)

/-- PAND, POR, PANDN and PXOR, by FN (R165). -/
def xPlogic (k : Nat) (x : XIn) : XEffect :=
  let p := x.hart.getPred (x.a.ta.setWidth 3)
  let q := x.hart.getPred (x.a.tb.setWidth 3)
  x.predEffect (match k with
    | 2 => p &&& q
    | 3 => p ||| q
    | 4 => p &&& ~~~q
    | _ => p ^^^ q)

/-- PLT.X (R165). -/
def xPlt (x : XIn) : XEffect := x.predEffect (predOf fun r => decide (r < x.e.scalar.toNat))

/-! ## Broadcasts (R170) -/

/-- The operation of ROWB and COLB by FN on one element. -/
def bcastOp (k : Nat) (strict sat : Bool) (fa fb fd : Fmt) (a b : Code) : Rounded :=
  match k with
  | 0 => elementwise .add strict sat fa fb fd a b 0
  | 1 => elementwise .sub strict sat fa fb fd a b 0
  | 2 => elementwise .mul strict sat fa fb fd a b 0
  | 3 => maxmin false sat fa fb fd a b
  | _ => maxmin true sat fa fb fd a b

/-- ROWB (`row`) takes TB(r, 0), COLB takes TB(0, c); the extent is that of TA (R170, R563). -/
def xBcast (row : Bool) (k : Nat) (x : XIn) : XEffect :=
  x.mapEffect [x.oa] fun i =>
    let (a, ma) := x.oa.get x.ts i
    let (b, mb) := x.ob.get x.ts (if row then i / 64 * 64 else i % 64)
    (bcastOp k x.a.s x.a.sat x.fa x.fb x.fd a b, ma || mb)

/-- PROBE (R183): the summary of MOV of TA. -/
def xProbe (x : XIn) : XEffect :=
  { sum := (x.idx.foldl (fun (a : SumAcc) i =>
      if validAt x.ts x.oa i then let (c, m) := x.oa.get x.ts i; a.add x.fa c m false else a) {}).toWord }

end Sys2Proof.Machine
end

