-- ==== Sys2Proof/Machine/Xreduce.lean ====
section
/-! DEFINITION. Reductions, the statistic bank and normalisation (R125, R162, R167 to R176, R562). -/

namespace Sys2Proof.Machine

/-- The terms of positions of TA: elements, or their exact squares (R167, R172). -/
def XIn.terms (x : XIn) (sq : Bool) (idx : List Nat) : List Term :=
  let split := !x.a.s && x.fa == .fp64
  idx.map fun i =>
    let v := x.fa.decode (x.oa.get x.ts i).1
    if sq then Term.prod split v v else Term.whole v

/-- Whether some position of TA lies in a marked container. -/
def XIn.anyMark (x : XIn) (idx : List Nat) : Bool := idx.any fun i => (x.oa.get x.ts i).2

/-- RSUM of some positions (R167). -/
def redSum (sq : Bool) (x : XIn) (idx : List Nat) : Rounded :=
  groupSum x.a.s x.a.sat (accFmt [x.fa, x.fd]) x.fd (x.terms sq idx)

/-- The position of the maximum or minimum among some positions; equal values go to the lower index, NaN is ignored
(R103, R168). -/
def bestOf (isMin : Bool) (x : XIn) (idx : List Nat) : Option Nat :=
  idx.foldl (fun b i =>
    let v := x.fa.decode (x.oa.get x.ts i).1
    if v.isNan then b
    else match b with
      | none => some i
      | some j => if beats isMin v (x.fa.decode (x.oa.get x.ts j).1) then some i else b) none

/-- The invalid flag of signalling elements (R103). -/
def XIn.snan (x : XIn) (idx : List Nat) : FpFlags :=
  { nv := idx.any fun i => (x.fa.decode (x.oa.get x.ts i).1).isSnan }

/-- RMAX of some positions (R167). -/
def redMax (isMin : Bool) (x : XIn) (idx : List Nat) : Rounded :=
  let o := match bestOf isMin x idx with
    | some i => deliver x.fa x.fd x.a.sat (x.oa.get x.ts i).1
    | none => { code := BitVec.ofNat 64 x.fd.nanCode }
  { o with flags := o.flags.or (x.snan idx) }

/-- RDOT of some positions, with the old destination element as the first term if it accumulates (R167). -/
def redDot (acc : Bool) (x : XIn) (dest : Nat) (idx : List Nat) : Rounded :=
  let split := !x.a.s && x.fa == .fp64
  let first := if acc then [Term.whole (x.fd.decode (x.od.get x.ts dest).1)] else []
  groupSum x.a.s x.a.sat (accFmt [x.fa, x.fb, x.fd]) x.fd (first ++ idx.map fun i =>
    Term.prod split (x.fa.decode (x.oa.get x.ts i).1) (x.fb.decode (x.ob.get x.ts i).1))

/-- RARG of some positions on an axis (R168). -/
def redArg (ax : Nat) (isMin : Bool) (x : XIn) (idx : List Nat) : Rounded :=
  let c : Code := match bestOf isMin x idx with
    | some i => BitVec.ofNat 64 (if ax = 0 then i % 64 else if ax = 1 then i / 64 else i)
    | none => 0xFFFFFFFF
  { code := c, flags := x.snan idx }

/-- The groups of an axis: where each result goes, and the positions it combines (R125). -/
def XIn.axisGroups (x : XIn) (ax : Nat) : List (Nat × List Nat) :=
  match ax with
  | 0 => x.rows.map fun r => (64 * r, rowIdx x.count r)
  | 1 => ((List.range 64).map fun c => (c, x.idx.filter fun i => i % 64 == c)).filter fun g => !g.2.isEmpty
  | _ => if x.idx.isEmpty then [] else [(0, x.idx)]

/-- The destination of an axis (R120): one register for the column axis and the whole operand. -/
def XIn.axisDest (x : XIn) (ax : Nat) : Opd := if ax = 0 then x.od else { x.od with n := 1 }

/-- The extents of R562. -/
def XIn.axisExts (x : XIn) (ax : Nat) (srcs : List Opd) : ExtList :=
  match ax with
  | 0 => rowAxisExts x.ts srcs x.od x.rows
  | 1 => if x.idx.isEmpty then [] else [(x.od.base, 1, colAxisVc x.ts srcs x.idx)]
  | _ => if x.idx.isEmpty then [] else [(x.od.base, 1, 1)]

/-- A reduction on the row, column or whole axis (R125): a result for each group, with its contributors. -/
def xReduce (ax : Nat) (srcs : List Opd) (mark : Nat → List Nat → Bool) (x : XIn)
    (f : Nat → List Nat → Rounded) : XEffect :=
  let rs := (x.axisGroups ax).map fun g => (g.1, f g.1 g.2, mark g.1 g.2)
  destEffect x.ts (x.axisDest ax) (rs.map fun r => EWrite.of r.1 r.2.1 r.2.2) (x.axisExts ax srcs)
    (orFlags (rs.map fun r => r.2.1.flags))

/-- The segments of a segmented reduction: the positions of each, and whether its head flag is marked (R169). The TB
element of the first position counts as its head flag whatever its value (DESIGN CHOICE, log entry 149). -/
def XIn.segments (x : XIn) : List (List Nat × Bool) :=
  (x.idx.foldl (fun (acc : List (List Nat × Bool)) i =>
    let (b, m) := x.ob.get x.ts i
    match acc with
    | [] => [([i], m)]
    | (ps, hm) :: r => if nonzero x.fb b then ([i], m) :: (ps, hm) :: r else (i :: ps, hm) :: r) []).reverse.map
    fun g => (g.1.reverse, g.2)

/-- The effect of a compacted destination (R169, R213): its summary covers the results alone. -/
def compactEffect (x : XIn) (d : Opd) (rs : List (Rounded × Bool)) : XEffect :=
  let exts := compactExts d rs.length
  let e : XEffect := { writes := [(d.base, d.fmt, d.clip (compactWrites rs))], exts
                       flags := orFlags (rs.map fun r => r.1.flags) }
  let after := e.tiles x.ts
  { e with sum := (sumWrites after d (d.clip ((compactWrites rs).take rs.length))).toWord }

/-- The segmented forms of RSUM and RMAX (R169). -/
def xSegmented (x : XIn) (f : List Nat → Rounded) : XEffect :=
  compactEffect x x.od (x.segments.map fun g => (f g.1, x.anyMark g.1 || g.2))

/-- RSUM (R167, R169). -/
def xRsum (ax : Nat) (sq : Bool) (x : XIn) : XEffect :=
  if ax = 3 then xSegmented x (redSum sq x)
  else xReduce ax [x.oa] (fun _ ps => x.anyMark ps) x fun _ ps => redSum sq x ps

/-- RMAX (R167, R169). -/
def xRmax (ax : Nat) (isMin : Bool) (x : XIn) : XEffect :=
  if ax = 3 then xSegmented x (redMax isMin x)
  else xReduce ax [x.oa] (fun _ ps => x.anyMark ps) x fun _ ps => redMax isMin x ps

/-- RDOT (R167). -/
def xRdot (ax : Nat) (acc : Bool) (x : XIn) : XEffect :=
  xReduce ax [x.oa, x.ob]
    (fun d ps => x.anyMark ps || (ps.any fun i => (x.ob.get x.ts i).2) || (acc && (x.od.get x.ts d).2)) x
    fun d ps => redDot acc x d ps

/-- RARG (R168). -/
def xRarg (ax : Nat) (isMin : Bool) (x : XIn) : XEffect :=
  xReduce ax [x.oa] (fun _ ps => x.anyMark ps) x fun _ ps => redArg ax isMin x ps

/-! ## The statistic bank (R171 to R173) -/

/-- An entry of the bank. -/
def HartState.entry (h : HartState) (r : Nat) : StatEntry := sget {} h.bank r

/-- The mode mark of an accumulating RACC (R173). -/
def XIn.mark (x : XIn) : SumMode :=
  if x.a.s then (if accFmt [x.fa, x.fd] == .fp64 then .strict64 else .strict32) else .fast

/-- The running maximum with one more value (R103, R172): NaN only while nothing else was seen. -/
def maxWith (m : Option Num) (v : Num) : Option Num :=
  match m with
  | none => some (if v.isNan then .nan false else v)
  | some w => if v.isNan then some w else if w.isNan then some v else some (if w.lt v then v else w)

/-- One accumulating RACC on one entry: SUM (1), SSQ (2) or MAX (3) over the positions of its row (R172). -/
def raccEntry (k : Nat) (x : XIn) (r : Nat) : StatEntry × FpFlags :=
  let ps := rowIdx x.count r
  let e := x.hart.entry r
  let vs := ps.map fun i => x.fa.decode (x.oa.get x.ts i).1
  let ts := x.terms (k == 2) ps
  let (sum, fl) :=
    if k = 3 then (e.sum, x.snan ps)
    else if x.fa.isInt then (e.sum.addInt (ts.map (·.v)), {})
    else if x.a.s then RunSum.addStrict (accFmt [x.fa, x.fd]) e.sum (ts.map (·.v))
    else (e.sum.addFast ts, {})
  ({ e with sum, max := if k = 3 then vs.foldl maxWith e.max else e.max
            count := e.count + (ps.filter (validAt x.ts x.oa)).length, mark := some x.mark
            slush := e.slush || x.anyMark ps }, fl)

/-- The code of RSTAT (R407). -/
def vfRstat : BitVec 4 := 3

/-- The accumulating forms of RACC (R172, R173). -/
def xRaccAcc (k : Nat) (x : XIn) : XEffect :=
  let es := x.rows.map fun r => (r, raccEntry k x r)
  let bad := es.any fun e =>
    let old := x.hart.entry e.1
    (old.mark.isSome && old.mark != some x.mark) || decide (2 ^ 24 < e.2.1.count)
  if bad then { fault := some vfRstat }
  else
    { bank := es.map fun e => (e.1, e.2.1), flags := orFlags (es.map (·.2.2))
      sum := { slush := (x.idx.filter fun i => (x.oa.get x.ts i).2).length : SumAcc }.toWord }

/-- Minus infinity in FP32. -/
def negInf32 : Word := 0xFF800000

/-- The row's log-sum-exp of an entry (R175): the value in FP32, its flags, and whether the row counts as empty. The
rounding of the sum raises no flag where the first two lines of the table give the result (DESIGN CHOICE, log entry
150). -/
def lseOf (strict : Bool) (e : StatEntry) : Word × FpFlags × Bool :=
  match e.max with
  | none | some (.inf true) => (negInf32, {}, true)
  | some v =>
    let m := Fmt.fp32.encode false false v
    let m32 := Fmt.fp32.decode m.code
    if m32 == .inf false then (0x7F800000, m.flags, false)
    else
      let s := e.sum.result .fp32 false
      if m32.isNan || (Fmt.fp32.decode s.code).isNan then (0x7FC00000, m.flags.or s.flags, false)
      else
        let l := Sfu.log2.apply strict (s.code.setWidth 32)
        let t := fp32Op .mul strict l.1 ln2Word
        let y := fp32Op .add strict (m.code.setWidth 32) t.1
        (y.1, (((m.flags.or s.flags).or l.2).or t.2).or y.2, false)

/-- What a read form of RACC writes for an entry: RDSUM (4), RDMAX (5), RDCNT (6), RDLSE (7) (R172). -/
def raccRead (k : Nat) (x : XIn) (r : Nat) : Rounded × Bool :=
  let e := x.hart.entry r
  match k with
  | 4 => (e.sum.result x.fd x.a.sat, false)
  | 5 => (x.fd.encode x.a.sat x.fa.isInt (e.max.getD (.inf true)), false)
  | 6 => (x.fd.encode x.a.sat true (.fin false e.count 0), false)
  | _ =>
    let (c, fl, empty) := lseOf x.a.s e
    let o := convert .fp32 x.fd x.a.sat (c.setWidth 64)
    ({ o with flags := fl.or o.flags }, empty)

/-- The read forms of RACC (R172, R175). A 16- or 8-bit result is one element of its container, whose bit stays set when
it was set before (R126; DEDUCED, log entry 151). -/
def xRaccRead (k : Nat) (x : XIn) : XEffect :=
  let rs := x.rows.map fun r => (r, raccRead k x r)
  let rows := (x.count + 63) / 64
  let exts := (List.range x.od.n).map fun j =>
    (regAt x.od.base j, min (rows - j * x.fd.rowsPer) x.fd.rowsPer, 1)
  destEffect x.ts x.od (rs.map fun r => EWrite.of (64 * r.1) r.2.1 (x.hart.entry r.1).slush) exts
    (orFlags (rs.map fun r => r.2.1.flags)) (rs.filter fun r => r.2.2).length

/-- RACC (R172). -/
def xRacc (k : Nat) (x : XIn) : XEffect :=
  if k = 0 then { bank := x.rows.map fun r => (r, {}) }
  else if k < 4 then xRaccAcc k x
  else xRaccRead k x

/-! ## Normalisation (R174 to R176) -/

/-- A normalised row: its FP32 results, flags, whether it is empty, and for the statistic bank its maximum and sum. -/
structure NormRow where
  ys : List Word
  flags : FpFlags := {}
  empty : Bool := false
  m : Num := .nan false
  s : RunSum := {}

/-- A running sum that holds one value. -/
def RunSum.ofNum (v : Num) : RunSum :=
  match v with
  | .nan _ => { empty := false, nan := true, allNegZero := false }
  | .inf n => { empty := false, pinf := !n, ninf := n, allNegZero := false }
  | .fin n m e => { empty := false, m := (Num.fin n m e).signed, e, allNegZero := n && m == 0 }

/-- The value of an FP32 word. -/
def f32 (w : Word) : Num := Fmt.fp32.decode (w.setWidth 64)

/-- SOFTMAX or LOGSOFTMAX of a row (R174); `snan` when an element of the row is signalling. The rounded values of the
third branch raise no flag (DESIGN CHOICE, log entry 152). -/
def softmaxRow (log strict snan : Bool) (xs : List Word) : NormRow :=
  let vs := xs.map f32
  let k := (vs.filter fun v => v == .inf false).length
  if vs.any Num.isNan then
    { ys := xs.map fun _ => 0x7FC00000, flags := { nv := snan }, s := RunSum.ofNum (.nan false) }
  else if vs.all fun v => v == .inf true then
    { ys := xs.map fun _ => if log then negInf32 else 0, empty := true, m := .inf true, s := RunSum.ofNum (.fin false 0 0) }
  else if 0 < k then
    { ys := vs.map fun v => if v == .inf false then (if log then negLn k else oneOver k) else if log then negInf32 else 0
      m := .inf false, s := RunSum.ofNum (.fin false k 0) }
  else
    let m := (vs.foldl maxWith none).getD (.nan false)
    let mw : Word := (Fmt.fp32.encode false false m).code.setWidth 32
    let ds := xs.map fun w => fp32Op .sub strict w mw
    let es := ds.map fun d => Sfu.exp.apply strict d.1
    let s := groupSum strict false .fp32 .fp32 (es.map fun e => Term.whole (f32 e.1))
    let sw : Word := s.code.setWidth 32
    let fl := (orFlags (ds.map (·.2) ++ es.map (·.2))).or (if strict then s.flags else {})
    if log then
      let l := Sfu.log2.apply strict sw
      let t := fp32Op .mul strict l.1 ln2Word
      let ys := ds.map fun d => fp32Op .sub strict d.1 t.1
      { ys := ys.map (·.1), flags := ((fl.or l.2).or t.2).or (orFlags (ys.map (·.2))), m, s := RunSum.ofNum (f32 sw) }
    else
      let rc := Sfu.rcp.apply strict sw
      let ys := es.map fun e => fp32Op .mul strict e.1 rc.1
      { ys := ys.map (·.1), flags := (fl.or rc.2).or (orFlags (ys.map (·.2))), m, s := RunSum.ofNum (f32 sw) }

/-- RMSNORM of a row with `n` valid positions, or LAYERNORM (R176); `snan` when an element of the row is signalling,
which the row's sum sees. -/
def rmsRow (layer strict snan : Bool) (eps : Word) (n : Nat) (xs : List Word) : NormRow :=
  if n = 0 then { ys := xs.map fun _ => 0, empty := true }
  else
    let sum := fun (sq : Bool) (l : List Word) =>
      let r := groupSum strict false .fp32 .fp32 (l.map fun w => if sq then Term.prod false (f32 w) (f32 w) else .whole (f32 w))
      ((r.code.setWidth 32 : Word), if strict then r.flags else {})
    let rn := Sfu.rcp.apply strict ((Fmt.fp32.encode false true (.fin false n 0)).code.setWidth 32)
    let mu := sum false xs
    let mean := fp32Op .mul strict mu.1 rn.1
    let ds := xs.map fun w => if layer then fp32Op .sub strict w mean.1 else (w, {})
    let q := sum true (ds.map (·.1))
    let v := fp32Op .mul strict q.1 rn.1
    let ve := fp32Op .add strict v.1 eps
    let r := Sfu.rsq.apply strict ve.1
    let ys := ds.map fun d => fp32Op .mul strict d.1 r.1
    { ys := ys.map (·.1)
      flags := orFlags ([{ nv := snan }, rn.2, q.2, v.2, ve.2, r.2] ++ (if layer then [mu.2, mean.2] else []) ++ ds.map (·.2) ++ ys.map (·.2)) }

/-- One row of NORM by FN. -/
def normRow (k : Nat) (x : XIn) (r : Nat) : NormRow :=
  let ps := rowIdx x.count r
  let cs := ps.map fun i => (x.oa.get x.ts i).1
  let xs := cs.map fun c => ((convert x.fa .fp32 false c).code.setWidth 32 : Word)
  let snan := cs.any fun c => (x.fa.decode c).isSnan
  if k < 2 then softmaxRow (k == 1) x.a.s snan xs
  else rmsRow (k == 3) x.a.s snan x.e.eps (ps.filter (validAt x.ts x.oa)).length xs

/-- NORM (R174 to R176): the extent is that of TA, and the softmax forms fill the statistic bank. -/
def xNorm (k : Nat) (x : XIn) : XEffect :=
  let rows := x.rows.map fun r => (r, normRow k x r)
  let ws := rows.flatMap fun (r, n) =>
    let mark := x.anyMark (rowIdx x.count r)
    ((rowIdx x.count r).zip n.ys).map fun (i, y) => (i, convert .fp32 x.fd x.a.sat (y.setWidth 64), mark)
  let fl := (orFlags (rows.map fun r => r.2.flags)).or (orFlags (ws.map fun w => w.2.1.flags))
  let e := destEffect x.ts x.od (ws.map fun w => EWrite.of w.1 w.2.1 w.2.2) (coverExts x.ts [x.oa] x.od x.count) fl
    (rows.filter fun r => r.2.empty).length
  if k < 2 then
    { e with bank := rows.map fun (r, n) =>
        (r, { sum := n.s, max := some n.m, count := ((rowIdx x.count r).filter (validAt x.ts x.oa)).length
              mark := some (if x.a.s then .strict32 else .fast), slush := x.anyMark (rowIdx x.count r) }) }
  else e

end Sys2Proof.Machine
end

