-- ==== Sys2Proof/Machine/Xperm.lean ====
section
/-! DEFINITION. Permutation, selection, sorting, sets, histograms and expert routing (R177 to R181, R195, R213 to
R224). -/

namespace Sys2Proof.Machine

/-- An element of an operand as bits without flags, with its mark. -/
def Opd.plain (o : Opd) (ts : Vector Tile 64) (i : Nat) : Rounded × Bool := let (c, m) := o.get ts i; ({ code := c }, m)

/-- TRANS (R177): destination element (c, r) of each tile takes source element (r, c). -/
def xTrans (x : XIn) : XEffect :=
  let src := fun i => i / 4096 * 4096 + i % 64 * 64 + i % 4096 / 64
  let ds := (List.range ((x.count + 4095) / 4096 * 4096)).filter fun i =>
    decide (src i < x.count) && x.pred.getLsbD (src i / 64)
  let exts := ((List.range x.od.n).filter fun j => ds.any fun i => i / 4096 == j).map fun j =>
    let t := x.ts.get (regAt x.oa.base j)
    (regAt x.od.base j, t.vc, min t.vr 64)
  destEffect x.ts x.od (ds.map fun i => let p := x.oa.plain x.ts (src i); EWrite.of i p.1 p.2) exts {}

/-- PERM (R178). -/
def xPerm (x : XIn) : XEffect :=
  let ws := x.idx.map fun i =>
    let (c, m) := x.oa.get x.ts i
    let v := intVal .int32 c
    if 0 ≤ v ∧ v < x.od.size then
      let p := x.od.plain x.ts v.toNat
      EWrite.of i p.1 (p.2 || m)
    else { i, code := 0, mark := true }
  destEffect x.ts x.od ws [] {}

/-- COMPACT (R181): the selecting element counts among the contributors of the element it selects (log entry 21). -/
def xCompact (x : XIn) : XEffect :=
  let sel := x.idx.filter fun i => validAt x.ts x.oa i && nonzero x.fb (x.ob.get x.ts i).1
  compactEffect x x.od (sel.map fun i => let p := x.oa.plain x.ts i; (p.1, p.2 || (x.ob.get x.ts i).2))

/-- COMPACT, expand (R181). -/
def xExpand (x : XIn) : XEffect :=
  let pos := x.idx.filter fun i => nonzero x.fb (x.ob.get x.ts i).1
  let ws := pos.zipIdx.map fun (i, n) =>
    let p := x.oa.plain x.ts n
    EWrite.of i p.1 (p.2 || (x.ob.get x.ts i).2)
  destEffect x.ts x.od ws [] {}

/-! ## Order (R195, R214) -/

/-- `b` strictly precedes `a` in the sort order (R214): NaN after every number in both directions. -/
def precedes (desc : Bool) (b a : Num) : Bool :=
  match b.isNan, a.isNan with
  | true, _ => false
  | false, true => true
  | false, false => if desc then a.lt b else b.lt a

/-- Inserts into a list sorted by a strict order, before the first element it must precede; an element of equal rank
stays after the earlier ones. -/
def insertBy {α : Type} (lt : α → α → Bool) (a : α) : List α → List α
  | [] => [a]
  | b :: r => if lt a b then a :: b :: r else b :: insertBy lt a r

/-- A stable sort by a strict order. -/
def sortBy {α : Type} (lt : α → α → Bool) (l : List α) : List α := l.foldl (fun acc a => insertBy lt a acc) []

/-- The `k` highest-ranked of some positions: a rank order, and the lower position of equal rank (R195). -/
def topBy (less : Nat → Nat → Bool) (k : Nat) (ps : List Nat) : List Nat :=
  (sortBy (fun a b => less b a) ps).take k

/-- Selection by value among elements: `small` ranks the smallest first; NaN is left out by the caller (R195). -/
def valueLess (small : Bool) (a b : Num) : Bool := if small then b.lt a else a.lt b

/-! ## SORT and MERGE (R215, R216) -/

/-- The payload group. -/
def XIn.pay (x : XIn) : Opd := x.group x.a.tb.toFin .int32

/-- An element that moves: its position, its key and its payload, with their marks. -/
structure Moved where
  i : Nat
  key : Num
  code : Code
  mark : Bool
  pay : Code × Bool

/-- An element with its payload. -/
def XIn.moved (x : XIn) (i : Nat) : Moved :=
  let (c, m) := x.oa.get x.ts i
  { i, key := x.fa.decode c, code := c, mark := m, pay := x.pay.get x.ts i }

/-- Writes moved elements to positions, in ascending order, with the payload if there is one; the summary counts both
(R229). -/
def XIn.place (x : XIn) (pay : Bool) (ps : List Nat) (ms : List Moved) (exts : ExtList) (payExts : ExtList) : XEffect :=
  let pairs := ps.zip ms
  let keys : List EWrite := pairs.map fun (i, m) => { i, code := m.code, mark := m.mark }
  let e := destEffect x.ts x.od keys exts {}
  if pay then
    let pays : List EWrite := pairs.map fun (i, m) => { i, code := m.pay.1, mark := m.pay.2 }
    e.withSecond x.ts x.od keys x.pay pays payExts
  else e

/-- SORT (R215): the valid positions of each active row. The payload group keeps its extent (DESIGN CHOICE, log entry
155). -/
def xSort (desc pay : Bool) (x : XIn) : XEffect :=
  let rows := x.rows.map fun r => (rowIdx x.count r).filter (validAt x.ts x.oa)
  let ps := rows.flatMap id
  let ms := rows.flatMap fun l => sortBy (fun a b : Moved => precedes desc a.key b.key) (l.map x.moved)
  x.place pay ps ms (coverExts x.ts [x.oa] x.od x.count) []

/-- The sequence of R213. -/
def XIn.seqIdx (x : XIn) : List Nat := x.idx.filter (validAt x.ts x.oa)

/-- Merges two runs (R216): from the first unless it is exhausted or the second strictly precedes it. -/
def mergeRuns (desc : Bool) : Nat → List Moved → List Moved → List Moved
  | 0, a, b => a ++ b
  | _ + 1, [], b => b
  | _ + 1, a, [] => a
  | n + 1, p :: a, q :: b =>
    if precedes desc q.key p.key then q :: mergeRuns desc n (p :: a) b else p :: mergeRuns desc n a (q :: b)

/-- Merges the pairs of runs of `h` elements. -/
def mergePairs (desc : Bool) (h : Nat) : Nat → List Moved → List Moved
  | 0, l => l
  | n + 1, l =>
    if l.isEmpty then []
    else
      mergeRuns desc (2 * h) (l.take h) ((l.drop h).take h) ++ mergePairs desc h n (l.drop (2 * h))

/-- MERGE (R216): the merged elements take the positions of the sequence; extents by R123 (log entry 23). -/
def xMerge (desc pay : Bool) (x : XIn) : XEffect :=
  let ms := x.seqIdx.map x.moved
  let srcs := [x.oa] ++ if pay then [x.pay] else []
  x.place pay x.seqIdx (mergePairs desc x.e.xarg.toNat ms.length ms) (coverExts x.ts srcs x.od x.count)
    (coverExts x.ts srcs x.pay x.count)

/-! ## TOPK (R217) -/

/-- A candidate: its value, bits, index and mark. -/
structure Cand where
  v : Num
  code : Code
  index : Word
  mark : Bool

/-- The winners of some candidates: the best `k` numbers, of equal rank the lower index (R195, R217). -/
def winners (small : Bool) (k : Nat) (cs : List Cand) : List Cand :=
  (sortBy (fun a b : Cand =>
      valueLess small b.v a.v || (!(valueLess small a.v b.v) && decide (a.index.toInt < b.index.toInt)))
    (cs.filter fun c => !c.v.isNan)).take k

/-- The worst value of a format for TOPK (R217). E4M3 has no infinity and gets what an infinity encodes to there, its NaN
(DESIGN CHOICE, log entry 175). -/
def worstCode (small : Bool) (f : Fmt) : Code :=
  if f.isInt then (f.wrapInt true (if small then f.intMax else f.intMin)).code
  else (f.encode false false (.inf (!small))).code

/-- The candidates that row `r` of the destinations already holds (R217): those of its first `k` columns, whatever its
extent (DESIGN CHOICE, log entry 156). -/
def XIn.held (x : XIn) (d t : Opd) (r k : Nat) : List Cand :=
  ((List.range k).map fun c =>
    let (v, m) := d.get x.ts (64 * r + c)
    let (i, mi) := t.get x.ts (64 * r + c)
    { v := x.fd.decode v, code := v, index := i.setWidth 32, mark := m || mi : Cand }).filter fun c => c.index != 0xFFFFFFFF

/-- TOPK (R217): the winners of each active row, or of the whole sequence into row 0. -/
def xTopk (small seq acc : Bool) (x : XIn) : XEffect :=
  let k := (x.e.xarg.extractLsb' 0 7).toNat
  let b := x.e.xarg >>> 8
  let d : Opd := if seq then { x.od with n := 1 } else x.od
  let t : Opd := if seq then { x.pay with n := 1 } else x.pay
  let cand := fun (i n : Nat) =>
    let (c, m) := x.oa.get x.ts i
    { v := x.fa.decode c, code := c, index := b + BitVec.ofNat 32 n, mark := m : Cand }
  let rows : List (Nat × List Cand) :=
    if seq then [(0, x.seqIdx.zipIdx.map fun (i, n) => cand i n)]
    else x.rows.map fun r => (r, ((rowIdx x.count r).filter (validAt x.ts x.oa)).map fun i => cand i (i % 64))
  let res : List (Nat × List Cand × Nat) := rows.map fun (r, cs) =>
    let all := (if acc then x.held d t r k else []) ++ cs
    (r, winners small k all, (all.filter fun c => !c.v.isNan).length)
  let vals := res.flatMap fun (r, w, _) => (List.range k).map fun c =>
    match w[c]? with
    | some m => { i := 64 * r + c, code := m.code, mark := m.mark : EWrite }
    | none => { i := 64 * r + c, code := worstCode small x.fd }
  let idxs := res.flatMap fun (r, w, _) => (List.range k).map fun c =>
    match w[c]? with
    | some m => { i := 64 * r + c, code := m.index.setWidth 64, mark := m.mark : EWrite }
    | none => { i := 64 * r + c, code := 0xFFFFFFFF }
  let ext := fun o : Opd => ((List.range o.n).filter fun j => res.any fun q => q.1 / o.fmt.rowsPer == j).map fun j =>
    (regAt o.base j, res.foldl (fun a q => if q.1 / o.fmt.rowsPer = j then max a (q.1 % o.fmt.rowsPer + 1) else a) 0, k)
  let won := res.flatMap fun (r, w, _) => w.zipIdx.map fun (m, c) => { i := 64 * r + c, code := m.code, mark := m.mark : EWrite }
  let e : XEffect := { writes := [(d.base, x.fd, vals), (t.base, .int32, idxs)], exts := ext d ++ ext t }
  let short := (res.map fun r => r.2.2).filter fun n => decide (n < k)
  { e with sum := { (sumWrites (e.tiles x.ts) d won) with empty := short.length }.toWord }

/-! ## Sets and histograms (R218 to R220) -/

/-- Equality of UNIQUE (R218). A signalling NaN that it meets raises no flag (DESIGN CHOICE, log entry 176). -/
def uniqueEq (f : Fmt) (a b : Code) : Bool :=
  let x := f.decode a
  let y := f.decode b
  (x.isNan && y.isNan) || x.eqv y

/-- The runs of equal elements: the positions of each, in order. -/
def runsOf (x : XIn) (ps : List Nat) : List (List Nat) :=
  ((ps.foldl (fun (acc : List (List Nat)) i =>
    match acc with
    | (l :: q) :: r =>
      if uniqueEq x.fa (x.oa.get x.ts l).1 (x.oa.get x.ts i).1 then (i :: l :: q) :: r else [i] :: (l :: q) :: r
    | r => [i] :: r) []).map List.reverse).reverse

/-- UNIQUE (R218): the first element of each run, and with its length every element of the run contributes. The summary is
over the results and their lengths, without the +0 elements that follow them (DESIGN CHOICE, log entry 180). -/
def xUnique (len : Bool) (x : XIn) : XEffect :=
  let runs := runsOf x x.seqIdx
  let firsts := runs.map fun r => x.oa.plain x.ts (r.headD 0)
  let e := compactEffect x x.od firsts
  if len then
    let lens : List (Rounded × Bool) := runs.map fun r => ({ code := BitVec.ofNat 64 r.length }, x.anyMark r)
    let own := fun (o : Opd) (rs : List (Rounded × Bool)) => o.clip ((compactWrites rs).take rs.length)
    let both := e.withSecond x.ts x.od (own x.od firsts) x.pay (x.pay.clip (compactWrites lens)) (compactExts x.pay lens.length)
    { both with sum := (sumWrites2 (both.tiles x.ts) x.od (own x.od firsts) x.pay (own x.pay lens)).toWord }
  else e

/-- The set of ISECT: the first CE_KS_XARG valid positions of the TB group (R219, R228). -/
def XIn.setIdx (x : XIn) : List Nat := ((List.range x.ob.size).filter (validAt x.ts x.ob)).take x.e.xarg.toNat

/-- ISECT (R219); an element of the result has its own element as its contributor. A signalling NaN raises no flag (DESIGN
CHOICE, log entry 176), and the summary is over the results alone (DESIGN CHOICE, log entry 180). -/
def xIsect (idx : Bool) (x : XIn) : XEffect :=
  let set := x.setIdx.map fun i => x.fb.decode (x.ob.get x.ts i).1
  let hit := x.seqIdx.zipIdx.filter fun (i, _) =>
    let v := x.fa.decode (x.oa.get x.ts i).1
    set.any fun w => v.eqv w
  compactEffect x x.od (hit.map fun (i, n) =>
    let p := x.oa.plain x.ts i
    (if idx then { code := BitVec.ofNat 64 n } else p.1, p.2))

/-- The bin of an element (R220): the element itself, or its biased exponent field. -/
def binOf (expo : Bool) (f : Fmt) (c : Code) : Int :=
  if expo then ((c.toNat / 2 ^ f.mbits % (f.emax + 1) : Nat) : Int) else intVal f c

/-- HIST (R220): bins that the registers of TD do not hold are not written (log entry 22). -/
def xHist (expo acc : Bool) (x : XIn) : XEffect :=
  let nb := x.e.xarg.toNat
  let d := x.group x.a.td.toFin .int32
  let els := x.seqIdx.map fun i => let (c, m) := x.oa.get x.ts i; (binOf expo x.fa c, m)
  let inside := fun v : Int => decide (0 ≤ v) && decide (v < nb)
  let bins : List EWrite := (List.range (min nb d.size)).map fun (j : Nat) =>
    let own := els.filter fun e => e.1 == Int.ofNat j
    let old : Code × Bool := if acc then d.get x.ts j else (0, false)
    let v := own.foldl (fun v _ => (Fmt.int32.wrapInt x.a.sat (intVal .int32 v + 1)).code) old.1
    { i := j, code := v, mark := old.2 || own.any (·.2) : EWrite }
  { writes := [(d.base, .int32, bins)], exts := compactExts d nb
    sum := { valid := nb, nz := bins.any fun w => w.code != 0, sate := els.any fun e => !inside e.1 : SumAcc }.toWord }

/-! ## ROUTE (R221 to R224) -/

/-- The code of RSIZE (R407). -/
def vfRsize : BitVec 4 := 6

/-- The choices of a token: its experts in rank order; none when a logit is NaN (R222). Every column below VC is an expert,
also those of the last token at or beyond COUNT (DESIGN CHOICE, log entry 177). -/
def routeChoices (x : XIn) (k ex row : Nat) : List Nat :=
  let v := fun e => x.fa.decode (x.oa.get x.ts (64 * row + e)).1
  if (List.range ex).any fun e => (v e).isNan then []
  else topBy (fun a b => (v a).lt (v b)) (min k ex) (List.range ex)

/-- The granting of slots (R222): choice rounds over the tokens in row order, with the counts and the slots so far. -/
def grantSlots (cap : Nat) (choices : List (Nat × List Nat)) (k : Nat) :
    List (Nat × Nat) × List (Nat × Nat × Nat) :=
  (List.range k).foldl (fun st j =>
    choices.foldl (fun (st : List (Nat × Nat) × List (Nat × Nat × Nat)) (t : Nat × List Nat) =>
      match t.2[j]? with
      | none => st
      | some e =>
        let c := ((st.1.find? fun q => q.1 == e).map (·.2)).getD 0
        if c < cap then ((e, c + 1) :: st.1.filter (fun q => q.1 != e), (e * cap + c, t.1, j) :: st.2) else st) st)
    ([], [])

/-- ROUTE (R221 to R224). The softmax of FN[0] = 1 adds its terms in rank order (DESIGN CHOICE, log entry 178), and a
signalling NaN of a token that chooses nothing is invalid in strict mode there too (DESIGN CHOICE, log entry 179). -/
def xRoute (chosen : Bool) (x : XIn) : XEffect :=
  let k := (x.e.xarg.extractLsb' 0 4).toNat
  let cap := (x.e.xarg.extractLsb' 4 15).toNat
  let t := x.pay
  -- a token is an active valid row, an expert a valid column (R221)
  let toks := x.rows.filter fun r => decide (0 < rowWidth x.ts x.oa r)
  let ex := (x.ts.get x.oa.base).vc
  if decide (t.size < ex * cap + ex) || decide (x.od.size < ex * cap) then { fault := some vfRsize }
  else
    let choices := toks.map fun r => (r, routeChoices x k ex r)
    let (counts, slots) := grantSlots cap choices k
    let logits := fun r => (List.range ex).map fun e =>
      ((convert x.fa .fp32 false (x.oa.get x.ts (64 * r + e)).1).code.setWidth 32 : Word)
    let norm := fun r : Nat =>
      let ls := logits r
      let ch := ((choices.find? fun c => c.1 == r).map (·.2)).getD []
      if chosen then softmaxRow false x.a.s false (ch.map fun e => ls.getD e 0) else softmaxRow false x.a.s false ls
    let norms := toks.map fun r => (r, norm r)
    let weight := fun (r j : Nat) =>
      let ch := ((choices.find? fun c => c.1 == r).map (·.2)).getD []
      let n := ((norms.find? fun q => q.1 == r).map (·.2.ys)).getD []
      convert .fp32 x.fd x.a.sat ((n.getD (if chosen then j else ch.getD j 0) 0).setWidth 64)
    let markRow := fun r => (List.range ex).any fun e => (x.oa.get x.ts (64 * r + e)).2
    let nan := toks.filter fun r => (List.range ex).any fun e => (x.fa.decode (x.oa.get x.ts (64 * r + e)).1).isNan
    let snan := nan.any fun r => (List.range ex).any fun e => (x.fa.decode (x.oa.get x.ts (64 * r + e)).1).isSnan
    let at' := fun i => slots.find? fun q => q.1 == i
    let ws := (List.range (ex * cap)).map fun i => match at' i with
      | some (_, r, j) => EWrite.of i (weight r j) (markRow r)
      | none => { i, code := 0 }
    let ts := ((List.range (ex * cap)).map fun i => match at' i with
      | some (_, r, _) => { i, code := BitVec.ofNat 64 r, mark := markRow r : EWrite }
      | none => { i, code := 0xFFFFFFFF }) ++
      (List.range ex).map fun e =>
        { i := ex * cap + e, code := BitVec.ofNat 64 (((counts.find? fun q => q.1 == e).map (·.2)).getD 0)
          mark := toks.any fun r => markRow r && (((choices.find? fun c => c.1 == r).map (·.2)).getD []).contains e : EWrite }
    let e : XEffect :=
      { writes := [(x.od.base, x.fd, ws), (t.base, .int32, ts)]
        exts := compactExts x.od (ex * cap) ++ compactExts t (ex * cap + ex)
        flags := ((orFlags (norms.map fun q => q.2.flags)).or (orFlags (slots.map fun q => (weight q.2.1 q.2.2).flags))).or
          { nv := snan } }
    let granted := ws.filter fun w => (at' w.i).isSome
    let s := sumWrites (e.tiles x.ts) x.od granted
    let dropped := toks.filter fun r =>
      let ch := ((choices.find? fun c => c.1 == r).map (·.2)).getD []
      nan.contains r || decide ((slots.filter fun q => q.2.1 == r).length < ch.length)
    { e with sum := { s with valid := slots.length, empty := dropped.length, nan := s.nan || !nan.isEmpty }.toWord }

end Sys2Proof.Machine
end

