-- ==== Sys2Proof/Machine/Xmask.lean ====
section
/-! DEFINITION. The mask lifecycle: pruning, regrowth, packing, unpacking and the herringbone transpose (R186 to
R212, R556 to R558), and the keyed counter generator (R265, R266). -/

namespace Sys2Proof.Machine

/-! ## The keyed counter generator (R265, R266) -/

/-- The generator's four words and round. -/
structure GenState where
  a : Word
  b : Word
  c : Word
  d : Word

/-- One round (R266). -/
def genRound (k0 k1 : Word) (s : GenState) (r : Nat) : GenState :=
  let a := s.a + s.b
  let d := (s.d ^^^ a).rotateLeft 16
  let c := s.c + d
  let b := (s.b ^^^ c).rotateLeft 12
  let a := a + (if r % 2 = 0 then k0 else k1) + BitVec.ofNat 32 (r * 0x9E3779B9)
  { a := b, b := c, c := d, d := a }

/-- The output y3:y2:y1:y0 for a counter and a key (R265, R266). -/
def genBlock (k0 k1 c0 c1 c2 : Word) : BitVec 128 :=
  let c3 : Word := 0x43414C33
  let s := (List.range 10).foldl (genRound k0 k1) { a := c0, b := c1, c := c2, d := c3 }
  (s.d + c3) ++ (s.c + c2) ++ (s.b + c1) ++ (s.a + c0)

/-- The draw u, which is y0 (R266). -/
def genDraw (k0 k1 c0 c1 c2 : Word) : Word := (genBlock k0 k1 c0 c1 c2).setWidth 32

/-- The counter words c1 and c2 of R265. -/
def genC1 (slot : BitVec 8) (gen : BitVec 24) : Word := slot ++ gen
/-- The word c2 of R265. -/
def genC2 (draw : BitVec 8) (stream : BitVec 24) : Word := draw ++ stream

/-! ## Bricks (R186 to R191) -/

/-- Brick size of the instruction. -/
def XIn.bsz (x : XIn) : Nat := brickB x.e.mparam

/-- The bricks of the active rows below COUNT. -/
def XIn.bricks (x : XIn) : List Nat :=
  (List.range (x.count / x.bsz)).filter fun j => x.pred.getLsbD (j * x.bsz / 64)

/-- The bitmap operand at a base (R191): one register. -/
def bitmapOpd (b : TileReg) : Opd := { base := b, fmt := .int32, n := 1 }

/-- The bitmap bit of element `i`. -/
def bitAt (ts : Vector Tile 64) (bm : Opd) (bsz i : Nat) : Bool := (bm.get ts (i / bsz)).1.getLsbD (i % bsz)

/-- The bits of a brick from a predicate on its elements. -/
def brickBits (bsz j : Nat) (f : Nat → Bool) : Nat :=
  (List.range bsz).foldl (fun a p => if f (j * bsz + p) then a + 2 ^ p else a) 0

/-! ## Pruning and regrowth (R196 to R200) -/

/-- The groups of a mode (R196): brick, element row, or groups of M positions, over the bricks of active rows. -/
def XIn.maskGroups (x : XIn) (size : Nat) : List (List Nat) :=
  ((List.range ((x.count + size - 1) / size)).map fun g =>
    ((List.range size).map fun p => g * size + p).filter fun i => decide (i < x.count) && x.pred.getLsbD (i / 64)).filter
    fun l => !l.isEmpty

/-- The threshold of R197. -/
def XIn.threshold (x : XIn) : Num := if x.fa.isInt then Fmt.int32.decode (x.e.scalar.setWidth 64) else f32 x.e.scalar

/-- The threshold rule (R197) over positions in ascending order: those kept (MPRUNE) or grown (MGROW), and the quota
left. -/
def threshPick (grow : Bool) (t : Num) (val : Nat → Num) (quota : Nat) (ps : List Nat) : List Nat × Nat :=
  ps.foldl (fun (st : List Nat × Nat) i =>
    let v := (val i).abs
    let ta := t.abs
    if (val i).isNan then st
    else if t.isNan then (if grow then st else (i :: st.1, st.2))
    else if ta.lt v then (i :: st.1, st.2)
    else if v.lt ta then st
    else if 0 < st.2 then (i :: st.1, st.2 - 1) else st) ([], quota)

/-- The bitmap after MPRUNE or MGROW and its marks (R191, R197, R199). -/
def bitmapWrites (x : XIn) (bm : Opd) (bit : Nat → Bool) : List EWrite :=
  x.bricks.map fun j =>
    let (_, m) := bm.get x.ts j
    { i := j, code := BitVec.ofNat 64 (brickBits x.bsz j bit)
      mark := m || x.anyMark ((List.range x.bsz).map fun p => j * x.bsz + p) }

/-- MPRUNE by mode 0 BRICK, 1 ROW, 2 NM, 3 THRESH (R196 to R199). -/
def xMprune (m : Nat) (x : XIn) : XEffect :=
  let bm := bitmapOpd x.a.td.toFin
  let k := (x.e.scalar.extractLsb' 0 7).toNat
  let n := (x.e.scalar.extractLsb' 0 5).toNat
  let size := if m = 1 then 64 else if m = 2 then 2 ^ (x.e.scalar.extractLsb' 8 3).toNat else x.bsz
  let val := fun i => x.fa.decode (x.oa.get x.ts i).1
  let alive := fun i => validAt x.ts x.oa i && bitAt x.ts bm x.bsz i
  let groups := x.maskGroups size
  let ps := x.idx.filter alive
  let th := threshPick false x.threshold val x.quota.toNat ps
  let keep : List Nat := if m = 3 then th.1 else
    groups.flatMap fun g => topBy (fun a b => magLess (val a) (val b)) (if m = 2 then n else k) (g.filter alive)
  let cut := ps.filter fun i => !keep.contains i
  let bits := bitmapWrites x bm fun i => keep.contains i && alive i
  let vals := cut.map fun i =>
    let g := if m = 3 then [i] else (List.range size).map fun p => i / size * size + p
    { i, code := 0
      mark := (bm.get x.ts (i / x.bsz)).2 || x.anyMark (g.filter fun q => decide (q < x.count)) : EWrite }
  let e : XEffect := { writes := [(bm.base, .int32, bits), (x.oa.base, x.fa, vals)] }
  { e with
    quota := if m = 3 then some (BitVec.ofNat 32 th.2) else none
    sum := { valid := cut.length, nz := !cut.isEmpty, empty := (bits.filter fun w => w.code == 0).length
             slush := (bits.filter fun w => w.mark).length : SumAcc }.toWord }

/-- The draw of a pruned position (R200). -/
def maskDraw (x : XIn) (i : Nat) : Word :=
  genDraw x.e.mkeyl x.e.mkeyh (x.e.mbase + BitVec.ofNat 32 i) (genC1 255 (x.e.mseed.setWidth 24)) (genC2 0 0xFFFFFF)

/-- MGROW by mode 0 SCORE, 1 THRESH, 2 RAND (R196, R197, R200). -/
def xMgrow (m : Nat) (x : XIn) : XEffect :=
  let bm := bitmapOpd x.a.td.toFin
  let k := (x.e.scalar.extractLsb' 0 7).toNat
  let val := fun i => x.fa.decode (x.oa.get x.ts i).1
  let valid := validAt x.ts x.oa
  let dead := fun i => valid i && !bitAt x.ts bm x.bsz i
  let groups := x.maskGroups x.bsz
  let th := threshPick true x.threshold val x.quota.toNat (x.idx.filter dead)
  let less := fun a b =>
    if m = 2 then decide ((maskDraw x a).toNat < (maskDraw x b).toNat) else magLess (val a) (val b)
  let grown : List Nat := if m = 1 then th.1 else groups.flatMap fun g => topBy less k (g.filter dead)
  let bits := bitmapWrites x bm fun i => valid i && (bitAt x.ts bm x.bsz i || grown.contains i)
  let e : XEffect := { writes := [(bm.base, .int32, bits)] }
  { e with
    quota := if m = 1 then some (BitVec.ofNat 32 th.2) else none
    sum := { valid := grown.length, nz := !grown.isEmpty
             empty := if m = 1 then 0 else
               (groups.filter fun g => decide ((g.filter dead).length < min k x.bsz)).length
             slush := (bits.filter fun w => w.mark).length : SumAcc }.toWord }

/-! ## Applying, packing, unpacking (R201 to R206) -/

/-- MAPPLY (R201). -/
def xMapply (inf : Bool) (x : XIn) : XEffect :=
  let bm := bitmapOpd x.a.tb.toFin
  let fill : Code := if inf then worstCode false x.fd else 0
  x.mapEffect [x.oa] fun i =>
    let (a, m) := x.oa.get x.ts i
    ({ code := if bitAt x.ts bm x.bsz i then a else fill }, m || (bm.get x.ts (i / x.bsz)).2)

/-- The header word 1 of a brick (R187). -/
def brickHeader (epoch : BitVec 16) (scale : BitVec 8) (f : Fmt) (bs : Bool) (kc : Nat) : Word :=
  BitVec.ofNat 3 kc ++ BitVec.ofBool bs ++ f.code ++ scale ++ epoch

/-- The slot words of a brick (R188): `n` words that hold the values in order. -/
def slotWords (f : Fmt) (n : Nat) (vs : List Code) : List Word :=
  let p := 32 / f.width
  (List.range n).map fun w => BitVec.ofNat 32 ((List.range p).foldl (fun a q =>
    a + (vs.getD (w * p + q) 0).toNat % 2 ^ f.width * 2 ^ (q * f.width)) 0)

/-- A packed group of bricks at a base, seen as INT32 containers. -/
def XIn.packed (x : XIn) (b : TileReg) (l : Nat) : Opd :=
  { base := b, fmt := .int32, n := (Use.mk b .int32 (.packed x.bsz l) false false).regs x.span }

/-- One brick that MPACK writes (R202 to R204): its words, mark, overflow, flags, saturation. -/
def packBrick (scaledForm : Bool) (x : XIn) (j : Nat) : List Word × Bool × Bool × FpFlags × Bool :=
  let bm := bitmapOpd x.a.tb.toFin
  let kc := mpKC x.e.mparam
  let l := brickLen kc x.fd
  let ps := ((List.range x.bsz).map fun p => j * x.bsz + p).filter fun i => validAt x.ts x.oa i && bitAt x.ts bm x.bsz i
  let full := decide (brickK kc < ps.length)
  let put := ps.take (brickK kc)
  let cs := ps.map fun i => (x.oa.get x.ts i).1
  let (scale, vs) : BitVec 8 × List Rounded :=
    if scaledForm then storeBlock x.fa x.fd cs else (0x7F, cs.map (convert x.fa x.fd x.a.sat))
  let vs := vs.take (brickK kc)
  let bits := brickBits x.bsz j fun i => put.contains i
  let mark := full || (bm.get x.ts j).2 || x.anyMark ps
  (BitVec.ofNat 32 bits :: brickHeader (x.e.mparam.setWidth 16) scale x.fd (x.e.mparam.getLsbD 16) kc ::
     slotWords x.fd (l - 2) (vs.map (·.code)), mark, full, orFlags (vs.map (·.flags)), vs.any (·.sate))

/-- MPACK (R202 to R204, R558). -/
def xMpack (scaledForm : Bool) (x : XIn) : XEffect :=
  let l := brickLen (mpKC x.e.mparam) x.fd
  let d := x.packed x.a.td.toFin l
  let bs := x.bricks.map fun j => (j, packBrick scaledForm x j)
  let ws := bs.flatMap fun (j, b) => b.1.zipIdx.map fun (w, q) => { i := j * l + q, code := w.setWidth 64, mark := b.2.1 : EWrite }
  { writes := [(d.base, .int32, ws)], exts := compactExts d (x.count / x.bsz * l)
    flags := orFlags (bs.map fun b => b.2.2.2.2.1)
    sum := { valid := bs.length, empty := (bs.filter fun b => b.2.2.2.1).length, sate := bs.any fun b => b.2.2.2.2.2
             slush := (bs.filter fun b => b.2.2.1).length : SumAcc }.toWord }

/-- Ones of a bitmap. -/
def ones (w : Word) : Nat := ((List.range 32).filter w.getLsbD).length

/-- Whether a brick matches (R190) an epoch, a value format, a brick size and a capacity code. -/
def brickMatches (epoch : BitVec 16) (f : Fmt) (bs : Bool) (kc : Nat) (bitmap header : Word) : Bool :=
  let scale := header.extractLsb' 16 8
  header == brickHeader epoch scale f bs kc && (!bs || bitmap.extractLsb' 16 16 == 0) &&
    decide (ones bitmap ≤ brickK kc) && (scale == 0x7F || f.width == 8)

/-- A brick that MUNPACK or MTRANS reads: its words, and whether one is marked. -/
def XIn.brickWords (x : XIn) (d : Opd) (l j : Nat) : List Word × Bool :=
  let ws := (List.range l).map fun q => d.get x.ts (j * l + q)
  (ws.map fun w => w.1.setWidth 32, ws.any (·.2))

/-- The value in slot `n` of a brick (R188). -/
def slotValue (f : Fmt) (ws : List Word) (n : Nat) : Code :=
  let p := 32 / f.width
  BitVec.ofNat 64 ((ws.getD (2 + n / p) 0).toNat / 2 ^ (n % p * f.width) % 2 ^ f.width)

/-- The survivors of a brick: position and value. -/
def survivors (f : Fmt) (bsz : Nat) (ws : List Word) : List (Nat × Code) :=
  let bits := ws.headD 0
  (((List.range bsz).filter bits.getLsbD).zipIdx).map fun (p, n) => (p, slotValue f ws n)

/-- The header fields that CE_KS_MPARAM expects. -/
def XIn.matchesParam (x : XIn) (ws : List Word) : Bool :=
  brickMatches (x.e.mparam.setWidth 16) x.fa (x.e.mparam.getLsbD 16) (mpKC x.e.mparam) (ws.headD 0) (ws.getD 1 0)

/-- A survivor unpacked (R206): an 8-bit target ignores SCALE; a unit scale leaves the plain conversion. -/
def unpackValue (fa fd : Fmt) (sat : Bool) (scale : BitVec 8) (c : Code) : Rounded :=
  if fd.width = 8 || scale = 0x7F then convert fa fd sat c
  else fd.encode sat false (scaled (fa.decode c) scale)

/-- MUNPACK (R205, R206, R558). -/
def xMunpack (x : XIn) : XEffect :=
  let l := brickLen (mpKC x.e.mparam) x.fa
  let src := x.packed x.a.ta.toFin l
  let bm := bitmapOpd x.a.tb.toFin
  let bs := x.bricks.map fun j =>
    let (ws, m) := x.brickWords src l j
    (j, ws, m, x.matchesParam ws)
  let dense := bs.flatMap fun (j, ws, m, ok) =>
    let sv := survivors x.fa x.bsz ws
    (List.range x.bsz).map fun p =>
      if ok then
        match sv.find? fun q => q.1 == p with
        | some q => (j * x.bsz + p, unpackValue x.fa x.fd x.a.sat ((ws.getD 1 0).extractLsb' 16 8) q.2, m)
        | none => (j * x.bsz + p, { code := 0 }, m)
      else (j * x.bsz + p, { code := 0 }, true)
  let bits := bs.map fun (j, ws, m, ok) => { i := j, code := if ok then (ws.headD 0).setWidth 64 else 0, mark := m || !ok : EWrite }
  let e := destEffect x.ts x.od (dense.map fun d => EWrite.of d.1 d.2.1 d.2.2) (fixedExts x.od x.count x.e.ldVr x.e.ldVc)
    (orFlags (dense.map fun d => d.2.1.flags)) (bs.filter fun (_, _, _, ok) => !ok).length
  { e with writes := e.writes ++ [(bm.base, .int32, bits)], exts := e.exts ++ compactExts bm (x.count / x.bsz) }

/-! ## Herringbone transpose (R207 to R212) -/

/-- The code of BRICK (R407). -/
def vfBrick : BitVec 4 := 5
/-- The code of HASH (R407). -/
def vfHash : BitVec 4 := 4

/-- The pitch H for a brick length (R210). -/
def pitchOf (l : Nat) : Nat := if l % 2 = 1 then l else l + 1

/-- A value rescaled into its column brick, with the flags of its conversion (R71, R209). With equal scales nothing is
rounded, and a NaN keeps its bits; with different ones it becomes the canonical NaN (DEDUCED, log entry 153). Under scale
0xFF the brick is a block-scaled store with that scale, which is invalid (DEDUCED, log entry 181). -/
def rescale (f : Fmt) (er ec : BitVec 8) (c : Code) : Rounded :=
  if f.width ≠ 8 then { code := c }
  else if ec = 0xFF then { code := BitVec.ofNat 64 f.nanCode, flags := { nv := true } }
  else if er = ec then { code := c }
  else match f.decode c with
    | .fin n m e => f.encode true false (.fin n m (e + er.toNat - ec.toNat))
    | v => f.encode true false v

/-- Column brick `c` of panel `p` (R208, R209): its words and the flags of its conversions, or none when it would hold more
than its capacity. `rows` gives for each row of the panel the words of the brick that holds column `c`, and its position in
that brick. -/
def columnBrick (f : Fmt) (epoch : BitVec 16) (bs : Bool) (kct : Nat) (rows : List (List Word × Nat)) :
    Option (List Word × FpFlags) :=
  let bsz := if bs then 16 else 32
  let sv := rows.zipIdx.filterMap fun ((ws, p), i) =>
    ((survivors f bsz ws).find? fun q => q.1 == p).map fun q => (i, (ws.getD 1 0).extractLsb' 16 8, q.2)
  if brickK kct < sv.length then none
  else
    let ec : BitVec 8 := match sv with
      | [] => 0x7F
      | q :: r => r.foldl (fun a s => if a.toNat < s.2.1.toNat then s.2.1 else a) q.2.1
    let bits := sv.foldl (fun a q => a + 2 ^ q.1) 0
    let vs := sv.map fun q => rescale f q.2.1 ec q.2.2
    some (BitVec.ofNat 32 bits :: brickHeader epoch ec f bs kct :: slotWords f (brickLen kct f - 2) (vs.map (·.code)),
      orFlags (vs.map (·.flags)))

/-- The words of a panel that MTRANS writes, as offsets from the base, and the flags of its conversions, or none for a panel
it refuses (R207 to R212). -/
def panelData (x : XIn) (p : Nat) : Option (List (Nat × Word) × FpFlags) :=
  let l := brickLen (mpKC x.e.mparam) x.fa
  let kct := mpKCT x.e.mparam
  let src := x.packed x.a.ta.toFin l
  let per := 64 / x.bsz
  let b := x.bsz
  -- the bricks of an inactive row are not read (R226) and bring no survivor
  let on := fun q => x.pred.getLsbD (p * b + q / per)
  let bricks := (List.range (b * per)).map fun q =>
    if on q then x.brickWords src l (p * b * per + q) else ([], false)
  if bricks.zipIdx.any fun (w, q) => on q && (w.2 || !x.matchesParam w.1) then none
  else
    let cols := (List.range 64).map fun c =>
      columnBrick x.fa (x.e.mparam.setWidth 16) (x.e.mparam.getLsbD 16) kct
        ((List.range b).map fun i => (((bricks.map (·.1)).getD (i * per + c / b) []), c % b))
    if cols.any Option.isNone then none
    else
      let h := pitchOf (brickLen kct x.fa)
      some (cols.zipIdx.flatMap fun (ws, c) => ((ws.map (·.1)).getD []).zipIdx.map fun (w, t) => ((64 * p + c) * h + t, w),
        orFlags (cols.filterMap fun b => b.map (·.2)))

/-- The words of a panel. -/
def panelWords (x : XIn) (p : Nat) : Option (List (Nat × Word)) := (panelData x p).map (·.1)

/-- The panels of MTRANS that its COUNT covers and that hold an active row (R226). -/
def XIn.panels (x : XIn) : List Nat :=
  (List.range (x.count / (64 * x.bsz))).filter fun p => (List.range x.bsz).any fun r => x.pred.getLsbD (p * x.bsz + r)

/-- MTRANS (R207 to R212): its words go to Icefield from the base that xN gives; `refused` says with which fault a
word cannot be reached (R158). Of several faults the one with the lowest code is raised (R407). -/
def xMtrans (refused : Nat → Option (BitVec 4)) (x : XIn) : XEffect :=
  let base := (x.e.scalar.extractLsb' 0 26).toNat
  let ps := x.panels.map fun p => (p, panelWords x p)
  let flags := orFlags (x.panels.filterMap fun p => (panelData x p).map (·.2))
  let bad := ps.filter fun q => q.2.isNone
  let ws := ps.flatMap fun q => q.2.getD []
  let faults := ws.filterMap fun w => refused (base + w.1)
  let fault := if faults.contains 1 then some 1 else if faults.contains 2 then some 2
    else if x.hashed then some vfHash else if bad.isEmpty then none else some vfBrick
  if x.hashed then { fault, sum := { empty := ps.length : SumAcc }.toWord }
  else
    let good := ws.filter fun w => (refused (base + w.1)).isNone
    -- a column brick counts when every word of it is written, a panel when some word of it is (log entry 154)
    let h := pitchOf (brickLen (mpKCT x.e.mparam) x.fa)
    let lost := (ws.filter fun w => (refused (base + w.1)).isSome).map fun w => w.1 / h
    let whole := (good.map fun w => w.1 / h).eraseDups.filter fun b => !lost.contains b
    let some' := (good.map fun w => w.1 / h / 64).eraseDups
    { ice := good.map fun w => { word := base + w.1, data := w.2 }
      fault, flags
      sum := { valid := whole.length, empty := ps.length - some'.length : SumAcc }.toWord }

end Sys2Proof.Machine
end

