-- ==== Sys2Proof/Machine/Xtile.lean ====
section
/-! DEFINITION. The effect of every Xcalad instruction that touches only tile registers, predicates and the
statistic bank. -/

namespace Sys2Proof.Machine

/-- The effect of an instruction that does not touch Icefield, for COUNT above zero. LD.X, ST.X, GATHER.X, SCATTER.X
and MTRANS have theirs in `Machine/Xice.lean`. -/
def tileEffect (x : XIn) : XEffect :=
  match x.k with
  | .mov => xMov x
  | .movX => xMovX x
  | .iota => xIota x
  | .setx => xSetx x
  | .arith op s => xArith op s x
  | .maxmin m s => xMaxmin m s x
  | .cvt => xCvt x
  | .sfu f => xSfu f x
  | .cmp p s => xCmp p s x
  | .pany => xPany x
  | .pall => xPall x
  | .plogic k => xPlogic k x
  | .plt => xPlt x
  | .rsum ax sq => xRsum ax sq x
  | .rmax ax m => xRmax ax m x
  | .rdot ax acc => xRdot ax acc x
  | .rarg ax m => xRarg ax m x
  | .rowb k => xBcast true k x
  | .colb k => xBcast false k x
  | .racc k => xRacc k x
  | .norm k => xNorm k x
  | .trans => xTrans x
  | .perm => xPerm x
  | .compact => xCompact x
  | .expand => xExpand x
  | .vsync _ => {}
  | .probe => xProbe x
  | .mprune m => xMprune m x
  | .mgrow m => xMgrow m x
  | .mapply i => xMapply i x
  | .mpack sc => xMpack sc x
  | .munpack => xMunpack x
  | .sort d p => xSort d p x
  | .merge d p => xMerge d p x
  | .topk s q a => xTopk s q a x
  | .unique l => xUnique l x
  | .isect i => xIsect i x
  | .hist e a => xHist e a x
  | .route c => xRoute c x
  | .ld | .st _ | .gather _ | .scatter _ _ | .mtrans => {}

/-! ## The containers that an instruction reads (R462) -/

/-- The elements that an instruction reads of each of its tile operands: those below COUNT in active rows, valid and pad
alike, and the ones that its own rules read whatever the predicate (R462). -/
def XIn.reads (x : XIn) : List (Opd × List Nat) :=
  let i := x.idx
  let a := (x.oa, i)
  let bm := fun (b : TileReg) => (bitmapOpd b, (i.map fun n => n / x.bsz).eraseDups)
  let packed := fun (l : Nat) (bs : List Nat) =>
    (x.packed x.a.ta.toFin l, bs.flatMap fun j => (List.range l).map fun q => j * l + q)
  match x.k with
  | .movX | .iota | .setx | .ld | .plogic _ | .plt | .vsync _ => []
  | .mov | .cvt | .sfu _ | .norm _ | .pany | .pall | .probe | .rarg _ _ | .trans | .unique _ | .route _ => [a]
  | .st _ => [(x.od, i)]
  | .arith op s =>
    let third := op == .fma || op == .fms
    [a] ++ (if s || op == .abs || op == .neg then [] else [(x.ob, i)]) ++ if third then [(x.od, i)] else []
  | .maxmin _ s | .cmp _ s => if s then [a] else [a, (x.ob, i)]
  | .rsum ax _ | .rmax ax _ => if ax = 3 then [a, (x.ob, i)] else [a]
  | .rdot ax acc => [a, (x.ob, i)] ++ if acc then [(x.axisDest ax, (x.axisGroups ax).map (·.1))] else []
  | .rowb _ => [a, (x.ob, x.rows.map fun r => 64 * r)]
  | .colb _ => [a, (x.ob, (i.map fun n => n % 64).eraseDups)]
  | .racc k => if 0 < k && k < 4 then [a] else []
  | .perm => [a, (x.od, i.filterMap fun n =>
      let v := intVal .int32 (x.oa.get x.ts n).1
      if 0 ≤ v ∧ v < x.count ∧ x.pred.getLsbD (v.toNat / 64) then some v.toNat else none)]
  | .gather e => [(x.oa, if e then i else x.rows)]
  | .scatter e _ => [(x.oa, if e then i else x.rows), (x.od, i)]
  | .compact => [a, (x.ob, i)]
  | .expand => [(x.ob, i), (x.oa, List.range (i.filter fun n => nonzero x.fb (x.ob.get x.ts n).1).length)]
  | .mprune _ | .mgrow _ => [a, bm x.a.td.toFin]
  | .mapply _ | .mpack _ => [a, bm x.a.tb.toFin]
  | .munpack => [packed (brickLen (mpKC x.e.mparam) x.fa) x.bricks]
  | .mtrans => [packed (brickLen (mpKC x.e.mparam) x.fa) x.bricks]
  | .sort _ p | .merge _ p => if p then [a, (x.pay, i)] else [a]
  | .topk _ seq acc =>
    let k := (x.e.xarg.extractLsb' 0 7).toNat
    let held := (if seq then [0] else x.rows).flatMap fun r => (List.range k).map fun c => 64 * r + c
    [a] ++ if acc then [(x.od, held), (x.pay, held)] else []
  | .isect _ => [a, (x.ob, x.setIdx)]
  | .hist _ acc => [a] ++ if acc then [(x.group x.a.td.toFin .int32, List.range x.e.xarg.toNat)] else []

/-- The containers that hold an element. -/
def elemConts (f : Fmt) (i : Nat) : List Nat := if f.width = 64 then [2 * i, 2 * i + 1] else [i / (32 / f.width)]

/-- The first container that an instruction reads and that its parity or residue does not agree with (R462). -/
def XIn.upsetRead (x : XIn) : Option (TileReg × Nat) :=
  (if x.count = 0 then [] else x.reads).findSome? fun q => q.2.findSome? fun i => (elemConts q.1.fmt i).findSome? fun k =>
    let t := regAt q.1.base (k / 4096)
    if k < 4096 * q.1.n && sget false (x.ts.get t).upset (k % 4096) then some (t, k % 4096) else none

end Sys2Proof.Machine
end

