-- ==== Sys2Proof/Machine/Xice.lean ====
section
/-! DEFINITION. The Xcalad instructions that touch Icefield: element addresses (R150 to R152, R179), loads and
gathers (R153, R158, R179), stores, scatters and ordered adds (R154 to R156, R180), their summary (R560), their
ranges (R157, R230), and the steps that bank conflicts and a revival add (R281, R564). -/

namespace Sys2Proof.Machine

/-- The codes of BOUND and MELTED (R407). -/
def vfBound : BitVec 4 := 1
/-- MELTED. -/
def vfMelted : BitVec 4 := 2

/-- A part of a memory element: window word, lowest bit in the word, width, lowest bit in the element. -/
structure MemPart where
  word : Int
  lsb : Nat
  w : Nat
  sh : Nat
deriving DecidableEq, Repr

/-- The floe number that the base register names (R150). -/
def XEntry.floe (e : XEntry) : Fin 64 := (e.scalar.extractLsb' 26 6).toFin

/-- The word address that the base register names (R150). -/
def XEntry.base (e : XEntry) : Int := ((e.scalar.extractLsb' 0 26).toNat : Int)

/-- The word of container `k` of element row `r` (R152). -/
def XEntry.contWord (e : XEntry) (r : Int) (k : Nat) : Int := e.base + r * e.rstr.toInt + k * e.estr.toInt

/-- The memory element of column `c` of element row `r` (R152). -/
def XIn.rowParts (x : XIn) (r : Int) (c : Nat) : List MemPart :=
  let w := x.fd.width
  if w = 64 then
    [{ word := x.e.contWord r (2 * c), lsb := 0, w := 32, sh := 0 },
     { word := x.e.contWord r (2 * c + 1), lsb := 0, w := 32, sh := 32 }]
  else
    let p := 32 / w
    [{ word := x.e.contWord r (c / p), lsb := c % p * w, w, sh := 0 }]

/-- The memory element at a byte address (R179). -/
def XIn.byteParts (x : XIn) (b : Int) : List MemPart :=
  let w := x.fd.width
  if w = 64 then [{ word := b / 4, lsb := 0, w := 32, sh := 0 }, { word := b / 4 + 1, lsb := 0, w := 32, sh := 32 }]
  else [{ word := b / 4, lsb := 8 * (b % 4).toNat, w, sh := 0 }]

/-- The memory element that data element `i` names, and whether its index is marked; none where the index is at a pad
position of TA (R152, R179, R180). -/
def XIn.parts (x : XIn) (i : Nat) : Option (List MemPart × Bool) :=
  let byRow : Option (List MemPart × Bool) :=
    let o := x.oa
    let r := i / 64
    if validAt x.ts o r then
      let (a, m) := o.get x.ts r
      some (x.rowParts (intVal .int32 a) (i % 64), m)
    else none
  let byElem : Option (List MemPart × Bool) :=
    let o := x.oa
    if validAt x.ts o i then
      let (a, m) := o.get x.ts i
      some (x.byteParts (4 * x.e.base + intVal .int32 a * x.fd.width / 8), m)
    else none
  match x.k with
  | .gather e => if e then byElem else byRow
  | .scatter e _ => if e then byElem else byRow
  | _ => some (x.rowParts (i / 64) (i % 64), false)

/-- Why a window word cannot be reached (R158); none where it can. -/
def XIn.refused (x : XIn) (w : Int) : Option (BitVec 4) :=
  match x.floe with
  | none => some vfBound
  | some (lo, hi) =>
    if w < lo || (hi : Int) ≤ w then some vfBound
    else if x.melted.contains w.toNat then some vfMelted else none

/-- The fault of a list of refused words: BOUND goes before MELTED (R158). -/
def worstFault (l : List (BitVec 4)) : Option (BitVec 4) :=
  if l.contains vfBound then some vfBound else if l.contains vfMelted then some vfMelted else none

/-- Every part of an element can be reached. -/
def XIn.reach (x : XIn) (ps : List MemPart) : Bool := ps.all fun p => (x.refused p.word).isNone

/-- A kind that touches Icefield. -/
def XKind.icefield : XKind → Bool
  | .ld | .st _ | .gather _ | .scatter _ _ | .mtrans => true
  | _ => false

/-- A kind that writes Icefield (R295). -/
def XKind.icefieldWrites : XKind → Bool
  | .st _ | .scatter _ _ | .mtrans => true
  | _ => false

/-! ## Loads and gathers (R153, R179) -/

/-- An element read from memory words: its bits, and whether one of its words is marked. -/
def memElem (mem : Store (BitVec 33)) (ps : List MemPart) : Code × Bool :=
  ps.foldl (fun a p =>
    let c := sget 0 mem p.word.toNat
    (a.1 ||| BitVec.ofNat 64 ((contData c).toNat / 2 ^ p.lsb % 2 ^ p.w * 2 ^ p.sh), a.2 || contMark c)) (0, false)

/-- LD.X and GATHER.X: the elements below COUNT in active rows (R153, R158, R179). -/
def xLoad (x : XIn) : XEffect :=
  let es := x.idx.map fun i => (i, x.parts i)
  let ws := es.map fun (i, e) => match e with
    | none => ({ i, code := 0 } : EWrite)
    | some (ps, m) =>
      if x.reach ps then let (c, k) := memElem x.mem ps; { i, code := c, mark := k || m }
      else { i, code := 0, mark := true }
  let faults := es.flatMap fun (_, e) => match e with
    | none => []
    | some (ps, _) => ps.filterMap fun p => x.refused p.word
  { destEffect x.ts x.od ws (fixedExts x.od x.count x.e.ldVr x.e.ldVc) {} with fault := worstFault faults }

/-! ## Stores, scatters and adds (R154 to R156, R180) -/

/-- The instruction adds into memory (R156). -/
def XIn.adds (x : XIn) : Bool :=
  match x.k with
  | .st a | .scatter _ a => a
  | _ => false

/-- The elements that a store or scatter may write: valid, below COUNT, in active rows, with a valid index (R154,
R180). -/
def XIn.storeElems (x : XIn) : List (Nat × List MemPart × Bool) :=
  x.idx.filterMap fun i =>
    if validAt x.ts x.od i then (x.parts i).map fun q => (i, q.1, q.2) else none

/-- The bytes that a part covers. -/
def MemPart.bytes (p : MemPart) : BitVec 4 := BitVec.ofNat 4 ((2 ^ (p.w / 8) - 1) * 2 ^ (p.lsb / 8))

/-- The bits that a byte mask selects. -/
def maskBits (m : BitVec 4) : Word :=
  (if m.getLsbD 0 then 0xFF else 0) ||| (if m.getLsbD 1 then 0xFF00 else 0) |||
    (if m.getLsbD 2 then 0xFF0000 else 0) ||| (if m.getLsbD 3 then 0xFF000000 else 0)

/-- Puts a part of an element into a shadow word. -/
def Shadow.put (s : Shadow) (p : MemPart) (c : Code) (mark : Bool) : Shadow :=
  let b := p.bytes
  { data := BitVec.ofNat 32 (putBits s.data.toNat p.lsb p.w (c.toNat / 2 ^ p.sh % 2 ^ p.w))
    written := s.written ||| b, marked := if mark then s.marked ||| b else s.marked &&& ~~~b }

/-- A memory word under the shadow: its data and whether it is marked. -/
def Shadow.merge (s : Shadow) (old : BitVec 33) : BitVec 33 :=
  mkCont ((contData old &&& ~~~(maskBits s.written)) ||| (s.data &&& maskBits s.written))
    (s.marked != 0 || (contMark old && s.written != 0xF))

/-- The memory as an instruction has left it so far. -/
def underShadow (mem : Store (BitVec 33)) (sh : Store Shadow) (ps : List MemPart) : Store (BitVec 33) :=
  ps.foldl (fun m p => let w := p.word.toNat; sset 0 m w ((sget {} sh w).merge (sget 0 mem w))) []

/-- The element-wise add of R156. -/
def memAdd (x : XIn) (m c : Code) : Rounded := elementwise .add x.a.s x.a.sat x.fd x.fd x.fd m c 0

/-- The state of a store: its shadow, the add steps' flags, and whether one of them saturated. -/
abbrev StoreAcc := Store Shadow × FpFlags × Bool

/-- One element of a store, in element order (R155, R156). Where two elements, or the two containers of one FP64 element,
share single words without having one element address, the part that is put last stands (DESIGN CHOICE, log entry 174). -/
def storeStep (x : XIn) (acc : StoreAcc) (e : Nat × List MemPart × Bool) : StoreAcc :=
  let (sh, fl, sate) := acc
  let (i, ps, im) := e
  let (c, cm) := x.od.get x.ts i
  let put := fun (code : Code) (mark : Bool) =>
    ps.foldl (fun (s : Store Shadow) p => sset {} s p.word.toNat ((sget {} s p.word.toNat).put p code mark)) sh
  if x.adds then
    let (m, mm) := memElem (underShadow x.mem sh ps) ps
    let r := memAdd x m c
    (put r.code (cm || im || mm), fl.or r.flags, sate || r.sate)
  else (put c (cm || im), fl, sate)

/-- The summary over the memory elements written, each once, with the values they hold at retirement (R560). -/
def storeSummary (x : XIn) (es : List (List MemPart)) (sh : Store Shadow) (sate : Bool) : DWord :=
  let uniq := es.foldl (fun (a : List (List MemPart)) ps => if a.contains ps then a else ps :: a) []
  let acc := uniq.foldl (fun (a : SumAcc) ps =>
    let (c, m) := memElem (underShadow x.mem sh ps) ps
    a.add x.fd c m false) {}
  { acc with sate }.toWord

/-- ST.X and SCATTER.X, writing or adding (R154 to R156, R158, R180, R560). -/
def xStore (x : XIn) : XEffect :=
  let es := x.storeElems
  let good := es.filter fun e => x.reach e.2.1
  let faults := es.flatMap fun e => e.2.1.filterMap fun p => x.refused p.word
  let (sh, fl, sate) := good.foldl (storeStep x) (([], {}, false) : StoreAcc)
  { ice := sh.map fun (w, s) =>
      let c := s.merge (sget 0 x.mem w)
      { word := w, data := contData c, mask := s.written, mark := contMark c }
    sum := storeSummary x (good.map (·.2.1)) sh sate
    flags := fl, fault := worstFault faults }

/-- The window words that an instruction reads: those of a load or an add, and those that a store writes in part
(R302). -/
def XIn.readWords (x : XIn) : List Nat :=
  let parts : List MemPart :=
    match x.k with
    | .ld | .gather _ => x.idx.flatMap fun i => ((x.parts i).map (·.1)).getD []
    | .st _ | .scatter _ _ => x.storeElems.flatMap (·.2.1)
    | _ => []
  let ok := parts.filter fun p => (x.refused p.word).isNone
  let masks := ok.foldl (fun (m : Store (BitVec 4)) p => sset 0 m p.word.toNat (sget 0 m p.word.toNat ||| p.bytes)) []
  match x.k with
  | .ld | .gather _ => masks.map (·.1)
  | _ => if x.adds then masks.map (·.1) else (masks.filter fun q => q.2 != 0xF).map (·.1)

/-- The words whose Moraine lines an instruction reads: those of a load or an add; a store writes its bytes without
reading first (R362). -/
def XIn.lineWords (x : XIn) : List Nat := if x.k.icefieldWrites && !x.adds then [] else x.readWords

/-- The window words that an instruction may reach, whether it reads or writes them. -/
def XIn.touchWords (x : XIn) : List Int :=
  match x.k with
  | .ld | .gather _ => x.idx.flatMap fun i => (((x.parts i).map (·.1)).getD []).map (·.word)
  | .st _ | .scatter _ _ => x.storeElems.flatMap fun e => e.2.1.map (·.word)
  | .mtrans => x.panels.flatMap fun p => ((panelWords x p).getD []).map fun w => x.e.base + w.1
  | _ => []

/-- The effect of an instruction, for COUNT above zero. -/
def xEffect (x : XIn) : XEffect :=
  match x.k with
  | .ld | .gather _ => xLoad x
  | .st _ | .scatter _ _ => xStore x
  | .mtrans => xMtrans (fun w => x.refused w) x
  | _ => tileEffect x

/-! ## Ranges (R136, R157, R230) -/

/-- A range of words clipped to the window. -/
def clipRange (lo hi : Int) (write : Bool) : List Range :=
  if hi < 0 || (2 ^ 26 : Int) ≤ lo then [] else [{ lo := lo.toNat, hi := min hi.toNat (2 ^ 26 - 1), write }]

/-- The range of LD.X and ST.X (R157): over every element row below COUNT. Of the last row it takes the containers that hold
an element below COUNT (DESIGN CHOICE, log entry 173). -/
def rowsRange (e : XEntry) (f : Fmt) (count : Nat) : Int × Int :=
  let ends := (List.range ((count + 63) / 64)).flatMap fun r =>
    let n := min 64 (count - 64 * r)
    let k := if f.width = 64 then 2 * n else (n * f.width + 31) / 32
    [e.contWord r 0, e.contWord r (k - 1)]
  (ends.foldl min (ends.headD 0), ends.foldl max (ends.headD 0))

/-- The ranges that an instruction presents to the scoreboard. -/
def State.xRanges (s : State) (k : XKind) (e : XEntry) : List Range :=
  let count := e.x.a.count.toNat
  let fd := (fieldFmt e.x.a.fmtd).getD .fp32
  if count = 0 then []
  else match k with
    | .ld | .st _ => let (lo, hi) := rowsRange e fd count; clipRange lo hi k.icefieldWrites
    | .gather _ | .scatter _ _ =>
      let f := s.floe e.floe
      if f.used then [{ lo := f.window.1, hi := f.window.2 - 1, write := k.icefieldWrites }] else []
    | .mtrans =>
      let fa := (fieldFmt e.x.a.fmta).getD .fp32
      let p := count / (64 * brickB e.mparam)
      clipRange e.base (e.base + 64 * p * pitchOf (brickLen (mpKCT e.mparam) fa) - 1) true
    | _ => []

/-! ## Bank conflicts and revival (R281, R564) -/

/-- The excess of one access step: the most distinct words in one bank, less one. -/
def bankExcess (s : State) (hash : Bool) (ps : List Nat) : Nat :=
  let banks := (ps.eraseDups).foldl (fun (m : Store Nat) p =>
    let b := bankOf s.cfg hash p
    sset 0 m b (sget 0 m b + 1)) []
  banks.foldl (fun a q => max a q.2) 1 - 1

/-- The steps that bank conflicts add to an instruction (R281). -/
def XIn.conflictSteps (x : XIn) (s : State) : Nat :=
  let per := Config.lanes s.cfg / 64 * (let w := widest (x.k.spanFmts x.a x.e.mparam); if w = 64 then 1 else 32 / w)
  let idx : List (Nat × List MemPart) := match x.k with
    | .st _ | .scatter _ _ => x.storeElems.map fun e => (e.1, e.2.1)
    | .ld | .gather _ => x.idx.filterMap fun i => (x.parts i).map fun q => (i, q.1)
    | _ => []
  let groups := (List.range ((x.count + 64 * per - 1) / (64 * per)))
  let steps := groups.flatMap fun g =>
    let here := idx.filter fun e => e.1 / 64 / per == g
    ([0, 1] : List Nat).map fun n => here.filterMap fun e => (e.2[n]?).bind fun p : MemPart =>
      if p.word < (0 : Int) then none
      else match s.place x.e.floe p.word.toNat with
        | some (.phys q _) => some q
        | _ => none
  let n := (steps.map (bankExcess s x.hashed)).sum
  if x.adds then 2 * n else n

/-- The occupancy and latency of an instruction with its Icefield access steps (R138, R281, R564). -/
def XIn.timing (x : XIn) (s : State) : Nat × Nat :=
  let (o, d) := x.k.timing x.a x.e.mparam x.e.xarg (Config.lanes s.cfg) x.pred
  if x.count = 0 then (o, d)
  else match x.k with
    | .ld | .st _ | .gather _ | .scatter _ _ =>
      let steps := x.k.rowGroups x.a x.e.mparam (Config.lanes s.cfg) x.pred * (x.k.cost x.a).2 + x.conflictSteps s
      (max 1 (if s.reviving then 2 * steps else steps), d)
    | .mtrans =>
      let access := x.count / (64 * x.bsz) * brickLen (mpKCT x.e.mparam) x.fa
      (if s.reviving then o + access else o, d)
    | _ => (o, d)

end Sys2Proof.Machine
end

