-- ==== Sys2Proof/Machine/Recovery.lean ====
section
/-! DEFINITION. The first events of the recovery from an uncorrectable fault (R468 to R475), as one shared operation,
the fault record, and what an accepted instruction would have written. -/

namespace Sys2Proof.Machine

/-- The requester of a fault record: SRC and UNIT (R474, R561). -/
structure Src where
  src : BitVec 4
  unit : BitVec 6 := 0
deriving DecidableEq, Repr

/-- The vector unit for a hart (R561). -/
def Src.vector (h : Hart) : Src := { src := 0, unit := BitVec.ofNat 6 h.val }
/-- A Keystone hart. -/
def Src.hart (h : Hart) : Src := { src := 1, unit := BitVec.ofNat 6 h.val }
/-- The drift engine for a channel. -/
def Src.drift (c : Fin 32) : Src := { src := 2, unit := BitVec.ofNat 6 c.val }
/-- The mortar sequencer. -/
def Src.mortar : Src := { src := 3 }
/-- A neighbour port. -/
def Src.port (p : Fin 4) : Src := { src := 4, unit := BitVec.ofNat 6 p.val }
/-- The scrubber. -/
def Src.scrubber : Src := { src := 5 }
/-- The Moraine service. -/
def Src.moraine : Src := { src := 6 }
/-- Control logic, with field sparings and write-backs. -/
def Src.control : Src := { src := 8 }

/-! ## What an accepted instruction reads and writes -/

/-- What an accepted instruction reads at its completion, but for its Icefield words. -/
def State.xinOf (s : State) (f : Inflight) : XIn :=
  let fl := s.floe f.e.floe
  let x : XIn :=
    { k := (xkindOf f.e.x).getD .probe, e := f.e, pred := f.predv, quota := f.quota, ts := s.tiles, hart := s.hart f.hart
      floe := if fl.used then some fl.window else none, hashed := fl.used && fl.hash }
  if x.k.icefield then
    let melted := x.touchWords.filterMap fun w =>
      if w < (0 : Int) then none
      else match s.place f.e.floe w.toNat with
        | some (.phys p _) => if s.segAt p == .melted then some w.toNat else none
        | _ => none
    { x with melted := melted.eraseDups }
  else x

/-- The containers that an accepted instruction would write (R471). -/
def State.wouldMark (s : State) (f : Inflight) : List (TileReg × List Nat) :=
  if f.e.x.a.count = 0 then []
  else
    (xEffect (s.xinOf f)).writes.flatMap fun (b, fmt, ws) =>
      (groupPieces (ws.flatMap (·.pieces fmt))).map fun g => (regAt b (g.1 / 4096), [g.1 % 4096])

/-! ## The record (R474) -/

/-- Inserts a job number into an ascending list, once. -/
def insertJob (j : BitVec 16) : List (BitVec 16) → List (BitVec 16)
  | [] => [j]
  | k :: r => if j = k then k :: r else if j.toNat < k.toNat then j :: k :: r else k :: insertJob j r

/-- A message of an outbound ring that is a report. -/
def isReport (ws : List Word) : Bool := decide (0xC0 ≤ ((ws.getD 0 0).extractLsb' 0 8).toNat)

/-- Jobs with open orders, ascending, each once: those that firmware serves, those it has taken in, and those whose reply
is not posted yet (R473). -/
def State.openJobs (s : State) : List (BitVec 16) :=
  let jobOf := fun (ws : List Word) => (ws.getD 2 0).extractLsb' 0 16
  let unposted := (s.hods.outQ.filter fun q => !isReport q.2).map fun q => jobOf q.2
  (s.hods.openOrders.map (·.job) ++ (s.hods.orders.map fun o => jobOf o.words) ++ unposted).foldl (fun l j => insertJob j l) []

/-- The healthy lane groups fall short of GROUPS (R474). -/
def State.laneShort (s : State) : Bool := decide (s.healthyLanes < Config.groups s.cfg)

/-- Words 3 to 12 of the FAULT report. -/
def faultWords (r : FaultRec) (poisoned : Nat) (reload moraine sparefail short : Bool) : List Word :=
  let j := fun n => r.jobs.getD n 0xFFFF
  [BitVec.ofNat 8 (min r.count 255) ++ (0 : BitVec 6) ++ r.unit ++ r.src ++ r.code, r.loc, r.loc2,
   r.time.extractLsb' 0 32, r.time.extractLsb' 32 32, j 1 ++ j 0, j 3 ++ j 2,
   BitVec.ofNat 32 r.jobs.length, BitVec.ofNat 32 poisoned,
   (0 : BitVec 28) ++ BitVec.ofBool short ++ BitVec.ofBool sparefail ++ BitVec.ofBool moraine ++ BitVec.ofBool reload]

/-- Forms the record and sends the FAULT report (R474, R540). -/
def State.sendFault (s : State) (ws : List Word) : State :=
  { s with err := { s.err with frec := Vector.ofFn fun i : Fin 10 => ws.getD i.val 0 } }.reportNow 0xC8 ws

/-! ## Messages that a closing window sends (R372, R381) -/

/-- Message types (R372). -/
def tData : BitVec 4 := 1
/-- ACK. -/
def tAck : BitVec 4 := 2
/-- REFUSE. -/
def tRefuse : BitVec 4 := 3
/-- GRANT. -/
def tGrant : BitVec 4 := 4
/-- REVOKE. -/
def tRevoke : BitVec 4 := 5
/-- HELLO. -/
def tHello : BitVec 4 := 6
/-- ECHO. -/
def tEcho : BitVec 4 := 7

/-- The REASON field (R372). -/
def reasonBits : Reason → BitVec 4
  | .late => 1 | .bound => 2 | .melted => 3 | .retry => 4

/-- One port. -/
def State.port (s : State) (p : Fin 4) : Port := s.nbr.ports.get p

/-- One window. -/
def State.win (s : State) (w : Fin 64) : Window := s.nbr.windows.get w

/-- The port carries traffic. -/
def State.up (s : State) (p : Fin 4) : Bool := (s.port p).state == .up

/-- Hands a message to the link. -/
def State.tx (s : State) (p : Fin 4) (m : NbrMsg) : State := s.modPort p fun q => { q with tx := q.tx ++ [m] }

/-- REFUSE of a message. -/
def State.sendRefuse (s : State) (p : Fin 4) (win : Fin 64) (gen seq : BitVec 16) (why : Reason) : State :=
  s.tx p { type := tRefuse, win := BitVec.ofNat 6 win.val, gen, seq, reason := reasonBits why }

/-- A sequence number comes before another. -/
def seqBefore (a b : BitVec 16) : Bool := a != b && decide ((b - a).toNat < 32768)

/-- The numbers landed up to the oldest waiting arrival move the number that an ACK carries (R389). -/
def Port.settleAck (q : Port) : Port :=
  match q.arrivals.find? fun a => !a.stale with
  | none => { q with landed := q.ahead.getLastD q.landed, ahead := [] }
  | some a =>
    let lo := q.ahead.takeWhile fun n => seqBefore n a.seq
    { q with landed := lo.getLastD q.landed, ahead := q.ahead.drop lo.length }

/-- The number that an ACK of a port carries follows its arrivals. -/
def State.settleAck (s : State) (p : Fin 4) : State := s.modPort p Port.settleAck

/-- An arrival of a window that has not been allocated becomes late: it is discarded, counted and refused (R378, R381).
-/
def State.lateArrivals (s : State) (w : Fin 64) : State :=
  s.forEach (fins 4) fun s p =>
    let dead := (s.port p).arrivals.filter fun a => a.win == w && s.ice.sb.waiting.any fun x => x.id == a.sb
    let s := s.modPort p fun q => { q with arrivals := q.arrivals.filter fun a => !dead.contains a }
    (s.forEach dead fun s a =>
      let s := { s with nbr := { s.nbr with late := incSat s.nbr.late } }.release a.sb
      if s.up p then s.sendRefuse p w (s.win w).gen a.seq .late else s).settleAck p

/-- Asks every open window of some to close: its arrivals that are not allocated are late (R381, R470). -/
def State.closeWindows (s : State) (sel : Window → Bool) : State :=
  s.forEach (fins 64) fun s w =>
    if (s.win w).isOpen && sel (s.win w) then (s.modWin w fun v => { v with closing := true }).lateArrivals w else s

/-! ## Events 1 and 3 (R470) -/

/-- Every hart halts at its next instruction boundary. -/
def State.haltAll (s : State) : State :=
  s.forEach (fins 16) fun s h => s.modHart h fun t => { t with halted := true }

/-- The pending course: the last one written (R242). -/
def Mortar.pending (m : Mortar) : Option (Word × Reader) := if m.waiting.isSome then m.waiting else m.pend

/-- Drops the pending course (R247). -/
def State.dropPending (s : State) : State :=
  match s.mortar.pending with
  | none => s
  | some c =>
    let m := s.mortar
    { s with mortar := { m with dropped := m.dropped ++ [c], waiting := none
                                pend := if m.waiting.isSome then m.pend else none } }

/-- Send descriptors of some writers whose words are still being read are dropped. -/
def State.dropReading (s : State) (sel : Reader → Bool) : State :=
  let mine := s.nbr.reading.filter fun a => sel a.who
  let s : State := { s with nbr := { s.nbr with reading := s.nbr.reading.filter fun a => !sel a.who } }
  s.forEach mine fun s a => s.release a.sb

/-- Stops channels, courses and sends (R247, R360, R386). -/
def State.stopEngines (s : State) : State :=
  let s := (s.forEach (fins 32) State.stopChannel).stopCourses fun _ => true
  let s := s.dropReading fun _ => true
  s.forEach (fins 4) fun s p => s.modPort p fun q => { q with sends := q.sends.map SendDesc.stopped }

/-- Event 3: channels, courses and sends stop, and every open window is to close (R381). -/
def State.stopWork (s : State) : State := s.stopEngines.closeWindows fun _ => true

/-- An access whose write a recovery ends before it retires: instructions are discarded and drifts stopped, while the
others complete and retire before event 5 (R470, R471). -/
def Requester.cutShort : Requester → Bool
  | .vector _ | .drift _ => true
  | _ => false

/-- The record after another fault: of two faults of one step the one with the lower code has it (R475). -/
def FaultRec.lower (r : FaultRec) (now : Nat) (f : FaultRec) : FaultRec :=
  if now = r.step && decide (f.code.toNat < r.code.toNat) then
    { r with code := f.code, src := f.src, unit := f.unit, loc := f.loc, loc2 := f.loc2 } else r

/-- The record counts a further fault. -/
def FaultRec.further (r : FaultRec) : FaultRec := { r with count := r.count + 1 }

/-- An uncorrectable fault (R470, R475, R492): in a running engine it starts the recovery, before stage 8 it is
recorded, and a KS_UE has stage 7 run once more; during a recovery it is counted, and in a stopped engine it sends its
own report. -/
def State.uncorrectable (s : State) (code : BitVec 8) (who : Src) (loc loc2 : Word) : State :=
  let rec0 : FaultRec := { code, src := who.src, unit := who.unit, loc, loc2, time := s.nanos, step := s.cycle }
  if s.boot.stage.toNat < 8 then
    let again := code == 2 && !s.boot.fwAgain
    let earlyFault := match s.boot.earlyFault with
      | none => rec0
      | some r => (r.lower s.cycle rec0).further
    { s with boot := { s.boot with earlyFault := some earlyFault, fwDelivered := s.boot.fwDelivered && !again
                                   fwTwice := s.boot.fwTwice || again && !s.boot.fwDelivered
                                   fwAgain := s.boot.fwAgain || again } }
  else match s.err.stat with
    | .running =>
      let r : FaultRec :=
        { rec0 with jobs := s.openJobs
                    ranges := ((s.ice.sb.alloc.filter fun a => a.who.cutShort).flatMap (·.ranges)).filter (·.write)
                    marks := s.vu.inflight.flatMap s.wouldMark }
      ({ s with err := { s.err with stat := .recovering, recovery := some r } }.haltAll).stopWork
    | .recovering =>
      match s.err.recovery with
      | some r =>
        let r := if r.reload.isNone then r.lower s.cycle rec0 else r
        { s with err := { s.err with recovery := some r.further } }
      | none => s
    | .stopped => s.sendFault (faultWords rec0 0 false false false s.laneShort)

end Sys2Proof.Machine
end

