-- ==== Sys2Proof/Machine/Ice.lean ====
section
/-! DEFINITION. Reading and writing Icefield words: classification, counting, logging and rewriting of stored words
(R306), the triggers of row sparing (R312 to R314), partial-word merges (R302, R307), and the Moraine service's lines
(R361, R362). -/

namespace Sys2Proof.Machine

/-! ## Corrections and sparing triggers -/

/-- The window words that a floe maps onto an array row: the lock range of R313, if any. -/
def FloeEntry.rowRange (c : EngineConfig) (f : FloeEntry) (row : Nat) : List Range :=
  if f.used && f.meetsRow c row then
    let p0 := f.pbase.toNat * 1024
    let lo := max (16 * row * Config.banks c) p0
    let hi := min (16 * (row + 1) * Config.banks c) ((f.pbase.toNat + f.res.toNat) * 1024) - 1
    [{ lo := f.window.1 + (lo - p0), hi := f.window.1 + (hi - p0), write := true }]
  else []

/-- The lock of a sparing: one write range for each floe that meets the row (R313). -/
def State.lockRanges (s : State) (row : Nat) : List Range :=
  (fins 64).flatMap fun i => (s.floe i).rowRange s.cfg row

/-- SPARE_OUT (R314). -/
def State.spareOut (s : State) (bank row : Nat) : State :=
  s.report 0xC3 [BitVec.ofNat 32 bank, BitVec.ofNat 32 row]

/-- A trigger of R312: presents the lock of a sparing, or reports SPARE_OUT when the bank has no spare row left. -/
def State.triggerSparing (s : State) (bank row : Nat) : State :=
  if s.ice.sparing.contains (bank, row) then s
  else if (s.freeSpare bank).isNone then s.spareOut bank row
  else
    let s := (s.present (.sparing bank row) (s.lockRanges row)).1
    { s with ice := { s.ice with sparing := s.ice.sparing ++ [(bank, row)] } }

/-- Logs a correction in a row (R542): whether the log already held the row. -/
def logRow (bank row : Nat) (l : List LogEntry) : List LogEntry × Bool :=
  let b := BitVec.ofNat 10 bank
  let r := BitVec.ofNat 10 row
  if l.any fun e => e.bank == b && e.row == r then
    (l.map fun e => if e.bank == b && e.row == r then { e with hits := min 255 (e.hits + 1) } else e, true)
  else (({ bank := b, row := r, hits := 1 } :: l).take 16, false)

/-- A row that is spared leaves the log (R542). -/
def State.unlogRow (s : State) (bank row : Nat) : State :=
  { s with ice := { s.ice with log := s.ice.log.filter fun e =>
                                 !(e.bank == BitVec.ofNat 10 bank && e.row == BitVec.ofNat 10 row) } }

/-- A read corrected a word: it counts and logs it, and a second correction of a logged row spares the row (R306,
R312). -/
def State.countCorrection (s : State) (bank q : Nat) : State :=
  let (log, again) := logRow bank (q / 16) s.ice.log
  let s := { s with ice := { s.ice with log }, err := { s.err with iceCe := incSat s.err.iceCe } }
  if again then s.triggerSparing bank (q / 16) else s

/-- LOC2 of an uncorrectable word: its window word and floe, or all ones (R468). -/
def State.loc2Of (s : State) (p : Nat) : Word :=
  match s.floeAtPhys p with
  | some i =>
    let f := s.floe i
    BitVec.ofNat 32 (f.window.1 + (p - f.pbase.toNat * 1024) + i.val * 2 ^ 26)
  | none => 0xFFFFFFFF

/-! ## Reading (R306) -/

/-- Reads a level of a bank for a requester: the data bits and the class found. A corrected word waits for its
write-back, or is written back at once for the scrubber; an uncorrectable one is rewritten poisoned and starts the
recovery. -/
def State.readLevel (s : State) (who : Src) (bank q : Nat) (atOnce : Bool := false) : State × Word × CwClass :=
  let cell := s.cellAt bank q
  let cw := sget 0 s.ice.cells cell
  match classify cw with
  | .clean => (s, cwData cw, .clean)
  | .slush => (s, cwData cw, .slush)
  | .poisoned => ({ s with err := { s.err with icePoison := incSat s.err.icePoison } }, cwData cw, .poisoned)
  | .single pos v =>
    let good := correctAt cw pos v
    let s := if atOnce then s.setCell cell good
      else { s with ice := { s.ice with
                             writebacks := (s.ice.writebacks.filter fun w => w.1 != cell) ++ [(cell, good)] } }
    (s.countCorrection bank q, cwData good, .single pos v)
  | .bad =>
    let s := s.setCell cell (encodePoison (cwData cw))
    let hash := match s.floeAtLevel q with | some i => (s.floe i).hash | none => false
    let p := physOf s.cfg hash bank q
    let s := { s with err := { s.err with iceUe := incSat s.err.iceUe } }
    (s.uncorrectable 0x01 who (BitVec.ofNat 32 p) (s.loc2Of p), cwData cw, .bad)

/-- A class that delivers its data with slush (R306). -/
def CwClass.marks : CwClass → Bool
  | .slush | .poisoned | .bad => true
  | _ => false

/-- Reads a physical word. -/
def State.readPhys (s : State) (who : Src) (p : Nat) (hash : Bool) : State × Word × CwClass :=
  let (b, q) := s.bankLevel p hash
  s.readLevel who b q

/-- The Moraine word that has arrived for an access: +0 unmarked when none has. -/
def State.morWord (s : State) (acc addr : Nat) : BitVec 33 :=
  match s.ice.morData.find? fun m => m.acc == acc && m.addr == addr with
  | some m => m.w
  | none => 0

/-! ## Writing (R307) -/

/-- Writes one window word that lies in a bank; a Moraine word goes out as a line (R362). -/
def State.writeResident (s : State) (f : Fin 64) (w : Nat) (d : Word) (mark : Bool) : State :=
  match s.place f w with
  | some (.phys p h) => let (b, q) := s.bankLevel p h; s.setCell (s.cellAt b q) (encodeWord d mark)
  | _ => s

/-- Writes some bytes of a window word that lies in a bank: a whole word without a read, a part of one merged with the
word read, whose mark it keeps (R302, R307). -/
def State.writeBytes (s : State) (who : Src) (f : Fin 64) (w : Nat) (mask : BitVec 4) (d : Word) (mark : Bool) : State :=
  if mask = 0 then s
  else if mask = 0xF then s.writeResident f w d mark
  else match s.place f w with
    | some (.phys p h) =>
      let (s, old, c) := s.readPhys who p h
      let s := s.countEvent 0x11 1
      s.writeResident f w ((old &&& ~~~(maskBits mask)) ||| (d &&& maskBits mask)) (mark || c.marks)
    | _ => s

/-- Why a window word of a floe cannot be reached (R158, R276): BOUND or MELTED. -/
def State.wordBad (s : State) (f : Fin 64) (w : Nat) : Option (BitVec 4) :=
  match s.place f w with
  | none => some 5
  | some (.phys p _) => if s.segAt p == .melted then some 6 else none
  | some (.moraine _ _) => none

/-- A window word lies in a segment that is reviving (R564). -/
def State.wordReviving (s : State) (f : Fin 64) (w : Nat) : Bool :=
  match s.place f w with
  | some (.phys p _) => s.segAt p == .reviving
  | _ => false

/-! ## The Firn buffer (R300 to R303) -/

/-- The requester of a fault record that stands for an access (R561). -/
def Requester.src : Requester → Src
  | .vector h => .vector h
  | .scalar h => .hart h
  | .mortar => .mortar
  | .drift c => .drift c
  | .arrival p | .departure p => .port p
  | .commit | .sparing _ _ => .control

/-- The words that an entry holds to write, as writes of the window. -/
def FirnEntry.writes (e : FirnEntry) : List IceWrite :=
  match e.line with
  | some (_, w0) => e.write.map fun q =>
      { word := w0 + q.1, data := q.2.data, mask := q.2.written, mark := decide (q.2.marked ≠ 0#4) }
  | none => []

/-- Flushes the entry of an access: its words go to the banks, and it holds no line (R302). -/
def State.firnFlush (s : State) (acc : Nat) : State :=
  match s.firnFor acc with
  | none => s
  | some i =>
    match s.ice.firn.get i with
    | some e =>
      let ws := e.writes
      let f := (e.line.map (·.1)).getD 0
      let s := s.countEvent 0x10 (if ws.isEmpty then 0 else 1)
      let s := ws.foldl (fun s w => s.writeBytes e.who.src f w.word w.mask w.data w.mark) s
      s.setFirn i (some { e with line := none, read := [], write := [] })
    | none => s

/-- The entry of an access takes the line of a word, which flushes another line that it holds (R302). -/
def State.firnOpen (s : State) (acc : Nat) (f : Fin 64) (w : Nat) : State :=
  match s.firnFor acc with
  | none => s
  | some i =>
    let line := some (f, w / 16 * 16)
    if ((s.ice.firn.get i).bind (·.line)) == line then s
    else
      let s := s.firnFlush acc
      s.setFirn i ((s.ice.firn.get i).map fun e => { e with line })

/-- A resident word read for an access: from its Firn entry where that holds it, else from its bank (R301), which counts
for `who` (R561). -/
def State.firnRead (s : State) (who : Src) (i : Fin 64) (w p : Nat) (h : Bool) : State × BitVec 33 × CwClass :=
  match s.ice.firn.get i with
  | none => (s, 0, .clean)
  | some e =>
    let sh := sget {} e.write (w % 16)
    if sh.written = 0xF then (s, sh.merge 0, .clean)
    else match sget none e.read (w % 16) with
      | some v => (s, sh.merge v, .clean)
      | none =>
        let (s, d, c) := s.readPhys who p h
        let v := mkCont d c.marks
        let s := s.setFirn i ((s.ice.firn.get i).map fun e => { e with read := sset none e.read (w % 16) (some v) })
        (s, sh.merge v, c)

/-- Reads one window word of a floe for an access: its data and mark, and the class of a resident word. A wide-port access
reads through its Firn entry (R301). -/
def State.readWord (s : State) (who : Src) (acc : Nat) (f : Fin 64) (w : Nat) : State × BitVec 33 × CwClass :=
  match s.place f w with
  | some (.phys p h) =>
    match s.firnFor acc with
    | some i => (s.firnOpen acc f w).firnRead who i w p h
    | none => let (s, d, c) := s.readPhys who p h; (s, mkCont d c.marks, c)
  | some (.moraine _ a) => (s, s.morWord acc a, .clean)
  | none => (s, 0, .clean)

/-- Reads window words of a floe in order. -/
def State.readWords (s : State) (who : Src) (acc : Nat) (f : Fin 64) : List Nat → State × Store (BitVec 33)
  | [] => (s, [])
  | w :: r =>
    let (s, v, _) := s.readWord who acc f w
    let (s, m) := s.readWords who acc f r
    (s, sset 0 m w v)

/-- Gathers some bytes in a shadow word: of two writes of a byte the later stays (R301). -/
def Shadow.gather (s : Shadow) (w : IceWrite) : Shadow :=
  { data := (s.data &&& ~~~(maskBits w.mask)) ||| (w.data &&& maskBits w.mask), written := s.written ||| w.mask
    marked := if w.mark then s.marked ||| w.mask else s.marked &&& ~~~w.mask }

/-- A write of a resident word of a floe for an access: into its Firn entry, or at once where it holds none. -/
def State.gather (s : State) (who : Src) (acc : Nat) (f : Fin 64) (w : IceWrite) : State :=
  match s.firnFor acc, s.place f w.word with
  | some i, some (.phys _ _) =>
    let s := s.firnOpen acc f w.word
    s.setFirn i ((s.ice.firn.get i).map fun e =>
      { e with write := sset {} e.write (w.word % 16) ((sget {} e.write (w.word % 16)).gather w) })
  | _, _ => s.writeBytes who f w.word w.mask w.data w.mark

/-- A stopped access: the line that its Firn entry holds is written wholly or not at all, which the spec leaves open
(R315, log entry 8), and the entry is freed. -/
def State.firnStop (s : State) (acc : Nat) : State :=
  let line := ((s.firnFor acc).bind fun i => s.ice.firn.get i).bind (·.line)
  let s := if Config.stoppedWritten s.freeCtr ((line.map (·.2)).getD 0) then s.firnFlush acc else s
  s.firnDrop acc

/-! ## The Moraine service (R361, R362) -/

/-- The fabric line of a byte address. -/
def lineOf (a : Nat) : Nat := a / 64 * 64

/-- The Moraine addresses of some window words of a floe. -/
def State.morAddrs (s : State) (f : Fin 64) (ws : List Nat) : List Nat :=
  ws.filterMap fun w => match s.place f w with | some (.moraine _ a) => some a | _ => none

/-- Requests the lines of Moraine words that an access reads (R362). -/
def State.morRead (s : State) (acc : Nat) (f : Fin 64) (ws : List Nat) : State :=
  let lines := ((s.morAddrs f ws).map lineOf).eraseDups
  { s with ice := { s.ice with morLines := s.ice.morLines ++ lines.map fun a => { floe := f, addr := a, acc } } }

/-- Issues the byte-masked line writes of an access (R362). -/
def State.morWrite (s : State) (acc : Nat) (f : Fin 64) (ws : List IceWrite) : State :=
  let bytes := ws.flatMap fun w =>
    match s.place f w.word with
    | some (.moraine _ a) =>
      ((List.range 4).filter w.mask.getLsbD).map fun i => (a + i, BitVec.extractLsb' (8 * i) 8 w.data)
    | _ => []
  let lines := (bytes.map fun b => lineOf b.1).eraseDups
  { s with ice := { s.ice with morLines := s.ice.morLines ++ lines.map fun a =>
                                 { floe := f, addr := a, acc
                                   write := some ((bytes.filter fun b => lineOf b.1 == a).map fun b => (b.1 - a, b.2)) } } }

/-- No Moraine line of an access is in transfer. -/
def State.morDone (s : State) (acc : Nat) : Bool := s.ice.morLines.all fun l => l.acc != acc

/-- Drops the words that an access no longer needs (R362). -/
def State.morDrop (s : State) (acc : Nat) : State :=
  { s with ice := { s.ice with morData := s.ice.morData.filter fun m => m.acc != acc } }

/-- Ends an access: its Firn entry is flushed and freed, and its scoreboard entries are freed now, or when its last Moraine
write line is acknowledged (R299, R302, R362). -/
def State.endAccess (s : State) (acc : Nat) : State :=
  let s := ((s.firnFlush acc).firnDrop acc).morDrop acc
  if s.morDone acc then s.release acc
  else { s with ice := { s.ice with morClosing := s.ice.morClosing ++ [acc] } }

/-- Writes whole and partial words of one floe for an access of a wide-port requester, resident words through its Firn
entry and Moraine words as lines (R301, R302, R361). -/
def State.writeWords (s : State) (who : Src) (acc : Nat) (f : Fin 64) (ws : List IceWrite) : State :=
  (ws.foldl (fun s w => s.gather who acc f w) s).morWrite acc f ws

/-- Fabric faults in CE_ERR_DRF (R544): the channel, the Moraine flag and the kind. -/
def State.fabricFault (s : State) (ch : Nat) (mor : Bool) (k : FabricFault) (lost : Bool) : State :=
  let kind : BitVec 2 := match k with | .translation => 1 | .permission => 2 | .data => 3
  { s with err := { s.err with drfCh := BitVec.ofNat 5 ch, drfMor := mor, drfKind := kind
                               drfLost := s.err.drfLost || lost, drfCount := incSat s.err.drfCount } }

/-- Frees an access that has ended once the last of its Moraine lines has come (R315, R362). -/
def State.morFree (s : State) (acc : Nat) : State :=
  if s.ice.morClosing.contains acc && s.morDone acc then
    ({ s with ice := { s.ice with morClosing := s.ice.morClosing.filter fun a => a != acc } }.morDrop acc).release acc
  else s

/-- The first Moraine line arrives or is acknowledged (R361, R362, R364). A read that fails delivers +0 with the slush mark;
a write that fails is an uncorrectable fault. -/
def State.takeLine (s : State) (res : LineResult) : State :=
  match s.ice.morLines with
  | [] => s
  | l :: rest =>
    let s := { s with ice := { s.ice with morLines := rest } }.countEvent 0x12 1
    match l.write with
    | none =>
      let words := match res with
        | .ok ws => (fins 16).map fun i => ({ acc := l.acc, addr := l.addr + 4 * i.val, w := mkCont (ws.get i) false } : MorWord)
        | .fail _ => (fins 16).map fun i => ({ acc := l.acc, addr := l.addr + 4 * i.val, w := mkCont 0 true } : MorWord)
      let s := { s with ice := { s.ice with morData := s.ice.morData ++ words } }
      match res with
      | .ok _ => s
      | .fail k => s.fabricFault 31 true k false
    | some _ =>
      match res with
      | .ok _ => s
      | .fail k =>
        (s.fabricFault 31 true k true).uncorrectable 0x06 .moraine (BitVec.ofNat 32 l.addr)
          (BitVec.ofNat 32 (l.addr / 2 ^ 32 % 2 ^ 16 + l.floe.val * 2 ^ 16))

/-- A Moraine line arrives or is acknowledged, and an access that has ended is freed with its last (R315, R361, R362). -/
def State.morLine (s : State) (res : LineResult) : State :=
  match s.ice.morLines with
  | [] => s
  | l :: _ => (s.takeLine res).morFree l.acc

end Sys2Proof.Machine
end

