-- ==== Sys2Proof/Machine/Descriptor.lean ====
section
/-! DEFINITION. Drift descriptors: their two layouts (R326, R331), the checks at fetch (R324, R327, R328, R333, R338,
R343, R347, R351, R533), the elements, scales and pads of their two sides (R328 to R330, R333 to R341, R344, R345), and
what a load, a store, a copy and an index drift move. -/

namespace Sys2Proof.Machine

/-! ## Layouts -/

/-- A signed 24-bit field in the low bits of a word (R336). -/
def sext24 (w : Word) : Int := (w.extractLsb' 0 24).toInt

/-- An unsigned field of a word. -/
def fieldN (w : Word) (lsb n : Nat) : Nat := w.toNat / 2 ^ lsb % 2 ^ n

/-- A descriptor of format 2 (R331), as the format 3 descriptor that it behaves as. -/
def Desc.of2 (w : Nat → Word) : Desc :=
  { ver := 2, dir := (w 0).extractLsb' 4 1 |>.setWidth 2, sat := (w 0).getLsbD 7, sfmt := (w 0).extractLsb' 8 4
    dfmt := (w 0).extractLsb' 12 4, pad := if (w 0).getLsbD 16 then 4 else 0, last := (w 0).getLsbD 17
    evt := (w 0).getLsbD 18, faddr := (w 2).extractLsb' 0 16 ++ w 1, iaddr := w 3, ncol := fieldN (w 4) 0 16
    nrow := fieldN (w 4) 16 16, frs := sext24 (w 5), irs := sext24 (w 6), padv := w 7
    resv := fieldN (w 0) 5 2 != 0 || fieldN (w 0) 19 13 != 0 || fieldN (w 2) 16 16 != 0 || fieldN (w 5) 24 8 != 0 ||
      fieldN (w 6) 24 8 != 0 }

/-- A descriptor of format 3 (R326). -/
def Desc.of3 (w : Nat → Word) : Desc :=
  { ver := fieldN (w 0) 0 4, dir := (w 0).extractLsb' 4 2, s := (w 0).getLsbD 6, sat := (w 0).getLsbD 7
    sfmt := (w 0).extractLsb' 8 4, dfmt := (w 0).extractLsb' 12 4, blk := (w 0).extractLsb' 16 2
    bax := (w 0).getLsbD 18, tord := (w 0).getLsbD 19, pad := (w 0).extractLsb' 20 3, rel := (w 0).getLsbD 23
    evt := (w 0).getLsbD 24, last := (w 0).getLsbD 25, persist := (w 0).getLsbD 26, idx := (w 0).getLsbD 27
    iel := (w 0).getLsbD 28, bufi := (w 0).getLsbD 29, isrc := (w 0).getLsbD 30
    faddr := (w 2).extractLsb' 0 16 ++ w 1, iaddr := w 3, ncol := fieldN (w 4) 0 20, nrow := fieldN (w 5) 0 20
    frs := sext24 (w 6), irs := sext24 (w 7), padv := w 8, padc := fieldN (w 9) 0 20, padr := fieldN (w 10) 0 20
    saddr := (w 12).extractLsb' 0 16 ++ w 11, srs := sext24 (w 13), isaddr := w 14, ich := fieldN (w 15) 0 5
    buf := (fieldN (w 15) 5 4 |> BitVec.ofNat 4).toFin, imax := fieldN (w 15) 9 23
    resv := (w 0).getLsbD 31 || fieldN (w 2) 16 16 != 0 || fieldN (w 4) 20 12 != 0 || fieldN (w 5) 20 12 != 0 ||
      fieldN (w 6) 24 8 != 0 || fieldN (w 7) 24 8 != 0 || fieldN (w 9) 20 12 != 0 || fieldN (w 10) 20 12 != 0 ||
      fieldN (w 12) 16 16 != 0 || fieldN (w 13) 24 8 != 0 }

/-- The descriptor that 16 words hold (R326, R331). -/
def Desc.ofWords (ws : List Word) : Desc :=
  let w := fun n => ws.getD n 0
  if fieldN (w 0) 0 4 = 2 then Desc.of2 w else Desc.of3 w

/-- The word part of an address in the form of R150. -/
def wordPart (a : Word) : Nat := fieldN a 0 26

/-- The floe part of an address in the form of R150. -/
def floePart (a : Word) : Fin 64 := (a.extractLsb' 26 6).toFin

/-- Adds to the word part of an address, modulo 2^26 (R530). -/
def addWord (a : Word) (n : BitVec 26) : Word := a.extractLsb' 26 6 ++ (a.extractLsb' 0 26 + n)

/-- A descriptor with REL = 1, its addresses resolved by the channel's bases (R352). -/
def Desc.rebase (d : Desc) (b : Bases) : Desc :=
  if d.rel then
    { d with faddr := d.faddr + b.fabric, saddr := d.saddr + b.fabric, iaddr := addWord d.iaddr b.word
             isaddr := addWord d.isaddr b.word }
  else d

/-! ## Derived values -/

/-- The source format. -/
def Desc.sf (d : Desc) : Fmt := (Fmt.ofCode d.sfmt).getD .fp32
/-- The destination format. -/
def Desc.df (d : Desc) : Fmt := (Fmt.ofCode d.dfmt).getD .fp32
/-- The block size; 0 without block scaling. -/
def Desc.block (d : Desc) : Nat := if d.blk = 1 then 16 else if d.blk = 2 then 32 else 0
/-- The format of the fabric side. -/
def Desc.fabFmt (d : Desc) : Fmt := if d.isStore then d.df else d.sf
/-- The format of the Icefield side that IADDR or the slot names. -/
def Desc.iceFmt (d : Desc) : Fmt := if d.isStore then d.sf else d.df
/-- Icefield columns, pad included: none for a store (R329, R335). -/
def Desc.pc (d : Desc) : Nat :=
  if d.isStore then d.ncol
  else if d.tord then 64 * ((d.ncol + 63) / 64) else if d.padc = 0 then d.ncol else d.padc
/-- Icefield rows, pad included. -/
def Desc.pr (d : Desc) : Nat :=
  if d.isStore then d.nrow
  else if d.tord then 64 * ((d.nrow + 63) / 64) else if d.padr = 0 then d.nrow else d.padr
/-- PADC, where 0 means NCOL (R326, R340). -/
def Desc.scaleCols (d : Desc) : Nat := if d.padc = 0 then d.ncol else d.padc
/-- The scales lie in Icefield (R340). -/
def Desc.iceScales (d : Desc) : Bool := d.block != 0 && d.iceFmt.width == 8 && (d.isLoad || d.isStore)
/-- The limit L of R345. -/
def Desc.limit (d : Desc) : Nat := if d.iel then d.imax * 1024 else d.imax
/-! ## The Icefield side (R329, R330, R340) -/

/-- Words of a tile in tile order (R330, R340). -/
def Desc.tileWords (d : Desc) (f : Fmt) : Nat := 128 * f.width + if d.iceScales then 1024 / d.block else 0

/-- The parts of an element at a bit offset from a word; an FP64 element spans two words (R44). -/
def partsAt (word : Int) (bit w : Nat) : List MemPart :=
  if w = 64 then
    let b : Int := word + bit / 32
    [{ word := b, lsb := 0, w := 32, sh := 0 }, { word := b + 1, lsb := 0, w := 32, sh := 32 }]
  else [{ word := word + bit / 32, lsb := bit % 32, w, sh := 0 }]

/-- Element (r, c) of the Icefield side from a base word (R329, R330). -/
def Desc.iceElem (d : Desc) (base : Int) (r c : Nat) : List MemPart :=
  let w := d.iceFmt.width
  if d.tord then
    let tile := r / 64 * ((d.ncol + 63) / 64) + c / 64
    partsAt (base + (tile * d.tileWords d.iceFmt : Nat)) ((64 * (r % 64) + c % 64) * w) w
  else partsAt (base + r * d.irs) (c * w) w

/-- The scale byte of element (r, c) in Icefield (R340). -/
def Desc.iceScale (d : Desc) (base : Int) (r c : Nat) : List MemPart :=
  let b := d.block
  if d.tord then
    let tile := r / 64 * ((d.ncol + 63) / 64) + c / 64
    let i := if d.bax then 64 * (r % 64 / b) + c % 64 else (64 * (r % 64) + c % 64) / b
    partsAt (base + (tile * d.tileWords d.iceFmt + 1024 : Nat)) (8 * i) 8
  else
    let sb : Int := (wordPart d.isaddr : Int)
    if d.bax then partsAt (sb + (r / b * ((d.scaleCols + 3) / 4) : Nat)) (8 * c) 8
    else partsAt (sb + (r * (((d.scaleCols + b - 1) / b + 3) / 4) : Nat)) (8 * (c / b)) 8

/-- Source element (r, c) of a copy (R329). -/
def Desc.copyElem (d : Desc) (base : Int) (r c : Nat) : List MemPart :=
  partsAt (base + r * d.frs) (c * d.sf.width) d.sf.width

/-- The words from the lowest to the highest of some rows from a base. -/
def rowsSpan (base stride : Int) (rows cols w : Nat) : Int × Int :=
  let last := base + (rows - 1 : Nat) * stride
  (min base last, max base last + ((cols * w + 31) / 32 : Nat) - 1)

/-- The spans of window words that a descriptor touches, each with its floe and whether it is written (R325); `base` is
IADDR's word or the slot's, `src` the base of a copy's source. -/
def Desc.spans (d : Desc) (fl : Fin 64) (base : Int) (sfl : Fin 64) (src : Int) : List (Fin 64 × Int × Int × Bool) :=
  if d.empty then []
  else
    let w := d.iceFmt.width
    let wr := d.isLoad || d.isCopy
    let main : List (Fin 64 × Int × Int × Bool) :=
      if d.isIndex then
        if d.isrc then [(fl, (rowsSpan base d.irs d.nrow d.ncol 32).1, (rowsSpan base d.irs d.nrow d.ncol 32).2, false)]
        else []
      else if d.tord then
        if d.isStore then
          let hi := ((d.iceElem base (d.nrow - 1) (d.ncol - 1)).map (·.word)).foldl max base
          let hs := if d.iceScales then ((d.iceScale base (d.nrow - 1) (d.ncol - 1)).map (·.word)).foldl max hi else hi
          [(fl, base, hs, wr)]
        else [(fl, base, base + ((d.nrow + 63) / 64 * ((d.ncol + 63) / 64) * d.tileWords d.iceFmt : Nat) - 1, wr)]
      else
        let (lo, hi) := rowsSpan base d.irs d.pr d.pc w
        let sc : List (Fin 64 × Int × Int × Bool) :=
          if d.iceScales then
            let top := ((d.iceScale base (d.pr - 1) (d.pc - 1)).map (·.word)).foldl max (wordPart d.isaddr : Int)
            [(floePart d.isaddr, (wordPart d.isaddr : Int), top, wr)]
          else []
        (fl, lo, hi, wr) :: sc
    if d.isCopy then
      let (lo, hi) := rowsSpan src d.frs d.nrow d.ncol d.sf.width
      (sfl, lo, hi, false) :: main
    else main

/-! ## Checks at fetch (R324) -/

/-- A format that format 2 may name (R331). -/
def format2 (c : BitVec 4) : Bool := c == 0 || c == 1 || c == 2 || c == 6 || c == 7 || c == 8

/-- The formats of block scaling (R51). -/
def blockScalable : Fmt → Bool
  | .e4m3 | .e5m2 | .int8 | .int4 | .fp4 => true
  | _ => false

/-- ILLEGAL, for the fields of one descriptor (R326 to R328, R333). A reserved format code has no alignment; it is FORMAT
(R37). -/
def Desc.illegal (d : Desc) : Bool :=
  d.resv || d.blk == 3 || decide (5 ≤ d.pad.toNat) || (d.padc != 0 && decide (d.padc < d.ncol)) ||
    (d.padr != 0 && decide (d.padr < d.nrow)) || (d.tord && (d.padc != 0 || d.padr != 0)) ||
    (d.isCopy && (d.blk != 0 || d.idx)) || (d.bufi && d.tord) ||
    ((d.isLoad || d.isStore || (d.isIndex && !d.isrc)) &&
      (Fmt.ofCode (if d.isStore then d.dfmt else d.sfmt)).any fun f =>
        decide (16 ≤ f.width) && decide (d.faddr.toNat % (f.width / 8) ≠ 0))

/-- FORMAT (R37, R331, R333, R338, R343). -/
def Desc.badFormat (d : Desc) : Bool :=
  (d.ver == 2 && (!format2 d.sfmt || !format2 d.dfmt)) ||
    match Fmt.ofCode d.sfmt, Fmt.ofCode d.dfmt with
    | some sf, some df =>
      let four := sf.width == 4
      (four && (!d.isLoad || d.iel)) || !pairExists sf df || (d.isIndex && (sf != .int32 || df != .int32)) ||
        (d.blk != 0 && !(if d.isLoad then blockScalable sf else blockScalable df)) ||
        (df == .e4m3 && (d.pad == 1 || d.pad == 2)) || (df.isInt && d.pad == 3)
    | _, _ => true

/-- The segments that a span of a floe's words touches in a state (R321). -/
def State.spanIn (s : State) (fl : Fin 64) (lo hi : Int) (st : SegState) : Bool :=
  let f := s.floe fl
  let o := fun (w : Int) => w - (f.window.1 : Int)
  let top := min (o hi) (f.res.toNat * 1024 - 1 : Int)
  decide (o lo ≤ top) &&
    (fins 64).any fun g =>
      s.ice.segs.get g == st && decide ((g.val * 2 ^ 18 : Int) ≤ f.pbase.toNat * 1024 + top) &&
        decide ((f.pbase.toNat * 1024 + o lo : Int) < (g.val + 1) * 2 ^ 18)

/-- EXTENT: a span that leaves the declared range of its floe, or data larger than one slot (R327, R348, R533). -/
def State.spanExtent (s : State) (q : Fin 64 × Int × Int × Bool) : Bool :=
  let f := s.floe q.1
  f.used && (decide (q.2.1 < (f.window.1 : Int)) || decide ((f.window.2 : Int) ≤ q.2.2.1))

/-- The spans of a descriptor before a slot is granted: a buffer stands with its whole ring. -/
def State.fetchSpans (s : State) (d : Desc) (c : Fin 32) : List (Fin 64 × Int × Int × Bool) :=
  let b := s.drf.fb.get d.buf
  if d.buffered then
    let ring : Fin 64 × Int × Int × Bool :=
      (floePart b.base, (wordPart b.base : Int), (wordPart b.base + b.slot.toNat * b.count.toNat : Int) - 1,
        (d.role b c).getD false)
    let all := d.spans (floePart d.iaddr) 0 (floePart (d.faddr.extractLsb' 0 32)) (wordPart (d.faddr.extractLsb' 0 32))
    if d.empty then []
    else ring :: if d.isCopy && d.role b c == some false then
        (d.spans (floePart d.iaddr) (wordPart d.iaddr) 0 0).drop 1
      else if d.isCopy then all.take 1 else all.drop 1
  else d.spans (floePart d.iaddr) (wordPart d.iaddr) (floePart (d.faddr.extractLsb' 0 32))
    (wordPart (d.faddr.extractLsb' 0 32))

/-- A descriptor's data does not fit one slot (R348, R533). -/
def State.slotExtent (s : State) (d : Desc) (c : Fin 32) : Bool :=
  let b := s.drf.fb.get d.buf
  d.buffered && (b.count == 0 || b.slot == 0 ||
    (!d.empty &&
      let (lo, hi) :=
        if d.isIndex then rowsSpan 0 d.irs d.nrow d.ncol 32
        else if d.isCopy && d.role b c == some false then rowsSpan 0 d.frs d.nrow d.ncol d.sf.width
        else rowsSpan 0 d.irs d.pr d.pc d.iceFmt.width
      decide (lo < 0) || decide ((b.slot.toNat : Int) ≤ hi)))

/-- The version is not the chain's or not enabled (R332). -/
def State.badVersion (s : State) (chain : Option Nat) (d : Desc) : Bool :=
  !((d.ver == 2 && s.drf.vers.getLsbD 0) || (d.ver == 3 && s.drf.vers.getLsbD 1)) || (chain.getD d.ver != d.ver)

/-- The coupling of a data drift with its index channel does not match: no index descriptor of that channel's chain names the
data drift's channel (R343). -/
def State.badCoupling (s : State) (c : Fin 32) (d : Desc) : Bool :=
  d.indexed && !((if h : d.ich < 32 then (s.chan ⟨d.ich, h⟩).feeds else []).contains c)

/-- The checks of one descriptor, number `n` of its chain, in the order of R324; none when it passes. -/
def State.descCheck (s : State) (c : Fin 32) (x : Channel) (n : Nat) (firstLen : Nat) (persist : Bool) (d0 : Desc) :
    Option (BitVec 4) :=
  let d := d0.rebase x.bases
  let spans := s.fetchSpans d c
  let per := Config.rearm s.cfg && (persist || d.persist)
  if s.badVersion x.version d then some 0x7
  else if d.illegal || s.badCoupling c d || (d.buffered && (d.role (s.drf.fb.get d.buf) c).isNone) ||
      (per && (decide (firstLen ≤ n) || (d.last && !d.persist))) then some 0x8
  else if d.badFormat then some 0x9
  else if s.slotExtent d c || spans.any s.spanExtent then some 0xA
  else if spans.any fun q => !(s.floe q.1).used then some 0xB
  else if spans.any fun q => s.spanIn q.1 q.2.1 q.2.2.1 .melted then some 0xC
  else none

/-! ## The fabric side (R328, R339, R344, R345) -/

/-- Where an element comes from or goes to. -/
inductive ElemSrc where
  | at (byte : Nat) (nibble : Nat)
  | pad
  | bad
deriving DecidableEq, Repr

/-- A fabric byte address, modulo 2^48. -/
def fab (a : Int) : Nat := (a % 2 ^ 48).toNat

/-- Element (r, c) of the fabric side, from the indices taken (R328, R344, R345). -/
def Desc.fabElem (d : Desc) (idxs : List Int) (r c : Nat) : ElemSrc :=
  let w := d.fabFmt.width
  let a : Int := d.faddr.toNat
  if d.indexed then
    let x := idxs.getD (if d.iel then r * d.ncol + c else r) (-2)
    if x = -1 then .pad
    else if x < -1 ∨ (d.limit : Int) ≤ x then .bad
    else if d.iel then .at (fab (a + x * w / 8)) 0
    else .at (fab (a + 4 * x * d.frs + (c * w / 8 : Nat))) (c * w % 8 / 4)
  else .at (fab (a + 4 * r * d.frs + (c * w / 8 : Nat))) (c * w % 8 / 4)

/-- The scale byte of element (r, c) on the fabric side (R339). -/
def Desc.fabScale (d : Desc) (r c : Nat) : Nat :=
  let a : Int := d.saddr.toNat
  if d.bax then fab (a + 4 * (r / d.block : Nat) * d.srs + c) else fab (a + 4 * r * d.srs + (c / d.block : Nat))

/-- The first positions of the blocks of some rows and columns. -/
def Desc.blocks (d : Desc) (rows : List Nat) (cols : Nat) : List (Nat × Nat) :=
  let b := d.block
  if d.bax then ((rows.filter fun r => r % b == 0)).flatMap fun r => (List.range cols).map fun c => (r, c)
  else rows.flatMap fun r => (List.range ((cols + b - 1) / b)).map fun k => (r, b * k)

/-- The valid positions of the block that begins at a position. -/
def Desc.blockElems (d : Desc) (q : Nat × Nat) : List (Nat × Nat) :=
  let b := d.block
  if d.bax then ((List.range b).map fun i => (q.1 + i, q.2)).filter fun p => decide (p.1 < d.nrow)
  else ((List.range b).map fun i => (q.1, q.2 + i)).filter fun p => decide (p.2 < d.ncol)

/-- A block holds an element that is read or written. -/
def Desc.blockLive (d : Desc) (idxs : List Int) (q : Nat × Nat) : Bool :=
  decide (q.1 < d.nrow) && decide (q.2 < d.ncol) &&
    (!d.indexed || (d.blockElems q).any fun p => match d.fabElem idxs p.1 p.2 with | .at _ _ => true | _ => false)

/-- The fabric lines that a load or an index drift reads for some rows, row by row (R334). -/
def Desc.readLines (d : Desc) (idxs : List Int) (rows : List Nat) : List Nat :=
  ((rows.filter fun r => decide (r < d.nrow)).flatMap fun r =>
    ((List.range d.ncol).flatMap fun c =>
      match d.fabElem idxs r c with
      | .at b _ => (List.range (max 1 (d.fabFmt.width / 8))).map fun i => lineOf ((b + i) % 2 ^ 48)
      | _ => []) ++
    (if d.block = 0 then [] else
      ((d.blocks [r] d.ncol).filter (d.blockLive idxs)).map fun q => lineOf (d.fabScale q.1 q.2))).eraseDups

/-- A byte of the lines that have arrived; none where the line failed or is missing. -/
def gotByte (got : List (Nat × LineResult)) (a : Nat) : Option (BitVec 8) :=
  match got.find? fun l => l.1 == lineOf a with
  | some (_, .ok ws) => some ((ws.get ⟨a % 64 / 4, by omega⟩).extractLsb' (8 * (a % 4)) 8)
  | _ => none

/-- Bytes in ascending order as one value. -/
def gotValue (got : List (Nat × LineResult)) (a : Nat) : Nat → Option Nat
  | 0 => some 0
  | n + 1 =>
    match gotByte got (a % 2 ^ 48), gotValue got (a + 1) n with
    | some b, some v => some (b.toNat + 256 * v)
    | _, _ => none

/-- The bits of an element from the lines that have arrived. -/
def Desc.gotElem (d : Desc) (got : List (Nat × LineResult)) (byte nibble : Nat) : Option Code :=
  let w := d.fabFmt.width
  if w = 4 then (gotValue got byte 1).map fun v => BitVec.ofNat 64 (v / 2 ^ (4 * nibble) % 16)
  else (gotValue got byte (w / 8)).map fun v => BitVec.ofNat 64 v

/-- The pad value of DFMT (R333). -/
def Desc.padCode (d : Desc) : Code :=
  let f := d.df
  if d.pad = 1 then (if f.isInt then BitVec.ofInt 64 (f.intMin % 2 ^ f.width) else f.withSign true f.infCode)
  else if d.pad = 2 then (if f.isInt then BitVec.ofInt 64 f.intMax else BitVec.ofNat 64 f.infCode)
  else if d.pad = 3 then BitVec.ofNat 64 f.nanCode
  else if d.pad = 4 then BitVec.ofNat 64 (d.padv.toNat % 2 ^ f.width)
  else 0

/-! ## Loads (R333, R334, R336, R338, R340, R357) -/

/-- What a load writes, as it is built. -/
structure LoadAcc where
  sh : Store Shadow := []
  flags : FpFlags := {}
deriving DecidableEq, Repr

/-- Puts an element into the words that a load writes. -/
def putParts (sh : Store Shadow) (ps : List MemPart) (c : Code) (mark : Bool) : Store Shadow :=
  ps.foldl (fun m p => sset {} m p.word.toNat ((sget {} m p.word.toNat).put p c mark)) sh

/-- An element, or one that a failed line holds, which is +0 with the slush mark (R357). Of two elements of one byte the later
stays (R336). -/
def LoadAcc.put (a : LoadAcc) (ps : List MemPart) (r : Option Rounded) (mark : Bool) : LoadAcc :=
  match r with
  | some r => { a with sh := putParts a.sh ps r.code mark, flags := a.flags.or r.flags }
  | none => { a with sh := putParts a.sh ps 0 true }

/-- One element of a load converted: block scales enter the elements of a target wider than 8 bits (R54). -/
def Desc.loadElem (d : Desc) (got : List (Nat × LineResult)) (r c byte nibble : Nat) : Option Rounded :=
  match d.gotElem got byte nibble with
  | none => none
  | some e =>
    if d.block != 0 && d.df.width != 8 then
      (gotByte got (d.fabScale r c)).map fun sc => d.df.encode d.sat false (scaled (d.sf.decode e) sc)
    else some (convert d.sf d.df d.sat e)

/-- What a load puts at a place of its Icefield side: an element, none where a failed line holds it, or a pad value; and
whether it is marked. -/
inductive LoadItem where
  | elem (r : Option Rounded)
  | pad (r : Rounded) (mark : Bool)

/-- The words of some places that hold an element of a failed line. -/
def lostWords (l : List (List MemPart × LoadItem)) : Store Bool :=
  l.foldl (fun m q => match q.2 with
    | .elem none => q.1.foldl (fun m p => sset false m p.word.toNat true) m
    | _ => m) []

/-- Puts a place: the pad of a word that holds an element of a failed line is +0 with the slush mark too (R357). -/
def LoadAcc.putItem (lost : Store Bool) (a : LoadAcc) (q : List MemPart × LoadItem) : LoadAcc :=
  match q.2 with
  | .elem r => a.put q.1 r false
  | .pad r m => if q.1.any fun p => sget false lost p.word.toNat then a.put q.1 none true else a.put q.1 (some r) m

/-- The places that a load writes for some rows of its Icefield side, in order. -/
def Desc.loadItems (d : Desc) (base : Int) (idxs : List Int) (got : List (Nat × LineResult)) (rows : List Nat) :
    List (List MemPart × LoadItem) :=
  let pad : Rounded := { code := d.padCode }
  (rows.flatMap fun r => (List.range d.pc).map fun c => (d.iceElem base r c,
    if d.nrow ≤ r || d.ncol ≤ c then .pad pad false
    else match d.fabElem idxs r c with
      | .at b n => .elem (d.loadElem got r c b n)
      | .pad => .pad pad false
      | .bad => .pad pad true)) ++
  if d.iceScales then
    (d.blocks rows d.pc).map fun q => (d.iceScale base q.1 q.2,
      if d.blockLive idxs q then .elem ((gotByte got (d.fabScale q.1 q.2)).map fun b => { code := b.setWidth 64 })
      else .pad { code := 0x7F } false)
  else []

/-- The words that a load writes for some rows of its Icefield side. -/
def Desc.load (d : Desc) (base : Int) (idxs : List Int) (got : List (Nat × LineResult)) (rows : List Nat) : LoadAcc :=
  let items := d.loadItems base idxs got rows
  items.foldl (LoadAcc.putItem (lostWords items)) {}

/-- The window words that a load or copy leaves, with the bytes that it writes (R307, R336). -/
def LoadAcc.writes (a : LoadAcc) : List IceWrite :=
  a.sh.map fun (w, s) => { word := w, data := s.data, mask := s.written, mark := s.marked != 0 }

/-- Rows or elements with an index below -1 or at or above L (R345). -/
def Desc.badCount (d : Desc) (idxs : List Int) : Nat :=
  if d.indexed then
    ((List.range d.indexCount).filter fun i =>
      let x := idxs.getD i (-2)
      decide (x < -1) || decide ((d.limit : Int) ≤ x)).length
  else 0

/-- HCAUSE of a fabric fault (R532). -/
def faultCause : FabricFault → BitVec 3
  | .translation => 1 | .permission => 2 | .data => 3

/-- The cause and the line of the first failed line of some. -/
def firstFailed (got : List (Nat × LineResult)) (lines : List Nat) : Option (BitVec 3 × Nat) :=
  got.findSome? fun g => match g.2 with
    | .fail k => if lines.contains g.1 then some (faultCause k, g.1) else none
    | .ok _ => none

/-- The lowest row of some that is not wholly there, with the cause and the line of its first failed line, or of the first
failed line of all (R358). -/
def Desc.failRow (d : Desc) (got : List (Nat × LineResult)) (rows : List Nat) : Option (Nat × BitVec 3 × Nat) :=
  (rows.find? fun r => (d.readLines [] [r]).any fun l => !got.any fun g => g.1 == l && (match g.2 with | .ok _ => true | .fail _ => false)).map
    fun r => (r, ((firstFailed got (d.readLines [] [r])).orElse fun _ => firstFailed got (got.map (·.1))).getD (0, 0))

/-! ## Stores (R335, R341, R345, R357) -/

/-- A byte that a store writes: its fabric address, its value, whether it is poisoned, and its row. -/
structure OutByte where
  addr : Nat
  val : BitVec 8
  poison : Bool
  row : Nat
deriving DecidableEq, Repr

/-- The bytes of a value. -/
def outBytes (a n : Nat) (v : Code) (poison : Bool) (row : Nat) : List OutByte :=
  (List.range n).map fun i => { addr := (a + i) % 2 ^ 48, val := v.extractLsb' (8 * i) 8, poison, row }

/-- The window words that a store reads: valid positions and their scales. -/
def Desc.storeReads (d : Desc) (base : Int) (rows : List Nat) : List Nat :=
  let es := rows.flatMap fun r => (List.range d.ncol).flatMap fun c => (d.iceElem base r c).map fun p => p.word.toNat
  let ss := if d.iceScales then
      (d.blocks rows d.ncol).flatMap fun q => (d.iceScale base q.1 q.2).map fun p => p.word.toNat
    else []
  (es ++ ss).eraseDups

/-- The block-scaled bytes of a wider source (R341, R56): elements and scales of the blocks. -/
def Desc.storeScaled (d : Desc) (base : Int) (mem : Store (BitVec 33)) (idxs : List Int) (rows : List Nat) :
    List OutByte × FpFlags :=
  let out := (d.blocks rows d.ncol).map fun q =>
    let es := (d.blockElems q).filterMap fun p =>
      match d.fabElem idxs p.1 p.2 with
      | .at b _ => some (p, b, memElem mem (d.iceElem base p.1 p.2))
      | _ => none
    if es.isEmpty then (([], []), ({} : FpFlags))
    else
      let (sc, rs) := storeBlock d.sf d.df (es.map (·.2.2.1))
      let sb := outBytes (d.fabScale q.1 q.2) 1 (sc.setWidth 64) (es.any (·.2.2.2)) q.1
      (((es.zip rs).map fun (e, r) => (e.1.1 * d.ncol + e.1.2, outBytes e.2.1 1 r.code e.2.2.2 e.1.1), sb),
        orFlags (rs.map (·.flags)))
  let els : Store (List OutByte) := ssetMany [] [] (out.flatMap (·.1.1))
  (els.flatMap (·.2) ++ out.flatMap (·.1.2), orFlags (out.map (·.2)))

/-- The bytes of a store without scaling, or with scales carried unchanged (R340). A scale 0xFF that is carried unchanged
sets no flag (DESIGN CHOICE, log entry 170). -/
def Desc.storePlain (d : Desc) (base : Int) (mem : Store (BitVec 33)) (idxs : List Int) (rows : List Nat) :
    List OutByte × FpFlags :=
  let es := rows.flatMap fun r => (List.range d.ncol).map fun c =>
    match d.fabElem idxs r c with
    | .at b _ =>
      let (e, m) := memElem mem (d.iceElem base r c)
      let v := convert d.sf d.df d.sat e
      (outBytes b (d.df.width / 8) v.code m r, v.flags)
    | _ => ([], ({} : FpFlags))
  let ss := if d.iceScales then
      ((d.blocks rows d.ncol).filter (d.blockLive idxs)).flatMap fun q =>
        let (e, m) := memElem mem (d.iceScale base q.1 q.2)
        outBytes (d.fabScale q.1 q.2) 1 e m q.1
    else []
  (es.flatMap (·.1) ++ ss, orFlags (es.map (·.2)))

/-- What a store writes to the fabric for some rows. -/
def Desc.store (d : Desc) (base : Int) (mem : Store (BitVec 33)) (idxs : List Int) (rows : List Nat) :
    List OutByte × FpFlags :=
  if d.block != 0 && !d.iceScales then d.storeScaled base mem idxs rows else d.storePlain base mem idxs rows

/-- The write lines of some bytes: of two bytes at one address the later remains (R336). -/
def linesOf (bs : List OutByte) : List WLine :=
  let m := bs.foldl (fun (m : Store (Option OutByte)) b => sset none m b.addr (some b)) []
  let kept := m.filterMap (·.2)
  ((kept.map fun b => lineOf b.addr).eraseDups).map fun a =>
    let mine := kept.filter fun b => lineOf b.addr == a
    { addr := a, bytes := mine.map fun b => (b.addr - a, b.val)
      poison := (mine.filter (·.poison)).map fun b => b.addr - a
      row := (mine.map (·.row)).foldl min (mine.headD { addr := 0, val := 0, poison := false, row := 0 }).row }

/-- Some bytes from an address on, modulo 2^48, as intervals. -/
def fabSpan (a : Int) (len : Nat) : List (Nat × Nat) :=
  let lo := fab a
  if len = 0 then [] else if 2 ^ 48 ≤ len then [(0, 2 ^ 48)]
  else if lo + len ≤ 2 ^ 48 then [(lo, lo + len)] else [(lo, 2 ^ 48), (0, lo + len - 2 ^ 48)]

/-- The fabric bytes that a store may write (R337): its rows and its scales, as intervals. -/
def Desc.fabRanges (d : Desc) : List (Nat × Nat) :=
  if !d.isStore || d.empty then []
  else
    let w := d.df.width
    let span := fun (a : Int) (stride : Int) (n len : Nat) =>
      let last := a + (n - 1 : Nat) * stride
      fabSpan (min a last) ((max a last - min a last).toNat + len)
    let a : Int := d.faddr.toNat
    let rowBytes := (d.ncol * w + 7) / 8
    let main := if d.indexed then
        (if d.iel then span a 0 1 (d.limit * w / 8) else span a (4 * d.frs) (max 1 d.limit) rowBytes)
      else span a (4 * d.frs) d.nrow rowBytes
    if d.block = 0 then main
    else if d.bax then span d.saddr.toNat (4 * d.srs) ((d.nrow + d.block - 1) / d.block) d.ncol ++ main
    else span d.saddr.toNat (4 * d.srs) d.nrow ((d.ncol + d.block - 1) / d.block) ++ main

/-! ## Copies and index drifts (R329, R335, R343) -/

/-- The window words that a copy reads. -/
def Desc.copyReads (d : Desc) (src : Int) : List Nat :=
  ((List.range d.nrow).flatMap fun r => (List.range d.ncol).flatMap fun c =>
    (d.copyElem src r c).map fun p => p.word.toNat).eraseDups

/-- What a copy writes. -/
def Desc.copy (d : Desc) (base src : Int) (mem : Store (BitVec 33)) : LoadAcc :=
  let pos := (List.range d.pr).flatMap fun r => (List.range d.pc).map fun c => (r, c)
  pos.foldl (fun (a : LoadAcc) (r, c) =>
    let ps := d.iceElem base r c
    if d.nrow ≤ r || d.ncol ≤ c then a.put ps (some { code := d.padCode }) false
    else
      let (e, m) := memElem mem (d.copyElem src r c)
      a.put ps (some (convert d.sf d.df d.sat e)) m) {}

/-- The window words that an index drift reads. -/
def Desc.indexReads (d : Desc) (base : Int) : List Nat :=
  ((List.range d.nrow).flatMap fun r => (List.range d.ncol).map fun c => (base + r * d.irs + c : Int).toNat).eraseDups

/-- The indices of an index drift from Icefield, in the order of R336. -/
def Desc.iceIndices (d : Desc) (base : Int) (mem : Store (BitVec 33)) : List Int :=
  (List.range d.nrow).flatMap fun r => (List.range d.ncol).map fun c =>
    (contData (sget 0 mem (base + r * d.irs + c : Int).toNat)).toInt

/-- The indices of an index drift from the fabric; a failed line delivers +0 (R357). -/
def Desc.fabIndices (d : Desc) (got : List (Nat × LineResult)) : List Int :=
  (List.range d.nrow).flatMap fun r => (List.range d.ncol).map fun c =>
    match d.fabElem [] r c with
    | .at b _ => (BitVec.ofNat 32 ((gotValue got b 4).getD 0)).toInt
    | _ => 0

end Sys2Proof.Machine
end

