-- ==== Sys2Proof/Machine/Vector.lean ====
section
/-! DEFINITION. The vector unit: issue into the vector queues (R130, R133), acceptance (R134 to R136, R194, R564),
completion and retirement (R131, R139), residue failures, fences and replays (R462 to R467), and lease changes that
wait for a register (R112). -/

namespace Sys2Proof.Machine

/-! ## Issue -/

/-- The instruction at the head of a hart's queue presents its ranges, once (R136). -/
def State.presentHead (s : State) (h : Hart) : State :=
  match (s.hart h).vqueue with
  | [] => s
  | e :: r =>
    match e.sb, xkindOf e.x with
    | none, some k =>
      let rs := s.xRanges k e
      if rs.isEmpty then s
      else
        let (s, id) := s.present (.vector h) rs
        s.modHart h fun t => { t with vqueue := { e with sb := some id } :: r }
    | _, _ => s

/-- The integer register that TB names (R118). -/
def HartState.xcScalar (t : HartState) (x : XInstr) : Word := t.getX (x.a.tb.setWidth 5)

/-- Everything that an instruction reads when it issues (R118, R151, R176, R193). -/
def HartState.entryOf (t : HartState) (x : XInstr) : XEntry :=
  let c := t.csr
  { x, n := t.issued + 1, pc := t.pc, scalar := t.xcScalar x, rstr := c.rstr, estr := c.estr
    ldVr := min 256 c.ldVr.toNat, ldVc := min 64 c.ldVc.toNat, eps := c.eps, mparam := c.mparam, mseed := c.mseed
    mkeyl := c.mkeyl, mkeyh := c.mkeyh, mbase := c.mbase, xarg := c.xarg }

/-- A hart issues an Xcalad instruction: a full queue stalls the hart, a decode fault traps, and otherwise the
instruction enters the queue and the hart goes on (R130, R133, R406, R408). -/
def State.issue (s : State) (h : Hart) (x : XInstr) : State :=
  let t := s.hart h
  if !s.canAct (Hart.reader h) || decide (4 ≤ t.vqueue.length) then s
  else
    match xcheck h t.csr.mparam t.csr.xarg (t.xcScalar x) s.tiles x with
    | .error code => s.trap h 24 (BitVec.ofNat 32 code)
    | .ok _ =>
      (s.modHart h fun t =>
        { t with vqueue := t.vqueue ++ [t.entryOf x], pc := t.pc + 8, instret := t.instret + 1
                 issued := t.issued + 1 }).presentHead h

/-! ## What holds an instruction (R135, R136, R194, R244, R246, R564) -/

/-- The tile registers that an instruction names, with whether it reads and writes them. -/
def XEntry.tileUse (e : XEntry) : List (TileReg × Bool × Bool) :=
  match xkindOf e.x with
  | none => []
  | some k =>
    let s := k.span e.x.a e.mparam
    (k.uses e.x.a e.mparam).flatMap fun u => (u.names s).map fun r => (r, u.rd, u.wr)

/-- The source predicates of a predicate operation. -/
def XEntry.predSources (e : XEntry) : List (BitVec 3) :=
  match xkindOf e.x with
  | some (.plogic _) => [e.x.a.ta.setWidth 3, e.x.a.tb.setWidth 3].filter fun p => p != 0
  | _ => []

/-- Predicates that an instruction names to read: its governing one and those that a predicate operation names. -/
def XEntry.predReads (e : XEntry) : List (BitVec 3) :=
  match xkindOf e.x with
  | none => []
  | some k => (if k.ignoresPred || e.x.a.pred == 0 then [] else [e.x.a.pred]) ++ e.predSources

/-- The predicate that an instruction writes. -/
def XEntry.predWrites (e : XEntry) : List (BitVec 3) :=
  match xkindOf e.x with
  | some .pany | some .pall | some (.plogic _) | some .plt => [e.x.a.td.setWidth 3].filter fun p => p != 0
  | _ => []

/-- Statistic-bank entries that an instruction reads and writes, under its predicate (R135). -/
def XEntry.bankUse (e : XEntry) (pred : BitVec 256) : List Nat × List Nat :=
  let rows := activeRows e.x.a.count.toNat pred
  match xkindOf e.x with
  | some (.racc k) => (if k = 0 then [] else rows, if k < 4 then rows else [])
  | some (.norm k) => ([], if k < 2 then rows else [])
  | _ => ([], [])

/-- A threshold-mode MPRUNE or MGROW (R194). -/
def XEntry.threshold (e : XEntry) : Bool :=
  match xkindOf e.x with
  | some (.mprune m) => m == 3
  | some (.mgrow m) => m == 1
  | _ => false

/-- Two lists share an element. -/
def meets {α : Type} [BEq α] (a b : List α) : Bool := a.any fun x => b.contains x

/-- An earlier-accepted instruction of any hart that has not completed holds an instruction of a hart (R135, R194). It has
read its governing predicate at its acceptance (R115), and with COUNT = 0 it reads and writes nothing (R122). -/
def Inflight.holds (o : Inflight) (h : Hart) (e : XEntry) (pred : BitVec 256) : Bool :=
  let tu := e.tileUse
  let ou := o.e.tileUse
  let writes := e.x.a.count != 0
  let tiles := tu.any fun u => ou.any fun v => u.1 == v.1 && (v.2.2 || (writes && u.2.2 && v.2.1))
  let preds := meets (e.predReads ++ e.predWrites) o.e.predWrites || (writes && meets e.predWrites o.e.predSources)
  let (br, bw) := e.bankUse pred
  let (er, ew) := o.e.bankUse o.predv
  let bank := meets (br ++ bw) ew || meets bw er
  o.result.isNone && o.e.x.a.count != 0 && (tiles || (o.hart == h && (preds || bank || (e.threshold && o.e.threshold))))

/-- The working registers of the running course (R244). -/
def Mortar.working (m : Mortar) : List TileReg :=
  match m.run with
  | some r => if r.checked then (List.range 8).map (regAt r.d.wreg.toFin) else []
  | none => []

/-- The running course holds an instruction: it names a working register, or is an RACC of the starting hart (R244,
R246, R433). -/
def State.courseHolds (s : State) (h : Hart) (e : XEntry) : Bool :=
  (e.tileUse.any fun u => s.mortar.working.contains u.1) ||
    match s.mortar.run, xkindOf e.x with
    | some r, some (.racc _) => r.who == Hart.reader h
    | _, _ => false

/-- An accepted instruction from its queue entry. -/
def State.inflightOf (s : State) (h : Hart) (e : XEntry) : Inflight :=
  { hart := h, e, predv := (s.hart h).getPred e.x.a.pred, quota := (s.hart h).csr.mquota, sb := e.sb }

/-- A word that the instruction touches lies in a segment that is reviving (R564). -/
def State.revivingHolds (s : State) (x : XIn) : Bool :=
  x.k.icefield && s.reviving && x.count != 0 && x.touchWords.any fun w =>
    decide ((0 : Int) ≤ w) && match s.place x.e.floe w.toNat with
      | some (.phys p _) => s.segAt p == .reviving
      | _ => false

/-- The head of a hart's queue, when it is ready (R134 to R136, R140). -/
def State.readyHead (s : State) (h : Hart) : Option XEntry :=
  match (s.hart h).vqueue with
  | [] => none
  | e :: _ =>
    let f := s.inflightOf h e
    let held := (s.hart h).wait == .wfi || (s.vu.inflight.any fun o => o.holds h e f.predv) || s.courseHolds h e ||
      (match e.sb with | some id => !s.ice.sb.ready id | none => false) || s.revivingHolds (s.xinOf f)
    if held then none else some e

/-- The harts in the order of the choice of R134. -/
def hartsFrom (rr : Hart) : List Hart := (List.range 16).map fun i => ⟨(rr.val + i) % 16, Nat.mod_lt _ (by decide)⟩

/-! ## Acceptance (R134, R138, R139) -/

/-- An accepted instruction still waits for its Moraine lines, which hold the vector unit (R363). -/
def State.morBusy (s : State) (f : Inflight) : Bool :=
  f.mor && match f.sb with | some id => !s.morDone id | none => false

/-- The vector unit can accept: the engine runs, no fence is under way, no withheld instruction waits for its replay, and
no accepted instruction waits for Moraine (R134, R363, R464, R470). -/
def State.mayAccept (s : State) : Bool :=
  s.powered && s.err.stat == .running && s.vu.fence.isNone && s.vu.inflight.all fun f => !f.withheld && !s.morBusy f

/-- The first step in which the vector unit is free and no fence is under way (R134, R464). -/
def State.nextFree (s : State) : Nat := max (s.cycle + 1) (max s.vu.busyUntil s.vu.fenceUntil + 1)

/-- Work that the vector unit accepts in a step occupies it for some steps, the first of them now (R138, R555). -/
def State.occupy (s : State) (at' steps : Nat) : State :=
  let s := s.advanceTo at'
  { s with vu := { s.vu with busyUntil := at' + steps - 1 } }.countEvent 0x02 (min 1 steps)

/-- The vector unit accepts some instructions or bond steps: each is counted and inverts VACCEPT (R552, R555). -/
def State.accepted (s : State) (n : Nat) : State :=
  let s := s.countEvent 0x03 n
  if n % 2 = 1 then s.toggleObs 0x03 else s

/-- The physical lane groups that serve (R463). -/
def State.activeGroups (s : State) : List (Fin 17) := (fins 17).filter fun g => (s.err.lanes.get g).state == .active

/-- Row groups below COUNT that an instruction skips (R138). -/
def XIn.skipped (x : XIn) (lanes : Nat) : Nat :=
  x.k.rowGroups x.a x.e.mparam lanes (BitVec.allOnes 256) - x.k.rowGroups x.a x.e.mparam lanes x.pred

/-- Window words as an instruction's effect names them. -/
def windowWords (ws : List Int) : List Nat := ws.filterMap fun w => if w < (0 : Int) then none else some w.toNat

/-- The effect of an accepted instruction, over the memory words it has read; COUNT = 0 has none (R122). -/
def XIn.effect (x : XIn) (mem : Store (BitVec 33)) : XEffect := if x.count = 0 then {} else xEffect { x with mem }

/-- Requests the Moraine lines of an instruction that is accepted: the lines it reads, and the writes of a store, which
need no read; an add's writes follow its reads (R362, R363). -/
def State.requestLines (s : State) (id : Nat) (x : XIn) : State :=
  let s := s.morRead id x.e.floe x.lineWords
  if x.k.icefieldWrites && !x.adds then s.morWrite id x.e.floe (x.effect []).ice else s

/-- Accepts the head of a hart's queue in the first step that is free (R134, R138, R139). -/
def State.accept (s : State) (h : Hart) (e : XEntry) : State :=
  let f := s.inflightOf h e
  let x := s.xinOf f
  let at' := s.nextFree
  let (o, d) := x.timing s
  let mor := s.morAddrs e.floe (if x.k.icefield then windowWords x.touchWords else [])
  let f := { f with accepted := at', occ := o, done := at' + o - 1 + d, waitFor := s.ice.sb.alloc.map (·.id)
                    groups := s.activeGroups, mor := !mor.isEmpty, morIssued := x.k.icefieldWrites && !x.adds }
  let s := s.occupy at' o
  let s := { s with vu := { s.vu with rr := h + 1, inflight := s.vu.inflight ++ [f] } }
  let s := match e.sb with
    | some id => (s.allocate id).requestLines id x
    | none => s
  let s := s.modHart h fun t => { t with vqueue := t.vqueue.drop 1 }
  let s := ((s.accepted 1).countEvent 0x04 (x.conflictSteps s)).countEvent 0x05 (x.skipped (Config.lanes s.cfg))
  s.presentHead h

/-- The vector unit accepts the next ready instruction (R134). -/
def State.vectorAccept (s : State) : State :=
  if !s.mayAccept then s
  else
    match (hartsFrom s.vu.rr).findSome? fun h => (s.readyHead h).map fun e => (h, e) with
    | some (h, e) => s.accept h e
    | none => s

/-! ## Completion and retirement (R121, R131, R139) -/

/-- The oldest accepted instruction of a hart. -/
def State.oldest (s : State) (h : Hart) : Option Inflight := s.vu.inflight.find? fun f => f.hart == h

/-- Takes an instruction out of the vector unit. -/
def State.dropInflight (s : State) (f : Inflight) : State :=
  { s with vu := { s.vu with inflight := s.vu.inflight.erase f } }

/-- Puts an accepted instruction in the place of another. -/
def State.setInflight (s : State) (f g : Inflight) : State :=
  { s with vu := { s.vu with inflight := s.vu.inflight.map fun o => if o == f then g else o } }

/-- Records a fault at retirement (R131, R407). -/
def HartState.vfault (t : HartState) (pc : Word) (code : BitVec 4) : HartState :=
  let c := t.csr
  { t with csr := if c.vfV then { c with vfOvf := true } else { c with vfV := true, vfCode := code, vfpc := pc } }

/-- The Icefield words that an instruction reads, without the effects of reading them. -/
def State.peekWords (s : State) (f : Inflight) (x : XIn) : Store (BitVec 33) :=
  (s.readWords (Src.vector f.hart) (f.sb.getD 0) f.e.floe x.readWords).2

/-- What an effect writes in the step of completion: tiles, extents, predicate, statistic bank, quota (R121, R123, R126,
R139, R194). -/
def State.applyEffect (s : State) (f : Inflight) (e : XEffect) : State :=
  { s with tiles := e.tiles s.tiles }.modHart f.hart fun t =>
    let t := match e.pred with | some (p, v) => t.setPred p v | none => t
    { t with bank := ssetMany {} t.bank e.bank, csr := { t.csr with mquota := e.quota.getD t.csr.mquota } }

/-- What an effect leaves for retirement: flags are set by strict instructions alone (R94, R139). -/
def XEffect.result (e : XEffect) (strict : Bool) : XResult :=
  { sum := e.sum, flags := if strict then e.flags else {}, fault := e.fault }

/-- Gives a hart what its retiring instruction releases (R127, R131, R139). -/
def HartState.retire (t : HartState) (pc : Word) (r : XResult) : HartState :=
  let t := { t with summary := r.sum, retired := t.retired + 1, csr := { t.csr with vflags := t.csr.vflags.or r.flags } }
  match r.fault with | some c => t.vfault pc c | none => t

/-- Writes the Icefield words of an effect that lie in banks. -/
def State.writeMerged (s : State) (f : Fin 64) (ws : List IceWrite) : State :=
  ws.foldl (fun s w => s.writeResident f w.word w.data w.mark) s

/-- A recovery discards an accepted instruction: it writes nothing more and its entry is freed (R470, R471, R478). -/
def State.discard (s : State) (f : Inflight) : State :=
  let s := (s.advanceTo f.done).dropInflight f
  match f.sb with | some id => s.endAccess id | none => s

/-- Completes an instruction whose checks have passed: its results are written, and what its retirement releases is kept
(R139). When one of its own reads starts a recovery, the instruction is one that event 1 finds accepted and not retired,
and it is discarded (R306, R471). -/
def State.completeInflight (s : State) (f : Inflight) : State :=
  let s := s.advanceTo f.done
  let x := s.xinOf f
  let (s, mem) := s.readWords (Src.vector f.hart) (f.sb.getD 0) f.e.floe x.readWords
  if s.err.stat == .recovering then s.discard f
  else
    let e := x.effect mem
    let s := (s.writeMerged f.e.floe e.ice).countEvent 0x11
      (if x.adds then 0 else (e.ice.filter fun w => w.mask != 0xF).length)
    (s.applyEffect f e).setInflight f { f with result := some (e.result f.e.x.a.s) }

/-- Retires an instruction that has completed: its summary, flags, fault and scoreboard entry are released (R131, R139). -/
def State.retireInflight (s : State) (f : Inflight) (r : XResult) : State :=
  let s := ((s.noteVector f.hart f.e.x.op r.sum).modHart f.hart fun t => t.retire f.e.pc r).dropInflight f
  match f.sb with | some id => s.endAccess id | none => s

/-- Retires the completed instructions of a hart up to its first one that has not completed (R139). -/
def retireLeading (h : Hart) : List Inflight → State → State
  | [], s => s
  | f :: l, s =>
    if f.hart = h then
      match f.result with
      | some r => retireLeading h l (s.retireInflight f r)
      | none => s
    else retireLeading h l s

/-- What an accepted instruction waits for before it completes: VSYNC's condition (R182). -/
def State.vsyncWaits (s : State) (f : Inflight) : Bool :=
  match xkindOf f.e.x with
  | some (.vsync ice) =>
    (s.vu.inflight.head? != some f) || (ice && s.ice.sb.alloc.any fun a => f.waitFor.contains a.id)
  | _ => false

/-- An accepted instruction cannot complete yet: VSYNC's condition, Moraine lines of its access, or a word of a segment that
is reviving (R182, R363, R564). -/
def State.held (s : State) (f : Inflight) : Bool :=
  s.vsyncWaits f || (match f.sb with | some id => !s.morDone id | none => false) || s.revivingHolds (s.xinOf f)

/-- The instruction of a hart that completes next: of those that nothing holds, the one whose step of completion comes
first, the earlier-accepted one of two (R139). -/
def State.nextToComplete (s : State) (h : Hart) : Option Inflight :=
  (s.vu.inflight.filter fun f => f.hart == h && f.result.isNone && !f.withheld && !s.held f).foldl
    (fun b f => match b with | some g => if f.done < g.done then some f else some g | none => some f) none

/-- An instruction that delivers words through the lanes (R462). -/
def XIn.delivers (x : XIn) : Bool :=
  x.count != 0 && match x.k with
    | .setx | .vsync _ => false
    | .racc k => k != 0 && !x.rows.isEmpty
    | .plogic _ | .plt => true
    | _ => !x.rows.isEmpty

/-! ## Fence and replay (R463 to R467) -/

/-- FENCED (R424, R466): the physical group, the logical group and the new state. -/
def State.fencedReport (s : State) (g : Fin 17) (logical : BitVec 4) (st : BitVec 3) : State :=
  s.report 0xCA [BitVec.ofNat 32 g.val, logical.setWidth 32, st.setWidth 32]

/-- The STATE field of a lane group (R543). -/
def LaneState.bits : LaneState → BitVec 3
  | .active => 0 | .spare => 1 | .fenced => 2 | .testing => 3 | .retired => 4

/-- Fences a group; the third fence since reset retires it (R464, R466). `home` is the logical number that it may take
back after LANES (R465). -/
def State.fenceGroup (s : State) (g : Fin 17) (home : Option (BitVec 4)) : State :=
  let l := s.err.lanes.get g
  let n := min 255 (l.fences + 1)
  let st := if 3 ≤ n then LaneState.retired else .fenced
  (s.modLane g fun x => { x with state := st, fences := n, home := if st == .retired then none else home }).fencedReport
    g l.logical st.bits

/-- A residue failure of physical group `g` found when an instruction completes: its results are withheld. A group that
still serves is fenced, and the spare takes its place; a group whose fence has begun takes no further one, and the
instruction joins the replay; without a ready spare the instruction is discarded (R464, R466, R467). -/
def State.residueFailure (s : State) (f : Inflight) (g : Fin 17) : State :=
  let s := (s.advanceTo f.done).toggleObs 0x04
  let withhold := fun (s : State) => s.setInflight f { f with withheld := true }
  let l := s.err.lanes.get g
  if l.state != .active then withhold s
  else
    match s.readySpare with
    | some sp =>
      let s := s.fenceGroup g none
      let s := s.modLane sp fun x => { x with state := .active, logical := l.logical }
      let s := withhold s
      { s with vu := { s.vu with fence := some g, fenceAt := f.done, fenceUntil := f.done + 8 } }
    | none =>
      let s := s.uncorrectable 0x04 { src := 0, unit := BitVec.ofNat 6 g.val }
        (BitVec.ofNat 32 g.val) (l.logical.setWidth 32)
      let s := (s.fenceGroup g (some l.logical)).dropInflight f
      match f.sb with | some id => s.endAccess id | none => s

/-- The residue check of a physical group fails for an instruction: the group processed it, and the instruction delivers
words (R462, R464). -/
def State.residueFails (s : State) (f : Inflight) (g : Fin 17) : Bool := (s.xinOf f).delivers && f.groups.contains g

/-- A container that an instruction reads fails its check: the uncorrectable fault TILE, and the instruction is discarded
(R460, R462, R468). -/
def State.tileFault (s : State) (f : Inflight) (t : TileReg) (n : Nat) : State :=
  let s := (s.advanceTo f.done).uncorrectable 0x03 (Src.vector f.hart) (BitVec.ofNat 32 (t.val + 64 * n))
    (BitVec.ofNat 32 f.hart.val)
  s.discard f

/-- A bit of a tile container changes, if that is the error a command names: its parity or residue disagrees from then on
(R462). -/
def State.upset (s : State) (check : Option LaneCheck) : State :=
  match check with
  | some (.container t n) => s.modTile t fun x => { x with upset := sset false x.upset n.val true }
  | _ => s

/-- The group whose residue check fails, if that is the error a command names. -/
def residueOf (check : Option LaneCheck) : Option (Fin 17) :=
  match check with | some (.residue g) => some g | _ => none

/-- The instruction of a hart that INSTRUCTION_RETIRE acts on: in a recovery the oldest, else the next to complete. -/
def State.finishing (s : State) (h : Hart) : Option Inflight :=
  if s.err.stat == .recovering then s.oldest h else s.nextToComplete h

/-- The next instruction of a hart completes, and the hart's instructions retire as far as they have completed; `check`
names an error that the checks of R462 meet (R139, R462 to R467). A recovery discards the hart's instructions instead,
the oldest first (R471, R475). -/
def State.instructionRetire (s : State) (h : Hart) (check : Option LaneCheck) : State :=
  if !s.powered then s
  else
    let s := s.upset check
    match s.finishing h with
    | none => s
    | some f =>
      let fails := (residueOf check).filter (s.residueFails f)
      if s.err.stat == .recovering then
        match fails with
        | some g => if f.withheld || f.result.isSome then s.discard f else s.residueFailure f g
        | none => s.discard f
      else
        match (s.xinOf f).upsetRead, fails with
        | some (t, n), _ => s.tileFault f t n
        | none, some g => s.residueFailure f g
        | none, none => let s := s.completeInflight f; retireLeading h s.vu.inflight s

/-- Accepts withheld instructions again, in their order of acceptance, each with its occupancy and latency, on the groups
that now serve (R464). -/
def replayFrom (groups : List (Fin 17)) : Nat → List Inflight → List Inflight
  | _, [] => []
  | at', f :: r =>
    if f.withheld then
      let d := f.done + 1 - f.accepted - f.occ
      { f with withheld := false, accepted := at', done := at' + f.occ - 1 + d, groups } :: replayFrom groups (at' + f.occ) r
    else f :: replayFrom groups at' r

/-- The bond step that waits for its replay, counted (R464). -/
def State.bondReplays (s : State) : Nat :=
  match s.mortar.run with | some r => if r.replay || r.proReplay then 1 else 0 | none => 0

/-- After the fence, the withheld instructions are accepted again, and a withheld bond step may be taken again (R464). A
recovery discards them instead (R478). -/
def State.instructionReplay (s : State) : State :=
  let held := s.vu.inflight.filter (·.withheld)
  if (s.vu.fence.isNone && held.isEmpty) || !s.powered || s.err.stat != .running then s
  else
    let at' := s.nextFree
    let s := (s.occupy at' (held.map Inflight.occ).sum).countEvent 0x07 (held.length + s.bondReplays)
    let run := s.mortar.run.map fun r => { r with replay := false, proReplay := false }
    { s with mortar := { s.mortar with run }
             vu := { s.vu with fence := none, inflight := replayFrom s.activeGroups at' s.vu.inflight
                               replayUntil := at' + (held.dropLast.map Inflight.occ).sum } }.accepted held.length

/-- Issues the Moraine writes of an add whose reads have all arrived (R156, R362, R363). -/
def State.issueMorWrites (s : State) (f : Inflight) : State :=
  match f.sb with
  | none => s
  | some id =>
    let x := s.xinOf f
    if f.mor && !f.morIssued && x.k.icefieldWrites && s.morDone id then
      (s.setInflight f { f with morIssued := true }).morWrite id f.e.floe (x.effect (s.peekWords f x)).ice
    else s

/-- A Moraine line arrives or is acknowledged; an instruction that waited for it completes no earlier than its latency
after that (R362, R363). -/
def State.moraineLine (s : State) (res : LineResult) : State :=
  match s.ice.morLines with
  | [] => s
  | l :: _ =>
    let s := s.morLine res
    let s := s.forEach (s.vu.inflight.filter fun f => f.sb == some l.acc) State.issueMorWrites
    { s with vu := { s.vu with inflight := s.vu.inflight.map fun f =>
                                 if f.sb == some l.acc then
                                   { f with done := max f.done (s.cycle + (f.done + 1 - f.accepted - f.occ)) }
                                 else f } }

/-! ## Leases (R110 to R113, R244) -/

/-- An instruction that has passed decode and has not retired, or a running course, names a register (R112, R244). -/
def State.tileBusy (s : State) (t : TileReg) : Bool :=
  (s.vu.inflight.any fun f => f.e.tileUse.any fun u => u.1 == t) ||
    ((fins 16).any fun h => (s.hart h).vqueue.any fun e => e.tileUse.any fun u => u.1 == t) ||
    s.mortar.working.contains t

/-- Sets a lease. -/
def State.setLease (s : State) (q : LeaseReq) : State :=
  s.modTile q.tile fun t => { t with lease := q.mode, owner := q.hart }

/-- The MODE field of CE_TILE_LEASE (R110); none for the reserved code. -/
def leaseMode (b : BitVec 2) : Option LeaseMode :=
  if b = 0 then some .free else if b = 1 then some .exclusive else if b = 2 then some .shared else none

/-- A write of CE_TILE_LEASE by machine-mode code or the management processor: the change takes effect at once, or
waits for its register while a writing hart stalls (R112). -/
def State.leaseWrite (s : State) (r : Reader) (w : Word) : State :=
  if !s.mayWrite r then s
  else match leaseMode (w.extractLsb' 16 2) with
    | none => s
    | some mode =>
      let q : LeaseReq := { who := r, tile := (w.extractLsb' 0 6).toFin, hart := (w.extractLsb' 8 4).toFin, mode }
      if s.tileBusy q.tile || s.leaseQ.any fun p => p.tile == q.tile then
        let s := { s with leaseQ := s.leaseQ ++ [q] }
        match Reader.hart? r with
        | some h => s.modHart h fun t => { t with wait := .lease }
        | none => s
      else s.setLease q

/-- A write of CE_TILE_LEASE; `lost` are the harts that write it in the same step (R113, R431). -/
def State.tileLease (s : State) (r : Reader) (w : Word) (lost : List Hart) : State :=
  s.stateWrite s.mayWrite r lost fun s => s.leaseWrite r w

/-- The lease changes that wait for a register take effect, in the order of their writes, once nothing names it
(R112). -/
def State.leaseEffect (s : State) (t : TileReg) : State :=
  if s.tileBusy t then s
  else
    let mine := s.leaseQ.filter fun q => q.tile == t
    let s := s.forEach mine State.setLease
    let s := { s with leaseQ := s.leaseQ.filter fun q => q.tile != t }
    s.forEach mine fun s q =>
      match Reader.hart? q.who with
      | some h => (s.modHart h fun x => if x.wait == .lease then { x with wait := .run } else x).takeDeadlock h
      | none => s

end Sys2Proof.Machine
end

