-- ==== Sys2Proof/Machine/Icefield.lean ====
section
/-! DEFINITION. The commands of Icefield: floe commits and reads (R285 to R289, R522), melting and revival (R290 to
R292), scrubbing and write-backs (R306, R309), and row sparing in the field (R310 to R314, R559). -/

namespace Sys2Proof.Machine

/-! ## The checks of a commit (R285) -/

/-- Outcome codes of CE_ICE_FSTAT (R288, R523). -/
def fsDone : BitVec 4 := 0
/-- PREEMPTED. -/
def fsPreempted : BitVec 4 := 8
/-- PENDING. -/
def fsPending : BitVec 4 := 9
/-- REVIVE. -/
def fsRevive : BitVec 4 := 0xA

/-- Two half-open ranges of granules share one. -/
def granulesMeet (a n b m : Nat) : Bool := decide (a < b + m) && decide (b < a + n) && decide (0 < n) && decide (0 < m)

/-- RANGE. -/
def commitRange (c : EngineConfig) (resv : Bool) (e : FloeEntry) : Bool :=
  e.size == 0 || decide (65536 < e.wbase.toNat + e.size.toNat) ||
    decide (Config.granules c < e.pbase.toNat + e.res.toNat) || resv

/-- RESIDENT. -/
def commitResident (e : FloeEntry) : Bool :=
  decide (e.size.toNat < e.res.toNat) || (decide (e.res.toNat < e.size.toNat) && !e.mor) ||
    (e.res == 0 && (e.state == .live || e.state == .permafrost))

/-- OVERLAP with another used floe. -/
def commitOverlap (e g : FloeEntry) : Bool :=
  granulesMeet e.wbase.toNat e.size.toNat g.wbase.toNat g.size.toNat ||
    granulesMeet e.pbase.toNat e.res.toNat g.pbase.toNat g.res.toNat

/-- PHASE. -/
def commitPhase (e : FloeEntry) : Bool := decide (e.wbase.toNat % 256 ≠ e.pbase.toNat % 256)

/-- SEGMENT, against another used floe. -/
def segmentClash (e g : FloeEntry) : Bool := (e.segs.any fun a => g.segs.contains a) && g.state != e.state

/-- SEGMENT. -/
def commitSegment (e : FloeEntry) (others : List FloeEntry) : Bool :=
  ((e.state == .permafrost || e.state == .melted) &&
    (decide (e.pbase.toNat % 256 ≠ 0) || decide (e.res.toNat % 256 ≠ 0))) || others.any (segmentClash e)

/-- MORAINE. -/
def commitMoraine (e : FloeEntry) : Bool := e.mor && (e.mbase.extractLsb' 0 12 != 0 || e.state == .melted)

/-- The code of the first check that refuses a staged entry; none when the commit is accepted (R285). -/
def State.commitCheck (s : State) (f : Fin 64) (resv : Bool) (e : FloeEntry) : Option (BitVec 4) :=
  let others := ((fins 64).filter fun i => i != f && (s.floe i).used).map s.floe
  let busy := if s.ice.commit.isSome then some 7 else none
  if e.state == .unused then busy
  else if commitRange s.cfg resv e then some 1
  else if commitResident e then some 2
  else if others.any (commitOverlap e) then some 3
  else if commitPhase e then some 4
  else if commitSegment e others then some 5
  else if commitMoraine e then some 6
  else busy

/-! ## Accepting a commit (R285, R286) -/

/-- The ranges of a commit: the old window and the new one, where they exist. -/
def State.commitRanges (s : State) (c : Commit) : List Range :=
  ([s.floe c.floe, c.entry].filter (·.used)).map fun e =>
    { lo := e.window.1, hi := e.window.2 - 1, write := true }

/-- What an accepted commit waits for before it presents its ranges: a sparing of a row of its resident range, and, for
the first MOR = 1, the accesses that hold Firn entries 56 to 63 (R286, R289, R303). -/
def State.commitWaits (s : State) (c : Commit) : Bool :=
  (c.entry.used && s.ice.sparing.any fun q => c.entry.meetsRow s.cfg q.2) ||
    (c.entry.used && c.entry.mor && !s.anyMor && (fins 64).any fun i => decide (56 ≤ i.val) && (s.ice.firn.get i).isSome)

/-- An accepted commit presents its ranges once nothing holds it back (R286). -/
def State.presentCommit (s : State) : State :=
  match s.ice.commit with
  | some c =>
    if c.sb.isSome || s.commitWaits c then s
    else
      let (s, id) := s.present .commit (s.commitRanges c)
      { s with ice := { s.ice with commit := some { c with sb := some id } } }
  | none => s

/-- Checks a staged entry and accepts or refuses the commit: the outcome code goes to the reader's view. -/
def State.commitFloe (s : State) (r : Reader) (f : Fin 64) (w : Vector Word 8) (order : Option Nat) :
    State × BitVec 4 :=
  let e := FloeEntry.ofWords w
  match s.commitCheck f (floeReserved w) e with
  | some code => (s.setFstat r code, code)
  | none =>
    let s := s.setFstat r fsPending
    (({ s with ice := { s.ice with commit := some { floe := f, entry := e, who := r, order } } }).presentCommit, fsPending)

/-! ## The end of a commit (R286, R288, R292) -/

/-- A weight push whose floe has lost its tag starts its drift from chip memory (R294); BUSY when its channel is in
use. -/
def State.pushStart (s : State) (o : OpenOrder) : State :=
  match o.chans with
  | [] => s.endOrder o 7 []
  | c :: _ =>
    if (s.chan c).state == 1 || (s.chan c).state == 4 || (s.chan c).state == 5 then s.endOrder o 7 []
    else s.startChain c false (o.list.toNat / 64 * 64) {} none (some o.id)

/-- The order that asked for a commit goes on with its outcome (R294, R423): FLOE_SET is replied to, a weight push
starts its drift after its first commit and is replied to after its second. During a recovery no order goes on (R473). -/
def State.replyCommit (s : State) (order : Option Nat) (code : BitVec 4) : State :=
  match if s.err.stat == .recovering then none else order with
  | none => s
  | some n =>
    match s.orderOf n with
    | none => s
    | some o =>
      let ok := code == fsDone || code == fsRevive
      if o.op = 0x21 && ok then
        if o.phase = 1 then s.pushStart o else s.endOrder o (if o.marked then 1 else 0) []
      else s.endOrder o (if code = 7 then 7 else if ok then 0 else 5) [code.setWidth 32]

/-- A request that runs reads the floes of a weight epoch: an order that is open, or a call (R31, R32). -/
def State.epochRead (s : State) (e : BitVec 16) : Bool :=
  e != 0xFFFF && (s.hods.openOrders.any (fun o => o.reads == e) || s.hods.calls.any fun c => c.reads == e)

/-- The commits of a weight push (R294): in phase 0 the floe loses its tag, in phase 2 it takes the new one. -/
def State.pushCommit (s : State) (o : OpenOrder) : State :=
  let tag := if o.phase = 0 then 0xFFFF else o.wepoch
  let (s, code) := (s.modOrder o.id fun p => { p with phase := p.phase + 1 }).commitFloe (Hart.reader 0) o.floe
    ({ s.floe o.floe with wepoch := tag } : FloeEntry).toWords (some o.id)
  if code = fsPending then s else s.replyCommit (some o.id) code

/-- A weight push may commit: it has loaded its floe, or no request that runs reads the floe (R32, R294). -/
def State.mayPush (s : State) (o : OpenOrder) : Bool :=
  o.op == 0x21 && (o.phase == 2 || (o.phase == 0 && !s.epochRead (s.floe o.floe).wepoch))

/-- The first weight push that waits for its commit makes it, when no commit runs (R294). -/
def State.retryPush (s : State) : State :=
  if s.ice.commit.isSome || s.err.stat == .recovering then s
  else match s.hods.openOrders.find? s.mayPush with
    | none => s
    | some o => s.pushCommit o

/-- The running commit retires: its entries are freed and its reader reads DONE or REVIVE, unless that reader has written
CE_ICE_FCMD again since and reads the outcome of the later write (R288). -/
def State.retireCommit (s : State) : State :=
  match s.ice.commit with
  | none => s
  | some c =>
    let code := if c.revived then fsDone else fsRevive
    let s := match c.sb with | some id => s.release id | none => s
    let s : State := { s with ice := { s.ice with commit := none, revival := none } }
    let s := if s.ice.fstat.get c.who == fsPending then s.setFstat c.who code else s
    (s.replyCommit c.order code).retryPush

/-- The revival goes on to its next segment; after the last one the commit retires. -/
def State.nextRevival (s : State) (r : Revival) : State :=
  match r.segs.drop 1 with
  | [] => s.retireCommit
  | l => { s with ice := { s.ice with revival := some { r with segs := l, ramped := r.ramped - 1, tested := false } } }

/-- Sets the state of a segment. -/
def State.setSeg (s : State) (g : Fin 64) (t : SegState) : State :=
  { s with ice := { s.ice with segs := vset s.ice.segs g t } }

/-- The segment state that a floe state stands for. -/
def FloeState.seg : FloeState → SegState
  | .permafrost => .permafrost
  | .melted => .melted
  | _ => .live

/-- The segments of an entry's range take its state: melted ones that must come up are revived, others that must melt
lose their power later (R290, R291). -/
def State.enterSegments (s : State) (e : FloeEntry) : State :=
  let segs := e.segs.filter s.hasSeg
  let melted := segs.filter fun g => s.ice.segs.get g == .melted
  if e.state == .melted then
    let down := segs.filter fun g => s.ice.segs.get g != SegState.melted
    let s := { s with ice := { s.ice with meltQ := s.ice.meltQ ++ down } }
    s.forEach segs fun s g => s.setSeg g .melted
  else
    let s := s.forEach segs fun s g => s.setSeg g (if melted.contains g then .reviving else e.state.seg)
    if melted.isEmpty then s
    else { s with ice := { s.ice with revival := some { segs := melted, target := e.state.seg }
                                      meltQ := s.ice.meltQ.filter fun g => !melted.contains g } }

/-- The commit takes effect in the step in which its ranges are allocated (R286, R290). -/
def State.commitEffect (s : State) : State :=
  let s := s.presentCommit
  match s.ice.commit with
  | none => s
  | some c =>
    match c.sb with
    | none => s
    | some id =>
      if !s.ice.sb.ready id then s
      else
        let s := s.allocate id
        let s := { s with ice := { s.ice with floes := vset s.ice.floes c.floe c.entry } }
        let s := if c.entry.used then s.enterSegments c.entry else s
        if s.ice.revival.isNone then s.retireCommit else s

/-! ## Power of segments (R291, R292, R311) -/

/-- Whether a cell belongs to the levels of a segment, directly or through a spare row (R311). -/
def State.cellInSeg (s : State) (g : Fin 64) (cell : Nat) : Bool :=
  let bank := cell / bankCells s.cfg
  let off := cell % bankCells s.cfg
  let q := if off < Config.levels s.cfg then off
    else
      let e := s.spare bank ((off - Config.levels s.cfg) / 16)
      if e.used && !e.bad then 16 * e.row.toNat else Config.levels s.cfg
  decide (q < Config.levels s.cfg) && segOfLevel s.cfg q == g

/-- Every word of a segment becomes zero with valid check symbols. -/
def State.zeroSegment (s : State) (g : Fin 64) : State :=
  { s with ice := { s.ice with cells := s.ice.cells.filter fun c => !s.cellInSeg g c.1
                               writebacks := s.ice.writebacks.filter fun c => !s.cellInSeg g c.1 } }

/-- A segment committed melted loses its power and its contents (R291, R317). -/
def State.segmentMelt (s : State) (g : Fin 64) : State :=
  if s.ice.meltQ.contains g then
    ({ s with ice := { s.ice with meltQ := s.ice.meltQ.filter fun h => h != g } }).zeroSegment g
  else s

/-- The next batch of up to eight segments ends its ramp (R292). -/
def State.rampEnd (s : State) : State :=
  match s.ice.revival with
  | some r => { s with ice := { s.ice with revival := some { r with ramped := min r.segs.length (r.ramped + 8) } } }
  | none => s

/-- SPARE (R424, R313). -/
def State.spareReport (s : State) (bank row n : Nat) : State :=
  s.report 0xC2 [BitVec.ofNat 32 bank, BitVec.ofNat 32 row, BitVec.ofNat 32 n]

/-- Marks the spare row that serves an array row BAD (R559). -/
def State.dropSpare (s : State) (bank row : Nat) : State :=
  match s.sparedBy bank row with
  | some n => s.setSpare bank n { row := BitVec.ofNat 10 row, used := false, bad := true }
  | none => s

/-- Gives an array row a new spare row without a copy, as before a fill; none when its bank has none left (R292,
R485). The spare row that served it becomes BAD. -/
def State.spareBlank (s : State) (bank row : Nat) : Option (State × Nat) :=
  (s.freeSpare bank).map fun n =>
    (((s.dropSpare bank row).setSpare bank n { row := BitVec.ofNat 10 row, used := true }).unlogRow bank row, n)

/-- Marks spare rows that failed a self-test BAD; the array rows that used ones served. -/
def State.badSpares (s : State) : List (Nat × Nat) → State × List (Nat × Nat)
  | [] => (s, [])
  | (bank, n) :: r =>
    let e := s.spare bank n
    let (s, l) := (s.setSpare bank n { e with used := false, bad := true }).badSpares r
    (s, if e.used && !e.bad then (bank, e.row.toNat) :: l else l)

/-- Spares the failing rows of a segment under revival; whether each found a spare row. -/
def State.spareFailing (s : State) : List (Nat × Nat) → State × Bool
  | [] => (s, true)
  | (bank, row) :: r =>
    match s.spareBlank bank row with
    | some (s', n) => (s'.spareReport bank row n).spareFailing r
    | none => let (s', _) := (s.spareOut bank row).spareFailing r; (s', false)

/-- The segment under test ends its self-test (R292): failing rows are spared, or the segment stays melted. -/
def State.selftestEnd (s : State) (failed bad : List (Nat × Nat)) : State :=
  match s.ice.revival with
  | none => s
  | some r =>
    match r.segs with
    | [] => s
    | g :: _ =>
      if r.ramped = 0 || r.tested then s
      else
        let here := fun (q : Nat × Nat) => segOfLevel s.cfg (16 * q.2) == g
        let (s, moved) := s.badSpares bad
        let rows := (failed.filter here ++ moved).eraseDups
        let (s, ok) := s.spareFailing rows
        if ok then { s with ice := { s.ice with revival := some { r with tested := true } } }
        else
          let commit := s.ice.commit.map fun c => { c with revived := false }
          (({ s with ice := { s.ice with commit } }).setSeg g .melted).nextRevival r

/-- The segment under test ends its fill and takes its state (R292). -/
def State.fillEnd (s : State) : State :=
  match s.ice.revival with
  | none => s
  | some r =>
    match r.segs with
    | [] => s
    | g :: _ =>
      if r.tested then ((s.zeroSegment g).setSeg g r.target).nextRevival { r with filled := r.filled ++ [g] } else s

/-! ## Scrubbing and write-backs (R306, R309) -/

/-- A level that the scrubber visits: neither melted nor reviving (R309). -/
def State.scrubs (s : State) (q : Nat) : Bool :=
  match s.ice.segs.get (segOfLevel s.cfg q) with
  | .live | .permafrost => true
  | _ => false

/-- The next level that the scrubber visits. -/
def State.scrubNext (s : State) : Option Nat :=
  let n := Config.levels s.cfg
  ((List.range n).map fun i => (s.ice.scrubLevel + i) % n).find? s.scrubs

/-- The scrubber reads one level of every bank and writes back what R306 corrects or poisons (R309). A bank whose word
is zero with valid check symbols is clean. The written period comes into force with the visit; a scrubber that has stopped
starts again with a period that is not 0 (R527; DEDUCED, log entry 185). -/
def State.scrubVisit (s : State) : State :=
  if (s.ice.scrubInForce = 0 && s.ice.scrubPeriod = 0) || !s.powered then s
  else
    let s := { s with ice := { s.ice with scrubInForce := s.ice.scrubPeriod } }
    match s.scrubNext with
    | none => s
    | some q =>
      let banks := (List.range (Config.banks s.cfg)).filter fun b => s.codewordAt b q != 0
      let s := (s.toggleObs 0x74).forEach banks fun s b => (s.readLevel .scrubber b q true).1
      { s with ice := { s.ice with scrubLevel := (q + 1) % Config.levels s.cfg } }

/-- The oldest corrected word is written back (R306). -/
def State.writeback (s : State) : State :=
  match s.ice.writebacks with
  | [] => s
  | (cell, c) :: _ => s.setCell cell c

/-! ## Row sparing (R313, R559) -/

/-- Copies the 16 words of an array row into a spare row, corrected, with marks and poison kept (event 2). -/
def State.copyRow (s : State) (bank row n : Nat) : State :=
  s.forEach (List.range 16) fun s c =>
    let s := (s.readLevel .control bank (16 * row + c) true).1
    s.setCell (spareCell s.cfg bank n c) (s.codewordAt bank (16 * row + c))

/-- The access of a lock. -/
def State.lockOf (s : State) (bank row : Nat) : Option Access :=
  s.ice.sb.alloc.find? fun a => a.who == .sparing bank row

/-- Events 2 to 5 of a sparing. -/
def State.spareRow (s : State) (bank row : Nat) : State :=
  match s.freeSpare bank with
  | none => s.spareOut bank row
  | some n =>
    let s := s.copyRow bank row n
    let s := (s.dropSpare bank row).setSpare bank n { row := BitVec.ofNat 10 row, used := true }
    (s.unlogRow bank row).spareReport bank row n

/-- The oldest sparing whose lock is allocated runs, and its lock retires (R313). -/
def State.fieldSparing (s : State) : State :=
  match s.ice.sparing.find? fun q => (s.lockOf q.1 q.2).isSome with
  | none => s
  | some (bank, row) =>
    let s := s.spareRow bank row
    let s := match s.lockOf bank row with | some a => s.release a.id | none => s
    ({ s with ice := { s.ice with sparing := s.ice.sparing.filter fun q => q != (bank, row) } }).presentCommit

/-! ## The commands -/

/-- A write of CE_ICE_FCMD: of the writes of one step the one with priority is taken, and the other readers read PREEMPTED
(R288, R431). -/
def State.fcmdWrite (s : State) (r : Reader) (others : List Reader) (f : State → State) : State :=
  if !s.mayWrite r then s
  else if s.takes r others then f (s.forEach (s.losers r others) fun s q => s.setFstat q fsPreempted)
  else s.setFstat r fsPreempted

/-- OP = 0 of CE_ICE_FCMD (R285). -/
def State.floeCommit (s : State) (r : Reader) (f : Fin 64) : State := (s.commitFloe r f (s.ice.fstage.get r) none).1

/-- OP = 1 of CE_ICE_FCMD: the entry goes to the reader's staging registers (R522). -/
def State.floeRead (s : State) (r : Reader) (f : Fin 64) : State :=
  let s := s.setFstat r fsDone
  { s with ice := { s.ice with fstage := vset s.ice.fstage r (s.floe f).toWords } }

/-- FLOE_COMMIT (R285): `lost` are the other readers that write CE_ICE_FCMD in the same step. -/
def execFloeCommit (r : Reader) (f : Fin 64) (lost : List Reader) (s : State) : Host.Outcome State Fault Refusal :=
  .next (if s.powered then s.fcmdWrite r lost fun s => s.floeCommit r f else s)

/-- FLOE_READ (R522): `lost` as for FLOE_COMMIT. -/
def execFloeRead (r : Reader) (f : Fin 64) (lost : List Reader) (s : State) : Host.Outcome State Fault Refusal :=
  .next (if s.powered then s.fcmdWrite r lost fun s => s.floeRead r f else s)

/-- FLOE_COMMIT_EFFECT (R286). -/
def execFloeCommitEffect (s : State) : Host.Outcome State Fault Refusal := .next (if s.powered then s.commitEffect else s)

/-- SEGMENT_MELT (R291). -/
def execSegmentMelt (seg : Fin 64) (s : State) : Host.Outcome State Fault Refusal :=
  .next (if s.powered then s.segmentMelt seg else s)

/-- REVIVAL_RAMP_END (R292). -/
def execRevivalRampEnd (s : State) : Host.Outcome State Fault Refusal := .next (if s.powered then s.rampEnd else s)

/-- SEGMENT_SELFTEST_END (R292). -/
def execSegmentSelftestEnd (failed badSpares : List (Nat × Nat)) (s : State) : Host.Outcome State Fault Refusal :=
  .next (if s.powered then s.selftestEnd failed badSpares else s)

/-- SEGMENT_FILL_END (R292). -/
def execSegmentFillEnd (s : State) : Host.Outcome State Fault Refusal := .next (if s.powered then s.fillEnd else s)

/-- SCRUB_VISIT (R309). -/
def execScrubVisit (s : State) : Host.Outcome State Fault Refusal := .next (if s.powered then s.scrubVisit else s)

/-- CORRECTED_WRITEBACK (R306). -/
def execCorrectedWriteback (s : State) : Host.Outcome State Fault Refusal := .next (if s.powered then s.writeback else s)

/-- FIELD_SPARING (R313). -/
def execFieldSparing (s : State) : Host.Outcome State Fault Refusal := .next (if s.powered then s.fieldSparing else s)

end Sys2Proof.Machine
end

