-- ==== Sys2Proof/Machine/Extension.lean ====
section
/-! DEFINITION. The image of an extension: its header (R413), its place in the local store (R405, R414), and its way from
the staging floe to the security engine (R414). -/

namespace Sys2Proof.Machine

/-- The header of an extension image. -/
structure ExtHeader where
  id : BitVec 16
  code : Nat
  data : Nat
  bss : Nat
  entry : Nat
  nharts : Nat
  ntiles : Nat
  nch : Nat
  caps : BitVec 5
  bad : Bool

/-- Reads the header of an image and checks it (R413). -/
def extHeader (ws : List Word) : ExtHeader :=
  let w := fun n => ws.getD n 0
  let code := ((w 2).extractLsb' 0 18).toNat
  let data := ((w 3).extractLsb' 0 18).toNat
  let bss := ((w 4).extractLsb' 0 18).toNat
  let entry := ((w 5).extractLsb' 0 18).toNat
  let id := (w 1).extractLsb' 16 16
  let nh := ((w 6).extractLsb' 0 4).toNat
  let sig := ((w 8).extractLsb' 0 16).toNat
  { id, code, data, bss, entry, nharts := nh, ntiles := ((w 6).extractLsb' 4 8).toNat
    nch := ((w 6).extractLsb' 12 6).toNat, caps := (w 7).extractLsb' 0 5
    bad := w 0 != 0x4B535845 || (w 1).extractLsb' 0 8 != 1 || (w 1).extractLsb' 8 8 != 1 || id == 0 || id == 0xFFFF ||
      code % 4 != 0 || data % 4 != 0 || bss % 4 != 0 || decide (code ≤ entry) || nh == 0 ||
      (w 6).extractLsb' 18 14 != 0 || (w 7).extractLsb' 5 27 != 0 ||
      ((List.range 7).any fun i => w (9 + i) != 0) || decide (ws.length < 16 + code / 4 + data / 4 + (sig + 3) / 4) }

/-- Bytes that an extension occupies in the local store. -/
def Extension.size (e : Extension) : Nat := e.codeLen + e.dataLen

/-- The first 4 KiB boundary of the extension region where some bytes fit (R405, R414). -/
def State.extPlace (s : State) (size : Nat) : Option Nat :=
  ((List.range 64).map fun i => 0x40000 + 0x1000 * i).find? fun a =>
    decide (a + size ≤ 0x80000) &&
      s.hods.exts.all fun e => decide (a + size ≤ e.codeAddr) || decide (e.codeAddr + e.size ≤ a)

/-- Fabric lines that an image of some words fills. -/
def imageLines (words : Nat) : Nat := (words + 15) / 16

/-- Firmware may stage an image of some words in a floe: its first words are resident. -/
def State.mayStage (s : State) (f : Fin 64) (words : Nat) : Bool :=
  (s.floe f).used && decide (16 * imageLines words ≤ (s.floe f).res.toNat * 1024)

/-- The window words of an image in its staging floe. -/
def State.imageWords (s : State) (o : OpenOrder) : List Nat :=
  (List.range o.image).map ((s.floe o.floe).window.1 + ·)

/-- The image has been copied into its staging floe: hart 0, which serves the hods, presents the range of its words (R24,
R414). DEDUCED, log entry 188. -/
def State.stageImage (s : State) (o : OpenOrder) : State :=
  let base := (s.floe o.floe).window.1
  let (s, id) := s.present (.scalar 0) [{ lo := base, hi := base + o.image - 1, write := false }]
  s.modOrder o.id fun p => { p with imageSb := some id }

/-- Hart 0 reads the staged image once its access is allocated: its header is checked, and it goes to the security engine
(R414, steps 1 and 2). -/
def State.takeImage (s : State) (o : OpenOrder) (acc : Nat) : State :=
  let base := (s.floe o.floe).window.1
  let (s, m) := s.readWords (Src.hart 0) acc o.floe (s.imageWords o)
  let s := s.endAccess acc
  if s.err.stat == .recovering then s
  else
    let image := (List.range o.image).map fun i => contData (sget 0 m (base + i))
    let h := extHeader image
    let size := h.code + h.data + h.bss
    if h.bad || s.hods.exts.any fun e => e.id == h.id then s.endOrder o 5 []
    else if 8 ≤ s.hods.exts.length || 0x40000 < (s.hods.exts.map Extension.size).sum + size ||
        (s.extPlace size).isNone then s.endOrder o 7 []
    else { s with hods := { s.hods with verifying := some (o.id, image) } }

/-- The order whose image an access of firmware reads. -/
def State.imageOf (s : State) (id : Nat) : Option OpenOrder := s.hods.openOrders.find? fun o => o.imageSb == some id

/-- The allocated access of hart 0 for an image completes: it is held while a word of it revives; words that a commit or a
revival has taken away since raise the access fault of R402, and the order ends with BOUND (R24, R402, R564). In a recovery
it only ends. -/
def State.imageRetire (s : State) (o : OpenOrder) (id : Nat) : State :=
  let ws := s.imageWords o
  if s.err.stat == .recovering then s.endAccess id
  else if ws.any (s.wordReviving o.floe) then s
  else if ws.any fun w => (s.wordBad o.floe w).isSome then (s.endAccess id).endOrder o 0x0C []
  else s.takeImage o id

end Sys2Proof.Machine
end

