-- ==== Sys2Proof/Machine/Xcommand.lean ====
section
/-! DEFINITION. The commands that issue an Xcalad instruction, one for each row of the opcode table (R141, R556), and
those of the vector unit and of the tile leases. What an issued instruction does is the effect of
`Machine/Xice.lean`, given at its retirement. -/

namespace Sys2Proof.Machine

/-- MOV (R146): OP 0x01, FN 0. -/
def execMov (h : Hart) (x : XArgs) (s : State) : Host.Outcome State Fault Refusal :=
  .next (s.issue h { op := 0x01, fn := 0, a := x })

/-- MOV_X (R147): OP 0x02, FN 0. -/
def execMovX (h : Hart) (x : XArgs) (s : State) : Host.Outcome State Fault Refusal :=
  .next (s.issue h { op := 0x02, fn := 0, a := x })

/-- IOTA_X (R148): OP 0x03, FN 0. -/
def execIotaX (h : Hart) (x : XArgs) (s : State) : Host.Outcome State Fault Refusal :=
  .next (s.issue h { op := 0x03, fn := 0, a := x })

/-- SETX_X (R149): OP 0x04, FN 0. -/
def execSetxX (h : Hart) (x : XArgs) (s : State) : Host.Outcome State Fault Refusal :=
  .next (s.issue h { op := 0x04, fn := 0, a := x })

/-- LD_X (R153): OP 0x05, FN 0. -/
def execLdX (h : Hart) (x : XArgs) (s : State) : Host.Outcome State Fault Refusal :=
  .next (s.issue h { op := 0x05, fn := 0, a := x })

/-- ST_X (R154): OP 0x06, FN 0. -/
def execStX (h : Hart) (x : XArgs) (s : State) : Host.Outcome State Fault Refusal :=
  .next (s.issue h { op := 0x06, fn := 0, a := x })

/-- ST_X_ADD (R156): OP 0x06, FN 1. -/
def execStXAdd (h : Hart) (x : XArgs) (s : State) : Host.Outcome State Fault Refusal :=
  .next (s.issue h { op := 0x06, fn := 1, a := x })

/-- ARITH_ADD (R160): OP 0x07, FN 0. -/
def execArithAdd (h : Hart) (x : XArgs) (s : State) : Host.Outcome State Fault Refusal :=
  .next (s.issue h { op := 0x07, fn := 0, a := x })

/-- ARITH_SUB (R160): OP 0x07, FN 1. -/
def execArithSub (h : Hart) (x : XArgs) (s : State) : Host.Outcome State Fault Refusal :=
  .next (s.issue h { op := 0x07, fn := 1, a := x })

/-- ARITH_MUL (R160): OP 0x07, FN 2. -/
def execArithMul (h : Hart) (x : XArgs) (s : State) : Host.Outcome State Fault Refusal :=
  .next (s.issue h { op := 0x07, fn := 2, a := x })

/-- ARITH_ABS (R161): OP 0x07, FN 3. -/
def execArithAbs (h : Hart) (x : XArgs) (s : State) : Host.Outcome State Fault Refusal :=
  .next (s.issue h { op := 0x07, fn := 3, a := x })

/-- ARITH_NEG (R161): OP 0x07, FN 4. -/
def execArithNeg (h : Hart) (x : XArgs) (s : State) : Host.Outcome State Fault Refusal :=
  .next (s.issue h { op := 0x07, fn := 4, a := x })

/-- ARITH_FMS (R160): OP 0x07, FN 6. -/
def execArithFms (h : Hart) (x : XArgs) (s : State) : Host.Outcome State Fault Refusal :=
  .next (s.issue h { op := 0x07, fn := 6, a := x })

/-- ARITH_FMA (R160): OP 0x07, FN 7. -/
def execArithFma (h : Hart) (x : XArgs) (s : State) : Host.Outcome State Fault Refusal :=
  .next (s.issue h { op := 0x07, fn := 7, a := x })

/-- ARITH_X (R160): OP 0x08, the form in FN. -/
def execArithX (h : Hart) (fn : BitVec 3) (x : XArgs) (s : State) : Host.Outcome State Fault Refusal :=
  .next (s.issue h { op := 0x08, fn, a := x })

/-- MAXMIN_MAX (R162): OP 0x09, FN 0. -/
def execMaxminMax (h : Hart) (x : XArgs) (s : State) : Host.Outcome State Fault Refusal :=
  .next (s.issue h { op := 0x09, fn := 0, a := x })

/-- MAXMIN_MIN (R162): OP 0x09, FN 1. -/
def execMaxminMin (h : Hart) (x : XArgs) (s : State) : Host.Outcome State Fault Refusal :=
  .next (s.issue h { op := 0x09, fn := 1, a := x })

/-- MAXMIN_X (R162): OP 0x0A, the form in FN. -/
def execMaxminX (h : Hart) (fn : BitVec 3) (x : XArgs) (s : State) : Host.Outcome State Fault Refusal :=
  .next (s.issue h { op := 0x0A, fn, a := x })

/-- CVT (R159): OP 0x0B, FN 0. -/
def execCvt (h : Hart) (x : XArgs) (s : State) : Host.Outcome State Fault Refusal :=
  .next (s.issue h { op := 0x0B, fn := 0, a := x })

/-- SFU_EXP2 (R163): OP 0x0C, FN 0. -/
def execSfuExp2 (h : Hart) (x : XArgs) (s : State) : Host.Outcome State Fault Refusal :=
  .next (s.issue h { op := 0x0C, fn := 0, a := x })

/-- SFU_LOG2 (R163): OP 0x0C, FN 1. -/
def execSfuLog2 (h : Hart) (x : XArgs) (s : State) : Host.Outcome State Fault Refusal :=
  .next (s.issue h { op := 0x0C, fn := 1, a := x })

/-- SFU_RCP (R163): OP 0x0C, FN 2. -/
def execSfuRcp (h : Hart) (x : XArgs) (s : State) : Host.Outcome State Fault Refusal :=
  .next (s.issue h { op := 0x0C, fn := 2, a := x })

/-- SFU_RSQ (R163): OP 0x0C, FN 3. -/
def execSfuRsq (h : Hart) (x : XArgs) (s : State) : Host.Outcome State Fault Refusal :=
  .next (s.issue h { op := 0x0C, fn := 3, a := x })

/-- SFU_TANH (R163): OP 0x0C, FN 4. -/
def execSfuTanh (h : Hart) (x : XArgs) (s : State) : Host.Outcome State Fault Refusal :=
  .next (s.issue h { op := 0x0C, fn := 4, a := x })

/-- SFU_LOGISTIC (R163): OP 0x0C, FN 5. -/
def execSfuLogistic (h : Hart) (x : XArgs) (s : State) : Host.Outcome State Fault Refusal :=
  .next (s.issue h { op := 0x0C, fn := 5, a := x })

/-- SFU_ERF (R163): OP 0x0C, FN 6. -/
def execSfuErf (h : Hart) (x : XArgs) (s : State) : Host.Outcome State Fault Refusal :=
  .next (s.issue h { op := 0x0C, fn := 6, a := x })

/-- SFU_EXP (R163): OP 0x0C, FN 7. -/
def execSfuExp (h : Hart) (x : XArgs) (s : State) : Host.Outcome State Fault Refusal :=
  .next (s.issue h { op := 0x0C, fn := 7, a := x })

/-- CMP (R164): OP 0x0D, the form in FN. -/
def execCmp (h : Hart) (fn : BitVec 3) (x : XArgs) (s : State) : Host.Outcome State Fault Refusal :=
  .next (s.issue h { op := 0x0D, fn, a := x })

/-- CMP_X (R164): OP 0x0E, the form in FN. -/
def execCmpX (h : Hart) (fn : BitVec 3) (x : XArgs) (s : State) : Host.Outcome State Fault Refusal :=
  .next (s.issue h { op := 0x0E, fn, a := x })

/-- PANY (R165): OP 0x0F, FN 0. -/
def execPany (h : Hart) (x : XArgs) (s : State) : Host.Outcome State Fault Refusal :=
  .next (s.issue h { op := 0x0F, fn := 0, a := x })

/-- PALL (R165): OP 0x0F, FN 1. -/
def execPall (h : Hart) (x : XArgs) (s : State) : Host.Outcome State Fault Refusal :=
  .next (s.issue h { op := 0x0F, fn := 1, a := x })

/-- PAND (R165): OP 0x0F, FN 2. -/
def execPand (h : Hart) (x : XArgs) (s : State) : Host.Outcome State Fault Refusal :=
  .next (s.issue h { op := 0x0F, fn := 2, a := x })

/-- POR (R165): OP 0x0F, FN 3. -/
def execPor (h : Hart) (x : XArgs) (s : State) : Host.Outcome State Fault Refusal :=
  .next (s.issue h { op := 0x0F, fn := 3, a := x })

/-- PANDN (R165): OP 0x0F, FN 4. -/
def execPandn (h : Hart) (x : XArgs) (s : State) : Host.Outcome State Fault Refusal :=
  .next (s.issue h { op := 0x0F, fn := 4, a := x })

/-- PXOR (R165): OP 0x0F, FN 5. -/
def execPxor (h : Hart) (x : XArgs) (s : State) : Host.Outcome State Fault Refusal :=
  .next (s.issue h { op := 0x0F, fn := 5, a := x })

/-- PLT_X (R165): OP 0x0F, FN 6. -/
def execPltX (h : Hart) (x : XArgs) (s : State) : Host.Outcome State Fault Refusal :=
  .next (s.issue h { op := 0x0F, fn := 6, a := x })

/-- RSUM (R167): OP 0x10, the form in FN. -/
def execRsum (h : Hart) (fn : BitVec 3) (x : XArgs) (s : State) : Host.Outcome State Fault Refusal :=
  .next (s.issue h { op := 0x10, fn, a := x })

/-- RMAX (R167): OP 0x11, the form in FN. -/
def execRmax (h : Hart) (fn : BitVec 3) (x : XArgs) (s : State) : Host.Outcome State Fault Refusal :=
  .next (s.issue h { op := 0x11, fn, a := x })

/-- SEGMENTED_REDUCE (R169): OP 0x10 (RSUM) or 0x11 (RMAX) on the segmented axis; `alt` is FN[2]. -/
def execSegmentedReduce (h : Hart) (max alt : Bool) (x : XArgs) (s : State) : Host.Outcome State Fault Refusal :=
  .next (s.issue h { op := if max then 0x11 else 0x10, fn := BitVec.ofBool alt ++ (3 : BitVec 2), a := x })

/-- RDOT (R167): OP 0x12, the form in FN. -/
def execRdot (h : Hart) (fn : BitVec 3) (x : XArgs) (s : State) : Host.Outcome State Fault Refusal :=
  .next (s.issue h { op := 0x12, fn, a := x })

/-- RARG (R168): OP 0x13, the form in FN. -/
def execRarg (h : Hart) (fn : BitVec 3) (x : XArgs) (s : State) : Host.Outcome State Fault Refusal :=
  .next (s.issue h { op := 0x13, fn, a := x })

/-- ROWB (R170): OP 0x14, the form in FN. -/
def execRowb (h : Hart) (fn : BitVec 3) (x : XArgs) (s : State) : Host.Outcome State Fault Refusal :=
  .next (s.issue h { op := 0x14, fn, a := x })

/-- COLB (R170): OP 0x15, the form in FN. -/
def execColb (h : Hart) (fn : BitVec 3) (x : XArgs) (s : State) : Host.Outcome State Fault Refusal :=
  .next (s.issue h { op := 0x15, fn, a := x })

/-- RACC_CLR (R172): OP 0x16, FN 0. -/
def execRaccClr (h : Hart) (x : XArgs) (s : State) : Host.Outcome State Fault Refusal :=
  .next (s.issue h { op := 0x16, fn := 0, a := x })

/-- RACC_SUM (R172): OP 0x16, FN 1. -/
def execRaccSum (h : Hart) (x : XArgs) (s : State) : Host.Outcome State Fault Refusal :=
  .next (s.issue h { op := 0x16, fn := 1, a := x })

/-- RACC_SSQ (R172): OP 0x16, FN 2. -/
def execRaccSsq (h : Hart) (x : XArgs) (s : State) : Host.Outcome State Fault Refusal :=
  .next (s.issue h { op := 0x16, fn := 2, a := x })

/-- RACC_MAX (R172): OP 0x16, FN 3. -/
def execRaccMax (h : Hart) (x : XArgs) (s : State) : Host.Outcome State Fault Refusal :=
  .next (s.issue h { op := 0x16, fn := 3, a := x })

/-- RDSUM (R172): OP 0x16, FN 4. -/
def execRdsum (h : Hart) (x : XArgs) (s : State) : Host.Outcome State Fault Refusal :=
  .next (s.issue h { op := 0x16, fn := 4, a := x })

/-- RDMAX (R172): OP 0x16, FN 5. -/
def execRdmax (h : Hart) (x : XArgs) (s : State) : Host.Outcome State Fault Refusal :=
  .next (s.issue h { op := 0x16, fn := 5, a := x })

/-- RDCNT (R172): OP 0x16, FN 6. -/
def execRdcnt (h : Hart) (x : XArgs) (s : State) : Host.Outcome State Fault Refusal :=
  .next (s.issue h { op := 0x16, fn := 6, a := x })

/-- RDLSE (R175): OP 0x16, FN 7. -/
def execRdlse (h : Hart) (x : XArgs) (s : State) : Host.Outcome State Fault Refusal :=
  .next (s.issue h { op := 0x16, fn := 7, a := x })

/-- SOFTMAX (R174): OP 0x17, FN 0. -/
def execSoftmax (h : Hart) (x : XArgs) (s : State) : Host.Outcome State Fault Refusal :=
  .next (s.issue h { op := 0x17, fn := 0, a := x })

/-- LOGSOFTMAX (R174): OP 0x17, FN 1. -/
def execLogsoftmax (h : Hart) (x : XArgs) (s : State) : Host.Outcome State Fault Refusal :=
  .next (s.issue h { op := 0x17, fn := 1, a := x })

/-- RMSNORM (R176): OP 0x17, FN 2. -/
def execRmsnorm (h : Hart) (x : XArgs) (s : State) : Host.Outcome State Fault Refusal :=
  .next (s.issue h { op := 0x17, fn := 2, a := x })

/-- LAYERNORM (R176): OP 0x17, FN 3. -/
def execLayernorm (h : Hart) (x : XArgs) (s : State) : Host.Outcome State Fault Refusal :=
  .next (s.issue h { op := 0x17, fn := 3, a := x })

/-- TRANS (R177): OP 0x18, FN 0. -/
def execTrans (h : Hart) (x : XArgs) (s : State) : Host.Outcome State Fault Refusal :=
  .next (s.issue h { op := 0x18, fn := 0, a := x })

/-- PERM (R178): OP 0x19, FN 0. -/
def execPerm (h : Hart) (x : XArgs) (s : State) : Host.Outcome State Fault Refusal :=
  .next (s.issue h { op := 0x19, fn := 0, a := x })

/-- GATHER_X_ROW (R179): OP 0x1A, FN 0. -/
def execGatherXRow (h : Hart) (x : XArgs) (s : State) : Host.Outcome State Fault Refusal :=
  .next (s.issue h { op := 0x1A, fn := 0, a := x })

/-- GATHER_X_ELEMENT (R179): OP 0x1A, FN 1. -/
def execGatherXElement (h : Hart) (x : XArgs) (s : State) : Host.Outcome State Fault Refusal :=
  .next (s.issue h { op := 0x1A, fn := 1, a := x })

/-- SCATTER_X_ROW_WRITE (R180): OP 0x1B, FN 0. -/
def execScatterXRowWrite (h : Hart) (x : XArgs) (s : State) : Host.Outcome State Fault Refusal :=
  .next (s.issue h { op := 0x1B, fn := 0, a := x })

/-- SCATTER_X_ELEMENT_WRITE (R180): OP 0x1B, FN 1. -/
def execScatterXElementWrite (h : Hart) (x : XArgs) (s : State) : Host.Outcome State Fault Refusal :=
  .next (s.issue h { op := 0x1B, fn := 1, a := x })

/-- SCATTER_X_ROW_ADD (R180): OP 0x1B, FN 2. -/
def execScatterXRowAdd (h : Hart) (x : XArgs) (s : State) : Host.Outcome State Fault Refusal :=
  .next (s.issue h { op := 0x1B, fn := 2, a := x })

/-- SCATTER_X_ELEMENT_ADD (R180): OP 0x1B, FN 3. -/
def execScatterXElementAdd (h : Hart) (x : XArgs) (s : State) : Host.Outcome State Fault Refusal :=
  .next (s.issue h { op := 0x1B, fn := 3, a := x })

/-- COMPACT (R181): OP 0x1C, FN 0. -/
def execCompact (h : Hart) (x : XArgs) (s : State) : Host.Outcome State Fault Refusal :=
  .next (s.issue h { op := 0x1C, fn := 0, a := x })

/-- EXPAND (R181): OP 0x1C, FN 1. -/
def execExpand (h : Hart) (x : XArgs) (s : State) : Host.Outcome State Fault Refusal :=
  .next (s.issue h { op := 0x1C, fn := 1, a := x })

/-- VSYNC_HARTS (R182): OP 0x38, FN 0. -/
def execVsyncHarts (h : Hart) (x : XArgs) (s : State) : Host.Outcome State Fault Refusal :=
  .next (s.issue h { op := 0x38, fn := 0, a := x })

/-- VSYNC_ICEFIELD (R182): OP 0x38, FN 1. -/
def execVsyncIcefield (h : Hart) (x : XArgs) (s : State) : Host.Outcome State Fault Refusal :=
  .next (s.issue h { op := 0x38, fn := 1, a := x })

/-- PROBE (R183): OP 0x39, FN 0. -/
def execProbe (h : Hart) (x : XArgs) (s : State) : Host.Outcome State Fault Refusal :=
  .next (s.issue h { op := 0x39, fn := 0, a := x })

/-- MPRUNE_BRICK (R196): OP 0x20, FN 0. -/
def execMpruneBrick (h : Hart) (x : XArgs) (s : State) : Host.Outcome State Fault Refusal :=
  .next (s.issue h { op := 0x20, fn := 0, a := x })

/-- MPRUNE_ROW (R196): OP 0x20, FN 1. -/
def execMpruneRow (h : Hart) (x : XArgs) (s : State) : Host.Outcome State Fault Refusal :=
  .next (s.issue h { op := 0x20, fn := 1, a := x })

/-- MPRUNE_NM (R196): OP 0x20, FN 2. -/
def execMpruneNm (h : Hart) (x : XArgs) (s : State) : Host.Outcome State Fault Refusal :=
  .next (s.issue h { op := 0x20, fn := 2, a := x })

/-- MPRUNE_THRESH (R197): OP 0x20, FN 3. -/
def execMpruneThresh (h : Hart) (x : XArgs) (s : State) : Host.Outcome State Fault Refusal :=
  .next (s.issue h { op := 0x20, fn := 3, a := x })

/-- MGROW_SCORE (R196): OP 0x21, FN 0. -/
def execMgrowScore (h : Hart) (x : XArgs) (s : State) : Host.Outcome State Fault Refusal :=
  .next (s.issue h { op := 0x21, fn := 0, a := x })

/-- MGROW_THRESH (R197): OP 0x21, FN 1. -/
def execMgrowThresh (h : Hart) (x : XArgs) (s : State) : Host.Outcome State Fault Refusal :=
  .next (s.issue h { op := 0x21, fn := 1, a := x })

/-- MGROW_RAND (R200): OP 0x21, FN 2. -/
def execMgrowRand (h : Hart) (x : XArgs) (s : State) : Host.Outcome State Fault Refusal :=
  .next (s.issue h { op := 0x21, fn := 2, a := x })

/-- MAPPLY (R201): OP 0x22, the form in FN. -/
def execMapply (h : Hart) (fn : BitVec 3) (x : XArgs) (s : State) : Host.Outcome State Fault Refusal :=
  .next (s.issue h { op := 0x22, fn, a := x })

/-- MPACK (R202): OP 0x23, the form in FN. -/
def execMpack (h : Hart) (fn : BitVec 3) (x : XArgs) (s : State) : Host.Outcome State Fault Refusal :=
  .next (s.issue h { op := 0x23, fn, a := x })

/-- MUNPACK (R205): OP 0x24, FN 0. -/
def execMunpack (h : Hart) (x : XArgs) (s : State) : Host.Outcome State Fault Refusal :=
  .next (s.issue h { op := 0x24, fn := 0, a := x })

/-- MTRANS (R207): OP 0x25, FN 0. -/
def execMtrans (h : Hart) (x : XArgs) (s : State) : Host.Outcome State Fault Refusal :=
  .next (s.issue h { op := 0x25, fn := 0, a := x })

/-- SORT (R215): OP 0x26, the form in FN. -/
def execSort (h : Hart) (fn : BitVec 3) (x : XArgs) (s : State) : Host.Outcome State Fault Refusal :=
  .next (s.issue h { op := 0x26, fn, a := x })

/-- MERGE (R216): OP 0x27, the form in FN. -/
def execMerge (h : Hart) (fn : BitVec 3) (x : XArgs) (s : State) : Host.Outcome State Fault Refusal :=
  .next (s.issue h { op := 0x27, fn, a := x })

/-- TOPK (R217): OP 0x28, the form in FN. -/
def execTopk (h : Hart) (fn : BitVec 3) (x : XArgs) (s : State) : Host.Outcome State Fault Refusal :=
  .next (s.issue h { op := 0x28, fn, a := x })

/-- UNIQUE (R218): OP 0x29, the form in FN. -/
def execUnique (h : Hart) (fn : BitVec 3) (x : XArgs) (s : State) : Host.Outcome State Fault Refusal :=
  .next (s.issue h { op := 0x29, fn, a := x })

/-- ISECT (R219): OP 0x2A, the form in FN. -/
def execIsect (h : Hart) (fn : BitVec 3) (x : XArgs) (s : State) : Host.Outcome State Fault Refusal :=
  .next (s.issue h { op := 0x2A, fn, a := x })

/-- HIST (R220): OP 0x2B, the form in FN. -/
def execHist (h : Hart) (fn : BitVec 3) (x : XArgs) (s : State) : Host.Outcome State Fault Refusal :=
  .next (s.issue h { op := 0x2B, fn, a := x })

/-- ROUTE (R222): OP 0x2C, the form in FN. -/
def execRoute (h : Hart) (fn : BitVec 3) (x : XArgs) (s : State) : Host.Outcome State Fault Refusal :=
  .next (s.issue h { op := 0x2C, fn, a := x })

/-- INSTRUCTION_RETIRE (R139): `check` is the error that the checks of the lane groups meet, if any (R462, R464). -/
def execInstructionRetire (h : Hart) (check : Option LaneCheck) (s : State) : Host.Outcome State Fault Refusal :=
  .next (if s.powered then s.instructionRetire h check else s)

/-- INSTRUCTION_REPLAY (R464). -/
def execInstructionReplay (s : State) : Host.Outcome State Fault Refusal :=
  .next (if s.powered then s.instructionReplay else s)

/-- TILE_LEASE (R110): `lost` are the writers of the same step whose writes lose (R431). -/
def execTileLease (r : Reader) (w : Word) (lost : List Hart) (s : State) : Host.Outcome State Fault Refusal :=
  .next (if s.powered then s.tileLease r w lost else s)

/-- LEASE_EFFECT (R112). -/
def execLeaseEffect (t : TileReg) (s : State) : Host.Outcome State Fault Refusal :=
  .next (if s.powered then s.leaseEffect t else s)

/-- MORAINE_LINE (R362). -/
def execMoraineLine (res : LineResult) (s : State) : Host.Outcome State Fault Refusal :=
  .next (if s.powered then s.moraineLine res else s)

end Sys2Proof.Machine
end

