-- ==== Sys2Proof/Machine/Drift.lean ====
section
/-! DEFINITION. The drift engine: channel commands (R318 to R322, R352, R359, R360), descriptor sets (R323 to R325),
transfers (R327 to R345, R356 to R358), flow buffers (R347 to R349), persistent chains (R350 to R354), and deadlocks
(R366 to R369). -/

namespace Sys2Proof.Machine

/-! ## Icefield words of a drift -/

/-- Writes window words of any floe for an access. -/
def State.writeWin (s : State) (who : Src) (acc : Nat) (ws : List IceWrite) : State :=
  s.forEach (fins 64) fun s f =>
    let e := s.floe f
    let mine := ws.filter fun w => e.used && decide (e.window.1 ≤ w.word) && decide (w.word < e.window.2)
    if mine.isEmpty then s else s.writeWords who acc f mine

/-- Reads window words of any floe for an access. -/
def State.readWin (s : State) (who : Src) (acc : Nat) : List Nat → State × Store (BitVec 33)
  | [] => (s, [])
  | w :: r =>
    let (s, v, _) := match s.floeOf w with
      | some f => s.readWord who acc f w
      | none => (s, 0, .clean)
    let (s, m) := s.readWin who acc r
    (s, sset 0 m w v)

/-- The words that lie in the Moraine part of their floe (R361). -/
def State.morWords (s : State) (ws : List Nat) : List (Fin 64 × Nat) :=
  ws.filterMap fun w =>
    match s.floeOf w with
    | some f => match s.place f w with | some (.moraine _ _) => some (f, w) | _ => none
    | none => none

/-- Requests the Moraine lines of some words (R362). -/
def State.morReadWin (s : State) (acc : Nat) (ws : List Nat) : State :=
  let m := s.morWords ws
  s.forEach (fins 64) fun s f =>
    let mine := (m.filter fun q => q.1 == f).map (·.2)
    if mine.isEmpty then s else s.morRead acc f mine

/-! ## Sets -/

/-- The access of the set, or of the slot that the descriptor has been granted. -/
def State.driftAcc (s : State) (st : DriftSet) : Nat :=
  match st.slotSb with
  | some id => id
  | none => st.sb.getD s.ice.sb.nextId

/-- The base of a granted slot (R347). -/
def FlowBuf.slotBase (b : FlowBuf) (n : Nat) : Int := (wordPart b.base + n % b.count.toNat * b.slot.toNat : Nat)

/-- The base words of the Icefield side and of a copy's source (R329, R348). -/
def State.descBases (s : State) (c : Fin 32) (st : DriftSet) (d : Desc) : Int × Int :=
  let b := s.drf.fb.get d.buf
  let ib : Int := (wordPart d.iaddr : Nat)
  let sb : Int := (wordPart (d.faddr.extractLsb' 0 32) : Nat)
  match st.slot with
  | some n => if d.isCopy && d.role b c == some false then (ib, b.slotBase n) else (b.slotBase n, sb)
  | none => (ib, sb)

/-- The ranges that a set presents: one from the lowest to the highest word of each kind (R325). -/
def State.setRanges (s : State) (c : Fin 32) (ds : List Desc) : List Range :=
  let bases := (s.chan c).bases
  let spans := ds.flatMap fun d0 =>
    let d := d0.rebase bases
    (s.fetchSpans d c).drop (if d.buffered && !d.empty then 1 else 0)
  [false, true].flatMap fun wr =>
    match (spans.filter fun q => q.2.2.2 == wr) with
    | [] => []
    | q :: r =>
      let lo := r.foldl (fun a p => min a p.2.1) q.2.1
      let hi := r.foldl (fun a p => max a p.2.2.1) q.2.2.1
      clipRange lo hi wr

/-- Presents a set's ranges after its checks (R325). -/
def State.presentSet (s : State) (c : Fin 32) (st : DriftSet) : State × DriftSet :=
  let rs := s.setRanges c st.descs
  if rs.isEmpty then (s, st)
  else
    let (s, id) := s.present (.drift c) rs
    (s, { st with sb := some id })

/-- The checks of a list of descriptors (R324): those before the first that fails, its code, and whether a descriptor
has PERSIST. -/
def State.checkDescs (s : State) (c : Fin 32) (x : Channel) (firstLen : Nat) : Nat → Bool → List Desc →
    List Desc × Option (BitVec 4) × Bool
  | _, p, [] => ([], none, p)
  | n, p, d :: r =>
    match s.descCheck c x n firstLen p d with
    | some code => ([], some code, p)
    | none =>
      let (ds, f, q) := s.checkDescs c { x with version := some d.ver } firstLen (n + 1) (p || d.persist) r
      (d :: ds, f, q)

/-- The channels that the index descriptors of a set feed, with those of earlier sets (R343). -/
def feedsOf (old : List (Fin 32)) (ds : List Desc) : List (Fin 32) :=
  (old ++ (ds.filter (·.isIndex)).map (·.coupled)).eraseDups

/-- A channel may take in a set: its chain goes on, and it holds no set behind the current one (R323). -/
def Channel.wantsSet (x : Channel) : Bool :=
  let ended := fun (o : Option DriftSet) => match o with
    | some st => st.chainEnd || st.failCode.isSome
    | none => false
  x.state == 1 && !x.stopping && !x.halting && x.fetchFail.isNone && !ended x.set && !ended x.next &&
    (x.set.isNone || x.next.isNone)

/-- The number of descriptors of a full set (R532). -/
def Channel.batchLen (x : Channel) : Nat := if x.batch = 0 || decide (16 < x.batch.toNat) then 16 else x.batch.toNat

/-- Asks for the next set under the BATCH of now: of a list in Icefield with a read range at the scoreboard (R323). -/
def State.askFetch (s : State) (c : Fin 32) : State :=
  let x := s.chan c
  if !x.wantsSet || x.fetchN.isSome then s
  else
    let n := x.batchLen
    let s := s.modCh c fun y => { y with fetchN := some n }
    let a := BitVec.ofNat 32 x.listAddr
    let f := s.floe (floePart a)
    let lo := wordPart a
    if x.listIce && f.used && decide (f.window.1 ≤ lo) && decide (lo < f.window.2) then
      let (s, id) := s.present (.drift c) [{ lo, hi := min (lo + 16 * n - 1) (f.window.2 - 1), write := false }]
      s.modCh c fun x => { x with fetchSb := some id }
    else s

/-! ## Commands of a channel (R319, R320, R352, R359, R360) -/

/-- The configuration has a channel (R318). -/
def State.hasCh (s : State) (n : Nat) : Bool := decide (n < Config.driftCh s.cfg)

/-- A reader may write the control registers of a channel (R319). -/
def State.ownsCh (s : State) (r : Reader) (c : Fin 32) : Bool :=
  s.privileged r || Reader.hart? r == some (s.chan c).owner

/-- The bases in a reader's CE_DRF_RBASE (R530). -/
def State.basesOf (s : State) (r : Reader) : Bases :=
  let g := s.drf.regs.get r
  { fabric := g.fbaseh ++ g.fbase, word := g.ioff }

/-- GO (R320): NOTARMED beyond the configuration's channels, NOTOWNER, BUSY, or ACCEPTED. -/
def State.drfGo (s : State) (r : Reader) (ch : BitVec 5) : State :=
  let c := ch.toFin
  if !s.canAct r then s
  else if !s.hasCh ch.toNat then s.setRstat r 4
  else if !s.ownsCh r c then s.setRstat r 5
  else if (s.chan c).state == 1 || (s.chan c).state == 5 then s.setRstat r 2
  else
    let g := s.drf.regs.get r
    let addr := if g.lsrc then g.list.toNat / 16 * 16 else (g.listh ++ g.list).toNat / 64 * 64
    ((s.startChain c g.lsrc addr (s.basesOf r) (some r) none).askFetch c).setRstat r 0

/-- A pass of a persistent chain starts from its cached set, checked again with the bases (R352, R353). -/
def State.startPass (s : State) (c : Fin 32) (b : Bases) : State :=
  let x := s.chan c
  match x.cached with
  | none => s
  | some st =>
    let x := { x with bases := b, version := none }
    let s := s.modCh c fun y => { y with state := 1, bases := b, shadow := none, cached := none, marked := false }
    let (ds, f, _) := s.checkDescs c x x.firstLen 0 x.persist st.descs
    let (s, st) := s.presentSet c { descs := ds, failCode := f, chainEnd := f.isNone }
    s.modCh c fun y => { y with set := some st }

/-- REARM (R352). -/
def State.drfRearm (s : State) (r : Reader) (ch : BitVec 5) : State × Bool :=
  let c := ch.toFin
  let x := s.chan c
  if !s.canAct r then (s, false)
  else if !s.hasCh ch.toNat then (s.setRstat r 4, false)
  else if !s.ownsCh r c then (s.setRstat r 5, false)
  else if !Config.rearm s.cfg then (s.setRstat r 3, false)
  else if x.state == 5 then (s.setRstat r 2, false)
  else if x.state == 4 then
    if x.shadow.isSome then (s.setRstat r 2, false)
    else ((s.startPass c (s.basesOf r)).setRstat r 0, true)
  else if x.state == 1 && x.persist && (match x.set with | some st => st.chainEnd | none => false) then
    if x.shadow.isSome then (s.setRstat r 2, false)
    else ((s.modCh c fun x => { x with shadow := some (s.basesOf r) }).setRstat r 1, false)
  else (s.setRstat r 4, false)

/-! ## Transfers -/

/-- Counts lines in CE_DRF_MARKS, which saturate (R357, R532). -/
def State.markLines (s : State) (c : Fin 32) (rd wr : Nat) : State :=
  s.modCh c fun x => { x with marksRd := min 65535 (x.marksRd + rd), marksWr := min 65535 (x.marksWr + wr)
                              marked := x.marked || rd != 0 || wr != 0 }

/-- Counts bad indices (R345). -/
def State.countBad (s : State) (c : Fin 32) (n : Nat) : State :=
  s.modCh c fun x => { x with idxbad := min (2 ^ 32 - 1) (x.idxbad + n), marked := x.marked || n != 0 }

/-- Changes the current set of a channel. -/
def State.modSet (s : State) (c : Fin 32) (f : DriftSet → DriftSet) : State :=
  s.modCh c fun x => { x with set := x.set.map f }

/-- Keeps the flags of a strict conversion until the set retires (R71, R94). -/
def State.driftFlags (s : State) (c : Fin 32) (d : Desc) (f : FpFlags) : State :=
  if d.s then s.modSet c fun t => { t with flags := t.flags.or f } else s

/-- Rows of a descriptor from where it starts or resumes. -/
def rowsFrom (a n : Nat) : List Nat := (List.range n).filter fun r => decide (a ≤ r)

/-- A load moves: every line that it needs has arrived. -/
def State.doLoad (s : State) (c : Fin 32) (st : DriftSet) (d : Desc) (base : Int) : State :=
  let a := d.load base st.idxs st.got (rowsFrom st.startRow d.pr)
  let s := (s.driftFlags c d a.flags).countBad c (d.badCount st.idxs)
  (s.writeWin (Src.drift c) (s.driftAcc st) a.writes).modSet c fun t => { t with performed := true }

/-- A store moves: its lines go to the fabric; in a format 2 chain a marked word ends it at its row (R358). When one of
its own reads starts a recovery, the channel is stopped and no line is issued (R471). -/
def State.doStore (s : State) (c : Fin 32) (st : DriftSet) (d : Desc) (base : Int) : State :=
  let rows := rowsFrom st.startRow d.nrow
  let (s, mem) := s.readWin (Src.drift c) (s.driftAcc st) (d.storeReads base rows)
  if (s.chan c).stopping then s
  else
    let marked := rows.find? fun r => (List.range d.ncol).any fun i => (memElem mem (d.iceElem base r i)).2
    let stop := if d.ver = 2 then marked else none
    let rows := match stop with | some r => rows.filter fun q => decide (q < r) | none => rows
    let (bs, fl) := d.store base mem st.idxs rows
    let lines := linesOf bs
    let s := ((s.driftFlags c d fl).countBad c (d.badCount st.idxs)).markLines c 0
      ((lines.filter fun l => !l.poison.isEmpty).length)
    let s := s.countEvent 0x21 lines.length
    let s := s.modSet c fun t => { t with performed := true, wlines := lines, fail := stop.map fun r => (r, 4, 0) }
    if stop.isSome then s.modCh c fun x => { x with halting := true } else s

/-- A copy moves, unless one of its own reads starts a recovery, which stops the channel (R471). -/
def State.doCopy (s : State) (c : Fin 32) (st : DriftSet) (d : Desc) (base src : Int) : State :=
  let acc := s.driftAcc st
  let (s, mem) := s.readWin (Src.drift c) acc (d.copyReads src)
  if (s.chan c).stopping then s
  else
    let a := d.copy base src mem
    ((s.driftFlags c d a.flags).writeWin (Src.drift c) acc a.writes).modSet c fun t => { t with performed := true }

/-- An index drift has its indices and begins to deliver them, unless one of its own reads starts a recovery. -/
def State.doIndex (s : State) (c : Fin 32) (st : DriftSet) (d : Desc) (base : Int) : State :=
  if d.isrc then
    let (s, mem) := s.readWin (Src.drift c) (s.driftAcc st) (d.indexReads base)
    if (s.chan c).stopping then s
    else s.modSet c fun t => { t with performed := true, idxs := d.iceIndices base mem }
  else s.modSet c fun t => { t with performed := true, idxs := d.fabIndices st.got }

/-- The Icefield words that a descriptor reads before it moves. -/
def Desc.iceReads (d : Desc) (st : DriftSet) (base src : Int) : List Nat :=
  if d.isStore then d.storeReads base (rowsFrom st.startRow d.nrow)
  else if d.isCopy then d.copyReads src
  else if d.isIndex && d.isrc then d.indexReads base
  else []

/-- The fabric lines that a descriptor reads; none for one that reads no fabric. -/
def Desc.needs (d : Desc) (st : DriftSet) : Option (List Nat) :=
  if d.isLoad || (d.isIndex && !d.isrc) then some (d.readLines st.idxs (rowsFrom st.startRow d.pr)) else none

/-- Two lists of intervals share a byte. -/
def rangesMeet (a b : List (Nat × Nat)) : Bool := a.any fun x => b.any fun y => decide (x.1 < y.2) && decide (y.1 < x.2)

/-- The fabric bytes that a set has still to issue writes for. -/
def DriftSet.toIssue (t : DriftSet) (b : Bases) : List (Nat × Nat) :=
  ((t.descs.drop t.cur).zipIdx.filter fun q => !(q.2 == 0 && t.performed)).flatMap fun q => (q.1.rebase b).fabRanges

/-- Store sets of other channels, in transfer, behind it or halted, that were allocated before one and have lines still to
issue over its bytes hold it (R337). -/
def State.storeHeld (s : State) (c : Fin 32) (st : DriftSet) (d : Desc) : Bool :=
  let order := s.ice.sb.alloc.map (·.id)
  let at' := fun (t : DriftSet) => order.findIdx fun i => t.sb == some i || t.slotSb == some i
  (fins 32).any fun k =>
    let x := s.chan k
    k != c && (x.set.toList ++ x.next.toList).any fun t =>
      decide (at' t < at' st) && rangesMeet (t.toIssue x.bases) d.fabRanges

/-- A descriptor touches a segment that is reviving (R564). -/
def State.descReviving (s : State) (d : Desc) (c : Fin 32) : Bool :=
  s.reviving && (s.fetchSpans d c).any fun q => s.spanIn q.1 q.2.1 q.2.2.1 .reviving

/-- The descriptor in progress is complete: its slot counts, and the next one follows (R348). -/
def State.nextDesc (s : State) (c : Fin 32) (st : DriftSet) (d : Desc) : State :=
  let s := match st.slot, d.role (s.drf.fb.get d.buf) c with
    | some _, some p =>
      let fb := vmod s.drf.fb d.buf fun b => if p then { b with head := b.head + 1 } else { b with tail := b.tail + 1 }
      { s with drf := { s.drf with fb } }
    | _, _ => s
  let s := match st.slotSb with | some id => s.endAccess id | none => s.morDrop (s.driftAcc st)
  s.modSet c fun t =>
    { t with cur := t.cur + 1, startRow := 0, slot := none, slotSb := none, morAsked := false, idxs := [], need := none
             issued := 0, got := [], performed := false, wlines := [], fail := none }

/-- Takes up to `n` indices from a channel's queue for its descriptor. -/
def State.takeIdx (s : State) (c : Fin 32) (n : Nat) : State :=
  let q := (s.chan c).queue
  (s.modCh c fun x => { x with queue := q.drop n }).modSet c fun t => { t with idxs := t.idxs ++ q.take n }

/-- Delivers indices into the coupled channel's queue, as far as it has room (R343). -/
def State.pushIdx (s : State) (c k : Fin 32) (st : DriftSet) : State :=
  let room := 256 - (s.chan k).queue.length
  (s.modCh k fun x => { x with queue := x.queue ++ st.idxs.take room }).modSet c fun t => { t with idxs := t.idxs.drop room }

/-! ## The end of chains (R321, R322, R351) and of the orders they serve -/

/-- The status of an order whose only chain has ended in a state (R421). -/
def chainStatus (st : BitVec 4) : BitVec 16 :=
  if st = 2 then 0 else if st = 3 then 1 else if st = 7 then 3 else if st = 0xB ∨ st = 0xC then 0x0C else 5

/-- The order that a chain serves goes on: a weight push retags its floe (R294), any other order ends. -/
def State.chainOrder (s : State) (c : Fin 32) : State :=
  let x := s.chan c
  match x.order with
  | none => s
  | some n =>
    let s := s.modCh c fun x => { x with order := none }
    match if s.err.stat == .recovering then none else s.orderOf n with
    | none => s
    | some o =>
      let st : BitVec 16 := match o.ending with
        | some e => e
        | none => chainStatus x.state
      if o.op = 0x21 && decide (st.toNat < 2) then (s.modOrder n fun p => { p with phase := 2, marked := st == 1 }).retryPush
      else if o.op = 0x08 && st = 0 then s.stageImage o
      else s.endOrder o st []

/-- A chain that a kernel started ends MARKED: so will the kernel's order (R425). -/
def State.noteMarked (s : State) (c : Fin 32) (st : BitVec 4) : State :=
  match (s.chan c).starter.bind Reader.hart? with
  | some h =>
    match s.kernelOf h with
    | some o => if st = 3 then s.modOrder o.id fun p => { p with marked := true } else s
    | none => s
  | none => s

/-- The chain ends in a state: its sets go, its event is raised, and its order is told (R322). -/
def State.endChain (s : State) (c : Fin 32) (st : BitVec 4) (desc : Nat) : State :=
  let s := s.modCh c fun x =>
    { x with state := st, set := none, next := none, shadow := none
             posDesc := if 7 ≤ st.toNat then BitVec.ofNat 12 desc else x.posDesc
             posRow := if 7 ≤ st.toNat then 0 else x.posRow }
  ((s.driftEvent c).noteMarked c st).chainOrder c

/-- Every access that a channel holds. -/
def Channel.accesses (x : Channel) : List Nat :=
  let of := fun (o : Option DriftSet) => match o with
    | some st => st.sb.toList ++ st.slotSb.toList
    | none => []
  of x.set ++ of x.next ++ x.fetchSb.toList

/-- A descriptor in progress meets a segment that a revival has left melted: the chain ends with MELTED, and its accesses are
freed (R321, R564). -/
def State.meltChain (s : State) (c : Fin 32) (st : DriftSet) : State :=
  (s.forEach (s.chan c).accesses State.endAccess).endChain c 0xC (st.first + st.cur)

/-! ## Advancing -/

/-- Read lines that a channel has requested and that have not arrived. -/
def Channel.outstanding (x : Channel) : Nat :=
  match x.set with | some st => st.issued - st.got.length | none => 0

/-- Further read lines that a channel may request: it keeps at most 2048 outstanding, and the engine 16 384 (R355). -/
def State.mayIssue (s : State) (c : Fin 32) (st : DriftSet) (l : List Nat) : Nat :=
  let all := ((fins 32).map fun k => (s.chan k).outstanding).sum
  min (l.length - st.issued) (min (2048 - (s.chan c).outstanding) (16384 - all))

/-- The descriptor moves words of Icefield. -/
def Desc.touches (d : Desc) : Bool := !d.isIndex || d.isrc

/-- A descriptor touches a segment that a revival has left melted (R564). -/
def State.descMelted (s : State) (d : Desc) (c : Fin 32) : Bool :=
  (s.fetchSpans d c).any fun q => s.spanIn q.1 q.2.1 q.2.2.1 .melted

/-- A descriptor that moves Icefield words goes on once its access holds a Firn entry: it asks for one, and waits while it has
none (R301, R303). -/
def State.withFirn (s : State) (acc : Nat) (who : Requester) (d : Desc) (go : State) : Option State :=
  if !d.touches || (s.firnFor acc).isSome then some go
  else if s.ice.firnQ.any fun q => q.acc == acc then none else some (s.firnAsk acc who)

/-- One advance of the descriptor in progress; none when nothing can advance. -/
def State.driveStep (s : State) (c : Fin 32) : Option State :=
  match s.current c with
  | none => none
  | some (st, d0) =>
    let d := d0.rebase (s.chan c).bases
    let (base, src) := s.descBases c st d
    let acc := s.driftAcc st
    if d.empty then some (s.nextDesc c st d)
    else if st.performed then
      if d.isIndex && !st.idxs.isEmpty then
        if (s.chan d.coupled).queue.length < 256 then some (s.pushIdx c d.coupled st) else none
      else if st.wlines.isEmpty && st.fail.isNone && s.morDone acc then some (s.nextDesc c st d)
      else none
    else if d.buffered && !(match st.slotSb with | some id => s.ice.sb.alloc.any fun a => a.id == id | none => false) then
      none
    else if s.descReviving d c then none
    else if s.descMelted d c then some (s.meltChain c st)
    else if d.indexed && st.idxs.length < d.indexCount then
      if (s.chan c).queue.isEmpty then none else some (s.takeIdx c (d.indexCount - st.idxs.length))
    else if !st.morAsked && !(s.morWords (d.iceReads st base src)).isEmpty then
      some ((s.morReadWin acc (d.iceReads st base src)).modSet c fun t => { t with morAsked := true })
    else if !s.morDone acc then none
    else match d.needs st, st.need with
      | some l, none => some (s.modSet c fun t => { t with need := some l })
      | some _, some l =>
        if l.all fun a => st.got.any fun g => g.1 == a then
          s.withFirn acc (.drift c) d (if d.isLoad then s.doLoad c st d base else s.doIndex c st d base)
        else if s.mayIssue c st l = 0 then none
        else some (s.modSet c fun t => { t with issued := t.issued + s.mayIssue c st l })
      | none, _ =>
        if d.isStore then (if s.storeHeld c st d then none else s.withFirn acc (.drift c) d (s.doStore c st d base))
        else if d.isCopy then s.withFirn acc (.drift c) d (s.doCopy c st d base src)
        else s.withFirn acc (.drift c) d (s.doIndex c st d base)

/-- Advances as far as possible, at most `n` times. -/
def State.driveN (s : State) (c : Fin 32) : Nat → State
  | 0 => s
  | n + 1 => match s.driveStep c with | some t => t.driveN c n | none => s

/-- Advances a channel: a set of 16 descriptors takes at most eight advances each. -/
def State.drive (s : State) (c : Fin 32) : State := s.driveN c 128

/-- The extent that the last load of a set records (R334). -/
def Desc.extent (d : Desc) : Nat × Nat :=
  if d.tord then (d.nrow - 64 * ((d.nrow + 63) / 64 - 1), d.ncol - 64 * ((d.ncol + 63) / 64 - 1))
  else (min 256 d.pr, min 64 d.pc)

/-- A set whose descriptors are done retires (R325, R351); a set with none of its own passes at once. -/
def State.retireSet (s : State) (c : Fin 32) : Nat → State
  | 0 => s
  | n + 1 =>
    let x := s.chan c
    match x.set with
    | none => s
    | some st =>
      if st.cur < st.descs.length || x.halting || x.stopping || x.state != 1 then s
      else
        let s := match st.sb with | some id => s.endAccess id | none => s
        let s := match (st.descs.filter fun d => d.isLoad && !d.empty).getLast? with
          | some d => s.modCh c fun y => { y with extVr := d.extent.1, extVc := d.extent.2 }
          | none => s
        let s := s.raiseFlags x.owner st.flags
        let s := if st.descs.any (·.evt) then s.driftEvent c else s
        match st.failCode with
        | some k => s.endChain c k (st.first + st.descs.length)
        | none =>
          if st.chainEnd then
            if Config.rearm s.cfg && x.persist then
              (s.modCh c fun y => { y with state := 4, set := none, cached := some { descs := st.descs } }).driftEvent c
            else s.endChain c (if x.marked then 3 else 2) 0
          else
            ((s.modCh c fun y =>
              { y with set := y.next, next := none
                       halting := y.next.isNone && y.fetchFail.isSome }).askFetch c).retireSet c n

/-! ## The commands of the fabric -/

/-- The descriptor that a line of a burst holds; the words of a failed line read as +0 (R357). -/
def descOf : LineResult → Desc
  | .ok ws => Desc.ofWords ws.toList
  | .fail _ => Desc.ofWords []

/-- The lines of a set in a burst: up to `n`, or fewer when one has LAST; none when lines are missing (R323). -/
def takeSet : Nat → List LineResult → Option (List LineResult)
  | 0, _ => some []
  | _ + 1, [] => none
  | n + 1, l :: r => if (descOf l).last then some [l] else (takeSet n r).map fun t => l :: t

/-- As `takeSet`, from a list in Icefield that may leave its floe: the descriptors that lie wholly inside. -/
def takeIce : Nat → List Word → List Desc × Bool
  | 0, _ => ([], true)
  | n + 1, ws =>
    if ws.length < 16 then ([], false)
    else
      let d := Desc.ofWords (ws.take 16)
      if d.last then ([d], true) else let (r, b) := takeIce n (ws.drop 16); (d :: r, b)

/-- A fetched set enters the channel: its checks, its ranges, and its place before or behind the current set (R323,
R324). `short` is the code of a descriptor that could not be read. -/
def State.enterSet (s : State) (c : Fin 32) (ds : List Desc) (short : Option (BitVec 4)) : State :=
  let x := s.chan c
  let firstLen := if x.fetched = 0 then ds.length else x.firstLen
  let (ok, f, persist) := s.checkDescs c x firstLen x.fetched x.persist ds
  let fail := match f with | some k => some k | none => short
  let step := if x.listIce then 16 * ds.length else 64 * ds.length
  let s := (s.countEvent 0x22 1).modCh c fun y =>
    { y with version := match y.version with | some v => some v | none => ds.head?.map (·.ver)
             firstLen, persist, fetched := y.fetched + ds.length, fetchN := none, feeds := feedsOf y.feeds ok
             listAddr := if y.listIce then (addWord (BitVec.ofNat 32 y.listAddr) (BitVec.ofNat 26 step)).toNat
               else (y.listAddr + step) % 2 ^ 48 }
  let st : DriftSet := { first := x.fetched, descs := ok, failCode := fail
                         chainEnd := fail.isNone && (ok.getLast?.map (·.last)).getD false }
  let (s, st) := s.presentSet c st
  let s := s.modCh c fun y => if y.set.isNone then { y with set := some st } else { y with next := some st }
  let s := s.askFetch c
  if ok.isEmpty then s.retireSet c 2 else s.drive c

/-- The words of a set's list in Icefield, up to the first that no floe serves or a melted segment holds, are read under the
fetch's access and make up the set (R323, R324). -/
def State.readSet (s : State) (c : Fin 32) (id : Nat) (fl : Fin 64) (ws : List Nat) : State :=
  let x := s.chan c
  let live := ws.takeWhile fun w => match s.place fl w with
    | some (.phys p _) => s.segAt p != .melted
    | some _ => true
    | none => false
  let (s, mem) := s.readWin (Src.drift c) id live
  let (ds, whole) := takeIce (x.fetchN.getD x.batchLen) (live.map fun w => contData (sget 0 mem w))
  let s := (s.endAccess id).modCh c fun y => { y with fetchSb := none }
  if (s.chan c).stopping then s
  else s.enterSet c ds (if whole then none else some (if live.length < ws.length then 0xC else 0xB))

/-- A set fetched from Icefield under its read range, through a Firn entry and with its Moraine lines (R323, R361). -/
def State.fetchIce (s : State) (c : Fin 32) : State :=
  let x := s.chan c
  let a := BitVec.ofNat 32 x.listAddr
  let fl := floePart a
  match x.fetchSb with
  | none =>
    let f := s.floe fl
    if f.used && decide (f.window.1 ≤ wordPart a) && decide (wordPart a < f.window.2) then
      (s.modCh c fun y => { y with fetchN := none }).askFetch c
    else s.enterSet c [] (some 0xB)
  | some id =>
    match s.ice.sb.alloc.find? fun q => q.id == id with
    | none => s
    | some q =>
      let hi := (q.ranges.map (·.hi)).foldl max 0
      let ws := (List.range (hi + 1 - wordPart a)).map fun i => wordPart a + i
      let mor := s.morWords ws
      if !mor.isEmpty && !(s.ice.morData.any fun m => m.acc == id) && s.morDone id then s.morReadWin id ws
      else if !s.morDone id || s.spanIn fl (wordPart a) hi .reviving then s
      else
        let s := s.firnAsk id (.drift c)
        if (s.firnFor id).isSome then s.readSet c id fl ws else s

/-- The failed lines of a burst: their faults and their places. -/
def failedLines (ls : List LineResult) : List (FabricFault × Nat) :=
  ls.zipIdx.filterMap fun l => match l.1 with | .fail k => some (k, l.2) | .ok _ => none

/-- The format version of a burst's chain: that of the chain, or of its first descriptor. -/
def Channel.burstVersion (x : Channel) (ls : List LineResult) : Option Nat :=
  x.version.orElse fun _ => match ls.head? with | some (.ok ws) => some (Desc.ofWords ws.toList).ver | _ => none

/-- The lines of a set arrive from chip memory (R323, R356). A failed line halts a format 2 chain, which takes no set of that
burst in (R358); elsewhere its words read as +0 and it counts in MARKS (R357). -/
def State.fetchBurst (s : State) (c : Fin 32) (ls : List LineResult) : State :=
  let x := s.chan c
  let bad := failedLines ls
  let s := s.forEach bad fun s q => s.fabricFault c.val false q.1 false
  match if x.burstVersion ls == some 2 then bad.head? else none with
  | some (k, i) =>
    s.modCh c fun y =>
      { y with fetchN := none, fetchFail := some (faultCause k, (y.listAddr + 64 * i) % 2 ^ 48), halting := true }
  | none => (s.markLines c bad.length 0).enterSet c (ls.map descOf) none

/-- A descriptor set arrives (R323). A channel that halts or stops takes in no set: the burst that it had asked for only
completes (R358, R360). -/
def State.fetchSet (s : State) (c : Fin 32) (res : FetchResult) : State :=
  let x := s.chan c
  if !s.powered then s
  else match res, x.listIce with
    | .icefield, true => if x.wantsSet then s.fetchIce c else s
    | .lines ls, false =>
      match x.fetchN.bind fun n => takeSet n ls with
      | some ls =>
        if x.wantsSet then s.fetchBurst c ls
        else (s.forEach (failedLines ls) fun s q => s.fabricFault c.val false q.1 false).modCh c fun y =>
          { y with fetchN := none }
      | none => s
    | _, _ => s

/-- A fabric read line arrives for a drift (R356 to R358). -/
def State.readLine (s : State) (c : Fin 32) (addr : Nat) (res : LineResult) : State :=
  let s := s.drive c
  match (s.chan c).set with
  | none => s
  | some st =>
    match st.need with
    | none => s
    | some l =>
      if !(l.take st.issued).contains addr || st.got.any fun g => g.1 == addr then s
      else
        let s := (s.countEvent 0x20 1).modSet c fun t => { t with got := t.got ++ [(addr, res)] }
        match res with
        | .ok _ => s.drive c
        | .fail k =>
          let s := s.fabricFault c.val false k false
          if (s.chan c).version == some 2 then s.modCh c fun x => { x with halting := true }
          else (s.markLines c 1 0).drive c

/-- The fabric answers the oldest write line of a drift (R356 to R358). -/
def State.writeResponse (s : State) (c : Fin 32) (res : WriteResult) : State :=
  let s := s.drive c
  match (s.chan c).set with
  | none => s
  | some st =>
    match st.wlines with
    | [] => s
    | l :: rest =>
      let s := s.modSet c fun t => { t with wlines := rest }
      match res with
      | .ack => s.drive c
      | .fail k =>
        let s := s.fabricFault c.val false k false
        if (s.chan c).version == some 2 then
          let f := match st.fail with
            | some g => if g.1 ≤ l.row then g else (l.row, faultCause k, l.addr)
            | none => (l.row, faultCause k, l.addr)
          (s.modSet c fun t => { t with fail := some f }).modCh c fun x => { x with halting := true }
        else (s.markLines c 0 (if l.poison.isEmpty then 1 else 0)).drive c

/-- A descriptor set retires (R325). -/
def State.setRetire (s : State) (c : Fin 32) : State :=
  if !s.powered then s else ((s.drive c).retireSet c 3).drive c

/-- The bases of a shadow take effect and start a pass (R352). -/
def State.shadowEffect (s : State) (c : Fin 32) : State :=
  let x := s.chan c
  match x.shadow with
  | some b => if x.state == 4 && s.powered then ((s.startPass c b).retireSet c 1).drive c else s
  | none => s

/-! ## Halts and stops (R358 to R360, R429) -/

/-- The order of a stopped channel ends with the status that firmware stopped it for (R429). -/
def State.stoppedOrder (s : State) (c : Fin 32) : State :=
  match (s.chan c).order with
  | none => s
  | some n =>
    let s := s.modCh c fun y => { y with order := none }
    match (s.orderOf n).filter fun o => o.ending.isSome with
    | some o => s.endOrder o (o.ending.getD 0) []
    | none => s

/-- The order that a halted channel serves (R429): a page request, or the channel is stopped and the order ends. -/
def State.haltOrder (s : State) (c : Fin 32) (line : Nat) : State :=
  let x := s.chan c
  match x.order with
  | none => s
  | some n =>
    if x.hcause = 1 then
      let t := s.hods.reportSeq
      let s := s.report 0xC9 [BitVec.ofNat 32 c.val, x.posDesc.setWidth 32, BitVec.ofNat 32 line,
        BitVec.ofNat 32 (line / 2 ^ 32)]
      { s with hods := { s.hods with pageReqs := s.hods.pageReqs ++ [(c, t)] } }
    else
      let e : BitVec 16 := if x.hcause = 2 then 0x0C else 0x0F
      (s.modOrder n fun o => { o with ending := some e }).stopChannel c

/-- Every line that a set has issued has completed: its read lines have arrived and its write lines are answered (R358,
R360). -/
def DriftSet.drained (st : DriftSet) : Bool :=
  st.wlines.isEmpty && decide (st.issued ≤ st.got.length)

/-- Enters HALTED at a descriptor and a row, with the cause (R358). -/
def State.enterHalt (s : State) (c : Fin 32) (desc row : Nat) (cause : BitVec 3) (line : Nat) : State :=
  let s := s.modCh c fun y =>
    { y with state := 5, halting := false, hcause := cause, posDesc := BitVec.ofNat 12 desc, posRow := BitVec.ofNat 20 row }
  (s.driftEvent c).haltOrder c line

/-- The lowest row of a descriptor that is not wholly complete, past its last row where all are, with the cause and the line
of a failed one (R358). -/
def DriftSet.haltPoint (st : DriftSet) (d : Desc) : Nat × BitVec 3 × Nat :=
  if d.isStore then st.fail.getD (if st.performed then d.pr else st.startRow, 0, 0)
  else if st.performed then (d.pr, 0, 0)
  else (d.failRow st.got (rowsFrom st.startRow d.nrow)).getD (d.pr, 0, 0)

/-- A burst of descriptors is outstanding on the fabric. -/
def Channel.burstOut (x : Channel) : Bool := x.fetchN.isSome && !x.listIce

/-- The rows that a load of a halting channel has whole and has not written. -/
def DriftSet.haltRows (st : DriftSet) (d : Desc) (row : Nat) : List Nat :=
  if d.isLoad && !d.empty && !st.performed then (rowsFrom st.startRow d.pr).filter fun r => decide (r < row) else []

/-- A descriptor of a halting channel ends its transfer at a row: a load writes the rows below it through its Firn entry, and
the access keeps its entries but neither its Firn entry nor its Moraine words, which a resume reads again (R301, R358, R359,
R362). -/
def State.haltSet (s : State) (c : Fin 32) (st : DriftSet) (d : Desc) (row : Nat) : State :=
  let acc := s.driftAcc st
  let rows := st.haltRows d row
  let s := if rows.isEmpty then s else
    s.writeWin (Src.drift c) acc (d.load (s.descBases c st d).1 [] st.got rows).writes
  (((s.firnFlush acc).firnDrop acc).morDrop acc).modSet c fun t =>
    { t with startRow := row, need := none, issued := 0, got := [], performed := false, wlines := [], fail := none
             morAsked := false }

/-- The descriptor of a halting channel at a place of its set ends its transfer, once its access holds the Firn entry that the
rows to write need, and the channel enters HALTED (R301, R303, R358). -/
def State.haltDesc (s : State) (c : Fin 32) (st : DriftSet) (d : Desc) : State :=
  let acc := s.driftAcc st
  let (row, k) := st.haltPoint d
  let (cause, line) := if k.1 = 0 then (s.chan c).fetchFail.getD k else k
  let writes := !(st.haltRows d row).isEmpty
  if writes && s.descReviving d c then s
  else if writes && s.descMelted d c then s.meltChain c st
  else
    let s := if writes then s.firnAsk acc (.drift c) else s
    if writes && (s.firnFor acc).isNone then s
    else
      let whole := decide (d.pr ≤ row)
      (s.haltSet c st d row).enterHalt c (st.first + st.cur + if whole then 1 else 0) (if whole then 0 else row) cause line

/-- A format 2 channel halts once its issued lines have completed, data lines and descriptor lines alike (R358). A set whose
descriptors are all done retires first. -/
def State.channelHalt (s : State) (c : Fin 32) : State :=
  let x := s.chan c
  if !x.halting || x.stopping || x.state != 1 || x.burstOut then s
  else
    let s := match x.set with
      | some st => if st.descs.length ≤ st.cur then (s.modCh c fun y => { y with halting := false }).retireSet c 1 else s
      | none => s
    let x := s.chan c
    match x.set, x.fetchFail with
    | none, some (cause, line) => s.enterHalt c x.fetched 0 cause line
    | none, none => s
    | some st, _ =>
      match st.descs[st.cur]? with
      | none => s
      | some d => if !st.drained || !s.morDone (s.driftAcc st) then s else s.haltDesc c st (d.rebase x.bases)

/-- RESUME (R359, R530): a halted channel goes on at its saved row. -/
def State.resumeCh (s : State) (c : Fin 32) : State :=
  if (s.chan c).state == 5 then
    let s := (s.modCh c fun x => { x with state := 1, fetchFail := none }).askFetch c
    ({ s with hods := { s.hods with pageReqs := s.hods.pageReqs.filter fun q => q.1 != c } }).drive c
  else s

/-- RESUME by a write of its register. -/
def State.drfResume (s : State) (r : Reader) (ch : BitVec 5) : State :=
  let c := ch.toFin
  if !s.canAct r then s
  else if !s.hasCh ch.toNat then s.setRstat r 4
  else if !s.ownsCh r c then s.setRstat r 5
  else if (s.chan c).state == 5 && !(s.chan c).stopping then (s.resumeCh c).setRstat r 0
  else s

/-- STOP (R360). -/
def State.drfStop (s : State) (r : Reader) (c : Fin 32) : State :=
  if !s.canAct r || !s.hasCh c.val then s
  else if !s.ownsCh r c then s.setRstat r 5
  else s.stopChannel c

/-- A write of CE_DRF_OWN (R319). -/
def State.drfOwn (s : State) (r : Reader) (c : Fin 32) (h : Hart) : State :=
  let x := s.chan c
  if !s.hasCh c.val then s
  else if !s.privileged r then s.setRstat r 5
  else if x.state == 1 || x.state == 4 || x.state == 5 then s.setRstat r 2
  else s.modCh c fun y => { y with owner := h }

/-- The words that a load in progress may have written when it was stopped: of the rows whose lines have arrived, any lines
of 16 words, each whole or not at all (R315, R360; log entry 8). -/
def State.stoppedWords (s : State) (c : Fin 32) (st : DriftSet) : List IceWrite :=
  match st.descs[st.cur]? with
  | none => []
  | some d0 =>
    let d := d0.rebase (s.chan c).bases
    if !d.isLoad || st.performed || st.need.isNone then []
    else
      let rows := (rowsFrom st.startRow d.pr).filter fun r =>
        (d.readLines st.idxs [r]).all fun l => st.got.any fun g => g.1 == l
      (d.load (s.descBases c st d).1 st.idxs st.got rows).writes.filter fun w =>
        Config.stoppedWritten s.freeCtr (w.word / 16 * 16)

/-- Ends the accesses of a stopped channel: what its Firn entries hold is written by whole lines or not at all, and its
scoreboard entries are freed (R315, R360). -/
def State.stopAccesses (s : State) (c : Fin 32) : State :=
  let x := s.chan c
  let s := match x.set with
    | some st => s.writeWin (Src.drift c) (s.driftAcc st) (s.stoppedWords c st)
    | none => s
  s.fresh.forEach x.accesses fun s a => (s.firnStop a).endAccess a

/-- A stopped channel whose issued lines have completed, data lines and descriptor lines alike, frees its entries and enters
STOPPED (R360). -/
def State.channelStopped (s : State) (c : Fin 32) : State :=
  let x := s.chan c
  let out := match x.set with | some st => !st.drained | none => false
  if !x.stopping || out || x.burstOut || x.accesses.any fun a => !s.morDone a then s
  else
    let s := (s.stopAccesses c).modCh c fun y =>
      { y with state := 6, set := none, next := none, cached := none, shadow := none, fetchN := none, fetchSb := none
               fetchFail := none, stopping := false, halting := false }
    let s := { s with hods := { s.hods with pageReqs := s.hods.pageReqs.filter fun q => q.1 != c } }
    (s.driftEvent c).stoppedOrder c

/-! ## Flow buffers and index queues -/

/-- Grants a slot to a descriptor that waits on its flow buffer, and presents the slot (R348). -/
def State.slotGrant (s : State) (c : Fin 32) : State :=
  match s.current c with
  | none => s
  | some (st, d0) =>
    let d := d0.rebase (s.chan c).bases
    let b := s.drf.fb.get d.buf
    match d.role b c with
    | none => s
    | some p =>
      if d.empty || !d.buffered || st.slot.isSome || !b.open p then s
      else
        let n := if p then b.head.toNat else b.tail.toNat
        let lo := b.slotBase n
        let (s, id) := s.present (.drift c) (clipRange lo (lo + b.slot.toNat - 1) p)
        s.modSet c fun t => { t with slot := some n, slotSb := some id }

/-- The index drift of a channel has retired (R345): it delivers no more. -/
def State.indexRetired (s : State) (k : Fin 32) : Bool :=
  let x := s.chan k
  let pend := fun (o : Option DriftSet) => match o with
    | some st => (st.descs.drop st.cur).any (·.isIndex)
    | none => false
  x.state != 1 || (!x.wantsSet && !pend x.set && !pend x.next && !x.stopping && !x.halting)

/-- A channel stalled on an index queue goes on; an empty queue whose index drift has retired gives the remaining rows
or elements an index at or above the limit (R343, R345). -/
def State.indexResume (s : State) (c : Fin 32) : State :=
  let s := s.drive c
  match s.stall c, s.current c with
  | some (.queueEmpty k), some (st, d) =>
    if s.indexRetired k then
      (s.modSet c fun t => { t with idxs := t.idxs ++ List.replicate (d.indexCount - st.idxs.length) (-2) }).drive c
    else s
  | _, _ => s

/-- A descriptor that a channel holds names a flow buffer (R347). -/
def State.bufferNamed (s : State) (b : Fin 16) : Bool :=
  (fins 32).any fun c =>
    let x := s.chan c
    let of := fun (o : Option DriftSet) => match o with
      | some st => st.descs.any fun d => d.buffered && d.buf == b
      | none => false
    of x.set || of x.next || of x.cached

/-- A write of one of the five registers of a flow buffer (R347, R533). -/
def FlowBuf.write (b : FlowBuf) (word : Fin 5) (v : Word) : FlowBuf :=
  if word = 0 then { b with base := v }
  else if word = 1 then { b with slot := v.extractLsb' 0 20, count := v.extractLsb' 20 9 }
  else if word = 2 then { b with prod := v.extractLsb' 0 6, cons := v.extractLsb' 8 6 }
  else if word = 3 then { b with head := v }
  else { b with tail := v }

/-- FB_CONFIG: BUSY while a channel names the buffer (R347). -/
def State.fbConfig (s : State) (r : Reader) (b : Fin 16) (word : Fin 5) (v : Word) : State :=
  if !s.mayWrite r then s
  else if s.bufferNamed b then s.setRstat r 2
  else { s with drf := { s.drf with fb := vmod s.drf.fb b fun x => x.write word v } }

/-- A hart posts or releases a slot (R349). -/
def State.fbAdvance (s : State) (r : Reader) (b : Fin 16) (post : Bool) : State :=
  match Reader.hart? r with
  | none => s
  | some h =>
    let x := s.drf.fb.get b
    if !s.canAct r || (if post then x.prod else x.cons).toNat != 32 + h.val then s
    else
      let y := if post then { x with head := x.head + 1 } else { x with tail := x.tail + 1 }
      { s with drf := { s.drf with fb := vset s.drf.fb b y } }

/-! ## Deadlocks (R366 to R369) -/

/-- The node of a party (R366). -/
def State.partyHart (s : State) : Party → Hart
  | .channel c => (s.chan c).owner
  | .hartWait h => h

/-- The buffers and channels that a hart in its event wait waits for, by its enabled events. -/
def State.waitsFor (s : State) (h : Hart) : List (Fin 16) × List (Fin 32) :=
  let c := (s.hart h).csr
  let bufs := if c.even.getLsbD 4 then (fins 16).filter fun b =>
      let x := s.drf.fb.get b
      c.fbw.getLsbD b.val && (x.prod.toNat == 32 + h.val || x.cons.toNat == 32 + h.val) else []
  let chs := if c.even.getLsbD 0 then (fins 32).filter fun k => c.drw.getLsbD k.val && (s.chan k).owner == h else []
  (bufs, chs)

/-- A party is blocked (R366, R412). -/
def State.blocked (s : State) : Party → Bool
  | .channel c => (s.stall c).isSome
  | .hartWait h =>
    let t := s.hart h
    t.wait == .wfi && !s.eventReady h && t.csr.even &&& 0b111101110 == 0 && t.csr.even != 0 &&
      !t.trap.mieReg.getLsbD 16

/-- The channel or hart that a PROD or CONS field names (R533). -/
def partyOf (f : BitVec 6) : Option Party :=
  if f.toNat < 32 then some (.channel (f.setWidth 5).toFin)
  else if f.toNat < 48 then some (.hartWait (f.setWidth 4).toFin) else none

/-- The parties that can release a blocked party (R367). -/
def State.releasers (s : State) : Party → List Party
  | .channel c =>
    match s.stall c with
    | some (.space b) => (partyOf (s.drf.fb.get b).cons).toList
    | some (.data b) => (partyOf (s.drf.fb.get b).prod).toList
    | some (.queueFull k) | some (.queueEmpty k) => [.channel k]
    | none => []
  | .hartWait h =>
    let (bufs, chs) := s.waitsFor h
    (bufs.flatMap fun b =>
      let x := s.drf.fb.get b
      (if x.cons.toNat == 32 + h.val then (partyOf x.prod).toList else []) ++
        (if x.prod.toNat == 32 + h.val then (partyOf x.cons).toList else [])) ++ chs.map .channel

/-- The hart that a blocked party's node waits for through it: all its releasers belong to it and are blocked. -/
def State.partyEdge (s : State) (p : Party) : Option Hart :=
  if !s.blocked p then none
  else match s.releasers p with
    | [] => none
    | q :: r =>
      let g := s.partyHart q
      if (q :: r).all fun x => s.partyHart x == g && s.blocked x then some g else none

/-- The parties of a hart (R366). -/
def State.partiesOf (s : State) (h : Hart) : List Party :=
  .hartWait h :: ((fins 32).filter fun c => (s.chan c).owner == h).map .channel

/-- The edges of a hart (R367). -/
def State.edges (s : State) (h : Hart) : List Hart := (s.partiesOf h).filterMap s.partyEdge

/-- A path from one hart to another along edges, if there is one; at most `n` more harts. -/
def State.pathTo (s : State) (goal : Hart) : Nat → List Hart → Hart → Option (List Hart)
  | 0, _, _ => none
  | n + 1, seen, h =>
    if h = goal then some [h]
    else if seen.contains h then none
    else (s.edges h).findSome? fun g => (s.pathTo goal n (h :: seen) g).map fun p => h :: p

/-- A cycle from its lowest hart on. -/
def fromLowest (l : List Hart) : List Hart :=
  let i := l.findIdx fun h => l.all fun g => decide (h.val ≤ g.val)
  l.drop i ++ l.take i

/-- The harts of a cycle that a party's edges close, from the lowest on in the order of its edges. -/
def State.cycleOf (s : State) (p : Party) : Option (List Hart) :=
  let h := s.partyHart p
  match s.partyEdge p with
  | none => none
  | some g => (s.pathTo h 17 [] g).map fromLowest

/-- The edges of a cycle. -/
def cycleEdges (l : List Hart) : List (Hart × Hart) := l.zip (l.drop 1 ++ l.take 1)

/-- A reported cycle still stands: each of its own edges does (R368). -/
def State.cycleStands (s : State) (l : List Hart) : Bool := (cycleEdges l).all fun e => (s.edges e.1).contains e.2

/-- Every party that can be blocked. -/
def allParties : List Party := (fins 32).map Party.channel ++ (fins 16).map Party.hartWait

/-- The parties that are blocked now in the order in which they became so: those that were and still are, and then the new
ones. -/
def State.blockedNow (s : State) : List Party :=
  s.drf.watch.blocked.filter s.blocked ++ allParties.filter fun p => s.blocked p && !s.drf.watch.blocked.contains p

/-- The watch for deadlocks after a command: which parties are blocked, and reported cycles that were broken are forgotten
(R366, R368). -/
def State.pruneCycles (s : State) : State :=
  { s with drf := { s.drf with watch := { blocked := s.blockedNow, cycles := s.drf.watch.cycles.filter s.cycleStands } } }

/-- The party that closed a cycle: of the parties that its edges go through, the one that became blocked last (R368). -/
def State.closer (s : State) (l : List Hart) : Option Party :=
  (s.drf.watch.blocked.filter fun p =>
    (cycleEdges l).any fun e => s.partyHart p == e.1 && s.partyEdge p == some e.2).getLast?

/-- The number and kind that CE_DRF_DLCK and mtval give a party (R406, R531). -/
def State.partyCode (s : State) : Party → BitVec 6 × Bool
  | .channel c => (BitVec.ofNat 6 c.val, false)
  | .hartWait h =>
    match s.waitsFor h with
    | (b :: _, _) => (BitVec.ofNat 6 b.val, true)
    | ([], c :: _) => (BitVec.ofNat 6 c.val, true)
    | ([], []) => (0, true)

/-- The blocked party that closed a cycle faults its owner, at once or, in a window access or lease write, at its end, which is
its next instruction boundary (R368). -/
def State.deadlock (s : State) (p : Party) : State :=
  let s := s.pruneCycles
  match s.cycleOf p with
  | none => s
  | some l =>
    if s.drf.watch.cycles.contains l || s.closer l != some p || !s.powered then s
    else
      let (n, k) := s.partyCode p
      let mask := l.foldl (fun (m : BitVec 16) h => m ||| BitVec.ofNat 16 (2 ^ h.val)) 0
      let s := { s with drf := { s.drf with dlckHarts := mask, dlckParty := n, dlckKind := k, dlckV := true
                                            watch := { s.drf.watch with cycles := s.drf.watch.cycles ++ [l] } } }
      let h := s.partyHart p
      let tval : Word := (0 : BitVec 24) ++ (0 : BitVec 1) ++ BitVec.ofBool k ++ n
      let now := (s.hart h).wait == .run || (s.hart h).wait == .wfi
      (if now then s.trap h 25 tval else s.modHart h fun t => { t with dlock := some tval }).pruneCycles

/-! ## The commands -/

/-- A re-arm that starts a pass at once runs it as far as it goes (R352). -/
def State.rearm (s : State) (r : Reader) (ch : BitVec 5) : State :=
  match s.drfRearm r ch with
  | (s, true) => (s.retireSet ch.toFin 1).drive ch.toFin
  | (s, false) => s

/-- Writes of CE_DRF_GO (false) and CE_DRF_REARM (true) that reach one channel in one step, in the order of R354 and R431: the
management processor's first, then the harts' from the lowest on. -/
def State.chainWrites (s : State) (ch : BitVec 5) (ws : List (Reader × Bool)) : State :=
  s.forEach ((mgmt :: (fins 16).map Hart.reader).flatMap fun q => ws.filter fun w => w.1 == q) fun s w =>
    if w.2 then s.rearm w.1 ch else s.drfGo w.1 ch

/-- DRF_GO (R320): `met` are the other writes of CE_DRF_GO and CE_DRF_REARM (true) that reach the channel in the same step,
and the command performs them all in their order (R354). -/
def execDrfGo (r : Reader) (ch : BitVec 5) (met : List (Reader × Bool)) (s : State) : Host.Outcome State Fault Refusal :=
  .next (if s.powered then (s.chainWrites ch ((r, false) :: met.filter fun w => w.1 != r)).pruneCycles else s)

/-- DRF_REARM (R352): an accepted pass starts at once; `met` as in DRF_GO. -/
def execDrfRearm (r : Reader) (ch : BitVec 5) (met : List (Reader × Bool)) (s : State) : Host.Outcome State Fault Refusal :=
  .next (if s.powered then (s.chainWrites ch ((r, true) :: met.filter fun w => w.1 != r)).pruneCycles else s)

/-- DRF_RESUME (R359). -/
def execDrfResume (r : Reader) (ch : BitVec 5) (s : State) : Host.Outcome State Fault Refusal :=
  .next (if s.powered then (s.drfResume r ch).pruneCycles else s)

/-- DRF_STOP (R360). -/
def execDrfStop (r : Reader) (ch : Fin 32) (s : State) : Host.Outcome State Fault Refusal :=
  .next (if s.powered then (s.drfStop r ch).pruneCycles else s)

/-- DRF_OWN (R319). -/
def execDrfOwn (r : Reader) (ch : Fin 32) (h : Hart) (s : State) : Host.Outcome State Fault Refusal :=
  .next (if s.canAct r then (s.drfOwn r ch h).pruneCycles else s)

/-- FB_CONFIG (R347): `lost` are the harts that write the register in the same step (R431). -/
def execFbConfig (r : Reader) (b : Fin 16) (word : Fin 5) (v : Word) (lost : List Hart) (s : State) :
    Host.Outcome State Fault Refusal :=
  .next (if s.mayWrite r then s.stateWrite s.mayWrite r lost fun s => (s.fbConfig r b word v).pruneCycles else s)

/-- FB_POST (R349). -/
def execFbPost (r : Reader) (b : Fin 16) (s : State) : Host.Outcome State Fault Refusal :=
  .next (if s.powered then (s.fbAdvance r b true).pruneCycles else s)

/-- FB_RELEASE (R349). -/
def execFbRelease (r : Reader) (b : Fin 16) (s : State) : Host.Outcome State Fault Refusal :=
  .next (if s.powered then (s.fbAdvance r b false).pruneCycles else s)

/-- DESCRIPTOR_SET_FETCH (R323). -/
def execDescriptorSetFetch (ch : Fin 32) (res : FetchResult) (s : State) : Host.Outcome State Fault Refusal :=
  .next (if s.powered then (s.fetchSet ch res).pruneCycles else s)

/-- FABRIC_READ_LINE (R357). -/
def execFabricReadLine (ch : Fin 32) (addr : BitVec 48) (res : LineResult) (s : State) : Host.Outcome State Fault Refusal :=
  .next (if s.powered then (s.readLine ch addr.toNat res).pruneCycles else s)

/-- FABRIC_WRITE_RESPONSE (R356). -/
def execFabricWriteResponse (ch : Fin 32) (res : WriteResult) (s : State) : Host.Outcome State Fault Refusal :=
  .next (if s.powered then (s.writeResponse ch res).pruneCycles else s)

/-- SET_RETIRE (R325). -/
def execSetRetire (ch : Fin 32) (s : State) : Host.Outcome State Fault Refusal :=
  .next (if s.powered then (s.setRetire ch).pruneCycles else s)

/-- SHADOW_EFFECT (R352). -/
def execShadowEffect (ch : Fin 32) (s : State) : Host.Outcome State Fault Refusal :=
  .next (if s.powered then (s.shadowEffect ch).pruneCycles else s)

/-- CHANNEL_HALT (R358). -/
def execChannelHalt (ch : Fin 32) (s : State) : Host.Outcome State Fault Refusal :=
  .next (if s.powered then (s.channelHalt ch).pruneCycles else s)

/-- CHANNEL_STOPPED (R360). -/
def execChannelStopped (ch : Fin 32) (s : State) : Host.Outcome State Fault Refusal :=
  .next (if s.powered then (s.channelStopped ch).pruneCycles else s)

/-- SLOT_GRANT (R348). -/
def execSlotGrant (ch : Fin 32) (s : State) : Host.Outcome State Fault Refusal :=
  .next (if s.powered then ((s.slotGrant ch).drive ch).pruneCycles else s)

/-- INDEX_QUEUE_RESUME (R343). -/
def execIndexQueueResume (ch : Fin 32) (s : State) : Host.Outcome State Fault Refusal :=
  .next (if s.powered then (s.indexResume ch).pruneCycles else s)

/-- DEADLOCK (R368). -/
def execDeadlock (p : Party) (s : State) : Host.Outcome State Fault Refusal := .next (if s.powered then s.deadlock p else s)

end Sys2Proof.Machine
end

