-- ==== Sys2Proof/Machine/Mortar.lean ====
section
/-! DEFINITION. The mortar sequencer: course blocks and their checks (R240 to R243, R249, R250), its reads and writes of
Icefield (R239), course commands (R242 to R247), operand and result transfers (R232 to R238), and the order of the work
(R248). -/

namespace Sys2Proof.Machine

/-! ## Course blocks (R240, R250) -/

/-- The course in the words of its block and of its parameter block. -/
def courseOf (b p : Nat → Word) : CourseDesc :=
  let w := b 0
  { bond := w.extractLsb' 0 4, s := w.getLsbD 4, sat := w.getLsbD 5, fmtp := w.extractLsb' 6 4
    fmto := w.extractLsb' 10 4, wreg := w.extractLsb' 14 6, tra := w.getLsbD 20, trb := w.getLsbD 21
    gat := w.getLsbD 22, spb := w.getLsbD 23, m := (b 1).toNat, n := (b 2).toNat, k := (b 3).toNat
    a := b 4, b := b 5, c := b 6, out := b 7, aux0 := b 8, aux1 := b 9, tau := b 11
    p := Vector.ofFn fun i : Fin 8 => p i.val
    resv := w.extractLsb' 24 8 != 0 || b 13 != 0 }

/-- The bond by number. -/
def CourseDesc.bn (d : CourseDesc) : Nat := d.bond.toNat
/-- A word of the parameter block. -/
def CourseDesc.par (d : CourseDesc) (n : Fin 8) : Word := d.p.get n
/-- Head dimension of C in tiles: DV + 1 (R250). -/
def CourseDesc.dv (d : CourseDesc) : Nat := ((d.par 0).extractLsb' 2 2).toNat + 1
/-- Output width of product 3 (R250). -/
def CourseDesc.pw (d : CourseDesc) : Nat := (d.par 1).toNat
/-- CAUSAL of an attention bond. -/
def CourseDesc.causal (d : CourseDesc) : Bool := (d.par 0).getLsbD 0
/-- MASK of an attention bond. -/
def CourseDesc.masked (d : CourseDesc) : Bool := (d.par 0).getLsbD 1
/-- SCV. -/
def CourseDesc.scv (d : CourseDesc) : Bool := d.bn < 3 && (d.par 0).getLsbD 3
/-- BIAS. -/
def CourseDesc.bias (d : CourseDesc) : Bool := d.bn < 3 && (d.par 0).getLsbD 4
/-- DEFER of a head (R250; for B14 from the text that precedes R273, log entry 32). -/
def CourseDesc.defer (d : CourseDesc) : Bool := (d.bn == 9 || d.bn == 10 || d.bn == 14) && (d.par 0).getLsbD 3
/-- DRAWS. -/
def CourseDesc.draws (d : CourseDesc) : Nat := ((d.par 0).extractLsb' 0 3).toNat
/-- B04 applies: as a prologue or as the bond itself. -/
def CourseDesc.gather (d : CourseDesc) : Bool := d.gat || d.bn == 4
/-- B03 applies to operand A; B03 without TRA and TRB transposes operand A (log entry 33). -/
def CourseDesc.transA (d : CourseDesc) : Bool := d.tra || (d.bn == 3 && !d.trb)
/-- FMTO. -/
def CourseDesc.fo (d : CourseDesc) : Fmt := (Fmt.ofCode d.fmto).getD .fp32
/-- FMTP. -/
def CourseDesc.fp (d : CourseDesc) : Fmt := (Fmt.ofCode d.fmtp).getD .bf16
/-- The residual format of B11 is one that R250 gives. -/
def CourseDesc.fresOk (d : CourseDesc) : Bool :=
  match Fmt.ofCode ((d.par 0).extractLsb' 0 4) with
  | some f => f == .fp32 || f == .bf16
  | none => false
/-- Residual format of B11. -/
def CourseDesc.fres (d : CourseDesc) : Fmt := (Fmt.ofCode ((d.par 0).extractLsb' 0 4)).getD .fp32

/-- Tiles that cover a dimension. -/
def tilesOf (n : Nat) : Nat := (n + 63) / 64
/-- Valid rows or columns of tile `i` of a dimension (R241). -/
def extentOf (n i : Nat) : Nat := min 64 (n - 64 * i)

/-- Words of a tile in a form (R241): elements, and scales when it is block-scaled. -/
def formWords (f : OpForm) : Nat :=
  128 * f.fmt.width + (if f.block = 1 then 64 else if f.block = 2 then 32 else 0)

/-- Brick size, capacity code and words per brick of a brick parameter word (R250). -/
def brickParam (w : Word) (f : Fmt) : Nat × Nat × Nat :=
  let kc := (w.extractLsb' 17 3).toNat
  (if w.getLsbD 16 then 16 else 32, kc, brickLen kc f)

/-- Words of a tile of packed bricks. -/
def brickTileWords (w : Word) (f : Fmt) : Nat := let (b, _, l) := brickParam w f; 4096 / b * l

/-! ## The checks of R243 -/

/-- Bits of the parameter words that a bond names (R250), word by word. -/
def parMask (d : CourseDesc) : List Word :=
  let all : Word := 0xFFFFFFFF
  let own : List Word := match d.bn with
    | 0 => [0x7F, 0, 0, 0, 0, 0, 0]
    | 1 | 2 => [0x7F, 0, all, 0, 0, 0, 0]
    | 3 => [0, 0, 0, 0, 0, 0, 0]
    | 4 => [0, all, 0, 0, 0, 0, 0]
    | 5 | 6 => [0xF, all, all, 0, 0, 0, 0]
    | 7 => [0x3, all, all, all, all, all, 0]
    | 8 => [0x7, all, 0, 0, 0, 0, 0]
    | 9 => [0xF, all, 0xFFFFFF, 0xFFFFFF, all, all, all]
    | 10 => [0x8, all, 0, 0, all, 0, 0]
    | 11 => [0xF, all, 0, 0, 0, 0, 0]
    | 12 => [0x1FFFFF, 0, 0, 0, 0, 0, 0]
    | 13 => [0x1, all, 0, 0, 0, 0, 0]
    | 14 => [0x8, all, all, all, all, all, all]
    | _ => [0x1FFFF, all, all, 0, 0, 0, 0]
  let own := if d.gat then own.set 1 all else own
  own ++ [if d.spb then 0x1FFFFF else 0]

/-- ILLEGAL (R243). -/
def CourseDesc.illegal (d : CourseDesc) : Bool :=
  d.resv || (((parMask d).zipIdx.any fun (m, i) => (d.p.toList.getD i 0) &&& ~~~m != 0)) ||
    (d.wreg.toNat % 8 != 0) ||
    d.m == 0 || d.n == 0 || d.k == 0 || decide (2 ^ 18 ≤ d.m) || decide (2 ^ 20 ≤ d.n) || decide (2 ^ 20 ≤ d.k) ||
    ((d.bn < 3 || d.bn == 8) && decide (6 ≤ ((d.par 0).extractLsb' 0 3).toNat)) ||
    (d.bn == 9 && decide (4 < d.draws)) ||
    (d.bn == 8 && d.pw == 0) ||
    (d.bn == 15 && ((d.par 0).extractLsb' 0 4 == 0 || decide ((d.par 0).extractLsb' 0 4 ≤ (d.par 0).extractLsb' 4 4)))

/-- A format of R234. -/
def opFmt : Fmt → Bool
  | .e4m3 | .e5m2 | .bf16 | .fp16 | .int8 => true
  | _ => false

/-- The form of an operand is one that R234 and R50 give. -/
def formOk (f : OpForm) : Bool := opFmt f.fmt && f.block != 3 && (f.block == 0 || f.fmt.width == 8)

/-- Two formats that make a product (R74, R234). -/
def prodFmts (f g : Fmt) : Bool := f == g || (f.isFp8 && g.isFp8)

/-- Formats of OUT (R249). B09, B10 and B15 write head records, for which R249 names no format: they take any code, a
reserved one too. DESIGN CHOICE, log entry 171. -/
def outFmtOk (d : CourseDesc) : Bool :=
  let wide := fun (f : Fmt) => f == .bf16 || f == .fp16 || f == .fp32
  match Fmt.ofCode d.fmto with
  | none => d.bn == 9 || d.bn == 10 || d.bn == 15
  | some f =>
    match d.bn with
    | 0 | 1 | 2 | 3 | 4 => f.everywhere
    | 5 | 6 | 8 | 11 | 14 => wide f
    | 7 => f == .bf16 || f == .fp16 || f.isFp8
    | 12 => brickFmt f && (!(d.par 0).getLsbD 20 || f.width == 8)
    | 13 => f.isFloat && f.everywhere
    | _ => true

/-- FMTP where the bond makes operand tiles (R249); the other bonds take any code there, a reserved one too. DESIGN CHOICE,
log entry 171. -/
def madeFmtOk (d : CourseDesc) : Bool :=
  match Fmt.ofCode d.fmtp with
  | some f =>
    if d.bn == 5 || d.bn == 6 || d.bn == 7 then f == .bf16 || f == .fp16 || f == .e4m3
    else if d.bn == 8 then f == .bf16 || f == .fp16 || f.isFp8
    else true
  | none => !(d.bn == 5 || d.bn == 6 || d.bn == 7 || d.bn == 8)

/-- Every format of a course is one that its bond accepts (R243). -/
def CourseDesc.formatsOk (d : CourseDesc) (fs : Vector OpForm 4) : Bool :=
  let fa := fs.get 0; let fb := fs.get 1; let fc := fs.get 2; let fd := fs.get 3
  outFmtOk d && madeFmtOk d &&
    (d.bn == 11 → d.fresOk) &&
    (d.bn == 15 ||
      (formOk fa && formOk fb && prodFmts fa.fmt fb.fmt && !(d.spb && (fb.block != 0 || !brickFmt fb.fmt)) &&
        match d.bn with
        | 5 | 6 => formOk fc && prodFmts d.fp fc.fmt
        | 7 => formOk fc && formOk fd && prodFmts fc.fmt fd.fmt
        | 8 => formOk fc && prodFmts fa.fmt fc.fmt && formOk fd && prodFmts d.fp fd.fmt
        | _ => true))

/-- The blocks that a course names: an address and its length in words (R240, R241, R250). -/
def CourseDesc.blocks (d : CourseDesc) (fs : Vector OpForm 4) : List (Word × Nat) :=
  let tm := tilesOf d.m; let tn := tilesOf d.n; let tk := tilesOf d.k
  let to' := 128 * d.fo.width
  let a := (d.a, tm * tk * formWords (fs.get 0))
  let b := (d.b, tk * tn * (if d.spb then brickTileWords (d.par 7) (fs.get 1).fmt else formWords (fs.get 1)))
  let ab := [a, b] ++ if d.gather then [(d.par 1, d.m)] else []
  let out := (d.out, tm * tn * to')
  match d.bn with
  | 0 | 1 | 2 =>
    ab ++ [out] ++ (if d.scv then [(d.aux0, d.n)] else []) ++ (if d.bias then [(d.aux1, d.n)] else []) ++
      (if d.bn = 1 then [(d.par 2, d.m)] else if d.bn = 2 then [(d.par 2, d.n)] else [])
  | 3 | 4 => ab ++ [out]
  | 5 | 6 =>
    ab ++ [(d.c, tn * d.dv * formWords (fs.get 2)), (d.out, tm * d.dv * to'), (d.par 2, d.m)] ++
      if d.masked then [(d.aux0, tm * tn * 128)] else []
  | 7 =>
    let fc := formWords (fs.get 2)
    ab ++ [(d.c, tm * tk * fc), (d.aux0, tk * tn * formWords (fs.get 3)), out, (d.par 2, d.m), (d.par 3, d.m),
      (d.par 4, tm * tn * to'), (d.par 5, tm * tk * fc)] ++ if d.masked then [(d.aux1, tm * tn * 128)] else []
  | 8 =>
    ab ++ [(d.c, tk * tn * formWords (fs.get 2)), (d.aux0, tn * tilesOf d.pw * formWords (fs.get 3)),
      (d.out, tm * tilesOf d.pw * to')]
  | 9 => ab ++ [(d.out, 16 * d.m), (d.aux0, d.m)]
  | 10 => ab ++ [(d.out, 16 * d.m), (d.aux0, d.m)]
  | 11 => ab ++ [out, (d.aux0, tm * tn * 128 * d.fres.width), (d.aux1, d.n)]
  | 12 =>
    let (bsz, _, _) := brickParam (d.par 0) d.fo
    ab ++ [(d.out, tm * tn * brickTileWords (d.par 0) d.fo), (d.aux0, tm * tn * (4096 / bsz))]
  | 13 => ab ++ [out, (d.aux0, tm * tn * 128), (d.par 1, tm * tn * 4096)]
  | 14 =>
    ab ++ [(d.out, 16 * d.m), (d.aux1, 4 * d.m)] ++ if d.defer then [] else [(d.par 6, tm * tn * to')]
  | _ => [(d.out, 16 * d.m), (d.par 2, 16 * d.m * ((d.par 0).extractLsb' 0 4).toNat)]

/-- The words of a block lie in the floe that its address names (R158). -/
def State.blockIn (s : State) (b : Word × Nat) : Bool :=
  let f := s.floe (floePart b.1)
  b.2 == 0 || (f.used && decide (f.window.1 ≤ wordPart b.1) && decide (wordPart b.1 + b.2 ≤ f.window.2))

/-- The resident words of a block touch a melted segment. -/
def State.blockMelted (s : State) (b : Word × Nat) : Bool :=
  let f := s.floe (floePart b.1)
  let o := wordPart b.1 - f.window.1
  let lo := f.pbase.toNat * 1024 + o
  let hi := f.pbase.toNat * 1024 + min (o + b.2) (f.res.toNat * 1024)
  decide (lo < hi) && (fins 64).any fun g =>
    s.ice.segs.get g == .melted && decide (lo < (g.val + 1) * 2 ^ 18) && decide (g.val * 2 ^ 18 < hi)

/-- The working registers are leased exclusive to the starting hart (R243). A course of the management processor runs
as a hart's does (R23): its registers are leased exclusive to one hart, whichever it is. DESIGN CHOICE, log entry 57.
-/
def State.leaseOk (s : State) (who : Reader) (d : CourseDesc) : Bool :=
  let h := (Reader.hart? who).getD (s.tiles.get (regAt d.wreg.toFin 0)).owner
  (List.range 8).all fun i =>
    let t := s.tiles.get (regAt d.wreg.toFin i)
    t.lease == .exclusive && t.owner == h

/-- The status of the first check that fails (R243). -/
def State.courseCheck (s : State) (who : Reader) (d : CourseDesc) (fs : Vector OpForm 4) (par : Word) :
    Option (BitVec 4) :=
  let bs := (par, 8) :: d.blocks fs
  if d.illegal then some 2
  else if !d.formatsOk fs then some 3
  else if !s.leaseOk who d then some 4
  else if !bs.all s.blockIn then some 5
  else if bs.any s.blockMelted then some 6
  else none

/-! ## The order of the work (R248, R258) -/

/-- The sweeps of a row band (R249). B07 forms D first, and B08 takes its output tiles last: each counts as a sweep here.
-/
def CourseDesc.sweeps (d : CourseDesc) : Nat :=
  match d.bn with
  | 6 | 7 | 8 | 11 => 2
  | 14 => if d.defer then 1 else 2
  | _ => 1

/-- Column tiles of a sweep. -/
def CourseDesc.cols (d : CourseDesc) (sweep : Nat) : Nat :=
  if d.bn = 7 && sweep = 1 then 0
  else if d.bn = 8 && sweep = 2 then tilesOf d.pw
  else tilesOf d.n

/-- A sweep that makes probability tiles and takes the products with C. -/
def CourseDesc.attends (d : CourseDesc) (sweep : Nat) : Bool := d.bn == 5 || (d.bn == 6 && sweep == 2)

/-- The causal rule masks a score (R258). -/
def CourseDesc.causalMask (d : CourseDesc) (r c : Nat) : Bool :=
  d.causal && decide ((r : Int) + (d.par 1).toInt < c)

/-- A key tile that B05 and B06 leave out (R258). -/
def CourseDesc.skips (d : CourseDesc) (band j : Nat) : Bool :=
  (d.bn == 5 || d.bn == 6) && d.causalMask (64 * band + extentOf d.m band - 1) (64 * j)

/-- Phases of a column tile. -/
def CourseDesc.phases (d : CourseDesc) (sweep : Nat) : Nat := if d.attends sweep then 1 + d.dv else 1

/-- The first column tile from `j` on that is not left out, in at most `n` looks. -/
def CourseDesc.firstCol (d : CourseDesc) (band : Nat) : Nat → Nat → Nat
  | 0, j => j
  | n + 1, j => if d.skips band j then d.firstCol band n (j + 1) else j

/-- The next piece of bond work; a column tile past the last one stands for the end of the sweep. -/
def CourseDesc.after (d : CourseDesc) (c : Cursor) : Cursor :=
  let n := d.cols c.sweep
  let start := fun (band : Nat) (sweep : Nat) => d.firstCol band (d.cols sweep) 0
  if c.j < n && c.ph + 1 < d.phases c.sweep then { c with ph := c.ph + 1 }
  else if c.j < n then { c with j := d.firstCol c.band n (c.j + 1), ph := 0 }
  else if c.sweep < d.sweeps then { c with sweep := c.sweep + 1, j := start c.band (c.sweep + 1), ph := 0 }
  else { band := c.band + 1, sweep := 1, j := start (c.band + 1) 1, ph := 0 }

/-- All the work is done. -/
def CourseDesc.over (d : CourseDesc) (c : Cursor) : Bool := decide (tilesOf d.m ≤ c.band)

/-- A column tile past the last one counts as the last. -/
def CourseDesc.ends (d : CourseDesc) (c : Cursor) : Bool := decide (d.cols c.sweep ≤ c.j)

/-- The result tiles that a piece of bond work needs. -/
def CourseDesc.needs (d : CourseDesc) (c : Cursor) : List (BitVec 3 × Nat × Nat) :=
  if d.ends c then []
  else match d.bn with
    | 7 => if c.sweep = 1 then [] else [(5, c.band, c.j), (6, c.band, c.j)]
    | 8 => if c.sweep = 1 then [(5, c.band, c.j), (6, c.band, c.j)] else [(7, c.band, c.j)]
    | 11 => if c.sweep = 1 then [(5, c.band, c.j)] else []
    | _ => if c.ph = 0 then [(5, c.band, c.j)] else [(6, c.band, c.ph - 1)]

/-! ## Reads and writes of Icefield by the sequencer (R239) -/

/-- Changes the sequencer. -/
def State.modMortar (s : State) (f : Mortar → Mortar) : State := { s with mortar := f s.mortar }

/-- Changes the running course. -/
def State.modRun (s : State) (f : CourseRun → CourseRun) : State :=
  s.modMortar fun m => { m with run := m.run.map f }

/-- One place is earlier than another. -/
def Cursor.before (a b : Cursor) : Bool :=
  decide (a.band < b.band) || (a.band == b.band && (decide (a.sweep < b.sweep) || (a.sweep == b.sweep &&
    (decide (a.j < b.j) || (a.j == b.j && decide (a.ph < b.ph))))))

/-- The last piece of work of the output tile at hand at a place (R276). A bond that forms its output over the column
tiles of a row band completes the band's output tiles or records; B08 and B14 have their own output tiles in sweep 2. -/
def CourseDesc.lastOf (d : CourseDesc) (c : Cursor) : Cursor :=
  match d.bn with
  | 5 | 9 | 10 => { c with sweep := 1, j := d.cols 1, ph := 0 }
  | 6 => { c with sweep := 2, j := d.cols 2, ph := 0 }
  | 8 => if c.sweep = 1 then { c with sweep := 2, j := d.cols 2, ph := 0 } else c
  | 14 => if c.sweep = 1 then { c with j := d.cols 1, ph := 0 } else c
  | _ => c

/-- Records a fault that the work at a place has met (R276): the one of the earliest tile counts, since no later tile is
written. -/
def State.courseFault (s : State) (at' : Cursor) (codes : List (BitVec 4)) : State :=
  match codes with
  | [] => s
  | c :: _ => s.modRun fun r =>
    let last := r.d.lastOf at'
    match r.fault with
    | some (_, l) => if Cursor.before { last with ph := 0 } { l with ph := 0 } then { r with fault := some (c, last) } else r
    | none => { r with fault := some (c, last) }

/-- Ends the access of a purpose. -/
def State.mortarEnd (s : State) (key id : Nat) : State :=
  (s.endAccess id).modMortar fun m => { m with acc := m.acc.filter fun a => a.key != key }

/-- Ends the access of a purpose that none of its words needs any more. -/
def State.mortarForget (s : State) (key : Nat) : State :=
  match s.mortar.acc.find? fun a => a.key == key with
  | some a => s.mortarEnd key a.id
  | none => s

/-- The access of the sequencer for a purpose, presented with the range of its words where it has none yet (R296). -/
def State.mortarPresent (s : State) (key : Nat) (ws : List Nat) (write : Bool) : State × MortarAcc :=
  match s.mortar.acc.find? fun a => a.key == key with
  | some a => (s, a)
  | none =>
    let (s, id) := s.present .mortar [{ lo := ws.foldl min (ws.headD 0), hi := ws.foldl max 0, write }]
    let a : MortarAcc := { key, id }
    (s.modMortar fun m => { m with acc := m.acc ++ [a] }, a)

/-- The access of the sequencer for a purpose: presented once, allocated when nothing holds it. Answers its number once
it is allocated, holds its Firn entry if it reaches a bank, and its Moraine words are there (R296, R303, R564). -/
def State.mortarAccess (s : State) (key : Nat) (f : Fin 64) (ws : List Nat) (write : Bool) : State × Option Nat :=
  let (s, a) := s.mortarPresent key ws write
  let waiting := s.ice.sb.waiting.any fun x => x.id == a.id
  let banked := ws.any fun w => match s.place f w with | some (.phys _ _) => true | _ => false
  if (waiting && !s.ice.sb.ready a.id) || ws.any (s.wordReviving f) then (s, none)
  else
    let s := if waiting then s.allocate a.id else s
    let s := if banked then s.firnAsk a.id .mortar else s
    if banked && (s.firnFor a.id).isNone then (s, none)
    else
    let s := if a.asked || write then s
      else (s.morRead a.id f ws).modMortar fun m =>
        { m with acc := m.acc.map fun x => if x.key == key then { x with asked := true } else x }
    if s.morDone a.id then (s, some a.id) else (s, none)

/-- The block read for a purpose, if it has been read. -/
def Mortar.block (m : Mortar) (key : Nat) : Option (Store (BitVec 33)) := (m.aux.find? fun a => a.1 == key).map (·.2)

/-- Keeps a block that has been read. -/
def State.keepBlock (s : State) (key : Nat) (b : Store (BitVec 33)) : State :=
  s.modMortar fun m => { m with aux := (key, b) :: m.aux }

/-- Forgets the blocks of some purposes. -/
def State.dropBlocks (s : State) (p : Nat → Bool) : State :=
  s.modMortar fun m => { m with aux := m.aux.filter fun a => !p a.1 }

/-- Whom a read of the sequencer counts for (R561): a bond step's blocks are its starting hart's, the others the
sequencer's own. -/
def State.mortarSrc (s : State) (key : Nat) : Src :=
  match s.mortar.run with
  | some r => if key ≤ 16 then { src := 0, unit := BitVec.ofNat 6 r.who.val } else .mortar
  | none => .mortar

/-- Reads words of a block for a purpose, by their offsets from its address: none while it must wait. A word outside the
floe, or in a melted segment, reads as +0 marked and is a fault of the work at hand (R158, R276). -/
def State.mortarRead (s : State) (key : Nat) (at' : Cursor) (base : Word) (os : List Nat) : State × Option (Store (BitVec 33)) :=
  match s.mortar.block key with
  | some b => (s, some b)
  | none =>
    let f := floePart base
    let b := wordPart base
    let good := os.filter fun o => (s.wordBad f (b + o)).isNone
    let bad := os.filter fun o => !good.contains o
    let s := s.courseFault at' (bad.filterMap fun o => s.wordBad f (b + o))
    let marks : Store (BitVec 33) := bad.foldl (fun m o => sset 0 m o (mkCont 0 true)) []
    if good.isEmpty then ((s.mortarForget key).keepBlock key marks, some marks)
    else
      match s.mortarAccess key f (good.map (b + ·)) false with
      | (s, none) => (s, none)
      | (s, some id) =>
        let (s, m) := s.readWords (s.mortarSrc key) id f (good.map (b + ·))
        let v := good.foldl (fun acc o => sset 0 acc o (sget 0 m (b + o))) marks
        ((s.mortarEnd key id).keepBlock key v, some v)

/-- Reads several blocks in order, each by its key. -/
def State.mortarReads (s : State) (at' : Cursor) : List (Nat × Word × List Nat) → State × Bool
  | [] => (s, true)
  | (key, base, os) :: r =>
    match s.mortarRead key at' base os with
    | (s, none) => (s, false)
    | (s, some _) => s.mortarReads at' r

/-- What written words add to SUMMARY (R246, R276). -/
def OutWords.summary (o : OutWords) (written : Nat → Bool) : SumAcc :=
  (o.sums.filter fun q => written q.1).foldl (fun a q => a.join q.2) {}

/-- Writes words for a purpose: whether it is done. Words that cannot be reached are not written, do not count in
SUMMARY, and are a fault of the work at hand. -/
def State.mortarWrite (s : State) (key : Nat) (at' : Cursor) (o : OutWords) : State × Bool :=
  let good := o.ws.filter fun w => (s.wordBad o.floe w.1).isNone
  let s := s.courseFault at' (o.ws.filterMap fun w => s.wordBad o.floe w.1)
  if good.isEmpty then (s.mortarForget key, true)
  else
    match s.mortarAccess key o.floe (good.map (·.1)) true with
    | (s, none) => (s, false)
    | (s, some id) =>
      let ws : List IceWrite := good.map fun w =>
        { word := w.1, data := contData w.2.1, mask := w.2.2, mark := contMark w.2.1 }
      let add := o.summary fun w => (s.wordBad o.floe w).isNone
      let s := s.modRun fun r => { r with sum := r.sum.join add }
      (((s.writeWords .mortar id o.floe ws).mortarEnd key id).modMortar fun m => { m with writes := m.writes ++ [id] }, true)

/-- Every Moraine line that the sequencer wrote has been acknowledged (R363). -/
def State.mortarSettled (s : State) : Bool := s.mortar.writes.all s.morDone

/-- A whole word of a block. -/
def wordOut (base : Word) (off : Nat) (v : Word) (mark : Bool := false) : Nat × BitVec 33 × BitVec 4 :=
  (wordPart base + off, mkCont v mark, 0xF)

/-! ## Course commands (R242, R247, R519) -/

/-- The outcome of a reader's last write of CE_TILE_BOND (R519). -/
def State.bondLast (s : State) (r : Reader) (c : BitVec 2) : State :=
  s.modMortar fun m => { m with last := vset m.last r c }

/-- A write of a course address (R242, R519). -/
def State.courseStart (s : State) (r : Reader) (addr : Word) : State :=
  if addr.toNat % 16 ≠ 0 then s.bondLast r 2
  else
    let m := s.mortar
    if m.pend.isNone then (s.modMortar fun m => { m with pend := some (addr, r) }).bondLast r 0
    else if m.run.isNone && m.waiting.isNone then
      (s.modMortar fun m => { m with waiting := some (addr, r) }).bondLast r 0
    else s.bondLast r 1

/-- The STOP code (R247, R519). -/
def State.courseStop (s : State) (r : Reader) : State :=
  match s.mortar.run with
  | none => s.bondLast r 0
  | some c =>
    if s.privileged r || c.who == r then (s.modRun CourseRun.stop).bondLast r 0
    else s.bondLast r 2

/-- The DROP code (R247, R519). -/
def State.courseDrop (s : State) (r : Reader) : State :=
  match s.mortar.pending with
  | none => s.bondLast r 0
  | some c => if s.privileged r || c.2 == r then s.dropPending.bondLast r 0 else s.bondLast r 2

/-- Keys of the sequencer's accesses: blocks of the bond below 16, then those named here. The index vector of B04, and
the own records that B15 puts in place. -/
def keyIndex : Nat := 16
/-- An operand tile. -/
def keyOperand : Nat := 17
/-- The course block. -/
def keyCourse : Nat := 32
/-- The first write of STATUS. -/
def keyStatus : Nat := 33
/-- The parameter block. -/
def keyParam : Nat := 34
/-- An output tile. -/
def keyOut : Nat := 48
/-- SUMMARY and STATUS of a course that completes. -/
def keyDone : Nat := 49

/-- The first course of the queue leaves it. -/
def Mortar.shift (m : Mortar) : Mortar :=
  { m with pend := m.waiting, waiting := none, acc := m.acc.filter fun a => a.key == keyDone
           aux := m.aux.filter fun a => a.1 == keyDone }

/-- A course starts: its block is read, STATUS is written as RUNNING, the checks are made (R243). A course whose block
cannot be reached has no STATUS to write and completes with its event alone (log entry 34). -/
def State.courseBegin (s : State) (fs : Vector OpForm 4) : State :=
  match s.mortar.run, s.mortar.pend with
  | none, some (addr, who) =>
    let at' : Cursor := {}
    if (List.range 16).any fun o => (s.wordBad (floePart addr) (wordPart addr + o)).isSome then
      (s.modMortar Mortar.shift).raiseFor who 1
    else
      match s.mortarRead keyCourse at' addr (List.range 16) with
      | (s, none) => s
      | (s, some b) =>
        let (s, ok) := if (s.mortar.block keyStatus).isSome then (s, true)
          else
            let (s, ok) := s.mortarWrite keyStatus at' { floe := floePart addr, ws := [wordOut addr 12 0] }
            (if ok then s.keepBlock keyStatus [] else s, ok)
        if !ok then s
        else
          let w := fun (m : Store (BitVec 33)) o => contData (sget 0 m o)
          match s.mortarRead keyParam at' (w b 10) (List.range 8) with
          | (s, none) => s
          | (s, some p) =>
            let d := courseOf (w b) (w p)
            let slot := s.mortar.slot
            let free := s.freeCtr
            let run : CourseRun :=
              match s.courseCheck who d fs (w b 10) with
              | none =>
                let first : Cursor := { j := d.firstCol 0 (d.cols 1) 0 }
                { addr, who, slot, forms := fs, d, checked := true, free, send := first, at' := first, since := s.time }
              | some c => { addr, who, slot, forms := fs, d, status := c, finished := true, free }
            (s.modMortar fun m => { m.shift with run := some run, slot := !m.slot }).fresh
  | _, _ => s

/-- Every working register holds zero with clear slush bits and the full extent (R244). -/
def State.clearWorking (s : State) (d : CourseDesc) : State :=
  s.forEach (List.range 8) fun s i => s.modTile (regAt d.wreg.toFin i) fun t => { t with data := [], upset := [], vr := 256, vc := 64 }

/-- What SUMMARY and STATUS of a course will hold, in the order of R246. -/
def doneWords (addr : Word) (sum : DWord) (status : BitVec 4) : OutWords :=
  { floe := floePart addr
    ws := [wordOut addr 14 (sum.extractLsb' 0 32), wordOut addr 15 (sum.extractLsb' 32 32),
           wordOut addr 12 (status.setWidth 32)] }

/-- The entry of the statistic bank that a row leaves (R246, R257). -/
def RowStat.entry (r : RowStat) (strict : Bool) (count : Nat) : StatEntry :=
  { sum := if r.nan then { empty := false, nan := true, allNegZero := false }
           else if 0 < r.k then { empty := false, m := r.k, allNegZero := false } else r.s
    max := some (if r.nan then .nan false else Fmt.fp32.decode (r.m.setWidth 64)), count
    mark := some (if strict then .strict32 else .fast), slush := r.slush }

/-- The statistics of the last row band as bank entries (R246). -/
def CourseRun.bank (r : CourseRun) : List (Nat × StatEntry) :=
  let vr := extentOf r.d.m (tilesOf r.d.m - 1)
  match r.d.bn with
  | 1 | 11 => (List.range vr).map fun i => (i, sget {} r.stat i)
  | 5 | 6 | 9 | 10 | 14 => (List.range vr).map fun i => (i, (sget {} r.rows i).entry r.d.s r.d.n)
  | _ => []

/-- Output tiles of a row band, in the count of R425: a head writes the records of a band as one. -/
def CourseDesc.outCols (d : CourseDesc) : Nat :=
  match d.bn with
  | 5 | 6 => d.dv
  | 8 => tilesOf d.pw
  | 9 | 10 | 14 | 15 => 1
  | _ => tilesOf d.n

/-- Output tiles that a course has written when it completes; the records of a deferred head are none yet (R268, R273). -/
def CourseRun.tilesOut (c : CourseRun) : Nat :=
  let n := c.d.outCols
  let at' := if c.out.isEmpty then c.at' else c.outAt
  let part := if 1 < n && c.d.bn != 5 && c.d.bn != 6 && at'.sweep == c.d.sweeps then min at'.j n else 0
  if !c.checked || c.d.defer then 0 else if c.status = 1 then tilesOf c.d.m * n else at'.band * n + part

/-- A course of an attention order works on the blocks that the order names, from a whole row band on: Q, O and LSE from that
band, K, V and the mask as they stand (R423, R427). -/
def CourseDesc.servesAt (d : CourseDesc) (v : Vector Word 6) (f : Fmt) : Bool :=
  let band := (d.par 2 - v.get 4).toNat / 64
  let at' := fun (base : Word) (n : Nat) => base + BitVec.ofNat 32 (band * n)
  d.a == at' (v.get 0) (tilesOf d.k * 128 * f.width) && d.b == v.get 1 && d.c == v.get 2 &&
    d.out == at' (v.get 3) (d.dv * 128 * d.fo.width) && d.par 2 == at' (v.get 4) 64 &&
    (!d.masked || d.aux0 == at' (v.get 5) (tilesOf d.n * 128))

/-- A course is work of an order: its block holds what the order asks for, over the whole reduction and over whole row
bands (R423, R426, R427). -/
def CourseRun.serves (r : CourseRun) (w : OrderWork) : Bool :=
  let d := r.d
  let agrees := fun (o : Option Nat) (n : Nat) => match o with | some x => x == n | none => true
  w.bonds.contains d.bond && (d.bn == 15 ||
    ((w.shapes.isEmpty || w.shapes.contains (d.bond, d.n, d.k)) &&
      (match w.fmt with
        | some f => (r.forms.get 0).fmt == f && (r.forms.get 1).fmt == f && (r.forms.get 2).fmt == f &&
            (match w.blocks with | some v => d.servesAt v f | none => true)
        | none => true) &&
      agrees w.m d.m && agrees w.n d.n && agrees w.k d.k && d.s == w.s && d.sat == w.sat &&
      (match w.fmto with | some f => f == d.fmto | none => true) &&
      ((d.bn != 5 && d.bn != 6 && d.bn != 7) || (d.causal == w.causal && d.masked == w.mask)) &&
      (match w.offset with | some o => !d.causal || o == d.par 1 | none => true) &&
      (match w.tau with | some t => t == d.tau | none => true)))

/-- The last output of an order with a product: the course of its kernel that has completed (R425). -/
def State.noteCourse (s : State) (c : CourseRun) : State :=
  match (Reader.hart? c.who).bind s.kernelOf with
  | some o =>
    if o.work.any c.serves then
      s.modOrder o.id fun p => { p with last := some (c.sum.toWord, c.status), written := p.written + c.tilesOut }
    else s
  | none => s

/-- Writes SUMMARY and STATUS once every line of the course's writes has been acknowledged, and then waits for theirs
(R246, R363): whether that is over. -/
def State.mortarDone (s : State) (o : OutWords) : State × Bool :=
  if !s.mortarSettled then (s, false)
  else
    let (s, ok) := if (s.mortar.block keyDone).isSome then (s, true)
      else
        let (s, ok) := s.mortarWrite keyDone {} o
        (if ok then s.keepBlock keyDone [] else s, ok)
    if ok && s.mortarSettled then
      ((s.dropBlocks fun k => k == keyDone).modMortar fun m => { m with writes := [] }, true)
    else (s, false)

/-- A course completes: SUMMARY, then STATUS, then its registers, flags, statistics and the bond event (R244, R246); a
dropped course before it (R247). It waits for the acknowledgement of its Moraine lines (R363). -/
def State.courseComplete (s : State) : State :=
  match s.mortar.dropped with
  | (addr, who) :: r =>
    match s.mortarDone (doneWords addr emptySummary 7) with
    | (s, false) => s
    | (s, true) => (s.modMortar fun m => { m with dropped := r }).raiseFor who 1
  | [] =>
    match s.mortar.run with
    | none => s
    | some c =>
      if !c.finished then s
      else
        match s.mortarDone (doneWords c.addr c.sum.toWord c.status) with
        | (s, false) => s
        | (s, true) =>
          let s := s.forEach s.mortar.acc fun s a => s.endAccess a.id
          let s := s.modMortar fun m => { m with run := none, acc := [], aux := [] }
          let s := if c.checked then s.clearWorking c.d else s
          let s := match Reader.hart? c.who with
            | some h => s.modHart h fun t =>
                { t with csr := { t.csr with vflags := t.csr.vflags.or c.flags }
                         bank := if c.checked && c.status == 1 then ssetMany {} t.bank c.bank else t.bank }
            | none => s
          (s.noteCourse c).raiseFor c.who 1

/-! ## Operand tiles (R232 to R237, R253, R254) -/

/-- An operand transfer: its kind, its tag indices, whether it is the last along the reduction, and the result that it
brings. -/
structure Send where
  kind : BitVec 3
  i : Nat
  j : Nat
  kx : Nat
  last : Bool := false
  brings : Option (BitVec 3 × Nat × Nat) := none
deriving DecidableEq, Repr

/-- Transfer `n` of a product over `kt` reduction tiles: the two operands by turns. -/
def prodSend (k1 k2 : BitVec 3) (kt i j n : Nat) (res : BitVec 3) : Send :=
  let kx := n / 2
  let last := kx + 1 == kt
  { kind := if n % 2 = 0 then k1 else k2, i, j, kx, last
    brings := if last && n % 2 = 1 then some (res, i, j) else none }

/-- Transfer `n` of a column tile of a sweep, if it has so many. -/
def CourseDesc.sendAt (d : CourseDesc) (band sweep j n : Nat) : Option Send :=
  let kt := tilesOf d.k
  let ab := fun n => prodSend 0 1 kt band j n 5
  if d.cols sweep ≤ j then none
  else match d.bn with
    | 7 =>
      if sweep = 1 then none
      else if n < 2 * kt then some (ab n)
      else if n < 4 * kt then some (prodSend 2 3 kt band j (n - 2 * kt) 6)
      else none
    | 8 =>
      let pt := tilesOf d.pw
      let lastT := j + 1 == tilesOf d.n
      if sweep = 2 then none
      else if n < 2 * kt then some (ab n)
      else if n < 4 * kt then some (prodSend 0 2 kt band j (n - 2 * kt) 6)
      else if n = 4 * kt then some { kind := 4, i := band, j := 0, kx := j, last := lastT }
      else if n < 4 * kt + 1 + pt then
        let p := n - 4 * kt - 1
        some { kind := 3, i := band, j := p, kx := j, last := lastT, brings := if lastT then some (7, band, p) else none }
      else none
    | 11 => if sweep = 2 then none else if n < 2 * kt then some (ab n) else none
    | 15 => none
    | _ =>
      if n < 2 * kt then some (ab n)
      else if !d.attends sweep then none
      else if n = 2 * kt then some { kind := 4, i := band, j := 0, kx := j, last := true }
      else if n < 2 * kt + 1 + d.dv then
        let v := n - 2 * kt - 1
        some { kind := 2, i := band, j := v, kx := j, last := true, brings := some (6, band, v) }
      else none

/-- The next place of the operand sequence: the next transfer of the column tile, else the next column tile that has
any, in at most `n` looks. -/
def CourseDesc.nextSend (d : CourseDesc) : Nat → Cursor → Cursor
  | 0, c => c
  | n + 1, c =>
    if d.over c || (d.sendAt c.band c.sweep c.j c.ph).isSome then c
    else
      -- past the phases of this column tile: the next one
      d.nextSend n (d.after { c with ph := d.phases c.sweep })

/-- An operand's matrix as the course uses it: its address, its form, its rows and columns, whether it is held
transposed. -/
structure Held where
  addr : Word
  form : OpForm
  x : Nat
  y : Nat
  trans : Bool := false

/-- The matrix of an operand kind, and the tile of it that a transfer carries. -/
def CourseRun.heldOf (r : CourseRun) (t : Send) : Held × Nat × Nat :=
  let d := r.d
  match t.kind.toNat with
  | 0 => ({ addr := d.a, form := r.forms.get 0, x := d.m, y := d.k, trans := d.transA }, t.i, t.kx)
  | 1 => ({ addr := d.b, form := r.forms.get 1, x := d.k, y := d.n, trans := d.trb }, t.kx, t.j)
  | 2 =>
    if d.bn = 7 then ({ addr := d.c, form := r.forms.get 2, x := d.m, y := d.k }, t.i, t.kx)
    else if d.bn = 8 then ({ addr := d.c, form := r.forms.get 2, x := d.k, y := d.n }, t.kx, t.j)
    else ({ addr := d.c, form := r.forms.get 2, x := d.n, y := 64 * d.dv }, t.kx, t.j)
  | _ =>
    if d.bn = 7 then ({ addr := d.aux0, form := r.forms.get 3, x := d.k, y := d.n }, t.kx, t.j)
    else ({ addr := d.aux0, form := r.forms.get 3, x := d.n, y := d.pw }, t.kx, t.j)

/-- The offset of tile (a, b) of an operand as it is held (R241). -/
def Held.tileOff (h : Held) (words a b : Nat) : Nat :=
  if h.trans then (b * tilesOf h.x + a) * words else (a * tilesOf h.y + b) * words

/-- Element `p` of a tile at an offset of a block of words: its bits and mark. -/
def elemAt (m : Store (BitVec 33)) (off : Nat) (f : Fmt) (p : Nat) : Code × Bool :=
  if f.width = 64 then
    let lo := sget 0 m (off + 2 * p)
    let hi := sget 0 m (off + 2 * p + 1)
    (contData hi ++ contData lo, contMark lo || contMark hi)
  else
    let q := 32 / f.width
    let c := sget 0 m (off + p / q)
    (BitVec.ofNat 64 ((contData c).toNat / 2 ^ (p % q * f.width) % 2 ^ f.width), contMark c)

/-- A byte of a block of words. -/
def byteAt (m : Store (BitVec 33)) (off i : Nat) : BitVec 8 :=
  (contData (sget 0 m (off + i / 4))).extractLsb' (8 * (i % 4)) 8

/-- Words from bytes. -/
def packBytes (bs : List (BitVec 8)) : List Word := slotWords .int8 ((bs.length + 3) / 4) (bs.map (·.setWidth 64))

/-- A dense operand tile (R232, R235): positions outside the extent travel as zero. `el` gives an element of the tile as
it is used. -/
def denseTile (t : Send) (f : Fmt) (vr vc : Nat) (scales : List Word) (el : Nat → Nat → Code × Bool) : OpTile :=
  let at' := fun p => if p / 64 < vr && p % 64 < vc then el (p / 64) (p % 64) else (0, false)
  let es := (List.range 4096).map at'
  { kind := t.kind, i := t.i, j := t.j, kx := t.kx, fmt := f, last := t.last, vr, vc, scales
    words := slotWords f (128 * f.width) (es.map (·.1))
    marks := (es.zipIdx.filter fun e => e.1.2).map (·.2) }

/-- A packed brick as the sequencer reads it (R237): its words, whether it passes the check, whether a word of it is
marked. -/
structure BrickIn where
  ws : List Word
  ok : Bool
  mark : Bool

/-- Brick `j` of a tile of packed bricks at an offset, checked against a brick parameter word (R190, R237). -/
def brickAt (w : Word) (f : Fmt) (m : Store (BitVec 33)) (off j : Nat) : BrickIn :=
  let (_, kc, l) := brickParam w f
  let cs := (List.range l).map fun q => sget 0 m (off + j * l + q)
  let ws := cs.map contData
  { ws, ok := brickMatches (w.extractLsb' 0 16) f (w.getLsbD 16) kc (ws.headD 0) (ws.getD 1 0), mark := cs.any contMark }

/-- A tile of packed bricks (R237): a brick that fails its check travels with a zero bitmap and every position marked;
survivors outside the extent are taken out (R235). -/
def brickTile (t : Send) (w : Word) (f : Fmt) (vr vc : Nat) (m : Store (BitVec 33)) (off : Nat) : OpTile :=
  let (bsz, _, l) := brickParam w f
  let bs := (List.range (4096 / bsz)).map fun j =>
    let b := brickAt w f m off j
    let inside := fun p => let e := j * bsz + p; decide (e / 64 < vr) && decide (e % 64 < vc)
    let sv := (survivors f bsz b.ws).filter fun q => inside q.1
    let bits := sv.foldl (fun a q => a + 2 ^ q.1) 0
    let ws' := if b.ok then BitVec.ofNat 32 bits :: b.ws.getD 1 0 :: slotWords f (l - 2) (sv.map (·.2))
      else (0 : Word) :: b.ws.drop 1
    (j, ws', !b.ok || b.mark)
  { kind := t.kind, i := t.i, j := t.j, kx := t.kx, fmt := f, last := t.last, sparse := true, vr, vc
    words := bs.flatMap fun b => b.2.1
    marks := bs.flatMap fun b => if b.2.2 then (List.range bsz).map fun p => b.1 * bsz + p else [] }

/-- The place of a position in the transposed tile (R253). -/
def flipPos (p : Nat) : Nat := 64 * (p % 64) + p / 64

/-- A tile of packed bricks transposed (R237, R253): each survivor and each mark goes to its place in the transposed tile,
which is packed in bricks of the same size. The spec gives no brick form for it: a brick holds as many slots as the
fullest one needs, and the scales travel with the survivors, in their order, after the payload. DESIGN CHOICE, log entry
54. -/
def brickTileFlipped (t : Send) (w : Word) (f : Fmt) (vr vc : Nat) (m : Store (BitVec 33)) (off : Nat) : OpTile :=
  let (bsz, kc, _) := brickParam w f
  let n := 4096 / bsz
  let bs := (List.range n).map fun j => (j, brickAt w f m off j)
  let sv : List (Nat × Code × BitVec 8) := bs.flatMap fun b =>
    if b.2.ok then (survivors f bsz b.2.ws).map fun q =>
      (flipPos (b.1 * bsz + q.1), q.2, (b.2.ws.getD 1 0).extractLsb' 16 8) else []
  let sv := sv.filter fun q => decide (q.1 / 64 < vr) && decide (q.1 % 64 < vc)
  let rows := (List.range n).map fun j =>
    (List.range bsz).filterMap fun p => (sv.find? fun q => q.1 == j * bsz + p).map fun q => (p, q.2)
  let slots := rows.foldl (fun a r => max a r.length) (brickK kc)
  let len := (slots * f.width + 31) / 32
  let header := brickHeader (w.extractLsb' 0 16) 0x7F f (w.getLsbD 16) kc
  { kind := t.kind, i := t.i, j := t.j, kx := t.kx, fmt := f, last := t.last, sparse := true, vr, vc
    words := rows.flatMap fun r =>
      BitVec.ofNat 32 (r.foldl (fun a q => a + 2 ^ q.1) 0) :: header :: slotWords f len (r.map fun q => q.2.1)
    scales := if f.width = 8 then packBytes (rows.flatMap fun r => r.map fun q => q.2.2) else []
    marks := bs.flatMap fun b => if !b.2.ok || b.2.mark then (List.range bsz).map fun p => flipPos (b.1 * bsz + p) else [] }

/-- The tag of an operand transfer (R233). -/
def opTag (slot : Bool) (o : OpTile) : DWord :=
  (0 : BitVec 1) ++ BitVec.ofNat 14 o.kx ++ BitVec.ofNat 14 o.j ++ BitVec.ofNat 12 o.i ++ BitVec.ofNat 6 (o.vc - 1) ++
    BitVec.ofNat 6 (o.vr - 1) ++ BitVec.ofBool o.sparse ++ BitVec.ofBool o.last ++ o.fmt.code ++ o.kind ++
    (0 : BitVec 1) ++ BitVec.ofBool slot

/-- The source row of a gathered row (R254), none for a zero row, and whether the row is marked besides its elements'
own marks: an index outside the rows marks it, and so does a marked index word, which contributes to every element
(R126). -/
def gatherRow (m : Nat) (c : BitVec 33) : Option Nat × Bool :=
  let x := (contData c).toInt
  if x = -1 then (none, contMark c)
  else if 0 ≤ x && x < m then (some x.toNat, contMark c)
  else (none, true)

/-- Reads the operand tile of a transfer: none while it must wait. -/
def State.operandTile (s : State) (r : CourseRun) (t : Send) : State × Option OpTile :=
  let (h, a, b) := r.heldOf t
  let vr := extentOf h.x a
  let vc := extentOf h.y b
  let f := h.form.fmt
  if r.d.spb && t.kind == 1 then
    let n := brickTileWords (r.d.par 7) f
    let off := h.tileOff n a b
    match s.mortarRead keyOperand r.send h.addr ((List.range n).map (off + ·)) with
    | (s, none) => (s, none)
    | (s, some m) => (s, some (if h.trans then brickTileFlipped t (r.d.par 7) f vr vc m off
        else brickTile t (r.d.par 7) f vr vc m off))
  else if r.d.gather && t.kind == 0 then
    match s.mortarRead keyIndex r.send (r.d.par 1) ((List.range vr).map (64 * a + ·)) with
    | (s, none) => (s, none)
    | (s, some ix) =>
      let n := formWords h.form
      let row := fun q => gatherRow h.x (sget 0 ix (64 * a + q))
      let off := fun x => h.tileOff n (x / 64) b
      let perRow := 2 * f.width
      let bl := if h.form.block = 0 then 0 else if h.form.block = 1 then 4 else 2
      let srcs := (List.range vr).filterMap fun q => (row q).1
      let os := srcs.flatMap fun x =>
        (if h.trans then (List.range 64).map fun c => off x + (64 * c + x % 64) * f.width / 32
         else (List.range perRow).map fun i => off x + x % 64 * perRow + i) ++
          if bl = 0 then [] else [off x + 1024 + x % 64 * bl / 4]
      match s.mortarRead keyOperand r.send h.addr os.eraseDups with
      | (s, none) => (s, none)
      | (s, some m) =>
        let scales := packBytes ((List.range (64 * bl)).map fun i =>
          match (row (i / bl)).1 with
          | some x => if i / bl < vr then byteAt m (off x + 1024) (x % 64 * bl + i % bl) else 0
          | none => 0)
        (s, some (denseTile t f vr vc scales fun q c =>
          match row q with
          | (some x, k) => let e := elemAt m (off x) f (if h.trans then 64 * c + x % 64 else 64 * (x % 64) + c); (e.1, e.2 || k)
          | (none, k) => (0, k)))
  else
    let n := formWords h.form
    let off := h.tileOff n a b
    match s.mortarRead keyOperand r.send h.addr ((List.range n).map (off + ·)) with
    | (s, none) => (s, none)
    | (s, some m) =>
      let scales := (List.range (n - 128 * f.width)).map fun i => contData (sget 0 m (off + 128 * f.width + i))
      (s, some (denseTile t f vr vc scales fun q c => elemAt m off f (if h.trans then 64 * c + q else 64 * q + c)))

/-- Steps on a configuration from steps on C3-L (R249). -/
def State.bondSteps (s : State) (n : Nat) : Nat := n * (1024 / Config.lanes s.cfg)

/-- The vector unit takes a step of bond work for some steps: it is accepted as an instruction is, and its results are
there when its steps are over (R138, R245). Work of no steps takes none. -/
def State.bondTake (s : State) (o : Nat) : State :=
  if o = 0 then s
  else
    let at' := s.nextFree
    ((s.occupy at' o).accepted 1).advanceTo (at' + o - 1)

/-- A prologue acts on an operand tile: it is transposed or gathered (R253, R254). -/
def CourseRun.prologue (r : CourseRun) (t : Send) : Bool :=
  t.kind != 4 && ((r.d.gather && t.kind == 0) || (r.heldOf t).1.trans)

/-- A residue check of group `g` fails in a bond step: as an instruction's, its results are withheld, the group is fenced
and the step is presented again after the fence; without a ready spare it is the uncorrectable fault LANES, and the step
is discarded (R462, R464, R467). `withhold` marks the withheld step. -/
def State.bondResidue (s : State) (g : Fin 17) (withhold : CourseRun → CourseRun) : State :=
  let s := s.toggleObs 0x04
  let l := s.err.lanes.get g
  match s.readySpare with
  | some sp =>
    let s := s.fenceGroup g none
    let s := s.modLane sp fun x => { x with state := .active, logical := l.logical }
    let s := s.modRun withhold
    { s with vu := { s.vu with fence := some g, fenceAt := s.cycle, fenceUntil := s.cycle + 8 } }
  | none =>
    let s := s.modRun fun r => { r with lost := true }
    (s.uncorrectable 0x04 { src := 0, unit := BitVec.ofNat 6 g.val } (BitVec.ofNat 32 g.val)
      (l.logical.setWidth 32)).fenceGroup g (some l.logical)

/-- The error of a check that a bond step meets: the residue of a group that serves, or a container of a working register
(R462). -/
def State.bondFails (s : State) (check : Option LaneCheck) : Option LaneCheck :=
  check.filter fun c => match c with
    | .residue g => (s.err.lanes.get g).state == .active
    | .container t _ => s.mortar.working.contains t

/-- A bond step of the vector unit: it is taken for its steps, its checks are made, and where they pass its work is done
(R245, R462). A container that fails is the uncorrectable fault TILE, and the step is discarded (R460, R468). -/
def State.bondChecked (s : State) (r : CourseRun) (steps : Nat) (check : Option LaneCheck)
    (withhold : CourseRun → CourseRun) (work : State → State) : State :=
  let s := s.bondTake steps
  match s.bondFails check with
  | some (.residue g) => s.bondResidue g withhold
  | some (.container t n) =>
    (s.modRun fun r => { r with lost := true }).uncorrectable 0x03 { src := 0, unit := BitVec.ofNat 6 r.who.val }
      (BitVec.ofNat 32 (t.val + 64 * n.val)) (BitVec.ofNat 32 r.who.val)
  | none => work s

/-- The next operand transfer that the course may make: its place and what it carries. There is none without an operand
credit, once the course stops, or past the tile at hand of a fault (R236, R247, R276). -/
def State.nextTransfer (s : State) (r : CourseRun) : Option (Cursor × Send) :=
  let c := r.d.nextSend (r.d.cols 1 + r.d.cols 2 + 4) r.send
  let halted := match r.fault with | some (_, l) => l.before { c with ph := 0 } | none => false
  if !r.checked || r.finished || r.stopping || r.lost || r.d.over c || halted || s.mortar.opCredits == 0 then none
  else (r.d.sendAt c.band c.sweep c.j c.ph).map fun t => (c, t)

/-- The tile of a transfer: one that the bond has made, or one read from Icefield. -/
def State.transferTile (s : State) (r : CourseRun) (c : Cursor) (t : Send) : State × Option OpTile :=
  if t.kind == 4 then (s, r.made) else s.operandTile { r with send := c } t

/-- An operand tile goes out with its tag and takes an operand credit (R233, R236). -/
def State.sendOperand (s : State) (slot : Bool) (c : Cursor) (t : Send) (o : OpTile) : State :=
  let o := if t.kind == 4 then { o with i := t.i, j := t.j, kx := t.kx, last := t.last } else o
  let s := s.modRun fun r =>
    { r with send := { c with ph := c.ph + 1 }, made := if t.kind == 4 then none else r.made
             owed := r.owed ++ t.brings.toList }
  let s := (s.modMortar fun m => { m with opCredits := m.opCredits - 1, sent := some (opTag slot o, o) }).dropBlocks
    fun k => k == keyIndex || k == keyOperand
  (s.countEvent 0x31 1).toggleObs 0x62

/-- An operand tile goes to the quadrant against an operand credit (R236); a prologue's steps are the vector unit's
(R245, R249), whose checks may fail (R462). -/
def State.operandTransfer (s : State) (check : Option LaneCheck := none) : State :=
  match s.mortar.run with
  | none => s
  | some r =>
    match s.nextTransfer r with
    | none => s
    | some (c, t) =>
      match s.transferTile r c t with
      | (s, none) => s
      | (s, some o) =>
        if !r.prologue t then s.sendOperand r.slot c t o
        else if !s.mayAccept then s
        else s.bondChecked r (s.bondSteps 4) check (fun r => { r with proReplay := true }) fun s => s.sendOperand r.slot c t o

/-- A prologue's step is ready for the vector unit: a credit is there and its operand tile can be read (R236, R245). -/
def State.prologueReady (s : State) : Bool :=
  match s.mortar.run with
  | none => false
  | some r =>
    match s.nextTransfer r with
    | none => false
    | some (c, t) => r.prologue t && (s.transferTile r c t).2.isSome

/-- The next operand tile is transposed, or gathered, on its way (R253, R254). -/
def State.nextPrologue (s : State) (gather : Bool) : Bool :=
  match s.mortar.run with
  | none => false
  | some r =>
    let c := r.d.nextSend (r.d.cols 1 + r.d.cols 2 + 4) r.send
    match (if r.d.over c then none else r.d.sendAt c.band c.sweep c.j c.ph) with
    | none => false
    | some t => if gather then r.d.gather && t.kind == 0 else (r.heldOf t).1.trans

/-! ## Result tiles (R232 to R236) -/

/-- The result of a product is INT32 (R234). -/
def CourseRun.intResult (r : CourseRun) (kind : BitVec 3) : Bool :=
  let int := fun i => (r.forms.get i).fmt == .int8
  match kind.toNat with
  | 5 => int 0
  | 6 => if r.d.bn = 7 then int 2 else if r.d.bn = 8 then int 0 else false
  | _ => false

/-- Kind and indices of a tag (R233). -/
def tagKey (tag : DWord) : BitVec 3 × Nat × Nat :=
  (tag.extractLsb' 2 3, (tag.extractLsb' 23 12).toNat, (tag.extractLsb' 35 14).toNat)

/-- The tag check of a result transfer (R233, R460): the slot of the course, its result format, the reserved bit zero, and
a result that is still to come. DEDUCED, log entry 159. -/
def CourseRun.tagOk (r : CourseRun) (tag : DWord) : Bool :=
  tag.extractLsb' 0 2 == (if r.slot then 1 else 0) && !tag.getLsbD 63 && r.owed.contains (tagKey tag) &&
    tag.extractLsb' 5 4 == (if r.intResult (tagKey tag).1 then Fmt.int32.code else Fmt.fp32.code)

/-- A result tile lands against a landing credit (R236). One whose tag fails its check, or that no course awaits, is the
uncorrectable fault MORTAR (R460, R468). The quadrant sends none without a credit. -/
def State.resultTransfer (s : State) (tag : DWord) (payload : List Word) (slush : List Nat) : State :=
  match s.mortar.run with
  | none => s.uncorrectable 0x08 .mortar (tag.extractLsb' 0 32) (tag.extractLsb' 32 32)
  | some r =>
    let key := tagKey tag
    let kind := key.1
    let int := r.intResult kind
    if !r.tagOk tag then s.uncorrectable 0x08 .mortar (tag.extractLsb' 0 32) (tag.extractLsb' 32 32)
    else if r.credits = 0 then s
    else
      let elems : Store (BitVec 33) :=
        ((payload.take 4096).zipIdx.map fun (w, p) => (p, mkCont w (slush.contains p))).filter fun e => e.2 != 0
      let l : Landed := { kind, i := key.2.1, j := key.2.2, int, elems }
      let s := s.modRun fun r => { r with credits := r.credits - 1, owed := r.owed.erase key, landed := r.landed ++ [l] }
      (s.countEvent 0x30 1).toggleObs 0x61

/-- The quadrant returns an operand credit (R236). -/
def State.operandCredit (s : State) : State := s.modMortar fun m => { m with opCredits := incSat m.opCredits }

/-! ## The commands -/

/-- COURSE_START (R242). -/
def execCourseStart (r : Reader) (addr : Word) (s : State) : Host.Outcome State Fault Refusal :=
  .next (if s.canAct r then s.courseStart r addr else s)

/-- COURSE_STOP (R247). -/
def execCourseStop (r : Reader) (s : State) : Host.Outcome State Fault Refusal :=
  .next (if s.canAct r then s.courseStop r else s)

/-- COURSE_DROP (R247). -/
def execCourseDrop (r : Reader) (s : State) : Host.Outcome State Fault Refusal :=
  .next (if s.canAct r then s.courseDrop r else s)

/-- COURSE_BEGIN (R243). -/
def execCourseBegin (a b c d : OpForm) (s : State) : Host.Outcome State Fault Refusal :=
  .next (if s.powered && s.err.stat == .running then s.courseBegin #v[a, b, c, d] else s)

/-- COURSE_COMPLETE (R246). -/
def execCourseComplete (s : State) : Host.Outcome State Fault Refusal :=
  .next (if s.powered then s.courseComplete else s)

/-- OPERAND_TRANSFER (R236). -/
def execOperandTransfer (s : State) : Host.Outcome State Fault Refusal :=
  .next (if s.powered then s.operandTransfer else s)

/-- RESULT_TRANSFER (R236). -/
def execResultTransfer (tag : DWord) (payload : List Word) (slush : List Nat) (s : State) :
    Host.Outcome State Fault Refusal := .next (if s.powered then s.resultTransfer tag payload slush else s)

/-- OPERAND_CREDIT (R236). -/
def execOperandCredit (s : State) : Host.Outcome State Fault Refusal :=
  .next (if s.powered then s.operandCredit else s)

end Sys2Proof.Machine
end

