-- ==== Sys2Proof/Machine/Bonds.lean ====
section
/-! DEFINITION. The menu of bonds (R249 to R264, R268 to R272): what each does with a result tile and at the end of a
row band, as functions of the course, and the command of each. `Lintel.lean` holds B15. -/

namespace Sys2Proof.Machine

/-! ## Single precision with marks -/

/-- An FP32 word with its mark and the flags raised on the way to it (R94, R126). -/
structure FW where
  w : Word
  mark : Bool := false
  fl : FpFlags := {}
deriving DecidableEq, Repr

/-- An element-wise operation. -/
def FW.op (o : EOp) (strict : Bool) (a b : FW) : FW :=
  let r := fp32Op o strict a.w b.w
  { w := r.1, mark := a.mark || b.mark, fl := (a.fl.or b.fl).or r.2 }

/-- A special function. -/
def FW.sfu (f : Sfu) (strict : Bool) (a : FW) : FW :=
  let r := f.apply strict a.w
  { a with w := r.1, fl := a.fl.or r.2 }

/-- Maximum or minimum. -/
def FW.best (isMin : Bool) (a b : FW) : FW :=
  let r := maxmin isMin false .fp32 .fp32 .fp32 (a.w.setWidth 64) (b.w.setWidth 64)
  { w := r.code.setWidth 32, mark := a.mark || b.mark, fl := (a.fl.or b.fl).or r.flags }

/-- A conversion from FP32. -/
def FW.to (f : Fmt) (sat : Bool) (a : FW) : Rounded :=
  let r := convert .fp32 f sat (a.w.setWidth 64)
  { r with flags := a.fl.or r.flags }

/-- The value. -/
def FW.val (a : FW) : Num := f32 a.w

/-- A constant. -/
def FW.const (w : Word) : FW := { w }

/-- A container as an FP32 word. -/
def FW.ofCont (c : BitVec 33) : FW := { w := contData c, mark := contMark c }

/-- A container of the word. -/
def FW.cont (a : FW) : BitVec 33 := mkCont a.w a.mark

/-- One. -/
def oneF : FW := FW.const 0x3F800000
/-- The canonical NaN. -/
def nanF : FW := FW.const 0x7FC00000
/-- Plus infinity. -/
def infF : FW := FW.const 0x7F800000
/-- Minus infinity. -/
def ninfF : FW := FW.const negInf32

/-- The activations of R251. -/
def activate (strict : Bool) (act : Nat) (x : FW) : FW :=
  match act with
  | 0 => x
  | 1 => x.best false (FW.const 0)
  | 2 => (x.sfu .logistic strict).op .mul strict x
  | 3 =>
    let e := (x.op .mul strict (FW.const 0x3F3504F3)).sfu .erf strict
    ((e.op .add strict oneF).op .mul strict x).op .mul strict (FW.const 0x3F000000)
  | 4 => x.sfu .tanh strict
  | _ => x.sfu .logistic strict

/-- Adds terms to a running sum in the course's mode (R76, R81, R92). -/
def addTerms (strict : Bool) (s : RunSum) (ts : List Term) : RunSum × FpFlags :=
  if strict then RunSum.addStrict .fp32 s (ts.map (·.v)) else (s.addFast ts, {})

/-- A running sum rounded into FP32. -/
def RunSum.word (s : RunSum) : FW := let r := s.result .fp32 false; { w := r.code.setWidth 32, fl := r.flags }

/-! ## The course at work -/

/-- Flags of the course's operations: strict mode alone raises them (R94). -/
def CourseRun.raise (r : CourseRun) (fl : FpFlags) : CourseRun := if r.d.s then { r with flags := r.flags.or fl } else r

/-- What an element adds to SUMMARY (R127, R128). -/
def EWrite.summary (f : Fmt) (w : EWrite) : SumAcc := SumAcc.add {} f w.code w.mark w.sate

/-- The first word of an element of a block at an offset. -/
def EWrite.word (base : Word) (off : Nat) (f : Fmt) (w : EWrite) : Nat := wordPart base + off + w.i * f.width / 32

/-- The pieces that elements write, as words of a block, and what each element adds to SUMMARY if it counts there. -/
def outWords (base : Word) (off : Nat) (f : Fmt) (ws : List EWrite) (counts : EWrite → Option SumAcc) : OutWords :=
  { floe := floePart base
    sums := ws.filterMap fun w => (counts w).map fun a => (w.word base off f, a)
    ws := (groupPieces (ws.flatMap (·.pieces f))).map fun (k, ps) =>
      let d := ps.foldl (fun d p => putBits d p.lsb p.w p.bits) 0
      let mask := ps.foldl (fun m p => m ||| BitVec.ofNat 4 (2 ^ ((p.lsb + p.w) / 8) - 2 ^ (p.lsb / 8))) (0 : BitVec 4)
      (wordPart base + off + k, mkCont (BitVec.ofNat 32 d) (ps.any (·.mark)), mask) }

/-- Writes elements to a block; those at OUT count in SUMMARY once they are written, an element of a marked container as
marked (R126, R128, R246). -/
def CourseRun.put (r : CourseRun) (sum : Bool) (base : Word) (off : Nat) (f : Fmt) (ws : List EWrite) : CourseRun :=
  { r with out := r.out ++ [outWords base off f (joinMarks f ws) fun w => if sum then some (w.summary f) else none] }

/-- Writes FP32 words to a vector of one word for each row or column. -/
def CourseRun.putVec (r : CourseRun) (base : Word) (off : Nat) (ws : List FW) : CourseRun :=
  (r.raise (orFlags (ws.map (·.fl)))).put false base off .fp32
    (ws.zipIdx.map fun (w, i) => { i, code := w.w.setWidth 64, mark := w.mark })

/-- The landed tile of a kind and indices. -/
def CourseRun.tile (r : CourseRun) (k : BitVec 3) (i j : Nat) : Landed :=
  (r.landed.find? fun l => l.kind == k && l.i == i && l.j == j).getD { kind := k, i, j, int := false }

/-- An element of a result tile in FP32 (R234); an INT32 one is converted. -/
def Landed.fp (l : Landed) (p : Nat) : FW :=
  let c := sget 0 l.elems p
  if l.int then
    let v := convert .int32 .fp32 false ((contData c).setWidth 64)
    { w := v.code.setWidth 32, mark := contMark c, fl := v.flags }
  else FW.ofCont c

/-- The words of a block as the sequencer has read them. -/
abbrev Aux := Nat → Nat → BitVec 33

/-- Valid rows of the band and valid columns of the column tile. -/
def CourseRun.vr (r : CourseRun) : Nat := extentOf r.d.m r.at'.band
/-- Valid columns. -/
def CourseRun.vc (r : CourseRun) : Nat := extentOf r.d.n r.at'.j
/-- Number of the output tile. -/
def CourseRun.tileNo (r : CourseRun) : Nat := r.at'.band * tilesOf r.d.n + r.at'.j
/-- Positions of the output tile. -/
def CourseRun.positions (r : CourseRun) : List Nat :=
  (List.range r.vr).flatMap fun q => (List.range r.vc).map fun c => 64 * q + c

/-! ## B00 to B04, B12, B13 (R251 to R256) -/

/-- Whether a bond's stages before the conversion do anything (R251). -/
def CourseDesc.staged (d : CourseDesc) : Bool :=
  let act := (d.par 0).extractLsb' 0 3
  if d.bn < 3 then d.scv || d.bias || d.tau != 0x3F800000 || act != 0 else d.bn == 12 && d.tau != 0x3F800000

/-- The stages of R251 before the conversion on an element of column `c` of a tile; block 0 is σ, block 1 is b. -/
def CourseRun.stages (r : CourseRun) (aux : Aux) (c : Nat) (x : FW) : FW :=
  let d := r.d
  let g := 64 * r.at'.j + c
  let x := if d.scv then x.op .mul d.s (FW.ofCont (aux 0 g))
    else if d.bias || d.tau != 0x3F800000 then x.op .mul d.s (FW.const d.tau) else x
  let x := if d.bias then x.op .add d.s (FW.ofCont (aux 1 g)) else x
  if d.bn < 3 then activate d.s ((d.par 0).extractLsb' 0 3).toNat x else x

/-- An element of the output tile in FMTO: an INT32 result that no stage touches is converted as it is. -/
def CourseRun.outElem (r : CourseRun) (aux : Aux) (l : Landed) (p : Nat) : EWrite × FpFlags :=
  let d := r.d
  if l.int && !d.staged then
    let c := sget 0 l.elems p
    let v := convert .int32 d.fo d.sat ((contData c).setWidth 64)
    (EWrite.of p v (contMark c), v.flags)
  else
    let x := if d.staged then r.stages aux (p % 64) (l.fp p) else l.fp p
    let v := x.to d.fo d.sat
    (EWrite.of p v x.mark, v.flags)

/-- B00: the output tile, and its elements with the marks of their containers (R126). -/
def CourseRun.stack (r : CourseRun) (aux : Aux) : CourseRun × List EWrite :=
  let l := r.tile 5 r.at'.band r.at'.j
  let es := r.positions.map (r.outElem aux l)
  let ws := joinMarks r.d.fo (es.map (·.1))
  (((r.raise (orFlags (es.map (·.2)))).put true r.d.out (r.tileNo * 128 * r.d.fo.width) r.d.fo ws), ws)

/-- The running minimum with one more value, as `maxWith`. -/
def minWith (m : Option Num) (v : Num) : Option Num :=
  match m with
  | none => some (if v.isNan then .nan false else v)
  | some w => if v.isNan then some w else if w.isNan then some v else some (if v.lt w then v else w)

/-- A running statistic of R252 with more elements: 0 sum, 1 sum of squares, 2 maximum, 3 minimum. -/
def statAdd (strict : Bool) (rop : Nat) (f : Fmt) (e : StatEntry) (cs : List EWrite) : StatEntry × FpFlags :=
  let vs := cs.map fun c => f.decode c.code
  let acc := accFmt [f, .fp32]
  let split := !strict && f == .fp64
  let ts := vs.map fun v => if rop = 1 then Term.prod split v v else Term.whole v
  let (sum, fl) : RunSum × FpFlags :=
    if 2 ≤ rop then (e.sum, { nv := vs.any Num.isSnan })
    else if f.isInt then (e.sum.addInt (ts.map (·.v)), {})
    else if strict then RunSum.addStrict acc e.sum (ts.map (·.v))
    else (e.sum.addFast ts, {})
  ({ e with sum, max := if rop = 2 then vs.foldl maxWith e.max else if rop = 3 then vs.foldl minWith e.max else e.max
            count := e.count + cs.length
            mark := some (if strict then (if acc == .fp64 then .strict64 else .strict32) else .fast)
            slush := e.slush || cs.any (·.mark) }, fl)

/-- The FP32 value of a running statistic. The spec does not say whether the course's SAT or the FP32 default holds for
a value beside OUT; the statistics take SAT. DESIGN CHOICE, log entry 160. -/
def statRead (rop : Nat) (sat : Bool) (f : Fmt) (e : StatEntry) : FW :=
  let v := if rop < 2 then e.sum.result .fp32 sat else Fmt.fp32.encode sat f.isInt (e.max.getD (.nan false))
  { w := v.code.setWidth 32, mark := e.slush, fl := v.flags }

/-- ROP (R250). -/
def CourseDesc.rop (d : CourseDesc) : Nat := ((d.par 0).extractLsb' 5 2).toNat

/-- Adds the elements of a tile to the statistics of their rows or columns. -/
def CourseRun.statTile (r : CourseRun) (rop : Nat) (f : Fmt) (cols : Bool) (ws : List EWrite) : CourseRun :=
  let n := if cols then r.vc else r.vr
  (List.range n).foldl (fun (r : CourseRun) q =>
    let key := if cols then 64 * r.at'.j + q else q
    let mine := ws.filter fun w => (if cols then w.i % 64 else w.i / 64) == q
    let (e, fl) := statAdd r.d.s rop f (sget {} r.stat key) mine
    ({ r with stat := sset {} r.stat key e }).raise fl) r

/-- B12 (R255): one brick of the output tile: its words, mark, overflow, flags, saturation. -/
def CourseRun.brick (r : CourseRun) (bsz kc l : Nat) (xs : Nat → Option (FW × Bool)) (j : Nat) :
    List Word × Bool × Bool × FpFlags × Bool :=
  let d := r.d
  let els := (List.range bsz).filterMap fun p => (xs (j * bsz + p)).map fun x => (p, x.1, x.2)
  let live := els.filter fun e => e.2.2
  let full := decide (brickK kc < live.length)
  let cs := live.map fun e => (e.2.1.w.setWidth 64 : Code)
  let (scale, vs) : BitVec 8 × List Rounded :=
    if (d.par 0).getLsbD 20 then storeBlock .fp32 d.fo cs else (0x7F, cs.map (convert .fp32 d.fo d.sat))
  let vs := vs.take (brickK kc)
  let bits := (live.take (brickK kc)).foldl (fun a e => a + 2 ^ e.1) 0
  (BitVec.ofNat 32 bits :: brickHeader ((d.par 0).extractLsb' 0 16) scale d.fo ((d.par 0).getLsbD 16) kc ::
     slotWords d.fo (l - 2) (vs.map (·.code)),
   full || live.any fun e => e.2.1.mark, full,
   (orFlags (els.map fun e => e.2.1.fl)).or (orFlags (vs.map (·.flags))), vs.any (·.sate))

/-- B12: the bricks of the output tile; block 0 is the bitmap. -/
def CourseRun.basket (r : CourseRun) (aux : Aux) : CourseRun :=
  let d := r.d
  let l0 := r.tile 5 r.at'.band r.at'.j
  let (bsz, kc, l) := brickParam (d.par 0) d.fo
  let n := 4096 / bsz
  let xs := fun p =>
    if p / 64 < r.vr && p % 64 < r.vc then
      let c := aux 0 (r.tileNo * n + p / bsz)
      let x := if d.staged then r.stages aux (p % 64) (l0.fp p) else l0.fp p
      some ({ x with mark := x.mark || contMark c }, (contData c).getLsbD (p % bsz))
    else none
  let bs : List (Nat × List Word × Bool × Bool × FpFlags × Bool) := (List.range n).map fun j =>
    let b := r.brick bsz kc l xs j
    (j, b.1, b.2.1 || contMark (aux 0 (r.tileNo * n + j)), b.2.2)
  let ws := bs.flatMap fun b => b.2.1.zipIdx.map fun (w, q) => ({ i := b.1 * l + q, code := w.setWidth 64, mark := b.2.2.1 } : EWrite)
  let adds := fun (w : EWrite) => if w.i % l ≠ 0 then none
    else (bs[w.i / l]?).map fun b =>
      ({ valid := 1, empty := if b.2.2.2.1 then 1 else 0, sate := b.2.2.2.2.2, slush := if b.2.2.1 then 1 else 0 } : SumAcc)
  let r := r.raise (orFlags (bs.map fun b => b.2.2.2.2.1))
  { r with out := r.out ++ [outWords d.out (r.tileNo * n * l) .int32 ws adds] }

/-- The bit of a position in the containers of R191, 32 positions each, tile-ordered. -/
def bitOf (r : CourseRun) (aux : Aux) (key p : Nat) : Bool × Bool :=
  let c := aux key (r.tileNo * 128 + p / 32)
  ((contData c).getLsbD (p % 32), contMark c)

/-- B13 (R256): gradients at survivors, scores at pruned positions; block 0 is the bitmap, block 1 the old scores. -/
def CourseRun.quoin (r : CourseRun) (aux : Aux) : CourseRun :=
  let d := r.d
  let l := r.tile 5 r.at'.band r.at'.j
  let es := r.positions.map fun p =>
    let (keep, m) := bitOf r aux 0 p
    let (g, fl) := r.outElem aux l p
    let x := l.fp p
    let a := signOp true false .fp32 .fp32 (x.w.setWidth 64)
    let a : FW := { w := a.code.setWidth 32, mark := x.mark || m, fl := x.fl.or a.flags }
    let sc := if keep then { FW.const 0 with mark := x.mark || m }
      else if (d.par 0).getLsbD 0 then (FW.ofCont (aux 1 (r.tileNo * 4096 + p))).op .add d.s a else a
    let g := if keep then { g with mark := g.mark || m } else { i := p, code := 0, mark := x.mark || m }
    (g, if keep then fl else sc.fl, ({ i := p, code := sc.w.setWidth 64, mark := sc.mark } : EWrite))
  ((r.raise (orFlags (es.map (·.2.1)))).put true d.out (r.tileNo * 128 * d.fo.width) d.fo (es.map (·.1))).put false
    (d.par 1) (r.tileNo * 4096) .fp32 (es.map (·.2.2))

/-! ## Attention (R257 to R262) -/

/-- A score after the scale and the masks (R258); block `key` holds the mask bits. -/
def CourseRun.score (r : CourseRun) (aux : Aux) (key : Nat) (l : Landed) (p : Nat) : FW :=
  let d := r.d
  let x := (l.fp p).op .mul d.s (FW.const d.tau)
  let (bit, m) := if d.masked then bitOf r aux key p else (true, false)
  let off := d.causalMask (64 * r.at'.band + p / 64) (64 * r.at'.j + p % 64)
  let x := { x with mark := x.mark || m }
  if !bit || off then { x with w := negInf32 } else x

/-- The running maximum with more scores (R257). -/
def maxScore (m : Word) (xs : List FW) : Word :=
  match xs.foldl (fun a x => maxWith a x.val) (some (f32 m)) with
  | some v => (Fmt.fp32.encode false false v).code.setWidth 32
  | none => m

/-- The step of R257 for one row of a key tile: the row's statistics, its output, and e or the weights that become P. -/
def attnRow (strict : Bool) (st : RowStat) (o : List (BitVec 33)) (xs : List FW) :
    RowStat × List (BitVec 33) × List FW × FpFlags :=
  let vs := xs.map FW.val
  let sl := st.slush || xs.any (·.mark)
  let fl := orFlags (xs.map (·.fl))
  let st := { st with slush := sl }
  let zero : FW := { w := 0, mark := sl }
  if st.nan || vs.any Num.isNan then ({ st with nan := true }, o, xs.map fun _ => zero, fl)
  else if vs.contains (.inf false) then
    let n := (vs.filter fun v => v == .inf false).length
    let (s, o) := if st.k = 0 then (({} : RunSum), o.map fun _ => mkCont 0 sl) else (st.s, o)
    ({ st with s, k := st.k + n, m := 0x7F800000 }, o,
     vs.map fun v => if v == .inf false then { oneF with mark := sl } else zero, fl)
  else if 0 < st.k then (st, o, xs.map fun _ => zero, fl)
  else
    let m' : FW := { w := maxScore st.m xs, mark := sl }
    let rise := (f32 st.m).lt m'.val && st.m != negInf32
    let al := ((FW.const st.m).op .sub strict m').sfu .exp strict
    let s32 := (st.s.word).op .mul strict al
    let s := if rise then RunSum.ofNum s32.val else st.s
    let os := o.map fun c => (FW.ofCont c).op .mul strict al
    let es := xs.map fun x =>
      if x.val == .inf true then zero else { (x.op .sub strict m').sfu .exp strict with mark := sl }
    let (s, fs) := addTerms strict s (es.map fun e => Term.whole e.val)
    let fl := (fl.or fs).or (orFlags (es.map (·.fl)))
    let fl := if rise then (fl.or s32.fl).or (orFlags (os.map (·.fl))) else fl
    ({ st with m := m'.w, s }, if rise then os.map FW.cont else o, es, fl)

/-- A row's running output; it starts as +0. -/
def CourseRun.outRow (r : CourseRun) (q : Nat) : List (BitVec 33) :=
  match sget [] r.acc q with
  | [] => List.replicate (64 * r.d.dv) 0
  | l => l

/-- B05, and B06 in sweep 2: a score tile becomes a probability tile (R257). -/
def CourseRun.flemishScores (r : CourseRun) (aux : Aux) : CourseRun :=
  let d := r.d
  let l := r.tile 5 r.at'.band r.at'.j
  let go := (List.range r.vr).foldl (fun (a : CourseRun × List (List Rounded × Bool)) q =>
    let xs : List FW := (List.range r.vc).map fun c => r.score aux 0 l (64 * q + c)
    let (st, o, es, fl) := attnRow d.s (sget {} a.1.rows q) (a.1.outRow q) xs
    let ps := es.map fun e => e.to d.fp d.sat
    let r' := { a.1 with rows := sset {} a.1.rows q st, acc := sset [] a.1.acc q o }
    (r'.raise (fl.or (orFlags (ps.map (·.flags)))), a.2 ++ [(ps, st.slush)])) (r, [])
  let t : Send := { kind := 4, i := r.at'.band, j := 0, kx := r.at'.j }
  let made := denseTile t d.fp r.vr r.vc [] fun q c =>
    match go.2[q]? with
    | some (ps, m) => (((ps.map (·.code)).getD c 0), m)
    | none => (0, false)
  { go.1 with made := some made }

/-- B05: adds a result tile of P·C to the running output (R257). -/
def CourseRun.flemishAdd (r : CourseRun) : CourseRun :=
  let v := r.at'.ph - 1
  let l := r.tile 6 r.at'.band v
  (List.range r.vr).foldl (fun (r : CourseRun) q =>
    let os : List FW := (r.outRow q).zipIdx.map fun (c, i) =>
      if i / 64 = v then (FW.ofCont c).op .add r.d.s (l.fp (64 * q + i % 64)) else FW.ofCont c
    CourseRun.raise { r with acc := sset [] r.acc q (os.map FW.cont) } (orFlags (os.map (·.fl)))) r

/-- The end of a row (R257): the output, the LSE, and whether the row is empty. -/
def attnEnd (strict : Bool) (st : RowStat) (o : List (BitVec 33)) : List FW × FW × Bool :=
  let sl := st.slush
  let mark := fun (x : FW) => { x with mark := x.mark || sl }
  let (lse, lf, _) := lseOf strict (st.entry strict 0)
  let lse : FW := { w := lse, mark := sl, fl := lf }
  if st.nan then (o.map fun _ => mark nanF, mark nanF, false)
  else if 0 < st.k then
    (o.map fun c => mark ((FW.ofCont c).op .mul strict (FW.const (oneOver st.k))), lse, false)
  else if st.m == negInf32 then (o.map fun _ => mark (FW.const 0), lse, true)
  else
    let rc := (st.s.word).sfu .rcp strict
    (o.map fun c => mark ((FW.ofCont c).op .mul strict rc), lse, false)

/-- B05 and B06: the end of a row band (R257). -/
def CourseRun.flemishEnd (r : CourseRun) : CourseRun :=
  let d := r.d
  let rs : List (List FW × FW × Bool) := (List.range r.vr).map fun q => attnEnd d.s (sget {} r.rows q) (r.outRow q)
  let r := (List.range d.dv).foldl (fun (r : CourseRun) v =>
    let ws := rs.zipIdx.flatMap fun (x, q) => ((x.1.drop (64 * v)).take 64).zipIdx.map fun (y, c) =>
      let z := y.to d.fo d.sat
      (EWrite.of (64 * q + c) z y.mark, z.flags)
    (r.raise (orFlags (ws.map (·.2)))).put true d.out ((r.at'.band * d.dv + v) * 128 * d.fo.width) d.fo (ws.map (·.1))) r
  let n := (rs.filter fun x => x.2.2).length
  let r : CourseRun := { r with sum := { r.sum with empty := r.sum.empty + n } }
  r.putVec (d.par 2) (64 * r.at'.band) (rs.map fun x => x.2.1)

/-- B06 in sweep 1: the row maxima (R261). -/
def CourseRun.englishMax (r : CourseRun) (aux : Aux) : CourseRun :=
  let l := r.tile 5 r.at'.band r.at'.j
  (List.range r.vr).foldl (fun (r : CourseRun) q =>
    let xs : List FW := (List.range r.vc).map fun c => r.score aux 0 l (64 * q + c)
    let st : RowStat := sget {} r.rows q
    let st := { st with m := maxScore st.m xs, slush := st.slush || xs.any (·.mark) }
    ({ r with rows := sset {} r.rows q st }).raise (orFlags (xs.map FW.fl))) r

/-- The exact value of an element of an operand tile with its block scale (R54). -/
def formVal (f : OpForm) (aux : Nat → BitVec 33) (off p : Nat) : Num × Bool :=
  let w := f.fmt.width
  let c := aux (off + p * w / 32)
  let code : Code := BitVec.ofNat 64 ((contData c).toNat / 2 ^ (p * w % 32) % 2 ^ w)
  let v := f.fmt.decode code
  if f.block = 0 then (v, contMark c)
  else
    let b := p / (if f.block = 1 then 16 else 32)
    let sc := aux (off + 128 * w + b / 4)
    (scaled v ((contData sc).extractLsb' (8 * (b % 4)) 8), contMark c || contMark sc)

/-- B07: D of a row band (R262); block 0 is dO, block 1 is O. D is an FP32 value beside OUT and takes the FP32 default.
DESIGN CHOICE, log entry 160. -/
def CourseRun.dutchD (r : CourseRun) (aux : Aux) : CourseRun :=
  let d := r.d
  let f := r.forms.get 2
  let tk := tilesOf d.k
  let ds := (List.range r.vr).map fun q =>
    let es := (List.range d.k).map fun c =>
      let off := (r.at'.band * tk + c / 64) * formWords f
      let p := 64 * q + c % 64
      let a := formVal f (aux 0) off p
      let b := formVal f (aux 1) off p
      (Term.prod false a.1 b.1, a.2 || b.2)
    let v := groupSum d.s false (accFmt [f.fmt, .fp32]) .fp32 (es.map (·.1))
    ({ w := v.code.setWidth 32, mark := es.any (·.2), fl := v.flags } : FW)
  let rows := ds.zipIdx.foldl (fun m (x, q) => sset {} m q ({ g := x.w, slush := x.mark } : RowStat)) r.rows
  CourseRun.putVec { r with rows } (d.par 3) (64 * r.at'.band) ds

/-- A positive whole number. -/
def Num.count? : Num → Option Nat
  | .fin false m e =>
    let n := if 0 ≤ e then m * 2 ^ e.toNat else m / 2 ^ (-e).toNat
    if 0 < n && (decide (0 ≤ e) || n * 2 ^ (-e).toNat == m) then some n else none
  | _ => none

/-- P of a score `x` of a row with an entry of the LSE source (R262): `k` is the count that the entry gives, in a row
that has shown a +infinity score. -/
def dutchP (strict : Bool) (lse x : FW) (k : Option Nat) : FW :=
  let fix := fun (v : FW) => { v with mark := x.mark || lse.mark, fl := x.fl }
  let share := fun (v : FW) => fix (if x.val == .inf false then v else if x.val.isNan then nanF else FW.const 0)
  if lse.val.isNan then fix nanF
  else if lse.val == .inf true then fix (FW.const 0)
  else if lse.val == .inf false then share oneF
  else match k with
    | some n => share (FW.const (oneOver n))
    | none => if x.val == .inf true then fix (FW.const 0) else (x.op .sub strict lse).sfu .exp strict

/-- B07: P and dS of a key tile whose row band's +infinity scores are known (R262): a positive whole number as the LSE
source of a row that shows one is the k of the forward pass and divides the ones; +infinity as the source gives no k, and
the ones stay undivided. DESIGN CHOICE, log entry 161. -/
def CourseRun.dutchOut (r : CourseRun) (t : DutchTile) : CourseRun :=
  let d := r.d
  let es : List (EWrite × EWrite × FpFlags) := (List.range r.vr).flatMap fun q =>
    let st : RowStat := sget {} r.rows q
    let lse := FW.ofCont (t.lse.getD q 0)
    let k := if 0 < st.k then Num.count? lse.val else none
    ((t.xs.getD q []).zipIdx : List (BitVec 33 × Nat)).map fun (x, c) =>
      let p := 64 * q + c
      let pr := dutchP d.s lse (FW.ofCont x) k
      let dd := (t.dp.fp p).op .sub d.s { w := st.g, mark := st.slush }
      let ds := if lse.val == .inf true then { FW.const 0 with mark := pr.mark || dd.mark }
        else (pr.op .mul d.s dd).op .mul d.s (FW.const d.tau)
      let a := pr.to d.fo d.sat
      let b := ds.to d.fo d.sat
      (EWrite.of p a pr.mark, EWrite.of p b ds.mark, a.flags.or b.flags)
  let off := (t.at'.band * tilesOf d.n + t.at'.j) * 128 * d.fo.width
  ((r.raise (orFlags (es.map (·.2.2)))).put true d.out off d.fo (es.map (·.1))).put false (d.par 4) off d.fo
    (es.map (·.2.1))

/-- A row of a key tile may still turn out to be one whose LSE source is a k: the source is a positive whole number, no
+infinity score has shown, and key tiles of the band are still to come (R262). -/
def CourseRun.dutchOpen (r : CourseRun) (t : DutchTile) : Bool :=
  decide (t.at'.j + 1 < r.d.cols 2) && (List.range r.vr).any fun q =>
    (sget {} r.rows q : RowStat).k == 0 && (Num.count? (FW.ofCont (t.lse.getD q 0)).val).isSome

/-- B07: a key tile (R262); block 0 is the LSE vector, block 1 the mask. Its elements are written at once, or, where a row's
LSE source may be a k, once the band's key tiles have shown it. DESIGN CHOICE, log entry 161. -/
def CourseRun.dutch (r : CourseRun) (aux : Aux) : CourseRun :=
  let l := r.tile 5 r.at'.band r.at'.j
  let xs := (List.range r.vr).map fun q => (List.range r.vc).map fun c => r.score aux 1 l (64 * q + c)
  let rows := xs.zipIdx.foldl (fun m (l, q) =>
    if l.any fun x => x.val == Num.inf false then sset {} m q { (sget {} m q : RowStat) with k := 1 } else m) r.rows
  let r := CourseRun.raise { r with rows } (orFlags (xs.flatMap fun l => l.map (·.fl)))
  let t : DutchTile :=
    { at' := r.at', lse := (List.range r.vr).map fun q => aux 0 (64 * r.at'.band + q)
      xs := xs.map fun l => l.map FW.cont, dp := r.tile 6 r.at'.band r.at'.j }
  if r.kept.isEmpty && !r.dutchOpen t then r.dutchOut t else { r with kept := r.kept ++ [t] }

/-! ## B08 and B11 (R263, R264) -/

/-- B08: H of a tile of the intermediate dimension. -/
def CourseRun.monk (r : CourseRun) : CourseRun :=
  let d := r.d
  let g := r.tile 5 r.at'.band r.at'.j
  let u := r.tile 6 r.at'.band r.at'.j
  let h := fun p =>
    let x := (activate d.s ((d.par 0).extractLsb' 0 3).toNat (g.fp p)).op .mul d.s (u.fp p)
    (EWrite.of p (x.to d.fp d.sat) x.mark, (x.to d.fp d.sat).flags)
  let hs : List (EWrite × FpFlags) := r.positions.map h
  let cells : Store (BitVec 65) := (joinMarks d.fp (hs.map (·.1))).map fun w => (w.i, BitVec.ofBool w.mark ++ w.code)
  let t : Send := { kind := 4, i := r.at'.band, j := 0, kx := r.at'.j }
  let made := denseTile t d.fp r.vr r.vc [] fun q c =>
    let x := sget 0 cells (64 * q + c)
    (x.setWidth 64, x.getLsbD 64)
  let fl : List FpFlags := hs.map fun x => x.2
  { r with made := some made }.raise (orFlags fl)

/-- B08: an output tile of product 3. -/
def CourseRun.monkOut (r : CourseRun) : CourseRun :=
  let d := r.d
  let l := r.tile 7 r.at'.band r.at'.j
  let vc := extentOf d.pw r.at'.j
  let es := (List.range r.vr).flatMap fun q => (List.range vc).map fun c =>
    let x := l.fp (64 * q + c)
    let v := x.to d.fo d.sat
    (EWrite.of (64 * q + c) v x.mark, v.flags)
  (r.raise (orFlags (es.map (·.2)))).put true d.out ((r.at'.band * tilesOf d.pw + r.at'.j) * 128 * d.fo.width) d.fo
    (es.map (·.1))

/-- An element of the residual (block 0 of B11). -/
def CourseRun.residual (r : CourseRun) (aux : Aux) (p : Nat) : Code × Bool :=
  let f := r.d.fres
  let c := aux 0 (r.tileNo * 128 * f.width + p * f.width / 32)
  (BitVec.ofNat 64 ((contData c).toNat / 2 ^ (p * f.width % 32) % 2 ^ f.width), contMark c)

/-- B11 in sweep 1: the new residual and its squares. -/
def CourseRun.gardenAdd (r : CourseRun) (aux : Aux) : CourseRun :=
  let d := r.d
  let f := d.fres
  let l := r.tile 5 r.at'.band r.at'.j
  let es := r.positions.map fun p =>
    let (c, m) := r.residual aux p
    let x := l.fp p
    let v := elementwise .add d.s d.sat f .fp32 f c (x.w.setWidth 64) 0
    (EWrite.of p v (m || x.mark), x.fl.or v.flags)
  let ws := es.map (·.1)
  ((r.raise (orFlags (es.map (·.2)))).put false d.aux0 (r.tileNo * 128 * f.width) f ws).statTile 1 f false ws

/-- B11: the scale of each row (R264). -/
def CourseRun.gardenScale (r : CourseRun) : CourseRun :=
  let d := r.d
  let n : FW := FW.const ((Fmt.fp32.encode false true (.fin false d.n 0)).code.setWidth 32)
  (List.range r.vr).foldl (fun (r : CourseRun) q =>
    let e := sget {} r.stat q
    let v := (((statRead 1 false d.fres e).op .mul d.s (n.sfu .rcp d.s)).op .add d.s (FW.const (d.par 1))).sfu .rsq d.s
    ({ r with rows := sset {} r.rows q { g := v.w, slush := v.mark } }).raise v.fl) r

/-- B11 in sweep 2: the normalised tile; block 1 is γ. -/
def CourseRun.gardenOut (r : CourseRun) (aux : Aux) : CourseRun :=
  let d := r.d
  let es := r.positions.map fun p =>
    let (c, m) := r.residual aux p
    let st : RowStat := sget {} r.rows (p / 64)
    let v := elementwise .mul d.s false d.fres .fp32 .fp32 c (st.g.setWidth 64) 0
    let y : FW := { w := v.code.setWidth 32, mark := m || st.slush, fl := v.flags }
    let y := y.op .mul d.s (FW.ofCont (aux 1 (64 * r.at'.j + p % 64)))
    let z := y.to d.fo d.sat
    (EWrite.of p z y.mark, z.flags)
  (r.raise (orFlags (es.map (·.2)))).put true d.out (r.tileNo * 128 * d.fo.width) d.fo (es.map (·.1))

/-! ## Heads (R268 to R272) -/

/-- The noise q of a draw (R270): strict whatever the course's mode. -/
def gumbel (u : Word) : FW :=
  let n := 2 * (u.toNat / 2 ^ 9) + 1
  let v : FW := FW.const ((Fmt.fp32.encode false false (.fin false n (-24))).code.setWidth 32)
  let l := v.sfu .log2 true
  let ng := signOp false false .fp32 .fp32 (l.w.setWidth 64)
  FW.sfu .log2 true { l with w := ng.code.setWidth 32 }

/-- What a draw reads besides the row: the key, the step and stream, the slot. -/
structure DrawKey where
  k0 : Word
  k1 : Word
  gen : BitVec 24
  stream : BitVec 24

/-- The score of a column in draw `dr` of a row with a slot (R270); in a +infinity row −q alone. -/
def drawScore (k : DrawKey) (slot : BitVec 8) (dr : Nat) (voc : Word) (y : FW) (isInf : Bool) : FW :=
  let q := gumbel (genDraw k.k0 k.k1 voc (genC1 slot k.gen) (genC2 (BitVec.ofNat 8 dr) k.stream))
  if isInf then let n := signOp false false .fp32 .fp32 (q.w.setWidth 64); { q with w := n.code.setWidth 32 }
  else y.op .sub true q

/-- The better of a draw's candidate and a new column: the larger score, equal ones to the earlier (R270). -/
def betterDraw (old : Option (Word × Word × Word)) (z voc y : Word) : Option (Word × Word × Word) :=
  match old with
  | none => if (f32 z).isNan then none else some (z, voc, y)
  | some o => if (f32 o.1).lt (f32 z) then some (z, voc, y) else old

/-- One row of a vocabulary tile (R269, R270): `ys` gives each column's vocabulary index and y. -/
def headRow (strict sample : Bool) (ndraws : Nat) (key : DrawKey) (slot : BitVec 8) (target : Word) (st : RowStat)
    (ys : List (Word × FW)) : RowStat × FpFlags × FpFlags :=
  let vs := ys.map fun y => y.2.val
  let st := { st with slush := st.slush || ys.any fun y => y.2.mark }
  let st : RowStat := match ys.find? fun y => y.1 == target with
    | some y => { st with seen := true, target := y.2.w }
    | none => st
  let fl := orFlags (ys.map fun y => y.2.fl)
  if st.nan || vs.any Num.isNan then ({ st with nan := true }, fl, {})
  else
    let infs := ys.filter fun y => y.2.val == .inf false
    let n := infs.length
    let isInf := 0 < n || 0 < st.k
    let old := if 0 < n && st.k = 0 then [] else st.draws
    let cand := if isInf then infs else ys
    let count := max 1 ndraws
    let ds := if !sample then ([] : List (Option (Word × Word × Word) × FpFlags))
      else (List.range count).map fun dr =>
        cand.foldl (fun (a : Option (Word × Word × Word) × FpFlags) y =>
          if ndraws = 0 then (betterDraw a.1 y.2.w y.1 y.2.w, a.2)
          else
            let z := drawScore key slot dr y.1 y.2 isInf
            (betterDraw a.1 z.w y.1 y.2.w, a.2.or z.fl)) (old.getD dr none, {})
    let st := { st with draws := ds.map (·.1) }
    let sfl := orFlags (ds.map (·.2))
    if 0 < n then
      ({ st with s := if st.k = 0 then ({} : RunSum) else st.s, t := if st.k = 0 then ({} : RunSum) else st.t, k := st.k + n, m := 0x7F800000 },
       fl, sfl)
    else if 0 < st.k then (st, fl, sfl)
    else
      let m' : FW := FW.const (maxScore st.m (ys.map (·.2)))
      let rise := (f32 st.m).lt m'.val && st.m != negInf32
      let al := ((FW.const st.m).op .sub strict m').sfu .exp2 strict
      let s32 := (st.s.word).op .mul strict al
      let t32 := (st.t.word).op .mul strict al
      let s := if rise then RunSum.ofNum s32.val else st.s
      let t := if rise then RunSum.ofNum t32.val else st.t
      let live := ys.filter fun y => y.2.val != .inf true
      let es := live.map fun y => (y.2, (y.2.op .sub strict m').sfu .exp2 strict)
      let (s, f1) := addTerms strict s (es.map fun e => Term.whole e.2.val)
      let (t, f2) := addTerms strict t (es.map fun e => Term.prod false e.2.val e.1.val)
      let fl := ((fl.or f1).or f2).or (orFlags (es.map fun e => e.2.fl))
      ({ st with m := m'.w, s, t }, if rise then (fl.or s32.fl).or t32.fl else fl, sfl)

/-- The key fields of B09 (R270). -/
def CourseDesc.drawKey (d : CourseDesc) : DrawKey :=
  { k0 := d.par 5, k1 := d.par 6, gen := (d.par 2).extractLsb' 0 24, stream := (d.par 3).extractLsb' 0 24 }

/-- y of the columns of a row of a tile: the vocabulary index and the scaled logit (R269). -/
def CourseRun.ys (r : CourseRun) (l : Landed) (q : Nat) : List (Word × FW) :=
  (List.range r.vc).map fun c =>
    (r.d.par 4 + BitVec.ofNat 32 (64 * r.at'.j + c), (l.fp (64 * q + c)).op .mul r.d.s (FW.const (r.d.par 1)))

/-- A slot entry names no sequence slot (R3, R225). -/
def badSlot (c : BitVec 33) : Bool := (contData c).toInt < 0 || 192 ≤ (contData c).toInt

/-- The target token of a row of the band (log entry 31); B09 scores none. -/
def CourseRun.targetOf (r : CourseRun) (q : Nat) : Word := Config.targetToken r.free (64 * r.at'.band + q)

/-- B09, B10 and B14 in sweep 1: a vocabulary tile; block 0 of B09 and B10 is the slot vector, and a row without a
sequence slot is left (R225). The draws' strict operations raise flags in strict mode alone, as the others do (R94, log
entry 65). -/
def CourseRun.head (r : CourseRun) (aux : Aux) : CourseRun :=
  let d := r.d
  let l := r.tile 5 r.at'.band r.at'.j
  let slotted := d.bn == 9 || d.bn == 10
  (List.range r.vr).foldl (fun (r : CourseRun) q =>
    let slot := aux 0 (64 * r.at'.band + q)
    let st0 := sget {} r.rows q
    let st0 := if slotted && contMark slot then { st0 with slush := true } else st0
    if slotted && badSlot slot then { r with rows := sset {} r.rows q { st0 with noSlot := true, slush := true } }
    else
      let (st, fl, sfl) := headRow d.s (d.bn == 9) d.draws d.drawKey ((contData slot).setWidth 8) (r.targetOf q) st0
        (r.ys l q)
      let st := if d.bn = 9 then { st with seen := false, target := 0 } else st
      CourseRun.raise { r with rows := sset {} r.rows q st } (fl.or sfl)) r

/-- `ln k` correctly rounded (R269). -/
def lnWord (k : Nat) : Word := negLn k ^^^ 0x80000000

/-- The finished words of a row (R268, R269): LSE, the target's log-probability, the entropy, and a function that gives
the log-probability of a y. -/
structure HeadEnd where
  lse : FW
  logp : FW
  ent : FW
  logOf : Word → FW
  empty : Bool := false

/-- Words 3, 5 and 6 by row class (R269). -/
def headEnd (strict : Bool) (st : RowStat) (s t : FW) : HeadEnd :=
  if st.nan then { lse := nanF, logp := nanF, ent := nanF, logOf := fun _ => nanF }
  else if 0 < st.k then
    let nl : FW := FW.const (negLn st.k)
    { lse := infF, logp := if st.target == 0x7F800000 then nl else ninfF, ent := FW.const (lnWord st.k), logOf := fun _ => nl }
  else if st.m == negInf32 then
    { lse := ninfF, logp := ninfF, ent := FW.const 0, logOf := fun _ => ninfF, empty := true }
  else
    let ln2 : FW := FW.const ln2Word
    let l2 := s.sfu .log2 strict
    let m : FW := FW.const st.m
    let sum := m.op .add strict l2
    let logOf := fun (y : Word) => (((FW.const y).op .sub strict m).op .sub strict l2).op .mul strict ln2
    { lse := sum.op .mul strict ln2, logp := logOf st.target
      ent := (sum.op .sub strict (t.op .mul strict (s.sfu .rcp strict))).op .mul strict ln2, logOf }

/-- Word 7 (R268). -/
def headFlags (st : RowStat) : Word :=
  (0 : BitVec 16) ++ BitVec.ofNat 8 (min st.k 255) ++ (0 : BitVec 4) ++ BitVec.ofBool (0 < st.k) ++ BitVec.ofBool st.nan ++
    BitVec.ofBool (!st.nan && st.k == 0 && st.m == negInf32) ++ BitVec.ofBool st.seen

/-- The loss words of B14 (R272): loss, ρ, g, the clip flag. -/
structure Coping where
  loss : FW
  rho : FW
  g : FW
  clip : Bool

/-- The loss of a row with a log-probability, from λ, A and w (R272). -/
def coping (strict : Bool) (d : CourseDesc) (logp lam a w : FW) : Coping :=
  let rho := (logp.op .sub strict lam).sfu .exp strict
  let lo := oneF.op .sub strict (FW.const (d.par 3))
  let hi := oneF.op .add strict (FW.const (d.par 5))
  let rc := (rho.best false lo).best true hi
  let l1 := rho.op .mul strict a
  let l2 := rc.op .mul strict a
  let neg := fun (x : FW) => { x with w := (signOp false false .fp32 .fp32 (x.w.setWidth 64)).code.setWidth 32 }
  let le := (compareElems 3 l1.val l2.val)
  let g := if le.1 then neg (l1.op .mul strict w) else FW.const 0
  { loss := (neg (l1.best true l2)).op .mul strict w, rho
    g := { g with mark := l1.mark || l2.mark || w.mark, fl := g.fl.or { nv := le.2 } }, clip := !le.1 }

/-- A row that has no gradient (R272). -/
def RowStat.noLoss (st : RowStat) : Bool := st.nan || (st.k == 0 && st.m == negInf32) || !st.seen

/-- The record of a row at the end of the band (R268), the row's statistic, and whether it counts in EMPTY. Block 1 of
B14 holds λ, A and w. A row without a sequence slot is +0 and marked throughout (R225). -/
def CourseRun.record (r : CourseRun) (aux : Aux) (q : Nat) : List FW × RowStat × Bool :=
  let d := r.d
  let st : RowStat := sget {} r.rows q
  let s := st.s.word
  let t := st.t.word
  let e := headEnd d.s st s t
  let z := FW.const 0
  let m : FW := FW.const st.m
  let fl : FW := FW.const (headFlags st)
  let y := if st.seen then FW.const st.target else z
  let none' : FW := FW.const 0xFFFFFFFF
  let idx := (List.range 4).map fun i =>
    match st.draws.getD i none with
    | some x => if st.nan || e.empty then none' else FW.const x.2.1
    | none => none'
  let mark := fun (l : List FW) => l.map fun x => { x with mark := st.slush }
  if st.noSlot then (mark (List.replicate 16 z), st, false)
  else if d.defer then
    let zs := (List.range 4).map fun i =>
      match st.draws.getD i none with
      | some x => if d.bn = 9 && !st.nan && !e.empty then FW.const x.1 else z
      | none => z
    (mark ([m, s, t, z, y, z, z, fl] ++ (if d.bn = 9 then idx else [z, z, z, z]) ++ zs), st, e.empty)
  else if d.bn = 9 then
    let lp := (List.range 4).map fun i =>
      if max 1 d.draws ≤ i then z
      else if st.nan then nanF
      else if e.empty then ninfF
      else match st.draws.getD i none with
        | some x => e.logOf x.2.2
        | none => z
    (mark ([m, s, z, e.lse, z, z, z, fl] ++ idx ++ lp), st, e.empty)
  else
    let logp := if st.seen || st.nan || e.empty || 0 < st.k then e.logp else z
    let base := [m, s, t, e.lse, y, logp, e.ent, fl]
    if d.bn = 10 then (mark (base ++ [z, z, z, z, z, z, z, z]), st, e.empty)
    else
      let g4 := 4 * (64 * r.at'.band + q)
      let bad := st.noLoss
      let c := coping d.s d e.logp (FW.ofCont (aux 1 g4)) (FW.ofCont (aux 1 (g4 + 1))) (FW.ofCont (aux 1 (g4 + 2)))
      let lossWords := if bad then [nanF, nanF, nanF, z] else [c.loss, c.rho, c.g, FW.const (if c.clip then 1 else 0)]
      let sl := st.slush || lossWords.any (·.mark)
      let st' := { st with g := c.g.w, bad, slush := sl }
      (mark base ++ lossWords.map (fun x => { x with mark := sl }) ++ [z, z, z, z], st', bad || e.empty)

/-- The record words that count in SUMMARY: those that hold FP32 values (log entry 35). -/
def recordFp (bn : Nat) (i : Nat) : Bool := decide (i < 7) || (bn == 9 && decide (12 ≤ i)) || (bn == 14 && decide (8 ≤ i) && decide (i < 11))

/-- Writes records at OUT. -/
def CourseRun.putRecords (r : CourseRun) (first : Nat) (recs : List (List FW)) : CourseRun :=
  let ws : List EWrite := recs.zipIdx.flatMap fun (l, q) => l.zipIdx.map fun (w, i) =>
    ({ i := 16 * q + i, code := w.w.setWidth 64, mark := w.mark } : EWrite)
  let adds := fun (w : EWrite) => if recordFp r.d.bn (w.i % 16) then some (w.summary .fp32) else none
  let r := r.raise (orFlags (recs.flatMap fun l => l.map (·.fl)))
  { r with out := r.out ++ [outWords r.d.out (16 * first) .fp32 ws adds] }

/-- B09, B10 and B14: the end of a row band in sweep 1. -/
def CourseRun.headBand (r : CourseRun) (aux : Aux) : CourseRun :=
  let rs : List (List FW × RowStat × Bool) := (List.range r.vr).map fun q => r.record aux q
  let rows := rs.zipIdx.foldl (fun m (x, q) => sset {} m q x.2.1) r.rows
  let n := (rs.filter fun x => x.2.2).length
  CourseRun.putRecords { r with rows, sum := { r.sum with empty := r.sum.empty + n } } (64 * r.at'.band) (rs.map (·.1))

/-- B14 in sweep 2: the gradient tile (R272). -/
def CourseRun.copingGrad (r : CourseRun) : CourseRun :=
  let d := r.d
  let l := r.tile 5 r.at'.band r.at'.j
  let es := (List.range r.vr).flatMap fun q =>
    let st : RowStat := sget {} r.rows q
    let rc := (st.s.word).sfu .rcp d.s
    (r.ys l q).zipIdx.map fun ((voc, y), c) =>
      let p := ((y.op .sub d.s (FW.const st.m)).sfu .exp2 d.s).op .mul d.s rc
      let dl := if voc == r.targetOf q then oneF else FW.const 0
      let g := ((FW.const (d.par 2)).op .mul d.s (FW.const st.g)).op .mul d.s (dl.op .sub d.s p)
      let g := if st.bad then nanF else g
      let v := g.to d.fo d.sat
      (EWrite.of (64 * q + c) v (g.mark || st.slush || y.mark), v.flags)
  (r.raise (orFlags (es.map (·.2)))).put false (d.par 6) (r.tileNo * 128 * d.fo.width) d.fo (es.map (·.1))

/-! ## One piece of bond work -/

/-- A run of offsets. -/
def offs (a n : Nat) : List Nat := (List.range n).map (a + ·)

/-- The blocks that a piece of work reads: key, address, offsets. -/
def CourseRun.auxOf (r : CourseRun) : List (Nat × Word × List Nat) :=
  let d := r.d
  let c := r.at'
  let cols := offs (64 * c.j) r.vc
  let rows := offs (64 * c.band) r.vr
  let bits := offs (r.tileNo * 128) 128
  if d.ends c then
    match d.bn with
    | 7 => if c.sweep = 1 then
        let n := tilesOf d.k * formWords (r.forms.get 2)
        [(0, d.c, offs (c.band * n) n), (1, d.par 5, offs (c.band * n) n)]
      else []
    | 14 => if c.sweep = 1 && !d.defer then [(1, d.aux1, offs (256 * c.band) (4 * r.vr))] else []
    | _ => []
  else match d.bn with
    | 0 | 1 | 2 => (if d.scv then [(0, d.aux0, cols)] else []) ++ (if d.bias then [(1, d.aux1, cols)] else [])
    | 5 | 6 => if c.ph = 0 && d.masked then [(0, d.aux0, bits)] else []
    | 7 => [(0, d.par 2, rows)] ++ (if d.masked then [(1, d.aux1, bits)] else [])
    | 9 | 10 => [(0, d.aux0, rows)]
    | 11 =>
      let n := 128 * d.fres.width
      [(0, d.aux0, offs (r.tileNo * n) n)] ++ (if c.sweep = 2 then [(1, d.aux1, cols)] else [])
    | 12 => let (b, _, _) := brickParam (d.par 0) d.fo; [(0, d.aux0, offs (r.tileNo * (4096 / b)) (4096 / b))]
    | 13 => [(0, d.aux0, bits)] ++ (if (d.par 0).getLsbD 0 then [(1, d.par 1, offs (r.tileNo * 4096) 4096)] else [])
    | _ => []

/-- The end of a sweep of a row band. -/
def CourseRun.endWork (r : CourseRun) (aux : Aux) : CourseRun :=
  let d := r.d
  let last := r.at'.band + 1 == tilesOf d.m
  match d.bn with
  | 1 => r.putVec (d.par 2) (64 * r.at'.band) ((List.range r.vr).map fun q => statRead d.rop d.sat d.fo (sget {} r.stat q))
  | 2 => if last then r.putVec (d.par 2) 0 ((List.range d.n).map fun c => statRead d.rop d.sat d.fo (sget {} r.stat c)) else r
  | 5 => r.flemishEnd
  | 6 => if r.at'.sweep = 2 then r.flemishEnd else r
  | 7 => if r.at'.sweep = 1 then r.dutchD aux else r
  | 9 | 10 => r.headBand aux
  | 11 => if r.at'.sweep = 1 then r.gardenScale else r
  | 14 => if r.at'.sweep = 1 then r.headBand aux else r
  | _ => r

/-- The work of a column tile. -/
def CourseRun.tileWork (r : CourseRun) (aux : Aux) : CourseRun :=
  let d := r.d
  match d.bn with
  | 1 => let (r, ws) := r.stack aux; r.statTile d.rop d.fo false ws
  | 2 => let (r, ws) := r.stack aux; r.statTile d.rop d.fo true ws
  | 5 => if r.at'.ph = 0 then r.flemishScores aux else r.flemishAdd
  | 6 => if r.at'.sweep = 1 then r.englishMax aux else if r.at'.ph = 0 then r.flemishScores aux else r.flemishAdd
  | 7 => r.dutch aux
  | 8 => if r.at'.sweep = 1 then r.monk else r.monkOut
  | 9 | 10 => r.head aux
  | 11 => if r.at'.sweep = 1 then r.gardenAdd aux else r.gardenOut aux
  | 12 => r.basket aux
  | 13 => r.quoin aux
  | 14 => if r.at'.sweep = 1 then r.head aux else r.copingGrad
  | _ => (r.stack aux).1

/-- A piece of bond work: the tile or the end of the sweep. -/
def CourseRun.work (r : CourseRun) (aux : Aux) : CourseRun := if r.d.ends r.at' then r.endWork aux else r.tileWork aux

/-- Landed tiles without the first of a key: a tile of a later sweep may have landed too (R236, R272). -/
def consume (l : List Landed) (k : BitVec 3 × Nat × Nat) : List Landed :=
  l.eraseP fun x => (x.kind, x.i, x.j) == k

/-- Moves to the next piece of work: the tiles consumed return their landing credits (R236), and the statistics of a row
band end with it. -/
def CourseRun.advance (r : CourseRun) : CourseRun :=
  let need := r.d.needs r.at'
  let next := r.d.after r.at'
  let fresh := next.band != r.at'.band && !r.d.over next
  { r with at' := next, credits := min 4 (r.credits + need.length)
           landed := need.foldl consume r.landed
           rows := if fresh then [] else r.rows, acc := if fresh then [] else r.acc
           stat := if fresh && r.d.bn != 2 then [] else r.stat }

/-- The course is done; a fault gives its status (R276), a stop or a discarded step STOPPED (R247, R478). -/
def CourseRun.finish (r : CourseRun) : CourseRun :=
  { r with finished := true, out := []
           status := match r.fault with | some (c, _) => c | none => if r.stopping || r.lost then 7 else 1 }

/-- The result tiles that the next piece of work needs have landed. -/
def CourseRun.ready (r : CourseRun) : Bool :=
  (r.d.needs r.at').all fun k => r.landed.any fun l => (l.kind, l.i, l.j) == k

/-- A place past the last piece of work that a fault leaves (R276). -/
def CourseRun.past (r : CourseRun) (c : Cursor) : Bool :=
  match r.fault with | some (_, l) => l.before { c with ph := 0 } | none => false

/-- A piece of work that is cut off: by a fault, or because a bond step was discarded (R276, R467, R478). -/
def CourseRun.cut (r : CourseRun) : Bool := r.lost || r.past r.at'

/-- A piece of work that the vector unit does: the work on a column tile, and an end of a sweep that forms words (R245,
R462). -/
def CourseRun.works (r : CourseRun) : Bool :=
  !r.d.ends r.at' || match r.d.bn with
    | 1 | 5 | 9 | 10 => true
    | 2 => r.at'.band + 1 == tilesOf r.d.m
    | 6 => r.at'.sweep == 2
    | 7 | 11 | 14 => r.at'.sweep == 1
    | _ => false

/-- The first key tile that B07 keeps is written, unless it is cut off (R262, R276). -/
def CourseRun.unkeep (r : CourseRun) : CourseRun :=
  match r.kept with
  | [] => r
  | t :: rest =>
    let r := { r with kept := rest, outAt := t.at' }
    if r.lost || r.past t.at' then r else r.dutchOut t

/-- Writes the output words that wait, in order, for the tile at a place: whether all are written. -/
def State.mortarFlush (s : State) (at' : Cursor) : List OutWords → State × Bool
  | [] => (s, true)
  | o :: rest =>
    match s.mortarWrite keyOut at' o with
    | (s, false) => (s, false)
    | (s, true) => (s.modRun fun r => { r with out := rest }).mortarFlush at' rest

/-- Finishes the course when nothing is left to do. -/
def State.mortarSettle (s : State) : State :=
  match s.mortar.run with
  | none => s
  | some r =>
    if r.kept.isEmpty && (r.d.over r.at' || ((r.stopping || r.cut) && r.owed.isEmpty && r.landed.isEmpty)) then
      s.modRun CourseRun.finish
    else s

/-- Writes the output words that wait, and finishes a course with nothing left to do. -/
def State.mortarOut (s : State) : State :=
  match s.mortar.run with
  | none => s
  | some r => match s.mortarFlush r.outAt r.out with | (s, true) => s.mortarSettle | (s, false) => s

/-! ## Steps of the vector unit (R245, R249) -/

/-- Strict steps of an activation, in full-tile operations (R93, R139, R251). -/
def actSteps (act : Nat) : Nat := match act with | 0 => 0 | 1 => 1 | 2 => 9 | 3 => 12 | _ => 8

/-- The strict costs of the separate operations of a piece of work together, a full tile's row groups counted as one
(R93, R139, R249). -/
def CourseDesc.strictSteps (d : CourseDesc) (sweep : Nat) : Nat :=
  let act := actSteps ((d.par 0).extractLsb' 0 3).toNat
  let scale := if d.scv || d.bias || d.tau != 0x3F800000 then 1 else 0
  let stack := scale + (if d.bias then 1 else 0) + act + 1
  match d.bn with
  | 0 => stack
  | 1 | 2 => stack + 64
  | 5 => 140 + d.dv
  | 6 => if sweep = 1 then 66 else 76 + d.dv
  | 7 => 15
  | 8 => act + 2
  | 9 => 138 + (if d.draws = 0 then 64 else 82 * d.draws)
  | 10 => 202
  | 11 => if sweep = 1 then 65 else 3
  | 12 => (if d.tau != 0x3F800000 then 1 else 0) + 3
  | 13 => 3
  | 14 => if sweep = 1 then 202 else 15
  | _ => 1

/-- Steps of a result tile of product 1 on C3-L in fast mode (R249). The menu gives B03 and B04 steps for operand tiles
alone; their result tile takes those of its conversion. -/
def CourseDesc.fastSteps (d : CourseDesc) (sweep : Nat) : Nat :=
  match d.bn with
  | 0 | 7 | 8 => 16
  | 1 | 2 | 12 => 20
  | 5 => 10
  | 6 => if sweep = 1 then 4 else 10
  | 9 => if d.draws = 0 then 28 else 96
  | 10 | 14 => 28
  | 11 => if sweep = 1 then 12 else 16
  | 13 => 12
  | _ => 4

/-- A running maximum rose after its row's first tile (R249, R257). -/
def CourseRun.rose (before after : CourseRun) : Bool :=
  (List.range before.vr).any fun q =>
    let a : RowStat := sget {} before.rows q
    a.m != negInf32 && (sget {} after.rows q : RowStat).m != a.m

/-- The steps of a piece of work: the menu's for a result tile of product 1 and for a column tile of B11's second sweep;
another piece is in the figure of its tile and takes none of its own. PRESUMED, log entry 44. -/
def CourseRun.steps (r after : CourseRun) : Nat :=
  if !((r.d.needs r.at').any fun k => k.1 == 5) && !(r.d.bn == 11 && r.at'.sweep == 2 && !r.d.ends r.at') then 0
  else
    let up := r.d.bn == 5 && r.rose after
    if r.d.s then 4 * (r.d.strictSteps r.at'.sweep + if up then 10 + r.d.dv else 0)
    else r.d.fastSteps r.at'.sweep + if up then 4 else 0

/-- An instruction accepted before the course started still uses a working register (R135, R244). -/
def State.workingBusy (s : State) : Bool :=
  s.vu.inflight.any fun f => f.result.isNone && f.e.tileUse.any fun u => s.mortar.working.contains u.1

/-- The vector unit takes bond work: as it accepts instructions, and in a recovery until the stopped course has consumed
its tiles (R247, R470). -/
def State.mayBond (s : State) : Bool := s.mayAccept || (s.powered && s.err.stat == .recovering)

/-- The work on the next piece is ready for the vector unit: its result tiles have landed, its blocks can be read, and what
the piece before it wrote is out (R245). -/
def State.pieceReady (s : State) : Bool :=
  match s.mortar.run with
  | none => false
  | some r => r.checked && !r.finished && !r.replay && r.out.isEmpty && !r.cut && !r.d.over r.at' && r.d.bn != 15 &&
      r.works && r.ready && !s.workingBusy && (s.mortarReads r.at' r.auxOf).2

/-- The work on the next piece once its tiles and blocks are there: it passes through the vector unit, whose checks may
fail, and its outputs are written (R245, R462). -/
def State.bondPiece (s : State) (r : CourseRun) (check : Option LaneCheck) : State :=
  if !s.mayBond || s.workingBusy then s
  else
    let m := s.mortar
    let aux : Aux := fun key o => sget 0 ((m.block key).getD []) o
    let r' := r.work aux
    s.bondChecked r (s.bondSteps (r.steps r')) (check.filter fun _ => r.works) (fun r => { r with replay := true }) fun s =>
      ((s.modRun fun _ => { r'.advance with outAt := r.at' }).dropBlocks fun k => decide (k < keyIndex)).mortarOut

/-- No piece of work is left to a course: a fault or a discarded step has cut it off, or it is stopped and what it sent has
come back and is consumed (R247, R276). -/
def CourseRun.spent (r : CourseRun) : Bool := r.cut || (!r.ready && r.stopping && r.owed.isEmpty)

/-- The work on the next piece: its blocks are read, then its step is taken. A withheld step waits for its replay, which a
recovery does not make (R464, R478). -/
def State.bondWork (s : State) (r : CourseRun) (check : Option LaneCheck) : State :=
  if r.replay then if s.err.stat == .running then s else s.modRun fun r => { r with replay := false, lost := true }
  else if !r.kept.isEmpty && (r.spent || r.d.ends r.at') then (s.modRun CourseRun.unkeep).mortarOut
  else if r.cut then (s.modRun fun r => { r with credits := min 4 (r.credits + r.landed.length), landed := [] }).mortarSettle
  else if !r.ready then if r.spent then s.modRun CourseRun.finish else s
  else
    match s.mortarReads r.at' r.auxOf with
    | (s, false) => s
    | (s, true) => match s.mortar.run with | some r => s.bondPiece r check | none => s

/-- One step of a course's bond work (R245): outputs that wait are written first, then the next piece is done. -/
def State.bondStep (s : State) (bond : Nat) (check : Option LaneCheck) : State :=
  match s.mortar.run with
  | none => s
  | some r =>
    if !s.powered || !r.checked || r.finished || r.d.bn != bond then s
    else if r.out.isEmpty then s.bondWork r check
    else s.mortarOut

/-- A prologue's command: a result tile of a course that runs the prologue as its bond is taken first; else the next
operand tile goes out with the prologue applied (R253, R254). -/
def State.prologueStep (s : State) (bond : Nat) (gather : Bool) (check : Option LaneCheck) : State :=
  let mine := match s.mortar.run with
    | some r => r.d.bn == bond && (!r.out.isEmpty || (r.ready && !r.landed.isEmpty))
    | none => false
  if s.powered && !mine && s.nextPrologue gather then s.operandTransfer check else s.bondStep bond check

/-! ## The commands -/

/-- B00_STACK (R251). -/
def execB00Stack (check : Option LaneCheck) (s : State) : Host.Outcome State Fault Refusal :=
  .next (if s.powered then s.bondStep 0 check else s)

/-- B01_RUNNING (R252). -/
def execB01Running (check : Option LaneCheck) (s : State) : Host.Outcome State Fault Refusal :=
  .next (if s.powered then s.bondStep 1 check else s)

/-- B02_HEADER (R252). -/
def execB02Header (check : Option LaneCheck) (s : State) : Host.Outcome State Fault Refusal :=
  .next (if s.powered then s.bondStep 2 check else s)

/-- B03_STRETCHER (R253): the next operand tile goes out transposed, or a result tile of a B03 course is written. -/
def execB03Stretcher (check : Option LaneCheck) (s : State) : Host.Outcome State Fault Refusal :=
  .next (if s.powered then s.prologueStep 3 false check else s)

/-- B04_SOLDIER (R254): the next tile of operand A goes out gathered, or a result tile of a B04 course is written. -/
def execB04Soldier (check : Option LaneCheck) (s : State) : Host.Outcome State Fault Refusal :=
  .next (if s.powered then s.prologueStep 4 true check else s)

/-- B05_FLEMISH (R257). -/
def execB05Flemish (check : Option LaneCheck) (s : State) : Host.Outcome State Fault Refusal :=
  .next (if s.powered then s.bondStep 5 check else s)

/-- B06_ENGLISH (R261). -/
def execB06English (check : Option LaneCheck) (s : State) : Host.Outcome State Fault Refusal :=
  .next (if s.powered then s.bondStep 6 check else s)

/-- B07_DUTCH (R262). -/
def execB07Dutch (check : Option LaneCheck) (s : State) : Host.Outcome State Fault Refusal :=
  .next (if s.powered then s.bondStep 7 check else s)

/-- B08_MONK (R263). -/
def execB08Monk (check : Option LaneCheck) (s : State) : Host.Outcome State Fault Refusal :=
  .next (if s.powered then s.bondStep 8 check else s)

/-- B09_SAILOR (R270). -/
def execB09Sailor (check : Option LaneCheck) (s : State) : Host.Outcome State Fault Refusal :=
  .next (if s.powered then s.bondStep 9 check else s)

/-- B10_ROWLOCK (R269). -/
def execB10Rowlock (check : Option LaneCheck) (s : State) : Host.Outcome State Fault Refusal :=
  .next (if s.powered then s.bondStep 10 check else s)

/-- B11_GARDEN (R264). -/
def execB11Garden (check : Option LaneCheck) (s : State) : Host.Outcome State Fault Refusal :=
  .next (if s.powered then s.bondStep 11 check else s)

/-- B12_BASKET (R255). -/
def execB12Basket (check : Option LaneCheck) (s : State) : Host.Outcome State Fault Refusal :=
  .next (if s.powered then s.bondStep 12 check else s)

/-- B13_QUOIN (R256). -/
def execB13Quoin (check : Option LaneCheck) (s : State) : Host.Outcome State Fault Refusal :=
  .next (if s.powered then s.bondStep 13 check else s)

/-- B14_COPING (R272). -/
def execB14Coping (check : Option LaneCheck) (s : State) : Host.Outcome State Fault Refusal :=
  .next (if s.powered then s.bondStep 14 check else s)

end Sys2Proof.Machine
end

