-- ==== Sys2Proof/Machine/Neighbour.lean ====
section
/-! DEFINITION. Neighbour ports and windows: messages and sequences (R372, R373, R389, R390), windows (R374 to R382),
sends (R383 to R388), and the life of a port (R393 to R397). -/

namespace Sys2Proof.Machine

/-! ## Messages -/

/-- The four header words of a message (R372). -/
def NbrMsg.header (m : NbrMsg) : Vector Word 4 :=
  #v[(0 : BitVec 6) ++ m.gen ++ m.win ++ m.type, (0 : BitVec 8) ++ m.reason ++ m.line, m.wmask ++ m.seq,
     (0 : BitVec 8) ++ (if m.type = tGrant then m.credit else m.smark.setWidth 24)]

/-- A port has as many sequenced messages unanswered as it may (R390). -/
def Port.txFull (q : Port) : Bool := decide (32768 ≤ q.unanswered.length)

/-- Sends a sequenced message with the next number of its direction; it stays until it is answered (R373, R390). Beyond
the limit it waits, in its order. -/
def State.txSeq (s : State) (p : Fin 4) (m : NbrMsg) (desc : Option Nat := none) : State :=
  let q := s.port p
  if q.txFull || !q.txWait.isEmpty then s.modPort p fun q => { q with txWait := q.txWait ++ [(m, desc)] }
  else
    let m := { m with seq := q.txSeq }
    (s.modPort p fun q => { q with txSeq := q.txSeq + 1, unanswered := q.unanswered ++ [{ msg := m, desc }] }).tx p m

/-- Sends what waited for the limit of R390, as far as answers have made room. -/
def State.txDrain (s : State) (p : Fin 4) : State :=
  let l := (s.port p).txWait
  (s.modPort p fun q => { q with txWait := [] }).forEach l fun s m => s.txSeq p m.1 m.2

/-- A cumulative ACK (R389). -/
def State.sendAck (s : State) (p : Fin 4) : State :=
  (s.tx p { type := tAck, seq := (s.port p).landed }).modPort p fun q => { q with unacked := 0 }

/-- A message has landed; the thirty-second is acknowledged at once (R389). An arrival is older than everything landed
ahead of it. -/
def State.landedOne (s : State) (p : Fin 4) (seq : BitVec 16) (arrival : Bool := false) : State :=
  let s := s.modPort p fun q =>
    Port.settleAck { q with unacked := q.unacked + 1, ahead := if arrival then seq :: q.ahead else q.ahead ++ [seq] }
  if 32 ≤ (s.port p).unacked then s.sendAck p else s

/-- The receiver takes the next expected number only, and refuses it with RETRY when its queue of 128 messages is full; a
duplicate is acknowledged again, a later one is dropped (R389). -/
def State.takeSeq (s : State) (p : Fin 4) (win : Fin 64) (gen seq : BitVec 16) : State × Bool :=
  let d := (s.port p).rxSeq - seq
  if d = 0 && 128 ≤ (s.port p).arrivals.length then (s.sendRefuse p win gen seq .retry, false)
  else if d = 0 then (s.modPort p fun q => { q with rxSeq := q.rxSeq + 1 }, true)
  else if d.toNat ≤ 32768 then (s.sendAck p, false)
  else (s, false)

/-! ## Windows (R374 to R382) -/

/-- Codes of CE_NBR_WSTAT (R375). -/
def wsDone : BitVec 4 := 0
/-- PREEMPTED. -/
def wsPreempted : BitVec 4 := 8
/-- PENDING. -/
def wsPending : BitVec 4 := 9

/-- Two runs of words share one. -/
def runsMeet (a n b m : Nat) : Bool := decide (a < b + m) && decide (b < a + n)

/-- The port carries version 1, whose windows are 0 to 15 (R393). -/
def State.version1 (s : State) (p : Fin 4) : Bool := (s.port p).ver == 1

/-- The code of the first check of OPEN that fails (R375). -/
def State.openCheck (s : State) (w : Fin 64) (g : Vector Word 4) : Option (BitVec 4) :=
  let w1 := g.get 1
  let lines := (w1.extractLsb' 0 20).toNat
  let p := (w1.extractLsb' 20 2).toFin
  let block := (g.get 0, 16 * lines)
  if w1.extractLsb' 22 10 != 0 || (g.get 2).extractLsb' 24 8 != 0 || g.get 3 != 0 || lines = 0 ||
      wordPart (g.get 0) % 16 ≠ 0 || (s.version1 p && decide (15 < w.val)) then some 1
  else if !s.blockIn block then some 2
  else if s.blockMelted block then some 3
  else if (fins 64).any fun v => v != w && (s.win v).isOpen &&
      runsMeet (wordPart (g.get 0)) (16 * lines) (wordPart (s.win v).addr) (16 * (s.win v).lines.toNat) then some 4
  else if (s.win w).isOpen then some 5
  else if !s.up p then some 6
  else none

/-- OPEN (R376). -/
def State.windowOpen (s : State) (w : Fin 64) (g : Vector Word 4) : State × BitVec 4 :=
  match s.openCheck w g with
  | some c => (s, c)
  | none =>
    let lines := (g.get 1).extractLsb' 0 20
    let p := ((g.get 1).extractLsb' 20 2).toFin
    let c0 := (g.get 2).extractLsb' 0 24
    let granted := if c0 = 0 then lines.setWidth 24 else c0
    let s := s.modWin w fun v =>
      { v with isOpen := true, closing := false, silent := false, addr := g.get 0, lines, port := p, credit0 := c0
               gen := v.gen + 1, arr := 0, granted }
    (s.txSeq p { type := tGrant, win := BitVec.ofNat 6 w.val, gen := (s.win w).gen, line := lines, credit := granted }, wsDone)

/-- CLOSE (R381). -/
def State.windowClose (s : State) (w : Fin 64) (r : Reader) (order : Option Nat) : State × BitVec 4 :=
  if !(s.win w).isOpen then (s, 5)
  else
    let s := (s.modWin w fun v => { v with closing := true }).lateArrivals w
    ({ s with nbr := { s.nbr with closers := s.nbr.closers ++ [(w, some r, order)] } }, wsPending)

/-- CREDIT (R375). -/
def State.windowCredit (s : State) (w : Fin 64) (c : BitVec 24) : State × BitVec 4 :=
  let v := s.win w
  if !v.isOpen then (s, 5)
  else if !s.up v.port then (s, 6)
  else
    let s := s.modWin w fun v => { v with granted := addSat v.granted c.toNat }
    (s.txSeq v.port { type := tGrant, win := BitVec.ofNat 6 w.val, gen := v.gen, line := v.lines, credit := c }, wsDone)

/-- READ (R375, R535). -/
def State.windowRead (s : State) (r : Reader) (w : Fin 64) : State :=
  let v := s.win w
  s.modNbrRegs r fun g =>
    { g with stage := #v[v.addr, (0 : BitVec 10) ++ BitVec.ofNat 2 v.port.val ++ v.lines, v.credit0.setWidth 32, 0]
             wcred := v.granted, wstat := wsDone, infoOpen := v.isOpen, infoClosing := v.closing, infoGen := v.gen
             warr := v.arr }

/-- The earlier closes of a reader that writes CE_NBR_WCMD again report to it no more: WSTAT holds the outcome of its most
recent write (R288, R375). -/
def State.forgetCloses (s : State) (r : Reader) : State :=
  let drop := fun (c : Fin 64 × Option Reader × Option Nat) => if c.2.1 == some r then (c.1, none, c.2.2) else c
  { s with nbr := { s.nbr with closers := s.nbr.closers.map drop } }

/-- A reader may write the window and port commands (R505). -/
def State.mayWin (s : State) (r : Reader) : Bool := s.canAct r && s.privileged r

/-- A write of CE_NBR_WCMD: of the writes of one step the one with priority is taken, and the other readers read PREEMPTED
(R375, R431). -/
def State.wcmdWrite (s : State) (r : Reader) (others : List Reader) (f : State → State) : State :=
  if !s.mayWin r then s
  else
    let s := s.forgetCloses r
    if s.takes r others then f (s.forEach (s.losers r others) fun s q => (s.forgetCloses q).setWstat q wsPreempted)
    else s.setWstat r wsPreempted

/-- OPEN with the reader's staging registers (R375). -/
def State.openCmd (s : State) (r : Reader) (w : Fin 64) : State :=
  let (s, c) := s.windowOpen w (s.nbr.regs.get r).stage
  s.setWstat r c

/-- CLOSE (R375). -/
def State.closeCmd (s : State) (r : Reader) (w : Fin 64) : State :=
  let (s, c) := s.windowClose w r none
  s.setWstat r c

/-- CREDIT with the reader's CE_NBR_WCRED (R375). -/
def State.creditCmd (s : State) (r : Reader) (w : Fin 64) : State :=
  let (s, c) := s.windowCredit w (s.nbr.regs.get r).wcred
  s.setWstat r c

/-- Replies to the WINDOW order that asked for a command (R423): DONE, or REFUSED with the code. -/
def State.replyWindow (s : State) (order : Option Nat) (c : BitVec 4) : State :=
  match order with
  | none => s
  | some n =>
    match s.orderOf n with
    | none => s
    | some o => s.endOrder o (if c = wsDone then 0 else 5) [c.setWidth 32]

/-- A close takes effect once the arrivals allocated before it have retired (R381). -/
def State.closeEffect (s : State) (w : Fin 64) : State :=
  let v := s.win w
  if !v.closing || (fins 4).any (fun p => (s.port p).arrivals.any fun a => a.win == w) then s
  else
    let s := s.modWin w fun v => { v with isOpen := false, closing := false, silent := false }
    let s := if s.up v.port && !v.silent then s.txSeq v.port { type := tRevoke, win := BitVec.ofNat 6 w.val, gen := v.gen }
      else s
    let mine := s.nbr.closers.filter fun c => c.1 == w
    let s := { s with nbr := { s.nbr with closers := s.nbr.closers.filter fun c => c.1 != w } }
    s.forEach mine fun s c =>
      let s := match c.2.1 with | some r => s.setWstat r wsDone | none => s
      s.replyWindow c.2.2 wsDone

/-! ## Sends (R383 to R388) -/

/-- Outcomes of CE_NBR_SSTAT (R535). -/
def State.setSstat (s : State) (r : Reader) (c : BitVec 2) : State := s.modNbrRegs r fun g => { g with sstat := c }

/-- The descriptor in its words (R383), with the port it names. -/
def sendOf (id : Nat) (addr : Word) (who : Reader) (w : Nat → Word) : Fin 4 × SendDesc :=
  let w0 := w 0
  (((w0.extractLsb' 0 2).toFin),
   { id, addr, who, win := w0.extractLsb' 2 6, gen := w0.extractLsb' 8 16, anygen := w0.getLsbD 24, evt := w0.getLsbD 25
     src := w 1, dline := ((w 2).extractLsb' 0 20).toNat, nlines := ((w 3).extractLsb' 0 20).toNat
     lmask := (w 4).extractLsb' 0 16
     resv := w0.extractLsb' 26 6 != 0 || (w 2).extractLsb' 20 12 != 0 || (w 3).extractLsb' 20 12 != 0 ||
       (w 4).extractLsb' 16 16 != 0 || w 7 != 0 || wordPart (w 1) % 16 ≠ 0 })

/-- The window words of a send descriptor. -/
def sendWords (addr : Word) : List Nat := (List.range 8).map (wordPart addr + ·)

/-- Every word of some can be reached. -/
def State.wordsOk (s : State) (f : Fin 64) (ws : List Nat) : Bool := ws.all fun w => (s.wordBad f w).isNone

/-- The outcome of the write of CE_NBR_SEND that a read belongs to, unless its writer has written again (R535). -/
def State.sendOutcome (s : State) (a : SendRead) (c : BitVec 2) : State := if a.quiet then s else s.setSstat a.who c

/-- Queues a descriptor on its port (R384), stopped where its writer has stopped that port since (R535). -/
def State.queueSend (s : State) (a : SendRead) (p : Fin 4) (d : SendDesc) : State :=
  if !s.up p then s.sendOutcome a 2
  else if 16 ≤ (s.port p).sends.length then s.sendOutcome a 1
  else
    let d := if a.stops.contains p then d.stopped else d
    (s.modPort p fun q => { q with sends := q.sends ++ [d] }).sendOutcome a 0

/-- Whom the read of a send descriptor counts for: the hart that wrote it, for no port is known yet. DEDUCED, log entry
164. -/
def SendRead.src (a : SendRead) : Src := match Reader.hart? a.who with | some h => .hart h | none => .control

/-- Takes a descriptor whose words have been read, and says whether it did. A recovery that the read starts drops it
(R470); a descriptor that a revival has left in a melted segment is not read (R564). -/
def State.takeRead (s : State) (a : SendRead) : State × Bool :=
  let f := floePart a.addr
  let ws := sendWords a.addr
  let waiting := s.ice.sb.waiting.any fun x => x.id == a.sb
  if (waiting && !s.ice.sb.ready a.sb) || ws.any (s.wordReviving f) then (s, false)
  else if !s.wordsOk f ws then
    let s : State := { s with nbr := { s.nbr with reading := s.nbr.reading.filter fun x => x.sb != a.sb } }
    ((s.endAccess a.sb).sendOutcome a 3, true)
  else
    let s := if waiting then s.allocate a.sb else s
    let s := s.firnAsk a.sb (.departure 0)
    let s := if a.asked then s
      else
        let mark : SendRead → SendRead := fun x => if x.sb == a.sb then { x with asked := true } else x
        let reading := s.nbr.reading.map mark
        let s : State := { s with nbr := { s.nbr with reading } }
        s.morRead a.sb f ws
    if !s.morDone a.sb || (s.firnFor a.sb).isNone then (s, false)
    else
      let (s, m) := s.readWords a.src a.sb f ws
      let s := s.endAccess a.sb
      if s.nbr.reading.all fun x => x.sb != a.sb then (s, false)
      else
        let (p, d) := sendOf s.nbr.nextSend a.addr a.who fun i => contData (sget 0 m (wordPart a.addr + i))
        let s := { s with nbr := { s.nbr with reading := s.nbr.reading.filter (fun x => x.sb != a.sb)
                                              nextSend := s.nbr.nextSend + 1 } }
        (s.queueSend a p d, true)

/-- Takes the descriptors whose words have been read, in the order of their writes. -/
def State.takeReads (s : State) : List SendRead → State
  | [] => s
  | a :: rest =>
    let (s, taken) := s.takeRead a
    if taken then s.takeReads rest else s

/-- A reader writes CE_NBR_SEND again: the descriptors of its earlier writes report to it no more (R535). -/
def State.quietSends (s : State) (r : Reader) : State :=
  let quiet : SendRead → SendRead := fun a => if a.who == r then { a with quiet := true } else a
  { s with nbr := { s.nbr with reading := s.nbr.reading.map quiet } }

/-- A write of CE_NBR_SEND: the descriptor is read, then queued on the port that it names (R383, R384, R535). -/
def State.nbrSend (s : State) (r : Reader) (addr : Word) : State :=
  let s := s.quietSends r
  let ws := sendWords addr
  if wordPart addr % 8 ≠ 0 || !s.wordsOk (floePart addr) ws then s.setSstat r 3
  else
    let (s, id) := s.present (.departure 0) [{ lo := wordPart addr, hi := wordPart addr + 7, write := false }]
    let a : SendRead := { addr, who := r, sb := id }
    let s : State := { s with nbr := { s.nbr with reading := s.nbr.reading ++ [a] } }
    let s := s.setSstat r 0
    s.takeReads s.nbr.reading

/-- The STOP code of a port (R535): every descriptor that the writer queued there, those still being read among them. -/
def State.nbrStop (s : State) (r : Reader) (p : Fin 4) : State :=
  let note : SendRead → SendRead := fun a => if a.who == r then { a with stops := p :: a.stops } else a
  let s := s.quietSends r
  let s : State := { s with nbr := { s.nbr with reading := s.nbr.reading.map note } }
  let stop := fun (d : SendDesc) => if d.who == r && !d.bond then d.stopped else d
  (s.modPort p fun q => { q with sends := q.sends.map stop }).setSstat r 0

/-- The code of the first check that a descriptor fails at the head of its queue, in the order of the table (R386); a
window that version 1 lacks is ILLEGAL before the mirror is asked, which never shows it (R393). -/
def State.sendCheck (s : State) (p : Fin 4) (d : SendDesc) : Option (BitVec 4) :=
  let m := (s.port p).mirror.get d.win.toFin
  if s.version1 p && decide (15 < d.win.toNat) then some 9
  else if !m.isOpen || (!d.anygen && m.gen != d.gen) then some 3
  else if m.lines.toNat < d.dline + d.nlines || !s.blockIn (d.src, 16 * d.nlines) then some 4
  else if s.blockMelted (d.src, 16 * d.nlines) then some 5
  else if !s.up p then some 6
  else if d.resv then some 9
  else none

/-- Changes a descriptor of a port. -/
def State.modSend (s : State) (p : Fin 4) (id : Nat) (f : SendDesc → SendDesc) : State :=
  s.modPort p fun q => { q with sends := q.sends.map fun d => if d.id == id then f d else d }

/-- The status that a descriptor completes with when every message is answered (R386). -/
def SendDesc.final (d : SendDesc) : BitVec 4 :=
  if d.status != 0 then d.status
  else if d.nextLine < d.nlines then 7
  else if d.marked then 8 else 1

/-- Descriptors whose messages are all answered complete (R387). -/
def State.settleSends (s : State) (p : Fin 4) : State :=
  let done := fun (d : SendDesc) =>
    if (d.phase == .sending || d.phase == .presented) && d.doneSending && d.outstanding == 0 then
      { d with status := d.final, phase := .complete }
    else d
  s.modPort p fun q => { q with sends := q.sends.map done }

/-- Sends one line of a descriptor (R379, R388, R393): its words with their marks; version 1 carries no marks. -/
def State.sendLine (s : State) (p : Fin 4) (d : SendDesc) : State :=
  let f := floePart d.src
  let base := wordPart d.src + 16 * d.nextLine
  let (s, m) := s.readWords (.port p) (d.sb.getD 0) f ((List.range 16).map (base + ·))
  let cs := (List.range 16).map fun i => sget 0 m (base + i)
  let v1 := s.version1 p
  let any := cs.any contMark
  let payload := cs.map fun c => if v1 && contMark c then (0 : Word) else contData c
  let smark := cs.zipIdx.foldl (fun a (c, i) => if contMark c && !v1 then a + 2 ^ i else a) 0
  let wmask : BitVec 16 := if d.nextLine + 1 = d.nlines && d.lmask != 0 then d.lmask else 0xFFFF
  let mir := (s.port p).mirror.get d.win.toFin
  let s := s.txSeq p { type := tData, win := d.win, gen := mir.gen, line := BitVec.ofNat 20 (d.dline + d.nextLine), wmask
                       smark := BitVec.ofNat 16 smark, payload } (some d.id)
  let s := s.modPort p fun q =>
    { q with mirror := vmod q.mirror d.win.toFin fun m => { m with credit := m.credit - 1 } }
  let s := s.countEvent 0x40 1
  s.modSend p d.id fun d =>
    { d with nextLine := d.nextLine + 1, outstanding := d.outstanding + 1, marked := d.marked || (v1 && any) }

/-- Sends up to `n` lines of the descriptor that is sending, against its credit and the limit of R390; a line in a segment
that a revival left melted ends it (R386, R564). -/
def State.sendLines (s : State) (p : Fin 4) : Nat → State
  | 0 => s
  | n + 1 =>
    match (s.port p).sends.find? fun d => !d.doneSending with
    | none => s
    | some d =>
      let q := s.port p
      let m := q.mirror.get d.win.toFin
      let f := floePart d.src
      let w := wordPart d.src + 16 * d.nextLine
      if d.phase == .sending && s.wordBad f w == some 6 then (s.modSend p d.id fun d => { d with status := 5 }).sendLines p n
      else if d.phase == .sending && s.up p && m.isOpen && m.credit != 0 && !q.txFull && q.txWait.isEmpty &&
          !s.wordReviving f w && s.morDone (d.sb.getD 0) then
        (s.sendLine p d).sendLines p n
      else s

/-- The lines that the descriptors of a port have still to send. -/
def State.pump (s : State) (p : Fin 4) : State :=
  let s := s.txDrain p
  let n := ((s.port p).sends.map fun d => d.nlines - d.nextLine).sum
  (s.sendLines p n).settleSends p

/-- The next descriptor that is not sending yet, when those before it have sent all their lines and fewer than four have
messages outstanding (R384). -/
def Port.nextHead (q : Port) : Option SendDesc :=
  match q.sends.find? fun d => !d.doneSending with
  | none => none
  | some d =>
    let busy := (q.sends.filter fun d => d.outstanding != 0).length
    if (d.phase == .queued || d.phase == .presented) && busy < 4 then some d else none

/-- A descriptor at the head of its queue: it is checked, presents its source range, takes its Firn entry, and sends (R303,
R386 to R388, R564). While its range waits a floe commit or a revival may take its words away, so it is checked again. -/
def State.sendStart (s : State) (p : Fin 4) : State :=
  let s := s.takeReads s.nbr.reading
  match (s.port p).nextHead with
  | none => s.pump p
  | some d =>
    if d.stop && d.phase == .queued then s.modSend p d.id fun d => { d with status := 7, phase := .complete }
    else if d.phase == .queued then
      if d.nlines = 0 then s.modSend p d.id fun d => { d with status := 1, phase := .complete }
      else match s.sendCheck p d with
        | some c => s.modSend p d.id fun d => { d with status := c, phase := .complete }
        | none =>
          let lo := wordPart d.src
          let (s, id) := s.present (.departure p) [{ lo, hi := lo + 16 * d.nlines - 1, write := false }]
          s.modSend p d.id fun d => { d with sb := some id, phase := .presented }
    else
      match d.sb with
      | none => s
      | some id =>
        let f := floePart d.src
        let ws := (List.range (16 * d.nlines)).map (wordPart d.src + ·)
        let waiting := s.ice.sb.waiting.any fun x => x.id == id
        if (waiting && !s.ice.sb.ready id) || ws.any (s.wordReviving f) then s
        else if ws.any fun w => s.wordBad f w == some 5 then s.modSend p d.id fun d => { d with status := 4, phase := .complete }
        else if ws.any fun w => s.wordBad f w == some 6 then s.modSend p d.id fun d => { d with status := 5, phase := .complete }
        else
          let s := if waiting then s.allocate id else s
          let s := s.firnAsk id (.departure p)
          if (s.firnFor id).isNone then s
          else
          let s := (s.morRead id f ws).modSend p d.id fun d => { d with phase := .sending }
          s.pump p

/-- Writes LANDED and STATUS of a descriptor once its words are granted, LANDED first (R387); in a segment that is reviving
it waits, and in one left melted it writes nothing (R564). -/
def State.writeSend (s : State) (p : Fin 4) (d : SendDesc) : State × Bool :=
  let f := floePart d.addr
  let ws : List IceWrite :=
    [{ word := wordPart d.addr + 6, data := BitVec.ofNat 32 d.landed }, { word := wordPart d.addr + 5, data := d.status.setWidth 32 }]
  if !s.wordsOk f [wordPart d.addr + 5, wordPart d.addr + 6] then
    ((match d.doneSb with | some id => s.endAccess id | none => s), true)
  else
    let (s, id) := match d.doneSb with
      | some id => (s, id)
      | none =>
        let (s, id) := s.present (.departure p) [{ lo := wordPart d.addr + 5, hi := wordPart d.addr + 6, write := true }]
        (s.modSend p d.id fun d => { d with doneSb := some id }, id)
    let waiting := s.ice.sb.waiting.any fun x => x.id == id
    if (waiting && !s.ice.sb.ready id) || s.wordReviving f (wordPart d.addr + 5) then (s, false)
    else
      let s := if waiting then s.allocate id else s
      let s := s.firnAsk id (.departure p)
      if (s.firnFor id).isNone then (s, false) else ((s.writeWords (.port p) id f ws).endAccess id, true)

/-- The oldest complete descriptor of a port writes LANDED and STATUS and raises its event (R387). -/
def State.sendComplete (s : State) (p : Fin 4) : State :=
  match (s.port p).sends.find? fun d => d.phase == .complete with
  | none => s
  | some d =>
    let s := match d.sb with | some id => s.endAccess id | none => s
    let s := s.modSend p d.id fun d => { d with sb := none }
    let drop := fun (s : State) => s.modPort p fun q => { q with sends := q.sends.filter fun e => e.id != d.id }
    if d.bond then drop s
    else
      match s.writeSend p d with
      | (s, false) => s
      | (s, true) => if d.evt then (drop s).raiseFor d.who 2 else drop s

/-! ## Arrivals (R378 to R380) -/

/-- An arriving DATA message (R378, R379, R389). -/
def State.data (s : State) (p : Fin 4) (win : Fin 64) (gen : BitVec 16) (line : BitVec 20) (seq wmask smark : BitVec 16)
    (payload : Vector Word 16) : State :=
  if !s.up p then s
  else
    match s.takeSeq p win gen seq with
    | (s, false) => s
    | (s, true) =>
      let v := s.win win
      let word := wordPart v.addr + 16 * line.toNat
      let f := floePart v.addr
      let ws := (List.range 16).map (word + ·)
      if !v.isOpen || v.closing || v.port != p || v.gen != gen then
        { s with nbr := { s.nbr with late := incSat s.nbr.late } }.sendRefuse p win gen seq .late
      else if v.lines.toNat ≤ line.toNat then s.sendRefuse p win gen seq .bound
      else if ws.any fun w => s.wordBad f w == some 5 then s.sendRefuse p win gen seq .bound
      else if ws.any fun w => s.wordBad f w == some 6 then s.sendRefuse p win gen seq .melted
      else
        let (s, sb) := s.present (.arrival p) [{ lo := word, hi := word + 15, write := true }]
        s.modPort p fun q => { q with arrivals := q.arrivals ++ [{ win, word, seq, wmask, smark, payload, sb }] }

/-- Writes the words of an arrival (R379). -/
def State.writeArrival (s : State) (p : Fin 4) (a : Arrival) : State :=
  let f := floePart (s.win a.win).addr
  let ws : List IceWrite := ((fins 16).filter fun i => a.wmask.getLsbD i.val).map fun i =>
    { word := a.word + i.val, data := a.payload.get i, mark := a.smark.getLsbD i.val }
  let upd := fun (b : Arrival) => if b.sb == a.sb then { b with written := true } else b
  (s.writeWords (.port p) a.sb f ws).modPort p fun q => { q with arrivals := q.arrivals.map upd }

/-- The oldest arrival of a port leaves its queue. -/
def State.dropArrival (s : State) (p : Fin 4) (a : Arrival) : State :=
  (s.endAccess a.sb).modPort p fun q => { q with arrivals := q.arrivals.drop 1 }

/-- The oldest arrival of a port is refused (R378). -/
def State.refuseArrival (s : State) (p : Fin 4) (a : Arrival) (why : Reason) : State :=
  let s := (s.dropArrival p a).settleAck p
  if a.stale then s else s.sendRefuse p a.win (s.win a.win).gen a.seq why

/-- The oldest arrival of a port is written and retires: its window counts it and it is acknowledged, unless its port has
gone down since (R379, R380, R396). One whose line a floe commit took out of the floe, or a revival left melted, is refused
(R378, R564). -/
def State.arrivalLanded (s : State) (p : Fin 4) : State :=
  match (s.port p).arrivals with
  | [] => s
  | a :: _ =>
    let waiting := s.ice.sb.waiting.any fun x => x.id == a.sb
    let f := floePart (s.win a.win).addr
    let bad := fun c => (List.range 16).any fun i => s.wordBad f (a.word + i) == some c
    if (waiting && !s.ice.sb.ready a.sb) || (!a.written && s.wordReviving f a.word) then s
    else if !a.written && bad 5 then s.refuseArrival p a .bound
    else if !a.written && bad 6 then s.refuseArrival p a .melted
    else
      let s := (if waiting then s.allocate a.sb else s).firnAsk a.sb (.arrival p)
      if !a.written && (s.firnFor a.sb).isNone then s
      else
      let s := if a.written then s else s.writeArrival p a
      if !s.morDone a.sb then s
      else
        let s := s.dropArrival p a
        let s := (s.countEvent 0x41 1).toggleObs (0x54 + BitVec.ofNat 8 p.val)
        let s := s.modWin a.win fun v => { v with arr := incSat v.arr }
        if a.stale then s.settleAck p else s.landedOne p a.seq true

/-! ## Answers (R386, R389, R390) -/

/-- A DATA message of a descriptor is answered. -/
def State.answered (s : State) (p : Fin 4) (u : Unanswered) (f : SendDesc → SendDesc) : State :=
  match u.desc with
  | none => s
  | some id => s.modSend p id fun d => f { d with outstanding := d.outstanding - 1 }

/-- The port exchanges sequenced messages: it is UP, or its echoes run (R373, R395). -/
def State.linked (s : State) (p : Fin 4) : Bool := s.up p || (s.port p).state == .test

/-- The unanswered messages that a cumulative ACK of a number answers: those up to it, if it lies between the oldest and the
newest of them (R389, R390). -/
def ackedBy (seq : BitVec 16) (l : List Unanswered) : List Unanswered :=
  match l with
  | [] => []
  | u :: _ =>
    let at' := fun (n : BitVec 16) => (n - u.msg.seq).toNat
    let last := (l.getLastD u).msg.seq
    if at' seq ≤ at' last then l.filter fun v => decide (at' v.msg.seq ≤ at' seq) else []

/-- A cumulative ACK answers every message up to its number (R389). -/
def State.ackIn (s : State) (p : Fin 4) (seq : BitVec 16) : State :=
  if !s.linked p then s
  else
    let old := ackedBy seq (s.port p).unanswered
    let s := s.modPort p fun q => { q with unanswered := q.unanswered.drop old.length }
    (s.forEach old fun s u => s.answered p u fun d => { d with landed := d.landed + 1 }).pump p

/-- A REFUSE answers one message; RETRY asks for it again (R386, R389, R390). -/
def State.refuseIn (s : State) (p : Fin 4) (seq : BitVec 16) (why : Reason) : State :=
  match (s.port p).unanswered.find? fun u => u.msg.seq == seq with
  | none => s
  | some u =>
    if !s.linked p then s
    else if why == .retry then s.modPort p fun q => { q with retryPending := true }
    else
      let c : BitVec 4 := match why with | .late => 2 | .bound => 4 | _ => 5
      let s := s.modPort p fun q => { q with unanswered := q.unanswered.filter fun u => u.msg.seq != seq }
      (s.answered p u fun d => { d with status := if d.status == 0 || (c == 2 && d.status != 2) then c else d.status }).pump p

/-- Hands every unanswered message to the link again, oldest first (R390). -/
def State.resend (s : State) (p : Fin 4) : State :=
  let l := (s.port p).unanswered
  let s := (s.countEvent 0x40 (l.filter fun u => u.msg.type == tData).length).countEvent 0x42 l.length
  s.modPort p fun q => { q with tx := q.tx ++ q.unanswered.map (·.msg)
                                unanswered := q.unanswered.map fun u => { u with resends := u.resends + 1 } }

/-- An arriving GRANT (R388). -/
def State.grantIn (s : State) (p : Fin 4) (win : Fin 64) (gen : BitVec 16) (lines : BitVec 20) (seq : BitVec 16)
    (credit : BitVec 24) : State :=
  if !s.up p then s
  else
    match s.takeSeq p win gen seq with
    | (s, false) => s
    | (s, true) =>
      let upd := fun (m : Mirror) =>
        if m.gen == gen && m.isOpen then { m with credit := addSat m.credit credit.toNat }
        else { isOpen := true, gen, lines, credit }
      ((s.modPort p fun q => { q with mirror := vmod q.mirror win upd }).landedOne p seq).pump p

/-- An arriving REVOKE: the mirror shows the window closed, and a descriptor with lines left to send is late (R385,
R386). -/
def State.revokeIn (s : State) (p : Fin 4) (win : Fin 64) (gen seq : BitVec 16) : State :=
  if !s.up p then s
  else
    match s.takeSeq p win gen seq with
    | (s, false) => s
    | (s, true) =>
      let hit := ((s.port p).mirror.get win).gen == gen
      let late := fun (d : SendDesc) =>
        if hit && d.win.toFin == win && (d.phase == .sending || d.phase == .presented) && d.nextLine < d.nlines then
          { d with status := 2 }
        else d
      let upd := fun (m : Mirror) => if m.gen == gen then { m with isOpen := false } else m
      let s := s.modPort p fun q => { q with mirror := vmod q.mirror win upd, sends := q.sends.map late }
      (s.landedOne p seq).pump p

/-! ## The life of a port (R393 to R397) -/

/-- The enabled versions of a port (R535): bit 0 version 1, bit 1 version 2. -/
def State.versEn (s : State) (p : Fin 4) : BitVec 2 := s.nbr.vers.extractLsb' (2 * p.val) 2

/-- The lowest and highest enabled version; 0 when none is. -/
def versRange (b : BitVec 2) : Nat × Nat :=
  if b = 0 then (0, 0) else if b = 1 then (1, 1) else if b = 2 then (2, 2) else (1, 2)

/-- The highest version that both sides enable; none when they share none. -/
def commonVersion (own : BitVec 2) (lo hi : Nat) : Option Nat :=
  [2, 1].find? fun v => own.getLsbD (v - 1) && decide (lo ≤ v) && decide (v ≤ hi)

/-- A HELLO (R395). -/
def State.sendHello (s : State) (p : Fin 4) : State :=
  let (lo, hi) := versRange (s.versEn p)
  s.tx p { type := tHello, payload :=
    [BitVec.ofNat 32 lo, BitVec.ofNat 32 hi, Config.chipNumber, Config.dieNumber, Config.blockNumber] }

/-- Word `i` of ECHO message `j` (R395). -/
def echoWord (j i : Nat) : Word := BitVec.ofNat 32 ((16 * j + i) * 0x01010101) ^^^ 0xA5A5A5A5

/-- A port loses its partner (R396): its descriptors complete with DOWN, its mirror is emptied, its windows close, and
the engine reports it. -/
def State.portDown (s : State) (p : Fin 4) (cause : BitVec 4) : State :=
  let fail := fun (d : SendDesc) =>
    if d.phase == .complete then d else { d with status := 6, outstanding := 0, phase := SendPhase.complete }
  let s := s.modPort p fun q =>
    { q with state := .down, ver := 0, cause, unanswered := [], unacked := 0, retryPending := false, txWait := [], ahead := []
             arrivals := q.arrivals.map fun a => { a with stale := true }
             mirror := Vector.replicate 64 {}, sends := q.sends.map fail, echoes := 0 }
  let s := s.forEach (fins 64) fun s w =>
    let v := s.win w
    if v.isOpen && v.port == p then (s.modWin w fun v => { v with closing := true, silent := true }).lateArrivals w else s
  s.report 0xC5 [BitVec.ofNat 32 p.val, cause.setWidth 32]

/-- A failed echo test (R395): back to DOWN, reported once. -/
def State.echoFail (s : State) (p : Fin 4) : State :=
  let told := (s.port p).failReported
  let s := s.modPort p fun q =>
    { q with state := .down, cause := 4, unanswered := [], txWait := [], ahead := [], echoes := 0, failReported := true }
  if told then s else s.report 0xC6 [BitVec.ofNat 32 p.val]

/-- A partner's HELLO (R395): a DOWN port enters TEST and sends its 64 echoes. -/
def State.helloIn (s : State) (p : Fin 4) (lo hi : Nat) : State :=
  if (s.port p).state != .down then s
  else
    let s := s.modPort p fun q =>
      { q with state := .test, txSeq := 0, rxSeq := 0, unanswered := [], landed := 0xFFFF, ahead := [], txWait := [], unacked := 0
               echoes := 0, partnerLo := lo, partnerHi := hi }
    s.forEach (List.range 64) fun s j => s.txSeq p { type := tEcho, payload := (List.range 16).map (echoWord j) }

/-- All echoes are back: the versions are settled, and the port enters UP or NOVERS (R395). -/
def State.negotiate (s : State) (p : Fin 4) (rtt : BitVec 20) : State :=
  let q := s.port p
  match commonVersion (s.versEn p) q.partnerLo q.partnerHi with
  | some v =>
    let s := s.modPort p fun q =>
      { q with state := .up, ver := BitVec.ofNat 2 v, rtt, txSeq := 0, rxSeq := 0, unanswered := [], unacked := 0
               landed := 0xFFFF, ahead := [], txWait := [], retryPending := false, failReported := false }
    s.report 0xC4 [BitVec.ofNat 32 p.val, BitVec.ofNat 32 v, rtt.setWidth 32]
  | none =>
    (s.modPort p fun q => { q with state := .novers, rtt, unanswered := [], txWait := [], ahead := [] }).report 0xC7
      [BitVec.ofNat 32 p.val, BitVec.ofNat 32 q.partnerLo, BitVec.ofNat 32 q.partnerHi]

/-- An arriving ECHO: the first 64 numbers of the partner's direction are its own test and go back unchanged, the later
ones are ours coming back (R395, log entry 36). -/
def State.echoIn (s : State) (p : Fin 4) (seq : BitVec 16) (payload : Vector Word 16) (rtt : BitVec 20) : State :=
  let q := s.port p
  if q.state != .test && q.state != .up then s
  else
    match s.takeSeq p 0 0 seq with
    | (s, false) => s
    | (s, true) =>
      if q.state != .test || seq.toNat < 64 then
        (s.txSeq p { type := tEcho, payload := payload.toList }).landedOne p seq
      else if payload.toList != (List.range 16).map (echoWord q.echoes) then s.echoFail p
      else
        let s := (s.modPort p fun q => { q with echoes := q.echoes + 1 }).landedOne p seq
        if (s.port p).echoes = 64 then s.negotiate p rtt else s

/-- The oldest unanswered message has waited too long (R390); after eight resends the port goes DOWN. -/
def State.resendTimeout (s : State) (p : Fin 4) : State :=
  match (s.port p).unanswered with
  | [] => s
  | u :: _ =>
    if !s.linked p then s
    else if 8 ≤ u.resends then (if s.up p then s.portDown p 1 else s.echoFail p)
    else s.resend p

/-- The DOWN command of CE_NBR_PCTL (R396). -/
def State.portCmdDown (s : State) (p : Fin 4) : State :=
  if (s.port p).state != .absent && (s.port p).state != .down then s.portDown p 3 else s

/-- A write of CE_NBR_VERS: a NOVERS port tries again (R395, R535). -/
def State.versWrite (s : State) (v : BitVec 8) : State :=
  let s : State := { s with nbr := { s.nbr with vers := v } }
  s.forEach (fins 4) fun s p => if (s.port p).state == .novers then s.modPort p fun q => { q with state := .down } else s

/-- The RETRY command of CE_NBR_PCTL (R535). -/
def State.portCmdRetry (s : State) (p : Fin 4) : State :=
  if (s.port p).state == .novers then s.modPort p fun q => { q with state := .down } else s

/-! ## The commands -/

/-- WINDOW_OPEN (R376): `lost` are the other readers that write CE_NBR_WCMD in the same step. -/
def execWindowOpen (r : Reader) (w : Fin 64) (lost : List Reader) (s : State) : Host.Outcome State Fault Refusal :=
  .next (if s.powered then s.wcmdWrite r lost fun s => s.openCmd r w else s)

/-- WINDOW_CLOSE (R381): `lost` as for WINDOW_OPEN. -/
def execWindowClose (r : Reader) (w : Fin 64) (lost : List Reader) (s : State) : Host.Outcome State Fault Refusal :=
  .next (if s.powered then s.wcmdWrite r lost fun s => s.closeCmd r w else s)

/-- WINDOW_CREDIT (R375): `lost` as for WINDOW_OPEN. -/
def execWindowCredit (r : Reader) (w : Fin 64) (lost : List Reader) (s : State) : Host.Outcome State Fault Refusal :=
  .next (if s.powered then s.wcmdWrite r lost fun s => s.creditCmd r w else s)

/-- WINDOW_READ (R375): `lost` as for WINDOW_OPEN. -/
def execWindowRead (r : Reader) (w : Fin 64) (lost : List Reader) (s : State) : Host.Outcome State Fault Refusal :=
  .next (if s.powered then s.wcmdWrite r lost fun s => s.windowRead r w else s)

/-- WINDOW_CLOSE_EFFECT (R381). -/
def execWindowCloseEffect (w : Fin 64) (s : State) : Host.Outcome State Fault Refusal :=
  .next (if s.powered then s.closeEffect w else s)

/-- NBR_SEND (R384). -/
def execNbrSend (r : Reader) (addr : Word) (s : State) : Host.Outcome State Fault Refusal :=
  .next (if s.canAct r then s.nbrSend r addr else s)

/-- NBR_SEND_STOP (R535). -/
def execNbrSendStop (r : Reader) (p : Fin 4) (s : State) : Host.Outcome State Fault Refusal :=
  .next (if s.canAct r then s.nbrStop r p else s)

/-- SEND_DESCRIPTOR_START (R386). -/
def execSendDescriptorStart (p : Fin 4) (s : State) : Host.Outcome State Fault Refusal :=
  .next (if s.powered then s.sendStart p else s)

/-- SEND_COMPLETE (R387). -/
def execSendComplete (p : Fin 4) (s : State) : Host.Outcome State Fault Refusal :=
  .next (if s.powered then s.sendComplete p else s)

/-- DATA (R378). -/
def execData (p : Fin 4) (win : Fin 64) (gen : BitVec 16) (line : BitVec 20) (seq wmask smark : BitVec 16)
    (payload : Vector Word 16) (s : State) : Host.Outcome State Fault Refusal :=
  .next (if s.powered then s.data p win gen line seq wmask smark payload else s)

/-- ARRIVAL_LANDED (R379). -/
def execArrivalLanded (p : Fin 4) (s : State) : Host.Outcome State Fault Refusal :=
  .next (if s.powered then s.arrivalLanded p else s)

/-- ACK (R389). -/
def execAck (p : Fin 4) (seq : BitVec 16) (s : State) : Host.Outcome State Fault Refusal :=
  .next (if s.powered then s.ackIn p seq else s)

/-- REFUSE (R386). -/
def execRefuse (p : Fin 4) (seq : BitVec 16) (why : Reason) (s : State) : Host.Outcome State Fault Refusal :=
  .next (if s.powered then s.refuseIn p seq why else s)

/-- GRANT (R388). -/
def execGrant (p : Fin 4) (win : Fin 64) (gen : BitVec 16) (lines : BitVec 20) (seq : BitVec 16) (credit : BitVec 24)
    (s : State) : Host.Outcome State Fault Refusal :=
  .next (if s.powered then s.grantIn p win gen lines seq credit else s)

/-- REVOKE (R385). -/
def execRevoke (p : Fin 4) (win : Fin 64) (gen seq : BitVec 16) (s : State) : Host.Outcome State Fault Refusal :=
  .next (if s.powered then s.revokeIn p win gen seq else s)

/-- HELLO_MSG (R395). -/
def execHelloMsg (p : Fin 4) (lo hi : Nat) (s : State) : Host.Outcome State Fault Refusal :=
  .next (if s.powered then s.helloIn p lo hi else s)

/-- ECHO (R395). -/
def execEcho (p : Fin 4) (seq : BitVec 16) (payload : Vector Word 16) (rttNs : BitVec 20) (s : State) :
    Host.Outcome State Fault Refusal := .next (if s.powered then s.echoIn p seq payload rttNs else s)

/-- ECHO_TIMEOUT (R395). -/
def execEchoTimeout (p : Fin 4) (s : State) : Host.Outcome State Fault Refusal :=
  .next (if s.powered && (s.port p).state == .test then s.echoFail p else s)

/-- ACK_TIMER (R389). -/
def execAckTimer (p : Fin 4) (s : State) : Host.Outcome State Fault Refusal :=
  .next (if s.powered && s.linked p && (s.port p).unacked != 0 then s.sendAck p else s)

/-- RESEND_TIMEOUT (R390). -/
def execResendTimeout (p : Fin 4) (s : State) : Host.Outcome State Fault Refusal :=
  .next (if s.powered then s.resendTimeout p else s)

/-- RETRY_RESEND (R390). -/
def execRetryResend (p : Fin 4) (s : State) : Host.Outcome State Fault Refusal :=
  .next (if s.powered && s.linked p && (s.port p).retryPending then
      (s.modPort p fun q => { q with retryPending := false }).resend p
    else s)

/-- HELLO_TIMER (R395, R396). -/
def execHelloTimer (p : Fin 4) (s : State) : Host.Outcome State Fault Refusal :=
  .next (if s.powered && ((s.port p).state == .down || s.up p) then s.sendHello p else s)

/-- PORT_SILENCE (R396). -/
def execPortSilence (p : Fin 4) (s : State) : Host.Outcome State Fault Refusal :=
  .next (if s.powered && s.up p then s.portDown p 2 else s)

/-- PORT_DOWN_CMD (R396). -/
def execPortDownCmd (r : Reader) (p : Fin 4) (s : State) : Host.Outcome State Fault Refusal :=
  .next (if s.mayWin r then s.portCmdDown p else s)

/-- PORT_RETRY_CMD (R535). -/
def execPortRetryCmd (r : Reader) (p : Fin 4) (s : State) : Host.Outcome State Fault Refusal :=
  .next (if s.mayWin r then s.portCmdRetry p else s)

end Sys2Proof.Machine
end

