-- ==== Sys2Proof/Machine/Lintel.lean ====
section
/-! DEFINITION. B15, the vocabulary-parallel heads: the exchange of head records around a ring and their combination
(R273 to R275). -/

namespace Sys2Proof.Machine

/-- P, the engines of the ring (R250). -/
def CourseDesc.ring (d : CourseDesc) : Nat := ((d.par 0).extractLsb' 0 4).toNat
/-- The engine's rank. -/
def CourseDesc.rank (d : CourseDesc) : Nat := ((d.par 0).extractLsb' 4 4).toNat
/-- The port. -/
def CourseDesc.ringPort (d : CourseDesc) : Fin 4 := ((d.par 0).extractLsb' 8 2).toFin
/-- The window. -/
def CourseDesc.ringWin (d : CourseDesc) : Fin 64 := ((d.par 0).extractLsb' 10 6).toFin
/-- The deferred bond was B09. -/
def CourseDesc.sampled (d : CourseDesc) : Bool := (d.par 0).getLsbD 16

/-- The block that goes out at hop `h`: the own one first, then each that arrived before (R273). -/
def CourseDesc.hopBlock (d : CourseDesc) (h : Nat) : Nat := (d.rank + d.ring - h % d.ring) % d.ring

/-- Lines that have arrived in the engine's window (R273). -/
def State.ringArrivals (s : State) (d : CourseDesc) : Nat := (s.win d.ringWin).arr.toNat

/-- Where the block of a rank stands (R273). -/
def CourseDesc.block (d : CourseDesc) (k : Nat) : Word := d.par 2 + BitVec.ofNat 32 (16 * d.m * k)

/-- Hands a block to the port, from its place: the own one first, then received ones. -/
def State.sendBlock (s : State) (r : CourseRun) : State :=
  let d := r.d
  let b := d.hopBlock r.hops
  let src := d.block b
  let p := d.ringPort
  if !s.up p || 16 ≤ (s.port p).sends.length then s
  else
    let desc : SendDesc :=
      { id := s.nbr.nextSend, addr := r.addr, who := r.who, win := BitVec.ofNat 6 d.ringWin.val, anygen := true, src
        dline := b * d.m, nlines := d.m, resv := decide (wordPart src % 16 ≠ 0), bond := true }
    let s : State := { s with nbr := { s.nbr with nextSend := s.nbr.nextSend + 1 } }
    (s.modPort p fun q => { q with sends := q.sends ++ [desc] }).modRun fun r => { r with hops := r.hops + 1 }

/-- A word of a record. -/
def recWord (c : List (BitVec 33)) (i : Nat) : FW := FW.ofCont (c.getD i 0)

/-- A flag of a record (R268). -/
def recFlag (c : List (BitVec 33)) (i : Nat) : Bool := (recWord c 7).w.getLsbD i

/-- The sum of the ranks' terms, each scaled to the largest maximum and rounded, as one group (R274). -/
def ringSum (strict : Bool) (m : FW) (cs : List (List (BitVec 33))) (i : Nat) : FW :=
  let ts := cs.map fun c =>
    (recWord c i).op .mul strict (((recWord c 0).op .sub strict m).sfu .exp2 strict)
  let v := groupSum strict false .fp32 .fp32 (ts.map fun t => Term.whole t.val)
  { w := v.code.setWidth 32, fl := v.flags.or (orFlags (ts.map (·.fl))) }

/-- The winner of a draw over the ranks: the largest score, equal ones to the lower rank; in a +infinity row among the
ranks that hold such an entry (R269, R274). -/
def ringDraw (inf : Bool) (cs : List (List (BitVec 33))) (dr : Nat) : Option (Word × Word) :=
  (cs.filter fun c => (!inf || recFlag c 3) && (recWord c (8 + dr)).w != 0xFFFFFFFF).foldl (fun a c =>
    let z := (recWord c (12 + dr)).w
    match a with
    | none => some (z, (recWord c (8 + dr)).w)
    | some o => if (f32 o.1).lt (f32 z) then some (z, (recWord c (8 + dr)).w) else a) none

/-- The combined record of a row (R274), and whether the row is empty. The records do not tell the number of draws: in a
NaN or an empty row all four log-probabilities are the row's. DESIGN CHOICE, log entry 162. -/
def CourseRun.ringRecord (r : CourseRun) (cs : List (List (BitVec 33))) : List FW × Bool :=
  let d := r.d
  let nan := cs.any fun c => recFlag c 2
  let inf := cs.any fun c => recFlag c 3
  let k := if inf then ((cs.filter fun c => recFlag c 3).map fun c => ((recWord c 7).w.extractLsb' 8 8).toNat).sum else 0
  let m : FW := FW.const (maxScore negInf32 (cs.map fun c => recWord c 0))
  let seen := cs.find? fun c => recFlag c 0
  let y := match seen with | some c => recWord c 4 | none => FW.const 0
  let st : RowStat := { m := m.w, k, nan, seen := seen.isSome, target := y.w }
  let s := ringSum d.s m cs 1
  let t := ringSum d.s m cs 2
  let e := headEnd d.s st s t
  let z := FW.const 0
  let logp := if st.seen || nan || e.empty || 0 < k then e.logp else z
  let none' : FW := FW.const 0xFFFFFFFF
  let draws := (List.range 4).map fun i => ringDraw inf cs i
  let idx := draws.map fun o => match o with
    | some x => if nan || e.empty then none' else FW.const x.2
    | none => none'
  let lp := draws.map fun o =>
    if nan then nanF else if e.empty then ninfF
    else match o with
      | some x => if 0 < k then e.logOf 0 else FW.const (Config.drawLogProb m.w s.w x.1 x.2)
      | none => z
  let ws := [m, s, t, e.lse, y, logp, e.ent, FW.const (headFlags st)] ++
    (if d.sampled then idx ++ lp else List.replicate 8 z)
  let mark := cs.any fun c => c.any contMark
  (ws.map fun x => { x with mark }, e.empty)

/-- The records of a row band, block by block; one key for each rank. -/
def CourseRun.ringAux (r : CourseRun) : List (Nat × Word × List Nat) :=
  (List.range r.d.ring).map fun k => (k, r.d.block k, offs (1024 * r.at'.band) (16 * r.vr))

/-- Puts a row band of the own records in its place beside the other ranks' (R273). A place that cannot be reached ends
the course before any record is combined. -/
def State.placeOwn (s : State) (r : CourseRun) : State :=
  let at' : Cursor := { sweep := 0 }
  let os := offs (1024 * r.own) (16 * extentOf r.d.m r.own)
  match s.mortarRead keyIndex at' r.d.out os with
  | (s, none) => s
  | (s, some m) =>
    let base := wordPart (r.d.block r.d.rank)
    let o : OutWords := { floe := floePart (r.d.block r.d.rank), ws := os.map fun i => (base + i, sget 0 m i, 0xF) }
    match s.mortarWrite keyOut at' o with
    | (s, false) => s
    | (s, true) => (s.dropBlocks fun k => k == keyIndex).modRun fun r => { r with own := r.own + 1 }

/-- Combines the records of a row band in ascending rank (R274). -/
def CourseRun.lintel (r : CourseRun) (aux : Aux) : CourseRun :=
  let rs : List (List FW × Bool) := (List.range r.vr).map fun q =>
    let row := 64 * r.at'.band + q
    r.ringRecord ((List.range r.d.ring).map fun k => (List.range 16).map fun i => aux k (16 * row + i))
  let n := (rs.filter fun x => x.2).length
  let r' := CourseRun.putRecords { r with sum := { r.sum with empty := r.sum.empty + n } } (64 * r.at'.band) (rs.map (·.1))
  { r' with at' := { band := r.at'.band + 1 } }

/-- The combination of a row band once its records are read: a bond step of the vector unit, whose checks may fail (R245,
R274, R462). R249 gives it no steps: it takes the one that R138 has every instruction take at least. PRESUMED, log entry
44. -/
def State.ringPiece (s : State) (r : CourseRun) (check : Option LaneCheck) : State :=
  if !s.mayBond || s.workingBusy then s
  else
    let m := s.mortar
    let aux : Aux := fun key o => sget 0 ((m.block key).getD []) o
    s.bondChecked r 1 check (fun r => { r with replay := true }) fun s =>
      ((s.modRun fun r => { r.lintel aux with outAt := r.at' }).dropBlocks fun k => decide (k < keyIndex)).mortarOut

/-- One step of B15: a row band of the own records is put in place, a block goes out, or, once every record has arrived, a
row band is combined (R273, R274). -/
def State.lintelStep (s : State) (check : Option LaneCheck) : State :=
  match s.mortar.run with
  | none => s
  | some r =>
    let d := r.d
    if !s.powered || !r.checked || r.finished || d.bn != 15 then s
    else if r.replay then if s.err.stat == .running then s else s.modRun fun r => { r with replay := false, lost := true }
    else if !r.out.isEmpty then s.mortarOut
    else if r.stopping || r.cut then s.modRun CourseRun.finish
    else if r.own < tilesOf d.m then s.placeOwn r
    else if r.hops + 1 < d.ring then
      if r.hops * d.m ≤ s.ringArrivals d then s.sendBlock r else s
    else if s.ringArrivals d < (d.ring - 1) * d.m then s
    else
      match s.mortarReads r.at' r.ringAux with
      | (s, false) => s
      | (s, true) => s.ringPiece r check

/-- The combination of a row band is ready for the vector unit (R245, R274). -/
def State.ringReady (s : State) : Bool :=
  match s.mortar.run with
  | none => false
  | some r => r.checked && !r.finished && !r.replay && r.d.bn == 15 && r.out.isEmpty && !r.stopping && !r.cut &&
      decide (tilesOf r.d.m ≤ r.own) && decide (r.d.ring ≤ r.hops + 1) &&
      decide ((r.d.ring - 1) * r.d.m ≤ s.ringArrivals r.d) && !s.workingBusy && (s.mortarReads r.at' r.ringAux).2

/-- A step of bond work is ready for the vector unit: a prologue's, a piece of a bond, or a combination of B15 (R245). -/
def State.bondReady (s : State) : Bool := s.pieceReady || s.prologueReady || s.ringReady

/-- The time limit of a B15 course, in microseconds of the management time from its start: it completes with PEER when
records are missing (R273). -/
def State.peerTimeout (s : State) : State :=
  match s.mortar.run with
  | none => s
  | some r =>
    if r.d.bn = 15 && r.checked && !r.finished && decide (s.ringArrivals r.d < (r.d.ring - 1) * r.d.m) then
      (s.timeTo (r.since + 1000 * (r.d.par 1).toNat)).modRun fun r => { r with finished := true, out := [], status := 8 }
    else s

/-- VECTOR_ACCEPT (R134, R245): a ready bond step comes before any instruction of a hart. -/
def execVectorAccept (s : State) : Host.Outcome State Fault Refusal :=
  .next (if !s.powered then s else if s.bondReady then s else s.vectorAccept)

/-- B15_LINTEL (R274). -/
def execB15Lintel (check : Option LaneCheck) (s : State) : Host.Outcome State Fault Refusal :=
  .next (if s.powered then s.lintelStep check else s)

/-- PEER_TIMEOUT (R273). -/
def execPeerTimeout (s : State) : Host.Outcome State Fault Refusal := .next (if s.powered then s.peerTimeout else s)

end Sys2Proof.Machine
end

