-- ==== Sys2Proof/Machine/Registers.lean ====
section
/-! DEFINITION. The engine registers by their offsets (R505 to R546) and the engine CSRs of a hart (R547, R548): reads,
writes by access type (R19, R20, R506 to R509), and the commands of registers that have a row of their own. -/

namespace Sys2Proof.Machine

/-- A register word from its fields: lowest bit, width and value; every other bit is zero (R20). -/
def packW (l : List (Nat × Nat × Nat)) : Word :=
  BitVec.ofNat 32 (l.foldl (fun a (lsb, w, v) => a + v % 2 ^ w * 2 ^ lsb) 0)

/-- A Bool as a field value. -/
def bitN (b : Bool) : Nat := if b then 1 else 0

/-! ## Timers (R409, R517) -/

/-- The count of a timer now. -/
def State.timerCount (s : State) (t : Timer) : Word :=
  if t.en then BitVec.ofNat 32 (t.count.toNat - (s.time - t.since)) else t.count

/-- The nanosecond at which a timer that counts reaches zero. -/
def Timer.zeroAt (t : Timer) : Nat := t.since + t.count.toNat

/-- A timer reaches zero: its owner's TMR event; then it reloads and goes on from that instant, or clears its enable bit
(R409). -/
def State.timerZero (s : State) (n : Fin 4) : State :=
  let t := s.ks.timers.get n
  let s := if t.owned then s.raiseEvent t.owner 5 else s
  s.modTimer n fun t =>
    if t.reload = 0 then { t with en := false, count := 0 } else { t with count := t.reload, since := t.zeroAt }

/-- The offset of a timer's control register. -/
def timerOff (n : Fin 4) : BitVec 16 := BitVec.ofNat 16 (0x120 + 16 * n.val)

/-- A write of a timer register: 0 control, 1 count, 2 reload (R409, R433, R517). -/
def State.timerWrite (s : State) (r : Reader) (n : Fin 4) (k : Nat) (v : Word) : State :=
  let t := s.ks.timers.get n
  let off := timerOff n + BitVec.ofNat 16 (4 * k)
  let mine := t.owned && Reader.hart? r == some t.owner
  if !s.privileged r && !mine then s
  else if t.frost then (if s.privileged r then s.conflict off 1 r else s)
  else if k = 0 then
    let o := (v.extractLsb' 4 4).toFin
    if s.privileged r && t.en && o != t.owner then s.conflict off 2 r
    else
      let on := v.getLsbD 0
      let s := s.modTimer n fun t =>
        { t with owner := if s.privileged r then o else t.owner, owned := t.owned || s.privileged r, en := on
                 count := s.timerCount t, since := if on then s.time else t.since }
      if on && (s.ks.timers.get n).count = 0 then s.timerZero n else s
  else if k = 1 then s.modTimer n fun t => { t with count := v, since := s.time }
  else s.modTimer n fun t => { t with reload := v }

/-- An enabled timer that a hart has counts down to zero (R409); TMR3 of the frost monitor raises no event (R446). -/
def State.timerExpiry (s : State) (n : Fin 4) : State :=
  let t := s.ks.timers.get n
  if t.en && !t.frost then (s.timeTo t.zeroAt).timerZero n else s

/-! ## Hart control (R431, R513, R514) -/

/-- The harts of a mask. -/
def maskHarts (m : BitVec 16) : List Hart := (fins 16).filter fun h => m.getLsbD h.val

/-- Halts harts at their next instruction boundary. -/
def State.halt (s : State) (m : BitVec 16) : State :=
  s.forEach (maskHarts m) fun s h => s.modHart h fun t => { t with halted := true }

/-- Resumes halted harts. None runs before Keystone has started or during a recovery (R470, R482). -/
def State.resume (s : State) (m : BitVec 16) : State :=
  if s.boot.stage.toNat < 8 || s.err.stat == .recovering then s
  else s.forEach (maskHarts m) fun s h => s.modHart h fun t => { t with halted := false }

/-- CE_KS_EVSET (R514). -/
def State.evset (s : State) (m : BitVec 16) : State := s.forEach (maskHarts m) fun s h => s.raiseEvent h 8

/-- A write of CE_KS_HCTL (R431, R513). `met` holds what other writes of the same step do: in bits [15:0] the harts that
they halt, in bits [31:16] those that the management processor's resumes. The management processor's write goes before a
hart's, and between writes of one kind halt beats run for the same hart. -/
def State.hctl (s : State) (r : Reader) (v met : Word) : State :=
  let met : Word := if r == mgmt then 0 else met
  let halt : BitVec 16 := v.extractLsb' 0 16 &&& ~~~(met.extractLsb' 16 16)
  (s.resume (v.extractLsb' 16 16 &&& ~~~(v.extractLsb' 0 16 ||| met.extractLsb' 0 16))).halt halt

/-- Firmware sets CE_KS_BOOT.FWREADY, which begins the neighbour wait (R482, R516). -/
def State.fwready (s : State) (on : Bool) : State :=
  let go := on && s.boot.stage == 8 && s.boot.keystoneStarted
  { s with boot := { s.boot with fwready := on, stage := if go then 9 else s.boot.stage } }

/-! ## Pace and the tap (R438, R512, R536, R553) -/

/-- CE_PACE.CLR. -/
def State.paceClear (s : State) : State := { s with cal := { s.cal with min := 0xFFF, max := 0 } }

/-- A write of CE_CAL_CTL.TAP: it claims outputs 12 to 15 unless the debug selection holds one of them (R433, R536). -/
def State.calTap (s : State) (r : Reader) (on : Bool) : State :=
  let four := (fins 16).filter fun i => decide (12 ≤ i.val)
  if on && !s.cal.tapClaim && four.any fun i => (s.obs.out.get i).src == 1 then s.conflict 0x1100 4 r
  else if on == s.cal.tapClaim then s
  else
    let set := fun (o : ObsOut) => { o with src := if on then 2 else 0, code := 0 }
    let out := four.foldl (fun v i => vmod v i set) s.obs.out
    { s with cal := { s.cal with tapClaim := on }, obs := { s.obs with out } }

/-! ## Observation outputs (R537, R551 to R553) -/

/-- The codes of the table of R552. -/
def obsCode (c : BitVec 8) : Bool :=
  let n := c.toNat
  n ≤ 5 || (decide (0x10 ≤ n) && decide (n ≤ 0x5B)) || (decide (0x60 ≤ n) && decide (n ≤ 0x63)) ||
    (decide (0x70 ≤ n) && decide (n ≤ 0x76)) || (decide (0x90 ≤ n) && decide (n ≤ 0xB2)) ||
    (decide (0xC0 ≤ n) && decide (n ≤ 0xC2)) || n == 0xF0 || n == 0xF1

/-- The offset of CE_OBS_SELn. -/
def obsOff (n : Fin 16) : BitVec 16 := BitVec.ofNat 16 (0x1200 + 4 * n.val)

/-- Selects the signal of an output: a nonzero code claims it, 0 releases it; false when the tap holds it (R433, R537).
-/
def State.obsSet (s : State) (n : Fin 16) (code : BitVec 8) : State × Bool :=
  if (s.obs.out.get n).src == 2 then (s, false)
  else if !obsCode code then (s, true)
  else
    let out := vmod s.obs.out n fun o => { o with code, src := if code = 0 then 0 else 1 }
    ({ s with obs := { s.obs with out } }, true)

/-- A write of CE_OBS_SELn.CODE; a refusal is recorded. -/
def State.obsSelect (s : State) (r : Reader) (n : Fin 16) (code : BitVec 8) : State :=
  match s.obsSet n code with
  | (s, true) => s
  | (s, false) => s.conflict (obsOff n) 4 r

/-- The levels of R552; a unit that the configuration lacks drives 0, and a code of a toggle signal has no level. -/
def State.obsLevel (s : State) (code : BitVec 8) : Bool :=
  let n := code.toNat
  if n = 0x02 then decide (s.cycle ≤ s.vu.busyUntil) && s.vu.busyUntil != 0
  else if n = 0x05 then (s.vu.fence.isSome && decide (s.vu.fenceAt < s.cycle)) || decide (s.cycle ≤ s.vu.replayUntil) && s.vu.replayUntil != 0
  else if 0x10 ≤ n ∧ n ≤ 0x1F then (s.hart (BitVec.ofNat 4 n).toFin).wait == .wfi
  else if 0x20 ≤ n ∧ n ≤ 0x2F then (s.hart (BitVec.ofNat 4 n).toFin).halted
  else if 0x30 ≤ n ∧ n ≤ 0x4F then s.hasCh (n - 0x30) && (s.chan (BitVec.ofNat 5 (n - 0x30)).toFin).state == 1
  else if 0x50 ≤ n ∧ n ≤ 0x53 then s.up (BitVec.ofNat 2 n).toFin
  else if 0x58 ≤ n ∧ n ≤ 0x5B then (s.port (BitVec.ofNat 2 n).toFin).noCredit
  else if n = 0x60 then s.mortar.run.isSome
  else if n = 0x63 then (match s.mortar.run with | some r => r.credits == 0 | none => false)
  else if n = 0x70 then decide (64 ≤ s.ice.sb.entries)
  else if n = 0x71 then !s.ice.sb.waiting.isEmpty
  else if n = 0x72 then decide (64 ≤ s.firnUsed)
  else if n = 0x73 then !s.ice.morLines.isEmpty
  else if n = 0x75 then s.reviving
  else if n = 0x76 then !s.ice.sparing.isEmpty
  else if n = 0xC0 then s.err.stat == .recovering
  else if n = 0xC1 then s.err.stat == .stopped
  else n == 0xF1

/-- The codes of toggle signals. -/
def obsToggle (code : BitVec 8) : Bool :=
  [0x01, 0x03, 0x04, 0x54, 0x55, 0x56, 0x57, 0x61, 0x62, 0x74, 0xC2].contains code.toNat ||
    (decide (0x90 ≤ code.toNat) && decide (code.toNat ≤ 0xB2))

/-- The calibration region of a number, if the configuration has it (R444, R536). -/
def State.region? (s : State) (n : Nat) : Option (Fin 35) :=
  if h : n < 35 then (if n < Config.regions s.cfg then some ⟨n, h⟩ else none) else none

/-- The slack of a region that the guard comparator measures in this step (R553): the one of a command that measured it in
this step, else a free value (log entry 184). -/
def State.slackNow (s : State) (g : Fin 35) : Nat :=
  let r := s.cal.regions.get g
  if r.measured == some s.cycle then r.slack.toNat else Config.stepSlack s.cycle g.val

/-- The region that the tap shows: a change of the selection takes effect in the following step (R553). -/
def State.tapRegion (s : State) : BitVec 6 :=
  if s.cal.tapSince == some s.cycle then s.cal.tapWas else s.cal.rsel.get mgmt

/-- The unit of an observation code is one that the configuration has; the GUARD toggles alone need the test (R552). -/
def State.obsUnit (s : State) (code : BitVec 8) : Bool :=
  !(decide (0x90 ≤ code.toNat) && decide (code.toNat ≤ 0xB2)) || (s.region? (code.toNat - 0x90)).isSome

/-- What an observation output shows (R550 to R553): a tap bit, a toggle, or a level. -/
def State.obsOutput (s : State) (n : Fin 16) : Bool :=
  let o := s.obs.out.get n
  if o.src == 2 then
    match s.region? s.tapRegion.toNat with
    | some r => (min (s.slackNow r) 15).testBit (n.val - 12)
    | none => false
  else if o.src == 0 then false
  else if obsToggle o.code then o.toggle && s.obsUnit o.code
  else s.obsLevel o.code

/-- The data register that the chip's test network reads: output n in bit n, all 0 while the engine is unpowered (R550). -/
def State.obsRegister (s : State) : BitVec 16 :=
  if s.powered then BitVec.ofNat 16 (((fins 16).map fun n => if s.obsOutput n then 2 ^ n.val else 0).sum) else 0

/-! ## Hod indices (R418, R545) -/

/-- A write moves an index backward, modulo 2^32. -/
def backward (old v : Word) : Bool := decide (2 ^ 31 ≤ (v - old).toNat)

/-- A refused move of an index of a hod is counted (R418, R545). -/
def State.hodOverflow (s : State) (h : Fin 3) : State := s.modHod h fun d => { d with ovf := incSat d.ovf }

/-- The master of a hod advances IPROD (R418); HODIN follows its condition (R410). -/
def State.iprod (s : State) (h : Fin 3) (v : Word) : State :=
  let d := s.hods.hod.get h
  if backward d.iprod v || decide (64 < (v - d.icons).toNat) then s.hodOverflow h
  else s.modHod h fun d => { d with iprod := v }

/-- Firmware advances OPROD, which raises the notification line (R418, R545). -/
def State.oprod (s : State) (h : Fin 3) (v : Word) : State :=
  let d := s.hods.hod.get h
  if backward d.oprod v || decide (64 < (v - d.ocons).toNat) then s.hodOverflow h
  else s.modHod h fun e => { e with oprod := v, notify := e.notify || v != d.oprod }

/-- Firmware moves ICONS. -/
def State.iconsWrite (s : State) (h : Fin 3) (v : Word) : State :=
  if backward (s.hods.hod.get h).icons v then s.hodOverflow h else s.modHod h fun d => { d with icons := v }

/-- The master moves OCONS: messages that waited for a free slot are posted. -/
def State.oconsWrite (s : State) (h : Fin 3) (v : Word) : State :=
  if backward (s.hods.hod.get h).ocons v then s.hodOverflow h
  else (s.modHod h fun d => { d with ocons := v, notify := d.notify && v != d.oprod }).flushHod h

/-! ## Reads -/

/-- CE_CFG0 (R510). -/
def State.cfg0 (s : State) : Word :=
  packW [(0, 12, Config.lanes s.cfg), (12, 5, Config.groups s.cfg), (17, 2, 1), (19, 5, Config.tileSteps s.cfg), (24, 8, 195)]

/-- CE_CFG1 (R511). -/
def State.cfg1 (s : State) : Word :=
  packW [(0, 7, Config.segments s.cfg), (7, 5, Config.banks s.cfg / 64), (12, 5, Config.levels s.cfg / 1024),
    (17, 6, Config.spareRows), (23, 6, Config.driftCh s.cfg), (29, 1, bitN (Config.rearm s.cfg))]

/-- The three states of R539. -/
def ErrState.bits : ErrState → Nat
  | .running => 0
  | .recovering => 1
  | .stopped => 2

/-- The codes of R534. -/
def PortState.bits : PortState → Nat
  | .absent => 0
  | .down => 1
  | .test => 2
  | .negotiating => 3
  | .up => 4
  | .novers => 5

/-- The codes of R524. -/
def SegState.bits : SegState → Nat
  | .melted => 0
  | .live => 1
  | .permafrost => 2
  | .reviving => 3

/-- The codes of R110. -/
def LeaseMode.bits : LeaseMode → Nat
  | .free => 0
  | .exclusive => 1
  | .shared => 2

/-- Registers of Keystone control and timers: CE_KS_ (R513 to R517, R541). -/
def State.readKs (s : State) (o : Nat) : Word :=
  if o = 0x100 then packW ((fins 16).map fun h => (h.val, 1, bitN (s.hart h).halted))
  else if o = 0x108 then s.ks.preempt
  else if o = 0x10C then
    packW [(0, 16, s.ks.confReg.toNat), (16, 4, s.ks.confReason.toNat), (20, 5, s.ks.confSrc.toNat), (31, 1, bitN s.ks.confV)]
  else if o = 0x110 then
    packW [(0, 4, s.boot.stage.toNat), (4, 1, bitN s.boot.fwready), (5, 1, bitN s.boot.fwref), (6, 1, bitN s.boot.defaults),
      (7, 1, bitN s.boot.laneShort), (8, 16, s.boot.newSpare)]
  else if 0x120 ≤ o ∧ o < 0x160 then
    let t := s.ks.timers.get (BitVec.ofNat 2 ((o - 0x120) / 16)).toFin
    let k := o % 16
    if k = 0 then packW [(0, 1, bitN t.en), (4, 4, t.owner.val), (8, 1, bitN t.frost)]
    else if k = 4 then s.timerCount t
    else if k = 8 then t.reload
    else 0
  else 0

/-- Registers CE_TILE_ (R518 to R520). -/
def State.readTileReg (s : State) (r : Reader) (o : Nat) : Word :=
  if o = 0x204 then
    let rh := match s.mortar.run with | some c => c.who.val | none => 0
    packW [(0, 2, (s.mortar.last.get r).toNat), (2, 1, bitN s.mortar.run.isSome), (3, 1, bitN s.mortar.pend.isSome),
      (4, 4, rh), (8, 8, s.mortar.opCredits.toNat)]
  else if 0x300 ≤ o then
    let t := s.tiles.get (BitVec.ofNat 6 ((o - 0x300) / 4)).toFin
    packW [(0, 9, t.vr), (16, 7, t.vc), (24, 2, t.lease.bits), (28, 4, t.owner.val)]
  else 0

/-- The bank that a reader's CE_ICE_SPSEL selects (R528). -/
def State.spBank (s : State) (r : Reader) : Nat := (s.ice.spsel.get r).toNat % Config.banks s.cfg

/-- The defined fields of a word of the floe staging registers, which alone read back (R20, R283). A commit looks at every
bit as it was written (R285, log entry 157). -/
def fstageMask (k : Nat) : Word :=
  if k = 0 then 0x000FFFFF else if k = 1 then 0x0001FFFF else if k = 2 then 0x1FFFFFFF else if k = 3 then 0x0000FFFF
  else if k = 4 then 0xFFFFFFFF else if k = 5 then 0x0000FFFF else 0

/-- The defined fields of a word of the window staging registers, which alone read back (R20, R374). OPEN looks at every bit
as it was written (R375, log entry 157). -/
def wstageMask (k : Nat) : Word :=
  if k = 0 then 0xFFFFFFFF else if k = 1 then 0x003FFFFF else if k = 2 then 0x00FFFFFF else 0

/-- Registers CE_ICE_ (R521 to R529). -/
def State.readIce (s : State) (r : Reader) (o : Nat) : Word :=
  if o < 0x420 then (s.ice.fstage.get r).get (BitVec.ofNat 3 (o / 4)).toFin &&& fstageMask (o / 4 % 8)
  else if o = 0x424 then packW [(0, 4, (s.ice.fstat.get r).toNat)]
  else if 0x430 ≤ o ∧ o < 0x440 then
    packW ((List.range 16).map fun i =>
      let g : Fin 64 := (BitVec.ofNat 6 ((o - 0x430) / 4 * 16 + i)).toFin
      (2 * i, 2, if s.hasSeg g then (s.ice.segs.get g).bits else 0))
  else if o = 0x440 then
    packW [(0, 7, s.ice.sb.entries), (8, 8, min 255 s.ice.sb.waiting.length), (16, 6, s.ice.sb.driftEntries)]
  else if o = 0x444 then
    packW [(0, 6, s.firnOf Requester.isDrift), (8, 6, s.firnOf (· == .mortar)), (16, 6, s.firnOf Requester.isNbr),
      (24, 4, s.firnMor), (31, 1, bitN s.anyMor)]
  else if o = 0x448 then packW [(0, 16, s.ice.scrubPeriod.toNat), (16, 14, s.ice.scrubLevel)]
  else if o = 0x44C then packW [(0, 10, s.spBank r)]
  else if 0x480 ≤ o then
    let e := s.spare (s.spBank r) ((o - 0x480) / 4)
    packW [(0, 10, e.row.toNat), (30, 1, bitN e.used), (31, 1, bitN e.bad)]
  else 0

/-- Registers of a drift channel (R532). -/
def Channel.read (x : Channel) (k : Nat) : Word :=
  if k = 0 then packW [(0, 5, x.batch.toNat)]
  else if k = 4 then packW [(0, 4, x.state.toNat), (4, 1, bitN x.shadow.isSome), (5, 3, x.hcause.toNat)]
  else if k = 8 then packW [(0, 4, x.owner.val)]
  else if k = 0xC then packW [(0, 12, x.posDesc.toNat), (12, 20, x.posRow.toNat)]
  else if k = 0x10 then packW [(0, 9, x.extVr), (16, 7, x.extVc)]
  else if k = 0x14 then packW [(0, 16, x.marksRd), (16, 16, x.marksWr)]
  else if k = 0x18 then packW [(0, 32, x.idxbad)]
  else 0

/-- Registers of a flow buffer (R533). -/
def FlowBuf.read (b : FlowBuf) (k : Nat) : Word :=
  if k = 0 then b.base
  else if k = 4 then packW [(0, 20, b.slot.toNat), (20, 9, b.count.toNat)]
  else if k = 8 then packW [(0, 6, b.prod.toNat), (8, 6, b.cons.toNat)]
  else if k = 0xC then b.head
  else if k = 0x10 then b.tail
  else 0

/-- Registers CE_DRF_ (R530 to R533). -/
def State.readDrf (s : State) (r : Reader) (o : Nat) : Word :=
  let g := s.drf.regs.get r
  if o = 0x600 then g.list
  else if o = 0x604 then packW [(0, 16, g.listh.toNat), (31, 1, bitN g.lsrc)]
  else if o = 0x610 then g.fbase
  else if o = 0x614 then packW [(0, 16, g.fbaseh.toNat)]
  else if o = 0x618 then packW [(0, 26, g.ioff.toNat)]
  else if o = 0x61C then packW [(0, 4, g.rstat.toNat)]
  else if o = 0x624 then packW [(0, 2, s.drf.vers.toNat)]
  else if o = 0x628 then
    packW [(0, 16, s.drf.dlckHarts.toNat), (16, 6, s.drf.dlckParty.toNat), (22, 1, bitN s.drf.dlckKind), (31, 1, bitN s.drf.dlckV)]
  else if 0x800 ≤ o ∧ o < 0xC00 then
    let c := (BitVec.ofNat 5 ((o - 0x800) / 32)).toFin
    if s.hasCh c.val then (s.chan c).read (o % 32) else 0
  else if 0xC00 ≤ o ∧ o < 0xE00 then (s.drf.fb.get (BitVec.ofNat 4 ((o - 0xC00) / 32)).toFin).read (o % 32)
  else 0

/-- Registers CE_NBR_ (R534, R535). -/
def State.readNbr (s : State) (r : Reader) (o : Nat) : Word :=
  let g := s.nbr.regs.get r
  if o < 0x1010 then
    let q := s.port (BitVec.ofNat 2 (o / 4)).toFin
    packW [(0, 3, q.state.bits), (4, 2, if q.state == .up then q.ver.toNat else 0), (8, 4, q.cause.toNat)]
  else if o < 0x1020 then packW [(0, 20, (s.port (BitVec.ofNat 2 (o / 4)).toFin).rtt.toNat)]
  else if o = 0x1020 then s.nbr.late
  else if 0x1040 ≤ o ∧ o < 0x1050 then g.stage.get (BitVec.ofNat 2 (o / 4)).toFin &&& wstageMask (o / 4 % 4)
  else if o = 0x1054 then packW [(0, 24, g.wcred.toNat)]
  else if o = 0x1058 then packW [(0, 4, g.wstat.toNat)]
  else if o = 0x105C then packW [(0, 1, bitN g.infoOpen), (1, 1, bitN g.infoClosing), (2, 16, g.infoGen.toNat)]
  else if o = 0x1060 then g.warr
  else if o = 0x1068 then packW [(0, 2, g.sstat.toNat)]
  else if o = 0x1070 then packW [(0, 8, s.nbr.vers.toNat)]
  else 0

/-- Registers CE_CAL_ (R536). -/
def State.readCal (s : State) (r : Reader) (o : Nat) : Word :=
  if o = 0x1100 then packW [(0, 1, bitN s.cal.tapClaim), (1, 1, bitN s.cal.on)]
  else if o = 0x1104 then packW [(0, 6, (s.cal.rsel.get r).toNat)]
  else if o = 0x1108 then
    match s.region? (s.cal.rsel.get r).toNat with
    | some g => packW [(0, 6, (s.cal.regions.get g).tap.toNat), (8, 6, (s.cal.regions.get g).slack.toNat)]
    | none => 0
  else if o = 0x110C then s.cal.emerg
  else 0

/-- Registers CE_OBS_ (R537, R538); a high word of a counter is the one that its reader's last read of the low word
latched, if any. -/
def State.readObs (s : State) (r : Reader) (o : Nat) : Word :=
  if o < 0x1240 then
    let x := s.obs.out.get (BitVec.ofNat 4 ((o - 0x1200) / 4)).toFin
    packW [(0, 8, if x.src == 2 then 0 else x.code.toNat), (8, 2, x.src.toNat)]
  else if o < 0x1260 then
    let x := s.obs.ev.get (BitVec.ofNat 3 ((o - 0x1240) / 4)).toFin
    packW [(0, 8, x.event.toNat), (31, 1, bitN x.en)]
  else if o < 0x12A0 then
    let n : Fin 8 := (BitVec.ofNat 3 ((o - 0x1260) / 8)).toFin
    let x := s.obs.ev.get n
    if o % 8 = 0 then x.count.extractLsb' 0 32
    else match s.obs.latch.find? fun l => l.1 == n && l.2.1 == r with
      | some l => l.2.2.setWidth 32
      | none => (x.count.extractLsb' 32 16).setWidth 32
  else 0

/-- An entry of CE_ERR_ICE_LOG as it reads (R542). -/
def LogEntry.word (e : LogEntry) : Word := packW [(0, 10, e.bank.toNat), (10, 10, e.row.toNat), (20, 8, e.hits), (31, 1, 1)]

/-- Registers CE_ERR_ (R539 to R544). -/
def State.readErr (s : State) (o : Nat) : Word :=
  if o = 0x1400 then packW [(0, 2, s.err.stat.bits)]
  else if 0x1404 ≤ o ∧ o < 0x142C then
    if h : (o - 0x1404) / 4 < 10 then s.err.frec.get ⟨(o - 0x1404) / 4, h⟩ else 0
  else if o = 0x1430 then s.err.iceCe
  else if o = 0x1434 then s.err.iceUe
  else if o = 0x1438 then s.err.icePoison
  else if o = 0x143C then s.err.ksCe
  else if 0x1440 ≤ o ∧ o < 0x1480 then
    match s.ice.log[(o - 0x1440) / 4]? with
    | some e => e.word
    | none => 0
  else if 0x1480 ≤ o ∧ o < 0x14C4 then
    if h : (o - 0x1480) / 4 < 17 then
      let g : Fin 17 := ⟨(o - 0x1480) / 4, h⟩
      let x := s.err.lanes.get g
      if s.hasLane g then
        packW [(0, 3, x.state.bits.toNat), (4, 4, if x.state == .active then x.logical.toNat else 0), (8, 8, min 255 x.fences)]
      else 0
    else 0
  else if o = 0x14D0 then
    packW [(0, 5, s.err.drfCh.toNat), (5, 1, bitN s.err.drfMor), (8, 2, s.err.drfKind.toNat), (16, 1, bitN s.err.drfLost),
      (24, 8, s.err.drfCount.toNat)]
  else 0

/-- Registers CE_HOD_ (R545). -/
def Hod.read (d : Hod) (k : Nat) : Word :=
  if k = 0 then d.iprod
  else if k = 4 then d.icons
  else if k = 8 then d.oprod
  else if k = 0xC then d.ocons
  else if k = 0x10 then packW [(0, 16, d.serve.toNat)]
  else if k = 0x14 then packW [(0, 2, d.versEn.toNat), (8, 4, d.neg.toNat)]
  else if k = 0x18 then d.ovf
  else 0

/-- The hod of a number. -/
def hodOf (n : Nat) : Option (Fin 3) := if h : n < 3 then some ⟨n, h⟩ else none

/-- The slots of the hods (R546). -/
def State.readSlot (s : State) (o : Nat) : Word :=
  match hodOf ((o - 0x8000) / 0x2000) with
  | some h =>
    let d := s.hods.hod.get h
    sget 0 (if o / 0x1000 % 2 = 0 then d.inSlots else d.outSlots) (o % 0x1000 / 4)
  | none => 0

/-- Reads an engine register (R505, R506). -/
def State.readReg (s : State) (r : Reader) (off : BitVec 16) : Word :=
  let o := off.toNat
  if o % 4 ≠ 0 then 0
  else if o = 0 then s.cfg0
  else if o = 4 then s.cfg1
  else if o = 8 then packW [(0, 12, s.cal.pace.toNat), (16, 12, s.cal.min.toNat)]
  else if o = 0xC then packW [(0, 12, s.cal.max.toNat)]
  else if 0x100 ≤ o ∧ o < 0x160 then s.readKs o
  else if 0x200 ≤ o ∧ o < 0x400 then s.readTileReg r o
  else if 0x400 ≤ o ∧ o < 0x500 then s.readIce r o
  else if 0x600 ≤ o ∧ o < 0xE00 then s.readDrf r o
  else if 0x1000 ≤ o ∧ o < 0x1080 then s.readNbr r o
  else if 0x1100 ≤ o ∧ o < 0x1110 then s.readCal r o
  else if 0x1200 ≤ o ∧ o < 0x12A0 then s.readObs r o
  else if 0x1400 ≤ o ∧ o < 0x14E0 then s.readErr o
  else if 0x1600 ≤ o ∧ o < 0x1660 then
    match hodOf ((o - 0x1600) / 32) with
    | some h => (s.hods.hod.get h).read (o % 32)
    | none => 0
  else if 0x8000 ≤ o ∧ o < 0xE000 then s.readSlot o
  else 0

/-- A read of the low word of an event counter latches its high word for the reader (R538); a read of the high word uses
the latch up. -/
def State.readEffect (s : State) (r : Reader) (off : BitVec 16) : State :=
  let o := off.toNat
  if 0x1260 ≤ o ∧ o < 0x12A0 ∧ o % 4 = 0 then
    let n : Fin 8 := (BitVec.ofNat 3 ((o - 0x1260) / 8)).toFin
    let rest := s.obs.latch.filter fun l => !(l.1 == n && l.2.1 == r)
    let latch := if o % 8 = 0 then rest ++ [(n, r, (s.obs.ev.get n).count.extractLsb' 32 16)] else rest
    { s with obs := { s.obs with latch } }
  else s

/-! ## Writes -/

/-- A counter field of access W1C: each bit written as 1 is cleared, so that a write of all ones clears the count; a count
that reaches the field in the same step is not lost (R19, R508). -/
def clearCount {w : Nat} (old v met : BitVec w) : BitVec w :=
  if met ≠ 0 ∧ v ≠ 0 then incSat (old &&& ~~~v) else old &&& ~~~v

/-- A bit of access W1C; a set that meets the clear in one step stands (R19, R412). -/
def clearBit (old : Bool) (v met : Word) (i : Nat) : Bool := old && !(v.getLsbD i && !met.getLsbD i)

/-- Writes CE_KS_ registers (R513 to R517, R541). -/
def State.writeKs (s : State) (r : Reader) (o : Nat) (v met : Word) : State :=
  let p := s.privileged r
  if o = 0x104 then s.evset (v.extractLsb' 0 16)
  else if 0x120 ≤ o ∧ o < 0x160 then
    if o % 16 < 12 then s.timerWrite r (BitVec.ofNat 2 ((o - 0x120) / 16)).toFin (o % 16 / 4) v else s
  else if !p then s
  else if o = 0x100 then s.hctl r v met
  else if o = 0x108 then { s with ks := { s.ks with preempt := clearCount s.ks.preempt v met } }
  else if o = 0x10C then { s with ks := { s.ks with confV := clearBit s.ks.confV v met 31 } }
  else if o = 0x110 then s.fwready (v.getLsbD 4)
  else s

/-- A write of CE_TILE_BOND (R242, R247, R519). -/
def State.bondWrite (s : State) (r : Reader) (v : Word) : State :=
  if v = 0x0000000F then s.courseStop r
  else if v = 0x0000001F then s.courseDrop r
  else s.courseStart r v

/-- A write of CE_ICE_FCMD by its OP field (R285, R522); an OP that the table does not list is ignored (R509). -/
def State.floeCmd (s : State) (r : Reader) (v : Word) (lost : List Hart) : State :=
  let f := (v.extractLsb' 0 6).toFin
  if v.extractLsb' 8 2 = 0 then s.fcmdWrite r (lost.map Hart.reader) fun s => s.floeCommit r f
  else if v.extractLsb' 8 2 = 1 then s.fcmdWrite r (lost.map Hart.reader) fun s => s.floeRead r f
  else s

/-- Writes CE_ICE_ registers (R521 to R529). -/
def State.writeIce (s : State) (r : Reader) (o : Nat) (v : Word) (lost : List Hart) : State :=
  if !s.privileged r then s
  else if o < 0x420 then
    { s with ice := { s.ice with fstage := vmod s.ice.fstage r fun g => vset g (BitVec.ofNat 3 (o / 4)).toFin v } }
  else if o = 0x420 then s.floeCmd r v lost
  else if o = 0x448 then { s with ice := { s.ice with scrubPeriod := v.extractLsb' 0 16 } }
  else if o = 0x44C then { s with ice := { s.ice with spsel := vset s.ice.spsel r (v.extractLsb' 0 10) } }
  else s

/-- A write of CE_DRF_CTL (R319, R532): STOP leaves BATCH unchanged; a CMD that the table does not list is ignored
(R509). -/
def State.drfCtl (s : State) (r : Reader) (c : Fin 32) (v : Word) : State :=
  let cmd := v.extractLsb' 28 4
  if !s.hasCh c.val then s
  else if cmd = 1 then s.drfStop r c
  else if cmd != 0 then s
  else if !s.ownsCh r c then s.setRstat r 5
  else s.modCh c fun x => { x with batch := v.extractLsb' 0 5 }

/-- Writes CE_DRF_ registers (R530 to R533). -/
def State.writeDrf (s : State) (r : Reader) (o : Nat) (v met : Word) : State :=
  let ch := v.extractLsb' 0 5
  if o = 0x600 then s.modDrfRegs r fun g => { g with list := v }
  else if o = 0x604 then s.modDrfRegs r fun g => { g with listh := v.extractLsb' 0 16, lsrc := v.getLsbD 31 }
  else if o = 0x608 then s.drfGo r ch
  else if o = 0x60C then s.rearm r ch
  else if o = 0x610 then s.modDrfRegs r fun g => { g with fbase := v }
  else if o = 0x614 then s.modDrfRegs r fun g => { g with fbaseh := v.extractLsb' 0 16 }
  else if o = 0x618 then s.modDrfRegs r fun g => { g with ioff := v.extractLsb' 0 26 }
  else if o = 0x620 then s.drfResume r ch
  else if o = 0x624 then if s.privileged r then { s with drf := { s.drf with vers := v.extractLsb' 0 2 } } else s
  else if o = 0x628 then
    if s.privileged r then { s with drf := { s.drf with dlckV := clearBit s.drf.dlckV v met 31 } } else s
  else if o = 0x62C then (s.fbAdvance r (v.extractLsb' 0 4).toFin true).pruneCycles
  else if o = 0x630 then (s.fbAdvance r (v.extractLsb' 0 4).toFin false).pruneCycles
  else if 0x800 ≤ o ∧ o < 0xC00 then
    let c := (BitVec.ofNat 5 ((o - 0x800) / 32)).toFin
    if o % 32 = 0 then s.drfCtl r c v
    else if o % 32 = 8 then s.drfOwn r c (v.extractLsb' 0 4).toFin
    else s
  else if h : 0xC00 ≤ o ∧ o < 0xE00 ∧ o % 32 / 4 < 5 then
    s.fbConfig r (BitVec.ofNat 4 ((o - 0xC00) / 32)).toFin ⟨o % 32 / 4, h.2.2⟩ v
  else s

/-- A write of CE_NBR_WCMD by its OP field (R375). -/
def State.windowCmd (s : State) (r : Reader) (v : Word) (lost : List Hart) : State :=
  let w := (v.extractLsb' 0 6).toFin
  let op := v.extractLsb' 8 2
  s.wcmdWrite r (lost.map Hart.reader) fun s =>
    if op = 0 then s.openCmd r w else if op = 1 then s.closeCmd r w else if op = 2 then s.creditCmd r w else s.windowRead r w

/-- A write of CE_NBR_SEND (R384, R535). -/
def State.sendWrite (s : State) (r : Reader) (v : Word) : State :=
  if v &&& 0xFFFFFFE7 = 0x00000007 then s.nbrStop r (v.extractLsb' 3 2).toFin else s.nbrSend r v

/-- Writes CE_NBR_ registers (R535). -/
def State.writeNbr (s : State) (r : Reader) (o : Nat) (v met : Word) (lost : List Hart) : State :=
  if o = 0x1064 then s.sendWrite r v
  else if !s.privileged r then s
  else if o = 0x1020 then { s with nbr := { s.nbr with late := clearCount s.nbr.late v met } }
  else if 0x1040 ≤ o ∧ o < 0x1050 then
    s.modNbrRegs r fun g => { g with stage := vset g.stage (BitVec.ofNat 2 (o / 4)).toFin v }
  else if o = 0x1050 then s.windowCmd r v lost
  else if o = 0x1054 then s.modNbrRegs r fun g => { g with wcred := v.extractLsb' 0 24 }
  else if o = 0x1070 then s.versWrite (v.extractLsb' 0 8)
  else if o = 0x1074 then
    let p := (v.extractLsb' 0 2).toFin
    if v.extractLsb' 4 2 = 1 then s.portCmdDown p
    else if v.extractLsb' 4 2 = 2 then s.portCmdRetry p
    else s
  else s

/-- A write of CE_CAL_RSEL; the tap follows the management processor's from the next step on (R536, R553). -/
def State.calRsel (s : State) (r : Reader) (v : BitVec 6) : State :=
  let c := { s.cal with rsel := vset s.cal.rsel r v }
  { s with cal := if r == mgmt then { c with tapWas := s.tapRegion, tapSince := some s.cycle } else c }

/-- A write of an event selector: the new selection counts from the next step on (R555). -/
def EvCounter.select (c : EvCounter) (now : Nat) (event : BitVec 8) (en : Bool) : EvCounter :=
  if c.since == some now then { c with event, en }
  else { c with event, en, eventWas := c.event, enWas := c.en, since := some now }

/-- Writes CE_CAL_ registers (R536). -/
def State.writeCal (s : State) (r : Reader) (o : Nat) (v met : Word) : State :=
  if !s.privileged r then s
  else if o = 0x1100 then s.calTap r (v.getLsbD 0)
  else if o = 0x1104 then s.calRsel r (v.extractLsb' 0 6)
  else if o = 0x110C then { s with cal := { s.cal with emerg := clearCount s.cal.emerg v met } }
  else s

/-- Writes CE_OBS_ registers (R537, R538). -/
def State.writeObs (s : State) (r : Reader) (o : Nat) (v : Word) : State :=
  let ev := fun (n : Nat) (f : EvCounter → EvCounter) =>
    { s with obs := { s.obs with ev := vmod s.obs.ev (BitVec.ofNat 3 n).toFin f } }
  if !s.privileged r then s
  else if o < 0x1240 then s.obsSelect r (BitVec.ofNat 4 ((o - 0x1200) / 4)).toFin (v.extractLsb' 0 8)
  else if o < 0x1260 then ev ((o - 0x1240) / 4) fun c => c.select s.cycle (v.extractLsb' 0 8) (v.getLsbD 31)
  else if o % 8 = 0 then ev ((o - 0x1260) / 8) fun c => { c with count := c.count.extractLsb' 32 16 ++ v }
  else ev ((o - 0x1260) / 8) fun c => { c with count := v.extractLsb' 0 16 ++ c.count.extractLsb' 0 32 }

/-- Writes CE_ERR_ registers (R541, R544). -/
def State.writeErr (s : State) (r : Reader) (o : Nat) (v met : Word) : State :=
  let e := s.err
  if !s.privileged r then s
  else if o = 0x1430 then { s with err := { e with iceCe := clearCount e.iceCe v met } }
  else if o = 0x1434 then { s with err := { e with iceUe := clearCount e.iceUe v met } }
  else if o = 0x1438 then { s with err := { e with icePoison := clearCount e.icePoison v met } }
  else if o = 0x143C then { s with err := { e with ksCe := clearCount e.ksCe v met } }
  else if o = 0x14D0 then
    { s with err := { e with drfLost := clearBit e.drfLost v met 16,
                             drfCount := clearCount e.drfCount (v.extractLsb' 24 8) (met.extractLsb' 24 8) } }
  else s

/-- A write by the master of a hod: its inbound slots, its IPROD and its OCONS, and nothing else (R23, R417). -/
def State.masterWrite (s : State) (h : Fin 3) (o : Nat) (v : Word) : State :=
  if o % 4 ≠ 0 then s
  else if o = 0x1600 + 32 * h.val then s.iprod h v
  else if o = 0x160C + 32 * h.val then s.oconsWrite h v
  else if 0x8000 + 0x2000 * h.val ≤ o ∧ o < 0x9000 + 0x2000 * h.val then
    s.modHod h fun d => { d with inSlots := sset 0 d.inSlots (o % 0x1000 / 4) v }
  else s

/-- Writes CE_HOD_ registers (R545). The management processor is the master of Hod 0 alone (R417). -/
def State.writeHod (s : State) (r : Reader) (o : Nat) (v met : Word) : State :=
  match hodOf ((o - 0x1600) / 32) with
  | none => s
  | some h =>
    let k := o % 32
    if !s.privileged r then s
    else if k = 0 ∨ k = 0xC then (if r == mgmt then s.masterWrite 0 o v else s)
    else if k = 4 then (if r == mgmt then s else s.iconsWrite h v)
    else if k = 8 then (if r == mgmt then s else s.oprod h v)
    else if k = 0x10 then s.modHod h fun d => { d with serve := v.extractLsb' 0 16 }
    else if k = 0x14 then (if r == mgmt then s.modHod h fun d => { d with versEn := v.extractLsb' 0 2 } else s)
    else if k = 0x18 then s.modHod h fun d => { d with ovf := clearCount d.ovf v met }
    else s

/-- Writes a slot word: inbound by the hod's master, outbound by machine-mode harts (R417, R546). -/
def State.writeSlot (s : State) (r : Reader) (o : Nat) (v : Word) : State :=
  match hodOf ((o - 0x8000) / 0x2000) with
  | none => s
  | some h =>
    let i := o % 0x1000 / 4
    if o / 0x1000 % 2 = 0 then (if r == mgmt then s.masterWrite 0 o v else s)
    else if r != mgmt && s.privileged r then s.modHod h fun d => { d with outSlots := sset 0 d.outSlots i v }
    else s

/-- A word offset in a range. -/
def offIn (lo hi o : Nat) : Bool := decide (lo ≤ o) && decide (o < hi) && o % 4 == 0

/-- Whether a write of a register with an RW field of one copy, a state register of R431, reaches it: its writer can act and
the register's table and R505 let it write (R506). The registers are CE_KS_BOOT, the timers, CE_ICE_SCRUB, CE_DRF_VERS,
CE_DRF_CTL and CE_DRF_OWN of every channel, the flow buffers, CE_NBR_VERS, CE_CAL_CTL, CE_OBS_, and the RW fields of CE_HOD_
and its slots; CE_TILE_LEASE has `State.tileLease`. Every other offset has none, the unassigned ones too (R504). -/
def State.reaches (s : State) (o : Nat) (r : Reader) : Bool :=
  let p := s.privileged r
  let ch : Fin 32 := (BitVec.ofNat 5 ((o - 0x800) / 32)).toFin
  let firm := p && r != mgmt
  s.canAct r &&
    if offIn 0x120 0x160 o then
      let t := s.ks.timers.get (BitVec.ofNat 2 ((o - 0x120) / 16)).toFin
      o % 16 != 12 && (p || (t.owned && Reader.hart? r == some t.owner))
    else if offIn 0x800 0xC00 o then
      s.hasCh ch.val && ((o % 32 == 0 && s.ownsCh r ch) || (o % 32 == 8 && p))
    else if offIn 0xC00 0xE00 o then p && decide (o % 32 < 20)
    else if offIn 0x1600 0x1660 o then
      if o % 32 == 4 || o % 32 == 8 then firm
      else if o % 32 == 0x10 then p
      else r == mgmt && (o % 32 == 0x14 || ((o % 32 == 0 || o % 32 == 0xC) && decide (o < 0x1620)))
    else if offIn 0x8000 0xE000 o then if o / 0x1000 % 2 = 0 then r == mgmt && decide (o < 0x9000) else firm
    else p && (o == 0x110 || o == 0x448 || o == 0x624 || o == 0x1070 || o == 0x1100 || offIn 0x1200 0x12A0 o)

/-- Writes an engine register by its access type (R19, R505, R506). `met` holds the bits that an event sets in the same step
(R412, R508). -/
def State.applyWrite (s : State) (r : Reader) (o : Nat) (v met : Word) (lost : List Hart) : State :=
  if o % 4 ≠ 0 then s
  else if o = 0xC then (if s.privileged r && v.getLsbD 31 then s.paceClear else s)
  else if 0x100 ≤ o ∧ o < 0x160 then s.writeKs r o v met
  else if o = 0x200 then s.tileLease r v lost
  else if o = 0x204 then s.bondWrite r v
  else if 0x400 ≤ o ∧ o < 0x500 then s.writeIce r o v lost
  else if 0x600 ≤ o ∧ o < 0xE00 then s.writeDrf r o v met
  else if 0x1000 ≤ o ∧ o < 0x1080 then s.writeNbr r o v met lost
  else if 0x1100 ≤ o ∧ o < 0x1110 then s.writeCal r o v met
  else if 0x1200 ≤ o ∧ o < 0x12A0 then s.writeObs r o v
  else if 0x1400 ≤ o ∧ o < 0x14E0 then s.writeErr r o v met
  else if 0x1600 ≤ o ∧ o < 0x1660 then s.writeHod r o v met
  else if 0x8000 ≤ o ∧ o < 0xE000 then s.writeSlot r o v
  else s

/-- The writes of a register that compete for it in one step (R431): those that reach it, but for a STOP in CE_DRF_CTL, a
command that leaves its RW field as it is (R532). -/
def State.competes (s : State) (o : Nat) (v : Word) (r : Reader) : Bool :=
  s.reaches o r && !(offIn 0x800 0xC00 o && o % 32 == 0 && v.extractLsb' 28 4 != 0)

/-- A write of an engine register; `lost` are the harts whose write of the same step it meets. A state register takes the
write that stands and counts the others in CE_KS_PREEMPT; of a single command one write is taken; every other register takes
each write (R431). -/
def State.writeReg (s : State) (r : Reader) (off : BitVec 16) (v met : Word) (lost : List Hart) : State :=
  let o := off.toNat
  s.stateWrite (s.competes o v) r lost fun s => s.applyWrite r o v met lost

/-! ## Engine CSRs (R547, R548) -/

/-- The number that a CSR number reads and writes: an alias of the range 0x8E0 stands for one of 0xCC0 (R547). -/
def csrAlias (n : BitVec 12) : BitVec 12 :=
  if 0x8E2 ≤ n.toNat ∧ n.toNat ≤ 0x8EC then n - 0x8E0 + 0xCC0 else n

/-- Reads an engine CSR; none for a number that is none. -/
def State.engineCsr (s : State) (h : Hart) (n : BitVec 12) : Option Word :=
  let t := s.hart h
  let c := t.csr
  match (csrAlias n).toNat with
  | 0x7C0 => some (packW [(0, 4, c.vfCode.toNat), (30, 1, bitN c.vfOvf), (31, 1, bitN c.vfV)])
  | 0x7C1 => some c.vfpc
  | 0x8C0 => some (c.even.setWidth 32)
  | 0x8C1 => some ((s.evpend h).setWidth 32)
  | 0x8C2 => some (c.arrTarget ++ c.arrWin)
  | 0x8C3 => some c.drw
  | 0x8C4 => some (c.fbw.setWidth 32)
  | 0x8C5 => some c.vflags.toWord
  | 0xCC0 => some (t.summary.extractLsb' 0 32)
  | 0xCC1 => some (t.summary.extractLsb' 32 32)
  | 0xCC2 => some (c.rstr.signExtend 32)
  | 0xCC3 => some (c.estr.signExtend 32)
  | 0xCC4 => some (packW [(0, 9, c.ldVr.toNat), (16, 7, c.ldVc.toNat)])
  | 0xCC5 => some c.eps
  | 0xCC6 => some c.mparam
  | 0xCC7 => some c.mquota
  | 0xCC8 => some c.mseed
  | 0xCC9 => some c.mkeyl
  | 0xCCA => some c.mkeyh
  | 0xCCB => some c.mbase
  | 0xCCC => some c.xarg
  | _ => none

/-- Writes an engine CSR: its defined fields (R20, R192), by their access types. `met` holds the bits that an event sets in
the same step, which end set (R94, R412). -/
def HartCsrs.write (c : HartCsrs) (n : BitVec 12) (v met : Word) : HartCsrs :=
  match (csrAlias n).toNat with
  | 0x7C0 => { c with vfOvf := clearBit c.vfOvf v met 30, vfV := clearBit c.vfV v met 31 }
  | 0x8C0 => { c with even := v.extractLsb' 0 9 }
  | 0x8C1 => { c with evpend := c.evpend &&& ~~~((v &&& ~~~met).extractLsb' 0 9) }
  | 0x8C2 => { c with arrWin := v.extractLsb' 0 6, arrTarget := v.extractLsb' 6 26 }
  | 0x8C3 => { c with drw := v }
  | 0x8C4 => { c with fbw := v.extractLsb' 0 16 }
  | 0x8C5 => { c with vflags := FpFlags.ofWord (v ||| (c.vflags.toWord &&& met)) }
  | 0xCC2 => { c with rstr := v.extractLsb' 0 24 }
  | 0xCC3 => { c with estr := v.extractLsb' 0 24 }
  | 0xCC4 => { c with ldVr := v.extractLsb' 0 9, ldVc := v.extractLsb' 16 7 }
  | 0xCC5 => { c with eps := v }
  | 0xCC6 => { c with mparam := v &&& 0x007FFFFF }
  | 0xCC7 => { c with mquota := v }
  | 0xCC8 => { c with mseed := v &&& 0x00FFFFFF }
  | 0xCC9 => { c with mkeyl := v }
  | 0xCCA => { c with mkeyh := v }
  | 0xCCB => { c with mbase := v }
  | 0xCCC => { c with xarg := v }
  | _ => c

/-- The lowest privilege of a CSR number is in its bits [9:8], and a number with both of bits [11:10] set is read-only;
an access that they forbid is illegal (R547). -/
def csrForbidden (mode : Mode) (n : BitVec 12) (write : Bool) : Bool :=
  (mode == .u && n.extractLsb' 8 2 != 0) || (write && n.extractLsb' 10 2 == 3)

/-! ## The commands -/

/-- HCTL_HALT (R431, R513): `resumed` are the harts that the management processor's write of the same step resumes. -/
def execHctlHalt (r : Reader) (mask resumed : BitVec 16) (s : State) : Host.Outcome State Fault Refusal :=
  .next (if s.mayWrite r then (s.hctl r ((0 : BitVec 16) ++ mask) (resumed ++ (0 : BitVec 16))).pruneCycles else s)

/-- HCTL_RUN (R431, R513): `halted` are the harts that other writes of the same step halt. -/
def execHctlRun (r : Reader) (mask halted : BitVec 16) (s : State) : Host.Outcome State Fault Refusal :=
  .next (if s.mayWrite r then (s.hctl r (mask ++ (0 : BitVec 16)) ((0 : BitVec 16) ++ halted)).pruneCycles else s)

/-- EVSET (R514). -/
def execEvset (r : Reader) (mask : BitVec 16) (s : State) : Host.Outcome State Fault Refusal :=
  .next (if s.canAct r then (s.evset mask).pruneCycles else s)

/-- TIMER_EXPIRY (R409). -/
def execTimerExpiry (n : Fin 4) (s : State) : Host.Outcome State Fault Refusal :=
  .next (if s.powered then s.timerExpiry n else s)

/-- PACE_CLEAR (R512). -/
def execPaceClear (r : Reader) (s : State) : Host.Outcome State Fault Refusal :=
  .next (if s.canAct r && s.privileged r then s.paceClear else s)

/-- CAL_TAP (R536, R553). -/
def execCalTap (r : Reader) (on : Bool) (s : State) : Host.Outcome State Fault Refusal :=
  .next (if s.canAct r && s.privileged r then s.calTap r on else s)

/-- OBS_SELECT (R537). -/
def execObsSelect (r : Reader) (n : Fin 16) (code : BitVec 8) (s : State) : Host.Outcome State Fault Refusal :=
  .next (if s.canAct r && s.privileged r then s.obsSelect r n code else s)

/-- REGISTER_WRITE (R19): a register by its offset, a CSR of the writing hart, or a write by a hod's master; a CSR access that the mode or the
numbering forbids is an illegal instruction (R547). `lost` are the harts that write the register in the same step (R431),
and `met` holds the bits of the register that an event sets in that step (R94, R412, R508), for CE_KS_HCTL what the other
writes of the step do (R431). -/
def execRegisterWrite (r : Reader) (t : RegTarget) (v : Word) (lost : List Hart) (met : Word) (s : State) :
    Host.Outcome State Fault Refusal :=
  .next (match t with
    | .master hod off => if s.powered then s.masterWrite hod off.toNat v else s
    | .reg off => if s.canAct r then (s.writeReg r off v met lost).pruneCycles else s
    | .csr n =>
      if !s.canAct r then s
      else match Reader.hart? r with
        | none => s
        | some h =>
          if csrForbidden (s.hart h).mode n true || (s.engineCsr h n).isNone then
            (s.trap h 2 (n ++ (0x01073 : BitVec 20))).pruneCycles
          else s.modHart h fun t => { t with csr := t.csr.write n v met })

/-- EVENT_COUNTER_LOW_READ (R538). -/
def execEventCounterLowRead (r : Reader) (n : Fin 8) (s : State) : Host.Outcome State Fault Refusal :=
  .next (if s.canAct r then s.readEffect r (BitVec.ofNat 16 (0x1260 + 8 * n.val)) else s)

/-- HOD_IPROD_ADVANCE (R418). -/
def execHodIprodAdvance (hod : Fin 3) (v : Word) (s : State) : Host.Outcome State Fault Refusal :=
  .next (if s.powered then s.iprod hod v else s)

/-- HOD_OPROD_ADVANCE (R418): machine-mode code moves OPROD. -/
def execHodOprodAdvance (hod : Fin 3) (h : Hart) (v : Word) (s : State) : Host.Outcome State Fault Refusal :=
  .next (if s.canAct (Hart.reader h) && s.privileged (Hart.reader h) then s.oprod hod v else s)

/-- FWREADY (R482, R516). -/
def execFwready (h : Hart) (s : State) : Host.Outcome State Fault Refusal :=
  .next (if s.canAct (Hart.reader h) && s.privileged (Hart.reader h) then s.fwready true else s)

end Sys2Proof.Machine
end

