-- ==== Sys2Proof/Machine/Calibration.lean ====
section
/-! DEFINITION. The pace windows (R438, R512) and live calibration: periods, guard, switching it on and off (R444 to
R449). -/

namespace Sys2Proof.Machine

/-! ## Pace -/

/-- A window of 1024 ns ends with a pace; a clear in the same step discards the window from MIN and MAX (R512). -/
def State.paceWindow (s : State) (p : BitVec 12) (cleared : Bool) : State :=
  let c := s.cal
  { s with cal := { c with pace := p
                           min := if cleared then 0xFFF else if p.toNat < c.min.toNat then p else c.min
                           max := if cleared then 0 else if c.max.toNat < p.toNat then p else c.max } }

/-! ## Live calibration -/

/-- The reload of TMR3 under the frost monitor, in nanoseconds (R446). -/
def frostReload : Word := 2000

/-- Changes one calibration region. -/
def State.modRegion (s : State) (g : Fin 35) (f : Region → Region) : State :=
  { s with cal := { s.cal with regions := vmod s.cal.regions g f } }

/-- Live calibration on: the frost monitor takes TMR3 (R446). -/
def State.calOn (s : State) : State :=
  ({ s with cal := { s.cal with on := true } }).modTimer 3 fun t =>
    { t with en := true, frost := true, owned := false, owner := 0, count := frostReload, reload := frostReload
             since := s.time }

/-- Live calibration off: TMR3 is disabled and has no owner, and every tap stays (R449). -/
def State.calOff (s : State) : State :=
  ({ s with cal := { s.cal with on := false } }).modTimer 3 fun t =>
    { t with en := false, frost := false, owned := false, owner := 0 }

/-- The region of a physical lane group without power (R455, R465, R466): it takes no part in the periods. A group under
test has power. -/
def State.regionDown (s : State) (g : Fin 35) : Bool :=
  if h : g.val < 17 then
    decide (g.val ≤ Config.groups s.cfg) &&
      ((s.err.lanes.get ⟨g.val, h⟩).state == .fenced || (s.err.lanes.get ⟨g.val, h⟩).state == .retired)
  else false

/-- A tap setting after a measurement (R446). -/
def tapAfter (t : BitVec 6) (slack : Nat) : BitVec 6 :=
  if slack < 5 then incSat t else if 7 < slack then (if t = 0 then t else t - 1) else t

/-- One region measured in a period. -/
def State.measure (s : State) (g : Fin 35) (slack : Nat) : State :=
  let t := (s.cal.regions.get g).tap
  let t' := tapAfter t slack
  let s := s.modRegion g fun _ =>
    { tap := t', slack := BitVec.ofNat 6 (min 63 slack), measured := some s.cycle }
  if t' = t then s else s.countEvent 0x51 1

/-- TMR3 expires under live calibration: every powered region is measured, and the timer reloads (R446). The slacks
come in the order of the regions; a region that a guard increase reaches in the same step takes that alone (R447). -/
def State.calibPeriod (s : State) (slacks : List Nat) (guarded : List (Fin 35)) : State :=
  let t := s.ks.timers.get 3
  if !s.cal.on || !t.frost || !t.en then s
  else
    let gs := (slacks.zipIdx.filterMap fun (v, i) => (s.region? i).map fun g => (g, v)).filter fun p =>
      !s.regionDown p.1 && !guarded.contains p.1
    ((s.timeTo t.zeroAt).forEach gs fun s p => s.measure p.1 p.2).modTimer 3 fun t =>
      { t with count := t.reload, since := t.zeroAt }

/-- The frost monitor for a region, in a fault record (R474, R561). -/
def Src.frost (g : Fin 35) : Src := { src := 7, unit := BitVec.ofNat 6 g.val }

/-- A guard finds slack below 2 taps: the tap setting rises by 4, up to 63, and the event is counted; slack still below 2
at 63 is the fault MARGIN (R447, R448). -/
def State.guardEvent (s : State) (g : Fin 35) (slackAfter : Nat) : State :=
  if (s.region? g.val).isNone || s.regionDown g then s
  else
    let r := s.cal.regions.get g
    let t : BitVec 6 := addSat r.tap 4
    let still := r.tap == 63 || (t == 63 && decide (slackAfter < 2))
    let s := s.modRegion g fun _ =>
      { tap := t, slack := BitVec.ofNat 6 (min 63 slackAfter), measured := some s.cycle }
    let s := { s with cal := { s.cal with emerg := incSat s.cal.emerg } }
    let s := (s.countEvent 0x50 1).toggleObs (0x90 + BitVec.ofNat 8 g.val)
    if still then s.uncorrectable 0x05 (Src.frost g) (BitVec.ofNat 32 g.val) (t.setWidth 32) else s

/-! ## The commands -/

/-- PACE_WINDOW (R438). -/
def execPaceWindow (pace : BitVec 12) (cleared : Bool) (s : State) : Host.Outcome State Fault Refusal :=
  .next (if s.powered then s.paceWindow pace cleared else s)

/-- CALIB_PERIOD (R446): `guarded` are the regions that a guard increase reaches in the same step (R447). -/
def execCalibPeriod (slacks : List Nat) (guarded : List (Fin 35)) (s : State) : Host.Outcome State Fault Refusal :=
  .next (if s.powered then s.calibPeriod slacks guarded else s)

/-- GUARD_EVENT (R447). -/
def execGuardEvent (region : Fin 35) (slackAfter : Nat) (s : State) : Host.Outcome State Fault Refusal :=
  .next (if s.powered then s.guardEvent region slackAfter else s)

end Sys2Proof.Machine
end

