-- ==== Sys2Proof/Machine/LocalStore.lean ====
section
/-! DEFINITION. The local store of Keystone: words under the check code without marks (R404), reads that correct, writes,
and the scrub. -/

namespace Sys2Proof.Machine

/-- Words of the local store (R404). -/
def storeWords : Nat := 131072

/-- Sets the codeword of a word of the local store. -/
def State.setLs (s : State) (i : Nat) (c : BitVec 44) : State :=
  { s with ks := { s.ks with store := sset 0 s.ks.store i c } }

/-- Reads a word of the local store: one symbol error is corrected, counted and written back; anything else is KS_UE and
gives no word (R404, R468). -/
def State.readLs (s : State) (who : Src) (i : Nat) : State × Option Word :=
  let c := sget 0 s.ks.store i
  match classify c with
  | .clean => (s, some (cwData c))
  | .single p v =>
    let c' := correctAt c p v
    let s : State := { s with err := { s.err with ksCe := incSat s.err.ksCe } }
    (s.setLs i c', some (cwData c'))
  | _ => (s.uncorrectable 0x02 who (BitVec.ofNat 32 (4 * i)) 0, none)

/-- Writes a whole word of the local store. -/
def State.writeLs (s : State) (i : Nat) (v : Word) : State := s.setLs i (encodeClean v)

/-- Writes some bytes of a word; a part is merged with the word read. False when the word could not be read. -/
def State.mergeLs (s : State) (who : Src) (i : Nat) (mask : BitVec 4) (v : Word) : State × Bool :=
  if mask = 0xF then (s.writeLs i v, true)
  else
    match s.readLs who i with
    | (s, some old) => (s.writeLs i ((old &&& ~~~(maskBits mask)) ||| (v &&& maskBits mask)), true)
    | (s, none) => (s, false)

/-- Writes words from a word index on. -/
def State.fillLs (s : State) (base : Nat) (ws : List Word) : State :=
  { s with ks := { s.ks with store := ssetMany 0 s.ks.store (ws.zipIdx.map fun (w, i) => (base + i, encodeClean w)) } }

/-- The scrubber of the local store visits its next word (R404). -/
def State.scrubLs (s : State) : State :=
  let i := s.ks.scrubAt
  let s : State := { s with ks := { s.ks with scrubAt := (i + 1) % storeWords } }
  (s.readLs .scrubber i).1

/-- LOCAL_STORE_SCRUB (R404). -/
def execLocalStoreScrub (s : State) : Host.Outcome State Fault Refusal := .next (if s.powered then s.scrubLs else s)

end Sys2Proof.Machine
end

