-- ==== Sys2Proof/Machine/Hods.lean ====
section
/-! DEFINITION. Firmware's service of the hods: taking messages in (R417 to R419, R430), the checks of every order (R420 to
R423, R476), the tile plan of compute orders (R425 to R427), and the orders one by one. -/

namespace Sys2Proof.Machine

/-! ## Status codes (R421) -/

/-- DONE. -/
def stDone : BitVec 16 := 0x00
/-- MARKED. -/
def stMarked : BitVec 16 := 0x01
/-- PREEMPTED. -/
def stPreempted : BitVec 16 := 0x02
/-- VERSION. -/
def stVersion : BitVec 16 := 0x03
/-- UNKNOWN. -/
def stUnknown : BitVec 16 := 0x04
/-- PARAM. -/
def stParam : BitVec 16 := 0x05
/-- EPOCH. -/
def stEpoch : BitVec 16 := 0x06
/-- BUSY. -/
def stBusy : BitVec 16 := 0x07
/-- CONFLICT. -/
def stConflict : BitVec 16 := 0x08
/-- KILLED. -/
def stKilled : BitVec 16 := 0x09
/-- AUTH. -/
def stAuth : BitVec 16 := 0x0A
/-- BOUND. -/
def stBound : BitVec 16 := 0x0C
/-- STOPPED. -/
def stStopped : BitVec 16 := 0x0D
/-- TIMEOUT. -/
def stTimeout : BitVec 16 := 0x0E

/-! ## The header of an order (R419) -/

/-- A word of the message. -/
def Order.w (o : Order) (n : Nat) : Word := o.words.getD n 0
/-- OP. -/
def Order.op (o : Order) : BitVec 8 := (o.w 0).extractLsb' 0 8
/-- CONT. -/
def Order.cont (o : Order) : BitVec 2 := (o.w 0).extractLsb' 9 2
/-- TAG. -/
def Order.tag (o : Order) : BitVec 16 := (o.w 0).extractLsb' 16 16
/-- PVER. -/
def Order.pver (o : Order) : BitVec 4 := (o.w 1).extractLsb' 0 4
/-- JOB. -/
def Order.job (o : Order) : BitVec 16 := (o.w 2).extractLsb' 0 16
/-- WEPOCH; version 1 messages have none and take 0 (R422). -/
def Order.wepoch (o : Order) (neg : BitVec 4) : BitVec 16 := if neg = 1 then 0 else (o.w 2).extractLsb' 16 16
/-- RSP, a reserved bit or STATUS is set, which an order has not. -/
def Order.malformed (o : Order) : Bool :=
  (o.w 0).getLsbD 8 || (o.w 0).extractLsb' 11 5 != 0 || (o.w 1).extractLsb' 4 28 != 0

/-- The hods that serve an operation (R423). -/
def opHods (op : BitVec 8) : List (Fin 3) :=
  let n := op.toNat
  if n = 0x01 then [0, 1, 2]
  else if n = 0x02 ∨ n = 0x08 ∨ n = 0x09 then [0, 1]
  else if n = 0x03 ∨ n = 0x06 ∨ n = 0x07 then [0]
  else if n = 0x04 ∨ n = 0x05 ∨ n = 0x0A then [0, 2]
  else if 0x20 ≤ n ∧ n ≤ 0x31 then [1]
  else if 0x40 ≤ n ∧ n ≤ 0x44 then [2]
  else []

/-- The operation is served on the order's hod. -/
def Order.served (o : Order) : Bool := (opHods o.op).contains o.hod

/-- The orders that a stopped engine serves on a hod (R476). -/
def stoppedServes (h : Fin 3) (op : BitVec 8) : Bool :=
  let l := if h = 0 then [0x01, 0x03, 0x04, 0x05, 0x06, 0x0A] else if h = 1 then [0x01]
    else [0x01, 0x40, 0x41, 0x42, 0x43, 0x44, 0x04, 0x05]
  l.contains op.toNat

/-- Replies to an order that is not open. -/
def State.answer (s : State) (o : Order) (st : BitVec 16) (ws : List Word := []) : State :=
  s.reply o.hod o.op o.tag o.job st ws

/-- The version that a hod has negotiated; 0 before HELLO (R422). -/
def State.negOf (s : State) (o : Order) : BitVec 4 := (s.hods.hod.get o.hod).neg

/-- A job is under KILL or was killed (R428). -/
def State.jobKilled (s : State) (j : BitVec 16) : Bool :=
  s.hods.killed.any (killMeans · j) || s.hods.kills.any fun k => killMeans k.1 j

/-- An order is refused with VERSION where its hod has a negotiated version (R422). -/
def Order.badVersion (o : Order) (neg : BitVec 4) : Bool :=
  o.op != 0x01 && (neg == 0 || o.pver != neg || (neg == 1 && o.cont != 0))

/-- An order is an order of the job in its header: it works on the job's data, extensions or windows, and does not control
the engine (log entry 109). -/
def Order.ofJob (o : Order) : Bool :=
  let n := o.op.toNat
  decide (0x08 ≤ n ∧ n ≤ 0x09) || decide (0x20 ≤ n ∧ n ≤ 0x31) || decide (0x40 ≤ n ∧ n ≤ 0x41)

/-- The reply that an order gets before anything of its own is looked at, if any: VERSION, STOPPED, UNKNOWN, KILLED, a
malformed header. -/
def State.refusal (s : State) (o : Order) : Option (BitVec 16) :=
  let neg := s.negOf o
  if o.badVersion neg then some stVersion
  else if s.err.stat == .stopped && o.op == 0x02 && o.hod == 0 then some stDone
  else if s.err.stat == .stopped && !stoppedServes o.hod o.op then some stStopped
  else if !o.served then some stUnknown
  else if o.ofJob && s.jobKilled o.job then some stKilled
  else if o.malformed then some stParam
  else none

/-! ## Taking messages in (R418, R430) -/

/-- Firmware serves the hods: the engine has started, hart 0 runs, no recovery and no power-off is under way (R418, R457,
R470, R481). -/
def State.serving (s : State) : Bool :=
  s.powered && s.boot.ready && s.err.stat != .recovering && !s.powerReq && !(s.hart 0).halted

/-- The messages from a consumer index on: each takes 1 + CONT slots (R418). -/
def Hod.messages (d : Hod) : Nat → Word → List (List Word)
  | 0, _ => []
  | n + 1, i =>
    if i = d.iprod then []
    else
      let word := fun (k : Nat) => sget 0 d.inSlots ((i.toNat % 64 * 16 + k) % 1024)
      let slots := min (((word 0).extractLsb' 9 2).toNat + 1) (d.iprod - i).toNat
      ((List.range (16 * slots)).map word) :: d.messages n (i + BitVec.ofNat 32 slots)

/-- What an order names (R423, R430). Orders whose words the spec does not lay out name their object in word 3; an image
that firmware does not know is an object of its own. -/
inductive OrderObj where
  | job (j : BitVec 16)
  | harts (m : BitVec 16)
  | engine
  | outputs
  | extension (id : BitVec 16)
  | image (addr : BitVec 48)
  | floe (f : BitVec 6)
  | other (hod : Fin 3)
deriving DecidableEq, Repr

/-- The EXT_IDs that stand in chip memory at the images of LOAD_EXT orders, by fabric address (R413, R414). -/
abbrev ImageIds := List (BitVec 48 × BitVec 16)

/-- The fabric address of a LOAD_EXT order's image (R423). -/
def Order.imageAddr (o : Order) : BitVec 48 := (o.w 4).extractLsb' 0 16 ++ o.w 3

/-- The object of an order, and whether the order changes it. -/
def Order.object (images : ImageIds) (o : Order) : OrderObj × Bool :=
  let n := o.op.toNat
  if n = 0x02 then (.job o.job, true)
  else if n = 0x03 then (.engine, true)
  else if n = 0x44 then (.engine, false)
  else if n = 0x04 ∨ n = 0x05 then (.harts ((o.w 3).extractLsb' 0 16), true)
  else if n = 0x08 then
    match images.find? fun i => i.1 == o.imageAddr with
    | some i => (.extension i.2, true)
    | none => (.image o.imageAddr, true)
  else if n = 0x09 then (.extension ((o.w 3).extractLsb' 0 16), true)
  else if n = 0x0A then (.outputs, true)
  else if n = 0x20 ∨ n = 0x21 ∨ n = 0x41 then (.floe ((o.w 3).extractLsb' 26 6), true)
  else if n = 0x40 then (.floe ((o.w 3).extractLsb' 26 6), false)
  else if 0x22 ≤ n ∧ n ≤ 0x31 ∧ n ≠ 0x2F then (.job o.job, true)
  else (.other o.hod, true)

/-- Two objects are the same, or one contains the other. -/
def OrderObj.meets : OrderObj → OrderObj → Bool
  | .job a, .job b => a == b || a == 0xFFFF || b == 0xFFFF
  | .harts a, .harts b => a &&& b != 0
  | a, b => a == b

/-- Two orders contradict (R430): from different hods, the same object, at least one changes it. -/
def Order.contradicts (images : ImageIds) (a b : Order) : Bool :=
  let x := a.object images
  let y := b.object images
  a.hod != b.hod && a.served && b.served && x.1.meets y.1 && (x.2 || y.2)

/-- The version that a HELLO settles: the highest that both sides enable, 0 for none (R422). -/
def State.helloVersion (s : State) (o : Order) : Nat :=
  let en := (s.hods.hod.get o.hod).versEn
  let lo := (o.w 3).toNat
  let hi := (o.w 4).toNat
  let ok := fun (v : Nat) => en.getLsbD (v - 1) && decide (lo ≤ v) && decide (v ≤ hi)
  if ok 2 then 2 else if ok 1 then 1 else 0

/-- The version that a hod will have once the orders taken in before an order are served (R422). -/
def State.negAfter (s : State) (before : List Order) (o : Order) : BitVec 4 :=
  before.foldl (fun v p =>
    if p.op == 0x01 && p.hod == o.hod && s.helloVersion p != 0 then BitVec.ofNat 4 (s.helloVersion p) else v) (s.negOf o)

/-- An order will be refused with VERSION (R422, R481): it does not run, so it contradicts none. -/
def State.unversioned (s : State) (before : List Order) (o : Order) : Bool := o.badVersion (s.negAfter before o)

/-- Takes the orders of one message time in hod and slot order: one that contradicts an order of a lower hod that runs is
replied to with PREEMPTED, one of an operation that no hod serves is refused, the others wait for their service, those
among them that it will refuse with VERSION included (R423, R430, R481). `run` holds the orders taken in, `live` those of
them that can contradict. -/
def State.takeOrders (s : State) (images : ImageIds) (run live : List Order) : List Order → State
  | [] => { s with hods := { s.hods with orders := s.hods.orders ++ run } }
  | o :: r =>
    if s.unversioned (s.hods.orders ++ run) o then s.takeOrders images (run ++ [o]) live r
    else if live.any (o.contradicts images) then (s.answer o stPreempted).takeOrders images run live r
    else if (opHods o.op).isEmpty then (s.answer o ((s.refusal o).getD stUnknown)).takeOrders images run live r
    else s.takeOrders images (run ++ [o]) (live ++ [o]) r

/-- One scan of the three inbound rings (R430): every message that its index has advanced past is consumed. -/
def State.scan (s : State) (images : ImageIds) : State :=
  let os := (fins 3).flatMap fun h =>
    let d := s.hods.hod.get h
    (d.messages 64 d.icons).map fun ws => ({ hod := h, words := ws } : Order)
  let s := s.forEach (fins 3) fun s h => s.modHod h fun d => { d with icons := d.iprod }
  (s.toggleObs 0xC2).takeOrders images [] [] os

/-- Serves the order at the front of those taken in, when it is of an operation: its refusal, or what `k` does;
otherwise `alt` acts. -/
def State.serve (s : State) (op : BitVec 8) (k : State → Order → State) (alt : State → State := id) : State :=
  match s.hods.orders with
  | o :: r =>
    if o.op = op then
      if !s.serving then s
      else
        let t : State := { s with hods := { s.hods with orders := r } }
        match t.refusal o with
        | some st => t.answer o st
        | none => k t o
    else alt s
  | [] => alt s

/-! ## Open orders -/

/-- Opens an order under the next number. -/
def State.openOrder (s : State) (o : Order) (f : OpenOrder → OpenOrder := id) : State :=
  let p : OpenOrder := f { id := s.hods.nextOrder, hod := o.hod, op := o.op, tag := o.tag, job := o.job }
  { s with hods := { s.hods with openOrders := s.hods.openOrders ++ [p], nextOrder := s.hods.nextOrder + 1 } }

/-- The oldest open order of an operation. -/
def State.openOf (s : State) (op : BitVec 8) : Option OpenOrder := s.hods.openOrders.find? fun o => o.op == op

/-- A channel that firmware may use for an order: the configuration has it, no chain of it runs, no call and no order
has it (R433). -/
def State.chanFree (s : State) (ch : BitVec 5) : Bool :=
  let c : Fin 32 := ch.toFin
  let x := s.chan c
  s.hasCh ch.toNat && x.state != 1 && x.state != 4 && x.state != 5 && x.order.isNone &&
    s.hods.calls.all fun k => !k.chans.contains c

/-! ## Kernel work (R428) -/

/-- Operations of compute orders, whose kernels run on harts (R423). -/
def computeOp (op : BitVec 8) : Bool :=
  let n := op.toNat
  decide (0x22 ≤ n) && decide (n ≤ 0x2D)

/-- A hart that runs no kernel of an open order and no extension call (R433). -/
def State.idleHart (s : State) (h : Hart) : Bool := (s.kernelOf h).isNone && (s.callOf h).isNone

/-- The harts that work for the jobs of a KILL: those of their calls and those that run the kernels of their orders. -/
def State.jobHarts (s : State) (k : BitVec 16) : List Hart :=
  (s.hods.calls.filter fun c => killMeans k c.job).flatMap (·.harts) ++
    (s.hods.openOrders.filter fun o => killMeans k o.job).flatMap (·.kernel)

/-- The job that a channel works for: of the order that firmware started its chain for, of the call that it is given to,
or of the kernel that started its chain; none for a chain that the management processor or no job's work started (R23). -/
def State.chanJob (s : State) (c : Fin 32) : Option (BitVec 16) :=
  let x := s.chan c
  match x.order with
  | some n => (s.orderOf n).map (·.job)
  | none =>
    if x.starter == some mgmt then none
    else match s.hods.calls.find? fun k => k.chans.contains c with
    | some k => some k.job
    | none => ((x.starter.bind Reader.hart?).bind s.kernelOf).map (·.job)

/-- The channels of the jobs of a KILL. -/
def State.jobChans (s : State) (k : BitVec 16) : List (Fin 32) := (fins 32).filter fun c => (s.chanJob c).any (killMeans k)

/-- KILL of a job or of all jobs: events 1 to 3 of R428. -/
def State.kill (s : State) (o : Order) : State :=
  let k := o.job
  let hs := s.jobHarts k
  let cs := s.jobChans k
  let callHarts := (s.hods.calls.filter fun c => killMeans k c.job).flatMap (·.harts)
  let s : State := { s with hods := { s.hods with kills := s.hods.kills ++ [(k, s.hods.nextOrder)] } }
  let s := s.openOrder o
  let s := s.forEach callHarts fun s h => s.modHart h fun t => { t with halted := true }
  let s := s.stopCourses (readerIn hs)
  let s := s.forEach cs State.stopChannel
  let s := s.dropReading (readerIn hs)
  let s := s.forEach (fins 4) fun s p => s.forEach hs fun s h => s.nbrStop (Hart.reader h) p
  s.forEach (fins 4) State.settleSends

/-- An access that a KILL may have stopped waits for the acknowledgement of its Moraine lines: one of the drift engine, the
sequencer or a send, or one of some harts (R315, R428). -/
def State.closingAccess (s : State) (hs : List Hart) : Bool :=
  s.ice.morClosing.any fun id => s.ice.sb.alloc.any fun a => a.id == id && match a.who with
    | .drift _ | .mortar | .departure _ => true
    | .vector h | .scalar h => hs.contains h
    | _ => false

/-- The work of a KILL has drained: event 4 of R428. -/
def State.drained (s : State) (k : BitVec 16) : Bool :=
  let hs := s.jobHarts k
  let mine := readerIn hs
  (hs.all fun h => (s.hart h).vqueue.isEmpty && s.vu.inflight.all fun f => f.hart != h) &&
    ((s.jobChans k).all fun c => !(s.chan c).stopping && (s.chan c).accesses.isEmpty) &&
    (s.mortar.run.all fun c => !mine c.who) && (s.mortar.pend.all fun c => !mine c.2) &&
    (s.mortar.waiting.all fun c => !mine c.2) && (s.mortar.dropped.all fun c => !mine c.2) &&
    !s.closingAccess hs && (hs.all fun h => !(s.hart h).wait.inWindow) && (s.nbr.reading.all fun a => !mine a.who) &&
    (fins 4).all fun p => (s.port p).sends.all fun d => !mine d.who || !d.stop || (d.phase == .complete && d.sb.isNone)

/-! ## Compute orders (R425 to R427) -/

/-- Words of a 64 by 64 tile of a format, with its scales (R56, R427). -/
def tileWords (f : Fmt) (block : Nat) : Nat := 128 * f.width + if block = 0 then 0 else 1024 / block

/-- The largest power of two up to `k` whose slots fit twice (R427), in at most `n` halvings. -/
def planDepth (tw stream : Nat) : Nat → Nat → Nat
  | 0, d => d
  | n + 1, d => if 2 * d * tw ≤ stream then d else planDepth tw stream n (d / 2)

/-- The tile plan: row tiles, column tiles, reduction tiles, depth, slots; none when one tile of B does not fit (R427). -/
def tilePlan (m n k tw stream : Nat) : Option (List Nat) :=
  let kt := tilesOf k
  if stream < tw then none
  else
    let d := if stream < 2 * tw then 1 else planDepth tw stream 32 (2 ^ Nat.log2 kt)
    some [tilesOf m, tilesOf n, kt, d, if stream < 2 * tw then 1 else 2]

/-- Rows of the folded order: heads and batches are not folded under CAUSAL (R427). -/
def foldedRows (sh : OrderShape) : Nat := if sh.causal then sh.m else sh.m * sh.fold

/-- An open weight push is taking the tag off a floe: its first commit is accepted (R294). -/
def State.untagging (s : State) (f : Fin 64) : Bool := s.hods.openOrders.any fun o => o.op == 0x21 && o.phase == 1 && o.floe == f

/-- A floe holds a weight epoch, and no push is taking it off (R31, R32; DEDUCED, log entry 187). -/
def State.epochHeld (s : State) (e : BitVec 16) : Bool :=
  (fins 64).any fun f => (s.floe f).used && (s.floe f).wepoch == e && !s.untagging f

/-- The epoch check of a request (R31, R420): PARAM for resident weights without an epoch, EPOCH when no floe holds it. -/
def State.epochCheck (s : State) (o : Order) (resident : Bool) : Option (BitVec 16) :=
  let e := o.wepoch (s.negOf o)
  if e = 0xFFFF then (if resident then some stParam else none)
  else if s.epochHeld e then none else some stEpoch

/-- Firmware may run a kernel on some harts: each runs nothing else (R426, log entry 107). -/
def State.mayRun (s : State) (hs : List Hart) : Bool := !hs.isEmpty && hs.all s.idleHart

/-- Opens a compute order with its plan, its tiles, what its courses hold, and its harts. -/
def State.openCompute (s : State) (o : Order) (plan : List Nat) (tiles : Nat) (work : Option OrderWork) (kernel : List Hart)
    (vops : List (BitVec 6)) : State :=
  if s.mayRun kernel then s.openOrder o fun p => { p with plan, tiles, work, kernel, vops, reads := o.wepoch (s.negOf o) }
  else s.answer o stBusy

/-- Starts an order with a product: its checks and its tile plan (R420, R427). -/
def State.startProduct (s : State) (o : Order) (sh : OrderShape) (bad : Bool) (tiles : Nat) (work : OrderWork) : State :=
  if bad || sh.malformed || sh.m = 0 || sh.n = 0 || sh.k = 0 || sh.fold = 0 then s.answer o stParam
  else match s.epochCheck o sh.resident with
    | some st => s.answer o st
    | none =>
      match tilePlan (foldedRows sh) sh.n sh.k (tileWords sh.fmtB sh.block) sh.streamWords with
      | none => s.answer o stParam
      | some plan => s.openCompute o plan tiles (some work) sh.kernel []

/-- Starts an order of the vector unit alone: sweeps of 64 columns by the rows of a register group of up to four (R427).
`vops` are the opcodes that write its outputs. -/
def State.startVector (s : State) (o : Order) (sh : OrderShape) (bad : Bool) (vops : List (BitVec 6)) : State :=
  if bad || sh.malformed || sh.m = 0 || sh.n = 0 then s.answer o stParam
  else match s.epochCheck o sh.resident with
    | some st => s.answer o st
    | none =>
      let rows := 4 * sh.fmtB.rowsPer
      s.openCompute o [(sh.m + rows - 1) / rows, tilesOf sh.n] sh.outTiles none sh.kernel (0x06 :: vops)

/-- No work of an order's kernel is under way: no course, no instruction and no chain of its harts. -/
def State.quiet (s : State) (o : OpenOrder) : Bool :=
  let mine := readerIn o.kernel
  (s.mortar.run.all fun c => !mine c.who) && (s.mortar.pend.all fun c => !mine c.2) && (s.mortar.waiting.all fun c => !mine c.2) &&
    (s.mortar.dropped.all fun c => !mine c.2) &&
    (o.kernel.all fun h => (s.hart h).vqueue.isEmpty && s.vu.inflight.all fun f => f.hart != h) &&
    (fins 32).all fun c => !((s.chan c).starter.any mine) || ((s.chan c).state != 1 && (s.chan c).state != 5)

/-- SLUSH of a summary (R127). -/
def sumSlush (d : DWord) : BitVec 15 := d.extractLsb' 32 15

/-- The status that a course's outcome gives its order (R243, R276, R421). -/
def courseStatus (c : BitVec 4) : BitVec 16 :=
  if c = 1 then stDone else if c = 5 then stBound else if c = 7 then stKilled else if c = 8 then stTimeout else stParam

/-- An order's work is done: its last output is there, and its courses have written every output tile or one has failed. -/
def State.workDone (s : State) (o : OpenOrder) : Bool :=
  s.quiet o && match o.last with
    | none => false
    | some (_, c) => o.work.isNone || c != 1 || decide (o.tiles ≤ o.written)

/-- The first open order of an operation whose work is done ends: the summary of its last output and its output tiles
(R425). A weight push that waited for it goes on (R32). -/
def State.finishCompute (s : State) (op : BitVec 8) : State :=
  if !s.serving then s
  else match s.hods.openOrders.find? fun o => o.op == op && s.workDone o with
    | none => s
    | some o =>
      match o.last with
      | none => s
      | some (d, c) =>
        let st := if courseStatus c == stDone && (sumSlush d != 0 || o.marked) then stMarked else courseStatus c
        let tiles := if o.work.isSome then o.written else o.tiles
        (s.endOrder o st [d.extractLsb' 0 32, d.extractLsb' 32 32, BitVec.ofNat 32 tiles]).retryPush

/-- What the courses of a product hold in common: the whole reduction and every column of the output, and the order's S
and SAT. -/
def workOf (sh : OrderShape) (bonds : List (BitVec 4)) : OrderWork :=
  { bonds, n := some sh.n, k := some sh.k, s := sh.strict, sat := sh.sat }

/-- A compute order with a product: started at the front of the orders, ended later. -/
def State.productOrder (s : State) (op : BitVec 8) (sh : OrderShape) (bad : Bool) (tiles : Nat) (work : OrderWork) : State :=
  s.serve op (fun s o => s.startProduct o sh bad tiles work) fun s => s.finishCompute op

/-- A compute order of the vector unit alone. -/
def State.vectorOrder (s : State) (op : BitVec 8) (sh : OrderShape) (bad : Bool) (vops : List (BitVec 6)) : State :=
  s.serve op (fun s o => s.startVector o sh bad vops) fun s => s.finishCompute op

/-- A format of the table of R36 that a hod message may name: the four-bit formats are for drift loads and E8M0 for
scales only. -/
def messageFmt (b : BitVec 4) : Option Fmt :=
  (Fmt.ofCode b).filter fun f => f != .int4 && f != .fp4 && f != .e8m0

/-- ATTN_FWD in its words (the worked example of chapter 11): the operands' addresses, M, N, HDIM, FMT, FMTO, S, SAT,
CAUSAL, MASK, REPRO, the causal offset, tau, heads, batch and the stride between heads. Heads and batches are folded when
they share K and V, which a stride of 0 says, and CAUSAL is clear (R427, log entry 165). -/
def State.startAttn (s : State) (o : Order) (stream : Nat) (kernel : List Hart) : State :=
  let w := o.w 10
  let fmt := messageFmt (w.extractLsb' 12 4)
  let fmto := messageFmt (w.extractLsb' 16 4)
  let hdim := (w.extractLsb' 0 12).toNat
  let causal := w.getLsbD 22
  let heads := ((o.w 14).extractLsb' 0 16).toNat * ((o.w 14).extractLsb' 16 16).toNat
  let folds := !causal && o.w 15 == 0
  let m := (o.w 8).toNat
  let sh : OrderShape :=
    { m, n := (o.w 9).toNat, k := hdim, fold := if folds then heads else min heads 1, causal, fmtB := fmt.getD .bf16
      streamWords := stream, kernel }
  let courses := if folds then 1 else heads
  let work : OrderWork :=
    { bonds := [if w.getLsbD 24 then 6 else 5], m := if folds then none else some m, n := some sh.n, k := some hdim
      s := w.getLsbD 20, sat := w.getLsbD 21, fmto := some (w.extractLsb' 16 4), causal, mask := w.getLsbD 23
      offset := some (o.w 11), tau := some (o.w 12), fmt
      blocks := if folds || heads = 1 then some #v[o.w 3, o.w 4, o.w 5, o.w 6, o.w 7, o.w 13] else none }
  let outFmt := fmto == some .bf16 || fmto == some .fp16 || fmto == some .fp32
  s.startProduct o sh (fmt.isNone || !outFmt || w.extractLsb' 25 7 != 0) (courses * tilesOf (foldedRows sh) * tilesOf hdim)
    work

/-! ## Orders of control -/

/-- HELLO (R422): the highest version that both sides enable. -/
def State.hello (s : State) (o : Order) : State :=
  let v := s.helloVersion o
  if v = 0 then s.answer o stVersion
  else (s.modHod o.hod fun d => { d with neg := BitVec.ofNat 4 v }).answer o stDone [BitVec.ofNat 32 v]

/-- RELEASE (R477). -/
def State.releaseOrder (s : State) (o : Order) : State :=
  if s.err.stat != .stopped then s.answer o stDone
  else if Config.groups s.cfg ≤ s.healthyLanes && s.ice.sparing.isEmpty then
    ({ s with err := { s.err with stat := .running } }).answer o stDone
  else s.answer o stBusy

/-- CALIB (R433, R449, R515). -/
def State.calibOrder (s : State) (o : Order) : State :=
  if (o.w 3).getLsbD 0 then
    if s.cal.on then s.answer o stDone
    else if (s.ks.timers.get 3).owned then (s.conflict (timerOff 3) 3 mgmt).answer o stConflict
    else s.calOn.answer o stDone
  else s.calOff.answer o stDone

/-- Takes a channel's page request away. -/
def State.dropPage (s : State) (c : Fin 32) : State :=
  { s with hods := { s.hods with pageReqs := s.hods.pageReqs.filter fun q => q.1 != c } }

/-- A halted channel is stopped, and its order ends with a status once it has (R429). -/
def State.endHalted (s : State) (c : Fin 32) (st : BitVec 16) : State :=
  let s := match (s.chan c).order with
    | some n => s.modOrder n fun o => { o with ending := some st }
    | none => s
  (s.dropPage c).stopChannel c

/-- PAGE_DONE, by the TAG of the page request (R429). -/
def State.pageDone (s : State) (o : Order) (bound : Bool) : State :=
  match s.hods.pageReqs.find? fun q => q.2 == o.tag with
  | none => s.answer o stParam
  | some (c, _) => (if bound then s.endHalted c stBound else (s.resumeCh c).pruneCycles).answer o stDone

/-- No answer to a page request within 10 ms (R429). -/
def State.pageTimeout (s : State) (c : Fin 32) : State :=
  if s.hods.pageReqs.any fun q => q.1 == c then s.endHalted c stTimeout else s

/-- OBSSEL (R433, R552): a claimed output refuses the whole order. -/
def State.obsOrder (s : State) (o : Order) (sel : List (Fin 16 × BitVec 8)) : State :=
  match sel.find? fun q => (s.obs.out.get q.1).src == 2 with
  | some q => (s.conflict (obsOff q.1) 4 (Hart.reader 0)).answer o stConflict
  | none => (s.forEach sel fun s q => (s.obsSet q.1 q.2).1).answer o stDone

/-! ## Extensions (R413 to R416) -/

/-- The descriptor that copies words bit for bit between a floe and the fabric, in rows of words. -/
def copyDesc (ver : Nat) (store : Bool) (words rows : Nat) (ice : Word) (fab : BitVec 48) : Desc :=
  { ver, dir := if store then 1 else 0, sfmt := Fmt.int32.code, dfmt := Fmt.int32.code, last := true, faddr := fab
    iaddr := ice, ncol := words, nrow := rows, frs := words, irs := words }

/-- Runs one descriptor of an order on a channel. -/
def State.orderDrift (s : State) (c : Fin 32) (n : Nat) (d : Desc) : State :=
  (s.startChain c false 0 {} none (some n)).enterSet c [d] none

/-- LOAD_EXT, step 1 of R414: a drift copies the image, from the fabric address in words 3 and 4, to the front of a staging
floe. A format 2 drift does, where the engine enables format 2, so that a failed line ends the order (R429). -/
def State.loadExt (s : State) (o : Order) (f : Fin 64) (words : Nat) (ch : BitVec 5) : State :=
  if !s.hasCh ch.toNat || !s.chanFree ch || words = 0 || !s.mayStage f words then s.answer o stBusy
  else
    let n := s.hods.nextOrder
    let s := s.openOrder o fun p => { p with floe := f, image := words, chans := [ch.toFin] }
    let ice : Word := BitVec.ofNat 6 f.val ++ BitVec.ofNat 26 (s.floe f).window.1
    s.orderDrift ch.toFin n (copyDesc (if s.drf.vers.getLsbD 0 then 2 else 3) false 16 (imageLines words) ice o.imageAddr)

/-- The security engine's answer: the extension is placed, or AUTH and the refusal report (R414, R424). -/
def State.extVerified (s : State) (ok : Bool) (code : Word) : State :=
  match s.hods.verifying with
  | none => s
  | some (n, image) =>
    let s : State := { s with hods := { s.hods with verifying := none } }
    match s.orderOf n with
    | none => s
    | some o =>
      if !ok then (s.report 0xC1 [code]).endOrder o stAuth []
      else
        let h := extHeader image
        match s.extPlace (h.code + h.data + h.bss) with
        | none => s.endOrder o stBusy []
        | some a =>
          let ws := (image.drop 16).take ((h.code + h.data) / 4) ++ List.replicate (h.bss / 4) 0
          let e : Extension :=
            { id := h.id, codeAddr := a, codeLen := h.code, dataAddr := a + h.code, dataLen := h.data + h.bss
              entry := h.entry, nharts := h.nharts, ntiles := h.ntiles, nch := h.nch, caps := h.caps }
          let s := s.fillLs (a / 4) ws
          ({ s with hods := { s.hods with exts := s.hods.exts ++ [e] } }).endOrder o stDone []

/-- DROP_EXT (R423). -/
def State.dropExt (s : State) (o : Order) (ext : BitVec 16) : State :=
  if !(s.hods.exts.any fun e => e.id == ext) then s.answer o stParam
  else if s.hods.calls.any fun c => c.ext == ext then s.answer o stBusy
  else ({ s with hods := { s.hods with exts := s.hods.exts.filter fun e => e.id != ext } }).answer o stDone

/-- One PMP entry: its configuration byte and its address register. -/
abbrev PmpEntry := BitVec 8 × Word

/-- The two entries of a range of bytes that a call may use: its bottom, then its top in mode TOR with the permissions
R (bit 0), W (bit 1) and X (bit 2). -/
def pmpRange (lo hi : Nat) (perm : BitVec 8) : List PmpEntry :=
  [(0, BitVec.ofNat 32 (lo / 4)), (perm ||| 0x08, BitVec.ofNat 32 (hi / 4))]

/-- The PMP entries of an extension call (R415): code to fetch and read, data, the engine register window, the floes. -/
def State.callPmp (s : State) (e : Extension) (floes : List (Fin 64)) : List PmpEntry :=
  pmpRange e.codeAddr e.dataAddr 0x05 ++
    [(0x0B, BitVec.ofNat 32 ((e.dataAddr + e.dataLen) / 4)), (0x1B, 0x00401FFF)] ++
    floes.flatMap fun f => pmpRange (0x10000000 + 4 * (s.floe f).window.1) (0x10000000 + 4 * (s.floe f).window.2) 0x03

/-- A hart enters an extension call. -/
def HartState.enter (t : HartState) (pmp : List PmpEntry) (pc arg : Word) (index : Nat) : HartState :=
  let t := (t.setX 10 arg).setX 11 (BitVec.ofNat 32 index)
  { t with mode := .u, pc, halted := false, wait := .run, reservation := none
           trap := { t.trap with pmpcfg := Vector.ofFn fun i : Fin 8 => (pmp.getD i.val (0, 0)).1
                                 pmpaddr := Vector.ofFn fun i : Fin 8 => (pmp.getD i.val (0, 0)).2 } }

/-- Parameter words of a request: words 3 onward of its slots (R419). -/
def Order.params (o : Order) : List Word := o.words.drop 3

/-- EXT_CALL (R415): its resources must all be free, and its floes must fit the PMP entries. A copy of the request's
parameter words goes to the local store at `params`, which a0 of every hart holds. -/
def State.extCall (s : State) (o : Order) (ext : BitVec 16) (harts : List Hart) (tiles : List TileReg)
    (chans : List (Fin 32)) (floes : List (Fin 64)) (params : Word) : State :=
  match s.hods.exts.find? fun e => e.id == ext with
  | none => s.answer o stParam
  | some e =>
    let pmp := s.callPmp e floes
    if harts.length ≠ e.nharts || tiles.length ≠ e.ntiles || chans.length ≠ e.nch || !harts.Nodup || !tiles.Nodup ||
        !chans.Nodup || floes.any fun f => !(s.floe f).used then s.answer o stParam
    else match s.epochCheck o false with
      | some st => s.answer o st
      | none =>
        if 8 < pmp.length || harts.contains 0 || !harts.all s.idleHart || params.toNat % 4 ≠ 0 ||
            storeWords < params.toNat / 4 + o.params.length ||
            (tiles.any fun t => (s.tiles.get t).lease != .free || s.tileBusy t || s.leaseQ.any fun q => q.tile == t) ||
            chans.any fun c => !s.chanFree (BitVec.ofNat 5 c.val) then s.answer o stBusy
        else
          let owner := fun (i : Nat) => harts.getD (i % harts.length) 0
          let s := s.forEach tiles.zipIdx fun s q =>
            s.setLease { who := Hart.reader 0, tile := q.1, hart := owner q.2, mode := .exclusive }
          let s := s.forEach chans.zipIdx fun s q => s.modCh q.1 fun x => { x with owner := owner q.2 }
          let pc := BitVec.ofNat 32 (e.codeAddr + e.entry)
          let s := s.forEach harts.zipIdx fun s q => s.modHart q.1 fun t => t.enter pmp pc params q.2
          let s := s.fillLs (params.toNat / 4) o.params
          let call : ExtCall :=
            { ext, order := s.hods.nextOrder, reads := o.wepoch (s.negOf o), hod := o.hod, tag := o.tag, job := o.job, harts
              tiles, chans }
          (({ s with hods := { s.hods with calls := s.hods.calls ++ [call] } })).openOrder o

/-- What a call that has ended held is given back: its channels have stopped, no course and no window access of its harts is
left, and its tile registers are Free (R416). -/
def State.callSettled (s : State) (c : ExtCall) : Bool :=
  let mine := readerIn c.harts
  (c.chans.all fun k => !(s.chan k).stopping || (s.chan k).starter == some mgmt) && (s.mortar.run.all fun r => !mine r.who) &&
    (s.mortar.dropped.all fun d => !mine d.2) && (c.harts.all fun h => !(s.hart h).wait.inWindow) &&
    c.tiles.all fun t => (s.tiles.get t).lease == .free && s.leaseQ.all fun q => q.tile != t

/-- A KILL whose calls have given back all they held ends: KILLED to the open orders of its job, then DONE (event 5 of
R428). An image that firmware still reads for such an order is read no more. -/
def State.endKill (s : State) (k : BitVec 16) (n : Nat) : State :=
  let mine := s.hods.openOrders.filter fun o => killMeans k o.job && o.op != 0x02
  let s := s.forEach mine fun s o => ((match o.imageSb with | some id => s.endAccess id | none => s)).endOrder o stKilled []
  let s : State :=
    { s with hods := { s.hods with
        kills := s.hods.kills.filter fun x => x != (k, n)
        calls := s.hods.calls.filter fun c => !killMeans k c.job
        verifying := s.hods.verifying.filter fun v => !mine.any fun o => o.id == v.1
        killed := if s.hods.killed.contains k then s.hods.killed else s.hods.killed ++ [k] } }
  match s.orderOf n with
  | some o => s.endOrder o stDone []
  | none => s

/-- The first KILL whose work has drained: its calls end, and once they have given back all they held the KILL ends (event 5
of R428). -/
def State.killDrained (s : State) : State :=
  match s.hods.kills.find? fun k => s.drained k.1 with
  | none => s
  | some (k, n) =>
    let mine := fun (c : ExtCall) => killMeans k c.job
    let s := s.forEach (s.hods.calls.filter fun c => mine c && c.ending.isNone) fun s c => s.endCall c stKilled []
    if (s.hods.calls.filter mine).all s.callSettled then s.endKill k n else s

/-- Firmware replies to the first call that has ended and given everything back (R416). -/
def State.finishCall (s : State) : State :=
  if !s.serving then s
  else match s.hods.calls.find? fun c => c.ending.isSome && s.callSettled c with
    | none => s
    | some c =>
      let s : State := { s with hods := { s.hods with calls := s.hods.calls.filter fun d => d.order != c.order } }
      match s.orderOf c.order, c.ending with
      | some o, some (st, ws) => (s.endOrder o st ws).retryPush
      | _, _ => s

/-! ## Floes, drifts, windows -/

/-- FLOE_SET: the commit's outcome is its reply (R285, R423). -/
def State.floeSet (s : State) (o : Order) (f : Fin 64) (w : Vector Word 8) : State :=
  let ref := some s.hods.nextOrder
  let (s, code) := (s.openOrder o).commitFloe (Hart.reader 0) f w ref
  if code = fsPending then s else s.replyCommit ref code

/-- WEIGHT_PUSH (R294): the floe loses its tag once no request that runs reads it (R32), then loads, then takes the new
one. Its channel goes to the lowest-numbered hart that runs no kernel (R433). -/
def State.weightPush (s : State) (o : Order) (f : Fin 64) (list : BitVec 48) (ch : BitVec 5) : State :=
  let e := o.wepoch (s.negOf o)
  if !(s.floe f).used || e = 0xFFFF || !s.hasCh ch.toNat then s.answer o stParam
  else if !s.chanFree ch then s.answer o stBusy
  else match (fins 16).find? s.idleHart with
    | none => s.answer o stBusy
    | some h =>
      let s := s.modCh ch.toFin fun x => { x with owner := h }
      let n := s.hods.nextOrder
      let s := s.openOrder o fun p => { p with floe := f, wepoch := e, list, chans := [ch.toFin] }
      match s.orderOf n with
      | some p => if s.mayPush p then s.pushCommit p else s
      | none => s

/-- MOVE: one drift chain (R423). -/
def State.moveOrder (s : State) (o : Order) (list : BitVec 48) (ch : BitVec 5) : State :=
  if !s.hasCh ch.toNat then s.answer o stParam
  else if !s.chanFree ch then s.answer o stBusy
  else
    let n := s.hods.nextOrder
    (s.openOrder o fun p => { p with chans := [ch.toFin] }).startChain ch.toFin false (list.toNat / 64 * 64) {} none (some n)

/-- ICE_READ and ICE_WRITE: one drift of up to 16 384 words (R423). -/
def State.iceOrder (s : State) (o : Order) (store : Bool) (ice : Word) (words : Nat) (fab : BitVec 48) (ch : BitVec 5) :
    State :=
  if !s.hasCh ch.toNat || words = 0 || 16384 < words then s.answer o stParam
  else if !s.chanFree ch then s.answer o stBusy
  else
    let n := s.hods.nextOrder
    (s.openOrder o fun p => { p with chans := [ch.toFin] }).orderDrift ch.toFin n
      (copyDesc (if s.drf.vers.getLsbD 1 then 3 else 2) store words 1 ice fab)

/-- WINDOW: OPEN, CLOSE or CREDIT (R375, R423). Firmware writes CE_NBR_WCMD as hart 0, whose view holds the outcome. -/
def State.windowOrder (s : State) (o : Order) (op : WindowOp) (w : Fin 64) (stage : Vector Word 4) (credit : BitVec 24) :
    State :=
  let ref := some s.hods.nextOrder
  let s := (s.openOrder o).forgetCloses (Hart.reader 0)
  let (s, code) := match op with
    | .open => s.windowOpen w stage
    | .close => s.windowClose w (Hart.reader 0) ref
    | .credit => s.windowCredit w credit
  let s := s.setWstat (Hart.reader 0) code
  if code = wsPending then s else s.replyWindow ref code

/-- A course is a B15 that uses a window. -/
def CourseDesc.usesWindow (d : CourseDesc) (w : Fin 64) : Bool :=
  d.bn == 15 && (d.par 0).extractLsb' 10 6 == BitVec.ofNat 6 w.val

/-- A word of a block as it stands, without a read of the engine: firmware knows the courses that it has started. -/
def State.blockWord (s : State) (base : Word) (i : Nat) : Word :=
  match s.place (floePart base) (wordPart base + i) with
  | some (.phys p h) => let (b, q) := s.bankLevel p h; cwData (s.codewordAt b q)
  | _ => 0

/-- A course whose block stands at an address. -/
def State.courseAt (s : State) (addr : Word) : CourseDesc :=
  let b := s.blockWord addr
  courseOf b (s.blockWord (b 10))

/-- The running course, or one that waits in the sequencer, is a B15 that uses a window: firmware closes it only after that
course (R433). -/
def State.courseUses (s : State) (w : Fin 64) : Bool :=
  (s.mortar.run.any fun c => c.checked && c.d.usesWindow w) ||
    (s.mortar.pend.any fun c => (s.courseAt c.1).usesWindow w) || s.mortar.waiting.any fun c => (s.courseAt c.1).usesWindow w

/-- FENCE ends once no earlier order of its job is open (R423). -/
def State.fenceDone (s : State) : State :=
  match s.hods.openOrders.find? fun o => o.op == 0x31 &&
      ((s.hods.openOrders.takeWhile fun p => p != o).all fun p => p.job != o.job || p.op == 0x31) with
  | some o => s.endOrder o stDone []
  | none => s

/-! ## Registers through Hod 2 (R506) -/

/-- Firmware acts on hart 0 in machine mode: what `f` does, with the hart's own mode and wait as they were. -/
def State.asFirmware (s : State) (f : State → State) : State :=
  let t := s.hart 0
  let u := f (s.modHart 0 fun x => { x with mode := .m, wait := .run })
  u.modHart 0 fun x => { x with mode := t.mode, wait := if x.wait == .run then t.wait else x.wait }

/-- The register offset of a Keystone address, if it is one (R401). -/
def regOffset (a : Word) : Option (BitVec 16) := if a.extractLsb' 16 16 = 0x0100 then some (a.extractLsb' 0 16) else none

/-- REG_READ: an engine register or a word of the local store (R423). -/
def State.regRead (s : State) (o : Order) (a : Word) : State :=
  if a.toNat % 4 ≠ 0 then s.answer o stParam
  else match regOffset a with
    | some off => (s.readEffect (Hart.reader 0) off).answer o stDone [s.readReg (Hart.reader 0) off]
    | none =>
      if a.toNat / 4 < storeWords then
        match s.readLs (Src.hart 0) (a.toNat / 4) with
        | (s, some w) => s.answer o stDone [w]
        | (s, none) => s
      else s.answer o stParam

/-- Some window of a port is open. -/
def State.portHasWindow (s : State) (p : Fin 4) : Bool := (fins 64).any fun w => (s.win w).isOpen && (s.win w).port == p

/-- REG_WRITE: CONFLICT for a write that R433 refuses. -/
def State.regWrite (s : State) (o : Order) (off : BitVec 16) (v : Word) : State :=
  if off = 0x1074 && v.extractLsb' 4 2 = 1 && s.portHasWindow (v.extractLsb' 0 2).toFin then
    (s.conflict off 5 (Hart.reader 0)).answer o stConflict
  else if off.toNat % 4 ≠ 0 then s.answer o stParam
  else
    let was := s.ks.confV
    let s : State := { s with ks := { s.ks with confV := false } }
    let s := s.asFirmware fun s => s.writeReg (Hart.reader 0) off v 0 []
    if s.ks.confV && off != 0x10C then s.answer o stConflict
    else ({ s with ks := { s.ks with confV := if off = 0x10C then was && !v.getLsbD 31 else was } }).answer o stDone

/-- STATUS: harts, floes, channels, ports and courses in four slots (R423). -/
def State.statusWords (s : State) : List Word :=
  let harts := packW ((fins 16).map fun h => (h.val, 1, bitN (s.hart h).halted)) |||
    packW ((fins 16).map fun h => (16 + h.val, 1, bitN ((s.hart h).wait == .wfi)))
  let floes := (List.range 4).map fun k => packW ((List.range 16).map fun i =>
    (2 * i, 2, (s.floe (BitVec.ofNat 6 (16 * k + i)).toFin).state.bits.toNat))
  let chans := (List.range 4).map fun k => packW ((List.range 8).map fun i =>
    (4 * i, 4, (s.chan (BitVec.ofNat 5 (8 * k + i)).toFin).state.toNat))
  let ports := packW ((fins 4).map fun p => (4 * p.val, 3, (s.port p).state.bits))
  let ws := harts :: floes ++ chans ++ [ports, s.readTileReg (Hart.reader 0) 0x204]
  ws ++ List.replicate (61 - ws.length) 0

/-! ## The commands -/

/-- HOD_SCAN (R430), with the EXT_IDs of the images that LOAD_EXT orders name. -/
def execHodScan (images : List (BitVec 48 × BitVec 16)) (s : State) : Host.Outcome State Fault Refusal :=
  .next (if s.serving then s.scan images else s)

/-- HELLO (R422). -/
def execOrdHello (s : State) : Host.Outcome State Fault Refusal := .next (s.serve 0x01 State.hello)

/-- KILL (R428). -/
def execOrdKill (s : State) : Host.Outcome State Fault Refusal := .next (s.serve 0x02 State.kill)

/-- KILL_DRAINED (R428). -/
def execOrdKillDrained (s : State) : Host.Outcome State Fault Refusal := .next (if s.serving then s.killDrained else s)

/-- RELEASE (R477). -/
def execOrdRelease (s : State) : Host.Outcome State Fault Refusal := .next (s.serve 0x03 State.releaseOrder)

/-- HALT (R423). -/
def execOrdHalt (s : State) : Host.Outcome State Fault Refusal :=
  .next (s.serve 0x04 fun s o => (s.halt ((o.w 3).extractLsb' 0 16)).answer o stDone)

/-- RUN (R423). -/
def execOrdRun (s : State) : Host.Outcome State Fault Refusal :=
  .next (s.serve 0x05 fun s o => (s.resume ((o.w 3).extractLsb' 0 16)).answer o stDone)

/-- CALIB (R449). -/
def execOrdCalib (s : State) : Host.Outcome State Fault Refusal := .next (s.serve 0x06 State.calibOrder)

/-- PAGE_DONE (R429). -/
def execOrdPageDone (bound : Bool) (s : State) : Host.Outcome State Fault Refusal :=
  .next (s.serve 0x07 fun s o => s.pageDone o bound)

/-- PAGE_TIMEOUT (R429). -/
def execPageTimeout (ch : Fin 32) (s : State) : Host.Outcome State Fault Refusal :=
  .next (if s.powered then s.pageTimeout ch else s)

/-- LOAD_EXT (R414): it waits while another image is loaded. -/
def execOrdLoadExt (f : Fin 64) (words : Nat) (ch : BitVec 5) (s : State) : Host.Outcome State Fault Refusal :=
  .next (if s.hods.openOrders.any fun o => o.op == 0x08 then s else s.serve 0x08 fun s o => s.loadExt o f words ch)

/-- EXT_VERIFIED (R414). -/
def execExtVerified (ok : Bool) (code : Word) (s : State) : Host.Outcome State Fault Refusal :=
  .next (if s.serving then s.extVerified ok code else s)

/-- DROP_EXT (R423). -/
def execOrdDropExt (ext : BitVec 16) (s : State) : Host.Outcome State Fault Refusal :=
  .next (s.serve 0x09 fun s o => s.dropExt o ext)

/-- OBSSEL (R552). -/
def execOrdObssel (sel : List (Fin 16 × BitVec 8)) (s : State) : Host.Outcome State Fault Refusal :=
  .next (s.serve 0x0A fun s o => s.obsOrder o sel)

/-- FLOE_SET (R423). -/
def execOrdFloeSet (f : Fin 64) (entry : Vector Word 8) (s : State) : Host.Outcome State Fault Refusal :=
  .next (s.serve 0x20 fun s o => s.floeSet o f entry)

/-- WEIGHT_PUSH (R294). -/
def execOrdWeightPush (f : Fin 64) (list : BitVec 48) (ch : BitVec 5) (s : State) : Host.Outcome State Fault Refusal :=
  .next (s.serve 0x21 (fun s o => s.weightPush o f list ch) fun s => if s.serving then s.retryPush else s)

/-- ATTN_FWD (R423). -/
def execOrdAttnFwd (streamWords : Nat) (kernel : List Hart) (s : State) : Host.Outcome State Fault Refusal :=
  .next (s.serve 0x22 (fun s o => s.startAttn o streamWords kernel) fun s => s.finishCompute 0x22)

/-- ATTN_BWD (R423): B07 over the keys, and the products of the backward pass with B00: over the keys for the gradient of the
queries, over the queries for those of the keys and the values. -/
def execOrdAttnBwd (sh : OrderShape) (s : State) : Host.Outcome State Fault Refusal :=
  .next (s.productOrder 0x23 sh false sh.outTiles
    { bonds := [0, 7], s := sh.strict, sat := sh.sat, causal := sh.causal, mask := sh.mask
      shapes := [(7, sh.n, sh.k), (0, sh.k, sh.n), (0, sh.k, foldedRows sh)] })

/-- MATMUL (R423): one product with B00, B01, B02, B08, B11 or B12. -/
def execOrdMatmul (sh : OrderShape) (bond : BitVec 4) (s : State) : Host.Outcome State Fault Refusal :=
  .next (s.productOrder 0x24 sh (!([0, 1, 2, 8, 11, 12] : List Nat).contains bond.toNat)
    (if bond = 8 then sh.outTiles else tilesOf (foldedRows sh) * tilesOf sh.n) (workOf sh [bond]))

/-- MOE_ROUTE (R423): ROUTE writes its outputs. -/
def execOrdMoeRoute (sh : OrderShape) (s : State) : Host.Outcome State Fault Refusal :=
  .next (s.vectorOrder 0x25 sh false [0x2C])

/-- MOE_COMBINE (R423): ROWB MUL, then SCATTER.X row add. -/
def execOrdMoeCombine (sh : OrderShape) (s : State) : Host.Outcome State Fault Refusal :=
  .next (s.vectorOrder 0x26 sh false [0x14, 0x1B])

/-- MASK_MAINT (R423): prune, regrow, pack, MTRANS. -/
def execOrdMaskMaint (sh : OrderShape) (s : State) : Host.Outcome State Fault Refusal :=
  .next (s.vectorOrder 0x27 sh false [0x20, 0x21, 0x22, 0x23, 0x24, 0x25])

/-- The number of engines over which a vocabulary is split is out of range (R273). -/
def splitBad (n : Nat) : Bool := n == 0 || decide (15 < n)

/-- SAMPLE (R423): B09, with B15 when the vocabulary is split. -/
def execOrdSample (sh : OrderShape) (split : Nat) (s : State) : Host.Outcome State Fault Refusal :=
  .next (s.productOrder 0x28 sh (splitBad split) (tilesOf (foldedRows sh)) (workOf sh [9, 15]))

/-- SCORE (R423): B10, with B15 when the vocabulary is split. -/
def execOrdScore (sh : OrderShape) (split : Nat) (s : State) : Host.Outcome State Fault Refusal :=
  .next (s.productOrder 0x29 sh (splitBad split) (tilesOf (foldedRows sh)) (workOf sh [10, 15]))

/-- RL_LOSS (R423): B14, with B15 when the vocabulary is split. -/
def execOrdRlLoss (sh : OrderShape) (split : Nat) (s : State) : Host.Outcome State Fault Refusal :=
  .next (s.productOrder 0x2A sh (splitBad split) (tilesOf (foldedRows sh)) (workOf sh [14, 15]))

/-- Instructions that act element by element (R145, R159 to R164). -/
def elementWise (x : XInstr) : Bool :=
  match xkindOf x with
  | some .mov | some .cvt | some (.arith _ _) | some (.maxmin _ _) | some (.sfu _) | some (.cmp _ _) => true
  | _ => false

/-- ELEMWISE (R423): up to 8 element-wise instructions. -/
def execOrdElemwise (sh : OrderShape) (ops : List XInstr) (s : State) : Host.Outcome State Fault Refusal :=
  .next (s.vectorOrder 0x2B sh (ops.isEmpty || decide (8 < ops.length) || !ops.all elementWise) (ops.map (·.op)))

/-- REDUCE (R423): reductions, row and column operations, RACC and NORM. -/
def execOrdReduce (sh : OrderShape) (s : State) : Host.Outcome State Fault Refusal :=
  .next (s.vectorOrder 0x2C sh false [0x10, 0x11, 0x12, 0x13, 0x14, 0x15, 0x16, 0x17])

/-- SORTSET (R423): SORT with MERGE, TOPK, UNIQUE, ISECT or HIST. -/
def execOrdSortset (sh : OrderShape) (s : State) : Host.Outcome State Fault Refusal :=
  .next (s.vectorOrder 0x2D sh false [0x26, 0x27, 0x28, 0x29, 0x2A, 0x2B])

/-- MOVE (R423). -/
def execOrdMove (list : BitVec 48) (ch : BitVec 5) (s : State) : Host.Outcome State Fault Refusal :=
  .next (s.serve 0x2E fun s o => s.moveOrder o list ch)

/-- WINDOW (R423). -/
def execOrdWindow (op : WindowOp) (w : Fin 64) (stage : Vector Word 4) (credit : BitVec 24) (s : State) :
    Host.Outcome State Fault Refusal :=
  .next (if op = .close && s.courseUses w then s else s.serve 0x2F fun s o => s.windowOrder o op w stage credit)

/-- EXT_CALL (R415). -/
def execOrdExtCall (ext : BitVec 16) (harts : List Hart) (tiles : List TileReg) (chans : List (Fin 32))
    (floes : List (Fin 64)) (params : Word) (s : State) : Host.Outcome State Fault Refusal :=
  .next (s.serve 0x30 (fun s o => s.extCall o ext harts tiles chans floes params) State.finishCall)

/-- FENCE (R423). -/
def execOrdFence (s : State) : Host.Outcome State Fault Refusal :=
  .next (s.serve 0x31 (fun s o => (s.openOrder o).fenceDone) fun s => if s.serving then s.fenceDone else s)

/-- ICE_READ (R423). -/
def execOrdIceRead (src : Word) (words : Nat) (dst : BitVec 48) (ch : BitVec 5) (s : State) :
    Host.Outcome State Fault Refusal := .next (s.serve 0x40 fun s o => s.iceOrder o true src words dst ch)

/-- ICE_WRITE (R423). -/
def execOrdIceWrite (dst : Word) (words : Nat) (src : BitVec 48) (ch : BitVec 5) (s : State) :
    Host.Outcome State Fault Refusal := .next (s.serve 0x41 fun s o => s.iceOrder o false dst words src ch)

/-- REG_READ (R423). -/
def execOrdRegRead (addr : Word) (s : State) : Host.Outcome State Fault Refusal :=
  .next (s.serve 0x42 fun s o => s.regRead o addr)

/-- REG_WRITE (R423). -/
def execOrdRegWrite (off : BitVec 16) (v : Word) (s : State) : Host.Outcome State Fault Refusal :=
  .next (s.serve 0x43 fun s o => s.regWrite o off v)

/-- STATUS (R423). -/
def execOrdStatus (s : State) : Host.Outcome State Fault Refusal :=
  .next (s.serve 0x44 fun s o => s.answer o stDone s.statusWords)

end Sys2Proof.Machine
end

