-- ==== Sys2Proof/Machine/Faults.lean ====
section
/-! DEFINITION. Uncorrectable faults that come from outside the accesses, the later events of the recovery (R470 to R474),
and the return of a fenced lane group (R465, R466). -/

namespace Sys2Proof.Machine

/-- The bank and array row of an uncorrectable word. -/
def State.faultRow (s : State) (r : FaultRec) : Nat × Nat :=
  let hash := if r.loc2 = 0xFFFFFFFF then false else (s.floe (r.loc2.extractLsb' 26 6).toFin).hash
  let (b, q) := s.bankLevel r.loc.toNat hash
  (b, q / 16)

/-! ## Event 4 -/

/-- The sparings that run have completed; one of the row that event 6 spares need not (R470). -/
def State.sparingsDone (s : State) : Bool :=
  s.ice.sparing.all fun q => match s.err.recovery with
    | some r => r.code == 1 && q == s.faultRow r
    | none => false

/-- The work that a recovery stops has drained: running commits, revivals and sparings have completed, channels and courses
have stopped, and no scoreboard entry is left but those of instructions (R470). -/
def State.recoveryDrained (s : State) : Bool :=
  (s.ice.sb.alloc.all fun a => match a.who with | .vector _ => true | _ => false) && s.ice.revival.isNone &&
    s.ice.commit.isNone && s.sparingsDone && ((fins 32).all fun c => !(s.chan c).stopping) && s.mortar.run.isNone && s.mortar.dropped.isEmpty &&
    s.ice.morLines.isEmpty

/-! ## Event 5: poisoning (R471) -/

/-- The window words of some ranges, each once. -/
def rangeWords (rs : List Range) : List Nat :=
  (rs.flatMap fun r => (List.range (r.hi + 1 - r.lo)).map (r.lo + ·)).eraseDups

/-- Poisons the resident ones of some window words; how many, and whether one lies in Moraine. `skip` is the physical word
that R306 has already rewritten. -/
def State.poisonWords (s : State) (skip : Option Nat) : List Nat → State × Nat × Bool
  | [] => (s, 0, false)
  | w :: r =>
    match (s.floeOf w).bind fun f => s.place f w with
    | some (.phys p h) =>
      if s.segAt p == .melted || skip == some p then s.poisonWords skip r
      else
        let (b, q) := s.bankLevel p h
        let (t, n, m) := (s.setCell (s.cellAt b q) (encodePoison (cwData (s.codewordAt b q)))).poisonWords skip r
        (t, n + 1, m)
    | some (.moraine _ _) => let (t, n, _) := s.poisonWords skip r; (t, n, true)
    | none => s.poisonWords skip r

/-- Marks a container: its slush bit is set and its data bits stay. -/
def Tile.mark (t : Tile) (i : Nat) : Tile := { t with data := sset 0 t.data i (sget 0 t.data i ||| 0x100000000) }

/-- Marks the containers of a fault record. -/
def State.markTiles (s : State) (l : List (TileReg × List Nat)) : State :=
  s.forEach l fun s q => s.forEach q.2 fun s i => s.modTile q.1 fun t => t.mark i

/-- Event 5: the words poisoned, and whether a range reached Moraine words. -/
def State.poison (s : State) (r : FaultRec) : State × Nat × Bool :=
  (s.markTiles r.marks).poisonWords (if r.code = 1 then some r.loc.toNat else none) (rangeWords r.ranges)

/-! ## Event 6 -/

/-- Takes a sparing that waits for its lock away. -/
def State.dropSparing (s : State) (bank row : Nat) : State :=
  let s := s.forEach (s.ice.sb.waiting.filter fun a => a.who == .sparing bank row) fun s a => s.release a.id
  { s with ice := { s.ice with sparing := s.ice.sparing.filter fun q => q != (bank, row) } }

/-- Event 6: the row of an ICE_UE is spared; false when its bank has no spare row left. -/
def State.spareFault (s : State) (r : FaultRec) : State × Bool :=
  let (b, row) := s.faultRow r
  if (s.freeSpare b).isNone then (s, false) else ((s.dropSparing b row).spareRow b row, true)

/-! ## Event 8 (R470, R472) -/

/-- A hart after a recovery: predicates, vector queue, summary, CE_KS_VFLAGS and CE_KS_VFAULT cleared, and only hart 0
runs, at the firmware entry. -/
def HartState.recovered (t : HartState) (first : Bool) : HartState :=
  { t with pc := if first then 0 else t.pc, mode := if first then .m else t.mode, halted := !first, wait := .run
           preds := Vector.replicate 8 0, vqueue := [], summary := 0x0400000000000000, reservation := none
           retired := t.issued
           csr := { t.csr with vflags := {}, vfCode := 0, vfOvf := false, vfV := false, vfpc := 0 } }

/-- An access that a hart has presented and that waits. -/
def Requester.ofHart : Requester → Bool
  | .vector _ | .scalar _ => true
  | _ => false

/-- Timers TMR0 to TMR2 are disabled; TMR3 is too unless live calibration has it. -/
def State.stopTimers (s : State) : State :=
  s.forEach (fins 4) fun s n =>
    if n = 3 && s.cal.on then s else s.modTimer n fun t => { t with en := false, count := s.timerCount t }

/-- Orders, calls and messages end without a reply (R473): ICONS is set to IPROD on every hod. -/
def State.dropOrders (s : State) : State :=
  let hod := s.hods.hod.map fun d => { d with icons := d.iprod }
  let outQ := s.hods.outQ.filter fun q => isReport q.2
  let s : State := { s with hods := { s.hods with hod, outQ, orders := [], openOrders := [], kills := [], killed := []
                                                  pageReqs := [], calls := [], verifying := none } }
  s.forEach (fins 32) fun s c => s.modCh c fun x => { x with order := none }

/-- Event 8: instructions are discarded, harts, leases, timers, windows and orders take their state after a recovery. -/
def State.restart (s : State) : State :=
  let s := s.forEach s.vu.inflight State.discard
  let s : State := { s with vu := { s.vu with fence := none } }
  let s := s.modSb fun sb => { sb with waiting := sb.waiting.filter fun a => !a.who.ofHart }
  let s := s.forEach s.hods.calls fun s c => s.forEach c.harts fun s h => s.modHart h fun t => { t with mode := .m }
  let s := s.forEach (fins 16) fun s h => s.modHart h fun t => t.recovered (h == 0)
  let s : State := { s with leaseQ := [], tiles := s.tiles.map fun t => { t with lease := .free } }
  let s := s.stopTimers.dropOrders
  s.forEach (fins 64) State.closeEffect

/-- Events 8 and 9: the engine is STOPPED, and firmware sends the FAULT report; SPARE_OUT follows it when event 6 found no
spare row (R474). -/
def State.endRecovery (s : State) (r : FaultRec) (poisoned : Nat) (reload moraine spared : Bool) : State :=
  let s := s.restart
  let s : State := { s with err := { s.err with stat := .stopped, recovery := none } }
  let s := s.forEach (fins 3) State.flushHod
  let s := s.sendFault (faultWords r poisoned reload moraine (!spared) s.laneShort)
  if spared then s else let (b, row) := s.faultRow r; s.spareOut b row

/-- Events 5 to 9, once the stopped work has drained; a KS_UE waits for verified firmware first (event 7). -/
def State.recover (s : State) : State :=
  match s.err.recovery with
  | none => s
  | some r =>
    if s.err.stat != .recovering || r.reload.isSome || !s.recoveryDrained then s
    else
      let (s, n, mor) := s.poison r
      let (s, spared) := if r.code = 1 then s.spareFault r else (s, true)
      let r := s.err.recovery.getD r
      if r.code = 2 then { s with err := { s.err with recovery := some { r with reload := some (n, mor) } } }
      else s.endRecovery r n false mor spared

/-! ## Event 7, and the firmware step of start-up (R482, R487) -/

/-- Words of the firmware region of the local store (R405). -/
def firmwareWords : Nat := 0x10000

/-- The security engine writes the verified firmware into its region; the rest of the region is zero. -/
def State.loadFirmware (s : State) (image : List Word) : State :=
  let s : State := { s with ks := { s.ks with store := s.ks.store.filter fun c => decide (firmwareWords ≤ c.1) } }
  s.fillLs 0 (image.take firmwareWords)

/-- Verified firmware arrives during a recovery: the local store is reloaded and every extension dropped (event 7). -/
def State.reloaded (s : State) (image : List Word) : State :=
  match s.err.recovery with
  | some r =>
    match r.reload with
    | some (n, mor) =>
      let s := s.loadFirmware image
      let s : State := { s with hods := { s.hods with exts := [] } }
      s.endRecovery r n true mor true
    | none => s
  | none => s

/-- A recovery waits for verified firmware. -/
def State.awaitsFirmware (s : State) : Bool :=
  match s.err.recovery with | some r => r.reload.isSome | none => false

/-! ## Faults from outside the accesses -/

/-- An uncorrectable fault that a check of the engine finds (R468, R470): codes 1 to 8. -/
def State.faultIn (s : State) (code : BitVec 8) (src : BitVec 4) (unit : BitVec 6) (loc loc2 : Word) : State :=
  if code = 0 || 8 < code.toNat then s else s.uncorrectable code { src, unit } loc loc2

/-! ## Lane groups (R465, R466) -/

/-- A fenced group ends its supply ramp and starts its self-test. -/
def State.laneRamp (s : State) (g : Fin 17) : State :=
  if (s.err.lanes.get g).state == .fenced then s.modLane g fun l => { l with state := .testing, tested := false } else s

/-- A group under test ends its self-test: a failing one is retired and reported. -/
def State.laneSelftest (s : State) (g : Fin 17) (pass : Bool) : State :=
  let l := s.err.lanes.get g
  if l.state != .testing || l.tested then s
  else if pass then s.modLane g fun l => { l with tested := true }
  else (s.modLane g fun l => { l with state := .retired, home := none }).fencedReport g l.logical LaneState.retired.bits

/-- A slack lies in the band (R446). -/
def inBand (slack : Nat) : Bool := decide (5 ≤ slack) && decide (slack ≤ 7)

/-- The calibration region of a lane group (R444). -/
def laneRegion (g : Fin 17) : Fin 35 := ⟨g.val, by omega⟩

/-- Some group holds a logical number. -/
def State.logicalHeld (s : State) (n : BitVec 4) : Bool :=
  (fins 17).any fun g => (s.err.lanes.get g).state == .active && (s.err.lanes.get g).logical == n

/-- A tested group joins again: as the spare, or under its former logical number when no group has taken it (R465). -/
def State.joinLane (s : State) (g : Fin 17) : State :=
  let l := s.err.lanes.get g
  match l.home.filter fun n => !s.logicalHeld n with
  | some n =>
    (s.modLane g fun l => { l with state := .active, logical := n, home := none, tested := false }).fencedReport g n
      LaneState.active.bits
  | none =>
    (s.modLane g fun l => { l with state := .spare, home := none, tested := false }).fencedReport g l.logical
      LaneState.spare.bits

/-- The measurements of a tested group's region, one a step, until one lies in the band (R465). -/
def State.laneSlacks (s : State) (g : Fin 17) : List Nat → State
  | [] => s
  | v :: r =>
    let s := s.modRegion (laneRegion g) fun x => { x with tap := tapAfter x.tap v, slack := BitVec.ofNat 6 (min 63 v), measured := some s.cycle }
    if inBand v then s.joinLane g else s.laneSlacks g r

/-- The return of a group whose self-test has passed. -/
def State.laneRejoin (s : State) (g : Fin 17) (slack : List Nat) : State :=
  let l := s.err.lanes.get g
  if l.state == .testing && l.tested then s.laneSlacks g slack else s

/-! ## The commands -/

/-- UNCORRECTABLE_FAULT (R470). -/
def execUncorrectableFault (code : BitVec 8) (src : BitVec 4) (unit : BitVec 6) (loc loc2 : Word) (s : State) :
    Host.Outcome State Fault Refusal := .next (if s.powered then s.faultIn code src unit loc loc2 else s)

/-- RECOVERY_DRAINED (R470). -/
def execRecoveryDrained (s : State) : Host.Outcome State Fault Refusal := .next (if s.powered then s.recover else s)

/-- LANE_RAMP_END (R465). -/
def execLaneRampEnd (g : Fin 17) (s : State) : Host.Outcome State Fault Refusal :=
  .next (if s.powered then s.laneRamp g else s)

/-- LANE_SELFTEST_END (R465). -/
def execLaneSelftestEnd (g : Fin 17) (pass : Bool) (s : State) : Host.Outcome State Fault Refusal :=
  .next (if s.powered then s.laneSelftest g pass else s)

/-- LANE_GROUP_REJOIN (R465). -/
def execLaneGroupRejoin (g : Fin 17) (slack : List Nat) (s : State) : Host.Outcome State Fault Refusal :=
  .next (if s.powered then s.laneRejoin g slack else s)

end Sys2Proof.Machine
end

