-- ==== Sys2Proof/Machine/Startup.lean ====
section
/-! DEFINITION. Reset and start-up: the stages of R482, the Calad record (R494 to R500), the tests and the fill of Icefield,
firmware, Keystone start, and READY (R486 to R490). -/

namespace Sys2Proof.Machine

/-! ## Reset (R293, R480) -/

/-- The segments that keep their contents: those that are permafrost, and, while the engine is unpowered, those whose rail
is held. A revival that is cut short leaves its segments melted (R458). -/
def State.keptSegs (s : State) : List (Fin 64) :=
  if s.powered then
    (fins 64).filter fun g => s.hasSeg g && s.ice.segs.get g == .permafrost && !s.ice.revival.any fun r => r.filled.contains g
  else s.railHeld

/-- The cells of some segments. -/
def State.cellsOf (s : State) (l : List (Fin 64)) : Store (BitVec 44) :=
  s.ice.cells.filter fun c => l.any fun g => s.cellInSeg g c.1

/-- The spare rows and the array rows that they stand for, as the cells hold them: the spare map's, or before the record has
been applied those of the last one (R311, R456). -/
def State.heldMap (s : State) : Store SpareEntry := if s.powered && s.boot.recordDone then s.ice.spares else s.railMap

/-- The cells of some segments, in array rows and in spare rows. -/
def State.heldCells (s : State) (l : List (Fin 64)) : Store (BitVec 44) :=
  ({ s with ice := { s.ice with spares := s.heldMap } } : State).cellsOf l

/-- The ports after reset: a connected one enters DOWN, and one that the chip does not connect is ABSENT (R371, R482). -/
def State.resetPorts (s : State) : Vector Port 4 :=
  Vector.ofFn fun p => if s.nbr.connected.getLsbD p.val then {} else { state := .absent }

/-- The reset: every register at its reset value, at stage 1. The segments that the power controller reports as retained
keep their words and come up permafrost (R293, R484). -/
def State.restartEngine (s : State) (report : List (Fin 64)) : State :=
  let kept := s.keptSegs.filter report.contains
  let t := State.resetFor s.cfg
  { t with pending := s.pending, freeCtr := s.freeCtr, railMap := s.heldMap
           ice := { t.ice with cells := s.heldCells kept
                               segs := Vector.ofFn fun g => if kept.contains g then .permafrost else .live }
           nbr := { t.nbr with connected := s.nbr.connected, ports := s.resetPorts }
           boot := { t.boot with retained := kept } }

/-! ## CRC-32 (R497) -/

/-- One bit of the CRC. -/
def crcBit (c : Word) : Word := if c.getLsbD 0 then (c >>> 1) ^^^ 0xEDB88320 else c >>> 1

/-- One byte of the CRC. -/
def crcByte (c : Word) (b : BitVec 8) : Word :=
  crcBit (crcBit (crcBit (crcBit (crcBit (crcBit (crcBit (crcBit (c ^^^ b.setWidth 32))))))))

/-- The bytes of a word, the lowest address first (R9). -/
def wordBytes (w : Word) : List (BitVec 8) := (List.range 4).map fun i => w.extractLsb' (8 * i) 8

/-- The CRC of some bytes. -/
def crc32 (bs : List (BitVec 8)) : Word := bs.foldl crcByte 0xFFFFFFFF ^^^ 0xFFFFFFFF

/-! ## The record (R494 to R499) -/

/-- A spare entry: bank, array row, spare row (R495). -/
structure RecEntry where
  bank : Nat
  row : Nat
  spare : Nat
  resv : Bool
deriving DecidableEq, Repr

/-- A record, taken apart. -/
structure Rec where
  fmt : Nat
  groups : Nat
  banks : Nat
  length : Nat
  nspare : Nat
  seq : Word
  retired : BitVec 17
  caloff : Bool
  /-- The seed bytes by region; none in format 2. -/
  seeds : List (BitVec 8)
  entries : List RecEntry
  /-- A reserved bit is set. -/
  resv : Bool

/-- The first entry word of a format. -/
def recBase (fmt : Nat) : Nat := if fmt = 2 then 8 else 17

/-- A spare entry in its word. -/
def recEntry (w : Word) : RecEntry :=
  { bank := (w.extractLsb' 0 10).toNat, row := (w.extractLsb' 10 10).toNat, spare := (w.extractLsb' 20 5).toNat
    resv := w.extractLsb' 25 7 != 0 }

/-- The record in the words of a slot. -/
def recOf (ws : List Word) : Rec :=
  let w := fun n => ws.getD n 0
  let fmt := ((w 1).extractLsb' 0 8).toNat
  let nspare := ((w 2).extractLsb' 16 16).toNat
  { fmt, groups := ((w 1).extractLsb' 8 8).toNat, banks := ((w 1).extractLsb' 16 16).toNat
    length := ((w 2).extractLsb' 0 16).toNat, nspare, seq := w 3, retired := (w 4).extractLsb' 0 17
    caloff := fmt == 3 && (w 5).getLsbD 0
    seeds := if fmt = 2 then [] else (List.range 9).flatMap fun i => wordBytes (w (8 + i))
    entries := ((ws.drop (recBase fmt)).take nspare).map recEntry
    resv := (w 4).extractLsb' 17 15 != 0 || (if fmt = 2 then w 5 != 0 else (w 5).extractLsb' 1 31 != 0) || w 6 != 0 ||
      w 7 != 0 }

/-- An entry breaks R495 for a configuration. -/
def RecEntry.bad (c : EngineConfig) (e : RecEntry) : Bool :=
  e.resv || decide (Config.banks c ≤ e.bank) || decide (Config.levels c / 16 ≤ e.row)

/-- Two entries of one bank name the same row or the same spare row. -/
def entriesClash : List RecEntry → Bool
  | [] => false
  | e :: r => (r.any fun f => e.bank == f.bank && (e.row == f.row || e.spare == f.spare)) || entriesClash r

/-- The outcome of a slot: the first check that fails (R498). -/
def checkSlot (c : EngineConfig) (slot : Option (List Word)) : SlotOutcome :=
  match slot with
  | none => .absent
  | some ws =>
    let r := recOf ws
    if ws.getD 0 0 != 0x44524C43 then .absent
    else if (r.fmt ≠ 2 && r.fmt ≠ 3) || r.length ≠ recBase r.fmt + 1 + r.nspare || 33792 < r.length then .format
    else if crc32 ((ws.take (r.length - 1)).flatMap wordBytes) != ws.getD (r.length - 1) 0 then .crc
    else if r.groups ≠ Config.groups c || r.banks ≠ Config.banks c then .mismatch
    else if r.resv || 32 * Config.banks c < r.nspare || r.entries.any (RecEntry.bad c) || entriesClash r.entries ||
        decide (2 ^ (Config.groups c + 1) ≤ r.retired.toNat) then .content
    else .valid

/-- The codes of R498. -/
def SlotOutcome.bits : SlotOutcome → Nat
  | .valid => 0
  | .absent => 1
  | .format => 2
  | .crc => 3
  | .mismatch => 4
  | .content => 5

/-- SEQ `a` is later than `b` (R498). -/
def seqLater (a b : Word) : Bool := let d := (a - b).toNat; decide (1 ≤ d) && decide (d < 2 ^ 31)

/-- The slot in use: false A, true B; none without a valid one (R498, R500). -/
def chooseSlot (sta stb : SlotOutcome) (seqA seqB : Word) : Option Bool :=
  match sta, stb with
  | .valid, .valid => some (seqLater seqB seqA)
  | .valid, _ => some false
  | _, .valid => some true
  | _, _ => none

/-! ## Stage 3: the record applied (R450, R463, R482, R496) -/

/-- The lane map when some physical groups are retired: the spare takes the number of the lowest retired group (R463). -/
def laneMap (c : EngineConfig) (retired : BitVec 17) : Vector LaneGroup 17 :=
  let n := Config.groups c
  let low := (List.range n).find? fun g => retired.getLsbD g
  Vector.ofFn fun g : Fin 17 =>
    if n < g.val || retired.getLsbD g.val then { state := .retired, logical := BitVec.ofNat 4 g.val }
    else if g.val < n then { logical := BitVec.ofNat 4 g.val }
    else match low with
      | some l => { state := .active, logical := BitVec.ofNat 4 l }
      | none => { state := .spare }

/-- The tap setting of a region from its seed byte: a byte above 63 is no seed (R450, R496). -/
def seedTap (b : BitVec 8) : BitVec 6 := if b.toNat ≤ 63 then b.setWidth 6 else 20

/-- Applies a valid record. -/
def State.applyRecord (s : State) (r : Rec) : State :=
  let s := s.forEach r.entries fun s e => s.setSpare e.bank e.spare { row := BitVec.ofNat 10 e.row, used := true }
  let regions := Vector.ofFn fun g : Fin 35 => ({ tap := seedTap (r.seeds.getD g.val 0xFF) } : Region)
  { s with err := { s.err with lanes := laneMap s.cfg r.retired }, cal := { s.cal with regions }
           boot := { s.boot with rfmt := BitVec.ofNat 8 r.fmt, seq := r.seq, caloff := r.caloff, retired := r.retired } }

/-- Stages 2 and 3: the slots arrive, one is chosen and applied, and the frost monitor starts. -/
def State.recordRead (s : State) (a b : Option (List Word)) : State :=
  if s.boot.recordDone then s
  else
    let sta := checkSlot s.cfg a
    let stb := checkSlot s.cfg b
    let ra := recOf (a.getD [])
    let rb := recOf (b.getD [])
    let s := { s with boot := { s.boot with recordDone := true, stage := 3, sta, stb } }
    let s := match chooseSlot sta stb ra.seq rb.seq with
      | some useB => ({ s with boot := { s.boot with slotB := useB } }).applyRecord (if useB then rb else ra)
      | none => { s with boot := { s.boot with defaults := true } }
    s.calOn

/-! ## Stages 4 to 6 -/

/-- The stage reached: the highest that has begun. -/
def State.reach (s : State) (n : BitVec 4) : State :=
  { s with boot := { s.boot with stage := if s.boot.stage.toNat < n.toNat then n else s.boot.stage } }

/-- Stage 4a ends: every word of the local store is zero, and stage 7 begins. -/
def State.localFilled (s : State) : State :=
  if !s.boot.recordDone || s.boot.storeFilled then s
  else
    ({ s with ks := { s.ks with store := [] }, boot := { s.boot with storeFilled := true } } : State).reach 7

/-- A group that fails stage 4b is retired, and a healthy spare takes its logical number (R463, R486). -/
def State.retireLane (s : State) (g : Fin 17) : State :=
  let l := s.err.lanes.get g
  let s := s.modLane g fun x => { x with state := .retired }
  let s := { s with boot := { s.boot with retired := s.boot.retired ||| BitVec.ofNat 17 (2 ^ g.val) } }
  let s := match (if l.state == .active then s.readySpare else none) with
    | some sp => s.modLane sp fun x => { x with state := .active, logical := l.logical }
    | none => s
  s.fencedReport g l.logical LaneState.retired.bits

/-- Stage 4b ends. The failing spare is retired first, so that it replaces no other group. -/
def State.lanesTested (s : State) (failed : List (Fin 17)) : State :=
  if !s.boot.recordDone || s.boot.lanesTested || s.boot.fwref then s
  else
    let bad := (fins 17).filter fun g => failed.contains g && s.hasLane g && (s.err.lanes.get g).state != .retired
    let spare := fun (g : Fin 17) => (s.err.lanes.get g).state == .spare
    let s' := s.forEach (bad.filter spare ++ bad.filter fun g => !spare g) State.retireLane
    ({ s' with boot := { s'.boot with lanesTested := true, laneShort := s'.laneShort } } : State).reach 4

/-- Spares the failing rows before the fill: each one spared is counted and reported, and a row without a spare row leaves
its segment melted (R485). -/
def State.spareRows (s : State) : List (Nat × Nat) → State
  | [] => s
  | (bank, row) :: r =>
    match s.spareBlank bank row with
    | some (t, n) =>
      let t := { t with boot := { t.boot with newSpare := min 65535 (t.boot.newSpare + 1) } }
      (t.spareReport bank row n).spareRows r
    | none => ((s.setSeg (segOfLevel s.cfg (16 * row)) .melted).spareOut bank row).spareRows r

/-- An array row of a segment that start-up tests. -/
def State.testedRow (s : State) (q : Nat × Nat) : Bool :=
  decide (q.1 < Config.banks s.cfg) && decide (q.2 < Config.levels s.cfg / 16) &&
    !s.boot.retained.contains (segOfLevel s.cfg (16 * q.2))

/-- A spare array row that start-up tests: it serves no retained segment (R484). -/
def State.testedSpare (s : State) (q : Nat × Nat) : Bool :=
  let e := s.spare q.1 q.2
  decide (q.1 < Config.banks s.cfg) && decide (q.2 < Config.spareRows) &&
    (!e.used || s.testedRow (q.1, e.row.toNat))

/-- Stages 4c and 5 end (R484, R485). -/
def State.fieldTested (s : State) (failed bad : List (Nat × Nat)) : State :=
  if !s.boot.recordDone || s.boot.iceTested || s.boot.fwref then s
  else
    let (s, moved) := s.badSpares (bad.filter s.testedSpare)
    let rows := (moved ++ failed.filter fun q => s.testedRow q && (s.sparedBy q.1 q.2).isNone).eraseDups
    let s := s.spareRows rows
    let melted := (fins 64).filter fun g => s.hasSeg g && s.ice.segs.get g == .melted
    ({ s with boot := { s.boot with iceTested := true, meltSeg := melted.length } } : State).reach 6

/-- Stage 6 ends: every tested level is zero; retained segments keep their words. -/
def State.fieldFilled (s : State) : State :=
  if !s.boot.iceTested || s.boot.iceFilled || s.boot.fwref then s
  else
    { s with ice := { s.ice with cells := s.cellsOf s.boot.retained }, boot := { s.boot with iceFilled := true } }

/-! ## Stages 7 and 8 -/

/-- The security engine's image is awaited at stage 7. -/
def State.stage7 (s : State) : Bool :=
  s.boot.storeFilled && !s.boot.fwDelivered && !s.boot.keystoneStarted

/-- Verified firmware arrives: at stage 7, which a KS_UE before it has run twice (R492), or in event 7 of a recovery (R470,
R482). -/
def State.firmware (s : State) (image : List Word) : State :=
  if s.boot.fwref then s
  else if s.awaitsFirmware then s.reloaded image
  else if s.stage7 then
    let s := s.loadFirmware image
    { s with boot := { s.boot with fwDelivered := !s.boot.fwTwice, fwTwice := false } }
  else s

/-- The security engine refuses the image: FW_REFUSED in place of READY, and start-up ends there (R487). -/
def State.fwRefused (s : State) (code : Word) : State :=
  if s.boot.fwref || !(s.awaitsFirmware || s.stage7) then s
  else ({ s with boot := { s.boot with fwref := true } } : State).reportNow 0xC1 [code]

/-- Keystone starts: hart 0 runs at address 0 (R482). -/
def State.keystoneStart (s : State) : State :=
  if s.boot.lanesTested && s.boot.iceFilled && s.boot.fwDelivered && !s.boot.keystoneStarted then
    let s := { s with boot := { s.boot with keystoneStarted := true, stage := 8 } }
    s.modHart 0 fun t => { t with pc := 0, mode := .m, halted := false }
  else s

/-! ## Stages 9 and 10 (R486 to R490) -/

/-- The highest hod protocol version that the engine enables. -/
def topVersion (en : BitVec 2) : BitVec 4 := if en.getLsbD 1 then 2 else if en.getLsbD 0 then 1 else 0

/-- Words 3 to 10 of READY (R490). -/
def State.readyWords (s : State) : List Word :=
  let b := s.boot
  let ports : Nat → PortState → List (Nat × Nat × Nat) := fun lo st =>
    (fins 4).map fun p => (lo + p.val, 1, bitN ((s.port p).state == st))
  [s.cfg0, s.cfg1,
   packW [(0, 8, b.rfmt.toNat), (8, 8, 3), (16, 4, b.sta.bits), (20, 4, b.stb.bits), (24, 1, bitN b.slotB),
     (25, 1, bitN b.defaults), (26, 1, bitN b.laneShort), (27, 1, bitN b.caloff),
     (28, 1, bitN (b.defaults && !b.retained.isEmpty))],
   b.seq, packW [(0, 16, b.newSpare), (16, 16, b.meltSeg)], b.retired.setWidth 32,
   BitVec.ofNat 32 (s.nanos.toNat / 1000),
   packW (ports 0 .up ++ ports 4 .novers)]

/-- No port is in TEST or NEGOTIATING (R482, R488). -/
def State.portsSettled (s : State) : Bool :=
  (fins 4).all fun p => (s.port p).state != .test && (s.port p).state != .negotiating

/-- READY: the report, the reports held, and the end of a start-up that met a fault or lacks lane groups (R486, R489,
R492, R496). -/
def State.becomeReady (s : State) : State :=
  let held := s.boot.held
  let early := s.boot.earlyFault
  let s : State := { s with boot := { s.boot with stage := 10, ready := true, held := [], earlyFault := none } }
  let s := s.reportPver (topVersion (s.hods.hod.get 0).versEn) 0xC0 s.readyWords
  let s := s.forEach held fun s q => s.reportNow q.1 q.2
  let s := if s.boot.caloff then s.calOff else s
  let s := if s.boot.laneShort || early.isSome then { s with err := { s.err with stat := .stopped } } else s
  match early with
  | some r => s.sendFault (faultWords r 0 s.boot.fwAgain false false s.laneShort)
  | none => s

/-- The neighbour wait ends when every port has settled, or after 20 µs; READY follows, after a recovery that is under way
(R488, R492). -/
def State.neighbourWaitEnd (s : State) (timeout : Bool) : State :=
  if s.boot.stage = 9 && !s.boot.ready && s.err.stat != .recovering && (timeout || s.portsSettled) then s.becomeReady else s

/-! ## The commands -/

/-- RESET (R480), with the power controller's list of the segments retained (R30, R484): also when the engine is unpowered. -/
def execReset (retained : List (Fin 64)) (s : State) : Host.Outcome State Fault Refusal := .next (s.restartEngine retained)

/-- RECORD_READ (R482, R498). -/
def execRecordRead (slotA slotB : Option (List Word)) (s : State) : Host.Outcome State Fault Refusal :=
  .next (if s.powered then s.recordRead slotA slotB else s)

/-- RECORD_TIMEOUT (R492): a slot that was not read is absent. -/
def execRecordTimeout (slotA slotB : Option (List Word)) (s : State) : Host.Outcome State Fault Refusal :=
  .next (if s.powered then s.recordRead slotA slotB else s)

/-- LOCAL_STORE_FILL_END (R482). -/
def execLocalStoreFillEnd (s : State) : Host.Outcome State Fault Refusal := .next (if s.powered then s.localFilled else s)

/-- STARTUP_LANE_TEST_END (R486). -/
def execStartupLaneTestEnd (failed : List (Fin 17)) (s : State) : Host.Outcome State Fault Refusal :=
  .next (if s.powered then s.lanesTested failed else s)

/-- ICEFIELD_SELFTEST_END (R484, R485). -/
def execIcefieldSelftestEnd (failed badSpares : List (Nat × Nat)) (s : State) : Host.Outcome State Fault Refusal :=
  .next (if s.powered then s.fieldTested failed badSpares else s)

/-- ICEFIELD_FILL_END (R482). -/
def execIcefieldFillEnd (s : State) : Host.Outcome State Fault Refusal := .next (if s.powered then s.fieldFilled else s)

/-- FIRMWARE_DELIVERED (R482). -/
def execFirmwareDelivered (image : List Word) (s : State) : Host.Outcome State Fault Refusal :=
  .next (if s.powered then s.firmware image else s)

/-- FW_REFUSED (R487). -/
def execFwRefused (code : Word) (s : State) : Host.Outcome State Fault Refusal :=
  .next (if s.powered then s.fwRefused code else s)

/-- KEYSTONE_START (R482). -/
def execKeystoneStart (s : State) : Host.Outcome State Fault Refusal := .next (if s.powered then s.keystoneStart else s)

/-- NEIGHBOUR_WAIT_END (R488). -/
def execNeighbourWaitEnd (timeout : Bool) (s : State) : Host.Outcome State Fault Refusal :=
  .next (if s.powered then s.neighbourWaitEnd timeout else s)

end Sys2Proof.Machine
end

