-- ==== Sys2Proof/Machine/Rv32.lean ====
section
/-! DEFINITION. The RV32IMAC and Zicsr parts of a hart that need no access to memory: the expansion of compressed
instructions, arithmetic, PMP checks (R400), and the machine-mode CSRs (R398, R399, R406 to R408). The encodings and the
layouts of the privileged architecture come from the RISC-V standard that R398 to R400 name (log entry 4). -/

namespace Sys2Proof.Machine

/-! ## Encodings -/

/-- A field of an instruction word. -/
def ifield (w : Word) (lo n : Nat) : Nat := (w.extractLsb' lo n).toNat

/-- rd. -/
def iRd (w : Word) : BitVec 5 := w.extractLsb' 7 5
/-- rs1. -/
def iRs1 (w : Word) : BitVec 5 := w.extractLsb' 15 5
/-- rs2. -/
def iRs2 (w : Word) : BitVec 5 := w.extractLsb' 20 5
/-- funct3. -/
def iF3 (w : Word) : Nat := ifield w 12 3
/-- funct7. -/
def iF7 (w : Word) : Nat := ifield w 25 7

/-- The I-type immediate. -/
def immI (w : Word) : Word := (w.extractLsb' 20 12).signExtend 32
/-- The S-type immediate. -/
def immS (w : Word) : Word := (w.extractLsb' 25 7 ++ w.extractLsb' 7 5).signExtend 32
/-- The B-type immediate. -/
def immB (w : Word) : Word :=
  (w.extractLsb' 31 1 ++ w.extractLsb' 7 1 ++ w.extractLsb' 25 6 ++ w.extractLsb' 8 4 ++ (0 : BitVec 1)).signExtend 32
/-- The U-type immediate. -/
def immU (w : Word) : Word := w &&& 0xFFFFF000
/-- The J-type immediate. -/
def immJ (w : Word) : Word :=
  (w.extractLsb' 31 1 ++ w.extractLsb' 12 8 ++ w.extractLsb' 20 1 ++ w.extractLsb' 21 10 ++ (0 : BitVec 1)).signExtend 32

/-- An R-type word. -/
def encR (f7 : BitVec 7) (rs2 rs1 : BitVec 5) (f3 : BitVec 3) (rd : BitVec 5) (op : BitVec 7) : Word :=
  f7 ++ rs2 ++ rs1 ++ f3 ++ rd ++ op
/-- An I-type word. -/
def encI (imm : BitVec 12) (rs1 : BitVec 5) (f3 : BitVec 3) (rd : BitVec 5) (op : BitVec 7) : Word :=
  imm ++ rs1 ++ f3 ++ rd ++ op
/-- An S-type word. -/
def encS (imm : BitVec 12) (rs2 rs1 : BitVec 5) (f3 : BitVec 3) (op : BitVec 7) : Word :=
  imm.extractLsb' 5 7 ++ rs2 ++ rs1 ++ f3 ++ imm.extractLsb' 0 5 ++ op
/-- A B-type word from the 13-bit offset. -/
def encB (imm : BitVec 13) (rs2 rs1 : BitVec 5) (f3 : BitVec 3) : Word :=
  imm.extractLsb' 12 1 ++ imm.extractLsb' 5 6 ++ rs2 ++ rs1 ++ f3 ++ imm.extractLsb' 1 4 ++ imm.extractLsb' 11 1 ++
    (0x63 : BitVec 7)
/-- A J-type word from the 21-bit offset. -/
def encJ (imm : BitVec 21) (rd : BitVec 5) : Word :=
  imm.extractLsb' 20 1 ++ imm.extractLsb' 1 10 ++ imm.extractLsb' 11 1 ++ imm.extractLsb' 12 8 ++ rd ++ (0x6F : BitVec 7)

/-- A register of the short form of a compressed instruction. -/
def cReg (r : BitVec 3) : BitVec 5 := (1 : BitVec 2) ++ r

/-- The 6-bit immediate of a compressed instruction. -/
def cImm6 (c : BitVec 16) : BitVec 6 := c.extractLsb' 12 1 ++ c.extractLsb' 2 5

/-- The jump offset of C.J and C.JAL. -/
def cJump (c : BitVec 16) : BitVec 12 :=
  c.extractLsb' 12 1 ++ c.extractLsb' 8 1 ++ c.extractLsb' 9 2 ++ c.extractLsb' 6 1 ++ c.extractLsb' 7 1 ++
    c.extractLsb' 2 1 ++ c.extractLsb' 11 1 ++ c.extractLsb' 3 3 ++ (0 : BitVec 1)

/-- The branch offset of C.BEQZ and C.BNEZ. -/
def cBranch (c : BitVec 16) : BitVec 9 :=
  c.extractLsb' 12 1 ++ c.extractLsb' 5 2 ++ c.extractLsb' 2 1 ++ c.extractLsb' 10 2 ++ c.extractLsb' 3 2 ++ (0 : BitVec 1)

/-- Quadrant 0. -/
def expand0 (c : BitVec 16) : Option Word :=
  let rd := cReg (c.extractLsb' 2 3)
  let rs := cReg (c.extractLsb' 7 3)
  let lw : BitVec 12 := ((c.extractLsb' 5 1 ++ c.extractLsb' 10 3 ++ c.extractLsb' 6 1 ++ (0 : BitVec 2)) : BitVec 7).setWidth 12
  match (c.extractLsb' 13 3).toNat with
  | 0 =>
    let imm : BitVec 10 := c.extractLsb' 7 4 ++ c.extractLsb' 11 2 ++ c.extractLsb' 5 1 ++ c.extractLsb' 6 1 ++ (0 : BitVec 2)
    if imm = 0 then none else some (encI (imm.setWidth 12) 2 0 rd 0x13)
  | 2 => some (encI lw rs 2 rd 0x03)
  | 6 => some (encS lw rd rs 2 0x23)
  | _ => none

/-- Quadrant 1. -/
def expand1 (c : BitVec 16) : Option Word :=
  let rd : BitVec 5 := c.extractLsb' 7 5
  let imm := cImm6 c
  let rs := cReg (c.extractLsb' 7 3)
  let rt := cReg (c.extractLsb' 2 3)
  match (c.extractLsb' 13 3).toNat with
  | 0 => some (encI (imm.signExtend 12) rd 0 rd 0x13)
  | 1 => some (encJ ((cJump c).signExtend 21) 1)
  | 2 => some (encI (imm.signExtend 12) 0 0 rd 0x13)
  | 3 =>
    if rd = 2 then
      let sp : BitVec 10 :=
        c.extractLsb' 12 1 ++ c.extractLsb' 3 2 ++ c.extractLsb' 5 1 ++ c.extractLsb' 2 1 ++ c.extractLsb' 6 1 ++ (0 : BitVec 4)
      if sp = 0 then none else some (encI (sp.signExtend 12) 2 0 2 0x13)
    else if imm = 0 then none
    else some ((imm.signExtend 20) ++ rd ++ (0x37 : BitVec 7))
  | 4 =>
    match (c.extractLsb' 10 2).toNat with
    | 0 => if imm.getLsbD 5 then none else some (encI (imm.setWidth 12) rs 5 rs 0x13)
    | 1 => if imm.getLsbD 5 then none else some (encI (imm.setWidth 12 ||| 0x400) rs 5 rs 0x13)
    | 2 => some (encI (imm.signExtend 12) rs 7 rs 0x13)
    | _ =>
      if c.getLsbD 12 then none
      else match (c.extractLsb' 5 2).toNat with
        | 0 => some (encR 0x20 rt rs 0 rs 0x33)
        | 1 => some (encR 0 rt rs 4 rs 0x33)
        | 2 => some (encR 0 rt rs 6 rs 0x33)
        | _ => some (encR 0 rt rs 7 rs 0x33)
  | 5 => some (encJ ((cJump c).signExtend 21) 0)
  | 6 => some (encB ((cBranch c).signExtend 13) 0 rs 0)
  | _ => some (encB ((cBranch c).signExtend 13) 0 rs 1)

/-- Quadrant 2. -/
def expand2 (c : BitVec 16) : Option Word :=
  let rd : BitVec 5 := c.extractLsb' 7 5
  let rt : BitVec 5 := c.extractLsb' 2 5
  match (c.extractLsb' 13 3).toNat with
  | 0 => if c.getLsbD 12 then none else some (encI ((cImm6 c).setWidth 12) rd 1 rd 0x13)
  | 2 =>
    let imm : BitVec 8 := c.extractLsb' 2 2 ++ c.extractLsb' 12 1 ++ c.extractLsb' 4 3 ++ (0 : BitVec 2)
    if rd = 0 then none else some (encI (imm.setWidth 12) 2 2 rd 0x03)
  | 4 =>
    if c.getLsbD 12 then
      if rt = 0 then (if rd = 0 then some 0x00100073 else some (encI 0 rd 0 1 0x67)) else some (encR 0 rt rd 0 rd 0x33)
    else if rt = 0 then (if rd = 0 then none else some (encI 0 rd 0 0 0x67))
    else some (encR 0 rt 0 0 rd 0x33)
  | 6 =>
    let imm : BitVec 8 := c.extractLsb' 7 2 ++ c.extractLsb' 9 4 ++ (0 : BitVec 2)
    some (encS (imm.setWidth 12) rt 2 2 0x23)
  | _ => none

/-- The 32-bit instruction that a compressed one stands for; none for a reserved or absent one. -/
def expandC (c : BitVec 16) : Option Word :=
  match (c.extractLsb' 0 2).toNat with
  | 0 => expand0 c
  | 1 => expand1 c
  | 2 => expand2 c
  | _ => none

/-- An Xcalad instruction in its two words (R116). -/
def XInstr.ofWords (lo hi : Word) : XInstr :=
  let w : BitVec 64 := hi ++ lo
  { op := w.extractLsb' 7 6, fn := w.extractLsb' 13 3
    a := { grp := w.extractLsb' 16 2, s := w.getLsbD 18, sat := w.getLsbD 19, fmta := w.extractLsb' 20 4
           fmtd := w.extractLsb' 24 4, bx := w.getLsbD 28, td := w.extractLsb' 29 6, ta := w.extractLsb' 35 6
           tb := w.extractLsb' 41 6, count := w.extractLsb' 47 14, pred := w.extractLsb' 61 3 } }

/-! ## Arithmetic -/

/-- The operations of OP and OP-IMM by funct3; `alt` selects SUB and SRA. -/
def aluOp (f3 : Nat) (alt : Bool) (a b : Word) : Word :=
  let sh := b.toNat % 32
  match f3 with
  | 0 => if alt then a - b else a + b
  | 1 => a <<< sh
  | 2 => if a.slt b then 1 else 0
  | 3 => if a.ult b then 1 else 0
  | 4 => a ^^^ b
  | 5 => if alt then a.sshiftRight sh else a >>> sh
  | 6 => a ||| b
  | _ => a &&& b

/-- The operations of the M extension by funct3: a division by zero and the one overflow give what the standard fixes. -/
def mulOp (f3 : Nat) (a b : Word) : Word :=
  let hi := fun (x : Int) => BitVec.ofInt 32 (x / 2 ^ 32)
  match f3 with
  | 0 => a * b
  | 1 => hi (a.toInt * b.toInt)
  | 2 => hi (a.toInt * b.toNat)
  | 3 => hi (a.toNat * b.toNat)
  | 4 => if b = 0 then 0xFFFFFFFF else a.sdiv b
  | 5 => if b = 0 then 0xFFFFFFFF else a.udiv b
  | 6 => if b = 0 then a else a.srem b
  | _ => if b = 0 then a else a.umod b

/-- A branch condition by funct3; none for a reserved one. -/
def branchTaken (f3 : Nat) (a b : Word) : Option Bool :=
  match f3 with
  | 0 => some (a == b)
  | 1 => some (a != b)
  | 4 => some (a.slt b)
  | 5 => some (!a.slt b)
  | 6 => some (a.ult b)
  | 7 => some (!a.ult b)
  | _ => none

/-- The operations of the A extension by funct5; none for LR, SC and reserved ones. -/
def amoOp (f5 : Nat) (a b : Word) : Option Word :=
  match f5 with
  | 0x01 => some b
  | 0x00 => some (a + b)
  | 0x04 => some (a ^^^ b)
  | 0x0C => some (a &&& b)
  | 0x08 => some (a ||| b)
  | 0x10 => some (if a.slt b then a else b)
  | 0x14 => some (if a.slt b then b else a)
  | 0x18 => some (if a.ult b then a else b)
  | 0x1C => some (if a.ult b then b else a)
  | _ => none

/-- The load of a funct3. -/
def loadOp (f3 : Nat) : Option LoadOp :=
  match f3 with
  | 0 => some .lb
  | 1 => some .lh
  | 2 => some .lw
  | 4 => some .lbu
  | 5 => some .lhu
  | _ => none

/-- The store of a funct3. -/
def storeOp (f3 : Nat) : Option StoreOp :=
  match f3 with
  | 0 => some .sb
  | 1 => some .sh
  | 2 => some .sw
  | _ => none

/-- The bytes of a load. -/
def loadSize : LoadOp → Nat
  | .lb | .lbu => 1
  | .lh | .lhu => 2
  | .lw => 4

/-- The bytes of a store. -/
def storeSize : StoreOp → Nat
  | .sb => 1
  | .sh => 2
  | .sw => 4

/-- The value of a load from the word that holds it, at a byte of the word. -/
def loadValue (op : LoadOp) (w : Word) (byte : Nat) : Word :=
  let v := w >>> (8 * byte)
  match op with
  | .lb => (v.extractLsb' 0 8).signExtend 32
  | .lh => (v.extractLsb' 0 16).signExtend 32
  | .lw => v
  | .lbu => (v.extractLsb' 0 8).setWidth 32
  | .lhu => (v.extractLsb' 0 16).setWidth 32

/-- The bytes of its word that a store writes, at a byte of the word. -/
def storeMask (op : StoreOp) (byte : Nat) : BitVec 4 := BitVec.ofNat 4 ((2 ^ storeSize op - 1) * 2 ^ byte)

/-! ## PMP (R400) -/

/-- The ones at the low end of a number. -/
def trailingOnes : Nat → Nat → Nat
  | 0, _ => 0
  | n + 1, a => if a % 2 = 1 then trailingOnes n (a / 2) + 1 else 0

/-- The bytes that a PMP entry covers, from the first to the one past the last; none when it is off. -/
def TrapCsrs.pmpSpan (t : TrapCsrs) (i : Fin 8) : Option (Nat × Nat) :=
  let a := (t.pmpaddr.get i).toNat
  match ((t.pmpcfg.get i).extractLsb' 3 2).toNat with
  | 0 => none
  | 1 => some (if h : i.val = 0 then 0 else 4 * (t.pmpaddr.get ⟨i.val - 1, by omega⟩).toNat, 4 * a)
  | 2 => some (4 * a, 4 * a + 4)
  | _ =>
    let k := trailingOnes 32 a
    let size := 2 ^ (k + 3)
    some (4 * a / size * size, 4 * a / size * size + size)

/-- A mode may access some bytes: `perm` is 0 to read, 1 to write, 2 to fetch. The lowest entry that matches any of them
decides; machine mode is bound by locked entries only. -/
def TrapCsrs.pmpAllows (t : TrapCsrs) (mode : Mode) (addr size perm : Nat) : Bool :=
  let hit := (fins 8).findSome? fun i =>
    match t.pmpSpan i with
    | some (lo, hi) => if addr < hi && lo < addr + size then some (t.pmpcfg.get i, decide (lo ≤ addr) && decide (addr + size ≤ hi))
      else none
    | none => none
  match hit with
  | none => mode == .m
  | some (cfg, whole) => whole && (cfg.getLsbD perm || (mode == .m && !cfg.getLsbD 7))

/-- The mode that loads and stores act in (MPRV of the privileged architecture). -/
def HartState.dataMode (t : HartState) : Mode := if t.mode == .m && t.trap.mprv then t.trap.mpp else t.mode

/-! ## CSRs (R398, R399, R406, R408) -/

/-- A mode in its MPP field. -/
def Mode.bits : Mode → Nat
  | .m => 3
  | .u => 0

/-- A PMP configuration word. -/
def TrapCsrs.pmpcfgWord (t : TrapCsrs) (k : Nat) : Word :=
  packW ((List.range 4).map fun i => (8 * i, 8, (t.pmpcfg.get (BitVec.ofNat 3 (4 * k + i)).toFin).toNat))

/-- mstatus. -/
def TrapCsrs.mstatus (t : TrapCsrs) : Word :=
  packW [(3, 1, bitN t.mie), (7, 1, bitN t.mpie), (11, 2, t.mpp.bits), (17, 1, bitN t.mprv)]

/-- A CSR that reads zero and ignores writes: what R399 does not implement, identification that the spec gives no value,
and the counters and PMP entries that the engine lacks. -/
def csrZero (n : Nat) : Bool :=
  n = 0x302 || n = 0x303 || n = 0x30A || n = 0x310 || n = 0x31A || n = 0x320 || n = 0x3A2 || n = 0x3A3 ||
    (decide (0x3B8 ≤ n) && decide (n ≤ 0x3BF)) || (decide (0x323 ≤ n) && decide (n ≤ 0x33F)) ||
    (decide (0xB03 ≤ n) && decide (n ≤ 0xB1F)) || (decide (0xB83 ≤ n) && decide (n ≤ 0xB9F)) ||
    (decide (0xC03 ≤ n) && decide (n ≤ 0xC1F)) || (decide (0xC83 ≤ n) && decide (n ≤ 0xC9F)) ||
    (decide (0xF11 ≤ n) && decide (n ≤ 0xF13)) || n = 0xF15

/-- Reads a CSR of a hart; none for a number that is none. -/
def State.readCsr (s : State) (h : Hart) (num : BitVec 12) : Option Word :=
  let t := (s.hart h).trap
  let n := num.toNat
  match s.engineCsr h num with
  | some v => some v
  | none =>
    if csrZero n then some 0
    else if 0x3B0 ≤ n ∧ n ≤ 0x3B7 then some (t.pmpaddr.get (BitVec.ofNat 3 n).toFin)
    else match n with
      | 0x300 => some t.mstatus
      | 0x301 => some 0x40901105
      | 0x304 => some t.mieReg
      | 0x305 => some t.mtvec
      | 0x306 => some t.mcounteren
      | 0x340 => some t.mscratch
      | 0x341 => some t.mepc
      | 0x342 => some t.mcause
      | 0x343 => some t.mtval
      | 0x344 => some (packW [(16, 1, bitN (s.hart h).csr.vfV)])
      | 0x3A0 => some (t.pmpcfgWord 0)
      | 0x3A1 => some (t.pmpcfgWord 1)
      | 0xB00 | 0xC00 => some (BitVec.ofNat 32 s.cycle)
      | 0xB80 | 0xC80 => some (BitVec.ofNat 32 (s.cycle / 2 ^ 32))
      | 0xC01 => some (s.nanos.extractLsb' 0 32)
      | 0xC81 => some (s.nanos.extractLsb' 32 32)
      | 0xB02 | 0xC02 => some ((s.hart h).instret.extractLsb' 0 32)
      | 0xB82 | 0xC82 => some ((s.hart h).instret.extractLsb' 32 32)
      | 0xF14 => some (BitVec.ofNat 32 h.val)
      | _ => none

/-- User-mode code may not read a counter that mcounteren does not open (R408). -/
def HartState.counterShut (t : HartState) (num : BitVec 12) : Bool :=
  let n := num.toNat
  t.mode == .u && ((decide (0xC00 ≤ n) && decide (n ≤ 0xC1F)) || (decide (0xC80 ≤ n) && decide (n ≤ 0xC9F))) &&
    !t.trap.mcounteren.getLsbD (n % 32)

/-- A PMP address register that writes do not reach: its entry is locked, or the next one is and takes it as its bottom.
-/
def TrapCsrs.pmpFixed (t : TrapCsrs) (i : Fin 8) : Bool :=
  (t.pmpcfg.get i).getLsbD 7 ||
    (if h : i.val + 1 < 8 then
      (t.pmpcfg.get ⟨i.val + 1, h⟩).getLsbD 7 && (t.pmpcfg.get ⟨i.val + 1, h⟩).extractLsb' 3 2 == 1
    else false)

/-- Writes a PMP configuration word: locked entries stay, and W without R is not kept. -/
def TrapCsrs.writePmpcfg (t : TrapCsrs) (k : Nat) (v : Word) : TrapCsrs :=
  let one := fun (c : Vector (BitVec 8) 8) (i : Nat) =>
    let e : Fin 8 := (BitVec.ofNat 3 (4 * k + i)).toFin
    let b : BitVec 8 := v.extractLsb' (8 * i) 8 &&& 0x9F
    let b := if b.getLsbD 1 && !b.getLsbD 0 then b &&& 0xFD else b
    if (c.get e).getLsbD 7 then c else vset c e b
  { t with pmpcfg := (List.range 4).foldl one t.pmpcfg }

/-- Writes a machine-mode CSR; the others are read-only. -/
def TrapCsrs.write (t : TrapCsrs) (num : BitVec 12) (v : Word) : TrapCsrs :=
  let n := num.toNat
  if 0x3B0 ≤ n ∧ n ≤ 0x3B7 then
    let i : Fin 8 := (BitVec.ofNat 3 n).toFin
    if t.pmpFixed i then t else { t with pmpaddr := vset t.pmpaddr i v }
  else match n with
    | 0x300 =>
      { t with mie := v.getLsbD 3, mpie := v.getLsbD 7, mprv := v.getLsbD 17
               mpp := if v.extractLsb' 11 2 = 3 then .m else if v.extractLsb' 11 2 = 0 then .u else t.mpp }
    | 0x304 => { t with mieReg := v &&& 0x00010000 }
    | 0x305 => { t with mtvec := v &&& 0xFFFFFFFD }
    | 0x306 => { t with mcounteren := v &&& 7 }
    | 0x340 => { t with mscratch := v }
    | 0x341 => { t with mepc := v &&& 0xFFFFFFFE }
    | 0x342 => { t with mcause := v }
    | 0x343 => { t with mtval := v }
    | 0x3A0 => t.writePmpcfg 0 v
    | 0x3A1 => t.writePmpcfg 1 v
    | _ => t

/-- Writes a CSR of a hart. A write of minstret gives the count that the next instruction reads. -/
def HartState.writeCsr (t : HartState) (num : BitVec 12) (v met : Word) : HartState :=
  let t := { t with csr := t.csr.write num v met, trap := t.trap.write num v }
  match num.toNat with
  | 0xB02 => { t with instret := (t.instret.extractLsb' 32 32 ++ v) - 1 }
  | 0xB82 => { t with instret := (v ++ t.instret.extractLsb' 0 32) - 1 }
  | _ => t

/-- A CSR whose read waits for the hart's earlier Xcalad instructions (R129, R194, R548). -/
def csrWaits (num : BitVec 12) : Bool :=
  let n := (csrAlias num).toNat
  n = 0xCC0 || n = 0xCC1 || n = 0x8C5 || n = 0xCC7

end Sys2Proof.Machine
end

