-- ==== Sys2Proof/Machine/Keystone.lean ====
section
/-! DEFINITION. What a hart does with an instruction: fetch, loads and stores by the address map (R401 to R404), the scalar
accesses of the Icefield window (R137, R308, R402), atomics, CSR access, traps and the return from one, ECALL of an
extension (R416), and the event wait (R412). -/

namespace Sys2Proof.Machine

/-! ## Common steps -/

/-- An instruction of some bytes ends: `f` gives its result, the pc goes past it, and it counts in instret (R408). -/
def State.done (s : State) (h : Hart) (len : Nat) (f : HartState → HartState := id) : State :=
  s.modHart h fun t =>
    let u := f t
    { u with pc := t.pc + BitVec.ofNat 32 len, instret := u.instret + 1 }

/-- As `done`, with a jump. -/
def State.jump (s : State) (h : Hart) (pc : Word) (f : HartState → HartState := id) : State :=
  s.modHart h fun t => let u := f t; { u with pc, instret := u.instret + 1 }

/-- An illegal instruction (R406). -/
def State.illegal (s : State) (h : Hart) (w : Word) : State := s.trap h 2 w

/-- A hart may access some bytes under its PMP entries: 0 to read, 1 to write. -/
def HartState.mayData (t : HartState) (addr size perm : Nat) : Bool := t.trap.pmpAllows t.dataMode addr size perm

/-- An address of the local store (R401). -/
def inStore (a : Word) : Bool := decide (a.toNat < 0x80000)

/-- An address of the Icefield window. -/
def inWindow (a : Word) : Bool := a.extractLsb' 28 4 == 1

/-- The window word of an address. -/
def windowWord (a : Word) : Nat := (a.extractLsb' 2 26).toNat

/-- A store of a hart to a word of the local store ends the reservations that other harts hold on it. -/
def State.snoop (s : State) (h : Hart) (a : Word) : State :=
  s.forEach ((fins 16).filter fun g => g != h) fun s g => s.modHart g fun t =>
    { t with reservation := t.reservation.filter fun r => r.extractLsb' 2 30 != a.extractLsb' 2 30 }

/-! ## Loads and stores (R137, R401, R402) -/

/-- A hart presents the word of a window access, once its earlier Xcalad instructions have been accepted (R137). -/
def State.presentScalar (s : State) (h : Hart) (addr : Word) (write : Bool) (wait : Nat → HartWait) : State :=
  if !(s.hart h).vqueue.isEmpty then s
  else
    let w := windowWord addr
    let (s, id) := s.present (.scalar h) [{ lo := w, hi := w, write }]
    s.modHart h fun t => { t with wait := wait id }

/-- A load. -/
def State.load (s : State) (h : Hart) (op : LoadOp) (rd : BitVec 5) (addr : Word) (len : Nat) : State :=
  let byte := addr.toNat % 4
  if addr.toNat % loadSize op ≠ 0 then s.trap h 4 addr
  else if !(s.hart h).mayData addr.toNat (loadSize op) 0 then s.trap h 5 addr
  else if inStore addr then
    match s.readLs (Src.hart h) (addr.toNat / 4) with
    | (s, some w) => s.done h len (·.setX rd (loadValue op w byte))
    | (s, none) => s
  else match regOffset addr with
    | some off =>
      if op = .lw then
        let v := s.readReg (Hart.reader h) off
        (s.readEffect (Hart.reader h) off).done h len (·.setX rd v)
      else s.trap h 5 addr
    | none =>
      if inWindow addr then s.presentScalar h addr false fun id => .load op rd addr id len else s.trap h 5 addr

/-- A store; `met` holds the bits of a register that an event sets in the step of the store (R412, R508). -/
def State.store (s : State) (h : Hart) (op : StoreOp) (addr val : Word) (len : Nat) (met : Word) : State :=
  let byte := addr.toNat % 4
  if addr.toNat % storeSize op ≠ 0 then s.trap h 6 addr
  else if !(s.hart h).mayData addr.toNat (storeSize op) 1 then s.trap h 7 addr
  else if inStore addr then
    match s.mergeLs (Src.hart h) (addr.toNat / 4) (storeMask op byte) (val <<< (8 * byte)) with
    | (s, true) => (s.snoop h addr).done h len
    | (s, false) => s
  else match regOffset addr with
    | some off => if op = .sw then (s.writeReg (Hart.reader h) off val met []).done h len else s.trap h 7 addr
    | none =>
      if inWindow addr then s.presentScalar h addr true fun id => .store op addr val id len else s.trap h 7 addr

/-- The floe that serves a window access; none when the access faults: no floe holds the word, or its segment is melted
(R402). -/
def State.scalarFloe (s : State) (w : Nat) : Option (Fin 64) := (s.floeOf w).filter fun f => (s.wordBad f w).isNone

/-- A window word lies in a segment that a revival is reviving: its access is held (R402, R564). -/
def State.windowReviving (s : State) (w : Nat) : Bool :=
  match s.floeOf w with
  | some f => s.wordReviving f w
  | none => false

/-- A word that a scalar load may not have (R308). -/
def CwClass.refused : CwClass → Bool
  | .poisoned | .bad => true
  | _ => false

/-- An allocated window load completes (R299, R308, R402). -/
def State.endLoad (s : State) (h : Hart) (op : LoadOp) (rd : BitVec 5) (addr : Word) (id len : Nat) : State :=
  let w := windowWord addr
  match s.scalarFloe w with
  | none => (s.endAccess id).trap h 5 addr
  | some f =>
    let (s, v, c) := s.readWord (Src.hart h) id f w
    let s := s.endAccess id
    if c.refused then s.trap h 5 addr
    else s.done h len fun t => { t.setX rd (loadValue op (v.extractLsb' 0 32) (addr.toNat % 4)) with wait := .run }

/-- An allocated window store completes; what it writes in Moraine went out when it was allocated (R363). -/
def State.endStore (s : State) (h : Hart) (op : StoreOp) (addr val : Word) (id len : Nat) : State :=
  let w := windowWord addr
  match s.scalarFloe w with
  | none => (s.endAccess id).trap h 7 addr
  | some f =>
    let byte := addr.toNat % 4
    let mask := storeMask op byte
    let d := val <<< (8 * byte)
    let s := s.writeBytes (Src.hart h) f w mask d false
    (s.endAccess id).done h len fun t => { t with wait := .run }

/-- An allocated scalar access asks for its Moraine line: a load reads it, a store writes it; the hart waits until the line
has arrived or is acknowledged (R363). -/
def State.scalarLine (s : State) (h : Hart) (id : Nat) : State :=
  match (s.hart h).wait with
  | .load _ _ addr i _ =>
    match s.floeOf (windowWord addr) with
    | some f => if i = id then s.morRead id f [windowWord addr] else s
    | none => s
  | .store op addr val i _ =>
    match s.floeOf (windowWord addr) with
    | some f =>
      let byte := addr.toNat % 4
      if i = id then s.morWrite id f [{ word := windowWord addr, data := val <<< (8 * byte), mask := storeMask op byte }]
      else s
    | none => s
  | _ => s

/-- The hart whose scalar access has this number completes it, once its access is allocated, its Moraine line is there and
no revival holds it; a DEADLOCK that waited for this boundary is taken (R368). -/
def State.endScalar (s : State) (h : Hart) (id : Nat) : State :=
  if (s.ice.sb.alloc.all fun a => a.id != id) || !s.morDone id then s
  else match (s.hart h).wait with
    | .load op rd addr i len =>
      if i = id && !s.windowReviving (windowWord addr) then (s.endLoad h op rd addr id len).takeDeadlock h else s
    | .store op addr val i len =>
      if i = id && !s.windowReviving (windowWord addr) then (s.endStore h op addr val id len).takeDeadlock h else s
    | _ => s

/-! ## Atomics (R401) -/

/-- An instruction of the A extension. -/
def State.atomic (s : State) (h : Hart) (w : Word) (len : Nat) : State :=
  let t := s.hart h
  let f5 := ifield w 27 5
  let addr := t.getX (iRs1 w)
  let val := t.getX (iRs2 w)
  let lr := f5 == 2
  let perms := t.mayData addr.toNat 4 (if lr then 0 else 1) && (lr || f5 == 3 || t.mayData addr.toNat 4 0)
  if iF3 w ≠ 2 || (lr && iRs2 w != 0) || (!lr && f5 != 3 && (amoOp f5 0 0).isNone) then s.illegal h w
  else if addr.toNat % 4 ≠ 0 then s.trap h (if lr then 4 else 6) addr
  else if !perms || !inStore addr then s.trap h (if lr then 5 else 7) addr
  else if f5 = 3 then
    if t.reservation = some addr then
      ((s.writeLs (addr.toNat / 4) val).snoop h addr).done h len fun t => { t.setX (iRd w) 0 with reservation := none }
    else s.done h len fun t => { t.setX (iRd w) 1 with reservation := none }
  else match s.readLs (Src.hart h) (addr.toNat / 4) with
    | (s, none) => s
    | (s, some old) =>
      match amoOp f5 old val with
      | none => s.done h len fun t => { t.setX (iRd w) old with reservation := some addr }
      | some new => ((s.writeLs (addr.toNat / 4) new).snoop h addr).done h len (·.setX (iRd w) old)

/-! ## CSR instructions (R129, R194, R547, R548) -/

/-- A read of a CSR waits: Xcalad instructions of the hart have not retired. -/
def HartState.readWaits (t : HartState) (num : BitVec 12) : Bool := csrWaits num && t.issued != t.retired

/-- A Zicsr instruction. A read that waits leaves the hart at the instruction. `met` holds the bits of the CSR that an event
sets in the same step (R94, R412). -/
def State.csrInstr (s : State) (h : Hart) (w : Word) (len : Nat) (met : Word) : State :=
  let t := s.hart h
  let num : BitVec 12 := w.extractLsb' 20 12
  let f3 := iF3 w
  let swap := f3 % 4 == 1
  let writes := swap || iRs1 w != 0
  if csrForbidden t.mode num writes || t.counterShut num then s.illegal h w
  else match s.readCsr h num with
    | none => s.illegal h w
    | some old =>
      if !(swap && iRd w == 0) && t.readWaits num then s
      else
        let src := if 4 ≤ f3 then (iRs1 w).setWidth 32 else t.getX (iRs1 w)
        let new := if swap then src else if f3 % 4 = 2 then old ||| src else old &&& ~~~src
        s.done h len fun t => (if writes then t.writeCsr num new met else t).setX (iRd w) old

/-- A read of a CSR into a register that waits for retirement: the row commands of such reads. -/
def State.waitingRead (s : State) (h : Hart) (num : BitVec 12) (rd : BitVec 5) : State :=
  if !s.canAct (Hart.reader h) || (s.hart h).readWaits num then s
  else s.done h 4 (·.setX rd ((s.engineCsr h num).getD 0))

/-! ## Waits, calls and interrupts (R406, R407, R412, R416) -/

/-- What ends an event wait (R412). -/
def State.wakes (s : State) (h : Hart) : Bool := s.eventReady h || s.vfaultReady h

/-- WFI completes at once or begins the wait. -/
def State.wfi (s : State) (h : Hart) : State :=
  if s.wakes h then s.done h 4 else s.done h 4 fun t => { t with wait := .wfi }

/-- An environment call: with a7 = 0 in an extension it ends the call on the hart; firmware replies when every hart of the
call has ended (R416). -/
def State.ecall (s : State) (h : Hart) : State :=
  let t := s.hart h
  match (if t.mode = .u ∧ t.getX 17 = 0 then s.callOf h else none) with
  | none => s.trap h (if t.mode = .u then 8 else 11) 0
  | some c =>
    let result := if c.harts.head? = some h then t.getX 10 else c.result
    let d : ExtCall := { c with ended := c.ended ++ [h], result }
    let s : State := { s with hods := { s.hods with calls := s.hods.calls.map fun e => if e.order == c.order then d else e } }
    let s := s.modHart h fun t => { t.takeTrap false 8 0 with halted := true }
    if d.harts.all d.ended.contains then s.endCall d stDone [d.result] else s

/-- VFAULT is taken when mie and mstatus.MIE allow it; user mode always does (R407). In an extension call it ends the call.
-/
def State.takeVfault (s : State) (h : Hart) : State :=
  let t := s.hart h
  if !s.powered || t.halted || !(t.wait == .run || t.wait == .wfi) || !s.vfaultReady h || !(t.mode == .u || t.trap.mie) then s
  else
    let s := s.modHart h (·.takeTrap true 16 0)
    if t.mode == .u then s.extFault h else s

/-- The privileged instructions: ECALL, EBREAK, MRET and WFI. -/
def State.privInstr (s : State) (h : Hart) (w : Word) : State :=
  if w = 0x00000073 then s.ecall h
  else if w = 0x00100073 then s.trap h 3 (s.hart h).pc
  else if w = 0x30200073 && (s.hart h).mode == .m then
    s.modHart h fun t => { t.mret with instret := t.instret + 1 }
  else if w = 0x10500073 then s.wfi h
  else s.illegal h w

/-! ## Execution -/

/-- Executes a 32-bit instruction. `len` is 2 when a compressed one stood for it, and `raw` are the bits that an illegal
instruction reports. -/
def State.execute (s : State) (h : Hart) (w raw : Word) (len : Nat) (met : Word) : State :=
  let t := s.hart h
  let a := t.getX (iRs1 w)
  let b := t.getX (iRs2 w)
  let rd := iRd w
  let next := t.pc + BitVec.ofNat 32 len
  let f3 := iF3 w
  match ifield w 0 7 with
  | 0x37 => s.done h len (·.setX rd (immU w))
  | 0x17 => s.done h len (·.setX rd (t.pc + immU w))
  | 0x6F => s.jump h (t.pc + immJ w) (·.setX rd next)
  | 0x67 => if f3 = 0 then s.jump h ((a + immI w) &&& 0xFFFFFFFE) (·.setX rd next) else s.illegal h raw
  | 0x63 =>
    match branchTaken f3 a b with
    | some true => s.jump h (t.pc + immB w)
    | some false => s.done h len
    | none => s.illegal h raw
  | 0x03 =>
    match loadOp f3 with
    | some op => s.load h op rd (a + immI w) len
    | none => s.illegal h raw
  | 0x23 =>
    match storeOp f3 with
    | some op => s.store h op (a + immS w) b len met
    | none => s.illegal h raw
  | 0x13 =>
    if (f3 = 1 && iF7 w ≠ 0) || (f3 = 5 && iF7 w ≠ 0 && iF7 w ≠ 0x20) then s.illegal h raw
    else s.done h len (·.setX rd (aluOp f3 (f3 == 5 && iF7 w == 0x20) a (immI w)))
  | 0x33 =>
    if iF7 w = 1 then s.done h len (·.setX rd (mulOp f3 a b))
    else if iF7 w = 0 || (iF7 w = 0x20 && (f3 = 0 || f3 = 5)) then s.done h len (·.setX rd (aluOp f3 (iF7 w == 0x20) a b))
    else s.illegal h raw
  | 0x0F => if f3 < 2 then s.done h len else s.illegal h raw
  | 0x2F => s.atomic h w len
  | 0x73 =>
    if f3 = 0 then s.privInstr h w
    else if f3 = 4 then s.illegal h raw
    else s.csrInstr h w len met
  | _ => s.illegal h raw

/-- Executes an instruction from its first 32 bits: a compressed one from its first 16. -/
def State.executeBits (s : State) (h : Hart) (w met : Word) : State :=
  if w.extractLsb' 0 2 = 3 then s.execute h w w 4 met
  else
    let c : BitVec 16 := w.extractLsb' 0 16
    match expandC c with
    | some x => s.execute h x (c.setWidth 32) 2 met
    | none => s.illegal h (c.setWidth 32)

/-! ## Fetch (R401, R404) -/

/-- What a fetch of one half-word brings: its bits, the address of an access fault, or nothing when the word of the local
store is uncorrectable. -/
inductive FetchHalf where
  | half (v : BitVec 16)
  | fault (addr : Word)
  | lost
deriving DecidableEq, Repr

/-- Fetches a half-word. -/
def State.fetchHalf (s : State) (h : Hart) (a : Word) : State × FetchHalf :=
  let t := s.hart h
  if !inStore a || !t.trap.pmpAllows t.mode a.toNat 2 2 then (s, .fault a)
  else match s.readLs (Src.hart h) (a.toNat / 4) with
    | (s, some w) => (s, .half (w.extractLsb' (8 * (a.toNat % 4)) 16))
    | (s, none) => (s, .lost)

/-- Fetches further half-words, and goes on with all of them, the first lowest; an access fault traps. -/
def State.fetchMore (s : State) (h : Hart) (a : Word) : Nat → List (BitVec 16) → (State → List (BitVec 16) → State) → State
  | 0, l, k => k s l
  | n + 1, l, k =>
    match s.fetchHalf h a with
    | (s, .half v) => s.fetchMore h (a + 2) n (l ++ [v]) k
    | (s, .fault b) => s.trap h 1 b
    | (s, .lost) => s

/-- Two half-words as a word. -/
def halves (l : List (BitVec 16)) (i : Nat) : Word := l.getD (i + 1) 0 ++ l.getD i 0

/-- A hart fetches the instruction at its pc and executes it: compressed, 32 bits, or an Xcalad instruction of 64 bits,
which it issues (R116, R130). -/
def State.fetchExecute (s : State) (h : Hart) (met : Word) : State :=
  let pc := (s.hart h).pc
  s.fetchMore h pc 1 [] fun s l =>
    let c := l.getD 0 0
    if c.extractLsb' 0 2 != 3 then s.executeBits h (c.setWidth 32) met
    else s.fetchMore h (pc + 2) 1 l fun s l =>
      let w := halves l 0
      if w.extractLsb' 0 7 = 0x3F then
        s.fetchMore h (pc + 4) 2 l fun s l => s.issue h (XInstr.ofWords (halves l 0) (halves l 2))
      else s.executeBits h w met

/-! ## The commands -/

/-- VFAULT (R407). -/
def execVfault (h : Hart) (s : State) : Host.Outcome State Fault Refusal :=
  .next (if s.powered then (s.takeVfault h).pruneCycles else s)

/-- RV32_INSTRUCTION (R398): the given instruction, or the one at the hart's pc. An Xcalad instruction has its own
commands. `met` holds the bits of the register or CSR that it writes which an event sets in the same step (R94, R412). -/
def execRv32Instruction (h : Hart) (w : Option Word) (met : Word) (s : State) : Host.Outcome State Fault Refusal :=
  .next (if !s.canAct (Hart.reader h) then s
    else match w with
      | none => (s.fetchExecute h met).pruneCycles
      | some w => if w.extractLsb' 0 7 = 0x3F then s else (s.executeBits h w met).pruneCycles)

/-- ECALL (R416). -/
def execEcall (h : Hart) (s : State) : Host.Outcome State Fault Refusal :=
  .next (if s.canAct (Hart.reader h) then (s.ecall h).pruneCycles else s)

/-- WFI (R412). -/
def execWfi (h : Hart) (s : State) : Host.Outcome State Fault Refusal :=
  .next (if s.canAct (Hart.reader h) then (s.wfi h).pruneCycles else s)

/-- WFI_WAKE (R412). -/
def execWfiWake (h : Hart) (s : State) : Host.Outcome State Fault Refusal :=
  .next (if s.powered && (s.hart h).wait == .wfi && s.wakes h then
      (s.modHart h fun t => { t with wait := .run }).pruneCycles
    else s)

/-- SCALAR_LOAD (R137). -/
def execScalarLoad (h : Hart) (op : LoadOp) (rd : BitVec 5) (addr : Word) (s : State) : Host.Outcome State Fault Refusal :=
  .next (if s.canAct (Hart.reader h) then (s.load h op rd addr 4).pruneCycles else s)

/-- SCALAR_STORE (R137). -/
def execScalarStore (h : Hart) (op : StoreOp) (addr : Word) (val : Word) (s : State) : Host.Outcome State Fault Refusal :=
  .next (if s.canAct (Hart.reader h) then (s.store h op addr val 4 0).pruneCycles else s)

/-- SUMMARY_READ (R129). -/
def execSummaryRead (h : Hart) (high : Bool) (rd : BitVec 5) (s : State) : Host.Outcome State Fault Refusal :=
  .next (if s.powered then s.waitingRead h (if high then 0xCC1 else 0xCC0) rd else s)

/-- VFLAGS_READ (R548). -/
def execVflagsRead (h : Hart) (rd : BitVec 5) (s : State) : Host.Outcome State Fault Refusal :=
  .next (if s.powered then s.waitingRead h 0x8C5 rd else s)

/-- MQUOTA_READ (R194). -/
def execMquotaRead (h : Hart) (rd : BitVec 5) (s : State) : Host.Outcome State Fault Refusal :=
  .next (if s.powered then s.waitingRead h 0xCC7 rd else s)

end Sys2Proof.Machine
end

