-- ==== Sys2Proof/Machine/Power.lean ====
section
/-! DEFINITION. Removing power, in order and abruptly (R457, R458, R478, R492). -/

namespace Sys2Proof.Machine

/-- What an orderly request that arrives now waits for: in start-up the end of the Icefield test or fill that runs, and from
stage 8 on the engine's work (R457, R492). -/
def State.offAfter (s : State) : OffWait :=
  let b := s.boot
  if 8 ≤ b.stage.toNat then .drained
  else if b.fwref || b.iceFilled || !b.recordDone then .atOnce
  else if b.iceTested then .filled
  else .tested

/-- The power-off request rises: the engine takes no more messages, and channels, courses and sends stop (R457). -/
def State.powerOffRequest (s : State) : State :=
  if s.powerReq then s else ({ s with powerReq := true, offWait := s.offAfter } : State).stopEngines

/-- Fabric lines of a channel are outstanding. -/
def DriftSet.waits (d : DriftSet) : Bool :=
  !d.wlines.isEmpty || (match d.need with | some l => l.any fun a => d.got.all fun g => g.1 != a | none => false)

/-- No fabric line is outstanding, of data or of a descriptor fetch. -/
def State.noLines (s : State) : Bool :=
  s.ice.morLines.isEmpty && (fins 32).all fun c =>
    !(s.chan c).burstOut && match (s.chan c).set with | some d => !d.waits | none => true

/-- What holds the acknowledge back has ended: the stage of start-up that ran; from stage 8 on scoreboard entries, fabric
lines, commits, revivals, sparings and a recovery (R457, R458, R478, R492). -/
def State.powerDrained (s : State) : Bool :=
  match s.offWait with
  | .atOnce => true
  | .tested => s.boot.iceTested || s.boot.fwref
  | .filled => s.boot.iceFilled || s.boot.fwref
  | .drained =>
    s.ice.sb.alloc.isEmpty && s.noLines && s.ice.commit.isNone && s.ice.revival.isNone && s.ice.sparing.isEmpty &&
      s.err.stat != .recovering

/-- The supply goes: the permafrost segments whose retention rail the power controller keeps hold their cells, and nothing
else keeps anything (R27, R30, R456). -/
def State.powerDown (s : State) (rail : List (Fin 64)) : State :=
  { s.restartEngine rail with powered := false, railHeld := s.keptSegs.filter rail.contains }

/-- The engine acknowledges, when drained or after 100 µs, and the power controller removes the supply. -/
def State.powerOffAck (s : State) (timeout : Bool) (rail : List (Fin 64)) : State :=
  if s.powerReq && (timeout || s.powerDrained) then s.powerDown rail else s

/-- A codeword that reads as uncorrectable (R457): the given one, or where R306 reads it, its data under check symbols of which
two are wrong. -/
def badCodeword (c : BitVec 44) : BitVec 44 :=
  if classify c = .bad then c else codeword (checkBits (cwData c) ^^^ 0x011) (cwData c)

/-- What a torn word holds (R457): its old value, the new one, or a codeword that reads as uncorrectable. Which of them, and
the codeword, are left open (log entry 9). -/
def tornWord (n cell : Nat) (old new : BitVec 44) : BitVec 44 :=
  match Config.tornKind n cell with
  | 0 => old
  | 1 => new
  | _ => badCodeword (Config.tornCell n cell)

/-- The writes of resident words that are in flight: what the Firn entries hold, what an accepted instruction is to write in
its step of completion, and an allocated scalar store (R301, R402, R457). -/
def State.flying (s : State) : List (Fin 64 × IceWrite) :=
  let held := (fins 64).flatMap fun i => match s.ice.firn.get i with
    | some e => match e.line with | some (f, _) => e.writes.map fun w => (f, w) | none => []
    | none => []
  let insts := (s.vu.inflight.filter fun f => f.sb.isSome && f.result.isNone).flatMap fun f =>
    let x := s.xinOf f
    (x.effect (s.peekWords f x)).ice.map fun w => (f.e.floe, w)
  let stores := (fins 16).filterMap fun h => match (s.hart h).wait with
    | .store op addr val id _ =>
      if s.ice.sb.alloc.any fun a => a.id == id then
        let byte := addr.toNat % 4
        (s.floeOf (windowWord addr)).map fun f =>
          (f, ({ word := windowWord addr, data := val <<< (8 * byte), mask := storeMask op byte } : IceWrite))
      else none
    | _ => none
  held ++ insts ++ stores

/-- A word of a permafrost segment whose write is in flight is torn; the bytes that the write leaves keep their value. -/
def State.tearWord (s : State) (f : Fin 64) (w : IceWrite) : State :=
  match s.place f w.word with
  | some (.phys p h) =>
    if s.segAt p == .permafrost && w.mask != 0 then
      let (b, q) := s.bankLevel p h
      let cell := s.cellAt b q
      let old := sget 0 s.ice.cells cell
      let new := encodeWord ((cwData old &&& ~~~(maskBits w.mask)) ||| (w.data &&& maskBits w.mask))
        (w.mark || (w.mask != 0xF && (classify old).marks))
      s.setCell cell (tornWord s.freeCtr cell old new)
    else s
  | _ => s

/-- Words of permafrost segments whose write is in flight at an abrupt removal are torn. -/
def State.tear (s : State) : State := (s.forEach s.flying fun s q => s.tearWord q.1 q.2).fresh

/-- The supply falls without an acknowledge. -/
def State.powerLoss (s : State) (rail : List (Fin 64)) : State := s.tear.powerDown rail

/-- POWER_OFF_REQUEST (R457). -/
def execPowerOffRequest (s : State) : Host.Outcome State Fault Refusal := .next (if s.powered then s.powerOffRequest else s)

/-- POWER_OFF_ACK (R457). -/
def execPowerOffAck (timeout : Bool) (rail : List (Fin 64)) (s : State) : Host.Outcome State Fault Refusal :=
  .next (if s.powered then s.powerOffAck timeout rail else s)

/-- POWER_LOSS (R457). -/
def execPowerLoss (rail : List (Fin 64)) (s : State) : Host.Outcome State Fault Refusal :=
  .next (if s.powered then s.powerLoss rail else s)

end Sys2Proof.Machine
end

