-- ==== Sys2Proof/Machine/Scoreboard.lean ====
section
/-! DEFINITION. The range scoreboard's own steps: the allocation of a waiting access (R296) and the retirement of an
allocated one (R299). -/

namespace Sys2Proof.Machine

/-- An access of the vector unit, which its acceptance allocates (R136). -/
def Requester.isVector : Requester → Bool
  | .vector _ => true
  | _ => false

/-- The first waiting access that may be allocated, in the order of presentation (R296); instructions wait for their
acceptance. -/
def State.nextAccess (s : State) : Option Access :=
  s.ice.sb.waiting.find? fun a => !a.who.isVector && s.ice.sb.ready a.id

/-- Puts an access before the first one of no lower place. -/
def insertAccess (a : Access) : List Access → List Access
  | [] => [a]
  | b :: r => if a.who.rank ≤ b.who.rank then a :: b :: r else b :: insertAccess a r

/-- Puts the last `n` waiting accesses, which were presented in one step, in the order of R297; equal places keep the order
in which they came. -/
def State.orderTogether (s : State) (n : Nat) : State :=
  s.modSb fun sb =>
    let k := sb.waiting.length - n
    { sb with waiting := sb.waiting.take k ++ (sb.waiting.drop k).foldr insertAccess [] }

/-- A waiting access is allocated, and its requester goes on. -/
def State.sbAllocate (s : State) : State :=
  match s.nextAccess with
  | none => s
  | some a =>
    match a.who with
    | .commit => s.commitEffect
    | .scalar h => (s.allocate a.id).scalarLine h a.id
    | .drift c => ((s.allocate a.id).drive c).pruneCycles
    | .vector _ | .mortar | .arrival _ | .departure _ | .sparing _ _ => s.allocate a.id

/-- An allocated access retires: its requester completes what the access is for, which frees its entries. -/
def State.accessRetire (s : State) (id : Nat) : State :=
  match s.ice.sb.alloc.find? fun a => a.id == id with
  | none => s
  | some a =>
    match a.who with
    | .scalar h => match s.imageOf id with
      | some o => s.imageRetire o id
      | none => s.endScalar h id
    | .drift c => (s.setRetire c).pruneCycles
    | .arrival p => if ((s.port p).arrivals.head?.map (·.sb)) = some id then s.arrivalLanded p else s
    | .sparing _ _ => s.fieldSparing
    | .vector h => if (s.finishing h).bind (·.sb) = some id then s.instructionRetire h none else s
    | .mortar | .departure _ | .commit => s

/-- SB_ALLOCATE (R296): `together` is how many of the waiting accesses were presented last in one and the same step
(R297). -/
def execSbAllocate (together : Nat) (s : State) : Host.Outcome State Fault Refusal :=
  .next (if s.powered then (s.orderTogether together).sbAllocate else s)

/-- ACCESS_RETIRE (R299). -/
def execAccessRetire (id : Nat) (s : State) : Host.Outcome State Fault Refusal :=
  .next (if s.powered then s.accessRetire id else s)

end Sys2Proof.Machine
end

