-- ==== Sys2Proof/Machine/Dispatch.lean ====
section
/-! DEFINITION. The effect of each command on everything but the queue: one arm for each constructor of `Instr`. -/

namespace Sys2Proof.Machine

def exec (i : Instr) (s : State) : Host.Outcome State Fault Refusal :=
  match i with
  | .mov h x => Sys2Proof.Machine.execMov h x s
  | .movX h x => Sys2Proof.Machine.execMovX h x s
  | .iotaX h x => Sys2Proof.Machine.execIotaX h x s
  | .setxX h x => Sys2Proof.Machine.execSetxX h x s
  | .ldX h x => Sys2Proof.Machine.execLdX h x s
  | .stX h x => Sys2Proof.Machine.execStX h x s
  | .stXAdd h x => Sys2Proof.Machine.execStXAdd h x s
  | .arithAdd h x => Sys2Proof.Machine.execArithAdd h x s
  | .arithSub h x => Sys2Proof.Machine.execArithSub h x s
  | .arithMul h x => Sys2Proof.Machine.execArithMul h x s
  | .arithAbs h x => Sys2Proof.Machine.execArithAbs h x s
  | .arithNeg h x => Sys2Proof.Machine.execArithNeg h x s
  | .arithFms h x => Sys2Proof.Machine.execArithFms h x s
  | .arithFma h x => Sys2Proof.Machine.execArithFma h x s
  | .arithX h fn x => Sys2Proof.Machine.execArithX h fn x s
  | .maxminMax h x => Sys2Proof.Machine.execMaxminMax h x s
  | .maxminMin h x => Sys2Proof.Machine.execMaxminMin h x s
  | .maxminX h fn x => Sys2Proof.Machine.execMaxminX h fn x s
  | .cvt h x => Sys2Proof.Machine.execCvt h x s
  | .sfuExp2 h x => Sys2Proof.Machine.execSfuExp2 h x s
  | .sfuLog2 h x => Sys2Proof.Machine.execSfuLog2 h x s
  | .sfuRcp h x => Sys2Proof.Machine.execSfuRcp h x s
  | .sfuRsq h x => Sys2Proof.Machine.execSfuRsq h x s
  | .sfuTanh h x => Sys2Proof.Machine.execSfuTanh h x s
  | .sfuLogistic h x => Sys2Proof.Machine.execSfuLogistic h x s
  | .sfuErf h x => Sys2Proof.Machine.execSfuErf h x s
  | .sfuExp h x => Sys2Proof.Machine.execSfuExp h x s
  | .cmp h fn x => Sys2Proof.Machine.execCmp h fn x s
  | .cmpX h fn x => Sys2Proof.Machine.execCmpX h fn x s
  | .pany h x => Sys2Proof.Machine.execPany h x s
  | .pall h x => Sys2Proof.Machine.execPall h x s
  | .pand h x => Sys2Proof.Machine.execPand h x s
  | .por h x => Sys2Proof.Machine.execPor h x s
  | .pandn h x => Sys2Proof.Machine.execPandn h x s
  | .pxor h x => Sys2Proof.Machine.execPxor h x s
  | .pltX h x => Sys2Proof.Machine.execPltX h x s
  | .rsum h fn x => Sys2Proof.Machine.execRsum h fn x s
  | .rmax h fn x => Sys2Proof.Machine.execRmax h fn x s
  | .segmentedReduce h max alt x => Sys2Proof.Machine.execSegmentedReduce h max alt x s
  | .rdot h fn x => Sys2Proof.Machine.execRdot h fn x s
  | .rarg h fn x => Sys2Proof.Machine.execRarg h fn x s
  | .rowb h fn x => Sys2Proof.Machine.execRowb h fn x s
  | .colb h fn x => Sys2Proof.Machine.execColb h fn x s
  | .raccClr h x => Sys2Proof.Machine.execRaccClr h x s
  | .raccSum h x => Sys2Proof.Machine.execRaccSum h x s
  | .raccSsq h x => Sys2Proof.Machine.execRaccSsq h x s
  | .raccMax h x => Sys2Proof.Machine.execRaccMax h x s
  | .rdsum h x => Sys2Proof.Machine.execRdsum h x s
  | .rdmax h x => Sys2Proof.Machine.execRdmax h x s
  | .rdcnt h x => Sys2Proof.Machine.execRdcnt h x s
  | .rdlse h x => Sys2Proof.Machine.execRdlse h x s
  | .softmax h x => Sys2Proof.Machine.execSoftmax h x s
  | .logsoftmax h x => Sys2Proof.Machine.execLogsoftmax h x s
  | .rmsnorm h x => Sys2Proof.Machine.execRmsnorm h x s
  | .layernorm h x => Sys2Proof.Machine.execLayernorm h x s
  | .trans h x => Sys2Proof.Machine.execTrans h x s
  | .perm h x => Sys2Proof.Machine.execPerm h x s
  | .gatherXRow h x => Sys2Proof.Machine.execGatherXRow h x s
  | .gatherXElement h x => Sys2Proof.Machine.execGatherXElement h x s
  | .scatterXRowWrite h x => Sys2Proof.Machine.execScatterXRowWrite h x s
  | .scatterXElementWrite h x => Sys2Proof.Machine.execScatterXElementWrite h x s
  | .scatterXRowAdd h x => Sys2Proof.Machine.execScatterXRowAdd h x s
  | .scatterXElementAdd h x => Sys2Proof.Machine.execScatterXElementAdd h x s
  | .compact h x => Sys2Proof.Machine.execCompact h x s
  | .expand h x => Sys2Proof.Machine.execExpand h x s
  | .vsyncHarts h x => Sys2Proof.Machine.execVsyncHarts h x s
  | .vsyncIcefield h x => Sys2Proof.Machine.execVsyncIcefield h x s
  | .probe h x => Sys2Proof.Machine.execProbe h x s
  | .mpruneBrick h x => Sys2Proof.Machine.execMpruneBrick h x s
  | .mpruneRow h x => Sys2Proof.Machine.execMpruneRow h x s
  | .mpruneNm h x => Sys2Proof.Machine.execMpruneNm h x s
  | .mpruneThresh h x => Sys2Proof.Machine.execMpruneThresh h x s
  | .mgrowScore h x => Sys2Proof.Machine.execMgrowScore h x s
  | .mgrowThresh h x => Sys2Proof.Machine.execMgrowThresh h x s
  | .mgrowRand h x => Sys2Proof.Machine.execMgrowRand h x s
  | .mapply h fn x => Sys2Proof.Machine.execMapply h fn x s
  | .mpack h fn x => Sys2Proof.Machine.execMpack h fn x s
  | .munpack h x => Sys2Proof.Machine.execMunpack h x s
  | .mtrans h x => Sys2Proof.Machine.execMtrans h x s
  | .sort h fn x => Sys2Proof.Machine.execSort h fn x s
  | .merge h fn x => Sys2Proof.Machine.execMerge h fn x s
  | .topk h fn x => Sys2Proof.Machine.execTopk h fn x s
  | .unique h fn x => Sys2Proof.Machine.execUnique h fn x s
  | .isect h fn x => Sys2Proof.Machine.execIsect h fn x s
  | .hist h fn x => Sys2Proof.Machine.execHist h fn x s
  | .route h fn x => Sys2Proof.Machine.execRoute h fn x s
  | .vectorAccept => Sys2Proof.Machine.execVectorAccept s
  | .instructionRetire h check => Sys2Proof.Machine.execInstructionRetire h check s
  | .instructionReplay => Sys2Proof.Machine.execInstructionReplay s
  | .vfault h => Sys2Proof.Machine.execVfault h s
  | .rv32Instruction h w met => Sys2Proof.Machine.execRv32Instruction h w met s
  | .ecall h => Sys2Proof.Machine.execEcall h s
  | .wfi h => Sys2Proof.Machine.execWfi h s
  | .wfiWake h => Sys2Proof.Machine.execWfiWake h s
  | .scalarLoad h op rd addr => Sys2Proof.Machine.execScalarLoad h op rd addr s
  | .scalarStore h op addr val => Sys2Proof.Machine.execScalarStore h op addr val s
  | .summaryRead h high rd => Sys2Proof.Machine.execSummaryRead h high rd s
  | .vflagsRead h rd => Sys2Proof.Machine.execVflagsRead h rd s
  | .mquotaRead h rd => Sys2Proof.Machine.execMquotaRead h rd s
  | .tileLease r w lost => Sys2Proof.Machine.execTileLease r w lost s
  | .leaseEffect t => Sys2Proof.Machine.execLeaseEffect t s
  | .courseStart r addr => Sys2Proof.Machine.execCourseStart r addr s
  | .courseStop r => Sys2Proof.Machine.execCourseStop r s
  | .courseDrop r => Sys2Proof.Machine.execCourseDrop r s
  | .courseBegin a b c d => Sys2Proof.Machine.execCourseBegin a b c d s
  | .courseComplete => Sys2Proof.Machine.execCourseComplete s
  | .operandTransfer => Sys2Proof.Machine.execOperandTransfer s
  | .resultTransfer tag payload slush => Sys2Proof.Machine.execResultTransfer tag payload slush s
  | .b00Stack check => Sys2Proof.Machine.execB00Stack check s
  | .b01Running check => Sys2Proof.Machine.execB01Running check s
  | .b02Header check => Sys2Proof.Machine.execB02Header check s
  | .b03Stretcher check => Sys2Proof.Machine.execB03Stretcher check s
  | .b04Soldier check => Sys2Proof.Machine.execB04Soldier check s
  | .b05Flemish check => Sys2Proof.Machine.execB05Flemish check s
  | .b06English check => Sys2Proof.Machine.execB06English check s
  | .b07Dutch check => Sys2Proof.Machine.execB07Dutch check s
  | .b08Monk check => Sys2Proof.Machine.execB08Monk check s
  | .b09Sailor check => Sys2Proof.Machine.execB09Sailor check s
  | .b10Rowlock check => Sys2Proof.Machine.execB10Rowlock check s
  | .b11Garden check => Sys2Proof.Machine.execB11Garden check s
  | .b12Basket check => Sys2Proof.Machine.execB12Basket check s
  | .b13Quoin check => Sys2Proof.Machine.execB13Quoin check s
  | .b14Coping check => Sys2Proof.Machine.execB14Coping check s
  | .b15Lintel check => Sys2Proof.Machine.execB15Lintel check s
  | .peerTimeout => Sys2Proof.Machine.execPeerTimeout s
  | .floeCommit r f lost => Sys2Proof.Machine.execFloeCommit r f lost s
  | .floeRead r f lost => Sys2Proof.Machine.execFloeRead r f lost s
  | .floeCommitEffect => Sys2Proof.Machine.execFloeCommitEffect s
  | .segmentMelt seg => Sys2Proof.Machine.execSegmentMelt seg s
  | .revivalRampEnd => Sys2Proof.Machine.execRevivalRampEnd s
  | .segmentSelftestEnd failed badSpares => Sys2Proof.Machine.execSegmentSelftestEnd failed badSpares s
  | .segmentFillEnd => Sys2Proof.Machine.execSegmentFillEnd s
  | .scrubVisit => Sys2Proof.Machine.execScrubVisit s
  | .correctedWriteback => Sys2Proof.Machine.execCorrectedWriteback s
  | .fieldSparing => Sys2Proof.Machine.execFieldSparing s
  | .sbAllocate together => Sys2Proof.Machine.execSbAllocate together s
  | .accessRetire id => Sys2Proof.Machine.execAccessRetire id s
  | .drfGo r ch met => Sys2Proof.Machine.execDrfGo r ch met s
  | .drfRearm r ch met => Sys2Proof.Machine.execDrfRearm r ch met s
  | .drfResume r ch => Sys2Proof.Machine.execDrfResume r ch s
  | .drfStop r ch => Sys2Proof.Machine.execDrfStop r ch s
  | .drfOwn r ch h => Sys2Proof.Machine.execDrfOwn r ch h s
  | .fbConfig r b word v lost => Sys2Proof.Machine.execFbConfig r b word v lost s
  | .fbPost r b => Sys2Proof.Machine.execFbPost r b s
  | .fbRelease r b => Sys2Proof.Machine.execFbRelease r b s
  | .descriptorSetFetch ch res => Sys2Proof.Machine.execDescriptorSetFetch ch res s
  | .fabricReadLine ch addr res => Sys2Proof.Machine.execFabricReadLine ch addr res s
  | .fabricWriteResponse ch res => Sys2Proof.Machine.execFabricWriteResponse ch res s
  | .setRetire ch => Sys2Proof.Machine.execSetRetire ch s
  | .shadowEffect ch => Sys2Proof.Machine.execShadowEffect ch s
  | .channelHalt ch => Sys2Proof.Machine.execChannelHalt ch s
  | .channelStopped ch => Sys2Proof.Machine.execChannelStopped ch s
  | .slotGrant ch => Sys2Proof.Machine.execSlotGrant ch s
  | .indexQueueResume ch => Sys2Proof.Machine.execIndexQueueResume ch s
  | .deadlock p => Sys2Proof.Machine.execDeadlock p s
  | .moraineLine res => Sys2Proof.Machine.execMoraineLine res s
  | .windowOpen r w lost => Sys2Proof.Machine.execWindowOpen r w lost s
  | .windowClose r w lost => Sys2Proof.Machine.execWindowClose r w lost s
  | .windowCredit r w lost => Sys2Proof.Machine.execWindowCredit r w lost s
  | .windowRead r w lost => Sys2Proof.Machine.execWindowRead r w lost s
  | .windowCloseEffect w => Sys2Proof.Machine.execWindowCloseEffect w s
  | .nbrSend r addr => Sys2Proof.Machine.execNbrSend r addr s
  | .nbrSendStop r p => Sys2Proof.Machine.execNbrSendStop r p s
  | .sendDescriptorStart p => Sys2Proof.Machine.execSendDescriptorStart p s
  | .sendComplete p => Sys2Proof.Machine.execSendComplete p s
  | .data p win gen line seq wmask smark payload => Sys2Proof.Machine.execData p win gen line seq wmask smark payload s
  | .arrivalLanded p => Sys2Proof.Machine.execArrivalLanded p s
  | .ack p seq => Sys2Proof.Machine.execAck p seq s
  | .refuse p seq why => Sys2Proof.Machine.execRefuse p seq why s
  | .grant p win gen lines seq credit => Sys2Proof.Machine.execGrant p win gen lines seq credit s
  | .revoke p win gen seq => Sys2Proof.Machine.execRevoke p win gen seq s
  | .helloMsg p lo hi => Sys2Proof.Machine.execHelloMsg p lo hi s
  | .echo p seq payload rttNs => Sys2Proof.Machine.execEcho p seq payload rttNs s
  | .echoTimeout p => Sys2Proof.Machine.execEchoTimeout p s
  | .ackTimer p => Sys2Proof.Machine.execAckTimer p s
  | .resendTimeout p => Sys2Proof.Machine.execResendTimeout p s
  | .retryResend p => Sys2Proof.Machine.execRetryResend p s
  | .helloTimer p => Sys2Proof.Machine.execHelloTimer p s
  | .portSilence p => Sys2Proof.Machine.execPortSilence p s
  | .portDownCmd r p => Sys2Proof.Machine.execPortDownCmd r p s
  | .portRetryCmd r p => Sys2Proof.Machine.execPortRetryCmd r p s
  | .hodIprodAdvance hod v => Sys2Proof.Machine.execHodIprodAdvance hod v s
  | .hodOprodAdvance hod h v => Sys2Proof.Machine.execHodOprodAdvance hod h v s
  | .hodScan images => Sys2Proof.Machine.execHodScan images s
  | .ordHello => Sys2Proof.Machine.execOrdHello s
  | .ordKill => Sys2Proof.Machine.execOrdKill s
  | .ordKillDrained => Sys2Proof.Machine.execOrdKillDrained s
  | .ordRelease => Sys2Proof.Machine.execOrdRelease s
  | .ordHalt => Sys2Proof.Machine.execOrdHalt s
  | .ordRun => Sys2Proof.Machine.execOrdRun s
  | .ordCalib => Sys2Proof.Machine.execOrdCalib s
  | .ordPageDone bound => Sys2Proof.Machine.execOrdPageDone bound s
  | .pageTimeout ch => Sys2Proof.Machine.execPageTimeout ch s
  | .ordLoadExt f words ch => Sys2Proof.Machine.execOrdLoadExt f words ch s
  | .extVerified ok code => Sys2Proof.Machine.execExtVerified ok code s
  | .ordDropExt ext => Sys2Proof.Machine.execOrdDropExt ext s
  | .ordObssel sel => Sys2Proof.Machine.execOrdObssel sel s
  | .ordFloeSet f entry => Sys2Proof.Machine.execOrdFloeSet f entry s
  | .ordWeightPush f list ch => Sys2Proof.Machine.execOrdWeightPush f list ch s
  | .ordAttnFwd streamWords kernel => Sys2Proof.Machine.execOrdAttnFwd streamWords kernel s
  | .ordAttnBwd sh => Sys2Proof.Machine.execOrdAttnBwd sh s
  | .ordMatmul sh bond => Sys2Proof.Machine.execOrdMatmul sh bond s
  | .ordMoeRoute sh => Sys2Proof.Machine.execOrdMoeRoute sh s
  | .ordMoeCombine sh => Sys2Proof.Machine.execOrdMoeCombine sh s
  | .ordMaskMaint sh => Sys2Proof.Machine.execOrdMaskMaint sh s
  | .ordSample sh split => Sys2Proof.Machine.execOrdSample sh split s
  | .ordScore sh split => Sys2Proof.Machine.execOrdScore sh split s
  | .ordRlLoss sh split => Sys2Proof.Machine.execOrdRlLoss sh split s
  | .ordElemwise sh ops => Sys2Proof.Machine.execOrdElemwise sh ops s
  | .ordReduce sh => Sys2Proof.Machine.execOrdReduce sh s
  | .ordSortset sh => Sys2Proof.Machine.execOrdSortset sh s
  | .ordMove list ch => Sys2Proof.Machine.execOrdMove list ch s
  | .ordWindow op w stage credit => Sys2Proof.Machine.execOrdWindow op w stage credit s
  | .ordExtCall ext harts tiles chans floes params => Sys2Proof.Machine.execOrdExtCall ext harts tiles chans floes params s
  | .ordFence => Sys2Proof.Machine.execOrdFence s
  | .ordIceRead src words dst ch => Sys2Proof.Machine.execOrdIceRead src words dst ch s
  | .ordIceWrite dst words src ch => Sys2Proof.Machine.execOrdIceWrite dst words src ch s
  | .ordRegRead addr => Sys2Proof.Machine.execOrdRegRead addr s
  | .ordRegWrite off v => Sys2Proof.Machine.execOrdRegWrite off v s
  | .ordStatus => Sys2Proof.Machine.execOrdStatus s
  | .hctlHalt r mask resumed => Sys2Proof.Machine.execHctlHalt r mask resumed s
  | .hctlRun r mask halted => Sys2Proof.Machine.execHctlRun r mask halted s
  | .evset r mask => Sys2Proof.Machine.execEvset r mask s
  | .timerExpiry n => Sys2Proof.Machine.execTimerExpiry n s
  | .calibPeriod slacks guarded => Sys2Proof.Machine.execCalibPeriod slacks guarded s
  | .guardEvent region slackAfter => Sys2Proof.Machine.execGuardEvent region slackAfter s
  | .paceWindow pace cleared => Sys2Proof.Machine.execPaceWindow pace cleared s
  | .paceClear r => Sys2Proof.Machine.execPaceClear r s
  | .calTap r on => Sys2Proof.Machine.execCalTap r on s
  | .obsSelect r n code => Sys2Proof.Machine.execObsSelect r n code s
  | .registerWrite r t v lost met => Sys2Proof.Machine.execRegisterWrite r t v lost met s
  | .reset retained => Sys2Proof.Machine.execReset retained s
  | .powerOffRequest => Sys2Proof.Machine.execPowerOffRequest s
  | .powerOffAck timeout rail => Sys2Proof.Machine.execPowerOffAck timeout rail s
  | .powerLoss rail => Sys2Proof.Machine.execPowerLoss rail s
  | .uncorrectableFault code src unit loc loc2 => Sys2Proof.Machine.execUncorrectableFault code src unit loc loc2 s
  | .recoveryDrained => Sys2Proof.Machine.execRecoveryDrained s
  | .laneRampEnd g => Sys2Proof.Machine.execLaneRampEnd g s
  | .laneSelftestEnd g pass => Sys2Proof.Machine.execLaneSelftestEnd g pass s
  | .laneGroupRejoin g slack => Sys2Proof.Machine.execLaneGroupRejoin g slack s
  | .recordRead slotA slotB => Sys2Proof.Machine.execRecordRead slotA slotB s
  | .recordTimeout slotA slotB => Sys2Proof.Machine.execRecordTimeout slotA slotB s
  | .localStoreFillEnd => Sys2Proof.Machine.execLocalStoreFillEnd s
  | .startupLaneTestEnd failed => Sys2Proof.Machine.execStartupLaneTestEnd failed s
  | .icefieldSelftestEnd failed badSpares => Sys2Proof.Machine.execIcefieldSelftestEnd failed badSpares s
  | .icefieldFillEnd => Sys2Proof.Machine.execIcefieldFillEnd s
  | .firmwareDelivered image => Sys2Proof.Machine.execFirmwareDelivered image s
  | .fwRefused code => Sys2Proof.Machine.execFwRefused code s
  | .keystoneStart => Sys2Proof.Machine.execKeystoneStart s
  | .fwready h => Sys2Proof.Machine.execFwready h s
  | .neighbourWaitEnd timeout => Sys2Proof.Machine.execNeighbourWaitEnd timeout s
  | .operandCredit => Sys2Proof.Machine.execOperandCredit s
  | .localStoreScrub => Sys2Proof.Machine.execLocalStoreScrub s
  | .eventCounterLowRead r n => Sys2Proof.Machine.execEventCounterLowRead r n s

end Sys2Proof.Machine
end

