-- ==== Sys2Proof/Machine/Step.lean ====
section
/-! DEFINITION. One step: the front command of the queue is taken and has its effect; on an empty queue the engine
takes one step of its pace. -/

namespace Sys2Proof.Machine

/-- The engine with no command waiting: one step of R434 passes (log entry 10). -/
def State.idle (s : State) : State := if s.powered then s.advanceTo (s.cycle + 1) else s

/-- Takes the front command of the queue. -/
def step (s : State) : Host.Outcome State Fault Refusal :=
  match s.pending with
  | [] => .next s.idle
  | c :: rest => exec c { s with pending := rest }

/-- The state with the command that a word spells in front of its queue; unchanged where it spells none. -/
def State.withFetchWord (s : State) (nbits w : Nat) : State :=
  match Sys2Proof.decodeTableWord nbits w with
  | some c => { s with pending := c :: s.pending }
  | none => s

end Sys2Proof.Machine
end

