-- ==== Sys2Proof/Laws/State.lean ====
section
/-! SUPPORT. What each update of `State` leaves and what it sets: one lemma for each field and update, by computation, so
that no later proof unfolds a record update. -/

namespace Sys2Proof.Machine

/-! ## Vectors -/

@[simp] theorem vset_get_same {α : Type} {n : Nat} (v : Vector α n) (i : Fin n) (x : α) : (vset v i x).get i = x := by
  change (v.set i.val x i.isLt)[i.val] = x
  simp

theorem vset_get_ne {α : Type} {n : Nat} (v : Vector α n) {i j : Fin n} (x : α) (h : j ≠ i) :
    (vset v i x).get j = v.get j := by
  have : i.val ≠ j.val := fun e => h (Fin.ext e.symm)
  change (v.set i.val x i.isLt)[j.val] = v[j.val]
  rw [Vector.getElem_set_ne _ _ this]

theorem vset_get {α : Type} {n : Nat} (v : Vector α n) (i j : Fin n) (x : α) :
    (vset v i x).get j = if j = i then x else v.get j := by
  split
  · rename_i h; subst h; simp
  · rename_i h; exact vset_get_ne v x h

@[simp] theorem vmod_get_same {α : Type} {n : Nat} (v : Vector α n) (i : Fin n) (f : α → α) :
    (vmod v i f).get i = f (v.get i) := by simp [vmod]

theorem vmod_get_ne {α : Type} {n : Nat} (v : Vector α n) {i j : Fin n} (f : α → α) (h : j ≠ i) :
    (vmod v i f).get j = v.get j := vset_get_ne v _ h

theorem vmod_get {α : Type} {n : Nat} (v : Vector α n) (i j : Fin n) (f : α → α) :
    (vmod v i f).get j = if j = i then f (v.get i) else v.get j := vset_get v i j _

/-! ## The element that an update changes -/

@[simp] theorem State.modHart_hart (s : State) (h : Hart) (f : HartState → HartState) :
    (s.modHart h f).hart h = f (s.hart h) := vmod_get_same _ _ _

theorem State.modHart_hart_ne (s : State) {g h : Hart} (f : HartState → HartState) (hg : g ≠ h) :
    (s.modHart h f).hart g = s.hart g := vmod_get_ne _ _ hg

theorem State.modHart_harts_get (s : State) (g h : Hart) (f : HartState → HartState) :
    (s.modHart h f).hart g = if g = h then f (s.hart h) else s.hart g := vmod_get _ _ _ _

@[simp] theorem State.modCh_chan (s : State) (c : Fin 32) (f : Channel → Channel) :
    (s.modCh c f).chan c = f (s.chan c) := vmod_get_same _ _ _

theorem State.modCh_chan_ne (s : State) {d c : Fin 32} (f : Channel → Channel) (hd : d ≠ c) :
    (s.modCh c f).chan d = s.chan d := vmod_get_ne _ _ hd

theorem State.modTile_get (s : State) (t u : TileReg) (f : Tile → Tile) :
    (s.modTile t f).tiles.get u = if u = t then f (s.tiles.get t) else s.tiles.get u := vmod_get _ _ _ _

/-! ## The fields that an update leaves -/

@[simp] theorem State.modHart_pending (s : State) (h : Hart) (f : HartState → HartState) : (s.modHart h f).pending = s.pending :=
    rfl
@[simp] theorem State.modHart_cfg (s : State) (h : Hart) (f : HartState → HartState) : (s.modHart h f).cfg = s.cfg :=
    rfl
@[simp] theorem State.modHart_cycle (s : State) (h : Hart) (f : HartState → HartState) : (s.modHart h f).cycle = s.cycle :=
    rfl
@[simp] theorem State.modHart_time (s : State) (h : Hart) (f : HartState → HartState) : (s.modHart h f).time = s.time :=
    rfl
@[simp] theorem State.modHart_freeCtr (s : State) (h : Hart) (f : HartState → HartState) : (s.modHart h f).freeCtr = s.freeCtr :=
    rfl
@[simp] theorem State.modHart_powered (s : State) (h : Hart) (f : HartState → HartState) : (s.modHart h f).powered = s.powered :=
    rfl
@[simp] theorem State.modHart_powerReq (s : State) (h : Hart) (f : HartState → HartState) : (s.modHart h f).powerReq = s.powerReq :=
    rfl
@[simp] theorem State.modHart_offWait (s : State) (h : Hart) (f : HartState → HartState) : (s.modHart h f).offWait = s.offWait :=
    rfl
@[simp] theorem State.modHart_railHeld (s : State) (h : Hart) (f : HartState → HartState) : (s.modHart h f).railHeld = s.railHeld :=
    rfl
@[simp] theorem State.modHart_railMap (s : State) (h : Hart) (f : HartState → HartState) : (s.modHart h f).railMap = s.railMap :=
    rfl
@[simp] theorem State.modHart_tiles (s : State) (h : Hart) (f : HartState → HartState) : (s.modHart h f).tiles = s.tiles :=
    rfl
@[simp] theorem State.modHart_leaseQ (s : State) (h : Hart) (f : HartState → HartState) : (s.modHart h f).leaseQ = s.leaseQ :=
    rfl
@[simp] theorem State.modHart_vu (s : State) (h : Hart) (f : HartState → HartState) : (s.modHart h f).vu = s.vu := rfl
@[simp] theorem State.modHart_ice (s : State) (h : Hart) (f : HartState → HartState) : (s.modHart h f).ice = s.ice :=
    rfl
@[simp] theorem State.modHart_drf (s : State) (h : Hart) (f : HartState → HartState) : (s.modHart h f).drf = s.drf :=
    rfl
@[simp] theorem State.modHart_mortar (s : State) (h : Hart) (f : HartState → HartState) : (s.modHart h f).mortar = s.mortar :=
    rfl
@[simp] theorem State.modHart_nbr (s : State) (h : Hart) (f : HartState → HartState) : (s.modHart h f).nbr = s.nbr :=
    rfl
@[simp] theorem State.modHart_hods (s : State) (h : Hart) (f : HartState → HartState) : (s.modHart h f).hods = s.hods :=
    rfl
@[simp] theorem State.modHart_ks (s : State) (h : Hart) (f : HartState → HartState) : (s.modHart h f).ks = s.ks := rfl
@[simp] theorem State.modHart_cal (s : State) (h : Hart) (f : HartState → HartState) : (s.modHart h f).cal = s.cal :=
    rfl
@[simp] theorem State.modHart_obs (s : State) (h : Hart) (f : HartState → HartState) : (s.modHart h f).obs = s.obs :=
    rfl
@[simp] theorem State.modHart_err (s : State) (h : Hart) (f : HartState → HartState) : (s.modHart h f).err = s.err :=
    rfl
@[simp] theorem State.modHart_boot (s : State) (h : Hart) (f : HartState → HartState) : (s.modHart h f).boot = s.boot :=
    rfl

@[simp] theorem State.modTile_pending (s : State) (t : TileReg) (f : Tile → Tile) : (s.modTile t f).pending = s.pending :=
    rfl
@[simp] theorem State.modTile_cfg (s : State) (t : TileReg) (f : Tile → Tile) : (s.modTile t f).cfg = s.cfg := rfl
@[simp] theorem State.modTile_cycle (s : State) (t : TileReg) (f : Tile → Tile) : (s.modTile t f).cycle = s.cycle := rfl
@[simp] theorem State.modTile_time (s : State) (t : TileReg) (f : Tile → Tile) : (s.modTile t f).time = s.time := rfl
@[simp] theorem State.modTile_freeCtr (s : State) (t : TileReg) (f : Tile → Tile) : (s.modTile t f).freeCtr = s.freeCtr :=
    rfl
@[simp] theorem State.modTile_powered (s : State) (t : TileReg) (f : Tile → Tile) : (s.modTile t f).powered = s.powered :=
    rfl
@[simp] theorem State.modTile_powerReq (s : State) (t : TileReg) (f : Tile → Tile) : (s.modTile t f).powerReq = s.powerReq :=
    rfl
@[simp] theorem State.modTile_offWait (s : State) (t : TileReg) (f : Tile → Tile) : (s.modTile t f).offWait = s.offWait :=
    rfl
@[simp] theorem State.modTile_railHeld (s : State) (t : TileReg) (f : Tile → Tile) : (s.modTile t f).railHeld = s.railHeld :=
    rfl
@[simp] theorem State.modTile_railMap (s : State) (t : TileReg) (f : Tile → Tile) : (s.modTile t f).railMap = s.railMap :=
    rfl
@[simp] theorem State.modTile_harts (s : State) (t : TileReg) (f : Tile → Tile) : (s.modTile t f).harts = s.harts := rfl
@[simp] theorem State.modTile_leaseQ (s : State) (t : TileReg) (f : Tile → Tile) : (s.modTile t f).leaseQ = s.leaseQ :=
    rfl
@[simp] theorem State.modTile_vu (s : State) (t : TileReg) (f : Tile → Tile) : (s.modTile t f).vu = s.vu := rfl
@[simp] theorem State.modTile_ice (s : State) (t : TileReg) (f : Tile → Tile) : (s.modTile t f).ice = s.ice := rfl
@[simp] theorem State.modTile_drf (s : State) (t : TileReg) (f : Tile → Tile) : (s.modTile t f).drf = s.drf := rfl
@[simp] theorem State.modTile_mortar (s : State) (t : TileReg) (f : Tile → Tile) : (s.modTile t f).mortar = s.mortar :=
    rfl
@[simp] theorem State.modTile_nbr (s : State) (t : TileReg) (f : Tile → Tile) : (s.modTile t f).nbr = s.nbr := rfl
@[simp] theorem State.modTile_hods (s : State) (t : TileReg) (f : Tile → Tile) : (s.modTile t f).hods = s.hods := rfl
@[simp] theorem State.modTile_ks (s : State) (t : TileReg) (f : Tile → Tile) : (s.modTile t f).ks = s.ks := rfl
@[simp] theorem State.modTile_cal (s : State) (t : TileReg) (f : Tile → Tile) : (s.modTile t f).cal = s.cal := rfl
@[simp] theorem State.modTile_obs (s : State) (t : TileReg) (f : Tile → Tile) : (s.modTile t f).obs = s.obs := rfl
@[simp] theorem State.modTile_err (s : State) (t : TileReg) (f : Tile → Tile) : (s.modTile t f).err = s.err := rfl
@[simp] theorem State.modTile_boot (s : State) (t : TileReg) (f : Tile → Tile) : (s.modTile t f).boot = s.boot := rfl

@[simp] theorem State.modCh_pending (s : State) (c : Fin 32) (f : Channel → Channel) : (s.modCh c f).pending = s.pending :=
    rfl
@[simp] theorem State.modCh_cfg (s : State) (c : Fin 32) (f : Channel → Channel) : (s.modCh c f).cfg = s.cfg := rfl
@[simp] theorem State.modCh_cycle (s : State) (c : Fin 32) (f : Channel → Channel) : (s.modCh c f).cycle = s.cycle :=
    rfl
@[simp] theorem State.modCh_time (s : State) (c : Fin 32) (f : Channel → Channel) : (s.modCh c f).time = s.time := rfl
@[simp] theorem State.modCh_freeCtr (s : State) (c : Fin 32) (f : Channel → Channel) : (s.modCh c f).freeCtr = s.freeCtr :=
    rfl
@[simp] theorem State.modCh_powered (s : State) (c : Fin 32) (f : Channel → Channel) : (s.modCh c f).powered = s.powered :=
    rfl
@[simp] theorem State.modCh_powerReq (s : State) (c : Fin 32) (f : Channel → Channel) : (s.modCh c f).powerReq = s.powerReq :=
    rfl
@[simp] theorem State.modCh_offWait (s : State) (c : Fin 32) (f : Channel → Channel) : (s.modCh c f).offWait = s.offWait :=
    rfl
@[simp] theorem State.modCh_railHeld (s : State) (c : Fin 32) (f : Channel → Channel) : (s.modCh c f).railHeld = s.railHeld :=
    rfl
@[simp] theorem State.modCh_railMap (s : State) (c : Fin 32) (f : Channel → Channel) : (s.modCh c f).railMap = s.railMap :=
    rfl
@[simp] theorem State.modCh_harts (s : State) (c : Fin 32) (f : Channel → Channel) : (s.modCh c f).harts = s.harts :=
    rfl
@[simp] theorem State.modCh_tiles (s : State) (c : Fin 32) (f : Channel → Channel) : (s.modCh c f).tiles = s.tiles :=
    rfl
@[simp] theorem State.modCh_leaseQ (s : State) (c : Fin 32) (f : Channel → Channel) : (s.modCh c f).leaseQ = s.leaseQ :=
    rfl
@[simp] theorem State.modCh_vu (s : State) (c : Fin 32) (f : Channel → Channel) : (s.modCh c f).vu = s.vu := rfl
@[simp] theorem State.modCh_ice (s : State) (c : Fin 32) (f : Channel → Channel) : (s.modCh c f).ice = s.ice := rfl
@[simp] theorem State.modCh_mortar (s : State) (c : Fin 32) (f : Channel → Channel) : (s.modCh c f).mortar = s.mortar :=
    rfl
@[simp] theorem State.modCh_nbr (s : State) (c : Fin 32) (f : Channel → Channel) : (s.modCh c f).nbr = s.nbr := rfl
@[simp] theorem State.modCh_hods (s : State) (c : Fin 32) (f : Channel → Channel) : (s.modCh c f).hods = s.hods := rfl
@[simp] theorem State.modCh_ks (s : State) (c : Fin 32) (f : Channel → Channel) : (s.modCh c f).ks = s.ks := rfl
@[simp] theorem State.modCh_cal (s : State) (c : Fin 32) (f : Channel → Channel) : (s.modCh c f).cal = s.cal := rfl
@[simp] theorem State.modCh_obs (s : State) (c : Fin 32) (f : Channel → Channel) : (s.modCh c f).obs = s.obs := rfl
@[simp] theorem State.modCh_err (s : State) (c : Fin 32) (f : Channel → Channel) : (s.modCh c f).err = s.err := rfl
@[simp] theorem State.modCh_boot (s : State) (c : Fin 32) (f : Channel → Channel) : (s.modCh c f).boot = s.boot := rfl
@[simp] theorem State.modCh_drf_fb (s : State) (c : Fin 32) (f : Channel → Channel) : (s.modCh c f).drf.fb = s.drf.fb :=
    rfl
@[simp] theorem State.modCh_drf_regs (s : State) (c : Fin 32) (f : Channel → Channel) : (s.modCh c f).drf.regs = s.drf.regs :=
    rfl
@[simp] theorem State.modCh_drf_vers (s : State) (c : Fin 32) (f : Channel → Channel) : (s.modCh c f).drf.vers = s.drf.vers :=
    rfl
@[simp] theorem State.modCh_drf_dlckHarts (s : State) (c : Fin 32) (f : Channel → Channel) : (s.modCh c f).drf.dlckHarts = s.drf.dlckHarts :=
    rfl
@[simp] theorem State.modCh_drf_dlckParty (s : State) (c : Fin 32) (f : Channel → Channel) : (s.modCh c f).drf.dlckParty = s.drf.dlckParty :=
    rfl
@[simp] theorem State.modCh_drf_dlckKind (s : State) (c : Fin 32) (f : Channel → Channel) : (s.modCh c f).drf.dlckKind = s.drf.dlckKind :=
    rfl
@[simp] theorem State.modCh_drf_dlckV (s : State) (c : Fin 32) (f : Channel → Channel) : (s.modCh c f).drf.dlckV = s.drf.dlckV :=
    rfl
@[simp] theorem State.modCh_drf_watch (s : State) (c : Fin 32) (f : Channel → Channel) : (s.modCh c f).drf.watch = s.drf.watch :=
    rfl

@[simp] theorem State.modDrfRegs_pending (s : State) (r : Reader) (f : DriftRegs → DriftRegs) : (s.modDrfRegs r f).pending = s.pending :=
    rfl
@[simp] theorem State.modDrfRegs_cfg (s : State) (r : Reader) (f : DriftRegs → DriftRegs) : (s.modDrfRegs r f).cfg = s.cfg :=
    rfl
@[simp] theorem State.modDrfRegs_cycle (s : State) (r : Reader) (f : DriftRegs → DriftRegs) : (s.modDrfRegs r f).cycle = s.cycle :=
    rfl
@[simp] theorem State.modDrfRegs_time (s : State) (r : Reader) (f : DriftRegs → DriftRegs) : (s.modDrfRegs r f).time = s.time :=
    rfl
@[simp] theorem State.modDrfRegs_freeCtr (s : State) (r : Reader) (f : DriftRegs → DriftRegs) : (s.modDrfRegs r f).freeCtr = s.freeCtr :=
    rfl
@[simp] theorem State.modDrfRegs_powered (s : State) (r : Reader) (f : DriftRegs → DriftRegs) : (s.modDrfRegs r f).powered = s.powered :=
    rfl
@[simp] theorem State.modDrfRegs_powerReq (s : State) (r : Reader) (f : DriftRegs → DriftRegs) : (s.modDrfRegs r f).powerReq = s.powerReq :=
    rfl
@[simp] theorem State.modDrfRegs_offWait (s : State) (r : Reader) (f : DriftRegs → DriftRegs) : (s.modDrfRegs r f).offWait = s.offWait :=
    rfl
@[simp] theorem State.modDrfRegs_railHeld (s : State) (r : Reader) (f : DriftRegs → DriftRegs) : (s.modDrfRegs r f).railHeld = s.railHeld :=
    rfl
@[simp] theorem State.modDrfRegs_railMap (s : State) (r : Reader) (f : DriftRegs → DriftRegs) : (s.modDrfRegs r f).railMap = s.railMap :=
    rfl
@[simp] theorem State.modDrfRegs_harts (s : State) (r : Reader) (f : DriftRegs → DriftRegs) : (s.modDrfRegs r f).harts = s.harts :=
    rfl
@[simp] theorem State.modDrfRegs_tiles (s : State) (r : Reader) (f : DriftRegs → DriftRegs) : (s.modDrfRegs r f).tiles = s.tiles :=
    rfl
@[simp] theorem State.modDrfRegs_leaseQ (s : State) (r : Reader) (f : DriftRegs → DriftRegs) : (s.modDrfRegs r f).leaseQ = s.leaseQ :=
    rfl
@[simp] theorem State.modDrfRegs_vu (s : State) (r : Reader) (f : DriftRegs → DriftRegs) : (s.modDrfRegs r f).vu = s.vu :=
    rfl
@[simp] theorem State.modDrfRegs_ice (s : State) (r : Reader) (f : DriftRegs → DriftRegs) : (s.modDrfRegs r f).ice = s.ice :=
    rfl
@[simp] theorem State.modDrfRegs_mortar (s : State) (r : Reader) (f : DriftRegs → DriftRegs) : (s.modDrfRegs r f).mortar = s.mortar :=
    rfl
@[simp] theorem State.modDrfRegs_nbr (s : State) (r : Reader) (f : DriftRegs → DriftRegs) : (s.modDrfRegs r f).nbr = s.nbr :=
    rfl
@[simp] theorem State.modDrfRegs_hods (s : State) (r : Reader) (f : DriftRegs → DriftRegs) : (s.modDrfRegs r f).hods = s.hods :=
    rfl
@[simp] theorem State.modDrfRegs_ks (s : State) (r : Reader) (f : DriftRegs → DriftRegs) : (s.modDrfRegs r f).ks = s.ks :=
    rfl
@[simp] theorem State.modDrfRegs_cal (s : State) (r : Reader) (f : DriftRegs → DriftRegs) : (s.modDrfRegs r f).cal = s.cal :=
    rfl
@[simp] theorem State.modDrfRegs_obs (s : State) (r : Reader) (f : DriftRegs → DriftRegs) : (s.modDrfRegs r f).obs = s.obs :=
    rfl
@[simp] theorem State.modDrfRegs_err (s : State) (r : Reader) (f : DriftRegs → DriftRegs) : (s.modDrfRegs r f).err = s.err :=
    rfl
@[simp] theorem State.modDrfRegs_boot (s : State) (r : Reader) (f : DriftRegs → DriftRegs) : (s.modDrfRegs r f).boot = s.boot :=
    rfl
@[simp] theorem State.modDrfRegs_drf_ch (s : State) (r : Reader) (f : DriftRegs → DriftRegs) : (s.modDrfRegs r f).drf.ch = s.drf.ch :=
    rfl
@[simp] theorem State.modDrfRegs_drf_fb (s : State) (r : Reader) (f : DriftRegs → DriftRegs) : (s.modDrfRegs r f).drf.fb = s.drf.fb :=
    rfl
@[simp] theorem State.modDrfRegs_drf_vers (s : State) (r : Reader) (f : DriftRegs → DriftRegs) : (s.modDrfRegs r f).drf.vers = s.drf.vers :=
    rfl
@[simp] theorem State.modDrfRegs_drf_dlckHarts (s : State) (r : Reader) (f : DriftRegs → DriftRegs) : (s.modDrfRegs r f).drf.dlckHarts = s.drf.dlckHarts :=
    rfl
@[simp] theorem State.modDrfRegs_drf_dlckParty (s : State) (r : Reader) (f : DriftRegs → DriftRegs) : (s.modDrfRegs r f).drf.dlckParty = s.drf.dlckParty :=
    rfl
@[simp] theorem State.modDrfRegs_drf_dlckKind (s : State) (r : Reader) (f : DriftRegs → DriftRegs) : (s.modDrfRegs r f).drf.dlckKind = s.drf.dlckKind :=
    rfl
@[simp] theorem State.modDrfRegs_drf_dlckV (s : State) (r : Reader) (f : DriftRegs → DriftRegs) : (s.modDrfRegs r f).drf.dlckV = s.drf.dlckV :=
    rfl
@[simp] theorem State.modDrfRegs_drf_watch (s : State) (r : Reader) (f : DriftRegs → DriftRegs) : (s.modDrfRegs r f).drf.watch = s.drf.watch :=
    rfl

@[simp] theorem State.modPort_pending (s : State) (p : Fin 4) (f : Port → Port) : (s.modPort p f).pending = s.pending :=
    rfl
@[simp] theorem State.modPort_cfg (s : State) (p : Fin 4) (f : Port → Port) : (s.modPort p f).cfg = s.cfg := rfl
@[simp] theorem State.modPort_cycle (s : State) (p : Fin 4) (f : Port → Port) : (s.modPort p f).cycle = s.cycle := rfl
@[simp] theorem State.modPort_time (s : State) (p : Fin 4) (f : Port → Port) : (s.modPort p f).time = s.time := rfl
@[simp] theorem State.modPort_freeCtr (s : State) (p : Fin 4) (f : Port → Port) : (s.modPort p f).freeCtr = s.freeCtr :=
    rfl
@[simp] theorem State.modPort_powered (s : State) (p : Fin 4) (f : Port → Port) : (s.modPort p f).powered = s.powered :=
    rfl
@[simp] theorem State.modPort_powerReq (s : State) (p : Fin 4) (f : Port → Port) : (s.modPort p f).powerReq = s.powerReq :=
    rfl
@[simp] theorem State.modPort_offWait (s : State) (p : Fin 4) (f : Port → Port) : (s.modPort p f).offWait = s.offWait :=
    rfl
@[simp] theorem State.modPort_railHeld (s : State) (p : Fin 4) (f : Port → Port) : (s.modPort p f).railHeld = s.railHeld :=
    rfl
@[simp] theorem State.modPort_railMap (s : State) (p : Fin 4) (f : Port → Port) : (s.modPort p f).railMap = s.railMap :=
    rfl
@[simp] theorem State.modPort_harts (s : State) (p : Fin 4) (f : Port → Port) : (s.modPort p f).harts = s.harts := rfl
@[simp] theorem State.modPort_tiles (s : State) (p : Fin 4) (f : Port → Port) : (s.modPort p f).tiles = s.tiles := rfl
@[simp] theorem State.modPort_leaseQ (s : State) (p : Fin 4) (f : Port → Port) : (s.modPort p f).leaseQ = s.leaseQ :=
    rfl
@[simp] theorem State.modPort_vu (s : State) (p : Fin 4) (f : Port → Port) : (s.modPort p f).vu = s.vu := rfl
@[simp] theorem State.modPort_ice (s : State) (p : Fin 4) (f : Port → Port) : (s.modPort p f).ice = s.ice := rfl
@[simp] theorem State.modPort_drf (s : State) (p : Fin 4) (f : Port → Port) : (s.modPort p f).drf = s.drf := rfl
@[simp] theorem State.modPort_mortar (s : State) (p : Fin 4) (f : Port → Port) : (s.modPort p f).mortar = s.mortar :=
    rfl
@[simp] theorem State.modPort_hods (s : State) (p : Fin 4) (f : Port → Port) : (s.modPort p f).hods = s.hods := rfl
@[simp] theorem State.modPort_ks (s : State) (p : Fin 4) (f : Port → Port) : (s.modPort p f).ks = s.ks := rfl
@[simp] theorem State.modPort_cal (s : State) (p : Fin 4) (f : Port → Port) : (s.modPort p f).cal = s.cal := rfl
@[simp] theorem State.modPort_obs (s : State) (p : Fin 4) (f : Port → Port) : (s.modPort p f).obs = s.obs := rfl
@[simp] theorem State.modPort_err (s : State) (p : Fin 4) (f : Port → Port) : (s.modPort p f).err = s.err := rfl
@[simp] theorem State.modPort_boot (s : State) (p : Fin 4) (f : Port → Port) : (s.modPort p f).boot = s.boot := rfl
@[simp] theorem State.modPort_nbr_windows (s : State) (p : Fin 4) (f : Port → Port) : (s.modPort p f).nbr.windows = s.nbr.windows :=
    rfl
@[simp] theorem State.modPort_nbr_regs (s : State) (p : Fin 4) (f : Port → Port) : (s.modPort p f).nbr.regs = s.nbr.regs :=
    rfl
@[simp] theorem State.modPort_nbr_late (s : State) (p : Fin 4) (f : Port → Port) : (s.modPort p f).nbr.late = s.nbr.late :=
    rfl
@[simp] theorem State.modPort_nbr_vers (s : State) (p : Fin 4) (f : Port → Port) : (s.modPort p f).nbr.vers = s.nbr.vers :=
    rfl
@[simp] theorem State.modPort_nbr_connected (s : State) (p : Fin 4) (f : Port → Port) : (s.modPort p f).nbr.connected = s.nbr.connected :=
    rfl
@[simp] theorem State.modPort_nbr_closers (s : State) (p : Fin 4) (f : Port → Port) : (s.modPort p f).nbr.closers = s.nbr.closers :=
    rfl
@[simp] theorem State.modPort_nbr_reading (s : State) (p : Fin 4) (f : Port → Port) : (s.modPort p f).nbr.reading = s.nbr.reading :=
    rfl
@[simp] theorem State.modPort_nbr_nextSend (s : State) (p : Fin 4) (f : Port → Port) : (s.modPort p f).nbr.nextSend = s.nbr.nextSend :=
    rfl

@[simp] theorem State.modWin_pending (s : State) (w : Fin 64) (f : Window → Window) : (s.modWin w f).pending = s.pending :=
    rfl
@[simp] theorem State.modWin_cfg (s : State) (w : Fin 64) (f : Window → Window) : (s.modWin w f).cfg = s.cfg := rfl
@[simp] theorem State.modWin_cycle (s : State) (w : Fin 64) (f : Window → Window) : (s.modWin w f).cycle = s.cycle :=
    rfl
@[simp] theorem State.modWin_time (s : State) (w : Fin 64) (f : Window → Window) : (s.modWin w f).time = s.time := rfl
@[simp] theorem State.modWin_freeCtr (s : State) (w : Fin 64) (f : Window → Window) : (s.modWin w f).freeCtr = s.freeCtr :=
    rfl
@[simp] theorem State.modWin_powered (s : State) (w : Fin 64) (f : Window → Window) : (s.modWin w f).powered = s.powered :=
    rfl
@[simp] theorem State.modWin_powerReq (s : State) (w : Fin 64) (f : Window → Window) : (s.modWin w f).powerReq = s.powerReq :=
    rfl
@[simp] theorem State.modWin_offWait (s : State) (w : Fin 64) (f : Window → Window) : (s.modWin w f).offWait = s.offWait :=
    rfl
@[simp] theorem State.modWin_railHeld (s : State) (w : Fin 64) (f : Window → Window) : (s.modWin w f).railHeld = s.railHeld :=
    rfl
@[simp] theorem State.modWin_railMap (s : State) (w : Fin 64) (f : Window → Window) : (s.modWin w f).railMap = s.railMap :=
    rfl
@[simp] theorem State.modWin_harts (s : State) (w : Fin 64) (f : Window → Window) : (s.modWin w f).harts = s.harts :=
    rfl
@[simp] theorem State.modWin_tiles (s : State) (w : Fin 64) (f : Window → Window) : (s.modWin w f).tiles = s.tiles :=
    rfl
@[simp] theorem State.modWin_leaseQ (s : State) (w : Fin 64) (f : Window → Window) : (s.modWin w f).leaseQ = s.leaseQ :=
    rfl
@[simp] theorem State.modWin_vu (s : State) (w : Fin 64) (f : Window → Window) : (s.modWin w f).vu = s.vu := rfl
@[simp] theorem State.modWin_ice (s : State) (w : Fin 64) (f : Window → Window) : (s.modWin w f).ice = s.ice := rfl
@[simp] theorem State.modWin_drf (s : State) (w : Fin 64) (f : Window → Window) : (s.modWin w f).drf = s.drf := rfl
@[simp] theorem State.modWin_mortar (s : State) (w : Fin 64) (f : Window → Window) : (s.modWin w f).mortar = s.mortar :=
    rfl
@[simp] theorem State.modWin_hods (s : State) (w : Fin 64) (f : Window → Window) : (s.modWin w f).hods = s.hods := rfl
@[simp] theorem State.modWin_ks (s : State) (w : Fin 64) (f : Window → Window) : (s.modWin w f).ks = s.ks := rfl
@[simp] theorem State.modWin_cal (s : State) (w : Fin 64) (f : Window → Window) : (s.modWin w f).cal = s.cal := rfl
@[simp] theorem State.modWin_obs (s : State) (w : Fin 64) (f : Window → Window) : (s.modWin w f).obs = s.obs := rfl
@[simp] theorem State.modWin_err (s : State) (w : Fin 64) (f : Window → Window) : (s.modWin w f).err = s.err := rfl
@[simp] theorem State.modWin_boot (s : State) (w : Fin 64) (f : Window → Window) : (s.modWin w f).boot = s.boot := rfl
@[simp] theorem State.modWin_nbr_ports (s : State) (w : Fin 64) (f : Window → Window) : (s.modWin w f).nbr.ports = s.nbr.ports :=
    rfl
@[simp] theorem State.modWin_nbr_regs (s : State) (w : Fin 64) (f : Window → Window) : (s.modWin w f).nbr.regs = s.nbr.regs :=
    rfl
@[simp] theorem State.modWin_nbr_late (s : State) (w : Fin 64) (f : Window → Window) : (s.modWin w f).nbr.late = s.nbr.late :=
    rfl
@[simp] theorem State.modWin_nbr_vers (s : State) (w : Fin 64) (f : Window → Window) : (s.modWin w f).nbr.vers = s.nbr.vers :=
    rfl
@[simp] theorem State.modWin_nbr_connected (s : State) (w : Fin 64) (f : Window → Window) : (s.modWin w f).nbr.connected = s.nbr.connected :=
    rfl
@[simp] theorem State.modWin_nbr_closers (s : State) (w : Fin 64) (f : Window → Window) : (s.modWin w f).nbr.closers = s.nbr.closers :=
    rfl
@[simp] theorem State.modWin_nbr_reading (s : State) (w : Fin 64) (f : Window → Window) : (s.modWin w f).nbr.reading = s.nbr.reading :=
    rfl
@[simp] theorem State.modWin_nbr_nextSend (s : State) (w : Fin 64) (f : Window → Window) : (s.modWin w f).nbr.nextSend = s.nbr.nextSend :=
    rfl

@[simp] theorem State.modNbrRegs_pending (s : State) (r : Reader) (f : NbrRegs → NbrRegs) : (s.modNbrRegs r f).pending = s.pending :=
    rfl
@[simp] theorem State.modNbrRegs_cfg (s : State) (r : Reader) (f : NbrRegs → NbrRegs) : (s.modNbrRegs r f).cfg = s.cfg :=
    rfl
@[simp] theorem State.modNbrRegs_cycle (s : State) (r : Reader) (f : NbrRegs → NbrRegs) : (s.modNbrRegs r f).cycle = s.cycle :=
    rfl
@[simp] theorem State.modNbrRegs_time (s : State) (r : Reader) (f : NbrRegs → NbrRegs) : (s.modNbrRegs r f).time = s.time :=
    rfl
@[simp] theorem State.modNbrRegs_freeCtr (s : State) (r : Reader) (f : NbrRegs → NbrRegs) : (s.modNbrRegs r f).freeCtr = s.freeCtr :=
    rfl
@[simp] theorem State.modNbrRegs_powered (s : State) (r : Reader) (f : NbrRegs → NbrRegs) : (s.modNbrRegs r f).powered = s.powered :=
    rfl
@[simp] theorem State.modNbrRegs_powerReq (s : State) (r : Reader) (f : NbrRegs → NbrRegs) : (s.modNbrRegs r f).powerReq = s.powerReq :=
    rfl
@[simp] theorem State.modNbrRegs_offWait (s : State) (r : Reader) (f : NbrRegs → NbrRegs) : (s.modNbrRegs r f).offWait = s.offWait :=
    rfl
@[simp] theorem State.modNbrRegs_railHeld (s : State) (r : Reader) (f : NbrRegs → NbrRegs) : (s.modNbrRegs r f).railHeld = s.railHeld :=
    rfl
@[simp] theorem State.modNbrRegs_railMap (s : State) (r : Reader) (f : NbrRegs → NbrRegs) : (s.modNbrRegs r f).railMap = s.railMap :=
    rfl
@[simp] theorem State.modNbrRegs_harts (s : State) (r : Reader) (f : NbrRegs → NbrRegs) : (s.modNbrRegs r f).harts = s.harts :=
    rfl
@[simp] theorem State.modNbrRegs_tiles (s : State) (r : Reader) (f : NbrRegs → NbrRegs) : (s.modNbrRegs r f).tiles = s.tiles :=
    rfl
@[simp] theorem State.modNbrRegs_leaseQ (s : State) (r : Reader) (f : NbrRegs → NbrRegs) : (s.modNbrRegs r f).leaseQ = s.leaseQ :=
    rfl
@[simp] theorem State.modNbrRegs_vu (s : State) (r : Reader) (f : NbrRegs → NbrRegs) : (s.modNbrRegs r f).vu = s.vu :=
    rfl
@[simp] theorem State.modNbrRegs_ice (s : State) (r : Reader) (f : NbrRegs → NbrRegs) : (s.modNbrRegs r f).ice = s.ice :=
    rfl
@[simp] theorem State.modNbrRegs_drf (s : State) (r : Reader) (f : NbrRegs → NbrRegs) : (s.modNbrRegs r f).drf = s.drf :=
    rfl
@[simp] theorem State.modNbrRegs_mortar (s : State) (r : Reader) (f : NbrRegs → NbrRegs) : (s.modNbrRegs r f).mortar = s.mortar :=
    rfl
@[simp] theorem State.modNbrRegs_hods (s : State) (r : Reader) (f : NbrRegs → NbrRegs) : (s.modNbrRegs r f).hods = s.hods :=
    rfl
@[simp] theorem State.modNbrRegs_ks (s : State) (r : Reader) (f : NbrRegs → NbrRegs) : (s.modNbrRegs r f).ks = s.ks :=
    rfl
@[simp] theorem State.modNbrRegs_cal (s : State) (r : Reader) (f : NbrRegs → NbrRegs) : (s.modNbrRegs r f).cal = s.cal :=
    rfl
@[simp] theorem State.modNbrRegs_obs (s : State) (r : Reader) (f : NbrRegs → NbrRegs) : (s.modNbrRegs r f).obs = s.obs :=
    rfl
@[simp] theorem State.modNbrRegs_err (s : State) (r : Reader) (f : NbrRegs → NbrRegs) : (s.modNbrRegs r f).err = s.err :=
    rfl
@[simp] theorem State.modNbrRegs_boot (s : State) (r : Reader) (f : NbrRegs → NbrRegs) : (s.modNbrRegs r f).boot = s.boot :=
    rfl
@[simp] theorem State.modNbrRegs_nbr_ports (s : State) (r : Reader) (f : NbrRegs → NbrRegs) : (s.modNbrRegs r f).nbr.ports = s.nbr.ports :=
    rfl
@[simp] theorem State.modNbrRegs_nbr_windows (s : State) (r : Reader) (f : NbrRegs → NbrRegs) : (s.modNbrRegs r f).nbr.windows = s.nbr.windows :=
    rfl
@[simp] theorem State.modNbrRegs_nbr_late (s : State) (r : Reader) (f : NbrRegs → NbrRegs) : (s.modNbrRegs r f).nbr.late = s.nbr.late :=
    rfl
@[simp] theorem State.modNbrRegs_nbr_vers (s : State) (r : Reader) (f : NbrRegs → NbrRegs) : (s.modNbrRegs r f).nbr.vers = s.nbr.vers :=
    rfl
@[simp] theorem State.modNbrRegs_nbr_connected (s : State) (r : Reader) (f : NbrRegs → NbrRegs) : (s.modNbrRegs r f).nbr.connected = s.nbr.connected :=
    rfl
@[simp] theorem State.modNbrRegs_nbr_closers (s : State) (r : Reader) (f : NbrRegs → NbrRegs) : (s.modNbrRegs r f).nbr.closers = s.nbr.closers :=
    rfl
@[simp] theorem State.modNbrRegs_nbr_reading (s : State) (r : Reader) (f : NbrRegs → NbrRegs) : (s.modNbrRegs r f).nbr.reading = s.nbr.reading :=
    rfl
@[simp] theorem State.modNbrRegs_nbr_nextSend (s : State) (r : Reader) (f : NbrRegs → NbrRegs) : (s.modNbrRegs r f).nbr.nextSend = s.nbr.nextSend :=
    rfl

@[simp] theorem State.modHod_pending (s : State) (h : Fin 3) (f : Hod → Hod) : (s.modHod h f).pending = s.pending := rfl
@[simp] theorem State.modHod_cfg (s : State) (h : Fin 3) (f : Hod → Hod) : (s.modHod h f).cfg = s.cfg := rfl
@[simp] theorem State.modHod_cycle (s : State) (h : Fin 3) (f : Hod → Hod) : (s.modHod h f).cycle = s.cycle := rfl
@[simp] theorem State.modHod_time (s : State) (h : Fin 3) (f : Hod → Hod) : (s.modHod h f).time = s.time := rfl
@[simp] theorem State.modHod_freeCtr (s : State) (h : Fin 3) (f : Hod → Hod) : (s.modHod h f).freeCtr = s.freeCtr := rfl
@[simp] theorem State.modHod_powered (s : State) (h : Fin 3) (f : Hod → Hod) : (s.modHod h f).powered = s.powered := rfl
@[simp] theorem State.modHod_powerReq (s : State) (h : Fin 3) (f : Hod → Hod) : (s.modHod h f).powerReq = s.powerReq :=
    rfl
@[simp] theorem State.modHod_offWait (s : State) (h : Fin 3) (f : Hod → Hod) : (s.modHod h f).offWait = s.offWait := rfl
@[simp] theorem State.modHod_railHeld (s : State) (h : Fin 3) (f : Hod → Hod) : (s.modHod h f).railHeld = s.railHeld :=
    rfl
@[simp] theorem State.modHod_railMap (s : State) (h : Fin 3) (f : Hod → Hod) : (s.modHod h f).railMap = s.railMap := rfl
@[simp] theorem State.modHod_harts (s : State) (h : Fin 3) (f : Hod → Hod) : (s.modHod h f).harts = s.harts := rfl
@[simp] theorem State.modHod_tiles (s : State) (h : Fin 3) (f : Hod → Hod) : (s.modHod h f).tiles = s.tiles := rfl
@[simp] theorem State.modHod_leaseQ (s : State) (h : Fin 3) (f : Hod → Hod) : (s.modHod h f).leaseQ = s.leaseQ := rfl
@[simp] theorem State.modHod_vu (s : State) (h : Fin 3) (f : Hod → Hod) : (s.modHod h f).vu = s.vu := rfl
@[simp] theorem State.modHod_ice (s : State) (h : Fin 3) (f : Hod → Hod) : (s.modHod h f).ice = s.ice := rfl
@[simp] theorem State.modHod_drf (s : State) (h : Fin 3) (f : Hod → Hod) : (s.modHod h f).drf = s.drf := rfl
@[simp] theorem State.modHod_mortar (s : State) (h : Fin 3) (f : Hod → Hod) : (s.modHod h f).mortar = s.mortar := rfl
@[simp] theorem State.modHod_nbr (s : State) (h : Fin 3) (f : Hod → Hod) : (s.modHod h f).nbr = s.nbr := rfl
@[simp] theorem State.modHod_ks (s : State) (h : Fin 3) (f : Hod → Hod) : (s.modHod h f).ks = s.ks := rfl
@[simp] theorem State.modHod_cal (s : State) (h : Fin 3) (f : Hod → Hod) : (s.modHod h f).cal = s.cal := rfl
@[simp] theorem State.modHod_obs (s : State) (h : Fin 3) (f : Hod → Hod) : (s.modHod h f).obs = s.obs := rfl
@[simp] theorem State.modHod_err (s : State) (h : Fin 3) (f : Hod → Hod) : (s.modHod h f).err = s.err := rfl
@[simp] theorem State.modHod_boot (s : State) (h : Fin 3) (f : Hod → Hod) : (s.modHod h f).boot = s.boot := rfl
@[simp] theorem State.modHod_hods_orders (s : State) (h : Fin 3) (f : Hod → Hod) : (s.modHod h f).hods.orders = s.hods.orders :=
    rfl
@[simp] theorem State.modHod_hods_openOrders (s : State) (h : Fin 3) (f : Hod → Hod) : (s.modHod h f).hods.openOrders = s.hods.openOrders :=
    rfl
@[simp] theorem State.modHod_hods_nextOrder (s : State) (h : Fin 3) (f : Hod → Hod) : (s.modHod h f).hods.nextOrder = s.hods.nextOrder :=
    rfl
@[simp] theorem State.modHod_hods_kills (s : State) (h : Fin 3) (f : Hod → Hod) : (s.modHod h f).hods.kills = s.hods.kills :=
    rfl
@[simp] theorem State.modHod_hods_killed (s : State) (h : Fin 3) (f : Hod → Hod) : (s.modHod h f).hods.killed = s.hods.killed :=
    rfl
@[simp] theorem State.modHod_hods_pageReqs (s : State) (h : Fin 3) (f : Hod → Hod) : (s.modHod h f).hods.pageReqs = s.hods.pageReqs :=
    rfl
@[simp] theorem State.modHod_hods_reportSeq (s : State) (h : Fin 3) (f : Hod → Hod) : (s.modHod h f).hods.reportSeq = s.hods.reportSeq :=
    rfl
@[simp] theorem State.modHod_hods_exts (s : State) (h : Fin 3) (f : Hod → Hod) : (s.modHod h f).hods.exts = s.hods.exts :=
    rfl
@[simp] theorem State.modHod_hods_calls (s : State) (h : Fin 3) (f : Hod → Hod) : (s.modHod h f).hods.calls = s.hods.calls :=
    rfl
@[simp] theorem State.modHod_hods_outQ (s : State) (h : Fin 3) (f : Hod → Hod) : (s.modHod h f).hods.outQ = s.hods.outQ :=
    rfl
@[simp] theorem State.modHod_hods_verifying (s : State) (h : Fin 3) (f : Hod → Hod) : (s.modHod h f).hods.verifying = s.hods.verifying :=
    rfl

@[simp] theorem State.modTimer_pending (s : State) (n : Fin 4) (f : Timer → Timer) : (s.modTimer n f).pending = s.pending :=
    rfl
@[simp] theorem State.modTimer_cfg (s : State) (n : Fin 4) (f : Timer → Timer) : (s.modTimer n f).cfg = s.cfg := rfl
@[simp] theorem State.modTimer_cycle (s : State) (n : Fin 4) (f : Timer → Timer) : (s.modTimer n f).cycle = s.cycle :=
    rfl
@[simp] theorem State.modTimer_time (s : State) (n : Fin 4) (f : Timer → Timer) : (s.modTimer n f).time = s.time := rfl
@[simp] theorem State.modTimer_freeCtr (s : State) (n : Fin 4) (f : Timer → Timer) : (s.modTimer n f).freeCtr = s.freeCtr :=
    rfl
@[simp] theorem State.modTimer_powered (s : State) (n : Fin 4) (f : Timer → Timer) : (s.modTimer n f).powered = s.powered :=
    rfl
@[simp] theorem State.modTimer_powerReq (s : State) (n : Fin 4) (f : Timer → Timer) : (s.modTimer n f).powerReq = s.powerReq :=
    rfl
@[simp] theorem State.modTimer_offWait (s : State) (n : Fin 4) (f : Timer → Timer) : (s.modTimer n f).offWait = s.offWait :=
    rfl
@[simp] theorem State.modTimer_railHeld (s : State) (n : Fin 4) (f : Timer → Timer) : (s.modTimer n f).railHeld = s.railHeld :=
    rfl
@[simp] theorem State.modTimer_railMap (s : State) (n : Fin 4) (f : Timer → Timer) : (s.modTimer n f).railMap = s.railMap :=
    rfl
@[simp] theorem State.modTimer_harts (s : State) (n : Fin 4) (f : Timer → Timer) : (s.modTimer n f).harts = s.harts :=
    rfl
@[simp] theorem State.modTimer_tiles (s : State) (n : Fin 4) (f : Timer → Timer) : (s.modTimer n f).tiles = s.tiles :=
    rfl
@[simp] theorem State.modTimer_leaseQ (s : State) (n : Fin 4) (f : Timer → Timer) : (s.modTimer n f).leaseQ = s.leaseQ :=
    rfl
@[simp] theorem State.modTimer_vu (s : State) (n : Fin 4) (f : Timer → Timer) : (s.modTimer n f).vu = s.vu := rfl
@[simp] theorem State.modTimer_ice (s : State) (n : Fin 4) (f : Timer → Timer) : (s.modTimer n f).ice = s.ice := rfl
@[simp] theorem State.modTimer_drf (s : State) (n : Fin 4) (f : Timer → Timer) : (s.modTimer n f).drf = s.drf := rfl
@[simp] theorem State.modTimer_mortar (s : State) (n : Fin 4) (f : Timer → Timer) : (s.modTimer n f).mortar = s.mortar :=
    rfl
@[simp] theorem State.modTimer_nbr (s : State) (n : Fin 4) (f : Timer → Timer) : (s.modTimer n f).nbr = s.nbr := rfl
@[simp] theorem State.modTimer_hods (s : State) (n : Fin 4) (f : Timer → Timer) : (s.modTimer n f).hods = s.hods := rfl
@[simp] theorem State.modTimer_cal (s : State) (n : Fin 4) (f : Timer → Timer) : (s.modTimer n f).cal = s.cal := rfl
@[simp] theorem State.modTimer_obs (s : State) (n : Fin 4) (f : Timer → Timer) : (s.modTimer n f).obs = s.obs := rfl
@[simp] theorem State.modTimer_err (s : State) (n : Fin 4) (f : Timer → Timer) : (s.modTimer n f).err = s.err := rfl
@[simp] theorem State.modTimer_boot (s : State) (n : Fin 4) (f : Timer → Timer) : (s.modTimer n f).boot = s.boot := rfl
@[simp] theorem State.modTimer_ks_store (s : State) (n : Fin 4) (f : Timer → Timer) : (s.modTimer n f).ks.store = s.ks.store :=
    rfl
@[simp] theorem State.modTimer_ks_scrubAt (s : State) (n : Fin 4) (f : Timer → Timer) : (s.modTimer n f).ks.scrubAt = s.ks.scrubAt :=
    rfl
@[simp] theorem State.modTimer_ks_confReg (s : State) (n : Fin 4) (f : Timer → Timer) : (s.modTimer n f).ks.confReg = s.ks.confReg :=
    rfl
@[simp] theorem State.modTimer_ks_confReason (s : State) (n : Fin 4) (f : Timer → Timer) : (s.modTimer n f).ks.confReason = s.ks.confReason :=
    rfl
@[simp] theorem State.modTimer_ks_confSrc (s : State) (n : Fin 4) (f : Timer → Timer) : (s.modTimer n f).ks.confSrc = s.ks.confSrc :=
    rfl
@[simp] theorem State.modTimer_ks_confV (s : State) (n : Fin 4) (f : Timer → Timer) : (s.modTimer n f).ks.confV = s.ks.confV :=
    rfl
@[simp] theorem State.modTimer_ks_preempt (s : State) (n : Fin 4) (f : Timer → Timer) : (s.modTimer n f).ks.preempt = s.ks.preempt :=
    rfl

@[simp] theorem State.modLane_pending (s : State) (g : Fin 17) (f : LaneGroup → LaneGroup) : (s.modLane g f).pending = s.pending :=
    rfl
@[simp] theorem State.modLane_cfg (s : State) (g : Fin 17) (f : LaneGroup → LaneGroup) : (s.modLane g f).cfg = s.cfg :=
    rfl
@[simp] theorem State.modLane_cycle (s : State) (g : Fin 17) (f : LaneGroup → LaneGroup) : (s.modLane g f).cycle = s.cycle :=
    rfl
@[simp] theorem State.modLane_time (s : State) (g : Fin 17) (f : LaneGroup → LaneGroup) : (s.modLane g f).time = s.time :=
    rfl
@[simp] theorem State.modLane_freeCtr (s : State) (g : Fin 17) (f : LaneGroup → LaneGroup) : (s.modLane g f).freeCtr = s.freeCtr :=
    rfl
@[simp] theorem State.modLane_powered (s : State) (g : Fin 17) (f : LaneGroup → LaneGroup) : (s.modLane g f).powered = s.powered :=
    rfl
@[simp] theorem State.modLane_powerReq (s : State) (g : Fin 17) (f : LaneGroup → LaneGroup) : (s.modLane g f).powerReq = s.powerReq :=
    rfl
@[simp] theorem State.modLane_offWait (s : State) (g : Fin 17) (f : LaneGroup → LaneGroup) : (s.modLane g f).offWait = s.offWait :=
    rfl
@[simp] theorem State.modLane_railHeld (s : State) (g : Fin 17) (f : LaneGroup → LaneGroup) : (s.modLane g f).railHeld = s.railHeld :=
    rfl
@[simp] theorem State.modLane_railMap (s : State) (g : Fin 17) (f : LaneGroup → LaneGroup) : (s.modLane g f).railMap = s.railMap :=
    rfl
@[simp] theorem State.modLane_harts (s : State) (g : Fin 17) (f : LaneGroup → LaneGroup) : (s.modLane g f).harts = s.harts :=
    rfl
@[simp] theorem State.modLane_tiles (s : State) (g : Fin 17) (f : LaneGroup → LaneGroup) : (s.modLane g f).tiles = s.tiles :=
    rfl
@[simp] theorem State.modLane_leaseQ (s : State) (g : Fin 17) (f : LaneGroup → LaneGroup) : (s.modLane g f).leaseQ = s.leaseQ :=
    rfl
@[simp] theorem State.modLane_vu (s : State) (g : Fin 17) (f : LaneGroup → LaneGroup) : (s.modLane g f).vu = s.vu := rfl
@[simp] theorem State.modLane_ice (s : State) (g : Fin 17) (f : LaneGroup → LaneGroup) : (s.modLane g f).ice = s.ice :=
    rfl
@[simp] theorem State.modLane_drf (s : State) (g : Fin 17) (f : LaneGroup → LaneGroup) : (s.modLane g f).drf = s.drf :=
    rfl
@[simp] theorem State.modLane_mortar (s : State) (g : Fin 17) (f : LaneGroup → LaneGroup) : (s.modLane g f).mortar = s.mortar :=
    rfl
@[simp] theorem State.modLane_nbr (s : State) (g : Fin 17) (f : LaneGroup → LaneGroup) : (s.modLane g f).nbr = s.nbr :=
    rfl
@[simp] theorem State.modLane_hods (s : State) (g : Fin 17) (f : LaneGroup → LaneGroup) : (s.modLane g f).hods = s.hods :=
    rfl
@[simp] theorem State.modLane_ks (s : State) (g : Fin 17) (f : LaneGroup → LaneGroup) : (s.modLane g f).ks = s.ks := rfl
@[simp] theorem State.modLane_cal (s : State) (g : Fin 17) (f : LaneGroup → LaneGroup) : (s.modLane g f).cal = s.cal :=
    rfl
@[simp] theorem State.modLane_obs (s : State) (g : Fin 17) (f : LaneGroup → LaneGroup) : (s.modLane g f).obs = s.obs :=
    rfl
@[simp] theorem State.modLane_boot (s : State) (g : Fin 17) (f : LaneGroup → LaneGroup) : (s.modLane g f).boot = s.boot :=
    rfl
@[simp] theorem State.modLane_err_stat (s : State) (g : Fin 17) (f : LaneGroup → LaneGroup) : (s.modLane g f).err.stat = s.err.stat :=
    rfl
@[simp] theorem State.modLane_err_frec (s : State) (g : Fin 17) (f : LaneGroup → LaneGroup) : (s.modLane g f).err.frec = s.err.frec :=
    rfl
@[simp] theorem State.modLane_err_iceCe (s : State) (g : Fin 17) (f : LaneGroup → LaneGroup) : (s.modLane g f).err.iceCe = s.err.iceCe :=
    rfl
@[simp] theorem State.modLane_err_iceUe (s : State) (g : Fin 17) (f : LaneGroup → LaneGroup) : (s.modLane g f).err.iceUe = s.err.iceUe :=
    rfl
@[simp] theorem State.modLane_err_icePoison (s : State) (g : Fin 17) (f : LaneGroup → LaneGroup) : (s.modLane g f).err.icePoison = s.err.icePoison :=
    rfl
@[simp] theorem State.modLane_err_ksCe (s : State) (g : Fin 17) (f : LaneGroup → LaneGroup) : (s.modLane g f).err.ksCe = s.err.ksCe :=
    rfl
@[simp] theorem State.modLane_err_drfCh (s : State) (g : Fin 17) (f : LaneGroup → LaneGroup) : (s.modLane g f).err.drfCh = s.err.drfCh :=
    rfl
@[simp] theorem State.modLane_err_drfMor (s : State) (g : Fin 17) (f : LaneGroup → LaneGroup) : (s.modLane g f).err.drfMor = s.err.drfMor :=
    rfl
@[simp] theorem State.modLane_err_drfKind (s : State) (g : Fin 17) (f : LaneGroup → LaneGroup) : (s.modLane g f).err.drfKind = s.err.drfKind :=
    rfl
@[simp] theorem State.modLane_err_drfLost (s : State) (g : Fin 17) (f : LaneGroup → LaneGroup) : (s.modLane g f).err.drfLost = s.err.drfLost :=
    rfl
@[simp] theorem State.modLane_err_drfCount (s : State) (g : Fin 17) (f : LaneGroup → LaneGroup) : (s.modLane g f).err.drfCount = s.err.drfCount :=
    rfl
@[simp] theorem State.modLane_err_recovery (s : State) (g : Fin 17) (f : LaneGroup → LaneGroup) : (s.modLane g f).err.recovery = s.err.recovery :=
    rfl

@[simp] theorem State.modSb_pending (s : State) (f : Scoreboard → Scoreboard) : (s.modSb f).pending = s.pending := rfl
@[simp] theorem State.modSb_cfg (s : State) (f : Scoreboard → Scoreboard) : (s.modSb f).cfg = s.cfg := rfl
@[simp] theorem State.modSb_cycle (s : State) (f : Scoreboard → Scoreboard) : (s.modSb f).cycle = s.cycle := rfl
@[simp] theorem State.modSb_time (s : State) (f : Scoreboard → Scoreboard) : (s.modSb f).time = s.time := rfl
@[simp] theorem State.modSb_freeCtr (s : State) (f : Scoreboard → Scoreboard) : (s.modSb f).freeCtr = s.freeCtr := rfl
@[simp] theorem State.modSb_powered (s : State) (f : Scoreboard → Scoreboard) : (s.modSb f).powered = s.powered := rfl
@[simp] theorem State.modSb_powerReq (s : State) (f : Scoreboard → Scoreboard) : (s.modSb f).powerReq = s.powerReq :=
    rfl
@[simp] theorem State.modSb_offWait (s : State) (f : Scoreboard → Scoreboard) : (s.modSb f).offWait = s.offWait := rfl
@[simp] theorem State.modSb_railHeld (s : State) (f : Scoreboard → Scoreboard) : (s.modSb f).railHeld = s.railHeld :=
    rfl
@[simp] theorem State.modSb_railMap (s : State) (f : Scoreboard → Scoreboard) : (s.modSb f).railMap = s.railMap := rfl
@[simp] theorem State.modSb_harts (s : State) (f : Scoreboard → Scoreboard) : (s.modSb f).harts = s.harts := rfl
@[simp] theorem State.modSb_tiles (s : State) (f : Scoreboard → Scoreboard) : (s.modSb f).tiles = s.tiles := rfl
@[simp] theorem State.modSb_leaseQ (s : State) (f : Scoreboard → Scoreboard) : (s.modSb f).leaseQ = s.leaseQ := rfl
@[simp] theorem State.modSb_vu (s : State) (f : Scoreboard → Scoreboard) : (s.modSb f).vu = s.vu := rfl
@[simp] theorem State.modSb_drf (s : State) (f : Scoreboard → Scoreboard) : (s.modSb f).drf = s.drf := rfl
@[simp] theorem State.modSb_mortar (s : State) (f : Scoreboard → Scoreboard) : (s.modSb f).mortar = s.mortar := rfl
@[simp] theorem State.modSb_nbr (s : State) (f : Scoreboard → Scoreboard) : (s.modSb f).nbr = s.nbr := rfl
@[simp] theorem State.modSb_hods (s : State) (f : Scoreboard → Scoreboard) : (s.modSb f).hods = s.hods := rfl
@[simp] theorem State.modSb_ks (s : State) (f : Scoreboard → Scoreboard) : (s.modSb f).ks = s.ks := rfl
@[simp] theorem State.modSb_cal (s : State) (f : Scoreboard → Scoreboard) : (s.modSb f).cal = s.cal := rfl
@[simp] theorem State.modSb_obs (s : State) (f : Scoreboard → Scoreboard) : (s.modSb f).obs = s.obs := rfl
@[simp] theorem State.modSb_err (s : State) (f : Scoreboard → Scoreboard) : (s.modSb f).err = s.err := rfl
@[simp] theorem State.modSb_boot (s : State) (f : Scoreboard → Scoreboard) : (s.modSb f).boot = s.boot := rfl
@[simp] theorem State.modSb_ice_cells (s : State) (f : Scoreboard → Scoreboard) : (s.modSb f).ice.cells = s.ice.cells :=
    rfl
@[simp] theorem State.modSb_ice_floes (s : State) (f : Scoreboard → Scoreboard) : (s.modSb f).ice.floes = s.ice.floes :=
    rfl
@[simp] theorem State.modSb_ice_segs (s : State) (f : Scoreboard → Scoreboard) : (s.modSb f).ice.segs = s.ice.segs :=
    rfl
@[simp] theorem State.modSb_ice_fstage (s : State) (f : Scoreboard → Scoreboard) : (s.modSb f).ice.fstage = s.ice.fstage :=
    rfl
@[simp] theorem State.modSb_ice_fstat (s : State) (f : Scoreboard → Scoreboard) : (s.modSb f).ice.fstat = s.ice.fstat :=
    rfl
@[simp] theorem State.modSb_ice_commit (s : State) (f : Scoreboard → Scoreboard) : (s.modSb f).ice.commit = s.ice.commit :=
    rfl
@[simp] theorem State.modSb_ice_revival (s : State) (f : Scoreboard → Scoreboard) : (s.modSb f).ice.revival = s.ice.revival :=
    rfl
@[simp] theorem State.modSb_ice_meltQ (s : State) (f : Scoreboard → Scoreboard) : (s.modSb f).ice.meltQ = s.ice.meltQ :=
    rfl
@[simp] theorem State.modSb_ice_spares (s : State) (f : Scoreboard → Scoreboard) : (s.modSb f).ice.spares = s.ice.spares :=
    rfl
@[simp] theorem State.modSb_ice_sparing (s : State) (f : Scoreboard → Scoreboard) : (s.modSb f).ice.sparing = s.ice.sparing :=
    rfl
@[simp] theorem State.modSb_ice_scrubPeriod (s : State) (f : Scoreboard → Scoreboard) : (s.modSb f).ice.scrubPeriod = s.ice.scrubPeriod :=
    rfl
@[simp] theorem State.modSb_ice_scrubInForce (s : State) (f : Scoreboard → Scoreboard) : (s.modSb f).ice.scrubInForce = s.ice.scrubInForce :=
    rfl
@[simp] theorem State.modSb_ice_scrubLevel (s : State) (f : Scoreboard → Scoreboard) : (s.modSb f).ice.scrubLevel = s.ice.scrubLevel :=
    rfl
@[simp] theorem State.modSb_ice_spsel (s : State) (f : Scoreboard → Scoreboard) : (s.modSb f).ice.spsel = s.ice.spsel :=
    rfl
@[simp] theorem State.modSb_ice_log (s : State) (f : Scoreboard → Scoreboard) : (s.modSb f).ice.log = s.ice.log := rfl
@[simp] theorem State.modSb_ice_writebacks (s : State) (f : Scoreboard → Scoreboard) : (s.modSb f).ice.writebacks = s.ice.writebacks :=
    rfl
@[simp] theorem State.modSb_ice_firn (s : State) (f : Scoreboard → Scoreboard) : (s.modSb f).ice.firn = s.ice.firn :=
    rfl
@[simp] theorem State.modSb_ice_firnQ (s : State) (f : Scoreboard → Scoreboard) : (s.modSb f).ice.firnQ = s.ice.firnQ :=
    rfl
@[simp] theorem State.modSb_ice_morLines (s : State) (f : Scoreboard → Scoreboard) : (s.modSb f).ice.morLines = s.ice.morLines :=
    rfl
@[simp] theorem State.modSb_ice_morData (s : State) (f : Scoreboard → Scoreboard) : (s.modSb f).ice.morData = s.ice.morData :=
    rfl
@[simp] theorem State.modSb_ice_morClosing (s : State) (f : Scoreboard → Scoreboard) : (s.modSb f).ice.morClosing = s.ice.morClosing :=
    rfl

@[simp] theorem State.setFstat_pending (s : State) (r : Reader) (c : BitVec 4) : (s.setFstat r c).pending = s.pending :=
    rfl
@[simp] theorem State.setFstat_cfg (s : State) (r : Reader) (c : BitVec 4) : (s.setFstat r c).cfg = s.cfg := rfl
@[simp] theorem State.setFstat_cycle (s : State) (r : Reader) (c : BitVec 4) : (s.setFstat r c).cycle = s.cycle := rfl
@[simp] theorem State.setFstat_time (s : State) (r : Reader) (c : BitVec 4) : (s.setFstat r c).time = s.time := rfl
@[simp] theorem State.setFstat_freeCtr (s : State) (r : Reader) (c : BitVec 4) : (s.setFstat r c).freeCtr = s.freeCtr :=
    rfl
@[simp] theorem State.setFstat_powered (s : State) (r : Reader) (c : BitVec 4) : (s.setFstat r c).powered = s.powered :=
    rfl
@[simp] theorem State.setFstat_powerReq (s : State) (r : Reader) (c : BitVec 4) : (s.setFstat r c).powerReq = s.powerReq :=
    rfl
@[simp] theorem State.setFstat_offWait (s : State) (r : Reader) (c : BitVec 4) : (s.setFstat r c).offWait = s.offWait :=
    rfl
@[simp] theorem State.setFstat_railHeld (s : State) (r : Reader) (c : BitVec 4) : (s.setFstat r c).railHeld = s.railHeld :=
    rfl
@[simp] theorem State.setFstat_railMap (s : State) (r : Reader) (c : BitVec 4) : (s.setFstat r c).railMap = s.railMap :=
    rfl
@[simp] theorem State.setFstat_harts (s : State) (r : Reader) (c : BitVec 4) : (s.setFstat r c).harts = s.harts := rfl
@[simp] theorem State.setFstat_tiles (s : State) (r : Reader) (c : BitVec 4) : (s.setFstat r c).tiles = s.tiles := rfl
@[simp] theorem State.setFstat_leaseQ (s : State) (r : Reader) (c : BitVec 4) : (s.setFstat r c).leaseQ = s.leaseQ :=
    rfl
@[simp] theorem State.setFstat_vu (s : State) (r : Reader) (c : BitVec 4) : (s.setFstat r c).vu = s.vu := rfl
@[simp] theorem State.setFstat_drf (s : State) (r : Reader) (c : BitVec 4) : (s.setFstat r c).drf = s.drf := rfl
@[simp] theorem State.setFstat_mortar (s : State) (r : Reader) (c : BitVec 4) : (s.setFstat r c).mortar = s.mortar :=
    rfl
@[simp] theorem State.setFstat_nbr (s : State) (r : Reader) (c : BitVec 4) : (s.setFstat r c).nbr = s.nbr := rfl
@[simp] theorem State.setFstat_hods (s : State) (r : Reader) (c : BitVec 4) : (s.setFstat r c).hods = s.hods := rfl
@[simp] theorem State.setFstat_ks (s : State) (r : Reader) (c : BitVec 4) : (s.setFstat r c).ks = s.ks := rfl
@[simp] theorem State.setFstat_cal (s : State) (r : Reader) (c : BitVec 4) : (s.setFstat r c).cal = s.cal := rfl
@[simp] theorem State.setFstat_obs (s : State) (r : Reader) (c : BitVec 4) : (s.setFstat r c).obs = s.obs := rfl
@[simp] theorem State.setFstat_err (s : State) (r : Reader) (c : BitVec 4) : (s.setFstat r c).err = s.err := rfl
@[simp] theorem State.setFstat_boot (s : State) (r : Reader) (c : BitVec 4) : (s.setFstat r c).boot = s.boot := rfl
@[simp] theorem State.setFstat_ice_cells (s : State) (r : Reader) (c : BitVec 4) : (s.setFstat r c).ice.cells = s.ice.cells :=
    rfl
@[simp] theorem State.setFstat_ice_floes (s : State) (r : Reader) (c : BitVec 4) : (s.setFstat r c).ice.floes = s.ice.floes :=
    rfl
@[simp] theorem State.setFstat_ice_segs (s : State) (r : Reader) (c : BitVec 4) : (s.setFstat r c).ice.segs = s.ice.segs :=
    rfl
@[simp] theorem State.setFstat_ice_fstage (s : State) (r : Reader) (c : BitVec 4) : (s.setFstat r c).ice.fstage = s.ice.fstage :=
    rfl
@[simp] theorem State.setFstat_ice_commit (s : State) (r : Reader) (c : BitVec 4) : (s.setFstat r c).ice.commit = s.ice.commit :=
    rfl
@[simp] theorem State.setFstat_ice_revival (s : State) (r : Reader) (c : BitVec 4) : (s.setFstat r c).ice.revival = s.ice.revival :=
    rfl
@[simp] theorem State.setFstat_ice_meltQ (s : State) (r : Reader) (c : BitVec 4) : (s.setFstat r c).ice.meltQ = s.ice.meltQ :=
    rfl
@[simp] theorem State.setFstat_ice_spares (s : State) (r : Reader) (c : BitVec 4) : (s.setFstat r c).ice.spares = s.ice.spares :=
    rfl
@[simp] theorem State.setFstat_ice_sparing (s : State) (r : Reader) (c : BitVec 4) : (s.setFstat r c).ice.sparing = s.ice.sparing :=
    rfl
@[simp] theorem State.setFstat_ice_sb (s : State) (r : Reader) (c : BitVec 4) : (s.setFstat r c).ice.sb = s.ice.sb :=
    rfl
@[simp] theorem State.setFstat_ice_scrubPeriod (s : State) (r : Reader) (c : BitVec 4) : (s.setFstat r c).ice.scrubPeriod = s.ice.scrubPeriod :=
    rfl
@[simp] theorem State.setFstat_ice_scrubInForce (s : State) (r : Reader) (c : BitVec 4) : (s.setFstat r c).ice.scrubInForce = s.ice.scrubInForce :=
    rfl
@[simp] theorem State.setFstat_ice_scrubLevel (s : State) (r : Reader) (c : BitVec 4) : (s.setFstat r c).ice.scrubLevel = s.ice.scrubLevel :=
    rfl
@[simp] theorem State.setFstat_ice_spsel (s : State) (r : Reader) (c : BitVec 4) : (s.setFstat r c).ice.spsel = s.ice.spsel :=
    rfl
@[simp] theorem State.setFstat_ice_log (s : State) (r : Reader) (c : BitVec 4) : (s.setFstat r c).ice.log = s.ice.log :=
    rfl
@[simp] theorem State.setFstat_ice_writebacks (s : State) (r : Reader) (c : BitVec 4) : (s.setFstat r c).ice.writebacks = s.ice.writebacks :=
    rfl
@[simp] theorem State.setFstat_ice_firn (s : State) (r : Reader) (c : BitVec 4) : (s.setFstat r c).ice.firn = s.ice.firn :=
    rfl
@[simp] theorem State.setFstat_ice_firnQ (s : State) (r : Reader) (c : BitVec 4) : (s.setFstat r c).ice.firnQ = s.ice.firnQ :=
    rfl
@[simp] theorem State.setFstat_ice_morLines (s : State) (r : Reader) (c : BitVec 4) : (s.setFstat r c).ice.morLines = s.ice.morLines :=
    rfl
@[simp] theorem State.setFstat_ice_morData (s : State) (r : Reader) (c : BitVec 4) : (s.setFstat r c).ice.morData = s.ice.morData :=
    rfl
@[simp] theorem State.setFstat_ice_morClosing (s : State) (r : Reader) (c : BitVec 4) : (s.setFstat r c).ice.morClosing = s.ice.morClosing :=
    rfl

@[simp] theorem State.modHart_chan (s : State) (h : Hart) (f : HartState → HartState) (d : Fin 32) : (s.modHart h f).chan d = s.chan d :=
    rfl
@[simp] theorem State.modTile_hart (s : State) (t : TileReg) (f : Tile → Tile) (k : Hart) : (s.modTile t f).hart k = s.hart k :=
    rfl
@[simp] theorem State.modTile_chan (s : State) (t : TileReg) (f : Tile → Tile) (d : Fin 32) : (s.modTile t f).chan d = s.chan d :=
    rfl
@[simp] theorem State.modCh_hart (s : State) (c : Fin 32) (f : Channel → Channel) (k : Hart) : (s.modCh c f).hart k = s.hart k :=
    rfl
@[simp] theorem State.modDrfRegs_hart (s : State) (r : Reader) (f : DriftRegs → DriftRegs) (k : Hart) : (s.modDrfRegs r f).hart k = s.hart k :=
    rfl
@[simp] theorem State.modDrfRegs_chan (s : State) (r : Reader) (f : DriftRegs → DriftRegs) (d : Fin 32) : (s.modDrfRegs r f).chan d = s.chan d :=
    rfl
@[simp] theorem State.modPort_hart (s : State) (p : Fin 4) (f : Port → Port) (k : Hart) : (s.modPort p f).hart k = s.hart k :=
    rfl
@[simp] theorem State.modPort_chan (s : State) (p : Fin 4) (f : Port → Port) (d : Fin 32) : (s.modPort p f).chan d = s.chan d :=
    rfl
@[simp] theorem State.modWin_hart (s : State) (w : Fin 64) (f : Window → Window) (k : Hart) : (s.modWin w f).hart k = s.hart k :=
    rfl
@[simp] theorem State.modWin_chan (s : State) (w : Fin 64) (f : Window → Window) (d : Fin 32) : (s.modWin w f).chan d = s.chan d :=
    rfl
@[simp] theorem State.modNbrRegs_hart (s : State) (r : Reader) (f : NbrRegs → NbrRegs) (k : Hart) : (s.modNbrRegs r f).hart k = s.hart k :=
    rfl
@[simp] theorem State.modNbrRegs_chan (s : State) (r : Reader) (f : NbrRegs → NbrRegs) (d : Fin 32) : (s.modNbrRegs r f).chan d = s.chan d :=
    rfl
@[simp] theorem State.modHod_hart (s : State) (h : Fin 3) (f : Hod → Hod) (k : Hart) : (s.modHod h f).hart k = s.hart k :=
    rfl
@[simp] theorem State.modHod_chan (s : State) (h : Fin 3) (f : Hod → Hod) (d : Fin 32) : (s.modHod h f).chan d = s.chan d :=
    rfl
@[simp] theorem State.modTimer_hart (s : State) (n : Fin 4) (f : Timer → Timer) (k : Hart) : (s.modTimer n f).hart k = s.hart k :=
    rfl
@[simp] theorem State.modTimer_chan (s : State) (n : Fin 4) (f : Timer → Timer) (d : Fin 32) : (s.modTimer n f).chan d = s.chan d :=
    rfl
@[simp] theorem State.modLane_hart (s : State) (g : Fin 17) (f : LaneGroup → LaneGroup) (k : Hart) : (s.modLane g f).hart k = s.hart k :=
    rfl
@[simp] theorem State.modLane_chan (s : State) (g : Fin 17) (f : LaneGroup → LaneGroup) (d : Fin 32) : (s.modLane g f).chan d = s.chan d :=
    rfl
@[simp] theorem State.modSb_hart (s : State) (f : Scoreboard → Scoreboard) (k : Hart) : (s.modSb f).hart k = s.hart k :=
    rfl
@[simp] theorem State.modSb_chan (s : State) (f : Scoreboard → Scoreboard) (d : Fin 32) : (s.modSb f).chan d = s.chan d :=
    rfl
@[simp] theorem State.setFstat_hart (s : State) (r : Reader) (c : BitVec 4) (k : Hart) : (s.setFstat r c).hart k = s.hart k :=
    rfl
@[simp] theorem State.setFstat_chan (s : State) (r : Reader) (c : BitVec 4) (d : Fin 32) : (s.setFstat r c).chan d = s.chan d :=
    rfl

end Sys2Proof.Machine
end

