-- ==== Sys2Proof/Laws/Store.lean ====
section
/-! SUPPORT. The laws of the sparse stores: a read after a write, the canonical form that every write keeps, and stores
restricted to some keys. -/

namespace Sys2Proof.Machine

variable {α : Type}

theorem sget_of_lt [DecidableEq α] (d : α) {m : Store α} {lo i : Nat} (h : swfFrom d lo m = true) (hi : i < lo) :
    sget d m i = d := by
  cases m with
  | nil => rfl
  | cons p r =>
    obtain ⟨k, v⟩ := p
    simp only [swfFrom, Bool.and_eq_true, decide_eq_true_eq] at h
    have : i < k := by omega
    simp [sget, Nat.ne_of_lt this, this]

theorem swfFrom_mono [DecidableEq α] (d : α) {m : Store α} {lo lo' : Nat} (h : swfFrom d lo m = true) (hl : lo' ≤ lo) :
    swfFrom d lo' m = true := by
  cases m with
  | nil => rfl
  | cons p r =>
    obtain ⟨k, v⟩ := p
    simp only [swfFrom, Bool.and_eq_true, decide_eq_true_eq] at h ⊢
    exact ⟨⟨by omega, h.1.2⟩, h.2⟩

theorem swfFrom_sset [DecidableEq α] (d : α) (i : Nat) (v : α) :
    ∀ (m : Store α) (lo : Nat), swfFrom d lo m = true → lo ≤ i → swfFrom d lo (sset d m i v) = true := by
  intro m
  induction m with
  | nil =>
    intro lo _ hl
    simp only [sset]
    split <;> simp_all [swfFrom]
  | cons p r ih =>
    intro lo h hl
    obtain ⟨k, w⟩ := p
    simp only [swfFrom, Bool.and_eq_true, decide_eq_true_eq] at h
    obtain ⟨⟨h1, h2⟩, h3⟩ := h
    simp only [sset]
    split
    · rename_i e
      subst e
      split
      · exact swfFrom_mono d h3 (by omega)
      · rename_i hv
        simp [swfFrom, h1, hv, h3]
    · split
      · rename_i hlt
        split
        · simp [swfFrom, h1, h2, h3]
        · rename_i hv
          have hk : i + 1 ≤ k := hlt
          simp [swfFrom, hl, hv, h2, h3, hk]
      · have : k + 1 ≤ i := by omega
        simp [swfFrom, h1, h2, ih (k + 1) h3 this]

/-- Every write keeps the canonical form. -/
theorem swf_sset [DecidableEq α] (d : α) (m : Store α) (i : Nat) (v : α) (h : swf d m = true) :
    swf d (sset d m i v) = true := swfFrom_sset d i v m 0 h (Nat.zero_le i)

theorem swf_ssetMany [DecidableEq α] (d : α) (ws : List (Nat × α)) :
    ∀ m : Store α, swf d m = true → swf d (ssetMany d m ws) = true := by
  unfold ssetMany
  induction ws with
  | nil => exact fun m h => h
  | cons w r ih => exact fun m h => ih _ (swf_sset d m w.1 w.2 h)

theorem sget_ssetFrom [DecidableEq α] (d : α) (i j : Nat) (v : α) :
    ∀ (m : Store α) (lo : Nat), swfFrom d lo m = true → sget d (sset d m i v) j = if j = i then v else sget d m j := by
  intro m
  induction m with
  | nil =>
    intro lo _
    simp only [sset]
    split
    · rename_i hv; subst hv; simp [sget]
    · by_cases h : j = i <;> simp [sget, h]
  | cons p r ih =>
    intro lo h
    obtain ⟨k, w⟩ := p
    simp only [swfFrom, Bool.and_eq_true, decide_eq_true_eq] at h
    obtain ⟨⟨h1, h2⟩, h3⟩ := h
    simp only [sset]
    split
    · rename_i e
      subst e
      split
      · rename_i hv
        subst hv
        by_cases hj : j = i
        · subst hj; rw [if_pos rfl]; exact sget_of_lt _ h3 (Nat.lt_succ_self _)
        · rw [if_neg hj]
          simp only [sget, if_neg hj]
          split
          · rename_i hlt
            exact sget_of_lt _ h3 (by omega)
          · rfl
      · by_cases hj : j = i <;> simp [sget, hj]
    · split
      · rename_i hne hlt
        split
        · rename_i hv
          subst hv
          by_cases hj : j = i
          · subst hj; simp [sget, hne, hlt]
          · rw [if_neg hj]
        · by_cases hj : j = i
          · subst hj; simp [sget]
          · simp only [sget, if_neg hj]
            by_cases hjl : j < i
            · have hk : ¬ j = k := by omega
              have hk' : j < k := by omega
              simp [hjl, hk, hk']
            · simp [hjl]
      · rename_i hne hnlt
        simp only [sget, ih (k + 1) h3]
        by_cases hj : j = i
        · subst hj; simp [hne, hnlt]
        · simp [hj]

/-- A read after a write gives the value written at its key and what was there at every other. -/
theorem sget_sset [DecidableEq α] (d : α) (m : Store α) (i j : Nat) (v : α) (h : swf d m = true) :
    sget d (sset d m i v) j = if j = i then v else sget d m j := sget_ssetFrom d i j v m 0 h

theorem swfFrom_filter [DecidableEq α] (d : α) (f : Nat × α → Bool) :
    ∀ (m : Store α) (lo : Nat), swfFrom d lo m = true → swfFrom d lo (m.filter f) = true := by
  intro m
  induction m with
  | nil => exact fun _ _ => rfl
  | cons p r ih =>
    intro lo h
    obtain ⟨k, w⟩ := p
    simp only [swfFrom, Bool.and_eq_true, decide_eq_true_eq] at h
    simp only [List.filter_cons]
    split
    · simp [swfFrom, h.1.1, h.1.2, ih (k + 1) h.2]
    · exact swfFrom_mono d (ih (k + 1) h.2) (by omega)

/-- Dropping keys keeps the canonical form. -/
theorem swf_filter [DecidableEq α] (d : α) (f : Nat × α → Bool) (m : Store α) (h : swf d m = true) :
    swf d (m.filter f) = true := swfFrom_filter d f m 0 h

theorem sget_filterFrom [DecidableEq α] (d : α) (g : Nat → Bool) (j : Nat) :
    ∀ (m : Store α) (lo : Nat), swfFrom d lo m = true →
      sget d (m.filter fun c => g c.1) j = if g j then sget d m j else d := by
  intro m
  induction m with
  | nil => intro _ _; simp [sget]
  | cons p r ih =>
    intro lo h
    obtain ⟨k, w⟩ := p
    simp only [swfFrom, Bool.and_eq_true, decide_eq_true_eq] at h
    simp only [List.filter_cons]
    by_cases hg : g k = true
    · rw [if_pos hg]
      simp only [sget, ih (k + 1) h.2]
      by_cases hj : j = k
      · subst hj; simp [hg]
      · by_cases hl : j < k <;> simp [hj, hl]
    · rw [if_neg hg, ih (k + 1) h.2]
      by_cases hj : j = k
      · subst hj; simp [hg]
      · by_cases hl : j < k
        · simp [sget, hj, hl, sget_of_lt d h.2 (show j < k + 1 by omega)]
        · simp [sget, hj, hl]

/-- A store without some keys reads the default there and as before elsewhere. -/
theorem sget_filter [DecidableEq α] (d : α) (g : Nat → Bool) (m : Store α) (j : Nat) (h : swf d m = true) :
    sget d (m.filter fun c => g c.1) j = if g j then sget d m j else d := sget_filterFrom d g j m 0 h

@[simp] theorem swf_nil [DecidableEq α] (d : α) : swf d ([] : Store α) = true := rfl

end Sys2Proof.Machine
end

