-- ==== Sys2Proof/Safety.lean ====
section
/-! DEFINITION. What counts as a safe state and a safe run, in the terms that statements use: every sparse store of the state
is canonical, so that equal memories are equal data. -/

namespace Sys2Proof.Machine

/-- The data of every tile register is canonical. -/
abbrev State.tilesCanonical (s : State) : Prop := ∀ t : TileReg, swf 0 (s.tiles.get t).data = true

/-- The cells of Icefield and the spare maps are canonical. -/
abbrev State.fieldCanonical (s : State) : Prop := swf 0 s.ice.cells = true ∧ swf {} s.ice.spares = true

/-- The local store is canonical. -/
abbrev State.storeCanonical (s : State) : Prop := swf 0 s.ks.store = true

/-- The slots of every hod are canonical. -/
abbrev State.slotsCanonical (s : State) : Prop :=
  ∀ h : Fin 3, swf 0 (s.hods.hod.get h).inSlots = true ∧ swf 0 (s.hods.hod.get h).outSlots = true

/-- The statistic bank of every hart is canonical. -/
abbrev State.banksCanonical (s : State) : Prop := ∀ h : Hart, swf {} (s.hart h).bank = true

/-- Every memory of the engine is in its canonical form. -/
abbrev State.wf (s : State) : Prop :=
  s.tilesCanonical ∧ s.fieldCanonical ∧ s.storeCanonical ∧ s.slotsCanonical ∧ s.banksCanonical

/-! ## Xcalad instructions -/

/-- The hart and the instruction of a command that issues an Xcalad instruction (R141, R556); none for the others. -/
def issues : Instr → Option (Hart × XInstr)
  | .mov h x => some (h, { op := 0x01, fn := 0, a := x })
  | .movX h x => some (h, { op := 0x02, fn := 0, a := x })
  | .iotaX h x => some (h, { op := 0x03, fn := 0, a := x })
  | .setxX h x => some (h, { op := 0x04, fn := 0, a := x })
  | .ldX h x => some (h, { op := 0x05, fn := 0, a := x })
  | .stX h x => some (h, { op := 0x06, fn := 0, a := x })
  | .stXAdd h x => some (h, { op := 0x06, fn := 1, a := x })
  | .arithAdd h x => some (h, { op := 0x07, fn := 0, a := x })
  | .arithSub h x => some (h, { op := 0x07, fn := 1, a := x })
  | .arithMul h x => some (h, { op := 0x07, fn := 2, a := x })
  | .arithAbs h x => some (h, { op := 0x07, fn := 3, a := x })
  | .arithNeg h x => some (h, { op := 0x07, fn := 4, a := x })
  | .arithFms h x => some (h, { op := 0x07, fn := 6, a := x })
  | .arithFma h x => some (h, { op := 0x07, fn := 7, a := x })
  | .arithX h fn x => some (h, { op := 0x08, fn, a := x })
  | .maxminMax h x => some (h, { op := 0x09, fn := 0, a := x })
  | .maxminMin h x => some (h, { op := 0x09, fn := 1, a := x })
  | .maxminX h fn x => some (h, { op := 0x0A, fn, a := x })
  | .cvt h x => some (h, { op := 0x0B, fn := 0, a := x })
  | .sfuExp2 h x => some (h, { op := 0x0C, fn := 0, a := x })
  | .sfuLog2 h x => some (h, { op := 0x0C, fn := 1, a := x })
  | .sfuRcp h x => some (h, { op := 0x0C, fn := 2, a := x })
  | .sfuRsq h x => some (h, { op := 0x0C, fn := 3, a := x })
  | .sfuTanh h x => some (h, { op := 0x0C, fn := 4, a := x })
  | .sfuLogistic h x => some (h, { op := 0x0C, fn := 5, a := x })
  | .sfuErf h x => some (h, { op := 0x0C, fn := 6, a := x })
  | .sfuExp h x => some (h, { op := 0x0C, fn := 7, a := x })
  | .cmp h fn x => some (h, { op := 0x0D, fn, a := x })
  | .cmpX h fn x => some (h, { op := 0x0E, fn, a := x })
  | .pany h x => some (h, { op := 0x0F, fn := 0, a := x })
  | .pall h x => some (h, { op := 0x0F, fn := 1, a := x })
  | .pand h x => some (h, { op := 0x0F, fn := 2, a := x })
  | .por h x => some (h, { op := 0x0F, fn := 3, a := x })
  | .pandn h x => some (h, { op := 0x0F, fn := 4, a := x })
  | .pxor h x => some (h, { op := 0x0F, fn := 5, a := x })
  | .pltX h x => some (h, { op := 0x0F, fn := 6, a := x })
  | .rsum h fn x => some (h, { op := 0x10, fn, a := x })
  | .rmax h fn x => some (h, { op := 0x11, fn, a := x })
  | .segmentedReduce h max alt x => some (h, { op := if max then 0x11 else 0x10, fn := BitVec.ofBool alt ++ (3 : BitVec 2), a := x })
  | .rdot h fn x => some (h, { op := 0x12, fn, a := x })
  | .rarg h fn x => some (h, { op := 0x13, fn, a := x })
  | .rowb h fn x => some (h, { op := 0x14, fn, a := x })
  | .colb h fn x => some (h, { op := 0x15, fn, a := x })
  | .raccClr h x => some (h, { op := 0x16, fn := 0, a := x })
  | .raccSum h x => some (h, { op := 0x16, fn := 1, a := x })
  | .raccSsq h x => some (h, { op := 0x16, fn := 2, a := x })
  | .raccMax h x => some (h, { op := 0x16, fn := 3, a := x })
  | .rdsum h x => some (h, { op := 0x16, fn := 4, a := x })
  | .rdmax h x => some (h, { op := 0x16, fn := 5, a := x })
  | .rdcnt h x => some (h, { op := 0x16, fn := 6, a := x })
  | .rdlse h x => some (h, { op := 0x16, fn := 7, a := x })
  | .softmax h x => some (h, { op := 0x17, fn := 0, a := x })
  | .logsoftmax h x => some (h, { op := 0x17, fn := 1, a := x })
  | .rmsnorm h x => some (h, { op := 0x17, fn := 2, a := x })
  | .layernorm h x => some (h, { op := 0x17, fn := 3, a := x })
  | .trans h x => some (h, { op := 0x18, fn := 0, a := x })
  | .perm h x => some (h, { op := 0x19, fn := 0, a := x })
  | .gatherXRow h x => some (h, { op := 0x1A, fn := 0, a := x })
  | .gatherXElement h x => some (h, { op := 0x1A, fn := 1, a := x })
  | .scatterXRowWrite h x => some (h, { op := 0x1B, fn := 0, a := x })
  | .scatterXElementWrite h x => some (h, { op := 0x1B, fn := 1, a := x })
  | .scatterXRowAdd h x => some (h, { op := 0x1B, fn := 2, a := x })
  | .scatterXElementAdd h x => some (h, { op := 0x1B, fn := 3, a := x })
  | .compact h x => some (h, { op := 0x1C, fn := 0, a := x })
  | .expand h x => some (h, { op := 0x1C, fn := 1, a := x })
  | .vsyncHarts h x => some (h, { op := 0x38, fn := 0, a := x })
  | .vsyncIcefield h x => some (h, { op := 0x38, fn := 1, a := x })
  | .probe h x => some (h, { op := 0x39, fn := 0, a := x })
  | .mpruneBrick h x => some (h, { op := 0x20, fn := 0, a := x })
  | .mpruneRow h x => some (h, { op := 0x20, fn := 1, a := x })
  | .mpruneNm h x => some (h, { op := 0x20, fn := 2, a := x })
  | .mpruneThresh h x => some (h, { op := 0x20, fn := 3, a := x })
  | .mgrowScore h x => some (h, { op := 0x21, fn := 0, a := x })
  | .mgrowThresh h x => some (h, { op := 0x21, fn := 1, a := x })
  | .mgrowRand h x => some (h, { op := 0x21, fn := 2, a := x })
  | .mapply h fn x => some (h, { op := 0x22, fn, a := x })
  | .mpack h fn x => some (h, { op := 0x23, fn, a := x })
  | .munpack h x => some (h, { op := 0x24, fn := 0, a := x })
  | .mtrans h x => some (h, { op := 0x25, fn := 0, a := x })
  | .sort h fn x => some (h, { op := 0x26, fn, a := x })
  | .merge h fn x => some (h, { op := 0x27, fn, a := x })
  | .topk h fn x => some (h, { op := 0x28, fn, a := x })
  | .unique h fn x => some (h, { op := 0x29, fn, a := x })
  | .isect h fn x => some (h, { op := 0x2A, fn, a := x })
  | .hist h fn x => some (h, { op := 0x2B, fn, a := x })
  | .route h fn x => some (h, { op := 0x2C, fn, a := x })
  | _ => none

/-! ## Terms that statements use -/

/-- The commit `c` retires with its revival: its entries are freed, and its reader sees DONE, or REVIVE when a segment has
stayed melted, unless it has written the register since (R288, R292). A weight push that waits may commit at once (R294). -/
abbrev commitRetires (c : Commit) (s t : State) : Prop :=
  t.ice.revival = none ∧ (∀ id, c.sb = some id → ∀ a ∈ t.ice.sb.alloc, a.id ≠ id) ∧
    ((∀ o ∈ s.hods.openOrders, o.op ≠ 0x21) → t.ice.commit = none ∧
      t.ice.fstat = if s.ice.fstat.get c.who = 9 then vset s.ice.fstat c.who (if c.revived then 0 else 0xA) else s.ice.fstat)

/-- The writes of CE_DRF_GO and CE_DRF_REARM that reach a channel in the step of a write of `r` are its own, or those of
readers that cannot act (R354). -/
abbrev alone (r : Reader) (met : List (Reader × Bool)) (s : State) : Prop := ∀ w ∈ met, w.1 = r ∨ s.canAct w.1 = false

/-- The pass that a re-arm or a shadow starts. -/
abbrev passStarts (c : Fin 32) (b : Bases) (st : DriftSet) (s t : State) : Prop :=
  (t.chan c).state = 1 ∧ (t.chan c).bases = b ∧ (t.chan c).shadow = none ∧ (t.chan c).cached = none ∧
    (t.chan c).set = some { descs := st.descs, chainEnd := true, sb := some s.ice.sb.nextId } ∧
    t.ice.sb.alloc = s.ice.sb.alloc ∧ (t.chan c).listAddr = (s.chan c).listAddr ∧ (t.chan c).fetched = (s.chan c).fetched ∧
    (∀ d, d ≠ c → t.chan d = s.chan d) ∧ t.harts = s.harts ∧ t.tiles = s.tiles ∧ t.ice.cells = s.ice.cells

/-- A pass is refused: the chain has ended with the code of its first descriptor, its cached set is gone, and its event is
raised (R353). -/
abbrev passRefused (c : Fin 32) (code : BitVec 4) (s t : State) : Prop :=
  (t.chan c).state = code ∧ (t.chan c).posDesc = 0 ∧ (t.chan c).posRow = 0 ∧ (t.chan c).set = none ∧
    (t.chan c).cached = none ∧ (t.chan c).shadow = none ∧ t.ice.sb = s.ice.sb ∧ t.ice.cells = s.ice.cells ∧
    t.tiles = s.tiles ∧ (∀ d, d ≠ c → t.chan d = s.chan d) ∧
    ((s.hart (s.chan c).owner).csr.drw.getLsbD c.val = true → (t.hart (s.chan c).owner).csr.evpend.getLsbD 0 = true)

/-- The lines of a burst from chip memory make up a set that the channel `c` has asked for and may take in. -/
abbrev burstFor (c : Fin 32) (ls got : List LineResult) (s : State) : Prop :=
  (s.chan c).state = 1 ∧ (s.chan c).listIce = false ∧ (s.chan c).set = none ∧ (s.chan c).next = none ∧
    (s.chan c).stopping = false ∧ (s.chan c).halting = false ∧ (s.chan c).fetchFail = none ∧
    ∃ n, (s.chan c).fetchN = some n ∧ takeSet n ls = some got

/-- Every word that the Firn entry of an access holds to write is wholly written (R301). -/
abbrev State.firnWhole (s : State) (id : Nat) : Prop :=
  ∀ (i : Fin 64) (e : FirnEntry), s.ice.firn.get i = some e → e.acc = id → ∀ w ∈ e.write, w.2.written = 0xF

/-- The Firn entry of an access, if it holds one, holds nothing to write (R302). -/
abbrev State.firnIdle (s : State) (id : Nat) : Prop :=
  ∀ (i : Fin 64) (e : FirnEntry), s.ice.firn.get i = some e → e.acc = id → e.write = []

/-- An access holds a Firn entry with nothing in it, or gets one as soon as it asks (R303). -/
abbrev State.firnReady (s : State) (id : Nat) (who : Requester) : Prop :=
  (∃ (i : Fin 64) (e : FirnEntry), s.firnFor id = some i ∧ s.ice.firn.get i = some e ∧ e.line = none ∧ e.read = [] ∧
    e.write = []) ∨
  (s.firnFor id = none ∧ s.ice.firnQ = [] ∧ (s.firnFree who).isSome = true)

/-- How many of the lines that a descriptor needs it requests at once, before any other (R355). -/
def State.firstIssue (s : State) (l : List Nat) : Nat :=
  min l.length (min 2048 (16384 - ((fins 32).map fun c => (s.chan c).outstanding).sum))

/-- A descriptor that moves one INT32 element between a fabric address and a window word. -/
abbrev oneWord (d : Desc) : Prop :=
  d.sfmt = 6 ∧ d.dfmt = 6 ∧ d.tord = false ∧ d.blk = 0 ∧ d.idx = false ∧ d.ncol = 1 ∧ d.nrow = 1 ∧ d.padc = 0 ∧ d.padr = 0 ∧
    d.rel = false ∧ d.bufi = false ∧ d.faddr.toNat % 4 = 0

/-- The set of a running channel has one descriptor, which has not moved. -/
abbrev oneDescriptor (x : Channel) (st : DriftSet) (d : Desc) : Prop :=
  x.state = 1 ∧ x.halting = false ∧ x.stopping = false ∧ x.set = some st ∧ st.descs = [d] ∧ st.cur = 0 ∧ st.startRow = 0 ∧
    st.performed = false ∧ st.got = [] ∧ st.slotSb = none ∧ st.fail = none ∧ st.wlines = []

/-- A write of CE_NBR_WCMD by `r` is taken, and those of `others` in the same step are lost (R375, R431): the losers read
PREEMPTED, and the earlier closes of every writer report to it no more (R288). -/
def closesLeft (r : Reader) (others : List Reader) (s : State) : List (Fin 64 × Option Reader × Option Nat) :=
  s.nbr.closers.map fun c =>
    if c.2.1 = some r ∨ ∃ q ∈ s.losers r others, c.2.1 = some q then (c.1, none, c.2.2) else c

/-- Every reader but the winner sees its view of CE_NBR_WSTAT as R375 and R431 say. -/
abbrev othersPreempted (r : Reader) (others : List Reader) (s t : State) : Prop :=
  ∀ q, q ≠ r → t.nbr.regs.get q =
    if q ∈ s.losers r others then { s.nbr.regs.get q with wstat := 8 } else s.nbr.regs.get q

/-- A port may send a sequenced message at once (R390). -/
abbrev maySend (s : State) (p : Fin 4) : Prop := (s.port p).unanswered.length < 32768 ∧ (s.port p).txWait = []

/-- What a port that goes DOWN leaves behind. -/
abbrev lostPort (p : Fin 4) (cause : BitVec 4) (s t : State) : Prop :=
  (t.port p).state = .down ∧ (t.port p).cause = cause ∧ (t.port p).mirror = Vector.replicate 64 {} ∧
    (t.port p).unanswered = [] ∧ (∀ a ∈ (t.port p).arrivals, a.stale = true) ∧
    (t.port p).sends = (s.port p).sends.map (fun d =>
      if d.phase = .complete then d else { d with status := 6, outstanding := 0, phase := .complete }) ∧
    (∀ w, t.win w = if (s.win w).isOpen = true ∧ (s.win w).port = p then { s.win w with closing := true, silent := true }
      else s.win w) ∧
    (∀ q, q ≠ p → (t.port q).state = (s.port q).state ∧ (t.port q).mirror = (s.port q).mirror ∧
      (t.port q).sends = (s.port q).sends) ∧
    t.ice.cells = s.ice.cells ∧ t.harts = s.harts ∧ t.tiles = s.tiles

/-- Firmware takes up the order `o` of operation `op` next, and nothing refuses it: `t` is the state without it. -/
abbrev State.serves (s : State) (o : Order) (op : BitVec 8) (t : State) : Prop :=
  o.op = op ∧ s.serving = true ∧ s.hods.orders = o :: t.hods.orders ∧
    t = { s with hods := { s.hods with orders := t.hods.orders } } ∧ t.refusal o = none

/-- The operation of a command that serves an order (R423). -/
def orderCode : Instr → Option (BitVec 8)
  | .ordHello => some 0x01
  | .ordKill => some 0x02
  | .ordRelease => some 0x03
  | .ordHalt => some 0x04
  | .ordRun => some 0x05
  | .ordCalib => some 0x06
  | .ordPageDone _ => some 0x07
  | .ordLoadExt _ _ _ => some 0x08
  | .ordDropExt _ => some 0x09
  | .ordObssel _ => some 0x0A
  | .ordFloeSet _ _ => some 0x20
  | .ordWeightPush _ _ _ => some 0x21
  | .ordAttnFwd _ _ => some 0x22
  | .ordAttnBwd _ => some 0x23
  | .ordMatmul _ _ => some 0x24
  | .ordMoeRoute _ => some 0x25
  | .ordMoeCombine _ => some 0x26
  | .ordMaskMaint _ => some 0x27
  | .ordSample _ _ => some 0x28
  | .ordScore _ _ => some 0x29
  | .ordRlLoss _ _ => some 0x2A
  | .ordElemwise _ _ => some 0x2B
  | .ordReduce _ => some 0x2C
  | .ordSortset _ => some 0x2D
  | .ordMove _ _ => some 0x2E
  | .ordWindow _ _ _ _ => some 0x2F
  | .ordExtCall _ _ _ _ _ _ => some 0x30
  | .ordFence => some 0x31
  | .ordIceRead _ _ _ _ => some 0x40
  | .ordIceWrite _ _ _ _ => some 0x41
  | .ordRegRead _ => some 0x42
  | .ordRegWrite _ _ => some 0x43
  | .ordStatus => some 0x44
  | _ => none

/-- A command that does not take its order up yet: one extension is loaded at a time (R414), and a window is not closed under
the course that uses it (R433). -/
def orderHeld : Instr → State → Bool
  | .ordLoadExt _ _ _, s => s.hods.openOrders.any fun p => p.op == 0x08
  | .ordWindow .close w _ _, s => s.courseUses w
  | _, _ => false

/-- An order is opened: it stands behind the open ones under the next number, with its plan, its tiles, what its courses
hold and its harts, and nothing else changes. -/
def openedCompute (o : Order) (plan : List Nat) (tiles : Nat) (work : Option OrderWork) (kernel : List Hart)
    (vops : List (BitVec 6)) (t : State) : State :=
  { t with hods := { t.hods with
      openOrders := t.hods.openOrders ++
        [{ id := t.hods.nextOrder, hod := o.hod, op := o.op, tag := o.tag, job := o.job, plan, tiles, work, kernel, vops
           reads := o.wepoch (t.negOf o) }]
      nextOrder := t.hods.nextOrder + 1 } }

/-- How the command `c` starts its compute order of operation `op` (R420, R425 to R427): an order of a product has a tile
plan and the work of its courses, one of the vector unit alone the sweeps of its register groups and the opcodes `vops`
that write its outputs. -/
abbrev startsOrder (c : Instr) (op : BitVec 8) (sh : OrderShape) (bad : Bool) (tiles : Nat) (work : Option OrderWork)
    (vops : List (BitVec 6)) : Prop :=
  ∀ o s t, State.serves s o op t →
    (bad = true ∨ sh.malformed = true ∨ sh.m = 0 ∨ sh.n = 0 → exec c s = .next (t.answer o 5)) ∧
    (bad = false → sh.malformed = false → 0 < sh.m → 0 < sh.n → 0 < sh.k → 0 < sh.fold →
      (o.wepoch (t.negOf o) ≠ 0xFFFF → (∀ f : Fin 64, (t.floe f).used = true → (t.floe f).wepoch ≠ o.wepoch (t.negOf o)) →
        exec c s = .next (t.answer o 6)) ∧
      (o.wepoch (t.negOf o) = 0xFFFF ∧ sh.resident = false ∨
          (∃ f : Fin 64, (t.floe f).used = true ∧ (t.floe f).wepoch = o.wepoch (t.negOf o) ∧
            o.wepoch (t.negOf o) ≠ 0xFFFF ∧ t.untagging f = false) →
        ∀ plan, (if work.isSome then tilePlan (if sh.causal then sh.m else sh.m * sh.fold) sh.n sh.k
              (tileWords sh.fmtB sh.block) sh.streamWords
            else some [(sh.m + 4 * sh.fmtB.rowsPer - 1) / (4 * sh.fmtB.rowsPer), (sh.n + 63) / 64]) = some plan →
          exec c s = .next (if t.mayRun sh.kernel then openedCompute o plan tiles work sh.kernel vops t else t.answer o 7)))

/-- The work of an order is done, and its last output had a summary and a STATUS: the order's own end, by R421 and R425. -/
def endedCompute (o : OpenOrder) (sum : DWord) (code : BitVec 4) (s : State) : State :=
  ((s.reply o.hod o.op o.tag o.job
      (if code = 1 then (if sum.extractLsb' 32 15 ≠ 0 ∨ o.marked = true then 1 else 0)
        else if code = 5 then 0x0C else if code = 7 then 9 else if code = 8 then 0x0E else 5)
      [sum.extractLsb' 0 32, sum.extractLsb' 32 32, BitVec.ofNat 32 (if o.work.isSome then o.written else o.tiles)]).closeOrder
    o.id).retryPush

/-- A channel whose chain firmware starts for the open order `n` (R320, R532). -/
def chainOf (x : Channel) (n : Nat) : Channel :=
  { x with
    state := 1, hcause := 0, posDesc := 0, posRow := 0, marksRd := 0, marksWr := 0, idxbad := 0, bases := {}, shadow := none
    starter := none, fetchN := none, fetchSb := none, fetchFail := none, listIce := false, listAddr := 0, version := none
    fetched := 0, set := none, next := none, cached := none, marked := false, stopping := false, halting := false
    persist := false, firstLen := 0, feeds := [], order := some n }

/-- The messages that a scan of the inbound rings consumes, in the order of their hods and slots (R418, R430). -/
def State.scanned (s : State) : List Order :=
  (fins 3).flatMap fun h =>
    ((s.hods.hod.get h).messages 64 (s.hods.hod.get h).icons).map fun ws => { hod := h, words := ws }

/-- The message at place `i` of a scan will be refused with VERSION, by the version that its hod has once the orders before
it are served (R422, R481). -/
def State.scanStale (s : State) (i : Nat) : Bool :=
  s.scanned[i]?.any (s.unversioned (s.hods.orders ++ s.scanned.take i))

/-- The order that stands in the first new slot of a hod. -/
def nextOrder (h : Fin 3) (d : Hod) : Order :=
  { hod := h, words := (List.range 16).map fun k => sget 0 d.inSlots ((d.icons.toNat % 64 * 16 + k) % 1024) }

/-- Every register that a reset does not keep stands at its reset value. -/
abbrev restarted (s t : State) : Prop :=
  t.pending = s.pending ∧ t.cfg = s.cfg ∧ (∀ h, t.hart h = {}) ∧ (∀ r, t.tiles.get r = {}) ∧ t.drf = {} ∧ t.mortar = {} ∧
    t.nbr = { connected := s.nbr.connected
              ports := Vector.ofFn fun p => if s.nbr.connected.getLsbD p.val then {} else { state := .absent } } ∧ t.hods = {} ∧ t.ks = {} ∧ t.cal = {} ∧ t.obs = {} ∧ t.vu = {} ∧ t.err = { lanes := resetLanes s.cfg } ∧
    (∀ f, t.floe f = {}) ∧ t.ice.spares = [] ∧ t.ice.sb = {} ∧ t.boot.stage = 1 ∧ t.boot.ready = false ∧
    t.powerReq = false ∧ t.leaseQ = []

/-- A cell belongs to a segment under the spare map that the cells were last written with (R311, R456). -/
def State.heldCell (s : State) (g : Fin 64) (cell : Nat) : Bool :=
  ({ s with ice := { s.ice with spares := if s.powered && s.boot.recordDone then s.ice.spares else s.railMap } } : State).cellInSeg
    g cell

/-- A segment comes up retained from a reset with the power controller's list `l`: its rail has held it, and no revival was
filling it (R30, R293, R458, R484). -/
def State.comesUp (s : State) (l : List (Fin 64)) (g : Fin 64) : Prop :=
  g ∈ l ∧ if s.powered then g.val < Config.segments s.cfg ∧ s.ice.segs.get g = .permafrost ∧
      (∀ r, s.ice.revival = some r → g ∉ r.filled)
    else g ∈ s.railHeld

/-- What the removal of the supply leaves, when the power controller keeps the rails of `rail` (R27, R456). -/
abbrev unpowered (rail : List (Fin 64)) (s t : State) : Prop :=
  restarted s t ∧ t.powered = false ∧ t.railHeld = s.keptSegs.filter rail.contains ∧
    (s.fieldCanonical → ∀ cell,
      ((∃ g, s.comesUp rail g ∧ s.heldCell g cell = true) → sget 0 t.ice.cells cell = sget 0 s.ice.cells cell) ∧
      ((∀ g, s.comesUp rail g → s.heldCell g cell = false) → sget 0 t.ice.cells cell = 0))

/-- A write in flight tears the word of a permafrost segment that lies in a cell (R457). -/
abbrev State.tears (s : State) (q : Fin 64 × IceWrite) (cell : Nat) : Prop :=
  q.2.mask ≠ 0 ∧ ∃ (p : Nat) (h : Bool), s.place q.1 q.2.word = some (.phys p h) ∧ s.segAt p = .permafrost ∧
    cell = s.cellAt (s.bankLevel p h).1 (s.bankLevel p h).2

/-- The codeword that a write leaves over an old one: the bytes of its mask are new, and a partial write keeps the mark of
the old word (R302, R307). -/
def writtenOver (old : BitVec 44) (w : IceWrite) : BitVec 44 :=
  encodeWord ((cwData old &&& ~~~(maskBits w.mask)) ||| (w.data &&& maskBits w.mask))
    (w.mark || (w.mask != 0xF && (classify old).marks))

/-- A hart after its instruction `q` has retired with an effect. -/
def hartRetired (q : XEntry) (e : XEffect) (t : HartState) : HartState :=
  { t with
    preds := match e.pred with | some (p, v) => if p = 0 then t.preds else vset t.preds p.toFin v | none => t.preds
    bank := ssetMany {} t.bank e.bank, summary := e.sum, retired := t.retired + 1
    csr := { t.csr with
      mquota := e.quota.getD t.csr.mquota
      vflags := if q.x.a.s then t.csr.vflags.or e.flags else t.csr.vflags
      vfOvf := t.csr.vfOvf || (e.fault.isSome && t.csr.vfV)
      vfV := t.csr.vfV || e.fault.isSome
      vfCode := if t.csr.vfV then t.csr.vfCode else e.fault.getD t.csr.vfCode
      vfpc := if t.csr.vfV ∨ e.fault = none then t.csr.vfpc else q.pc } }

/-- The Icefield cell of a word that lies in a bank. -/
def cellOf (s : State) (f : Fin 64) (w : Nat) : Option Nat :=
  match s.place f w with
  | some (.phys p a) => some (s.cellAt (s.bankLevel p a).1 (s.bankLevel p a).2)
  | _ => none

/-- The other harts whose write of a machine-mode state register in the same step reaches it (R431, R506). -/
abbrev State.reaching (s : State) (r : Reader) (lost : List Hart) : List Hart :=
  lost.filter fun h => Hart.reader h != r && s.mayWrite (Hart.reader h)

/-- The positions that a reduction on an axis combines into the destination element `i`: a row, a column or the whole
operand (R125). -/
def combined (x : XIn) (ax i : Nat) : List Nat :=
  if ax = 0 then (if i % 64 = 0 ∧ i / 64 ∈ x.rows then rowIdx x.count (i / 64) else [])
  else if ax = 1 then (if i < 64 then x.idx.filter fun p => p % 64 == i else [])
  else if i = 0 then x.idx else []

/-- Position `q` goes before `p` in a selection: it outranks it, or it has its rank and comes first (R195). -/
def goesBefore (less : Nat → Nat → Bool) (p q : Nat) : Bool := less p q || (!less q p && decide (q < p))

/-- How many positions of a list go before one (R195). -/
def rankIn (less : Nat → Nat → Bool) (l : List Nat) (p : Nat) : Nat := (l.filter (goesBefore less p)).length

/-- Two operands lie within the tile file and share no register (R120). -/
abbrev apart (a b : Opd) : Prop :=
  a.base.val + a.n ≤ 64 ∧ b.base.val + b.n ≤ 64 ∧ (a.base.val + a.n ≤ b.base.val ∨ b.base.val + b.n ≤ a.base.val)

/-- An error of value `v` in the symbol at a code position (R304). -/
def symbolError (p : Nat) (v : BitVec 4) : BitVec 44 := v.setWidth 44 <<< (if p < 3 then 32 + 4 * p else 4 * (p - 3))

/-- The engine is idle but for a hart. -/
abbrev quietEngine (s : State) : Prop :=
  s.err.stat = .running ∧ s.vu.inflight = [] ∧ s.vu.fence = none ∧ s.mortar.run = none ∧ s.ice.sb.alloc = [] ∧
    ∀ g, (s.hart g).vqueue = []

/-- Every scoreboard access has a number below the next one (R296). -/
abbrev State.idsFresh (s : State) : Prop := ∀ a ∈ s.ice.sb.alloc ++ s.ice.sb.waiting, a.id < s.ice.sb.nextId

/-- The Moraine writes of every instruction that waits for a line of an access are issued already, or it writes none. -/
abbrev morIssuedFor (s : State) (id : Nat) : Prop :=
  ∀ f ∈ s.vu.inflight, f.sb = some id → f.morIssued = true ∨ f.mor = false

/-- An instruction that waits for a line completes no earlier than its latency after the line (R362). -/
def afterLine (s : State) (id : Nat) : List Inflight :=
  s.vu.inflight.map fun f =>
    if f.sb = some id then { f with done := max f.done (s.cycle + (f.done + 1 - f.accepted - f.occ)) } else f

end Sys2Proof.Machine
end

