-- ==== Sys2Proof/Certificates/Slice0/Obligations.lean ====
section
/-! DEFINITION. The statements for the provers, from the numbered rules of the specification. -/

open Sys2Proof Sys2Proof.Machine

/-- For every command and state, step of a state with the command at the front of its queue is exec of it on the
state with the rest of the queue. The queue is the model's (log entry 12). -/
def Obligations.StepRunsTheFrontCommand : Prop :=
  ∀ (c : Instr) (rest : List Instr) (s : State), s.pending = c :: rest → step s = exec c { s with pending := rest }

/-- On an empty queue a powered engine answers a next state whose step counter is one higher and whose clock has
advanced by the length of the step, in which start-up stage 1 has become 2 and stage 3 has become 4, with harts,
tiles, Icefield, drifts, sequencer, ports, hods, Keystone and errors as before. That time moves there is the
model's choice (log entries 10 and 127). -/
def Obligations.IdleStepAdvancesThePace : Prop :=
  ∀ s : State, s.pending = [] → s.powered = true →
    ∃ t, step s = .next t ∧ t.cycle = s.cycle + 1 ∧ t.harts = s.harts ∧ t.tiles = s.tiles ∧ t.ice = s.ice ∧
      t.drf = s.drf ∧ t.mortar = s.mortar ∧ t.nbr = s.nbr ∧ t.hods = s.hods ∧ t.ks = s.ks ∧ t.err = s.err ∧
      t.time = s.time + (Config.nanosAtStep (s.cycle + 1) - Config.nanosAtStep s.cycle) ∧
      t.boot = { s.boot with
        stage := if s.boot.stage = 1 then 2 else if s.boot.stage = 3 then 4 else s.boot.stage }

/-- For each of the 86 rows of Xcalad instructions: when the hart can act, decode accepts the instruction and the
queue holds fewer than four entries, exec answers a next state in which the instruction stands last in the
hart's queue with the integer register that TB names, the pc is 8 higher, and registers, predicates, summary,
CSRs, bank, the other harts and everything outside the scoreboard's waiting accesses are unchanged. -/
def Obligations.XcaladInstructionEntersItsQueue : Prop :=
  ∀ (c : Instr) (h : Hart) (x : XInstr) (k : XKind) (s : State),
    issues c = some (h, x) → s.canAct (Hart.reader h) = true →
    xcheck h (s.hart h).csr.mparam (s.hart h).csr.xarg ((s.hart h).xcScalar x) s.tiles x = .ok k →
    (s.hart h).vqueue.length < 4 →
    ∃ t, exec c s = .next t ∧
      (t.hart h).vqueue.map (fun e => (e.x, e.scalar)) =
        (s.hart h).vqueue.map (fun e => (e.x, e.scalar)) ++ [(x, (s.hart h).getX (x.a.tb.setWidth 5))] ∧
      (t.hart h).pc = (s.hart h).pc + 8 ∧ (t.hart h).instret = (s.hart h).instret + 1 ∧
      (t.hart h).issued = (s.hart h).issued + 1 ∧
      (t.hart h).x = (s.hart h).x ∧ (t.hart h).preds = (s.hart h).preds ∧ (t.hart h).summary = (s.hart h).summary ∧
      (t.hart h).csr = (s.hart h).csr ∧ (t.hart h).trap = (s.hart h).trap ∧ (t.hart h).mode = (s.hart h).mode ∧
      (t.hart h).bank = (s.hart h).bank ∧ (∀ g, g ≠ h → t.hart g = s.hart g) ∧
      t = { s with harts := t.harts, ice := { s.ice with sb := t.ice.sb } } ∧ t.ice.sb.alloc = s.ice.sb.alloc

/-- An instruction that decode refuses with a code from 1 to 5, while its hart's queue holds fewer than four
entries, traps its hart: mcause 24 and mtval the code as R133 and R406 say, and mepc, MPP, MPIE, MIE, the mode
and the pc as the RISC-V architecture that R398 names says (the model's reading, log entry 4), with registers,
queue, predicates, summary, tiles and Icefield unchanged. With four entries queued the command leaves the state
as it is, and the hart at the instruction (the model's choice, log entry 136). -/
def Obligations.DecodeFaultTrapsAndAFullQueueStalls : Prop :=
  (∀ (c : Instr) (h : Hart) (x : XInstr) (code : Nat) (s : State),
     issues c = some (h, x) → s.canAct (Hart.reader h) = true →
     xcheck h (s.hart h).csr.mparam (s.hart h).csr.xarg ((s.hart h).xcScalar x) s.tiles x = .error code →
     (s.hart h).vqueue.length < 4 →
     ∃ t, exec c s = .next t ∧ 1 ≤ code ∧ code ≤ 5 ∧
       (t.hart h).pc = (s.hart h).trap.mtvec &&& 0xFFFFFFFC ∧ (t.hart h).mode = .m ∧
       (t.hart h).trap.mepc = (s.hart h).pc ∧ (t.hart h).trap.mcause = 24 ∧
       (t.hart h).trap.mtval = BitVec.ofNat 32 code ∧ (t.hart h).trap.mpp = (s.hart h).mode ∧
       (t.hart h).trap.mpie = (s.hart h).trap.mie ∧ (t.hart h).trap.mie = false ∧
       (t.hart h).x = (s.hart h).x ∧ (t.hart h).vqueue = (s.hart h).vqueue ∧ (t.hart h).preds = (s.hart h).preds ∧
       (t.hart h).summary = (s.hart h).summary ∧ t.tiles = s.tiles ∧ t.ice.cells = s.ice.cells) ∧
  (∀ (c : Instr) (h : Hart) (x : XInstr) (s : State), issues c = some (h, x) →
     4 ≤ (s.hart h).vqueue.length → exec c s = .next s)

/-- When the vector unit may accept, VECTOR_ACCEPT leaves the state as it is if a bond step is ready, which has
priority by R245 (that the command then has no effect is the model's choice, log entry 44). Otherwise it takes
the head of the queue of the first ready hart in cyclic order: it is accepted after the last occupied step, on
the groups that serve, with its governing predicate and quota, its scoreboard access is allocated, and the other
harts, tiles, Icefield words, floes and the other units are unchanged. -/
def Obligations.VectorUnitTakesTurns : Prop :=
  ∀ (h : Hart) (k : Nat) (e : XEntry) (s : State), s.mayAccept = true → k < 16 →
    h.val = (s.vu.rr.val + k) % 16 →
    (∀ (i : Nat) (g : Hart), i < k → g.val = (s.vu.rr.val + i) % 16 → s.readyHead g = none) →
    s.readyHead h = some e →
    (s.bondReady = true → exec .vectorAccept s = .next s) ∧
    (s.bondReady = false → ∃ t : State, exec .vectorAccept s = .next t ∧ t.vu.rr = h + 1 ∧
      (t.hart h).vqueue.map (·.n) = ((s.hart h).vqueue.drop 1).map (·.n) ∧
      (∃ f : Inflight, t.vu.inflight = s.vu.inflight ++ [f] ∧ f.hart = h ∧ f.e = e ∧
        f.predv = (s.hart h).getPred e.x.a.pred ∧ f.quota = (s.hart h).csr.mquota ∧ f.sb = e.sb ∧ f.withheld = false ∧ f.result = none ∧
        (∀ g, g ∈ f.groups ↔ (s.err.lanes.get g).state = .active) ∧
        s.cycle < f.accepted ∧ s.vu.busyUntil < f.accepted ∧ s.vu.fenceUntil < f.accepted) ∧
      (∀ id, e.sb = some id → ∀ a ∈ s.ice.sb.waiting, a.id = id → a ∈ t.ice.sb.alloc) ∧
      (∀ g, g ≠ h → t.hart g = s.hart g) ∧ (t.hart h).x = (s.hart h).x ∧ (t.hart h).preds = (s.hart h).preds ∧
      (t.hart h).summary = (s.hart h).summary ∧ (t.hart h).csr = (s.hart h).csr ∧ (t.hart h).pc = (s.hart h).pc ∧
      t.tiles = s.tiles ∧ t.ice.cells = s.ice.cells ∧ t.ice.floes = s.ice.floes ∧ t.drf = s.drf ∧ t.mortar = s.mortar ∧
      t.nbr = s.nbr ∧ t.hods = s.hods ∧ t.ks = s.ks ∧ t.err = s.err)

/-- INSTRUCTION_RETIRE, when the oldest accepted instruction of a hart is the one that completes next and meets no
error of the lanes, writes the tiles of its effect, its summary, flags (with S), predicate, statistic bank and
quota, records its fault, writes each Icefield word of the effect that lies in a bank with its mark, frees its
scoreboard access, and leaves every other hart, every other cell and every other unit as before. -/
def Obligations.RetirementGivesTheWholeEffect : Prop :=
  ∀ (h : Hart) (f : Inflight) (mem : Store (BitVec 33)) (s u : State), s.powered = true → s.err.stat = .running →
    s.oldest h = some f → s.nextToComplete h = some f → (∀ g ∈ s.vu.inflight, g ≠ f → g.hart = h → g.result = none) →
    s.vu.inflight.Nodup → (s.xinOf f).upsetRead = none → f.mor = false → s.fieldCanonical →
    (∀ id, f.sb = some id → s.firnFor id = none) →
    u = s.advanceTo f.done →
    u.readWords (Src.vector h) (f.sb.getD 0) f.e.floe (u.xinOf f).readWords = (u, mem) →
    let e : XEffect := if f.e.x.a.count = 0 then {} else xEffect { u.xinOf f with mem }
    ((e.ice.filterMap fun w => cellOf s f.e.floe w.word).Nodup) →
    ∃ t : State, exec (.instructionRetire h none) s = .next t ∧ t.tiles = e.tiles s.tiles ∧
      t.hart h = hartRetired f.e e (s.hart h) ∧ (∀ g, g ≠ h → t.hart g = s.hart g) ∧
      t.vu.inflight = s.vu.inflight.erase f ∧ t.hods = (s.noteVector h f.e.x.op e.sum).hods ∧
      (∀ w ∈ e.ice, ∀ cell, cellOf s f.e.floe w.word = some cell → sget 0 t.ice.cells cell = encodeWord w.data w.mark) ∧
      (∀ cell, (∀ w ∈ e.ice, cellOf s f.e.floe w.word ≠ some cell) → sget 0 t.ice.cells cell = sget 0 s.ice.cells cell) ∧
      (∀ id, f.sb = some id → s.ice.morLines = [] → ∀ a ∈ t.ice.sb.alloc, a.id ≠ id) ∧
      t.ice.floes = s.ice.floes ∧ t.drf = s.drf ∧ t.mortar = s.mortar ∧ t.nbr = s.nbr ∧ t.ks = s.ks ∧ t.err = s.err

/-- CE_TILE_LEASE by a writer of the machine mode whose write stands (R431; the writers of the step come with the
command, log entry 15) changes the lease of a register that nothing names at once and counts in CE_KS_PREEMPT
the writes of the same step that it beats; it waits, with the writing hart, while an instruction or a running
course names it, and LEASE_EFFECT then sets the lease and lets the hart go on. A writer in user mode, or one
whose write is beaten, changes nothing. -/
def Obligations.TileLeasesChangeWhenFree : Prop :=
  (∀ (r : Reader) (w : Word) (lost : List Hart) (m : LeaseMode) (s : State), s.canAct r = true →
    leaseMode (w.extractLsb' 16 2) = some m →
    (s.privileged r = false → exec (.tileLease r w lost) s = .next s) ∧
    (s.privileged r = true → stands r (s.reaching r lost) = false → exec (.tileLease r w lost) s = .next s) ∧
    (s.privileged r = true → stands r (s.reaching r lost) = true → s.tileBusy (w.extractLsb' 0 6).toFin = false →
      (∀ q ∈ s.leaseQ, q.tile ≠ (w.extractLsb' 0 6).toFin) →
      exec (.tileLease r w lost) s = .next (({ s with ks := { s.ks with
          preempt := addSat s.ks.preempt (s.reaching r lost).length } } : State).modTile (w.extractLsb' 0 6).toFin fun t =>
        { t with lease := m, owner := (w.extractLsb' 8 4).toFin })) ∧
    (∀ h : Hart, r = Hart.reader h → s.privileged r = true → stands r (s.reaching r lost) = true →
      s.tileBusy (w.extractLsb' 0 6).toFin = true →
      ∃ t : State, exec (.tileLease r w lost) s = .next t ∧ t.tiles = s.tiles ∧ (t.hart h).wait = .lease ∧
        t.leaseQ = s.leaseQ ++ [{ who := r, tile := (w.extractLsb' 0 6).toFin, hart := (w.extractLsb' 8 4).toFin, mode := m }])) ∧
  (∀ (t : TileReg) (h : Hart) (q : LeaseReq) (s : State), s.powered = true →
    (s.tileBusy t = true → exec (.leaseEffect t) s = .next s) ∧
    (s.tileBusy t = false → s.leaseQ = [q] → q.tile = t → q.who = Hart.reader h → (s.hart h).wait = .lease →
      (s.hart h).dlock = none →
      ∃ u : State, exec (.leaseEffect t) s = .next u ∧ u.leaseQ = [] ∧
        u.tiles = vset s.tiles t { s.tiles.get t with lease := q.mode, owner := q.hart } ∧
        u.hart h = { s.hart h with wait := .run } ∧ (∀ g, g ≠ h → u.hart g = s.hart g) ∧
        u = { s with leaseQ := [], tiles := u.tiles, harts := u.harts }))

/-- With a ready spare, a residue failure withholds the instruction's results, fences the group and gives its
logical number to the spare; the replay accepts the withheld instructions again on the groups that then serve.
Without one it is the fault LANES and the group keeps a claim to its number. A container that has changed since
it was written and that the instruction reads is the fault TILE with the register and the container. A fenced
group goes through its ramp and self-test, and rejoins when a measurement lies in the band, under its former
number or as the spare, with the report FENCED. -/
def Obligations.ResidueFailureFencesAndTheGroupComesBack : Prop :=
  (∀ (h : Hart) (f : Inflight) (g k : Fin 17) (s : State), s.powered = true → s.err.stat = .running →
    s.nextToComplete h = some f → (s.xinOf f).upsetRead = none → (s.xinOf f).delivers = true → g ∈ f.groups →
    (s.err.lanes.get g).state = .active → s.readySpare = some k → (s.err.lanes.get g).fences < 2 →
    s.boot.ready = true →
    ∃ t : State, exec (.instructionRetire h (some (.residue g))) s = .next t ∧ t.tiles = s.tiles ∧ t.harts = s.harts ∧
      t.ice = s.ice ∧ t.vu.fence = some g ∧ t.vu.fenceUntil = f.done + 8 ∧
      t.err.lanes.get g = { s.err.lanes.get g with state := .fenced, fences := (s.err.lanes.get g).fences + 1, home := none } ∧
      t.err.lanes.get k = { s.err.lanes.get k with state := .active, logical := (s.err.lanes.get g).logical } ∧
      (∀ m, m ≠ g → m ≠ k → t.err.lanes.get m = s.err.lanes.get m) ∧
      t.vu.inflight = s.vu.inflight.map (fun o => if o = f then { f with withheld := true } else o)) ∧
  (∀ (h : Hart) (f : Inflight) (g : Fin 17) (s : State), s.powered = true → s.err.stat = .running →
    s.nextToComplete h = some f → (s.xinOf f).upsetRead = none → (s.xinOf f).delivers = true → g ∈ f.groups →
    (s.err.lanes.get g).state = .active → s.readySpare = none → (s.err.lanes.get g).fences < 2 →
    8 ≤ s.boot.stage.toNat →
    ∃ t : State, exec (.instructionRetire h (some (.residue g))) s = .next t ∧ t.tiles = s.tiles ∧ t.err.stat = .recovering ∧
      t.err.recovery.map (fun r => (r.code, r.src, r.unit, r.loc)) = some (4, 0, BitVec.ofNat 6 g.val, BitVec.ofNat 32 g.val) ∧
      (t.err.lanes.get g).state = .fenced ∧ (t.err.lanes.get g).home = some (s.err.lanes.get g).logical ∧
      ∀ i, (t.hart i).halted = true ∧ (t.hart i).summary = (s.hart i).summary) ∧
  (∀ (h : Hart) (f : Inflight) (r q : TileReg) (n : Fin 4096) (m : Nat) (s : State), s.powered = true →
    s.err.stat = .running → 8 ≤ s.boot.stage.toNat → s.nextToComplete h = some f →
    ((s.upset (some (.container r n))).xinOf f).upsetRead = some (q, m) →
    ∃ t : State, exec (.instructionRetire h (some (.container r n))) s = .next t ∧ t.err.stat = .recovering ∧
      t.err.recovery.map (fun r => (r.code, r.src, r.unit, r.loc)) =
        some (3, 0, BitVec.ofNat 6 h.val, BitVec.ofNat 32 (q.val + 64 * m)) ∧
      (∀ k, (t.tiles.get k).data = (s.tiles.get k).data) ∧
      ∀ i, (t.hart i).halted = true ∧ (t.hart i).summary = (s.hart i).summary) ∧
  (∀ s : State, s.powered = true → s.err.stat = .running → s.vu.fence.isSome ∨ (∃ f ∈ s.vu.inflight, f.withheld = true) →
    ∃ t : State, exec .instructionReplay s = .next t ∧ t.vu.fence = none ∧ (∀ f ∈ t.vu.inflight, f.withheld = false) ∧
      t.vu.inflight.map (fun f => (f.hart, f.e, f.predv, f.quota, f.occ)) =
        s.vu.inflight.map (fun f => (f.hart, f.e, f.predv, f.quota, f.occ)) ∧
      (∀ f ∈ t.vu.inflight, f ∈ s.vu.inflight ∨
        s.vu.busyUntil < f.accepted ∧ s.vu.fenceUntil < f.accepted ∧ ∀ g, g ∈ f.groups ↔ (s.err.lanes.get g).state = .active) ∧
      t.tiles = s.tiles ∧ t.harts = s.harts ∧ t.ice = s.ice ∧ t.err = s.err) ∧
  (∀ (g : Fin 17) (s : State), s.powered = true →
     ((s.err.lanes.get g).state = .fenced → exec (.laneRampEnd g) s =
       .next (s.modLane g fun l => { l with state := .testing, tested := false })) ∧
     ((s.err.lanes.get g).state = .testing → (s.err.lanes.get g).tested = false →
       exec (.laneSelftestEnd g true) s = .next (s.modLane g fun l => { l with tested := true }) ∧
       exec (.laneSelftestEnd g false) s = .next ((s.modLane g fun l => { l with state := .retired, home := none }).report 0xCA
         [BitVec.ofNat 32 g.val, (s.err.lanes.get g).logical.setWidth 32, 4])) ∧
     ((s.err.lanes.get g).state = .testing → (s.err.lanes.get g).tested = true →
       ∀ (n : BitVec 4) (v : Nat), 5 ≤ v → v ≤ 7 →
         ((s.err.lanes.get g).home = some n →
           (∀ k, (s.err.lanes.get k).state = .active → (s.err.lanes.get k).logical ≠ n) →
           ∃ t : State, exec (.laneGroupRejoin g [v]) s = .next (t.report 0xCA [BitVec.ofNat 32 g.val, n.setWidth 32, 0]) ∧
             t.err.lanes.get g = { s.err.lanes.get g with state := .active, logical := n, home := none, tested := false } ∧
             (∀ k, k ≠ g → t.err.lanes.get k = s.err.lanes.get k) ∧ t.harts = s.harts ∧ t.tiles = s.tiles ∧ t.ice = s.ice) ∧
         ((s.err.lanes.get g).home = none →
           ∃ t : State, exec (.laneGroupRejoin g [v]) s = .next (t.report 0xCA [BitVec.ofNat 32 g.val,
               (s.err.lanes.get g).logical.setWidth 32, 1]) ∧
             t.err.lanes.get g = { s.err.lanes.get g with state := .spare, tested := false } ∧
             (∀ k, k ≠ g → t.err.lanes.get k = s.err.lanes.get k) ∧ t.harts = s.harts ∧ t.tiles = s.tiles ∧ t.ice = s.ice)))

/-- For canonical tiles, the destination element of every position below COUNT in an active row reads back, in the
destination's format, as the operation of the source elements for MOV, MOV.X with its conversion, IOTA.X, CVT,
SFU, ARITH with tile or scalar operand (add, subtract, multiply, absolute value, negation, and FMA and FMS of
tiles), CMP, MAXMIN with tile or scalar operand, the row and column broadcasts, PERM by its index and NORM by
its row; the element of every other position is unchanged. TRANS reads the transposed position of its 64 by 64
block. RSUM, RMAX, RDOT and RARG along each axis write the reduction of the positions combined there, and the
reads of RACC the bank's value at the head of each active row. SORT within rows leaves each active row's valid
elements a sorted permutation of what they were. COMPACT, ISECT and UNIQUE pack the elements that their rule
selects, EXPAND spreads them, MERGE permutes its sequence, TOPK gives each row its candidates by rank, HIST
counts its bins and ROUTE the slots it grants each expert. MPRUNE and MGROW keep and grow the positions of
highest rank, MAPPLY applies a bitmap, MPACK's bitmap names the first survivors of each brick, and MUNPACK puts
the values of a matching brick at their positions and zero elsewhere. -/
def Obligations.ElementResultsReadBack : Prop :=
  (∀ (x : XIn) (i : Nat), (∀ t : TileReg, swf 0 (x.ts.get t).data = true) → x.a.td.toNat + x.od.n ≤ 64 → i < x.od.size →
     x.count ≤ x.od.size →
     let t := (xEffect x).tiles x.ts
     let new := (readElem t x.od.base x.fd i).1
     let width : Nat := 2 ^ x.fd.width
     (i ∉ x.idx → (x.k = .mov ∨ x.k = .cvt ∨ x.k = .movX ∨ x.k = .iota ∨ (∃ o s, x.k = .arith o s) ∨ (∃ m s, x.k = .maxmin m s) ∨
         (∃ f, x.k = .sfu f) ∨ (∃ p s, x.k = .cmp p s) ∨ (∃ k, x.k = .rowb k ∨ x.k = .colb k ∨ x.k = .norm k) ∨ x.k = .perm) → new = (x.od.get x.ts i).1) ∧
     (i ∈ x.idx →
       (x.k = .mov → new.toNat = (x.oa.get x.ts i).1.toNat % width) ∧
       (x.k = .movX → new.toNat = (if x.fb = x.fd then x.scalar
         else (convert x.fb x.fd x.a.sat x.scalar).code).toNat % width) ∧
       (x.k = .iota → new.toNat =
         (x.fd.encode x.a.sat true (Num.ofInt false (x.e.scalar.toInt + (i : Int)) 0)).code.toNat % width) ∧
       (x.k = .cvt → new.toNat = (convert x.fa x.fd x.a.sat (x.oa.get x.ts i).1).code.toNat % width) ∧
       (∀ f, x.k = .sfu f → new.toNat = (sfuElem f x.a.s x.a.sat x.fa x.fd (x.oa.get x.ts i).1).code.toNat % width) ∧
       (∀ o, x.k = .arith o false → o = .add ∨ o = .sub ∨ o = .mul → new.toNat = (elementwise o x.a.s x.a.sat x.fa x.fb x.fd
         (x.oa.get x.ts i).1 (x.ob.get x.ts i).1 0).code.toNat % width) ∧
       (∀ o, x.k = .arith o false → o = .fma ∨ o = .fms → new.toNat = (elementwise o x.a.s x.a.sat x.fa x.fb x.fd
         (x.oa.get x.ts i).1 (x.ob.get x.ts i).1 (x.od.get x.ts i).1).code.toNat % width) ∧
       (∀ o, x.k = .arith o true → o = .add ∨ o = .sub ∨ o = .mul → new.toNat = (elementwise o x.a.s x.a.sat x.fa x.fb x.fd
         (x.oa.get x.ts i).1 x.scalar 0).code.toNat % width) ∧
       (∀ o v, x.k = .arith o v → o = .abs ∨ o = .neg → new.toNat =
         (signOp (o == .abs) x.a.sat x.fa x.fd (x.oa.get x.ts i).1).code.toNat % width) ∧
       (∀ p v, x.k = .cmp p v → new.toNat = (if (compareElems p (x.fa.decode (x.oa.get x.ts i).1)
         (x.fb.decode (if v then x.scalar else (x.ob.get x.ts i).1))).1 then (oneCode x.fd).toNat else 0) % width) ∧
       (∀ m, x.k = .maxmin m true → new.toNat = (maxmin m x.a.sat x.fa x.fb x.fd (x.oa.get x.ts i).1
         x.scalar).code.toNat % width) ∧
       (∀ k, x.k = .rowb k ∨ x.k = .colb k → new.toNat = (bcastOp k x.a.s x.a.sat x.fa x.fb x.fd (x.oa.get x.ts i).1
         (x.ob.get x.ts (if x.k = .rowb k then i / 64 * 64 else i % 64)).1).code.toNat % width) ∧
       (x.k = .perm → new.toNat = (if 0 ≤ intVal .int32 (x.oa.get x.ts i).1 ∧ intVal .int32 (x.oa.get x.ts i).1 < x.od.size then
         (x.od.get x.ts (intVal .int32 (x.oa.get x.ts i).1).toNat).1.toNat else 0) % width) ∧
       (∀ k, x.k = .norm k → ∀ y, (normRow k x (i / 64)).ys[i % 64]? = some y →
         new.toNat = (convert .fp32 x.fd x.a.sat (y.setWidth 64)).code.toNat % width) ∧
       (∀ m, x.k = .maxmin m false → new.toNat = (maxmin m x.a.sat x.fa x.fb x.fd (x.oa.get x.ts i).1
         (x.ob.get x.ts i).1).code.toNat % width))) ∧
  (∀ (x : XIn) (i : Nat), (∀ t : TileReg, swf 0 (x.ts.get t).data = true) → x.a.td.toNat + x.od.n ≤ 64 → i < x.od.size →
     x.count ≤ x.od.size →
     let new := (readElem ((xEffect x).tiles x.ts) x.od.base x.fd i).1
     let old := (x.od.get x.ts i).1
     let width : Nat := 2 ^ x.fd.width
     let src := i / 4096 * 4096 + i % 64 * 64 + i % 4096 / 64
     (x.k = .trans → new.toNat = (if src < x.count ∧ x.pred.getLsbD (src / 64) = true then (x.oa.get x.ts src).1.toNat
       else old.toNat) % width) ∧
     (∀ (ax : Nat) (f : List Nat → Rounded), ax < 3 → (∃ sq, x.k = .rsum ax sq ∧ f = redSum sq x) ∨
         (∃ m, x.k = .rmax ax m ∧ f = redMax m x) ∨ (∃ acc, x.k = .rdot ax acc ∧ f = redDot acc x i) ∨
         (∃ m, x.k = .rarg ax m ∧ f = redArg ax m x) →
       new.toNat = (if combined x ax i = [] then old.toNat else (f (combined x ax i)).code.toNat) % width) ∧
     (∀ k, 4 ≤ k → x.k = .racc k → new.toNat = (if i % 64 = 0 ∧ i / 64 ∈ x.rows then (raccRead k x (i / 64)).1.code.toNat
       else old.toNat) % width) ∧
     (∀ desc, x.k = .sort desc false → x.fd = x.fa → ∀ r ∈ x.rows,
       let ps := (rowIdx x.count r).filter (validAt x.ts x.oa)
       let now := ps.map fun p => (readElem ((xEffect x).tiles x.ts) x.od.base x.fd p).1
       now.Perm (ps.map fun p => (x.oa.get x.ts p).1) ∧
         now.Pairwise fun a b => precedes desc (x.fa.decode b) (x.fa.decode a) = false)) ∧
  (∀ (x : XIn) (i : Nat), (∀ t : TileReg, swf 0 (x.ts.get t).data = true) → x.a.td.toNat + x.od.n ≤ 64 → i < x.od.size →
     x.count ≤ x.od.size →
     let t := (xEffect x).tiles x.ts
     let new := (readElem t x.od.base x.fd i).1.toNat
     let old := (x.od.get x.ts i).1.toNat
     let width : Nat := 2 ^ x.fd.width
     let a := fun p => (x.oa.get x.ts p).1
     let v := fun p => x.fa.decode (a p)
     let holds := fun p => nonzero x.fb (x.ob.get x.ts p).1
     let packedIn := fun (l : List Nat) => new = match l[i]? with
       | some p => (a p).toNat % width
       | none => if i < 64 * ((l.length + 63) / 64) then 0 else old
     (x.k = .compact → packedIn (x.idx.filter fun p => validAt x.ts x.oa p && holds p)) ∧
     (x.k = .isect false → packedIn (x.seqIdx.filter fun p => x.setIdx.any fun q =>
       (v p).eqv (x.fb.decode (x.ob.get x.ts q).1))) ∧
     (x.k = .unique false → packedIn ((x.seqIdx.zipIdx.filter fun q =>
       q.2 == 0 || !uniqueEq x.fa (a (x.seqIdx.getD (q.2 - 1) 0)) (a q.1)).map (·.1))) ∧
     (x.k = .expand → new = if i ∈ x.idx ∧ holds i = true then
       (a (x.idx.filter fun p => decide (p < i) && holds p).length).toNat % width else old) ∧
     (∀ desc, x.k = .merge desc false → x.fd = x.fa →
       (x.seqIdx.map fun p => (readElem t x.od.base x.fd p).1).Perm (x.seqIdx.map a)) ∧
     (∀ small, x.k = .topk small false false → (x.e.xarg.extractLsb' 0 7).toNat ≤ 64 → apart x.od x.pay →
       i / 64 ∈ x.rows → i % 64 < (x.e.xarg.extractLsb' 0 7).toNat →
       let l := (rowIdx x.count (i / 64)).filter fun p => validAt x.ts x.oa p && !(v p).isNan
       (∀ p, p ∈ l → rankIn (fun p q => valueLess small (v p) (v q)) l p = i % 64 → new = (a p).toNat % width) ∧
       (l.length ≤ i % 64 → new = (worstCode small x.fd).toNat % width)) ∧
     (∀ expo acc, x.k = .hist expo acc → x.a.sat = false →
       let d := x.group x.a.td.toFin .int32
       x.a.td.toNat + d.n ≤ 64 → i < d.size → i < x.e.xarg.toNat →
       (readElem t d.base .int32 i).1.toNat =
         ((if acc then (d.get x.ts i).1.toNat else 0) + (x.seqIdx.filter fun p => binOf expo x.fa (a p) == Int.ofNat i).length) %
           2 ^ 32) ∧
     (∀ chosen, x.k = .route chosen →
       let k := (x.e.xarg.extractLsb' 0 4).toNat
       let cap := (x.e.xarg.extractLsb' 4 15).toNat
       let experts := (x.ts.get x.oa.base).vc
       x.pay.base.val + x.pay.n ≤ 64 → experts * cap + experts ≤ x.pay.size → experts * cap ≤ x.od.size → i < experts →
       (readElem t x.pay.base .int32 (experts * cap + i)).1.toNat =
         min cap (x.rows.filter fun r => decide (0 < rowWidth x.ts x.oa r) && (routeChoices x k experts r).contains i).length %
           2 ^ 32)) ∧
  (∀ (x : XIn) (i : Nat), (∀ t : TileReg, swf 0 (x.ts.get t).data = true) → i < x.count → i / 64 ∈ x.rows →
     x.count % x.bsz = 0 →
     let t := (xEffect x).tiles x.ts
     let v := fun p => x.fa.decode (x.oa.get x.ts p).1
     let j := i / x.bsz
     let bmD := bitmapOpd x.a.td.toFin
     let bmB := bitmapOpd x.a.tb.toFin
     (∀ m, x.k = .mprune m → m < 3 → apart bmD x.oa →
       let size := if m = 1 then 64 else if m = 2 then 2 ^ (x.e.scalar.extractLsb' 8 3).toNat else x.bsz
       let k := if m = 2 then (x.e.scalar.extractLsb' 0 5).toNat else (x.e.scalar.extractLsb' 0 7).toNat
       let l := x.idx.filter fun p => p / size == i / size && validAt x.ts x.oa p && bitAt x.ts bmD x.bsz p
       let kept := i ∈ l ∧ rankIn (fun p q => magLess (v p) (v q)) l i < k
       bitAt t bmD x.bsz i = decide kept ∧
         (i < x.oa.size → (readElem t x.oa.base x.fa i).1.toNat =
           if i ∈ l ∧ ¬kept then 0 else (x.oa.get x.ts i).1.toNat)) ∧
     (∀ m, x.k = .mgrow m → m = 0 ∨ m = 2 →
       let k := (x.e.scalar.extractLsb' 0 7).toNat
       let l := x.idx.filter fun p => p / x.bsz == j && validAt x.ts x.oa p && !bitAt x.ts bmD x.bsz p
       let less := fun p q => if m = 2 then decide ((maskDraw x p).toNat < (maskDraw x q).toNat) else magLess (v p) (v q)
       bitAt t bmD x.bsz i = (validAt x.ts x.oa i && (bitAt x.ts bmD x.bsz i || decide (i ∈ l ∧ rankIn less l i < k)))) ∧
     (∀ inf, x.k = .mapply inf → x.a.td.toNat + x.od.n ≤ 64 → i < x.od.size → x.count ≤ x.od.size →
       (readElem t x.od.base x.fd i).1.toNat = (if bitAt x.ts bmB x.bsz i then (x.oa.get x.ts i).1.toNat
         else if inf then (worstCode false x.fd).toNat else 0) % 2 ^ x.fd.width) ∧
     (∀ sc, x.k = .mpack sc →
       let n := brickLen (mpKC x.e.mparam) x.fd
       let d := x.packed x.a.td.toFin n
       let live := fun p => validAt x.ts x.oa p && bitAt x.ts bmB x.bsz p
       d.base.val + d.n ≤ 64 → (x.count / x.bsz) * n ≤ d.size →
       (readElem t d.base .int32 (j * n)).1.getLsbD (i % x.bsz) =
         (live i && decide (((List.range (i % x.bsz)).filter fun p => live (j * x.bsz + p)).length < brickK (mpKC x.e.mparam)))) ∧
     (x.k = .munpack → apart x.od bmB → i < x.od.size → x.count ≤ x.od.size →
       let n := brickLen (mpKC x.e.mparam) x.fa
       let ws := (x.brickWords (x.packed x.a.ta.toFin n) n j).1
       let map := ws.headD 0
       (readElem t x.od.base x.fd i).1.toNat = (if x.matchesParam ws = true ∧ map.getLsbD (i % x.bsz) = true then
         (unpackValue x.fa x.fd x.a.sat ((ws.getD 1 0).extractLsb' 16 8)
           (slotValue x.fa ws ((List.range (i % x.bsz)).filter map.getLsbD).length)).code.toNat else 0) % 2 ^ x.fd.width))

/-- For every instruction input and every row: with COUNT above zero the result of PAND, POR, PANDN, PXOR, PLT, PANY
and PALL has, at that row, the bit of R165's table, which is the combination of the two source predicates, the
comparison of the row with the scalar, or whether the row is active and some or every valid position of it below
COUNT is nonzero. The predicate that TD names reads back as that result once the hart has taken the effect, p0
as one and every other predicate as before; with COUNT zero nothing is written. They write no element, extent,
Icefield word or bank entry. -/
def Obligations.PredicateInstructionsCombineRows : Prop :=
  ∀ (x : XIn) (r : Nat), r < 256 →
    let p := x.hart.getPred (x.a.ta.setWidth 3)
    let q := x.hart.getPred (x.a.tb.setWidth 3)
    let e := x.effect x.mem
    let n : BitVec 3 := x.a.td.setWidth 3
    let after := hartRetired x.e e x.hart
    let result (b : Bool) : Prop := (e.pred.map fun w => w.2.getLsbD r) = (if x.count = 0 then none else some b) ∧
      (after.getPred n).getLsbD r = (if x.count = 0 then (x.hart.getPred n).getLsbD r else decide (n = 0) || b)
    (x.k = .plogic 2 → result (p.getLsbD r && q.getLsbD r)) ∧
    (x.k = .plogic 3 → result (p.getLsbD r || q.getLsbD r)) ∧
    (x.k = .plogic 4 → result (p.getLsbD r && !q.getLsbD r)) ∧
    (x.k = .plogic 5 → result (p.getLsbD r ^^ q.getLsbD r)) ∧
    (x.k = .plt → result (decide (r < x.e.scalar.toNat))) ∧
    (x.k = .pany → result (decide (r ∈ x.rows ∧ ∃ i ∈ rowIdx x.count r, validAt x.ts x.oa i = true ∧
      nonzero x.fa (x.oa.get x.ts i).1 = true))) ∧
    (x.k = .pall → result (decide (r ∈ x.rows ∧ (∃ i ∈ rowIdx x.count r, validAt x.ts x.oa i = true) ∧
      ∀ i ∈ rowIdx x.count r, validAt x.ts x.oa i = true → nonzero x.fa (x.oa.get x.ts i).1 = true))) ∧
    ((∃ n, x.k = .plogic n) ∨ x.k = .plt ∨ x.k = .pany ∨ x.k = .pall →
      e.pred.map (·.1) = (if x.count = 0 then none else some n) ∧ (∀ m, m ≠ n → after.getPred m = x.hart.getPred m) ∧
        e.writes = [] ∧ e.exts = [] ∧ e.ice = [] ∧ e.bank = [])

/-- The symbols are a field with α = 0x2 and α^4 = α + 1. For every word the stored codeword holds data symbol i at
code position i + 3 and the check symbols at bits [35:32], [39:36] and [43:40], is a multiple of the generator
with its coefficients 1, 0x7, 0xE and 0x8, and vanishes at 1, α and α²; the local store holds a written word as
that codeword and reads it back. For every two code positions: the codeword is clean, with one wrong symbol it
is classified as a single error at that position with that value and corrects to the word, and with two wrong
symbols it is classified neither as clean nor as a single error. -/
def Obligations.SymbolCodeCorrectsOneAndDetectsTwo : Prop :=
  ((∀ a b c : BitVec 4, gfMul a b = gfMul b a ∧ gfMul a (b ^^^ c) = gfMul a b ^^^ gfMul a c ∧
      gfMul a (gfMul b c) = gfMul (gfMul a b) c ∧ gfMul a 1 = a) ∧
    gfMul 2 2 = 4 ∧ gfMul 2 4 = 8 ∧ gfMul 2 8 = 2 ^^^ 1 ∧ gfPow 0 = 1 ∧ ∀ n, gfPow (n + 1) = gfMul 2 (gfPow n)) ∧
  (∀ d : Word,
    (∀ i, i < 8 → cwSymbol (encodeClean d) (i + 3) = d.extractLsb' (4 * i) 4) ∧
    (∀ j, j < 3 → cwSymbol (encodeClean d) j = (encodeClean d).extractLsb' (32 + 4 * j) 4) ∧
    (∃ m : Fin 8 → BitVec 4, ∀ p, p < 11 → cwSymbol (encodeClean d) p =
      (List.finRange 8).foldl (fun a i => a ^^^ gfMul (m i)
        (if p = i.val then 0x8 else if p = i.val + 1 then 0xE else if p = i.val + 2 then 0x7
          else if p = i.val + 3 then 1 else 0)) 0) ∧
    (∀ j, j < 3 → (List.range 11).foldl (fun a p => a ^^^ gfMul (cwSymbol (encodeClean d) p) (gfPow (j * p))) 0 = 0) ∧
    (∀ (s : State) (i : Nat) (who : Src), swf 0 s.ks.store = true → sget 0 (s.writeLs i d).ks.store i = encodeClean d ∧
      ((s.writeLs i d).readLs who i).2 = some d)) ∧
  (∀ (d : Word) (p q : Nat) (v w : BitVec 4), p < 11 → q < 11 → p ≠ q → v ≠ 0 → w ≠ 0 →
    classify (encodeClean d) = .clean ∧
    (classify (encodeClean d ^^^ symbolError p v) = .single p v ∧
      correctAt (encodeClean d ^^^ symbolError p v) p v = encodeClean d ∧ cwData (encodeClean d) = d) ∧
    ((∀ k z, classify (encodeClean d ^^^ symbolError p v ^^^ symbolError q w) ≠ .single k z) ∧
      classify (encodeClean d ^^^ symbolError p v ^^^ symbolError q w) ≠ .clean))

/-- On an engine that is idle but for one hart, the three steps that issue, accept and retire an Xcalad instruction
that reads no upset container, from any of its rows but those that touch Icefield words (their words are the
matter of RetirementGivesTheWholeEffect), end in a state whose tiles, predicate, summary, flags, bank and quota
are those of the instruction's effect on the first state, with the pc 8 higher and every other hart and unit
unchanged. -/
def Obligations.XcaladInstructionRunsToItsEffect : Prop :=
  ∀ (c : Instr) (h : Hart) (x : XInstr) (k : XKind) (s : State), issues c = some (h, x) →
    s.pending = [c, .vectorAccept, .instructionRetire h none] → s.canAct (Hart.reader h) = true → quietEngine s →
    xcheck h (s.hart h).csr.mparam (s.hart h).csr.xarg ((s.hart h).xcScalar x) s.tiles x = .ok k → k.icefield = false →
    let q : XEntry := (s.hart h).entryOf x
    let t : HartState := { s.hart h with
      pc := (s.hart h).pc + 8, instret := (s.hart h).instret + 1, issued := (s.hart h).issued + 1 }
    let i : XIn := { k, e := q, pred := (s.hart h).getPred x.a.pred, quota := (s.hart h).csr.mquota, ts := s.tiles, hart := t
                     floe := if (s.floe q.floe).used then some (s.floe q.floe).window else none
                     hashed := (s.floe q.floe).used && (s.floe q.floe).hash }
    let e : XEffect := if x.a.count = 0 then {} else xEffect i
    i.upsetRead = none →
    ∃ s1 s2 s3 : State, step s = .next s1 ∧ step s1 = .next s2 ∧ step s2 = .next s3 ∧ s3.pending = [] ∧
      s3.tiles = e.tiles s.tiles ∧ s3.hart h = hartRetired q e t ∧ (∀ g, g ≠ h → s3.hart g = s.hart g) ∧
      s3.vu.inflight = [] ∧ s3.ice = s.ice ∧ s3.drf = s.drf ∧ s3.mortar = s.mortar ∧ s3.nbr = s.nbr ∧
      s3.hods = (s.noteVector h x.op e.sum).hods ∧ s3.ks = s.ks ∧ s3.err = s.err ∧ s3.boot = { s.boot with stage := s3.boot.stage }

/-- From every state whose tile data, Icefield cells, spare maps, local store, hod slots and statistic banks are
canonical and whose scoreboard accesses have numbers below the next one, every step that answers a next state
gives such a state, with the same configuration (R6), and with the queue without its front command. -/
def Obligations.EveryStepKeepsTheEngineWellFormed : Prop :=
  ∀ s t : State, step s = .next t → s.wf → s.idsFresh →
    t.wf ∧ t.idsFresh ∧ t.cfg = s.cfg ∧ t.pending = s.pending.tail

/-- State.reset has canonical memories, fresh scoreboard numbers and no waiting command. -/
def Obligations.ResetStateIsWellFormed : Prop :=
State.reset.wf ∧ State.reset.idsFresh ∧ State.reset.pending = []

/-- After reset the engine is at stage 1 and not ready, every hart is halted with its strides, load extent and
sticky fault registers at their reset values, every tile register has the extent 256 by 64 and is free, every
floe is unused, the scrub period is 2048, every channel is idle with BATCH 16, every window is closed with
generation 0, the hod indices are 0 and served by hart 0, MIN and MAX are cleared, and lane groups 0 to 15 are
active under their numbers with group 16 as the spare. That there are 16 groups and one spare is the
configuration C3-L that the model takes (log entry 1). -/
def Obligations.ResetGivesTheStatedValues : Prop :=
  State.reset.boot.stage = 1 ∧ State.reset.boot.ready = false ∧ State.reset.err.stat = .running ∧
    (∀ h : Hart, (State.reset.hart h).halted = true ∧ (State.reset.hart h).csr.rstr = 64 ∧
      (State.reset.hart h).csr.estr = 1 ∧ (State.reset.hart h).csr.ldVr = 256 ∧ (State.reset.hart h).csr.ldVc = 64 ∧
      (State.reset.hart h).csr.vflags = {} ∧ (State.reset.hart h).csr.vfV = false) ∧
    (∀ t : TileReg, (State.reset.tiles.get t).vr = 256 ∧ (State.reset.tiles.get t).vc = 64 ∧
      (State.reset.tiles.get t).lease = .free) ∧
    (∀ f : Fin 64, (State.reset.floe f).state = .unused) ∧ State.reset.ice.scrubPeriod = 2048 ∧
    (∀ c : Fin 32, (State.reset.chan c).batch = 16 ∧ (State.reset.chan c).state = 0) ∧ State.reset.drf.vers = 3 ∧
    State.reset.nbr.vers = 0xFF ∧ (∀ w : Fin 64, (State.reset.win w).isOpen = false ∧ (State.reset.win w).gen = 0) ∧
    (∀ d : Fin 3, (State.reset.hods.hod.get d).iprod = 0 ∧ (State.reset.hods.hod.get d).oprod = 0 ∧
      (State.reset.hods.hod.get d).serve = 1 ∧ (State.reset.hods.hod.get d).neg = 0) ∧
    State.reset.cal.min = 0xFFF ∧ State.reset.cal.max = 0 ∧
    (∀ g : Fin 16, (State.reset.err.lanes.get g.castSucc).state = .active ∧
      (State.reset.err.lanes.get g.castSucc).logical = BitVec.ofNat 4 g.val) ∧
    (State.reset.err.lanes.get 16).state = .spare

/-- WFI leaves the hart waiting unless an enabled event is pending or VFAULT is pending and enabled in mie; WFI_WAKE
ends the wait of a hart under the same condition and changes nothing otherwise. That WFI moves the pc and counts
as an instruction before the wait is the model's reading (log entry 132). -/
def Obligations.EventWaitAndItsEnd : Prop :=
  (∀ (h : Hart) (s : State), s.canAct (Hart.reader h) = true →
    exec (.wfi h) s = .next (s.modHart h fun t =>
      { t with pc := t.pc + 4, instret := t.instret + 1
               wait := if s.evpend h &&& t.csr.even ≠ 0 ∨ (t.csr.vfV = true ∧ t.trap.mieReg.getLsbD 16 = true) then .run
                       else .wfi }).pruneCycles) ∧
  (∀ (h : Hart) (s : State), s.powered = true → (s.hart h).wait = .wfi →
    exec (.wfiWake h) s =
      if s.evpend h &&& (s.hart h).csr.even ≠ 0 ∨
          ((s.hart h).csr.vfV = true ∧ (s.hart h).trap.mieReg.getLsbD 16 = true) then
        .next (s.modHart h fun t => { t with wait := .run }).pruneCycles
      else .next s)

/-- ECALL outside an extension call traps with mcause 8 or 11, the word 0 is an illegal instruction with mcause 2,
and a pending VFAULT enabled in mie is taken as interrupt 16 in machine mode when mstatus.MIE is set or the hart
is in user mode, at the command VFAULT (the model's choice, log entry 134). mepc, mtval, MPP, MPIE, MIE, the
mode and the pc are as the RISC-V architecture that R398 names says (the model's reading, log entry 4), and
registers, CSRs and other harts are unchanged. -/
def Obligations.TrapsAreTakenAsTheArchitectureSays : Prop :=
  (∀ (h : Hart) (s : State), s.canAct (Hart.reader h) = true → s.callOf h = none →
     ∃ t, exec (.ecall h) s = .next t ∧ (t.hart h).trap.mepc = (s.hart h).pc ∧
       (t.hart h).trap.mcause = (if (s.hart h).mode = .u then 8 else 11) ∧ (t.hart h).trap.mtval = 0 ∧
       (t.hart h).trap.mpp = (s.hart h).mode ∧ (t.hart h).trap.mpie = (s.hart h).trap.mie ∧
       (t.hart h).trap.mie = false ∧ (t.hart h).mode = .m ∧
       (t.hart h).pc = (s.hart h).trap.mtvec &&& 0xFFFFFFFC ∧ (t.hart h).x = (s.hart h).x ∧
       (t.hart h).csr = (s.hart h).csr ∧ (∀ g, g ≠ h → t.hart g = s.hart g) ∧
       t = { s with harts := t.harts, drf := { s.drf with watch := t.drf.watch } }) ∧
  (∀ (h : Hart) (met : Word) (s : State), s.canAct (Hart.reader h) = true → s.callOf h = none →
     exec (.rv32Instruction h (some 0) met) s = .next (s.modHart h fun t => t.takeTrap false 2 0).pruneCycles) ∧
  (∀ (h : Hart) (s : State), s.powered = true → (s.hart h).halted = false →
     ((s.hart h).wait = .run ∨ (s.hart h).wait = .wfi) → (s.hart h).csr.vfV = true →
     (s.hart h).trap.mieReg.getLsbD 16 = true → s.callOf h = none →
     exec (.vfault h) s = .next (State.pruneCycles
       (if (s.hart h).trap.mie = true ∨ (s.hart h).mode = .u then s.modHart h fun t => t.takeTrap true 16 0 else s)))

/-- RV32_INSTRUCTION with the words of ADDI, ADD and LUI gives rd its sum or constant, discards a write of x0, moves
the pc by 4, counts the instruction, and changes nothing else. The encodings are those of the RISC-V
architecture that R398 names (log entry 4). -/
def Obligations.IntegerInstructionsWriteTheirRegister : Prop :=
  ∀ (h : Hart) (rd rs1 rs2 : BitVec 5) (imm : BitVec 12) (up : BitVec 20) (met : Word)
    (s : State),
    s.canAct (Hart.reader h) = true →
    exec (.rv32Instruction h (some (imm ++ rs1 ++ (0 : BitVec 3) ++ rd ++ (0x13 : BitVec 7))) met) s =
      .next (s.modHart h fun t =>
        { t.setX rd (t.getX rs1 + imm.signExtend 32) with pc := t.pc + 4, instret := t.instret + 1 }).pruneCycles ∧
    exec (.rv32Instruction h (some ((0 : BitVec 7) ++ rs2 ++ rs1 ++ (0 : BitVec 3) ++ rd ++ (0x33 : BitVec 7))) met) s =
      .next (s.modHart h fun t =>
        { t.setX rd (t.getX rs1 + t.getX rs2) with pc := t.pc + 4, instret := t.instret + 1 }).pruneCycles ∧
    exec (.rv32Instruction h (some (up ++ rd ++ (0x37 : BitVec 7))) met) s =
      .next (s.modHart h fun t =>
        { t.setX rd (up ++ (0 : BitVec 12)) with pc := t.pc + 4, instret := t.instret + 1 }).pruneCycles

/-- A read of CE_KS_SUM (CSR 0xCC0) or CE_KS_SUMH (CSR 0xCC1), by its row or by the Zicsr instruction, and a read of
CE_KS_VFLAGS or CE_KS_MQUOTA, gives the register its value when every Xcalad instruction that the hart issued
has retired, and leaves the hart at the instruction otherwise (that the waiting read has no effect is log entry
136; the words of the Zicsr instructions are those of the architecture, log entry 4). -/
def Obligations.SummaryReadsWaitForRetirement : Prop :=
  (∀ (h : Hart) (high : Bool) (rd : BitVec 5) (s : State), s.canAct (Hart.reader h) = true →
     ((s.hart h).issued = (s.hart h).retired →
       exec (.summaryRead h high rd) s = .next (s.modHart h fun t =>
         { t.setX rd (if high then t.summary.extractLsb' 32 32 else t.summary.extractLsb' 0 32) with
           pc := t.pc + 4, instret := t.instret + 1 }) ∧
       exec (.vflagsRead h rd) s = .next (s.modHart h fun t =>
         { t.setX rd t.csr.vflags.toWord with pc := t.pc + 4, instret := t.instret + 1 }) ∧
       exec (.mquotaRead h rd) s = .next (s.modHart h fun t =>
         { t.setX rd t.csr.mquota with pc := t.pc + 4, instret := t.instret + 1 })) ∧
     ((s.hart h).issued ≠ (s.hart h).retired →
       exec (.summaryRead h high rd) s = .next s ∧ exec (.vflagsRead h rd) s = .next s ∧
       exec (.mquotaRead h rd) s = .next s)) ∧
  (∀ (h : Hart) (high : Bool) (rd : BitVec 5) (met : Word) (s : State), s.canAct (Hart.reader h) = true →
     let w : Word := (if high then (0xCC1 : BitVec 12) else 0xCC0) ++ (0 : BitVec 5) ++ (2 : BitVec 3) ++ rd ++ (0x73 : BitVec 7)
     ((s.hart h).issued = (s.hart h).retired →
       exec (.rv32Instruction h (some w) met) s = .next (s.modHart h fun t =>
         { t.setX rd (if high then t.summary.extractLsb' 32 32 else t.summary.extractLsb' 0 32) with
           pc := t.pc + 4, instret := t.instret + 1 }).pruneCycles) ∧
     ((s.hart h).issued ≠ (s.hart h).retired → exec (.rv32Instruction h (some w) met) s = .next s.pruneCycles))

/-- An aligned word load of the local store that the PMP allows gives rd the stored word; a store writes exactly its
word; a load from the Icefield window presents a read of its word and the hart waits with its registers
unchanged. -/
def Obligations.ScalarAccessesReachTheirMemory : Prop :=
  (∀ (h : Hart) (rd : BitVec 5) (addr val d : Word) (s : State), s.canAct (Hart.reader h) = true →
     s.storeCanonical → addr.toNat % 4 = 0 → addr.toNat < 0x80000 →
     ((s.hart h).mayData addr.toNat 4 0 = true → sget 0 s.ks.store (addr.toNat / 4) = encodeClean d →
       exec (.scalarLoad h .lw rd addr) s = .next (s.modHart h fun t =>
         { t.setX rd d with pc := t.pc + 4, instret := t.instret + 1 }).pruneCycles) ∧
     ((s.hart h).mayData addr.toNat 4 1 = true →
       ∃ t, exec (.scalarStore h .sw addr val) s = .next t ∧
         (∀ i, sget 0 t.ks.store i = if i = addr.toNat / 4 then encodeClean val else sget 0 s.ks.store i) ∧
         (t.hart h).pc = (s.hart h).pc + 4 ∧ (t.hart h).x = (s.hart h).x ∧ t.ice = s.ice ∧ t.tiles = s.tiles)) ∧
  (∀ (h : Hart) (rd : BitVec 5) (addr : Word) (s : State), s.canAct (Hart.reader h) = true →
     addr.toNat % 4 = 0 → addr.extractLsb' 28 4 = 1 → (s.hart h).mayData addr.toNat 4 0 = true →
     (s.hart h).vqueue = [] →
     ∃ t, exec (.scalarLoad h .lw rd addr) s = .next t ∧
       t.ice.sb.waiting = s.ice.sb.waiting ++
         [{ id := s.ice.sb.nextId, who := .scalar h
            ranges := [{ lo := (addr.extractLsb' 2 26).toNat, hi := (addr.extractLsb' 2 26).toNat, write := false }] }] ∧
       (t.hart h).wait = .load .lw rd addr s.ice.sb.nextId 4 ∧ (t.hart h).pc = (s.hart h).pc ∧
       (t.hart h).x = (s.hart h).x)

/-- Of the readers that write the command register in one step one is taken, and the others get the outcome
PREEMPTED. FLOE_COMMIT that fails a check only writes the outcome code to the reader's view. One that passes is
held with the outcome PENDING and no entry, segment or word changed; when its access is ready,
FLOE_COMMIT_EFFECT replaces the named entry and no other. FLOE_READ copies the entry to the reader's stage. -/
def Obligations.FloeTableCommandsActAndAnswer : Prop :=
  (∀ (r : Reader) (f : Fin 64) (others : List Reader) (s : State), s.canAct r = true → s.privileged r = true →
     (s.takes r others = false →
       exec (.floeCommit r f others) s = .next { s with ice := { s.ice with fstat := vset s.ice.fstat r 8 } } ∧
       exec (.floeRead r f others) s = .next { s with ice := { s.ice with fstat := vset s.ice.fstat r 8 } }) ∧
     (∀ code, s.takes r others = true →
       s.commitCheck f (floeReserved (s.ice.fstage.get r)) (FloeEntry.ofWords (s.ice.fstage.get r)) = some code →
       ∃ t, exec (.floeCommit r f others) s = .next t ∧ t.ice.fstat.get r = code ∧
         (∀ q, q ≠ r → t.ice.fstat.get q = if q ∈ s.losers r others then 8 else s.ice.fstat.get q) ∧
         t = { s with ice := { s.ice with fstat := t.ice.fstat } })) ∧
  (∀ (r : Reader) (f : Fin 64) (others : List Reader) (s : State), s.canAct r = true → s.privileged r = true →
    s.takes r others = true →
    s.commitCheck f (floeReserved (s.ice.fstage.get r)) (FloeEntry.ofWords (s.ice.fstage.get r)) = none →
    ∃ t, exec (.floeCommit r f others) s = .next t ∧
      t.ice.commit.map (fun c => (c.floe, c.entry, c.who)) = some (f, FloeEntry.ofWords (s.ice.fstage.get r), r) ∧
      t.ice.fstat.get r = 9 ∧ t.ice.floes = s.ice.floes ∧ t.ice.segs = s.ice.segs ∧ t.ice.cells = s.ice.cells ∧
      t.harts = s.harts ∧ t.tiles = s.tiles) ∧
  (∀ (c : Commit) (id : Nat) (s : State), s.powered = true → s.ice.commit = some c → c.sb = some id →
    s.ice.sb.ready id = true →
    ∃ t, exec .floeCommitEffect s = .next t ∧ t.floe c.floe = c.entry ∧ (∀ g, g ≠ c.floe → t.floe g = s.floe g) ∧
      t.ice.cells = s.ice.cells ∧ t.tiles = s.tiles ∧ t.harts = s.harts) ∧
  (∀ (r : Reader) (f : Fin 64) (others : List Reader) (s : State), s.canAct r = true → s.privileged r = true →
     s.takes r others = true →
     ∃ t, exec (.floeRead r f others) s = .next t ∧ t.ice.fstage.get r = (s.floe f).toWords ∧ t.ice.fstat.get r = 0 ∧
       (∀ q, q ≠ r → t.ice.fstage.get q = s.ice.fstage.get q ∧
         t.ice.fstat.get q = if q ∈ s.losers r others then 8 else s.ice.fstat.get q) ∧
       t.ice.floes = s.ice.floes ∧ t.ice.cells = s.ice.cells ∧ t.harts = s.harts ∧ t.tiles = s.tiles)

/-- SEGMENT_MELT makes the cells of its segment zero and leaves every other cell as it was (R291 says that the
contents are lost; that they read zero is the model's reading, log entry 49). A revival ramps up to eight
segments and tests the first of them: a row that fails takes the first free spare row of its bank, and without
one the segment is melted again and the revival goes on with the next or, after the last, ends with its commit
retiring. The end of the fill gives the segment zero words and its state while the other segments and cells
stay; after the last segment the revival ends and its commit retires. -/
def Obligations.SegmentsMeltAndRevive : Prop :=
  (∀ (g : Fin 64) (s : State), s.powered = true → s.fieldCanonical → g ∈ s.ice.meltQ →
     ∃ t, exec (.segmentMelt g) s = .next t ∧
       (∀ cell, sget 0 t.ice.cells cell = if s.cellInSeg g cell then 0 else sget 0 s.ice.cells cell) ∧
       t.ice.floes = s.ice.floes ∧ t.ice.segs = s.ice.segs ∧ t.harts = s.harts ∧ t.tiles = s.tiles) ∧
  (∀ (r : Revival) (g : Fin 64) (rest : List (Fin 64)) (s : State), s.powered = true → s.fieldCanonical →
     s.ice.revival = some r → r.segs = g :: rest →
     (∃ t, exec .revivalRampEnd s = .next t ∧ t.ice.cells = s.ice.cells ∧
       t.ice.revival = some { r with ramped := min (rest.length + 1) (r.ramped + 8) }) ∧
     (r.ramped ≠ 0 → r.tested = false →
       (∃ t, exec (.segmentSelftestEnd [] []) s = .next t ∧ t.ice.revival = some { r with tested := true } ∧
         t.ice.segs = s.ice.segs) ∧
       (∀ bank row : Nat, segOfLevel s.cfg (16 * row) = g →
         (∀ n, s.freeSpare bank = some n →
           ∃ t, exec (.segmentSelftestEnd [(bank, row)] []) s = .next t ∧
             t.spare bank n = { row := BitVec.ofNat 10 row, used := true, bad := false } ∧
             t.ice.revival = some { r with tested := true } ∧ t.ice.segs = s.ice.segs ∧ t.ice.cells = s.ice.cells) ∧
         (s.freeSpare bank = none →
           ∃ t, exec (.segmentSelftestEnd [(bank, row)] []) s = .next t ∧ t.ice.segs = vset s.ice.segs g .melted ∧
             t.ice.spares = s.ice.spares ∧ t.ice.cells = s.ice.cells ∧
             (rest ≠ [] → t.ice.revival = some { r with segs := rest, ramped := r.ramped - 1, tested := false } ∧
               t.ice.commit = s.ice.commit.map fun c => { c with revived := false }) ∧
             (rest = [] → ∀ c, s.ice.commit = some c → commitRetires { c with revived := false } s t)))) ∧
     (r.tested = true →
       ∃ t, exec .segmentFillEnd s = .next t ∧ t.ice.segs.get g = r.target ∧
         (∀ k, k ≠ g → t.ice.segs.get k = s.ice.segs.get k) ∧
         (∀ cell, sget 0 t.ice.cells cell = if s.cellInSeg g cell then 0 else sget 0 s.ice.cells cell) ∧
         (rest ≠ [] → t.ice.revival.map (·.segs) = some rest ∧ t.ice.commit = s.ice.commit) ∧
         (rest = [] → ∀ c, s.ice.commit = some c → commitRetires c s t)))

/-- SCRUB_VISIT over clean or slush words only moves the scrub position; CORRECTED_WRITEBACK writes the oldest
corrected word to its cell alone; FIELD_SPARING with its lock allocated maps the row to the first free spare row
and frees the lock. -/
def Obligations.MaintenanceKeepsTheWords : Prop :=
  (∀ (q : Nat) (s : State), s.powered = true →
    (s.ice.scrubInForce = 0 → s.ice.scrubPeriod = 0 → exec .scrubVisit s = .next s) ∧
    (s.ice.scrubInForce ≠ 0 ∨ s.ice.scrubPeriod ≠ 0 → s.scrubNext = some q →
      (∀ b, b < Config.banks s.cfg → classify (s.codewordAt b q) = .clean ∨ classify (s.codewordAt b q) = .slush) →
      ∃ t, exec .scrubVisit s = .next t ∧
        t.ice = { s.ice with scrubLevel := (q + 1) % Config.levels s.cfg, scrubInForce := s.ice.scrubPeriod } ∧
        t.harts = s.harts ∧ t.tiles = s.tiles ∧ t.err = s.err)) ∧
  (∀ (cell : Nat) (c : BitVec 44) (l : List (Nat × BitVec 44)) (s : State), s.powered = true → s.fieldCanonical →
    s.ice.writebacks = (cell, c) :: l →
    ∃ t, exec .correctedWriteback s = .next t ∧
      (∀ k, sget 0 t.ice.cells k = if k = cell then c else sget 0 s.ice.cells k) ∧
      t.ice.floes = s.ice.floes ∧ t.harts = s.harts ∧ t.tiles = s.tiles ∧ t.err = s.err) ∧
  (∀ (bank row n : Nat) (q : List (Nat × Nat)) (a : Access) (s : State), s.powered = true →
     s.ice.sparing = (bank, row) :: q → s.lockOf bank row = some a → s.freeSpare bank = some n →
     ∃ t, exec .fieldSparing s = .next t ∧
       t.spare bank n = { row := BitVec.ofNat 10 row, used := true, bad := false } ∧
       (∀ b ∈ t.ice.sb.alloc, b.id ≠ a.id) ∧ t.ice.floes = s.ice.floes ∧ t.ice.segs = s.ice.segs ∧
       t.tiles = s.tiles)

/-- SB_ALLOCATE puts the accesses that one step presented in the order of R297 and allocates exactly the first ready
waiting access that is no vector instruction's (R136: those are allocated at their acceptance) and departures by
port (log entry 138): of a course, an arrival, a departure, a sparing, a hart's scalar access, a drift or a
commit, which then replaces its entry. ACCESS_RETIRE of a hart's allocated window load gives rd the clean word,
moves the hart on, frees the access and leaves Icefield and tiles as they were. -/
def Obligations.ScoreboardAllocatesAndRetires : Prop :=
  (∀ (a : Access) (n : Nat) (s : State), s.powered = true → (s.orderTogether n).nextAccess = some a →
    (a.who = .mortar ∨ (∃ p, a.who = .arrival p) ∨ (∃ p, a.who = .departure p) ∨ (∃ b q, a.who = .sparing b q)) →
    ∃ t, exec (.sbAllocate n) s = .next t ∧ t = { s with ice := { s.ice with sb := t.ice.sb } } ∧
      t.ice.sb.alloc = s.ice.sb.alloc ++ (s.orderTogether n).ice.sb.waiting.filter (fun b => b.id == a.id) ∧
      t.ice.sb.waiting = (s.orderTogether n).ice.sb.waiting.filter (fun b => b.id != a.id)) ∧
  (∀ (a : Access) (n : Nat) (s : State), s.powered = true → (s.orderTogether n).nextAccess = some a →
    (∀ h, a.who = .scalar h → ∃ t, exec (.sbAllocate n) s = .next t ∧
      t.ice.sb.alloc = s.ice.sb.alloc ++ (s.orderTogether n).ice.sb.waiting.filter (fun b => b.id == a.id) ∧
      t.ice.sb.waiting = (s.orderTogether n).ice.sb.waiting.filter (fun b => b.id != a.id) ∧
      t = { s with ice := { s.ice with sb := t.ice.sb, morLines := t.ice.morLines } }) ∧
    (∀ c, a.who = .drift c → ∃ t, exec (.sbAllocate n) s = .next t ∧ (∀ x ∈ t.ice.sb.waiting, x.id ≠ a.id) ∧
      t.tiles = s.tiles ∧ t.mortar = s.mortar ∧ t.nbr = s.nbr ∧
      ((s.chan c).set = none →
        t.ice.sb.alloc = s.ice.sb.alloc ++ (s.orderTogether n).ice.sb.waiting.filter (fun b => b.id == a.id) ∧
        t = { s with drf := { s.drf with watch := t.drf.watch }, ice := { s.ice with sb := t.ice.sb } })) ∧
    (∀ c, a.who = .commit → s.ice.commit = some c → c.sb = some a.id → ∃ t, exec (.sbAllocate n) s = .next t ∧
      t.ice.floes = vset s.ice.floes c.floe c.entry ∧ t.ice.cells = s.ice.cells ∧ t.harts = s.harts ∧
      t.tiles = s.tiles)) ∧
  (∀ (a : Access) (h : Hart) (rd : BitVec 5) (addr d : Word) (f : Fin 64) (p : Nat) (hash : Bool) (s : State),
    s.powered = true → s.ice.sb.alloc.find? (fun b => b.id == a.id) = some a → a.who = .scalar h →
    s.morDone a.id = true → s.firnFor a.id = none → (s.hart h).dlock = none →
    s.imageOf a.id = none → (s.hart h).wait = .load .lw rd addr a.id 4 → addr.toNat % 4 = 0 →
    s.floeOf (windowWord addr) = some f → s.place f (windowWord addr) = some (.phys p hash) → s.segAt p ≠ .melted → s.segAt p ≠ .reviving →
    s.codewordAt (bankOf s.cfg hash p) (p / Config.banks s.cfg) = encodeClean d →
    ∃ t, exec (.accessRetire a.id) s = .next t ∧ t.hart h = { (s.hart h).setX rd d with
        wait := .run, pc := (s.hart h).pc + 4, instret := (s.hart h).instret + 1 } ∧
      (∀ b ∈ t.ice.sb.alloc, b.id ≠ a.id) ∧ t.ice.cells = s.ice.cells ∧ t.tiles = s.tiles)

/-- COURSE_START on a free pending slot takes the course; when one is pending and none runs or waits the course
waits its turn; with one running and one pending, or at an address that no course block has, it is refused with
its outcome; COURSE_STOP by the starting hart or machine mode marks the running course, which ends with the
status 7 if it had just finished, and is refused to others; COURSE_DROP takes the pending course away, to have
its SUMMARY and STATUS written. -/
def Obligations.CourseCommandsChangeTheSequencer : Prop :=
  (∀ (r : Reader) (addr : Word) (s : State), s.canAct r = true → addr.toNat % 16 = 0 → s.mortar.pend = none →
    exec (.courseStart r addr) s =
      .next { s with mortar := { s.mortar with pend := some (addr, r), last := vset s.mortar.last r 0 } }) ∧
  (∀ (r : Reader) (addr : Word) (q : Word × Reader) (s : State), s.canAct r = true →
    addr.toNat % 16 = 0 → s.mortar.pend = some q →
    exec (.courseStart r addr) s =
      if s.mortar.run = none ∧ s.mortar.waiting = none then
        .next { s with mortar := { s.mortar with waiting := some (addr, r), last := vset s.mortar.last r 0 } }
      else .next { s with mortar := { s.mortar with last := vset s.mortar.last r 1 } }) ∧
  (∀ (r : Reader) (addr : Word) (s : State), s.canAct r = true → addr.toNat % 16 ≠ 0 →
    exec (.courseStart r addr) s = .next { s with mortar := { s.mortar with last := vset s.mortar.last r 2 } }) ∧
  (∀ (r : Reader) (c : CourseRun) (s : State), s.canAct r = true → s.mortar.run = some c →
    exec (.courseStop r) s =
      if s.privileged r = true ∨ c.who = r then .next { s with mortar := { s.mortar with
        run := some { c with stopping := true, status := if c.finished && c.status == 1 then 7 else c.status }
        last := vset s.mortar.last r 0 } }
      else .next { s with mortar := { s.mortar with last := vset s.mortar.last r 2 } }) ∧
  (∀ (r : Reader) (c : Word × Reader) (s : State), s.canAct r = true → s.mortar.pend = some c →
    s.mortar.waiting = none → (s.privileged r = true ∨ c.2 = r) →
    exec (.courseDrop r) s = .next { s with mortar := { s.mortar with
      pend := none, dropped := s.mortar.dropped ++ [c], last := vset s.mortar.last r 0 } })

/-- COURSE_BEGIN, when the blocks that it reads are at hand, makes the pending course the running one with four
credits; it is either checked, or finished with the status of the first failing check, and harts, tiles and
Icefield are unchanged. The operand formats come with the command (log entry 30). -/
def Obligations.CourseStartsWithItsChecks : Prop :=
  ∀ (addr : Word) (who : Reader) (b p : Store (BitVec 33)) (a0 a1 a2 a3 : OpForm) (s : State),
    s.powered = true → s.err.stat = .running → s.mortar.run = none → s.mortar.pend = some (addr, who) →
    (∀ o < 16, s.wordBad (floePart addr) (wordPart addr + o) = none) →
    s.mortar.block keyCourse = some b → (s.mortar.block keyStatus).isSome = true → s.mortar.block keyParam = some p →
    ∃ t, exec (.courseBegin a0 a1 a2 a3) s = .next t ∧ t.mortar.pend = s.mortar.waiting ∧ t.mortar.waiting = none ∧
      t.harts = s.harts ∧ t.tiles = s.tiles ∧ t.ice = s.ice ∧
      let d := courseOf (fun o => contData (sget 0 b o)) (fun o => contData (sget 0 p o))
      ∃ r, t.mortar.run = some r ∧ r.addr = addr ∧ r.who = who ∧ r.d = d ∧ r.credits = 4 ∧
        match s.courseCheck who d #v[a0, a1, a2, a3] (contData (sget 0 b 10)) with
        | none => r.checked = true ∧ r.finished = false
        | some c => r.checked = false ∧ r.finished = true ∧ r.status = c

/-- COURSE_COMPLETE of a finished course whose SUMMARY and STATUS are written clears the eight working registers,
adds its flags and sets COURSE at the starting hart, with registers and pc unchanged. PEER_TIMEOUT ends a B15
course that lacks records with status 8. -/
def Obligations.CoursesEndWithStatusAndEvent : Prop :=
  (∀ (c : CourseRun) (h : Hart) (s1 s : State), s.powered = true → s.mortar.dropped = [] → s.mortar.run = some c →
     c.finished = true → c.checked = true → c.who = Hart.reader h →
     (s.mortarSettled = false → exec .courseComplete s = .next s) ∧
     (s.mortarDone (doneWords c.addr c.sum.toWord c.status) = (s1, true) →
     ∃ t, exec .courseComplete s = .next t ∧ t.mortar.run = none ∧
       (∀ i < 8, (t.tiles.get (regAt c.d.wreg.toFin i)).data = [] ∧ (t.tiles.get (regAt c.d.wreg.toFin i)).vr = 256 ∧
         (t.tiles.get (regAt c.d.wreg.toFin i)).vc = 64) ∧
       (t.hart h).csr.evpend.getLsbD 1 = true ∧ (t.hart h).csr.vflags = (s1.hart h).csr.vflags.or c.flags ∧
       (t.hart h).x = (s1.hart h).x ∧ (t.hart h).pc = (s1.hart h).pc)) ∧
  (∀ (r : CourseRun) (s : State), s.powered = true → s.mortar.run = some r → r.d.bn = 15 → r.checked = true →
     r.finished = false → (s.win r.d.ringWin).arr.toNat < (r.d.ring - 1) * r.d.m →
     exec .peerTimeout s = .next { s with
       time := max s.time (r.since + 1000 * (r.d.par 1).toNat)
       mortar := { s.mortar with run := some { r with finished := true, out := [], status := 8 } } })

/-- OPERAND_TRANSFER sends the next tile of the plan with its tag and takes one operand credit; RESULT_TRANSFER with
the tag of an owed tile lands it, takes a landing credit and takes the tile off the owed ones (only while a
landing credit is out, log entry 169), and one whose tag fails the check, whose fields are log entry 159's, is
the fault 8 of the sequencer with the tag as its place; OPERAND_CREDIT returns one credit. -/
def Obligations.TransfersUseTheirCredits : Prop :=
  (∀ (r : CourseRun) (c : Cursor) (t : Send) (o : OpTile) (s1 s : State), s.powered = true → s.mortar.run = some r →
    c = r.d.nextSend (r.d.cols 1 + r.d.cols 2 + 4) r.send → r.checked = true → r.finished = false →
    r.stopping = false → r.lost = false → r.d.over c = false → r.fault = none → s.mortar.opCredits ≠ 0 →
    r.d.sendAt c.band c.sweep c.j c.ph = some t → t.kind ≠ 4 → s.operandTile { r with send := c } t = (s1, some o) →
    (r.prologue t = true → s1.mayAccept = true) →
    ∃ u, exec .operandTransfer s = .next u ∧ u.mortar.opCredits = s1.mortar.opCredits - 1 ∧
      u.mortar.sent = some (opTag r.slot o, o) ∧ u.tiles = s1.tiles ∧ u.harts = s1.harts) ∧
  (∀ (r : CourseRun) (tag : DWord) (payload : List Word) (slush : List Nat) (s : State), s.powered = true →
    s.mortar.run = some r → r.credits ≠ 0 → tag.extractLsb' 0 2 = (if r.slot then 1 else 0) →
    tag.extractLsb' 5 4 = (if r.intResult (tag.extractLsb' 2 3) then 6 else 0) → tag.getLsbD 63 = false →
    (tag.extractLsb' 2 3, (tag.extractLsb' 23 12).toNat, (tag.extractLsb' 35 14).toNat) ∈ r.owed →
    ∃ u r', exec (.resultTransfer tag payload slush) s = .next u ∧ u.mortar.run = some r' ∧
      r'.credits = r.credits - 1 ∧ r'.landed.length = r.landed.length + 1 ∧
      r'.owed = r.owed.erase (tag.extractLsb' 2 3, (tag.extractLsb' 23 12).toNat, (tag.extractLsb' 35 14).toNat) ∧
      u.tiles = s.tiles ∧ u.ice = s.ice ∧ u.harts = s.harts) ∧
  (∀ (tag : DWord) (payload : List Word) (slush : List Nat) (s : State), s.powered = true → s.err.stat = .running →
    8 ≤ s.boot.stage.toNat → (∀ r, s.mortar.run = some r → r.tagOk tag = false) →
    ∃ u, exec (.resultTransfer tag payload slush) s = .next u ∧ u.err.stat = .recovering ∧
      u.err.recovery.map (fun r => (r.code, r.src, r.loc, r.loc2)) =
        some (8, 3, tag.extractLsb' 0 32, tag.extractLsb' 32 32) ∧
      u.tiles = s.tiles ∧ u.ice.cells = s.ice.cells) ∧
  (∀ s : State, s.powered = true →
    exec .operandCredit s = .next { s with mortar := { s.mortar with
      opCredits := if s.mortar.opCredits = 255 then 255 else s.mortar.opCredits + 1 } })

/-- For B00 to B14: when the vector unit is free, the residue check passes and the landed tiles and blocks that the
next piece needs are at hand, the bond's command leaves the course with the place, row statistics, accumulator,
column statistics, outputs made, summary, flags, landed tiles and credits that the piece of work and its advance
give, and the vector unit has been occupied for the steps of the piece. How the work is cut into pieces and how
many steps a piece takes is the model's choice (log entry 44); the values of each piece are those of the model's
terms for the rules, CourseRun.work and CourseRun.advance. -/
def Obligations.BondStepDoesTheNextPieceOfWork : Prop :=
  ∀ (check : Option LaneCheck) (n : Nat) (c : Instr) (r : CourseRun) (s : State),
    (n, c) ∈ [(0, Instr.b00Stack check), (1, .b01Running check), (2, .b02Header check), (3, .b03Stretcher check),
      (4, .b04Soldier check), (5, .b05Flemish check), (6, .b06English check), (7, .b07Dutch check), (8, .b08Monk check),
      (9, .b09Sailor check), (10, .b10Rowlock check), (11, .b11Garden check), (12, .b12Basket check),
      (13, .b13Quoin check), (14, .b14Coping check)] →
    s.mayAccept = true → s.mortar.run = some r → r.d.bn = n → r.checked = true → r.finished = false → r.replay = false →
    r.out = [] → r.cut = false → (r.kept = [] ∨ r.d.ends r.at' = false) → s.workingBusy = false → r.ready = true → (n = 3 ∨ n = 4 → r.landed ≠ []) →
    (∀ q ∈ r.auxOf, (s.mortar.block q.1).isSome = true) → s.bondFails check = none →
    let w := r.work fun key o => sget 0 ((s.mortar.block key).getD []) o
    let r1 := w.advance
    let o := s.bondSteps (r.steps w)
    ∃ t r2, exec c s = .next t ∧ t.mortar.run = some r2 ∧ r2.at' = r1.at' ∧ r2.rows = r1.rows ∧ r2.acc = r1.acc ∧
      r2.stat = r1.stat ∧ r2.made = r1.made ∧ r2.kept = r1.kept ∧ (r1.out = [] → r2.sum = r1.sum) ∧ r2.flags = r1.flags ∧
      r2.landed = r1.landed ∧ r2.credits = r1.credits ∧ t.cycle = (if o = 0 then s.cycle else s.nextFree + o - 1)

/-- An element of a B00 course without scale, bias, residual and further stages is the FP32 or INT32 result element
converted to the output format under SAT, marked when the result element is, with the conversion's flags. An
element of B00, B01 or B02 with stages is scaled by its row's scale or by τ, gets its bias, goes through the
activation and is converted. In the backward bond the probability of a score is NaN, zero, one or exp(x - LSE)
as R262's cases say, and in a row whose LSE source holds k it is 1/k where the score is +infinity and zero
elsewhere (that k comes from the LSE source is the model's choice, log entry 161). -/
def Obligations.StackConvertsEachElement : Prop :=
  (∀ (r : CourseRun) (aux : Aux) (l : Landed) (p : Nat), r.d.bn = 0 → r.d.staged = false → l.int = false →
    r.outElem aux l p =
      let v := convert .fp32 r.d.fo r.d.sat ((contData (sget 0 l.elems p)).setWidth 64)
      (EWrite.of p v (contMark (sget 0 l.elems p)), ({} : FpFlags).or v.flags)) ∧
  (∀ (r : CourseRun) (aux : Aux) (l : Landed) (p : Nat), r.d.bn = 0 → r.d.staged = false → l.int = true →
    r.outElem aux l p =
      let v := convert .int32 r.d.fo r.d.sat ((contData (sget 0 l.elems p)).setWidth 64)
      (EWrite.of p v (contMark (sget 0 l.elems p)), v.flags)) ∧
  (∀ (r : CourseRun) (aux : Aux) (l : Landed) (p : Nat), r.d.bn < 3 →
    (r.d.scv = true ∨ r.d.bias = true ∨ r.d.tau ≠ 0x3F800000 ∨ (r.d.par 0).extractLsb' 0 3 ≠ 0) →
    r.outElem aux l p =
      let g := 64 * r.at'.j + p % 64
      let x := if r.d.scv = true then (l.fp p).op .mul r.d.s (FW.ofCont (aux 0 g))
        else if r.d.bias = true ∨ r.d.tau ≠ 0x3F800000 then (l.fp p).op .mul r.d.s (FW.const r.d.tau) else l.fp p
      let y := if r.d.bias = true then x.op .add r.d.s (FW.ofCont (aux 1 g)) else x
      let z := activate r.d.s ((r.d.par 0).extractLsb' 0 3).toNat y
      (EWrite.of p (z.to r.d.fo r.d.sat) z.mark, (z.to r.d.fo r.d.sat).flags)) ∧
  (∀ (strict : Bool) (lse x : FW) (n : Nat),
    (lse.val.isNan = true → (dutchP strict lse x none).w = nanF.w) ∧
    (lse.val = .inf true → (dutchP strict lse x none).w = 0) ∧
    (lse.val = .inf false → x.val = .inf false → (dutchP strict lse x none).w = oneF.w) ∧
    (lse.val.isNan = false → lse.val ≠ .inf true → lse.val ≠ .inf false → x.val = .inf true →
      (dutchP strict lse x none).w = 0) ∧
    (lse.val.isNan = false → lse.val ≠ .inf true → lse.val ≠ .inf false → x.val ≠ .inf true →
      dutchP strict lse x none = (x.op .sub strict lse).sfu .exp strict) ∧
    (lse.val.isNan = false → lse.val ≠ .inf true → lse.val ≠ .inf false →
      (x.val = .inf false → (dutchP strict lse x (some n)).w = oneOver n) ∧
      (x.val ≠ .inf false → x.val.isNan = false → (dutchP strict lse x (some n)).w = 0)))

/-- B03 and B04 send the next operand tile as OPERAND_TRANSFER does, with the residue check of their step, when
their prologue applies to it. B15 copies its own block beside the others, a tile at a time, then hands the next
block to its port with the block's place and length, and, when every record has arrived, combines the records of
the next row band. Its own block's place, that it is copied first and the order of forwarding are the model's
reading (log entry 66). -/
def Obligations.ProloguesAndRingHeads : Prop :=
  (∀ (check : Option LaneCheck) (r : CourseRun) (s : State), s.powered = true → s.mortar.run = some r →
    (r.d.bn ≠ 3 ∨ r.out = [] ∧ r.landed = [] → s.nextPrologue false = true →
      exec (.b03Stretcher check) s = .next (s.operandTransfer check) ∧
        (s.bondFails check = none → exec (.b03Stretcher check) s = exec .operandTransfer s)) ∧
    (r.d.bn ≠ 4 ∨ r.out = [] ∧ r.landed = [] → s.nextPrologue true = true →
      exec (.b04Soldier check) s = .next (s.operandTransfer check) ∧
        (s.bondFails check = none → exec (.b04Soldier check) s = exec .operandTransfer s))) ∧
  (∀ (check : Option LaneCheck) (r : CourseRun) (s : State), s.mayAccept = true → s.mortar.run = some r → r.d.bn = 15 →
    r.checked = true → r.finished = false → r.out = [] → r.stopping = false → r.cut = false → r.replay = false →
    (r.own < tilesOf r.d.m → ∀ (s1 s2 : State) (r2 : CourseRun) (m : Store (BitVec 33)),
      let os := offs (1024 * r.own) (16 * extentOf r.d.m r.own)
      let home := r.d.par 2 + BitVec.ofNat 32 (16 * r.d.m * r.d.rank)
      s.mortarRead keyIndex {} r.d.out os = (s1, some m) →
      s1.mortarWrite keyOut {} { floe := floePart home, ws := os.map fun i => (wordPart home + i, sget 0 m i, 0xF) } =
        (s2, true) → s2.mortar.run = some r2 →
      ∃ t : State, exec (.b15Lintel check) s = .next t ∧ t.mortar.run = some { r2 with own := r2.own + 1 } ∧
        t.ice = s2.ice ∧ t.harts = s2.harts ∧ t.tiles = s2.tiles) ∧
    (tilesOf r.d.m ≤ r.own → r.hops + 1 < r.d.ring → r.hops * r.d.m ≤ (s.win r.d.ringWin).arr.toNat →
      (s.port r.d.ringPort).state = .up → (s.port r.d.ringPort).sends.length < 16 →
      let k := (r.d.rank + r.d.ring - r.hops % r.d.ring) % r.d.ring
      ∃ (t : State) (d : SendDesc), exec (.b15Lintel check) s = .next t ∧
        (t.port r.d.ringPort).sends = (s.port r.d.ringPort).sends ++ [d] ∧ d.bond = true ∧ d.nlines = r.d.m ∧
        d.src = r.d.par 2 + BitVec.ofNat 32 (16 * r.d.m * k) ∧ d.dline = k * r.d.m ∧
        t.mortar.run = some { r with hops := r.hops + 1 } ∧ (∀ p, p ≠ r.d.ringPort → t.port p = s.port p) ∧
        t.ice = s.ice ∧ t.harts = s.harts ∧ t.tiles = s.tiles) ∧
    (tilesOf r.d.m ≤ r.own → r.d.ring ≤ r.hops + 1 → (r.d.ring - 1) * r.d.m ≤ (s.win r.d.ringWin).arr.toNat →
      (∀ q ∈ r.ringAux, (s.mortar.block q.1).isSome = true) → s.workingBusy = false → s.bondFails check = none →
      let r1 := r.lintel fun key o => sget 0 ((s.mortar.block key).getD []) o
      ∃ (t : State) (r2 : CourseRun), exec (.b15Lintel check) s = .next t ∧ t.mortar.run = some r2 ∧ r2.at' = r1.at' ∧
        r2.made = r1.made ∧ (r1.out = [] → r2.sum = r1.sum) ∧ r2.flags = r1.flags ∧ r2.hops = r.hops ∧ t.cycle = s.nextFree))

/-- CE_DRF_GO by a writer that may use the channel starts the chain with the list, source, bases and BATCH of the
moment and the writer as its starter, and clears the status of the last chain; a running or halted channel
answers BUSY, one that the configuration lacks NOTARMED (4) and another's NOTOWNER (5). Of writes of one step by
several readers each acts, in the order of R354. The low bits of the list's address are dropped (R320 only says
that it is aligned; log entry 70). -/
def Obligations.GoStartsAChain : Prop :=
  (∀ (r : Reader) (ch : BitVec 5) (met : List (Reader × Bool)) (s : State), s.canAct r = true → alone r met s →
    (Config.driftCh s.cfg ≤ ch.toNat → exec (.drfGo r ch met) s = .next (s.setRstat r 4).pruneCycles) ∧
    (ch.toNat < Config.driftCh s.cfg → s.ownsCh r ch.toFin = false →
      exec (.drfGo r ch met) s = .next (s.setRstat r 5).pruneCycles)) ∧
  (∀ (q r : Reader) (ch : BitVec 5) (s : State), s.powered = true → Reader.before q r = true → q ≠ r →
    exec (.drfGo r ch [(q, false)]) s = .next ((s.drfGo q ch).drfGo r ch).pruneCycles ∧
    exec (.drfGo q ch [(r, false)]) s = .next ((s.drfGo q ch).drfGo r ch).pruneCycles) ∧
  (∀ (r : Reader) (ch : BitVec 5) (met : List (Reader × Bool)) (s : State), s.canAct r = true → alone r met s →
    ch.toNat < Config.driftCh s.cfg → s.ownsCh r ch.toFin = true →
    ((s.chan ch.toFin).state ≠ 1 → (s.chan ch.toFin).state ≠ 5 →
      ∃ t, exec (.drfGo r ch met) s = .next t ∧
        t.chan ch.toFin = { s.chan ch.toFin with
          state := 1, hcause := 0, posDesc := 0, posRow := 0, marksRd := 0, marksWr := 0, idxbad := 0
          bases := s.basesOf r, shadow := none, starter := some r, fetchN := some (s.chan ch.toFin).batchLen
          fetchSb := (t.chan ch.toFin).fetchSb, fetchFail := none, listIce := (s.drf.regs.get r).lsrc
          listAddr := (if (s.drf.regs.get r).lsrc then (s.drf.regs.get r).list.toNat / 16 * 16
            else ((s.drf.regs.get r).listh ++ (s.drf.regs.get r).list).toNat / 64 * 64)
          version := none, fetched := 0, set := none, next := none, cached := none, marked := false, stopping := false
          halting := false, persist := false, firstLen := 0, feeds := [], order := none } ∧
        (∀ d, d ≠ ch.toFin → t.chan d = s.chan d) ∧ t.drf.regs = (s.setRstat r 0).drf.regs ∧
        t = { s with drf := { s.drf with ch := t.drf.ch, regs := t.drf.regs, watch := t.drf.watch }
                     ice := { s.ice with sb := t.ice.sb } } ∧
        t.ice.sb.alloc = s.ice.sb.alloc) ∧
    ((s.chan ch.toFin).state = 1 ∨ (s.chan ch.toFin).state = 5 → exec (.drfGo r ch met) s = .next (s.setRstat r 2).pruneCycles))

/-- An ARMED channel that is re-armed, or whose shadow takes effect, runs its cached descriptors, checked again,
under the new bases behind a new scoreboard access; a pass that the check refuses ends the chain with its code
and without its set. REARM answers NOTARMED (4) on a channel that holds no persistent set, NOTOWNER (5) for
another's, UNSUPPORTED (3) on a configuration without it, BUSY (2) on a halted channel or with the shadow full,
and fills the shadow of the last pass once (1). Of re-arms of one step each acts in the order of R354. -/
def Obligations.RearmStartsOrShadowsAPass : Prop :=
  (∀ (c : BitVec 5) (b : Bases) (st : DriftSet) (p : Bool) (s : State), s.powered = true →
     Config.rearm s.cfg = true → (s.chan c.toFin).state = 4 → (s.chan c.toFin).cached = some st →
     (s.chan c.toFin).halting = false → (s.chan c.toFin).stopping = false → st.descs ≠ [] →
     (∀ a ∈ s.ice.sb.alloc, a.id ≠ s.ice.sb.nextId) →
     let s1 := s.modCh c.toFin fun y => { y with state := 1, bases := b, shadow := none, cached := none, marked := false }
     s1.checkDescs c.toFin { s.chan c.toFin with bases := b, version := none } (s.chan c.toFin).firstLen 0
       (s.chan c.toFin).persist st.descs = (st.descs, none, p) →
     s1.setRanges c.toFin st.descs ≠ [] →
     (∀ (r : Reader) (met : List (Reader × Bool)), s.canAct r = true → alone r met s → s.ownsCh r c.toFin = true →
         (s.chan c.toFin).shadow = none → b = s.basesOf r →
       ∃ t, exec (.drfRearm r c met) s = .next t ∧ passStarts c.toFin b st s t ∧ (t.drf.regs.get r).rstat = 0) ∧
     ((s.chan c.toFin).shadow = some b → ∃ t, exec (.shadowEffect c.toFin) s = .next t ∧ passStarts c.toFin b st s t)) ∧
  (∀ (q r : Reader) (c : BitVec 5) (s : State), s.powered = true → Reader.before q r = true → q ≠ r →
    exec (.drfRearm r c [(q, true)]) s = .next ((s.rearm q c).rearm r c).pruneCycles ∧
    exec (.drfRearm q c [(r, true)]) s = .next ((s.rearm q c).rearm r c).pruneCycles) ∧
  (∀ (r : Reader) (c : BitVec 5) (met : List (Reader × Bool)) (st : DriftSet) (s : State), s.canAct r = true →
    alone r met s →
    (Config.driftCh s.cfg ≤ c.toNat → exec (.drfRearm r c met) s = .next (s.setRstat r 4).pruneCycles) ∧
    (c.toNat < Config.driftCh s.cfg → s.ownsCh r c.toFin = false →
      exec (.drfRearm r c met) s = .next (s.setRstat r 5).pruneCycles) ∧
    (c.toNat < Config.driftCh s.cfg → s.ownsCh r c.toFin = true → Config.rearm s.cfg = false →
      exec (.drfRearm r c met) s = .next (s.setRstat r 3).pruneCycles) ∧
    (c.toNat < Config.driftCh s.cfg → s.ownsCh r c.toFin = true → Config.rearm s.cfg = true →
      ((s.chan c.toFin).state = 5 ∨ (s.chan c.toFin).state = 4 ∧ (s.chan c.toFin).shadow ≠ none →
        exec (.drfRearm r c met) s = .next (s.setRstat r 2).pruneCycles) ∧
      ((s.chan c.toFin).state ≠ 1 ∧ (s.chan c.toFin).state ≠ 4 ∧ (s.chan c.toFin).state ≠ 5 ∨
          (s.chan c.toFin).state = 1 ∧ (s.chan c.toFin).persist = false →
        exec (.drfRearm r c met) s = .next (s.setRstat r 4).pruneCycles)) ∧
    (c.toNat < Config.driftCh s.cfg → s.ownsCh r c.toFin = true → Config.rearm s.cfg = true →
      (s.chan c.toFin).state = 1 → (s.chan c.toFin).persist = true → (s.chan c.toFin).set = some st → st.chainEnd = true →
      exec (.drfRearm r c met) s =
        if (s.chan c.toFin).shadow = none then
          .next ((s.modCh c.toFin fun x => { x with shadow := some (s.basesOf r) }).setRstat r 1).pruneCycles
        else .next (s.setRstat r 2).pruneCycles)) ∧
  (∀ (c : BitVec 5) (b : Bases) (st : DriftSet) (code : BitVec 4) (p : Bool) (s : State), s.powered = true →
     Config.rearm s.cfg = true → (s.chan c.toFin).state = 4 → (s.chan c.toFin).cached = some st →
     (s.chan c.toFin).halting = false → (s.chan c.toFin).stopping = false → (s.chan c.toFin).order = none →
     7 ≤ code.toNat →
     let s1 := s.modCh c.toFin fun y => { y with state := 1, bases := b, shadow := none, cached := none, marked := false }
     s1.checkDescs c.toFin { s.chan c.toFin with bases := b, version := none } (s.chan c.toFin).firstLen 0
       (s.chan c.toFin).persist st.descs = ([], some code, p) →
     (∀ (r : Reader) (met : List (Reader × Bool)), s.canAct r = true → alone r met s → s.ownsCh r c.toFin = true →
         (s.chan c.toFin).shadow = none → b = s.basesOf r →
       ∃ t, exec (.drfRearm r c met) s = .next t ∧ passRefused c.toFin code s t ∧ (t.drf.regs.get r).rstat = 0) ∧
     ((s.chan c.toFin).shadow = some b → ∃ t, exec (.shadowEffect c.toFin) s = .next t ∧ passRefused c.toFin code s t))

/-- DRF_OWN changes the owner of a channel that does not run; DRF_STOP marks a running one and CHANNEL_STOPPED, once
its lines, descriptor burst and Firn entries are done, ends it as STOPPED with its accesses freed and its event
raised; others are refused, with NOTOWNER and BUSY in RSTAT (R530 gives CODE to GO, REARM and RESUME; the
model's reading, log entry 78). A format 2 store halts at its lowest incomplete row with cause and position once
no line is outstanding; RESUME goes on at that row, and does nothing on a channel that is not HALTED. -/
def Obligations.ChannelsAreOwnedStoppedAndResumed : Prop :=
  (∀ (r : Reader) (c : Fin 32) (h : Hart) (s : State), s.canAct r = true → c.val < Config.driftCh s.cfg →
     (s.privileged r = true → (s.chan c).state ≠ 1 → (s.chan c).state ≠ 4 → (s.chan c).state ≠ 5 →
       exec (.drfOwn r c h) s = .next (s.modCh c fun x => { x with owner := h }).pruneCycles) ∧
     (s.privileged r = true → (s.chan c).state = 1 ∨ (s.chan c).state = 4 ∨ (s.chan c).state = 5 →
       exec (.drfOwn r c h) s = .next (s.setRstat r 2).pruneCycles ∧
       exec (.drfStop r c) s = .next (s.modCh c fun x => { x with stopping := true }).pruneCycles) ∧
     (s.ownsCh r c = false →
       exec (.drfOwn r c h) s = .next (s.setRstat r 5).pruneCycles ∧
       exec (.drfStop r c) s = .next (s.setRstat r 5).pruneCycles)) ∧
  (∀ (r : Reader) (c : BitVec 5) (st : DriftSet) (d : Desc) (id : Nat) (l : List Nat) (s : State), s.canAct r = true →
    c.toNat < Config.driftCh s.cfg → s.ownsCh r c.toFin = true → (s.chan c.toFin).state = 5 →
    (s.chan c.toFin).stopping = false → (s.chan c.toFin).halting = false → (s.chan c.toFin).set = some st →
    st.chainEnd = true → st.issued = 0 → s.descMelted d c.toFin = false →
    st.sb = some id → st.slotSb = none → (s.ice.sb.alloc.any fun a => a.id == id) = true → st.descs[st.cur]? = some d → d.isLoad = true →
    d.rel = false → d.empty = false → d.buffered = false → d.idx = false → st.performed = false → st.need = none →
    st.got = [] → s.descReviving d c.toFin = false → s.morDone id = true →
    d.readLines st.idxs (rowsFrom st.startRow d.pr) = l → l ≠ [] →
    ∃ t, exec (.drfResume r c) s = .next t ∧
      t.chan c.toFin = { s.chan c.toFin with
        state := 1, fetchFail := none
        set := some { st with need := some l, issued := s.firstIssue l } } ∧
      (t.drf.regs.get r).rstat = 0 ∧ (∀ k, k ≠ c.toFin → t.chan k = s.chan k) ∧ t.ice = s.ice ∧ t.tiles = s.tiles ∧
      t.harts = s.harts) ∧
  (∀ (r : Reader) (c : BitVec 5) (s : State), s.canAct r = true → c.toNat < Config.driftCh s.cfg →
    s.ownsCh r c.toFin = true → (s.chan c.toFin).state ≠ 5 → exec (.drfResume r c) s = .next s.pruneCycles) ∧
  (∀ (c : Fin 32) (s : State), s.powered = true → (s.chan c).stopping = true → (s.chan c).order = none →
    (s.chan c).burstOut = false →
    (∀ st, (s.chan c).set = some st → st.wlines = [] ∧ st.need = none ∧ st.issued ≤ st.got.length) →
    (∀ a ∈ (s.chan c).accesses, s.morDone a = true ∧ s.firnIdle a) →
    ∃ t, exec (.channelStopped c) s = .next t ∧ (t.chan c).state = 6 ∧ (t.chan c).set = none ∧
      (t.chan c).next = none ∧ (t.chan c).cached = none ∧ (t.chan c).shadow = none ∧ (t.chan c).stopping = false ∧
      (∀ id ∈ (s.chan c).accesses, ∀ a ∈ t.ice.sb.alloc, a.id ≠ id) ∧ t.ice.cells = s.ice.cells ∧ t.tiles = s.tiles ∧
      ((s.hart (s.chan c).owner).csr.drw.getLsbD c.val = true → (t.hart (s.chan c).owner).csr.evpend.getLsbD 0 = true)) ∧
  (∀ (c : Fin 32) (st : DriftSet) (d : Desc) (row addr : Nat) (cause : BitVec 3) (s : State), s.powered = true →
     (s.chan c).set = some st → st.descs[st.cur]? = some d → d.isStore = true → (s.chan c).halting = true →
     (s.chan c).stopping = false → (s.chan c).state = 1 → (s.chan c).burstOut = false → st.wlines = [] →
     st.fail = some (row, cause, addr) → cause ≠ 0 → row < d.pr →
     (s.chan c).order = none → st.issued ≤ st.got.length → s.morDone (s.driftAcc st) = true → s.firnIdle (s.driftAcc st) →
     ∃ t, exec (.channelHalt c) s = .next t ∧ (t.chan c).state = 5 ∧ (t.chan c).hcause = cause ∧
       (t.chan c).posDesc = BitVec.ofNat 12 (st.first + st.cur) ∧ (t.chan c).posRow = BitVec.ofNat 20 row ∧
       (t.chan c).set.map (fun x => (x.startRow, x.sb, x.cur)) = some (row, st.sb, st.cur) ∧
       ((s.hart (s.chan c).owner).csr.drw.getLsbD c.val = true → (t.hart (s.chan c).owner).csr.evpend.getLsbD 0 = true) ∧
       t.ice.cells = s.ice.cells ∧ t.ice.sb = s.ice.sb ∧ t.tiles = s.tiles)

/-- FB_CONFIG writes an unused buffer and answers BUSY in RSTAT for one in use (log entry 78); a write that another
of the step beats changes nothing, and one that stands counts those it beats (R431). POST and RELEASE advance
HEAD and TAIL for their hart alone; SLOT_GRANT gives a waiting descriptor the slot that HEAD or TAIL names and
presents the slot's words. -/
def Obligations.FlowBuffersCountAndGrantSlots : Prop :=
  (∀ (r : Reader) (b : Fin 16) (word : Fin 5) (v : Word) (lost : List Hart) (s : State), s.canAct r = true →
    s.privileged r = true →
    exec (.fbConfig r b word v lost) s =
      if stands r (s.reaching r lost) = false then .next s
      else
        let u := s.countPreempt (s.reaching r lost)
        if s.bufferNamed b = true then .next (u.setRstat r 2).pruneCycles
        else .next (State.pruneCycles
          { u with drf := { u.drf with fb := vset u.drf.fb b ((u.drf.fb.get b).write word v) } })) ∧
  (∀ (h : Hart) (b : Fin 16) (s : State), s.canAct (Hart.reader h) = true →
    (∃ t, exec (.fbPost (Hart.reader h) b) s = .next t ∧
      t.drf.fb = (if (s.drf.fb.get b).prod.toNat = 32 + h.val then
        vset s.drf.fb b { s.drf.fb.get b with head := (s.drf.fb.get b).head + 1 } else s.drf.fb) ∧
      t = { s with drf := { s.drf with fb := t.drf.fb, watch := t.drf.watch } }) ∧
    (∃ t, exec (.fbRelease (Hart.reader h) b) s = .next t ∧
      t.drf.fb = (if (s.drf.fb.get b).cons.toNat = 32 + h.val then
        vset s.drf.fb b { s.drf.fb.get b with tail := (s.drf.fb.get b).tail + 1 } else s.drf.fb) ∧
      t = { s with drf := { s.drf with fb := t.drf.fb, watch := t.drf.watch } })) ∧
  (∀ (c : Fin 32) (st : DriftSet) (d : Desc) (p : Bool) (s : State), s.powered = true → s.current c = some (st, d) →
     d.rel = false → d.empty = false → d.buffered = true → st.performed = false → st.slot = none → st.slotSb = none →
     d.role (s.drf.fb.get d.buf) c = some p → (s.drf.fb.get d.buf).open p = true →
     (∀ a ∈ s.ice.sb.alloc, a.id ≠ s.ice.sb.nextId) →
     let b := s.drf.fb.get d.buf
     let n := if p then b.head.toNat else b.tail.toNat
     ∃ t, exec (.slotGrant c) s = .next t ∧
       (t.chan c).set = some { st with slot := some n, slotSb := some s.ice.sb.nextId } ∧
       t.ice.sb.waiting = s.ice.sb.waiting ++ [{ id := s.ice.sb.nextId, who := .drift c
                                                 ranges := clipRange (b.slotBase n) (b.slotBase n + b.slot.toNat - 1) p }] ∧
       t.ice.sb.alloc = s.ice.sb.alloc ∧ t.drf.fb = s.drf.fb ∧ t.ice.cells = s.ice.cells ∧ t.harts = s.harts ∧
       t.tiles = s.tiles)

/-- DESCRIPTOR_SET_FETCH with descriptors that pass, as many as the BATCH of the fetch asked for, makes them the
channel's set behind a new scoreboard access and moves the list on; a set whose first descriptor fails ends the
chain with its code and its place and raises the drift event. A burst with a failed line of fabric begins the
halt of a format 2 chain with the line's cause and place and leaves all else as it was; in format 3 each failed
line counts in MARKS and reads as a descriptor of zeros. -/
def Obligations.DescriptorSetsAreCheckedOnArrival : Prop :=
  (∀ (c : Fin 32) (ls got : List LineResult) (ds : List Desc) (p : Bool) (s : State), s.powered = true →
     burstFor c ls got s → failedLines got = [] → ds = got.map descOf → ds ≠ [] →
     s.checkDescs c (s.chan c) (if (s.chan c).fetched = 0 then ds.length else (s.chan c).firstLen) (s.chan c).fetched
       (s.chan c).persist ds = (ds, none, p) →
     s.setRanges c ds ≠ [] → (∀ a ∈ s.ice.sb.alloc, a.id ≠ s.ice.sb.nextId) →
     ∃ t, exec (.descriptorSetFetch c (.lines ls)) s = .next t ∧
       (t.chan c).set = some { first := (s.chan c).fetched, descs := ds, sb := some s.ice.sb.nextId
                               chainEnd := (ds.getLast?.map (·.last)).getD false } ∧
       (t.chan c).fetched = (s.chan c).fetched + ds.length ∧
       (t.chan c).listAddr = ((s.chan c).listAddr + 64 * ds.length) % 2 ^ 48 ∧ (t.chan c).state = 1 ∧
       t.ice.sb.alloc = s.ice.sb.alloc ∧
       t.ice.sb.waiting = s.ice.sb.waiting ++ [{ id := s.ice.sb.nextId, who := .drift c, ranges := s.setRanges c ds }] ∧
       (∀ d, d ≠ c → t.chan d = s.chan d) ∧ t.harts = s.harts ∧ t.tiles = s.tiles ∧ t.ice.cells = s.ice.cells) ∧
  (∀ (c : Fin 32) (ls got : List LineResult) (d : Desc) (r : List Desc) (code : BitVec 4) (s : State), s.powered = true →
     burstFor c ls got s → failedLines got = [] → got.map descOf = d :: r → (s.chan c).order = none →
     s.descCheck c (s.chan c) (s.chan c).fetched
       (if (s.chan c).fetched = 0 then (d :: r).length else (s.chan c).firstLen) (s.chan c).persist d = some code →
     7 ≤ code.toNat →
     ∃ t, exec (.descriptorSetFetch c (.lines ls)) s = .next t ∧ (t.chan c).state = code ∧
       (t.chan c).posDesc = BitVec.ofNat 12 (s.chan c).fetched ∧ (t.chan c).set = none ∧ t.ice.cells = s.ice.cells ∧
       t.tiles = s.tiles ∧
       ((s.hart (s.chan c).owner).csr.drw.getLsbD c.val = true → (t.hart (s.chan c).owner).csr.evpend.getLsbD 0 = true)) ∧
  (∀ (c : Fin 32) (ls got : List LineResult) (k : FabricFault) (i : Nat) (rest : List (FabricFault × Nat)) (s : State),
     s.powered = true → burstFor c ls got s → failedLines got = (k, i) :: rest →
     ((s.chan c).burstVersion got = some 2 →
       ∃ t, exec (.descriptorSetFetch c (.lines ls)) s = .next t ∧
         t.chan c = { s.chan c with fetchN := none, halting := true
                                    fetchFail := some (faultCause k, ((s.chan c).listAddr + 64 * i) % 2 ^ 48) } ∧
         (∀ d, d ≠ c → t.chan d = s.chan d) ∧ t.ice = s.ice ∧ t.harts = s.harts ∧ t.tiles = s.tiles) ∧
     ((s.chan c).burstVersion got ≠ some 2 →
       ∃ t, exec (.descriptorSetFetch c (.lines ls)) s = .next t ∧
         (t.chan c).marksRd = min 65535 ((s.chan c).marksRd + (rest.length + 1)) ∧ t.tiles = s.tiles) ∧
     descOf (.fail k) = Desc.ofWords (List.replicate 16 0))

/-- FABRIC_READ_LINE stores a needed line or counts its failure (format 3) or begins the halt (format 2);
FABRIC_WRITE_RESPONSE takes the oldest write line away and counts a failure; SET_RETIRE of the last set ends the
chain as DONE or MARKED, raises the set's flags, writes what its Firn entry holds, frees its access and raises
the drift event. -/
def Obligations.SetsRetireAndLinesAreAnswered : Prop :=
  (∀ (c : Fin 32) (st : DriftSet) (s : State), s.powered = true → (s.chan c).state = 1 → (s.chan c).halting = false →
     (s.chan c).stopping = false → (s.chan c).set = some st → st.descs.length ≤ st.cur → st.failCode = none →
     st.chainEnd = true → (Config.rearm s.cfg = false ∨ (s.chan c).persist = false) → (s.chan c).order = none →
     (∀ id, st.sb = some id → s.morDone id = true ∧ s.firnWhole id) →
     ∃ t, exec (.setRetire c) s = .next t ∧ (t.chan c).state = (if (s.chan c).marked then 3 else 2) ∧
       (t.hart (s.chan c).owner).csr.vflags = (s.hart (s.chan c).owner).csr.vflags.or st.flags ∧
       (t.chan c).set = none ∧ (∀ id, st.sb = some id → ∀ a ∈ t.ice.sb.alloc, a.id ≠ id) ∧
       ((s.hart (s.chan c).owner).csr.drw.getLsbD c.val = true → (t.hart (s.chan c).owner).csr.evpend.getLsbD 0 = true) ∧
       t.ice.cells = (match st.sb with | some id => (s.firnFlush id).ice.cells | none => s.ice.cells) ∧
       t.tiles = s.tiles ∧ (∀ d, d ≠ c → t.chan d = s.chan d) ∧
       ∀ h, (t.hart h).x = (s.hart h).x ∧ (t.hart h).pc = (s.hart h).pc) ∧
  (∀ (c : Fin 32) (addr : BitVec 48) (st : DriftSet) (l : List Nat) (s : State), s.powered = true →
     (s.chan c).set = some st → st.need = some l → st.issued = l.length → addr.toNat ∈ l →
     (∀ g ∈ st.got, g.1 ≠ addr.toNat) →
     s.driveStep c = none → (∃ a ∈ l, a ≠ addr.toNat ∧ ∀ g ∈ st.got, g.1 ≠ a) →
     (∀ words, exec (.fabricReadLine c addr (.ok words)) s =
       .next ((s.countEvent 0x20 1).modSet c fun t =>
         { t with got := t.got ++ [(addr.toNat, .ok words)] }).pruneCycles) ∧
     (∀ k, (s.chan c).version ≠ some 2 → ∃ t, exec (.fabricReadLine c addr (.fail k)) s = .next t ∧
       (t.chan c).marksRd = min 65535 ((s.chan c).marksRd + 1) ∧ (t.chan c).marked = true ∧
       (t.chan c).set = some { st with got := st.got ++ [(addr.toNat, .fail k)] } ∧ t.ice.cells = s.ice.cells ∧
       t.tiles = s.tiles) ∧
     (∀ k, (s.chan c).version = some 2 → ∃ t, exec (.fabricReadLine c addr (.fail k)) s = .next t ∧
       (t.chan c).halting = true ∧ (t.chan c).set = some { st with got := st.got ++ [(addr.toNat, .fail k)] } ∧
       t.ice.cells = s.ice.cells ∧ t.tiles = s.tiles)) ∧
  (∀ (c : Fin 32) (st : DriftSet) (w v : WLine) (l : List WLine) (s : State), s.powered = true →
     (s.chan c).set = some st → st.wlines = w :: v :: l → st.performed = true → st.idxs = [] →
     (∀ d ∈ st.descs, d.empty = false) →
     exec (.fabricWriteResponse c .ack) s = .next (s.modSet c fun t => { t with wlines := v :: l }).pruneCycles ∧
     (∀ k, (s.chan c).version ≠ some 2 → ∃ t, exec (.fabricWriteResponse c (.fail k)) s = .next t ∧
       (t.chan c).set = some { st with wlines := v :: l } ∧
       (t.chan c).marksWr = min 65535 ((s.chan c).marksWr + if w.poison.isEmpty then 1 else 0) ∧
       t.ice.cells = s.ice.cells ∧ t.tiles = s.tiles))

/-- INDEX_QUEUE_RESUME takes the queued indices, fills up with padding once the index channel has ended (R345; each
counts as an index at or beyond the limit), and asks for the lines they name. DEADLOCK by the party that closes
a cycle not yet reported records its harts and party and, once, traps the party's hart with mcause 25 and the
party in mtval (log entries 4 and 83), or notes the exception for the boundary at which its instruction ends;
any other changes nothing but forgetting cycles that are gone. -/
def Obligations.IndicesAndDeadlocks : Prop :=
  (∀ (c : Fin 32) (st : DriftSet) (d : Desc) (l : List Nat) (idxs : List Int) (s : State), s.powered = true →
     s.current c = some (st, d) → d.rel = false → d.empty = false → d.buffered = false → d.isLoad = true → d.idx = true →
     st.performed = false → st.need = none → st.got = [] → st.issued = 0 → st.startRow = 0 →
     s.descReviving d c = false → s.descMelted d c = false →
     s.morDone (s.driftAcc st) = true → st.idxs.length < d.indexCount →
     (idxs = st.idxs ++ (s.chan c).queue ∧ idxs.length = d.indexCount ∨
       (s.chan c).queue = [] ∧ s.indexRetired d.coupled = true ∧
         idxs = st.idxs ++ List.replicate (d.indexCount - st.idxs.length) (-2)) →
     d.readLines idxs (rowsFrom 0 d.pr) = l → l ≠ [] →
     ∃ t, exec (.indexQueueResume c) s = .next t ∧ (t.chan c).queue = [] ∧
       (t.chan c).set = some { st with idxs, need := some l, issued := s.firstIssue l } ∧ t.ice = s.ice ∧ t.harts = s.harts ∧ t.tiles = s.tiles) ∧
  (∀ (p : Party) (l : List Hart) (s : State), s.powered = true → s.pruneCycles.cycleOf p = some l →
     s.callOf (s.partyHart p) = none →
     (l ∈ s.pruneCycles.drf.watch.cycles ∨ s.pruneCycles.closer l ≠ some p → exec (.deadlock p) s = .next s.pruneCycles) ∧
     (l ∉ s.pruneCycles.drf.watch.cycles → s.pruneCycles.closer l = some p →
     let h := s.partyHart p
     let v : Word := (0 : BitVec 25) ++ BitVec.ofBool (s.partyCode p).2 ++ (s.partyCode p).1
     ∃ t, exec (.deadlock p) s = .next t ∧ t.drf.dlckV = true ∧ t.drf.dlckParty = (s.partyCode p).1 ∧
       t.drf.dlckKind = (s.partyCode p).2 ∧ (∀ g : Hart, t.drf.dlckHarts.getLsbD g.val = l.contains g) ∧
       t.hart h = (if (s.hart h).wait = .run ∨ (s.hart h).wait = .wfi then (s.hart h).takeTrap false 25 v
         else { s.hart h with dlock := some v }) ∧
       (∀ g, g ≠ h → t.hart g = s.hart g) ∧ t.drf.ch = s.drf.ch ∧ t.drf.fb = s.drf.fb ∧ t.ice = s.ice ∧
       t.tiles = s.tiles))

/-- A load of one INT32 element writes its fabric word to its window word's cell and no other by the retirement of
its set; a store sends exactly its four bytes. MORAINE_LINE delivers the 16 words of a read to its access, frees
an access at its last acknowledge, and a failed write is an uncorrectable fault. -/
def Obligations.DriftsAndMoraineMoveTheirWords : Prop :=
  (∀ (c : Fin 32) (st : DriftSet) (d : Desc) (f : Fin 64) (p id : Nat) (hash : Bool) (s : State),
     s.powered = true → s.fieldCanonical → oneDescriptor (s.chan c) st d → oneWord d → st.sb = some id →
     s.descReviving d c = false → s.descMelted d c = false → s.morDone id = true → s.firnReady id (.drift c) →
     (s.floe f).used = true →
     (s.floe f).window.1 ≤ wordPart d.iaddr → wordPart d.iaddr < (s.floe f).window.2 →
     (∀ g, g ≠ f → (s.floe g).used = true → wordPart d.iaddr < (s.floe g).window.1 ∨ (s.floe g).window.2 ≤ wordPart d.iaddr) →
     s.place f (wordPart d.iaddr) = some (.phys p hash) →
     (∀ words : Vector Word 16, d.isLoad = true → (s.ice.sb.alloc.any fun a => a.id == id) = true →
       st.need = some [lineOf d.faddr.toNat] → st.issued = 1 → (s.chan c).next = none → (s.chan c).order = none →
       ∃ t u, exec (.fabricReadLine c (BitVec.ofNat 48 (lineOf d.faddr.toNat)) (.ok words)) s = .next t ∧
         (t.chan c).set.map (·.cur) = some 1 ∧ t.ice.cells = s.ice.cells ∧ t.tiles = s.tiles ∧ t.harts = s.harts ∧
         exec (.setRetire c) t = .next u ∧ u.tiles = s.tiles ∧
         (∀ cell, sget 0 u.ice.cells cell =
           if cell = s.cellAt (s.bankLevel p hash).1 (s.bankLevel p hash).2 then
             encodeClean (words.toList.getD (d.faddr.toNat % 64 / 4) 0)
           else sget 0 s.ice.cells cell)) ∧
     (∀ (a : Access) (w : Word), d.isStore = true → s.nextAccess = some a → a.who = .drift c → a.id = id →
       (s.allocate id).storeHeld c st d = false →
       s.codewordAt (s.bankLevel p hash).1 (s.bankLevel p hash).2 = encodeClean w →
       ∃ t, exec (.sbAllocate 0) s = .next t ∧
         (t.chan c).set = some { st with
           performed := true
           wlines := [{ addr := lineOf d.faddr.toNat
                        bytes := (List.range 4).map fun i => (d.faddr.toNat % 64 + i, w.extractLsb' (8 * i) 8) }] } ∧
         t.ice.cells = s.ice.cells ∧ t.tiles = s.tiles ∧ t.harts = s.harts)) ∧
  (∀ (res : LineResult) (l : MorLine) (rest : List MorLine) (s : State), s.powered = true → s.ice.morLines = l :: rest → l.write = none →
    l.acc ∉ s.ice.morClosing → morIssuedFor s l.acc →
    ∃ t : State, exec (.moraineLine res) s = .next t ∧ t.ice.morLines = rest ∧
      t.ice.morData = s.ice.morData ++ (fins 16).map (fun i =>
        { acc := l.acc, addr := l.addr + 4 * i.val
          w := match res with | .ok ws => mkCont (ws.get i) false | .fail _ => mkCont 0 true }) ∧
      t.vu.inflight = afterLine s l.acc ∧ t.ice.sb = s.ice.sb ∧ t.ice.cells = s.ice.cells ∧ t.harts = s.harts ∧
      t.tiles = s.tiles ∧ t.err.stat = s.err.stat) ∧
  (∀ (ws : Vector Word 16) (l : MorLine) (s : State), s.powered = true → s.ice.morLines = [l] → l.acc ∈ s.ice.morClosing →
    morIssuedFor s l.acc →
    ∃ t : State, exec (.moraineLine (.ok ws)) s = .next t ∧ t.ice.morLines = [] ∧ l.acc ∉ t.ice.morClosing ∧
      (∀ a ∈ t.ice.sb.alloc, a.id ≠ l.acc) ∧ (∀ a ∈ s.ice.sb.alloc, a.id ≠ l.acc → a ∈ t.ice.sb.alloc) ∧
      t.vu.inflight = afterLine s l.acc ∧ t.ice.cells = s.ice.cells ∧ t.harts = s.harts ∧ t.tiles = s.tiles ∧
      t.err = s.err) ∧
  (∀ (k : FabricFault) (l : MorLine) (b : List (Nat × BitVec 8)) (rest : List MorLine) (s : State),
    s.powered = true → s.ice.morLines = l :: rest → l.write = some b → 8 ≤ s.boot.stage.toNat → s.err.stat = .running →
    ∃ t : State, exec (.moraineLine (.fail k)) s = .next t ∧ t.err.stat = .recovering ∧
      t.err.recovery.map (fun r => (r.code, r.src, r.loc)) = some (6, 6, BitVec.ofNat 32 l.addr))

/-- Of the readers that write the command register in one step one is taken, and the others get PREEMPTED.
WINDOW_OPEN that passes its checks opens the window in a new generation and sends a GRANT; a failing one writes
its code alone. WINDOW_READ, WINDOW_CREDIT and WINDOW_CLOSE act as R375 and R381 say, and CREDIT and CLOSE of a
closed window answer STATE (5), while those of a closing one follow log entry 90; the close waits for the
arrivals allocated before it, then sends a REVOKE and answers DONE. -/
def Obligations.WindowsOpenCreditReadAndClose : Prop :=
  (∀ (r : Reader) (w : Fin 64) (others : List Reader) (s : State), s.canAct r = true → s.privileged r = true →
     let g := (s.nbr.regs.get r).stage
     let lines := (g.get 1).extractLsb' 0 20
     let p : Fin 4 := ((g.get 1).extractLsb' 20 2).toFin
     let c0 := (g.get 2).extractLsb' 0 24
     let credit := if c0 = 0 then lines.setWidth 24 else c0
     (s.takes r others = false →
       (∃ t, exec (.windowOpen r w others) s = .next t ∧ (t.nbr.regs.get r).wstat = 8 ∧ t.nbr.windows = s.nbr.windows ∧
         t.nbr.ports = s.nbr.ports ∧ (∀ q, q ≠ r → t.nbr.regs.get q = s.nbr.regs.get q) ∧ t = { s with nbr := t.nbr })) ∧
     (∀ code, s.takes r others = true → s.openCheck w g = some code →
       ∃ t, exec (.windowOpen r w others) s = .next t ∧ (t.nbr.regs.get r) = { s.nbr.regs.get r with wstat := code } ∧
         othersPreempted r others s t ∧ t.nbr.closers = closesLeft r others s ∧ t.nbr.windows = s.nbr.windows ∧
         t.nbr.ports = s.nbr.ports ∧ t = { s with nbr := t.nbr }) ∧
     (s.takes r others = true → s.openCheck w g = none → maySend s p →
       ∃ t, exec (.windowOpen r w others) s = .next t ∧
         t.win w = { isOpen := true, closing := false, silent := false, addr := g.get 0, lines, port := p, credit0 := c0
                     gen := (s.win w).gen + 1, arr := 0, granted := credit } ∧
         (∀ v, v ≠ w → t.win v = s.win v) ∧
         (t.port p).tx = (s.port p).tx ++ [{ type := 4, win := BitVec.ofNat 6 w.val, gen := (s.win w).gen + 1, line := lines
                                             seq := (s.port p).txSeq, credit }] ∧
         (t.port p).txSeq = (s.port p).txSeq + 1 ∧ (t.port p).sends = (s.port p).sends ∧ (∀ q, q ≠ p → t.port q = s.port q) ∧
         t.nbr.regs.get r = { s.nbr.regs.get r with wstat := 0 } ∧ othersPreempted r others s t ∧
         t.nbr.closers = closesLeft r others s ∧ t = { s with nbr := t.nbr })) ∧
  (∀ (r : Reader) (w : Fin 64) (others : List Reader) (s : State), s.canAct r = true → s.privileged r = true →
     s.takes r others = true →
     (∃ t, exec (.windowRead r w others) s = .next t ∧
       t = { s with nbr := { s.nbr with regs := t.nbr.regs, closers := t.nbr.closers } } ∧
       (t.nbr.regs.get r).stage = #v[(s.win w).addr, (0 : BitVec 10) ++ BitVec.ofNat 2 (s.win w).port.val ++ (s.win w).lines,
         (s.win w).credit0.setWidth 32, 0] ∧
       (t.nbr.regs.get r).infoOpen = (s.win w).isOpen ∧ (t.nbr.regs.get r).infoGen = (s.win w).gen ∧
       (t.nbr.regs.get r).warr = (s.win w).arr ∧ (t.nbr.regs.get r).wstat = 0 ∧ othersPreempted r others s t ∧
       t.nbr.closers = closesLeft r others s) ∧
     ((s.win w).isOpen = false → ∀ c ∈ ([.windowClose r w others, .windowCredit r w others] : List Instr),
       ∃ t, exec c s = .next t ∧ t.nbr.regs.get r = { s.nbr.regs.get r with wstat := 5 } ∧ othersPreempted r others s t ∧
         t.nbr.closers = closesLeft r others s ∧ t.nbr.windows = s.nbr.windows ∧ t.nbr.ports = s.nbr.ports ∧
         t = { s with nbr := t.nbr }) ∧
     ((s.win w).isOpen = true → (s.port (s.win w).port).state = .up → maySend s (s.win w).port →
       ∃ t, exec (.windowCredit r w others) s = .next t ∧
         t.win w = { s.win w with granted := addSat (s.win w).granted (s.nbr.regs.get r).wcred.toNat } ∧
         (t.port (s.win w).port).tx = (s.port (s.win w).port).tx ++
           [{ type := 4, win := BitVec.ofNat 6 w.val, gen := (s.win w).gen, line := (s.win w).lines
              seq := (s.port (s.win w).port).txSeq, credit := (s.nbr.regs.get r).wcred }] ∧
         (t.nbr.regs.get r).wstat = 0 ∧ (∀ v, v ≠ w → t.win v = s.win v) ∧ othersPreempted r others s t ∧
         t = { s with nbr := t.nbr }) ∧
     ((s.win w).isOpen = true → ∃ t, exec (.windowClose r w others) s = .next t ∧
       t.win w = { s.win w with closing := true } ∧ (∀ v, v ≠ w → t.win v = s.win v) ∧ (t.nbr.regs.get r).wstat = 9 ∧
       t.nbr.closers = closesLeft r others s ++ [(w, some r, none)] ∧ othersPreempted r others s t ∧
       (∀ p : Fin 4, ∀ a ∈ (t.port p).arrivals, a.win = w → (t.ice.sb.waiting.any fun x => x.id == a.sb) = false) ∧
       t.ice.cells = s.ice.cells ∧ t.harts = s.harts ∧ t.tiles = s.tiles)) ∧
  (∀ (w : Fin 64) (p : Fin 4) (a : Arrival) (s : State), a ∈ (s.port p).arrivals → a.win = w →
    exec (.windowCloseEffect w) s = .next s) ∧
  (∀ (w : Fin 64) (r : Reader) (s : State), s.powered = true → (s.win w).closing = true → (s.win w).silent = false →
    (∀ p : Fin 4, ∀ a ∈ (s.port p).arrivals, a.win ≠ w) → s.nbr.closers = [(w, some r, none)] →
    (s.port (s.win w).port).state = .up → maySend s (s.win w).port →
    ∃ t, exec (.windowCloseEffect w) s = .next t ∧
      t.win w = { s.win w with isOpen := false, closing := false } ∧ (∀ v, v ≠ w → t.win v = s.win v) ∧
      (t.port (s.win w).port).tx = (s.port (s.win w).port).tx ++
        [{ type := 5, win := BitVec.ofNat 6 w.val, gen := (s.win w).gen, seq := (s.port (s.win w).port).txSeq }] ∧
      (t.nbr.regs.get r).wstat = 0 ∧ t.nbr.closers = [] ∧ t = { s with nbr := t.nbr })

/-- DATA out of sequence is answered with an ACK of the highest number landed or ignored, and one that meets a full
receive queue is refused RETRY (R389). DATA for a window that is closed, closing, of another port or another
generation is counted late and refused; beyond the window's lines, or with a word of its line outside the floe
or melted, it is refused BOUND or MELTED; otherwise its line is presented. ARRIVAL_LANDED writes every word that
WMASK selects with its mark and no other cell, counts the line in the window and frees the access. -/
def Obligations.DataMessagesLandAndAreCounted : Prop :=
  (∀ (p : Fin 4) (w : Fin 64) (gen : BitVec 16) (line : BitVec 20) (seq wmask smark : BitVec 16) (pl : Vector Word 16)
     (s : State), s.powered = true → (s.port p).state = .up →
     ((s.port p).rxSeq = seq → 128 ≤ (s.port p).arrivals.length →
       exec (.data p w gen line seq wmask smark pl) s = .next (s.modPort p fun q => { q with tx := q.tx ++
         [{ type := 3, win := BitVec.ofNat 6 w.val, gen, seq, reason := 4 }] })) ∧
     ((s.port p).rxSeq ≠ seq → exec (.data p w gen line seq wmask smark pl) s = .next
       (if ((s.port p).rxSeq - seq).toNat ≤ 32768 then s.modPort p fun q =>
           { q with tx := q.tx ++ [{ type := 2, seq := (s.port p).landed }], unacked := 0 }
         else s)) ∧
     ((s.port p).rxSeq = seq → (s.port p).arrivals.length < 128 →
     ((s.win w).isOpen = false ∨ (s.win w).closing = true ∨ (s.win w).port ≠ p ∨ (s.win w).gen ≠ gen →
       ∃ t, exec (.data p w gen line seq wmask smark pl) s = .next t ∧ t.nbr.late = incSat s.nbr.late ∧
         (t.port p).tx = (s.port p).tx ++ [{ type := 3, win := BitVec.ofNat 6 w.val, gen, seq, reason := 1 }] ∧
         (t.port p).rxSeq = seq + 1 ∧ (t.port p).arrivals = (s.port p).arrivals ∧ t.nbr.windows = s.nbr.windows ∧
         t = { s with nbr := t.nbr }) ∧
     ((s.win w).isOpen = true → (s.win w).closing = false → (s.win w).port = p → (s.win w).gen = gen →
       ((s.win w).lines.toNat ≤ line.toNat → ∃ t, exec (.data p w gen line seq wmask smark pl) s = .next t ∧
         (t.port p).tx = (s.port p).tx ++ [{ type := 3, win := BitVec.ofNat 6 w.val, gen, seq, reason := 2 }] ∧
         t.nbr.late = s.nbr.late ∧ t.nbr.windows = s.nbr.windows ∧ t = { s with nbr := t.nbr }) ∧
       (∀ (code : BitVec 4) (i : Nat), line.toNat < (s.win w).lines.toNat → i < 16 →
         s.wordBad (floePart (s.win w).addr) (wordPart (s.win w).addr + 16 * line.toNat + i) = some code →
         (code = 6 → ∀ j < 16, s.wordBad (floePart (s.win w).addr) (wordPart (s.win w).addr + 16 * line.toNat + j) ≠ some 5) →
         ∃ t, exec (.data p w gen line seq wmask smark pl) s = .next t ∧
           (t.port p).tx = (s.port p).tx ++
             [{ type := 3, win := BitVec.ofNat 6 w.val, gen, seq, reason := if code = 5 then 2 else 3 }] ∧
           (t.port p).arrivals = (s.port p).arrivals ∧ t.nbr.windows = s.nbr.windows ∧ t = { s with nbr := t.nbr }) ∧
       (line.toNat < (s.win w).lines.toNat →
         (∀ i < 16, s.wordBad (floePart (s.win w).addr) (wordPart (s.win w).addr + 16 * line.toNat + i) = none) →
         ∃ t, exec (.data p w gen line seq wmask smark pl) s = .next t ∧
           (t.port p).arrivals = (s.port p).arrivals ++
             [{ win := w, word := wordPart (s.win w).addr + 16 * line.toNat, seq, wmask, smark, payload := pl
                sb := s.ice.sb.nextId }] ∧
           t.ice.sb.waiting = s.ice.sb.waiting ++
             [{ id := s.ice.sb.nextId, who := .arrival p
                ranges := [{ lo := wordPart (s.win w).addr + 16 * line.toNat
                             hi := wordPart (s.win w).addr + 16 * line.toNat + 15, write := true }] }] ∧
           t.nbr.windows = s.nbr.windows ∧ t.ice.cells = s.ice.cells ∧ (t.port p).tx = (s.port p).tx ∧
           t.harts = s.harts ∧ t.tiles = s.tiles)))) ∧
  (∀ (p : Fin 4) (a : Arrival) (l : List Arrival) (at' : Fin 16 → Nat × Bool) (s : State), s.powered = true →
     s.fieldCanonical → (s.port p).arrivals = a :: l → a.written = false → (∀ b ∈ l, b.sb ≠ a.sb) →
     (s.ice.sb.waiting.any fun x => x.id == a.sb) = false → s.morDone a.sb = true →
     let f := floePart (s.win a.win).addr
     let cellOf := fun (i : Fin 16) => s.cellAt (s.bankLevel (at' i).1 (at' i).2).1 (s.bankLevel (at' i).1 (at' i).2).2
     (∀ i, s.place f (a.word + i.val) = some (.phys (at' i).1 (at' i).2)) → (∀ i j, cellOf i = cellOf j → i = j) →
     (∀ i : Fin 16, s.wordBad f (a.word + i.val) = none) → s.wordReviving f a.word = false →
     s.firnReady a.sb (.arrival p) →
     ∃ t, exec (.arrivalLanded p) s = .next t ∧
       (∀ i : Fin 16, a.wmask.getLsbD i.val = true →
         sget 0 t.ice.cells (cellOf i) = encodeWord (a.payload.get i) (a.smark.getLsbD i.val)) ∧
       (∀ cell, (∀ i : Fin 16, a.wmask.getLsbD i.val = true → cell ≠ cellOf i) →
         sget 0 t.ice.cells cell = sget 0 s.ice.cells cell) ∧
       t.win a.win = { s.win a.win with arr := incSat (s.win a.win).arr } ∧ (∀ v, v ≠ a.win → t.win v = s.win v) ∧
       (t.port p).arrivals = l ∧ (∀ b ∈ t.ice.sb.alloc, b.id ≠ a.sb) ∧ t.harts = s.harts ∧ t.tiles = s.tiles)

/-- NBR_SEND reads the descriptor through an access of its own and queues it on its port; SEND_DESCRIPTOR_START
completes it with DONE when it has no lines, with the first failing check's code, or presents its source, and
completes a presented one with BOUND or MELTED when a word of its source has left the floe or melted meanwhile;
SEND_COMPLETE writes STATUS and LANDED to the descriptor's words and raises SEND under EVT. That the
descriptor's words are read through the scoreboard at the write of CE_NBR_SEND, and that one without lines is
DONE before any other check, is the model's reading (log entry 87). -/
def Obligations.SendDescriptorsRunToTheirStatus : Prop :=
  (∀ (r : Reader) (addr : Word) (data : Nat → Word) (s : State), s.canAct r = true → wordPart addr % 8 = 0 →
    s.wordsOk (floePart addr) (sendWords addr) = true → s.nbr.reading = [] →
    (∀ a ∈ s.ice.sb.waiting, a.id ≠ s.ice.sb.nextId) →
    (s.present (.departure 0) [{ lo := wordPart addr, hi := wordPart addr + 7, write := false }]).1.ice.sb.ready
      s.ice.sb.nextId = true →
    (sendWords addr).any (s.wordReviving (floePart addr)) = false → s.morDone s.ice.sb.nextId = true →
    s.firnReady s.ice.sb.nextId (.departure 0) →
    (∀ i < 8, ∃ p h, s.place (floePart addr) (wordPart addr + i) = some (.phys p h) ∧
      s.codewordAt (s.bankLevel p h).1 (s.bankLevel p h).2 = encodeClean (data i)) →
    let q := sendOf s.nbr.nextSend addr r data
    (s.port q.1).state = .up → (s.port q.1).sends.length < 16 →
    ∃ t, exec (.nbrSend r addr) s = .next t ∧ (t.port q.1).sends = (s.port q.1).sends ++ [q.2] ∧
      (t.nbr.regs.get r).sstat = 0 ∧ (∀ k, k ≠ q.1 → t.port k = s.port k) ∧ t.ice.cells = s.ice.cells ∧
      t.harts = s.harts ∧ t.tiles = s.tiles) ∧
  (∀ (p : Fin 4) (d : SendDesc) (l : List SendDesc) (s : State), s.powered = true → s.nbr.reading = [] →
    (s.port p).sends = d :: l → d.phase = .queued → d.stop = false → (∀ e ∈ l, e.id ≠ d.id ∧ e.outstanding = 0) →
    d.outstanding = 0 →
    (∀ c, d.nlines = 0 ∧ c = 1 ∨ d.nlines ≠ 0 ∧ s.sendCheck p d = some c →
      exec (.sendDescriptorStart p) s = .next (s.modPort p fun q =>
        { q with sends := { d with status := c, phase := .complete } :: l })) ∧
    (d.nlines ≠ 0 → s.sendCheck p d = none → ∃ t, exec (.sendDescriptorStart p) s = .next t ∧
      (t.port p).sends = { d with sb := some s.ice.sb.nextId, phase := .presented } :: l ∧
      t.ice.sb.waiting = s.ice.sb.waiting ++
        [{ id := s.ice.sb.nextId, who := .departure p
           ranges := [{ lo := wordPart d.src, hi := wordPart d.src + 16 * d.nlines - 1, write := false }] }] ∧
      t.ice.cells = s.ice.cells ∧ t.harts = s.harts ∧ t.tiles = s.tiles)) ∧
  (∀ (p : Fin 4) (d : SendDesc) (l : List SendDesc) (id i : Nat) (c : BitVec 4) (s : State), s.powered = true →
    s.nbr.reading = [] → (s.port p).sends = d :: l → d.phase = .presented → d.sb = some id →
    (s.ice.sb.waiting.any fun x => x.id == id) = false → (∀ e ∈ l, e.id ≠ d.id ∧ e.outstanding = 0) → d.outstanding = 0 →
    (∀ j < 16 * d.nlines, s.wordReviving (floePart d.src) (wordPart d.src + j) = false) → i < 16 * d.nlines →
    s.wordBad (floePart d.src) (wordPart d.src + i) = some c →
    (c = 6 → ∀ j < 16 * d.nlines, s.wordBad (floePart d.src) (wordPart d.src + j) ≠ some 5) →
    exec (.sendDescriptorStart p) s = .next (s.modPort p fun q =>
      { q with sends := { d with status := if c = 5 then 4 else 5, phase := .complete } :: l })) ∧
  (∀ (p : Fin 4) (d : SendDesc) (l : List SendDesc) (h : Hart) (id p5 p6 : Nat) (h5 h6 : Bool) (s : State),
     s.powered = true → s.fieldCanonical → (s.port p).sends = d :: l → d.phase = .complete → d.sb = none → d.bond = false →
     d.doneSb = some id → d.who = Hart.reader h → (∀ e ∈ l, e.id ≠ d.id) → s.morDone id = true →
     s.wordsOk (floePart d.addr) [wordPart d.addr + 5, wordPart d.addr + 6] = true →
     (s.ice.sb.waiting.any fun x => x.id == id) = false → s.wordReviving (floePart d.addr) (wordPart d.addr + 5) = false →
     s.firnReady id (.departure p) →
     s.place (floePart d.addr) (wordPart d.addr + 5) = some (.phys p5 h5) →
     s.place (floePart d.addr) (wordPart d.addr + 6) = some (.phys p6 h6) →
     let c5 := s.cellAt (s.bankLevel p5 h5).1 (s.bankLevel p5 h5).2
     let c6 := s.cellAt (s.bankLevel p6 h6).1 (s.bankLevel p6 h6).2
     c5 ≠ c6 →
     ∃ t, exec (.sendComplete p) s = .next t ∧
       (∀ cell, sget 0 t.ice.cells cell = if cell = c5 then encodeClean (d.status.setWidth 32)
         else if cell = c6 then encodeClean (BitVec.ofNat 32 d.landed) else sget 0 s.ice.cells cell) ∧
       (t.port p).sends = l ∧ ((t.hart h).csr.evpend.getLsbD 2 = ((s.hart h).csr.evpend.getLsbD 2 || d.evt)) ∧
       (t.hart h).x = (s.hart h).x ∧ (t.hart h).pc = (s.hart h).pc ∧ (∀ g, g ≠ h → t.hart g = s.hart g) ∧ t.tiles = s.tiles)

/-- ACK counts the line as landed and completes its descriptor; REFUSE completes it with the reason's status; RETRY
and the resend time-out send the oldest message again, up to eight times, after which the port goes DOWN. GRANT
opens or credits a mirror window, by its generation adding to the credit or replacing it (R388); REVOKE closes
it; each enters the order in which numbers are acknowledged (R389). -/
def Obligations.AnswersGrantsAndRevokesAreTaken : Prop :=
  (∀ (p : Fin 4) (u : Unanswered) (d : SendDesc) (s : State), s.powered = true → (s.port p).state = .up →
     (s.port p).unanswered = [u] → (s.port p).txWait = [] → u.desc = some d.id → (s.port p).sends = [d] → d.phase = .sending →
     d.nextLine = d.nlines → d.outstanding = 1 → d.status = 0 →
     (∃ t, exec (.ack p u.msg.seq) s = .next t ∧ (t.port p).unanswered = [] ∧
       (t.port p).sends = [{ d with outstanding := 0, landed := d.landed + 1, phase := .complete
                                    status := if d.marked then 8 else 1 }] ∧ t = { s with nbr := t.nbr }) ∧
     (∀ why, why ≠ .retry → ∃ t, exec (.refuse p u.msg.seq why) s = .next t ∧ (t.port p).unanswered = [] ∧
       (t.port p).sends = [{ d with outstanding := 0, phase := .complete
                                    status := if why = .late then 2 else if why = .bound then 4 else 5 }] ∧
       t = { s with nbr := t.nbr }) ∧
     exec (.refuse p u.msg.seq .retry) s = .next (s.modPort p fun q => { q with retryPending := true }) ∧
     ((s.port p).retryPending = true → ∃ t, exec (.retryResend p) s = .next t ∧
       (t.port p).tx = (s.port p).tx ++ [u.msg] ∧ (t.port p).unanswered = [{ u with resends := u.resends + 1 }] ∧
       (t.port p).retryPending = false ∧ t.harts = s.harts ∧ t.ice = s.ice ∧ t.tiles = s.tiles) ∧
     (u.resends < 8 → ∃ t, exec (.resendTimeout p) s = .next t ∧ (t.port p).tx = (s.port p).tx ++ [u.msg] ∧
       (t.port p).unanswered = [{ u with resends := u.resends + 1 }] ∧ (t.port p).state = .up ∧ t.harts = s.harts ∧
       t.ice = s.ice ∧ t.tiles = s.tiles) ∧
     (8 ≤ u.resends → ∃ t, exec (.resendTimeout p) s = .next t ∧ (t.port p).state = .down ∧ (t.port p).cause = 1)) ∧
  (∀ (p : Fin 4) (w : Fin 64) (gen : BitVec 16) (lines : BitVec 20) (credit : BitVec 24) (s : State), s.powered = true →
     (s.port p).state = .up → (s.port p).sends = [] → (s.port p).unacked < 31 → (s.port p).arrivals.length < 128 →
     (s.port p).txWait = [] →
     (∃ t, exec (.grant p w gen lines (s.port p).rxSeq credit) s = .next t ∧
       t.port p = Port.settleAck { s.port p with
         rxSeq := (s.port p).rxSeq + 1, unacked := (s.port p).unacked + 1, ahead := (s.port p).ahead ++ [(s.port p).rxSeq]
         mirror := vset (s.port p).mirror w
           (if ((s.port p).mirror.get w).gen = gen ∧ ((s.port p).mirror.get w).isOpen = true then
             { (s.port p).mirror.get w with credit := addSat ((s.port p).mirror.get w).credit credit.toNat }
           else { isOpen := true, gen, lines, credit }) } ∧
       (∀ q, q ≠ p → t.port q = s.port q) ∧ t = { s with nbr := { s.nbr with ports := t.nbr.ports } }) ∧
     (∃ t, exec (.revoke p w gen (s.port p).rxSeq) s = .next t ∧
       t.port p = Port.settleAck { s.port p with
         rxSeq := (s.port p).rxSeq + 1, unacked := (s.port p).unacked + 1, ahead := (s.port p).ahead ++ [(s.port p).rxSeq]
         mirror := vset (s.port p).mirror w
           (if ((s.port p).mirror.get w).gen = gen then { (s.port p).mirror.get w with isOpen := false }
           else (s.port p).mirror.get w) } ∧
       (∀ q, q ≠ p → t.port q = s.port q) ∧ t = { s with nbr := { s.nbr with ports := t.nbr.ports } }) ∧
     ((s.port p).arrivals = [] → ∀ n, Port.settleAck { s.port p with ahead := (s.port p).ahead ++ [n] } =
       { s.port p with landed := n, ahead := [] }))

/-- HELLO takes a DOWN port to TEST with 64 ECHO messages sent; an ECHO of the partner, whose number is below 64, is
returned; the 64th own echo intact, whose number is 64 or higher, takes the port UP in the highest common
version or to NOVERS, and a missing one to DOWN. The HELLO timer sends the versions and the chip, die and block
numbers, and the ACK timer acknowledges the highest number that has landed. Which echoes are own is log entry
36, and that NEGOTIATING is passed within one command log entry 89. -/
def Obligations.PortComesUpThroughItsEchoes : Prop :=
  (∀ (p : Fin 4) (lo hi : Nat) (s : State), s.powered = true → (s.port p).state = .down →
    ∃ t, exec (.helloMsg p lo hi) s = .next t ∧ (t.port p).state = .test ∧ (t.port p).txSeq = 64 ∧
      (t.port p).rxSeq = 0 ∧ (t.port p).partnerLo = lo ∧ (t.port p).partnerHi = hi ∧
      (t.port p).tx = (s.port p).tx ++ (List.range 64).map (fun j =>
        { type := 7, seq := BitVec.ofNat 16 j, payload := (List.range 16).map (echoWord j) }) ∧
      (∀ q, q ≠ p → t.port q = s.port q) ∧ t = { s with nbr := { s.nbr with ports := t.nbr.ports } }) ∧
  (∀ (p : Fin 4) (seq : BitVec 16) (pl : Vector Word 16) (rtt : BitVec 20) (s : State), s.powered = true →
    (s.port p).state = .test → (s.port p).rxSeq = seq → (s.port p).unacked < 31 → (s.port p).arrivals.length < 128 →
    maySend s p →
    (seq.toNat < 64 → ∃ t, exec (.echo p seq pl rtt) s = .next t ∧ (t.port p).state = .test ∧
      (t.port p).tx = (s.port p).tx ++ [{ type := 7, seq := (s.port p).txSeq, payload := pl.toList }]) ∧
    (64 ≤ seq.toNat → pl.toList = (List.range 16).map (echoWord (s.port p).echoes) → (s.port p).echoes = 63 →
      ∃ t, exec (.echo p seq pl rtt) s = .next t ∧ (t.port p).rtt = rtt ∧
        (match commonVersion (s.versEn p) (s.port p).partnerLo (s.port p).partnerHi with
         | some v => (t.port p).state = .up ∧ (t.port p).ver = BitVec.ofNat 2 v ∧ (t.port p).txSeq = 0 ∧
             (t.port p).rxSeq = 0
         | none => (t.port p).state = .novers) ∧ t.harts = s.harts ∧ t.ice = s.ice ∧ t.tiles = s.tiles) ∧
    (∃ t, exec (.echoTimeout p) s = .next t ∧ (t.port p).state = .down ∧ (t.port p).failReported = true ∧
      t.harts = s.harts ∧ t.ice = s.ice ∧ t.tiles = s.tiles)) ∧
  (∀ (p : Fin 4) (s : State), s.powered = true → (s.port p).state = .down ∨ (s.port p).state = .up →
    exec (.helloTimer p) s = .next (s.modPort p fun q => { q with tx := q.tx ++
      [{ type := 6, payload := [BitVec.ofNat 32 (versRange (s.versEn p)).1, BitVec.ofNat 32 (versRange (s.versEn p)).2,
        Config.chipNumber, Config.dieNumber, Config.blockNumber] }] })) ∧
  (∀ (p : Fin 4) (s : State), s.powered = true → (s.port p).state = .up ∨ (s.port p).state = .test → (s.port p).unacked ≠ 0 →
    exec (.ackTimer p) s = .next (s.modPort p fun q =>
      { q with tx := q.tx ++ [{ type := 2, seq := (s.port p).landed }], unacked := 0 }))

/-- Silence takes an UP port, and the DOWN command a connected port of every state but DOWN (log entry 93), to DOWN
with their cause: descriptors complete with DOWN, the mirror is empty, bound windows are closing, and the other
ports keep state, mirror and sends. RETRY leaves NOVERS; the STOP code stops the writer's descriptors of the
port, those whose words are still being read among them, which then enter the queue stopped. -/
def Obligations.PortGoesDown : Prop :=
  (∀ (p : Fin 4) (s : State), s.powered = true → (s.port p).state = .up →
    ∃ t, exec (.portSilence p) s = .next t ∧ lostPort p 2 s t) ∧
  (∀ (r : Reader) (p : Fin 4) (s : State), s.canAct r = true → s.privileged r = true → (s.port p).state ≠ .absent →
    (s.port p).state ≠ .down →
    ∃ t, exec (.portDownCmd r p) s = .next t ∧ lostPort p 3 s t) ∧
  (∀ (r : Reader) (p : Fin 4) (s : State), s.canAct r = true → s.privileged r = true → (s.port p).state = .novers →
    exec (.portRetryCmd r p) s = .next (s.modPort p fun q => { q with state := .down })) ∧
  (∀ (r : Reader) (p : Fin 4) (s : State), s.canAct r = true →
    ∃ t, exec (.nbrSendStop r p) s = .next t ∧
      (∀ (i : Nat) (a : SendRead), t.nbr.reading[i]? = some a → a.who = r → a.quiet = true ∧ p ∈ a.stops) ∧
      t.nbr.reading.map (fun a => (a.addr, a.who, a.sb)) = s.nbr.reading.map (fun a => (a.addr, a.who, a.sb)) ∧
      (∀ a, a.who ≠ r → (a ∈ t.nbr.reading ↔ a ∈ s.nbr.reading)) ∧
      (t.port p).sends = (s.port p).sends.map (fun d => if d.who = r ∧ d.bond = false then d.stopped else d) ∧
      (∀ q, q ≠ p → t.port q = s.port q) ∧ t.nbr.regs = (s.modNbrRegs r fun g => { g with sstat := 0 }).nbr.regs ∧
      t = { s with nbr := { s.nbr with ports := t.nbr.ports, regs := t.nbr.regs, reading := t.nbr.reading } }) ∧
  (∀ (r : Reader) (a : SendRead) (p : Fin 4) (d : SendDesc) (s : State), s.up p = true → (s.port p).sends.length < 16 →
    (s.queueSend a p d).port p = { s.port p with sends := (s.port p).sends ++ [if p ∈ a.stops then d.stopped else d] } ∧
    (a.who = r → ((s.queueSend a p d).nbr.regs.get r).sstat = if a.quiet = true then (s.nbr.regs.get r).sstat else 0))

/-- Each of the 33 order commands that orderCode names replies to a front order of its operation that is refused,
with the refusal's code and no other effect. A reply writes the header with RSP, TAG, STATUS and JOB and its
words to the next free slots, advances OPROD past them and raises the notification line, and leaves every other
slot and hod as it was; on a hod of version 1 it is the first slot alone (R422), and in a recovery there is none
(R473). -/
def Obligations.OrdersAreRefusedAndRepliedTo : Prop :=
  (∀ (c : Instr) (op : BitVec 8) (o : Order) (r : List Order) (st : BitVec 16) (s : State), orderCode c = some op →
     s.hods.orders = o :: r → o.op = op → s.serving = true → orderHeld c s = false →
     ({ s with hods := { s.hods with orders := r } } : State).refusal o = some st →
     exec c s = .next (({ s with hods := { s.hods with orders := r } } : State).answer o st)) ∧
  (∀ (o : Order) (st : BitVec 16) (ws : List Word) (n : Nat) (s : State), s.slotsCanonical → ws.length ≤ 61 →
    s.err.stat ≠ .recovering → (s.hods.hod.get o.hod).neg = 2 ∨ ws.length ≤ 13 →
    (∀ q ∈ s.hods.outQ, q.1 ≠ o.hod) → n = (3 + ws.length + 15) / 16 →
    ((s.hods.hod.get o.hod).oprod - (s.hods.hod.get o.hod).ocons).toNat + n ≤ 64 →
    let d := s.hods.hod.get o.hod
    let t := s.answer o st ws
    let msg : List Word := (o.tag ++ (0 : BitVec 5) ++ BitVec.ofNat 2 (n - 1) ++ (1 : BitVec 1) ++ o.op) ::
      (st ++ (0 : BitVec 12) ++ d.neg) :: ((0 : BitVec 16) ++ o.job) :: ws
    (t.hods.hod.get o.hod).oprod = d.oprod + BitVec.ofNat 32 n ∧ (t.hods.hod.get o.hod).notify = true ∧
      (∀ k < 16 * n, sget 0 (t.hods.hod.get o.hod).outSlots ((d.oprod.toNat % 64 * 16 + k) % 1024) = msg.getD k 0) ∧
      (∀ i, (∀ k < 16 * n, i ≠ (d.oprod.toNat % 64 * 16 + k) % 1024) →
        sget 0 (t.hods.hod.get o.hod).outSlots i = sget 0 d.outSlots i) ∧
      (∀ h, h ≠ o.hod → t.hods.hod.get h = s.hods.hod.get h) ∧
      t = { s with hods := { s.hods with hod := t.hods.hod } }) ∧
  (∀ (o : Order) (st : BitVec 16) (ws : List Word) (s : State),
    ((s.hods.hod.get o.hod).neg ≠ 2 → s.answer o st ws = s.answer o st (ws.take 13)) ∧
    (s.err.stat = .recovering → s.answer o st ws = s))

/-- Each of these orders, served at the front of its hod, has the effect of its rule and gets the reply of its rule:
RELEASE returns a STOPPED engine with enough healthy lane groups and no sparing to running, is BUSY otherwise,
and in a running engine DONE without effect; claimed resources are CONFLICT; FENCE waits for the open orders of
its job. That register orders act as hart 0 in machine mode is log entry 116, CALIB on when on log entry 117,
and the words of STATUS log entry 118. -/
def Obligations.ControlAndRegisterOrdersAct : Prop :=
  (∀ (o : Order) (op : BitVec 8) (s t : State), s.serves o op t →
     (op = 0x01 →
       (∀ v : Nat, (v = 2 ∨ v = 1 ∧ ¬((t.hods.hod.get o.hod).versEn.getLsbD 1 = true ∧ (o.w 3).toNat ≤ 2 ∧ 2 ≤ (o.w 4).toNat)) →
         (t.hods.hod.get o.hod).versEn.getLsbD (v - 1) = true → (o.w 3).toNat ≤ v → v ≤ (o.w 4).toNat →
         exec .ordHello s =
           .next ((t.modHod o.hod fun d => { d with neg := BitVec.ofNat 4 v }).answer o 0 [BitVec.ofNat 32 v])) ∧
       ((∀ v, v = 1 ∨ v = 2 → ¬((t.hods.hod.get o.hod).versEn.getLsbD (v - 1) = true ∧ (o.w 3).toNat ≤ v ∧ v ≤ (o.w 4).toNat)) →
         exec .ordHello s = .next (t.answer o 3))) ∧
     (op = 0x04 → ∃ u : State, exec .ordHalt s = .next (u.answer o 0) ∧ u = { t with harts := u.harts } ∧
       ∀ h, u.hart h = if (o.w 3).getLsbD h.val then { t.hart h with halted := true } else t.hart h) ∧
     (op = 0x05 → 8 ≤ t.boot.stage.toNat → ∃ u : State, exec .ordRun s = .next (u.answer o 0) ∧ u = { t with harts := u.harts } ∧
       ∀ h, u.hart h = if (o.w 3).getLsbD h.val then { t.hart h with halted := false } else t.hart h) ∧
     (op = 0x03 →
       (t.err.stat ≠ .stopped → exec .ordRelease s = .next (t.answer o 0)) ∧
       (t.err.stat = .stopped → Config.groups t.cfg ≤ t.healthyLanes → t.ice.sparing = [] →
         exec .ordRelease s = .next (({ t with err := { t.err with stat := .running } } : State).answer o 0)) ∧
       (t.err.stat = .stopped → t.healthyLanes < Config.groups t.cfg ∨ t.ice.sparing ≠ [] →
         exec .ordRelease s = .next (t.answer o 7))) ∧
     (op = 0x06 →
       ((o.w 3).getLsbD 0 = false → exec .ordCalib s =
         .next ((({ t with cal := { t.cal with on := false } } : State).modTimer 3 fun m =>
           { m with en := false, frost := false, owned := false, owner := 0 }).answer o 0)) ∧
       ((o.w 3).getLsbD 0 = true → t.cal.on = false → (t.ks.timers.get 3).owned = false → exec .ordCalib s =
         .next ((({ t with cal := { t.cal with on := true } } : State).modTimer 3 fun m =>
           { m with en := true, frost := true, owned := false, owner := 0, count := 2000, reload := 2000
                    since := t.time }).answer o 0)) ∧
       ((o.w 3).getLsbD 0 = true → t.cal.on = false → (t.ks.timers.get 3).owned = true →
         ∃ u : State, exec .ordCalib s = .next (u.answer o 8) ∧ u.ks.confReason = 3 ∧ u.ks.confV = true ∧
           u = { t with ks := u.ks } ∧
             u.ks = { t.ks with confReg := u.ks.confReg, confReason := 3, confSrc := 16, confV := true })) ∧
     (op = 0x0A → ∀ (n : Fin 16) (code : BitVec 8),
       ((t.obs.out.get n).src = 2 → ∃ u : State, exec (.ordObssel [(n, code)]) s = .next (u.answer o 8) ∧ u.obs = t.obs ∧
         u.ks.confReason = 4 ∧ u.ks.confV = true) ∧
       ((t.obs.out.get n).src ≠ 2 → obsCode code = true → exec (.ordObssel [(n, code)]) s =
         .next (({ t with obs := { t.obs with
           out := vmod t.obs.out n fun x => { x with code, src := if code = 0 then 0 else 1 } } } : State).answer o 0))) ∧
     (op = 0x06 → (o.w 3).getLsbD 0 = true → t.cal.on = true → exec .ordCalib s = .next (t.answer o 0)) ∧
     (op = 0x44 → exec .ordStatus s = .next (t.answer o 0 t.statusWords))) ∧
  (∀ (o : Order) (op : BitVec 8) (s t : State), s.serves o op t →
     (op = 0x42 → ∀ addr : Word, addr.toNat % 4 = 0 →
       (addr.extractLsb' 16 16 = 0x0100 → exec (.ordRegRead addr) s =
         .next ((t.readEffect 0 (addr.extractLsb' 0 16)).answer o 0 [t.readReg 0 (addr.extractLsb' 0 16)])) ∧
       (∀ d, addr.toNat < 0x80000 → sget 0 t.ks.store (addr.toNat / 4) = encodeClean d →
         exec (.ordRegRead addr) s = .next (t.answer o 0 [d]))) ∧
     (op = 0x43 →
       (∀ v : Word, exec (.ordRegWrite 0x624 v) s =
         .next (({ t with drf := { t.drf with vers := v.extractLsb' 0 2 } } : State).answer o 0)) ∧
       (∀ (v : Word) (w : Fin 64), v.extractLsb' 4 2 = 1 → (t.win w).isOpen = true → (t.win w).port = (v.extractLsb' 0 2).toFin →
         ∃ u : State, exec (.ordRegWrite 0x1074 v) s = .next (u.answer o 8) ∧ u.nbr = t.nbr ∧ u.ks.confReason = 5 ∧
           u.ks.confReg = 0x1074 ∧ u.ks.confSrc = 0 ∧ u.ks.confV = true)) ∧
     (op = 0x31 → (∀ p ∈ t.hods.openOrders, p.op ≠ 0x31 ∧ p.id ≠ t.hods.nextOrder) →
       let u : State := { t with hods := { t.hods with nextOrder := t.hods.nextOrder + 1 } }
       ((∀ p ∈ t.hods.openOrders, p.job ≠ o.job) → exec .ordFence s = .next (u.answer o 0)) ∧
       ((∃ p ∈ t.hods.openOrders, p.job = o.job) → exec .ordFence s = .next { u with hods := { u.hods with
         openOrders := t.hods.openOrders ++
           [{ id := t.hods.nextOrder, hod := o.hod, op := o.op, tag := o.tag, job := o.job }] } })))

/-- The twelve compute orders are refused PARAM for a bad shape, bond, split or list of operations and EPOCH for a
weight epoch that no floe holds, and BUSY while a hart of their kernel is not idle; otherwise they open with
their tile plan, the courses or vector operations that count for them, for ATTN_FWD with the blocks that the
order's addresses name, and their kernel, and without a reply. Once their work is done they end with the summary
of the order's own last course or output instruction, their tile count, and DONE, MARKED or the status of the
course's outcome. The shapes of eleven come with the commands (log entry 61); ATTN_FWD takes its own from the
order's words, with the folding and FMTO of log entry 165; a split is 1 to 15 (log entry 119); whose summary the
reply takes is log entry 107. -/
def Obligations.ComputeOrdersOpenAndEnd : Prop :=
  (∀ (sh : OrderShape) (bond : BitVec 4) (split : Nat) (ops : List XInstr),
    let rows := if sh.causal then sh.m else sh.m * sh.fold
    let rowTiles := (rows + 63) / 64
    let held : OrderWork := { bonds := [], n := some sh.n, k := some sh.k, s := sh.strict, sat := sh.sat }
    let badSplit := split == 0 || decide (15 < split)
    startsOrder (.ordAttnBwd sh) 0x23 sh false sh.outTiles
      (some { bonds := [0, 7], s := sh.strict, sat := sh.sat, causal := sh.causal, mask := sh.mask,
              shapes := [(7, sh.n, sh.k), (0, sh.k, sh.n), (0, sh.k, rows)] }) [] ∧
    startsOrder (.ordMatmul sh bond) 0x24 sh (!([0, 1, 2, 8, 11, 12] : List (BitVec 4)).contains bond)
      (if bond = 8 then sh.outTiles else rowTiles * ((sh.n + 63) / 64)) (some { held with bonds := [bond] }) [] ∧
    startsOrder (.ordMoeRoute sh) 0x25 sh false sh.outTiles none [0x06, 0x2C] ∧
    startsOrder (.ordMoeCombine sh) 0x26 sh false sh.outTiles none [0x06, 0x14, 0x1B] ∧
    startsOrder (.ordMaskMaint sh) 0x27 sh false sh.outTiles none [0x06, 0x20, 0x21, 0x22, 0x23, 0x24, 0x25] ∧
    startsOrder (.ordSample sh split) 0x28 sh badSplit rowTiles (some { held with bonds := [9, 15] }) [] ∧
    startsOrder (.ordScore sh split) 0x29 sh badSplit rowTiles (some { held with bonds := [10, 15] }) [] ∧
    startsOrder (.ordRlLoss sh split) 0x2A sh badSplit rowTiles (some { held with bonds := [14, 15] }) [] ∧
    startsOrder (.ordElemwise sh ops) 0x2B sh (ops.isEmpty || decide (8 < ops.length) || !ops.all elementWise) sh.outTiles
      none (0x06 :: ops.map (·.op)) ∧
    startsOrder (.ordReduce sh) 0x2C sh false sh.outTiles none
      [0x06, 0x10, 0x11, 0x12, 0x13, 0x14, 0x15, 0x16, 0x17] ∧
    startsOrder (.ordSortset sh) 0x2D sh false sh.outTiles none [0x06, 0x26, 0x27, 0x28, 0x29, 0x2A, 0x2B]) ∧
  (∀ (stream : Nat) (kernel : List Hart) (f g : Fmt) (plan : List Nat) (o : Order) (s t : State), s.serves o 0x22 t →
    let w := o.w 10
    let heads := ((o.w 14).extractLsb' 0 16).toNat * ((o.w 14).extractLsb' 16 16).toNat
    let hdim := (w.extractLsb' 0 12).toNat
    let folds := !w.getLsbD 22 && o.w 15 == 0
    let rows := if folds then (o.w 8).toNat * heads else (o.w 8).toNat
    Fmt.ofCode (w.extractLsb' 12 4) = some f → f ∉ ([.int4, .fp4, .e8m0] : List Fmt) →
    Fmt.ofCode (w.extractLsb' 16 4) = some g → g ∈ ([.bf16, .fp16, .fp32] : List Fmt) → w.extractLsb' 25 7 = 0 →
    0 < rows → 0 < heads → o.w 9 ≠ 0 → 0 < hdim → o.wepoch (t.negOf o) = 0xFFFF → t.mayRun kernel = true →
    tilePlan rows (o.w 9).toNat hdim (tileWords f 0) stream = some plan →
    exec (.ordAttnFwd stream kernel) s = .next (openedCompute o plan
      ((if folds then 1 else heads) * ((rows + 63) / 64) * ((hdim + 63) / 64))
      (some { bonds := [if w.getLsbD 24 then 6 else 5], m := if folds then none else some (o.w 8).toNat
              n := some (o.w 9).toNat, k := some hdim, s := w.getLsbD 20, sat := w.getLsbD 21
              fmto := some (w.extractLsb' 16 4), causal := w.getLsbD 22, mask := w.getLsbD 23, offset := some (o.w 11)
              tau := some (o.w 12), fmt := some f
              blocks := if folds ∨ heads = 1 then some #v[o.w 3, o.w 4, o.w 5, o.w 6, o.w 7, o.w 13] else none }) kernel [] t)) ∧
  (∀ (sh : OrderShape) (bond : BitVec 4) (split stream : Nat) (ops : List XInstr) (kernel : List Hart) (c : Instr)
       (op : BitVec 8) (o : OpenOrder) (sum : DWord) (code : BitVec 4) (s : State),
     (c, op) ∈ ([(.ordAttnFwd stream kernel, 0x22), (.ordAttnBwd sh, 0x23), (.ordMatmul sh bond, 0x24), (.ordMoeRoute sh, 0x25),
       (.ordMoeCombine sh, 0x26), (.ordMaskMaint sh, 0x27), (.ordSample sh split, 0x28), (.ordScore sh split, 0x29),
       (.ordRlLoss sh split, 0x2A), (.ordElemwise sh ops, 0x2B), (.ordReduce sh, 0x2C), (.ordSortset sh, 0x2D)] :
         List (Instr × BitVec 8)) →
     (∀ p r, s.hods.orders = p :: r → p.op ≠ op) → s.serving = true →
     s.hods.openOrders.find? (fun p => p.op == op && s.workDone p) = some o → o.last = some (sum, code) →
     exec c s = .next (endedCompute o sum code s))

/-- For every shape: no plan when one tile of B does not fit the stream floe, one slot of one tile when two do not
fit, and otherwise two slots of the largest power of two of reduction tiles that fits twice, with the tile
counts rounded up. -/
def Obligations.TilePlanTakesTheDeepestRingThatFits : Prop :=
  ∀ m n k tw stream : Nat, 0 < k → k < 2 ^ 32 → 0 < tw →
    (stream < tw → tilePlan m n k tw stream = none) ∧
    (tw ≤ stream → stream < 2 * tw → tilePlan m n k tw stream = some [(m + 63) / 64, (n + 63) / 64, (k + 63) / 64, 1, 1]) ∧
    (2 * tw ≤ stream → ∃ j, tilePlan m n k tw stream = some [(m + 63) / 64, (n + 63) / 64, (k + 63) / 64, 2 ^ j, 2] ∧
      2 ^ j ≤ (k + 63) / 64 ∧ 2 * 2 ^ j * tw ≤ stream ∧
      ∀ i, 2 ^ i ≤ (k + 63) / 64 → 2 * 2 ^ i * tw ≤ stream → i ≤ j)

/-- MOVE starts its chain for the order, BUSY or PARAM without a free channel; ICE_READ and ICE_WRITE run one
descriptor of one row that copies words (log entry 115); FLOE_SET opens with its commit running and replies the
commit's code (log entry 140); WEIGHT_PUSH gives its channel to the lowest idle hart (log entry 167) and clears
the floe's epoch first, after the requests that read it have ended (its reply is log entry 82's); a WINDOW
credit sends its GRANT and is replied to at once, and CLOSE and CREDIT of a closed window are refused PARAM with
the code 5. -/
def Obligations.WorkOrdersStartTheirUnits : Prop :=
  (∀ (list : BitVec 48) (ch : BitVec 5) (o : Order) (s t : State), s.serves o 0x2E t →
    (t.hasCh ch.toNat = false → exec (.ordMove list ch) s = .next (t.answer o 5)) ∧
    (t.hasCh ch.toNat = true → t.chanFree ch = false → exec (.ordMove list ch) s = .next (t.answer o 7)) ∧
    (t.hasCh ch.toNat = true → t.chanFree ch = true → ∃ u : State, exec (.ordMove list ch) s = .next u ∧
      u.hods.openOrders = t.hods.openOrders ++
        [{ id := t.hods.nextOrder, hod := o.hod, op := o.op, tag := o.tag, job := o.job, chans := [ch.toFin] }] ∧
      (u.chan ch.toFin).state = 1 ∧ (u.chan ch.toFin).listIce = false ∧
      (u.chan ch.toFin).listAddr = list.toNat / 64 * 64 ∧ (u.chan ch.toFin).bases = {} ∧
      (u.chan ch.toFin).order = some t.hods.nextOrder ∧ (u.chan ch.toFin).set = none ∧
      (∀ d, d ≠ ch.toFin → u.chan d = t.chan d) ∧ u.ice = t.ice ∧ u.harts = t.harts ∧ u.tiles = t.tiles)) ∧
  (∀ (store : Bool) (c : Instr) (ice : Word) (words : Nat) (fab : BitVec 48) (ch : BitVec 5) (o : Order) (p : Bool)
      (s t : State),
    (store, c) ∈ [(true, Instr.ordIceRead ice words fab ch), (false, Instr.ordIceWrite ice words fab ch)] →
    s.serves o (if store then 0x40 else 0x41) t → t.hasCh ch.toNat = true → t.chanFree ch = true → words ≠ 0 →
    words ≤ 16384 →
    let d : Desc := { ver := if t.drf.vers.getLsbD 1 then 3 else 2, dir := if store then 1 else 0, sfmt := Fmt.int32.code
                      dfmt := Fmt.int32.code, last := true, faddr := fab, iaddr := ice, ncol := words, nrow := 1
                      frs := words, irs := words }
    let x := chainOf (t.chan ch.toFin) t.hods.nextOrder
    (t.modCh ch.toFin fun _ => x).checkDescs ch.toFin x 1 0 false [d] = ([d], none, p) →
    (t.modCh ch.toFin fun _ => x).setRanges ch.toFin [d] ≠ [] → (∀ a ∈ t.ice.sb.alloc, a.id ≠ t.ice.sb.nextId) →
    ∃ u : State, exec c s = .next u ∧
      u.hods.openOrders = t.hods.openOrders ++
        [{ id := t.hods.nextOrder, hod := o.hod, op := o.op, tag := o.tag, job := o.job, chans := [ch.toFin] }] ∧
      (u.chan ch.toFin).state = 1 ∧ (u.chan ch.toFin).order = some t.hods.nextOrder ∧
      (u.chan ch.toFin).set = some { descs := [d], chainEnd := true, sb := some t.ice.sb.nextId } ∧
      (∀ k, k ≠ ch.toFin → u.chan k = t.chan k) ∧ u.ice.cells = t.ice.cells ∧ u.harts = t.harts ∧ u.tiles = t.tiles) ∧
  (∀ (f : Fin 64) (e : Vector Word 8) (o : Order) (s t : State), s.serves o 0x20 t →
    (∀ p ∈ t.hods.openOrders, p.id ≠ t.hods.nextOrder) →
    (∀ code, t.commitCheck f (floeReserved e) (FloeEntry.ofWords e) = some code →
      exec (.ordFloeSet f e) s = .next (({ t with hods := { t.hods with nextOrder := t.hods.nextOrder + 1 } } : State).setFstat 0
        code |>.answer o (if code = 7 then 7 else 5) [code.setWidth 32])) ∧
    (t.commitCheck f (floeReserved e) (FloeEntry.ofWords e) = none →
      ∃ u : State, exec (.ordFloeSet f e) s = .next u ∧
        u.ice.commit.map (fun c => (c.floe, c.entry, c.order)) = some (f, FloeEntry.ofWords e, some t.hods.nextOrder) ∧
        u.hods.openOrders = t.hods.openOrders ++ [{ id := t.hods.nextOrder, hod := o.hod, op := o.op, tag := o.tag, job := o.job }] ∧
        u.ice.floes = t.ice.floes ∧ u.ice.cells = t.ice.cells ∧ u.harts = t.harts ∧ u.tiles = t.tiles)) ∧
  (∀ (f : Fin 64) (list : BitVec 48) (ch : BitVec 5) (h : Hart) (o : Order) (s t : State), s.serves o 0x21 t →
    (∀ p ∈ t.hods.openOrders, p.id ≠ t.hods.nextOrder) →
    (t.floe f).used = true → o.wepoch (t.negOf o) ≠ 0xFFFF → t.hasCh ch.toNat = true → t.chanFree ch = true →
    t.idleHart h = true → (∀ g : Hart, g < h → t.idleHart g = false) →
    let asked : OpenOrder := { id := t.hods.nextOrder, hod := o.hod, op := o.op, tag := o.tag, job := o.job, floe := f
                               wepoch := o.wepoch (t.negOf o), list, chans := [ch.toFin] }
    ∃ u : State, exec (.ordWeightPush f list ch) s = .next u ∧
      u.chan ch.toFin = { t.chan ch.toFin with owner := h } ∧ (∀ c, c ≠ ch.toFin → u.chan c = t.chan c) ∧
      u.ice.floes = t.ice.floes ∧ u.harts = t.harts ∧ u.tiles = t.tiles ∧
      (t.epochRead (t.floe f).wepoch = true → u.ice = t.ice ∧ u.hods.openOrders = t.hods.openOrders ++ [asked]) ∧
      (t.epochRead (t.floe f).wepoch = false →
        t.commitCheck f (floeReserved ({ t.floe f with wepoch := 0xFFFF } : FloeEntry).toWords)
          (FloeEntry.ofWords ({ t.floe f with wepoch := 0xFFFF } : FloeEntry).toWords) = none →
        u.ice.commit.map (fun c => (c.floe, c.entry.wepoch, c.order)) = some (f, 0xFFFF, some t.hods.nextOrder) ∧
          u.hods.openOrders = t.hods.openOrders ++ [{ asked with phase := 1 }])) ∧
  (∀ (w : Fin 64) (g : Vector Word 4) (credit : BitVec 24) (o : Order) (s t : State), s.serves o 0x2F t →
    (∀ p ∈ t.hods.openOrders, p.id ≠ t.hods.nextOrder) → (t.win w).isOpen = true →
    (t.port (t.win w).port).state = .up → (t.port (t.win w).port).unanswered.length < 32768 →
    (t.port (t.win w).port).txWait = [] → (∀ c ∈ t.nbr.closers, c.2.1 ≠ some 0) →
    ∃ u : State, exec (.ordWindow .credit w g credit) s = .next (u.answer o 0 [0]) ∧
      u.win w = { t.win w with granted := addSat (t.win w).granted credit.toNat } ∧
      (u.port (t.win w).port).tx = (t.port (t.win w).port).tx ++
        [{ type := 4, win := BitVec.ofNat 6 w.val, gen := (t.win w).gen, line := (t.win w).lines
           seq := (t.port (t.win w).port).txSeq, credit }] ∧
      (u.nbr.regs.get 0).wstat = 0 ∧
      u = { t with nbr := u.nbr, hods := { t.hods with nextOrder := t.hods.nextOrder + 1 } }) ∧
  (∀ (w : Fin 64) (g : Vector Word 4) (credit : BitVec 24) (o : Order) (s t : State), s.serves o 0x2F t →
    s.courseUses w = false →
    (∀ p ∈ t.hods.openOrders, p.id ≠ t.hods.nextOrder) → (t.win w).isOpen = false → (∀ c ∈ t.nbr.closers, c.2.1 ≠ some 0) →
    ∀ op ∈ ([.close, .credit] : List WindowOp), exec (.ordWindow op w g credit) s = .next
      ((({ t with hods := { t.hods with nextOrder := t.hods.nextOrder + 1 } } : State).setWstat 0 5).answer o 5 [5]))

/-- KILL halts the harts of its job's calls and stops its channels, course and reads of send descriptors (whose
these are is log entry 109, the reads log entry 137); once drained it replies KILLED to the open order and DONE,
and the job is refused from then on. PAGE_DONE resumes the halted channel, or, like the time-out, stops it so
that its order ends with BOUND or TIMEOUT; an unknown tag is PARAM (log entry 110). -/
def Obligations.KillsAndPageAnswersEndWork : Prop :=
  (∀ (o : Order) (s t : State), s.serves o 0x02 t →
    ∃ u : State, exec .ordKill s = .next u ∧ u.hods.kills = t.hods.kills ++ [(o.job, t.hods.nextOrder)] ∧
      u.hods.openOrders = t.hods.openOrders ++
        [{ id := t.hods.nextOrder, hod := o.hod, op := o.op, tag := o.tag, job := o.job }] ∧
      (∀ h, u.hart h = if ∃ c ∈ t.hods.calls, (o.job = 0xFFFF ∨ o.job = c.job) ∧ h ∈ c.harts then
          { t.hart h with halted := true }
        else t.hart h) ∧
      (∀ c, u.chan c = if c ∈ t.jobChans o.job ∧
            ((t.chan c).state = 1 ∨ (t.chan c).state = 4 ∨ (t.chan c).state = 5) then
          { t.chan c with stopping := true }
        else t.chan c) ∧
      (∀ r, t.mortar.run = some r → u.mortar.run = some (if readerIn (t.jobHarts o.job) r.who then
          { r with stopping := true, status := if r.finished = true ∧ r.status = 1 then 7 else r.status }
        else r)) ∧
      (∀ a, a ∈ u.nbr.reading ↔ a ∈ t.nbr.reading ∧ readerIn (t.jobHarts o.job) a.who = false) ∧
      u.tiles = t.tiles ∧ u.ice.cells = t.ice.cells ∧ u.ice.floes = t.ice.floes ∧ u.hods.hod = t.hods.hod) ∧
  (∀ (k : BitVec 16) (n : Nat) (p q : OpenOrder) (s : State), s.serving = true → s.hods.kills = [(k, n)] →
    s.drained k = true → k ≠ 0xFFFF → k ∉ s.hods.killed → s.hods.verifying = none →
    (∀ c ∈ s.hods.calls, c.job ≠ k) → p.imageSb = none →
    s.hods.openOrders.filter (fun r => r.job == k && r.op != 0x02) = [p] → (s.endOrder p 9 []).orderOf n = some q →
    exec .ordKillDrained s = .next (({ s.endOrder p 9 [] with
      hods := { (s.endOrder p 9 []).hods with kills := [], killed := s.hods.killed ++ [k] } } : State).endOrder q 0 [])) ∧
  (∀ (c : Fin 32) (p : OpenOrder) (rtag : BitVec 16) (s : State), s.powered = true → s.hods.pageReqs = [(c, rtag)] →
     (s.chan c).state = 5 → (s.chan c).order = some p.id → s.hods.openOrders = [p] →
     (∃ u : State, exec (.pageTimeout c) s = .next u ∧ u.hods.pageReqs = [] ∧ u.hods.openOrders = [{ p with ending := some 0x0E }] ∧
       u.chan c = { s.chan c with stopping := true } ∧ (∀ d, d ≠ c → u.chan d = s.chan d) ∧
       u = { s with hods := u.hods, drf := u.drf }) ∧
     (∀ (o : Order) (t : State), s.serves o 0x07 t →
       (o.tag ≠ rtag → ∀ b, exec (.ordPageDone b) s = .next (t.answer o 5)) ∧
       (o.tag = rtag → exec (.ordPageDone false) s = .next ((t.resumeCh c).pruneCycles.answer o 0) ∧
         ∃ u : State, exec (.ordPageDone true) s = .next (u.answer o 0) ∧ u.hods.pageReqs = [] ∧
           u.hods.openOrders = [{ p with ending := some 0x0C }] ∧ u.chan c = { t.chan c with stopping := true } ∧
           (∀ d, d ≠ c → u.chan d = t.chan d))))

/-- LOAD_EXT opens with one descriptor that copies its image to a staging floe, or is BUSY (log entry 111); the
copied image is read through one scalar access of hart 0 over its range, which waits for a revival and is BOUND
where a word is gone (log entry 188), and is then PARAM, BUSY or under verification; EXT_VERIFIED places code,
data and zeros in the local store or replies AUTH; EXT_CALL copies its parameter words, puts its hart at the
entry in user mode with their address, leases its register and gives it its channel (the dealing is log entry
114); its ECALL halts it and begins to return them, and the reply follows when they are stopped and free (log
entry 137); DROP_EXT forgets an idle one, is BUSY for a called and PARAM for an unknown one (log entry 112). -/
def Obligations.ExtensionsLoadRunAndEnd : Prop :=
  (∀ (f : Fin 64) (words : Nat) (ch : BitVec 5) (p : Bool) (o : Order) (s t : State), s.serves o 0x08 t →
    (∀ q ∈ t.hods.openOrders, q.op ≠ 0x08) →
    (t.chanFree ch = false ∨ words = 0 ∨ (t.floe f).used = false ∨
        (t.floe f).res.toNat * 1024 < 16 * ((words + 15) / 16) → exec (.ordLoadExt f words ch) s = .next (t.answer o 7)) ∧
    (t.chanFree ch = true → 0 < words → (t.floe f).used = true → 16 * ((words + 15) / 16) ≤ (t.floe f).res.toNat * 1024 →
      let d : Desc := { ver := if t.drf.vers.getLsbD 0 then 2 else 3, dir := 0, sfmt := Fmt.int32.code, dfmt := Fmt.int32.code
                        last := true, faddr := (o.w 4).extractLsb' 0 16 ++ o.w 3
                        iaddr := BitVec.ofNat 6 f.val ++ BitVec.ofNat 26 (t.floe f).window.1
                        ncol := 16, nrow := (words + 15) / 16, frs := 16, irs := 16 }
      let x := chainOf (t.chan ch.toFin) t.hods.nextOrder
      (t.modCh ch.toFin fun _ => x).checkDescs ch.toFin x 1 0 false [d] = ([d], none, p) →
      (t.modCh ch.toFin fun _ => x).setRanges ch.toFin [d] ≠ [] → (∀ a ∈ t.ice.sb.alloc, a.id ≠ t.ice.sb.nextId) →
      ∃ u : State, exec (.ordLoadExt f words ch) s = .next u ∧
        u.hods.openOrders = t.hods.openOrders ++
          [{ id := t.hods.nextOrder, hod := o.hod, op := o.op, tag := o.tag, job := o.job, floe := f, image := words
             chans := [ch.toFin] }] ∧
        (u.chan ch.toFin).state = 1 ∧ (u.chan ch.toFin).order = some t.hods.nextOrder ∧
        (u.chan ch.toFin).set = some { descs := [d], chainEnd := true, sb := some t.ice.sb.nextId } ∧
        (∀ k, k ≠ ch.toFin → u.chan k = t.chan k) ∧ u.ice.cells = t.ice.cells ∧ u.hods.verifying = t.hods.verifying)) ∧
  (∀ (c : Fin 32) (o : OpenOrder) (s : State), (s.chan c).order = some o.id → (s.chan c).state = 2 →
    s.err.stat ≠ .recovering → s.orderOf o.id = some o → o.op = 0x08 → o.ending = none →
    (s.chainOrder c).ice.sb.waiting = s.ice.sb.waiting ++
        [{ id := s.ice.sb.nextId, who := .scalar 0
           ranges := [{ lo := (s.floe o.floe).window.1, hi := (s.floe o.floe).window.1 + o.image - 1, write := false }] }] ∧
      (s.chainOrder c).orderOf o.id = some { o with imageSb := some s.ice.sb.nextId } ∧
      (s.chainOrder c).ice.cells = s.ice.cells ∧ (s.chainOrder c).harts = s.harts) ∧
  (∀ (id : Nat) (h : Hart) (a : Access) (o : OpenOrder) (s : State), s.powered = true →
    s.ice.sb.alloc.find? (fun x => x.id == id) = some a → a.who = .scalar h → s.imageOf id = some o →
    s.err.stat ≠ .recovering →
    let ws := (List.range o.image).map ((s.floe o.floe).window.1 + ·)
    ((∃ w ∈ ws, s.wordReviving o.floe w = true) → exec (.accessRetire id) s = .next s) ∧
    ((∀ w ∈ ws, s.wordReviving o.floe w = false) →
      ((∃ w ∈ ws, (s.wordBad o.floe w).isSome = true) →
        exec (.accessRetire id) s = .next ((s.endAccess id).endOrder o 0x0C [])) ∧
      (∀ (r : State) (m : Store (BitVec 33)), (∀ w ∈ ws, s.wordBad o.floe w = none) →
        s.readWords (Src.hart 0) id o.floe ws = (r, m) → (r.endAccess id).err.stat ≠ .recovering →
        let u := r.endAccess id
        let image := (List.range o.image).map fun i => contData (sget 0 m ((s.floe o.floe).window.1 + i))
        let size := (extHeader image).code + (extHeader image).data + (extHeader image).bss
        (((extHeader image).bad = true ∨ ∃ e ∈ u.hods.exts, e.id = (extHeader image).id) →
          exec (.accessRetire id) s = .next (u.endOrder o 5 [])) ∧
        ((extHeader image).bad = false → (∀ e ∈ u.hods.exts, e.id ≠ (extHeader image).id) →
          ((8 ≤ u.hods.exts.length ∨ 0x40000 < (u.hods.exts.map Extension.size).sum + size ∨ u.extPlace size = none) →
            exec (.accessRetire id) s = .next (u.endOrder o 7 [])) ∧
          (u.hods.exts.length < 8 → (u.hods.exts.map Extension.size).sum + size ≤ 0x40000 →
            (u.extPlace size).isSome = true →
            exec (.accessRetire id) s = .next { u with hods := { u.hods with verifying := some (o.id, image) } }))))) ∧
  (∀ (image : List Word) (p : OpenOrder) (a : Nat) (code : Word) (s : State), s.serving = true → s.storeCanonical →
    s.hods.verifying = some (p.id, image) → s.hods.openOrders = [p] → (extHeader image).bad = false →
    s.extPlace ((extHeader image).code + (extHeader image).data + (extHeader image).bss) = some a →
    (∃ u : State, exec (.extVerified true code) s = .next (u.reply p.hod p.op p.tag p.job 0 []) ∧
      u.hods.exts = s.hods.exts ++ [{ id := (extHeader image).id, codeAddr := a, codeLen := (extHeader image).code
                                      dataAddr := a + (extHeader image).code
                                      dataLen := (extHeader image).data + (extHeader image).bss
                                      entry := (extHeader image).entry, nharts := (extHeader image).nharts
                                      ntiles := (extHeader image).ntiles, nch := (extHeader image).nch
                                      caps := (extHeader image).caps }] ∧
      (∀ i, i < ((extHeader image).code + (extHeader image).data) / 4 →
        sget 0 u.ks.store (a / 4 + i) = encodeClean (image.getD (16 + i) 0)) ∧
      (∀ i, ((extHeader image).code + (extHeader image).data) / 4 ≤ i →
        i < ((extHeader image).code + (extHeader image).data) / 4 + (extHeader image).bss / 4 →
        sget 0 u.ks.store (a / 4 + i) = encodeClean 0) ∧
      (∀ i, i < a / 4 ∨ a / 4 + ((extHeader image).code + (extHeader image).data) / 4 + (extHeader image).bss / 4 ≤ i →
        sget 0 u.ks.store i = sget 0 s.ks.store i) ∧
      u.hods.openOrders = [] ∧ u.hods.verifying = none) ∧
    exec (.extVerified false code) s = .next ((({ s with hods := { s.hods with verifying := none } } : State).report 0xC1
      [code]).endOrder p 0x0A [])) ∧
  (∀ (ext : BitVec 16) (o : Order) (s t : State), s.serves o 0x09 t →
    ((∀ e ∈ t.hods.exts, e.id ≠ ext) → exec (.ordDropExt ext) s = .next (t.answer o 5)) ∧
    ((∃ e ∈ t.hods.exts, e.id = ext) →
      ((∃ c ∈ t.hods.calls, c.ext = ext) → exec (.ordDropExt ext) s = .next (t.answer o 7)) ∧
      ((∀ c ∈ t.hods.calls, c.ext ≠ ext) → exec (.ordDropExt ext) s = .next (({ t with hods := { t.hods with
        exts := t.hods.exts.filter fun e => e.id != ext } } : State).answer o 0)))) ∧
  (∀ (e : Extension) (h : Hart) (tile : TileReg) (ch : Fin 32) (params : Word) (o : Order) (s t : State),
    s.serves o 0x30 t → s.storeCanonical → t.hods.exts = [e] → e.nharts = 1 → e.ntiles = 1 → e.nch = 1 → h ≠ 0 →
    t.idleHart h = true → o.wepoch (t.negOf o) = 0xFFFF → (t.tiles.get tile).lease = .free → t.tileBusy tile = false →
    (∀ q ∈ t.leaseQ, q.tile ≠ tile) → t.chanFree (BitVec.ofNat 5 ch.val) = true → params.toNat % 4 = 0 →
    params.toNat / 4 + (o.words.length - 3) ≤ 0x20000 →
    ∃ u : State, exec (.ordExtCall e.id [h] [tile] [ch] [] params) s = .next u ∧ (u.hart h).mode = .u ∧ (u.hart h).halted = false ∧
      (u.hart h).pc = BitVec.ofNat 32 (e.codeAddr + e.entry) ∧ (u.hart h).getX 10 = params ∧ (u.hart h).getX 11 = 0 ∧
      (∀ r : BitVec 5, r ≠ 10 → r ≠ 11 → (u.hart h).getX r = (t.hart h).getX r) ∧ (∀ g, g ≠ h → u.hart g = t.hart g) ∧
      u.tiles = vset t.tiles tile { t.tiles.get tile with lease := .exclusive, owner := h } ∧
      u.chan ch = { t.chan ch with owner := h } ∧ (∀ c, c ≠ ch → u.chan c = t.chan c) ∧
      (∀ i, sget 0 u.ks.store i =
        if params.toNat / 4 ≤ i ∧ i < params.toNat / 4 + (o.words.length - 3) then
          encodeClean (o.words.getD (3 + (i - params.toNat / 4)) 0)
        else sget 0 t.ks.store i) ∧
      u.hods.calls = t.hods.calls ++ [{ ext := e.id, order := t.hods.nextOrder, reads := 0xFFFF, hod := o.hod, tag := o.tag
                                        job := o.job, harts := [h], tiles := [tile], chans := [ch] }] ∧
      u.hods.openOrders = t.hods.openOrders ++
        [{ id := t.hods.nextOrder, hod := o.hod, op := o.op, tag := o.tag, job := o.job }] ∧
      u.hods.hod = t.hods.hod) ∧
  (∀ (h : Hart) (c : ExtCall) (s : State), s.canAct (Hart.reader h) = true → (s.hart h).mode = .u →
    (s.hart h).getX 17 = 0 → s.hods.calls = [c] → c.harts = [h] →
    ∃ u : State, exec (.ecall h) s = .next u ∧
      (u.hart h).mode = .m ∧ (u.hart h).halted = true ∧ (u.hart h).x = (s.hart h).x ∧
      u.hods = { s.hods with
        calls := [{ c with ended := c.ended ++ [h], result := (s.hart h).getX 10, ending := some (0, [(s.hart h).getX 10]) }] } ∧
      u.leaseQ = s.leaseQ ++ c.tiles.map (fun t => { who := 16, tile := t, hart := 0, mode := .free }) ∧
      (∀ k, u.chan k = if k ∈ c.chans ∧ (s.chan k).starter ≠ some mgmt ∧ ((s.chan k).state = 1 ∨ (s.chan k).state = 4 ∨ (s.chan k).state = 5) then
          { s.chan k with stopping := true }
        else s.chan k) ∧
      (∀ g, g ≠ h → u.hart g = s.hart g)) ∧
  (∀ (ext : BitVec 16) (harts : List Hart) (tiles : List TileReg) (chans : List (Fin 32)) (floes : List (Fin 64)) (params : Word)
      (c : ExtCall) (st : BitVec 16) (ws : List Word) (p : OpenOrder) (s : State),
    s.serving = true → (∀ o r, s.hods.orders = o :: r → o.op ≠ 0x30) → s.hods.calls = [c] → c.ending = some (st, ws) →
    s.orderOf c.order = some p →
    exec (.ordExtCall ext harts tiles chans floes params) s = .next
      (if (∀ k ∈ c.chans, (s.chan k).stopping = false ∨ (s.chan k).starter = some mgmt) ∧ (∀ r, s.mortar.run = some r → readerIn c.harts r.who = false) ∧
          (∀ d ∈ s.mortar.dropped, readerIn c.harts d.2 = false) ∧ (∀ h ∈ c.harts, (s.hart h).wait.inWindow = false) ∧
          (∀ t ∈ c.tiles, (s.tiles.get t).lease = .free ∧ ∀ q ∈ s.leaseQ, q.tile ≠ t) then
        (({ s with hods := { s.hods with calls := [] } } : State).endOrder p st ws).retryPush
      else s))

/-- A scan takes the new messages of every hod in hod order and sets every ICONS to IPROD; the messages of a hod are
the runs of 16-word slots that their counts name, up to 64 of one slot or one of up to four. Of a scan's orders
exactly those wait behind the earlier ones that no kept order before them contradicts, for every pair that the
rule relates, and that are not reserved operations; an order that its version refuses contradicts nothing (R422,
R481), a beaten one is PREEMPTED, and an unknown operation gets its refusal. IPROD and OPROD move forward within
64 slots and OPROD raises its line; a backward or too far move is counted and ignored. -/
def Obligations.MessagesAreTakenIn : Prop :=
  (∀ (h : Fin 3) (images : List (BitVec 48 × BitVec 16)) (s : State), s.serving = true →
    (s.hods.hod.get h).iprod = (s.hods.hod.get h).icons + 1 →
    (∀ g, g ≠ h → (s.hods.hod.get g).iprod = (s.hods.hod.get g).icons) →
    (nextOrder h (s.hods.hod.get h)).cont = 0 → opHods (nextOrder h (s.hods.hod.get h)).op ≠ [] →
    ∃ u : State, exec (.hodScan images) s = .next u ∧ u.hods.orders = s.hods.orders ++ [nextOrder h (s.hods.hod.get h)] ∧
      (∀ g, u.hods.hod.get g = { s.hods.hod.get g with icons := (s.hods.hod.get g).iprod }) ∧
      u.hods.openOrders = s.hods.openOrders ∧ u = { s with hods := u.hods, obs := u.obs }) ∧
  (∀ (d : Hod) (n c : Nat),
    let place := fun (k j : Nat) => ((d.icons + BitVec.ofNat 32 k).toNat % 64 * 16 + j) % 1024
    let slot := fun (k : Nat) => (List.range 16).map fun j => sget 0 d.inSlots (place k j)
    (n ≤ 64 → d.iprod = d.icons + BitVec.ofNat 32 n → (∀ k < n, ((slot k).getD 0 0).extractLsb' 9 2 = 0) →
      d.messages 64 d.icons = (List.range n).map slot) ∧
    (c ≤ 3 → d.iprod = d.icons + BitVec.ofNat 32 (c + 1) → (((slot 0).getD 0 0).extractLsb' 9 2).toNat = c →
      d.messages 64 d.icons = [(List.range (c + 1)).flatMap slot])) ∧
  (∀ (images : List (BitVec 48 × BitVec 16)) (s : State), s.serving = true → ∃ keep : Nat → Bool,
    (∀ (i : Nat) (o : Order), s.scanned[i]? = some o → (keep i = true ↔ s.scanStale i = true ∨
      opHods o.op ≠ [] ∧ ∀ (j : Nat) (p : Order), j < i → s.scanned[j]? = some p → keep j = true → s.scanStale j = false →
        o.contradicts images p = false)) ∧
    let beaten := fun (i : Nat) (o : Order) => (List.range i).any fun j =>
      keep j && !s.scanStale j && s.scanned[j]?.any (o.contradicts images)
    let out := s.scanned.zipIdx.filter fun q => !keep q.2
    let v := (({ s with hods := { s.hods with hod := s.hods.hod.map fun d => { d with icons := d.iprod } } } : State).toggleObs
      0xC2)
    let u := out.foldl (fun t q => t.answer q.1 (if beaten q.2 q.1 then 2 else (s.refusal q.1).getD 4)) v
    exec (.hodScan images) s = .next { u with hods := { u.hods with
      orders := s.hods.orders ++ (s.scanned.zipIdx.filter fun q => keep q.2).map (·.1) } }) ∧
  (∀ (h : Fin 3) (v : Word) (s : State), s.powered = true →
    ((v - (s.hods.hod.get h).iprod).toNat < 2 ^ 31 → (v - (s.hods.hod.get h).icons).toNat ≤ 64 →
      exec (.hodIprodAdvance h v) s = .next (s.modHod h fun d => { d with iprod := v })) ∧
    (2 ^ 31 ≤ (v - (s.hods.hod.get h).iprod).toNat ∨ 64 < (v - (s.hods.hod.get h).icons).toNat →
      exec (.hodIprodAdvance h v) s = .next (s.modHod h fun d => { d with ovf := incSat d.ovf }))) ∧
  (∀ (h : Fin 3) (k : Hart) (v : Word) (s : State), s.canAct (Hart.reader k) = true → (s.hart k).mode = .m →
    ((v - (s.hods.hod.get h).oprod).toNat < 2 ^ 31 → (v - (s.hods.hod.get h).ocons).toNat ≤ 64 →
      v ≠ (s.hods.hod.get h).oprod →
      exec (.hodOprodAdvance h k v) s = .next (s.modHod h fun d => { d with oprod := v, notify := true })) ∧
    (2 ^ 31 ≤ (v - (s.hods.hod.get h).oprod).toNat ∨ 64 < (v - (s.hods.hod.get h).ocons).toNat →
      exec (.hodOprodAdvance h k v) s = .next (s.modHod h fun d => { d with ovf := incSat d.ovf })))

/-- HCTL_HALT and HCTL_RUN by machine mode change the halted bits of the harts in their mask; of a halt and a resume
of one hart in one step the management processor's wins, else the halt (R431, R513), and neither does anything
in user mode. RUN acts from stage 8 on and outside a recovery (log entry 97). EVSET, also as a write of offset
0x0104, sets the SOFT bit of each hart in its mask. The reload register of timer n reads its reload value at
offset 0x0128 + 0x10 n. A timer that reaches zero raises TMR at its owner and reloads or disables itself. -/
def Obligations.HartsEventsAndTimers : Prop :=
  (∀ (r : Reader) (mask halted resumed : BitVec 16) (s : State), s.canAct r = true →
     (s.privileged r = true →
       (∃ t : State, exec (.hctlHalt r mask resumed) s = .next t.pruneCycles ∧ t = { s with harts := t.harts } ∧
         ∀ h, t.hart h = if mask.getLsbD h.val ∧ (r = mgmt ∨ resumed.getLsbD h.val = false) then
             { s.hart h with halted := true }
           else s.hart h) ∧
       (8 ≤ s.boot.stage.toNat → s.err.stat ≠ .recovering →
         ∃ t : State, exec (.hctlRun r mask halted) s = .next t.pruneCycles ∧ t = { s with harts := t.harts } ∧
           ∀ h, t.hart h = if mask.getLsbD h.val ∧ (r = mgmt ∨ halted.getLsbD h.val = false) then
               { s.hart h with halted := false }
             else s.hart h)) ∧
     (s.privileged r = false → exec (.hctlHalt r mask resumed) s = .next s ∧ exec (.hctlRun r mask halted) s = .next s) ∧
     (∃ t : State, exec (.evset r mask) s = .next t.pruneCycles ∧ t = { s with harts := t.harts } ∧
       ∀ h, t.hart h = if mask.getLsbD h.val then
           { s.hart h with csr := { (s.hart h).csr with evpend := (s.hart h).csr.evpend ||| 0x100 } }
         else s.hart h)) ∧
  (∀ (n : Fin 4) (s : State), s.powered = true →
     ((s.ks.timers.get n).en = false ∨ (s.ks.timers.get n).frost = true → exec (.timerExpiry n) s = .next s) ∧
     ((s.ks.timers.get n).en = true → (s.ks.timers.get n).frost = false → (s.ks.timers.get n).owned = true →
       let z := (s.ks.timers.get n).since + (s.ks.timers.get n).count.toNat
       ∃ t, exec (.timerExpiry n) s = .next t ∧
         t.hart (s.ks.timers.get n).owner = { s.hart (s.ks.timers.get n).owner with
           csr := { (s.hart (s.ks.timers.get n).owner).csr with
             evpend := (s.hart (s.ks.timers.get n).owner).csr.evpend ||| 0x20 } } ∧
         (∀ h, h ≠ (s.ks.timers.get n).owner → t.hart h = s.hart h) ∧
         t.ks.timers.get n = (if (s.ks.timers.get n).reload = 0 then { s.ks.timers.get n with en := false, count := 0 }
           else { s.ks.timers.get n with count := (s.ks.timers.get n).reload, since := z }) ∧
         (∀ m, m ≠ n → t.ks.timers.get m = s.ks.timers.get m) ∧
         t = { s with time := max s.time z, harts := t.harts, ks := { s.ks with timers := t.ks.timers } }) ∧
     (∀ r : Reader, s.readReg r (BitVec.ofNat 16 (0x128 + 16 * n.val)) = (s.ks.timers.get n).reload ∧
       s.readReg r (BitVec.ofNat 16 (0x124 + 16 * n.val)) =
         if (s.ks.timers.get n).en then BitVec.ofNat 32 ((s.ks.timers.get n).count.toNat - (s.time - (s.ks.timers.get n).since))
         else (s.ks.timers.get n).count))

/-- PACE_WINDOW sets PACE and the lowest and highest since a clear, which CE_PACE reads back; CAL_TAP and OBS_SELECT
claim outputs or record the conflict; a low-word read latches the high word. A calibration period moves a tap by
one toward the band; a guard raises it by four, and slack that stays below 2 at 63 starts the recovery from
MARGIN (that taps stop at 63 is log entry 102). -/
def Obligations.PaceCalibrationAndObservation : Prop :=
  (∀ (p : BitVec 12) (s : State), s.powered = true →
    exec (.paceWindow p false) s = .next { s with cal := { s.cal with
      pace := p
      min := if p.toNat < s.cal.min.toNat then p else s.cal.min
      max := if s.cal.max.toNat < p.toNat then p else s.cal.max } } ∧
    exec (.paceWindow p true) s = .next { s with cal := { s.cal with pace := p, min := 0xFFF, max := 0 } }) ∧
  (∀ (r : Reader) (on : Bool) (n : Fin 16) (code : BitVec 8) (s : State), s.canAct r = true → s.privileged r = true →
    exec (.paceClear r) s = .next { s with cal := { s.cal with min := 0xFFF, max := 0 } } ∧
    ((s.obs.out.get n).src = 2 → ∃ t, exec (.obsSelect r n code) s = .next t ∧ t.obs = s.obs ∧ t.ks.confReason = 4 ∧
      t.ks.confReg = BitVec.ofNat 16 (0x1200 + 4 * n.val) ∧ t.ks.confSrc = BitVec.ofNat 5 r.val ∧ t.ks.confV = true) ∧
    ((s.obs.out.get n).src ≠ 2 → obsCode code = true → exec (.obsSelect r n code) s = .next { s with obs := { s.obs with
      out := vmod s.obs.out n fun o => { o with code, src := if code = 0 then 0 else 1 } } }) ∧
    ((∀ i : Fin 16, 12 ≤ i.val → (s.obs.out.get i).src ≠ 1) → on ≠ s.cal.tapClaim →
      ∃ t, exec (.calTap r on) s = .next t ∧ t.cal = { s.cal with tapClaim := on } ∧
        (∀ i : Fin 16, t.obs.out.get i = if 12 ≤ i.val then
            { s.obs.out.get i with src := if on then 2 else 0, code := 0 } else s.obs.out.get i) ∧
        t = { s with cal := t.cal, obs := { s.obs with out := t.obs.out } }) ∧
    ((∃ i : Fin 16, 12 ≤ i.val ∧ (s.obs.out.get i).src = 1) → s.cal.tapClaim = false →
      ∃ t, exec (.calTap r true) s = .next t ∧ t.cal = s.cal ∧ t.obs = s.obs ∧ t.ks.confReason = 4 ∧
        t.ks.confReg = 0x1100 ∧ t.ks.confV = true)) ∧
  (∀ (r : Reader) (n : Fin 8) (s : State), s.canAct r = true →
    ∃ t, exec (.eventCounterLowRead r n) s = .next t ∧ t = { s with obs := { s.obs with latch := t.obs.latch } } ∧
      s.readReg r (BitVec.ofNat 16 (0x1260 + 8 * n.val)) = (s.obs.ev.get n).count.extractLsb' 0 32 ∧
      t.readReg r (BitVec.ofNat 16 (0x1264 + 8 * n.val)) = ((s.obs.ev.get n).count.extractLsb' 32 16).setWidth 32) ∧
  (∀ (r : Reader) (s : State),
    s.readReg r 0x8 = (0 : BitVec 4) ++ s.cal.min ++ (0 : BitVec 4) ++ s.cal.pace ∧
    s.readReg r 0xC = (0 : BitVec 20) ++ s.cal.max) ∧
  (State.reset.cal.pace = 0 ∧ State.reset.cal.min = 0xFFF ∧ State.reset.cal.max = 0) ∧
  (∀ (r : Reader) (v met : Word) (lost : List Hart) (s : State), s.canAct r = true → s.privileged r = true →
    exec (.registerWrite r (.reg 0xC) v lost met) s =
      .next (if v.getLsbD 31 then { s with cal := { s.cal with min := 0xFFF, max := 0 } } else s).pruneCycles) ∧
  (∀ (v : Nat) (s : State), s.powered = true → s.cal.on = true → (s.ks.timers.get 3).frost = true →
    (s.ks.timers.get 3).en = true → s.regionDown 0 = false →
    ∃ t, exec (.calibPeriod [v] []) s = .next t ∧ exec (.calibPeriod [v] [0]) s = exec (.calibPeriod [] []) s ∧
      (t.cal.regions.get 0).slack = BitVec.ofNat 6 (min 63 v) ∧
      ((t.cal.regions.get 0).tap.toNat = if v < 5 then min 63 ((s.cal.regions.get 0).tap.toNat + 1)
        else if v ≤ 7 then (s.cal.regions.get 0).tap.toNat else (s.cal.regions.get 0).tap.toNat - 1) ∧
      (∀ g, g ≠ 0 → t.cal.regions.get g = s.cal.regions.get g) ∧ (t.ks.timers.get 3).count = (s.ks.timers.get 3).reload ∧
      (t.ks.timers.get 3).since = (s.ks.timers.get 3).since + (s.ks.timers.get 3).count.toNat ∧
      t.harts = s.harts ∧ t.tiles = s.tiles ∧ t.ice = s.ice ∧ t.err = s.err) ∧
  (∀ (g : Fin 35) (v : Nat) (s : State), s.powered = true → g.val < Config.regions s.cfg → s.regionDown g = false →
    (s.cal.regions.get g).tap.toNat < 63 → (2 ≤ v ∨ (s.cal.regions.get g).tap.toNat < 59) →
    ∃ t, exec (.guardEvent g v) s = .next t ∧
      (t.cal.regions.get g).tap.toNat = min 63 ((s.cal.regions.get g).tap.toNat + 4) ∧ t.cal.emerg = incSat s.cal.emerg ∧
      (∀ k, k ≠ g → t.cal.regions.get k = s.cal.regions.get k) ∧ t.err = s.err ∧ t.harts = s.harts ∧ t.tiles = s.tiles) ∧
  (∀ (g : Fin 35) (v : Nat) (s : State), s.powered = true → g.val < Config.regions s.cfg → s.regionDown g = false →
    ((s.cal.regions.get g).tap = 63 ∨ (s.cal.regions.get g).tap.toNat + 4 ≥ 63 ∧ v < 2) → 8 ≤ s.boot.stage.toNat →
    s.err.stat = .running →
    ∃ t, exec (.guardEvent g v) s = .next t ∧ t.err.stat = .recovering ∧
      t.err.recovery.map (fun r => (r.code, r.src, r.unit, r.loc)) =
        some (5, 7, BitVec.ofNat 6 g.val, BitVec.ofNat 32 g.val) ∧
      ∀ h, (t.hart h).halted = true)

/-- Writes of read-only registers and of machine-mode registers from user mode change nothing; a W1C counter loses
each bit that is written 1 and is counted up by an event of the same step; a write that beats others counts them
in CE_KS_PREEMPT, and a beaten one changes nothing; a write of CE_NBR_VERS lets NOVERS ports try again (log
entry 89); a hod's master alone writes its inbound slots. CSR writes act on their fields, where a set of the
same step beats the clear, and one that the number forbids is an illegal instruction, whose mtval is log entry
100's. CE_CFG0 and CE_CFG1 of C3-L read 0xC323_0400 and 0x3041_0840. -/
def Obligations.RegisterAndCsrWritesFollowTheirAccess : Prop :=
  (∀ (r : Reader) (v met : Word) (lost : List Hart) (s : State), s.canAct r = true →
     exec (.registerWrite r (.reg 0x600) v lost met) s = .next (s.modDrfRegs r fun g => { g with list := v }).pruneCycles ∧
     exec (.registerWrite r (.reg 0x0) v lost met) s = .next s.pruneCycles ∧
     exec (.registerWrite r (.reg 0x4) v lost met) s = .next s.pruneCycles ∧
     exec (.registerWrite r (.reg 0x104) v lost met) s = exec (.evset r (v.extractLsb' 0 16)) s ∧
     (s.privileged r = true →
       ((r = mgmt ∨ ∀ h : Hart, r = Hart.reader h → ∀ g ∈ s.reaching r lost, g.val ≤ h.val) →
         exec (.registerWrite r (.reg 0x448) v lost met) s = .next ({ s with
           ice := { s.ice with scrubPeriod := v.extractLsb' 0 16 }
           ks := { s.ks with preempt := addSat s.ks.preempt (s.reaching r lost).length } } : State).pruneCycles) ∧
       (∀ h g : Hart, r = Hart.reader h → g ∈ s.reaching r lost → h.val < g.val →
         exec (.registerWrite r (.reg 0x448) v lost met) s = .next s.pruneCycles) ∧
       (∃ t : State, exec (.registerWrite r (.reg 0x1070) v [] met) s = .next t.pruneCycles ∧ t.nbr.vers = v.extractLsb' 0 8 ∧
         (∀ p : Fin 4, t.port p =
           if (s.port p).state = .novers then { s.port p with state := .down } else s.port p) ∧
         t = { s with nbr := { s.nbr with vers := t.nbr.vers, ports := t.nbr.ports } }) ∧
       exec (.registerWrite r (.reg 0x1434) v lost met) s = .next ({ s with err := { s.err with
         iceUe := if met ≠ 0 ∧ v ≠ 0 then incSat (s.err.iceUe &&& ~~~v) else s.err.iceUe &&& ~~~v } } : State).pruneCycles ∧
       exec (.registerWrite r (.reg 0x10C) v lost met) s = .next ({ s with ks := { s.ks with
         confV := s.ks.confV && !(v.getLsbD 31 && !met.getLsbD 31) } } : State).pruneCycles) ∧
     (s.privileged r = false → ∀ off : BitVec 16, off.toNat % 4 = 0 →
       off = 0xC ∨ 0x100 ≤ off.toNat ∧ off.toNat < 0x120 ∧ off ≠ 0x104 ∨ 0x400 ≤ off.toNat ∧ off.toNat < 0x500 ∨ off = 0x624 ∨
         off = 0x628 ∨ 0x1000 ≤ off.toNat ∧ off ≠ 0x1064 →
       exec (.registerWrite r (.reg off) v lost met) s = .next s.pruneCycles) ∧
     (∀ (hod : Fin 3) (i : Fin 1024), exec (.registerWrite r (.master hod (BitVec.ofNat 16 (0x8000 + 0x2000 * hod.val + 4 * i.val)))
       v lost met) s = .next (s.modHod hod fun d => { d with inSlots := sset 0 d.inSlots i.val v }))) ∧
  (∀ (h : Hart) (v met : Word) (lost : List Hart) (s : State), s.canAct (Hart.reader h) = true →
     exec (.registerWrite (Hart.reader h) (.csr 0x8C0) v lost met) s = .next (s.modHart h fun t =>
       { t with csr := { t.csr with even := v.extractLsb' 0 9 } }) ∧
     exec (.registerWrite (Hart.reader h) (.csr 0x8C1) v lost met) s = .next (s.modHart h fun t =>
       { t with csr := { t.csr with evpend := t.csr.evpend &&& ~~~((v &&& ~~~met).extractLsb' 0 9) } }) ∧
     exec (.registerWrite (Hart.reader h) (.csr 0x8C3) v lost met) s = .next (s.modHart h fun t =>
       { t with csr := { t.csr with drw := v } }) ∧
     exec (.registerWrite (Hart.reader h) (.csr 0x8C5) v lost met) s = .next (s.modHart h fun t =>
       { t with csr := { t.csr with vflags := FpFlags.ofWord (v ||| (t.csr.vflags.toWord &&& met)) } }) ∧
     ((s.hart h).mode = .m ∧ s.callOf h = none →
       exec (.registerWrite (Hart.reader h) (.csr 0x7C0) v lost met) s = .next (s.modHart h fun t =>
         { t with csr := { t.csr with
           vfOvf := t.csr.vfOvf && !(v.getLsbD 30 && !met.getLsbD 30)
           vfV := t.csr.vfV && !(v.getLsbD 31 && !met.getLsbD 31) } }) ∧
       exec (.registerWrite (Hart.reader h) (.csr 0xCC0) v lost met) s =
         .next (s.modHart h fun t => t.takeTrap false 2 ((0xCC0 : BitVec 12) ++ (0x01073 : BitVec 20))).pruneCycles) ∧
     ((s.hart h).mode = .u ∧ s.callOf h = none →
       exec (.registerWrite (Hart.reader h) (.csr 0x7C0) v lost met) s =
         .next (s.modHart h fun t => t.takeTrap false 2 ((0x7C0 : BitVec 12) ++ (0x01073 : BitVec 20))).pruneCycles)) ∧
  (∀ (r : Reader) (s : State), s.cfg = .c3l →
     s.readReg r 0x0 = 0xC3230400 ∧ s.readReg r 0x4 = 0x30410840)

/-- RESET leaves every register at its reset value and exactly the words of the permafrost segments that the power
controller reports as retained, spare rows with them, and those come up permafrost. A power-off request stops
channels and course; its acknowledge, once the engine is drained or timed out, and an abrupt loss, leave an
unpowered engine with the permafrost segments whose rail is held: their words are intact where no write was in
flight, and a word under a write in flight is the old, the one being written, or uncorrectable (log entry 9). An
unpowered engine is changed by no command but reset, and by no step on an empty queue (log entry 130). -/
def Obligations.ResetsAndPowerKeepPermafrostAlone : Prop :=
  (∀ (l : List (Fin 64)) (s : State), s.fieldCanonical →
     ∃ t : State, exec (.reset l) s = .next t ∧ restarted s t ∧ t.powered = true ∧
       (∀ g, (s.comesUp l g → t.ice.segs.get g = .permafrost ∧ g ∈ t.boot.retained) ∧
         (¬s.comesUp l g → t.ice.segs.get g = .live ∧ g ∉ t.boot.retained)) ∧
       (∀ cell, ((∃ g, s.comesUp l g ∧ s.heldCell g cell = true) → sget 0 t.ice.cells cell = sget 0 s.ice.cells cell) ∧
         ((∀ g, s.comesUp l g → s.heldCell g cell = false) → sget 0 t.ice.cells cell = 0)) ∧
       t.railMap = (if s.powered && s.boot.recordDone then s.ice.spares else s.railMap)) ∧
  (∀ s : State, s.powered = true → s.powerReq = false →
    ∃ t : State, exec .powerOffRequest s = .next t ∧ t.powerReq = true ∧ t.powered = true ∧ t.harts = s.harts ∧ t.tiles = s.tiles ∧
      t.ice.cells = s.ice.cells ∧ t.ice.floes = s.ice.floes ∧ (8 ≤ s.boot.stage.toNat → t.offWait = .drained) ∧
      (∀ r, s.mortar.run = some r → t.mortar.run.map (·.stopping) = some true) ∧
      ∀ c, t.chan c = if (s.chan c).state = 1 ∨ (s.chan c).state = 4 ∨ (s.chan c).state = 5 then
          { s.chan c with stopping := true } else s.chan c) ∧
  (∀ (timeout : Bool) (rail : List (Fin 64)) (s : State), s.powered = true →
    (s.powerReq = false ∨ s.powerDrained = false ∧ timeout = false → exec (.powerOffAck timeout rail) s = .next s) ∧
    (s.powerReq = true → s.powerDrained = true ∨ timeout = true →
      ∃ t : State, exec (.powerOffAck timeout rail) s = .next t ∧ unpowered rail s t)) ∧
  (∀ (rail : List (Fin 64)) (s : State), s.powered = true → s.fieldCanonical →
    ∃ t : State, exec (.powerLoss rail) s = .next t ∧ restarted s t ∧ t.powered = false ∧
      t.railHeld = s.keptSegs.filter rail.contains ∧
      ∀ cell, ((∀ g, s.comesUp rail g → s.heldCell g cell = false) → sget 0 t.ice.cells cell = 0) ∧
        ((∃ g, s.comesUp rail g ∧ s.heldCell g cell = true) →
          ((∀ q ∈ s.flying, ¬s.tears q cell) → sget 0 t.ice.cells cell = sget 0 s.ice.cells cell) ∧
          ∀ (l m : List (Fin 64 × IceWrite)) (q : Fin 64 × IceWrite), s.flying = l ++ q :: m → s.tears q cell →
            (∀ x ∈ l ++ m, ¬s.tears x cell) →
            sget 0 t.ice.cells cell = sget 0 s.ice.cells cell ∨
              sget 0 t.ice.cells cell = writtenOver (sget 0 s.ice.cells cell) q.2 ∨
              classify (sget 0 t.ice.cells cell) = .bad)) ∧
  (∀ (c : Instr) (s : State), s.powered = false → (∀ l, c ≠ .reset l) → exec c s = .next s) ∧
  (∀ s : State, s.powered = false → s.pending = [] → step s = .next s)

/-- In a running engine the fault halts every hart, closes windows and stops channels; before stage 8 it is recorded
(R492; that it counts, and that the lower code of one step has the record there too, is the model's inference
from R468); a second one is counted, and of two in one step the lower code has the record; in a stopped engine a
fault is reported. When the work has drained, the recovery poisons the words of unretired writes, restarts hart
0 alone with its registers kept (log entry 125), frees the leases, drops the orders, records the fault and
leaves the engine STOPPED. -/
def Obligations.FaultsHaltAndRecoveryStops : Prop :=
  (∀ (code : BitVec 8) (src : BitVec 4) (unit : BitVec 6) (loc loc2 : Word) (s : State), s.powered = true → code ≠ 0 →
     code.toNat ≤ 8 →
     (s.boot.stage.toNat < 8 → code ≠ 2 →
       let first : FaultRec := { code, src, unit, loc, loc2, time := s.nanos, step := s.cycle }
       let record : FaultRec := match s.boot.earlyFault with
         | none => first
         | some r => if s.cycle = r.step ∧ code.toNat < r.code.toNat then
             { r with code, src, unit, loc, loc2, count := r.count + 1 }
           else { r with count := r.count + 1 }
       exec (.uncorrectableFault code src unit loc loc2) s = .next { s with boot := { s.boot with earlyFault := some record } }) ∧
     (8 ≤ s.boot.stage.toNat →
     (s.err.stat = .running → ∃ t : State, exec (.uncorrectableFault code src unit loc loc2) s = .next t ∧
       t.err.stat = .recovering ∧ (∀ h, t.hart h = { s.hart h with halted := true }) ∧
       t.err.recovery.map (fun r => (r.code, r.src, r.unit, r.loc, r.loc2, r.count)) = some (code, src, unit, loc, loc2, 0) ∧
       (∀ w, (s.win w).isOpen = true → (t.win w).closing = true) ∧
       (∀ c, (s.chan c).state = 1 → (t.chan c).stopping = true) ∧ t.tiles = s.tiles ∧ t.ice.cells = s.ice.cells ∧
       t.ice.floes = s.ice.floes ∧ t.ks = s.ks) ∧
     (∀ r, s.err.stat = .recovering → s.err.recovery = some r →
       s.cycle ≠ r.step ∨ r.reload.isSome = true ∨ r.code.toNat ≤ code.toNat →
       exec (.uncorrectableFault code src unit loc loc2) s = .next { s with err := { s.err with
         recovery := some { r with count := r.count + 1 } } }) ∧
     (∀ r, s.err.stat = .recovering → s.err.recovery = some r → s.cycle = r.step → r.reload = none →
       code.toNat < r.code.toNat →
       exec (.uncorrectableFault code src unit loc loc2) s = .next { s with err := { s.err with
         recovery := some { r with code, src, unit, loc, loc2, count := r.count + 1 } } }) ∧
     (s.err.stat = .stopped → ∃ t : State, exec (.uncorrectableFault code src unit loc loc2) s = .next t ∧ t.err.stat = .stopped ∧
       t.err.frec.get 0 = (0 : BitVec 8) ++ (0 : BitVec 6) ++ unit ++ src ++ code ∧ t.err.frec.get 1 = loc ∧
       t.err.frec.get 2 = loc2 ∧ t.harts = s.harts ∧ t.tiles = s.tiles ∧ t.ice = s.ice))) ∧
  (∀ (r : FaultRec) (w p : Nat) (f : Fin 64) (hash : Bool) (s : State), s.powered = true → s.fieldCanonical →
     s.err.stat = .recovering → s.err.recovery = some r → r.code ≠ 1 → r.code ≠ 2 → r.reload = none → r.marks = [] →
     r.ranges = [{ lo := w, hi := w, write := true }] → s.vu.inflight = [] → s.recoveryDrained = true →
     s.floeOf w = some f → s.place f w = some (.phys p hash) → s.segAt p ≠ .melted →
     ∃ t : State, exec .recoveryDrained s = .next t ∧ t.err.stat = .stopped ∧ t.err.recovery = none ∧
       (∀ cell, sget 0 t.ice.cells cell =
         if cell = s.cellAt (s.bankLevel p hash).1 (s.bankLevel p hash).2 then
           encodePoison (cwData (s.codewordAt (s.bankLevel p hash).1 (s.bankLevel p hash).2))
         else sget 0 s.ice.cells cell) ∧
       (∀ h, (t.hart h).halted = (h != 0) ∧ (t.hart h).preds = Vector.replicate 8 0 ∧ (t.hart h).vqueue = [] ∧
         (t.hart h).summary = 0x0400000000000000 ∧ (t.hart h).csr.vflags = {} ∧ (t.hart h).csr.vfV = false ∧
         (t.hart h).x = (s.hart h).x) ∧
       (t.hart 0).pc = 0 ∧ (t.hart 0).mode = .m ∧ (∀ q, t.tiles.get q = { s.tiles.get q with lease := .free }) ∧
       (∀ k, (t.hods.hod.get k).icons = (s.hods.hod.get k).iprod) ∧ t.hods.orders = [] ∧ t.hods.openOrders = [] ∧
       (∀ i : Fin 10, t.err.frec.get i = (faultWords r 1 false false false s.laneShort).getD i.val 0))

/-- RECORD_READ applies the valid slot with the later sequence number, its retired groups and its seeds, or the
defaults without one; the time-out does the same (R492). Each later stage ends with its effect: a zero local
store, failing lane groups replaced, Icefield tested and zero but for retained segments, firmware in its region,
with zeros behind it (log entry 124), or refused, after which no later stage runs, hart 0 at address 0, and
READY. The values of STAGE are log entry 127's. -/
def Obligations.StartUpRunsFromRecordToReady : Prop :=
  (∀ (a b : Option (List Word)) (s : State), s.powered = true → s.boot.recordDone = false →
     exec (.recordTimeout a b) s = exec (.recordRead a b) s ∧
     (checkSlot s.cfg a ≠ .valid → checkSlot s.cfg b ≠ .valid →
       ∃ t : State, exec (.recordRead a b) s = .next t ∧ t.boot.defaults = true ∧ t.boot.recordDone = true ∧ t.boot.stage = 3 ∧
         t.boot.sta = checkSlot s.cfg a ∧ t.boot.stb = checkSlot s.cfg b ∧ t.err.lanes = s.err.lanes ∧
         t.cal.regions = s.cal.regions ∧ t.cal.on = true ∧ t.ice = s.ice ∧ t.harts = s.harts ∧ t.tiles = s.tiles) ∧
     (∀ (ws : List Word) (useB : Bool), checkSlot s.cfg (some ws) = .valid → (recOf ws).nspare = 0 →
       (if useB then b = some ws ∧ (checkSlot s.cfg a = .valid → ∃ vs, a = some vs ∧ seqLater (recOf ws).seq (recOf vs).seq = true)
         else a = some ws ∧ (checkSlot s.cfg b = .valid → ∃ vs, b = some vs ∧ seqLater (recOf vs).seq (recOf ws).seq = false)) →
       ∃ t : State, exec (.recordRead a b) s = .next t ∧ t.boot.defaults = s.boot.defaults ∧ t.boot.slotB = useB ∧
         t.boot.seq = (recOf ws).seq ∧ t.boot.retired = (recOf ws).retired ∧ t.boot.stage = 3 ∧
         t.err.lanes = laneMap s.cfg (recOf ws).retired ∧
         (∀ g : Fin 35, (t.cal.regions.get g).tap = seedTap ((recOf ws).seeds.getD g.val 0xFF)) ∧ t.cal.on = true ∧
         t.ice = s.ice ∧ t.harts = s.harts ∧ t.tiles = s.tiles)) ∧
  (∀ s : State, s.powered = true →
     (s.boot.recordDone = true → s.boot.storeFilled = false → s.boot.stage.toNat < 7 →
       exec .localStoreFillEnd s = .next { s with ks := { s.ks with store := [] }
                                                  boot := { s.boot with storeFilled := true, stage := 7 } }) ∧
     (s.boot.recordDone = true → s.boot.lanesTested = false → s.boot.fwref = false →
       exec (.startupLaneTestEnd []) s = .next { s with boot := { s.boot with
         lanesTested := true, laneShort := decide (s.healthyLanes < Config.groups s.cfg)
         stage := if s.boot.stage.toNat < 4 then 4 else s.boot.stage } } ∧
       ∀ (g k : Fin 17), s.hasLane g = true → (s.err.lanes.get g).state = .active → s.readySpare = some k →
         ∃ t : State, exec (.startupLaneTestEnd [g]) s = .next t ∧ (t.err.lanes.get g).state = .retired ∧
           t.err.lanes.get k = { s.err.lanes.get k with state := .active, logical := (s.err.lanes.get g).logical } ∧
           t.boot.lanesTested = true ∧ t.harts = s.harts ∧ t.tiles = s.tiles ∧ t.ice = s.ice) ∧
     (s.boot.recordDone = true → s.boot.iceTested = false → s.boot.fwref = false →
       ∃ t : State, exec (.icefieldSelftestEnd [] []) s = .next t ∧ t.boot.iceTested = true ∧
         t.boot.meltSeg = ((fins 64).filter fun g => s.hasSeg g && s.ice.segs.get g == .melted).length ∧ t.ice = s.ice ∧
         t.harts = s.harts ∧ t.tiles = s.tiles) ∧
     (s.fieldCanonical → s.boot.iceTested = true → s.boot.iceFilled = false → s.boot.fwref = false →
       ∃ t : State, exec .icefieldFillEnd s = .next t ∧ t.boot.iceFilled = true ∧
         (∀ cell, sget 0 t.ice.cells cell = if ∃ g ∈ s.boot.retained, s.cellInSeg g cell = true then sget 0 s.ice.cells cell
           else 0) ∧
         t.ice.segs = s.ice.segs ∧ t.ice.floes = s.ice.floes ∧ t.harts = s.harts ∧ t.tiles = s.tiles) ∧
     (s.storeCanonical → s.boot.fwref = false → s.awaitsFirmware = false → s.boot.storeFilled = true →
       s.boot.fwDelivered = false → s.boot.keystoneStarted = false →
       (∀ image : List Word, ∃ t : State, exec (.firmwareDelivered image) s = .next t ∧ t.boot.fwDelivered = !s.boot.fwTwice ∧
         t.boot.fwTwice = false ∧
         (∀ i, i < 0x10000 → sget 0 t.ks.store i = encodeClean (image.getD i 0)) ∧
         (∀ i, 0x10000 ≤ i → sget 0 t.ks.store i = sget 0 s.ks.store i) ∧ t.harts = s.harts ∧ t.ice = s.ice) ∧
       (∀ code : Word, exec (.fwRefused code) s =
         .next (({ s with boot := { s.boot with fwref := true } } : State).reportNow 0xC1 [code]))) ∧
     (s.boot.fwref = true → ∀ (image : List Word) (failed : List (Fin 17)) (rows bad : List (Nat × Nat)),
       exec (.firmwareDelivered image) s = .next s ∧ exec (.startupLaneTestEnd failed) s = .next s ∧
       exec (.icefieldSelftestEnd rows bad) s = .next s ∧ exec .icefieldFillEnd s = .next s) ∧
     (s.boot.lanesTested = true → s.boot.iceFilled = true → s.boot.fwDelivered = true → s.boot.keystoneStarted = false →
       exec .keystoneStart s =
         .next (({ s with boot := { s.boot with keystoneStarted := true, stage := 8 } } : State).modHart 0 fun t =>
           { t with pc := 0, mode := .m, halted := false })) ∧
     (∀ h : Hart, s.canAct (Hart.reader h) = true → (s.hart h).mode = .m → s.boot.stage = 8 →
       s.boot.keystoneStarted = true →
       exec (.fwready h) s = .next { s with boot := { s.boot with fwready := true, stage := 9 } }) ∧
     (s.boot.stage = 9 → s.boot.ready = false → s.err.stat = .running → s.boot.held = [] → s.boot.earlyFault = none →
       s.boot.caloff = false → s.boot.laneShort = false →
       exec (.neighbourWaitEnd true) s = .next (({ s with boot := { s.boot with stage := 10, ready := true } } : State).reportPver
         (topVersion (s.hods.hod.get 0).versEn) 0xC0
         ({ s with boot := { s.boot with stage := 10, ready := true } } : State).readyWords)))

/-- LOCAL_STORE_SCRUB on a clean word only moves to the next word; on a word with one wrong symbol it writes the
corrected codeword to that word alone and counts it in CE_ERR_KS_CE. -/
def Obligations.LocalStoreScrubCorrects : Prop :=
  ∀ (d : Word) (p : Fin 11) (v : BitVec 4) (s : State), s.powered = true → s.storeCanonical → v ≠ 0 →
    (sget 0 s.ks.store s.ks.scrubAt = encodeClean d →
      exec .localStoreScrub s = .next { s with ks := { s.ks with scrubAt := (s.ks.scrubAt + 1) % 131072 } }) ∧
    (sget 0 s.ks.store s.ks.scrubAt = encodeClean d ^^^ (v.setWidth 44 <<< (4 * p.val)) →
      ∃ t : State, exec .localStoreScrub s = .next t ∧ t.ks.scrubAt = (s.ks.scrubAt + 1) % 131072 ∧
        (∀ i, sget 0 t.ks.store i = if i = s.ks.scrubAt then encodeClean d else sget 0 s.ks.store i) ∧
        t.err = { s.err with ksCe := incSat s.err.ksCe } ∧ t.harts = s.harts ∧ t.ice = s.ice)
end

