-- ==== Sys2Proof/Laws/Check.lean ====
section
/-! SUPPORT. The symbol code of R304 to R306 is linear, so the syndromes of a stored word are those of the pattern added to
its clean codeword. -/

namespace Sys2Proof.Machine

theorem gfAlpha_xor : ∀ a b : BitVec 4, gfAlpha (a ^^^ b) = gfAlpha a ^^^ gfAlpha b := by decide

theorem gfMul_xor (a b c : BitVec 4) : gfMul (a ^^^ b) c = gfMul a c ^^^ gfMul b c := by
  simp only [gfMul, gfAlpha_xor]
  cases c.getLsbD 0 <;> cases c.getLsbD 1 <;> cases c.getLsbD 2 <;> cases c.getLsbD 3 <;>
    simp <;> ac_rfl

theorem gfMul_comm : ∀ a b : BitVec 4, gfMul a b = gfMul b a := by decide

theorem gfMul_xor_right (a b c : BitVec 4) : gfMul a (b ^^^ c) = gfMul a b ^^^ gfMul a c := by
  rw [gfMul_comm, gfMul_xor, gfMul_comm b, gfMul_comm c]

theorem cwSymbol_xor (x y : BitVec 44) (p : Nat) : cwSymbol (x ^^^ y) p = cwSymbol x p ^^^ cwSymbol y p := by
  unfold cwSymbol
  split <;> (ext i hi; simp)

theorem foldl_xor {n : Nat} (l : List (BitVec n)) (a : BitVec n) : l.foldl (· ^^^ ·) a = a ^^^ l.foldl (· ^^^ ·) 0 := by
  induction l generalizing a with
  | nil => simp
  | cons x r ih => rw [List.foldl_cons, ih, List.foldl_cons, ih (0 ^^^ x)]; simp [BitVec.xor_assoc]

theorem foldl_xor_map {n : Nat} {β : Type} (l : List β) (f g : β → BitVec n) :
    (l.map fun b => f b ^^^ g b).foldl (· ^^^ ·) 0 = (l.map f).foldl (· ^^^ ·) 0 ^^^ (l.map g).foldl (· ^^^ ·) 0 := by
  induction l with
  | nil => simp
  | cons x r ih =>
    simp only [List.map_cons, List.foldl_cons]
    rw [foldl_xor _ (0 ^^^ (f x ^^^ g x)), foldl_xor _ (0 ^^^ f x), foldl_xor _ (0 ^^^ g x), ih]
    have z : ∀ w : BitVec n, 0 ^^^ w = w := fun w => by simp
    rw [z, z, z]
    ac_rfl

/-- The syndromes of a sum are the sums of the syndromes. -/
theorem syndrome_xor (x y : BitVec 44) (j : Nat) : syndrome (x ^^^ y) j = syndrome x j ^^^ syndrome y j := by
  unfold syndrome
  rw [← foldl_xor_map]
  congr 1
  exact List.map_congr_left fun p _ => by rw [cwSymbol_xor, gfMul_xor]

theorem append_xor {m n : Nat} (a b : BitVec m) (c d : BitVec n) : (a ^^^ b) ++ (c ^^^ d) = (a ++ c) ^^^ (b ++ d) := by
  apply BitVec.eq_of_getLsbD_eq
  intro i hi
  simp only [BitVec.getLsbD_append, BitVec.getLsbD_xor]
  split <;> rfl

theorem codeword_xor (c c' : BitVec 12) (d d' : Word) :
    codeword (c ^^^ c') (d ^^^ d') = codeword c d ^^^ codeword c' d' := append_xor _ _ _ _

theorem rowMul_xor (a b : BitVec 4) (row : BitVec 12) : rowMul (a ^^^ b) row = rowMul a row ^^^ rowMul b row := by
  simp only [rowMul, gfMul_xor_right, append_xor]

theorem checkBits_xor (a b : Word) : checkBits (a ^^^ b) = checkBits a ^^^ checkBits b := by
  unfold checkBits
  rw [← foldl_xor_map]
  congr 1
  exact List.map_congr_left fun p _ => by
    simp only [BitVec.extractLsb'_xor, rowMul_xor]

theorem encodeClean_xor (a b : Word) : encodeClean (a ^^^ b) = encodeClean a ^^^ encodeClean b := by
  simp only [encodeClean, checkBits_xor, codeword_xor]

/-- The word with one data symbol. -/
def symbolAt (i : Nat) (v : BitVec 4) : Word := v.setWidth 32 <<< (4 * i)

/-- A word is the sum of its symbols. -/
theorem word_symbols (d : Word) :
    d = symbolAt 0 (d.extractLsb' 0 4) ^^^ symbolAt 1 (d.extractLsb' 4 4) ^^^ symbolAt 2 (d.extractLsb' 8 4) ^^^
      symbolAt 3 (d.extractLsb' 12 4) ^^^ symbolAt 4 (d.extractLsb' 16 4) ^^^ symbolAt 5 (d.extractLsb' 20 4) ^^^
      symbolAt 6 (d.extractLsb' 24 4) ^^^ symbolAt 7 (d.extractLsb' 28 4) := by
  apply BitVec.eq_of_getLsbD_eq
  intro i hi
  interval_cases i <;> simp [symbolAt]

theorem syndrome_symbol : ∀ (i : Fin 8) (j : Fin 3) (v : BitVec 4), syndrome (encodeClean (symbolAt i.val v)) j.val = 0 := by
  decide

/-- Every clean codeword has syndromes 0 (R304, R305). -/
theorem syndrome_encodeClean (d : Word) (j : Fin 3) : syndrome (encodeClean d) j.val = 0 := by
  rw [word_symbols d]
  simp only [encodeClean_xor, syndrome_xor]
  have h := fun (i : Fin 8) v => syndrome_symbol i j v
  have h0 := h 0; have h1 := h 1; have h2 := h 2; have h3 := h 3
  have h4 := h 4; have h5 := h 5; have h6 := h 6; have h7 := h 7
  simp only [Fin.val_zero, Fin.val_one] at h0 h1
  change ∀ v, syndrome (encodeClean (symbolAt 2 v)) j.val = 0 at h2
  change ∀ v, syndrome (encodeClean (symbolAt 3 v)) j.val = 0 at h3
  change ∀ v, syndrome (encodeClean (symbolAt 4 v)) j.val = 0 at h4
  change ∀ v, syndrome (encodeClean (symbolAt 5 v)) j.val = 0 at h5
  change ∀ v, syndrome (encodeClean (symbolAt 6 v)) j.val = 0 at h6
  change ∀ v, syndrome (encodeClean (symbolAt 7 v)) j.val = 0 at h7
  simp [h0, h1, h2, h3, h4, h5, h6, h7]

/-- A stored word is classified by the pattern added to its clean codeword: the pattern's syndromes. -/
theorem syndrome_pattern (d : Word) (e : BitVec 44) (j : Fin 3) :
    syndrome (encodeClean d ^^^ e) j.val = syndrome e j.val := by
  rw [syndrome_xor, syndrome_encodeClean]
  simp

@[simp] theorem cwData_encodeClean (d : Word) : cwData (encodeClean d) = d := by
  apply BitVec.eq_of_getLsbD_eq
  intro i hi
  have e : (codeword (checkBits d) d).getLsbD i = d.getLsbD i := by
    rw [codeword, BitVec.getLsbD_append, if_pos hi]
  simp only [cwData, encodeClean, BitVec.getLsbD_extractLsb', hi, decide_true, Bool.true_and, Nat.zero_add]
  exact e

/-- A clean codeword is read as clean (R306). -/
@[simp] theorem classify_encodeClean (d : Word) : classify (encodeClean d) = .clean := by
  have h := syndrome_encodeClean d
  have h0 := h 0; have h1 := h 1; have h2 := h 2
  change syndrome (encodeClean d) 0 = 0 at h0
  change syndrome (encodeClean d) 1 = 0 at h1
  change syndrome (encodeClean d) 2 = 0 at h2
  simp [classify, h0, h1, h2]

end Sys2Proof.Machine
end

