-- ==== Sys2Proof/Laws/Issue.lean ====
section
/-! SUPPORT. What issuing an instruction, its decode check and the event wait can do, said once for every command that
issues one. -/

namespace Sys2Proof.Machine

/-- A command that issues an Xcalad instruction does what `State.issue` does. -/
theorem exec_issues (c : Instr) (h : Hart) (x : XInstr) (s : State) (hc : issues c = some (h, x)) :
    exec c s = .next (s.issue h x) := by
  cases c <;> simp only [issues, Option.some.injEq, Prod.mk.injEq, reduceCtorEq] at hc <;>
    (obtain ⟨rfl, rfl⟩ := hc; rfl)

/-- Presenting the head of a vector queue gives the head its number, adds to the waiting accesses, and changes
nothing else. -/
theorem presentHead_spec (s : State) (h : Hart) :
    ∃ l sb, s.presentHead h = (s.modHart h fun t => { t with vqueue := l }).modSb (fun _ => sb) ∧
      l.map (fun e => (e.x, e.scalar)) = (s.hart h).vqueue.map (fun e => (e.x, e.scalar)) ∧
      sb.alloc = s.ice.sb.alloc := by
  have triv : s = (s.modHart h fun t => { t with vqueue := (s.hart h).vqueue }).modSb (fun _ => s.ice.sb) := by
    have : vmod s.harts h (fun t => { t with vqueue := (s.hart h).vqueue }) = s.harts := by
      apply Vector.ext; intro i hi
      have := vmod_get s.harts h ⟨i, hi⟩ (fun t => { t with vqueue := (s.hart h).vqueue })
      change (vmod s.harts h _)[i] = if _ then _ else s.harts[i] at this
      rw [this]; split
      · rename_i e; subst e; rfl
      · rfl
    simp only [State.modHart, State.modSb, this]
  unfold State.presentHead
  cases hq : (s.hart h).vqueue with
  | nil => exact ⟨_, _, triv, by simp [hq], rfl⟩
  | cons e r =>
    simp only
    split
    · rename_i k h1 h2
      split
      · exact ⟨_, _, triv, by simp [hq], rfl⟩
      · refine ⟨{ e with sb := some (s.present (Requester.vector h) (s.xRanges k e)).2 } :: r,
          (s.present (Requester.vector h) (s.xRanges k e)).1.ice.sb, rfl, ?_, rfl⟩
        simp
    · exact ⟨_, _, triv, by simp [hq], rfl⟩

/-- A decode check that fails gives one of the five codes of R406. -/
theorem xcheck_code (h : Hart) (mp : BitVec 32) (xarg : BitVec 32) (sc : Word) (ts : Vector Tile 64) (x : XInstr)
    (c : Nat) (hh : xcheck h mp xarg sc ts x = .error c) : 1 ≤ c ∧ c ≤ 5 := by
  unfold xcheck at hh
  simp only [xIllegal, xFormat, xAlign, xLease, xSpan] at hh
  repeat' split at hh
  all_goals first | (cases hh; done) | (cases hh; decide)

/-- A hart in WFI wakes when an enabled event is pending or VFAULT is (R412). -/
theorem wakes_iff (s : State) (h : Hart) :
    s.wakes h = true ↔ (s.evpend h &&& (s.hart h).csr.even ≠ 0 ∨
      ((s.hart h).csr.vfV = true ∧ (s.hart h).trap.mieReg.getLsbD 16 = true)) := by
  simp [State.wakes, State.eventReady, State.vfaultReady]

/-- Two updates of a hart that agree on what it holds are one. -/
theorem State.modHart_congr (s : State) (h : Hart) {f g : HartState → HartState} (e : f (s.hart h) = g (s.hart h)) :
    s.modHart h f = s.modHart h g := by
  simp only [State.modHart, vmod]; unfold State.hart at e; rw [e]

end Sys2Proof.Machine
end

