-- ==== Sys2Proof/Laws/Keeps.lean ====
section
/-! SUPPORT. What every State operation keeps: the queue, the configuration, the canonical forms and the
freshness of the scoreboard numbers; the lemmas of the shared operations, the floe table, the field and recovery. -/

namespace Sys2Proof.Machine

/-- `t` comes from `s` by operations that keep the queue and the configuration, the canonical forms of the sparse stores and
the freshness of the scoreboard numbers. -/
structure Keeps (s t : State) : Prop where
  pending : t.pending = s.pending
  cfg : t.cfg = s.cfg
  tiles : s.tilesCanonical → t.tilesCanonical
  field : s.fieldCanonical → t.fieldCanonical
  store : s.storeCanonical → t.storeCanonical
  slots : s.slotsCanonical → t.slotsCanonical
  banks : s.banksCanonical → t.banksCanonical
  ids : s.idsFresh → t.idsFresh

theorem Keeps.refl (s : State) : Keeps s s := ⟨rfl, rfl, id, id, id, id, id, id⟩

theorem Keeps.upd {s t t' : State} (h : Keeps s t) (h1 : t'.pending = t.pending) (h2 : t'.cfg = t.cfg) (h3 : t'.tiles = t.tiles)
    (h4 : t'.ice.cells = t.ice.cells) (h5 : t'.ice.spares = t.ice.spares) (h6 : t'.ks.store = t.ks.store)
    (h7 : t'.hods.hod = t.hods.hod) (h8 : t'.harts = t.harts) (h9 : t'.ice.sb = t.ice.sb) : Keeps s t' := by
  obtain ⟨a, b, c, d, e, f, g, i⟩ := h
  exact ⟨h1 ▸ a, h2 ▸ b, fun k => by unfold State.tilesCanonical; rw [h3]; exact c k,
    fun k => by unfold State.fieldCanonical; rw [h4, h5]; exact d k,
    fun k => by unfold State.storeCanonical; rw [h6]; exact e k,
    fun k => by unfold State.slotsCanonical; rw [h7]; exact f k,
    fun k => by unfold State.banksCanonical State.hart; rw [h8]; exact g k,
    fun k => by unfold State.idsFresh; rw [h9]; exact i k⟩

theorem Keeps.ofMk {s t : State} {a b c d e f g h i j k l m n o p q r u v w x y z} (h1 : a = t.pending) (h2 : b = t.cfg)
    (h3 : l = t.tiles) (h4 : o.cells = t.ice.cells) (h5 : o.spares = t.ice.spares) (h6 : v.store = t.ks.store)
    (h7 : u.hod = t.hods.hod) (h8 : k = t.harts) (h9 : o.sb = t.ice.sb) (hK : Keeps s t) :
    Keeps s (State.mk a b c d e f g h i j k l m n o p q r u v w x y z) :=
  Keeps.upd hK h1 h2 h3 h4 h5 h6 h7 h8 h9

theorem Keeps.fst {s a : State} {α : Type} {e : State × α} {b : α} (he : e = (a, b)) (h : Keeps s e.1) : Keeps s a := by
  subst he; exact h

theorem Keeps.ite {s a b : State} {c : Prop} [Decidable c] (ha : Keeps s a) (hb : Keeps s b) :
    Keeps s (if c then a else b) := by
  split
  · exact ha
  · exact hb

theorem Keeps.dite {s : State} {c : Prop} [Decidable c] {a : c → State} {b : ¬c → State} (ha : ∀ h, Keeps s (a h))
    (hb : ∀ h, Keeps s (b h)) : Keeps s (if h : c then a h else b h) := by
  split
  · exact ha _
  · exact hb _

/-- Every state that an optional result holds comes from `s` so. -/
def KeepsOpt (s : State) (o : Option State) : Prop := ∀ u, o = some u → Keeps s u

theorem KeepsOpt.none {s : State} : KeepsOpt s none := fun _ h => by cases h
theorem KeepsOpt.some {s t : State} (h : Keeps s t) : KeepsOpt s (some t) := fun _ e => by cases e; exact h
theorem KeepsOpt.ite {s : State} {a b : Option State} {c : Prop} [Decidable c] (ha : KeepsOpt s a) (hb : KeepsOpt s b) :
    KeepsOpt s (if c then a else b) := by
  split
  · exact ha
  · exact hb

/-- Every next state that an outcome holds comes from `s` so. -/
def KeepsOut (s : State) (o : Host.Outcome State Fault Refusal) : Prop := ∀ u, o = .next u → Keeps s u

theorem KeepsOut.next {s t : State} (h : Keeps s t) : KeepsOut s (.next t) := fun _ e => by cases e; exact h
theorem KeepsOut.ite {s : State} {a b : Host.Outcome State Fault Refusal} {c : Prop} [Decidable c] (ha : KeepsOut s a)
    (hb : KeepsOut s b) : KeepsOut s (if c then a else b) := by
  split
  · exact ha
  · exact hb

theorem Keeps.foldl {s t : State} {α : Type} {l : List α} {f : State → α → State} (hK : Keeps s t)
    (hf : ∀ u x, Keeps s u → Keeps s (f u x)) : Keeps s (l.foldl f t) := by
  induction l generalizing t with
  | nil => exact hK
  | cons x r ih => exact ih (hf t x hK)

theorem HartState.setX_bank (t : HartState) (r : BitVec 5) (v : Word) : (t.setX r v).bank = t.bank := by
  unfold HartState.setX; split <;> rfl
theorem HartState.setPred_bank (t : HartState) (p : BitVec 3) (v : BitVec 256) : (t.setPred p v).bank = t.bank := by
  unfold HartState.setPred; split <;> rfl
theorem HartState.takeTrap_bank (t : HartState) (i : Bool) (c : Nat) (v : Word) : (t.takeTrap i c v).bank = t.bank := rfl
theorem HartState.mret_bank (t : HartState) : t.mret.bank = t.bank := rfl
theorem HartState.vfault_bank (t : HartState) (pc : Word) (c : BitVec 4) : (t.vfault pc c).bank = t.bank := rfl
theorem HartState.recovered_bank (t : HartState) (f : Bool) : (t.recovered f).bank = t.bank := by
  unfold HartState.recovered; (repeat' split) <;> rfl
theorem HartState.enter_bank (t : HartState) (p : List PmpEntry) (pc arg : Word) (i : Nat) :
    (t.enter p pc arg i).bank = t.bank := rfl
theorem HartState.writeCsr_bank (t : HartState) (n : BitVec 12) (v met : Word) : (t.writeCsr n v met).bank = t.bank := by
  unfold HartState.writeCsr; (repeat' split) <;> rfl
theorem Hod.post_slots (d : Hod) (ws : List Word) (h : swf 0 d.inSlots = true ∧ swf 0 d.outSlots = true) :
    swf 0 (d.post ws).inSlots = true ∧ swf 0 (d.post ws).outSlots = true := ⟨h.1, swf_ssetMany _ _ _ h.2⟩
theorem Tile.mark_data (t : Tile) (i : Nat) (h : swf 0 t.data = true) : swf 0 (t.mark i).data = true := swf_sset _ _ _ _ h

theorem State.modHart_keeps {s t : State} (hK : Keeps s t) (g : Hart) (f : HartState → HartState)
    (hf : swf {} (t.hart g).bank = true → swf {} (f (t.hart g)).bank = true) : Keeps s (t.modHart g f) := by
  obtain ⟨a, b, c, d, e, f', g', i⟩ := hK
  refine ⟨a, b, c, d, e, f', fun k h => ?_, i⟩
  rw [State.modHart_harts_get]
  split
  · exact hf (g' k g)
  · exact g' k h

theorem State.modTile_keeps {s t : State} (hK : Keeps s t) (g : TileReg) (f : Tile → Tile)
    (hf : swf 0 (t.tiles.get g).data = true → swf 0 (f (t.tiles.get g)).data = true) : Keeps s (t.modTile g f) := by
  obtain ⟨a, b, c, d, e, f', g', i⟩ := hK
  refine ⟨a, b, fun k u => ?_, d, e, f', g', i⟩
  rw [State.modTile_get]
  split
  · exact hf (c k g)
  · exact c k u

theorem State.modCh_keeps {s t : State} (hK : Keeps s t) (a_c : Fin 32) (a_f : Channel → Channel) :
    Keeps s (State.modCh t a_c a_f) := by
  unfold State.modCh
  repeat' first
    | with_reducible assumption
    | (with_reducible refine Keeps.ofMk rfl rfl rfl rfl rfl rfl rfl rfl rfl ?_)

theorem State.modPort_keeps {s t : State} (hK : Keeps s t) (a_p : Fin 4) (a_f : Port → Port) :
    Keeps s (State.modPort t a_p a_f) := by
  unfold State.modPort
  repeat' first
    | with_reducible assumption
    | (with_reducible refine Keeps.ofMk rfl rfl rfl rfl rfl rfl rfl rfl rfl ?_)

theorem State.modWin_keeps {s t : State} (hK : Keeps s t) (a_w : Fin 64) (a_f : Window → Window) :
    Keeps s (State.modWin t a_w a_f) := by
  unfold State.modWin
  repeat' first
    | with_reducible assumption
    | (with_reducible refine Keeps.ofMk rfl rfl rfl rfl rfl rfl rfl rfl rfl ?_)

theorem State.modNbrRegs_keeps {s t : State} (hK : Keeps s t) (a_r : Reader) (a_f : NbrRegs → NbrRegs) :
    Keeps s (State.modNbrRegs t a_r a_f) := by
  unfold State.modNbrRegs
  repeat' first
    | with_reducible assumption
    | (with_reducible refine Keeps.ofMk rfl rfl rfl rfl rfl rfl rfl rfl rfl ?_)

theorem State.modDrfRegs_keeps {s t : State} (hK : Keeps s t) (a_r : Reader) (a_f : DriftRegs → DriftRegs) :
    Keeps s (State.modDrfRegs t a_r a_f) := by
  unfold State.modDrfRegs
  repeat' first
    | with_reducible assumption
    | (with_reducible refine Keeps.ofMk rfl rfl rfl rfl rfl rfl rfl rfl rfl ?_)

theorem State.modHod_keeps {s t : State} (hK : Keeps s t) (g : Fin 3) (f : Hod → Hod)
    (hf : swf 0 (t.hods.hod.get g).inSlots = true ∧ swf 0 (t.hods.hod.get g).outSlots = true →
      swf 0 (f (t.hods.hod.get g)).inSlots = true ∧ swf 0 (f (t.hods.hod.get g)).outSlots = true) :
    Keeps s (t.modHod g f) := by
  obtain ⟨a, b, c, d, e, f', g', i⟩ := hK
  refine ⟨a, b, c, d, e, fun k u => ?_, g', i⟩
  have : (t.modHod g f).hods.hod.get u = if u = g then f (t.hods.hod.get g) else t.hods.hod.get u := vmod_get _ _ _ _
  rw [this]
  split
  · exact hf (f' k g)
  · exact f' k u

theorem State.modTimer_keeps {s t : State} (hK : Keeps s t) (a_n : Fin 4) (a_f : Timer → Timer) :
    Keeps s (State.modTimer t a_n a_f) := by
  unfold State.modTimer
  repeat' first
    | with_reducible assumption
    | (with_reducible refine Keeps.ofMk rfl rfl rfl rfl rfl rfl rfl rfl rfl ?_)

theorem State.modLane_keeps {s t : State} (hK : Keeps s t) (a_g : Fin 17) (a_f : LaneGroup → LaneGroup) :
    Keeps s (State.modLane t a_g a_f) := by
  unfold State.modLane
  repeat' first
    | with_reducible assumption
    | (with_reducible refine Keeps.ofMk rfl rfl rfl rfl rfl rfl rfl rfl rfl ?_)

theorem State.setFstat_keeps {s t : State} (hK : Keeps s t) (a_r : Reader) (a_c : BitVec 4) :
    Keeps s (State.setFstat t a_r a_c) := by
  unfold State.setFstat
  repeat' first
    | with_reducible assumption
    | (with_reducible refine Keeps.ofMk rfl rfl rfl rfl rfl rfl rfl rfl rfl ?_)

theorem State.setWstat_keeps {s t : State} (hK : Keeps s t) (a_r : Reader) (a_c : BitVec 4) :
    Keeps s (State.setWstat t a_r a_c) := by
  unfold State.setWstat
  repeat' first
    | with_reducible assumption
    | with_reducible apply State.modNbrRegs_keeps

theorem State.setRstat_keeps {s t : State} (hK : Keeps s t) (a_r : Reader) (a_c : BitVec 4) :
    Keeps s (State.setRstat t a_r a_c) := by
  unfold State.setRstat
  repeat' first
    | with_reducible assumption
    | with_reducible apply State.modDrfRegs_keeps

theorem State.modSb_keeps {s t : State} (hK : Keeps s t) (f : Scoreboard → Scoreboard)
    (hf : (∀ a ∈ t.ice.sb.alloc ++ t.ice.sb.waiting, a.id < t.ice.sb.nextId) →
      ∀ a ∈ (f t.ice.sb).alloc ++ (f t.ice.sb).waiting, a.id < (f t.ice.sb).nextId) : Keeps s (t.modSb f) := by
  obtain ⟨a, b, c, d, e, f', g', i⟩ := hK
  exact ⟨a, b, c, d, e, f', g', fun k => hf (i k)⟩

theorem State.forEach_keeps {s t : State} (hK : Keeps s t) {α : Type} (l : List α) (f : State → α → State)
    (hf : ∀ u x, Keeps s u → Keeps s (f u x)) : Keeps s (t.forEach l f) := Keeps.foldl hK hf

theorem State.countPreempt_keeps {s t : State} (hK : Keeps s t) (a_lost : List Hart) :
    Keeps s (State.countPreempt t a_lost) := by
  unfold State.countPreempt
  repeat' first
    | with_reducible assumption
    | with_reducible apply Keeps.ite
    | with_reducible apply Keeps.dite
    | split
    | intro _
    | (with_reducible refine Keeps.fst (by assumption) ?_)
    | (with_reducible refine Keeps.ofMk rfl rfl rfl rfl rfl rfl rfl rfl rfl ?_)

theorem State.stateWrite_keeps {s t : State} (hK : Keeps s t) (a_reaches : Reader → Bool) (a_r : Reader) (a_lost :
    List Hart) (a_f : State → State) (hf : ∀ u, Keeps s u → Keeps s (a_f u)):
    Keeps s (State.stateWrite t a_reaches a_r a_lost a_f) := by
  unfold State.stateWrite
  repeat' first
    | with_reducible assumption
    | with_reducible apply hf
    | with_reducible apply State.countPreempt_keeps
    | with_reducible apply Keeps.ite

theorem State.fresh_keeps {s t : State} (hK : Keeps s t) :
    Keeps s (State.fresh t) := by
  unfold State.fresh
  repeat' first
    | with_reducible assumption
    | (with_reducible refine Keeps.ofMk rfl rfl rfl rfl rfl rfl rfl rfl rfl ?_)

theorem State.countEvent_keeps {s t : State} (hK : Keeps s t) (a_code : BitVec 8) (a_n : Nat) :
    Keeps s (State.countEvent t a_code a_n) := by
  unfold State.countEvent
  repeat' first
    | with_reducible assumption
    | (with_reducible refine Keeps.ofMk rfl rfl rfl rfl rfl rfl rfl rfl rfl ?_)

theorem State.toggleObs_keeps {s t : State} (hK : Keeps s t) (a_code : BitVec 8) :
    Keeps s (State.toggleObs t a_code) := by
  unfold State.toggleObs
  repeat' first
    | with_reducible assumption
    | (with_reducible refine Keeps.ofMk rfl rfl rfl rfl rfl rfl rfl rfl rfl ?_)

theorem State.advanceTo_keeps {s t : State} (hK : Keeps s t) (a_n : Nat) :
    Keeps s (State.advanceTo t a_n) := by
  unfold State.advanceTo
  repeat' first
    | with_reducible assumption
    | with_reducible apply State.countEvent_keeps
    | with_reducible apply State.toggleObs_keeps
    | with_reducible apply Keeps.ite
    | (with_reducible refine Keeps.ofMk rfl rfl rfl rfl rfl rfl rfl rfl rfl ?_)

theorem State.timeTo_keeps {s t : State} (hK : Keeps s t) (a_t : Nat) :
    Keeps s (State.timeTo t a_t) := by
  unfold State.timeTo
  repeat' first
    | with_reducible assumption
    | with_reducible apply Keeps.ite
    | with_reducible apply Keeps.dite
    | split
    | intro _
    | (with_reducible refine Keeps.fst (by assumption) ?_)
    | (with_reducible refine Keeps.ofMk rfl rfl rfl rfl rfl rfl rfl rfl rfl ?_)

theorem State.raiseFlags_keeps {s t : State} (hK : Keeps s t) (a_h : Hart) (a_f : FpFlags) :
    Keeps s (State.raiseFlags t a_h a_f) := by
  unfold State.raiseFlags
  repeat' first
    | with_reducible assumption
    | with_reducible apply State.modHart_keeps
    | with_reducible apply Keeps.ite
    | intro _

theorem State.raiseEvent_keeps {s t : State} (hK : Keeps s t) (a_h : Hart) (a_bit : Nat) :
    Keeps s (State.raiseEvent t a_h a_bit) := by
  unfold State.raiseEvent
  repeat' first
    | with_reducible assumption
    | with_reducible apply State.modHart_keeps
    | with_reducible apply Keeps.ite
    | intro _

theorem State.driftEvent_keeps {s t : State} (hK : Keeps s t) (a_c : Fin 32) :
    Keeps s (State.driftEvent t a_c) := by
  unfold State.driftEvent
  repeat' first
    | with_reducible assumption
    | with_reducible apply State.raiseEvent_keeps
    | with_reducible apply Keeps.ite

theorem State.raiseFor_keeps {s t : State} (hK : Keeps s t) (a_r : Reader) (a_bit : Nat) :
    Keeps s (State.raiseFor t a_r a_bit) := by
  unfold State.raiseFor
  repeat' first
    | with_reducible assumption
    | with_reducible apply State.raiseEvent_keeps
    | split

theorem State.postOut_keeps {s t : State} (hK : Keeps s t) (a_h : Fin 3) (a_ws : List Word) :
    Keeps s (State.postOut t a_h a_ws) := by
  unfold State.postOut
  repeat' first
    | with_reducible assumption
    | with_reducible apply State.modHod_keeps
    | with_reducible apply Keeps.ite
    | with_reducible apply Keeps.dite
    | intro _
    | (with_reducible refine Keeps.fst (by assumption) ?_)
    | (with_reducible refine Keeps.ofMk rfl rfl rfl rfl rfl rfl rfl rfl rfl ?_)
    | exact Hod.post_slots _ _ (by assumption)

theorem flushOut_keeps {s t : State} (hK : Keeps s t) (a_h : Fin 3) (l : List (Fin 3 × List Word)) :
    Keeps s (flushOut a_h l t) := by
  induction l generalizing t with
  | nil => exact hK
  | cons q r ih =>
    unfold flushOut
    split
    · split
      · exact ih (State.modHod_keeps hK _ _ (Hod.post_slots _ _))
      · exact Keeps.ofMk rfl rfl rfl rfl rfl rfl rfl rfl rfl hK
    · exact ih (Keeps.ofMk rfl rfl rfl rfl rfl rfl rfl rfl rfl hK)

theorem State.flushHod_keeps {s t : State} (hK : Keeps s t) (a_h : Fin 3) :
    Keeps s (State.flushHod t a_h) := by
  unfold State.flushHod
  repeat' first
    | with_reducible assumption
    | with_reducible apply flushOut_keeps
    | with_reducible apply Keeps.ite
    | with_reducible apply Keeps.dite
    | split
    | intro _
    | (with_reducible refine Keeps.fst (by assumption) ?_)
    | (with_reducible refine Keeps.ofMk rfl rfl rfl rfl rfl rfl rfl rfl rfl ?_)

theorem State.reportPver_keeps {s t : State} (hK : Keeps s t) (a_pver : BitVec 4) (a_op : BitVec 8) (a_ws : List
    Word) :
    Keeps s (State.reportPver t a_pver a_op a_ws) := by
  unfold State.reportPver
  repeat' first
    | with_reducible assumption
    | with_reducible apply State.postOut_keeps
    | (with_reducible refine Keeps.ofMk rfl rfl rfl rfl rfl rfl rfl rfl rfl ?_)

theorem State.reportNow_keeps {s t : State} (hK : Keeps s t) (a_op : BitVec 8) (a_ws : List Word) :
    Keeps s (State.reportNow t a_op a_ws) := by
  unfold State.reportNow
  repeat' first
    | with_reducible assumption
    | with_reducible apply State.reportPver_keeps

theorem State.report_keeps {s t : State} (hK : Keeps s t) (a_op : BitVec 8) (a_ws : List Word) :
    Keeps s (State.report t a_op a_ws) := by
  unfold State.report
  repeat' first
    | with_reducible assumption
    | with_reducible apply State.reportNow_keeps
    | with_reducible apply Keeps.ite
    | (with_reducible refine Keeps.ofMk rfl rfl rfl rfl rfl rfl rfl rfl rfl ?_)

theorem State.reply_keeps {s t : State} (hK : Keeps s t) (a_hod : Fin 3) (a_op : BitVec 8) (a_tag : BitVec 16)
    (a_job : BitVec 16) (a_status : BitVec 16) (a_ws : List Word) :
    Keeps s (State.reply t a_hod a_op a_tag a_job a_status a_ws) := by
  unfold State.reply
  repeat' first
    | with_reducible assumption
    | with_reducible apply State.postOut_keeps
    | with_reducible apply Keeps.ite

theorem State.modOrder_keeps {s t : State} (hK : Keeps s t) (a_n : Nat) (a_f : OpenOrder → OpenOrder) :
    Keeps s (State.modOrder t a_n a_f) := by
  unfold State.modOrder
  repeat' first
    | with_reducible assumption
    | with_reducible apply Keeps.ite
    | with_reducible apply Keeps.dite
    | split
    | intro _
    | (with_reducible refine Keeps.fst (by assumption) ?_)
    | (with_reducible refine Keeps.ofMk rfl rfl rfl rfl rfl rfl rfl rfl rfl ?_)

theorem State.closeOrder_keeps {s t : State} (hK : Keeps s t) (a_n : Nat) :
    Keeps s (State.closeOrder t a_n) := by
  unfold State.closeOrder
  repeat' first
    | with_reducible assumption
    | with_reducible apply Keeps.ite
    | with_reducible apply Keeps.dite
    | split
    | intro _
    | (with_reducible refine Keeps.fst (by assumption) ?_)
    | (with_reducible refine Keeps.ofMk rfl rfl rfl rfl rfl rfl rfl rfl rfl ?_)

theorem State.endOrder_keeps {s t : State} (hK : Keeps s t) (a_o : OpenOrder) (a_status : BitVec 16) (a_ws : List
    Word) :
    Keeps s (State.endOrder t a_o a_status a_ws) := by
  unfold State.endOrder
  repeat' first
    | with_reducible assumption
    | with_reducible apply State.reply_keeps
    | with_reducible apply State.closeOrder_keeps

theorem State.noteVector_keeps {s t : State} (hK : Keeps s t) (a_h : Hart) (a_op : BitVec 6) (a_sum : DWord) :
    Keeps s (State.noteVector t a_h a_op a_sum) := by
  unfold State.noteVector
  repeat' first
    | with_reducible assumption
    | with_reducible apply State.modOrder_keeps
    | with_reducible apply Keeps.ite
    | with_reducible apply Keeps.dite
    | split

theorem State.present_keeps {s t : State} (hK : Keeps s t) (a_who : Requester) (a_rs : List Range) :
    Keeps s (t.present a_who a_rs).1 := by
  refine State.modSb_keeps hK (fun sb => { sb with waiting := sb.waiting ++ [⟨t.ice.sb.nextId, a_who, a_rs⟩], nextId := t.ice.sb.nextId + 1 }) fun h a ha => ?_
  simp only [List.mem_append, List.mem_singleton] at h ha
  rcases ha with ha | ha | rfl
  · exact Nat.lt_succ_of_lt (h a (.inl ha))
  · exact Nat.lt_succ_of_lt (h a (.inr ha))
  · exact Nat.lt_succ_self _

theorem State.allocate_keeps {s t : State} (hK : Keeps s t) (a_id : Nat) : Keeps s (t.allocate a_id) := by
  refine State.modSb_keeps hK _ fun h a ha => ?_
  simp only [List.mem_append, List.mem_filter] at h ha
  rcases ha with (ha | ha) | ha
  · exact h a (.inl ha)
  · exact h a (.inr ha.1)
  · exact h a (.inr ha.1)

theorem State.release_keeps {s t : State} (hK : Keeps s t) (a_id : Nat) : Keeps s (t.release a_id) := by
  refine State.modSb_keeps hK _ fun h a ha => ?_
  simp only [List.mem_append, List.mem_filter] at h ha
  rcases ha with ha | ha
  · exact h a (.inl ha.1)
  · exact h a (.inr ha.1)

theorem State.startChain_keeps {s t : State} (hK : Keeps s t) (a_c : Fin 32) (a_ice : Bool) (a_addr : Nat) (a_bases
    : Bases) (a_starter : Option Reader) (a_order : Option Nat) :
    Keeps s (State.startChain t a_c a_ice a_addr a_bases a_starter a_order) := by
  unfold State.startChain
  repeat' first
    | with_reducible assumption
    | with_reducible apply State.modCh_keeps

theorem State.stopChannel_keeps {s t : State} (hK : Keeps s t) (a_c : Fin 32) :
    Keeps s (State.stopChannel t a_c) := by
  unfold State.stopChannel
  repeat' first
    | with_reducible assumption
    | with_reducible apply State.modCh_keeps

theorem State.stopCourses_keeps {s t : State} (hK : Keeps s t) (a_sel : Reader → Bool) :
    Keeps s (State.stopCourses t a_sel) := by
  unfold State.stopCourses
  repeat' first
    | with_reducible assumption
    | (with_reducible refine Keeps.ofMk rfl rfl rfl rfl rfl rfl rfl rfl rfl ?_)

theorem State.endCall_keeps {s t : State} (hK : Keeps s t) (a_c : ExtCall) (a_st : BitVec 16) (a_ws : List Word) :
    Keeps s (State.endCall t a_c a_st a_ws) := by
  unfold State.endCall
  repeat' first
    | with_reducible assumption
    | with_reducible apply State.modHart_keeps
    | with_reducible apply State.forEach_keeps
    | with_reducible apply State.stopChannel_keeps
    | with_reducible apply State.stopCourses_keeps
    | with_reducible apply Keeps.ite
    | with_reducible apply Keeps.dite
    | split
    | intro _
    | (with_reducible refine Keeps.fst (by assumption) ?_)
    | (with_reducible refine Keeps.ofMk rfl rfl rfl rfl rfl rfl rfl rfl rfl ?_)

theorem State.extFault_keeps {s t : State} (hK : Keeps s t) (a_h : Hart) :
    Keeps s (State.extFault t a_h) := by
  unfold State.extFault
  repeat' first
    | with_reducible assumption
    | with_reducible apply State.endOrder_keeps
    | with_reducible apply State.endCall_keeps
    | split

theorem State.trap_keeps {s t : State} (hK : Keeps s t) (a_h : Hart) (a_cause : Nat) (a_tval : Word) :
    Keeps s (State.trap t a_h a_cause a_tval) := by
  unfold State.trap
  repeat' first
    | with_reducible assumption
    | with_reducible apply State.modHart_keeps
    | with_reducible apply State.extFault_keeps
    | with_reducible apply Keeps.ite
    | with_reducible apply Keeps.dite
    | intro _
    | (simp only [HartState.takeTrap_bank]; assumption)

theorem State.takeDeadlock_keeps {s t : State} (hK : Keeps s t) (a_h : Hart) :
    Keeps s (State.takeDeadlock t a_h) := by
  unfold State.takeDeadlock
  repeat' first
    | with_reducible assumption
    | with_reducible apply State.modHart_keeps
    | with_reducible apply State.trap_keeps
    | with_reducible apply Keeps.ite
    | with_reducible apply Keeps.dite
    | split
    | intro _

theorem State.conflict_keeps {s t : State} (hK : Keeps s t) (a_reg : BitVec 16) (a_reason : BitVec 4) (a_src :
    Reader) :
    Keeps s (State.conflict t a_reg a_reason a_src) := by
  unfold State.conflict
  repeat' first
    | with_reducible assumption
    | (with_reducible refine Keeps.ofMk rfl rfl rfl rfl rfl rfl rfl rfl rfl ?_)

theorem State.setSpare_keeps {s t : State} (hK : Keeps s t) (a_bank a_n : Nat) (a_e : SpareEntry) :
    Keeps s (t.setSpare a_bank a_n a_e) := by
  obtain ⟨a, b, c, d, e, f', g', i⟩ := hK
  exact ⟨a, b, c, fun k => ⟨(d k).1, swf_sset _ _ _ _ (d k).2⟩, e, f', g', i⟩

theorem State.setCell_keeps {s t : State} (hK : Keeps s t) (a_cell : Nat) (a_c : BitVec 44) :
    Keeps s (t.setCell a_cell a_c) := by
  obtain ⟨a, b, c, d, e, f', g', i⟩ := hK
  exact ⟨a, b, c, fun k => ⟨swf_sset _ _ _ _ (d k).1, (d k).2⟩, e, f', g', i⟩

theorem State.setFirn_keeps {s t : State} (hK : Keeps s t) (a_i : Fin 64) (a_e : Option FirnEntry) :
    Keeps s (State.setFirn t a_i a_e) := by
  unfold State.setFirn
  repeat' first
    | with_reducible assumption
    | with_reducible apply Keeps.ite
    | with_reducible apply Keeps.dite
    | split
    | intro _
    | (with_reducible refine Keeps.fst (by assumption) ?_)
    | (with_reducible refine Keeps.ofMk rfl rfl rfl rfl rfl rfl rfl rfl rfl ?_)

theorem firnGrants_keeps {s t : State} (hK : Keeps s t) (a_y0 : List FirnAsk) :
    Keeps s (firnGrants a_y0 t) := by
  induction a_y0 generalizing t  with
  | nil =>
    unfold firnGrants
    repeat' first
      | with_reducible assumption
  | cons y0 y1 ih =>
    unfold firnGrants
    repeat' first
      | with_reducible assumption
      | with_reducible apply ih
      | with_reducible apply State.setFirn_keeps
      | with_reducible apply Keeps.ite
      | with_reducible apply Keeps.dite
      | split
      | intro _
      | (with_reducible refine Keeps.fst (by assumption) ?_)
      | (with_reducible refine Keeps.ofMk rfl rfl rfl rfl rfl rfl rfl rfl rfl ?_)

theorem State.firnGrant_keeps {s t : State} (hK : Keeps s t) :
    Keeps s (State.firnGrant t) := by
  unfold State.firnGrant
  repeat' first
    | with_reducible assumption
    | with_reducible apply firnGrants_keeps
    | with_reducible apply Keeps.ite
    | with_reducible apply Keeps.dite
    | split
    | intro _
    | (with_reducible refine Keeps.fst (by assumption) ?_)
    | (with_reducible refine Keeps.ofMk rfl rfl rfl rfl rfl rfl rfl rfl rfl ?_)

theorem State.firnAsk_keeps {s t : State} (hK : Keeps s t) (a_acc : Nat) (a_who : Requester) :
    Keeps s (State.firnAsk t a_acc a_who) := by
  unfold State.firnAsk
  repeat' first
    | with_reducible assumption
    | with_reducible apply State.firnGrant_keeps
    | with_reducible apply Keeps.ite
    | with_reducible apply Keeps.dite
    | split
    | intro _
    | (with_reducible refine Keeps.fst (by assumption) ?_)
    | (with_reducible refine Keeps.ofMk rfl rfl rfl rfl rfl rfl rfl rfl rfl ?_)

theorem State.firnDrop_keeps {s t : State} (hK : Keeps s t) (a_acc : Nat) :
    Keeps s (State.firnDrop t a_acc) := by
  unfold State.firnDrop
  repeat' first
    | with_reducible assumption
    | with_reducible apply State.firnGrant_keeps
    | with_reducible apply Keeps.ite
    | with_reducible apply Keeps.dite
    | split
    | intro _
    | (with_reducible refine Keeps.fst (by assumption) ?_)
    | (with_reducible refine Keeps.ofMk rfl rfl rfl rfl rfl rfl rfl rfl rfl ?_)

theorem State.sendFault_keeps {s t : State} (hK : Keeps s t) (a_ws : List Word) :
    Keeps s (State.sendFault t a_ws) := by
  unfold State.sendFault
  repeat' first
    | with_reducible assumption
    | with_reducible apply State.reportNow_keeps
    | (with_reducible refine Keeps.ofMk rfl rfl rfl rfl rfl rfl rfl rfl rfl ?_)

theorem State.tx_keeps {s t : State} (hK : Keeps s t) (a_p : Fin 4) (a_m : NbrMsg) :
    Keeps s (State.tx t a_p a_m) := by
  unfold State.tx
  repeat' first
    | with_reducible assumption
    | with_reducible apply State.modPort_keeps

theorem State.sendRefuse_keeps {s t : State} (hK : Keeps s t) (a_p : Fin 4) (a_win : Fin 64) (a_gen : BitVec 16)
    (a_seq : BitVec 16) (a_why : Reason) :
    Keeps s (State.sendRefuse t a_p a_win a_gen a_seq a_why) := by
  unfold State.sendRefuse
  repeat' first
    | with_reducible assumption
    | with_reducible apply State.tx_keeps

theorem State.settleAck_keeps {s t : State} (hK : Keeps s t) (a_p : Fin 4) :
    Keeps s (State.settleAck t a_p) := by
  unfold State.settleAck
  repeat' first
    | with_reducible assumption
    | with_reducible apply State.modPort_keeps

theorem State.lateArrivals_keeps {s t : State} (hK : Keeps s t) (a_w : Fin 64) :
    Keeps s (State.lateArrivals t a_w) := by
  unfold State.lateArrivals
  repeat' first
    | with_reducible assumption
    | with_reducible apply State.modPort_keeps
    | with_reducible apply State.forEach_keeps
    | with_reducible apply State.release_keeps
    | with_reducible apply State.sendRefuse_keeps
    | with_reducible apply State.settleAck_keeps
    | with_reducible apply Keeps.ite
    | with_reducible apply Keeps.dite
    | split
    | intro _
    | (with_reducible refine Keeps.fst (by assumption) ?_)
    | (with_reducible refine Keeps.ofMk rfl rfl rfl rfl rfl rfl rfl rfl rfl ?_)

theorem State.closeWindows_keeps {s t : State} (hK : Keeps s t) (a_sel : Window → Bool) :
    Keeps s (State.closeWindows t a_sel) := by
  refine State.forEach_keeps hK _ _ fun u x h => ?_
  split
  · exact State.lateArrivals_keeps (State.modWin_keeps h _ _) _
  · exact h

theorem State.haltAll_keeps {s t : State} (hK : Keeps s t) :
    Keeps s (State.haltAll t) := by
  unfold State.haltAll
  repeat' first
    | with_reducible assumption
    | with_reducible apply State.modHart_keeps
    | with_reducible apply State.forEach_keeps
    | with_reducible apply Keeps.ite
    | intro _

theorem State.dropPending_keeps {s t : State} (hK : Keeps s t) :
    Keeps s (State.dropPending t) := by
  unfold State.dropPending
  repeat' first
    | with_reducible assumption
    | split
    | (with_reducible refine Keeps.ofMk rfl rfl rfl rfl rfl rfl rfl rfl rfl ?_)

theorem State.dropReading_keeps {s t : State} (hK : Keeps s t) (a_sel : Reader → Bool) :
    Keeps s (State.dropReading t a_sel) := by
  unfold State.dropReading
  repeat' first
    | with_reducible assumption
    | with_reducible apply State.forEach_keeps
    | with_reducible apply State.release_keeps
    | intro _
    | (with_reducible refine Keeps.ofMk rfl rfl rfl rfl rfl rfl rfl rfl rfl ?_)

theorem State.stopEngines_keeps {s t : State} (hK : Keeps s t) :
    Keeps s (State.stopEngines t) := by
  unfold State.stopEngines
  repeat' first
    | with_reducible assumption
    | with_reducible apply State.modPort_keeps
    | with_reducible apply State.forEach_keeps
    | with_reducible apply State.stopChannel_keeps
    | with_reducible apply State.stopCourses_keeps
    | with_reducible apply State.dropReading_keeps
    | intro _

theorem State.stopWork_keeps {s t : State} (hK : Keeps s t) :
    Keeps s (State.stopWork t) := by
  unfold State.stopWork
  repeat' first
    | with_reducible assumption
    | with_reducible apply State.closeWindows_keeps
    | with_reducible apply State.stopEngines_keeps

theorem State.uncorrectable_keeps {s t : State} (hK : Keeps s t) (a_code : BitVec 8) (a_who : Src) (a_loc : Word)
    (a_loc2 : Word) :
    Keeps s (State.uncorrectable t a_code a_who a_loc a_loc2) := by
  unfold State.uncorrectable
  repeat' first
    | with_reducible assumption
    | with_reducible apply State.sendFault_keeps
    | with_reducible apply State.haltAll_keeps
    | with_reducible apply State.stopWork_keeps
    | split
    | (with_reducible refine Keeps.ofMk rfl rfl rfl rfl rfl rfl rfl rfl rfl ?_)

theorem State.spareOut_keeps {s t : State} (hK : Keeps s t) (a_bank : Nat) (a_row : Nat) :
    Keeps s (State.spareOut t a_bank a_row) := by
  unfold State.spareOut
  repeat' first
    | with_reducible assumption
    | with_reducible apply State.report_keeps

theorem State.triggerSparing_keeps {s t : State} (hK : Keeps s t) (a_bank : Nat) (a_row : Nat) :
    Keeps s (State.triggerSparing t a_bank a_row) := by
  unfold State.triggerSparing
  repeat' first
    | with_reducible assumption
    | with_reducible apply State.present_keeps
    | with_reducible apply State.spareOut_keeps
    | with_reducible apply Keeps.ite
    | (with_reducible refine Keeps.ofMk rfl rfl rfl rfl rfl rfl rfl rfl rfl ?_)

theorem State.unlogRow_keeps {s t : State} (hK : Keeps s t) (a_bank : Nat) (a_row : Nat) :
    Keeps s (State.unlogRow t a_bank a_row) := by
  unfold State.unlogRow
  repeat' first
    | with_reducible assumption
    | (with_reducible refine Keeps.ofMk rfl rfl rfl rfl rfl rfl rfl rfl rfl ?_)

theorem State.countCorrection_keeps {s t : State} (hK : Keeps s t) (a_bank : Nat) (a_q : Nat) :
    Keeps s (State.countCorrection t a_bank a_q) := by
  unfold State.countCorrection
  repeat' first
    | with_reducible assumption
    | with_reducible apply State.triggerSparing_keeps
    | with_reducible apply Keeps.ite
    | (with_reducible refine Keeps.ofMk rfl rfl rfl rfl rfl rfl rfl rfl rfl ?_)

theorem State.readLevel_keeps {s t : State} (hK : Keeps s t) (a_who : Src) (a_bank : Nat) (a_q : Nat) (a_atOnce :
    Bool) :
    Keeps s (State.readLevel t a_who a_bank a_q a_atOnce).1 := by
  unfold State.readLevel
  repeat' first
    | with_reducible assumption
    | split
    | dsimp only
    | with_reducible apply State.setCell_keeps
    | with_reducible apply State.uncorrectable_keeps
    | with_reducible apply State.countCorrection_keeps
    | (with_reducible refine Keeps.ofMk rfl rfl rfl rfl rfl rfl rfl rfl rfl ?_)

theorem State.readPhys_keeps {s t : State} (hK : Keeps s t) (a_who : Src) (a_p : Nat) (a_hash : Bool) :
    Keeps s (State.readPhys t a_who a_p a_hash).1 := by
  unfold State.readPhys
  repeat' first
    | with_reducible assumption
    | split
    | dsimp only
    | with_reducible apply State.readLevel_keeps

theorem State.writeResident_keeps {s t : State} (hK : Keeps s t) (a_f : Fin 64) (a_w : Nat) (a_d : Word) (a_mark :
    Bool) :
    Keeps s (State.writeResident t a_f a_w a_d a_mark) := by
  unfold State.writeResident
  repeat' first
    | with_reducible assumption
    | with_reducible apply State.setCell_keeps
    | split

theorem State.writeBytes_keeps {s t : State} (hK : Keeps s t) (a_who : Src) (a_f : Fin 64) (a_w : Nat) (a_mask :
    BitVec 4) (a_d : Word) (a_mark : Bool) :
    Keeps s (State.writeBytes t a_who a_f a_w a_mask a_d a_mark) := by
  unfold State.writeBytes
  repeat' first
    | with_reducible assumption
    | with_reducible apply State.countEvent_keeps
    | with_reducible apply State.readPhys_keeps
    | with_reducible apply State.writeResident_keeps
    | split

theorem State.firnFlush_keeps {s t : State} (hK : Keeps s t) (a_acc : Nat) :
    Keeps s (State.firnFlush t a_acc) := by
  unfold State.firnFlush
  repeat' first
    | with_reducible assumption
    | with_reducible apply State.countEvent_keeps
    | with_reducible apply State.setFirn_keeps
    | with_reducible apply State.writeBytes_keeps
    | with_reducible apply Keeps.foldl
    | with_reducible apply Keeps.ite
    | with_reducible apply Keeps.dite
    | split
    | intro _

theorem State.firnOpen_keeps {s t : State} (hK : Keeps s t) (a_acc : Nat) (a_f : Fin 64) (a_w : Nat) :
    Keeps s (State.firnOpen t a_acc a_f a_w) := by
  unfold State.firnOpen
  repeat' first
    | with_reducible assumption
    | with_reducible apply State.setFirn_keeps
    | with_reducible apply State.firnFlush_keeps
    | with_reducible apply Keeps.ite
    | with_reducible apply Keeps.dite
    | split

theorem State.firnRead_keeps {s t : State} (hK : Keeps s t) (a_who : Src) (a_i : Fin 64) (a_w : Nat) (a_p : Nat)
    (a_h : Bool) :
    Keeps s (State.firnRead t a_who a_i a_w a_p a_h).1 := by
  unfold State.firnRead
  repeat' first
    | with_reducible assumption
    | split
    | dsimp only
    | with_reducible apply State.setFirn_keeps
    | with_reducible apply State.readPhys_keeps
    | with_reducible apply Keeps.ite
    | with_reducible apply Keeps.dite
    | split
    | intro _
    | (with_reducible refine Keeps.fst (by assumption) ?_)

theorem State.readWord_keeps {s t : State} (hK : Keeps s t) (a_who : Src) (a_acc : Nat) (a_f : Fin 64) (a_w : Nat) :
    Keeps s (State.readWord t a_who a_acc a_f a_w).1 := by
  unfold State.readWord
  repeat' first
    | with_reducible assumption
    | split
    | dsimp only
    | with_reducible apply State.readPhys_keeps
    | with_reducible apply State.firnOpen_keeps
    | with_reducible apply State.firnRead_keeps
    | with_reducible apply Keeps.ite
    | with_reducible apply Keeps.dite
    | split
    | intro _
    | (with_reducible refine Keeps.fst (by assumption) ?_)

theorem State.readWords_keeps {s t : State} (hK : Keeps s t) (a_who : Src) (a_acc : Nat) (a_f : Fin 64) (a_y0 :
    List Nat) :
    Keeps s (State.readWords t a_who a_acc a_f a_y0).1 := by
  induction a_y0 generalizing t  with
  | nil =>
    unfold State.readWords
    repeat' first
      | with_reducible assumption
  | cons y0 y1 ih =>
    unfold State.readWords
    repeat' first
      | with_reducible assumption
      | split
      | with_reducible apply ih
      | with_reducible apply State.readWord_keeps
      | (with_reducible refine Keeps.fst (by assumption) ?_)

theorem State.gather_keeps {s t : State} (hK : Keeps s t) (a_who : Src) (a_acc : Nat) (a_f : Fin 64) (a_w :
    IceWrite) :
    Keeps s (State.gather t a_who a_acc a_f a_w) := by
  unfold State.gather
  repeat' first
    | with_reducible assumption
    | with_reducible apply State.setFirn_keeps
    | with_reducible apply State.writeBytes_keeps
    | with_reducible apply State.firnOpen_keeps
    | with_reducible apply Keeps.ite
    | with_reducible apply Keeps.dite
    | split

theorem State.firnStop_keeps {s t : State} (hK : Keeps s t) (a_acc : Nat) :
    Keeps s (State.firnStop t a_acc) := by
  unfold State.firnStop
  repeat' first
    | with_reducible assumption
    | with_reducible apply State.firnDrop_keeps
    | with_reducible apply State.firnFlush_keeps
    | with_reducible apply Keeps.ite

theorem State.morRead_keeps {s t : State} (hK : Keeps s t) (a_acc : Nat) (a_f : Fin 64) (a_ws : List Nat) :
    Keeps s (State.morRead t a_acc a_f a_ws) := by
  unfold State.morRead
  repeat' first
    | with_reducible assumption
    | (with_reducible refine Keeps.ofMk rfl rfl rfl rfl rfl rfl rfl rfl rfl ?_)

theorem State.morWrite_keeps {s t : State} (hK : Keeps s t) (a_acc : Nat) (a_f : Fin 64) (a_ws : List IceWrite) :
    Keeps s (State.morWrite t a_acc a_f a_ws) := by
  unfold State.morWrite
  repeat' first
    | with_reducible assumption
    | (with_reducible refine Keeps.ofMk rfl rfl rfl rfl rfl rfl rfl rfl rfl ?_)

theorem State.morDrop_keeps {s t : State} (hK : Keeps s t) (a_acc : Nat) :
    Keeps s (State.morDrop t a_acc) := by
  unfold State.morDrop
  repeat' first
    | with_reducible assumption
    | with_reducible apply Keeps.ite
    | with_reducible apply Keeps.dite
    | split
    | intro _
    | (with_reducible refine Keeps.fst (by assumption) ?_)
    | (with_reducible refine Keeps.ofMk rfl rfl rfl rfl rfl rfl rfl rfl rfl ?_)

theorem State.endAccess_keeps {s t : State} (hK : Keeps s t) (a_acc : Nat) :
    Keeps s (State.endAccess t a_acc) := by
  unfold State.endAccess
  repeat' first
    | with_reducible assumption
    | with_reducible apply State.release_keeps
    | with_reducible apply State.firnDrop_keeps
    | with_reducible apply State.firnFlush_keeps
    | with_reducible apply State.morDrop_keeps
    | with_reducible apply Keeps.ite
    | with_reducible apply Keeps.dite
    | split
    | intro _
    | (with_reducible refine Keeps.fst (by assumption) ?_)
    | (with_reducible refine Keeps.ofMk rfl rfl rfl rfl rfl rfl rfl rfl rfl ?_)

theorem State.writeWords_keeps {s t : State} (hK : Keeps s t) (a_who : Src) (a_acc : Nat) (a_f : Fin 64) (a_ws :
    List IceWrite) :
    Keeps s (State.writeWords t a_who a_acc a_f a_ws) := by
  unfold State.writeWords
  repeat' first
    | with_reducible assumption
    | with_reducible apply State.gather_keeps
    | with_reducible apply State.morWrite_keeps
    | with_reducible apply Keeps.foldl
    | with_reducible apply Keeps.ite
    | with_reducible apply Keeps.dite
    | split
    | intro _

theorem State.fabricFault_keeps {s t : State} (hK : Keeps s t) (a_ch : Nat) (a_mor : Bool) (a_k : FabricFault)
    (a_lost : Bool) :
    Keeps s (State.fabricFault t a_ch a_mor a_k a_lost) := by
  unfold State.fabricFault
  repeat' first
    | with_reducible assumption
    | with_reducible apply Keeps.ite
    | with_reducible apply Keeps.dite
    | split
    | intro _
    | (with_reducible refine Keeps.fst (by assumption) ?_)
    | (with_reducible refine Keeps.ofMk rfl rfl rfl rfl rfl rfl rfl rfl rfl ?_)

theorem State.morFree_keeps {s t : State} (hK : Keeps s t) (a_acc : Nat) :
    Keeps s (State.morFree t a_acc) := by
  unfold State.morFree
  repeat' first
    | with_reducible assumption
    | with_reducible apply State.release_keeps
    | with_reducible apply State.morDrop_keeps
    | with_reducible apply Keeps.ite
    | with_reducible apply Keeps.dite
    | split
    | intro _
    | (with_reducible refine Keeps.fst (by assumption) ?_)
    | (with_reducible refine Keeps.ofMk rfl rfl rfl rfl rfl rfl rfl rfl rfl ?_)

theorem State.takeLine_keeps {s t : State} (hK : Keeps s t) (a_res : LineResult) :
    Keeps s (State.takeLine t a_res) := by
  unfold State.takeLine
  repeat' first
    | with_reducible assumption
    | with_reducible apply State.countEvent_keeps
    | with_reducible apply State.uncorrectable_keeps
    | with_reducible apply State.fabricFault_keeps
    | with_reducible apply Keeps.ite
    | with_reducible apply Keeps.dite
    | split
    | intro _
    | (with_reducible refine Keeps.fst (by assumption) ?_)
    | (with_reducible refine Keeps.ofMk rfl rfl rfl rfl rfl rfl rfl rfl rfl ?_)

theorem State.morLine_keeps {s t : State} (hK : Keeps s t) (a_res : LineResult) :
    Keeps s (State.morLine t a_res) := by
  unfold State.morLine
  repeat' first
    | with_reducible assumption
    | with_reducible apply State.morFree_keeps
    | with_reducible apply State.takeLine_keeps
    | with_reducible apply Keeps.ite
    | with_reducible apply Keeps.dite
    | split

end Sys2Proof.Machine
end

