-- ==== Sys2Proof/Laws/KeepsVector.lean ====
section
/-! SUPPORT. What the operations of the vector unit and of the floe commits keep (see Laws/Keeps.lean). -/

namespace Sys2Proof.Machine

theorem State.presentHead_keeps {s t : State} (hK : Keeps s t) (a_h : Hart) :
    Keeps s (State.presentHead t a_h) := by
  unfold State.presentHead
  repeat' first
    | with_reducible assumption
    | with_reducible apply State.modHart_keeps
    | with_reducible apply State.present_keeps
    | with_reducible apply Keeps.ite
    | with_reducible apply Keeps.dite
    | split
    | intro _

theorem State.issue_keeps {s t : State} (hK : Keeps s t) (a_h : Hart) (a_x : XInstr) :
    Keeps s (State.issue t a_h a_x) := by
  unfold State.issue
  repeat' first
    | with_reducible assumption
    | with_reducible apply State.modHart_keeps
    | with_reducible apply State.trap_keeps
    | with_reducible apply State.presentHead_keeps
    | with_reducible apply Keeps.ite
    | with_reducible apply Keeps.dite
    | split
    | intro _

theorem State.occupy_keeps {s t : State} (hK : Keeps s t) (a_at' : Nat) (a_steps : Nat) :
    Keeps s (State.occupy t a_at' a_steps) := by
  unfold State.occupy
  repeat' first
    | with_reducible assumption
    | with_reducible apply State.countEvent_keeps
    | with_reducible apply State.advanceTo_keeps
    | with_reducible apply Keeps.ite
    | with_reducible apply Keeps.dite
    | split
    | intro _
    | (with_reducible refine Keeps.fst (by assumption) ?_)
    | (with_reducible refine Keeps.ofMk rfl rfl rfl rfl rfl rfl rfl rfl rfl ?_)

theorem State.accepted_keeps {s t : State} (hK : Keeps s t) (a_n : Nat) :
    Keeps s (State.accepted t a_n) := by
  unfold State.accepted
  repeat' first
    | with_reducible assumption
    | with_reducible apply State.countEvent_keeps
    | with_reducible apply State.toggleObs_keeps
    | with_reducible apply Keeps.ite

theorem State.requestLines_keeps {s t : State} (hK : Keeps s t) (a_id : Nat) (a_x : XIn) :
    Keeps s (State.requestLines t a_id a_x) := by
  unfold State.requestLines
  repeat' first
    | with_reducible assumption
    | with_reducible apply State.morRead_keeps
    | with_reducible apply State.morWrite_keeps
    | with_reducible apply Keeps.ite

theorem State.accept_keeps {s t : State} (hK : Keeps s t) (a_h : Hart) (a_e : XEntry) :
    Keeps s (State.accept t a_h a_e) := by
  unfold State.accept
  repeat' first
    | with_reducible assumption
    | with_reducible apply State.modHart_keeps
    | with_reducible apply State.countEvent_keeps
    | with_reducible apply State.allocate_keeps
    | with_reducible apply State.presentHead_keeps
    | with_reducible apply State.occupy_keeps
    | with_reducible apply State.accepted_keeps
    | with_reducible apply State.requestLines_keeps
    | with_reducible apply Keeps.ite
    | with_reducible apply Keeps.dite
    | split
    | intro _
    | (with_reducible refine Keeps.fst (by assumption) ?_)
    | (with_reducible refine Keeps.ofMk rfl rfl rfl rfl rfl rfl rfl rfl rfl ?_)

theorem State.vectorAccept_keeps {s t : State} (hK : Keeps s t) :
    Keeps s (State.vectorAccept t) := by
  unfold State.vectorAccept
  repeat' first
    | with_reducible assumption
    | with_reducible apply State.accept_keeps
    | with_reducible apply Keeps.ite
    | with_reducible apply Keeps.dite
    | split

theorem State.dropInflight_keeps {s t : State} (hK : Keeps s t) (a_f : Inflight) :
    Keeps s (State.dropInflight t a_f) := by
  unfold State.dropInflight
  repeat' first
    | with_reducible assumption
    | with_reducible apply Keeps.ite
    | with_reducible apply Keeps.dite
    | split
    | intro _
    | (with_reducible refine Keeps.fst (by assumption) ?_)
    | (with_reducible refine Keeps.ofMk rfl rfl rfl rfl rfl rfl rfl rfl rfl ?_)

theorem State.setInflight_keeps {s t : State} (hK : Keeps s t) (a_f : Inflight) (a_g : Inflight) :
    Keeps s (State.setInflight t a_f a_g) := by
  unfold State.setInflight
  repeat' first
    | with_reducible assumption
    | with_reducible apply Keeps.ite
    | with_reducible apply Keeps.dite
    | split
    | intro _
    | (with_reducible refine Keeps.fst (by assumption) ?_)
    | (with_reducible refine Keeps.ofMk rfl rfl rfl rfl rfl rfl rfl rfl rfl ?_)

theorem setExts_data (l : ExtList) {ts : Vector Tile 64} (h : ∀ u : TileReg, swf 0 (ts.get u).data = true)
    (u : TileReg) : swf 0 ((setExts ts l).get u).data = true := by
  unfold setExts
  induction l generalizing ts with
  | nil => exact h u
  | cons e r ih =>
    refine ih fun v => ?_
    rw [vmod_get]
    split
    · exact h e.1
    · exact h v

theorem writeElems_data (b : TileReg) (f : Fmt) (ws : List EWrite) {ts : Vector Tile 64}
    (h : ∀ u : TileReg, swf 0 (ts.get u).data = true) (u : TileReg) :
    swf 0 ((writeElems ts b f ws).get u).data = true := by
  unfold writeElems
  generalize groupPieces (ws.flatMap (·.pieces f)) = l
  induction l generalizing ts with
  | nil => exact h u
  | cons g r ih =>
    refine ih fun v => ?_
    unfold setCont; rw [vmod_get]
    split
    · exact swf_sset _ _ _ _ (h _)
    · exact h v

theorem XEffect.tiles_data (e : XEffect) {ts : Vector Tile 64} (h : ∀ u : TileReg, swf 0 (ts.get u).data = true)
    (u : TileReg) : swf 0 ((e.tiles ts).get u).data = true := by
  refine setExts_data _ ?_ u
  generalize e.writes = l
  induction l generalizing ts with
  | nil => exact h
  | cons w r ih => exact ih (writeElems_data _ _ _ h)

theorem State.applyEffect_keeps {s t : State} (hK : Keeps s t) (a_f : Inflight) (a_e : XEffect) :
    Keeps s (State.applyEffect t a_f a_e) := by
  have h1 : Keeps s { t with tiles := a_e.tiles t.tiles } := by
    obtain ⟨a, b, c, d, e, f', g', i⟩ := hK
    exact ⟨a, b, fun k => XEffect.tiles_data _ (c k), d, e, f', g', i⟩
  refine State.modHart_keeps h1 _ _ fun k => ?_
  dsimp only
  split
  · exact swf_ssetMany _ _ _ (by rw [HartState.setPred_bank]; exact k)
  · exact swf_ssetMany _ _ _ k

theorem HartState.retire_bank (t : HartState) (pc : Word) (r : XResult) : (t.retire pc r).bank = t.bank := by
  unfold HartState.retire; dsimp only; split <;> rfl

theorem State.writeMerged_keeps {s t : State} (hK : Keeps s t) (a_f : Fin 64) (a_ws : List IceWrite) :
    Keeps s (State.writeMerged t a_f a_ws) := by
  unfold State.writeMerged
  repeat' first
    | with_reducible assumption
    | with_reducible apply State.writeResident_keeps
    | with_reducible apply Keeps.foldl
    | intro _

theorem State.discard_keeps {s t : State} (hK : Keeps s t) (a_f : Inflight) :
    Keeps s (State.discard t a_f) := by
  unfold State.discard
  repeat' first
    | with_reducible assumption
    | with_reducible apply State.advanceTo_keeps
    | with_reducible apply State.endAccess_keeps
    | with_reducible apply State.dropInflight_keeps
    | with_reducible apply Keeps.ite
    | split

theorem State.completeInflight_keeps {s t : State} (hK : Keeps s t) (a_f : Inflight) :
    Keeps s (State.completeInflight t a_f) := by
  unfold State.completeInflight
  repeat' first
    | with_reducible assumption
    | with_reducible apply State.countEvent_keeps
    | with_reducible apply State.advanceTo_keeps
    | with_reducible apply State.readWords_keeps
    | with_reducible apply State.setInflight_keeps
    | with_reducible apply State.applyEffect_keeps
    | with_reducible apply State.writeMerged_keeps
    | with_reducible apply State.discard_keeps
    | with_reducible apply Keeps.ite

theorem State.retireInflight_keeps {s t : State} (hK : Keeps s t) (a_f : Inflight) (a_r : XResult) :
    Keeps s (State.retireInflight t a_f a_r) := by
  unfold State.retireInflight
  repeat' first
    | with_reducible assumption
    | with_reducible apply State.modHart_keeps
    | with_reducible apply State.noteVector_keeps
    | with_reducible apply State.endAccess_keeps
    | with_reducible apply State.dropInflight_keeps
    | with_reducible apply Keeps.ite
    | with_reducible apply Keeps.dite
    | split
    | intro _
    | (with_reducible refine Keeps.fst (by assumption) ?_)
    | (with_reducible refine Keeps.ofMk rfl rfl rfl rfl rfl rfl rfl rfl rfl ?_)
    | (simp only [HartState.retire_bank]; assumption)

theorem retireLeading_keeps {s t : State} (hK : Keeps s t) (a_h : Hart) (a_y0 : List Inflight) :
    Keeps s (retireLeading a_h a_y0 t) := by
  induction a_y0 generalizing t  with
  | nil =>
    unfold retireLeading
    repeat' first
      | with_reducible assumption
  | cons y0 y1 ih =>
    unfold retireLeading
    repeat' first
      | with_reducible assumption
      | with_reducible apply ih
      | with_reducible apply State.retireInflight_keeps
      | with_reducible apply Keeps.ite
      | with_reducible apply Keeps.dite
      | split

theorem State.fencedReport_keeps {s t : State} (hK : Keeps s t) (a_g : Fin 17) (a_logical : BitVec 4) (a_st :
    BitVec 3) :
    Keeps s (State.fencedReport t a_g a_logical a_st) := by
  unfold State.fencedReport
  repeat' first
    | with_reducible assumption
    | with_reducible apply State.report_keeps

theorem State.fenceGroup_keeps {s t : State} (hK : Keeps s t) (a_g : Fin 17) (a_home : Option (BitVec 4)) :
    Keeps s (State.fenceGroup t a_g a_home) := by
  unfold State.fenceGroup
  repeat' first
    | with_reducible assumption
    | with_reducible apply State.modLane_keeps
    | with_reducible apply State.fencedReport_keeps

theorem State.residueFailure_keeps {s t : State} (hK : Keeps s t) (a_f : Inflight) (a_g : Fin 17) :
    Keeps s (State.residueFailure t a_f a_g) := by
  unfold State.residueFailure
  repeat' first
    | with_reducible assumption
    | with_reducible apply State.modLane_keeps
    | with_reducible apply State.toggleObs_keeps
    | with_reducible apply State.advanceTo_keeps
    | with_reducible apply State.uncorrectable_keeps
    | with_reducible apply State.endAccess_keeps
    | with_reducible apply State.dropInflight_keeps
    | with_reducible apply State.setInflight_keeps
    | with_reducible apply State.fenceGroup_keeps
    | with_reducible apply Keeps.ite
    | with_reducible apply Keeps.dite
    | split
    | intro _
    | (with_reducible refine Keeps.fst (by assumption) ?_)
    | (with_reducible refine Keeps.ofMk rfl rfl rfl rfl rfl rfl rfl rfl rfl ?_)

theorem State.tileFault_keeps {s t : State} (hK : Keeps s t) (a_f : Inflight) (a_t : TileReg) (a_n : Nat) :
    Keeps s (State.tileFault t a_f a_t a_n) := by
  unfold State.tileFault
  repeat' first
    | with_reducible assumption
    | with_reducible apply State.advanceTo_keeps
    | with_reducible apply State.uncorrectable_keeps
    | with_reducible apply State.discard_keeps

theorem State.upset_keeps {s t : State} (hK : Keeps s t) (a_check : Option LaneCheck) :
    Keeps s (State.upset t a_check) := by
  unfold State.upset
  repeat' first
    | with_reducible assumption
    | with_reducible apply State.modTile_keeps
    | with_reducible apply Keeps.ite
    | with_reducible apply Keeps.dite
    | split
    | intro _

theorem State.instructionRetire_keeps {s t : State} (hK : Keeps s t) (a_h : Hart) (a_check : Option LaneCheck) :
    Keeps s (State.instructionRetire t a_h a_check) := by
  unfold State.instructionRetire
  repeat' first
    | with_reducible assumption
    | with_reducible apply State.discard_keeps
    | with_reducible apply State.completeInflight_keeps
    | with_reducible apply retireLeading_keeps
    | with_reducible apply State.residueFailure_keeps
    | with_reducible apply State.tileFault_keeps
    | with_reducible apply State.upset_keeps
    | with_reducible apply Keeps.ite
    | with_reducible apply Keeps.dite
    | split
    | intro _
    | (with_reducible refine Keeps.fst (by assumption) ?_)
    | (with_reducible refine Keeps.ofMk rfl rfl rfl rfl rfl rfl rfl rfl rfl ?_)

theorem State.instructionReplay_keeps {s t : State} (hK : Keeps s t) :
    Keeps s (State.instructionReplay t) := by
  unfold State.instructionReplay
  repeat' first
    | with_reducible assumption
    | with_reducible apply State.countEvent_keeps
    | with_reducible apply State.occupy_keeps
    | with_reducible apply State.accepted_keeps
    | with_reducible apply Keeps.ite
    | with_reducible apply Keeps.dite
    | split
    | intro _
    | (with_reducible refine Keeps.fst (by assumption) ?_)
    | (with_reducible refine Keeps.ofMk rfl rfl rfl rfl rfl rfl rfl rfl rfl ?_)

theorem State.issueMorWrites_keeps {s t : State} (hK : Keeps s t) (a_f : Inflight) :
    Keeps s (State.issueMorWrites t a_f) := by
  unfold State.issueMorWrites
  repeat' first
    | with_reducible assumption
    | with_reducible apply State.morWrite_keeps
    | with_reducible apply State.setInflight_keeps
    | with_reducible apply Keeps.ite
    | with_reducible apply Keeps.dite
    | split

theorem State.moraineLine_keeps {s t : State} (hK : Keeps s t) (a_res : LineResult) :
    Keeps s (State.moraineLine t a_res) := by
  unfold State.moraineLine
  repeat' first
    | with_reducible assumption
    | with_reducible apply State.forEach_keeps
    | with_reducible apply State.morLine_keeps
    | with_reducible apply State.issueMorWrites_keeps
    | with_reducible apply Keeps.ite
    | with_reducible apply Keeps.dite
    | split
    | intro _
    | (with_reducible refine Keeps.fst (by assumption) ?_)
    | (with_reducible refine Keeps.ofMk rfl rfl rfl rfl rfl rfl rfl rfl rfl ?_)

theorem State.setLease_keeps {s t : State} (hK : Keeps s t) (a_q : LeaseReq) :
    Keeps s (State.setLease t a_q) := by
  unfold State.setLease
  repeat' first
    | with_reducible assumption
    | with_reducible apply State.modTile_keeps
    | with_reducible apply Keeps.ite
    | intro _

theorem State.leaseWrite_keeps {s t : State} (hK : Keeps s t) (a_r : Reader) (a_w : Word) :
    Keeps s (State.leaseWrite t a_r a_w) := by
  unfold State.leaseWrite
  repeat' first
    | with_reducible assumption
    | with_reducible apply State.modHart_keeps
    | with_reducible apply State.setLease_keeps
    | with_reducible apply Keeps.ite
    | with_reducible apply Keeps.dite
    | split
    | intro _
    | (with_reducible refine Keeps.fst (by assumption) ?_)
    | (with_reducible refine Keeps.ofMk rfl rfl rfl rfl rfl rfl rfl rfl rfl ?_)

theorem State.tileLease_keeps {s t : State} (hK : Keeps s t) (a_r : Reader) (a_w : Word) (a_lost : List Hart) :
    Keeps s (State.tileLease t a_r a_w a_lost) := by
  unfold State.tileLease
  repeat' first
    | with_reducible assumption
    | with_reducible apply State.stateWrite_keeps
    | with_reducible apply State.leaseWrite_keeps
    | with_reducible apply Keeps.ite
    | with_reducible apply Keeps.dite
    | split
    | intro _

theorem State.leaseEffect_keeps {s t : State} (hK : Keeps s t) (a_t : TileReg) :
    Keeps s (State.leaseEffect t a_t) := by
  unfold State.leaseEffect
  repeat' first
    | with_reducible assumption
    | with_reducible apply State.modHart_keeps
    | with_reducible apply State.forEach_keeps
    | with_reducible apply State.takeDeadlock_keeps
    | with_reducible apply State.setLease_keeps
    | with_reducible apply Keeps.ite
    | with_reducible apply Keeps.dite
    | split
    | intro _
    | (with_reducible refine Keeps.fst (by assumption) ?_)
    | (with_reducible refine Keeps.ofMk rfl rfl rfl rfl rfl rfl rfl rfl rfl ?_)

theorem State.presentCommit_keeps {s t : State} (hK : Keeps s t) :
    Keeps s (State.presentCommit t) := by
  unfold State.presentCommit
  repeat' first
    | with_reducible assumption
    | with_reducible apply State.present_keeps
    | split
    | (with_reducible refine Keeps.fst (by assumption) ?_)
    | (with_reducible refine Keeps.ofMk rfl rfl rfl rfl rfl rfl rfl rfl rfl ?_)

theorem State.commitFloe_keeps {s t : State} (hK : Keeps s t) (a_r : Reader) (a_f : Fin 64) (a_w : Vector Word 8)
    (a_order : Option Nat) :
    Keeps s (State.commitFloe t a_r a_f a_w a_order).1 := by
  unfold State.commitFloe
  repeat' first
    | with_reducible assumption
    | split
    | dsimp only
    | with_reducible apply State.setFstat_keeps
    | with_reducible apply State.presentCommit_keeps
    | with_reducible apply Keeps.ite
    | with_reducible apply Keeps.dite
    | split
    | intro _
    | (with_reducible refine Keeps.fst (by assumption) ?_)
    | (with_reducible refine Keeps.ofMk rfl rfl rfl rfl rfl rfl rfl rfl rfl ?_)

theorem State.pushStart_keeps {s t : State} (hK : Keeps s t) (a_o : OpenOrder) :
    Keeps s (State.pushStart t a_o) := by
  unfold State.pushStart
  repeat' first
    | with_reducible assumption
    | with_reducible apply State.endOrder_keeps
    | with_reducible apply State.startChain_keeps
    | split

theorem State.replyCommit_keeps {s t : State} (hK : Keeps s t) (a_order : Option Nat) (a_code : BitVec 4) :
    Keeps s (State.replyCommit t a_order a_code) := by
  unfold State.replyCommit
  repeat' first
    | with_reducible assumption
    | with_reducible apply State.endOrder_keeps
    | with_reducible apply State.pushStart_keeps
    | with_reducible apply Keeps.ite
    | with_reducible apply Keeps.dite
    | split

theorem State.pushCommit_keeps {s t : State} (hK : Keeps s t) (a_o : OpenOrder) :
    Keeps s (State.pushCommit t a_o) := by
  unfold State.pushCommit
  repeat' first
    | with_reducible assumption
    | with_reducible apply State.modOrder_keeps
    | with_reducible apply State.commitFloe_keeps
    | with_reducible apply State.replyCommit_keeps
    | with_reducible apply Keeps.ite

theorem State.retryPush_keeps {s t : State} (hK : Keeps s t) :
    Keeps s (State.retryPush t) := by
  unfold State.retryPush
  repeat' first
    | with_reducible assumption
    | with_reducible apply State.pushCommit_keeps
    | with_reducible apply Keeps.ite
    | with_reducible apply Keeps.dite
    | split

theorem State.retireCommit_keeps {s t : State} (hK : Keeps s t) :
    Keeps s (State.retireCommit t) := by
  unfold State.retireCommit
  repeat' first
    | with_reducible assumption
    | with_reducible apply State.setFstat_keeps
    | with_reducible apply State.release_keeps
    | with_reducible apply State.replyCommit_keeps
    | with_reducible apply State.retryPush_keeps
    | with_reducible apply Keeps.ite
    | with_reducible apply Keeps.dite
    | split
    | intro _
    | (with_reducible refine Keeps.fst (by assumption) ?_)
    | (with_reducible refine Keeps.ofMk rfl rfl rfl rfl rfl rfl rfl rfl rfl ?_)

theorem State.nextRevival_keeps {s t : State} (hK : Keeps s t) (a_r : Revival) :
    Keeps s (State.nextRevival t a_r) := by
  unfold State.nextRevival
  repeat' first
    | with_reducible assumption
    | with_reducible apply State.retireCommit_keeps
    | with_reducible apply Keeps.ite
    | with_reducible apply Keeps.dite
    | split
    | intro _
    | (with_reducible refine Keeps.fst (by assumption) ?_)
    | (with_reducible refine Keeps.ofMk rfl rfl rfl rfl rfl rfl rfl rfl rfl ?_)

theorem State.setSeg_keeps {s t : State} (hK : Keeps s t) (a_g : Fin 64) (a_t : SegState) :
    Keeps s (State.setSeg t a_g a_t) := by
  unfold State.setSeg
  repeat' first
    | with_reducible assumption
    | (with_reducible refine Keeps.ofMk rfl rfl rfl rfl rfl rfl rfl rfl rfl ?_)

theorem State.enterSegments_keeps {s t : State} (hK : Keeps s t) (a_e : FloeEntry) :
    Keeps s (State.enterSegments t a_e) := by
  unfold State.enterSegments
  repeat' first
    | with_reducible assumption
    | with_reducible apply State.forEach_keeps
    | with_reducible apply State.setSeg_keeps
    | with_reducible apply Keeps.ite
    | with_reducible apply Keeps.dite
    | split
    | intro _
    | (with_reducible refine Keeps.fst (by assumption) ?_)
    | (with_reducible refine Keeps.ofMk rfl rfl rfl rfl rfl rfl rfl rfl rfl ?_)

theorem State.commitEffect_keeps {s t : State} (hK : Keeps s t) :
    Keeps s (State.commitEffect t) := by
  unfold State.commitEffect
  repeat' first
    | with_reducible assumption
    | with_reducible apply State.allocate_keeps
    | with_reducible apply State.presentCommit_keeps
    | with_reducible apply State.retireCommit_keeps
    | with_reducible apply State.enterSegments_keeps
    | split
    | (with_reducible refine Keeps.fst (by assumption) ?_)
    | (with_reducible refine Keeps.ofMk rfl rfl rfl rfl rfl rfl rfl rfl rfl ?_)

theorem State.zeroSegment_keeps {s t : State} (hK : Keeps s t) (a_g : Fin 64) : Keeps s (t.zeroSegment a_g) := by
  obtain ⟨a, b, c, d, e, f', g', i⟩ := hK
  exact ⟨a, b, c, fun k => ⟨swf_filter _ _ _ (d k).1, (d k).2⟩, e, f', g', i⟩

theorem State.segmentMelt_keeps {s t : State} (hK : Keeps s t) (a_g : Fin 64) :
    Keeps s (State.segmentMelt t a_g) := by
  unfold State.segmentMelt
  repeat' first
    | with_reducible assumption
    | with_reducible apply State.zeroSegment_keeps
    | with_reducible apply Keeps.ite
    | with_reducible apply Keeps.dite
    | split
    | intro _
    | (with_reducible refine Keeps.fst (by assumption) ?_)
    | (with_reducible refine Keeps.ofMk rfl rfl rfl rfl rfl rfl rfl rfl rfl ?_)

theorem State.rampEnd_keeps {s t : State} (hK : Keeps s t) :
    Keeps s (State.rampEnd t) := by
  unfold State.rampEnd
  repeat' first
    | with_reducible assumption
    | split
    | (with_reducible refine Keeps.ofMk rfl rfl rfl rfl rfl rfl rfl rfl rfl ?_)

theorem State.spareReport_keeps {s t : State} (hK : Keeps s t) (a_bank : Nat) (a_row : Nat) (a_n : Nat) :
    Keeps s (State.spareReport t a_bank a_row a_n) := by
  unfold State.spareReport
  repeat' first
    | with_reducible assumption
    | with_reducible apply State.report_keeps

theorem State.dropSpare_keeps {s t : State} (hK : Keeps s t) (a_bank : Nat) (a_row : Nat) :
    Keeps s (State.dropSpare t a_bank a_row) := by
  unfold State.dropSpare
  repeat' first
    | with_reducible assumption
    | with_reducible apply State.setSpare_keeps
    | split

theorem State.badSpares_keeps {s t : State} (hK : Keeps s t) (a_y0 : List (Nat × Nat)) :
    Keeps s (State.badSpares t a_y0).1 := by
  induction a_y0 generalizing t  with
  | nil =>
    unfold State.badSpares
    repeat' first
      | with_reducible assumption
  | cons y0 y1 ih =>
    unfold State.badSpares
    repeat' first
      | with_reducible assumption
      | with_reducible apply ih
      | with_reducible apply State.setSpare_keeps

theorem State.spareBlank_keeps {s t u : State} {n : Nat} (hK : Keeps s t) (bank row : Nat)
    (h : t.spareBlank bank row = some (u, n)) : Keeps s u := by
  unfold State.spareBlank at h
  cases hf : t.freeSpare bank with
  | none => rw [hf] at h; cases h
  | some m =>
    rw [hf] at h; cases h
    exact State.unlogRow_keeps (State.setSpare_keeps (State.dropSpare_keeps hK _ _) _ _ _) _ _

theorem State.spareFailing_keeps {s t : State} (hK : Keeps s t) (a_y0 : List (Nat × Nat)) :
    Keeps s (State.spareFailing t a_y0).1 := by
  induction a_y0 generalizing t with
  | nil => exact hK
  | cons x r ih =>
    unfold State.spareFailing
    split
    · rename_i u n h
      exact ih (State.spareReport_keeps (State.spareBlank_keeps hK _ _ h) _ _ _)
    · exact ih (State.spareOut_keeps hK _ _)

theorem State.selftestEnd_keeps {s t : State} (hK : Keeps s t) (a_failed : List (Nat × Nat)) (a_bad : List (Nat ×
    Nat)) :
    Keeps s (State.selftestEnd t a_failed a_bad) := by
  unfold State.selftestEnd
  repeat' first
    | with_reducible assumption
    | with_reducible apply State.nextRevival_keeps
    | with_reducible apply State.setSeg_keeps
    | with_reducible apply State.badSpares_keeps
    | with_reducible apply State.spareFailing_keeps
    | with_reducible apply Keeps.ite
    | split
    | (with_reducible refine Keeps.ofMk rfl rfl rfl rfl rfl rfl rfl rfl rfl ?_)

theorem State.fillEnd_keeps {s t : State} (hK : Keeps s t) :
    Keeps s (State.fillEnd t) := by
  unfold State.fillEnd
  repeat' first
    | with_reducible assumption
    | with_reducible apply State.nextRevival_keeps
    | with_reducible apply State.setSeg_keeps
    | with_reducible apply State.zeroSegment_keeps
    | split

theorem State.scrubVisit_keeps {s t : State} (hK : Keeps s t) :
    Keeps s (State.scrubVisit t) := by
  unfold State.scrubVisit
  repeat' first
    | with_reducible assumption
    | with_reducible apply State.forEach_keeps
    | with_reducible apply State.toggleObs_keeps
    | with_reducible apply State.readLevel_keeps
    | split
    | intro _
    | (with_reducible refine Keeps.ofMk rfl rfl rfl rfl rfl rfl rfl rfl rfl ?_)

theorem State.writeback_keeps {s t : State} (hK : Keeps s t) :
    Keeps s (State.writeback t) := by
  unfold State.writeback
  repeat' first
    | with_reducible assumption
    | with_reducible apply State.setCell_keeps
    | split

theorem State.copyRow_keeps {s t : State} (hK : Keeps s t) (a_bank : Nat) (a_row : Nat) (a_n : Nat) :
    Keeps s (State.copyRow t a_bank a_row a_n) := by
  unfold State.copyRow
  repeat' first
    | with_reducible assumption
    | with_reducible apply State.forEach_keeps
    | with_reducible apply State.setCell_keeps
    | with_reducible apply State.readLevel_keeps
    | intro _

theorem State.spareRow_keeps {s t : State} (hK : Keeps s t) (a_bank : Nat) (a_row : Nat) :
    Keeps s (State.spareRow t a_bank a_row) := by
  unfold State.spareRow
  repeat' first
    | with_reducible assumption
    | with_reducible apply State.setSpare_keeps
    | with_reducible apply State.spareOut_keeps
    | with_reducible apply State.unlogRow_keeps
    | with_reducible apply State.spareReport_keeps
    | with_reducible apply State.dropSpare_keeps
    | with_reducible apply State.copyRow_keeps
    | split

theorem State.fieldSparing_keeps {s t : State} (hK : Keeps s t) :
    Keeps s (State.fieldSparing t) := by
  unfold State.fieldSparing
  repeat' first
    | with_reducible assumption
    | with_reducible apply State.release_keeps
    | with_reducible apply State.presentCommit_keeps
    | with_reducible apply State.spareRow_keeps
    | split
    | (with_reducible refine Keeps.ofMk rfl rfl rfl rfl rfl rfl rfl rfl rfl ?_)

theorem State.fcmdWrite_keeps {s t : State} (hK : Keeps s t) (a_r : Reader) (a_others : List Reader) (a_f : State →
    State) (hf : ∀ u, Keeps s u → Keeps s (a_f u)):
    Keeps s (State.fcmdWrite t a_r a_others a_f) := by
  unfold State.fcmdWrite
  repeat' first
    | with_reducible assumption
    | with_reducible apply hf
    | with_reducible apply State.forEach_keeps
    | with_reducible apply State.setFstat_keeps
    | with_reducible apply State.forEach_keeps
    | with_reducible apply Keeps.ite
    | with_reducible apply Keeps.dite
    | split
    | intro _

theorem State.floeCommit_keeps {s t : State} (hK : Keeps s t) (a_r : Reader) (a_f : Fin 64) :
    Keeps s (State.floeCommit t a_r a_f) := by
  unfold State.floeCommit
  repeat' first
    | with_reducible assumption
    | with_reducible apply State.commitFloe_keeps

theorem State.floeRead_keeps {s t : State} (hK : Keeps s t) (a_r : Reader) (a_f : Fin 64) :
    Keeps s (State.floeRead t a_r a_f) := by
  unfold State.floeRead
  repeat' first
    | with_reducible assumption
    | with_reducible apply State.setFstat_keeps
    | with_reducible apply Keeps.ite
    | with_reducible apply Keeps.dite
    | split
    | intro _
    | (with_reducible refine Keeps.fst (by assumption) ?_)
    | (with_reducible refine Keeps.ofMk rfl rfl rfl rfl rfl rfl rfl rfl rfl ?_)

end Sys2Proof.Machine
end

