-- ==== Sys2Proof/Laws/KeepsDrift.lean ====
section
/-! SUPPORT. What the operations of the drift engine keep (see Laws/Keeps.lean). -/

namespace Sys2Proof.Machine

theorem State.stageImage_keeps {s t : State} (hK : Keeps s t) (a_o : OpenOrder) :
    Keeps s (State.stageImage t a_o) := by
  unfold State.stageImage
  repeat' first
    | with_reducible assumption
    | with_reducible apply State.modOrder_keeps
    | with_reducible apply State.present_keeps

theorem State.takeImage_keeps {s t : State} (hK : Keeps s t) (a_o : OpenOrder) (a_acc : Nat) :
    Keeps s (State.takeImage t a_o a_acc) := by
  unfold State.takeImage
  repeat' first
    | with_reducible assumption
    | with_reducible apply State.endOrder_keeps
    | with_reducible apply State.readWords_keeps
    | with_reducible apply State.endAccess_keeps
    | with_reducible apply Keeps.ite
    | with_reducible apply Keeps.dite
    | split
    | intro _
    | (with_reducible refine Keeps.fst (by assumption) ?_)
    | (with_reducible refine Keeps.ofMk rfl rfl rfl rfl rfl rfl rfl rfl rfl ?_)

theorem State.imageRetire_keeps {s t : State} (hK : Keeps s t) (a_o : OpenOrder) (a_id : Nat) :
    Keeps s (State.imageRetire t a_o a_id) := by
  unfold State.imageRetire
  repeat' first
    | with_reducible assumption
    | with_reducible apply State.endOrder_keeps
    | with_reducible apply State.endAccess_keeps
    | with_reducible apply State.takeImage_keeps
    | with_reducible apply Keeps.ite

theorem State.writeWin_keeps {s t : State} (hK : Keeps s t) (a_who : Src) (a_acc : Nat) (a_ws : List IceWrite) :
    Keeps s (State.writeWin t a_who a_acc a_ws) := by
  unfold State.writeWin
  repeat' first
    | with_reducible assumption
    | with_reducible apply State.forEach_keeps
    | with_reducible apply State.writeWords_keeps
    | with_reducible apply Keeps.ite
    | intro _

theorem State.readWin_keeps {s t : State} (hK : Keeps s t) (a_who : Src) (a_acc : Nat) (a_y0 : List Nat) :
    Keeps s (State.readWin t a_who a_acc a_y0).1 := by
  induction a_y0 generalizing t  with
  | nil =>
    unfold State.readWin
    repeat' first
      | with_reducible assumption
  | cons y0 y1 ih =>
    unfold State.readWin
    repeat' first
      | with_reducible assumption
      | split
      | with_reducible apply ih
      | with_reducible apply State.readWord_keeps
      | (with_reducible refine Keeps.fst (by assumption) ?_)

theorem State.morReadWin_keeps {s t : State} (hK : Keeps s t) (a_acc : Nat) (a_ws : List Nat) :
    Keeps s (State.morReadWin t a_acc a_ws) := by
  unfold State.morReadWin
  repeat' first
    | with_reducible assumption
    | with_reducible apply State.forEach_keeps
    | with_reducible apply State.morRead_keeps
    | with_reducible apply Keeps.ite
    | intro _

theorem State.presentSet_keeps {s t : State} (hK : Keeps s t) (a_c : Fin 32) (a_st : DriftSet) :
    Keeps s (State.presentSet t a_c a_st).1 := by
  unfold State.presentSet
  repeat' first
    | with_reducible assumption
    | split
    | dsimp only
    | with_reducible apply State.present_keeps

theorem State.askFetch_keeps {s t : State} (hK : Keeps s t) (a_c : Fin 32) :
    Keeps s (State.askFetch t a_c) := by
  unfold State.askFetch
  repeat' first
    | with_reducible assumption
    | with_reducible apply State.modCh_keeps
    | with_reducible apply State.present_keeps
    | with_reducible apply Keeps.ite

theorem State.drfGo_keeps {s t : State} (hK : Keeps s t) (a_r : Reader) (a_ch : BitVec 5) :
    Keeps s (State.drfGo t a_r a_ch) := by
  unfold State.drfGo
  repeat' first
    | with_reducible assumption
    | with_reducible apply State.setRstat_keeps
    | with_reducible apply State.startChain_keeps
    | with_reducible apply State.askFetch_keeps
    | with_reducible apply Keeps.ite

theorem State.startPass_keeps {s t : State} (hK : Keeps s t) (a_c : Fin 32) (a_b : Bases) :
    Keeps s (State.startPass t a_c a_b) := by
  unfold State.startPass
  repeat' first
    | with_reducible assumption
    | with_reducible apply State.modCh_keeps
    | with_reducible apply State.presentSet_keeps
    | split
    | (with_reducible refine Keeps.ofMk rfl rfl rfl rfl rfl rfl rfl rfl rfl ?_)

theorem State.drfRearm_keeps {s t : State} (hK : Keeps s t) (a_r : Reader) (a_ch : BitVec 5) :
    Keeps s (State.drfRearm t a_r a_ch).1 := by
  unfold State.drfRearm
  repeat' first
    | with_reducible assumption
    | split
    | dsimp only
    | with_reducible apply State.modCh_keeps
    | with_reducible apply State.setRstat_keeps
    | with_reducible apply State.startPass_keeps

theorem State.markLines_keeps {s t : State} (hK : Keeps s t) (a_c : Fin 32) (a_rd : Nat) (a_wr : Nat) :
    Keeps s (State.markLines t a_c a_rd a_wr) := by
  unfold State.markLines
  repeat' first
    | with_reducible assumption
    | with_reducible apply State.modCh_keeps

theorem State.countBad_keeps {s t : State} (hK : Keeps s t) (a_c : Fin 32) (a_n : Nat) :
    Keeps s (State.countBad t a_c a_n) := by
  unfold State.countBad
  repeat' first
    | with_reducible assumption
    | with_reducible apply State.modCh_keeps

theorem State.modSet_keeps {s t : State} (hK : Keeps s t) (a_c : Fin 32) (a_f : DriftSet → DriftSet) :
    Keeps s (State.modSet t a_c a_f) := by
  unfold State.modSet
  repeat' first
    | with_reducible assumption
    | with_reducible apply State.modCh_keeps

theorem State.driftFlags_keeps {s t : State} (hK : Keeps s t) (a_c : Fin 32) (a_d : Desc) (a_f : FpFlags) :
    Keeps s (State.driftFlags t a_c a_d a_f) := by
  unfold State.driftFlags
  repeat' first
    | with_reducible assumption
    | with_reducible apply State.modSet_keeps
    | with_reducible apply Keeps.ite

theorem State.doLoad_keeps {s t : State} (hK : Keeps s t) (a_c : Fin 32) (a_st : DriftSet) (a_d : Desc) (a_base :
    Int) :
    Keeps s (State.doLoad t a_c a_st a_d a_base) := by
  unfold State.doLoad
  repeat' first
    | with_reducible assumption
    | with_reducible apply State.writeWin_keeps
    | with_reducible apply State.countBad_keeps
    | with_reducible apply State.modSet_keeps
    | with_reducible apply State.driftFlags_keeps

theorem State.doStore_keeps {s t : State} (hK : Keeps s t) (a_c : Fin 32) (a_st : DriftSet) (a_d : Desc) (a_base :
    Int) :
    Keeps s (State.doStore t a_c a_st a_d a_base) := by
  unfold State.doStore
  repeat' first
    | with_reducible assumption
    | with_reducible apply State.modCh_keeps
    | with_reducible apply State.countEvent_keeps
    | with_reducible apply State.readWin_keeps
    | with_reducible apply State.markLines_keeps
    | with_reducible apply State.countBad_keeps
    | with_reducible apply State.modSet_keeps
    | with_reducible apply State.driftFlags_keeps
    | with_reducible apply Keeps.ite

theorem State.doCopy_keeps {s t : State} (hK : Keeps s t) (a_c : Fin 32) (a_st : DriftSet) (a_d : Desc) (a_base :
    Int) (a_src : Int) :
    Keeps s (State.doCopy t a_c a_st a_d a_base a_src) := by
  unfold State.doCopy
  repeat' first
    | with_reducible assumption
    | with_reducible apply State.writeWin_keeps
    | with_reducible apply State.readWin_keeps
    | with_reducible apply State.modSet_keeps
    | with_reducible apply State.driftFlags_keeps
    | with_reducible apply Keeps.ite

theorem State.doIndex_keeps {s t : State} (hK : Keeps s t) (a_c : Fin 32) (a_st : DriftSet) (a_d : Desc) (a_base :
    Int) :
    Keeps s (State.doIndex t a_c a_st a_d a_base) := by
  unfold State.doIndex
  repeat' first
    | with_reducible assumption
    | with_reducible apply State.readWin_keeps
    | with_reducible apply State.modSet_keeps
    | with_reducible apply Keeps.ite

theorem State.nextDesc_keeps {s t : State} (hK : Keeps s t) (a_c : Fin 32) (a_st : DriftSet) (a_d : Desc) :
    Keeps s (State.nextDesc t a_c a_st a_d) := by
  unfold State.nextDesc
  repeat' first
    | with_reducible assumption
    | with_reducible apply State.morDrop_keeps
    | with_reducible apply State.endAccess_keeps
    | with_reducible apply State.modSet_keeps
    | split
    | (with_reducible refine Keeps.ofMk rfl rfl rfl rfl rfl rfl rfl rfl rfl ?_)

theorem State.takeIdx_keeps {s t : State} (hK : Keeps s t) (a_c : Fin 32) (a_n : Nat) :
    Keeps s (State.takeIdx t a_c a_n) := by
  unfold State.takeIdx
  repeat' first
    | with_reducible assumption
    | with_reducible apply State.modCh_keeps
    | with_reducible apply State.modSet_keeps

theorem State.pushIdx_keeps {s t : State} (hK : Keeps s t) (a_c : Fin 32) (a_k : Fin 32) (a_st : DriftSet) :
    Keeps s (State.pushIdx t a_c a_k a_st) := by
  unfold State.pushIdx
  repeat' first
    | with_reducible assumption
    | with_reducible apply State.modCh_keeps
    | with_reducible apply State.modSet_keeps

theorem State.chainOrder_keeps {s t : State} (hK : Keeps s t) (a_c : Fin 32) :
    Keeps s (State.chainOrder t a_c) := by
  unfold State.chainOrder
  repeat' first
    | with_reducible assumption
    | with_reducible apply State.modCh_keeps
    | with_reducible apply State.modOrder_keeps
    | with_reducible apply State.endOrder_keeps
    | with_reducible apply State.retryPush_keeps
    | with_reducible apply State.stageImage_keeps
    | with_reducible apply Keeps.ite
    | with_reducible apply Keeps.dite
    | split
    | intro _
    | (with_reducible refine Keeps.fst (by assumption) ?_)
    | (with_reducible refine Keeps.ofMk rfl rfl rfl rfl rfl rfl rfl rfl rfl ?_)

theorem State.noteMarked_keeps {s t : State} (hK : Keeps s t) (a_c : Fin 32) (a_st : BitVec 4) :
    Keeps s (State.noteMarked t a_c a_st) := by
  unfold State.noteMarked
  repeat' first
    | with_reducible assumption
    | with_reducible apply State.modOrder_keeps
    | with_reducible apply Keeps.ite
    | with_reducible apply Keeps.dite
    | split

theorem State.endChain_keeps {s t : State} (hK : Keeps s t) (a_c : Fin 32) (a_st : BitVec 4) (a_desc : Nat) :
    Keeps s (State.endChain t a_c a_st a_desc) := by
  unfold State.endChain
  repeat' first
    | with_reducible assumption
    | with_reducible apply State.modCh_keeps
    | with_reducible apply State.driftEvent_keeps
    | with_reducible apply State.chainOrder_keeps
    | with_reducible apply State.noteMarked_keeps

theorem State.meltChain_keeps {s t : State} (hK : Keeps s t) (a_c : Fin 32) (a_st : DriftSet) :
    Keeps s (State.meltChain t a_c a_st) := by
  unfold State.meltChain
  repeat' first
    | with_reducible assumption
    | with_reducible apply State.forEach_keeps
    | with_reducible apply State.endAccess_keeps
    | with_reducible apply State.endChain_keeps
    | with_reducible apply Keeps.ite
    | with_reducible apply Keeps.dite
    | split
    | intro _

theorem State.withFirn_keeps {s t : State} (hK : Keeps s t) {acc : Nat} {who : Requester} {d : Desc} {go : State}
    (hg : Keeps s go) : KeepsOpt s (t.withFirn acc who d go) := by
  unfold State.withFirn
  split
  · exact KeepsOpt.some hg
  · split
    · exact KeepsOpt.none
    · exact KeepsOpt.some (State.firnAsk_keeps hK _ _)

theorem State.driveStep_keeps {s t : State} (hK : Keeps s t) (c : Fin 32) : KeepsOpt s (t.driveStep c) := by
  unfold State.driveStep
  repeat' first
    | with_reducible assumption
    | with_reducible apply State.nextDesc_keeps
    | with_reducible apply State.pushIdx_keeps
    | with_reducible apply State.takeIdx_keeps
    | with_reducible apply State.modSet_keeps
    | with_reducible apply State.morReadWin_keeps
    | with_reducible apply State.doLoad_keeps
    | with_reducible apply State.doIndex_keeps
    | with_reducible apply State.doStore_keeps
    | with_reducible apply State.doCopy_keeps
    | with_reducible apply State.meltChain_keeps
    | with_reducible apply State.withFirn_keeps
    | with_reducible apply Keeps.ite
    | with_reducible apply KeepsOpt.ite
    | with_reducible apply KeepsOpt.none
    | with_reducible apply KeepsOpt.some
    | split

theorem State.driveN_keeps {s t : State} (hK : Keeps s t) (a_c : Fin 32) (a_y0 : Nat) :
    Keeps s (State.driveN t a_c a_y0) := by
  induction a_y0 generalizing t with
  | zero => exact hK
  | succ n ih =>
    unfold State.driveN
    split
    · rename_i u h; exact ih (State.driveStep_keeps hK _ _ h)
    · exact hK

theorem State.drive_keeps {s t : State} (hK : Keeps s t) (a_c : Fin 32) :
    Keeps s (State.drive t a_c) := by
  unfold State.drive
  repeat' first
    | with_reducible assumption
    | with_reducible apply State.driveN_keeps

theorem State.retireSet_keeps {s t : State} (hK : Keeps s t) (a_c : Fin 32) (a_y0 : Nat) :
    Keeps s (State.retireSet t a_c a_y0) := by
  induction a_y0 generalizing t  with
  | zero =>
    unfold State.retireSet
    repeat' first
      | with_reducible assumption
  | succ y0 ih =>
    unfold State.retireSet
    repeat' first
      | with_reducible assumption
      | with_reducible apply ih
      | with_reducible apply State.modCh_keeps
      | with_reducible apply State.raiseFlags_keeps
      | with_reducible apply State.driftEvent_keeps
      | with_reducible apply State.endAccess_keeps
      | with_reducible apply State.askFetch_keeps
      | with_reducible apply State.endChain_keeps
      | with_reducible apply Keeps.ite
      | with_reducible apply Keeps.dite
      | split
      | intro _
      | (with_reducible refine Keeps.fst (by assumption) ?_)
      | (with_reducible refine Keeps.ofMk rfl rfl rfl rfl rfl rfl rfl rfl rfl ?_)

theorem State.enterSet_keeps {s t : State} (hK : Keeps s t) (a_c : Fin 32) (a_ds : List Desc) (a_short : Option
    (BitVec 4)) :
    Keeps s (State.enterSet t a_c a_ds a_short) := by
  unfold State.enterSet
  repeat' first
    | with_reducible assumption
    | with_reducible apply State.modCh_keeps
    | with_reducible apply State.countEvent_keeps
    | with_reducible apply State.presentSet_keeps
    | with_reducible apply State.askFetch_keeps
    | with_reducible apply State.drive_keeps
    | with_reducible apply State.retireSet_keeps
    | with_reducible apply Keeps.ite

theorem State.readSet_keeps {s t : State} (hK : Keeps s t) (a_c : Fin 32) (a_id : Nat) (a_fl : Fin 64) (a_ws : List
    Nat) :
    Keeps s (State.readSet t a_c a_id a_fl a_ws) := by
  unfold State.readSet
  repeat' first
    | with_reducible assumption
    | with_reducible apply State.modCh_keeps
    | with_reducible apply State.endAccess_keeps
    | with_reducible apply State.readWin_keeps
    | with_reducible apply State.enterSet_keeps
    | with_reducible apply Keeps.ite

theorem State.fetchIce_keeps {s t : State} (hK : Keeps s t) (a_c : Fin 32) :
    Keeps s (State.fetchIce t a_c) := by
  unfold State.fetchIce
  repeat' first
    | with_reducible assumption
    | with_reducible apply State.modCh_keeps
    | with_reducible apply State.firnAsk_keeps
    | with_reducible apply State.morReadWin_keeps
    | with_reducible apply State.askFetch_keeps
    | with_reducible apply State.enterSet_keeps
    | with_reducible apply State.readSet_keeps
    | with_reducible apply Keeps.foldl
    | with_reducible apply Keeps.ite
    | with_reducible apply Keeps.dite
    | split
    | intro _
    | (with_reducible refine Keeps.fst (by assumption) ?_)
    | (with_reducible refine Keeps.ofMk rfl rfl rfl rfl rfl rfl rfl rfl rfl ?_)

theorem State.fetchBurst_keeps {s t : State} (hK : Keeps s t) (a_c : Fin 32) (a_ls : List LineResult) :
    Keeps s (State.fetchBurst t a_c a_ls) := by
  unfold State.fetchBurst
  repeat' first
    | with_reducible assumption
    | with_reducible apply State.modCh_keeps
    | with_reducible apply State.forEach_keeps
    | with_reducible apply State.fabricFault_keeps
    | with_reducible apply State.markLines_keeps
    | with_reducible apply State.enterSet_keeps
    | with_reducible apply Keeps.ite
    | with_reducible apply Keeps.dite
    | split
    | intro _
    | (with_reducible refine Keeps.fst (by assumption) ?_)
    | (with_reducible refine Keeps.ofMk rfl rfl rfl rfl rfl rfl rfl rfl rfl ?_)

theorem State.fetchSet_keeps {s t : State} (hK : Keeps s t) (a_c : Fin 32) (a_res : FetchResult) :
    Keeps s (State.fetchSet t a_c a_res) := by
  unfold State.fetchSet
  repeat' first
    | with_reducible assumption
    | with_reducible apply State.modCh_keeps
    | with_reducible apply State.forEach_keeps
    | with_reducible apply State.fabricFault_keeps
    | with_reducible apply State.fetchIce_keeps
    | with_reducible apply State.fetchBurst_keeps
    | with_reducible apply Keeps.ite
    | with_reducible apply Keeps.dite
    | split
    | intro _

theorem State.readLine_keeps {s t : State} (hK : Keeps s t) (a_c : Fin 32) (a_addr : Nat) (a_res : LineResult) :
    Keeps s (State.readLine t a_c a_addr a_res) := by
  unfold State.readLine
  repeat' first
    | with_reducible assumption
    | with_reducible apply State.modCh_keeps
    | with_reducible apply State.countEvent_keeps
    | with_reducible apply State.fabricFault_keeps
    | with_reducible apply State.markLines_keeps
    | with_reducible apply State.modSet_keeps
    | with_reducible apply State.drive_keeps
    | split
    | (with_reducible refine Keeps.ofMk rfl rfl rfl rfl rfl rfl rfl rfl rfl ?_)

theorem State.writeResponse_keeps {s t : State} (hK : Keeps s t) (a_c : Fin 32) (a_res : WriteResult) :
    Keeps s (State.writeResponse t a_c a_res) := by
  unfold State.writeResponse
  repeat' first
    | with_reducible assumption
    | with_reducible apply State.modCh_keeps
    | with_reducible apply State.fabricFault_keeps
    | with_reducible apply State.markLines_keeps
    | with_reducible apply State.modSet_keeps
    | with_reducible apply State.drive_keeps
    | split
    | (with_reducible refine Keeps.ofMk rfl rfl rfl rfl rfl rfl rfl rfl rfl ?_)

theorem State.setRetire_keeps {s t : State} (hK : Keeps s t) (a_c : Fin 32) :
    Keeps s (State.setRetire t a_c) := by
  unfold State.setRetire
  repeat' first
    | with_reducible assumption
    | with_reducible apply State.drive_keeps
    | with_reducible apply State.retireSet_keeps
    | with_reducible apply Keeps.ite

theorem State.shadowEffect_keeps {s t : State} (hK : Keeps s t) (a_c : Fin 32) :
    Keeps s (State.shadowEffect t a_c) := by
  unfold State.shadowEffect
  repeat' first
    | with_reducible assumption
    | with_reducible apply State.startPass_keeps
    | with_reducible apply State.drive_keeps
    | with_reducible apply State.retireSet_keeps
    | split
    | (with_reducible refine Keeps.ofMk rfl rfl rfl rfl rfl rfl rfl rfl rfl ?_)

theorem State.stoppedOrder_keeps {s t : State} (hK : Keeps s t) (a_c : Fin 32) :
    Keeps s (State.stoppedOrder t a_c) := by
  unfold State.stoppedOrder
  repeat' first
    | with_reducible assumption
    | with_reducible apply State.modCh_keeps
    | with_reducible apply State.endOrder_keeps
    | with_reducible apply Keeps.ite
    | with_reducible apply Keeps.dite
    | split
    | intro _
    | (with_reducible refine Keeps.fst (by assumption) ?_)
    | (with_reducible refine Keeps.ofMk rfl rfl rfl rfl rfl rfl rfl rfl rfl ?_)

theorem State.haltOrder_keeps {s t : State} (hK : Keeps s t) (a_c : Fin 32) (a_line : Nat) :
    Keeps s (State.haltOrder t a_c a_line) := by
  unfold State.haltOrder
  repeat' first
    | with_reducible assumption
    | with_reducible apply State.report_keeps
    | with_reducible apply State.modOrder_keeps
    | with_reducible apply State.stopChannel_keeps
    | with_reducible apply Keeps.ite
    | with_reducible apply Keeps.dite
    | split
    | intro _
    | (with_reducible refine Keeps.fst (by assumption) ?_)
    | (with_reducible refine Keeps.ofMk rfl rfl rfl rfl rfl rfl rfl rfl rfl ?_)

theorem State.enterHalt_keeps {s t : State} (hK : Keeps s t) (a_c : Fin 32) (a_desc : Nat) (a_row : Nat) (a_cause :
    BitVec 3) (a_line : Nat) :
    Keeps s (State.enterHalt t a_c a_desc a_row a_cause a_line) := by
  unfold State.enterHalt
  repeat' first
    | with_reducible assumption
    | with_reducible apply State.modCh_keeps
    | with_reducible apply State.driftEvent_keeps
    | with_reducible apply State.haltOrder_keeps

theorem State.haltSet_keeps {s t : State} (hK : Keeps s t) (a_c : Fin 32) (a_st : DriftSet) (a_d : Desc) (a_row :
    Nat) :
    Keeps s (State.haltSet t a_c a_st a_d a_row) := by
  unfold State.haltSet
  repeat' first
    | with_reducible assumption
    | with_reducible apply State.firnDrop_keeps
    | with_reducible apply State.firnFlush_keeps
    | with_reducible apply State.morDrop_keeps
    | with_reducible apply State.writeWin_keeps
    | with_reducible apply State.modSet_keeps
    | with_reducible apply Keeps.ite

theorem State.haltDesc_keeps {s t : State} (hK : Keeps s t) (a_c : Fin 32) (a_st : DriftSet) (a_d : Desc) :
    Keeps s (State.haltDesc t a_c a_st a_d) := by
  unfold State.haltDesc
  repeat' first
    | with_reducible assumption
    | with_reducible apply State.firnAsk_keeps
    | with_reducible apply State.meltChain_keeps
    | with_reducible apply State.enterHalt_keeps
    | with_reducible apply State.haltSet_keeps
    | with_reducible apply Keeps.ite

theorem State.channelHalt_keeps {s t : State} (hK : Keeps s t) (a_c : Fin 32) :
    Keeps s (State.channelHalt t a_c) := by
  unfold State.channelHalt
  repeat' first
    | with_reducible assumption
    | with_reducible apply State.modCh_keeps
    | with_reducible apply State.retireSet_keeps
    | with_reducible apply State.enterHalt_keeps
    | with_reducible apply State.haltDesc_keeps
    | with_reducible apply Keeps.ite
    | with_reducible apply Keeps.dite
    | split
    | intro _
    | (with_reducible refine Keeps.fst (by assumption) ?_)
    | (with_reducible refine Keeps.ofMk rfl rfl rfl rfl rfl rfl rfl rfl rfl ?_)

theorem State.resumeCh_keeps {s t : State} (hK : Keeps s t) (a_c : Fin 32) :
    Keeps s (State.resumeCh t a_c) := by
  unfold State.resumeCh
  repeat' first
    | with_reducible assumption
    | with_reducible apply State.modCh_keeps
    | with_reducible apply State.askFetch_keeps
    | with_reducible apply State.drive_keeps
    | with_reducible apply Keeps.ite
    | with_reducible apply Keeps.dite
    | split
    | intro _
    | (with_reducible refine Keeps.fst (by assumption) ?_)
    | (with_reducible refine Keeps.ofMk rfl rfl rfl rfl rfl rfl rfl rfl rfl ?_)

theorem State.drfResume_keeps {s t : State} (hK : Keeps s t) (a_r : Reader) (a_ch : BitVec 5) :
    Keeps s (State.drfResume t a_r a_ch) := by
  unfold State.drfResume
  repeat' first
    | with_reducible assumption
    | with_reducible apply State.setRstat_keeps
    | with_reducible apply State.resumeCh_keeps
    | with_reducible apply Keeps.ite

theorem State.drfStop_keeps {s t : State} (hK : Keeps s t) (a_r : Reader) (a_c : Fin 32) :
    Keeps s (State.drfStop t a_r a_c) := by
  unfold State.drfStop
  repeat' first
    | with_reducible assumption
    | with_reducible apply State.setRstat_keeps
    | with_reducible apply State.stopChannel_keeps
    | with_reducible apply Keeps.ite

theorem State.drfOwn_keeps {s t : State} (hK : Keeps s t) (a_r : Reader) (a_c : Fin 32) (a_h : Hart) :
    Keeps s (State.drfOwn t a_r a_c a_h) := by
  unfold State.drfOwn
  repeat' first
    | with_reducible assumption
    | with_reducible apply State.modCh_keeps
    | with_reducible apply State.setRstat_keeps
    | with_reducible apply Keeps.ite

theorem State.stopAccesses_keeps {s t : State} (hK : Keeps s t) (a_c : Fin 32) :
    Keeps s (State.stopAccesses t a_c) := by
  unfold State.stopAccesses
  repeat' first
    | with_reducible assumption
    | with_reducible apply State.forEach_keeps
    | with_reducible apply State.fresh_keeps
    | with_reducible apply State.firnStop_keeps
    | with_reducible apply State.endAccess_keeps
    | with_reducible apply State.writeWin_keeps
    | with_reducible apply Keeps.ite
    | with_reducible apply Keeps.dite
    | split
    | intro _

theorem State.channelStopped_keeps {s t : State} (hK : Keeps s t) (a_c : Fin 32) :
    Keeps s (State.channelStopped t a_c) := by
  unfold State.channelStopped
  repeat' first
    | with_reducible assumption
    | with_reducible apply State.modCh_keeps
    | with_reducible apply State.driftEvent_keeps
    | with_reducible apply State.stoppedOrder_keeps
    | with_reducible apply State.stopAccesses_keeps
    | with_reducible apply Keeps.ite
    | with_reducible apply Keeps.dite
    | split
    | intro _
    | (with_reducible refine Keeps.fst (by assumption) ?_)
    | (with_reducible refine Keeps.ofMk rfl rfl rfl rfl rfl rfl rfl rfl rfl ?_)

theorem State.slotGrant_keeps {s t : State} (hK : Keeps s t) (a_c : Fin 32) :
    Keeps s (State.slotGrant t a_c) := by
  unfold State.slotGrant
  repeat' first
    | with_reducible assumption
    | with_reducible apply State.present_keeps
    | with_reducible apply State.modSet_keeps
    | split
    | (with_reducible refine Keeps.ofMk rfl rfl rfl rfl rfl rfl rfl rfl rfl ?_)

theorem State.indexResume_keeps {s t : State} (hK : Keeps s t) (a_c : Fin 32) :
    Keeps s (State.indexResume t a_c) := by
  unfold State.indexResume
  repeat' first
    | with_reducible assumption
    | with_reducible apply State.modSet_keeps
    | with_reducible apply State.drive_keeps
    | split
    | (with_reducible refine Keeps.ofMk rfl rfl rfl rfl rfl rfl rfl rfl rfl ?_)

theorem State.fbConfig_keeps {s t : State} (hK : Keeps s t) (a_r : Reader) (a_b : Fin 16) (a_word : Fin 5) (a_v :
    Word) :
    Keeps s (State.fbConfig t a_r a_b a_word a_v) := by
  unfold State.fbConfig
  repeat' first
    | with_reducible assumption
    | with_reducible apply State.setRstat_keeps
    | with_reducible apply Keeps.ite
    | with_reducible apply Keeps.dite
    | split
    | intro _
    | (with_reducible refine Keeps.fst (by assumption) ?_)
    | (with_reducible refine Keeps.ofMk rfl rfl rfl rfl rfl rfl rfl rfl rfl ?_)

theorem State.fbAdvance_keeps {s t : State} (hK : Keeps s t) (a_r : Reader) (a_b : Fin 16) (a_post : Bool) :
    Keeps s (State.fbAdvance t a_r a_b a_post) := by
  unfold State.fbAdvance
  repeat' first
    | with_reducible assumption
    | split
    | (with_reducible refine Keeps.ofMk rfl rfl rfl rfl rfl rfl rfl rfl rfl ?_)

theorem State.pruneCycles_keeps {s t : State} (hK : Keeps s t) :
    Keeps s (State.pruneCycles t) := by
  unfold State.pruneCycles
  repeat' first
    | with_reducible assumption
    | with_reducible apply Keeps.ite
    | (with_reducible refine Keeps.ofMk rfl rfl rfl rfl rfl rfl rfl rfl rfl ?_)

theorem State.deadlock_keeps {s t : State} (hK : Keeps s t) (a_p : Party) :
    Keeps s (State.deadlock t a_p) := by
  unfold State.deadlock
  repeat' first
    | with_reducible assumption
    | with_reducible apply State.modHart_keeps
    | with_reducible apply State.trap_keeps
    | with_reducible apply State.pruneCycles_keeps
    | with_reducible apply Keeps.foldl
    | with_reducible apply Keeps.ite
    | with_reducible apply Keeps.dite
    | split
    | intro _
    | (with_reducible refine Keeps.fst (by assumption) ?_)
    | (with_reducible refine Keeps.ofMk rfl rfl rfl rfl rfl rfl rfl rfl rfl ?_)

theorem State.rearm_keeps {s t : State} (hK : Keeps s t) (a_r : Reader) (a_ch : BitVec 5) :
    Keeps s (State.rearm t a_r a_ch) := by
  unfold State.rearm
  repeat' first
    | with_reducible assumption
    | with_reducible apply State.drfRearm_keeps
    | with_reducible apply State.drive_keeps
    | with_reducible apply State.retireSet_keeps
    | with_reducible apply Keeps.ite
    | split
    | (with_reducible refine Keeps.fst (by assumption) ?_)

theorem State.chainWrites_keeps {s t : State} (hK : Keeps s t) (a_ch : BitVec 5) (a_ws : List (Reader × Bool)) :
    Keeps s (State.chainWrites t a_ch a_ws) := by
  unfold State.chainWrites
  repeat' first
    | with_reducible assumption
    | with_reducible apply State.forEach_keeps
    | with_reducible apply State.drfGo_keeps
    | with_reducible apply State.rearm_keeps
    | with_reducible apply Keeps.ite
    | with_reducible apply Keeps.dite
    | split
    | intro _

end Sys2Proof.Machine
end

