-- ==== Sys2Proof/Laws/KeepsLinks.lean ====
section
/-! SUPPORT. What the operations of the Mortar, the bonds and the ports keep (see Laws/Keeps.lean). -/

namespace Sys2Proof.Machine

theorem State.modMortar_keeps {s t : State} (hK : Keeps s t) (a_f : Mortar → Mortar) :
    Keeps s (State.modMortar t a_f) := by
  unfold State.modMortar
  repeat' first
    | with_reducible assumption
    | (with_reducible refine Keeps.ofMk rfl rfl rfl rfl rfl rfl rfl rfl rfl ?_)

theorem State.modRun_keeps {s t : State} (hK : Keeps s t) (a_f : CourseRun → CourseRun) :
    Keeps s (State.modRun t a_f) := by
  unfold State.modRun
  repeat' first
    | with_reducible assumption
    | with_reducible apply State.modMortar_keeps

theorem State.courseFault_keeps {s t : State} (hK : Keeps s t) (a_at' : Cursor) (a_codes : List (BitVec 4)) :
    Keeps s (State.courseFault t a_at' a_codes) := by
  unfold State.courseFault
  repeat' first
    | with_reducible assumption
    | with_reducible apply State.modRun_keeps
    | split

theorem State.mortarEnd_keeps {s t : State} (hK : Keeps s t) (a_key : Nat) (a_id : Nat) :
    Keeps s (State.mortarEnd t a_key a_id) := by
  unfold State.mortarEnd
  repeat' first
    | with_reducible assumption
    | with_reducible apply State.endAccess_keeps
    | with_reducible apply State.modMortar_keeps

theorem State.mortarForget_keeps {s t : State} (hK : Keeps s t) (a_key : Nat) :
    Keeps s (State.mortarForget t a_key) := by
  unfold State.mortarForget
  repeat' first
    | with_reducible assumption
    | with_reducible apply State.mortarEnd_keeps
    | with_reducible apply Keeps.ite
    | with_reducible apply Keeps.dite
    | split

theorem State.mortarPresent_keeps {s t : State} (hK : Keeps s t) (a_key : Nat) (a_ws : List Nat) (a_write : Bool) :
    Keeps s (State.mortarPresent t a_key a_ws a_write).1 := by
  unfold State.mortarPresent
  repeat' first
    | with_reducible assumption
    | split
    | dsimp only
    | with_reducible apply State.present_keeps
    | with_reducible apply State.modMortar_keeps
    | with_reducible apply Keeps.foldl
    | with_reducible apply Keeps.ite
    | with_reducible apply Keeps.dite
    | split
    | intro _
    | (with_reducible refine Keeps.fst (by assumption) ?_)

theorem State.mortarAccess_keeps {s t : State} (hK : Keeps s t) (a_key : Nat) (a_f : Fin 64) (a_ws : List Nat)
    (a_write : Bool) :
    Keeps s (State.mortarAccess t a_key a_f a_ws a_write).1 := by
  unfold State.mortarAccess
  repeat' first
    | with_reducible assumption
    | split
    | dsimp only
    | with_reducible apply State.allocate_keeps
    | with_reducible apply State.firnAsk_keeps
    | with_reducible apply State.morRead_keeps
    | with_reducible apply State.modMortar_keeps
    | with_reducible apply State.mortarPresent_keeps
    | with_reducible apply Keeps.ite
    | with_reducible apply Keeps.dite
    | split
    | intro _
    | (with_reducible refine Keeps.fst (by assumption) ?_)

theorem State.keepBlock_keeps {s t : State} (hK : Keeps s t) (a_key : Nat) (a_b : Store (BitVec 33)) :
    Keeps s (State.keepBlock t a_key a_b) := by
  unfold State.keepBlock
  repeat' first
    | with_reducible assumption
    | with_reducible apply State.modMortar_keeps

theorem State.dropBlocks_keeps {s t : State} (hK : Keeps s t) (a_p : Nat → Bool) :
    Keeps s (State.dropBlocks t a_p) := by
  unfold State.dropBlocks
  repeat' first
    | with_reducible assumption
    | with_reducible apply State.modMortar_keeps

theorem State.mortarRead_keeps {s t : State} (hK : Keeps s t) (a_key : Nat) (a_at' : Cursor) (a_base : Word) (a_os
    : List Nat) :
    Keeps s (State.mortarRead t a_key a_at' a_base a_os).1 := by
  unfold State.mortarRead
  repeat' first
    | with_reducible assumption
    | split
    | dsimp only
    | with_reducible apply State.readWords_keeps
    | with_reducible apply State.courseFault_keeps
    | with_reducible apply State.mortarEnd_keeps
    | with_reducible apply State.mortarForget_keeps
    | with_reducible apply State.mortarAccess_keeps
    | with_reducible apply State.keepBlock_keeps
    | with_reducible apply Keeps.foldl
    | with_reducible apply Keeps.ite
    | with_reducible apply Keeps.dite
    | split
    | intro _
    | (with_reducible refine Keeps.fst (by assumption) ?_)

theorem State.mortarReads_keeps {s t : State} (hK : Keeps s t) (a_at' : Cursor) (a_y0 : List (Nat × Word × List
    Nat)) :
    Keeps s (State.mortarReads t a_at' a_y0).1 := by
  induction a_y0 generalizing t a_at' with
  | nil =>
    unfold State.mortarReads
    repeat' first
      | with_reducible assumption
  | cons y0 y1 ih =>
    unfold State.mortarReads
    repeat' first
      | with_reducible assumption
      | split
      | with_reducible apply ih
      | with_reducible apply State.mortarRead_keeps
      | (with_reducible refine Keeps.fst (by assumption) ?_)

theorem State.mortarWrite_keeps {s t : State} (hK : Keeps s t) (a_key : Nat) (a_at' : Cursor) (a_o : OutWords) :
    Keeps s (State.mortarWrite t a_key a_at' a_o).1 := by
  unfold State.mortarWrite
  repeat' first
    | with_reducible assumption
    | split
    | dsimp only
    | with_reducible apply State.writeWords_keeps
    | with_reducible apply State.modMortar_keeps
    | with_reducible apply State.modRun_keeps
    | with_reducible apply State.courseFault_keeps
    | with_reducible apply State.mortarEnd_keeps
    | with_reducible apply State.mortarForget_keeps
    | with_reducible apply State.mortarAccess_keeps
    | with_reducible apply Keeps.ite
    | with_reducible apply Keeps.dite
    | split
    | intro _
    | (with_reducible refine Keeps.fst (by assumption) ?_)

theorem State.bondLast_keeps {s t : State} (hK : Keeps s t) (a_r : Reader) (a_c : BitVec 2) :
    Keeps s (State.bondLast t a_r a_c) := by
  unfold State.bondLast
  repeat' first
    | with_reducible assumption
    | with_reducible apply State.modMortar_keeps

theorem State.courseStart_keeps {s t : State} (hK : Keeps s t) (a_r : Reader) (a_addr : Word) :
    Keeps s (State.courseStart t a_r a_addr) := by
  unfold State.courseStart
  repeat' first
    | with_reducible assumption
    | with_reducible apply State.modMortar_keeps
    | with_reducible apply State.bondLast_keeps
    | with_reducible apply Keeps.ite

theorem State.courseStop_keeps {s t : State} (hK : Keeps s t) (a_r : Reader) :
    Keeps s (State.courseStop t a_r) := by
  unfold State.courseStop
  repeat' first
    | with_reducible assumption
    | with_reducible apply State.modRun_keeps
    | with_reducible apply State.bondLast_keeps
    | split

theorem State.courseDrop_keeps {s t : State} (hK : Keeps s t) (a_r : Reader) :
    Keeps s (State.courseDrop t a_r) := by
  unfold State.courseDrop
  repeat' first
    | with_reducible assumption
    | with_reducible apply State.dropPending_keeps
    | with_reducible apply State.bondLast_keeps
    | split

theorem State.courseBegin_keeps {s t : State} (hK : Keeps s t) (a_fs : Vector OpForm 4) :
    Keeps s (State.courseBegin t a_fs) := by
  unfold State.courseBegin
  repeat' first
    | with_reducible assumption
    | with_reducible apply State.fresh_keeps
    | with_reducible apply State.raiseFor_keeps
    | with_reducible apply State.modMortar_keeps
    | with_reducible apply State.keepBlock_keeps
    | with_reducible apply State.mortarRead_keeps
    | with_reducible apply State.mortarWrite_keeps
    | split
    | (with_reducible refine Keeps.fst (by assumption) ?_)
    | (with_reducible refine Keeps.ofMk rfl rfl rfl rfl rfl rfl rfl rfl rfl ?_)

theorem State.clearWorking_keeps {s t : State} (hK : Keeps s t) (a_d : CourseDesc) :
    Keeps s (State.clearWorking t a_d) := by
  unfold State.clearWorking
  repeat' first
    | with_reducible assumption
    | with_reducible apply State.modTile_keeps
    | with_reducible apply State.forEach_keeps
    | with_reducible apply Keeps.ite
    | with_reducible apply Keeps.dite
    | intro _
    | exact swf_nil _

theorem State.noteCourse_keeps {s t : State} (hK : Keeps s t) (a_c : CourseRun) :
    Keeps s (State.noteCourse t a_c) := by
  unfold State.noteCourse
  repeat' first
    | with_reducible assumption
    | with_reducible apply State.modOrder_keeps
    | with_reducible apply Keeps.ite
    | with_reducible apply Keeps.dite
    | split

theorem State.mortarDone_keeps {s t : State} (hK : Keeps s t) (a_o : OutWords) :
    Keeps s (State.mortarDone t a_o).1 := by
  unfold State.mortarDone
  repeat' first
    | with_reducible assumption
    | split
    | dsimp only
    | with_reducible apply State.modMortar_keeps
    | with_reducible apply State.keepBlock_keeps
    | with_reducible apply State.dropBlocks_keeps
    | with_reducible apply State.mortarWrite_keeps
    | with_reducible apply Keeps.ite
    | with_reducible apply Keeps.dite
    | split
    | intro _
    | (with_reducible refine Keeps.fst (by assumption) ?_)

theorem State.courseComplete_keeps {s t : State} (hK : Keeps s t) :
    Keeps s (State.courseComplete t) := by
  unfold State.courseComplete
  repeat' first
    | with_reducible assumption
    | with_reducible apply State.modHart_keeps
    | with_reducible apply State.forEach_keeps
    | with_reducible apply State.raiseFor_keeps
    | with_reducible apply State.endAccess_keeps
    | with_reducible apply State.modMortar_keeps
    | with_reducible apply State.clearWorking_keeps
    | with_reducible apply State.noteCourse_keeps
    | with_reducible apply State.mortarDone_keeps
    | with_reducible apply Keeps.ite
    | with_reducible apply Keeps.dite
    | split
    | intro _
    | (with_reducible refine Keeps.fst (by assumption) ?_)
    | (with_reducible refine Keeps.ofMk rfl rfl rfl rfl rfl rfl rfl rfl rfl ?_)
    | exact swf_nil _
    | (with_reducible exact swf_ssetMany _ _ _ (by assumption))

theorem State.operandTile_keeps {s t : State} (hK : Keeps s t) (a_r : CourseRun) (a_t : Send) :
    Keeps s (State.operandTile t a_r a_t).1 := by
  unfold State.operandTile
  repeat' first
    | with_reducible assumption
    | split
    | dsimp only
    | with_reducible apply State.mortarRead_keeps
    | (with_reducible refine Keeps.fst (by assumption) ?_)

theorem State.bondTake_keeps {s t : State} (hK : Keeps s t) (a_o : Nat) :
    Keeps s (State.bondTake t a_o) := by
  unfold State.bondTake
  repeat' first
    | with_reducible assumption
    | with_reducible apply State.advanceTo_keeps
    | with_reducible apply State.occupy_keeps
    | with_reducible apply State.accepted_keeps
    | with_reducible apply Keeps.ite

theorem State.bondResidue_keeps {s t : State} (hK : Keeps s t) (a_g : Fin 17) (a_withhold : CourseRun → CourseRun) :
    Keeps s (State.bondResidue t a_g a_withhold) := by
  unfold State.bondResidue
  repeat' first
    | with_reducible assumption
    | with_reducible apply State.modLane_keeps
    | with_reducible apply State.toggleObs_keeps
    | with_reducible apply State.uncorrectable_keeps
    | with_reducible apply State.fenceGroup_keeps
    | with_reducible apply State.modRun_keeps
    | with_reducible apply Keeps.ite
    | with_reducible apply Keeps.dite
    | split
    | intro _
    | (with_reducible refine Keeps.fst (by assumption) ?_)
    | (with_reducible refine Keeps.ofMk rfl rfl rfl rfl rfl rfl rfl rfl rfl ?_)

theorem State.bondChecked_keeps {s t : State} (hK : Keeps s t) (a_r : CourseRun) (a_steps : Nat) (a_check : Option
    LaneCheck) (a_withhold : CourseRun → CourseRun) (a_work : State → State) (hw : ∀ u, Keeps s u → Keeps s (a_work
        u)):
    Keeps s (State.bondChecked t a_r a_steps a_check a_withhold a_work) := by
  unfold State.bondChecked
  repeat' first
    | with_reducible assumption
    | with_reducible apply hw
    | with_reducible apply State.uncorrectable_keeps
    | with_reducible apply State.modRun_keeps
    | with_reducible apply State.bondTake_keeps
    | with_reducible apply State.bondResidue_keeps
    | with_reducible apply Keeps.ite
    | with_reducible apply Keeps.dite
    | split
    | intro _
    | (with_reducible refine Keeps.fst (by assumption) ?_)
    | (with_reducible refine Keeps.ofMk rfl rfl rfl rfl rfl rfl rfl rfl rfl ?_)

theorem State.transferTile_keeps {s t : State} (hK : Keeps s t) (a_r : CourseRun) (a_c : Cursor) (a_t : Send) :
    Keeps s (State.transferTile t a_r a_c a_t).1 := by
  unfold State.transferTile
  repeat' first
    | with_reducible assumption
    | split
    | dsimp only
    | with_reducible apply State.operandTile_keeps

theorem State.sendOperand_keeps {s t : State} (hK : Keeps s t) (a_slot : Bool) (a_c : Cursor) (a_t : Send) (a_o :
    OpTile) :
    Keeps s (State.sendOperand t a_slot a_c a_t a_o) := by
  unfold State.sendOperand
  repeat' first
    | with_reducible assumption
    | with_reducible apply State.countEvent_keeps
    | with_reducible apply State.toggleObs_keeps
    | with_reducible apply State.modMortar_keeps
    | with_reducible apply State.modRun_keeps
    | with_reducible apply State.dropBlocks_keeps

theorem State.operandTransfer_keeps {s t : State} (hK : Keeps s t) (a_check : Option LaneCheck) :
    Keeps s (State.operandTransfer t a_check) := by
  unfold State.operandTransfer
  repeat' first
    | with_reducible assumption
    | with_reducible apply State.bondChecked_keeps
    | with_reducible apply State.transferTile_keeps
    | with_reducible apply State.sendOperand_keeps
    | with_reducible apply Keeps.ite
    | with_reducible apply Keeps.dite
    | split
    | intro _
    | (with_reducible refine Keeps.fst (by assumption) ?_)

theorem State.resultTransfer_keeps {s t : State} (hK : Keeps s t) (a_tag : DWord) (a_payload : List Word) (a_slush
    : List Nat) :
    Keeps s (State.resultTransfer t a_tag a_payload a_slush) := by
  unfold State.resultTransfer
  repeat' first
    | with_reducible assumption
    | with_reducible apply State.countEvent_keeps
    | with_reducible apply State.toggleObs_keeps
    | with_reducible apply State.uncorrectable_keeps
    | with_reducible apply State.modRun_keeps
    | with_reducible apply Keeps.ite
    | with_reducible apply Keeps.dite
    | split

theorem State.operandCredit_keeps {s t : State} (hK : Keeps s t) :
    Keeps s (State.operandCredit t) := by
  unfold State.operandCredit
  repeat' first
    | with_reducible assumption
    | with_reducible apply State.modMortar_keeps

theorem State.mortarFlush_keeps {s t : State} (hK : Keeps s t) (a_at' : Cursor) (a_y0 : List OutWords) :
    Keeps s (State.mortarFlush t a_at' a_y0).1 := by
  induction a_y0 generalizing t a_at' with
  | nil =>
    unfold State.mortarFlush
    repeat' first
      | with_reducible assumption
  | cons y0 y1 ih =>
    unfold State.mortarFlush
    repeat' first
      | with_reducible assumption
      | split
      | dsimp only
      | with_reducible apply ih
      | with_reducible apply State.modRun_keeps
      | with_reducible apply State.mortarWrite_keeps
      | (with_reducible refine Keeps.fst (by assumption) ?_)

theorem State.mortarSettle_keeps {s t : State} (hK : Keeps s t) :
    Keeps s (State.mortarSettle t) := by
  unfold State.mortarSettle
  repeat' first
    | with_reducible assumption
    | with_reducible apply State.modRun_keeps
    | split

theorem State.mortarOut_keeps {s t : State} (hK : Keeps s t) :
    Keeps s (State.mortarOut t) := by
  unfold State.mortarOut
  repeat' first
    | with_reducible assumption
    | with_reducible apply State.mortarFlush_keeps
    | with_reducible apply State.mortarSettle_keeps
    | with_reducible apply Keeps.ite
    | with_reducible apply Keeps.dite
    | split
    | intro _
    | (with_reducible refine Keeps.fst (by assumption) ?_)

theorem State.bondPiece_keeps {s t : State} (hK : Keeps s t) (a_r : CourseRun) (a_check : Option LaneCheck) :
    Keeps s (State.bondPiece t a_r a_check) := by
  unfold State.bondPiece
  repeat' first
    | with_reducible assumption
    | with_reducible apply State.modRun_keeps
    | with_reducible apply State.dropBlocks_keeps
    | with_reducible apply State.bondChecked_keeps
    | with_reducible apply State.mortarOut_keeps
    | with_reducible apply Keeps.ite
    | with_reducible apply Keeps.dite
    | split
    | intro _

theorem State.bondWork_keeps {s t : State} (hK : Keeps s t) (a_r : CourseRun) (a_check : Option LaneCheck) :
    Keeps s (State.bondWork t a_r a_check) := by
  unfold State.bondWork
  repeat' first
    | with_reducible assumption
    | with_reducible apply State.modRun_keeps
    | with_reducible apply State.mortarReads_keeps
    | with_reducible apply State.mortarSettle_keeps
    | with_reducible apply State.mortarOut_keeps
    | with_reducible apply State.bondPiece_keeps
    | with_reducible apply Keeps.ite
    | with_reducible apply Keeps.dite
    | split
    | intro _
    | (with_reducible refine Keeps.fst (by assumption) ?_)

theorem State.bondStep_keeps {s t : State} (hK : Keeps s t) (a_bond : Nat) (a_check : Option LaneCheck) :
    Keeps s (State.bondStep t a_bond a_check) := by
  unfold State.bondStep
  repeat' first
    | with_reducible assumption
    | with_reducible apply State.mortarOut_keeps
    | with_reducible apply State.bondWork_keeps
    | with_reducible apply Keeps.ite
    | with_reducible apply Keeps.dite
    | split

theorem State.prologueStep_keeps {s t : State} (hK : Keeps s t) (a_bond : Nat) (a_gather : Bool) (a_check : Option
    LaneCheck) :
    Keeps s (State.prologueStep t a_bond a_gather a_check) := by
  unfold State.prologueStep
  repeat' first
    | with_reducible assumption
    | with_reducible apply State.gather_keeps
    | with_reducible apply State.operandTransfer_keeps
    | with_reducible apply State.bondStep_keeps
    | with_reducible apply Keeps.ite

theorem State.txSeq_keeps {s t : State} (hK : Keeps s t) (a_p : Fin 4) (a_m : NbrMsg) (a_desc : Option Nat) :
    Keeps s (State.txSeq t a_p a_m a_desc) := by
  unfold State.txSeq
  repeat' first
    | with_reducible assumption
    | with_reducible apply State.modPort_keeps
    | with_reducible apply State.tx_keeps
    | with_reducible apply Keeps.ite

theorem State.txDrain_keeps {s t : State} (hK : Keeps s t) (a_p : Fin 4) :
    Keeps s (State.txDrain t a_p) := by
  unfold State.txDrain
  repeat' first
    | with_reducible assumption
    | with_reducible apply State.modPort_keeps
    | with_reducible apply State.forEach_keeps
    | with_reducible apply State.txSeq_keeps
    | with_reducible apply Keeps.ite
    | with_reducible apply Keeps.dite
    | split
    | intro _

theorem State.sendAck_keeps {s t : State} (hK : Keeps s t) (a_p : Fin 4) :
    Keeps s (State.sendAck t a_p) := by
  unfold State.sendAck
  repeat' first
    | with_reducible assumption
    | with_reducible apply State.modPort_keeps
    | with_reducible apply State.tx_keeps

theorem State.landedOne_keeps {s t : State} (hK : Keeps s t) (a_p : Fin 4) (a_seq : BitVec 16) (a_arrival : Bool) :
    Keeps s (State.landedOne t a_p a_seq a_arrival) := by
  unfold State.landedOne
  repeat' first
    | with_reducible assumption
    | with_reducible apply State.modPort_keeps
    | with_reducible apply State.sendAck_keeps
    | with_reducible apply Keeps.ite

theorem State.takeSeq_keeps {s t : State} (hK : Keeps s t) (a_p : Fin 4) (a_win : Fin 64) (a_gen : BitVec 16)
    (a_seq : BitVec 16) :
    Keeps s (State.takeSeq t a_p a_win a_gen a_seq).1 := by
  unfold State.takeSeq
  repeat' first
    | with_reducible assumption
    | split
    | dsimp only
    | with_reducible apply State.modPort_keeps
    | with_reducible apply State.sendRefuse_keeps
    | with_reducible apply State.sendAck_keeps

theorem State.windowOpen_keeps {s t : State} (hK : Keeps s t) (a_w : Fin 64) (a_g : Vector Word 4) :
    Keeps s (State.windowOpen t a_w a_g).1 := by
  unfold State.windowOpen
  repeat' first
    | with_reducible assumption
    | split
    | with_reducible apply State.modWin_keeps
    | with_reducible apply State.txSeq_keeps

theorem State.windowClose_keeps {s t : State} (hK : Keeps s t) (a_w : Fin 64) (a_r : Reader) (a_order : Option Nat) :
    Keeps s (State.windowClose t a_w a_r a_order).1 := by
  unfold State.windowClose
  repeat' first
    | with_reducible assumption
    | split
    | dsimp only
    | with_reducible apply State.modWin_keeps
    | with_reducible apply State.lateArrivals_keeps
    | with_reducible apply Keeps.ite
    | with_reducible apply Keeps.dite
    | split
    | intro _
    | (with_reducible refine Keeps.fst (by assumption) ?_)
    | (with_reducible refine Keeps.ofMk rfl rfl rfl rfl rfl rfl rfl rfl rfl ?_)

theorem State.windowCredit_keeps {s t : State} (hK : Keeps s t) (a_w : Fin 64) (a_c : BitVec 24) :
    Keeps s (State.windowCredit t a_w a_c).1 := by
  unfold State.windowCredit
  repeat' first
    | with_reducible assumption
    | split
    | dsimp only
    | with_reducible apply State.modWin_keeps
    | with_reducible apply State.txSeq_keeps

theorem State.windowRead_keeps {s t : State} (hK : Keeps s t) (a_r : Reader) (a_w : Fin 64) :
    Keeps s (State.windowRead t a_r a_w) := by
  unfold State.windowRead
  repeat' first
    | with_reducible assumption
    | with_reducible apply State.modNbrRegs_keeps

theorem State.forgetCloses_keeps {s t : State} (hK : Keeps s t) (a_r : Reader) :
    Keeps s (State.forgetCloses t a_r) := by
  unfold State.forgetCloses
  repeat' first
    | with_reducible assumption
    | with_reducible apply Keeps.ite
    | with_reducible apply Keeps.dite
    | split
    | intro _
    | (with_reducible refine Keeps.fst (by assumption) ?_)
    | (with_reducible refine Keeps.ofMk rfl rfl rfl rfl rfl rfl rfl rfl rfl ?_)

theorem State.wcmdWrite_keeps {s t : State} (hK : Keeps s t) (a_r : Reader) (a_others : List Reader) (a_f : State →
    State) (hf : ∀ u, Keeps s u → Keeps s (a_f u)):
    Keeps s (State.wcmdWrite t a_r a_others a_f) := by
  unfold State.wcmdWrite
  repeat' first
    | with_reducible assumption
    | with_reducible apply hf
    | with_reducible apply State.forEach_keeps
    | with_reducible apply State.setWstat_keeps
    | with_reducible apply State.forEach_keeps
    | with_reducible apply State.forgetCloses_keeps
    | with_reducible apply Keeps.ite
    | with_reducible apply Keeps.dite
    | split
    | intro _

theorem State.openCmd_keeps {s t : State} (hK : Keeps s t) (a_r : Reader) (a_w : Fin 64) :
    Keeps s (State.openCmd t a_r a_w) := by
  unfold State.openCmd
  repeat' first
    | with_reducible assumption
    | with_reducible apply State.setWstat_keeps
    | with_reducible apply State.windowOpen_keeps

theorem State.closeCmd_keeps {s t : State} (hK : Keeps s t) (a_r : Reader) (a_w : Fin 64) :
    Keeps s (State.closeCmd t a_r a_w) := by
  unfold State.closeCmd
  repeat' first
    | with_reducible assumption
    | with_reducible apply State.setWstat_keeps
    | with_reducible apply State.windowClose_keeps

theorem State.creditCmd_keeps {s t : State} (hK : Keeps s t) (a_r : Reader) (a_w : Fin 64) :
    Keeps s (State.creditCmd t a_r a_w) := by
  unfold State.creditCmd
  repeat' first
    | with_reducible assumption
    | with_reducible apply State.setWstat_keeps
    | with_reducible apply State.windowCredit_keeps

theorem State.replyWindow_keeps {s t : State} (hK : Keeps s t) (a_order : Option Nat) (a_c : BitVec 4) :
    Keeps s (State.replyWindow t a_order a_c) := by
  unfold State.replyWindow
  repeat' first
    | with_reducible assumption
    | with_reducible apply State.endOrder_keeps
    | with_reducible apply Keeps.ite
    | with_reducible apply Keeps.dite
    | split

theorem State.closeEffect_keeps {s t : State} (hK : Keeps s t) (a_w : Fin 64) :
    Keeps s (State.closeEffect t a_w) := by
  unfold State.closeEffect
  repeat' first
    | with_reducible assumption
    | with_reducible apply State.modWin_keeps
    | with_reducible apply State.setWstat_keeps
    | with_reducible apply State.forEach_keeps
    | with_reducible apply State.txSeq_keeps
    | with_reducible apply State.replyWindow_keeps
    | with_reducible apply Keeps.ite
    | with_reducible apply Keeps.dite
    | split
    | intro _
    | (with_reducible refine Keeps.fst (by assumption) ?_)
    | (with_reducible refine Keeps.ofMk rfl rfl rfl rfl rfl rfl rfl rfl rfl ?_)

theorem State.setSstat_keeps {s t : State} (hK : Keeps s t) (a_r : Reader) (a_c : BitVec 2) :
    Keeps s (State.setSstat t a_r a_c) := by
  unfold State.setSstat
  repeat' first
    | with_reducible assumption
    | with_reducible apply State.modNbrRegs_keeps

theorem State.sendOutcome_keeps {s t : State} (hK : Keeps s t) (a_a : SendRead) (a_c : BitVec 2) :
    Keeps s (State.sendOutcome t a_a a_c) := by
  unfold State.sendOutcome
  repeat' first
    | with_reducible assumption
    | with_reducible apply State.setSstat_keeps
    | with_reducible apply Keeps.ite

theorem State.queueSend_keeps {s t : State} (hK : Keeps s t) (a_a : SendRead) (a_p : Fin 4) (a_d : SendDesc) :
    Keeps s (State.queueSend t a_a a_p a_d) := by
  unfold State.queueSend
  repeat' first
    | with_reducible assumption
    | with_reducible apply State.modPort_keeps
    | with_reducible apply State.sendOutcome_keeps
    | with_reducible apply Keeps.ite

theorem State.takeRead_keeps {s t : State} (hK : Keeps s t) (a_a : SendRead) :
    Keeps s (State.takeRead t a_a).1 := by
  unfold State.takeRead
  repeat' first
    | with_reducible assumption
    | split
    | dsimp only
    | with_reducible apply State.allocate_keeps
    | with_reducible apply State.firnAsk_keeps
    | with_reducible apply State.readWords_keeps
    | with_reducible apply State.morRead_keeps
    | with_reducible apply State.endAccess_keeps
    | with_reducible apply State.sendOutcome_keeps
    | with_reducible apply State.queueSend_keeps
    | with_reducible apply Keeps.ite
    | with_reducible apply Keeps.dite
    | split
    | intro _
    | (with_reducible refine Keeps.fst (by assumption) ?_)
    | (with_reducible refine Keeps.ofMk rfl rfl rfl rfl rfl rfl rfl rfl rfl ?_)

theorem State.takeReads_keeps {s t : State} (hK : Keeps s t) (a_y0 : List SendRead) :
    Keeps s (State.takeReads t a_y0) := by
  induction a_y0 generalizing t  with
  | nil =>
    unfold State.takeReads
    repeat' first
      | with_reducible assumption
  | cons y0 y1 ih =>
    unfold State.takeReads
    repeat' first
      | with_reducible assumption
      | with_reducible apply ih
      | with_reducible apply State.takeRead_keeps
      | with_reducible apply Keeps.ite

theorem State.quietSends_keeps {s t : State} (hK : Keeps s t) (a_r : Reader) :
    Keeps s (State.quietSends t a_r) := by
  unfold State.quietSends
  repeat' first
    | with_reducible assumption
    | with_reducible apply Keeps.ite
    | with_reducible apply Keeps.dite
    | split
    | intro _
    | (with_reducible refine Keeps.fst (by assumption) ?_)
    | (with_reducible refine Keeps.ofMk rfl rfl rfl rfl rfl rfl rfl rfl rfl ?_)

theorem State.nbrSend_keeps {s t : State} (hK : Keeps s t) (a_r : Reader) (a_addr : Word) :
    Keeps s (State.nbrSend t a_r a_addr) := by
  unfold State.nbrSend
  repeat' first
    | with_reducible assumption
    | with_reducible apply State.present_keeps
    | with_reducible apply State.setSstat_keeps
    | with_reducible apply State.takeReads_keeps
    | with_reducible apply State.quietSends_keeps
    | with_reducible apply Keeps.ite
    | with_reducible apply Keeps.dite
    | split
    | intro _
    | (with_reducible refine Keeps.fst (by assumption) ?_)
    | (with_reducible refine Keeps.ofMk rfl rfl rfl rfl rfl rfl rfl rfl rfl ?_)

theorem State.nbrStop_keeps {s t : State} (hK : Keeps s t) (a_r : Reader) (a_p : Fin 4) :
    Keeps s (State.nbrStop t a_r a_p) := by
  unfold State.nbrStop
  repeat' first
    | with_reducible assumption
    | with_reducible apply State.modPort_keeps
    | with_reducible apply State.setSstat_keeps
    | with_reducible apply State.quietSends_keeps
    | with_reducible apply Keeps.ite
    | with_reducible apply Keeps.dite
    | split
    | intro _
    | (with_reducible refine Keeps.fst (by assumption) ?_)
    | (with_reducible refine Keeps.ofMk rfl rfl rfl rfl rfl rfl rfl rfl rfl ?_)

theorem State.modSend_keeps {s t : State} (hK : Keeps s t) (a_p : Fin 4) (a_id : Nat) (a_f : SendDesc → SendDesc) :
    Keeps s (State.modSend t a_p a_id a_f) := by
  unfold State.modSend
  repeat' first
    | with_reducible assumption
    | with_reducible apply State.modPort_keeps

theorem State.settleSends_keeps {s t : State} (hK : Keeps s t) (a_p : Fin 4) :
    Keeps s (State.settleSends t a_p) := by
  unfold State.settleSends
  repeat' first
    | with_reducible assumption
    | with_reducible apply State.modPort_keeps

theorem State.sendLine_keeps {s t : State} (hK : Keeps s t) (a_p : Fin 4) (a_d : SendDesc) :
    Keeps s (State.sendLine t a_p a_d) := by
  unfold State.sendLine
  repeat' first
    | with_reducible assumption
    | with_reducible apply State.modPort_keeps
    | with_reducible apply State.countEvent_keeps
    | with_reducible apply State.readWords_keeps
    | with_reducible apply State.txSeq_keeps
    | with_reducible apply State.modSend_keeps

theorem State.sendLines_keeps {s t : State} (hK : Keeps s t) (a_p : Fin 4) (a_y0 : Nat) :
    Keeps s (State.sendLines t a_p a_y0) := by
  induction a_y0 generalizing t  with
  | zero =>
    unfold State.sendLines
    repeat' first
      | with_reducible assumption
  | succ y0 ih =>
    unfold State.sendLines
    repeat' first
      | with_reducible assumption
      | with_reducible apply ih
      | with_reducible apply State.modSend_keeps
      | with_reducible apply State.sendLine_keeps
      | with_reducible apply Keeps.ite
      | with_reducible apply Keeps.dite
      | split

theorem State.pump_keeps {s t : State} (hK : Keeps s t) (a_p : Fin 4) :
    Keeps s (State.pump t a_p) := by
  unfold State.pump
  repeat' first
    | with_reducible assumption
    | with_reducible apply State.txDrain_keeps
    | with_reducible apply State.settleSends_keeps
    | with_reducible apply State.sendLines_keeps

theorem State.sendStart_keeps {s t : State} (hK : Keeps s t) (a_p : Fin 4) :
    Keeps s (State.sendStart t a_p) := by
  unfold State.sendStart
  repeat' first
    | with_reducible assumption
    | with_reducible apply State.present_keeps
    | with_reducible apply State.allocate_keeps
    | with_reducible apply State.firnAsk_keeps
    | with_reducible apply State.morRead_keeps
    | with_reducible apply State.takeReads_keeps
    | with_reducible apply State.modSend_keeps
    | with_reducible apply State.pump_keeps
    | with_reducible apply Keeps.ite
    | with_reducible apply Keeps.dite
    | split
    | intro _
    | (with_reducible refine Keeps.fst (by assumption) ?_)
    | (with_reducible refine Keeps.ofMk rfl rfl rfl rfl rfl rfl rfl rfl rfl ?_)

theorem State.writeSend_keeps {s t : State} (hK : Keeps s t) (a_p : Fin 4) (a_d : SendDesc) :
    Keeps s (State.writeSend t a_p a_d).1 := by
  unfold State.writeSend
  repeat' first
    | with_reducible assumption
    | split
    | dsimp only
    | with_reducible apply State.present_keeps
    | with_reducible apply State.allocate_keeps
    | with_reducible apply State.firnAsk_keeps
    | with_reducible apply State.endAccess_keeps
    | with_reducible apply State.writeWords_keeps
    | with_reducible apply State.modSend_keeps
    | with_reducible apply Keeps.ite
    | with_reducible apply Keeps.dite
    | split
    | intro _
    | (with_reducible refine Keeps.fst (by assumption) ?_)

theorem State.sendComplete_keeps {s t : State} (hK : Keeps s t) (a_p : Fin 4) :
    Keeps s (State.sendComplete t a_p) := by
  unfold State.sendComplete
  repeat' first
    | with_reducible assumption
    | with_reducible apply State.modPort_keeps
    | with_reducible apply State.raiseFor_keeps
    | with_reducible apply State.endAccess_keeps
    | with_reducible apply State.modSend_keeps
    | with_reducible apply State.writeSend_keeps
    | with_reducible apply Keeps.ite
    | split
    | (with_reducible refine Keeps.fst (by assumption) ?_)

theorem State.data_keeps {s t : State} (hK : Keeps s t) (a_p : Fin 4) (a_win : Fin 64) (a_gen : BitVec 16) (a_line
    : BitVec 20) (a_seq : BitVec 16) (a_wmask : BitVec 16) (a_smark : BitVec 16) (a_payload : Vector Word 16) :
    Keeps s (State.data t a_p a_win a_gen a_line a_seq a_wmask a_smark a_payload) := by
  unfold State.data
  repeat' first
    | with_reducible assumption
    | with_reducible apply State.modPort_keeps
    | with_reducible apply State.present_keeps
    | with_reducible apply State.sendRefuse_keeps
    | with_reducible apply State.takeSeq_keeps
    | split
    | (with_reducible refine Keeps.fst (by assumption) ?_)
    | (with_reducible refine Keeps.ofMk rfl rfl rfl rfl rfl rfl rfl rfl rfl ?_)

theorem State.writeArrival_keeps {s t : State} (hK : Keeps s t) (a_p : Fin 4) (a_a : Arrival) :
    Keeps s (State.writeArrival t a_p a_a) := by
  unfold State.writeArrival
  repeat' first
    | with_reducible assumption
    | with_reducible apply State.modPort_keeps
    | with_reducible apply State.writeWords_keeps

theorem State.dropArrival_keeps {s t : State} (hK : Keeps s t) (a_p : Fin 4) (a_a : Arrival) :
    Keeps s (State.dropArrival t a_p a_a) := by
  unfold State.dropArrival
  repeat' first
    | with_reducible assumption
    | with_reducible apply State.modPort_keeps
    | with_reducible apply State.endAccess_keeps

theorem State.refuseArrival_keeps {s t : State} (hK : Keeps s t) (a_p : Fin 4) (a_a : Arrival) (a_why : Reason) :
    Keeps s (State.refuseArrival t a_p a_a a_why) := by
  unfold State.refuseArrival
  repeat' first
    | with_reducible assumption
    | with_reducible apply State.sendRefuse_keeps
    | with_reducible apply State.settleAck_keeps
    | with_reducible apply State.dropArrival_keeps
    | with_reducible apply Keeps.ite

theorem State.arrivalLanded_keeps {s t : State} (hK : Keeps s t) (a_p : Fin 4) :
    Keeps s (State.arrivalLanded t a_p) := by
  unfold State.arrivalLanded
  repeat' first
    | with_reducible assumption
    | with_reducible apply State.modWin_keeps
    | with_reducible apply State.countEvent_keeps
    | with_reducible apply State.toggleObs_keeps
    | with_reducible apply State.allocate_keeps
    | with_reducible apply State.firnAsk_keeps
    | with_reducible apply State.settleAck_keeps
    | with_reducible apply State.landedOne_keeps
    | with_reducible apply State.writeArrival_keeps
    | with_reducible apply State.dropArrival_keeps
    | with_reducible apply State.refuseArrival_keeps
    | with_reducible apply Keeps.ite
    | with_reducible apply Keeps.dite
    | split

theorem State.answered_keeps {s t : State} (hK : Keeps s t) (a_p : Fin 4) (a_u : Unanswered) (a_f : SendDesc →
    SendDesc) :
    Keeps s (State.answered t a_p a_u a_f) := by
  unfold State.answered
  repeat' first
    | with_reducible assumption
    | with_reducible apply State.modSend_keeps
    | split

theorem State.ackIn_keeps {s t : State} (hK : Keeps s t) (a_p : Fin 4) (a_seq : BitVec 16) :
    Keeps s (State.ackIn t a_p a_seq) := by
  unfold State.ackIn
  repeat' first
    | with_reducible assumption
    | with_reducible apply State.modPort_keeps
    | with_reducible apply State.forEach_keeps
    | with_reducible apply State.pump_keeps
    | with_reducible apply State.answered_keeps
    | with_reducible apply Keeps.ite
    | intro _

theorem State.refuseIn_keeps {s t : State} (hK : Keeps s t) (a_p : Fin 4) (a_seq : BitVec 16) (a_why : Reason) :
    Keeps s (State.refuseIn t a_p a_seq a_why) := by
  unfold State.refuseIn
  repeat' first
    | with_reducible assumption
    | with_reducible apply State.modPort_keeps
    | with_reducible apply State.pump_keeps
    | with_reducible apply State.answered_keeps
    | split

theorem State.resend_keeps {s t : State} (hK : Keeps s t) (a_p : Fin 4) :
    Keeps s (State.resend t a_p) := by
  unfold State.resend
  repeat' first
    | with_reducible assumption
    | with_reducible apply State.modPort_keeps
    | with_reducible apply State.countEvent_keeps

theorem State.grantIn_keeps {s t : State} (hK : Keeps s t) (a_p : Fin 4) (a_win : Fin 64) (a_gen : BitVec 16)
    (a_lines : BitVec 20) (a_seq : BitVec 16) (a_credit : BitVec 24) :
    Keeps s (State.grantIn t a_p a_win a_gen a_lines a_seq a_credit) := by
  unfold State.grantIn
  repeat' first
    | with_reducible assumption
    | with_reducible apply State.modPort_keeps
    | with_reducible apply State.landedOne_keeps
    | with_reducible apply State.takeSeq_keeps
    | with_reducible apply State.pump_keeps
    | split
    | (with_reducible refine Keeps.fst (by assumption) ?_)

theorem State.revokeIn_keeps {s t : State} (hK : Keeps s t) (a_p : Fin 4) (a_win : Fin 64) (a_gen : BitVec 16)
    (a_seq : BitVec 16) :
    Keeps s (State.revokeIn t a_p a_win a_gen a_seq) := by
  unfold State.revokeIn
  repeat' first
    | with_reducible assumption
    | with_reducible apply State.modPort_keeps
    | with_reducible apply State.landedOne_keeps
    | with_reducible apply State.takeSeq_keeps
    | with_reducible apply State.pump_keeps
    | split
    | (with_reducible refine Keeps.fst (by assumption) ?_)

theorem State.sendHello_keeps {s t : State} (hK : Keeps s t) (a_p : Fin 4) :
    Keeps s (State.sendHello t a_p) := by
  unfold State.sendHello
  repeat' first
    | with_reducible assumption
    | with_reducible apply State.tx_keeps

theorem State.portDown_keeps {s t : State} (hK : Keeps s t) (a_p : Fin 4) (a_cause : BitVec 4) :
    Keeps s (State.portDown t a_p a_cause) := by
  unfold State.portDown
  refine State.report_keeps (State.forEach_keeps (State.modPort_keeps hK _ _) _ _ fun u w hu => ?_) _ _
  exact Keeps.ite (State.lateArrivals_keeps (State.modWin_keeps hu _ _) _) hu

theorem State.echoFail_keeps {s t : State} (hK : Keeps s t) (a_p : Fin 4) :
    Keeps s (State.echoFail t a_p) := by
  unfold State.echoFail
  repeat' first
    | with_reducible assumption
    | with_reducible apply State.modPort_keeps
    | with_reducible apply State.report_keeps
    | with_reducible apply Keeps.ite

theorem State.helloIn_keeps {s t : State} (hK : Keeps s t) (a_p : Fin 4) (a_lo : Nat) (a_hi : Nat) :
    Keeps s (State.helloIn t a_p a_lo a_hi) := by
  unfold State.helloIn
  repeat' first
    | with_reducible assumption
    | with_reducible apply State.modPort_keeps
    | with_reducible apply State.forEach_keeps
    | with_reducible apply State.txSeq_keeps
    | with_reducible apply Keeps.ite
    | intro _

theorem State.negotiate_keeps {s t : State} (hK : Keeps s t) (a_p : Fin 4) (a_rtt : BitVec 20) :
    Keeps s (State.negotiate t a_p a_rtt) := by
  unfold State.negotiate
  repeat' first
    | with_reducible assumption
    | with_reducible apply State.modPort_keeps
    | with_reducible apply State.report_keeps
    | split
    | (with_reducible refine Keeps.ofMk rfl rfl rfl rfl rfl rfl rfl rfl rfl ?_)

theorem State.echoIn_keeps {s t : State} (hK : Keeps s t) (a_p : Fin 4) (a_seq : BitVec 16) (a_payload : Vector
    Word 16) (a_rtt : BitVec 20) :
    Keeps s (State.echoIn t a_p a_seq a_payload a_rtt) := by
  unfold State.echoIn
  repeat' first
    | with_reducible assumption
    | with_reducible apply State.modPort_keeps
    | with_reducible apply State.txSeq_keeps
    | with_reducible apply State.landedOne_keeps
    | with_reducible apply State.takeSeq_keeps
    | with_reducible apply State.echoFail_keeps
    | with_reducible apply State.negotiate_keeps
    | with_reducible apply Keeps.ite
    | split
    | (with_reducible refine Keeps.fst (by assumption) ?_)

theorem State.resendTimeout_keeps {s t : State} (hK : Keeps s t) (a_p : Fin 4) :
    Keeps s (State.resendTimeout t a_p) := by
  unfold State.resendTimeout
  repeat' first
    | with_reducible assumption
    | with_reducible apply State.resend_keeps
    | with_reducible apply State.portDown_keeps
    | with_reducible apply State.echoFail_keeps
    | with_reducible apply Keeps.ite
    | with_reducible apply Keeps.dite
    | split

theorem State.portCmdDown_keeps {s t : State} (hK : Keeps s t) (a_p : Fin 4) :
    Keeps s (State.portCmdDown t a_p) := by
  unfold State.portCmdDown
  repeat' first
    | with_reducible assumption
    | with_reducible apply State.portDown_keeps
    | with_reducible apply Keeps.ite

theorem State.versWrite_keeps {s t : State} (hK : Keeps s t) (a_v : BitVec 8) : Keeps s (State.versWrite t a_v) := by
  unfold State.versWrite
  refine State.forEach_keeps (Keeps.ofMk rfl rfl rfl rfl rfl rfl rfl rfl rfl hK) _ _ fun u x hu => ?_
  exact Keeps.ite (State.modPort_keeps hu _ _) hu

theorem State.portCmdRetry_keeps {s t : State} (hK : Keeps s t) (a_p : Fin 4) :
    Keeps s (State.portCmdRetry t a_p) := by
  unfold State.portCmdRetry
  repeat' first
    | with_reducible assumption
    | with_reducible apply State.modPort_keeps
    | with_reducible apply Keeps.ite

theorem State.sendBlock_keeps {s t : State} (hK : Keeps s t) (a_r : CourseRun) :
    Keeps s (State.sendBlock t a_r) := by
  unfold State.sendBlock
  repeat' first
    | with_reducible assumption
    | with_reducible apply State.modPort_keeps
    | with_reducible apply State.modRun_keeps
    | with_reducible apply Keeps.ite
    | (with_reducible refine Keeps.ofMk rfl rfl rfl rfl rfl rfl rfl rfl rfl ?_)

theorem State.placeOwn_keeps {s t : State} (hK : Keeps s t) (a_r : CourseRun) :
    Keeps s (State.placeOwn t a_r) := by
  unfold State.placeOwn
  repeat' first
    | with_reducible assumption
    | with_reducible apply State.modRun_keeps
    | with_reducible apply State.dropBlocks_keeps
    | with_reducible apply State.mortarRead_keeps
    | with_reducible apply State.mortarWrite_keeps
    | with_reducible apply Keeps.ite
    | with_reducible apply Keeps.dite
    | split
    | intro _
    | (with_reducible refine Keeps.fst (by assumption) ?_)
    | (with_reducible refine Keeps.ofMk rfl rfl rfl rfl rfl rfl rfl rfl rfl ?_)

theorem State.ringPiece_keeps {s t : State} (hK : Keeps s t) (a_r : CourseRun) (a_check : Option LaneCheck) :
    Keeps s (State.ringPiece t a_r a_check) := by
  unfold State.ringPiece
  repeat' first
    | with_reducible assumption
    | with_reducible apply State.modRun_keeps
    | with_reducible apply State.dropBlocks_keeps
    | with_reducible apply State.bondChecked_keeps
    | with_reducible apply State.mortarOut_keeps
    | with_reducible apply Keeps.ite
    | with_reducible apply Keeps.dite
    | split
    | intro _

theorem State.lintelStep_keeps {s t : State} (hK : Keeps s t) (a_check : Option LaneCheck) :
    Keeps s (State.lintelStep t a_check) := by
  unfold State.lintelStep
  repeat' first
    | with_reducible assumption
    | with_reducible apply State.modRun_keeps
    | with_reducible apply State.mortarReads_keeps
    | with_reducible apply State.mortarOut_keeps
    | with_reducible apply State.sendBlock_keeps
    | with_reducible apply State.placeOwn_keeps
    | with_reducible apply State.ringPiece_keeps
    | with_reducible apply Keeps.ite
    | with_reducible apply Keeps.dite
    | split
    | intro _
    | (with_reducible refine Keeps.fst (by assumption) ?_)

theorem State.peerTimeout_keeps {s t : State} (hK : Keeps s t) :
    Keeps s (State.peerTimeout t) := by
  unfold State.peerTimeout
  repeat' first
    | with_reducible assumption
    | with_reducible apply State.timeTo_keeps
    | with_reducible apply State.modRun_keeps
    | with_reducible apply Keeps.ite
    | with_reducible apply Keeps.dite
    | split

end Sys2Proof.Machine
end

