-- ==== Sys2Proof/Laws/KeepsControl.lean ====
section
/-! SUPPORT. What the operations of the registers, the hods, the faults, start-up and the harts keep (see
Laws/Keeps.lean). -/

namespace Sys2Proof.Machine

theorem State.timerZero_keeps {s t : State} (hK : Keeps s t) (a_n : Fin 4) :
    Keeps s (State.timerZero t a_n) := by
  unfold State.timerZero
  repeat' first
    | with_reducible assumption
    | with_reducible apply State.modTimer_keeps
    | with_reducible apply State.raiseEvent_keeps
    | with_reducible apply Keeps.ite

theorem State.timerWrite_keeps {s t : State} (hK : Keeps s t) (a_r : Reader) (a_n : Fin 4) (a_k : Nat) (a_v : Word) :
    Keeps s (State.timerWrite t a_r a_n a_k a_v) := by
  unfold State.timerWrite
  repeat' first
    | with_reducible assumption
    | with_reducible apply State.modTimer_keeps
    | with_reducible apply State.conflict_keeps
    | with_reducible apply State.timerZero_keeps
    | with_reducible apply Keeps.ite

theorem State.timerExpiry_keeps {s t : State} (hK : Keeps s t) (a_n : Fin 4) :
    Keeps s (State.timerExpiry t a_n) := by
  unfold State.timerExpiry
  repeat' first
    | with_reducible assumption
    | with_reducible apply State.timeTo_keeps
    | with_reducible apply State.timerZero_keeps
    | with_reducible apply Keeps.ite

theorem State.halt_keeps {s t : State} (hK : Keeps s t) (a_m : BitVec 16) :
    Keeps s (State.halt t a_m) := by
  unfold State.halt
  repeat' first
    | with_reducible assumption
    | with_reducible apply State.modHart_keeps
    | with_reducible apply State.forEach_keeps
    | with_reducible apply Keeps.ite
    | intro _

theorem State.resume_keeps {s t : State} (hK : Keeps s t) (a_m : BitVec 16) :
    Keeps s (State.resume t a_m) := by
  unfold State.resume
  repeat' first
    | with_reducible assumption
    | with_reducible apply State.modHart_keeps
    | with_reducible apply State.forEach_keeps
    | with_reducible apply Keeps.ite
    | intro _

theorem State.evset_keeps {s t : State} (hK : Keeps s t) (a_m : BitVec 16) :
    Keeps s (State.evset t a_m) := by
  unfold State.evset
  repeat' first
    | with_reducible assumption
    | with_reducible apply State.forEach_keeps
    | with_reducible apply State.raiseEvent_keeps
    | intro _

theorem State.hctl_keeps {s t : State} (hK : Keeps s t) (a_r : Reader) (a_v : Word) (a_met : Word) :
    Keeps s (State.hctl t a_r a_v a_met) := by
  unfold State.hctl
  repeat' first
    | with_reducible assumption
    | with_reducible apply State.halt_keeps
    | with_reducible apply State.resume_keeps

theorem State.fwready_keeps {s t : State} (hK : Keeps s t) (a_on : Bool) :
    Keeps s (State.fwready t a_on) := by
  unfold State.fwready
  repeat' first
    | with_reducible assumption
    | (with_reducible refine Keeps.ofMk rfl rfl rfl rfl rfl rfl rfl rfl rfl ?_)

theorem State.paceClear_keeps {s t : State} (hK : Keeps s t) :
    Keeps s (State.paceClear t) := by
  unfold State.paceClear
  repeat' first
    | with_reducible assumption
    | (with_reducible refine Keeps.ofMk rfl rfl rfl rfl rfl rfl rfl rfl rfl ?_)

theorem State.calTap_keeps {s t : State} (hK : Keeps s t) (a_r : Reader) (a_on : Bool) :
    Keeps s (State.calTap t a_r a_on) := by
  unfold State.calTap
  repeat' first
    | with_reducible assumption
    | with_reducible apply State.conflict_keeps
    | with_reducible apply Keeps.ite
    | (with_reducible refine Keeps.ofMk rfl rfl rfl rfl rfl rfl rfl rfl rfl ?_)

theorem State.obsSet_keeps {s t : State} (hK : Keeps s t) (a_n : Fin 16) (a_code : BitVec 8) :
    Keeps s (State.obsSet t a_n a_code).1 := by
  unfold State.obsSet
  repeat' first
    | with_reducible assumption
    | split
    | (with_reducible refine Keeps.ofMk rfl rfl rfl rfl rfl rfl rfl rfl rfl ?_)

theorem State.obsSelect_keeps {s t : State} (hK : Keeps s t) (a_r : Reader) (a_n : Fin 16) (a_code : BitVec 8) :
    Keeps s (State.obsSelect t a_r a_n a_code) := by
  unfold State.obsSelect
  repeat' first
    | with_reducible assumption
    | with_reducible apply State.conflict_keeps
    | with_reducible apply State.obsSet_keeps
    | split
    | (with_reducible refine Keeps.fst (by assumption) ?_)

theorem State.hodOverflow_keeps {s t : State} (hK : Keeps s t) (a_h : Fin 3) :
    Keeps s (State.hodOverflow t a_h) := by
  unfold State.hodOverflow
  repeat' first
    | with_reducible assumption
    | with_reducible apply State.modHod_keeps
    | with_reducible apply Keeps.ite
    | intro _

theorem State.iprod_keeps {s t : State} (hK : Keeps s t) (a_h : Fin 3) (a_v : Word) :
    Keeps s (State.iprod t a_h a_v) := by
  unfold State.iprod
  repeat' first
    | with_reducible assumption
    | with_reducible apply State.modHod_keeps
    | with_reducible apply State.hodOverflow_keeps
    | with_reducible apply Keeps.ite
    | intro _

theorem State.oprod_keeps {s t : State} (hK : Keeps s t) (a_h : Fin 3) (a_v : Word) :
    Keeps s (State.oprod t a_h a_v) := by
  unfold State.oprod
  repeat' first
    | with_reducible assumption
    | with_reducible apply State.modHod_keeps
    | with_reducible apply State.hodOverflow_keeps
    | with_reducible apply Keeps.ite
    | intro _

theorem State.iconsWrite_keeps {s t : State} (hK : Keeps s t) (a_h : Fin 3) (a_v : Word) :
    Keeps s (State.iconsWrite t a_h a_v) := by
  unfold State.iconsWrite
  repeat' first
    | with_reducible assumption
    | with_reducible apply State.modHod_keeps
    | with_reducible apply State.hodOverflow_keeps
    | with_reducible apply Keeps.ite
    | intro _

theorem State.oconsWrite_keeps {s t : State} (hK : Keeps s t) (a_h : Fin 3) (a_v : Word) :
    Keeps s (State.oconsWrite t a_h a_v) := by
  unfold State.oconsWrite
  repeat' first
    | with_reducible assumption
    | with_reducible apply State.modHod_keeps
    | with_reducible apply State.flushHod_keeps
    | with_reducible apply State.hodOverflow_keeps
    | with_reducible apply State.oprod_keeps
    | with_reducible apply Keeps.ite
    | intro _

theorem State.readEffect_keeps {s t : State} (hK : Keeps s t) (a_r : Reader) (a_off : BitVec 16) :
    Keeps s (State.readEffect t a_r a_off) := by
  unfold State.readEffect
  repeat' first
    | with_reducible assumption
    | with_reducible apply Keeps.ite
    | (with_reducible refine Keeps.ofMk rfl rfl rfl rfl rfl rfl rfl rfl rfl ?_)

theorem State.writeKs_keeps {s t : State} (hK : Keeps s t) (a_r : Reader) (a_o : Nat) (a_v : Word) (a_met : Word) :
    Keeps s (State.writeKs t a_r a_o a_v a_met) := by
  unfold State.writeKs
  repeat' first
    | with_reducible assumption
    | with_reducible apply State.timerWrite_keeps
    | with_reducible apply State.evset_keeps
    | with_reducible apply State.hctl_keeps
    | with_reducible apply State.fwready_keeps
    | with_reducible apply Keeps.ite
    | with_reducible apply Keeps.dite
    | split
    | intro _
    | (with_reducible refine Keeps.fst (by assumption) ?_)
    | (with_reducible refine Keeps.ofMk rfl rfl rfl rfl rfl rfl rfl rfl rfl ?_)

theorem State.bondWrite_keeps {s t : State} (hK : Keeps s t) (a_r : Reader) (a_v : Word) :
    Keeps s (State.bondWrite t a_r a_v) := by
  unfold State.bondWrite
  repeat' first
    | with_reducible assumption
    | with_reducible apply State.courseStart_keeps
    | with_reducible apply State.courseStop_keeps
    | with_reducible apply State.courseDrop_keeps
    | with_reducible apply Keeps.ite

theorem State.floeCmd_keeps {s t : State} (hK : Keeps s t) (a_r : Reader) (a_v : Word) (a_lost : List Hart) :
    Keeps s (State.floeCmd t a_r a_v a_lost) := by
  unfold State.floeCmd
  repeat' first
    | with_reducible assumption
    | with_reducible apply State.fcmdWrite_keeps
    | with_reducible apply State.floeCommit_keeps
    | with_reducible apply State.floeRead_keeps
    | with_reducible apply Keeps.ite
    | with_reducible apply Keeps.dite
    | split
    | intro _

theorem State.writeIce_keeps {s t : State} (hK : Keeps s t) (a_r : Reader) (a_o : Nat) (a_v : Word) (a_lost : List
    Hart) :
    Keeps s (State.writeIce t a_r a_o a_v a_lost) := by
  unfold State.writeIce
  repeat' first
    | with_reducible assumption
    | with_reducible apply State.floeCmd_keeps
    | with_reducible apply Keeps.ite
    | with_reducible apply Keeps.dite
    | split
    | intro _
    | (with_reducible refine Keeps.fst (by assumption) ?_)
    | (with_reducible refine Keeps.ofMk rfl rfl rfl rfl rfl rfl rfl rfl rfl ?_)

theorem State.drfCtl_keeps {s t : State} (hK : Keeps s t) (a_r : Reader) (a_c : Fin 32) (a_v : Word) :
    Keeps s (State.drfCtl t a_r a_c a_v) := by
  unfold State.drfCtl
  repeat' first
    | with_reducible assumption
    | with_reducible apply State.modCh_keeps
    | with_reducible apply State.setRstat_keeps
    | with_reducible apply State.drfStop_keeps
    | with_reducible apply Keeps.ite

theorem State.writeDrf_keeps {s t : State} (hK : Keeps s t) (a_r : Reader) (a_o : Nat) (a_v : Word) (a_met : Word) :
    Keeps s (State.writeDrf t a_r a_o a_v a_met) := by
  unfold State.writeDrf
  repeat' first
    | with_reducible assumption
    | with_reducible apply State.modDrfRegs_keeps
    | with_reducible apply State.drfGo_keeps
    | with_reducible apply State.drfResume_keeps
    | with_reducible apply State.drfOwn_keeps
    | with_reducible apply State.fbConfig_keeps
    | with_reducible apply State.fbAdvance_keeps
    | with_reducible apply State.pruneCycles_keeps
    | with_reducible apply State.drfCtl_keeps
    | with_reducible apply State.rearm_keeps
    | with_reducible apply Keeps.ite
    | with_reducible apply Keeps.dite
    | split
    | intro _
    | (with_reducible refine Keeps.fst (by assumption) ?_)
    | (with_reducible refine Keeps.ofMk rfl rfl rfl rfl rfl rfl rfl rfl rfl ?_)

theorem State.windowCmd_keeps {s t : State} (hK : Keeps s t) (a_r : Reader) (a_v : Word) (a_lost : List Hart) :
    Keeps s (State.windowCmd t a_r a_v a_lost) := by
  unfold State.windowCmd
  repeat' first
    | with_reducible assumption
    | with_reducible apply State.windowRead_keeps
    | with_reducible apply State.wcmdWrite_keeps
    | with_reducible apply State.openCmd_keeps
    | with_reducible apply State.closeCmd_keeps
    | with_reducible apply State.creditCmd_keeps
    | with_reducible apply Keeps.ite
    | with_reducible apply Keeps.dite
    | split
    | intro _

theorem State.sendWrite_keeps {s t : State} (hK : Keeps s t) (a_r : Reader) (a_v : Word) :
    Keeps s (State.sendWrite t a_r a_v) := by
  unfold State.sendWrite
  repeat' first
    | with_reducible assumption
    | with_reducible apply State.nbrSend_keeps
    | with_reducible apply State.nbrStop_keeps
    | with_reducible apply Keeps.ite

theorem State.writeNbr_keeps {s t : State} (hK : Keeps s t) (a_r : Reader) (a_o : Nat) (a_v : Word) (a_met : Word)
    (a_lost : List Hart) :
    Keeps s (State.writeNbr t a_r a_o a_v a_met a_lost) := by
  unfold State.writeNbr
  repeat' first
    | with_reducible assumption
    | with_reducible apply State.modNbrRegs_keeps
    | with_reducible apply State.portCmdDown_keeps
    | with_reducible apply State.versWrite_keeps
    | with_reducible apply State.portCmdRetry_keeps
    | with_reducible apply State.windowCmd_keeps
    | with_reducible apply State.sendWrite_keeps
    | with_reducible apply Keeps.ite
    | with_reducible apply Keeps.dite
    | split
    | intro _
    | (with_reducible refine Keeps.fst (by assumption) ?_)
    | (with_reducible refine Keeps.ofMk rfl rfl rfl rfl rfl rfl rfl rfl rfl ?_)

theorem State.calRsel_keeps {s t : State} (hK : Keeps s t) (a_r : Reader) (a_v : BitVec 6) :
    Keeps s (State.calRsel t a_r a_v) := by
  unfold State.calRsel
  repeat' first
    | with_reducible assumption
    | with_reducible apply Keeps.ite
    | with_reducible apply Keeps.dite
    | split
    | intro _
    | (with_reducible refine Keeps.fst (by assumption) ?_)
    | (with_reducible refine Keeps.ofMk rfl rfl rfl rfl rfl rfl rfl rfl rfl ?_)

theorem State.writeCal_keeps {s t : State} (hK : Keeps s t) (a_r : Reader) (a_o : Nat) (a_v : Word) (a_met : Word) :
    Keeps s (State.writeCal t a_r a_o a_v a_met) := by
  unfold State.writeCal
  repeat' first
    | with_reducible assumption
    | with_reducible apply State.calTap_keeps
    | with_reducible apply State.calRsel_keeps
    | with_reducible apply Keeps.ite
    | with_reducible apply Keeps.dite
    | split
    | intro _
    | (with_reducible refine Keeps.fst (by assumption) ?_)
    | (with_reducible refine Keeps.ofMk rfl rfl rfl rfl rfl rfl rfl rfl rfl ?_)

theorem State.writeObs_keeps {s t : State} (hK : Keeps s t) (a_r : Reader) (a_o : Nat) (a_v : Word) :
    Keeps s (State.writeObs t a_r a_o a_v) := by
  unfold State.writeObs
  repeat' first
    | with_reducible assumption
    | with_reducible apply State.obsSelect_keeps
    | with_reducible apply Keeps.ite
    | (with_reducible refine Keeps.ofMk rfl rfl rfl rfl rfl rfl rfl rfl rfl ?_)

theorem State.writeErr_keeps {s t : State} (hK : Keeps s t) (a_r : Reader) (a_o : Nat) (a_v : Word) (a_met : Word) :
    Keeps s (State.writeErr t a_r a_o a_v a_met) := by
  unfold State.writeErr
  repeat' first
    | with_reducible assumption
    | with_reducible apply Keeps.ite
    | with_reducible apply Keeps.dite
    | split
    | intro _
    | (with_reducible refine Keeps.fst (by assumption) ?_)
    | (with_reducible refine Keeps.ofMk rfl rfl rfl rfl rfl rfl rfl rfl rfl ?_)

theorem State.masterWrite_keeps {s t : State} (hK : Keeps s t) (a_h : Fin 3) (a_o : Nat) (a_v : Word) :
    Keeps s (State.masterWrite t a_h a_o a_v) := by
  unfold State.masterWrite
  refine Keeps.ite hK (Keeps.ite (State.iprod_keeps hK _ _) (Keeps.ite (State.oconsWrite_keeps hK _ _) (Keeps.ite
      ?_ hK)))
  exact State.modHod_keeps hK _ _ fun k => ⟨swf_sset _ _ _ _ k.1, k.2⟩

theorem State.writeHod_keeps {s t : State} (hK : Keeps s t) (a_r : Reader) (a_o : Nat) (a_v a_met : Word) :
    Keeps s (State.writeHod t a_r a_o a_v a_met) := by
  rw [State.writeHod]
  cases hodOf ((a_o - 0x1600) / 32) with
  | none => exact hK
  | some h =>
    dsimp only
    generalize a_o % 32 = k
    repeat' first
      | with_reducible assumption
      | with_reducible apply Keeps.ite
      | with_reducible apply State.masterWrite_keeps
      | with_reducible apply State.iconsWrite_keeps
      | with_reducible apply State.oprod_keeps
      | with_reducible apply State.modHod_keeps
      | exact id

theorem State.writeSlot_keeps {s t : State} (hK : Keeps s t) (a_r : Reader) (a_o : Nat) (a_v : Word) :
    Keeps s (State.writeSlot t a_r a_o a_v) := by
  rw [State.writeSlot]
  cases hodOf ((a_o - 0x8000) / 0x2000) with
  | none => exact hK
  | some h =>
    dsimp only
    refine Keeps.ite (Keeps.ite (State.masterWrite_keeps hK _ _ _) hK)
      (Keeps.ite (State.modHod_keeps hK _ _ fun k => ⟨k.1, swf_sset _ _ _ _ k.2⟩) hK)

theorem State.applyWrite_keeps {s t : State} (hK : Keeps s t) (a_r : Reader) (a_o : Nat) (a_v a_met : Word)
    (a_lost : List Hart) : Keeps s (State.applyWrite t a_r a_o a_v a_met a_lost) := by
  unfold State.applyWrite
  refine Keeps.ite hK ?_
  refine Keeps.ite (Keeps.ite (State.paceClear_keeps hK) hK) ?_
  refine Keeps.ite (State.writeKs_keeps hK _ _ _ _) ?_
  refine Keeps.ite (State.tileLease_keeps hK _ _ _) ?_
  refine Keeps.ite (State.bondWrite_keeps hK _ _) ?_
  refine Keeps.ite (State.writeIce_keeps hK _ _ _ _) ?_
  refine Keeps.ite (State.writeDrf_keeps hK _ _ _ _) ?_
  refine Keeps.ite (State.writeNbr_keeps hK _ _ _ _ _) ?_
  refine Keeps.ite (State.writeCal_keeps hK _ _ _ _) ?_
  refine Keeps.ite (State.writeObs_keeps hK _ _ _) ?_
  refine Keeps.ite (State.writeErr_keeps hK _ _ _ _) ?_
  refine Keeps.ite (State.writeHod_keeps hK _ _ _ _) ?_
  exact Keeps.ite (State.writeSlot_keeps hK _ _ _) hK

theorem State.writeReg_keeps {s t : State} (hK : Keeps s t) (a_r : Reader) (a_off : BitVec 16) (a_v : Word) (a_met
    : Word) (a_lost : List Hart) :
    Keeps s (State.writeReg t a_r a_off a_v a_met a_lost) := by
  unfold State.writeReg
  repeat' first
    | with_reducible assumption
    | with_reducible apply State.stateWrite_keeps
    | with_reducible apply State.applyWrite_keeps
    | with_reducible apply Keeps.ite
    | with_reducible apply Keeps.dite
    | split
    | intro _

theorem State.paceWindow_keeps {s t : State} (hK : Keeps s t) (a_p : BitVec 12) (a_cleared : Bool) :
    Keeps s (State.paceWindow t a_p a_cleared) := by
  unfold State.paceWindow
  repeat' first
    | with_reducible assumption
    | (with_reducible refine Keeps.ofMk rfl rfl rfl rfl rfl rfl rfl rfl rfl ?_)

theorem State.modRegion_keeps {s t : State} (hK : Keeps s t) (a_g : Fin 35) (a_f : Region → Region) :
    Keeps s (State.modRegion t a_g a_f) := by
  unfold State.modRegion
  repeat' first
    | with_reducible assumption
    | (with_reducible refine Keeps.ofMk rfl rfl rfl rfl rfl rfl rfl rfl rfl ?_)

theorem State.calOn_keeps {s t : State} (hK : Keeps s t) :
    Keeps s (State.calOn t) := by
  unfold State.calOn
  repeat' first
    | with_reducible assumption
    | with_reducible apply State.modTimer_keeps
    | (with_reducible refine Keeps.ofMk rfl rfl rfl rfl rfl rfl rfl rfl rfl ?_)

theorem State.calOff_keeps {s t : State} (hK : Keeps s t) :
    Keeps s (State.calOff t) := by
  unfold State.calOff
  repeat' first
    | with_reducible assumption
    | with_reducible apply State.modTimer_keeps
    | with_reducible apply Keeps.ite
    | with_reducible apply Keeps.dite
    | split
    | intro _
    | (with_reducible refine Keeps.fst (by assumption) ?_)
    | (with_reducible refine Keeps.ofMk rfl rfl rfl rfl rfl rfl rfl rfl rfl ?_)

theorem State.measure_keeps {s t : State} (hK : Keeps s t) (a_g : Fin 35) (a_slack : Nat) :
    Keeps s (State.measure t a_g a_slack) := by
  unfold State.measure
  repeat' first
    | with_reducible assumption
    | with_reducible apply State.countEvent_keeps
    | with_reducible apply State.modRegion_keeps
    | with_reducible apply Keeps.ite

theorem State.calibPeriod_keeps {s t : State} (hK : Keeps s t) (a_slacks : List Nat) (a_guarded : List (Fin 35)) :
    Keeps s (State.calibPeriod t a_slacks a_guarded) := by
  unfold State.calibPeriod
  repeat' first
    | with_reducible assumption
    | with_reducible apply State.modTimer_keeps
    | with_reducible apply State.forEach_keeps
    | with_reducible apply State.timeTo_keeps
    | with_reducible apply State.measure_keeps
    | with_reducible apply Keeps.ite
    | with_reducible apply Keeps.dite
    | split
    | intro _

theorem State.guardEvent_keeps {s t : State} (hK : Keeps s t) (a_g : Fin 35) (a_slackAfter : Nat) :
    Keeps s (State.guardEvent t a_g a_slackAfter) := by
  unfold State.guardEvent
  repeat' first
    | with_reducible assumption
    | with_reducible apply State.countEvent_keeps
    | with_reducible apply State.toggleObs_keeps
    | with_reducible apply State.uncorrectable_keeps
    | with_reducible apply State.modRegion_keeps
    | with_reducible apply Keeps.ite
    | with_reducible apply Keeps.dite
    | split
    | intro _
    | (with_reducible refine Keeps.fst (by assumption) ?_)
    | (with_reducible refine Keeps.ofMk rfl rfl rfl rfl rfl rfl rfl rfl rfl ?_)

theorem State.setLs_keeps {s t : State} (hK : Keeps s t) (a_i : Nat) (a_c : BitVec 44) :
    Keeps s (t.setLs a_i a_c) := by
  obtain ⟨a, b, c, d, e, f', g', i⟩ := hK
  exact ⟨a, b, c, d, fun k => swf_sset _ _ _ _ (e k), f', g', i⟩

theorem State.readLs_keeps {s t : State} (hK : Keeps s t) (a_who : Src) (a_i : Nat) :
    Keeps s (State.readLs t a_who a_i).1 := by
  unfold State.readLs
  repeat' first
    | with_reducible assumption
    | split
    | dsimp only
    | with_reducible apply State.uncorrectable_keeps
    | with_reducible apply State.setLs_keeps
    | with_reducible apply Keeps.ite
    | with_reducible apply Keeps.dite
    | split
    | intro _
    | (with_reducible refine Keeps.fst (by assumption) ?_)
    | (with_reducible refine Keeps.ofMk rfl rfl rfl rfl rfl rfl rfl rfl rfl ?_)

theorem State.writeLs_keeps {s t : State} (hK : Keeps s t) (a_i : Nat) (a_v : Word) :
    Keeps s (State.writeLs t a_i a_v) := by
  unfold State.writeLs
  repeat' first
    | with_reducible assumption
    | with_reducible apply State.setLs_keeps

theorem State.mergeLs_keeps {s t : State} (hK : Keeps s t) (a_who : Src) (a_i : Nat) (a_mask : BitVec 4) (a_v :
    Word) :
    Keeps s (State.mergeLs t a_who a_i a_mask a_v).1 := by
  unfold State.mergeLs
  repeat' first
    | with_reducible assumption
    | split
    | with_reducible apply State.readLs_keeps
    | with_reducible apply State.writeLs_keeps
    | (with_reducible refine Keeps.fst (by assumption) ?_)

theorem State.fillLs_keeps {s t : State} (hK : Keeps s t) (a_base : Nat) (a_ws : List Word) :
    Keeps s (State.fillLs t a_base a_ws) := by
  obtain ⟨a, b, c, d, e, f', g', i⟩ := hK
  exact ⟨a, b, c, d, fun k => swf_ssetMany _ _ _ (e k), f', g', i⟩

theorem State.scrubLs_keeps {s t : State} (hK : Keeps s t) :
    Keeps s (State.scrubLs t) := by
  unfold State.scrubLs
  repeat' first
    | with_reducible assumption
    | with_reducible apply State.readLs_keeps
    | (with_reducible refine Keeps.ofMk rfl rfl rfl rfl rfl rfl rfl rfl rfl ?_)

theorem State.answer_keeps {s t : State} (hK : Keeps s t) (a_o : Order) (a_st : BitVec 16) (a_ws : List Word) :
    Keeps s (State.answer t a_o a_st a_ws) := by
  unfold State.answer
  repeat' first
    | with_reducible assumption
    | with_reducible apply State.reply_keeps

theorem State.takeOrders_keeps {s t : State} (hK : Keeps s t) (a_images : ImageIds) (a_run : List Order) (a_live :
    List Order) (a_y0 : List Order) :
    Keeps s (State.takeOrders t a_images a_run a_live a_y0) := by
  induction a_y0 generalizing t a_run a_live with
  | nil =>
    unfold State.takeOrders
    repeat' first
      | with_reducible assumption
      | with_reducible apply ih
      | with_reducible apply State.answer_keeps
      | with_reducible apply Keeps.ite
      | with_reducible apply Keeps.dite
      | split
      | intro _
      | (with_reducible refine Keeps.fst (by assumption) ?_)
      | (with_reducible refine Keeps.ofMk rfl rfl rfl rfl rfl rfl rfl rfl rfl ?_)
  | cons y0 y1 ih =>
    unfold State.takeOrders
    repeat' first
      | with_reducible assumption
      | with_reducible apply ih
      | with_reducible apply State.answer_keeps
      | with_reducible apply Keeps.ite

theorem State.scan_keeps {s t : State} (hK : Keeps s t) (a_images : ImageIds) :
    Keeps s (State.scan t a_images) := by
  unfold State.scan
  repeat' first
    | with_reducible assumption
    | with_reducible apply State.modHod_keeps
    | with_reducible apply State.forEach_keeps
    | with_reducible apply State.toggleObs_keeps
    | with_reducible apply State.iprod_keeps
    | with_reducible apply State.takeOrders_keeps
    | with_reducible apply Keeps.ite
    | with_reducible apply Keeps.dite
    | split
    | intro _

theorem State.serve_keeps {s t : State} (hK : Keeps s t) (a_op : BitVec 8) (a_k : State → Order → State) (a_alt :
    State → State) (hk : ∀ u o, Keeps s u → Keeps s (a_k u o)) (ha : ∀ u, Keeps s u → Keeps s (a_alt u)):
    Keeps s (State.serve t a_op a_k a_alt) := by
  unfold State.serve
  repeat' first
    | with_reducible assumption
    | with_reducible apply hk
    | with_reducible apply ha
    | with_reducible apply State.answer_keeps
    | split
    | (with_reducible refine Keeps.ofMk rfl rfl rfl rfl rfl rfl rfl rfl rfl ?_)

theorem State.openOrder_keeps {s t : State} (hK : Keeps s t) (a_o : Order) (a_f : OpenOrder → OpenOrder) :
    Keeps s (State.openOrder t a_o a_f) := by
  unfold State.openOrder
  repeat' first
    | with_reducible assumption
    | (with_reducible refine Keeps.ofMk rfl rfl rfl rfl rfl rfl rfl rfl rfl ?_)

theorem State.kill_keeps {s t : State} (hK : Keeps s t) (a_o : Order) :
    Keeps s (State.kill t a_o) := by
  unfold State.kill
  repeat' first
    | with_reducible assumption
    | with_reducible apply State.modHart_keeps
    | with_reducible apply State.forEach_keeps
    | with_reducible apply State.stopChannel_keeps
    | with_reducible apply State.stopCourses_keeps
    | with_reducible apply State.dropReading_keeps
    | with_reducible apply State.nbrStop_keeps
    | with_reducible apply State.settleSends_keeps
    | with_reducible apply State.openOrder_keeps
    | with_reducible apply Keeps.ite
    | intro _
    | (with_reducible refine Keeps.ofMk rfl rfl rfl rfl rfl rfl rfl rfl rfl ?_)

theorem State.openCompute_keeps {s t : State} (hK : Keeps s t) (a_o : Order) (a_plan : List Nat) (a_tiles : Nat)
    (a_work : Option OrderWork) (a_kernel : List Hart) (a_vops : List (BitVec 6)) :
    Keeps s (State.openCompute t a_o a_plan a_tiles a_work a_kernel a_vops) := by
  unfold State.openCompute
  repeat' first
    | with_reducible assumption
    | with_reducible apply State.answer_keeps
    | with_reducible apply State.openOrder_keeps
    | with_reducible apply Keeps.ite

theorem State.startProduct_keeps {s t : State} (hK : Keeps s t) (a_o : Order) (a_sh : OrderShape) (a_bad : Bool)
    (a_tiles : Nat) (a_work : OrderWork) :
    Keeps s (State.startProduct t a_o a_sh a_bad a_tiles a_work) := by
  unfold State.startProduct
  repeat' first
    | with_reducible assumption
    | with_reducible apply State.answer_keeps
    | with_reducible apply State.openCompute_keeps
    | with_reducible apply Keeps.ite
    | with_reducible apply Keeps.dite
    | split

theorem State.startVector_keeps {s t : State} (hK : Keeps s t) (a_o : Order) (a_sh : OrderShape) (a_bad : Bool)
    (a_vops : List (BitVec 6)) :
    Keeps s (State.startVector t a_o a_sh a_bad a_vops) := by
  unfold State.startVector
  repeat' first
    | with_reducible assumption
    | with_reducible apply State.answer_keeps
    | with_reducible apply State.openCompute_keeps
    | with_reducible apply Keeps.ite
    | with_reducible apply Keeps.dite
    | split

theorem State.finishCompute_keeps {s t : State} (hK : Keeps s t) (a_op : BitVec 8) :
    Keeps s (State.finishCompute t a_op) := by
  unfold State.finishCompute
  repeat' first
    | with_reducible assumption
    | with_reducible apply State.endOrder_keeps
    | with_reducible apply State.retryPush_keeps
    | with_reducible apply Keeps.ite
    | with_reducible apply Keeps.dite
    | split

theorem State.productOrder_keeps {s t : State} (hK : Keeps s t) (a_op : BitVec 8) (a_sh : OrderShape) (a_bad :
    Bool) (a_tiles : Nat) (a_work : OrderWork) :
    Keeps s (State.productOrder t a_op a_sh a_bad a_tiles a_work) := by
  unfold State.productOrder
  repeat' first
    | with_reducible assumption
    | with_reducible apply State.serve_keeps
    | with_reducible apply State.startProduct_keeps
    | with_reducible apply State.finishCompute_keeps
    | with_reducible apply Keeps.ite
    | with_reducible apply Keeps.dite
    | split
    | intro _

theorem State.vectorOrder_keeps {s t : State} (hK : Keeps s t) (a_op : BitVec 8) (a_sh : OrderShape) (a_bad : Bool)
    (a_vops : List (BitVec 6)) :
    Keeps s (State.vectorOrder t a_op a_sh a_bad a_vops) := by
  unfold State.vectorOrder
  repeat' first
    | with_reducible assumption
    | with_reducible apply State.serve_keeps
    | with_reducible apply State.startVector_keeps
    | with_reducible apply State.finishCompute_keeps
    | with_reducible apply Keeps.ite
    | with_reducible apply Keeps.dite
    | split
    | intro _

theorem State.startAttn_keeps {s t : State} (hK : Keeps s t) (a_o : Order) (a_stream : Nat) (a_kernel : List Hart) :
    Keeps s (State.startAttn t a_o a_stream a_kernel) := by
  unfold State.startAttn
  repeat' first
    | with_reducible assumption
    | with_reducible apply State.startProduct_keeps

theorem State.hello_keeps {s t : State} (hK : Keeps s t) (a_o : Order) :
    Keeps s (State.hello t a_o) := by
  unfold State.hello
  repeat' first
    | with_reducible assumption
    | with_reducible apply State.modHod_keeps
    | with_reducible apply State.answer_keeps
    | with_reducible apply Keeps.ite
    | intro _

theorem State.releaseOrder_keeps {s t : State} (hK : Keeps s t) (a_o : Order) :
    Keeps s (State.releaseOrder t a_o) := by
  unfold State.releaseOrder
  repeat' first
    | with_reducible assumption
    | with_reducible apply State.answer_keeps
    | with_reducible apply Keeps.ite
    | (with_reducible refine Keeps.ofMk rfl rfl rfl rfl rfl rfl rfl rfl rfl ?_)

theorem State.calibOrder_keeps {s t : State} (hK : Keeps s t) (a_o : Order) :
    Keeps s (State.calibOrder t a_o) := by
  unfold State.calibOrder
  repeat' first
    | with_reducible assumption
    | with_reducible apply State.conflict_keeps
    | with_reducible apply State.calOn_keeps
    | with_reducible apply State.calOff_keeps
    | with_reducible apply State.answer_keeps
    | with_reducible apply Keeps.ite

theorem State.dropPage_keeps {s t : State} (hK : Keeps s t) (a_c : Fin 32) :
    Keeps s (State.dropPage t a_c) := by
  unfold State.dropPage
  repeat' first
    | with_reducible assumption
    | (with_reducible refine Keeps.ofMk rfl rfl rfl rfl rfl rfl rfl rfl rfl ?_)

theorem State.endHalted_keeps {s t : State} (hK : Keeps s t) (a_c : Fin 32) (a_st : BitVec 16) :
    Keeps s (State.endHalted t a_c a_st) := by
  unfold State.endHalted
  repeat' first
    | with_reducible assumption
    | with_reducible apply State.modOrder_keeps
    | with_reducible apply State.stopChannel_keeps
    | with_reducible apply State.dropPage_keeps
    | with_reducible apply Keeps.ite
    | with_reducible apply Keeps.dite
    | split

theorem State.pageDone_keeps {s t : State} (hK : Keeps s t) (a_o : Order) (a_bound : Bool) :
    Keeps s (State.pageDone t a_o a_bound) := by
  unfold State.pageDone
  repeat' first
    | with_reducible assumption
    | with_reducible apply State.pruneCycles_keeps
    | with_reducible apply State.resumeCh_keeps
    | with_reducible apply State.answer_keeps
    | with_reducible apply State.endHalted_keeps
    | split

theorem State.pageTimeout_keeps {s t : State} (hK : Keeps s t) (a_c : Fin 32) :
    Keeps s (State.pageTimeout t a_c) := by
  unfold State.pageTimeout
  repeat' first
    | with_reducible assumption
    | with_reducible apply State.endHalted_keeps
    | with_reducible apply Keeps.ite

theorem State.obsOrder_keeps {s t : State} (hK : Keeps s t) (a_o : Order) (a_sel : List (Fin 16 × BitVec 8)) :
    Keeps s (State.obsOrder t a_o a_sel) := by
  unfold State.obsOrder
  repeat' first
    | with_reducible assumption
    | with_reducible apply State.forEach_keeps
    | with_reducible apply State.conflict_keeps
    | with_reducible apply State.obsSet_keeps
    | with_reducible apply State.answer_keeps
    | split
    | intro _

theorem State.orderDrift_keeps {s t : State} (hK : Keeps s t) (a_c : Fin 32) (a_n : Nat) (a_d : Desc) :
    Keeps s (State.orderDrift t a_c a_n a_d) := by
  unfold State.orderDrift
  repeat' first
    | with_reducible assumption
    | with_reducible apply State.startChain_keeps
    | with_reducible apply State.enterSet_keeps

theorem State.loadExt_keeps {s t : State} (hK : Keeps s t) (a_o : Order) (a_f : Fin 64) (a_words : Nat) (a_ch :
    BitVec 5) :
    Keeps s (State.loadExt t a_o a_f a_words a_ch) := by
  unfold State.loadExt
  repeat' first
    | with_reducible assumption
    | with_reducible apply State.answer_keeps
    | with_reducible apply State.openOrder_keeps
    | with_reducible apply State.orderDrift_keeps
    | with_reducible apply Keeps.ite

theorem State.extVerified_keeps {s t : State} (hK : Keeps s t) (a_ok : Bool) (a_code : Word) :
    Keeps s (State.extVerified t a_ok a_code) := by
  unfold State.extVerified
  repeat' first
    | with_reducible assumption
    | with_reducible apply State.report_keeps
    | with_reducible apply State.endOrder_keeps
    | with_reducible apply State.fillLs_keeps
    | split
    | (with_reducible refine Keeps.ofMk rfl rfl rfl rfl rfl rfl rfl rfl rfl ?_)

theorem State.dropExt_keeps {s t : State} (hK : Keeps s t) (a_o : Order) (a_ext : BitVec 16) :
    Keeps s (State.dropExt t a_o a_ext) := by
  unfold State.dropExt
  repeat' first
    | with_reducible assumption
    | with_reducible apply State.answer_keeps
    | with_reducible apply Keeps.ite
    | (with_reducible refine Keeps.ofMk rfl rfl rfl rfl rfl rfl rfl rfl rfl ?_)

theorem State.extCall_keeps {s t : State} (hK : Keeps s t) (a_o : Order) (a_ext : BitVec 16) (a_harts : List Hart)
    (a_tiles : List TileReg) (a_chans : List (Fin 32)) (a_floes : List (Fin 64)) (a_params : Word) :
    Keeps s (State.extCall t a_o a_ext a_harts a_tiles a_chans a_floes a_params) := by
  unfold State.extCall
  repeat' first
    | with_reducible assumption
    | with_reducible apply State.modHart_keeps
    | with_reducible apply State.modCh_keeps
    | with_reducible apply State.forEach_keeps
    | with_reducible apply State.setLease_keeps
    | with_reducible apply State.fillLs_keeps
    | with_reducible apply State.answer_keeps
    | with_reducible apply State.openOrder_keeps
    | with_reducible apply Keeps.ite
    | with_reducible apply Keeps.dite
    | split
    | intro _
    | (with_reducible refine Keeps.fst (by assumption) ?_)
    | (with_reducible refine Keeps.ofMk rfl rfl rfl rfl rfl rfl rfl rfl rfl ?_)
    | (simp only [HartState.enter_bank]; assumption)

theorem State.endKill_keeps {s t : State} (hK : Keeps s t) (a_k : BitVec 16) (a_n : Nat) :
    Keeps s (State.endKill t a_k a_n) := by
  unfold State.endKill
  repeat' first
    | with_reducible assumption
    | with_reducible apply State.forEach_keeps
    | with_reducible apply State.endOrder_keeps
    | with_reducible apply State.endAccess_keeps
    | with_reducible apply Keeps.ite
    | with_reducible apply Keeps.dite
    | split
    | intro _
    | (with_reducible refine Keeps.fst (by assumption) ?_)
    | (with_reducible refine Keeps.ofMk rfl rfl rfl rfl rfl rfl rfl rfl rfl ?_)

theorem State.killDrained_keeps {s t : State} (hK : Keeps s t) :
    Keeps s (State.killDrained t) := by
  unfold State.killDrained
  repeat' first
    | with_reducible assumption
    | with_reducible apply State.forEach_keeps
    | with_reducible apply State.endCall_keeps
    | with_reducible apply State.endKill_keeps
    | with_reducible apply Keeps.ite
    | with_reducible apply Keeps.dite
    | split
    | intro _

theorem State.finishCall_keeps {s t : State} (hK : Keeps s t) :
    Keeps s (State.finishCall t) := by
  unfold State.finishCall
  repeat' first
    | with_reducible assumption
    | with_reducible apply State.endOrder_keeps
    | with_reducible apply State.retryPush_keeps
    | with_reducible apply Keeps.ite
    | with_reducible apply Keeps.dite
    | split
    | intro _
    | (with_reducible refine Keeps.fst (by assumption) ?_)
    | (with_reducible refine Keeps.ofMk rfl rfl rfl rfl rfl rfl rfl rfl rfl ?_)

theorem State.floeSet_keeps {s t : State} (hK : Keeps s t) (a_o : Order) (a_f : Fin 64) (a_w : Vector Word 8) :
    Keeps s (State.floeSet t a_o a_f a_w) := by
  unfold State.floeSet
  repeat' first
    | with_reducible assumption
    | with_reducible apply State.commitFloe_keeps
    | with_reducible apply State.replyCommit_keeps
    | with_reducible apply State.openOrder_keeps
    | with_reducible apply Keeps.ite

theorem State.weightPush_keeps {s t : State} (hK : Keeps s t) (a_o : Order) (a_f : Fin 64) (a_list : BitVec 48)
    (a_ch : BitVec 5) :
    Keeps s (State.weightPush t a_o a_f a_list a_ch) := by
  unfold State.weightPush
  repeat' first
    | with_reducible assumption
    | with_reducible apply State.modCh_keeps
    | with_reducible apply State.pushCommit_keeps
    | with_reducible apply State.answer_keeps
    | with_reducible apply State.openOrder_keeps
    | with_reducible apply Keeps.ite
    | with_reducible apply Keeps.dite
    | split
    | intro _
    | (with_reducible refine Keeps.fst (by assumption) ?_)
    | (with_reducible refine Keeps.ofMk rfl rfl rfl rfl rfl rfl rfl rfl rfl ?_)

theorem State.moveOrder_keeps {s t : State} (hK : Keeps s t) (a_o : Order) (a_list : BitVec 48) (a_ch : BitVec 5) :
    Keeps s (State.moveOrder t a_o a_list a_ch) := by
  unfold State.moveOrder
  repeat' first
    | with_reducible assumption
    | with_reducible apply State.startChain_keeps
    | with_reducible apply State.answer_keeps
    | with_reducible apply State.openOrder_keeps
    | with_reducible apply Keeps.ite

theorem State.iceOrder_keeps {s t : State} (hK : Keeps s t) (a_o : Order) (a_store : Bool) (a_ice : Word) (a_words
    : Nat) (a_fab : BitVec 48) (a_ch : BitVec 5) :
    Keeps s (State.iceOrder t a_o a_store a_ice a_words a_fab a_ch) := by
  unfold State.iceOrder
  repeat' first
    | with_reducible assumption
    | with_reducible apply State.answer_keeps
    | with_reducible apply State.openOrder_keeps
    | with_reducible apply State.orderDrift_keeps
    | with_reducible apply Keeps.ite

theorem State.windowOrder_keeps {s t : State} (hK : Keeps s t) (a_o : Order) (a_op : WindowOp) (a_w : Fin 64)
    (a_stage : Vector Word 4) (a_credit : BitVec 24) :
    Keeps s (State.windowOrder t a_o a_op a_w a_stage a_credit) := by
  unfold State.windowOrder
  repeat' first
    | with_reducible assumption
    | with_reducible apply State.setWstat_keeps
    | with_reducible apply State.windowOpen_keeps
    | with_reducible apply State.windowClose_keeps
    | with_reducible apply State.windowCredit_keeps
    | with_reducible apply State.forgetCloses_keeps
    | with_reducible apply State.replyWindow_keeps
    | with_reducible apply State.openOrder_keeps
    | with_reducible apply Keeps.ite
    | with_reducible apply Keeps.dite
    | split

theorem State.fenceDone_keeps {s t : State} (hK : Keeps s t) :
    Keeps s (State.fenceDone t) := by
  unfold State.fenceDone
  repeat' first
    | with_reducible assumption
    | with_reducible apply State.endOrder_keeps
    | split

theorem State.asFirmware_keeps {s t : State} (hK : Keeps s t) (a_f : State → State) (hf : ∀ u, Keeps s u → Keeps s
    (a_f u)):
    Keeps s (State.asFirmware t a_f) := by
  unfold State.asFirmware
  repeat' first
    | with_reducible assumption
    | with_reducible apply hf
    | with_reducible apply State.modHart_keeps
    | with_reducible apply Keeps.ite
    | intro _

theorem State.regRead_keeps {s t : State} (hK : Keeps s t) (a_o : Order) (a_a : Word) :
    Keeps s (State.regRead t a_o a_a) := by
  unfold State.regRead
  repeat' first
    | with_reducible assumption
    | with_reducible apply State.readEffect_keeps
    | with_reducible apply State.readLs_keeps
    | with_reducible apply State.answer_keeps
    | split
    | (with_reducible refine Keeps.fst (by assumption) ?_)

theorem State.regWrite_keeps {s t : State} (hK : Keeps s t) (a_o : Order) (a_off : BitVec 16) (a_v : Word) :
    Keeps s (State.regWrite t a_o a_off a_v) := by
  unfold State.regWrite
  repeat' first
    | with_reducible assumption
    | with_reducible apply State.conflict_keeps
    | with_reducible apply State.writeReg_keeps
    | with_reducible apply State.answer_keeps
    | with_reducible apply State.asFirmware_keeps
    | with_reducible apply Keeps.ite
    | intro _
    | (with_reducible refine Keeps.ofMk rfl rfl rfl rfl rfl rfl rfl rfl rfl ?_)

theorem State.poisonWords_keeps {s t : State} (hK : Keeps s t) (a_skip : Option Nat) (a_y0 : List Nat) :
    Keeps s (State.poisonWords t a_skip a_y0).1 := by
  induction a_y0 generalizing t  with
  | nil =>
    unfold State.poisonWords
    repeat' first
      | with_reducible assumption
  | cons y0 y1 ih =>
    unfold State.poisonWords
    repeat' first
      | with_reducible assumption
      | split
      | with_reducible apply ih
      | with_reducible apply State.setCell_keeps
      | (with_reducible refine Keeps.fst (by assumption) ?_)

theorem State.markTiles_keeps {s t : State} (hK : Keeps s t) (a_l : List (TileReg × List Nat)) :
    Keeps s (State.markTiles t a_l) := by
  unfold State.markTiles
  repeat' first
    | with_reducible assumption
    | with_reducible apply State.modTile_keeps
    | with_reducible apply State.forEach_keeps
    | with_reducible apply Keeps.ite
    | with_reducible apply Keeps.dite
    | intro _
    | exact Tile.mark_data _ _ (by assumption)

theorem State.poison_keeps {s t : State} (hK : Keeps s t) (a_r : FaultRec) :
    Keeps s (State.poison t a_r).1 := by
  unfold State.poison
  repeat' first
    | with_reducible assumption
    | with_reducible apply State.poisonWords_keeps
    | with_reducible apply State.markTiles_keeps

theorem State.dropSparing_keeps {s t : State} (hK : Keeps s t) (a_bank : Nat) (a_row : Nat) :
    Keeps s (State.dropSparing t a_bank a_row) := by
  unfold State.dropSparing
  repeat' first
    | with_reducible assumption
    | with_reducible apply State.forEach_keeps
    | with_reducible apply State.release_keeps
    | intro _
    | (with_reducible refine Keeps.ofMk rfl rfl rfl rfl rfl rfl rfl rfl rfl ?_)

theorem State.spareFault_keeps {s t : State} (hK : Keeps s t) (a_r : FaultRec) :
    Keeps s (State.spareFault t a_r).1 := by
  unfold State.spareFault
  repeat' first
    | with_reducible assumption
    | split
    | with_reducible apply State.spareRow_keeps
    | with_reducible apply State.dropSparing_keeps

theorem State.stopTimers_keeps {s t : State} (hK : Keeps s t) :
    Keeps s (State.stopTimers t) := by
  unfold State.stopTimers
  repeat' first
    | with_reducible assumption
    | with_reducible apply State.modTimer_keeps
    | with_reducible apply State.forEach_keeps
    | with_reducible apply Keeps.ite
    | intro _

theorem State.dropOrders_keeps {s t : State} (hK : Keeps s t) : Keeps s (State.dropOrders t) := by
  unfold State.dropOrders
  refine State.forEach_keeps ?_ _ _ fun u c hu => State.modCh_keeps hu _ _
  obtain ⟨a, b, c, d, e, f', g', i⟩ := hK
  refine ⟨a, b, c, d, e, fun k h => ?_, g', i⟩
  have : (t.hods.hod.map fun d : Hod => { d with icons := d.iprod }).get h =
      { t.hods.hod.get h with icons := (t.hods.hod.get h).iprod } := by
    change (t.hods.hod.map _)[h.val] = _
    rw [Vector.getElem_map]; rfl
  show swf 0 ((t.hods.hod.map fun d : Hod => { d with icons := d.iprod }).get h).inSlots = true ∧
    swf 0 ((t.hods.hod.map fun d : Hod => { d with icons := d.iprod }).get h).outSlots = true
  rw [this]
  exact f' k h

theorem Keeps.freeLeases {s t : State} (hK : Keeps s t) :
    Keeps s { t with leaseQ := [], tiles := t.tiles.map fun u => { u with lease := .free } } := by
  obtain ⟨a, b, c, d, e, f', g', i⟩ := hK
  refine ⟨a, b, fun k h => ?_, d, e, f', g', i⟩
  have : (t.tiles.map fun u : Tile => { u with lease := .free }).get h =
      { t.tiles.get h with lease := .free } := by
    change (t.tiles.map _)[h.val] = _
    rw [Vector.getElem_map]; rfl
  show swf 0 ((t.tiles.map fun u : Tile => { u with lease := .free }).get h).data = true
  rw [this]
  exact c k h

theorem State.restart_keeps {s t : State} (hK : Keeps s t) : Keeps s (State.restart t) := by
  unfold State.restart
  refine State.forEach_keeps (State.dropOrders_keeps (State.stopTimers_keeps (Keeps.freeLeases ?_))) _ _
    fun u x hu => State.closeEffect_keeps hu _
  refine State.forEach_keeps ?_ _ _ fun u x hu => State.modHart_keeps hu _ _ fun k => by
    rw [HartState.recovered_bank]; exact k
  refine State.forEach_keeps ?_ _ _ fun u x hu => State.forEach_keeps hu _ _ fun v y hv => State.modHart_keeps hv _
      _ id
  refine State.modSb_keeps ?_ _ fun k a ha => ?_
  · exact Keeps.ofMk rfl rfl rfl rfl rfl rfl rfl rfl rfl
      (State.forEach_keeps hK _ _ fun u x hu => State.discard_keeps hu _)
  · simp only [List.mem_append, List.mem_filter] at k ha
    rcases ha with ha | ha
    · exact k a (.inl ha)
    · exact k a (.inr ha.1)

theorem State.endRecovery_keeps {s t : State} (hK : Keeps s t) (a_r : FaultRec) (a_poisoned : Nat) (a_reload :
    Bool) (a_moraine : Bool) (a_spared : Bool) :
    Keeps s (State.endRecovery t a_r a_poisoned a_reload a_moraine a_spared) := by
  unfold State.endRecovery
  repeat' first
    | with_reducible assumption
    | with_reducible apply State.forEach_keeps
    | with_reducible apply State.flushHod_keeps
    | with_reducible apply State.sendFault_keeps
    | with_reducible apply State.spareOut_keeps
    | with_reducible apply State.restart_keeps
    | with_reducible apply Keeps.ite
    | with_reducible apply Keeps.dite
    | split
    | intro _
    | (with_reducible refine Keeps.fst (by assumption) ?_)
    | (with_reducible refine Keeps.ofMk rfl rfl rfl rfl rfl rfl rfl rfl rfl ?_)

theorem State.recover_keeps {s t : State} (hK : Keeps s t) :
    Keeps s (State.recover t) := by
  unfold State.recover
  repeat' first
    | with_reducible assumption
    | with_reducible apply State.poison_keeps
    | with_reducible apply State.spareFault_keeps
    | with_reducible apply State.endRecovery_keeps
    | with_reducible apply Keeps.ite
    | split
    | (with_reducible refine Keeps.ofMk rfl rfl rfl rfl rfl rfl rfl rfl rfl ?_)

theorem State.loadFirmware_keeps {s t : State} (hK : Keeps s t) (a_image : List Word) :
    Keeps s (State.loadFirmware t a_image) := by
  refine State.fillLs_keeps ?_ _ _
  obtain ⟨a, b, c, d, e, f', g', i⟩ := hK
  exact ⟨a, b, c, d, fun k => swf_filter _ _ _ (e k), f', g', i⟩

theorem State.reloaded_keeps {s t : State} (hK : Keeps s t) (a_image : List Word) :
    Keeps s (State.reloaded t a_image) := by
  unfold State.reloaded
  repeat' first
    | with_reducible assumption
    | with_reducible apply State.endRecovery_keeps
    | with_reducible apply State.loadFirmware_keeps
    | split
    | (with_reducible refine Keeps.ofMk rfl rfl rfl rfl rfl rfl rfl rfl rfl ?_)

theorem State.faultIn_keeps {s t : State} (hK : Keeps s t) (a_code : BitVec 8) (a_src : BitVec 4) (a_unit : BitVec
    6) (a_loc : Word) (a_loc2 : Word) :
    Keeps s (State.faultIn t a_code a_src a_unit a_loc a_loc2) := by
  unfold State.faultIn
  repeat' first
    | with_reducible assumption
    | with_reducible apply State.uncorrectable_keeps
    | with_reducible apply Keeps.ite

theorem State.laneRamp_keeps {s t : State} (hK : Keeps s t) (a_g : Fin 17) :
    Keeps s (State.laneRamp t a_g) := by
  unfold State.laneRamp
  repeat' first
    | with_reducible assumption
    | with_reducible apply State.modLane_keeps
    | with_reducible apply Keeps.ite

theorem State.laneSelftest_keeps {s t : State} (hK : Keeps s t) (a_g : Fin 17) (a_pass : Bool) :
    Keeps s (State.laneSelftest t a_g a_pass) := by
  unfold State.laneSelftest
  repeat' first
    | with_reducible assumption
    | with_reducible apply State.modLane_keeps
    | with_reducible apply State.fencedReport_keeps
    | with_reducible apply Keeps.ite

theorem State.joinLane_keeps {s t : State} (hK : Keeps s t) (a_g : Fin 17) :
    Keeps s (State.joinLane t a_g) := by
  unfold State.joinLane
  repeat' first
    | with_reducible assumption
    | with_reducible apply State.modLane_keeps
    | with_reducible apply State.fencedReport_keeps
    | split
    | (with_reducible refine Keeps.ofMk rfl rfl rfl rfl rfl rfl rfl rfl rfl ?_)

theorem State.laneSlacks_keeps {s t : State} (hK : Keeps s t) (a_g : Fin 17) (a_y0 : List Nat) :
    Keeps s (State.laneSlacks t a_g a_y0) := by
  induction a_y0 generalizing t a_g with
  | nil =>
    unfold State.laneSlacks
    repeat' first
      | with_reducible assumption
  | cons y0 y1 ih =>
    unfold State.laneSlacks
    repeat' first
      | with_reducible assumption
      | with_reducible apply ih
      | with_reducible apply State.modRegion_keeps
      | with_reducible apply State.joinLane_keeps
      | with_reducible apply Keeps.ite

theorem State.laneRejoin_keeps {s t : State} (hK : Keeps s t) (a_g : Fin 17) (a_slack : List Nat) :
    Keeps s (State.laneRejoin t a_g a_slack) := by
  unfold State.laneRejoin
  repeat' first
    | with_reducible assumption
    | with_reducible apply State.laneSlacks_keeps
    | with_reducible apply Keeps.ite

theorem State.restartEngine_keeps {s t : State} (hK : Keeps s t) (a_report : List (Fin 64)) :
    Keeps s (State.restartEngine t a_report) := by
  obtain ⟨a, b, c, d, e, f', g', i⟩ := hK
  refine ⟨a, b, fun _ h => ?_, fun k => ⟨swf_filter _ _ _ (d k).1, rfl⟩, fun _ => rfl, fun _ h => ?_, fun _ h => ?_,
    fun _ x hx => by cases hx⟩
  · show swf 0 ((Vector.replicate 64 ({} : Tile)).get h).data = true
    rw [show (Vector.replicate 64 ({} : Tile)).get h = {} from Vector.getElem_replicate _]; rfl
  · show swf 0 ((Vector.replicate 3 ({} : Hod)).get h).inSlots = true ∧ swf 0 ((Vector.replicate 3 ({} : Hod)).get
      h).outSlots = true
    rw [show (Vector.replicate 3 ({} : Hod)).get h = {} from Vector.getElem_replicate _]; exact ⟨rfl, rfl⟩
  · show swf {} ((Vector.replicate 16 ({} : HartState)).get h).bank = true
    rw [show (Vector.replicate 16 ({} : HartState)).get h = {} from Vector.getElem_replicate _]; rfl

theorem State.applyRecord_keeps {s t : State} (hK : Keeps s t) (a_r : Rec) :
    Keeps s (State.applyRecord t a_r) := by
  unfold State.applyRecord
  repeat' first
    | with_reducible assumption
    | with_reducible apply State.forEach_keeps
    | with_reducible apply State.setSpare_keeps
    | intro _
    | (with_reducible refine Keeps.ofMk rfl rfl rfl rfl rfl rfl rfl rfl rfl ?_)

theorem State.recordRead_keeps {s t : State} (hK : Keeps s t) (a_a : Option (List Word)) (a_b : Option (List Word)) :
    Keeps s (State.recordRead t a_a a_b) := by
  unfold State.recordRead
  repeat' first
    | with_reducible assumption
    | with_reducible apply State.calOn_keeps
    | with_reducible apply State.applyRecord_keeps
    | split
    | (with_reducible refine Keeps.ofMk rfl rfl rfl rfl rfl rfl rfl rfl rfl ?_)

theorem State.reach_keeps {s t : State} (hK : Keeps s t) (a_n : BitVec 4) :
    Keeps s (State.reach t a_n) := by
  unfold State.reach
  repeat' first
    | with_reducible assumption
    | (with_reducible refine Keeps.ofMk rfl rfl rfl rfl rfl rfl rfl rfl rfl ?_)

theorem State.localFilled_keeps {s t : State} (hK : Keeps s t) : Keeps s (State.localFilled t) := by
  unfold State.localFilled
  refine Keeps.ite hK (State.reach_keeps ?_ _)
  obtain ⟨a, b, c, d, e, f', g', i⟩ := hK
  exact ⟨a, b, c, d, fun _ => rfl, f', g', i⟩

theorem State.retireLane_keeps {s t : State} (hK : Keeps s t) (a_g : Fin 17) :
    Keeps s (State.retireLane t a_g) := by
  unfold State.retireLane
  repeat' first
    | with_reducible assumption
    | with_reducible apply State.modLane_keeps
    | with_reducible apply State.fencedReport_keeps
    | split
    | (with_reducible refine Keeps.ofMk rfl rfl rfl rfl rfl rfl rfl rfl rfl ?_)

theorem State.lanesTested_keeps {s t : State} (hK : Keeps s t) (a_failed : List (Fin 17)) :
    Keeps s (State.lanesTested t a_failed) := by
  unfold State.lanesTested
  repeat' first
    | with_reducible assumption
    | with_reducible apply State.forEach_keeps
    | with_reducible apply State.reach_keeps
    | with_reducible apply State.retireLane_keeps
    | with_reducible apply Keeps.ite
    | with_reducible apply Keeps.dite
    | split
    | intro _
    | (with_reducible refine Keeps.fst (by assumption) ?_)
    | (with_reducible refine Keeps.ofMk rfl rfl rfl rfl rfl rfl rfl rfl rfl ?_)

theorem State.spareRows_keeps {s t : State} (hK : Keeps s t) (a_y0 : List (Nat × Nat)) :
    Keeps s (State.spareRows t a_y0) := by
  induction a_y0 generalizing t with
  | nil => exact hK
  | cons x r ih =>
    unfold State.spareRows
    split
    · rename_i u n h
      refine ih (State.spareReport_keeps ?_ _ _ _)
      exact Keeps.ofMk rfl rfl rfl rfl rfl rfl rfl rfl rfl (State.spareBlank_keeps hK _ _ h)
    · exact ih (State.spareOut_keeps (State.setSeg_keeps hK _ _) _ _)

theorem State.fieldTested_keeps {s t : State} (hK : Keeps s t) (a_failed : List (Nat × Nat)) (a_bad : List (Nat ×
    Nat)) :
    Keeps s (State.fieldTested t a_failed a_bad) := by
  unfold State.fieldTested
  repeat' first
    | with_reducible assumption
    | with_reducible apply State.badSpares_keeps
    | with_reducible apply State.reach_keeps
    | with_reducible apply State.spareRows_keeps
    | with_reducible apply Keeps.ite
    | (with_reducible refine Keeps.ofMk rfl rfl rfl rfl rfl rfl rfl rfl rfl ?_)

theorem State.fieldFilled_keeps {s t : State} (hK : Keeps s t) : Keeps s (State.fieldFilled t) := by
  unfold State.fieldFilled
  refine Keeps.ite hK ?_
  obtain ⟨a, b, c, d, e, f', g', i⟩ := hK
  exact ⟨a, b, c, fun k => ⟨swf_filter _ _ _ (d k).1, (d k).2⟩, e, f', g', i⟩

theorem State.firmware_keeps {s t : State} (hK : Keeps s t) (a_image : List Word) :
    Keeps s (State.firmware t a_image) := by
  unfold State.firmware
  repeat' first
    | with_reducible assumption
    | with_reducible apply State.loadFirmware_keeps
    | with_reducible apply State.reloaded_keeps
    | with_reducible apply Keeps.ite
    | (with_reducible refine Keeps.ofMk rfl rfl rfl rfl rfl rfl rfl rfl rfl ?_)

theorem State.fwRefused_keeps {s t : State} (hK : Keeps s t) (a_code : Word) :
    Keeps s (State.fwRefused t a_code) := by
  unfold State.fwRefused
  repeat' first
    | with_reducible assumption
    | with_reducible apply State.reportNow_keeps
    | with_reducible apply Keeps.ite
    | (with_reducible refine Keeps.ofMk rfl rfl rfl rfl rfl rfl rfl rfl rfl ?_)

theorem State.keystoneStart_keeps {s t : State} (hK : Keeps s t) :
    Keeps s (State.keystoneStart t) := by
  unfold State.keystoneStart
  repeat' first
    | with_reducible assumption
    | with_reducible apply State.modHart_keeps
    | with_reducible apply State.lanesTested_keeps
    | with_reducible apply Keeps.ite
    | intro _
    | (with_reducible refine Keeps.ofMk rfl rfl rfl rfl rfl rfl rfl rfl rfl ?_)

theorem State.becomeReady_keeps {s t : State} (hK : Keeps s t) :
    Keeps s (State.becomeReady t) := by
  unfold State.becomeReady
  repeat' first
    | with_reducible assumption
    | with_reducible apply State.forEach_keeps
    | with_reducible apply State.reportPver_keeps
    | with_reducible apply State.reportNow_keeps
    | with_reducible apply State.sendFault_keeps
    | with_reducible apply State.calOff_keeps
    | split
    | intro _
    | (with_reducible refine Keeps.ofMk rfl rfl rfl rfl rfl rfl rfl rfl rfl ?_)

theorem State.neighbourWaitEnd_keeps {s t : State} (hK : Keeps s t) (a_timeout : Bool) :
    Keeps s (State.neighbourWaitEnd t a_timeout) := by
  unfold State.neighbourWaitEnd
  repeat' first
    | with_reducible assumption
    | with_reducible apply State.becomeReady_keeps
    | with_reducible apply Keeps.ite

theorem State.done_keeps {s t : State} (hK : Keeps s t) (a_h : Hart) (a_len : Nat) (a_f : HartState → HartState)
    (hf : ∀ u, (a_f u).bank = u.bank):
    Keeps s (State.done t a_h a_len a_f) := by
  unfold State.done
  repeat' first
    | with_reducible assumption
    | (simp only [hf]; assumption)
    | with_reducible apply State.modHart_keeps
    | with_reducible apply Keeps.ite
    | with_reducible apply Keeps.dite
    | split
    | intro _

theorem State.jump_keeps {s t : State} (hK : Keeps s t) (a_h : Hart) (a_pc : Word) (a_f : HartState → HartState)
    (hf : ∀ u, (a_f u).bank = u.bank):
    Keeps s (State.jump t a_h a_pc a_f) := by
  unfold State.jump
  repeat' first
    | with_reducible assumption
    | (simp only [hf]; assumption)
    | with_reducible apply State.modHart_keeps
    | with_reducible apply Keeps.ite
    | with_reducible apply Keeps.dite
    | split
    | intro _

theorem State.illegal_keeps {s t : State} (hK : Keeps s t) (a_h : Hart) (a_w : Word) :
    Keeps s (State.illegal t a_h a_w) := by
  unfold State.illegal
  repeat' first
    | with_reducible assumption
    | with_reducible apply State.trap_keeps

theorem State.snoop_keeps {s t : State} (hK : Keeps s t) (a_h : Hart) (a_a : Word) :
    Keeps s (State.snoop t a_h a_a) := by
  unfold State.snoop
  repeat' first
    | with_reducible assumption
    | with_reducible apply State.modHart_keeps
    | with_reducible apply State.forEach_keeps
    | with_reducible apply Keeps.ite
    | with_reducible apply Keeps.dite
    | split
    | intro _

theorem State.presentScalar_keeps {s t : State} (hK : Keeps s t) (a_h : Hart) (a_addr : Word) (a_write : Bool)
    (a_wait : Nat → HartWait) :
    Keeps s (State.presentScalar t a_h a_addr a_write a_wait) := by
  unfold State.presentScalar
  repeat' first
    | with_reducible assumption
    | with_reducible apply State.modHart_keeps
    | with_reducible apply State.present_keeps
    | with_reducible apply Keeps.ite
    | with_reducible apply Keeps.dite
    | split
    | intro _

theorem State.load_keeps {s t : State} (hK : Keeps s t) (a_h : Hart) (a_op : LoadOp) (a_rd : BitVec 5) (a_addr :
    Word) (a_len : Nat) :
    Keeps s (State.load t a_h a_op a_rd a_addr a_len) := by
  unfold State.load
  repeat' first
    | with_reducible assumption
    | with_reducible apply State.trap_keeps
    | with_reducible apply State.readEffect_keeps
    | with_reducible apply State.readLs_keeps
    | with_reducible apply State.done_keeps
    | with_reducible apply State.presentScalar_keeps
    | with_reducible apply Keeps.ite
    | with_reducible apply Keeps.dite
    | split
    | intro _
    | (with_reducible refine Keeps.fst (by assumption) ?_)
    | (with_reducible exact HartState.setX_bank _ _ _)

theorem State.store_keeps {s t : State} (hK : Keeps s t) (a_h : Hart) (a_op : StoreOp) (a_addr : Word) (a_val :
    Word) (a_len : Nat) (a_met : Word) :
    Keeps s (State.store t a_h a_op a_addr a_val a_len a_met) := by
  unfold State.store
  repeat' first
    | with_reducible assumption
    | with_reducible apply State.trap_keeps
    | with_reducible apply State.writeReg_keeps
    | with_reducible apply State.mergeLs_keeps
    | with_reducible apply State.done_keeps
    | with_reducible apply State.snoop_keeps
    | with_reducible apply State.presentScalar_keeps
    | with_reducible apply Keeps.ite
    | with_reducible apply Keeps.dite
    | split
    | intro _
    | (with_reducible refine Keeps.fst (by assumption) ?_)
    | (with_reducible refine Keeps.ofMk rfl rfl rfl rfl rfl rfl rfl rfl rfl ?_)
    | (with_reducible exact HartState.setX_bank _ _ _)
    | rfl

theorem State.endLoad_keeps {s t : State} (hK : Keeps s t) (a_h : Hart) (a_op : LoadOp) (a_rd : BitVec 5) (a_addr :
    Word) (a_id : Nat) (a_len : Nat) :
    Keeps s (State.endLoad t a_h a_op a_rd a_addr a_id a_len) := by
  unfold State.endLoad
  repeat' first
    | with_reducible assumption
    | with_reducible apply State.trap_keeps
    | with_reducible apply State.readWord_keeps
    | with_reducible apply State.endAccess_keeps
    | with_reducible apply State.done_keeps
    | with_reducible apply Keeps.ite
    | with_reducible apply Keeps.dite
    | split
    | intro _
    | (with_reducible refine Keeps.fst (by assumption) ?_)
    | (with_reducible refine Keeps.ofMk rfl rfl rfl rfl rfl rfl rfl rfl rfl ?_)
    | (with_reducible exact HartState.setX_bank _ _ _)

theorem State.endStore_keeps {s t : State} (hK : Keeps s t) (a_h : Hart) (a_op : StoreOp) (a_addr : Word) (a_val :
    Word) (a_id : Nat) (a_len : Nat) :
    Keeps s (State.endStore t a_h a_op a_addr a_val a_id a_len) := by
  unfold State.endStore
  repeat' first
    | with_reducible assumption
    | with_reducible apply State.trap_keeps
    | with_reducible apply State.writeBytes_keeps
    | with_reducible apply State.endAccess_keeps
    | with_reducible apply State.done_keeps
    | with_reducible apply Keeps.ite
    | with_reducible apply Keeps.dite
    | split
    | intro _
    | (with_reducible refine Keeps.fst (by assumption) ?_)
    | (with_reducible refine Keeps.ofMk rfl rfl rfl rfl rfl rfl rfl rfl rfl ?_)
    | (with_reducible exact HartState.setX_bank _ _ _)
    | (simp only [HartState.setX_bank, HartState.writeCsr_bank]; done)
    | rfl
    | exact ⟨swf_sset _ _ _ _ (And.left (by assumption)), And.right (by assumption)⟩
    | exact ⟨And.left (by assumption), swf_sset _ _ _ _ (And.right (by assumption))⟩
    | exact swf_nil _
    | (with_reducible exact swf_ssetMany _ _ _ (by assumption))
    | (with_reducible exact swf_sset _ _ _ _ (by assumption))
    | dsimp only

theorem State.scalarLine_keeps {s t : State} (hK : Keeps s t) (a_h : Hart) (a_id : Nat) :
    Keeps s (State.scalarLine t a_h a_id) := by
  unfold State.scalarLine
  repeat' first
    | with_reducible assumption
    | with_reducible apply State.morRead_keeps
    | with_reducible apply State.morWrite_keeps
    | with_reducible apply State.data_keeps
    | with_reducible apply State.load_keeps
    | with_reducible apply State.store_keeps
    | with_reducible apply Keeps.ite
    | with_reducible apply Keeps.dite
    | split

theorem State.endScalar_keeps {s t : State} (hK : Keeps s t) (a_h : Hart) (a_id : Nat) :
    Keeps s (State.endScalar t a_h a_id) := by
  unfold State.endScalar
  repeat' first
    | with_reducible assumption
    | with_reducible apply State.takeDeadlock_keeps
    | with_reducible apply State.load_keeps
    | with_reducible apply State.store_keeps
    | with_reducible apply State.endLoad_keeps
    | with_reducible apply State.endStore_keeps
    | with_reducible apply Keeps.ite
    | with_reducible apply Keeps.dite
    | split

theorem State.atomic_keeps {s t : State} (hK : Keeps s t) (a_h : Hart) (a_w : Word) (a_len : Nat) :
    Keeps s (State.atomic t a_h a_w a_len) := by
  unfold State.atomic
  repeat' first
    | with_reducible assumption
    | with_reducible apply State.trap_keeps
    | with_reducible apply State.readLs_keeps
    | with_reducible apply State.writeLs_keeps
    | with_reducible apply State.done_keeps
    | with_reducible apply State.illegal_keeps
    | with_reducible apply State.snoop_keeps
    | with_reducible apply Keeps.ite
    | with_reducible apply Keeps.dite
    | split
    | intro _
    | (with_reducible refine Keeps.fst (by assumption) ?_)
    | (with_reducible exact HartState.setX_bank _ _ _)

theorem State.csrInstr_keeps {s t : State} (hK : Keeps s t) (a_h : Hart) (a_w : Word) (a_len : Nat) (a_met : Word) :
    Keeps s (State.csrInstr t a_h a_w a_len a_met) := by
  unfold State.csrInstr
  repeat' first
    | with_reducible assumption
    | with_reducible apply State.done_keeps
    | with_reducible apply State.illegal_keeps
    | with_reducible apply Keeps.ite
    | with_reducible apply Keeps.dite
    | split
    | intro _
    | (with_reducible refine Keeps.fst (by assumption) ?_)
    | (with_reducible refine Keeps.ofMk rfl rfl rfl rfl rfl rfl rfl rfl rfl ?_)
    | (simp only [HartState.setX_bank]; assumption)
    | (simp only [HartState.writeCsr_bank]; assumption)
    | (with_reducible exact HartState.setX_bank _ _ _)
    | (simp only [HartState.setX_bank, HartState.writeCsr_bank]; done)
    | rfl
    | exact ⟨swf_sset _ _ _ _ (And.left (by assumption)), And.right (by assumption)⟩
    | exact ⟨And.left (by assumption), swf_sset _ _ _ _ (And.right (by assumption))⟩
    | exact swf_nil _
    | (with_reducible exact swf_ssetMany _ _ _ (by assumption))
    | (with_reducible exact swf_sset _ _ _ _ (by assumption))
    | dsimp only

theorem State.waitingRead_keeps {s t : State} (hK : Keeps s t) (a_h : Hart) (a_num : BitVec 12) (a_rd : BitVec 5) :
    Keeps s (State.waitingRead t a_h a_num a_rd) := by
  unfold State.waitingRead
  repeat' first
    | with_reducible assumption
    | with_reducible apply State.done_keeps
    | with_reducible apply Keeps.ite
    | with_reducible apply Keeps.dite
    | split
    | intro _
    | (with_reducible refine Keeps.fst (by assumption) ?_)
    | (with_reducible exact HartState.setX_bank _ _ _)

theorem State.wfi_keeps {s t : State} (hK : Keeps s t) (a_h : Hart) :
    Keeps s (State.wfi t a_h) := by
  unfold State.wfi
  repeat' first
    | with_reducible assumption
    | with_reducible apply State.done_keeps
    | with_reducible apply Keeps.ite
    | with_reducible apply Keeps.dite
    | split
    | intro _
    | rfl

theorem State.ecall_keeps {s t : State} (hK : Keeps s t) (a_h : Hart) :
    Keeps s (State.ecall t a_h) := by
  unfold State.ecall
  repeat' first
    | with_reducible assumption
    | with_reducible apply State.modHart_keeps
    | with_reducible apply State.endOrder_keeps
    | with_reducible apply State.endCall_keeps
    | with_reducible apply State.trap_keeps
    | with_reducible apply Keeps.ite
    | with_reducible apply Keeps.dite
    | split
    | intro _
    | (with_reducible refine Keeps.fst (by assumption) ?_)
    | (with_reducible refine Keeps.ofMk rfl rfl rfl rfl rfl rfl rfl rfl rfl ?_)
    | (simp only [HartState.takeTrap_bank]; assumption)

theorem State.takeVfault_keeps {s t : State} (hK : Keeps s t) (a_h : Hart) :
    Keeps s (State.takeVfault t a_h) := by
  unfold State.takeVfault
  repeat' first
    | with_reducible assumption
    | with_reducible apply State.modHart_keeps
    | with_reducible apply State.extFault_keeps
    | with_reducible apply State.trap_keeps
    | with_reducible apply State.wfi_keeps
    | with_reducible apply Keeps.ite
    | with_reducible apply Keeps.dite
    | split
    | intro _
    | (with_reducible refine Keeps.fst (by assumption) ?_)
    | (simp only [HartState.takeTrap_bank]; assumption)

theorem State.privInstr_keeps {s t : State} (hK : Keeps s t) (a_h : Hart) (a_w : Word) :
    Keeps s (State.privInstr t a_h a_w) := by
  unfold State.privInstr
  repeat' first
    | with_reducible assumption
    | with_reducible apply State.modHart_keeps
    | with_reducible apply State.trap_keeps
    | with_reducible apply State.illegal_keeps
    | with_reducible apply State.wfi_keeps
    | with_reducible apply State.ecall_keeps
    | with_reducible apply Keeps.ite
    | with_reducible apply Keeps.dite
    | split
    | intro _
    | (with_reducible refine Keeps.fst (by assumption) ?_)
    | (simp only [HartState.mret_bank]; assumption)

theorem State.execute_keeps {s t : State} (hK : Keeps s t) (a_h : Hart) (a_w : Word) (a_raw : Word) (a_len : Nat)
    (a_met : Word) :
    Keeps s (State.execute t a_h a_w a_raw a_len a_met) := by
  unfold State.execute
  repeat' first
    | with_reducible assumption
    | with_reducible apply State.done_keeps
    | with_reducible apply State.jump_keeps
    | with_reducible apply State.illegal_keeps
    | with_reducible apply State.load_keeps
    | with_reducible apply State.store_keeps
    | with_reducible apply State.atomic_keeps
    | with_reducible apply State.csrInstr_keeps
    | with_reducible apply State.privInstr_keeps
    | with_reducible apply Keeps.ite
    | with_reducible apply Keeps.dite
    | split
    | intro _
    | (with_reducible refine Keeps.fst (by assumption) ?_)
    | (with_reducible refine Keeps.ofMk rfl rfl rfl rfl rfl rfl rfl rfl rfl ?_)
    | (with_reducible exact HartState.setX_bank _ _ _)
    | rfl

theorem State.executeBits_keeps {s t : State} (hK : Keeps s t) (a_h : Hart) (a_w : Word) (a_met : Word) :
    Keeps s (State.executeBits t a_h a_w a_met) := by
  unfold State.executeBits
  repeat' first
    | with_reducible assumption
    | with_reducible apply State.illegal_keeps
    | with_reducible apply State.execute_keeps
    | with_reducible apply Keeps.ite
    | with_reducible apply Keeps.dite
    | split
    | intro _
    | (with_reducible refine Keeps.fst (by assumption) ?_)
    | (with_reducible refine Keeps.ofMk rfl rfl rfl rfl rfl rfl rfl rfl rfl ?_)

theorem State.fetchHalf_keeps {s t : State} (hK : Keeps s t) (a_h : Hart) (a_a : Word) :
    Keeps s (State.fetchHalf t a_h a_a).1 := by
  unfold State.fetchHalf
  repeat' first
    | with_reducible assumption
    | split
    | dsimp only
    | with_reducible apply State.trap_keeps
    | with_reducible apply State.readLs_keeps
    | (with_reducible refine Keeps.fst (by assumption) ?_)

theorem State.fetchMore_keeps {s t : State} (hK : Keeps s t) (a_h : Hart) (a_a : Word) (a_y0 : Nat) (a_y1 : List
    (BitVec 16)) (a_y2 : (State → List (BitVec 16) → State)) (hk : ∀ u l, Keeps s u → Keeps s (a_y2 u l)):
    Keeps s (State.fetchMore t a_h a_a a_y0 a_y1 a_y2) := by
  induction a_y0 generalizing t a_a a_y1 with
  | zero =>
    unfold State.fetchMore
    repeat' first
      | with_reducible assumption
      | with_reducible apply ih
      | with_reducible apply hk
  | succ y0 ih =>
    unfold State.fetchMore
    repeat' first
      | with_reducible assumption
      | with_reducible apply ih
      | with_reducible apply hk
      | with_reducible apply State.trap_keeps
      | with_reducible apply State.fetchHalf_keeps
      | split
      | (with_reducible refine Keeps.fst (by assumption) ?_)

theorem State.fetchExecute_keeps {s t : State} (hK : Keeps s t) (a_h : Hart) (a_met : Word) :
    Keeps s (State.fetchExecute t a_h a_met) := by
  unfold State.fetchExecute
  repeat' first
    | with_reducible assumption
    | with_reducible apply State.issue_keeps
    | with_reducible apply State.executeBits_keeps
    | with_reducible apply State.fetchMore_keeps
    | with_reducible apply Keeps.ite
    | with_reducible apply Keeps.dite
    | split
    | intro _

theorem State.powerOffRequest_keeps {s t : State} (hK : Keeps s t) :
    Keeps s (State.powerOffRequest t) := by
  unfold State.powerOffRequest
  repeat' first
    | with_reducible assumption
    | with_reducible apply State.stopEngines_keeps
    | with_reducible apply Keeps.ite
    | (with_reducible refine Keeps.ofMk rfl rfl rfl rfl rfl rfl rfl rfl rfl ?_)

theorem State.powerDown_keeps {s t : State} (hK : Keeps s t) (a_rail : List (Fin 64)) :
    Keeps s (State.powerDown t a_rail) := by
  unfold State.powerDown
  repeat' first
    | with_reducible assumption
    | with_reducible apply State.restartEngine_keeps
    | with_reducible apply Keeps.ite
    | with_reducible apply Keeps.dite
    | split
    | intro _
    | (with_reducible refine Keeps.fst (by assumption) ?_)
    | (with_reducible refine Keeps.ofMk rfl rfl rfl rfl rfl rfl rfl rfl rfl ?_)

theorem State.powerOffAck_keeps {s t : State} (hK : Keeps s t) (a_timeout : Bool) (a_rail : List (Fin 64)) :
    Keeps s (State.powerOffAck t a_timeout a_rail) := by
  unfold State.powerOffAck
  repeat' first
    | with_reducible assumption
    | with_reducible apply State.powerDown_keeps
    | with_reducible apply Keeps.ite

theorem State.tearWord_keeps {s t : State} (hK : Keeps s t) (a_f : Fin 64) (a_w : IceWrite) :
    Keeps s (State.tearWord t a_f a_w) := by
  unfold State.tearWord
  repeat' first
    | with_reducible assumption
    | with_reducible apply State.setCell_keeps
    | with_reducible apply State.data_keeps
    | with_reducible apply Keeps.ite
    | with_reducible apply Keeps.dite
    | split

theorem State.tear_keeps {s t : State} (hK : Keeps s t) :
    Keeps s (State.tear t) := by
  unfold State.tear
  repeat' first
    | with_reducible assumption
    | with_reducible apply State.forEach_keeps
    | with_reducible apply State.fresh_keeps
    | with_reducible apply State.tearWord_keeps
    | with_reducible apply Keeps.ite
    | with_reducible apply Keeps.dite
    | split
    | intro _

theorem State.powerLoss_keeps {s t : State} (hK : Keeps s t) (a_rail : List (Fin 64)) :
    Keeps s (State.powerLoss t a_rail) := by
  unfold State.powerLoss
  repeat' first
    | with_reducible assumption
    | with_reducible apply State.powerDown_keeps
    | with_reducible apply State.tear_keeps

theorem mem_insertAccess {a x : Access} {l : List Access} (h : x ∈ insertAccess a l) : x = a ∨ x ∈ l := by
  induction l with
  | nil => exact .inl (by simpa [insertAccess] using h)
  | cons b r ih =>
    unfold insertAccess at h
    split at h
    · simpa using h
    · rcases List.mem_cons.mp h with rfl | h
      · exact .inr (List.mem_cons_self ..)
      · exact (ih h).imp_right (List.mem_cons_of_mem _)

theorem mem_orderedAccesses {x : Access} {l : List Access} (h : x ∈ l.foldr insertAccess []) : x ∈ l := by
  induction l with
  | nil => exact h
  | cons b r ih =>
    rcases mem_insertAccess h with rfl | h
    · exact List.mem_cons_self ..
    · exact List.mem_cons_of_mem _ (ih h)

theorem State.orderTogether_keeps {s t : State} (hK : Keeps s t) (a_n : Nat) : Keeps s (State.orderTogether t a_n)
    := by
  refine State.modSb_keeps hK _ fun h a ha => ?_
  rcases List.mem_append.mp ha with ha | ha
  · exact h a (List.mem_append_left _ ha)
  · rcases List.mem_append.mp ha with ha | ha
    · exact h a (List.mem_append_right _ (List.mem_of_mem_take ha))
    · exact h a (List.mem_append_right _ (List.mem_of_mem_drop (mem_orderedAccesses ha)))

theorem State.sbAllocate_keeps {s t : State} (hK : Keeps s t) :
    Keeps s (State.sbAllocate t) := by
  unfold State.sbAllocate
  repeat' first
    | with_reducible assumption
    | with_reducible apply State.allocate_keeps
    | with_reducible apply State.commitEffect_keeps
    | with_reducible apply State.drive_keeps
    | with_reducible apply State.pruneCycles_keeps
    | with_reducible apply State.scalarLine_keeps
    | with_reducible apply Keeps.ite
    | with_reducible apply Keeps.dite
    | split

theorem State.accessRetire_keeps {s t : State} (hK : Keeps s t) (a_id : Nat) :
    Keeps s (State.accessRetire t a_id) := by
  unfold State.accessRetire
  repeat' first
    | with_reducible assumption
    | with_reducible apply State.instructionRetire_keeps
    | with_reducible apply State.fieldSparing_keeps
    | with_reducible apply State.imageRetire_keeps
    | with_reducible apply State.setRetire_keeps
    | with_reducible apply State.pruneCycles_keeps
    | with_reducible apply State.arrivalLanded_keeps
    | with_reducible apply State.endScalar_keeps
    | with_reducible apply Keeps.ite
    | with_reducible apply Keeps.dite
    | split

theorem State.idle_keeps {s t : State} (hK : Keeps s t) :
    Keeps s (State.idle t) := by
  unfold State.idle
  repeat' first
    | with_reducible assumption
    | with_reducible apply State.advanceTo_keeps
    | with_reducible apply Keeps.ite

end Sys2Proof.Machine
end

