-- ==== Sys2Proof/WellFormed.lean ====
section
/-! DEFINITION. Which commands are well formed: the bounds that the spec gives their operands and that their types
do not carry. A command outside them spells nothing that can reach the engine. -/

namespace Sys2Proof

/-- No element occurs twice. -/
def distinct {α : Type} [BEq α] : List α → Bool
  | [] => true
  | a :: r => !r.contains a && distinct r

/-- A list of failed rows of a self-test names banks and rows that exist (R278). -/
def rowsExist (c : EngineConfig) (l : List (Nat × Nat)) : Bool :=
  l.all fun r => decide (r.1 < Config.banks c) && decide (r.2 < Config.levels c / 16)

/-- A list of failed spare rows names banks and spare rows that exist (R278). -/
def sparesExist (c : EngineConfig) (l : List (Nat × Nat)) : Bool :=
  l.all fun r => decide (r.1 < Config.banks c) && decide (r.2 < Config.spareRows)

/-- The operands of a command are inside the bounds of its rule, on a configuration. -/
def Instr.wellFormed (c : EngineConfig) : Instr → Bool
  -- the shared port, operand and pending writes of a step that lost against this one come from other harts (R431)
  | .tileLease r _ lost => distinct lost && lost.all fun h => decide (h.val ≠ r.val)
  | .fbConfig r _ _ _ lost => distinct lost && lost.all fun h => decide (h.val ≠ r.val)
  | .registerWrite r _ _ lost _ => distinct lost && lost.all fun h => decide (h.val ≠ r.val)
  | .floeCommit r _ lost | .floeRead r _ lost => distinct lost && !lost.contains r
  | .windowOpen r _ lost | .windowClose r _ lost | .windowCredit r _ lost | .windowRead r _ lost =>
    distinct lost && !lost.contains r
  -- a result tile has at most 64 by 64 words (R232), its marks name some of them
  | .resultTransfer _ payload slush => decide (payload.length ≤ 4096) && slush.all fun i => decide (i < payload.length)
  -- a self-test names rows that exist
  | .segmentSelftestEnd f b | .icefieldSelftestEnd f b => rowsExist c f && sparesExist c b
  -- a line address is a multiple of 64 bytes (R355)
  | .fabricReadLine _ a _ => decide (a.toNat % 64 = 0)
  -- a call names harts, tiles and channels once each (R415)
  | .ordExtCall _ hs ts cs fs _ => distinct hs && distinct ts && distinct cs && distinct fs
  -- one slack for each region of the configuration (R444)
  | .calibPeriod sl _ => decide (sl.length = Config.regions c)
  | .guardEvent r sl => decide (r.val < Config.regions c) && decide (sl < 64)
  -- a fault's code is one of R468
  | .uncorrectableFault code _ _ _ _ => decide (1 ≤ code.toNat) && decide (code.toNat ≤ 8)
  -- every value of the types is in bounds
  | .mov .. | .movX .. | .iotaX .. | .setxX .. | .ldX .. | .stX .. | .stXAdd .. | .arithAdd .. | .arithSub ..
  | .arithMul .. | .arithAbs .. | .arithNeg .. | .arithFms .. | .arithFma .. | .arithX .. | .maxminMax ..
  | .maxminMin .. | .maxminX .. | .cvt .. | .sfuExp2 .. | .sfuLog2 .. | .sfuRcp .. | .sfuRsq .. | .sfuTanh ..
  | .sfuLogistic .. | .sfuErf .. | .sfuExp .. | .cmp .. | .cmpX .. | .pany .. | .pall .. | .pand .. | .por ..
  | .pandn .. | .pxor .. | .pltX .. | .rsum .. | .rmax .. | .segmentedReduce .. | .rdot .. | .rarg .. | .rowb ..
  | .colb .. | .raccClr .. | .raccSum .. | .raccSsq .. | .raccMax .. | .rdsum .. | .rdmax .. | .rdcnt .. | .rdlse ..
  | .softmax .. | .logsoftmax .. | .rmsnorm .. | .layernorm .. | .trans .. | .perm .. | .gatherXRow ..
  | .gatherXElement .. | .scatterXRowWrite .. | .scatterXElementWrite .. | .scatterXRowAdd ..
  | .scatterXElementAdd .. | .compact .. | .expand .. | .vsyncHarts .. | .vsyncIcefield .. | .probe ..
  | .mpruneBrick .. | .mpruneRow .. | .mpruneNm .. | .mpruneThresh .. | .mgrowScore .. | .mgrowThresh ..
  | .mgrowRand .. | .mapply .. | .mpack .. | .munpack .. | .mtrans .. | .sort .. | .merge .. | .topk .. | .unique ..
  | .isect .. | .hist .. | .route .. | .vectorAccept | .instructionRetire .. | .instructionReplay | .vfault ..
  | .rv32Instruction .. | .ecall .. | .wfi .. | .wfiWake .. | .scalarLoad .. | .scalarStore .. | .summaryRead ..
  | .vflagsRead .. | .mquotaRead .. | .leaseEffect .. | .courseStart .. | .courseStop .. | .courseDrop ..
  | .courseBegin .. | .courseComplete | .operandTransfer | .b00Stack .. | .b01Running .. | .b02Header .. | .b03Stretcher ..
  | .b04Soldier .. | .b05Flemish .. | .b06English .. | .b07Dutch .. | .b08Monk .. | .b09Sailor .. | .b10Rowlock .. | .b11Garden ..
  | .b12Basket .. | .b13Quoin .. | .b14Coping .. | .b15Lintel .. | .peerTimeout | .floeCommitEffect | .segmentMelt ..
  | .revivalRampEnd | .segmentFillEnd | .scrubVisit | .correctedWriteback | .fieldSparing | .sbAllocate ..
  | .accessRetire .. | .drfGo .. | .drfRearm .. | .drfResume .. | .drfStop .. | .drfOwn .. | .fbPost ..
  | .fbRelease .. | .descriptorSetFetch .. | .fabricWriteResponse .. | .setRetire .. | .shadowEffect ..
  | .channelHalt .. | .channelStopped .. | .slotGrant .. | .indexQueueResume .. | .deadlock .. | .moraineLine ..
  | .windowCloseEffect .. | .nbrSend .. | .nbrSendStop .. | .sendDescriptorStart .. | .sendComplete .. | .data ..
  | .arrivalLanded .. | .ack .. | .refuse .. | .grant .. | .revoke .. | .helloMsg .. | .echo .. | .echoTimeout ..
  | .ackTimer .. | .resendTimeout .. | .retryResend .. | .helloTimer .. | .portSilence .. | .portDownCmd ..
  | .portRetryCmd .. | .hodIprodAdvance .. | .hodOprodAdvance .. | .hodScan .. | .ordHello | .ordKill | .ordKillDrained
  | .ordRelease | .ordHalt | .ordRun | .ordCalib | .ordPageDone .. | .pageTimeout .. | .ordLoadExt ..
  | .extVerified .. | .ordDropExt .. | .ordObssel .. | .ordFloeSet .. | .ordWeightPush .. | .ordAttnFwd ..
  | .ordAttnBwd .. | .ordMatmul .. | .ordMoeRoute .. | .ordMoeCombine .. | .ordMaskMaint .. | .ordSample ..
  | .ordScore .. | .ordRlLoss .. | .ordElemwise .. | .ordReduce .. | .ordSortset .. | .ordMove .. | .ordWindow ..
  | .ordFence | .ordIceRead .. | .ordIceWrite .. | .ordRegRead .. | .ordRegWrite .. | .ordStatus | .hctlHalt ..
  | .hctlRun .. | .evset .. | .timerExpiry .. | .paceWindow .. | .paceClear .. | .calTap .. | .obsSelect .. | .reset ..
  | .powerOffRequest | .powerOffAck .. | .powerLoss .. | .recoveryDrained | .laneRampEnd .. | .laneSelftestEnd ..
  | .laneGroupRejoin .. | .recordRead .. | .recordTimeout .. | .localStoreFillEnd | .startupLaneTestEnd ..
  | .icefieldFillEnd | .firmwareDelivered .. | .fwRefused .. | .keystoneStart | .fwready .. | .neighbourWaitEnd ..
  | .operandCredit | .localStoreScrub | .eventCounterLowRead .. => true

end Sys2Proof
end

