-- ==== Sys2Proof/Tests/Slice0.lean ====
section
/-! SUPPORT. The model's own tests: ill-formed commands are refused, the worked examples of the spec come out as it
prints them, and every statement with hypotheses has a state and operands that meet them all. -/

open Sys2Proof Sys2Proof.Machine

namespace Sys2Proof.Tests

-- one theorem after the other: each runs a few kernel evaluations, and no thread is needed for each
set_option Elab.async false

/-! ## Ill-formed commands are refused -/

theorem test_wf_lost_harts :
    (Instr.tileLease 3 0 [1, 2]).wellFormed .c3l = true ∧ (Instr.tileLease 3 0 [3]).wellFormed .c3l = false ∧
    (Instr.fbConfig 3 0 1 1 [3]).wellFormed .c3l = false ∧ (Instr.registerWrite 3 (.reg 0x1074) 0 [3] 0).wellFormed .c3l = false ∧
    (Instr.registerWrite 3 (.reg 0x1074) 0 [1, 1] 0).wellFormed .c3l = false := by decide
theorem test_wf_lost_readers :
    (Instr.floeCommit 3 0 [16]).wellFormed .c3l = true ∧ (Instr.floeCommit 3 0 [3]).wellFormed .c3l = false ∧
    (Instr.floeRead 3 0 [3]).wellFormed .c3l = false ∧ (Instr.windowOpen 3 0 [3]).wellFormed .c3l = false ∧
    (Instr.windowClose 3 0 [3]).wellFormed .c3l = false ∧ (Instr.windowCredit 3 0 [3]).wellFormed .c3l = false ∧
    (Instr.windowRead 3 0 [3]).wellFormed .c3l = false := by decide
theorem test_wf_result_marks :
    (Instr.resultTransfer 0x14 [1] [0]).wellFormed .c3l = true ∧ (Instr.resultTransfer 0x14 [1] [1]).wellFormed .c3l = false := by
  decide
theorem test_wf_rows :
    (Instr.segmentSelftestEnd [(1023, 1023)] [(0, 31)]).wellFormed .c3l = true ∧
    (Instr.segmentSelftestEnd [(1024, 0)] []).wellFormed .c3l = false ∧
    (Instr.icefieldSelftestEnd [] [(0, 32)]).wellFormed .c3l = false := by decide
theorem test_wf_line_address :
    (Instr.fabricReadLine 0 0x1040 (.fail .data)).wellFormed .c3l = true ∧
    (Instr.fabricReadLine 0 0x1004 (.fail .data)).wellFormed .c3l = false := by decide
theorem test_wf_ext_call :
    (Instr.ordExtCall 9 [2, 3] [4] [5] [] 0).wellFormed .c3l = true ∧ (Instr.ordExtCall 9 [2, 2] [4] [5] [] 0).wellFormed .c3l = false ∧
    (Instr.ordExtCall 9 [2] [4, 4] [5] [] 0).wellFormed .c3l = false ∧ (Instr.ordExtCall 9 [2] [4] [5, 5] [] 0).wellFormed .c3l = false ∧
    (Instr.ordExtCall 9 [2] [4] [5] [6, 6] 0).wellFormed .c3l = false := by decide
theorem test_wf_regions :
    (Instr.calibPeriod [] []).wellFormed .c3l = false ∧ (Instr.guardEvent 0 64).wellFormed .c3l = false ∧
    (Instr.guardEvent 34 63).wellFormed .c3l = true ∧ (Instr.guardEvent 34 0).wellFormed .c3s = false := by decide
theorem test_wf_fault_code :
    (Instr.uncorrectableFault 8 0 0 0 0).wellFormed .c3l = true ∧ (Instr.uncorrectableFault 0 0 0 0 0).wellFormed .c3l = false ∧
    (Instr.uncorrectableFault 9 0 0 0 0).wellFormed .c3l = false := by decide

/-- No row of the table has bits, so no word spells a command. -/
theorem test_no_word_spells_a_command (n w : Nat) : decodeTableWord n w = none := rfl

/-! ## States and operands that meet the hypotheses of the statements -/

/-- A started engine: hart 0 runs in machine mode, every floe is unused. -/
def live : State :=
  { State.reset with
    harts := vset State.reset.harts 0 { halted := false }
    boot := { stage := 10, fwready := true, ready := true }
    mortar := { opCredits := 4 } }

/-- `live` with hart 0 in user mode. -/
def liveU : State := live.modHart 0 fun t => { t with mode := .u }

/-- A tile whose first container holds `v`. -/
def tileOf (v : Word) : Tile := { data := [(0, v.setWidth 33)], vr := 1, vc := 1, lease := .exclusive }

/-- `live` with T1 to T3 leased to hart 0: T1 holds 1.0, T2 holds 2.0, T3 holds 1.0. -/
def liveX : State :=
  { live with tiles := vset (vset (vset live.tiles 1 (tileOf 0x3F800000)) 2 (tileOf 0x40000000)) 3 (tileOf 0x3F800000) }

/-- T3 = T1 + T2 in one element. -/
def addArgs : XArgs := { td := 3, ta := 1, tb := 2, count := 1 }

/-- The instruction of `addArgs`. -/
def addX : XInstr := { op := 0x07, fn := 0, a := addArgs }

/-- The same instruction accepted. -/
def addF : Inflight := { hart := 0, e := { x := addX }, predv := BitVec.allOnes 256, accepted := 1, occ := 1, done := 3, groups := [2] }

/-- `liveX` with the addition accepted and not retired. -/
def liveF : State := { liveX with vu := { inflight := [addF], busyUntil := 1 } }

/-- `liveX` with a full vector queue, and with one entry. -/
def liveQ (n : Nat) : State := liveX.modHart 0 fun t => { t with vqueue := List.replicate n { x := addX } }

/-- The front of a queue. -/
def liveP (l : List Instr) : State := { liveX with pending := l }

theorem witness_step_runs_the_front_command_1 : ∃ (c : Instr) (rest : List Instr) (s : State),
    s.pending = c :: rest :=
  ⟨.wfi 0, [.ecall 0], liveP [.wfi 0, .ecall 0], by decide +kernel⟩

theorem witness_idle_step_advances_the_pace_1 : ∃ (s : State),
    s.pending = [] ∧
    s.powered = true :=
  ⟨live, by decide +kernel⟩

theorem witness_xcalad_instruction_enters_its_queue_1 : ∃ (c : Instr) (h : Hart) (x : XInstr) (k : XKind) (s : State),
    issues c = some (h, x) ∧
    s.canAct (Hart.reader h) = true ∧
    xcheck h (s.hart h).csr.mparam (s.hart h).csr.xarg ((s.hart h).xcScalar x) s.tiles x = .ok k ∧
    (s.hart h).vqueue.length < 4 :=
  ⟨.arithAdd 0 addArgs, 0, addX, .arith .add false, liveQ 3, by decide +kernel⟩

theorem witness_decode_fault_traps_and_a_full_queue_stalls_1 : ∃ (c : Instr) (h : Hart) (x : XInstr) (code : Nat) (s : State),
    issues c = some (h, x) ∧
    s.canAct (Hart.reader h) = true ∧
    xcheck h (s.hart h).csr.mparam (s.hart h).csr.xarg ((s.hart h).xcScalar x) s.tiles x = .error code ∧
    (s.hart h).vqueue.length < 4 :=
  ⟨.arithAdd 0 addArgs, 0, addX, 4, live, by decide +kernel⟩

theorem witness_decode_fault_traps_and_a_full_queue_stalls_2 : ∃ (c : Instr) (h : Hart) (x : XInstr) (s : State),
    issues c = some (h, x) ∧
    4 ≤ (s.hart h).vqueue.length :=
  ⟨.arithAdd 0 addArgs, 0, addX, liveQ 4, by decide +kernel⟩

theorem witness_vector_unit_takes_turns_1 : ∃ (h : Hart) (k : Nat) (e : XEntry) (s : State),
    (s.mayAccept = true ∧
    k < 16 ∧
    h.val = (s.vu.rr.val + k) % 16) ∧
    (∀ (i : Nat) (g : Hart), i < k → g.val = (s.vu.rr.val + i) % 16 → s.readyHead g = none) ∧
    s.readyHead h = some e ∧
    s.bondReady = false :=
  ⟨0, 0, { x := addX }, liveQ 1, by decide +kernel, fun i _ h _ => absurd h (Nat.not_lt_zero i), by decide +kernel⟩

theorem witness_retirement_gives_the_whole_effect_1 : ∃ (h : Hart) (f : Inflight) (mem : Store (BitVec 33)) (s u : State),
    (s.powered = true ∧
    s.err.stat = .running ∧
    s.oldest h = some f ∧
    s.nextToComplete h = some f ∧
    (∀ g ∈ s.vu.inflight, g ≠ f → g.hart = h → g.result = none) ∧
    s.vu.inflight.Nodup ∧
    (s.xinOf f).upsetRead = none ∧
    f.mor = false ∧
    s.fieldCanonical ∧
    (∀ id, f.sb = some id → s.firnFor id = none)) ∧
    u = s.advanceTo f.done ∧
    u.readWords (Src.vector h) (f.sb.getD 0) f.e.floe (u.xinOf f).readWords = (u, mem) ∧
    let e : XEffect := if f.e.x.a.count = 0 then {} else xEffect { u.xinOf f with mem }
    ((e.ice.filterMap fun w => cellOf s f.e.floe w.word).Nodup) :=
  ⟨0, addF, [], liveF, liveF.advanceTo 3, by decide +kernel, rfl, rfl, by decide +kernel⟩

/-- Lease word: T3 to hart 0, exclusive. -/
def leaseW : Word := 0x00010003

/-- `liveF` with a lease of T3 waiting. -/
def liveW : State :=
  { liveX.modHart 0 (fun t => { t with wait := .lease }) with leaseQ := [{ who := 0, tile := 3, hart := 0, mode := .exclusive }] }

theorem witness_tile_leases_change_when_free_1 : ∃ (r : Reader) (w : Word) (m : LeaseMode) (s : State),
    s.canAct r = true ∧
    leaseMode (w.extractLsb' 16 2) = some m ∧
    s.privileged r = false :=
  ⟨0, leaseW, .exclusive, liveU, by decide +kernel⟩

theorem witness_tile_leases_change_when_free_2 : ∃ (r : Reader) (w : Word) (lost : List Hart) (m : LeaseMode) (s : State),
    s.canAct r = true ∧
    leaseMode (w.extractLsb' 16 2) = some m ∧
    s.privileged r = true ∧
    stands r (s.reaching r lost) = false :=
  ⟨3, leaseW, [5], .exclusive, { live with harts := vset (vset live.harts 5 { halted := false }) 3 { halted := false } }, by decide +kernel⟩

theorem witness_tile_leases_change_when_free_3 : ∃ (r : Reader) (w : Word) (lost : List Hart) (m : LeaseMode) (s : State),
    s.canAct r = true ∧
    leaseMode (w.extractLsb' 16 2) = some m ∧
    s.privileged r = true ∧
    stands r (s.reaching r lost) = true ∧
    s.tileBusy (w.extractLsb' 0 6).toFin = false ∧
    (∀ q ∈ s.leaseQ, q.tile ≠ (w.extractLsb' 0 6).toFin) :=
  ⟨16, leaseW, [1], .exclusive, { live with harts := vset live.harts 1 { halted := false } }, by decide +kernel⟩

theorem witness_tile_leases_change_when_free_4 : ∃ (r : Reader) (w : Word) (lost : List Hart) (m : LeaseMode) (s : State) (h : Hart),
    s.canAct r = true ∧
    leaseMode (w.extractLsb' 16 2) = some m ∧
    r = Hart.reader h ∧
    s.privileged r = true ∧
    stands r (s.reaching r lost) = true ∧
    s.tileBusy (w.extractLsb' 0 6).toFin = true :=
  ⟨0, leaseW, [], .exclusive, liveF, 0, by decide +kernel⟩

theorem witness_tile_leases_change_when_free_5 : ∃ (t : TileReg) (s : State),
    s.powered = true ∧
    s.tileBusy t = true :=
  ⟨3, liveF, by decide +kernel⟩

theorem witness_tile_leases_change_when_free_6 : ∃ (t : TileReg) (h : Hart) (q : LeaseReq) (s : State),
    s.powered = true ∧
    s.tileBusy t = false ∧
    s.leaseQ = [q] ∧
    q.tile = t ∧
    q.who = Hart.reader h ∧
    (s.hart h).wait = .lease ∧
    (s.hart h).dlock = none :=
  ⟨3, 0, { who := 0, tile := 3, hart := 0, mode := .exclusive }, liveW, by decide +kernel⟩

/-- `liveF` without a spare lane group. -/
def liveN : State := liveF.modLane 16 fun l => { l with state := .retired }

/-- `live` with lane group 2 in a state. -/
def liveL (l : LaneGroup) : State := live.modLane 2 fun _ => l

theorem witness_residue_failure_fences_and_the_group_comes_back_1 : ∃ (h : Hart) (f : Inflight) (g k : Fin 17) (s : State),
    s.powered = true ∧
    s.err.stat = .running ∧
    s.nextToComplete h = some f ∧
    (s.xinOf f).upsetRead = none ∧
    (s.xinOf f).delivers = true ∧
    g ∈ f.groups ∧
    (s.err.lanes.get g).state = .active ∧
    s.readySpare = some k ∧
    (s.err.lanes.get g).fences < 2 ∧
    s.boot.ready = true :=
  ⟨0, addF, 2, 16, liveF, by decide +kernel⟩

theorem witness_residue_failure_fences_and_the_group_comes_back_2 : ∃ (h : Hart) (f : Inflight) (g : Fin 17) (s : State),
    s.powered = true ∧
    s.err.stat = .running ∧
    s.nextToComplete h = some f ∧
    (s.xinOf f).upsetRead = none ∧
    (s.xinOf f).delivers = true ∧
    g ∈ f.groups ∧
    (s.err.lanes.get g).state = .active ∧
    s.readySpare = none ∧
    (s.err.lanes.get g).fences < 2 ∧
    8 ≤ s.boot.stage.toNat :=
  ⟨0, addF, 2, liveN, by decide +kernel⟩

theorem witness_residue_failure_fences_and_the_group_comes_back_3 : ∃ (h : Hart) (f : Inflight) (r q : TileReg) (n : Fin 4096) (m : Nat) (s : State),
    s.powered = true ∧
    s.err.stat = .running ∧
    8 ≤ s.boot.stage.toNat ∧
    s.nextToComplete h = some f ∧
    ((s.upset (some (.container r n))).xinOf f).upsetRead = some (q, m) :=
  ⟨0, addF, 1, 1, 0, 0, liveF, by decide +kernel⟩

theorem witness_residue_failure_fences_and_the_group_comes_back_4 : ∃ (s : State),
    s.powered = true ∧
    s.err.stat = .running ∧
    (s.vu.fence.isSome ∨ (∃ f ∈ s.vu.inflight, f.withheld = true)) :=
  ⟨{ liveF with vu := { liveF.vu with fence := some 2, inflight := [{ addF with withheld := true }] } }, by decide +kernel⟩

theorem witness_residue_failure_fences_and_the_group_comes_back_5 : ∃ (g : Fin 17) (s : State),
    s.powered = true ∧
    (s.err.lanes.get g).state = .fenced :=
  ⟨2, liveL { state := .fenced, logical := 2 }, by decide +kernel⟩

theorem witness_residue_failure_fences_and_the_group_comes_back_6 : ∃ (g : Fin 17) (s : State),
    s.powered = true ∧
    (s.err.lanes.get g).state = .testing ∧
    (s.err.lanes.get g).tested = false :=
  ⟨2, liveL { state := .testing, logical := 2 }, by decide +kernel⟩

theorem witness_residue_failure_fences_and_the_group_comes_back_7 : ∃ (g : Fin 17) (s : State) (n : BitVec 4) (v : Nat),
    s.powered = true ∧
    (s.err.lanes.get g).state = .testing ∧
    (s.err.lanes.get g).tested = true ∧
    5 ≤ v ∧
    v ≤ 7 ∧
    (s.err.lanes.get g).home = some n ∧
    (∀ k, (s.err.lanes.get k).state = .active → (s.err.lanes.get k).logical ≠ n) :=
  ⟨2, liveL { state := .testing, logical := 2, tested := true, home := some 2 }, 2, 5, by decide +kernel⟩

theorem witness_residue_failure_fences_and_the_group_comes_back_8 : ∃ (g : Fin 17) (s : State) (v : Nat),
    s.powered = true ∧
    (s.err.lanes.get g).state = .testing ∧
    (s.err.lanes.get g).tested = true ∧
    5 ≤ v ∧
    v ≤ 7 ∧
    (s.err.lanes.get g).home = none :=
  ⟨2, liveL { state := .testing, logical := 2, tested := true }, 7, by decide +kernel⟩

/-- What the addition reads. -/
def addIn (k : XKind) : XIn := { k, e := { x := addX }, pred := BitVec.allOnes 256, quota := 0, ts := liveX.tiles, hart := liveX.hart 0 }

theorem witness_element_results_read_back_1 : ∃ (x : XIn) (i : Nat),
    (∀ t : TileReg, swf 0 (x.ts.get t).data = true) ∧
    x.a.td.toNat + x.od.n ≤ 64 ∧
    i < x.od.size ∧
    x.count ≤ x.od.size ∧
    i ∉ x.idx ∧
    (x.k = .mov ∨ x.k = .cvt ∨ x.k = .movX ∨ x.k = .iota ∨ (∃ o s, x.k = .arith o s) ∨ (∃ m s, x.k = .maxmin m s) ∨
      (∃ f, x.k = .sfu f) ∨ (∃ p s, x.k = .cmp p s) ∨ (∃ k, x.k = .rowb k ∨ x.k = .colb k ∨ x.k = .norm k) ∨ x.k = .perm) :=
  ⟨addIn .mov, 1, by refine ⟨by decide +kernel, by decide +kernel, by decide +kernel, by decide +kernel, by decide +kernel, Or.inl rfl⟩⟩

theorem witness_element_results_read_back_2 : ∃ (x : XIn) (i : Nat),
    (∀ t : TileReg, swf 0 (x.ts.get t).data = true) ∧
    x.a.td.toNat + x.od.n ≤ 64 ∧
    i < x.od.size ∧
    x.count ≤ x.od.size ∧
    i ∈ x.idx ∧
    x.k = .mov :=
  ⟨addIn .mov, 0, by decide +kernel⟩

theorem witness_element_results_read_back_3 : ∃ (x : XIn) (i : Nat),
    (∀ t : TileReg, swf 0 (x.ts.get t).data = true) ∧
    x.a.td.toNat + x.od.n ≤ 64 ∧
    i < x.od.size ∧
    x.count ≤ x.od.size ∧
    i ∈ x.idx ∧
    x.k = .movX :=
  ⟨addIn .movX, 0, by decide +kernel⟩

theorem witness_element_results_read_back_4 : ∃ (x : XIn) (i : Nat),
    (∀ t : TileReg, swf 0 (x.ts.get t).data = true) ∧
    x.a.td.toNat + x.od.n ≤ 64 ∧
    i < x.od.size ∧
    x.count ≤ x.od.size ∧
    i ∈ x.idx ∧
    x.k = .iota :=
  ⟨addIn .iota, 0, by decide +kernel⟩

theorem witness_element_results_read_back_5 : ∃ (x : XIn) (i : Nat),
    (∀ t : TileReg, swf 0 (x.ts.get t).data = true) ∧
    x.a.td.toNat + x.od.n ≤ 64 ∧
    i < x.od.size ∧
    x.count ≤ x.od.size ∧
    i ∈ x.idx ∧
    x.k = .cvt :=
  ⟨addIn .cvt, 0, by decide +kernel⟩

theorem witness_element_results_read_back_6 : ∃ (x : XIn) (i : Nat) (f : Sfu),
    (∀ t : TileReg, swf 0 (x.ts.get t).data = true) ∧
    x.a.td.toNat + x.od.n ≤ 64 ∧
    i < x.od.size ∧
    x.count ≤ x.od.size ∧
    i ∈ x.idx ∧
    x.k = .sfu f :=
  ⟨addIn (.sfu .exp2), 0, .exp2, by decide +kernel⟩

theorem witness_element_results_read_back_7 : ∃ (x : XIn) (i : Nat) (o : EOp),
    (∀ t : TileReg, swf 0 (x.ts.get t).data = true) ∧
    x.a.td.toNat + x.od.n ≤ 64 ∧
    i < x.od.size ∧
    x.count ≤ x.od.size ∧
    i ∈ x.idx ∧
    x.k = .arith o false ∧
    (o = .add ∨ o = .sub ∨ o = .mul) :=
  ⟨addIn (.arith .add false), 0, .add, by decide +kernel⟩

theorem witness_element_results_read_back_8 : ∃ (x : XIn) (i : Nat) (o : EOp),
    (∀ t : TileReg, swf 0 (x.ts.get t).data = true) ∧
    x.a.td.toNat + x.od.n ≤ 64 ∧
    i < x.od.size ∧
    x.count ≤ x.od.size ∧
    i ∈ x.idx ∧
    x.k = .arith o false ∧
    (o = .fma ∨ o = .fms) :=
  ⟨addIn (.arith .fma false), 0, .fma, by decide +kernel⟩

theorem witness_element_results_read_back_9 : ∃ (x : XIn) (i : Nat) (o : EOp),
    (∀ t : TileReg, swf 0 (x.ts.get t).data = true) ∧
    x.a.td.toNat + x.od.n ≤ 64 ∧
    i < x.od.size ∧
    x.count ≤ x.od.size ∧
    i ∈ x.idx ∧
    x.k = .arith o true ∧
    (o = .add ∨ o = .sub ∨ o = .mul) :=
  ⟨addIn (.arith .mul true), 0, .mul, by decide +kernel⟩

theorem witness_element_results_read_back_10 : ∃ (x : XIn) (i : Nat) (o : EOp) (v : Bool),
    (∀ t : TileReg, swf 0 (x.ts.get t).data = true) ∧
    x.a.td.toNat + x.od.n ≤ 64 ∧
    i < x.od.size ∧
    x.count ≤ x.od.size ∧
    i ∈ x.idx ∧
    x.k = .arith o v ∧
    (o = .abs ∨ o = .neg) :=
  ⟨addIn (.arith .neg false), 0, .neg, false, by decide +kernel⟩

theorem witness_element_results_read_back_11 : ∃ (x : XIn) (i p : Nat) (v : Bool),
    (∀ t : TileReg, swf 0 (x.ts.get t).data = true) ∧
    x.a.td.toNat + x.od.n ≤ 64 ∧
    i < x.od.size ∧
    x.count ≤ x.od.size ∧
    i ∈ x.idx ∧
    x.k = .cmp p v :=
  ⟨addIn (.cmp 2 true), 0, 2, true, by decide +kernel⟩

theorem witness_element_results_read_back_12 : ∃ (x : XIn) (i : Nat) (m : Bool),
    (∀ t : TileReg, swf 0 (x.ts.get t).data = true) ∧
    x.a.td.toNat + x.od.n ≤ 64 ∧
    i < x.od.size ∧
    x.count ≤ x.od.size ∧
    i ∈ x.idx ∧
    x.k = .maxmin m true :=
  ⟨addIn (.maxmin true true), 0, true, by decide +kernel⟩

theorem witness_element_results_read_back_13 : ∃ (x : XIn) (i k : Nat),
    ((∀ t : TileReg, swf 0 (x.ts.get t).data = true) ∧
    x.a.td.toNat + x.od.n ≤ 64 ∧
    i < x.od.size ∧
    x.count ≤ x.od.size ∧
    i ∈ x.idx) ∧
    (x.k = .rowb k ∨ x.k = .colb k) :=
  ⟨addIn (.rowb 1), 0, 1, by decide +kernel, Or.inl (by decide +kernel)⟩

theorem witness_element_results_read_back_14 : ∃ (x : XIn) (i : Nat),
    (∀ t : TileReg, swf 0 (x.ts.get t).data = true) ∧
    x.a.td.toNat + x.od.n ≤ 64 ∧
    i < x.od.size ∧
    x.count ≤ x.od.size ∧
    i ∈ x.idx ∧
    x.k = .perm :=
  ⟨addIn .perm, 0, by decide +kernel⟩

theorem witness_element_results_read_back_15 : ∃ (x : XIn) (i k : Nat) (y : Word),
    ((∀ t : TileReg, swf 0 (x.ts.get t).data = true) ∧
    x.a.td.toNat + x.od.n ≤ 64 ∧
    i < x.od.size ∧
    x.count ≤ x.od.size ∧
    i ∈ x.idx ∧
    x.k = .norm k) ∧
    (normRow k x (i / 64)).ys[i % 64]? = some y :=
  ⟨addIn (.norm 0), 0, 0, (normRow 0 (addIn (.norm 0)) 0).ys.getD 0 0, by decide +kernel, rfl⟩

theorem witness_element_results_read_back_16 : ∃ (x : XIn) (i : Nat) (m : Bool),
    (∀ t : TileReg, swf 0 (x.ts.get t).data = true) ∧
    x.a.td.toNat + x.od.n ≤ 64 ∧
    i < x.od.size ∧
    x.count ≤ x.od.size ∧
    i ∈ x.idx ∧
    x.k = .maxmin m false :=
  ⟨addIn (.maxmin true false), 0, true, by decide +kernel⟩

theorem witness_element_results_read_back_17 : ∃ (x : XIn) (i : Nat),
    (∀ t : TileReg, swf 0 (x.ts.get t).data = true) ∧
    x.a.td.toNat + x.od.n ≤ 64 ∧
    i < x.od.size ∧
    x.count ≤ x.od.size ∧
    x.k = .trans :=
  ⟨addIn .trans, 0, by decide +kernel⟩

theorem witness_element_results_read_back_18 : ∃ (x : XIn) (i ax : Nat) (f : List Nat → Rounded),
    ((∀ t : TileReg, swf 0 (x.ts.get t).data = true) ∧
    x.a.td.toNat + x.od.n ≤ 64 ∧
    i < x.od.size ∧
    x.count ≤ x.od.size ∧
    ax < 3) ∧
    ((∃ sq, x.k = .rsum ax sq ∧ f = redSum sq x) ∨
      (∃ m, x.k = .rmax ax m ∧ f = redMax m x) ∨ (∃ acc, x.k = .rdot ax acc ∧ f = redDot acc x i) ∨
      (∃ m, x.k = .rarg ax m ∧ f = redArg ax m x)) :=
  ⟨addIn (.rsum 0 false), 0, 0, redSum false (addIn (.rsum 0 false)), by decide +kernel, Or.inl ⟨false, by decide +kernel, rfl⟩⟩

theorem witness_element_results_read_back_19 : ∃ (x : XIn) (i k : Nat),
    (∀ t : TileReg, swf 0 (x.ts.get t).data = true) ∧
    x.a.td.toNat + x.od.n ≤ 64 ∧
    i < x.od.size ∧
    x.count ≤ x.od.size ∧
    4 ≤ k ∧
    x.k = .racc k :=
  ⟨addIn (.racc 7), 0, 7, by decide +kernel⟩

theorem witness_element_results_read_back_20 : ∃ (x : XIn) (i : Nat) (desc : Bool),
    (∀ t : TileReg, swf 0 (x.ts.get t).data = true) ∧
    x.a.td.toNat + x.od.n ≤ 64 ∧
    i < x.od.size ∧
    x.count ≤ x.od.size ∧
    x.k = .sort desc false ∧
    x.fd = x.fa :=
  ⟨addIn (.sort true false), 0, true, by decide +kernel⟩

/-- An instruction of another kind over the operands of the addition. -/
def selIn (k : XKind) : XIn := { addIn k with e := { x := addX, xarg := 17 } }

/-- A mask instruction over one brick of them. -/
def maskIn (k : XKind) : XIn := { addIn k with e := { x := { addX with a := { addArgs with count := 32 } }, scalar := 2 } }

theorem witness_element_results_read_back_21 : ∃ (x : XIn) (i : Nat),
    (∀ t : TileReg, swf 0 (x.ts.get t).data = true) ∧
    x.a.td.toNat + x.od.n ≤ 64 ∧
    i < x.od.size ∧
    x.count ≤ x.od.size :=
  ⟨selIn .compact, 0, by decide +kernel⟩

theorem witness_element_results_read_back_22 : ∃ (x : XIn) (i : Nat),
    (∀ t : TileReg, swf 0 (x.ts.get t).data = true) ∧
    x.a.td.toNat + x.od.n ≤ 64 ∧
    i < x.od.size ∧
    x.count ≤ x.od.size ∧
    x.k = .isect false :=
  ⟨selIn (.isect false), 0, by decide +kernel⟩

theorem witness_element_results_read_back_23 : ∃ (x : XIn) (i : Nat),
    (∀ t : TileReg, swf 0 (x.ts.get t).data = true) ∧
    x.a.td.toNat + x.od.n ≤ 64 ∧
    i < x.od.size ∧
    x.count ≤ x.od.size ∧
    x.k = .unique false :=
  ⟨selIn (.unique false), 0, by decide +kernel⟩

theorem witness_element_results_read_back_24 : ∃ (x : XIn) (i : Nat),
    (∀ t : TileReg, swf 0 (x.ts.get t).data = true) ∧
    x.a.td.toNat + x.od.n ≤ 64 ∧
    i < x.od.size ∧
    x.count ≤ x.od.size ∧
    x.k = .expand :=
  ⟨selIn .expand, 0, by decide +kernel⟩

theorem witness_element_results_read_back_25 : ∃ (x : XIn) (i : Nat) (desc : Bool),
    (∀ t : TileReg, swf 0 (x.ts.get t).data = true) ∧
    x.a.td.toNat + x.od.n ≤ 64 ∧
    i < x.od.size ∧
    x.count ≤ x.od.size ∧
    x.k = .merge desc false ∧
    x.fd = x.fa :=
  ⟨selIn (.merge true false), 0, true, by decide +kernel⟩

theorem witness_element_results_read_back_26 : ∃ (x : XIn) (i : Nat) (small : Bool) (p : Nat),
    ((∀ t : TileReg, swf 0 (x.ts.get t).data = true) ∧
    x.a.td.toNat + x.od.n ≤ 64 ∧
    i < x.od.size ∧
    x.count ≤ x.od.size) ∧
    let a := fun p => (x.oa.get x.ts p).1
    let v := fun p => x.fa.decode (a p)
    (x.k = .topk small false false ∧
    (x.e.xarg.extractLsb' 0 7).toNat ≤ 64 ∧
    apart x.od x.pay ∧
    i / 64 ∈ x.rows ∧
    i % 64 < (x.e.xarg.extractLsb' 0 7).toNat) ∧
    let l := (rowIdx x.count (i / 64)).filter fun p => validAt x.ts x.oa p && !(v p).isNan
    p ∈ l ∧
    rankIn (fun p q => valueLess small (v p) (v q)) l p = i % 64 :=
  ⟨selIn (.topk true false false), 0, true, 0, by decide +kernel, by decide +kernel, by decide +kernel⟩

theorem witness_element_results_read_back_27 : ∃ (x : XIn) (i : Nat) (expo acc : Bool),
    ((∀ t : TileReg, swf 0 (x.ts.get t).data = true) ∧
    x.a.td.toNat + x.od.n ≤ 64 ∧
    i < x.od.size ∧
    x.count ≤ x.od.size ∧
    x.k = .hist expo acc ∧
    x.a.sat = false) ∧
    let d := x.group x.a.td.toFin .int32
    x.a.td.toNat + d.n ≤ 64 ∧
    i < d.size ∧
    i < x.e.xarg.toNat :=
  ⟨selIn (.hist false true), 0, false, true, by decide +kernel, by decide +kernel⟩

theorem witness_element_results_read_back_28 : ∃ (x : XIn) (i : Nat) (chosen : Bool),
    ((∀ t : TileReg, swf 0 (x.ts.get t).data = true) ∧
    x.a.td.toNat + x.od.n ≤ 64 ∧
    i < x.od.size ∧
    x.count ≤ x.od.size ∧
    x.k = .route chosen) ∧
    let cap := (x.e.xarg.extractLsb' 4 15).toNat
    let experts := (x.ts.get x.oa.base).vc
    x.pay.base.val + x.pay.n ≤ 64 ∧
    experts * cap + experts ≤ x.pay.size ∧
    experts * cap ≤ x.od.size ∧
    i < experts :=
  ⟨selIn (.route true), 0, true, by decide +kernel, by decide +kernel⟩

theorem witness_element_results_read_back_29 : ∃ (x : XIn) (i : Nat) (small : Bool),
    ((∀ t : TileReg, swf 0 (x.ts.get t).data = true) ∧
    x.a.td.toNat + x.od.n ≤ 64 ∧
    i < x.od.size ∧
    x.count ≤ x.od.size) ∧
    let a := fun p => (x.oa.get x.ts p).1
    let v := fun p => x.fa.decode (a p)
    (x.k = .topk small false false ∧
    (x.e.xarg.extractLsb' 0 7).toNat ≤ 64 ∧
    apart x.od x.pay ∧
    i / 64 ∈ x.rows ∧
    i % 64 < (x.e.xarg.extractLsb' 0 7).toNat) ∧
    let l := (rowIdx x.count (i / 64)).filter fun p => validAt x.ts x.oa p && !(v p).isNan
    l.length ≤ i % 64 :=
  ⟨selIn (.topk true false false), 1, true, by decide +kernel, by decide +kernel, by decide +kernel⟩

theorem witness_element_results_read_back_30 : ∃ (x : XIn) (i m : Nat),
    ((∀ t : TileReg, swf 0 (x.ts.get t).data = true) ∧
    i < x.count ∧
    i / 64 ∈ x.rows ∧
    x.count % x.bsz = 0) ∧
    let bmD := bitmapOpd x.a.td.toFin
    x.k = .mprune m ∧
    m < 3 ∧
    apart bmD x.oa ∧
    i < x.oa.size :=
  ⟨maskIn (.mprune 2), 31, 2, by decide +kernel, by decide +kernel⟩

theorem witness_element_results_read_back_31 : ∃ (x : XIn) (i m : Nat),
    (∀ t : TileReg, swf 0 (x.ts.get t).data = true) ∧
    i < x.count ∧
    i / 64 ∈ x.rows ∧
    x.count % x.bsz = 0 ∧
    x.k = .mgrow m ∧
    (m = 0 ∨ m = 2) :=
  ⟨maskIn (.mgrow 2), 31, 2, by decide +kernel⟩

theorem witness_element_results_read_back_32 : ∃ (x : XIn) (i : Nat) (inf : Bool),
    (∀ t : TileReg, swf 0 (x.ts.get t).data = true) ∧
    i < x.count ∧
    i / 64 ∈ x.rows ∧
    x.count % x.bsz = 0 ∧
    x.k = .mapply inf ∧
    x.a.td.toNat + x.od.n ≤ 64 ∧
    i < x.od.size ∧
    x.count ≤ x.od.size :=
  ⟨maskIn (.mapply true), 31, true, by decide +kernel⟩

theorem witness_element_results_read_back_33 : ∃ (x : XIn) (i : Nat) (sc : Bool),
    ((∀ t : TileReg, swf 0 (x.ts.get t).data = true) ∧
    i < x.count ∧
    i / 64 ∈ x.rows ∧
    x.count % x.bsz = 0 ∧
    x.k = .mpack sc) ∧
    let n := brickLen (mpKC x.e.mparam) x.fd
    let d := x.packed x.a.td.toFin n
    d.base.val + d.n ≤ 64 ∧
    (x.count / x.bsz) * n ≤ d.size :=
  ⟨maskIn (.mpack false), 31, false, by decide +kernel, by decide +kernel⟩

theorem witness_element_results_read_back_34 : ∃ (x : XIn) (i : Nat),
    ((∀ t : TileReg, swf 0 (x.ts.get t).data = true) ∧
    i < x.count ∧
    i / 64 ∈ x.rows ∧
    x.count % x.bsz = 0) ∧
    let bmB := bitmapOpd x.a.tb.toFin
    x.k = .munpack ∧
    apart x.od bmB ∧
    i < x.od.size ∧
    x.count ≤ x.od.size :=
  ⟨maskIn .munpack, 31, by decide +kernel, by decide +kernel⟩

theorem witness_predicate_instructions_combine_rows_1 : ∃ (r : Nat),
    r < 256 :=
  ⟨255, by decide +kernel⟩

theorem witness_predicate_instructions_combine_rows_2 : ∃ (x : XIn) (r : Nat),
    r < 256 ∧
    x.k = .plogic 3 :=
  ⟨addIn (.plogic 3), 255, by decide +kernel⟩

theorem witness_predicate_instructions_combine_rows_3 : ∃ (x : XIn) (r : Nat),
    r < 256 ∧
    x.k = .plogic 4 :=
  ⟨addIn (.plogic 4), 255, by decide +kernel⟩

theorem witness_predicate_instructions_combine_rows_4 : ∃ (x : XIn) (r : Nat),
    r < 256 ∧
    x.k = .plogic 5 :=
  ⟨addIn (.plogic 5), 255, by decide +kernel⟩

theorem witness_predicate_instructions_combine_rows_5 : ∃ (x : XIn) (r : Nat),
    r < 256 ∧
    x.k = .plt :=
  ⟨addIn .plt, 255, by decide +kernel⟩

theorem witness_predicate_instructions_combine_rows_6 : ∃ (x : XIn) (r : Nat),
    r < 256 ∧
    x.k = .pany :=
  ⟨addIn .pany, 255, by decide +kernel⟩

theorem witness_predicate_instructions_combine_rows_7 : ∃ (x : XIn) (r : Nat),
    r < 256 ∧
    x.k = .pall :=
  ⟨addIn .pall, 255, by decide +kernel⟩

theorem witness_predicate_instructions_combine_rows_8 : ∃ (x : XIn) (r : Nat) (m : _),
    r < 256 ∧
    let n : BitVec 3 := x.a.td.setWidth 3
    ((∃ n, x.k = .plogic n) ∨ x.k = .plt ∨ x.k = .pany ∨ x.k = .pall) ∧
    m ≠ n :=
  ⟨addIn .plt, 255, 7, by decide +kernel, Or.inr (Or.inl rfl), by decide +kernel⟩

theorem witness_predicate_instructions_combine_rows_9 : ∃ (x : XIn) (r : Nat),
    r < 256 ∧
    let n : BitVec 3 := x.a.td.setWidth 3
    ((∃ n, x.k = .plogic n) ∨ x.k = .plt ∨ x.k = .pany ∨ x.k = .pall) :=
  ⟨addIn .plt, 255, by decide +kernel, Or.inr (Or.inl rfl)⟩

theorem witness_symbol_code_corrects_one_and_detects_two_1 : ∃ i,
    i < 8 :=
  ⟨7, by decide +kernel⟩

theorem witness_symbol_code_corrects_one_and_detects_two_2 : ∃ j,
    j < 3 :=
  ⟨2, by decide +kernel⟩

theorem witness_symbol_code_corrects_one_and_detects_two_3 : ∃ (s : State),
    swf 0 s.ks.store = true :=
  ⟨live, by decide +kernel⟩

theorem witness_symbol_code_corrects_one_and_detects_two_4 : ∃ (p q : Nat) (v w : BitVec 4),
    p < 11 ∧
    q < 11 ∧
    p ≠ q ∧
    v ≠ 0 ∧
    w ≠ 0 :=
  ⟨0, 10, 1, 15, by decide +kernel⟩

theorem witness_xcalad_instruction_runs_to_its_effect_1 : ∃ (c : Instr) (h : Hart) (x : XInstr) (k : XKind) (s : State),
    (issues c = some (h, x) ∧
    s.pending = [c, .vectorAccept, .instructionRetire h none] ∧
    s.canAct (Hart.reader h) = true ∧
    quietEngine s ∧
    xcheck h (s.hart h).csr.mparam (s.hart h).csr.xarg ((s.hart h).xcScalar x) s.tiles x = .ok k ∧
    k.icefield = false) ∧
    let q : XEntry := (s.hart h).entryOf x
    let t : HartState := { s.hart h with pc := (s.hart h).pc + 8, instret := (s.hart h).instret + 1, issued :=
                                                  (s.hart h).issued + 1 }
    let i : XIn := { k, e := q, pred := (s.hart h).getPred x.a.pred, quota := (s.hart h).csr.mquota, ts :=
                                                  s.tiles, hart := t, floe := if (s.floe q.floe).used then some (s.floe
                                                  q.floe).window else none, hashed := (s.floe q.floe).used && (s.floe
                                                  q.floe).hash }
    i.upsetRead = none :=
  ⟨.arithAdd 0 addArgs, 0, addX, .arith .add false, liveP [.arithAdd 0 addArgs, .vectorAccept, .instructionRetire 0 none], by decide +kernel, by decide +kernel⟩

theorem witness_every_step_keeps_the_engine_well_formed_1 : ∃ (s t : State),
    step s = .next t ∧
    s.wf ∧
    s.idsFresh :=
  ⟨liveP [.peerTimeout], liveX, rfl, by decide +kernel⟩

theorem witness_event_wait_and_its_end_1 : ∃ (h : Hart) (s : State),
    s.canAct (Hart.reader h) = true :=
  ⟨0, live, by decide +kernel⟩

theorem witness_event_wait_and_its_end_2 : ∃ (h : Hart) (s : State),
    s.powered = true ∧
    (s.hart h).wait = .wfi :=
  ⟨0, { liveW.modHart 0 (fun t => { t with wait := .wfi }) with leaseQ := [] }, by decide +kernel⟩

theorem witness_traps_are_taken_as_the_architecture_says_1 : ∃ (h : Hart) (s : State),
    s.canAct (Hart.reader h) = true ∧
    s.callOf h = none :=
  ⟨0, liveU, by decide +kernel⟩

theorem witness_traps_are_taken_as_the_architecture_says_2 : ∃ (h : Hart) (s : State),
    s.powered = true ∧
    (s.hart h).halted = false ∧
    ((s.hart h).wait = .run ∨ (s.hart h).wait = .wfi) ∧
    (s.hart h).csr.vfV = true ∧
    (s.hart h).trap.mieReg.getLsbD 16 = true ∧
    s.callOf h = none :=
  ⟨0, live.modHart 0 fun t => { t with csr := { t.csr with vfV := true }, trap := { t.trap with mieReg := 0x10000, mie := true } }, by decide +kernel⟩

theorem witness_integer_instructions_write_their_register_1 : ∃ (h : Hart) (s : State),
    s.canAct (Hart.reader h) = true :=
  ⟨0, live, by decide +kernel⟩

theorem witness_summary_reads_wait_for_retirement_1 : ∃ (h : Hart) (s : State),
    s.canAct (Hart.reader h) = true ∧
    (s.hart h).issued = (s.hart h).retired :=
  ⟨0, live, by decide +kernel⟩

theorem witness_summary_reads_wait_for_retirement_2 : ∃ (h : Hart) (s : State),
    s.canAct (Hart.reader h) = true ∧
    (s.hart h).issued ≠ (s.hart h).retired :=
  ⟨0, live.modHart 0 fun t => { t with issued := 1 }, by decide +kernel⟩

/-- `live` with a local store whose last word is 7. -/
def liveS : State := { live with ks := { live.ks with store := [(0x1FFFF, encodeClean 7)] } }

theorem witness_scalar_accesses_reach_their_memory_1 : ∃ (h : Hart) (addr d : Word) (s : State),
    s.canAct (Hart.reader h) = true ∧
    s.storeCanonical ∧
    addr.toNat % 4 = 0 ∧
    addr.toNat < 0x80000 ∧
    (s.hart h).mayData addr.toNat 4 0 = true ∧
    sget 0 s.ks.store (addr.toNat / 4) = encodeClean d :=
  ⟨0, 0x7FFFC, 7, liveS, by decide +kernel⟩

theorem witness_scalar_accesses_reach_their_memory_2 : ∃ (h : Hart) (addr : Word) (s : State),
    s.canAct (Hart.reader h) = true ∧
    s.storeCanonical ∧
    addr.toNat % 4 = 0 ∧
    addr.toNat < 0x80000 ∧
    (s.hart h).mayData addr.toNat 4 1 = true :=
  ⟨0, 0x7FFFC, liveS, by decide +kernel⟩

theorem witness_scalar_accesses_reach_their_memory_3 : ∃ (h : Hart) (addr : Word) (s : State),
    s.canAct (Hart.reader h) = true ∧
    addr.toNat % 4 = 0 ∧
    addr.extractLsb' 28 4 = 1 ∧
    (s.hart h).mayData addr.toNat 4 0 = true ∧
    (s.hart h).vqueue = [] :=
  ⟨0, 0x1FFFFFFC, live, by decide +kernel⟩

/-- A live floe of four granules at window and physical word 0. -/
def floeA : FloeEntry := { state := .live, size := 4, res := 4 }

/-- `live` with `floeA` as floe 0. -/
def liveM : State := { live with ice := { live.ice with floes := vset live.ice.floes 0 floeA } }

/-- `live` with words staged for machine mode and the management processor. -/
def liveC (e : FloeEntry) : State := { live with ice := { live.ice with fstage := vset live.ice.fstage 16 e.toWords } }

/-- `liveM` whose access 0 of a requester is allocated. -/
def liveA (who : Requester) (lo hi : Nat) (write : Bool) : State :=
  { liveM with ice := { liveM.ice with sb := { alloc := [{ id := 0, who, ranges := [{ lo, hi, write }] }], nextId := 1 } } }

/-- `liveM` whose access 0 of a requester waits. -/
def liveV (who : Requester) (lo hi : Nat) (write : Bool) : State :=
  { liveM with ice := { liveM.ice with sb := { waiting := [{ id := 0, who, ranges := [{ lo, hi, write }] }], nextId := 1 } } }

/-- `liveV` with the commit of `floeA` to floe 1. -/
def liveK : State :=
  let s := liveV .commit 0 4095 true
  { s with ice := { s.ice with commit := some { floe := 0, entry := {}, who := 16, sb := some 0 } } }

/-- `live` with a revival of segments. -/
def liveR (r : Revival) : State :=
  { live with ice := { live.ice with revival := some r, cells := [(0, encodeClean 1), (300 * 16896, encodeClean 2)] } }

theorem witness_floe_table_commands_act_and_answer_1 : ∃ (r : Reader) (others : List Reader) (s : State),
    s.canAct r = true ∧
    s.privileged r = true ∧
    s.takes r others = false :=
  ⟨3, [16], live.modHart 3 fun t => { t with halted := false }, by decide +kernel⟩

theorem witness_floe_table_commands_act_and_answer_2 : ∃ (r : Reader) (f : Fin 64) (others : List Reader) (s : State) (code : _),
    s.canAct r = true ∧
    s.privileged r = true ∧
    s.takes r others = true ∧
    s.commitCheck f (floeReserved (s.ice.fstage.get r)) (FloeEntry.ofWords (s.ice.fstage.get r)) = some code :=
  ⟨16, 5, [3], { liveC { floeA with size := 0 } with harts := vset live.harts 3 { halted := false } }, 1, by decide +kernel⟩

theorem witness_floe_table_commands_act_and_answer_3 : ∃ (r : Reader) (f : Fin 64) (others : List Reader) (s : State),
    s.canAct r = true ∧
    s.privileged r = true ∧
    s.takes r others = true ∧
    s.commitCheck f (floeReserved (s.ice.fstage.get r)) (FloeEntry.ofWords (s.ice.fstage.get r)) = none :=
  ⟨16, 5, [], liveC floeA, by decide +kernel⟩

theorem witness_floe_table_commands_act_and_answer_4 : ∃ (c : Commit) (id : Nat) (s : State),
    s.powered = true ∧
    s.ice.commit = some c ∧
    c.sb = some id ∧
    s.ice.sb.ready id = true :=
  ⟨{ floe := 0, entry := {}, who := 16, sb := some 0 }, 0, liveK, by decide +kernel⟩

theorem witness_floe_table_commands_act_and_answer_5 : ∃ (r : Reader) (others : List Reader) (s : State),
    s.canAct r = true ∧
    s.privileged r = true ∧
    s.takes r others = true :=
  ⟨16, [], liveM, by decide +kernel⟩

theorem witness_segments_melt_and_revive_1 : ∃ (g : Fin 64) (s : State),
    s.powered = true ∧
    s.fieldCanonical ∧
    g ∈ s.ice.meltQ :=
  ⟨3, { live with ice := { live.ice with meltQ := [3], cells := [(800, encodeClean 1)] } }, by decide +kernel⟩

theorem witness_segments_melt_and_revive_2 : ∃ (r : Revival) (g : Fin 64) (rest : List (Fin 64)) (s : State),
    s.powered = true ∧
    s.fieldCanonical ∧
    s.ice.revival = some r ∧
    r.segs = g :: rest ∧
    r.ramped ≠ 0 ∧
    r.tested = false :=
  ⟨{ segs := [0], target := .live, ramped := 1 }, 0, [], liveR { segs := [0], target := .live, ramped := 1 }, by decide +kernel⟩

theorem witness_segments_melt_and_revive_3 : ∃ (r : Revival) (g : Fin 64) (rest : List (Fin 64)) (s : State) (bank row n : Nat),
    s.powered = true ∧
    s.fieldCanonical ∧
    s.ice.revival = some r ∧
    r.segs = g :: rest ∧
    r.ramped ≠ 0 ∧
    r.tested = false ∧
    segOfLevel s.cfg (16 * row) = g ∧
    s.freeSpare bank = some n :=
  ⟨{ segs := [0], target := .live, ramped := 1 }, 0, [], liveR { segs := [0], target := .live, ramped := 1 }, 5, 0, 0, by decide +kernel⟩

theorem witness_segments_melt_and_revive_4 : ∃ (r : Revival) (g : Fin 64) (rest : List (Fin 64)) (s : State) (bank row : Nat),
    s.powered = true ∧
    s.fieldCanonical ∧
    s.ice.revival = some r ∧
    r.segs = g :: rest ∧
    r.ramped ≠ 0 ∧
    r.tested = false ∧
    segOfLevel s.cfg (16 * row) = g ∧
    s.freeSpare bank = none :=
  ⟨{ segs := [0], target := .live, ramped := 1 }, 0, [], { liveR { segs := [0], target := .live, ramped := 1 } with ice := { (liveR { segs := [0], target := .live, ramped := 1 }).ice with spares := ssetMany {} [] ((List.range Config.spareRows).map fun n => (5 * Config.spareRows + n, { used := true })) } }, 5, 0, by decide +kernel⟩

theorem witness_segments_melt_and_revive_5 : ∃ (r : Revival) (g : Fin 64) (rest : List (Fin 64)) (s : State),
    s.powered = true ∧
    s.fieldCanonical ∧
    s.ice.revival = some r ∧
    r.segs = g :: rest ∧
    r.tested = true :=
  ⟨{ segs := [0, 1], target := .permafrost, ramped := 2, tested := true }, 0, [1], liveR { segs := [0, 1], target := .permafrost, ramped := 2, tested := true }, by decide +kernel⟩

theorem witness_maintenance_keeps_the_words_1 : ∃ (s : State),
    s.powered = true ∧
    s.ice.scrubInForce = 0 ∧
    s.ice.scrubPeriod = 0 :=
  ⟨{ live with ice := { live.ice with scrubPeriod := 0, scrubInForce := 0 } }, by decide +kernel⟩

theorem witness_maintenance_keeps_the_words_2 : ∃ (q : Nat) (s : State),
    s.powered = true ∧
    (s.ice.scrubInForce ≠ 0 ∨ s.ice.scrubPeriod ≠ 0) ∧
    s.scrubNext = some q ∧
    (∀ b, b < Config.banks s.cfg → classify (s.codewordAt b q) = .clean ∨ classify (s.codewordAt b q) = .slush) :=
  ⟨0, live, by decide +kernel, Or.inr (by decide +kernel), by decide +kernel, fun b _ => Or.inl (by decide +kernel : classify 0 = .clean)⟩

theorem witness_maintenance_keeps_the_words_3 : ∃ (cell : Nat) (c : BitVec 44) (l : List (Nat × BitVec 44)) (s : State),
    s.powered = true ∧
    s.fieldCanonical ∧
    s.ice.writebacks = (cell, c) :: l :=
  ⟨1, encodeClean 3, [], { live with ice := { live.ice with writebacks := [(1, encodeClean 3)] } }, by decide +kernel⟩

/-- `live` with a row to be spared whose lock is allocated. -/
def liveY : State :=
  let s := liveA (.sparing 5 1023) 0 0 true
  { s with ice := { s.ice with sparing := [(5, 1023)] } }

/-- `liveM` whose hart 0 waits for a window load of word 9. -/
def liveD : State :=
  let s := (liveA (.scalar 0) 9 9 false).modHart 0 fun t => { t with wait := .load .lw 4 0x10000024 0 4 }
  { s with ice := { s.ice with cells := sset 0 [] (s.cellAt 9 0) (encodeClean 77) } }

theorem witness_maintenance_keeps_the_words_4 : ∃ (bank row n : Nat) (q : List (Nat × Nat)) (a : Access) (s : State),
    s.powered = true ∧
    s.ice.sparing = (bank, row) :: q ∧
    s.lockOf bank row = some a ∧
    s.freeSpare bank = some n :=
  ⟨5, 1023, 0, [], { id := 0, who := .sparing 5 1023, ranges := [{ lo := 0, hi := 0, write := true }] }, liveY, by decide +kernel⟩

theorem witness_scoreboard_allocates_and_retires_1 : ∃ (a : Access) (n : Nat) (s : State),
    (s.powered = true ∧
    (s.orderTogether n).nextAccess = some a) ∧
    (a.who = .mortar ∨ (∃ p, a.who = .arrival p) ∨ (∃ p, a.who = .departure p) ∨ (∃ b q, a.who = .sparing b q)) :=
  ⟨{ id := 0, who := .mortar, ranges := [{ lo := 0, hi := 9, write := true }] }, 1, liveV .mortar 0 9 true, by decide +kernel, Or.inl rfl⟩

theorem witness_scoreboard_allocates_and_retires_2 : ∃ (a : Access) (n : Nat) (s : State) (h : Hart),
    s.powered = true ∧
    (s.orderTogether n).nextAccess = some a ∧
    a.who = .scalar h :=
  ⟨{ id := 0, who := .scalar 3, ranges := [{ lo := 9, hi := 9, write := false }] }, 1, liveV (.scalar 3) 9 9 false, 3, by decide +kernel⟩

theorem witness_scoreboard_allocates_and_retires_3 : ∃ (a : Access) (n : Nat) (s : State) (c : Fin 32),
    s.powered = true ∧
    (s.orderTogether n).nextAccess = some a ∧
    a.who = .drift c :=
  ⟨{ id := 0, who := .drift 31, ranges := [{ lo := 9, hi := 9, write := false }] }, 1, liveV (.drift 31) 9 9 false, 31, by decide +kernel⟩

theorem witness_scoreboard_allocates_and_retires_4 : ∃ (a : Access) (n : Nat) (s : State) (c : Commit),
    s.powered = true ∧
    (s.orderTogether n).nextAccess = some a ∧
    a.who = .commit ∧
    s.ice.commit = some c ∧
    c.sb = some a.id :=
  ⟨{ id := 0, who := .commit, ranges := [{ lo := 0, hi := 4095, write := true }] }, 1, liveK, { floe := 0, entry := {}, who := 16, sb := some 0 }, by decide +kernel⟩

theorem witness_scoreboard_allocates_and_retires_5 : ∃ (a : Access) (h : Hart) (rd : BitVec 5) (addr d : Word) (f : Fin 64) (p : Nat) (hash : Bool) (s : State),
    s.powered = true ∧
    s.ice.sb.alloc.find? (fun b => b.id == a.id) = some a ∧
    a.who = .scalar h ∧
    s.morDone a.id = true ∧
    s.firnFor a.id = none ∧
    (s.hart h).dlock = none ∧
    s.imageOf a.id = none ∧
    (s.hart h).wait = .load .lw rd addr a.id 4 ∧
    addr.toNat % 4 = 0 ∧
    s.floeOf (windowWord addr) = some f ∧
    s.place f (windowWord addr) = some (.phys p hash) ∧
    s.segAt p ≠ .melted ∧
    s.segAt p ≠ .reviving ∧
    s.codewordAt (bankOf s.cfg hash p) (p / Config.banks s.cfg) = encodeClean d :=
  ⟨{ id := 0, who := .scalar 0, ranges := [{ lo := 9, hi := 9, write := false }] }, 0, 4, 0x10000024, 77, 0, 9, false, liveD, by decide +kernel⟩

/-- A checked course of a bond whose matrices lie in `floeA`. -/
def runB (n : BitVec 4) : CourseRun :=
  { addr := 0, who := 0, forms := Vector.replicate 4 { fmt := .bf16 }, checked := true
    d := { bond := n, m := 1, n := 1, k := 1, wreg := 8, out := 2048 } }

/-- `liveM` with a course running. -/
def liveB (r : CourseRun) : State := { liveM with mortar := { liveM.mortar with run := some r } }

/-- A result tile of the product of `runB`. -/
def landA (k : BitVec 3) : Landed := { kind := k, i := 0, j := 0, int := false, elems := [(0, 0x3F800000)] }

theorem witness_course_commands_change_the_sequencer_1 : ∃ (r : Reader) (addr : Word) (s : State),
    s.canAct r = true ∧
    addr.toNat % 16 = 0 ∧
    s.mortar.pend = none :=
  ⟨0, 0xFC000FF0, live, by decide +kernel⟩

theorem witness_course_commands_change_the_sequencer_2 : ∃ (r : Reader) (addr : Word) (q : Word × Reader) (s : State),
    s.canAct r = true ∧
    addr.toNat % 16 = 0 ∧
    s.mortar.pend = some q :=
  ⟨0, 16, (32, 16), { live with mortar := { live.mortar with pend := some (32, 16) } }, by decide +kernel⟩

theorem witness_course_commands_change_the_sequencer_3 : ∃ (r : Reader) (addr : Word) (s : State),
    s.canAct r = true ∧
    addr.toNat % 16 ≠ 0 :=
  ⟨0, 17, live, by decide +kernel⟩

theorem witness_course_commands_change_the_sequencer_4 : ∃ (r : Reader) (c : CourseRun) (s : State),
    s.canAct r = true ∧
    s.mortar.run = some c :=
  ⟨0, runB 0, liveB (runB 0), by decide +kernel⟩

theorem witness_course_commands_change_the_sequencer_5 : ∃ (r : Reader) (c : Word × Reader) (s : State),
    (s.canAct r = true ∧
    s.mortar.pend = some c ∧
    s.mortar.waiting = none) ∧
    (s.privileged r = true ∨ c.2 = r) :=
  ⟨0, (32, 0), { liveU with mortar := { liveU.mortar with pend := some (32, 0) } }, by decide +kernel, Or.inr rfl⟩

/-- `liveM` with a pending course at word 0 whose blocks have been read: B00 with M = N = K = 1, T8 to T15 leased. -/
def liveG : State :=
  { liveM with
    tiles := Vector.ofFn fun i => if i.val / 8 = 1 then { lease := .exclusive } else {}
    mortar := { liveM.mortar with
      pend := some (0, 0)
      aux := [(keyCourse, [(0, 0x20000), (1, 1), (2, 1), (3, 1)]), (keyStatus, []), (keyParam, [])] } }

theorem witness_course_starts_with_its_checks_1 : ∃ (addr : Word) (who : Reader) (b p : Store (BitVec 33)) (s : State),
    s.powered = true ∧
    s.err.stat = .running ∧
    s.mortar.run = none ∧
    s.mortar.pend = some (addr, who) ∧
    (∀ o < 16, s.wordBad (floePart addr) (wordPart addr + o) = none) ∧
    s.mortar.block keyCourse = some b ∧
    (s.mortar.block keyStatus).isSome = true ∧
    s.mortar.block keyParam = some p :=
  ⟨0, 0, [(0, 0x20000), (1, 1), (2, 1), (3, 1)], [], liveG, by decide +kernel⟩

/-- `liveM` with a finished course. -/
def liveE : State := liveB { runB 0 with finished := true }

/-- `liveM` with a finished course whose SUMMARY and STATUS are written. -/
def liveE1 : State := (liveE.mortarDone (doneWords 0 ({ runB 0 with finished := true }).sum.toWord 1)).1

theorem witness_courses_end_with_status_and_event_1 : ∃ (c : CourseRun) (h : Hart) (s : State),
    s.powered = true ∧
    s.mortar.dropped = [] ∧
    s.mortar.run = some c ∧
    c.finished = true ∧
    c.checked = true ∧
    c.who = Hart.reader h ∧
    s.mortarSettled = false :=
  ⟨{ runB 0 with finished := true }, 0, { liveE with mortar := { liveE.mortar with writes := [0] }, ice := { liveE.ice with morLines := [{ floe := 0, addr := 64, acc := 0, write := some [] }] } }, by decide +kernel⟩

theorem witness_courses_end_with_status_and_event_2 : ∃ (c : CourseRun) (h : Hart) (s1 s : State),
    (s.powered = true ∧
    s.mortar.dropped = [] ∧
    s.mortar.run = some c ∧
    c.finished = true ∧
    c.checked = true ∧
    c.who = Hart.reader h) ∧
    s.mortarDone (doneWords c.addr c.sum.toWord c.status) = (s1, true) :=
  ⟨{ runB 0 with finished := true }, 0, liveE1, liveE, by decide +kernel, Prod.ext rfl (by decide +kernel)⟩

theorem witness_courses_end_with_status_and_event_3 : ∃ (r : CourseRun) (s : State),
    s.powered = true ∧
    s.mortar.run = some r ∧
    r.d.bn = 15 ∧
    r.checked = true ∧
    r.finished = false ∧
    (s.win r.d.ringWin).arr.toNat < (r.d.ring - 1) * r.d.m :=
  ⟨{ runB 15 with d := { (runB 15).d with p := #v[2, 0, 0, 0, 0, 0, 0, 0] } }, liveB { runB 15 with d := { (runB 15).d with p := #v[2, 0, 0, 0, 0, 0, 0, 0] } }, by decide +kernel⟩

/-- The first transfer of `runB 0`. -/
def sendA : Send := { kind := 0, i := 0, j := 0, kx := 0, last := true }

/-- `liveB (runB 0)` with the words of the operand tile at hand. -/
def liveT : State := { liveB (runB 0) with mortar := { (liveB (runB 0)).mortar with aux := [(keyOperand, [])] } }

/-- Its operand tile is at hand. -/
theorem sendA_ready : (liveT.operandTile { runB 0 with send := {} } sendA).2.isSome = true := by decide +kernel

theorem witness_transfers_use_their_credits_1 : ∃ (r : CourseRun) (c : Cursor) (t : Send) (o : OpTile) (s1 s : State),
    (s.powered = true ∧
    s.mortar.run = some r ∧
    c = r.d.nextSend (r.d.cols 1 + r.d.cols 2 + 4) r.send ∧
    r.checked = true ∧
    r.finished = false ∧
    r.stopping = false ∧
    r.lost = false ∧
    r.d.over c = false ∧
    r.fault = none ∧
    s.mortar.opCredits ≠ 0 ∧
    r.d.sendAt c.band c.sweep c.j c.ph = some t ∧
    t.kind ≠ 4) ∧
    s.operandTile { r with send := c } t = (s1, some o) ∧
    (r.prologue t = true → s1.mayAccept = true) :=
  ⟨runB 0, {}, sendA, (liveT.operandTile { runB 0 with send := {} } sendA).2.get sendA_ready, (liveT.operandTile { runB 0 with send := {} } sendA).1, liveT, by decide +kernel, Prod.ext rfl (Option.some_get sendA_ready).symm, by decide +kernel⟩

theorem witness_transfers_use_their_credits_2 : ∃ (r : CourseRun) (tag : DWord) (s : State),
    s.powered = true ∧
    s.mortar.run = some r ∧
    r.credits ≠ 0 ∧
    tag.extractLsb' 0 2 = (if r.slot then 1 else 0) ∧
    tag.extractLsb' 5 4 = (if r.intResult (tag.extractLsb' 2 3) then 6 else 0) ∧
    tag.getLsbD 63 = false ∧
    (tag.extractLsb' 2 3, (tag.extractLsb' 23 12).toNat, (tag.extractLsb' 35 14).toNat) ∈ r.owed :=
  ⟨{ runB 0 with owed := [(5, 0, 0)] }, 0x14, liveB { runB 0 with owed := [(5, 0, 0)] }, by decide +kernel⟩

theorem witness_transfers_use_their_credits_3 : ∃ (tag : DWord) (s : State),
    (s.powered = true ∧
    s.err.stat = .running ∧
    8 ≤ s.boot.stage.toNat) ∧
    (∀ r, s.mortar.run = some r → r.tagOk tag = false) :=
  ⟨0x14, liveB (runB 0), by decide +kernel, fun r h => by cases h; decide +kernel⟩

theorem witness_transfers_use_their_credits_4 : ∃ (s : State),
    s.powered = true :=
  ⟨live, by decide +kernel⟩

/-- `liveB` whose course has its first tiles and its blocks. -/
def liveBw (n : BitVec 4) : State :=
  let s := liveB { runB n with landed := [landA 5, landA 6] }
  { s with mortar := { s.mortar with aux := [(0, []), (1, [])] } }

/-- `liveBw` of a stack course, with an instruction of hart 0 ready too. -/
def liveQB : State := let s := liveBw 0; { s with tiles := liveX.tiles, harts := (liveQ 1).harts }

theorem witness_vector_unit_takes_turns_2 : ∃ (h : Hart) (k : Nat) (e : XEntry) (s : State),
    (s.mayAccept = true ∧
    k < 16 ∧
    h.val = (s.vu.rr.val + k) % 16) ∧
    (∀ (i : Nat) (g : Hart), i < k → g.val = (s.vu.rr.val + i) % 16 → s.readyHead g = none) ∧
    s.readyHead h = some e ∧
    s.bondReady = true :=
  ⟨0, 0, { x := addX }, liveQB, by decide +kernel, fun i _ h _ => absurd h (Nat.not_lt_zero i), by decide +kernel⟩

theorem witness_bond_step_does_the_next_piece_of_work_1 : ∃ (check : Option LaneCheck) (n : Nat) (c : Instr) (r : CourseRun) (s : State),
    (n, c) ∈ [(0, Instr.b00Stack check), (1, .b01Running check), (2, .b02Header check), (3, .b03Stretcher check),
      (4, .b04Soldier check), (5, .b05Flemish check), (6, .b06English check), (7, .b07Dutch check), (8, .b08Monk check),
      (9, .b09Sailor check), (10, .b10Rowlock check), (11, .b11Garden check), (12, .b12Basket check),
      (13, .b13Quoin check), (14, .b14Coping check)] ∧
    s.mayAccept = true ∧
    s.mortar.run = some r ∧
    r.d.bn = n ∧
    r.checked = true ∧
    r.finished = false ∧
    r.replay = false ∧
    r.out = [] ∧
    r.cut = false ∧
    (r.kept = [] ∨ r.d.ends r.at' = false) ∧
    s.workingBusy = false ∧
    r.ready = true ∧
    (n = 3 ∨ n = 4 → r.landed ≠ []) ∧
    (∀ q ∈ r.auxOf, (s.mortar.block q.1).isSome = true) ∧
    s.bondFails check = none :=
  ⟨none, 0, .b00Stack none, { runB 0 with landed := [landA 5, landA 6] }, liveBw 0, by decide +kernel⟩

theorem witness_stack_converts_each_element_1 : ∃ (r : CourseRun) (l : Landed),
    r.d.bn = 0 ∧
    r.d.staged = false ∧
    l.int = false :=
  ⟨{ runB 0 with d := { (runB 0).d with tau := 0x3F800000 } }, landA 5, by decide +kernel⟩

theorem witness_stack_converts_each_element_2 : ∃ (r : CourseRun) (l : Landed),
    r.d.bn = 0 ∧
    r.d.staged = false ∧
    l.int = true :=
  ⟨{ runB 0 with d := { (runB 0).d with tau := 0x3F800000 } }, { landA 5 with int := true }, by decide +kernel⟩

theorem witness_stack_converts_each_element_3 : ∃ (r : CourseRun),
    r.d.bn < 3 ∧
    (r.d.scv = true ∨ r.d.bias = true ∨ r.d.tau ≠ 0x3F800000 ∨ (r.d.par 0).extractLsb' 0 3 ≠ 0) :=
  ⟨{ runB 0 with d := { (runB 0).d with tau := 0x3F800000, p := #v[3, 0, 0, 0, 0, 0, 0, 0] } }, by decide +kernel, Or.inr (Or.inr (Or.inr (by decide +kernel)))⟩

theorem witness_stack_converts_each_element_4 : ∃ (lse : FW),
    lse.val.isNan = true :=
  ⟨nanF, by decide +kernel⟩

theorem witness_stack_converts_each_element_5 : ∃ (lse : FW),
    lse.val = .inf true :=
  ⟨FW.const negInf32, by decide +kernel⟩

theorem witness_stack_converts_each_element_6 : ∃ (lse x : FW),
    lse.val = .inf false ∧
    x.val = .inf false :=
  ⟨FW.const 0x7F800000, FW.const 0x7F800000, by decide +kernel⟩

theorem witness_stack_converts_each_element_7 : ∃ (lse x : FW),
    lse.val.isNan = false ∧
    lse.val ≠ .inf true ∧
    lse.val ≠ .inf false ∧
    x.val = .inf true :=
  ⟨oneF, FW.const negInf32, by decide +kernel⟩

theorem witness_stack_converts_each_element_8 : ∃ (lse x : FW),
    lse.val.isNan = false ∧
    lse.val ≠ .inf true ∧
    lse.val ≠ .inf false ∧
    x.val ≠ .inf true :=
  ⟨oneF, oneF, by decide +kernel⟩

theorem witness_stack_converts_each_element_9 : ∃ (lse x : FW),
    lse.val.isNan = false ∧
    lse.val ≠ .inf true ∧
    lse.val ≠ .inf false ∧
    x.val = .inf false :=
  ⟨oneF, FW.const 0x7F800000, by decide +kernel⟩

theorem witness_stack_converts_each_element_10 : ∃ (lse x : FW),
    lse.val.isNan = false ∧
    lse.val ≠ .inf true ∧
    lse.val ≠ .inf false ∧
    x.val ≠ .inf false ∧
    x.val.isNan = false :=
  ⟨oneF, oneF, by decide +kernel⟩

theorem witness_prologues_and_ring_heads_1 : ∃ (r : CourseRun) (s : State),
    (s.powered = true ∧
    s.mortar.run = some r) ∧
    (r.d.bn ≠ 3 ∨ r.out = [] ∧ r.landed = []) ∧
    s.nextPrologue false = true :=
  ⟨{ runB 0 with d := { (runB 0).d with tra := true } }, liveB { runB 0 with d := { (runB 0).d with tra := true } }, by decide +kernel, Or.inl (by decide +kernel), by decide +kernel⟩

theorem witness_prologues_and_ring_heads_2 : ∃ (check : Option LaneCheck) (r : CourseRun) (s : State),
    (s.powered = true ∧
    s.mortar.run = some r) ∧
    (r.d.bn ≠ 3 ∨ r.out = [] ∧ r.landed = []) ∧
    s.nextPrologue false = true ∧
    s.bondFails check = none :=
  ⟨none, { runB 0 with d := { (runB 0).d with tra := true } }, liveB { runB 0 with d := { (runB 0).d with tra := true } }, by decide +kernel, Or.inl (by decide +kernel), by decide +kernel⟩

theorem witness_prologues_and_ring_heads_3 : ∃ (r : CourseRun) (s : State),
    (s.powered = true ∧
    s.mortar.run = some r) ∧
    (r.d.bn ≠ 4 ∨ r.out = [] ∧ r.landed = []) ∧
    s.nextPrologue true = true :=
  ⟨{ runB 0 with d := { (runB 0).d with gat := true } }, liveB { runB 0 with d := { (runB 0).d with gat := true } }, by decide +kernel, Or.inl (by decide +kernel), by decide +kernel⟩

theorem witness_prologues_and_ring_heads_4 : ∃ (check : Option LaneCheck) (r : CourseRun) (s : State),
    (s.powered = true ∧
    s.mortar.run = some r) ∧
    (r.d.bn ≠ 4 ∨ r.out = [] ∧ r.landed = []) ∧
    s.nextPrologue true = true ∧
    s.bondFails check = none :=
  ⟨none, { runB 0 with d := { (runB 0).d with gat := true } }, liveB { runB 0 with d := { (runB 0).d with gat := true } }, by decide +kernel, Or.inl (by decide +kernel), by decide +kernel⟩

/-- A B15 course of a ring of two. -/
def runR : CourseRun := { runB 15 with d := { (runB 15).d with p := #v[2, 0, 1024, 0, 0, 0, 0, 0] } }

/-- `liveB runR` with port 0 up. -/
def liveZ : State := (liveB runR).modPort 0 fun p => { p with state := .up }

/-- `liveZ` with the own records in their place. -/
def liveZo : State := (liveB { runR with own := 1 }).modPort 0 fun p => { p with state := .up }

/-- `liveB runR` after its blocks have gone out, all records there. -/
def liveZ1 : State :=
  let s := (liveB { runR with own := 1, hops := 1 }).modWin 0 fun w => { w with arr := 1 }
  { s with mortar := { s.mortar with aux := [(0, []), (1, [])] } }

/-- `liveZ` after the own records have been read. -/
def liveZr : State := { liveZ with mortar := { liveZ.mortar with aux := [(keyIndex, [])] } }

/-- `liveZr` after they are written in their place. -/
def liveZw : State × Bool :=
  let os := offs (1024 * runR.own) (16 * extentOf runR.d.m runR.own)
  let home := runR.d.par 2 + BitVec.ofNat 32 (16 * runR.d.m * runR.d.rank)
  liveZr.mortarWrite keyOut {} { floe := floePart home, ws := os.map fun i => (wordPart home + i, sget 0 [] i, 0xF) }

/-- The write is done at once, -/
theorem liveZw_eq : liveZw = (liveZw.1, true) := Prod.ext rfl (by decide +kernel)

/-- and the course still runs. -/
theorem liveZw_run : liveZw.1.mortar.run.isSome = true := by decide +kernel

theorem witness_prologues_and_ring_heads_5 : ∃ (r : CourseRun) (s s1 s2 : State) (r2 : CourseRun) (m : Store (BitVec 33)),
    (s.mayAccept = true ∧
    s.mortar.run = some r ∧
    r.d.bn = 15 ∧
    r.checked = true ∧
    r.finished = false ∧
    r.out = [] ∧
    r.stopping = false ∧
    r.cut = false ∧
    r.replay = false ∧
    r.own < tilesOf r.d.m) ∧
    let os := offs (1024 * r.own) (16 * extentOf r.d.m r.own)
    let home := r.d.par 2 + BitVec.ofNat 32 (16 * r.d.m * r.d.rank)
    s.mortarRead keyIndex {} r.d.out os = (s1, some m) ∧
    s1.mortarWrite keyOut {} { floe := floePart home, ws := os.map fun i => (wordPart home + i, sget 0 m i, 0xF) } =
      (s2, true) ∧
    s2.mortar.run = some r2 :=
  ⟨runR, liveZr, liveZr, liveZw.1, liveZw.1.mortar.run.get liveZw_run, [], by decide +kernel, by decide +kernel, liveZw_eq, (Option.some_get liveZw_run).symm⟩

theorem witness_prologues_and_ring_heads_6 : ∃ (r : CourseRun) (s : State),
    s.mayAccept = true ∧
    s.mortar.run = some r ∧
    r.d.bn = 15 ∧
    r.checked = true ∧
    r.finished = false ∧
    r.out = [] ∧
    r.stopping = false ∧
    r.cut = false ∧
    r.replay = false ∧
    tilesOf r.d.m ≤ r.own ∧
    r.hops + 1 < r.d.ring ∧
    r.hops * r.d.m ≤ (s.win r.d.ringWin).arr.toNat ∧
    (s.port r.d.ringPort).state = .up ∧
    (s.port r.d.ringPort).sends.length < 16 :=
  ⟨{ runR with own := 1 }, liveZo, by decide +kernel⟩

theorem witness_prologues_and_ring_heads_7 : ∃ (check : Option LaneCheck) (r : CourseRun) (s : State),
    s.mayAccept = true ∧
    s.mortar.run = some r ∧
    r.d.bn = 15 ∧
    r.checked = true ∧
    r.finished = false ∧
    r.out = [] ∧
    r.stopping = false ∧
    r.cut = false ∧
    r.replay = false ∧
    tilesOf r.d.m ≤ r.own ∧
    r.d.ring ≤ r.hops + 1 ∧
    (r.d.ring - 1) * r.d.m ≤ (s.win r.d.ringWin).arr.toNat ∧
    (∀ q ∈ r.ringAux, (s.mortar.block q.1).isSome = true) ∧
    s.workingBusy = false ∧
    s.bondFails check = none :=
  ⟨none, { runR with own := 1, hops := 1 }, liveZ1, by decide +kernel⟩

/-- A load of one INT32 element from fabric address 0x1004 to window word 9, and its words. -/
def descA : Desc :=
  { ver := 3, sfmt := 6, dfmt := 6, last := true, faddr := 0x1004, iaddr := 9, ncol := 1, nrow := 1, frs := 1, irs := 1 }

/-- The words of `descA` (R326). -/
def wordsA : List Word := [0x02006603, 0x1004, 0, 9, 1, 1, 1, 1, 0, 0, 0, 0, 0, 0, 0, 0]

/-- An engine whose Firn holds nothing. -/
theorem noFirn (s : State) (h : ∀ i, s.ice.firn.get i = none) (id : Nat) : s.firnWhole id ∧ s.firnIdle id :=
  ⟨fun i e he => by simp [h i] at he, fun i e he => by simp [h i] at he⟩

/-- A set of `descA`. -/
def setA : DriftSet := { descs := [descA], chainEnd := true, sb := some 0 }

/-- `liveM` with access 0 of drift channel 0 allocated and the channel as given. -/
def liveH (x : Channel) : State := (liveA (.drift 0) 0 15 true).modCh 0 fun _ => x

theorem witness_go_starts_a_chain_1 : ∃ (r : Reader) (ch : BitVec 5) (met : List (Reader × Bool)) (s : State),
    s.canAct r = true ∧
    alone r met s ∧
    Config.driftCh s.cfg ≤ ch.toNat :=
  ⟨16, 31, [(3, false)], { live with cfg := .c3s }, by decide +kernel⟩

theorem witness_go_starts_a_chain_2 : ∃ (r : Reader) (ch : BitVec 5) (met : List (Reader × Bool)) (s : State),
    s.canAct r = true ∧
    alone r met s ∧
    ch.toNat < Config.driftCh s.cfg ∧
    s.ownsCh r ch.toFin = false :=
  ⟨5, 31, [], { live with harts := vset live.harts 5 { halted := false, mode := .u } }, by decide +kernel⟩

theorem witness_go_starts_a_chain_3 : ∃ (q r : Reader) (s : State),
    s.powered = true ∧
    Reader.before q r = true ∧
    q ≠ r :=
  ⟨16, 0, live, by decide +kernel⟩

theorem witness_go_starts_a_chain_4 : ∃ (r : Reader) (ch : BitVec 5) (met : List (Reader × Bool)) (s : State),
    s.canAct r = true ∧
    alone r met s ∧
    ch.toNat < Config.driftCh s.cfg ∧
    s.ownsCh r ch.toFin = true ∧
    (s.chan ch.toFin).state ≠ 1 ∧
    (s.chan ch.toFin).state ≠ 5 :=
  ⟨16, 31, [(3, false)], live, by decide +kernel⟩

theorem witness_go_starts_a_chain_5 : ∃ (r : Reader) (ch : BitVec 5) (met : List (Reader × Bool)) (s : State),
    (s.canAct r = true ∧
    alone r met s ∧
    ch.toNat < Config.driftCh s.cfg ∧
    s.ownsCh r ch.toFin = true) ∧
    ((s.chan ch.toFin).state = 1 ∨ (s.chan ch.toFin).state = 5) :=
  ⟨0, 0, [], liveH { state := 5 }, by decide +kernel, Or.inr (by decide +kernel)⟩

theorem witness_rearm_starts_or_shadows_a_pass_1 : ∃ (c : BitVec 5) (b : Bases) (st : DriftSet) (p : Bool) (s : State) (r : Reader) (met : List (Reader × Bool)),
    (s.powered = true ∧
    Config.rearm s.cfg = true ∧
    (s.chan c.toFin).state = 4 ∧
    (s.chan c.toFin).cached = some st ∧
    (s.chan c.toFin).halting = false ∧
    (s.chan c.toFin).stopping = false ∧
    st.descs ≠ [] ∧
    (∀ a ∈ s.ice.sb.alloc, a.id ≠ s.ice.sb.nextId)) ∧
    let s1 := s.modCh c.toFin fun y => { y with state := 1, bases := b, shadow := none, cached := none, marked :=
                                                  false }
    s1.checkDescs c.toFin { s.chan c.toFin with bases := b, version := none } (s.chan c.toFin).firstLen 0
      (s.chan c.toFin).persist st.descs = (st.descs, none, p) ∧
    s1.setRanges c.toFin st.descs ≠ [] ∧
    s.canAct r = true ∧
    alone r met s ∧
    s.ownsCh r c.toFin = true ∧
    (s.chan c.toFin).shadow = none ∧
    b = s.basesOf r :=
  ⟨0, {}, { descs := [descA] }, false, liveH { state := 4, cached := some { descs := [descA] } }, 16, [], by decide +kernel, by decide +kernel⟩

theorem witness_rearm_starts_or_shadows_a_pass_2 : ∃ (c : BitVec 5) (b : Bases) (st : DriftSet) (p : Bool) (s : State),
    (s.powered = true ∧
    Config.rearm s.cfg = true ∧
    (s.chan c.toFin).state = 4 ∧
    (s.chan c.toFin).cached = some st ∧
    (s.chan c.toFin).halting = false ∧
    (s.chan c.toFin).stopping = false ∧
    st.descs ≠ [] ∧
    (∀ a ∈ s.ice.sb.alloc, a.id ≠ s.ice.sb.nextId)) ∧
    let s1 := s.modCh c.toFin fun y => { y with state := 1, bases := b, shadow := none, cached := none, marked :=
                                                  false }
    s1.checkDescs c.toFin { s.chan c.toFin with bases := b, version := none } (s.chan c.toFin).firstLen 0
      (s.chan c.toFin).persist st.descs = (st.descs, none, p) ∧
    s1.setRanges c.toFin st.descs ≠ [] ∧
    (s.chan c.toFin).shadow = some b :=
  ⟨0, {}, { descs := [descA] }, false, liveH { state := 4, cached := some { descs := [descA] }, shadow := some {} }, by decide +kernel, by decide +kernel⟩

theorem witness_rearm_starts_or_shadows_a_pass_3 : ∃ (q r : Reader) (s : State),
    s.powered = true ∧
    Reader.before q r = true ∧
    q ≠ r :=
  ⟨16, 5, live, by decide +kernel⟩

theorem witness_rearm_starts_or_shadows_a_pass_4 : ∃ (r : Reader) (c : BitVec 5) (met : List (Reader × Bool)) (s : State),
    s.canAct r = true ∧
    alone r met s ∧
    Config.driftCh s.cfg ≤ c.toNat :=
  ⟨16, 31, [], { live with cfg := .c3s }, by decide +kernel⟩

theorem witness_rearm_starts_or_shadows_a_pass_5 : ∃ (r : Reader) (c : BitVec 5) (met : List (Reader × Bool)) (s : State),
    s.canAct r = true ∧
    alone r met s ∧
    c.toNat < Config.driftCh s.cfg ∧
    s.ownsCh r c.toFin = false :=
  ⟨5, 31, [], { live with harts := vset live.harts 5 { halted := false, mode := .u } }, by decide +kernel⟩

theorem witness_rearm_starts_or_shadows_a_pass_6 : ∃ (r : Reader) (c : BitVec 5) (met : List (Reader × Bool)) (s : State),
    s.canAct r = true ∧
    alone r met s ∧
    c.toNat < Config.driftCh s.cfg ∧
    s.ownsCh r c.toFin = true ∧
    Config.rearm s.cfg = false :=
  ⟨16, 0, [], { live with cfg := .c3s }, by decide +kernel⟩

theorem witness_rearm_starts_or_shadows_a_pass_7 : ∃ (r : Reader) (c : BitVec 5) (met : List (Reader × Bool)) (s : State),
    (s.canAct r = true ∧
    alone r met s ∧
    c.toNat < Config.driftCh s.cfg ∧
    s.ownsCh r c.toFin = true ∧
    Config.rearm s.cfg = true) ∧
    ((s.chan c.toFin).state = 5 ∨ (s.chan c.toFin).state = 4 ∧ (s.chan c.toFin).shadow ≠ none) :=
  ⟨16, 0, [], liveH { state := 5 }, by decide +kernel, Or.inl (by decide +kernel)⟩

theorem witness_rearm_starts_or_shadows_a_pass_8 : ∃ (r : Reader) (c : BitVec 5) (met : List (Reader × Bool)) (s : State),
    (s.canAct r = true ∧
    alone r met s ∧
    c.toNat < Config.driftCh s.cfg ∧
    s.ownsCh r c.toFin = true ∧
    Config.rearm s.cfg = true) ∧
    ((s.chan c.toFin).state ≠ 1 ∧ (s.chan c.toFin).state ≠ 4 ∧ (s.chan c.toFin).state ≠ 5 ∨
      (s.chan c.toFin).state = 1 ∧ (s.chan c.toFin).persist = false) :=
  ⟨16, 0, [], liveH { state := 2 }, by decide +kernel, Or.inl (by decide +kernel)⟩

theorem witness_rearm_starts_or_shadows_a_pass_9 : ∃ (r : Reader) (c : BitVec 5) (met : List (Reader × Bool)) (st : DriftSet) (s : State),
    s.canAct r = true ∧
    alone r met s ∧
    c.toNat < Config.driftCh s.cfg ∧
    s.ownsCh r c.toFin = true ∧
    Config.rearm s.cfg = true ∧
    (s.chan c.toFin).state = 1 ∧
    (s.chan c.toFin).persist = true ∧
    (s.chan c.toFin).set = some st ∧
    st.chainEnd = true :=
  ⟨16, 0, [], setA, liveH { state := 1, persist := true, set := some setA }, by decide +kernel⟩

theorem witness_rearm_starts_or_shadows_a_pass_10 : ∃ (c : BitVec 5) (b : Bases) (st : DriftSet) (code : BitVec 4) (p : Bool) (s : State) (r : Reader) (met : List (Reader × Bool)),
    (s.powered = true ∧
    Config.rearm s.cfg = true ∧
    (s.chan c.toFin).state = 4 ∧
    (s.chan c.toFin).cached = some st ∧
    (s.chan c.toFin).halting = false ∧
    (s.chan c.toFin).stopping = false ∧
    (s.chan c.toFin).order = none ∧
    7 ≤ code.toNat) ∧
    let s1 := s.modCh c.toFin fun y => { y with state := 1, bases := b, shadow := none, cached := none, marked :=
                                                  false }
    s1.checkDescs c.toFin { s.chan c.toFin with bases := b, version := none } (s.chan c.toFin).firstLen 0
      (s.chan c.toFin).persist st.descs = ([], some code, p) ∧
    s.canAct r = true ∧
    alone r met s ∧
    s.ownsCh r c.toFin = true ∧
    (s.chan c.toFin).shadow = none ∧
    b = s.basesOf r :=
  ⟨0, {}, { descs := [{ descA with iaddr := 4096 }] }, 10, false, liveH { state := 4, cached := some { descs := [{ descA with iaddr := 4096 }] } }, 16, [], by decide +kernel, by decide +kernel⟩

theorem witness_rearm_starts_or_shadows_a_pass_11 : ∃ (c : BitVec 5) (b : Bases) (st : DriftSet) (code : BitVec 4) (p : Bool) (s : State),
    (s.powered = true ∧
    Config.rearm s.cfg = true ∧
    (s.chan c.toFin).state = 4 ∧
    (s.chan c.toFin).cached = some st ∧
    (s.chan c.toFin).halting = false ∧
    (s.chan c.toFin).stopping = false ∧
    (s.chan c.toFin).order = none ∧
    7 ≤ code.toNat) ∧
    let s1 := s.modCh c.toFin fun y => { y with state := 1, bases := b, shadow := none, cached := none, marked :=
                                                  false }
    s1.checkDescs c.toFin { s.chan c.toFin with bases := b, version := none } (s.chan c.toFin).firstLen 0
      (s.chan c.toFin).persist st.descs = ([], some code, p) ∧
    (s.chan c.toFin).shadow = some b :=
  ⟨0, {}, { descs := [{ descA with iaddr := 4096 }] }, 10, false, liveH { state := 4, cached := some { descs := [{ descA with iaddr := 4096 }] }, shadow := some {} }, by decide +kernel, by decide +kernel⟩

theorem witness_channels_are_owned_stopped_and_resumed_1 : ∃ (r : Reader) (c : Fin 32) (s : State),
    s.canAct r = true ∧
    c.val < Config.driftCh s.cfg ∧
    s.privileged r = true ∧
    (s.chan c).state ≠ 1 ∧
    (s.chan c).state ≠ 4 ∧
    (s.chan c).state ≠ 5 :=
  ⟨16, 31, live, by decide +kernel⟩

theorem witness_channels_are_owned_stopped_and_resumed_2 : ∃ (r : Reader) (c : Fin 32) (s : State),
    (s.canAct r = true ∧
    c.val < Config.driftCh s.cfg ∧
    s.privileged r = true) ∧
    ((s.chan c).state = 1 ∨ (s.chan c).state = 4 ∨ (s.chan c).state = 5) :=
  ⟨16, 0, liveH { state := 4 }, by decide +kernel, Or.inr (Or.inl (by decide +kernel))⟩

theorem witness_channels_are_owned_stopped_and_resumed_3 : ∃ (r : Reader) (c : Fin 32) (s : State),
    s.canAct r = true ∧
    c.val < Config.driftCh s.cfg ∧
    s.ownsCh r c = false :=
  ⟨0, 0, liveU.modCh 0 fun x => { x with owner := 1 }, by decide +kernel⟩

theorem witness_channels_are_owned_stopped_and_resumed_4 : ∃ (r : Reader) (c : BitVec 5) (st : DriftSet) (d : Desc) (id : Nat) (l : List Nat) (s : State),
    s.canAct r = true ∧
    c.toNat < Config.driftCh s.cfg ∧
    s.ownsCh r c.toFin = true ∧
    (s.chan c.toFin).state = 5 ∧
    (s.chan c.toFin).stopping = false ∧
    (s.chan c.toFin).halting = false ∧
    (s.chan c.toFin).set = some st ∧
    st.chainEnd = true ∧
    st.issued = 0 ∧
    s.descMelted d c.toFin = false ∧
    st.sb = some id ∧
    st.slotSb = none ∧
    (s.ice.sb.alloc.any fun a => a.id == id) = true ∧
    st.descs[st.cur]? = some d ∧
    d.isLoad = true ∧
    d.rel = false ∧
    d.empty = false ∧
    d.buffered = false ∧
    d.idx = false ∧
    st.performed = false ∧
    st.need = none ∧
    st.got = [] ∧
    s.descReviving d c.toFin = false ∧
    s.morDone id = true ∧
    d.readLines st.idxs (rowsFrom st.startRow d.pr) = l ∧
    l ≠ [] :=
  ⟨16, 0, setA, descA, 0, [0x1000], liveH { state := 5, set := some setA }, by decide +kernel⟩

theorem witness_channels_are_owned_stopped_and_resumed_5 : ∃ (r : Reader) (c : BitVec 5) (s : State),
    s.canAct r = true ∧
    c.toNat < Config.driftCh s.cfg ∧
    s.ownsCh r c.toFin = true ∧
    (s.chan c.toFin).state ≠ 5 :=
  ⟨16, 0, liveH { state := 1 }, by decide +kernel⟩

theorem witness_channels_are_owned_stopped_and_resumed_6 : ∃ (c : Fin 32) (s : State),
    (s.powered = true ∧
    (s.chan c).stopping = true ∧
    (s.chan c).order = none ∧
    (s.chan c).burstOut = false) ∧
    (∀ st, (s.chan c).set = some st → st.wlines = [] ∧ st.need = none ∧ st.issued ≤ st.got.length) ∧
    (∀ a ∈ (s.chan c).accesses, s.morDone a = true ∧ s.firnIdle a) :=
  ⟨0, liveH { state := 1, stopping := true, set := some setA }, by decide +kernel, fun st h => (Option.some.inj h) ▸ ⟨rfl, rfl, by decide⟩, fun a h => ⟨by revert a h; decide +kernel, (noFirn _ (by decide +kernel) _).2⟩⟩

/-- `setA` as a store that has failed at row 0. -/
def setF : DriftSet := { descs := [{ descA with dir := 1 }], sb := some 0, fail := some (0, 3, 0x1000) }

/-- `descA` into flow buffer 1. -/
def descB : Desc := { descA with bufi := true, buf := 1 }

/-- Flow buffer 1 with two slots of 16 words from channel 0 to hart 2. -/
def bufA : FlowBuf := { slot := 16, count := 2, prod := 0, cons := 34 }

/-- `liveH` with flow buffers 1 and 2. -/
def liveI (x : Channel) (b c : FlowBuf) : State :=
  let s := liveH x
  { s with drf := { s.drf with fb := vset (vset s.drf.fb 1 b) 2 c } }

/-- A full buffer 1 blocks channel 0 of hart 1; hart 2, its consumer, waits for buffer 2 that channel 0 fills. -/
def liveJ : State :=
  (liveI { owner := 1, state := 1, set := some { descs := [descB], sb := some 0 } } { bufA with head := 2 } bufA).modHart 2
    fun t => { t with halted := false, wait := .wfi, csr := { t.csr with even := 0x10, fbw := 4 } }

theorem witness_channels_are_owned_stopped_and_resumed_7 : ∃ (c : Fin 32) (st : DriftSet) (d : Desc) (row addr : Nat) (cause : BitVec 3) (s : State),
    (s.powered = true ∧
    (s.chan c).set = some st ∧
    st.descs[st.cur]? = some d ∧
    d.isStore = true ∧
    (s.chan c).halting = true ∧
    (s.chan c).stopping = false ∧
    (s.chan c).state = 1 ∧
    (s.chan c).burstOut = false ∧
    st.wlines = [] ∧
    st.fail = some (row, cause, addr) ∧
    cause ≠ 0 ∧
    row < d.pr ∧
    (s.chan c).order = none ∧
    st.issued ≤ st.got.length ∧
    s.morDone (s.driftAcc st) = true) ∧
    s.firnIdle (s.driftAcc st) :=
  ⟨0, setF, { descA with dir := 1 }, 0, 0x1000, 3, liveH { state := 1, halting := true, set := some setF }, by decide +kernel, (noFirn _ (by decide +kernel) _).2⟩

theorem witness_flow_buffers_count_and_grant_slots_1 : ∃ (r : Reader) (s : State),
    s.canAct r = true ∧
    s.privileged r = true :=
  ⟨16, live, by decide +kernel⟩

theorem witness_flow_buffers_count_and_grant_slots_2 : ∃ (h : Hart) (s : State),
    s.canAct (Hart.reader h) = true :=
  ⟨2, (liveI {} bufA bufA).modHart 2 fun t => { t with halted := false }, by decide +kernel⟩

theorem witness_flow_buffers_count_and_grant_slots_3 : ∃ (c : Fin 32) (st : DriftSet) (d : Desc) (p : Bool) (s : State),
    s.powered = true ∧
    s.current c = some (st, d) ∧
    d.rel = false ∧
    d.empty = false ∧
    d.buffered = true ∧
    st.performed = false ∧
    st.slot = none ∧
    st.slotSb = none ∧
    d.role (s.drf.fb.get d.buf) c = some p ∧
    (s.drf.fb.get d.buf).open p = true ∧
    (∀ a ∈ s.ice.sb.alloc, a.id ≠ s.ice.sb.nextId) :=
  ⟨0, { descs := [descB], sb := some 0 }, descB, true, liveI { state := 1, set := some { descs := [descB], sb := some 0 } } bufA bufA, by decide +kernel⟩

/-- A channel that waits for one descriptor. -/
def chanW : Channel := { state := 1, fetchN := some 1 }

/-- The line of `wordsA`. -/
def lineA : LineResult := .ok (Vector.ofFn fun i => wordsA.getD i.val 0)

theorem witness_descriptor_sets_are_checked_on_arrival_1 : ∃ (c : Fin 32) (ls got : List LineResult) (ds : List Desc) (p : Bool) (s : State),
    s.powered = true ∧
    burstFor c ls got s ∧
    failedLines got = [] ∧
    ds = got.map descOf ∧
    ds ≠ [] ∧
    s.checkDescs c (s.chan c) (if (s.chan c).fetched = 0 then ds.length else (s.chan c).firstLen) (s.chan c).fetched
      (s.chan c).persist ds = (ds, none, p) ∧
    s.setRanges c ds ≠ [] ∧
    (∀ a ∈ s.ice.sb.alloc, a.id ≠ s.ice.sb.nextId) :=
  ⟨0, [lineA], [lineA], [descA], false, liveM.modCh 0 fun _ => chanW, by decide +kernel, ⟨by decide +kernel, by decide +kernel, by decide +kernel, by decide +kernel, by decide +kernel, by decide +kernel, by decide +kernel, ⟨1, by decide +kernel⟩⟩, by decide +kernel⟩

theorem witness_descriptor_sets_are_checked_on_arrival_2 : ∃ (c : Fin 32) (ls got : List LineResult) (d : Desc) (r : List Desc) (code : BitVec 4) (s : State),
    s.powered = true ∧
    burstFor c ls got s ∧
    failedLines got = [] ∧
    got.map descOf = d :: r ∧
    (s.chan c).order = none ∧
    s.descCheck c (s.chan c) (s.chan c).fetched
      (if (s.chan c).fetched = 0 then (d :: r).length else (s.chan c).firstLen) (s.chan c).persist d = some code ∧
    7 ≤ code.toNat :=
  ⟨0, [lineA], [lineA], descA, [], 11, live.modCh 0 fun _ => chanW, by decide +kernel, ⟨by decide +kernel, by decide +kernel, by decide +kernel, by decide +kernel, by decide +kernel, by decide +kernel, by decide +kernel, ⟨1, by decide +kernel⟩⟩, by decide +kernel⟩

theorem witness_descriptor_sets_are_checked_on_arrival_3 : ∃ (c : Fin 32) (ls got : List LineResult) (k : FabricFault) (i : Nat) (rest : List (FabricFault × Nat)) (s : State),
    s.powered = true ∧
    burstFor c ls got s ∧
    failedLines got = (k, i) :: rest ∧
    (s.chan c).burstVersion got = some 2 :=
  ⟨0, [.fail .data], [.fail .data], .data, 0, [], liveM.modCh 0 fun _ => { chanW with version := some 2 }, by decide +kernel, ⟨by decide +kernel, by decide +kernel, by decide +kernel, by decide +kernel, by decide +kernel, by decide +kernel, by decide +kernel, ⟨1, by decide +kernel⟩⟩, by decide +kernel⟩

theorem witness_descriptor_sets_are_checked_on_arrival_4 : ∃ (c : Fin 32) (ls got : List LineResult) (k : FabricFault) (i : Nat) (rest : List (FabricFault × Nat)) (s : State),
    s.powered = true ∧
    burstFor c ls got s ∧
    failedLines got = (k, i) :: rest ∧
    (s.chan c).burstVersion got ≠ some 2 :=
  ⟨0, [.fail .data], [.fail .data], .data, 0, [], liveM.modCh 0 fun _ => { chanW with version := some 3 }, by decide +kernel, ⟨by decide +kernel, by decide +kernel, by decide +kernel, by decide +kernel, by decide +kernel, by decide +kernel, by decide +kernel, ⟨1, by decide +kernel⟩⟩, by decide +kernel⟩

theorem witness_sets_retire_and_lines_are_answered_1 : ∃ (c : Fin 32) (st : DriftSet) (s : State),
    (s.powered = true ∧
    (s.chan c).state = 1 ∧
    (s.chan c).halting = false ∧
    (s.chan c).stopping = false ∧
    (s.chan c).set = some st ∧
    st.descs.length ≤ st.cur ∧
    st.failCode = none ∧
    st.chainEnd = true) ∧
    (Config.rearm s.cfg = false ∨ (s.chan c).persist = false) ∧
    (s.chan c).order = none ∧
    (∀ id, st.sb = some id → s.morDone id = true ∧ s.firnWhole id) :=
  ⟨0, { setA with cur := 1 }, liveH { state := 1, set := some { setA with cur := 1 } }, by decide +kernel, Or.inr (by decide +kernel), by decide +kernel, fun id h => ⟨by cases h; decide +kernel, (noFirn _ (by decide +kernel) _).1⟩⟩

theorem witness_sets_retire_and_lines_are_answered_2 : ∃ (c : Fin 32) (addr : BitVec 48) (st : DriftSet) (l : List Nat) (s : State),
    (s.powered = true ∧
    (s.chan c).set = some st ∧
    st.need = some l ∧
    st.issued = l.length ∧
    addr.toNat ∈ l ∧
    (∀ g ∈ st.got, g.1 ≠ addr.toNat) ∧
    s.driveStep c = none) ∧
    (∃ a ∈ l, a ≠ addr.toNat ∧ ∀ g ∈ st.got, g.1 ≠ a) :=
  ⟨0, 0x1000, { setA with need := some [0x1000, 0x1040], issued := 2 }, [0x1000, 0x1040], liveH { state := 1, set := some { setA with need := some [0x1000, 0x1040], issued := 2 } }, by decide +kernel, ⟨0x1040, by decide +kernel⟩⟩

theorem witness_sets_retire_and_lines_are_answered_3 : ∃ (c : Fin 32) (addr : BitVec 48) (st : DriftSet) (l : List Nat) (s : State),
    (s.powered = true ∧
    (s.chan c).set = some st ∧
    st.need = some l ∧
    st.issued = l.length ∧
    addr.toNat ∈ l ∧
    (∀ g ∈ st.got, g.1 ≠ addr.toNat) ∧
    s.driveStep c = none) ∧
    (∃ a ∈ l, a ≠ addr.toNat ∧ ∀ g ∈ st.got, g.1 ≠ a) ∧
    (s.chan c).version ≠ some 2 :=
  ⟨0, 0x1040, { setA with need := some [0x1000, 0x1040], issued := 2 }, [0x1000, 0x1040], liveH { state := 1, version := some 3, set := some { setA with need := some [0x1000, 0x1040], issued := 2 } }, by decide +kernel, ⟨0x1000, by decide +kernel⟩, by decide +kernel⟩

theorem witness_sets_retire_and_lines_are_answered_4 : ∃ (c : Fin 32) (addr : BitVec 48) (st : DriftSet) (l : List Nat) (s : State),
    (s.powered = true ∧
    (s.chan c).set = some st ∧
    st.need = some l ∧
    st.issued = l.length ∧
    addr.toNat ∈ l ∧
    (∀ g ∈ st.got, g.1 ≠ addr.toNat) ∧
    s.driveStep c = none) ∧
    (∃ a ∈ l, a ≠ addr.toNat ∧ ∀ g ∈ st.got, g.1 ≠ a) ∧
    (s.chan c).version = some 2 :=
  ⟨0, 0x1000, { setA with need := some [0x1000, 0x1040], issued := 2 }, [0x1000, 0x1040], liveH { state := 1, version := some 2, set := some { setA with need := some [0x1000, 0x1040], issued := 2 } }, by decide +kernel, ⟨0x1040, by decide +kernel⟩, by decide +kernel⟩

theorem witness_sets_retire_and_lines_are_answered_5 : ∃ (c : Fin 32) (st : DriftSet) (w v : WLine) (l : List WLine) (s : State),
    s.powered = true ∧
    (s.chan c).set = some st ∧
    st.wlines = w :: v :: l ∧
    st.performed = true ∧
    st.idxs = [] ∧
    (∀ d ∈ st.descs, d.empty = false) :=
  ⟨0, { setF with fail := none, performed := true, wlines := [{ addr := 0x1000, bytes := [(4, 7)] }, { addr := 0x1040, bytes := [(0, 7)] }] }, { addr := 0x1000, bytes := [(4, 7)] }, { addr := 0x1040, bytes := [(0, 7)] }, [], liveH { state := 1, set := some { setF with fail := none, performed := true, wlines := [{ addr := 0x1000, bytes := [(4, 7)] }, { addr := 0x1040, bytes := [(0, 7)] }] } }, by decide +kernel⟩

theorem witness_sets_retire_and_lines_are_answered_6 : ∃ (c : Fin 32) (st : DriftSet) (w v : WLine) (l : List WLine) (s : State),
    s.powered = true ∧
    (s.chan c).set = some st ∧
    st.wlines = w :: v :: l ∧
    st.performed = true ∧
    st.idxs = [] ∧
    (∀ d ∈ st.descs, d.empty = false) ∧
    (s.chan c).version ≠ some 2 :=
  ⟨0, { setF with fail := none, performed := true, wlines := [{ addr := 0x1000, bytes := [(4, 7)] }, { addr := 0x1040, bytes := [(0, 7)] }] }, { addr := 0x1000, bytes := [(4, 7)] }, { addr := 0x1040, bytes := [(0, 7)] }, [], liveH { state := 1, version := some 3, set := some { setF with fail := none, performed := true, wlines := [{ addr := 0x1000, bytes := [(4, 7)] }, { addr := 0x1040, bytes := [(0, 7)] }] } }, by decide +kernel⟩

/-- A load of two rows of one element by index from channel 1. -/
def descI : Desc := { descA with idx := true, nrow := 2, imax := 4, ich := 1 }

theorem witness_indices_and_deadlocks_1 : ∃ (c : Fin 32) (st : DriftSet) (d : Desc) (l : List Nat) (idxs : List Int) (s : State),
    (s.powered = true ∧
    s.current c = some (st, d) ∧
    d.rel = false ∧
    d.empty = false ∧
    d.buffered = false ∧
    d.isLoad = true ∧
    d.idx = true ∧
    st.performed = false ∧
    st.need = none ∧
    st.got = [] ∧
    st.issued = 0 ∧
    st.startRow = 0 ∧
    s.descReviving d c = false ∧
    s.descMelted d c = false ∧
    s.morDone (s.driftAcc st) = true ∧
    st.idxs.length < d.indexCount) ∧
    (idxs = st.idxs ++ (s.chan c).queue ∧ idxs.length = d.indexCount ∨
      (s.chan c).queue = [] ∧ s.indexRetired d.coupled = true ∧
      idxs = st.idxs ++ List.replicate (d.indexCount - st.idxs.length) (-2)) ∧
    d.readLines idxs (rowsFrom 0 d.pr) = l ∧
    l ≠ [] :=
  ⟨0, { descs := [descI], sb := some 0 }, descI, [0x1000], [0, 3], liveH { state := 1, set := some { descs := [descI], sb := some 0 }, queue := [0, 3] }, by decide +kernel, Or.inl (by decide +kernel), by decide +kernel⟩

theorem witness_indices_and_deadlocks_2 : ∃ (p : Party) (l : List Hart) (s : State),
    (s.powered = true ∧
    s.pruneCycles.cycleOf p = some l ∧
    s.callOf (s.partyHart p) = none) ∧
    (l ∈ s.pruneCycles.drf.watch.cycles ∨ s.pruneCycles.closer l ≠ some p) :=
  ⟨.channel 0, [1, 2], let s := liveJ; { s with drf := { s.drf with watch := { s.drf.watch with cycles := [[1, 2]] } } }, by decide +kernel, Or.inl (by decide +kernel)⟩

theorem witness_indices_and_deadlocks_3 : ∃ (p : Party) (l : List Hart) (s : State),
    s.powered = true ∧
    s.pruneCycles.cycleOf p = some l ∧
    s.callOf (s.partyHart p) = none ∧
    l ∉ s.pruneCycles.drf.watch.cycles ∧
    s.pruneCycles.closer l = some p :=
  ⟨.hartWait 2, [1, 2], liveJ, by decide +kernel⟩

theorem witness_drifts_and_moraine_move_their_words_1 : ∃ (c : Fin 32) (st : DriftSet) (d : Desc) (f : Fin 64) (p id : Nat) (hash : Bool) (s : State),
    (s.powered = true ∧
    s.fieldCanonical ∧
    oneDescriptor (s.chan c) st d ∧
    oneWord d ∧
    st.sb = some id ∧
    s.descReviving d c = false ∧
    s.descMelted d c = false ∧
    s.morDone id = true) ∧
    s.firnReady id (.drift c) ∧
    (s.floe f).used = true ∧
    (s.floe f).window.1 ≤ wordPart d.iaddr ∧
    wordPart d.iaddr < (s.floe f).window.2 ∧
    (∀ g, g ≠ f → (s.floe g).used = true → wordPart d.iaddr < (s.floe g).window.1 ∨ (s.floe g).window.2 ≤ wordPart d.iaddr) ∧
    s.place f (wordPart d.iaddr) = some (.phys p hash) ∧
    d.isLoad = true ∧
    (s.ice.sb.alloc.any fun a => a.id == id) = true ∧
    st.need = some [lineOf d.faddr.toNat] ∧
    st.issued = 1 ∧
    (s.chan c).next = none ∧
    (s.chan c).order = none :=
  ⟨0, { descs := [descA], sb := some 0, need := some [0x1000], issued := 1 }, descA, 0, 9, 0, false, liveH { state := 1, set := some { descs := [descA], sb := some 0, need := some [0x1000], issued := 1 } }, by decide +kernel, Or.inr (by decide +kernel), by decide +kernel⟩

/-- A store of one INT32 element whose access waits. -/
def liveO : State :=
  let s := (liveV (.drift 0) 9 9 false).modCh 0 fun _ =>
    { state := 1, set := some { descs := [{ descA with dir := 1 }], sb := some 0 } }
  { s with ice := { s.ice with cells := sset 0 [] (s.cellAt 9 0) (encodeClean 77) } }

theorem witness_drifts_and_moraine_move_their_words_2 : ∃ (c : Fin 32) (st : DriftSet) (d : Desc) (f : Fin 64) (p id : Nat) (hash : Bool) (s : State) (a : Access) (w : Word),
    (s.powered = true ∧
    s.fieldCanonical ∧
    oneDescriptor (s.chan c) st d ∧
    oneWord d ∧
    st.sb = some id ∧
    s.descReviving d c = false ∧
    s.descMelted d c = false ∧
    s.morDone id = true) ∧
    s.firnReady id (.drift c) ∧
    (s.floe f).used = true ∧
    (s.floe f).window.1 ≤ wordPart d.iaddr ∧
    wordPart d.iaddr < (s.floe f).window.2 ∧
    (∀ g, g ≠ f → (s.floe g).used = true → wordPart d.iaddr < (s.floe g).window.1 ∨ (s.floe g).window.2 ≤ wordPart d.iaddr) ∧
    s.place f (wordPart d.iaddr) = some (.phys p hash) ∧
    d.isStore = true ∧
    s.nextAccess = some a ∧
    a.who = .drift c ∧
    a.id = id ∧
    (s.allocate id).storeHeld c st d = false ∧
    s.codewordAt (s.bankLevel p hash).1 (s.bankLevel p hash).2 = encodeClean w :=
  ⟨0, { descs := [{ descA with dir := 1 }], sb := some 0 }, { descA with dir := 1 }, 0, 9, 0, false, liveO, { id := 0, who := .drift 0, ranges := [{ lo := 9, hi := 9, write := false }] }, 77, by decide +kernel, Or.inr (by decide +kernel), by decide +kernel⟩

theorem witness_drifts_and_moraine_move_their_words_3 : ∃ (l : MorLine) (rest : List MorLine) (s : State),
    s.powered = true ∧
    s.ice.morLines = l :: rest ∧
    l.write = none ∧
    l.acc ∉ s.ice.morClosing ∧
    morIssuedFor s l.acc :=
  ⟨{ floe := 0, addr := 64, acc := 0 }, [], { liveM with ice := { liveM.ice with morLines := [{ floe := 0, addr := 64, acc := 0 }] } }, by decide +kernel⟩

theorem witness_drifts_and_moraine_move_their_words_4 : ∃ (l : MorLine) (s : State),
    s.powered = true ∧
    s.ice.morLines = [l] ∧
    l.acc ∈ s.ice.morClosing ∧
    morIssuedFor s l.acc :=
  ⟨{ floe := 0, addr := 64, acc := 0, write := some [] }, let s := liveA .mortar 0 9 true; { s with ice := { s.ice with morLines := [{ floe := 0, addr := 64, acc := 0, write := some [] }], morClosing := [0] } }, by decide +kernel⟩

theorem witness_drifts_and_moraine_move_their_words_5 : ∃ (l : MorLine) (b : List (Nat × BitVec 8)) (rest : List MorLine) (s : State),
    s.powered = true ∧
    s.ice.morLines = l :: rest ∧
    l.write = some b ∧
    8 ≤ s.boot.stage.toNat ∧
    s.err.stat = .running :=
  ⟨{ floe := 0, addr := 64, acc := 0, write := some [] }, [], [], let s := liveA .mortar 0 9 true; { s with ice := { s.ice with morLines := [{ floe := 0, addr := 64, acc := 0, write := some [] }], morClosing := [0] } }, by decide +kernel⟩

/-- `liveM` with port 0 and window 2 as given. -/
def liveP0 (p : Port) (w : Window) : State := (liveM.modPort 0 fun _ => p).modWin 2 fun _ => w

/-- A port that is up. -/
def portUp : Port := { state := .up, ver := 2 }

/-- A window of four lines at word 64 bound to port 0. -/
def winA : Window := { isOpen := true, addr := 64, lines := 4, gen := 1, granted := 4 }

/-- `liveP0 portUp {}` with an OPEN of four lines at word 64 staged for the management processor. -/
def liveOpen : State := (liveP0 portUp {}).modNbrRegs 16 fun g => { g with stage := #v[64, 4, 0, 0] }

/-- An arrival of one word for window 2. -/
def arrA : Arrival :=
  { win := 2, word := 64, seq := 0, wmask := 0x8000, smark := 0x8000, payload := Vector.replicate 16 5, sb := 0 }

/-- `arrA` at the head of port 0, its access allocated. -/
def liveArr : State :=
  ((liveA (.arrival 0) 64 79 true).modPort 0 fun _ => { portUp with arrivals := [arrA] }).modWin 2 fun _ => winA

theorem witness_windows_open_credit_read_and_close_1 : ∃ (r : Reader) (others : List Reader) (s : State),
    s.canAct r = true ∧
    s.privileged r = true ∧
    s.takes r others = false :=
  ⟨3, [16], { live with harts := vset live.harts 3 { halted := false } }, by decide +kernel⟩

theorem witness_windows_open_credit_read_and_close_2 : ∃ (r : Reader) (w : Fin 64) (others : List Reader) (s : State) (code : _),
    (s.canAct r = true ∧
    s.privileged r = true) ∧
    let g := (s.nbr.regs.get r).stage
    s.takes r others = true ∧
    s.openCheck w g = some code :=
  ⟨16, 2, [3], { live with harts := vset live.harts 3 { halted := false } }, 1, by decide +kernel, by decide +kernel⟩

theorem witness_windows_open_credit_read_and_close_3 : ∃ (r : Reader) (w : Fin 64) (others : List Reader) (s : State),
    (s.canAct r = true ∧
    s.privileged r = true) ∧
    let g := (s.nbr.regs.get r).stage
    let p : Fin 4 := ((g.get 1).extractLsb' 20 2).toFin
    s.takes r others = true ∧
    s.openCheck w g = none ∧
    maySend s p :=
  ⟨16, 2, [], liveOpen, by decide +kernel, by decide +kernel⟩

theorem witness_windows_open_credit_read_and_close_4 : ∃ (r : Reader) (others : List Reader) (s : State),
    s.canAct r = true ∧
    s.privileged r = true ∧
    s.takes r others = true :=
  ⟨0, [], liveP0 portUp winA, by decide +kernel⟩

theorem witness_windows_open_credit_read_and_close_5 : ∃ (r : Reader) (w : Fin 64) (others : List Reader) (s : State),
    s.canAct r = true ∧
    s.privileged r = true ∧
    s.takes r others = true ∧
    (s.win w).isOpen = false :=
  ⟨0, 63, [3], { live with harts := vset live.harts 3 { halted := false } }, by decide +kernel⟩

theorem witness_windows_open_credit_read_and_close_6 : ∃ (r : Reader) (w : Fin 64) (others : List Reader) (s : State),
    s.canAct r = true ∧
    s.privileged r = true ∧
    s.takes r others = true ∧
    (s.win w).isOpen = true ∧
    (s.port (s.win w).port).state = .up ∧
    maySend s (s.win w).port :=
  ⟨0, 2, [], liveP0 portUp winA, by decide +kernel⟩

theorem witness_windows_open_credit_read_and_close_7 : ∃ (r : Reader) (w : Fin 64) (others : List Reader) (s : State),
    s.canAct r = true ∧
    s.privileged r = true ∧
    s.takes r others = true ∧
    (s.win w).isOpen = true :=
  ⟨0, 2, [], liveArr, by decide +kernel⟩

theorem witness_windows_open_credit_read_and_close_8 : ∃ (w : Fin 64) (p : Fin 4) (a : Arrival) (s : State),
    a ∈ (s.port p).arrivals ∧
    a.win = w :=
  ⟨2, 0, arrA, liveArr, by decide +kernel⟩

theorem witness_windows_open_credit_read_and_close_9 : ∃ (w : Fin 64) (r : Reader) (s : State),
    s.powered = true ∧
    (s.win w).closing = true ∧
    (s.win w).silent = false ∧
    (∀ p : Fin 4, ∀ a ∈ (s.port p).arrivals, a.win ≠ w) ∧
    s.nbr.closers = [(w, some r, none)] ∧
    (s.port (s.win w).port).state = .up ∧
    maySend s (s.win w).port :=
  ⟨2, 16, { (liveP0 portUp { winA with closing := true }) with nbr := { (liveP0 portUp { winA with closing := true }).nbr with closers := [(2, some 16, none)] } }, by decide +kernel⟩

theorem witness_data_messages_land_and_are_counted_1 : ∃ (p : Fin 4) (seq : BitVec 16) (s : State),
    s.powered = true ∧
    (s.port p).state = .up ∧
    (s.port p).rxSeq = seq ∧
    128 ≤ (s.port p).arrivals.length :=
  ⟨0, 0, liveP0 { portUp with arrivals := List.replicate 128 arrA } winA, by decide +kernel⟩

theorem witness_data_messages_land_and_are_counted_2 : ∃ (p : Fin 4) (seq : BitVec 16) (s : State),
    s.powered = true ∧
    (s.port p).state = .up ∧
    (s.port p).rxSeq ≠ seq :=
  ⟨0, 0, liveP0 { portUp with rxSeq := 1 } winA, by decide +kernel⟩

theorem witness_data_messages_land_and_are_counted_3 : ∃ (p : Fin 4) (w : Fin 64) (gen seq : BitVec 16) (s : State),
    (s.powered = true ∧
    (s.port p).state = .up ∧
    (s.port p).rxSeq = seq ∧
    (s.port p).arrivals.length < 128) ∧
    ((s.win w).isOpen = false ∨ (s.win w).closing = true ∨ (s.win w).port ≠ p ∨ (s.win w).gen ≠ gen) :=
  ⟨0, 2, 1, 0, liveP0 portUp { winA with closing := true }, by decide +kernel, Or.inr (Or.inl (by decide +kernel))⟩

theorem witness_data_messages_land_and_are_counted_4 : ∃ (p : Fin 4) (w : Fin 64) (gen : BitVec 16) (line : BitVec 20) (seq : BitVec 16) (s : State),
    s.powered = true ∧
    (s.port p).state = .up ∧
    (s.port p).rxSeq = seq ∧
    (s.port p).arrivals.length < 128 ∧
    (s.win w).isOpen = true ∧
    (s.win w).closing = false ∧
    (s.win w).port = p ∧
    (s.win w).gen = gen ∧
    (s.win w).lines.toNat ≤ line.toNat :=
  ⟨0, 2, 1, 4, 0, liveP0 portUp winA, by decide +kernel⟩

theorem witness_data_messages_land_and_are_counted_5 : ∃ (p : Fin 4) (w : Fin 64) (gen : BitVec 16) (line : BitVec 20) (seq : BitVec 16) (s : State) (code : BitVec 4) (i : Nat),
    s.powered = true ∧
    (s.port p).state = .up ∧
    (s.port p).rxSeq = seq ∧
    (s.port p).arrivals.length < 128 ∧
    (s.win w).isOpen = true ∧
    (s.win w).closing = false ∧
    (s.win w).port = p ∧
    (s.win w).gen = gen ∧
    line.toNat < (s.win w).lines.toNat ∧
    i < 16 ∧
    s.wordBad (floePart (s.win w).addr) (wordPart (s.win w).addr + 16 * line.toNat + i) = some code ∧
    (code = 6 → ∀ j < 16, s.wordBad (floePart (s.win w).addr) (wordPart (s.win w).addr + 16 * line.toNat + j) ≠ some 5) :=
  ⟨0, 2, 1, 3, 0, liveP0 portUp { winA with addr := 0x04000000 }, 5, 0, by decide +kernel⟩

theorem witness_data_messages_land_and_are_counted_6 : ∃ (p : Fin 4) (w : Fin 64) (gen : BitVec 16) (line : BitVec 20) (seq : BitVec 16) (s : State),
    s.powered = true ∧
    (s.port p).state = .up ∧
    (s.port p).rxSeq = seq ∧
    (s.port p).arrivals.length < 128 ∧
    (s.win w).isOpen = true ∧
    (s.win w).closing = false ∧
    (s.win w).port = p ∧
    (s.win w).gen = gen ∧
    line.toNat < (s.win w).lines.toNat ∧
    (∀ i < 16, s.wordBad (floePart (s.win w).addr) (wordPart (s.win w).addr + 16 * line.toNat + i) = none) :=
  ⟨0, 2, 1, 3, 0, liveP0 portUp winA, by decide +kernel⟩

theorem witness_data_messages_land_and_are_counted_7 : ∃ (p : Fin 4) (a : Arrival) (l : List Arrival) (at' : Fin 16 → Nat × Bool) (s : State),
    (s.powered = true ∧
    s.fieldCanonical ∧
    (s.port p).arrivals = a :: l ∧
    a.written = false ∧
    (∀ b ∈ l, b.sb ≠ a.sb) ∧
    (s.ice.sb.waiting.any fun x => x.id == a.sb) = false ∧
    s.morDone a.sb = true) ∧
    let f := floePart (s.win a.win).addr
    let cellOf := fun (i : Fin 16) => s.cellAt (s.bankLevel (at' i).1 (at' i).2).1 (s.bankLevel (at' i).1 (at'
                                                  i).2).2
    ((∀ i, s.place f (a.word + i.val) = some (.phys (at' i).1 (at' i).2)) ∧
    (∀ i j, cellOf i = cellOf j → i = j) ∧
    (∀ i : Fin 16, s.wordBad f (a.word + i.val) = none) ∧
    s.wordReviving f a.word = false) ∧
    s.firnReady a.sb (.arrival p) :=
  ⟨0, arrA, [], fun i => (64 + i.val, false), liveArr, by decide +kernel, by decide +kernel, Or.inr (by decide +kernel)⟩

/-- A send of one line from word 64 to window 5. -/
def sendD : SendDesc := { id := 0, addr := 0, who := 0, win := 5, src := 64, nlines := 1, anygen := true, evt := true }

/-- `liveM` with port 0 up, a mirror of window 5, and a queue of sends. -/
def liveSend (l : List SendDesc) : State :=
  liveM.modPort 0 fun _ =>
    { portUp with mirror := vset portUp.mirror 5 { isOpen := true, gen := 7, lines := 8, credit := 8 }, sends := l }

/-- `liveSend []` with the words of a send descriptor at words 0 to 7. -/
def liveRead : State :=
  let s := liveSend []
  { s with ice := { s.ice with cells := ssetMany 0 [] [(s.cellAt 0 0, encodeClean 0x00000714), (s.cellAt 1 0, encodeClean 64),
      (s.cellAt 3 0, encodeClean 1)] } }

/-- `liveSend` with a completed send whose descriptor access is allocated. -/
def liveDone : State :=
  let s := liveSend [{ sendD with phase := .complete, doneSb := some 0, landed := 1, status := 1 }]
  { s with ice := { s.ice with sb := (liveA (.departure 0) 0 7 true).ice.sb } }

/-- An unanswered line of `sendD`. -/
def unA : Unanswered := { msg := { type := 1, win := 5, seq := 9 }, desc := some 0, resends := 7 }

/-- `sendD` with its line sent. -/
def sendE : SendDesc := { sendD with phase := .sending, nextLine := 1, outstanding := 1 }

/-- `liveSend` waiting for the answer to a line. -/
def liveUn (u : Unanswered) (retry : Bool) : State :=
  (liveSend [sendE]).modPort 0 fun q => { q with unanswered := [u], retryPending := retry, txSeq := 10 }

/-- The words of a send descriptor at words 0 to 7. -/
def sendData (i : Nat) : Word := [0x00000714, 64, 0, 1].getD i 0

/-- `liveRead` holds `sendData`. -/
theorem liveRead_words : ∀ i < 8, ∃ p h, liveRead.place (floePart 0) (wordPart 0 + i) = some (.phys p h) ∧
    liveRead.codewordAt (liveRead.bankLevel p h).1 (liveRead.bankLevel p h).2 = encodeClean (sendData i) := by
  intro i hi
  refine ⟨i, false, ?_⟩
  revert hi; revert i
  decide +kernel

theorem witness_send_descriptors_run_to_their_status_1 : ∃ (r : Reader) (addr : Word) (data : Nat → Word) (s : State),
    (s.canAct r = true ∧
    wordPart addr % 8 = 0 ∧
    s.wordsOk (floePart addr) (sendWords addr) = true ∧
    s.nbr.reading = [] ∧
    (∀ a ∈ s.ice.sb.waiting, a.id ≠ s.ice.sb.nextId) ∧
    (s.present (.departure 0) [{ lo := wordPart addr, hi := wordPart addr + 7, write := false }]).1.ice.sb.ready
      s.ice.sb.nextId = true ∧
    (sendWords addr).any (s.wordReviving (floePart addr)) = false ∧
    s.morDone s.ice.sb.nextId = true) ∧
    s.firnReady s.ice.sb.nextId (.departure 0) ∧
    (∀ i < 8, ∃ p h, s.place (floePart addr) (wordPart addr + i) = some (.phys p h) ∧
      s.codewordAt (s.bankLevel p h).1 (s.bankLevel p h).2 = encodeClean (data i)) ∧
    let q := sendOf s.nbr.nextSend addr r data
    (s.port q.1).state = .up ∧
    (s.port q.1).sends.length < 16 :=
  ⟨0, 0, sendData, liveRead, by decide +kernel, Or.inr (by decide +kernel), liveRead_words, by decide +kernel⟩

theorem witness_send_descriptors_run_to_their_status_2 : ∃ (p : Fin 4) (d : SendDesc) (l : List SendDesc) (s : State) (c : _),
    (s.powered = true ∧
    s.nbr.reading = [] ∧
    (s.port p).sends = d :: l ∧
    d.phase = .queued ∧
    d.stop = false ∧
    (∀ e ∈ l, e.id ≠ d.id ∧ e.outstanding = 0) ∧
    d.outstanding = 0) ∧
    (d.nlines = 0 ∧ c = 1 ∨ d.nlines ≠ 0 ∧ s.sendCheck p d = some c) :=
  ⟨0, { sendD with win := 6 }, [], liveSend [{ sendD with win := 6 }], 3, by decide +kernel, Or.inr (by decide +kernel)⟩

theorem witness_send_descriptors_run_to_their_status_3 : ∃ (p : Fin 4) (d : SendDesc) (l : List SendDesc) (s : State),
    s.powered = true ∧
    s.nbr.reading = [] ∧
    (s.port p).sends = d :: l ∧
    d.phase = .queued ∧
    d.stop = false ∧
    (∀ e ∈ l, e.id ≠ d.id ∧ e.outstanding = 0) ∧
    d.outstanding = 0 ∧
    d.nlines ≠ 0 ∧
    s.sendCheck p d = none :=
  ⟨0, sendD, [], liveSend [sendD], by decide +kernel⟩

theorem witness_send_descriptors_run_to_their_status_4 : ∃ (p : Fin 4) (d : SendDesc) (l : List SendDesc) (id i : Nat) (c : BitVec 4) (s : State),
    (s.powered = true ∧
    s.nbr.reading = [] ∧
    (s.port p).sends = d :: l ∧
    d.phase = .presented ∧
    d.sb = some id ∧
    (s.ice.sb.waiting.any fun x => x.id == id) = false ∧
    (∀ e ∈ l, e.id ≠ d.id ∧ e.outstanding = 0) ∧
    d.outstanding = 0 ∧
    (∀ j < 16 * d.nlines, s.wordReviving (floePart d.src) (wordPart d.src + j) = false) ∧
    i < 16 * d.nlines ∧
    s.wordBad (floePart d.src) (wordPart d.src + i) = some c) ∧
    (c = 6 → ∀ j < 16 * d.nlines, s.wordBad (floePart d.src) (wordPart d.src + j) ≠ some 5) :=
  ⟨0, { sendD with phase := .presented, sb := some 0, src := 4080 + 64 }, [], 0, 0, 5, liveSend [{ sendD with phase := .presented, sb := some 0, src := 4080 + 64 }], by decide +kernel, fun h => absurd h (by decide)⟩

theorem witness_send_descriptors_run_to_their_status_5 : ∃ (p : Fin 4) (d : SendDesc) (l : List SendDesc) (h : Hart) (id p5 p6 : Nat) (h5 h6 : Bool) (s : State),
    (s.powered = true ∧
    s.fieldCanonical ∧
    (s.port p).sends = d :: l ∧
    d.phase = .complete ∧
    d.sb = none ∧
    d.bond = false ∧
    d.doneSb = some id ∧
    d.who = Hart.reader h ∧
    (∀ e ∈ l, e.id ≠ d.id) ∧
    s.morDone id = true ∧
    s.wordsOk (floePart d.addr) [wordPart d.addr + 5, wordPart d.addr + 6] = true ∧
    (s.ice.sb.waiting.any fun x => x.id == id) = false ∧
    s.wordReviving (floePart d.addr) (wordPart d.addr + 5) = false) ∧
    s.firnReady id (.departure p) ∧
    (s.place (floePart d.addr) (wordPart d.addr + 5) = some (.phys p5 h5) ∧
    s.place (floePart d.addr) (wordPart d.addr + 6) = some (.phys p6 h6)) ∧
    let c5 := s.cellAt (s.bankLevel p5 h5).1 (s.bankLevel p5 h5).2
    let c6 := s.cellAt (s.bankLevel p6 h6).1 (s.bankLevel p6 h6).2
    c5 ≠ c6 :=
  ⟨0, { sendD with phase := .complete, doneSb := some 0, landed := 1, status := 1 }, [], 0, 0, 5, 6, false, false, liveDone, by decide +kernel, Or.inr (by decide +kernel), by decide +kernel, by decide +kernel⟩

theorem witness_answers_grants_and_revokes_are_taken_1 : ∃ (p : Fin 4) (u : Unanswered) (d : SendDesc) (s : State),
    s.powered = true ∧
    (s.port p).state = .up ∧
    (s.port p).unanswered = [u] ∧
    (s.port p).txWait = [] ∧
    u.desc = some d.id ∧
    (s.port p).sends = [d] ∧
    d.phase = .sending ∧
    d.nextLine = d.nlines ∧
    d.outstanding = 1 ∧
    d.status = 0 :=
  ⟨0, unA, sendE, liveUn unA false, by decide +kernel⟩

theorem witness_answers_grants_and_revokes_are_taken_2 : ∃ (p : Fin 4) (u : Unanswered) (d : SendDesc) (s : State) (why : Reason),
    s.powered = true ∧
    (s.port p).state = .up ∧
    (s.port p).unanswered = [u] ∧
    (s.port p).txWait = [] ∧
    u.desc = some d.id ∧
    (s.port p).sends = [d] ∧
    d.phase = .sending ∧
    d.nextLine = d.nlines ∧
    d.outstanding = 1 ∧
    d.status = 0 ∧
    why ≠ .retry :=
  ⟨0, unA, sendE, liveUn unA false, .melted, by decide +kernel⟩

theorem witness_answers_grants_and_revokes_are_taken_3 : ∃ (p : Fin 4) (u : Unanswered) (d : SendDesc) (s : State),
    s.powered = true ∧
    (s.port p).state = .up ∧
    (s.port p).unanswered = [u] ∧
    (s.port p).txWait = [] ∧
    u.desc = some d.id ∧
    (s.port p).sends = [d] ∧
    d.phase = .sending ∧
    d.nextLine = d.nlines ∧
    d.outstanding = 1 ∧
    d.status = 0 ∧
    (s.port p).retryPending = true :=
  ⟨0, unA, sendE, liveUn unA true, by decide +kernel⟩

theorem witness_answers_grants_and_revokes_are_taken_4 : ∃ (p : Fin 4) (u : Unanswered) (d : SendDesc) (s : State),
    s.powered = true ∧
    (s.port p).state = .up ∧
    (s.port p).unanswered = [u] ∧
    (s.port p).txWait = [] ∧
    u.desc = some d.id ∧
    (s.port p).sends = [d] ∧
    d.phase = .sending ∧
    d.nextLine = d.nlines ∧
    d.outstanding = 1 ∧
    d.status = 0 ∧
    u.resends < 8 :=
  ⟨0, unA, sendE, liveUn unA false, by decide +kernel⟩

theorem witness_answers_grants_and_revokes_are_taken_5 : ∃ (p : Fin 4) (u : Unanswered) (d : SendDesc) (s : State),
    s.powered = true ∧
    (s.port p).state = .up ∧
    (s.port p).unanswered = [u] ∧
    (s.port p).txWait = [] ∧
    u.desc = some d.id ∧
    (s.port p).sends = [d] ∧
    d.phase = .sending ∧
    d.nextLine = d.nlines ∧
    d.outstanding = 1 ∧
    d.status = 0 ∧
    8 ≤ u.resends :=
  ⟨0, { unA with resends := 8 }, sendE, liveUn { unA with resends := 8 } false, by decide +kernel⟩

theorem witness_answers_grants_and_revokes_are_taken_6 : ∃ (p : Fin 4) (s : State),
    s.powered = true ∧
    (s.port p).state = .up ∧
    (s.port p).sends = [] ∧
    (s.port p).unacked < 31 ∧
    (s.port p).arrivals.length < 128 ∧
    (s.port p).txWait = [] :=
  ⟨0, liveSend [], by decide +kernel⟩

/-- The payload of ECHO message 63. -/
def echo63 : Vector Word 16 := Vector.ofFn fun i => echoWord 63 i.val

/-- `live` with port 3 in TEST and 63 echoes back. -/
def liveTest (n : BitVec 16) : State :=
  live.modPort 3 fun p => { p with state := .test, rxSeq := n, echoes := 63, partnerLo := 1, partnerHi := 2 }

theorem witness_port_comes_up_through_its_echoes_1 : ∃ (p : Fin 4) (s : State),
    s.powered = true ∧
    (s.port p).state = .down :=
  ⟨3, live, by decide +kernel⟩

theorem witness_port_comes_up_through_its_echoes_2 : ∃ (p : Fin 4) (seq : BitVec 16) (s : State),
    s.powered = true ∧
    (s.port p).state = .test ∧
    (s.port p).rxSeq = seq ∧
    (s.port p).unacked < 31 ∧
    (s.port p).arrivals.length < 128 ∧
    maySend s p ∧
    seq.toNat < 64 :=
  ⟨3, 63, liveTest 63, by decide +kernel⟩

theorem witness_port_comes_up_through_its_echoes_3 : ∃ (p : Fin 4) (seq : BitVec 16) (pl : Vector Word 16) (s : State),
    s.powered = true ∧
    (s.port p).state = .test ∧
    (s.port p).rxSeq = seq ∧
    (s.port p).unacked < 31 ∧
    (s.port p).arrivals.length < 128 ∧
    maySend s p ∧
    64 ≤ seq.toNat ∧
    pl.toList = (List.range 16).map (echoWord (s.port p).echoes) ∧
    (s.port p).echoes = 63 :=
  ⟨3, 64, echo63, liveTest 64, by decide +kernel⟩

theorem witness_port_comes_up_through_its_echoes_4 : ∃ (p : Fin 4) (s : State),
    s.powered = true ∧
    ((s.port p).state = .down ∨ (s.port p).state = .up) :=
  ⟨3, live, by decide +kernel, Or.inl (by decide +kernel)⟩

theorem witness_port_comes_up_through_its_echoes_5 : ∃ (p : Fin 4) (s : State),
    s.powered = true ∧
    ((s.port p).state = .up ∨ (s.port p).state = .test) ∧
    (s.port p).unacked ≠ 0 :=
  ⟨0, (liveP0 { portUp with unacked := 1 } {}), by decide +kernel⟩

theorem witness_port_goes_down_1 : ∃ (p : Fin 4) (s : State),
    s.powered = true ∧
    (s.port p).state = .up :=
  ⟨0, liveUn unA false, by decide +kernel⟩

theorem witness_port_goes_down_2 : ∃ (r : Reader) (p : Fin 4) (s : State),
    s.canAct r = true ∧
    s.privileged r = true ∧
    (s.port p).state ≠ .absent ∧
    (s.port p).state ≠ .down :=
  ⟨16, 0, (liveUn unA false).modWin 2 fun _ => winA, by decide +kernel⟩

theorem witness_port_goes_down_3 : ∃ (r : Reader) (p : Fin 4) (s : State),
    s.canAct r = true ∧
    s.privileged r = true ∧
    (s.port p).state = .novers :=
  ⟨0, 3, live.modPort 3 fun p => { p with state := .novers }, by decide +kernel⟩

theorem witness_port_goes_down_4 : ∃ (r : Reader) (s : State),
    s.canAct r = true :=
  ⟨0, liveSend [sendD, { sendE with id := 1 }], by decide +kernel⟩

theorem witness_port_goes_down_5 : ∃ (p : Fin 4) (s : State),
    s.up p = true ∧
    (s.port p).sends.length < 16 :=
  ⟨0, liveSend [], by decide +kernel⟩

theorem witness_port_goes_down_6 : ∃ (r : Reader) (a : SendRead) (p : Fin 4) (s : State),
    s.up p = true ∧
    (s.port p).sends.length < 16 ∧
    a.who = r :=
  ⟨0, { addr := 0, who := 0, sb := 0 }, 0, liveSend [], by decide +kernel⟩

/-- An order with TAG 7 and JOB 5 in version 2, its weight epoch, and its words from word 3 on. -/
def ordE (h : Fin 3) (op : BitVec 8) (epoch : BitVec 16) (ws : List Word) : Order :=
  { hod := h, words := [0x00070000 ||| op.setWidth 32, 2, epoch ++ (5 : BitVec 16)] ++ ws }

/-- An order without a weight epoch. -/
def ordA (h : Fin 3) (op : BitVec 8) (ws : List Word) : Order := ordE h op 0xFFFF ws

/-- A state whose hods have negotiated version 2, with waiting orders. -/
def hodS (s : State) (os : List Order) : State :=
  { s with hods := { s.hods with hod := Vector.replicate 3 { neg := 2 }, orders := os } }

/-- The open order that `ordA` of hod 1 becomes. -/
def openA (op : BitVec 8) : OpenOrder := { hod := 1, op, tag := 7, job := 5 }

/-- `hodS` with open orders. -/
def openS (s : State) (os : List Order) (l : List OpenOrder) : State :=
  { hodS s os with hods := { (hodS s os).hods with openOrders := l, nextOrder := 4 } }

theorem witness_orders_are_refused_and_replied_to_1 : ∃ (c : Instr) (op : BitVec 8) (o : Order) (r : List Order) (st : BitVec 16) (s : State),
    orderCode c = some op ∧
    s.hods.orders = o :: r ∧
    o.op = op ∧
    s.serving = true ∧
    orderHeld c s = false ∧
    ({ s with hods := { s.hods with orders := r } } : State).refusal o = some st :=
  ⟨.ordMove 0 0, 0x2E, ordA 0 0x2E [], [], 4, hodS live [ordA 0 0x2E []], by decide +kernel⟩

theorem witness_orders_are_refused_and_replied_to_2 : ∃ (o : Order) (ws : List Word) (n : Nat) (s : State),
    s.slotsCanonical ∧
    ws.length ≤ 61 ∧
    s.err.stat ≠ .recovering ∧
    ((s.hods.hod.get o.hod).neg = 2 ∨ ws.length ≤ 13) ∧
    (∀ q ∈ s.hods.outQ, q.1 ≠ o.hod) ∧
    n = (3 + ws.length + 15) / 16 ∧
    ((s.hods.hod.get o.hod).oprod - (s.hods.hod.get o.hod).ocons).toNat + n ≤ 64 :=
  ⟨ordA 1 0x44 [], List.replicate 61 9, 4, { hodS live [] with hods := { (hodS live []).hods with hod := Vector.replicate 3 { neg := 2, oprod := 59, ocons := 0xFFFFFFFF } } }, by decide +kernel⟩

theorem witness_orders_are_refused_and_replied_to_3 : ∃ (o : Order) (s : State),
    (s.hods.hod.get o.hod).neg ≠ 2 :=
  ⟨ordA 1 0x44 [], { hodS live [] with hods := { (hodS live []).hods with hod := Vector.replicate 3 { neg := 1, oprod := 59, ocons := 0xFFFFFFFF } } }, by decide +kernel⟩

theorem witness_orders_are_refused_and_replied_to_4 : ∃ (s : State),
    s.err.stat = .recovering :=
  ⟨{ live with err := { live.err with stat := .recovering } }, by decide +kernel⟩

theorem witness_control_and_register_orders_act_1 : ∃ (o : Order) (op : BitVec 8) (s t : State) (v : Nat),
    s.serves o op t ∧
    op = 0x01 ∧
    (v = 2 ∨ v = 1 ∧ ¬((t.hods.hod.get o.hod).versEn.getLsbD 1 = true ∧ (o.w 3).toNat ≤ 2 ∧ 2 ≤ (o.w 4).toNat)) ∧
    (t.hods.hod.get o.hod).versEn.getLsbD (v - 1) = true ∧
    (o.w 3).toNat ≤ v ∧
    v ≤ (o.w 4).toNat :=
  ⟨ordA 2 0x01 [1, 2], 0x01, hodS (live) [ordA 2 0x01 [1, 2]], hodS (live) [], 2, ⟨by decide +kernel, by decide +kernel, rfl, rfl, by decide +kernel⟩, by decide +kernel, Or.inl rfl, by decide +kernel⟩

theorem witness_control_and_register_orders_act_2 : ∃ (o : Order) (op : BitVec 8) (s t : State),
    s.serves o op t ∧
    op = 0x01 ∧
    (∀ v, v = 1 ∨ v = 2 → ¬((t.hods.hod.get o.hod).versEn.getLsbD (v - 1) = true ∧ (o.w 3).toNat ≤ v ∧ v ≤ (o.w 4).toNat)) :=
  ⟨ordA 2 0x01 [3, 4], 0x01, hodS (live) [ordA 2 0x01 [3, 4]], hodS (live) [], ⟨by decide +kernel, by decide +kernel, rfl, rfl, by decide +kernel⟩, by decide +kernel, fun v h => by rcases h with rfl | rfl <;> decide +kernel⟩

theorem witness_control_and_register_orders_act_3 : ∃ (o : Order) (op : BitVec 8) (s t : State),
    s.serves o op t ∧
    op = 0x04 :=
  ⟨ordA 0 0x04 [0x8000], 0x04, hodS (live) [ordA 0 0x04 [0x8000]], hodS (live) [], ⟨by decide +kernel, by decide +kernel, rfl, rfl, by decide +kernel⟩, by decide +kernel⟩

theorem witness_control_and_register_orders_act_4 : ∃ (o : Order) (op : BitVec 8) (s t : State),
    s.serves o op t ∧
    op = 0x05 ∧
    8 ≤ t.boot.stage.toNat :=
  ⟨ordA 0 0x05 [0x8001], 0x05, hodS (live) [ordA 0 0x05 [0x8001]], hodS (live) [], ⟨by decide +kernel, by decide +kernel, rfl, rfl, by decide +kernel⟩, by decide +kernel⟩

theorem witness_control_and_register_orders_act_5 : ∃ (o : Order) (op : BitVec 8) (s t : State),
    s.serves o op t ∧
    op = 0x03 ∧
    t.err.stat ≠ .stopped :=
  ⟨ordA 0 0x03 [], 0x03, hodS (live) [ordA 0 0x03 []], hodS (live) [], ⟨by decide +kernel, by decide +kernel, rfl, rfl, by decide +kernel⟩, by decide +kernel⟩

theorem witness_control_and_register_orders_act_6 : ∃ (o : Order) (op : BitVec 8) (s t : State),
    s.serves o op t ∧
    op = 0x03 ∧
    t.err.stat = .stopped ∧
    Config.groups t.cfg ≤ t.healthyLanes ∧
    t.ice.sparing = [] :=
  ⟨ordA 0 0x03 [], 0x03, hodS ({ live with err := { live.err with stat := .stopped } }) [ordA 0 0x03 []], hodS ({ live with err := { live.err with stat := .stopped } }) [], ⟨by decide +kernel, by decide +kernel, rfl, rfl, by decide +kernel⟩, by decide +kernel⟩

theorem witness_control_and_register_orders_act_7 : ∃ (o : Order) (op : BitVec 8) (s t : State),
    s.serves o op t ∧
    (op = 0x03 ∧
    t.err.stat = .stopped) ∧
    (t.healthyLanes < Config.groups t.cfg ∨ t.ice.sparing ≠ []) :=
  ⟨ordA 0 0x03 [], 0x03, hodS ({ liveN with vu := {}, err := { liveN.err with stat := .stopped, lanes := vmod liveN.err.lanes 3 fun l => { l with state := .fenced } } }) [ordA 0 0x03 []], hodS ({ liveN with vu := {}, err := { liveN.err with stat := .stopped, lanes := vmod liveN.err.lanes 3 fun l => { l with state := .fenced } } }) [], ⟨by decide +kernel, by decide +kernel, rfl, rfl, by decide +kernel⟩, by decide +kernel, Or.inl (by decide +kernel)⟩

theorem witness_control_and_register_orders_act_8 : ∃ (o : Order) (op : BitVec 8) (s t : State),
    s.serves o op t ∧
    op = 0x06 ∧
    (o.w 3).getLsbD 0 = false :=
  ⟨ordA 0 0x06 [0], 0x06, hodS (live) [ordA 0 0x06 [0]], hodS (live) [], ⟨by decide +kernel, by decide +kernel, rfl, rfl, by decide +kernel⟩, by decide +kernel⟩

theorem witness_control_and_register_orders_act_9 : ∃ (o : Order) (op : BitVec 8) (s t : State),
    s.serves o op t ∧
    op = 0x06 ∧
    (o.w 3).getLsbD 0 = true ∧
    t.cal.on = false ∧
    (t.ks.timers.get 3).owned = false :=
  ⟨ordA 0 0x06 [1], 0x06, hodS (live.modTimer 3 fun m => { m with owned := false }) [ordA 0 0x06 [1]], hodS (live.modTimer 3 fun m => { m with owned := false }) [], ⟨by decide +kernel, by decide +kernel, rfl, rfl, by decide +kernel⟩, by decide +kernel⟩

theorem witness_control_and_register_orders_act_10 : ∃ (o : Order) (op : BitVec 8) (s t : State),
    s.serves o op t ∧
    op = 0x06 ∧
    (o.w 3).getLsbD 0 = true ∧
    t.cal.on = false ∧
    (t.ks.timers.get 3).owned = true :=
  ⟨ordA 0 0x06 [1], 0x06, hodS (live) [ordA 0 0x06 [1]], hodS (live) [], ⟨by decide +kernel, by decide +kernel, rfl, rfl, by decide +kernel⟩, by decide +kernel⟩

theorem witness_control_and_register_orders_act_11 : ∃ (o : Order) (op : BitVec 8) (s t : State) (n : Fin 16),
    s.serves o op t ∧
    op = 0x0A ∧
    (t.obs.out.get n).src = 2 :=
  ⟨ordA 0 0x0A [], 0x0A, hodS ({ live with obs := { live.obs with out := vmod live.obs.out 15 fun o => { o with src := 2 } } }) [ordA 0 0x0A []], hodS ({ live with obs := { live.obs with out := vmod live.obs.out 15 fun o => { o with src := 2 } } }) [], 15, ⟨by decide +kernel, by decide +kernel, rfl, rfl, by decide +kernel⟩, by decide +kernel⟩

theorem witness_control_and_register_orders_act_12 : ∃ (o : Order) (op : BitVec 8) (s t : State) (n : Fin 16) (code : BitVec 8),
    s.serves o op t ∧
    op = 0x0A ∧
    (t.obs.out.get n).src ≠ 2 ∧
    obsCode code = true :=
  ⟨ordA 0 0x0A [], 0x0A, hodS (live) [ordA 0 0x0A []], hodS (live) [], 15, 0, ⟨by decide +kernel, by decide +kernel, rfl, rfl, by decide +kernel⟩, by decide +kernel⟩

theorem witness_control_and_register_orders_act_13 : ∃ (o : Order) (op : BitVec 8) (s t : State),
    s.serves o op t ∧
    op = 0x06 ∧
    (o.w 3).getLsbD 0 = true ∧
    t.cal.on = true :=
  ⟨ordA 0 0x06 [1], 0x06, hodS ({ live with cal := { live.cal with on := true } }) [ordA 0 0x06 [1]], hodS ({ live with cal := { live.cal with on := true } }) [], ⟨by decide +kernel, by decide +kernel, rfl, rfl, by decide +kernel⟩, by decide +kernel⟩

theorem witness_control_and_register_orders_act_14 : ∃ (o : Order) (op : BitVec 8) (s t : State),
    s.serves o op t ∧
    op = 0x44 :=
  ⟨ordA 2 0x44 [], 0x44, hodS (live) [ordA 2 0x44 []], hodS (live) [], ⟨by decide +kernel, by decide +kernel, rfl, rfl, by decide +kernel⟩, by decide +kernel⟩

theorem witness_control_and_register_orders_act_15 : ∃ (o : Order) (op : BitVec 8) (s t : State) (addr : Word),
    s.serves o op t ∧
    op = 0x42 ∧
    addr.toNat % 4 = 0 ∧
    addr.extractLsb' 16 16 = 0x0100 :=
  ⟨ordA 2 0x42 [], 0x42, hodS (live) [ordA 2 0x42 []], hodS (live) [], 0x01000004, ⟨by decide +kernel, by decide +kernel, rfl, rfl, by decide +kernel⟩, by decide +kernel⟩

theorem witness_control_and_register_orders_act_16 : ∃ (o : Order) (op : BitVec 8) (s t : State) (addr : Word) (d : _),
    s.serves o op t ∧
    op = 0x42 ∧
    addr.toNat % 4 = 0 ∧
    addr.toNat < 0x80000 ∧
    sget 0 t.ks.store (addr.toNat / 4) = encodeClean d :=
  ⟨ordA 2 0x42 [], 0x42, hodS (liveS) [ordA 2 0x42 []], hodS (liveS) [], 0x7FFFC, 7, ⟨by decide +kernel, by decide +kernel, rfl, rfl, by decide +kernel⟩, by decide +kernel⟩

theorem witness_control_and_register_orders_act_17 : ∃ (o : Order) (op : BitVec 8) (s t : State) (v : Word) (w : Fin 64),
    s.serves o op t ∧
    op = 0x43 ∧
    v.extractLsb' 4 2 = 1 ∧
    (t.win w).isOpen = true ∧
    (t.win w).port = (v.extractLsb' 0 2).toFin :=
  ⟨ordA 2 0x43 [], 0x43, hodS (liveP0 portUp winA) [ordA 2 0x43 []], hodS (liveP0 portUp winA) [], 0x10, 2, ⟨by decide +kernel, by decide +kernel, rfl, rfl, by decide +kernel⟩, by decide +kernel⟩

theorem witness_control_and_register_orders_act_18 : ∃ (o : Order) (op : BitVec 8) (s t : State),
    s.serves o op t ∧
    op = 0x31 ∧
    (∀ p ∈ t.hods.openOrders, p.op ≠ 0x31 ∧ p.id ≠ t.hods.nextOrder) ∧
    (∀ p ∈ t.hods.openOrders, p.job ≠ o.job) :=
  ⟨ordA 1 0x31 [], 0x31, hodS (live) [ordA 1 0x31 []], hodS (live) [], ⟨by decide +kernel, by decide +kernel, rfl, rfl, by decide +kernel⟩, by decide +kernel⟩

theorem witness_control_and_register_orders_act_19 : ∃ (o : Order) (op : BitVec 8) (s t : State),
    s.serves o op t ∧
    op = 0x31 ∧
    (∀ p ∈ t.hods.openOrders, p.op ≠ 0x31 ∧ p.id ≠ t.hods.nextOrder) ∧
    (∃ p ∈ t.hods.openOrders, p.job = o.job) :=
  ⟨ordA 1 0x31 [], 0x31, openS live [ordA 1 0x31 []] [{ openA 0x22 with tag := 8 }], openS live [] [{ openA 0x22 with tag := 8 }], ⟨by decide +kernel, by decide +kernel, rfl, rfl, by decide +kernel⟩, by decide +kernel⟩

/-- A product of one tile. -/
def shA : OrderShape := { m := 64, n := 64, k := 64, streamWords := 8192, outTiles := 1, kernel := [2] }

theorem witness_compute_orders_open_and_end_1 : ∃ (sh : OrderShape) (o : Order) (s t : State) (plan : List Nat),
    let rows := if sh.causal then sh.m else sh.m * sh.fold
    s.serves o 0x23 t ∧
    (false = false ∧
    sh.malformed = false ∧
    0 < sh.m ∧
    0 < sh.n ∧
    0 < sh.k ∧
    0 < sh.fold) ∧
    (o.wepoch (t.negOf o) = 0xFFFF ∧ sh.resident = false ∨
      (∃ f : Fin 64, (t.floe f).used = true ∧ (t.floe f).wepoch = o.wepoch (t.negOf o) ∧
      o.wepoch (t.negOf o) ≠ 0xFFFF ∧ t.untagging f = false)) ∧
    (if (some { bonds := [0, 7], s := sh.strict, sat := sh.sat, causal := sh.causal, mask := sh.mask, shapes := [(7, sh.n, sh.k), (0, sh.k, sh.n), (0, sh.k, rows)] } : Option OrderWork).isSome then tilePlan (if sh.causal then sh.m else sh.m * sh.fold) sh.n sh.k
      (tileWords sh.fmtB sh.block) sh.streamWords
      else some [(sh.m + 4 * sh.fmtB.rowsPer - 1) / (4 * sh.fmtB.rowsPer), (sh.n + 63) / 64]) = some plan :=
  ⟨shA, ordE 1 0x23 0xFFFF [], hodS liveM [ordE 1 0x23 0xFFFF []], hodS liveM [], [1, 1, 1, 1, 2], ⟨by decide +kernel, by decide +kernel, rfl, rfl, by decide +kernel⟩, by decide +kernel, Or.inl (by decide +kernel), by decide +kernel⟩

theorem witness_compute_orders_open_and_end_2 : ∃ (sh : OrderShape) (bond : BitVec 4) (o : Order) (s t : State),
    s.serves o 0x24 t ∧
    ((!([0, 1, 2, 8, 11, 12] : List (BitVec 4)).contains bond) = true ∨ sh.malformed = true ∨ sh.m = 0 ∨ sh.n = 0) :=
  ⟨{ shA with m := 0 }, 0, ordE 1 0x24 0xFFFF [], hodS live [ordE 1 0x24 0xFFFF []], hodS live [], ⟨by decide +kernel, by decide +kernel, rfl, rfl, by decide +kernel⟩, Or.inr (Or.inr (Or.inl (by decide +kernel)))⟩

theorem witness_compute_orders_open_and_end_3 : ∃ (sh : OrderShape) (bond : BitVec 4) (o : Order) (s t : State) (plan : List Nat),
    let held : OrderWork := { bonds := [], n := some sh.n, k := some sh.k, s := sh.strict, sat := sh.sat }
    s.serves o 0x24 t ∧
    ((!([0, 1, 2, 8, 11, 12] : List (BitVec 4)).contains bond) = false ∧
    sh.malformed = false ∧
    0 < sh.m ∧
    0 < sh.n ∧
    0 < sh.k ∧
    0 < sh.fold) ∧
    (o.wepoch (t.negOf o) = 0xFFFF ∧ sh.resident = false ∨
      (∃ f : Fin 64, (t.floe f).used = true ∧ (t.floe f).wepoch = o.wepoch (t.negOf o) ∧
      o.wepoch (t.negOf o) ≠ 0xFFFF ∧ t.untagging f = false)) ∧
    (if (some { held with bonds := [bond] } : Option OrderWork).isSome then tilePlan (if sh.causal then sh.m else sh.m * sh.fold) sh.n sh.k
      (tileWords sh.fmtB sh.block) sh.streamWords
      else some [(sh.m + 4 * sh.fmtB.rowsPer - 1) / (4 * sh.fmtB.rowsPer), (sh.n + 63) / 64]) = some plan :=
  ⟨{ shA with strict := true }, 0, ordE 1 0x24 0xFFFF [], hodS liveM [ordE 1 0x24 0xFFFF []], hodS liveM [], [1, 1, 1, 1, 2], ⟨by decide +kernel, by decide +kernel, rfl, rfl, by decide +kernel⟩, by decide +kernel, Or.inl (by decide +kernel), by decide +kernel⟩

theorem witness_compute_orders_open_and_end_4 : ∃ (sh : OrderShape) (o : Order) (s t : State) (plan : List Nat),
    s.serves o 0x25 t ∧
    (false = false ∧
    sh.malformed = false ∧
    0 < sh.m ∧
    0 < sh.n ∧
    0 < sh.k ∧
    0 < sh.fold) ∧
    (o.wepoch (t.negOf o) = 0xFFFF ∧ sh.resident = false ∨
      (∃ f : Fin 64, (t.floe f).used = true ∧ (t.floe f).wepoch = o.wepoch (t.negOf o) ∧
      o.wepoch (t.negOf o) ≠ 0xFFFF ∧ t.untagging f = false)) ∧
    (if (none : Option OrderWork).isSome then tilePlan (if sh.causal then sh.m else sh.m * sh.fold) sh.n sh.k
      (tileWords sh.fmtB sh.block) sh.streamWords
      else some [(sh.m + 4 * sh.fmtB.rowsPer - 1) / (4 * sh.fmtB.rowsPer), (sh.n + 63) / 64]) = some plan :=
  ⟨shA, ordE 1 0x25 0xFFFF [], hodS liveM [ordE 1 0x25 0xFFFF []], hodS liveM [], [1, 1], ⟨by decide +kernel, by decide +kernel, rfl, rfl, by decide +kernel⟩, by decide +kernel, Or.inl (by decide +kernel), by decide +kernel⟩

theorem witness_compute_orders_open_and_end_5 : ∃ (sh : OrderShape) (o : Order) (s t : State) (plan : List Nat),
    s.serves o 0x26 t ∧
    (false = false ∧
    sh.malformed = false ∧
    0 < sh.m ∧
    0 < sh.n ∧
    0 < sh.k ∧
    0 < sh.fold) ∧
    (o.wepoch (t.negOf o) = 0xFFFF ∧ sh.resident = false ∨
      (∃ f : Fin 64, (t.floe f).used = true ∧ (t.floe f).wepoch = o.wepoch (t.negOf o) ∧
      o.wepoch (t.negOf o) ≠ 0xFFFF ∧ t.untagging f = false)) ∧
    (if (none : Option OrderWork).isSome then tilePlan (if sh.causal then sh.m else sh.m * sh.fold) sh.n sh.k
      (tileWords sh.fmtB sh.block) sh.streamWords
      else some [(sh.m + 4 * sh.fmtB.rowsPer - 1) / (4 * sh.fmtB.rowsPer), (sh.n + 63) / 64]) = some plan :=
  ⟨{ shA with strict := true }, ordE 1 0x26 0xFFFF [], hodS liveM [ordE 1 0x26 0xFFFF []], hodS liveM [], [1, 1], ⟨by decide +kernel, by decide +kernel, rfl, rfl, by decide +kernel⟩, by decide +kernel, Or.inl (by decide +kernel), by decide +kernel⟩

theorem witness_compute_orders_open_and_end_6 : ∃ (sh : OrderShape) (o : Order) (s t : State) (plan : List Nat),
    s.serves o 0x27 t ∧
    (false = false ∧
    sh.malformed = false ∧
    0 < sh.m ∧
    0 < sh.n ∧
    0 < sh.k ∧
    0 < sh.fold) ∧
    (o.wepoch (t.negOf o) = 0xFFFF ∧ sh.resident = false ∨
      (∃ f : Fin 64, (t.floe f).used = true ∧ (t.floe f).wepoch = o.wepoch (t.negOf o) ∧
      o.wepoch (t.negOf o) ≠ 0xFFFF ∧ t.untagging f = false)) ∧
    (if (none : Option OrderWork).isSome then tilePlan (if sh.causal then sh.m else sh.m * sh.fold) sh.n sh.k
      (tileWords sh.fmtB sh.block) sh.streamWords
      else some [(sh.m + 4 * sh.fmtB.rowsPer - 1) / (4 * sh.fmtB.rowsPer), (sh.n + 63) / 64]) = some plan :=
  ⟨shA, ordE 1 0x27 0xFFFF [], hodS liveM [ordE 1 0x27 0xFFFF []], hodS liveM [], [1, 1], ⟨by decide +kernel, by decide +kernel, rfl, rfl, by decide +kernel⟩, by decide +kernel, Or.inl (by decide +kernel), by decide +kernel⟩

theorem witness_compute_orders_open_and_end_7 : ∃ (sh : OrderShape) (split : Nat) (o : Order) (s t : State) (plan : List Nat),
    let held : OrderWork := { bonds := [], n := some sh.n, k := some sh.k, s := sh.strict, sat := sh.sat }
    let badSplit := split == 0 || decide (15 < split)
    s.serves o 0x28 t ∧
    (badSplit = false ∧
    sh.malformed = false ∧
    0 < sh.m ∧
    0 < sh.n ∧
    0 < sh.k ∧
    0 < sh.fold) ∧
    (o.wepoch (t.negOf o) = 0xFFFF ∧ sh.resident = false ∨
      (∃ f : Fin 64, (t.floe f).used = true ∧ (t.floe f).wepoch = o.wepoch (t.negOf o) ∧
      o.wepoch (t.negOf o) ≠ 0xFFFF ∧ t.untagging f = false)) ∧
    (if (some { held with bonds := [9, 15] } : Option OrderWork).isSome then tilePlan (if sh.causal then sh.m else sh.m * sh.fold) sh.n sh.k
      (tileWords sh.fmtB sh.block) sh.streamWords
      else some [(sh.m + 4 * sh.fmtB.rowsPer - 1) / (4 * sh.fmtB.rowsPer), (sh.n + 63) / 64]) = some plan :=
  ⟨{ shA with strict := true }, 3, ordE 1 0x28 0xFFFF [], hodS liveM [ordE 1 0x28 0xFFFF []], hodS liveM [], [1, 1, 1, 1, 2], ⟨by decide +kernel, by decide +kernel, rfl, rfl, by decide +kernel⟩, by decide +kernel, Or.inl (by decide +kernel), by decide +kernel⟩

theorem witness_compute_orders_open_and_end_8 : ∃ (sh : OrderShape) (split : Nat) (o : Order) (s t : State) (plan : List Nat),
    let held : OrderWork := { bonds := [], n := some sh.n, k := some sh.k, s := sh.strict, sat := sh.sat }
    let badSplit := split == 0 || decide (15 < split)
    s.serves o 0x29 t ∧
    (badSplit = false ∧
    sh.malformed = false ∧
    0 < sh.m ∧
    0 < sh.n ∧
    0 < sh.k ∧
    0 < sh.fold) ∧
    (o.wepoch (t.negOf o) = 0xFFFF ∧ sh.resident = false ∨
      (∃ f : Fin 64, (t.floe f).used = true ∧ (t.floe f).wepoch = o.wepoch (t.negOf o) ∧
      o.wepoch (t.negOf o) ≠ 0xFFFF ∧ t.untagging f = false)) ∧
    (if (some { held with bonds := [10, 15] } : Option OrderWork).isSome then tilePlan (if sh.causal then sh.m else sh.m * sh.fold) sh.n sh.k
      (tileWords sh.fmtB sh.block) sh.streamWords
      else some [(sh.m + 4 * sh.fmtB.rowsPer - 1) / (4 * sh.fmtB.rowsPer), (sh.n + 63) / 64]) = some plan :=
  ⟨shA, 3, ordE 1 0x29 0xFFFF [], hodS liveM [ordE 1 0x29 0xFFFF []], hodS liveM [], [1, 1, 1, 1, 2], ⟨by decide +kernel, by decide +kernel, rfl, rfl, by decide +kernel⟩, by decide +kernel, Or.inl (by decide +kernel), by decide +kernel⟩

theorem witness_compute_orders_open_and_end_9 : ∃ (sh : OrderShape) (split : Nat) (o : Order) (s t : State) (plan : List Nat),
    let held : OrderWork := { bonds := [], n := some sh.n, k := some sh.k, s := sh.strict, sat := sh.sat }
    let badSplit := split == 0 || decide (15 < split)
    s.serves o 0x2A t ∧
    (badSplit = false ∧
    sh.malformed = false ∧
    0 < sh.m ∧
    0 < sh.n ∧
    0 < sh.k ∧
    0 < sh.fold) ∧
    (o.wepoch (t.negOf o) = 0xFFFF ∧ sh.resident = false ∨
      (∃ f : Fin 64, (t.floe f).used = true ∧ (t.floe f).wepoch = o.wepoch (t.negOf o) ∧
      o.wepoch (t.negOf o) ≠ 0xFFFF ∧ t.untagging f = false)) ∧
    (if (some { held with bonds := [14, 15] } : Option OrderWork).isSome then tilePlan (if sh.causal then sh.m else sh.m * sh.fold) sh.n sh.k
      (tileWords sh.fmtB sh.block) sh.streamWords
      else some [(sh.m + 4 * sh.fmtB.rowsPer - 1) / (4 * sh.fmtB.rowsPer), (sh.n + 63) / 64]) = some plan :=
  ⟨{ shA with strict := true }, 3, ordE 1 0x2A 0xFFFF [], hodS liveM [ordE 1 0x2A 0xFFFF []], hodS liveM [], [1, 1, 1, 1, 2], ⟨by decide +kernel, by decide +kernel, rfl, rfl, by decide +kernel⟩, by decide +kernel, Or.inl (by decide +kernel), by decide +kernel⟩

theorem witness_compute_orders_open_and_end_10 : ∃ (sh : OrderShape) (ops : List XInstr) (o : Order) (s t : State) (plan : List Nat),
    s.serves o 0x2B t ∧
    ((ops.isEmpty || decide (8 < ops.length) || !ops.all elementWise) = false ∧
    sh.malformed = false ∧
    0 < sh.m ∧
    0 < sh.n ∧
    0 < sh.k ∧
    0 < sh.fold) ∧
    (o.wepoch (t.negOf o) = 0xFFFF ∧ sh.resident = false ∨
      (∃ f : Fin 64, (t.floe f).used = true ∧ (t.floe f).wepoch = o.wepoch (t.negOf o) ∧
      o.wepoch (t.negOf o) ≠ 0xFFFF ∧ t.untagging f = false)) ∧
    (if (none : Option OrderWork).isSome then tilePlan (if sh.causal then sh.m else sh.m * sh.fold) sh.n sh.k
      (tileWords sh.fmtB sh.block) sh.streamWords
      else some [(sh.m + 4 * sh.fmtB.rowsPer - 1) / (4 * sh.fmtB.rowsPer), (sh.n + 63) / 64]) = some plan :=
  ⟨shA, [addX], ordE 1 0x2B 0xFFFF [], hodS liveM [ordE 1 0x2B 0xFFFF []], hodS liveM [], [1, 1], ⟨by decide +kernel, by decide +kernel, rfl, rfl, by decide +kernel⟩, by decide +kernel, Or.inl (by decide +kernel), by decide +kernel⟩

theorem witness_compute_orders_open_and_end_11 : ∃ (sh : OrderShape) (o : Order) (s t : State),
    s.serves o 0x2C t ∧
    false = false ∧
    sh.malformed = false ∧
    0 < sh.m ∧
    0 < sh.n ∧
    0 < sh.k ∧
    0 < sh.fold ∧
    o.wepoch (t.negOf o) ≠ 0xFFFF ∧
    (∀ f : Fin 64, (t.floe f).used = true → (t.floe f).wepoch ≠ o.wepoch (t.negOf o)) :=
  ⟨{ shA with strict := true }, ordE 1 0x2C 9 [], hodS liveM [ordE 1 0x2C 9 []], hodS liveM [], ⟨by decide +kernel, by decide +kernel, rfl, rfl, by decide +kernel⟩, by decide +kernel⟩

theorem witness_compute_orders_open_and_end_12 : ∃ (sh : OrderShape) (o : Order) (s t : State) (plan : List Nat),
    s.serves o 0x2C t ∧
    (false = false ∧
    sh.malformed = false ∧
    0 < sh.m ∧
    0 < sh.n ∧
    0 < sh.k ∧
    0 < sh.fold) ∧
    (o.wepoch (t.negOf o) = 0xFFFF ∧ sh.resident = false ∨
      (∃ f : Fin 64, (t.floe f).used = true ∧ (t.floe f).wepoch = o.wepoch (t.negOf o) ∧
      o.wepoch (t.negOf o) ≠ 0xFFFF ∧ t.untagging f = false)) ∧
    (if (none : Option OrderWork).isSome then tilePlan (if sh.causal then sh.m else sh.m * sh.fold) sh.n sh.k
      (tileWords sh.fmtB sh.block) sh.streamWords
      else some [(sh.m + 4 * sh.fmtB.rowsPer - 1) / (4 * sh.fmtB.rowsPer), (sh.n + 63) / 64]) = some plan :=
  ⟨{ shA with strict := true }, ordE 1 0x2C 0xFFFF [], hodS liveM [ordE 1 0x2C 0xFFFF []], hodS liveM [], [1, 1], ⟨by decide +kernel, by decide +kernel, rfl, rfl, by decide +kernel⟩, by decide +kernel, Or.inl (by decide +kernel), by decide +kernel⟩

theorem witness_compute_orders_open_and_end_13 : ∃ (sh : OrderShape) (o : Order) (s t : State) (plan : List Nat),
    s.serves o 0x2D t ∧
    (false = false ∧
    sh.malformed = false ∧
    0 < sh.m ∧
    0 < sh.n ∧
    0 < sh.k ∧
    0 < sh.fold) ∧
    (o.wepoch (t.negOf o) = 0xFFFF ∧ sh.resident = false ∨
      (∃ f : Fin 64, (t.floe f).used = true ∧ (t.floe f).wepoch = o.wepoch (t.negOf o) ∧
      o.wepoch (t.negOf o) ≠ 0xFFFF ∧ t.untagging f = false)) ∧
    (if (none : Option OrderWork).isSome then tilePlan (if sh.causal then sh.m else sh.m * sh.fold) sh.n sh.k
      (tileWords sh.fmtB sh.block) sh.streamWords
      else some [(sh.m + 4 * sh.fmtB.rowsPer - 1) / (4 * sh.fmtB.rowsPer), (sh.n + 63) / 64]) = some plan :=
  ⟨shA, ordE 1 0x2D 0xFFFF [], hodS liveM [ordE 1 0x2D 0xFFFF []], hodS liveM [], [1, 1], ⟨by decide +kernel, by decide +kernel, rfl, rfl, by decide +kernel⟩, by decide +kernel, Or.inl (by decide +kernel), by decide +kernel⟩

theorem witness_compute_orders_open_and_end_14 : ∃ (stream : Nat) (kernel : List Hart) (f g : Fmt) (plan : List Nat) (o : Order) (s t : State),
    s.serves o 0x22 t ∧
    let w := o.w 10
    let heads := ((o.w 14).extractLsb' 0 16).toNat * ((o.w 14).extractLsb' 16 16).toNat
    let hdim := (w.extractLsb' 0 12).toNat
    let folds := !w.getLsbD 22 && o.w 15 == 0
    let rows := if folds then (o.w 8).toNat * heads else (o.w 8).toNat
    Fmt.ofCode (w.extractLsb' 12 4) = some f ∧
    f ∉ ([.int4, .fp4, .e8m0] : List Fmt) ∧
    Fmt.ofCode (w.extractLsb' 16 4) = some g ∧
    g ∈ ([.bf16, .fp16, .fp32] : List Fmt) ∧
    w.extractLsb' 25 7 = 0 ∧
    0 < rows ∧
    0 < heads ∧
    o.w 9 ≠ 0 ∧
    0 < hdim ∧
    o.wepoch (t.negOf o) = 0xFFFF ∧
    t.mayRun kernel = true ∧
    tilePlan rows (o.w 9).toNat hdim (tileWords f 0) stream = some plan :=
  ⟨8192, [2], .bf16, .bf16, [1, 1, 1, 1, 2], ordA 1 0x22 [0, 0, 0, 0, 0, 64, 64, 0x11040, 0, 0, 0, 0x00010001], hodS live [ordA 1 0x22 [0, 0, 0, 0, 0, 64, 64, 0x11040, 0, 0, 0, 0x00010001]], hodS live [], ⟨by decide +kernel, by decide +kernel, rfl, rfl, by decide +kernel⟩, by decide +kernel⟩

theorem witness_compute_orders_open_and_end_15 : ∃ (sh : OrderShape) (bond : BitVec 4) (split stream : Nat) (ops : List XInstr) (kernel : List Hart) (c : Instr) (op : BitVec 8) (o : OpenOrder) (sum : DWord) (code : BitVec 4) (s : State),
    (c, op) ∈ ([(.ordAttnFwd stream kernel, 0x22), (.ordAttnBwd sh, 0x23), (.ordMatmul sh bond, 0x24), (.ordMoeRoute sh, 0x25),
      (.ordMoeCombine sh, 0x26), (.ordMaskMaint sh, 0x27), (.ordSample sh split, 0x28), (.ordScore sh split, 0x29),
      (.ordRlLoss sh split, 0x2A), (.ordElemwise sh ops, 0x2B), (.ordReduce sh, 0x2C), (.ordSortset sh, 0x2D)] :
      List (Instr × BitVec 8)) ∧
    (∀ p r, s.hods.orders = p :: r → p.op ≠ op) ∧
    s.serving = true ∧
    s.hods.openOrders.find? (fun p => p.op == op && s.workDone p) = some o ∧
    o.last = some (sum, code) :=
  ⟨shA, 0, 3, 8192, [addX], [], .ordAttnFwd 8192 [], 0x22, { openA 0x22 with last := some (0x0400000000000000, 1), work := some { bonds := [] }, tiles := 1, written := 1 }, 0x0400000000000000, 1, openS live [] [{ openA 0x22 with last := some (0x0400000000000000, 1), work := some { bonds := [] }, tiles := 1, written := 1 }], by decide +kernel, fun p r h => by simp [openS, hodS] at h, by decide +kernel⟩

theorem witness_tile_plan_takes_the_deepest_ring_that_fits_1 : ∃ (k tw stream : Nat),
    0 < k ∧
    k < 2 ^ 32 ∧
    0 < tw ∧
    stream < tw :=
  ⟨64, 2048, 2047, by decide +kernel⟩

theorem witness_tile_plan_takes_the_deepest_ring_that_fits_2 : ∃ (k tw stream : Nat),
    0 < k ∧
    k < 2 ^ 32 ∧
    0 < tw ∧
    tw ≤ stream ∧
    stream < 2 * tw :=
  ⟨64, 2048, 4095, by decide +kernel⟩

theorem witness_tile_plan_takes_the_deepest_ring_that_fits_3 : ∃ (k tw stream : Nat),
    (0 < k ∧
    k < 2 ^ 32 ∧
    0 < tw) ∧
    2 * tw ≤ stream :=
  ⟨256, 2048, 8192, by decide +kernel, by decide +kernel⟩

theorem witness_work_orders_start_their_units_1 : ∃ (ch : BitVec 5) (o : Order) (s t : State),
    s.serves o 0x2E t ∧
    t.hasCh ch.toNat = false :=
  ⟨16, ordA 1 0x2E [], hodS ({ live with cfg := .c3s }) [ordA 1 0x2E []], hodS ({ live with cfg := .c3s }) [], ⟨by decide +kernel, by decide +kernel, rfl, rfl, by decide +kernel⟩, by decide +kernel⟩

theorem witness_work_orders_start_their_units_2 : ∃ (ch : BitVec 5) (o : Order) (s t : State),
    s.serves o 0x2E t ∧
    t.hasCh ch.toNat = true ∧
    t.chanFree ch = false :=
  ⟨31, ordA 1 0x2E [], hodS (live.modCh 31 fun x => { x with state := 4 }) [ordA 1 0x2E []], hodS (live.modCh 31 fun x => { x with state := 4 }) [], ⟨by decide +kernel, by decide +kernel, rfl, rfl, by decide +kernel⟩, by decide +kernel⟩

theorem witness_work_orders_start_their_units_3 : ∃ (ch : BitVec 5) (o : Order) (s t : State),
    s.serves o 0x2E t ∧
    t.hasCh ch.toNat = true ∧
    t.chanFree ch = true :=
  ⟨31, ordA 1 0x2E [], hodS (live) [ordA 1 0x2E []], hodS (live) [], ⟨by decide +kernel, by decide +kernel, rfl, rfl, by decide +kernel⟩, by decide +kernel⟩

theorem witness_work_orders_start_their_units_4 : ∃ (store : Bool) (c : Instr) (ice : Word) (words : Nat) (fab : BitVec 48) (ch : BitVec 5) (o : Order) (p : Bool) (s t : State),
    (store, c) ∈ [(true, Instr.ordIceRead ice words fab ch), (false, Instr.ordIceWrite ice words fab ch)] ∧
    s.serves o (if store then 0x40 else 0x41) t ∧
    (t.hasCh ch.toNat = true ∧
    t.chanFree ch = true ∧
    words ≠ 0 ∧
    words ≤ 16384) ∧
    let d : Desc := { ver := if t.drf.vers.getLsbD 1 then 3 else 2, dir := if store then 1 else 0, sfmt :=
                                                  Fmt.int32.code, dfmt := Fmt.int32.code, last := true, faddr := fab,
                                                  iaddr := ice, ncol := words, nrow := 1, frs := words, irs := words }
    let x := chainOf (t.chan ch.toFin) t.hods.nextOrder
    (t.modCh ch.toFin fun _ => x).checkDescs ch.toFin x 1 0 false [d] = ([d], none, p) ∧
    (t.modCh ch.toFin fun _ => x).setRanges ch.toFin [d] ≠ [] ∧
    (∀ a ∈ t.ice.sb.alloc, a.id ≠ t.ice.sb.nextId) :=
  ⟨true, .ordIceRead 0 1024 0x1000 31, 0, 1024, 0x1000, 31, ordA 2 0x40 [], false, hodS (liveM) [ordA 2 0x40 []], hodS (liveM) [], by decide +kernel, ⟨by decide +kernel, by decide +kernel, rfl, rfl, by decide +kernel⟩, by decide +kernel, by decide +kernel⟩

theorem witness_work_orders_start_their_units_5 : ∃ (f : Fin 64) (e : Vector Word 8) (o : Order) (s t : State) (code : _),
    s.serves o 0x20 t ∧
    (∀ p ∈ t.hods.openOrders, p.id ≠ t.hods.nextOrder) ∧
    t.commitCheck f (floeReserved e) (FloeEntry.ofWords e) = some code :=
  ⟨1, ({ floeA with size := 0 } : FloeEntry).toWords, ordA 1 0x20 [], hodS (live) [ordA 1 0x20 []], hodS (live) [], 1, ⟨by decide +kernel, by decide +kernel, rfl, rfl, by decide +kernel⟩, by decide +kernel⟩

theorem witness_work_orders_start_their_units_6 : ∃ (f : Fin 64) (e : Vector Word 8) (o : Order) (s t : State),
    s.serves o 0x20 t ∧
    (∀ p ∈ t.hods.openOrders, p.id ≠ t.hods.nextOrder) ∧
    t.commitCheck f (floeReserved e) (FloeEntry.ofWords e) = none :=
  ⟨1, floeA.toWords, ordA 1 0x20 [], hodS (live) [ordA 1 0x20 []], hodS (live) [], ⟨by decide +kernel, by decide +kernel, rfl, rfl, by decide +kernel⟩, by decide +kernel⟩

theorem witness_work_orders_start_their_units_7 : ∃ (f : Fin 64) (ch : BitVec 5) (h : Hart) (o : Order) (s t : State),
    s.serves o 0x21 t ∧
    (∀ p ∈ t.hods.openOrders, p.id ≠ t.hods.nextOrder) ∧
    (t.floe f).used = true ∧
    o.wepoch (t.negOf o) ≠ 0xFFFF ∧
    t.hasCh ch.toNat = true ∧
    t.chanFree ch = true ∧
    t.idleHart h = true ∧
    (∀ g : Hart, g < h → t.idleHart g = false) :=
  ⟨0, 31, 0, ordE 1 0x21 3 [], hodS (liveM) [ordE 1 0x21 3 []], hodS (liveM) [], ⟨by decide +kernel, by decide +kernel, rfl, rfl, by decide +kernel⟩, by decide +kernel⟩

theorem witness_work_orders_start_their_units_8 : ∃ (w : Fin 64) (o : Order) (s t : State),
    s.serves o 0x2F t ∧
    (∀ p ∈ t.hods.openOrders, p.id ≠ t.hods.nextOrder) ∧
    (t.win w).isOpen = true ∧
    (t.port (t.win w).port).state = .up ∧
    (t.port (t.win w).port).unanswered.length < 32768 ∧
    (t.port (t.win w).port).txWait = [] ∧
    (∀ c ∈ t.nbr.closers, c.2.1 ≠ some 0) :=
  ⟨2, ordA 1 0x2F [], hodS (liveP0 portUp winA) [ordA 1 0x2F []], hodS (liveP0 portUp winA) [], ⟨by decide +kernel, by decide +kernel, rfl, rfl, by decide +kernel⟩, by decide +kernel⟩

theorem witness_work_orders_start_their_units_9 : ∃ (w : Fin 64) (o : Order) (s t : State),
    s.serves o 0x2F t ∧
    s.courseUses w = false ∧
    (∀ p ∈ t.hods.openOrders, p.id ≠ t.hods.nextOrder) ∧
    (t.win w).isOpen = false ∧
    (∀ c ∈ t.nbr.closers, c.2.1 ≠ some 0) :=
  ⟨63, ordA 1 0x2F [], hodS (liveP0 portUp winA) [ordA 1 0x2F []], hodS (liveP0 portUp winA) [], ⟨by decide +kernel, by decide +kernel, rfl, rfl, by decide +kernel⟩, by decide +kernel⟩

theorem witness_kills_and_page_answers_end_work_1 : ∃ (o : Order) (s t : State),
    s.serves o 0x02 t :=
  ⟨ordA 1 0x02 [], hodS live [ordA 1 0x02 []], hodS live [], ⟨by decide +kernel, by decide +kernel, rfl, rfl, by decide +kernel⟩⟩

/-- `openS live` with a KILL of job 5 under way. -/
def liveKill : State :=
  let s := openS live [] [openA 0x24, { openA 0x02 with id := 1, tag := 8 }]
  { s with hods := { s.hods with kills := [(5, 1)] } }

/-- Channel 3 paused for a page of order 0x2E whose request has TAG 6. -/
def livePage (os : List Order) : State :=
  let s := (openS live os [openA 0x2E]).modCh 3 fun _ => { state := 5, order := some 0 }
  { s with hods := { s.hods with pageReqs := [(3, 6)] } }

theorem witness_kills_and_page_answers_end_work_2 : ∃ (k : BitVec 16) (n : Nat) (p q : OpenOrder) (s : State),
    s.serving = true ∧
    s.hods.kills = [(k, n)] ∧
    s.drained k = true ∧
    k ≠ 0xFFFF ∧
    k ∉ s.hods.killed ∧
    s.hods.verifying = none ∧
    (∀ c ∈ s.hods.calls, c.job ≠ k) ∧
    p.imageSb = none ∧
    s.hods.openOrders.filter (fun r => r.job == k && r.op != 0x02) = [p] ∧
    (s.endOrder p 9 []).orderOf n = some q :=
  ⟨5, 1, openA 0x24, { openA 0x02 with id := 1, tag := 8 }, liveKill, by decide +kernel⟩

theorem witness_kills_and_page_answers_end_work_3 : ∃ (c : Fin 32) (p : OpenOrder) (rtag : BitVec 16) (s : State),
    s.powered = true ∧
    s.hods.pageReqs = [(c, rtag)] ∧
    (s.chan c).state = 5 ∧
    (s.chan c).order = some p.id ∧
    s.hods.openOrders = [p] :=
  ⟨3, openA 0x2E, 6, livePage [], by decide +kernel⟩

theorem witness_kills_and_page_answers_end_work_4 : ∃ (c : Fin 32) (p : OpenOrder) (rtag : BitVec 16) (s : State) (o : Order) (t : State),
    (s.powered = true ∧
    s.hods.pageReqs = [(c, rtag)] ∧
    (s.chan c).state = 5 ∧
    (s.chan c).order = some p.id ∧
    s.hods.openOrders = [p]) ∧
    s.serves o 0x07 t ∧
    o.tag ≠ rtag :=
  ⟨3, openA 0x2E, 6, livePage [{ hod := 0, words := [0x00090007, 2, 0xFFFF0005] }], { hod := 0, words := [0x00090007, 2, 0xFFFF0005] }, livePage [], by decide +kernel, ⟨by decide +kernel, by decide +kernel, rfl, rfl, by decide +kernel⟩, by decide +kernel⟩

theorem witness_kills_and_page_answers_end_work_5 : ∃ (c : Fin 32) (p : OpenOrder) (rtag : BitVec 16) (s : State) (o : Order) (t : State),
    (s.powered = true ∧
    s.hods.pageReqs = [(c, rtag)] ∧
    (s.chan c).state = 5 ∧
    (s.chan c).order = some p.id ∧
    s.hods.openOrders = [p]) ∧
    s.serves o 0x07 t ∧
    o.tag = rtag :=
  ⟨3, openA 0x2E, 6, livePage [{ hod := 0, words := [0x00060007, 2, 0xFFFF0005] }], { hod := 0, words := [0x00060007, 2, 0xFFFF0005] }, livePage [], by decide +kernel, ⟨by decide +kernel, by decide +kernel, rfl, rfl, by decide +kernel⟩, by decide +kernel⟩

/-- An extension image: identifier 9, eight code bytes, four data bytes, eight zero bytes, entry 4, one hart, one tile
register, one channel. -/
def imageA : List Word := [0x4B535845, 0x00090101, 8, 4, 8, 4, 0x1011, 0, 0, 0, 0, 0, 0, 0, 0, 0, 0x11, 0x22, 0x33]

/-- `imageA` as it is resident. -/
def extA : Extension :=
  { id := 9, codeAddr := 0x40000, codeLen := 8, dataAddr := 0x40008, dataLen := 12, entry := 4, nharts := 1, ntiles := 1, nch := 1 }

/-- `hodS live` with `extA` and calls. -/
def liveExt (os : List Order) (l : List ExtCall) : State :=
  { hodS live os with hods := { (hodS live os).hods with exts := [extA], calls := l } }

/-- A call of `extA`. -/
def callA (cs : List (Fin 32)) : ExtCall := { ext := 9, hod := 1, tag := 7, job := 5, harts := [2], tiles := [4], chans := cs }

/-- `openS live` with `imageA` under verification. -/
def liveVer : State :=
  let s := openS live [] [openA 0x08]
  { s with hods := { s.hods with verifying := some (0, imageA) } }

theorem witness_extensions_load_run_and_end_1 : ∃ (f : Fin 64) (words : Nat) (ch : BitVec 5) (o : Order) (s t : State),
    s.serves o 0x08 t ∧
    (∀ q ∈ t.hods.openOrders, q.op ≠ 0x08) ∧
    (t.chanFree ch = false ∨ words = 0 ∨ (t.floe f).used = false ∨
      (t.floe f).res.toNat * 1024 < 16 * ((words + 15) / 16)) :=
  ⟨0, 19, 31, ordA 1 0x08 [0x1000, 0], hodS live [ordA 1 0x08 [0x1000, 0]], hodS live [], ⟨by decide +kernel, by decide +kernel, rfl, rfl, by decide +kernel⟩, by decide +kernel, Or.inr (Or.inr (Or.inl (by decide +kernel)))⟩

theorem witness_extensions_load_run_and_end_2 : ∃ (f : Fin 64) (words : Nat) (ch : BitVec 5) (p : Bool) (o : Order) (s t : State),
    s.serves o 0x08 t ∧
    ((∀ q ∈ t.hods.openOrders, q.op ≠ 0x08) ∧
    t.chanFree ch = true ∧
    0 < words ∧
    (t.floe f).used = true ∧
    16 * ((words + 15) / 16) ≤ (t.floe f).res.toNat * 1024) ∧
    let d : Desc := { ver := if t.drf.vers.getLsbD 0 then 2 else 3, dir := 0, sfmt := Fmt.int32.code, dfmt :=
                                                  Fmt.int32.code, last := true, faddr := (o.w 4).extractLsb' 0 16 ++ o.w
                                                  3, iaddr := BitVec.ofNat 6 f.val ++ BitVec.ofNat 26 (t.floe
                                                  f).window.1, ncol := 16, nrow := (words + 15) / 16, frs := 16, irs :=
                                                  16 }
    let x := chainOf (t.chan ch.toFin) t.hods.nextOrder
    (t.modCh ch.toFin fun _ => x).checkDescs ch.toFin x 1 0 false [d] = ([d], none, p) ∧
    (t.modCh ch.toFin fun _ => x).setRanges ch.toFin [d] ≠ [] ∧
    (∀ a ∈ t.ice.sb.alloc, a.id ≠ t.ice.sb.nextId) :=
  ⟨0, 19, 31, false, ordA 1 0x08 [0x1000, 0], hodS liveM [ordA 1 0x08 [0x1000, 0]], hodS liveM [], ⟨by decide +kernel, by decide +kernel, rfl, rfl, by decide +kernel⟩, by decide +kernel, by decide +kernel⟩

/-- The order that loads `imageA`, its staged image being read. -/
def openL : OpenOrder := { openA 0x08 with image := 19, imageSb := some 0 }

/-- `liveM` with an image copied into floe 0, whose read is allocated. -/
def liveImg (image : List Word) (es : List Extension) : State :=
  let s := openS liveM [] [openL]
  { s with
    hods := { s.hods with exts := es }
    ice := { s.ice with
      cells := ssetMany 0 [] (image.zipIdx.map fun q => (s.cellAt q.2 0, encodeClean q.1))
      sb := { alloc := [{ id := 0, who := .scalar 0, ranges := [{ lo := 0, hi := 18, write := false }] }], nextId := 1 } } }

/-- The read of the image. -/
def readImg (image : List Word) (es : List Extension) : State × Store (BitVec 33) :=
  (liveImg image es).readWords (Src.hart 0) 0 0 ((List.range 19).map (((liveImg image es).floe 0).window.1 + ·))

theorem witness_extensions_load_run_and_end_3 : ∃ (c : Fin 32) (o : OpenOrder) (s : State),
    (s.chan c).order = some o.id ∧
    (s.chan c).state = 2 ∧
    s.err.stat ≠ .recovering ∧
    s.orderOf o.id = some o ∧
    o.op = 0x08 ∧
    o.ending = none :=
  ⟨3, { openA 0x08 with image := 19, chans := [3] }, (openS liveM [] [{ openA 0x08 with image := 19, chans := [3] }]).modCh 3 fun x => { x with state := 2, order := some 0 }, by decide +kernel⟩

theorem witness_extensions_load_run_and_end_4 : ∃ (id : Nat) (h : Hart) (a : Access) (o : OpenOrder) (s : State),
    (s.powered = true ∧
    s.ice.sb.alloc.find? (fun x => x.id == id) = some a ∧
    a.who = .scalar h ∧
    s.imageOf id = some o ∧
    s.err.stat ≠ .recovering) ∧
    let ws := (List.range o.image).map ((s.floe o.floe).window.1 + ·)
    (∃ w ∈ ws, s.wordReviving o.floe w = true) :=
  ⟨0, 0, { id := 0, who := .scalar 0, ranges := [{ lo := 0, hi := 18, write := false }] }, openL, let s := liveImg imageA []; { s with ice := { s.ice with segs := vset s.ice.segs 0 .reviving } }, by decide +kernel, by decide +kernel⟩

theorem witness_extensions_load_run_and_end_5 : ∃ (id : Nat) (h : Hart) (a : Access) (o : OpenOrder) (s : State),
    (s.powered = true ∧
    s.ice.sb.alloc.find? (fun x => x.id == id) = some a ∧
    a.who = .scalar h ∧
    s.imageOf id = some o ∧
    s.err.stat ≠ .recovering) ∧
    let ws := (List.range o.image).map ((s.floe o.floe).window.1 + ·)
    (∀ w ∈ ws, s.wordReviving o.floe w = false) ∧
    (∃ w ∈ ws, (s.wordBad o.floe w).isSome = true) :=
  ⟨0, 0, { id := 0, who := .scalar 0, ranges := [{ lo := 0, hi := 18, write := false }] }, openL, let s := liveImg imageA []; { s with ice := { s.ice with segs := vset s.ice.segs 0 .melted } }, by decide +kernel, by decide +kernel⟩

theorem witness_extensions_load_run_and_end_6 : ∃ (id : Nat) (h : Hart) (a : Access) (o : OpenOrder) (s r : State) (m : Store (BitVec 33)),
    (s.powered = true ∧
    s.ice.sb.alloc.find? (fun x => x.id == id) = some a ∧
    a.who = .scalar h ∧
    s.imageOf id = some o ∧
    s.err.stat ≠ .recovering) ∧
    let ws := (List.range o.image).map ((s.floe o.floe).window.1 + ·)
    ((∀ w ∈ ws, s.wordReviving o.floe w = false) ∧
    (∀ w ∈ ws, s.wordBad o.floe w = none)) ∧
    s.readWords (Src.hart 0) id o.floe ws = (r, m) ∧
    (r.endAccess id).err.stat ≠ .recovering ∧
    let u := r.endAccess id
    let image := (List.range o.image).map fun i => contData (sget 0 m ((s.floe o.floe).window.1 + i))
    ((extHeader image).bad = true ∨ ∃ e ∈ u.hods.exts, e.id = (extHeader image).id) :=
  ⟨0, 0, { id := 0, who := .scalar 0, ranges := [{ lo := 0, hi := 18, write := false }] }, openL, liveImg imageA [extA], (readImg imageA [extA]).1, (readImg imageA [extA]).2, by decide +kernel, by decide +kernel, Prod.ext rfl rfl, by decide +kernel, Or.inr (by decide +kernel)⟩

theorem witness_extensions_load_run_and_end_7 : ∃ (id : Nat) (h : Hart) (a : Access) (o : OpenOrder) (s r : State) (m : Store (BitVec 33)),
    (s.powered = true ∧
    s.ice.sb.alloc.find? (fun x => x.id == id) = some a ∧
    a.who = .scalar h ∧
    s.imageOf id = some o ∧
    s.err.stat ≠ .recovering) ∧
    let ws := (List.range o.image).map ((s.floe o.floe).window.1 + ·)
    ((∀ w ∈ ws, s.wordReviving o.floe w = false) ∧
    (∀ w ∈ ws, s.wordBad o.floe w = none)) ∧
    s.readWords (Src.hart 0) id o.floe ws = (r, m) ∧
    (r.endAccess id).err.stat ≠ .recovering ∧
    let u := r.endAccess id
    let image := (List.range o.image).map fun i => contData (sget 0 m ((s.floe o.floe).window.1 + i))
    let size := (extHeader image).code + (extHeader image).data + (extHeader image).bss
    ((extHeader image).bad = false ∧
    (∀ e ∈ u.hods.exts, e.id ≠ (extHeader image).id)) ∧
    (8 ≤ u.hods.exts.length ∨ 0x40000 < (u.hods.exts.map Extension.size).sum + size ∨ u.extPlace size = none) :=
  ⟨0, 0, { id := 0, who := .scalar 0, ranges := [{ lo := 0, hi := 18, write := false }] }, openL, liveImg imageA (List.replicate 8 { extA with id := 8 }), (readImg imageA (List.replicate 8 { extA with id := 8 })).1, (readImg imageA (List.replicate 8 { extA with id := 8 })).2, by decide +kernel, by decide +kernel, Prod.ext rfl rfl, by decide +kernel, by decide +kernel, Or.inl (by decide +kernel)⟩

theorem witness_extensions_load_run_and_end_8 : ∃ (id : Nat) (h : Hart) (a : Access) (o : OpenOrder) (s r : State) (m : Store (BitVec 33)),
    (s.powered = true ∧
    s.ice.sb.alloc.find? (fun x => x.id == id) = some a ∧
    a.who = .scalar h ∧
    s.imageOf id = some o ∧
    s.err.stat ≠ .recovering) ∧
    let ws := (List.range o.image).map ((s.floe o.floe).window.1 + ·)
    ((∀ w ∈ ws, s.wordReviving o.floe w = false) ∧
    (∀ w ∈ ws, s.wordBad o.floe w = none)) ∧
    s.readWords (Src.hart 0) id o.floe ws = (r, m) ∧
    (r.endAccess id).err.stat ≠ .recovering ∧
    let u := r.endAccess id
    let image := (List.range o.image).map fun i => contData (sget 0 m ((s.floe o.floe).window.1 + i))
    let size := (extHeader image).code + (extHeader image).data + (extHeader image).bss
    (extHeader image).bad = false ∧
    (∀ e ∈ u.hods.exts, e.id ≠ (extHeader image).id) ∧
    u.hods.exts.length < 8 ∧
    (u.hods.exts.map Extension.size).sum + size ≤ 0x40000 ∧
    (u.extPlace size).isSome = true :=
  ⟨0, 0, { id := 0, who := .scalar 0, ranges := [{ lo := 0, hi := 18, write := false }] }, openL, liveImg imageA [], (readImg imageA []).1, (readImg imageA []).2, by decide +kernel, by decide +kernel, Prod.ext rfl rfl, by decide +kernel, by decide +kernel⟩

theorem witness_extensions_load_run_and_end_9 : ∃ (image : List Word) (p : OpenOrder) (a : Nat) (s : State),
    s.serving = true ∧
    s.storeCanonical ∧
    s.hods.verifying = some (p.id, image) ∧
    s.hods.openOrders = [p] ∧
    (extHeader image).bad = false ∧
    s.extPlace ((extHeader image).code + (extHeader image).data + (extHeader image).bss) = some a :=
  ⟨imageA, openA 0x08, 0x40000, liveVer, by decide +kernel⟩

theorem witness_extensions_load_run_and_end_10 : ∃ (ext : BitVec 16) (o : Order) (s t : State),
    s.serves o 0x09 t ∧
    (∀ e ∈ t.hods.exts, e.id ≠ ext) :=
  ⟨8, ordA 1 0x09 [], liveExt [ordA 1 0x09 []] [], liveExt [] [], ⟨by decide +kernel, by decide +kernel, rfl, rfl, by decide +kernel⟩, by decide +kernel⟩

theorem witness_extensions_load_run_and_end_11 : ∃ (ext : BitVec 16) (o : Order) (s t : State),
    s.serves o 0x09 t ∧
    (∃ e ∈ t.hods.exts, e.id = ext) ∧
    (∃ c ∈ t.hods.calls, c.ext = ext) :=
  ⟨9, ordA 1 0x09 [], liveExt [ordA 1 0x09 []] [callA []], liveExt [] [callA []], ⟨by decide +kernel, by decide +kernel, rfl, rfl, by decide +kernel⟩, by decide +kernel⟩

theorem witness_extensions_load_run_and_end_12 : ∃ (ext : BitVec 16) (o : Order) (s t : State),
    s.serves o 0x09 t ∧
    (∃ e ∈ t.hods.exts, e.id = ext) ∧
    (∀ c ∈ t.hods.calls, c.ext ≠ ext) :=
  ⟨9, ordA 1 0x09 [], liveExt [ordA 1 0x09 []] [], liveExt [] [], ⟨by decide +kernel, by decide +kernel, rfl, rfl, by decide +kernel⟩, by decide +kernel⟩

theorem witness_extensions_load_run_and_end_13 : ∃ (e : Extension) (h : Hart) (tile : TileReg) (ch : Fin 32) (params : Word) (o : Order) (s t : State),
    s.serves o 0x30 t ∧
    s.storeCanonical ∧
    t.hods.exts = [e] ∧
    e.nharts = 1 ∧
    e.ntiles = 1 ∧
    e.nch = 1 ∧
    h ≠ 0 ∧
    t.idleHart h = true ∧
    o.wepoch (t.negOf o) = 0xFFFF ∧
    (t.tiles.get tile).lease = .free ∧
    t.tileBusy tile = false ∧
    (∀ q ∈ t.leaseQ, q.tile ≠ tile) ∧
    t.chanFree (BitVec.ofNat 5 ch.val) = true ∧
    params.toNat % 4 = 0 ∧
    params.toNat / 4 + (o.words.length - 3) ≤ 0x20000 :=
  ⟨extA, 2, 4, 31, 64, ordA 1 0x30 [3, 4], liveExt [ordA 1 0x30 [3, 4]] [], liveExt [] [], ⟨by decide +kernel, by decide +kernel, rfl, rfl, by decide +kernel⟩, by decide +kernel⟩

theorem witness_extensions_load_run_and_end_14 : ∃ (h : Hart) (c : ExtCall) (s : State),
    s.canAct (Hart.reader h) = true ∧
    (s.hart h).mode = .u ∧
    (s.hart h).getX 17 = 0 ∧
    s.hods.calls = [c] ∧
    c.harts = [h] :=
  ⟨2, callA [31], ((liveExt [] [callA [31]]).modHart 2 fun t => { t with halted := false, mode := .u }), by decide +kernel⟩

/-- A call that has ended and waits for nothing. -/
def liveEnd : State :=
  let s := openS live [] [openA 0x30]
  { s with hods := { s.hods with calls := [{ callA [] with ending := some (0, [5]) }] } }

theorem witness_extensions_load_run_and_end_15 : ∃ (c : ExtCall) (st : BitVec 16) (ws : List Word) (p : OpenOrder) (s : State),
    s.serving = true ∧
    (∀ o r, s.hods.orders = o :: r → o.op ≠ 0x30) ∧
    s.hods.calls = [c] ∧
    c.ending = some (st, ws) ∧
    s.orderOf c.order = some p :=
  ⟨{ callA [] with ending := some (0, [5]) }, 0, [5], openA 0x30, liveEnd, by decide +kernel, fun o r h => by simp [liveEnd, openS, hodS] at h, by decide +kernel⟩

/-- `live` with an order in slot 0 of hod 0, and one in slot 0 of hod 2. -/
def liveIn (a c : Option (List Word)) : State :=
  let ring := fun (o : Option (List Word)) => match o with
    | some ws => ({ iprod := 1, neg := 2, inSlots := ssetMany 0 [] (ws.zipIdx.map fun q => (q.2, q.1)) } : Hod)
    | none => { neg := 2 }
  { live with hods := { live.hods with hod := #v[ring a, { neg := 2 }, ring c] } }

theorem witness_messages_are_taken_in_1 : ∃ (h : Fin 3) (s : State),
    s.serving = true ∧
    (s.hods.hod.get h).iprod = (s.hods.hod.get h).icons + 1 ∧
    (∀ g, g ≠ h → (s.hods.hod.get g).iprod = (s.hods.hod.get g).icons) ∧
    (nextOrder h (s.hods.hod.get h)).cont = 0 ∧
    opHods (nextOrder h (s.hods.hod.get h)).op ≠ [] :=
  ⟨2, liveIn none (some [0x00070042, 2, 0xFFFF0005]), by decide +kernel⟩

theorem witness_messages_are_taken_in_2 : ∃ (d : Hod) (n : Nat),
    let place := fun (k j : Nat) => ((d.icons + BitVec.ofNat 32 k).toNat % 64 * 16 + j) % 1024
    let slot := fun (k : Nat) => (List.range 16).map fun j => sget 0 d.inSlots (place k j)
    n ≤ 64 ∧
    d.iprod = d.icons + BitVec.ofNat 32 n ∧
    (∀ k < n, ((slot k).getD 0 0).extractLsb' 9 2 = 0) :=
  ⟨{ iprod := 64 }, 64, by decide +kernel⟩

theorem witness_messages_are_taken_in_3 : ∃ (d : Hod) (c : Nat),
    let place := fun (k j : Nat) => ((d.icons + BitVec.ofNat 32 k).toNat % 64 * 16 + j) % 1024
    let slot := fun (k : Nat) => (List.range 16).map fun j => sget 0 d.inSlots (place k j)
    c ≤ 3 ∧
    d.iprod = d.icons + BitVec.ofNat 32 (c + 1) ∧
    (((slot 0).getD 0 0).extractLsb' 9 2).toNat = c :=
  ⟨{ iprod := 4, inSlots := [(0, 0x600)] }, 3, by decide +kernel⟩

theorem witness_messages_are_taken_in_4 : ∃ (s : State),
    s.serving = true :=
  ⟨liveIn (some [0x00070004, 2, 0xFFFF0005, 1]) (some [0x00080005, 2, 0xFFFF0005, 3]), by decide +kernel⟩

theorem witness_messages_are_taken_in_5 : ∃ (h : Fin 3) (v : Word) (s : State),
    s.powered = true ∧
    (v - (s.hods.hod.get h).iprod).toNat < 2 ^ 31 ∧
    (v - (s.hods.hod.get h).icons).toNat ≤ 64 :=
  ⟨1, 64, hodS live [], by decide +kernel⟩

theorem witness_messages_are_taken_in_6 : ∃ (h : Fin 3) (v : Word) (s : State),
    s.powered = true ∧
    (2 ^ 31 ≤ (v - (s.hods.hod.get h).iprod).toNat ∨ 64 < (v - (s.hods.hod.get h).icons).toNat) :=
  ⟨1, 65, hodS live [], by decide +kernel, Or.inr (by decide +kernel)⟩

theorem witness_messages_are_taken_in_7 : ∃ (h : Fin 3) (k : Hart) (v : Word) (s : State),
    s.canAct (Hart.reader k) = true ∧
    (s.hart k).mode = .m ∧
    (v - (s.hods.hod.get h).oprod).toNat < 2 ^ 31 ∧
    (v - (s.hods.hod.get h).ocons).toNat ≤ 64 ∧
    v ≠ (s.hods.hod.get h).oprod :=
  ⟨1, 0, 64, live, by decide +kernel⟩

theorem witness_messages_are_taken_in_8 : ∃ (h : Fin 3) (k : Hart) (v : Word) (s : State),
    (s.canAct (Hart.reader k) = true ∧
    (s.hart k).mode = .m) ∧
    (2 ^ 31 ≤ (v - (s.hods.hod.get h).oprod).toNat ∨ 64 < (v - (s.hods.hod.get h).ocons).toNat) :=
  ⟨1, 0, 65, live, by decide +kernel, Or.inr (by decide +kernel)⟩

theorem witness_harts_events_and_timers_1 : ∃ (r : Reader) (s : State),
    s.canAct r = true ∧
    s.privileged r = true :=
  ⟨0, live, by decide +kernel⟩

theorem witness_harts_events_and_timers_2 : ∃ (r : Reader) (s : State),
    s.canAct r = true ∧
    s.privileged r = true ∧
    8 ≤ s.boot.stage.toNat ∧
    s.err.stat ≠ .recovering :=
  ⟨16, live, by decide +kernel⟩

theorem witness_harts_events_and_timers_3 : ∃ (r : Reader) (s : State),
    s.canAct r = true ∧
    s.privileged r = false :=
  ⟨0, liveU, by decide +kernel⟩

theorem witness_harts_events_and_timers_4 : ∃ (r : Reader) (s : State),
    s.canAct r = true :=
  ⟨0, liveU, by decide +kernel⟩

theorem witness_harts_events_and_timers_5 : ∃ (n : Fin 4) (s : State),
    s.powered = true ∧
    ((s.ks.timers.get n).en = false ∨ (s.ks.timers.get n).frost = true) :=
  ⟨3, live, by decide +kernel⟩

theorem witness_harts_events_and_timers_6 : ∃ (n : Fin 4) (s : State),
    s.powered = true ∧
    (s.ks.timers.get n).en = true ∧
    (s.ks.timers.get n).frost = false ∧
    (s.ks.timers.get n).owned = true :=
  ⟨3, live.modTimer 3 fun _ => { en := true, owner := 15, reload := 5 }, by decide +kernel⟩

theorem witness_pace_calibration_and_observation_1 : ∃ (s : State),
    s.powered = true :=
  ⟨live, by decide +kernel⟩

theorem witness_pace_calibration_and_observation_2 : ∃ (r : Reader) (s : State),
    s.canAct r = true ∧
    s.privileged r = true :=
  ⟨0, live, by decide +kernel⟩

theorem witness_pace_calibration_and_observation_3 : ∃ (r : Reader) (n : Fin 16) (s : State),
    s.canAct r = true ∧
    s.privileged r = true ∧
    (s.obs.out.get n).src = 2 :=
  ⟨0, 15, { live with obs := { live.obs with out := vmod live.obs.out 15 fun o => { o with src := 2 } } }, by decide +kernel⟩

theorem witness_pace_calibration_and_observation_4 : ∃ (r : Reader) (n : Fin 16) (code : BitVec 8) (s : State),
    s.canAct r = true ∧
    s.privileged r = true ∧
    (s.obs.out.get n).src ≠ 2 ∧
    obsCode code = true :=
  ⟨0, 15, 0xB2, live, by decide +kernel⟩

theorem witness_pace_calibration_and_observation_5 : ∃ (r : Reader) (on : Bool) (s : State),
    s.canAct r = true ∧
    s.privileged r = true ∧
    (∀ i : Fin 16, 12 ≤ i.val → (s.obs.out.get i).src ≠ 1) ∧
    on ≠ s.cal.tapClaim :=
  ⟨16, true, live, by decide +kernel⟩

theorem witness_pace_calibration_and_observation_6 : ∃ (r : Reader) (s : State),
    s.canAct r = true ∧
    s.privileged r = true ∧
    (∃ i : Fin 16, 12 ≤ i.val ∧ (s.obs.out.get i).src = 1) ∧
    s.cal.tapClaim = false :=
  ⟨16, { live with obs := { live.obs with out := vmod live.obs.out 12 fun o => { o with src := 1 } } }, by decide +kernel⟩

theorem witness_pace_calibration_and_observation_7 : ∃ (r : Reader) (s : State),
    s.canAct r = true :=
  ⟨0, { liveU with obs := { liveU.obs with ev := vmod liveU.obs.ev 7 fun e => { e with count := 0xFFFFFFFFFFFF } } }, by decide +kernel⟩

/-- `live` with calibration on and the frost monitor's timer counting; region 0 at tap 60. -/
def liveCal (tap : BitVec 6) : State :=
  let s := live.modTimer 3 fun _ => { en := true, frost := true, owned := false, reload := 900 }
  { s with cal := { s.cal with on := true, regions := vmod s.cal.regions 0 fun r => { r with tap } } }

theorem witness_pace_calibration_and_observation_8 : ∃ (s : State),
    s.powered = true ∧
    s.cal.on = true ∧
    (s.ks.timers.get 3).frost = true ∧
    (s.ks.timers.get 3).en = true ∧
    s.regionDown 0 = false :=
  ⟨liveCal 63, by decide +kernel⟩

theorem witness_pace_calibration_and_observation_9 : ∃ (g : Fin 35) (v : Nat) (s : State),
    s.powered = true ∧
    g.val < Config.regions s.cfg ∧
    s.regionDown g = false ∧
    (s.cal.regions.get g).tap.toNat < 63 ∧
    (2 ≤ v ∨ (s.cal.regions.get g).tap.toNat < 59) :=
  ⟨0, 1, liveCal 58, by decide +kernel⟩

theorem witness_pace_calibration_and_observation_10 : ∃ (g : Fin 35) (v : Nat) (s : State),
    (s.powered = true ∧
    g.val < Config.regions s.cfg ∧
    s.regionDown g = false) ∧
    ((s.cal.regions.get g).tap = 63 ∨ (s.cal.regions.get g).tap.toNat + 4 ≥ 63 ∧ v < 2) ∧
    8 ≤ s.boot.stage.toNat ∧
    s.err.stat = .running :=
  ⟨0, 1, liveCal 59, by decide +kernel, Or.inr (by decide +kernel), by decide +kernel⟩

theorem witness_register_and_csr_writes_follow_their_access_1 : ∃ (r : Reader) (s : State),
    s.canAct r = true :=
  ⟨0, liveU, by decide +kernel⟩

theorem witness_register_and_csr_writes_follow_their_access_2 : ∃ (r : Reader) (lost : List Hart) (s : State),
    s.canAct r = true ∧
    s.privileged r = true ∧
    (r = mgmt ∨ ∀ h : Hart, r = Hart.reader h → ∀ g ∈ s.reaching r lost, g.val ≤ h.val) :=
  ⟨3, [1], { live with harts := vset (vset live.harts 1 { halted := false }) 3 { halted := false } }, by decide +kernel⟩

theorem witness_register_and_csr_writes_follow_their_access_3 : ∃ (r : Reader) (lost : List Hart) (s : State) (h g : Hart),
    s.canAct r = true ∧
    s.privileged r = true ∧
    r = Hart.reader h ∧
    g ∈ s.reaching r lost ∧
    h.val < g.val :=
  ⟨3, [5], { live with harts := vset (vset live.harts 5 { halted := false }) 3 { halted := false } }, 3, 5, by decide +kernel⟩

theorem witness_register_and_csr_writes_follow_their_access_4 : ∃ (r : Reader) (s : State),
    s.canAct r = true ∧
    s.privileged r = true :=
  ⟨0, live.modPort 2 fun p => { p with state := .novers }, by decide +kernel⟩

theorem witness_register_and_csr_writes_follow_their_access_5 : ∃ (r : Reader) (s : State) (off : BitVec 16),
    s.canAct r = true ∧
    s.privileged r = false ∧
    off.toNat % 4 = 0 ∧
    (off = 0xC ∨ 0x100 ≤ off.toNat ∧ off.toNat < 0x120 ∧ off ≠ 0x104 ∨ 0x400 ≤ off.toNat ∧ off.toNat < 0x500 ∨ off = 0x624 ∨
      off = 0x628 ∨ 0x1000 ≤ off.toNat ∧ off ≠ 0x1064) :=
  ⟨0, liveU, 0x1060, by decide +kernel⟩

theorem witness_register_and_csr_writes_follow_their_access_6 : ∃ (h : Hart) (s : State),
    s.canAct (Hart.reader h) = true :=
  ⟨0, liveU, by decide +kernel⟩

theorem witness_register_and_csr_writes_follow_their_access_7 : ∃ (h : Hart) (s : State),
    s.canAct (Hart.reader h) = true ∧
    (s.hart h).mode = .m ∧ s.callOf h = none :=
  ⟨0, live, by decide +kernel⟩

theorem witness_register_and_csr_writes_follow_their_access_8 : ∃ (h : Hart) (s : State),
    s.canAct (Hart.reader h) = true ∧
    (s.hart h).mode = .u ∧ s.callOf h = none :=
  ⟨0, liveU, by decide +kernel⟩

theorem witness_register_and_csr_writes_follow_their_access_9 : ∃ (s : State),
    s.cfg = .c3l :=
  ⟨liveU, by decide +kernel⟩

/-- `live` with segment 3 in permafrost; it holds one of two listed words. -/
def livePf : State :=
  { live with ice := { live.ice with segs := vset live.ice.segs 3 .permafrost,
                                     cells := [(0, encodeClean 1), (768, encodeClean 2)] } }

/-- An engine without supply. -/
def off : State := { State.reset with powered := false }

/-- `off` with segment 3 on the rail, whose first word is kept. -/
def off3 : State :=
  { off with
    railHeld := [3]
    ice := { off.ice with segs := vset off.ice.segs 3 .permafrost, cells := [(0, encodeClean 1), (768, encodeClean 2)] } }

theorem witness_resets_and_power_keep_permafrost_alone_1 : ∃ (s : State),
    s.fieldCanonical :=
  ⟨off3, by decide +kernel⟩

theorem witness_resets_and_power_keep_permafrost_alone_2 : ∃ (s : State),
    s.powered = true ∧
    s.powerReq = false :=
  ⟨livePf.modCh 31 fun _ => { state := 1 }, by decide +kernel⟩

theorem witness_resets_and_power_keep_permafrost_alone_3 : ∃ (timeout : Bool) (s : State),
    s.powered = true ∧
    (s.powerReq = false ∨ s.powerDrained = false ∧ timeout = false) :=
  ⟨false, livePf, by decide +kernel⟩

theorem witness_resets_and_power_keep_permafrost_alone_4 : ∃ (timeout : Bool) (s : State),
    (s.powered = true ∧
    s.powerReq = true) ∧
    (s.powerDrained = true ∨ timeout = true) :=
  ⟨false, { livePf with powerReq := true, offWait := .drained }, by decide +kernel, Or.inl (by decide +kernel)⟩

theorem witness_resets_and_power_keep_permafrost_alone_5 : ∃ (s : State),
    s.powered = true ∧
    s.fieldCanonical :=
  ⟨livePf, by decide +kernel⟩

theorem witness_resets_and_power_keep_permafrost_alone_6 : ∃ (c : Instr) (s : State),
    s.powered = false ∧
    (∀ l, c ≠ .reset l) :=
  ⟨.wfi 0, off, by decide +kernel, fun _ h => by cases h⟩

theorem witness_resets_and_power_keep_permafrost_alone_7 : ∃ (s : State),
    s.powered = false ∧
    s.pending = [] :=
  ⟨off, by decide +kernel⟩

/-- `liveM` in permafrost with an allocated byte store to word 9. -/
def liveTorn : State :=
  let s := (liveA (.scalar 0) 9 9 true).modHart 0 fun t => { t with wait := .store .sb 0x10000025 7 0 1 }
  { s with ice := { s.ice with segs := vset s.ice.segs 0 .permafrost, cells := sset 0 [] (s.cellAt 9 0) (encodeClean 77) } }

theorem witness_resets_and_power_keep_permafrost_alone_torn :
    ∃ (rail : List (Fin 64)) (s : State) (cell : Nat) (l m : List (Fin 64 × IceWrite)) (q : Fin 64 × IceWrite),
    s.powered = true ∧ s.fieldCanonical ∧ (∃ g, s.comesUp rail g ∧ s.heldCell g cell = true) ∧ s.flying = l ++ q :: m ∧
    s.tears q cell ∧ ∀ x ∈ l ++ m, ¬s.tears x cell :=
  ⟨[0], liveTorn, liveTorn.cellAt 9 0, [], [], (0, { word := 9, data := 0x700, mask := 2 }), by decide +kernel,
   by decide +kernel,
   ⟨0, by unfold State.comesUp; rw [if_pos (by decide +kernel)]; decide +kernel, by decide +kernel⟩, by decide +kernel,
   ⟨by decide +kernel, 9, false, by decide +kernel⟩, by simp⟩

/-- A revival whose last segment is tested, with its commit. -/
def liveRev : State :=
  let s := liveR { segs := [63], target := .permafrost, ramped := 1, tested := true }
  { s with ice := { s.ice with commit := some { floe := 0, entry := {}, who := 16, sb := some 0 } } }

theorem witness_segments_melt_and_revive_last : ∃ (r : Revival) (g : Fin 64) (c : Commit) (s : State),
    s.powered = true ∧ s.fieldCanonical ∧ s.ice.revival = some r ∧ r.segs = [g] ∧ r.tested = true ∧
    s.ice.commit = some c ∧ ∀ o ∈ s.hods.openOrders, o.op ≠ 0x21 :=
  ⟨{ segs := [63], target := .permafrost, ramped := 1, tested := true }, 63, { floe := 0, entry := {}, who := 16, sb := some 0 },
   liveRev, by decide +kernel⟩

/-- A fault of the Icefield. -/
def faultA : FaultRec := { code := 8, src := 15, unit := 63, loc := 1, loc2 := 2 }

/-- `liveM` in recovery of a write of word 9 that had not retired. -/
def liveRec : State :=
  { liveM with
    err := { liveM.err with stat := .recovering, recovery := some { faultA with ranges := [{ lo := 9, hi := 9, write := true }] } }
    ice := { liveM.ice with cells := sset 0 [] (liveM.cellAt 9 0) (encodeClean 77) } }

theorem witness_faults_halt_and_recovery_stops_1 : ∃ (code : BitVec 8) (s : State),
    s.powered = true ∧
    code ≠ 0 ∧
    code.toNat ≤ 8 ∧
    s.boot.stage.toNat < 8 ∧
    code ≠ 2 :=
  ⟨7, { State.reset with boot := { State.reset.boot with earlyFault := some faultA } }, by decide +kernel⟩

theorem witness_faults_halt_and_recovery_stops_2 : ∃ (code : BitVec 8) (s : State),
    s.powered = true ∧
    code ≠ 0 ∧
    code.toNat ≤ 8 ∧
    8 ≤ s.boot.stage.toNat ∧
    s.err.stat = .running :=
  ⟨8, liveP0 portUp winA, by decide +kernel⟩

theorem witness_faults_halt_and_recovery_stops_3 : ∃ (code : BitVec 8) (s : State) (r : _),
    (s.powered = true ∧
    code ≠ 0 ∧
    code.toNat ≤ 8 ∧
    8 ≤ s.boot.stage.toNat ∧
    s.err.stat = .recovering ∧
    s.err.recovery = some r) ∧
    (s.cycle ≠ r.step ∨ r.reload.isSome = true ∨ r.code.toNat ≤ code.toNat) :=
  ⟨8, liveRec, { faultA with ranges := [{ lo := 9, hi := 9, write := true }] }, by decide +kernel, Or.inr (Or.inr (by decide +kernel))⟩

theorem witness_faults_halt_and_recovery_stops_4 : ∃ (code : BitVec 8) (s : State) (r : _),
    s.powered = true ∧
    code ≠ 0 ∧
    code.toNat ≤ 8 ∧
    8 ≤ s.boot.stage.toNat ∧
    s.err.stat = .recovering ∧
    s.err.recovery = some r ∧
    s.cycle = r.step ∧
    r.reload = none ∧
    code.toNat < r.code.toNat :=
  ⟨1, liveRec, { faultA with ranges := [{ lo := 9, hi := 9, write := true }] }, by decide +kernel⟩

theorem witness_faults_halt_and_recovery_stops_5 : ∃ (code : BitVec 8) (s : State),
    s.powered = true ∧
    code ≠ 0 ∧
    code.toNat ≤ 8 ∧
    8 ≤ s.boot.stage.toNat ∧
    s.err.stat = .stopped :=
  ⟨8, { live with err := { live.err with stat := .stopped } }, by decide +kernel⟩

theorem witness_faults_halt_and_recovery_stops_6 : ∃ (r : FaultRec) (w p : Nat) (f : Fin 64) (hash : Bool) (s : State),
    s.powered = true ∧
    s.fieldCanonical ∧
    s.err.stat = .recovering ∧
    s.err.recovery = some r ∧
    r.code ≠ 1 ∧
    r.code ≠ 2 ∧
    r.reload = none ∧
    r.marks = [] ∧
    r.ranges = [{ lo := w, hi := w, write := true }] ∧
    s.vu.inflight = [] ∧
    s.recoveryDrained = true ∧
    s.floeOf w = some f ∧
    s.place f w = some (.phys p hash) ∧
    s.segAt p ≠ .melted :=
  ⟨{ faultA with ranges := [{ lo := 9, hi := 9, write := true }] }, 9, 9, 0, false, liveRec, by decide +kernel⟩

/-- A format 2 record with SEQ 23 and physical group 7 retired. -/
def recA : List Word := [0x44524C43, 0x04001002, 9, 0x17, 0x80, 0, 0, 0, 0x7F0EC9AA]

/-- The same record with SEQ 24. -/
def recB : List Word := [0x44524C43, 0x04001002, 9, 0x18, 0x80, 0, 0, 0, 0x0391B98B]

/-- Start-up after its record stage. -/
def boot (b : Startup) : State := { State.reset with mortar := { opCredits := 4 }, boot := { b with recordDone := true } }

theorem witness_start_up_runs_from_record_to_ready_1 : ∃ (s : State),
    s.powered = true ∧
    s.boot.recordDone = false :=
  ⟨State.reset, by decide +kernel⟩

theorem witness_start_up_runs_from_record_to_ready_2 : ∃ (a b : Option (List Word)) (s : State),
    s.powered = true ∧
    s.boot.recordDone = false ∧
    checkSlot s.cfg a ≠ .valid ∧
    checkSlot s.cfg b ≠ .valid :=
  ⟨none, some [], State.reset, by decide +kernel⟩

theorem witness_start_up_runs_from_record_to_ready_3 : ∃ (a b : Option (List Word)) (s : State) (ws : List Word) (useB : Bool),
    (s.powered = true ∧
    s.boot.recordDone = false ∧
    checkSlot s.cfg (some ws) = .valid ∧
    (recOf ws).nspare = 0) ∧
    (if useB then b = some ws ∧ (checkSlot s.cfg a = .valid → ∃ vs, a = some vs ∧ seqLater (recOf ws).seq (recOf vs).seq = true)
      else a = some ws ∧ (checkSlot s.cfg b = .valid → ∃ vs, b = some vs ∧ seqLater (recOf vs).seq (recOf ws).seq = false)) :=
  ⟨some recA, some recB, State.reset, recB, true, by decide +kernel, ⟨rfl, fun _ => ⟨recA, rfl, by decide +kernel⟩⟩⟩

theorem witness_start_up_runs_from_record_to_ready_4 : ∃ (s : State),
    s.powered = true ∧
    s.boot.recordDone = true ∧
    s.boot.storeFilled = false ∧
    s.boot.stage.toNat < 7 :=
  ⟨boot { stage := 4 }, by decide +kernel⟩

theorem witness_start_up_runs_from_record_to_ready_lanes : ∃ (s : State) (g k : Fin 17),
    s.powered = true ∧ s.boot.recordDone = true ∧ s.boot.lanesTested = false ∧ s.hasLane g = true ∧
    (s.err.lanes.get g).state = .active ∧ s.readySpare = some k :=
  ⟨boot {}, 0, 16, by decide +kernel⟩

theorem witness_start_up_runs_from_record_to_ready_5 : ∃ (s : State),
    s.powered = true ∧
    s.boot.recordDone = true ∧
    s.boot.iceTested = false ∧
    s.boot.fwref = false :=
  ⟨boot {}, by decide +kernel⟩

theorem witness_start_up_runs_from_record_to_ready_6 : ∃ (s : State),
    s.powered = true ∧
    s.fieldCanonical ∧
    s.boot.iceTested = true ∧
    s.boot.iceFilled = false ∧
    s.boot.fwref = false :=
  ⟨{ boot { iceTested := true, retained := [3] } with ice := livePf.ice }, by decide +kernel⟩

theorem witness_start_up_runs_from_record_to_ready_7 : ∃ (s : State),
    s.powered = true ∧
    s.storeCanonical ∧
    s.boot.fwref = false ∧
    s.awaitsFirmware = false ∧
    s.boot.storeFilled = true ∧
    s.boot.fwDelivered = false ∧
    s.boot.keystoneStarted = false :=
  ⟨boot { storeFilled := true }, by decide +kernel⟩

theorem witness_start_up_runs_from_record_to_ready_8 : ∃ (s : State),
    s.powered = true ∧
    s.boot.fwref = true :=
  ⟨boot { fwref := true }, by decide +kernel⟩

theorem witness_start_up_runs_from_record_to_ready_9 : ∃ (s : State),
    s.powered = true ∧
    s.boot.lanesTested = true ∧
    s.boot.iceFilled = true ∧
    s.boot.fwDelivered = true ∧
    s.boot.keystoneStarted = false :=
  ⟨boot { lanesTested := true, iceFilled := true, fwDelivered := true }, by decide +kernel⟩

theorem witness_start_up_runs_from_record_to_ready_10 : ∃ (s : State) (h : Hart),
    s.powered = true ∧
    s.canAct (Hart.reader h) = true ∧
    (s.hart h).mode = .m ∧
    s.boot.stage = 8 ∧
    s.boot.keystoneStarted = true :=
  ⟨{ live with boot := { stage := 8, keystoneStarted := true } }, 0, by decide +kernel⟩

theorem witness_start_up_runs_from_record_to_ready_11 : ∃ (s : State),
    s.powered = true ∧
    s.boot.stage = 9 ∧
    s.boot.ready = false ∧
    s.err.stat = .running ∧
    s.boot.held = [] ∧
    s.boot.earlyFault = none ∧
    s.boot.caloff = false ∧
    s.boot.laneShort = false :=
  ⟨{ live with boot := { stage := 9, keystoneStarted := true, fwready := true } }, by decide +kernel⟩

theorem witness_local_store_scrub_corrects_1 : ∃ (d : Word) (v : BitVec 4) (s : State),
    s.powered = true ∧
    s.storeCanonical ∧
    v ≠ 0 ∧
    sget 0 s.ks.store s.ks.scrubAt = encodeClean d :=
  ⟨7, 15, { liveS with ks := { liveS.ks with scrubAt := 0x1FFFF } }, by decide +kernel⟩

theorem witness_local_store_scrub_corrects_2 : ∃ (d : Word) (p : Fin 11) (v : BitVec 4) (s : State),
    s.powered = true ∧
    s.storeCanonical ∧
    v ≠ 0 ∧
    sget 0 s.ks.store s.ks.scrubAt = encodeClean d ^^^ (v.setWidth 44 <<< (4 * p.val)) :=
  ⟨7, 10, 15, { live with ks := { live.ks with store := [(0x1FFFF, encodeClean 7 ^^^ 0xF0000000000)], scrubAt := 0x1FFFF } }, by decide +kernel⟩

/-! ## Worked examples of the spec -/

/-- The state after an outcome. -/
def nextOf (o : Host.Outcome State Fault Refusal) : State :=
  match o with | .next s => s | _ => live

/-- Codewords of R300 to R302 for 0x3F80_0000 (08_icefield, worked example). -/
theorem test_codewords_of_the_example :
    encodeClean 0x3F800000 = 0xD183F800000 ∧ encodeSlush 0x3F800000 = 0xDE73F800000 ∧
    encodePoison 0x3F800000 = 0x2173F800000 := by decide

/-- Bit 24 of that codeword flips: position 9, value 1, corrected (08_icefield, worked example). -/
theorem test_symbol_error_is_corrected :
    classify 0xD183E800000 = .single 9 1 ∧ correctAt 0xD183E800000 9 1 = 0xD183F800000 := by decide

/-- The block-scaled round trip (02_number_formats, worked example). -/
theorem test_block_scaled_round_trip :
    (storeBlock .fp32 .e4m3 [0x447A0000, 0x40400000, 0xBC23D70A]).1 = 0x80 ∧
    (storeBlock .fp32 .e4m3 [0x447A0000, 0x40400000, 0xBC23D70A]).2.map (·.code) = [0x7E, 0x3C, 0x83] ∧
    ([0x7E, 0x3C, 0x83].map fun c => (Fmt.fp32.encode false false (scaled (Fmt.e4m3.decode c) 0x80)).code) =
      [0x44600000, 0x40400000, 0xBC400000] := by decide +kernel

/-- 464.0 rounds to 448 in E4M3, 465.0 is beyond range (R60, R61). -/
theorem test_e4m3_range :
    (convert .fp32 .e4m3 false 0x43E80000).code = 0x7E ∧ (convert .fp32 .e4m3 false 0x43E88000).code = 0x7F ∧
    (convert .fp32 .e4m3 true 0x43E88000).code = 0x7E := by decide +kernel

/-- Terms of FP32 codes. -/
def terms32 (l : List Nat) : List Term := l.map fun c => Term.whole (Fmt.fp32.decodeFloat c)

/-- The three dot products of 03_arithmetic, fast and strict. -/
theorem test_dot_products :
    (groupSum false false .fp32 .fp32 (terms32 [0x3F800000, 0x33800000, 0x33800000])).code = 0x3F800001 ∧
    (groupSum true false .fp32 .fp32 (terms32 [0x3F800000, 0x33800000, 0x33800000])).code = 0x3F800000 ∧
    (groupSum false false .fp32 .fp32 (terms32 [0x3F800000, 0x33800000, 0x0D800000])).code = 0x3F800000 ∧
    (groupSum false false .fp32 .fp32 (terms32 [0x3F800000, 0xBF800000, 0x0D800000, 0x8D800000])).code = 0x98000000 ∧
    (groupSum true false .fp32 .fp32 (terms32 [0x3F800000, 0xBF800000, 0x0D800000, 0x8D800000])).code = 0 := by
  decide +kernel

/-- The FP64 product of R87. -/
theorem test_fp64_products :
    (elementwise .mul true false .fp64 .fp64 .fp64 0x3FF0000003FFFFFF 0x3FF0000003FFFFFF 0).code = 0x3FF0000007FFFFFF ∧
    (elementwise .mul false false .fp64 .fp64 .fp64 0x3FF0000003FFFFFF 0x3FF0000003FFFFFF 0).code = 0x3FF0000007FFFFFE := by
  decide +kernel

/-- INT8 100 + 100 (03_arithmetic). -/
theorem test_int8_sum :
    (elementwise .add false true .int8 .int8 .int8 100 100 0).code = 0x7F ∧
    (elementwise .add false false .int8 .int8 .int8 100 100 0).code = 0xC8 := by decide +kernel

/-- The two words of 04_tiles_harts_and_issue decode as it says. -/
theorem test_xcalad_words :
    XInstr.ofWords 0x010AE3BF 0x50041022 =
      { op := 7, fn := 7, a := { grp := 2, sat := true, fmtd := 1, td := 16, ta := 4, tb := 8, count := 8200, pred := 2 } } := by
  decide

/-- A tile of rows of FP32 words. -/
def rowsTile (rs : List (List Word)) (marks : List Nat := []) : Tile :=
  { data := ssetMany 0 [] (rs.zipIdx.flatMap fun (r, i) =>
      r.zipIdx.map fun (w, j) => (64 * i + j, mkCont w (marks.contains (64 * i + j))))
    vr := rs.length, vc := (rs.headD []).length, lease := .exclusive }

/-- An instruction over T1, T2 and T3. -/
def xin (k : XKind) (a : XArgs) (t1 t2 t3 : Tile) : XIn :=
  { k, e := { x := { op := 0, fn := 0, a } }, pred := BitVec.allOnes 256, quota := 0
    ts := vset (vset (vset (Vector.replicate 64 {}) 1 t1) 2 t2) 3 t3, hart := {} }

/-- The first `n` words of row `r` of T3 after an instruction. -/
def outRow (x : XIn) (r n : Nat) : List Word :=
  (List.range n).map fun c => contData (contAt ((xEffect x).tiles x.ts) 3 (64 * r + c))

/-- The summary and the results of the row sum of 04_tiles_harts_and_issue. -/
def sumX : XIn :=
  { xin (.rsum 0 false) { td := 3, ta := 1, count := 150 } (rowsTile (List.replicate 3 (List.replicate 50 0x3F800000)) [133]) {} {}
    with pred := 5 }
theorem test_row_sum_summary : (xEffect sumX).sum = 0x0002800100020002 := by decide +kernel
theorem test_row_sum_results :
    outRow sumX 0 1 = [0x42480000] ∧ outRow sumX 2 1 = [0x41B00000] ∧ (xEffect sumX).exts = [(3, 3, 1)] := by decide +kernel

/-- The ordered store-add of 05_instruction_catalogue ends at zero. -/
theorem test_store_add :
    ((xEffect { xin (.st true) { td := 0, ta := 1, count := 4 } (rowsTile [[0x3F800000, 0x33800000, 0x33800000, 0xBF800000]]) {} {}
      with e := { x := { op := 0, fn := 0, a := { td := 0, ta := 1, count := 4 } }, estr := 0 }, floe := some (0, 1024) }).ice.map
        fun w => (w.word, w.data)) = [(0, 0)] := by decide +kernel

/-- SOFTMAX of the three rows at the edge of 05_instruction_catalogue. -/
def edge : Tile :=
  rowsTile [List.replicate 4 0xFF800000, [0x7F800000, 0x40400000, 0x7F800000, 0xFF800000],
    [0x3F800000, 0x7FC00000, 0x40000000, 0xFF800000]]
theorem test_softmax_rows :
    let x := xin (.norm 0) { td := 3, ta := 1, count := 132, s := true } edge {} {}
    outRow x 0 4 = [0, 0, 0, 0] ∧ outRow x 1 4 = [0x3F000000, 0, 0x3F000000, 0] ∧
      outRow x 2 4 = List.replicate 4 0x7FC00000 := by decide +kernel
theorem test_logsoftmax_rows :
    let x := xin (.norm 1) { td := 3, ta := 1, count := 132, s := true } edge {} {}
    outRow x 0 4 = List.replicate 4 0xFF800000 ∧ outRow x 1 4 = [0xBF317218, 0xFF800000, 0xBF317218, 0xFF800000] := by
  decide +kernel

/-- MPRUNE BRICK with k = 2 on the brick of 06_masks_and_irregular_data, its bitmap in T3. -/
def pruneX : XIn :=
  let t : Tile := rowsTile [[0, 0, 0xBFC00000, 0x3FC00000, 0, 0, 0, 0x7FC00000, 0, 0x3E800000, 0, 0, 0xBFC00000, 0, 0, 0]]
  let x := xin (.mprune 0) { td := 3, ta := 1, count := 16 } t {} (rowsTile [[0x128C]])
  { x with e := { x.e with scalar := 2, mparam := 0x10000 } }
theorem test_mprune_brick :
    outRow pruneX 0 1 = [0x000C] ∧ ((xEffect pruneX).sum.extractLsb' 0 15).toNat = 3 := by decide +kernel

/-- MPACK of the brick of 06_masks_and_irregular_data: epoch 7, capacity 8, no scale, E4M3, its bitmap in T2. -/
def packX : XIn :=
  let t : Tile := { data := [(0, 0x00003800), (1, 0x000030C0), (7, 0x00440000)], vr := 1, vc := 32, lease := .exclusive }
  let x := xin (.mpack false) { td := 3, ta := 1, tb := 2, fmta := 3, fmtd := 3, count := 32 } t (rowsTile [[0x40000032]]) {}
  { x with e := { x.e with mparam := 0x00020007 } }
theorem test_mpack_brick : outRow packX 0 4 = [0x40000032, 0x237F0007, 0x4430C038, 0] := by decide +kernel

/-- The strict ROUTE of 06_masks_and_irregular_data: four tokens, three experts, k = 2, C = 2. -/
def routeX : XIn :=
  let x := xin (.route true) { td := 3, ta := 1, tb := 2, count := 195, s := true }
    (rowsTile [[0x40000000, 0x40000000, 0], [0, 0x40400000, 0x40400000], [0x3F800000, 0, 0x3F800000],
      [0x40A00000, 0x40A00000, 0x3F800000]]) {} {}
  { x with e := { x.e with xarg := 0x22 } }
theorem test_route :
    ((List.range 9).map fun c => contData (contAt ((xEffect routeX).tiles routeX.ts) 2 c)) = [0, 2, 1, 0, 1, 2, 2, 2, 2] ∧
    outRow routeX 0 6 = List.replicate 6 0x3F000000 ∧ (xEffect routeX).sum = 0x07FF8000000A0006 := by decide +kernel

/-- The generator's vectors (R267). -/
theorem test_generator :
    genBlock 0 0 0 0 0 = 0x1ED5C8C3CBEAA98200D772D95A4204A0 ∧
    genBlock 1 2 0x2A (genC1 5 7) (genC2 0 1) = 0xBA33C3881EF89A464691647F47660E0A ∧
    genDraw 1 2 0x2A (genC1 5 7) (genC2 0 1) = 0x47660E0A := by decide +kernel

/-- CRC-32 of R497 over its check string. -/
theorem test_crc : crc32 [0x31, 0x32, 0x33, 0x34, 0x35, 0x36, 0x37, 0x38, 0x39] = 0xCBF43926 := by decide +kernel

/-- The record of 14_startup_and_record. -/
def recC : List Word :=
  [0x44524C43, 0x04001003, 0x00020014, 0x17, 0x80, 0, 0, 0, 0x16161616, 0x16161616, 0x16161616, 0x16161616, 0x16161616,
   0x16161616, 0x16161616, 0x16161616, 0xFF161616, 0x000171A3, 0x001FFE00]
set_option maxRecDepth 20000 in
theorem test_record :
    checkSlot .c3l (some (recC ++ [crc32 (recC.flatMap wordBytes)])) = .valid ∧
    (recOf recC).retired = 0x80 ∧ ((recOf recC).seeds.getD 34 0) = 0x16 ∧
    ((recOf recC).entries.map fun e => (e.bank, e.row, e.spare)) = [(0x1A3, 0x05C, 0), (0x200, 0x3FF, 1)] := by
  decide +kernel

/-- The descriptor word of 09_drifts_and_moraine. -/
theorem test_descriptor_word :
    let d := Desc.ofWords [0x030A3A83, 0, 0, 0x0C000000, 200, 130, 25]
    (d.ver, d.dir, d.s, d.sat, d.sfmt, d.dfmt) = (3, 0, false, true, 10, 3) ∧ (d.tord, d.evt, d.last) = (true, true, true) ∧
      (d.iaddr, d.ncol, d.nrow, d.frs) = (0x0C000000, 200, 130, 25) := by decide

/-- The fault record of 13_faults_and_recovery. -/
theorem test_fault_words :
    faultWords { code := 1, src := 5, unit := 0, loc := 0x00F80123, loc2 := 0x11080123, jobs := [0x31] } 0x4100 false false
      false false = [0x501, 0x00F80123, 0x11080123, 0, 0, 0xFFFF0031, 0xFFFFFFFF, 1, 0x4100, 0] := by decide

/-- The attention request of 11_keystone_and_hods: MT = 4, NT = 16, KT = 2, and 8 output tiles. -/
def attnO : Order :=
  { hod := 1, words := [0x01070022, 2, 0xFFFF0031, 0x08000000, 0x0C000000, 0x0C010000, 0x08004000, 0x08008000, 0x100, 0x400,
      0x00411080, 0, 0x3DB504F3, 0, 0x00010001, 0] }
theorem test_attention_request :
    ((nextOf (exec (.ordAttnFwd 65536 [2]) (hodS live [attnO]))).hods.openOrders.map fun p => (p.tag, p.job, p.plan.take 3, p.tiles)) =
      [(0x107, 0x31, [4, 16, 2], 8)] := by decide +kernel

/-- The noise of the first vector of R267: v = 0x3EB4_840A (R270). -/
theorem test_generator_uniform :
    (Fmt.fp32.encode false false (.fin false (2 * ((0x5A4204A0 : Nat) / 2 ^ 9) + 1) (-24))).code = 0x3EB4840A ∧
    (Fmt.fp32.encode false false (.fin false (2 * ((0x47660E0A : Nat) / 2 ^ 9) + 1) (-24))).code = 0x3E8ECC1E := by
  decide +kernel

/-- A refused CE_CAL_CTL write of the management processor leaves 0x8104_1100 in CE_KS_CONFL (16_observation_and_test). -/
theorem test_tap_conflict :
    (nextOf (exec (.calTap 16 true) { live with obs := { live.obs with out := vmod live.obs.out 13 fun o =>
      { o with code := 2, src := 1 } } })).readReg 16 0x10C = 0x81041100 := by decide +kernel

/-- Two vector faults, BOUND and then MELTED: CE_KS_VFAULT reads 0xC000_0001 (15_register_map). -/
theorem test_vfault :
    ((live.modHart 0 fun t => (t.vfault 4 1).vfault 8 2).hart 0).csr.vfCode = 1 ∧
    ((live.modHart 0 fun t => (t.vfault 4 1).vfault 8 2).hart 0).csr.vfOvf = true ∧
    ((live.modHart 0 fun t => (t.vfault 4 1).vfault 8 2).hart 0).csr.vfpc = 4 := by decide +kernel

/-- HALT of hart 4 on hod 0 and RUN of hart 4 on hod 2 in one message time: RUN is PREEMPTED (R430). -/
theorem test_contradicting_orders :
    ((nextOf (exec (.hodScan []) (liveIn (some [0x00070004, 2, 0xFFFF0005, 0x10]) (some [0x00080005, 2, 0xFFFF0005, 0x10])))).hods.orders.map
      Order.op) = [4] := by decide +kernel

/-- Timer n has its three registers at offset 0x0120 + 0x10 n (R517). -/
theorem test_timer_registers :
    let s := ({ State.reset with boot := { State.reset.boot with stage := 9, ready := true } } : State).writeKs 16 0x128 7 0
    (s.ks.timers.get 0).reload = 7 ∧ s.readKs 0x128 = 7 ∧ s.readKs 0x158 = 0 := by decide +kernel

/-- CE_CFG0 and CE_CFG1 of a C3-L (15_register_map). -/
theorem test_configuration : State.reset.readReg 0 0 = 0xC3230400 ∧ State.reset.readReg 0 4 = 0x30410840 := by decide +kernel

end Sys2Proof.Tests
end

/-! # Vectors: constant ones, ones given by a function, and updates of many elements -/

namespace Sys2Proof.Machine

@[simp] theorem vreplicate_get {α : Type} {n : Nat} (x : α) (i : Fin n) : (Vector.replicate n x).get i = x := by
  change (Vector.replicate n x)[i.val] = x
  simp

@[simp] theorem vofFn_get {α : Type} {n : Nat} (f : Fin n → α) (i : Fin n) : (Vector.ofFn f).get i = f i := by
  change (Vector.ofFn f)[i.val] = f i
  simp

/-- Replacing an element by itself changes nothing. -/
theorem vmod_eq_self {α : Type} {n : Nat} (v : Vector α n) (i : Fin n) (f : α → α) (h : f (v.get i) = v.get i) :
    vmod v i f = v := by
  apply Vector.ext
  intro j hj
  have hg := vmod_get v i ⟨j, hj⟩ f
  change (vmod v i f)[j] = if _ then _ else v[j] at hg
  rw [hg]
  split
  · next e => rw [h, ← e]; rfl
  · rfl

/-- Updating the elements of a list of indices, each once, updates those and no others. -/
theorem foldl_vmod_get {α : Type} {n : Nat} (f : α → α) (l : List (Fin n)) (hl : l.Nodup) (v : Vector α n) (j : Fin n) :
    (l.foldl (fun v i => vmod v i f) v).get j = if j ∈ l then f (v.get j) else v.get j := by
  induction l generalizing v with
  | nil => simp
  | cons i r ih =>
    obtain ⟨hi, hr⟩ := List.nodup_cons.mp hl
    rw [List.foldl_cons, ih hr, vmod_get]
    by_cases hj : j = i
    · subst hj; simp [hi]
    · simp [hj]

@[simp] theorem mem_fins {n : Nat} (i : Fin n) : i ∈ fins n := List.mem_finRange i

theorem fins_nodup (n : Nat) : (fins n).Nodup := List.nodup_finRange n

/-- Updating every element. -/
theorem foldl_fins_get {α : Type} {n : Nat} (f : α → α) (v : Vector α n) (j : Fin n) :
    ((fins n).foldl (fun v i => vmod v i f) v).get j = f (v.get j) := by
  rw [foldl_vmod_get f _ (fins_nodup n), if_pos (mem_fins j)]

end Sys2Proof.Machine

/-! # The queue, an idle step, and the state after reset -/

namespace Sys2Proof.Machine

/-! ## One step of the queue -/

/-- Settles O1: the step takes the front command by definition. -/
theorem stepRunsTheFrontCommand : Obligations.StepRunsTheFrontCommand := by
  intro c rest s hp
  simp only [step, hp]

/-- Moving the step counter changes the clock, the stage of start-up and the observation unit alone. -/
theorem State.advanceTo_frame (s : State) (n : Nat) :
    ∃ o, s.advanceTo n = { s with
      cycle := s.cycle + (n - s.cycle), time := s.time + (Config.nanosAtStep n - Config.nanosAtStep s.cycle), obs := o
      boot := if n - s.cycle = 0 then s.boot else s.boot.tick } := by
  unfold State.advanceTo
  by_cases hodd : (n - s.cycle) % 2 = 1
  · simp only [if_pos hodd]
    exact ⟨_, rfl⟩
  · simp only [if_neg hodd]
    exact ⟨_, rfl⟩

/-- Settles O2: an idle step is an advance of the step counter by one. -/
theorem idleStepAdvancesThePace : Obligations.IdleStepAdvancesThePace := by
  intro s hp hpow
  obtain ⟨o, ho⟩ := s.advanceTo_frame (s.cycle + 1)
  refine ⟨s.advanceTo (s.cycle + 1), by simp only [step, hp, State.idle, hpow, if_true], ?_⟩
  simp [ho, Startup.tick]

/-! ## The state after reset -/

/-- Settles O14: every store of the reset state is empty, and no access is at its scoreboard. -/
theorem resetStateIsWellFormed : Obligations.ResetStateIsWellFormed := by
  have hfresh : State.reset.idsFresh := fun a ha => nomatch ha
  refine ⟨⟨fun t => ?_, ⟨rfl, rfl⟩, rfl, fun h => ?_, fun h => ?_⟩, hfresh, rfl⟩
  · simp [State.reset, State.resetFor]
  · simp [State.reset, State.resetFor]
  · simp [State.reset, State.resetFor, State.hart]

/-- Settles O15: each register of the reset state holds its field's initial value, in every element of its vector, and the
lane map is the one of C3-L. -/
theorem resetGivesTheStatedValues : Obligations.ResetGivesTheStatedValues := by
  have hlane : ∀ g : Fin 17, State.reset.err.lanes.get g = (resetLanes .c3l).get g := fun _ => rfl
  refine ⟨rfl, rfl, rfl, fun h => ?_, fun t => ?_, fun f => ?_, rfl, fun c => ?_, rfl, rfl, fun w => ?_, fun d => ?_, rfl, rfl,
    fun g => ?_, ?_⟩
  · simp [State.reset, State.resetFor, State.hart]
  · simp [State.reset, State.resetFor]
  · simp [State.reset, State.resetFor, State.floe]
  · simp [State.reset, State.resetFor, State.chan]
  · simp [State.reset, State.resetFor, State.win]
  · simp [State.reset, State.resetFor]
  · have hg : g.castSucc.val < Config.groups .c3l := g.isLt
    rw [hlane, resetLanes, vofFn_get, if_pos hg]
    exact ⟨rfl, rfl⟩
  · rw [hlane, resetLanes, vofFn_get]
    rfl

end Sys2Proof.Machine

/-! # Every step keeps the engine well formed -/

namespace Sys2Proof.Machine

/-- A command that acts on a condition keeps what its effect keeps. -/
theorem KeepsOut.guarded {s t : State} {c : Prop} [Decidable c] (h : Keeps s t) :
    KeepsOut s (.next (if c then t else s)) := .next (.ite h (.refl s))

/-- As `KeepsOut.guarded`, where the effect ends with the check of the waits for deadlock. -/
theorem KeepsOut.pruned {s t : State} {c : Prop} [Decidable c] (h : Keeps s t) :
    KeepsOut s (.next (if c then t.pruneCycles else s)) := .guarded (State.pruneCycles_keeps h)

/-- Serving an order that has no second meaning keeps what the order's effect keeps. -/
theorem State.serve_keeps_alone {s : State} {op : BitVec 8} {k : State → Order → State}
    (hk : ∀ u o, Keeps s u → Keeps s (k u o)) : Keeps s (s.serve op k) :=
  State.serve_keeps (.refl s) _ _ _ hk fun _ h => h

theorem KeepsOut.served {s : State} {op : BitVec 8} {k : State → Order → State}
    (hk : ∀ u o, Keeps s u → Keeps s (k u o)) : KeepsOut s (.next (s.serve op k)) := .next (State.serve_keeps_alone hk)

theorem execRv32Instruction_keeps (h : Hart) (w : Option Word) (met : Word) (s : State) :
    KeepsOut s (execRv32Instruction h w met s) := by
  refine .next (.ite (.refl s) ?_)
  cases w with
  | none => exact State.pruneCycles_keeps (State.fetchExecute_keeps (.refl s) ..)
  | some w => exact .ite (.refl s) (State.pruneCycles_keeps (State.executeBits_keeps (.refl s) ..))

theorem execRegisterWrite_keeps (r : Reader) (t : RegTarget) (v : Word) (lost : List Hart) (met : Word) (s : State) :
    KeepsOut s (execRegisterWrite r t v lost met s) := by
  cases t with
  | master hod off => exact .guarded (State.masterWrite_keeps (.refl s) ..)
  | reg off => exact .pruned (State.writeReg_keeps (.refl s) ..)
  | csr n =>
    refine .next (.ite (.refl s) ?_)
    cases Reader.hart? r with
    | none => exact .refl s
    | some h => exact .ite (State.pruneCycles_keeps (State.trap_keeps (.refl s) ..)) (State.modHart_keeps (.refl s) _ _ id)

/-- Every command keeps the queue, the configuration, the canonical forms and the freshness of the scoreboard numbers: an
Xcalad row by what issue keeps, every other row by what its operation keeps. -/
theorem exec_keeps (c : Instr) (s : State) : KeepsOut s (exec c s) := by
  cases hc : issues c with
  | some p => exact exec_issues c p.1 p.2 s hc ▸ .next (State.issue_keeps (.refl s) ..)
  | none =>
    cases c with
    | vectorAccept => exact .next (.ite (.refl s) (.ite (.refl s) (State.vectorAccept_keeps (.refl s))))
    | instructionRetire => exact .guarded (State.instructionRetire_keeps (.refl s) ..)
    | instructionReplay => exact .guarded (State.instructionReplay_keeps (.refl s) ..)
    | vfault => exact .pruned (State.takeVfault_keeps (.refl s) ..)
    | rv32Instruction => exact execRv32Instruction_keeps _ _ _ s
    | ecall => exact .pruned (State.ecall_keeps (.refl s) ..)
    | wfi => exact .pruned (State.wfi_keeps (.refl s) ..)
    | wfiWake => exact .pruned (State.modHart_keeps (.refl s) _ _ id)
    | scalarLoad => exact .pruned (State.load_keeps (.refl s) ..)
    | scalarStore => exact .pruned (State.store_keeps (.refl s) ..)
    | summaryRead => exact .guarded (State.waitingRead_keeps (.refl s) ..)
    | vflagsRead => exact .guarded (State.waitingRead_keeps (.refl s) ..)
    | mquotaRead => exact .guarded (State.waitingRead_keeps (.refl s) ..)
    | tileLease => exact .guarded (State.tileLease_keeps (.refl s) ..)
    | leaseEffect => exact .guarded (State.leaseEffect_keeps (.refl s) ..)
    | courseStart => exact .guarded (State.courseStart_keeps (.refl s) ..)
    | courseStop => exact .guarded (State.courseStop_keeps (.refl s) ..)
    | courseDrop => exact .guarded (State.courseDrop_keeps (.refl s) ..)
    | courseBegin => exact .guarded (State.courseBegin_keeps (.refl s) ..)
    | courseComplete => exact .guarded (State.courseComplete_keeps (.refl s) ..)
    | operandTransfer => exact .guarded (State.operandTransfer_keeps (.refl s) ..)
    | resultTransfer => exact .guarded (State.resultTransfer_keeps (.refl s) ..)
    | b00Stack => exact .guarded (State.bondStep_keeps (.refl s) ..)
    | b01Running => exact .guarded (State.bondStep_keeps (.refl s) ..)
    | b02Header => exact .guarded (State.bondStep_keeps (.refl s) ..)
    | b03Stretcher => exact .guarded (State.prologueStep_keeps (.refl s) ..)
    | b04Soldier => exact .guarded (State.prologueStep_keeps (.refl s) ..)
    | b05Flemish => exact .guarded (State.bondStep_keeps (.refl s) ..)
    | b06English => exact .guarded (State.bondStep_keeps (.refl s) ..)
    | b07Dutch => exact .guarded (State.bondStep_keeps (.refl s) ..)
    | b08Monk => exact .guarded (State.bondStep_keeps (.refl s) ..)
    | b09Sailor => exact .guarded (State.bondStep_keeps (.refl s) ..)
    | b10Rowlock => exact .guarded (State.bondStep_keeps (.refl s) ..)
    | b11Garden => exact .guarded (State.bondStep_keeps (.refl s) ..)
    | b12Basket => exact .guarded (State.bondStep_keeps (.refl s) ..)
    | b13Quoin => exact .guarded (State.bondStep_keeps (.refl s) ..)
    | b14Coping => exact .guarded (State.bondStep_keeps (.refl s) ..)
    | b15Lintel => exact .guarded (State.lintelStep_keeps (.refl s) ..)
    | peerTimeout => exact .guarded (State.peerTimeout_keeps (.refl s) ..)
    | floeCommit => exact .guarded (State.fcmdWrite_keeps (.refl s) _ _ _ fun _ h => State.floeCommit_keeps h ..)
    | floeRead => exact .guarded (State.fcmdWrite_keeps (.refl s) _ _ _ fun _ h => State.floeRead_keeps h ..)
    | floeCommitEffect => exact .guarded (State.commitEffect_keeps (.refl s) ..)
    | segmentMelt => exact .guarded (State.segmentMelt_keeps (.refl s) ..)
    | revivalRampEnd => exact .guarded (State.rampEnd_keeps (.refl s) ..)
    | segmentSelftestEnd => exact .guarded (State.selftestEnd_keeps (.refl s) ..)
    | segmentFillEnd => exact .guarded (State.fillEnd_keeps (.refl s) ..)
    | scrubVisit => exact .guarded (State.scrubVisit_keeps (.refl s) ..)
    | correctedWriteback => exact .guarded (State.writeback_keeps (.refl s) ..)
    | fieldSparing => exact .guarded (State.fieldSparing_keeps (.refl s) ..)
    | sbAllocate => exact .guarded (State.sbAllocate_keeps (State.orderTogether_keeps (.refl s) _))
    | accessRetire => exact .guarded (State.accessRetire_keeps (.refl s) ..)
    | drfGo => exact .pruned (State.chainWrites_keeps (.refl s) ..)
    | drfRearm => exact .pruned (State.chainWrites_keeps (.refl s) ..)
    | drfResume => exact .pruned (State.drfResume_keeps (.refl s) ..)
    | drfStop => exact .pruned (State.drfStop_keeps (.refl s) ..)
    | drfOwn => exact .pruned (State.drfOwn_keeps (.refl s) ..)
    | fbConfig => exact .guarded (State.stateWrite_keeps (.refl s) _ _ _ _ fun _ h =>
        State.pruneCycles_keeps (State.fbConfig_keeps h ..))
    | fbPost => exact .pruned (State.fbAdvance_keeps (.refl s) ..)
    | fbRelease => exact .pruned (State.fbAdvance_keeps (.refl s) ..)
    | descriptorSetFetch => exact .pruned (State.fetchSet_keeps (.refl s) ..)
    | fabricReadLine => exact .pruned (State.readLine_keeps (.refl s) ..)
    | fabricWriteResponse => exact .pruned (State.writeResponse_keeps (.refl s) ..)
    | setRetire => exact .pruned (State.setRetire_keeps (.refl s) ..)
    | shadowEffect => exact .pruned (State.shadowEffect_keeps (.refl s) ..)
    | channelHalt => exact .pruned (State.channelHalt_keeps (.refl s) ..)
    | channelStopped => exact .pruned (State.channelStopped_keeps (.refl s) ..)
    | slotGrant => exact .pruned (State.drive_keeps (State.slotGrant_keeps (.refl s) _) _)
    | indexQueueResume => exact .pruned (State.indexResume_keeps (.refl s) ..)
    | deadlock => exact .guarded (State.deadlock_keeps (.refl s) ..)
    | moraineLine => exact .guarded (State.moraineLine_keeps (.refl s) ..)
    | windowOpen => exact .guarded (State.wcmdWrite_keeps (.refl s) _ _ _ fun _ h => State.openCmd_keeps h ..)
    | windowClose => exact .guarded (State.wcmdWrite_keeps (.refl s) _ _ _ fun _ h => State.closeCmd_keeps h ..)
    | windowCredit => exact .guarded (State.wcmdWrite_keeps (.refl s) _ _ _ fun _ h => State.creditCmd_keeps h ..)
    | windowRead => exact .guarded (State.wcmdWrite_keeps (.refl s) _ _ _ fun _ h => State.windowRead_keeps h ..)
    | windowCloseEffect => exact .guarded (State.closeEffect_keeps (.refl s) ..)
    | nbrSend => exact .guarded (State.nbrSend_keeps (.refl s) ..)
    | nbrSendStop => exact .guarded (State.nbrStop_keeps (.refl s) ..)
    | sendDescriptorStart => exact .guarded (State.sendStart_keeps (.refl s) ..)
    | sendComplete => exact .guarded (State.sendComplete_keeps (.refl s) ..)
    | data => exact .guarded (State.data_keeps (.refl s) ..)
    | arrivalLanded => exact .guarded (State.arrivalLanded_keeps (.refl s) ..)
    | ack => exact .guarded (State.ackIn_keeps (.refl s) ..)
    | refuse => exact .guarded (State.refuseIn_keeps (.refl s) ..)
    | grant => exact .guarded (State.grantIn_keeps (.refl s) ..)
    | revoke => exact .guarded (State.revokeIn_keeps (.refl s) ..)
    | helloMsg => exact .guarded (State.helloIn_keeps (.refl s) ..)
    | echo => exact .guarded (State.echoIn_keeps (.refl s) ..)
    | echoTimeout => exact .guarded (State.echoFail_keeps (.refl s) ..)
    | ackTimer => exact .guarded (State.sendAck_keeps (.refl s) ..)
    | resendTimeout => exact .guarded (State.resendTimeout_keeps (.refl s) ..)
    | retryResend => exact .guarded (State.resend_keeps (State.modPort_keeps (.refl s) _ _) _)
    | helloTimer => exact .guarded (State.sendHello_keeps (.refl s) ..)
    | portSilence => exact .guarded (State.portDown_keeps (.refl s) ..)
    | portDownCmd => exact .guarded (State.portCmdDown_keeps (.refl s) ..)
    | portRetryCmd => exact .guarded (State.portCmdRetry_keeps (.refl s) ..)
    | hodIprodAdvance => exact .guarded (State.iprod_keeps (.refl s) ..)
    | hodOprodAdvance => exact .guarded (State.oprod_keeps (.refl s) ..)
    | hodScan => exact .guarded (State.scan_keeps (.refl s) ..)
    | ordHello => exact .served fun _ _ h => State.hello_keeps h ..
    | ordKill => exact .served fun _ _ h => State.kill_keeps h ..
    | ordKillDrained => exact .guarded (State.killDrained_keeps (.refl s) ..)
    | ordRelease => exact .served fun _ _ h => State.releaseOrder_keeps h ..
    | ordHalt => exact .served fun _ _ h => State.answer_keeps (State.halt_keeps h _) ..
    | ordRun => exact .served fun _ _ h => State.answer_keeps (State.resume_keeps h _) ..
    | ordCalib => exact .served fun _ _ h => State.calibOrder_keeps h ..
    | ordPageDone => exact .served fun _ _ h => State.pageDone_keeps h ..
    | pageTimeout => exact .guarded (State.pageTimeout_keeps (.refl s) ..)
    | ordLoadExt => exact .next (.ite (.refl s) (State.serve_keeps_alone fun _ _ h => State.loadExt_keeps h ..))
    | extVerified => exact .guarded (State.extVerified_keeps (.refl s) ..)
    | ordDropExt => exact .served fun _ _ h => State.dropExt_keeps h ..
    | ordObssel => exact .served fun _ _ h => State.obsOrder_keeps h ..
    | ordFloeSet => exact .served fun _ _ h => State.floeSet_keeps h ..
    | ordWeightPush => exact .next (State.serve_keeps (.refl s) _ _ _ (fun _ _ h => State.weightPush_keeps h ..) fun _ h =>
        .ite (State.retryPush_keeps h) h)
    | ordAttnFwd => exact .next (State.serve_keeps (.refl s) _ _ _ (fun _ _ h => State.startAttn_keeps h ..) fun _ h =>
        State.finishCompute_keeps h _)
    | ordAttnBwd => exact .next (State.productOrder_keeps (.refl s) ..)
    | ordMatmul => exact .next (State.productOrder_keeps (.refl s) ..)
    | ordMoeRoute => exact .next (State.vectorOrder_keeps (.refl s) ..)
    | ordMoeCombine => exact .next (State.vectorOrder_keeps (.refl s) ..)
    | ordMaskMaint => exact .next (State.vectorOrder_keeps (.refl s) ..)
    | ordSample => exact .next (State.productOrder_keeps (.refl s) ..)
    | ordScore => exact .next (State.productOrder_keeps (.refl s) ..)
    | ordRlLoss => exact .next (State.productOrder_keeps (.refl s) ..)
    | ordElemwise => exact .next (State.vectorOrder_keeps (.refl s) ..)
    | ordReduce => exact .next (State.vectorOrder_keeps (.refl s) ..)
    | ordSortset => exact .next (State.vectorOrder_keeps (.refl s) ..)
    | ordMove => exact .served fun _ _ h => State.moveOrder_keeps h ..
    | ordWindow => exact .next (.ite (.refl s) (State.serve_keeps_alone fun _ _ h => State.windowOrder_keeps h ..))
    | ordExtCall => exact .next (State.serve_keeps (.refl s) _ _ _ (fun _ _ h => State.extCall_keeps h ..) fun _ h =>
        State.finishCall_keeps h)
    | ordFence => exact .next (State.serve_keeps (.refl s) _ _ _
        (fun _ _ h => State.fenceDone_keeps (State.openOrder_keeps h ..)) fun _ h => .ite (State.fenceDone_keeps h) h)
    | ordIceRead => exact .served fun _ _ h => State.iceOrder_keeps h ..
    | ordIceWrite => exact .served fun _ _ h => State.iceOrder_keeps h ..
    | ordRegRead => exact .served fun _ _ h => State.regRead_keeps h ..
    | ordRegWrite => exact .served fun _ _ h => State.regWrite_keeps h ..
    | ordStatus => exact .served fun _ _ h => State.answer_keeps h ..
    | hctlHalt => exact .pruned (State.hctl_keeps (.refl s) ..)
    | hctlRun => exact .pruned (State.hctl_keeps (.refl s) ..)
    | evset => exact .pruned (State.evset_keeps (.refl s) ..)
    | timerExpiry => exact .guarded (State.timerExpiry_keeps (.refl s) ..)
    | calibPeriod => exact .guarded (State.calibPeriod_keeps (.refl s) ..)
    | guardEvent => exact .guarded (State.guardEvent_keeps (.refl s) ..)
    | paceWindow => exact .guarded (State.paceWindow_keeps (.refl s) ..)
    | paceClear => exact .guarded (State.paceClear_keeps (.refl s) ..)
    | calTap => exact .guarded (State.calTap_keeps (.refl s) ..)
    | obsSelect => exact .guarded (State.obsSelect_keeps (.refl s) ..)
    | registerWrite => exact execRegisterWrite_keeps _ _ _ _ _ s
    | reset => exact .next (State.restartEngine_keeps (.refl s) _)
    | powerOffRequest => exact .guarded (State.powerOffRequest_keeps (.refl s) ..)
    | powerOffAck => exact .guarded (State.powerOffAck_keeps (.refl s) ..)
    | powerLoss => exact .guarded (State.powerLoss_keeps (.refl s) ..)
    | uncorrectableFault => exact .guarded (State.faultIn_keeps (.refl s) ..)
    | recoveryDrained => exact .guarded (State.recover_keeps (.refl s) ..)
    | laneRampEnd => exact .guarded (State.laneRamp_keeps (.refl s) ..)
    | laneSelftestEnd => exact .guarded (State.laneSelftest_keeps (.refl s) ..)
    | laneGroupRejoin => exact .guarded (State.laneRejoin_keeps (.refl s) ..)
    | recordRead => exact .guarded (State.recordRead_keeps (.refl s) ..)
    | recordTimeout => exact .guarded (State.recordRead_keeps (.refl s) ..)
    | localStoreFillEnd => exact .guarded (State.localFilled_keeps (.refl s) ..)
    | startupLaneTestEnd => exact .guarded (State.lanesTested_keeps (.refl s) ..)
    | icefieldSelftestEnd => exact .guarded (State.fieldTested_keeps (.refl s) ..)
    | icefieldFillEnd => exact .guarded (State.fieldFilled_keeps (.refl s) ..)
    | firmwareDelivered => exact .guarded (State.firmware_keeps (.refl s) ..)
    | fwRefused => exact .guarded (State.fwRefused_keeps (.refl s) ..)
    | keystoneStart => exact .guarded (State.keystoneStart_keeps (.refl s) ..)
    | fwready => exact .guarded (State.fwready_keeps (.refl s) ..)
    | neighbourWaitEnd => exact .guarded (State.neighbourWaitEnd_keeps (.refl s) ..)
    | operandCredit => exact .guarded (State.operandCredit_keeps (.refl s) ..)
    | localStoreScrub => exact .guarded (State.scrubLs_keeps (.refl s) ..)
    | eventCounterLowRead => exact .guarded (State.readEffect_keeps (.refl s) ..)
    | _ => cases hc

/-- Settles O13: the front command runs on the state without it, which the invariant does not distinguish, and every
command keeps the invariant; an idle step keeps it too. -/
theorem everyStepKeepsTheEngineWellFormed : Obligations.EveryStepKeepsTheEngineWellFormed := by
  intro s t hst hwf hids
  obtain ⟨htiles, hfield, hstore, hslots, hbanks⟩ := hwf
  have hkeeps : Keeps { s with pending := s.pending.tail } t := by
    unfold step at hst
    cases hp : s.pending with
    | nil =>
      rw [hp] at hst
      cases hst
      have hs : ({ s with pending := [] } : State) = s := by rw [← hp]
      rw [List.tail_nil, hs]
      exact State.idle_keeps (.refl s)
    | cons c rest =>
      rw [hp] at hst
      exact exec_keeps c _ t hst
  exact ⟨⟨hkeeps.tiles htiles, hkeeps.field hfield, hkeeps.store hstore, hkeeps.slots hslots, hkeeps.banks hbanks⟩,
    hkeeps.ids hids, hkeeps.cfg, hkeeps.pending⟩

end Sys2Proof.Machine

/-! # Writes of registers and of CSRs -/

namespace Sys2Proof.Machine

/-! ## Updates of the ports -/

theorem State.forEach_modPort (s : State) (l : List (Fin 4)) (f : Port → Port) :
    s.forEach l (fun s p => s.modPort p f) =
      { s with nbr := { s.nbr with ports := l.foldl (fun v i => vmod v i f) s.nbr.ports } } := by
  unfold State.forEach
  induction l generalizing s with
  | nil => rfl
  | cons p r ih => rw [List.foldl_cons, ih]; rfl

/-! ## Which writes compete for a register -/

/-- A command that writes a register by its offset. -/
theorem exec_registerWrite_reg {r : Reader} {s : State} (hr : s.canAct r = true) (off : BitVec 16) (v met : Word)
    (lost : List Hart) :
    exec (.registerWrite r (.reg off) v lost met) s = .next (s.writeReg r off v met lost).pruneCycles := by
  change Host.Outcome.next (if s.canAct r then _ else s) = _
  rw [if_pos hr]

/-- A register that no write of the step competes for takes each write. -/
theorem State.writeReg_of_not_competes {s : State} {r : Reader} {off : BitVec 16} {v : Word}
    (h : s.competes off.toNat v r = false) (met : Word) (lost : List Hart) :
    s.writeReg r off v met lost = s.applyWrite r off.toNat v met lost := by
  simp [State.writeReg, State.stateWrite, h]

/-- The write of a register that no other write competes with. -/
theorem exec_registerWrite_alone {r : Reader} {s : State} (hr : s.canAct r = true) {off : BitVec 16} {v : Word}
    (h : s.competes off.toNat v r = false) (met : Word) (lost : List Hart) :
    exec (.registerWrite r (.reg off) v lost met) s =
      .next (s.applyWrite r off.toNat v met lost).pruneCycles := by
  rw [exec_registerWrite_reg hr, State.writeReg_of_not_competes h]

/-- CE_ICE_SCRUB and CE_NBR_VERS take the writes of machine-mode code and of the management processor. -/
theorem State.competes_machineRegister {o : Nat} (ho : o = 0x448 ∨ o = 0x1070) (s : State) (v : Word) (q : Reader) :
    s.competes o v q = s.mayWrite q := by
  obtain rfl | rfl := ho <;> simp [State.competes, State.reaches, offIn, State.mayWrite]

/-- A machine-mode state register takes the write that stands, which counts the others. -/
theorem State.writeReg_machineRegister {s : State} {r : Reader} {off : BitVec 16} (hm : s.mayWrite r = true)
    (ho : off.toNat = 0x448 ∨ off.toNat = 0x1070) (v met : Word) (lost : List Hart) :
    s.writeReg r off v met lost =
      if stands r (s.reaching r lost) then (s.countPreempt (s.reaching r lost)).applyWrite r off.toNat v met lost
      else s := by
  simp only [State.writeReg, State.stateWrite, State.competes_machineRegister ho, hm, Bool.not_true, Bool.false_eq_true,
    if_false, State.reaching]

theorem reader_eq_mgmt_or_hart (r : Reader) : r = mgmt ∨ ∃ h : Hart, r = Hart.reader h := by
  by_cases h : r.val < 16
  · exact .inr ⟨⟨r.val, h⟩, rfl⟩
  · exact .inl (Fin.ext (by have := r.isLt; change r.val = 16; omega))

theorem stands_of {r : Reader} {l : List Hart} (h : r = mgmt ∨ ∀ h : Hart, r = Hart.reader h → ∀ g ∈ l, g.val ≤ h.val) :
    stands r l = true := by
  obtain rfl | ⟨h', rfl⟩ := reader_eq_mgmt_or_hart r
  · rfl
  · obtain e | hl := h
    · exact absurd (congrArg Fin.val e) (Nat.ne_of_lt h'.isLt)
    · simp only [stands, Bool.or_eq_true, List.all_eq_true, decide_eq_true_eq]
      exact .inr (hl h' rfl)

theorem not_stands_of {h g : Hart} {l : List Hart} (hg : g ∈ l) (hlt : h.val < g.val) :
    stands (Hart.reader h) l = false := by
  have hne : Hart.reader h ≠ mgmt := fun e => absurd (congrArg Fin.val e) (Nat.ne_of_lt h.isLt)
  simp only [stands, Bool.or_eq_false_iff, beq_eq_false_iff_ne, List.all_eq_false]
  exact ⟨hne, g, hg, by simpa [Hart.reader] using hlt⟩

theorem addSat_zero {w : Nat} (b : BitVec w) : addSat b 0 = b := by
  have hb := b.isLt
  simp only [addSat, Nat.add_zero]
  rw [if_neg (by omega)]
  simp

/-! ## Writes of user-mode code -/

/-- The registers that machine-mode code and the management processor alone write, among those of R506. -/
abbrev MachineOffset (o : Nat) : Prop :=
  o = 0xC ∨ 0x100 ≤ o ∧ o < 0x120 ∧ o ≠ 0x104 ∨ 0x400 ≤ o ∧ o < 0x500 ∨ o = 0x624 ∨ o = 0x628 ∨
    0x1000 ≤ o ∧ o ≠ 0x1064

section
variable {s : State} {r : Reader} (hp : s.privileged r = false)
include hp

theorem ne_mgmt_of_unprivileged : (r == mgmt) = false := by
  rw [beq_eq_false_iff_ne]
  rintro rfl
  exact Bool.noConfusion hp

theorem State.competes_unprivileged {o : Nat} (ho : MachineOffset o) (v : Word) : s.competes o v r = false := by
  have hmgmt := ne_mgmt_of_unprivileged hp
  have h1 : offIn 0x120 0x160 o = false := by simp [offIn]; omega
  have h2 : offIn 0x800 0xC00 o = false := by simp [offIn]; omega
  have h3 : offIn 0xC00 0xE00 o = false := by simp [offIn]; omega
  simp [State.competes, State.reaches, hp, hmgmt, h1, h2, h3]

theorem State.writeKs_unprivileged {o : Nat} (h : o < 0x120) (h104 : o ≠ 0x104) (v met : Word) :
    s.writeKs r o v met = s := by
  have h120 : ¬(0x120 ≤ o ∧ o < 0x160) := by omega
  simp only [State.writeKs, if_neg h104, if_neg h120, hp, Bool.not_false, if_true]

theorem State.writeIce_unprivileged (o : Nat) (v : Word) (lost : List Hart) : s.writeIce r o v lost = s := by
  simp only [State.writeIce, hp, Bool.not_false, if_true]

theorem State.writeDrf_unprivileged {o : Nat} (h : o = 0x624 ∨ o = 0x628) (v met : Word) : s.writeDrf r o v met = s := by
  obtain rfl | rfl := h <;> simp [State.writeDrf, hp]

theorem State.writeNbr_unprivileged {o : Nat} (h : o ≠ 0x1064) (v met : Word) (lost : List Hart) :
    s.writeNbr r o v met lost = s := by
  simp only [State.writeNbr, if_neg h, hp, Bool.not_false, if_true]

theorem State.writeCal_unprivileged (o : Nat) (v met : Word) : s.writeCal r o v met = s := by
  simp only [State.writeCal, hp, Bool.not_false, if_true]

theorem State.writeObs_unprivileged (o : Nat) (v : Word) : s.writeObs r o v = s := by
  simp only [State.writeObs, hp, Bool.not_false, if_true]

theorem State.writeErr_unprivileged (o : Nat) (v met : Word) : s.writeErr r o v met = s := by
  simp only [State.writeErr, hp, Bool.not_false, if_true]

theorem State.writeHod_unprivileged (o : Nat) (v met : Word) : s.writeHod r o v met = s := by
  rw [State.writeHod]
  generalize hodOf ((o - 0x1600) / 32) = h
  cases h with
  | none => rfl
  | some h => exact if_pos (by rw [hp]; rfl)

theorem State.writeSlot_unprivileged (o : Nat) (v : Word) : s.writeSlot r o v = s := by
  have hfirm : ¬((r != mgmt && s.privileged r) = true) := by simp [hp]
  rw [State.writeSlot]
  generalize hodOf ((o - 0x8000) / 0x2000) = h
  cases h with
  | none => rfl
  | some h => exact ite_eq_iff'.mpr ⟨fun _ => if_neg (by simp [ne_mgmt_of_unprivileged hp]), fun _ => if_neg hfirm⟩

theorem State.applyWrite_unprivileged {o : Nat} (ho : MachineOffset o) (v met : Word) (lost : List Hart) :
    s.applyWrite r o v met lost = s := by
  have h204 : o ≠ 0x200 ∧ o ≠ 0x204 := by omega
  refine ite_eq_iff'.mpr ⟨fun _ => rfl, fun _ => ite_eq_iff'.mpr ⟨fun _ => if_neg (by simp [hp]), fun _ => ?_⟩⟩
  refine ite_eq_iff'.mpr ⟨fun _ => State.writeKs_unprivileged hp (by omega) (by omega) v met, fun _ => ?_⟩
  refine ite_eq_iff'.mpr ⟨fun h => absurd h h204.1, fun _ => ite_eq_iff'.mpr ⟨fun h => absurd h h204.2, fun _ => ?_⟩⟩
  refine ite_eq_iff'.mpr ⟨fun _ => State.writeIce_unprivileged hp o v lost, fun _ => ?_⟩
  refine ite_eq_iff'.mpr ⟨fun _ => State.writeDrf_unprivileged hp (by omega) v met, fun _ => ?_⟩
  refine ite_eq_iff'.mpr ⟨fun _ => State.writeNbr_unprivileged hp (by omega) v met lost, fun _ => ?_⟩
  refine ite_eq_iff'.mpr ⟨fun _ => State.writeCal_unprivileged hp o v met, fun _ => ?_⟩
  refine ite_eq_iff'.mpr ⟨fun _ => State.writeObs_unprivileged hp o v, fun _ => ?_⟩
  refine ite_eq_iff'.mpr ⟨fun _ => State.writeErr_unprivileged hp o v met, fun _ => ?_⟩
  refine ite_eq_iff'.mpr ⟨fun _ => State.writeHod_unprivileged hp o v met, fun _ => ?_⟩
  exact ite_eq_iff'.mpr ⟨fun _ => State.writeSlot_unprivileged hp o v, fun _ => rfl⟩

end

/-- A write of user-mode code to a machine-mode register changes nothing (R506). -/
theorem exec_registerWrite_unprivileged {r : Reader} {s : State} (hr : s.canAct r = true) (hp : s.privileged r = false)
    {off : BitVec 16} (ho : MachineOffset off.toNat) (v met : Word) (lost : List Hart) :
    exec (.registerWrite r (.reg off) v lost met) s = .next s.pruneCycles := by
  rw [exec_registerWrite_alone hr (State.competes_unprivileged hp ho v), State.applyWrite_unprivileged hp ho]

/-! ## Registers of one copy -/

/-- CE_ICE_SCRUB takes the write that stands (R527, R431). -/
theorem exec_registerWrite_scrub {r : Reader} {s : State} (hr : s.canAct r = true) (hp : s.privileged r = true)
    (v met : Word) (lost : List Hart) :
    exec (.registerWrite r (.reg 0x448) v lost met) s = .next (State.pruneCycles
      (if stands r (s.reaching r lost) then { s with
        ice := { s.ice with scrubPeriod := v.extractLsb' 0 16 }
        ks := { s.ks with preempt := addSat s.ks.preempt (s.reaching r lost).length } } else s)) := by
  have hm : s.mayWrite r = true := by simp [State.mayWrite, hr, hp]
  rw [exec_registerWrite_reg hr, State.writeReg_machineRegister hm (.inl rfl)]
  have hp' : (s.countPreempt (s.reaching r lost)).privileged r = true := hp
  simp [State.applyWrite, State.writeIce, hp']
  rfl

/-- A port after a write of CE_NBR_VERS: one that was NOVERS is DOWN and tries again (R535). -/
def Port.retried (q : Port) : Port := if q.state = .novers then { q with state := .down } else q

theorem State.versWrite_eq (s : State) (v : BitVec 8) :
    s.versWrite v = { s with nbr := { s.nbr with
      vers := v
      ports := (fins 4).foldl (fun ps i => vmod ps i Port.retried) s.nbr.ports } } := by
  have hstep : (fun (s : State) (p : Fin 4) =>
        if (s.port p).state == .novers then s.modPort p fun q => { q with state := .down } else s) =
      fun s p => s.modPort p Port.retried := by
    funext s p
    by_cases h : (s.port p).state = .novers
    · have hq : Port.retried (s.nbr.ports.get p) = { s.nbr.ports.get p with state := .down } := if_pos h
      rw [if_pos (beq_iff_eq.mpr h), State.modPort, State.modPort, vmod, vmod, hq]
    · have hq : vmod s.nbr.ports p Port.retried = s.nbr.ports := vmod_eq_self _ _ _ (if_neg h)
      rw [if_neg (fun e => h (beq_iff_eq.mp e)), State.modPort, hq]
  simp only [State.versWrite, hstep, State.forEach_modPort]

theorem exec_registerWrite_vers {r : Reader} {s : State} (hr : s.canAct r = true) (hp : s.privileged r = true)
    (v met : Word) :
    exec (.registerWrite r (.reg 0x1070) v [] met) s = .next (s.versWrite (v.extractLsb' 0 8)).pruneCycles := by
  have hm : s.mayWrite r = true := by simp [State.mayWrite, hr, hp]
  have hcount : s.countPreempt [] = s := by simp [State.countPreempt, addSat_zero]
  have hstands : stands r [] = true := by simp [stands]
  rw [exec_registerWrite_reg hr, State.writeReg_machineRegister hm (.inr rfl)]
  simp [State.reaching, hstands, hcount, State.applyWrite, State.writeNbr, hp]

/-! ## A hod's master -/

/-- The offset of a word of a hod's inbound slots. -/
theorem inSlot_toNat (hod : Fin 3) (i : Fin 1024) :
    (BitVec.ofNat 16 (0x8000 + 0x2000 * hod.val + 4 * i.val)).toNat = 0x8000 + 0x2000 * hod.val + 4 * i.val := by
  have := hod.isLt
  have := i.isLt
  rw [BitVec.toNat_ofNat, Nat.mod_eq_of_lt (by omega)]

theorem State.masterWrite_inSlot (s : State) (hod : Fin 3) (i : Fin 1024) (v : Word) :
    s.masterWrite hod (0x8000 + 0x2000 * hod.val + 4 * i.val) v =
      s.modHod hod fun d => { d with inSlots := sset 0 d.inSlots i.val v } := by
  have := hod.isLt
  have := i.isLt
  have hword : (0x8000 + 0x2000 * hod.val + 4 * i.val) % 0x1000 / 4 = i.val := by omega
  unfold State.masterWrite
  rw [if_neg (by omega), if_neg (by omega), if_neg (by omega), if_pos (by omega), hword]

/-! ## CSRs -/

/-- A hart's write of an engine CSR: a number that the mode or the numbering forbids traps, any other acts on its fields. -/
theorem exec_registerWrite_csr {h : Hart} {s : State} (hr : s.canAct (Hart.reader h) = true) (n : BitVec 12) (v met : Word)
    (lost : List Hart) :
    exec (.registerWrite (Hart.reader h) (.csr n) v lost met) s = .next
      (if csrForbidden (s.hart h).mode n true || (s.engineCsr h n).isNone then
        (s.trap h 2 (n ++ (0x01073 : BitVec 20))).pruneCycles
      else s.modHart h fun t => { t with csr := t.csr.write n v met }) := by
  have hh : Reader.hart? (Hart.reader h) = some h := dif_pos h.isLt
  change Host.Outcome.next (if !s.canAct (Hart.reader h) then s else match Reader.hart? (Hart.reader h) with
    | none => s
    | some h => _) = _
  rw [hh, hr]
  rfl

theorem exec_registerWrite_csr_allowed {h : Hart} {s : State} (hr : s.canAct (Hart.reader h) = true) {n : BitVec 12}
    (hn : csrForbidden (s.hart h).mode n true = false) (he : (s.engineCsr h n).isSome = true) (v met : Word)
    (lost : List Hart) :
    exec (.registerWrite (Hart.reader h) (.csr n) v lost met) s =
      .next (s.modHart h fun t => { t with csr := t.csr.write n v met }) := by
  have hnone : (s.engineCsr h n).isNone = false := by rw [Option.isNone_eq_false_iff]; exact he
  rw [exec_registerWrite_csr hr, hn, hnone]
  rfl

/-- A trap outside an extension call is the trap of its hart alone. -/
theorem State.trap_of_callOf_none {s : State} {h : Hart} (hc : s.callOf h = none) (cause : Nat) (tval : Word) :
    s.trap h cause tval = s.modHart h fun t => t.takeTrap false cause tval := by
  have hc' : (s.modHart h fun t => t.takeTrap false cause tval).callOf h = none := hc
  simp [State.trap, State.extFault, hc']

theorem exec_registerWrite_csr_forbidden {h : Hart} {s : State} (hr : s.canAct (Hart.reader h) = true)
    (hc : s.callOf h = none) {n : BitVec 12} (hn : csrForbidden (s.hart h).mode n true = true) (v met : Word)
    (lost : List Hart) :
    exec (.registerWrite (Hart.reader h) (.csr n) v lost met) s =
      .next (s.modHart h fun t => t.takeTrap false 2 (n ++ (0x01073 : BitVec 20))).pruneCycles := by
  rw [exec_registerWrite_csr hr, hn, Bool.true_or, if_pos rfl, State.trap_of_callOf_none hc]

/-- A number of the user range is forbidden in no mode. -/
theorem csrForbidden_user (mode : Mode) {n : BitVec 12} (h8 : n.extractLsb' 8 2 = 0) (h10 : n.extractLsb' 10 2 ≠ 3) :
    csrForbidden mode n true = false := by
  have hwrite : (n.extractLsb' 10 2 == 3) = false := beq_eq_false_iff_ne.mpr h10
  simp only [csrForbidden, h8, hwrite, bne_self_eq_false, Bool.and_false, Bool.or_self]

/-! ## The configuration registers -/

theorem State.readReg_cfg {s : State} (hc : s.cfg = .c3l) (r : Reader) :
    s.readReg r 0x0 = 0xC3230400 ∧ s.readReg r 0x4 = 0x30410840 := by
  have h0 : s.readReg r 0x0 = s.cfg0 := rfl
  have h4 : s.readReg r 0x4 = s.cfg1 := rfl
  rw [h0, h4, State.cfg0, State.cfg1, hc]
  exact ⟨by decide, by decide⟩

/-! ## The statement -/

/-- The offsets of the statement, which it names as bit vectors. -/
theorem machineOffset_of {off : BitVec 16}
    (h : off = 0xC ∨ 0x100 ≤ off.toNat ∧ off.toNat < 0x120 ∧ off ≠ 0x104 ∨ 0x400 ≤ off.toNat ∧ off.toNat < 0x500 ∨
      off = 0x624 ∨ off = 0x628 ∨ 0x1000 ≤ off.toNat ∧ off ≠ 0x1064) : MachineOffset off.toNat := by
  simpa [MachineOffset, ← BitVec.toNat_inj] using h

/-- Settles O56, clause by clause: each register by what its offset does, each CSR by its number. -/
theorem registerAndCsrWritesFollowTheirAccess : Obligations.RegisterAndCsrWritesFollowTheirAccess := by
  refine ⟨fun r v met lost s hr => ?_, fun h v met lost s hr => ?_, fun r s hc => State.readReg_cfg hc r⟩
  · have halone : ∀ {off : BitVec 16}, s.competes off.toNat v r = false → _ :=
      fun h => exec_registerWrite_alone hr h met lost
    refine ⟨?_, ?_, ?_, ?_, fun hp => ⟨fun hst => ?_, fun h g e hg hlt => ?_, ?_, ?_, ?_⟩, fun hp off _ ho => ?_,
      fun hod i => ?_⟩
    · rw [halone (by simp [State.competes, State.reaches, offIn])]; rfl
    · rw [halone (by simp [State.competes, State.reaches, offIn])]; rfl
    · rw [halone (by simp [State.competes, State.reaches, offIn])]; rfl
    · rw [halone (by simp [State.competes, State.reaches, offIn])]
      exact (congrArg Host.Outcome.next (if_pos hr)).symm
    · rw [exec_registerWrite_scrub hr hp, if_pos (stands_of hst)]
    · subst e
      rw [exec_registerWrite_scrub hr hp, not_stands_of hg hlt, if_neg (by decide)]
    · refine ⟨_, exec_registerWrite_vers hr hp v met, ?_⟩
      rw [State.versWrite_eq]
      exact ⟨rfl, fun p => foldl_fins_get _ _ p, rfl⟩
    · rw [halone (by simp [State.competes, State.reaches, offIn])]
      simp [State.applyWrite, State.writeErr, clearCount, hp]
    · rw [halone (by simp [State.competes, State.reaches, offIn])]
      simp [State.applyWrite, State.writeKs, clearBit, hp]
    · exact exec_registerWrite_unprivileged hr hp (machineOffset_of ho) v met lost
    · have hpow : s.powered = true := (Bool.and_eq_true_iff.mp hr).1
      change Host.Outcome.next (if s.powered then _ else s) = _
      rw [if_pos hpow, inSlot_toNat, State.masterWrite_inSlot]
  · have huser : ∀ {n : BitVec 12}, n.extractLsb' 8 2 = 0 → n.extractLsb' 10 2 ≠ 3 →
        (s.engineCsr h n).isSome = true → _ :=
      fun h8 h10 he => exec_registerWrite_csr_allowed hr (csrForbidden_user _ h8 h10) he v met lost
    refine ⟨?_, ?_, ?_, ?_, fun ⟨hm, hc⟩ => ⟨?_, ?_⟩, fun ⟨hm, hc⟩ => ?_⟩
    · exact huser (by decide) (by decide) rfl
    · exact huser (by decide) (by decide) rfl
    · exact huser (by decide) (by decide) rfl
    · exact huser (by decide) (by decide) rfl
    · exact exec_registerWrite_csr_allowed hr (by rw [hm]; decide) rfl v met lost
    · exact exec_registerWrite_csr_forbidden hr hc (by rw [hm]; decide) v met lost
    · exact exec_registerWrite_csr_forbidden hr hc (by rw [hm]; decide) v met lost

end Sys2Proof.Machine

/-! # Reset, power-off and power loss -/

namespace Sys2Proof.Machine

/-! ## What a reset keeps -/

/-- The segments that a reset keeps are those that come up retained (R293, R484). -/
theorem State.mem_kept (s : State) (l : List (Fin 64)) (g : Fin 64) :
    g ∈ s.keptSegs.filter l.contains ↔ s.comesUp l g := by
  simp only [List.mem_filter, List.contains_iff_mem, State.comesUp, State.keptSegs]
  rw [and_comm]
  refine and_congr_right fun _ => ?_
  by_cases hp : s.powered = true
  · cases s.ice.revival <;> simp [hp, State.hasSeg, and_assoc]
  · simp [hp]

/-- The cells that a reset keeps: those of the segments that come up, under the spare map that they were written with. -/
theorem State.heldCells_get {s : State} (hc : s.fieldCanonical) (kept : List (Fin 64)) (cell : Nat) :
    sget 0 (s.heldCells kept) cell = if kept.any (s.heldCell · cell) then sget 0 s.ice.cells cell else 0 :=
  sget_filter 0 (fun k => kept.any (s.heldCell · k)) _ cell hc.1

/-- After a reset a cell of a segment that comes up holds its word, and every other cell is zero (R293, R456). -/
theorem State.restartEngine_cells {s : State} (hc : s.fieldCanonical) (l : List (Fin 64)) (cell : Nat) :
    ((∃ g, s.comesUp l g ∧ s.heldCell g cell = true) →
      sget 0 (s.restartEngine l).ice.cells cell = sget 0 s.ice.cells cell) ∧
    ((∀ g, s.comesUp l g → s.heldCell g cell = false) → sget 0 (s.restartEngine l).ice.cells cell = 0) := by
  have hget : sget 0 (s.restartEngine l).ice.cells cell =
      if (s.keptSegs.filter l.contains).any (s.heldCell · cell) then sget 0 s.ice.cells cell else 0 :=
    State.heldCells_get hc _ cell
  refine ⟨fun ⟨g, hg, hcell⟩ => ?_, fun hno => ?_⟩
  · rw [hget, if_pos (List.any_eq_true.mpr ⟨g, (s.mem_kept l g).mpr hg, hcell⟩)]
  · rw [hget, if_neg]
    intro hany
    obtain ⟨g, hg, hcell⟩ := List.any_eq_true.mp hany
    exact Bool.false_ne_true ((hno g ((s.mem_kept l g).mp hg)).symm.trans hcell)

/-- After a reset every register is at its reset value (R480). -/
theorem State.restartEngine_restarted (s : State) (l : List (Fin 64)) : restarted s (s.restartEngine l) :=
  ⟨rfl, rfl, fun h => vreplicate_get _ h, fun r => vreplicate_get _ r, rfl, rfl, rfl, rfl, rfl, rfl, rfl, rfl, rfl,
    fun f => vreplicate_get _ f, rfl, rfl, rfl, rfl, rfl, rfl⟩

/-- A segment comes up permafrost and counts as retained, or live and does not. -/
theorem State.restartEngine_segs (s : State) (l : List (Fin 64)) (g : Fin 64) :
    (s.comesUp l g → (s.restartEngine l).ice.segs.get g = .permafrost ∧ g ∈ (s.restartEngine l).boot.retained) ∧
    (¬s.comesUp l g → (s.restartEngine l).ice.segs.get g = .live ∧ g ∉ (s.restartEngine l).boot.retained) := by
  have hseg : (s.restartEngine l).ice.segs.get g =
      if (s.keptSegs.filter l.contains).contains g then .permafrost else .live := vofFn_get _ g
  have hret : (s.restartEngine l).boot.retained = s.keptSegs.filter l.contains := rfl
  have hkept : (s.keptSegs.filter l.contains).contains g = true ↔ s.comesUp l g := by
    rw [List.contains_iff_mem, s.mem_kept l g]
  rw [hseg, hret, s.mem_kept l g]
  exact ⟨fun h => ⟨if_pos (hkept.mpr h), h⟩, fun h => ⟨if_neg (h ∘ hkept.mp), h⟩⟩

/-- The removal of the supply is a reset that leaves the engine unpowered (R27, R456). -/
theorem State.powerDown_unpowered (s : State) (rail : List (Fin 64)) : unpowered rail s (s.powerDown rail) :=
  ⟨s.restartEngine_restarted rail, rfl, rfl, fun hc cell => State.restartEngine_cells hc rail cell⟩

/-! ## The request -/

/-- Changing every channel changes the channels alone. -/
theorem State.forEach_modCh (s : State) (f : Channel → Channel) :
    ∃ ch, s.forEach (fins 32) (fun s c => s.modCh c f) = { s with drf := { s.drf with ch := ch } } ∧
      ∀ c, ch.get c = f (s.chan c) := by
  refine ⟨(fins 32).foldl (fun v i => vmod v i f) s.drf.ch, ?_, fun c => foldl_fins_get f s.drf.ch c⟩
  unfold State.forEach
  generalize fins 32 = l
  induction l generalizing s with
  | nil => rfl
  | cons p r ih => rw [List.foldl_cons, ih]; rfl

theorem State.forEach_ports (s : State) (l : List (Fin 4)) (f : Port → Port) :
    ∃ v, s.forEach l (fun s p => s.modPort p f) = { s with nbr := { s.nbr with ports := v } } := by
  unfold State.forEach
  induction l generalizing s with
  | nil => exact ⟨_, rfl⟩
  | cons p r ih =>
    obtain ⟨v, hv⟩ := ih (s.modPort p f)
    exact ⟨v, hv⟩

theorem State.forEach_release (s : State) (l : List SendRead) :
    ∃ sb, s.forEach l (fun s a => s.release a.sb) = { s with ice := { s.ice with sb := sb } } := by
  unfold State.forEach
  induction l generalizing s with
  | nil => exact ⟨_, rfl⟩
  | cons a r ih =>
    obtain ⟨sb, hsb⟩ := ih (s.release a.sb)
    exact ⟨sb, hsb⟩

theorem State.dropReading_eq (s : State) (sel : Reader → Bool) :
    ∃ nbr sb, s.dropReading sel = { s with nbr := nbr, ice := { s.ice with sb := sb } } := by
  obtain ⟨sb, hsb⟩ := State.forEach_release
    { s with nbr := { s.nbr with reading := s.nbr.reading.filter fun a => !sel a.who } }
    (s.nbr.reading.filter fun a => sel a.who)
  exact ⟨_, sb, hsb⟩

/-- A channel that has been asked to stop (R360). -/
def Channel.askedToStop (x : Channel) : Channel :=
  if x.state == 1 || x.state == 4 || x.state == 5 then { x with stopping := true } else x

/-- Stopping the engines asks every channel and every course to stop, and changes the sends and the scoreboard beside
them alone (R247, R360, R386). -/
theorem State.stopEngines_eq (s : State) :
    ∃ ch nbr sb, s.stopEngines = { s with
        drf := { s.drf with ch := ch }, mortar := (s.stopCourses fun _ => true).mortar
        nbr := nbr, ice := { s.ice with sb := sb } } ∧ ∀ c, ch.get c = (s.chan c).askedToStop := by
  obtain ⟨ch, hch, hget⟩ := s.forEach_modCh Channel.askedToStop
  have hstop : s.forEach (fins 32) State.stopChannel = { s with drf := { s.drf with ch := ch } } := hch
  obtain ⟨nbr, sb, hread⟩ :=
    State.dropReading_eq (({ s with drf := { s.drf with ch := ch } } : State).stopCourses fun _ => true) fun _ => true
  obtain ⟨v, hsend⟩ := State.forEach_ports
    ((({ s with drf := { s.drf with ch := ch } } : State).stopCourses fun _ => true).dropReading fun _ => true)
    (fins 4) fun q => { q with sends := q.sends.map SendDesc.stopped }
  refine ⟨ch, { nbr with ports := v }, sb, ?_, hget⟩
  rw [State.stopEngines, hstop]
  refine hsend.trans ?_
  rw [hread]
  rfl

/-- From stage 8 on a power-off request waits for the engine's work (R457). -/
theorem State.offAfter_drained {s : State} (h : 8 ≤ s.boot.stage.toNat) : s.offAfter = .drained := if_pos h

theorem State.stopCourses_run (s : State) (sel : Reader → Bool) :
    (s.stopCourses sel).mortar.run = s.mortar.run.map fun r => if sel r.who then r.stop else r := rfl

theorem execPowerOffRequest_spec {s : State} (hp : s.powered = true) (hreq : s.powerReq = false) :
    ∃ t : State, exec .powerOffRequest s = .next t ∧ t.powerReq = true ∧ t.powered = true ∧ t.harts = s.harts ∧
      t.tiles = s.tiles ∧ t.ice.cells = s.ice.cells ∧ t.ice.floes = s.ice.floes ∧
      (8 ≤ s.boot.stage.toNat → t.offWait = .drained) ∧
      (∀ r, s.mortar.run = some r → t.mortar.run.map (·.stopping) = some true) ∧
      ∀ c, t.chan c = if (s.chan c).state = 1 ∨ (s.chan c).state = 4 ∨ (s.chan c).state = 5 then
          { s.chan c with stopping := true } else s.chan c := by
  obtain ⟨ch, nbr, sb, ht, hch⟩ := State.stopEngines_eq { s with powerReq := true, offWait := s.offAfter }
  refine ⟨({ s with powerReq := true, offWait := s.offAfter } : State).stopEngines, ?_, ?_⟩
  · change Host.Outcome.next (if s.powered then s.powerOffRequest else s) = _
    rw [if_pos hp, State.powerOffRequest, hreq]
    rfl
  · rw [ht]
    refine ⟨rfl, hp, rfl, rfl, rfl, rfl, State.offAfter_drained, fun r hr => ?_, fun c => ?_⟩
    · change Option.map (·.stopping) (s.mortar.run.map CourseRun.stop) = _
      rw [hr]
      rfl
    · refine (hch c).trans ?_
      simp only [Channel.askedToStop, Bool.or_eq_true, beq_iff_eq, or_assoc]
      rfl

/-! ## Torn words (R457) -/

/-- What a torn word may hold: its old value, the one being written, or a codeword that reads as uncorrectable (log
entry 9). -/
def TornFrom (old : BitVec 44) (w : IceWrite) (new : BitVec 44) : Prop :=
  new = old ∨ new = writtenOver old w ∨ classify new = .bad

/-- A stored word is classified as the pattern added to its clean codeword. -/
theorem classify_pattern (d : Word) (e : BitVec 44) : classify (encodeClean d ^^^ e) = classify e := by
  have h0 : syndrome (encodeClean d ^^^ e) 0 = syndrome e 0 := syndrome_pattern d e 0
  have h1 : syndrome (encodeClean d ^^^ e) 1 = syndrome e 1 := syndrome_pattern d e 1
  have h2 : syndrome (encodeClean d ^^^ e) 2 = syndrome e 2 := syndrome_pattern d e 2
  simp only [classify, h0, h1, h2]

theorem classify_badCodeword (c : BitVec 44) : classify (badCodeword c) = .bad := by
  unfold badCodeword
  split
  · assumption
  · have hdata : cwData c ^^^ 0 = cwData c := BitVec.xor_zero
    have hpat : codeword (checkBits (cwData c) ^^^ 0x011) (cwData c) = encodeClean (cwData c) ^^^ codeword 0x011 0 := by
      rw [encodeClean, ← codeword_xor, hdata]
    rw [hpat, classify_pattern]
    decide

theorem tornWord_tornFrom (n cell : Nat) (old : BitVec 44) (w : IceWrite) :
    TornFrom old w (tornWord n cell old (writtenOver old w)) := by
  unfold tornWord
  split
  · exact .inl rfl
  · exact .inr (.inl rfl)
  · exact .inr (.inr (classify_badCodeword _))

/-- The state with other cells and write-backs, which no place of a word depends on. -/
def State.withCells (s : State) (c : Store (BitVec 44)) (b : List (Nat × BitVec 44)) : State :=
  { s with ice := { s.ice with cells := c, writebacks := b } }

theorem State.tearWord_of_not_tears {s : State} {q : Fin 64 × IceWrite} (h : ∀ cell, ¬s.tears q cell) :
    s.tearWord q.1 q.2 = s := by
  unfold State.tearWord
  split
  · next p a hp =>
    refine if_neg fun hc => ?_
    simp only [Bool.and_eq_true, beq_iff_eq, bne_iff_ne] at hc
    exact h _ ⟨hc.2, p, a, hp, hc.1, rfl⟩
  · rfl

theorem State.tearWord_of_tears {s : State} {q : Fin 64 × IceWrite} {cell : Nat} (h : s.tears q cell)
    (c : Store (BitVec 44)) (b : List (Nat × BitVec 44)) :
    (s.withCells c b).tearWord q.1 q.2 = s.withCells
      (sset 0 c cell (tornWord s.freeCtr cell (sget 0 c cell) (writtenOver (sget 0 c cell) q.2)))
      (b.filter fun w => w.1 != cell) := by
  obtain ⟨hmask, p, a, hp, hseg, rfl⟩ := h
  have hc : ((s.withCells c b).segAt p == .permafrost && q.2.mask != 0) = true :=
    Bool.and_eq_true_iff.mpr ⟨beq_iff_eq.mpr hseg, bne_iff_ne.mpr hmask⟩
  have hplace : (s.withCells c b).place q.1 q.2.word = some (.phys p a) := hp
  simp only [State.tearWord, hplace, hc, if_true]
  rfl

/-- A write tears one cell at most. -/
theorem State.tears_unique {s : State} {q : Fin 64 × IceWrite} {a b : Nat} (ha : s.tears q a) (hb : s.tears q b) : a = b := by
  obtain ⟨_, p, h, hp, _, rfl⟩ := ha
  obtain ⟨_, p', h', hp', _, rfl⟩ := hb
  cases hp.symm.trans hp'
  rfl

/-- A write in flight changes the cell that it tears, to a word torn from it, and no other. -/
theorem State.tearWord_withCells (s : State) (q : Fin 64 × IceWrite) {c : Store (BitVec 44)} (hc : swf 0 c = true)
    (b : List (Nat × BitVec 44)) :
    ∃ c' b', (s.withCells c b).tearWord q.1 q.2 = s.withCells c' b' ∧ swf 0 c' = true ∧ ∀ cell,
      (¬s.tears q cell → sget 0 c' cell = sget 0 c cell) ∧
      (s.tears q cell → TornFrom (sget 0 c cell) q.2 (sget 0 c' cell)) := by
  by_cases h : ∃ cell, s.tears q cell
  · obtain ⟨k, hk⟩ := h
    refine ⟨_, _, State.tearWord_of_tears hk c b, swf_sset 0 c k _ hc, fun cell => ?_⟩
    rw [sget_sset 0 _ k cell _ hc]
    refine ⟨fun hno => if_neg fun e : cell = k => hno (e ▸ hk), fun ht => ?_⟩
    obtain rfl := State.tears_unique hk ht
    rw [if_pos rfl]
    exact tornWord_tornFrom _ _ _ _
  · rw [not_exists] at h
    exact ⟨c, b, State.tearWord_of_not_tears h, hc, fun cell => ⟨fun _ => rfl, fun ht => absurd ht (h cell)⟩⟩

/-- Writes in flight change no cell that none of them tears. -/
theorem State.tearWords_withCells (s : State) (l : List (Fin 64 × IceWrite)) {c : Store (BitVec 44)} (hc : swf 0 c = true)
    (b : List (Nat × BitVec 44)) :
    ∃ c' b', (s.withCells c b).forEach l (fun s q => s.tearWord q.1 q.2) = s.withCells c' b' ∧ swf 0 c' = true ∧
      ∀ cell, (∀ q ∈ l, ¬s.tears q cell) → sget 0 c' cell = sget 0 c cell := by
  induction l generalizing c b with
  | nil => exact ⟨c, b, rfl, hc, fun _ _ => rfl⟩
  | cons q r ih =>
    obtain ⟨c1, b1, h1, hc1, hcell1⟩ := s.tearWord_withCells q hc b
    obtain ⟨c2, b2, h2, hc2, hcell2⟩ := ih hc1 b1
    refine ⟨c2, b2, ?_, hc2, fun cell hno => ?_⟩
    · rw [State.forEach, List.foldl_cons, h1]
      exact h2
    · rw [hcell2 cell fun x hx => hno x (List.mem_cons_of_mem _ hx), (hcell1 cell).1 (hno q List.mem_cons_self)]

/-- A cell that one write in flight tears, and no other, holds a word torn from it. -/
theorem State.tearWords_one (s : State) {l m : List (Fin 64 × IceWrite)} {q : Fin 64 × IceWrite} {c c' : Store (BitVec 44)}
    {b b' : List (Nat × BitVec 44)} {cell : Nat} (hc : swf 0 c = true)
    (h : (s.withCells c b).forEach (l ++ q :: m) (fun s q => s.tearWord q.1 q.2) = s.withCells c' b')
    (hq : s.tears q cell) (hno : ∀ x ∈ l ++ m, ¬s.tears x cell) : TornFrom (sget 0 c cell) q.2 (sget 0 c' cell) := by
  obtain ⟨c1, b1, h1, hc1, hcell1⟩ := s.tearWords_withCells l hc b
  obtain ⟨c2, b2, h2, hc2, hcell2⟩ := s.tearWord_withCells q hc1 b1
  obtain ⟨c3, b3, h3, -, hcell3⟩ := s.tearWords_withCells m hc2 b2
  have hall : s.withCells c3 b3 = s.withCells c' b' := by
    rw [← h, ← h3, ← h2]
    unfold State.forEach at h1 ⊢
    rw [List.foldl_append, h1, List.foldl_cons]
  have he : c3 = c' := congrArg (fun u : State => u.ice.cells) hall
  rw [← he, hcell3 cell fun x hx => hno x (List.mem_append_right _ hx),
    ← hcell1 cell fun x hx => hno x (List.mem_append_left _ hx)]
  exact (hcell2 cell).2 hq

theorem execPowerLoss_spec {s : State} (hp : s.powered = true) (hc : s.fieldCanonical) (rail : List (Fin 64)) :
    ∃ t : State, exec (.powerLoss rail) s = .next t ∧ restarted s t ∧ t.powered = false ∧
      t.railHeld = s.keptSegs.filter rail.contains ∧
      ∀ cell, ((∀ g, s.comesUp rail g → s.heldCell g cell = false) → sget 0 t.ice.cells cell = 0) ∧
        ((∃ g, s.comesUp rail g ∧ s.heldCell g cell = true) →
          ((∀ q ∈ s.flying, ¬s.tears q cell) → sget 0 t.ice.cells cell = sget 0 s.ice.cells cell) ∧
          ∀ (l m : List (Fin 64 × IceWrite)) (q : Fin 64 × IceWrite), s.flying = l ++ q :: m → s.tears q cell →
            (∀ x ∈ l ++ m, ¬s.tears x cell) →
            TornFrom (sget 0 s.ice.cells cell) q.2 (sget 0 t.ice.cells cell)) := by
  obtain ⟨c, b, htear, hswf, hsame⟩ := s.tearWords_withCells s.flying hc.1 s.ice.writebacks
  obtain ⟨hrestarted, hoff, hheld, hcells⟩ := (s.withCells c b).fresh.powerDown_unpowered rail
  have hexec : exec (.powerLoss rail) s = .next ((s.withCells c b).fresh.powerDown rail) := by
    change Host.Outcome.next (if s.powered then s.powerLoss rail else s) = _
    rw [if_pos hp, State.powerLoss, State.tear, ← htear]
    rfl
  refine ⟨_, hexec, hrestarted, hoff, hheld, fun cell => ?_⟩
  obtain ⟨hkept, hlost⟩ := hcells ⟨hswf, hc.2⟩ cell
  refine ⟨hlost, fun hup => ⟨fun hno => (hkept hup).trans (hsame cell hno), fun l m q hl hq hno => ?_⟩⟩
  rw [hkept hup]
  rw [hl] at htear
  exact s.tearWords_one hc.1 htear hq hno

/-! ## An unpowered engine (log entry 130) -/

/-- A command whose condition fails changes nothing. -/
theorem skips {s t : State} {c : Prop} [Decidable c] (hc : ¬c) :
    (.next (if c then t else s) : Host.Outcome State Fault Refusal) = .next s := by rw [if_neg hc]

section
variable {s : State} (hp : s.powered = false)
include hp

theorem canAct_unpowered (r : Reader) : s.canAct r = false := by simp [State.canAct, hp]

theorem serving_unpowered : s.serving = false := by simp [State.serving, hp]

theorem serve_unpowered {op : BitVec 8} {k : State → Order → State} {alt : State → State} (ha : alt s = s) :
    s.serve op k alt = s := by
  unfold State.serve
  split
  · rw [serving_unpowered hp]
    exact ite_eq_iff'.mpr ⟨fun _ => rfl, fun _ => ha⟩
  · exact ha

theorem finishCompute_unpowered (op : BitVec 8) : s.finishCompute op = s := by
  rw [State.finishCompute, serving_unpowered hp]
  rfl

theorem finishCall_unpowered : s.finishCall = s := by
  rw [State.finishCall, serving_unpowered hp]
  rfl

theorem issue_unpowered (h : Hart) (x : XInstr) : s.issue h x = s := by
  rw [State.issue, canAct_unpowered hp]
  rfl

theorem execRegisterWrite_unpowered (r : Reader) (t : RegTarget) (v : Word) (lost : List Hart) (met : Word) :
    exec (.registerWrite r t v lost met) s = .next s := by
  have hact := canAct_unpowered hp r
  cases t with
  | master hod off => exact skips (by simp [hp])
  | reg off => exact skips (by simp [hact])
  | csr n => exact congrArg _ (if_pos (by rw [hact]; rfl))

/-- A command acts only under a condition that an unpowered engine does not meet. -/
theorem exec_unpowered (c : Instr) (hc : ∀ l, c ≠ .reset l) : exec c s = .next s := by
  have hoff : ¬s.powered = true := by rw [hp]; exact Bool.false_ne_true
  have hserve : ¬s.serving = true := by rw [serving_unpowered hp]; exact Bool.false_ne_true
  cases hi : issues c with
  | some p => rw [exec_issues c p.1 p.2 s hi, issue_unpowered hp]
  | none =>
    cases c with
    | instructionRetire | instructionReplay | vfault | summaryRead | vflagsRead | mquotaRead | tileLease |
      leaseEffect | courseComplete | operandTransfer | resultTransfer | b00Stack | b01Running | b02Header |
      b03Stretcher | b04Soldier | b05Flemish | b06English | b07Dutch | b08Monk | b09Sailor | b10Rowlock | b11Garden
      | b12Basket | b13Quoin | b14Coping | b15Lintel | peerTimeout | floeCommit | floeRead | floeCommitEffect |
      segmentMelt | revivalRampEnd | segmentSelftestEnd | segmentFillEnd | scrubVisit | correctedWriteback |
      fieldSparing | sbAllocate | accessRetire | drfGo | drfRearm | drfResume | drfStop | fbPost | fbRelease |
      descriptorSetFetch | fabricReadLine | fabricWriteResponse | setRetire | shadowEffect | channelHalt |
      channelStopped | slotGrant | indexQueueResume | deadlock | moraineLine | windowOpen | windowClose |
      windowCredit | windowRead | windowCloseEffect | sendDescriptorStart | sendComplete | data | arrivalLanded |
      ack | refuse | grant | revoke | helloMsg | echo | resendTimeout | hodIprodAdvance | pageTimeout | timerExpiry
      | calibPeriod | guardEvent | paceWindow | powerOffRequest | powerOffAck | powerLoss | uncorrectableFault |
      recoveryDrained | laneRampEnd | laneSelftestEnd | laneGroupRejoin | recordRead | recordTimeout |
      localStoreFillEnd | startupLaneTestEnd | icefieldSelftestEnd | icefieldFillEnd | firmwareDelivered | fwRefused
      | keystoneStart | neighbourWaitEnd | operandCredit | localStoreScrub => exact skips hoff
    | wfiWake | courseBegin | echoTimeout | ackTimer | retryResend | helloTimer | portSilence =>
      exact skips (by simp [hp])
    | courseStart | courseStop | courseDrop | drfOwn | nbrSend | nbrSendStop | evset | eventCounterLowRead | ecall |
      wfi | scalarLoad | scalarStore => exact skips (by simp [canAct_unpowered hp])
    | fbConfig | hctlHalt | hctlRun | portDownCmd | portRetryCmd | paceClear | calTap | obsSelect | hodOprodAdvance
      | fwready => exact skips (by simp [State.mayWrite, State.mayWin, canAct_unpowered hp])
    | hodScan | ordKillDrained | extVerified => exact skips (by simp [serving_unpowered hp])
    | ordHello | ordKill | ordRelease | ordHalt | ordRun | ordCalib | ordPageDone | ordDropExt | ordObssel |
      ordFloeSet | ordMove | ordIceRead | ordIceWrite | ordRegRead | ordRegWrite | ordStatus =>
      exact congrArg _ (serve_unpowered hp rfl)
    | ordAttnFwd | ordAttnBwd | ordMatmul | ordSample | ordScore | ordRlLoss | ordMoeRoute | ordMoeCombine |
      ordMaskMaint | ordElemwise | ordReduce | ordSortset =>
      exact congrArg _ (serve_unpowered hp (finishCompute_unpowered hp _))
    | ordWeightPush | ordFence =>
      refine congrArg _ (serve_unpowered hp ?_)
      exact if_neg hserve
    | ordExtCall => exact congrArg _ (serve_unpowered hp (finishCall_unpowered hp))
    | ordLoadExt | ordWindow => exact congrArg _ (ite_eq_iff'.mpr ⟨fun _ => rfl, fun _ => serve_unpowered hp rfl⟩)
    | vectorAccept => exact congrArg _ (if_pos (by rw [hp]; rfl))
    | rv32Instruction => exact congrArg _ (if_pos (by rw [canAct_unpowered hp]; rfl))
    | registerWrite => exact execRegisterWrite_unpowered hp _ _ _ _ _
    | reset => exact absurd rfl (hc _)
    | _ => cases hi

end

/-- Settles O57, part by part: reset, request, acknowledge, loss, and the unpowered engine. -/
theorem resetsAndPowerKeepPermafrostAlone : Obligations.ResetsAndPowerKeepPermafrostAlone := by
  refine ⟨fun l s hc => ?_, fun s hp hreq => execPowerOffRequest_spec hp hreq,
    fun timeout rail s hp => ⟨fun h => ?_, fun hreq h => ?_⟩, fun rail s hp hc => execPowerLoss_spec hp hc rail,
    fun c s hp hc => exec_unpowered hp c hc, fun s hp hpend => ?_⟩
  · exact ⟨s.restartEngine l, rfl, s.restartEngine_restarted l, rfl, s.restartEngine_segs l,
      State.restartEngine_cells hc l, rfl⟩
  · refine congrArg _ ((if_pos hp).trans (if_neg ?_))
    obtain hreq | ⟨hdrain, htime⟩ := h
    · simp [hreq]
    · simp [hdrain, htime]
  · refine ⟨s.powerDown rail, congrArg _ ((if_pos hp).trans (if_pos ?_)), s.powerDown_unpowered rail⟩
    obtain hdrain | htime := h
    · simp [hreq, hdrain]
    · simp [hreq, htime]
  · have hoff : ¬s.powered = true := by rw [hp]; exact Bool.false_ne_true
    rw [step, hpend]
    exact congrArg _ (if_neg hoff)

end Sys2Proof.Machine

/-! # Re-arms of persistent drifts -/

namespace Sys2Proof.Machine

/-! ## The writes of one step (R354, R431) -/

/-- Every reader, in the order in which the writes of one step act. -/
abbrev readerOrder : List Reader := mgmt :: (fins 16).map Hart.reader

theorem readerOrder_nodup : readerOrder.Nodup := by decide

theorem mem_readerOrder : ∀ r : Reader, r ∈ readerOrder := by decide

/-- A reader that cannot act re-arms nothing and starts nothing. -/
theorem State.chainWrite_idle {s : State} {w : Reader × Bool} (h : s.canAct w.1 = false) (c : BitVec 5) :
    (if w.2 then s.rearm w.1 c else s.drfGo w.1 c) = s := by
  have hrearm : s.rearm w.1 c = s := by simp [State.rearm, State.drfRearm, h]
  have hgo : s.drfGo w.1 c = s := by simp [State.drfGo, h]
  rw [hrearm, hgo, ite_self]

theorem State.chainWrites_idle {s : State} {l : List (Reader × Bool)} (h : ∀ w ∈ l, s.canAct w.1 = false) (c : BitVec 5) :
    (s.forEach l fun s w => if w.2 then s.rearm w.1 c else s.drfGo w.1 c) = s := by
  unfold State.forEach
  induction l with
  | nil => rfl
  | cons w r ih =>
    rw [List.foldl_cons, State.chainWrite_idle (h w List.mem_cons_self)]
    exact ih fun x hx => h x (List.mem_cons_of_mem _ hx)

/-- Of writes of which one reader alone can act, that reader's acts. -/
theorem State.chainWrites_alone {s : State} {r : Reader} {c : BitVec 5} {met : List (Reader × Bool)} (hal : alone r met s)
    (hact : ∀ q, (s.rearm r c).canAct q = s.canAct q) :
    s.chainWrites c ((r, true) :: met.filter fun w => w.1 != r) = s.rearm r c := by
  have hrest : ∀ w ∈ met.filter fun w => w.1 != r, w.1 ≠ r ∧ s.canAct w.1 = false := by
    intro w hw
    obtain ⟨hmem, hne⟩ := List.mem_filter.mp hw
    have hne' : w.1 ≠ r := bne_iff_ne.mp hne
    exact ⟨hne', (hal w hmem).resolve_left hne'⟩
  obtain ⟨l1, l2, hl⟩ := List.append_of_mem (mem_readerOrder r)
  have hnd := readerOrder_nodup
  rw [hl, List.nodup_append, List.nodup_cons] at hnd
  obtain ⟨-, ⟨hr2, -⟩, hdis⟩ := hnd
  have hr1 : r ∉ l1 := fun h => hdis r h r List.mem_cons_self rfl
  have hidle : ∀ l : List Reader, r ∉ l → ∀ w ∈ l.flatMap (fun q =>
      ((r, true) :: met.filter fun w => w.1 != r).filter fun w => w.1 == q), s.canAct w.1 = false := by
    intro l hr w hw
    obtain ⟨q, hq, hw⟩ := List.mem_flatMap.mp hw
    obtain ⟨hmem, heq⟩ := List.mem_filter.mp hw
    obtain rfl : w.1 = q := beq_iff_eq.mp heq
    obtain rfl | hmem := List.mem_cons.mp hmem
    · exact absurd hq hr
    · exact (hrest w hmem).2
  have hone : (((r, true) :: met.filter fun w => w.1 != r).filter fun w => w.1 == r) = [(r, true)] := by
    have hnone : ((met.filter fun w => w.1 != r).filter fun w => w.1 == r) = [] :=
      List.filter_eq_nil_iff.mpr fun w hw => by simpa using (hrest w hw).1
    simp [hnone]
  change State.forEach s (readerOrder.flatMap _) _ = _
  rw [hl, List.flatMap_append, List.flatMap_cons, hone, State.forEach, List.foldl_append, List.foldl_append]
  have h1 := State.chainWrites_idle (hidle l1 hr1) c
  have h2 := State.chainWrites_idle (s := s.rearm r c) (fun w hw => (hact w.1).trans (hidle l2 hr2 w hw)) c
  unfold State.forEach at h1 h2
  rw [h1]
  exact h2

/-- Two re-arms of one step act in the order of R354, whichever of them the command stands for. -/
theorem rearms_ordered : ∀ q r : Reader, Reader.before q r = true → q ≠ r →
    (readerOrder.flatMap fun p => [(r, true), (q, true)].filter fun w => w.1 == p) = [(q, true), (r, true)] ∧
    (readerOrder.flatMap fun p => [(q, true), (r, true)].filter fun w => w.1 == p) = [(q, true), (r, true)] := by
  decide

theorem exec_drfRearm {s : State} (hp : s.powered = true) (r : Reader) (c : BitVec 5) (met : List (Reader × Bool)) :
    exec (.drfRearm r c met) s =
      .next (s.chainWrites c ((r, true) :: met.filter fun w => w.1 != r)).pruneCycles :=
  congrArg _ (if_pos hp)

theorem exec_drfRearm_alone {s : State} {r : Reader} {c : BitVec 5} {met : List (Reader × Bool)} (hr : s.canAct r = true)
    (hal : alone r met s) (hact : ∀ q, (s.rearm r c).canAct q = s.canAct q) :
    exec (.drfRearm r c met) s = .next (s.rearm r c).pruneCycles := by
  have hp : s.powered = true := (Bool.and_eq_true_iff.mp hr).1
  rw [exec_drfRearm hp, State.chainWrites_alone hal hact]

theorem exec_drfRearm_pair {s : State} (hp : s.powered = true) {q r : Reader} (hb : Reader.before q r = true) (hne : q ≠ r)
    (c : BitVec 5) :
    exec (.drfRearm r c [(q, true)]) s = .next ((s.rearm q c).rearm r c).pruneCycles ∧
      exec (.drfRearm q c [(r, true)]) s = .next ((s.rearm q c).rearm r c).pruneCycles := by
  obtain ⟨h1, h2⟩ := rearms_ordered q r hb hne
  have hq : ([(q, true)].filter fun w => w.1 != r) = [(q, true)] := by simp [hne]
  have hr : ([(r, true)].filter fun w => w.1 != q) = [(r, true)] := by simp [hne.symm]
  rw [exec_drfRearm hp, exec_drfRearm hp, hq, hr]
  constructor
  · exact congrArg (fun l => Host.Outcome.next (State.pruneCycles (State.forEach s l _))) h1
  · exact congrArg (fun l => Host.Outcome.next (State.pruneCycles (State.forEach s l _))) h2

/-! ## What REARM answers (R352) -/

/-- A REARM that starts no pass at once does no more than it answers. -/
theorem State.rearm_of_refused {s t : State} {r : Reader} {c : BitVec 5} (h : s.drfRearm r c = (t, false)) :
    s.rearm r c = t := by
  rw [State.rearm, h]

section
variable {s : State} {r : Reader} {c : BitVec 5} (hr : s.canAct r = true)
include hr

theorem State.rearm_noChannel (h : Config.driftCh s.cfg ≤ c.toNat) : s.rearm r c = s.setRstat r 4 :=
  State.rearm_of_refused (by simp [State.drfRearm, hr, State.hasCh, Nat.not_lt.mpr h])

variable (hch : c.toNat < Config.driftCh s.cfg)
include hch

theorem State.rearm_notOwner (ho : s.ownsCh r c.toFin = false) : s.rearm r c = s.setRstat r 5 :=
  State.rearm_of_refused (by simp [State.drfRearm, hr, State.hasCh, hch, ho])

variable (ho : s.ownsCh r c.toFin = true)
include ho

theorem State.rearm_unsupported (hc : Config.rearm s.cfg = false) : s.rearm r c = s.setRstat r 3 :=
  State.rearm_of_refused (by simp [State.drfRearm, hr, State.hasCh, hch, ho, hc])

variable (hc : Config.rearm s.cfg = true)
include hc

theorem State.rearm_busy (h : (s.chan c.toFin).state = 5 ∨ (s.chan c.toFin).state = 4 ∧ (s.chan c.toFin).shadow ≠ none) :
    s.rearm r c = s.setRstat r 2 := by
  refine State.rearm_of_refused ?_
  obtain h5 | ⟨h4, hsh⟩ := h
  · simp [State.drfRearm, hr, State.hasCh, hch, ho, hc, h5]
  · simp [State.drfRearm, hr, State.hasCh, hch, ho, hc, h4, Option.isSome_iff_ne_none.mpr hsh]

theorem State.rearm_notArmed
    (h : (s.chan c.toFin).state ≠ 1 ∧ (s.chan c.toFin).state ≠ 4 ∧ (s.chan c.toFin).state ≠ 5 ∨
      (s.chan c.toFin).state = 1 ∧ (s.chan c.toFin).persist = false) : s.rearm r c = s.setRstat r 4 := by
  refine State.rearm_of_refused ?_
  obtain ⟨h1, h4, h5⟩ | ⟨h1, hper⟩ := h
  · have h1' : ((s.chan c.toFin).state == 1) = false := beq_eq_false_iff_ne.mpr h1
    have h4' : ((s.chan c.toFin).state == 4) = false := beq_eq_false_iff_ne.mpr h4
    have h5' : ((s.chan c.toFin).state == 5) = false := beq_eq_false_iff_ne.mpr h5
    simp only [State.drfRearm, hr, State.hasCh, hch, ho, hc, h1', h4', h5', decide_true, Bool.not_true, Bool.false_and,
      Bool.false_eq_true, if_false]
  · simp [State.drfRearm, hr, State.hasCh, hch, ho, hc, h1, hper]

/-- A pass that runs takes one re-arm into its shadow (R352). -/
theorem State.rearm_shadow {st : DriftSet} (h1 : (s.chan c.toFin).state = 1) (hper : (s.chan c.toFin).persist = true)
    (hset : (s.chan c.toFin).set = some st) (hend : st.chainEnd = true) :
    s.rearm r c = if (s.chan c.toFin).shadow = none then
        (s.modCh c.toFin fun x => { x with shadow := some (s.basesOf r) }).setRstat r 1
      else s.setRstat r 2 := by
  refine State.rearm_of_refused ?_
  cases hsh : (s.chan c.toFin).shadow <;>
    simp [State.drfRearm, hr, State.hasCh, hch, ho, hc, h1, hper, hset, hend, hsh]

/-- A re-arm of an armed channel starts its pass at once. -/
theorem State.rearm_armed (h4 : (s.chan c.toFin).state = 4) (hsh : (s.chan c.toFin).shadow = none) :
    s.rearm r c = ((((s.startPass c.toFin (s.basesOf r)).setRstat r 0).retireSet c.toFin 1).drive c.toFin) := by
  have h : s.drfRearm r c = ((s.startPass c.toFin (s.basesOf r)).setRstat r 0, true) := by
    simp [State.drfRearm, hr, State.hasCh, hch, ho, hc, h4, hsh]
  rw [State.rearm, h]

end

/-- A configuration that re-arms has every channel. -/
theorem lt_driftCh_of_rearm {g : EngineConfig} (h : Config.rearm g = true) (c : BitVec 5) : c.toNat < Config.driftCh g := by
  cases g with
  | c3s => cases h
  | c3m => cases h
  | c3l => exact c.isLt

/-! ## The start of a pass -/

/-- The channel of a pass before its set is presented. -/
abbrev State.passBegun (s : State) (c : Fin 32) (b : Bases) : State :=
  s.modCh c fun y => { y with state := 1, bases := b, shadow := none, cached := none, marked := false }

/-- The set of an accepted pass. -/
abbrev passSet (s : State) (st : DriftSet) : DriftSet :=
  { descs := st.descs, chainEnd := true, sb := some s.ice.sb.nextId }

theorem State.startPass_eq {s : State} {c : Fin 32} {st : DriftSet} (b : Bases) (hcached : (s.chan c).cached = some st) :
    s.startPass c b =
      let q := (s.passBegun c b).checkDescs c { s.chan c with bases := b, version := none } (s.chan c).firstLen 0
        (s.chan c).persist st.descs
      let w := (s.passBegun c b).presentSet c { descs := q.1, failCode := q.2.1, chainEnd := q.2.1.isNone }
      w.1.modCh c fun y => { y with set := some w.2 } := by
  simp only [State.startPass, hcached]

/-- A pass that the check accepts presents its set behind a new scoreboard access. -/
theorem State.startPass_accepted {s : State} {c : Fin 32} {b : Bases} {st : DriftSet} {p : Bool}
    (hcached : (s.chan c).cached = some st)
    (hcheck : (s.passBegun c b).checkDescs c { s.chan c with bases := b, version := none } (s.chan c).firstLen 0
      (s.chan c).persist st.descs = (st.descs, none, p))
    (hranges : (s.passBegun c b).setRanges c st.descs ≠ []) :
    ∃ sb : Scoreboard, sb.alloc = s.ice.sb.alloc ∧
      s.startPass c b = ((s.passBegun c b).modSb fun _ => sb).modCh c fun y => { y with set := some (passSet s st) } := by
  refine ⟨((s.passBegun c b).present (.drift c) ((s.passBegun c b).setRanges c st.descs)).1.ice.sb, rfl, ?_⟩
  have hne : ((s.passBegun c b).setRanges c st.descs).isEmpty = false := by simpa using hranges
  rw [State.startPass_eq b hcached, hcheck]
  simp only [State.presentSet, hne]
  rfl

theorem State.setRanges_nil (s : State) (c : Fin 32) : s.setRanges c [] = [] := rfl

/-- A pass that the check refuses holds a set without descriptors. -/
theorem State.startPass_refused {s : State} {c : Fin 32} {b : Bases} {st : DriftSet} {code : BitVec 4} {p : Bool}
    (hcached : (s.chan c).cached = some st)
    (hcheck : (s.passBegun c b).checkDescs c { s.chan c with bases := b, version := none } (s.chan c).firstLen 0
      (s.chan c).persist st.descs = ([], some code, p)) :
    s.startPass c b = (s.passBegun c b).modCh c fun y => { y with set := some { failCode := some code } } := by
  rw [State.startPass_eq b hcached, hcheck]
  simp only [State.presentSet, State.setRanges_nil]
  rfl

/-! ## How far a pass goes at once -/

theorem State.retireSet_of_unfinished {s : State} {c : Fin 32} {st : DriftSet} (hset : (s.chan c).set = some st)
    (hcur : st.cur < st.descs.length) (n : Nat) : s.retireSet c n = s := by
  cases n with
  | zero => rfl
  | succ n =>
    simp only [State.retireSet, hset, hcur, decide_true, Bool.true_or, if_true]

theorem State.drive_of_not_current {s : State} {c : Fin 32} (h : s.current c = none) : s.drive c = s := by
  have hstep : s.driveStep c = none := by rw [State.driveStep, h]
  rw [State.drive, State.driveN, hstep]

/-- A channel whose set waits for its access has no descriptor in progress. -/
theorem State.current_of_waiting {s : State} {c : Fin 32} {st : DriftSet} {id : Nat} (hset : (s.chan c).set = some st)
    (hsb : st.sb = some id) (hid : ∀ a ∈ s.ice.sb.alloc, a.id ≠ id) : s.current c = none := by
  have hno : (s.ice.sb.alloc.any fun a => a.id == id) = false := by simpa using hid
  simp only [State.current, hset, hsb, hno, Bool.false_eq_true, if_false, ite_self]

theorem State.current_of_not_running {s : State} {c : Fin 32} (h : (s.chan c).state ≠ 1) : s.current c = none := by
  have h' : ((s.chan c).state != 1) = true := bne_iff_ne.mpr h
  simp only [State.current, h', Bool.true_or, if_true]

/-- An accepted pass waits for its access, and nothing else has changed. -/
theorem State.startPass_waits {s : State} {c : Fin 32} {b : Bases} {st : DriftSet} {p : Bool}
    (hcached : (s.chan c).cached = some st) (hdescs : st.descs ≠ []) (hid : ∀ a ∈ s.ice.sb.alloc, a.id ≠ s.ice.sb.nextId)
    (hcheck : (s.passBegun c b).checkDescs c { s.chan c with bases := b, version := none } (s.chan c).firstLen 0
      (s.chan c).persist st.descs = (st.descs, none, p))
    (hranges : (s.passBegun c b).setRanges c st.descs ≠ []) :
    passStarts c b st s (s.startPass c b) ∧
      (∀ r, (((s.startPass c b).setRstat r 0).retireSet c 1).drive c = (s.startPass c b).setRstat r 0) ∧
      ((s.startPass c b).retireSet c 1).drive c = s.startPass c b ∧ ∀ q, (s.startPass c b).canAct q = s.canAct q := by
  obtain ⟨sb, halloc, ht⟩ := State.startPass_accepted hcached hcheck hranges
  have hself : (s.startPass c b).chan c = { s.chan c with
      state := 1, bases := b, shadow := none, cached := none, marked := false, set := some (passSet s st) } := by
    rw [ht, State.modCh_chan]
    exact congrArg (fun y : Channel => { y with set := some (passSet s st) }) (State.modCh_chan s c _)
  have hset : ((s.startPass c b).chan c).set = some (passSet s st) := by rw [hself]
  have hsb : (s.startPass c b).ice.sb.alloc = s.ice.sb.alloc := by rw [ht]; exact halloc
  have hcur : (passSet s st).cur < (passSet s st).descs.length := List.length_pos_iff.mpr hdescs
  have hidle : ∀ u : State, u.chan c = (s.startPass c b).chan c → u.ice.sb.alloc = s.ice.sb.alloc →
      (u.retireSet c 1).drive c = u := by
    intro u hu hua
    have hus : (u.chan c).set = some (passSet s st) := by rw [hu, hset]
    rw [State.retireSet_of_unfinished hus hcur, State.drive_of_not_current]
    exact State.current_of_waiting hus rfl (by rw [hua]; exact hid)
  refine ⟨?_, fun r => hidle _ rfl hsb, hidle _ rfl hsb, fun q => by rw [ht]; rfl⟩
  refine ⟨by rw [hself], by rw [hself], by rw [hself], by rw [hself], hset, hsb, by rw [hself], by rw [hself],
    fun d hd => ?_, by rw [ht]; rfl, by rw [ht]; rfl, by rw [ht]; rfl⟩
  rw [ht, State.modCh_chan_ne _ _ hd]
  exact State.modCh_chan_ne s _ hd

/-! ## A refused pass (R353) -/

/-- Whether a reader can act hangs on the power, on its hart's halt and wait, and on the orders. -/
theorem State.canAct_congr {s t : State} (hp : t.powered = s.powered) (hh : t.hods = s.hods)
    (hhalt : ∀ h, (t.hart h).halted = (s.hart h).halted) (hwait : ∀ h, (t.hart h).wait = (s.hart h).wait) (q : Reader) :
    t.canAct q = s.canAct q := by
  simp only [State.canAct, State.underKill, State.kernelOf, hp, hh, hhalt, hwait]

theorem FpFlags.or_empty (f : FpFlags) : f.or {} = f := by
  simp [FpFlags.or]

theorem State.raiseFlags_empty (s : State) (h : Hart) : s.raiseFlags h {} = s := by
  have hv : vmod s.harts h (fun t => { t with csr := { t.csr with vflags := t.csr.vflags.or {} } }) = s.harts :=
    vmod_eq_self _ _ _ (by rw [FpFlags.or_empty])
  rw [State.raiseFlags, State.modHart, hv]

/-- The drift event sets a bit of the owner's pending events, when the owner has selected the channel, and nothing else. -/
theorem State.driftEvent_spec (s : State) (c : Fin 32) :
    ∃ harts, s.driftEvent c = { s with harts := harts } ∧
      (∀ h, (harts.get h).halted = (s.hart h).halted ∧ (harts.get h).wait = (s.hart h).wait) ∧
      ((s.hart (s.chan c).owner).csr.drw.getLsbD c.val = true →
        (harts.get (s.chan c).owner).csr.evpend.getLsbD 0 = true) := by
  by_cases hd : (s.hart (s.chan c).owner).csr.drw.getLsbD c.val = true
  · refine ⟨(s.raiseEvent (s.chan c).owner 0).harts, if_pos hd, fun h => ?_, fun _ => ?_⟩
    · have hget := s.modHart_harts_get h (s.chan c).owner fun t =>
        { t with csr := { t.csr with evpend := t.csr.evpend ||| BitVec.ofNat 9 (2 ^ 0) } }
      change ((s.raiseEvent (s.chan c).owner 0).hart h).halted = _ ∧ ((s.raiseEvent (s.chan c).owner 0).hart h).wait = _
      rw [State.raiseEvent, hget]
      split
      · next e => rw [e]; exact ⟨rfl, rfl⟩
      · exact ⟨rfl, rfl⟩
    · change ((s.raiseEvent (s.chan c).owner 0).hart (s.chan c).owner).csr.evpend.getLsbD 0 = true
      rw [State.raiseEvent, State.modHart_hart]
      simp
  · exact ⟨s.harts, if_neg hd, fun h => ⟨rfl, rfl⟩, fun h => absurd h hd⟩

/-- A channel whose chain a refused pass has ended. -/
def Channel.refusedWith (code : BitVec 4) (x : Channel) : Channel :=
  { x with state := code, set := none, next := none, shadow := none, posDesc := 0, posRow := 0 }

/-- A chain that serves no order ends with a code of 7 or more: its channel's state and position, and its event. -/
theorem State.endChain_refused {s : State} {c : Fin 32} {code : BitVec 4} (hcode : 7 ≤ code.toNat)
    (ho : (s.chan c).order = none) :
    s.endChain c code 0 = (s.modCh c (Channel.refusedWith code)).driftEvent c := by
  have h3 : code ≠ 3 := by rintro rfl; exact absurd hcode (by decide)
  have hnote : ∀ u : State, u.noteMarked c code = u := fun u => by
    unfold State.noteMarked
    split
    · split
      · exact if_neg h3
      · rfl
    · rfl
  have horder : ∀ u : State, (u.chan c).order = none → u.chainOrder c = u := fun u hu => by
    simp only [State.chainOrder, hu]
  obtain ⟨harts, hev, -, -⟩ := (s.modCh c (Channel.refusedWith code)).driftEvent_spec c
  have hkeep : (((s.modCh c (Channel.refusedWith code)).driftEvent c).chan c).order = none := by
    rw [hev]
    exact (congrArg Channel.order (State.modCh_chan s c _)).trans ho
  simp only [State.endChain, if_pos hcode, hnote]
  exact horder _ hkeep

/-- The set of a refused pass retires at once and ends its chain. -/
theorem State.retireSet_refused {s : State} {c : Fin 32} {code : BitVec 4} (hcode : 7 ≤ code.toNat)
    (hset : (s.chan c).set = some { failCode := some code }) (hstate : (s.chan c).state = 1)
    (hhalt : (s.chan c).halting = false) (hstop : (s.chan c).stopping = false) (ho : (s.chan c).order = none) :
    (s.retireSet c 1).drive c = (s.modCh c (Channel.refusedWith code)).driftEvent c := by
  have hne : code ≠ 1 := by rintro rfl; exact absurd hcode (by decide)
  have hretire : s.retireSet c 1 = s.endChain c code 0 := by
    simp [State.retireSet, hset, hhalt, hstop, hstate, State.raiseFlags_empty]
  obtain ⟨harts, hev, -, -⟩ := (s.modCh c (Channel.refusedWith code)).driftEvent_spec c
  rw [hretire, State.endChain_refused hcode ho]
  refine State.drive_of_not_current (State.current_of_not_running ?_)
  rw [hev]
  exact fun h => hne ((congrArg Channel.state (State.modCh_chan s c (Channel.refusedWith code))).symm.trans h)

/-- A pass that the check refuses ends its chain with the code, whatever the registers of the readers hold. -/
theorem State.startPass_ends {s : State} {c : Fin 32} {b : Bases} {st : DriftSet} {code : BitVec 4} {p : Bool}
    (hcached : (s.chan c).cached = some st) (hhalt : (s.chan c).halting = false) (hstop : (s.chan c).stopping = false)
    (ho : (s.chan c).order = none) (hcode : 7 ≤ code.toNat)
    (hcheck : (s.passBegun c b).checkDescs c { s.chan c with bases := b, version := none } (s.chan c).firstLen 0
      (s.chan c).persist st.descs = ([], some code, p)) {u : State} {regs : Vector DriftRegs 17}
    (hu : u = { s.startPass c b with drf := { (s.startPass c b).drf with regs := regs } }) :
    passRefused c code s ((u.retireSet c 1).drive c) ∧ ((u.retireSet c 1).drive c).drf.regs = regs ∧
      ∀ q, ((u.retireSet c 1).drive c).canAct q = s.canAct q := by
  have hp := State.startPass_refused hcached hcheck
  have hself : u.chan c = { s.chan c with
      state := 1, bases := b, shadow := none, cached := none, marked := false, set := some { failCode := some code } } := by
    have h : u.chan c = (s.startPass c b).chan c := by rw [hu]; rfl
    rw [h, hp, State.modCh_chan, State.modCh_chan]
  have hother : ∀ d, d ≠ c → u.chan d = s.chan d := fun d hd => by
    have h : u.chan d = (s.startPass c b).chan d := by rw [hu]; rfl
    rw [h, hp, State.modCh_chan_ne _ _ hd, State.modCh_chan_ne _ _ hd]
  have hend := State.retireSet_refused (s := u) (c := c) hcode (by rw [hself]) (by rw [hself]) (by rw [hself]; exact hhalt)
    (by rw [hself]; exact hstop) (by rw [hself]; exact ho)
  have hframe : u.harts = s.harts ∧ u.hods = s.hods ∧ u.powered = s.powered ∧ u.ice = s.ice ∧ u.tiles = s.tiles ∧
      u.drf.regs = regs := by rw [hu, hp]; exact ⟨rfl, rfl, rfl, rfl, rfl, rfl⟩
  obtain ⟨hharts, hhods, hpow, hice, htiles, hregs⟩ := hframe
  obtain ⟨harts, hev, hidle, hbit⟩ := (u.modCh c (Channel.refusedWith code)).driftEvent_spec c
  have hchan : (u.modCh c (Channel.refusedWith code)).chan c = Channel.refusedWith code (u.chan c) := State.modCh_chan u c _
  have hhart : ∀ h, (u.modCh c (Channel.refusedWith code)).hart h = s.hart h := fun h => congrArg (·.get h) hharts
  have howner : ((u.modCh c (Channel.refusedWith code)).chan c).owner = (s.chan c).owner := by
    rw [hchan, hself]; rfl
  have hnew : ∀ d, ((u.retireSet c 1).drive c).chan d = (u.modCh c (Channel.refusedWith code)).chan d := fun d => by
    rw [hend, hev]; rfl
  rw [howner, hhart] at hbit
  refine ⟨⟨?_, ?_, ?_, ?_, ?_, ?_, ?_, ?_, ?_, fun d hd => ?_, fun hd => ?_⟩, ?_, fun q => ?_⟩
  · rw [hnew, hchan]; rfl
  · rw [hnew, hchan]; rfl
  · rw [hnew, hchan]; rfl
  · rw [hnew, hchan]; rfl
  · rw [hnew, hchan, hself]; rfl
  · rw [hnew, hchan]; rfl
  · rw [hend, hev]; exact congrArg Icefield.sb hice
  · rw [hend, hev]; exact congrArg Icefield.cells hice
  · rw [hend, hev]; exact htiles
  · rw [hnew, State.modCh_chan_ne _ _ hd, hother d hd]
  · rw [hend, hev]; exact hbit hd
  · rw [hend, hev]; exact hregs
  · rw [hend, hev]
    have hhalts : ∀ h, (harts.get h).halted = (s.hart h).halted := fun h =>
      (hidle h).1.trans (congrArg HartState.halted (hhart h))
    have hwaits : ∀ h, (harts.get h).wait = (s.hart h).wait := fun h =>
      (hidle h).2.trans (congrArg HartState.wait (hhart h))
    exact State.canAct_congr (t := { u.modCh c (Channel.refusedWith code) with harts := harts }) hpow hhods hhalts hwaits q

/-! ## The statement -/

/-- The bases of a shadow start a pass of an armed channel (R352). -/
theorem exec_shadowEffect {s : State} {c : Fin 32} {b : Bases} (hp : s.powered = true) (h4 : (s.chan c).state = 4)
    (hsh : (s.chan c).shadow = some b) :
    exec (.shadowEffect c) s = .next (((s.startPass c b).retireSet c 1).drive c).pruneCycles := by
  have h : s.shadowEffect c = ((s.startPass c b).retireSet c 1).drive c := by simp [State.shadowEffect, hsh, h4, hp]
  exact congrArg _ ((if_pos hp).trans (congrArg State.pruneCycles h))

theorem State.setRstat_rstat (s : State) (r : Reader) (k : BitVec 4) : ((s.setRstat r k).drf.regs.get r).rstat = k :=
  congrArg DriftRegs.rstat (vmod_get_same s.drf.regs r _)

theorem State.setRstat_eq (s : State) (r : Reader) (k : BitVec 4) :
    s.setRstat r k = { s with drf := { s.drf with regs := vmod s.drf.regs r fun g => { g with rstat := k } } } := rfl

theorem passRefused_pruneCycles {c : Fin 32} {code : BitVec 4} {s t : State} (h : passRefused c code s t) :
    passRefused c code s t.pruneCycles := h

theorem State.pruneCycles_regs (s : State) : s.pruneCycles.drf.regs = s.drf.regs := rfl

/-- Settles O33, part by part: accepted passes, the order of re-arms of one step, the other answers of REARM, and refused
passes. -/
theorem rearmStartsOrShadowsAPass : Obligations.RearmStartsOrShadowsAPass := by
  refine ⟨?_, fun q r c s hp hb hne => exec_drfRearm_pair hp hb hne c, ?_, ?_⟩
  · intro c b st p s hp hc h4 hcached hhalt hstop hdescs hid s1 hcheck hranges
    obtain ⟨hstarts, hrearm, hshadow, hact⟩ := State.startPass_waits hcached hdescs hid hcheck hranges
    refine ⟨fun r met hr hal ho hsh hb => ?_, fun hsh => ?_⟩
    · subst hb
      have h : s.rearm r c = (s.startPass c.toFin (s.basesOf r)).setRstat r 0 :=
        (State.rearm_armed hr (lt_driftCh_of_rearm hc c) ho hc h4 hsh).trans (hrearm r)
      exact ⟨_, exec_drfRearm_alone hr hal (by rw [h]; exact hact), by rw [h]; exact hstarts,
        by rw [h]; exact State.setRstat_rstat _ r 0⟩
    · refine ⟨_, exec_shadowEffect hp h4 hsh, ?_⟩
      rw [hshadow]
      exact hstarts
  · intro r c met st s hr hal
    have halone : ∀ t : State, s.rearm r c = t → (∀ q, t.canAct q = s.canAct q) →
        exec (.drfRearm r c met) s = .next t.pruneCycles :=
      fun t h hact => by rw [← h]; exact exec_drfRearm_alone hr hal (by rw [h]; exact hact)
    refine ⟨fun hch => ?_, fun hch ho => ?_, fun hch ho hc => ?_, fun hch ho hc => ⟨fun h => ?_, fun h => ?_⟩,
      fun hch ho hc h1 hper hset hend => ?_⟩
    · exact halone _ (State.rearm_noChannel hr hch) fun _ => rfl
    · exact halone _ (State.rearm_notOwner hr hch ho) fun _ => rfl
    · exact halone _ (State.rearm_unsupported hr hch ho hc) fun _ => rfl
    · exact halone _ (State.rearm_busy hr hch ho hc h) fun _ => rfl
    · exact halone _ (State.rearm_notArmed hr hch ho hc h) fun _ => rfl
    · have h := State.rearm_shadow hr hch ho hc h1 hper hset hend
      by_cases hsh : (s.chan c.toFin).shadow = none
      · rw [if_pos hsh] at h ⊢
        exact halone _ h fun _ => rfl
      · rw [if_neg hsh] at h ⊢
        exact halone _ h fun _ => rfl
  · intro c b st code p s hp hc h4 hcached hhalt hstop ho hcode s1 hcheck
    refine ⟨fun r met hr hal hown hsh hb => ?_, fun hsh => ?_⟩
    · subst hb
      have h := State.rearm_armed hr (lt_driftCh_of_rearm hc c) hown hc h4 hsh
      have hends := State.startPass_ends hcached hhalt hstop ho hcode hcheck
        (State.setRstat_eq (s.startPass c.toFin (s.basesOf r)) r 0)
      rw [← h] at hends
      obtain ⟨hrefused, hregs, hact⟩ := hends
      refine ⟨_, exec_drfRearm_alone hr hal hact, passRefused_pruneCycles hrefused, ?_⟩
      rw [State.pruneCycles_regs, hregs]
      exact State.setRstat_rstat _ r 0
    · have hends := State.startPass_ends hcached hhalt hstop ho hcode hcheck (u := s.startPass c.toFin b)
        (regs := (s.startPass c.toFin b).drf.regs) rfl
      exact ⟨_, exec_shadowEffect hp h4 hsh, passRefused_pruneCycles hends.1⟩

end Sys2Proof.Machine

/-! # Issue of Xcalad instructions -/

namespace Sys2Proof.Machine

/-- An instruction that passes decode joins its hart's queue, whose head then presents its ranges; the hart goes on (R130,
R133, R136). -/
theorem State.issue_accepted {s : State} {h : Hart} {x : XInstr} {k : XKind} (ha : s.canAct (Hart.reader h) = true)
    (hx : xcheck h (s.hart h).csr.mparam (s.hart h).csr.xarg ((s.hart h).xcScalar x) s.tiles x = .ok k)
    (hq : (s.hart h).vqueue.length < 4) :
    s.issue h x = (s.modHart h fun t =>
      { t with vqueue := t.vqueue ++ [t.entryOf x], pc := t.pc + 8, instret := t.instret + 1
               issued := t.issued + 1 }).presentHead h := by
  have hfull : ¬4 ≤ (s.hart h).vqueue.length := by omega
  simp [State.issue, ha, hfull, hx]

/-- An instruction that decode refuses traps its hart (R130, R406). -/
theorem State.issue_refused {s : State} {h : Hart} {x : XInstr} {code : Nat} (ha : s.canAct (Hart.reader h) = true)
    (hx : xcheck h (s.hart h).csr.mparam (s.hart h).csr.xarg ((s.hart h).xcScalar x) s.tiles x = .error code)
    (hq : (s.hart h).vqueue.length < 4) : s.issue h x = s.trap h 24 (BitVec.ofNat 32 code) := by
  have hfull : ¬4 ≤ (s.hart h).vqueue.length := by omega
  simp [State.issue, ha, hfull, hx]

/-- A full queue stalls the hart (R133). -/
theorem State.issue_full {s : State} {h : Hart} (x : XInstr) (hq : 4 ≤ (s.hart h).vqueue.length) : s.issue h x = s := by
  simp [State.issue, hq]

/-- Settles O3: the queue entry is the one that the hart's state gives, and presenting the head of the queue changes only
the entry's scoreboard number and the waiting accesses. -/
theorem xcaladInstructionEntersItsQueue : Obligations.XcaladInstructionEntersItsQueue := by
  intro c h x k s hc ha hx hq
  obtain ⟨l, sb, hp, hl, halloc⟩ := presentHead_spec (s.modHart h fun t =>
    { t with vqueue := t.vqueue ++ [t.entryOf x], pc := t.pc + 8, instret := t.instret + 1, issued := t.issued + 1 }) h
  refine ⟨_, (exec_issues c h x s hc).trans (congrArg _ (State.issue_accepted ha hx hq)), ?_⟩
  rw [hp]
  simp only [State.modHart_hart, List.map_append, List.map_cons, List.map_nil] at hl
  have hhart : ∀ (u : State) (f : Scoreboard → Scoreboard) (g : Hart), (u.modSb f).hart g = u.hart g := fun _ _ _ => rfl
  refine ⟨?_, ?_, ?_, ?_, ?_, ?_, ?_, ?_, ?_, ?_, ?_, fun g hg => ?_, rfl, halloc⟩
  all_goals simp only [hhart, State.modHart_hart]
  · exact hl
  · rw [State.modHart_hart_ne _ _ hg, State.modHart_hart_ne _ _ hg]

end Sys2Proof.Machine

/-! # The trap of an instruction that decode refuses -/

namespace Sys2Proof.Machine

/-- Stopping channels changes the drift engine alone. -/
theorem State.forEach_stopChannel (s : State) (l : List (Fin 32)) :
    ∃ d, s.forEach l State.stopChannel = { s with drf := d } := by
  unfold State.forEach
  induction l generalizing s with
  | nil => exact ⟨_, rfl⟩
  | cons c r ih =>
    obtain ⟨d, hd⟩ := ih (s.stopChannel c)
    exact ⟨d, hd⟩

/-- Changing some harts by an update that has its effect once changes no other hart and nothing else. -/
theorem State.forEach_modHart (s : State) (l : List Hart) (f : HartState → HartState) (hf : ∀ t, f (f t) = f t) :
    ∃ v, s.forEach l (fun s h => s.modHart h f) = { s with harts := v } ∧
      ∀ g, v.get g = s.hart g ∨ v.get g = f (s.hart g) := by
  unfold State.forEach
  induction l generalizing s with
  | nil => exact ⟨_, rfl, fun _ => .inl rfl⟩
  | cons h r ih =>
    obtain ⟨v, hv, hget⟩ := ih (s.modHart h f)
    refine ⟨v, hv, fun g => ?_⟩
    by_cases hg : g = h
    · subst hg
      have hvg := hget g
      rw [State.modHart_hart, hf, or_self] at hvg
      exact .inr hvg
    · rw [← State.modHart_hart_ne s f hg]
      exact hget g

/-- A hart whose extension call ends (R416). -/
def HartState.leaveCall (t : HartState) : HartState :=
  { t with mode := .m, halted := true, wait := if t.wait.inWindow then t.wait else .run }

theorem HartState.leaveCall_leaveCall (t : HartState) : t.leaveCall.leaveCall = t.leaveCall := by
  by_cases hw : t.wait.inWindow = true <;> simp [HartState.leaveCall, hw]

/-- The end of an extension call changes its harts, the drift engine, the sequencer, the hods and the lease queue alone. -/
theorem State.endCall_frame (s : State) (c : ExtCall) (st : BitVec 16) (ws : List Word) :
    ∃ (v : Vector HartState 16) (d : Drifts) (m : Mortar) (o : Hods) (q : List LeaseReq),
      s.endCall c st ws = { s with harts := v, drf := d, mortar := m, hods := o, leaseQ := q } ∧
        ∀ g, v.get g = s.hart g ∨ v.get g = (s.hart g).leaveCall := by
  unfold State.endCall
  generalize hds : List.map (fun (d : ExtCall) => if d.order == c.order then { d with ending := some (st, ws) } else d)
    s.hods.calls = calls
  obtain ⟨d, hd⟩ := State.forEach_stopChannel
    ({ s with hods := { s.hods with calls }, leaseQ := s.leaseQ ++ c.tiles.map fun t =>
        { who := mgmt, tile := t, hart := 0, mode := .free } } : State)
    (c.chans.filter fun k => (s.chan k).starter != some mgmt)
  obtain ⟨v, hv, hget⟩ := State.forEach_modHart
    (({ s with hods := { s.hods with calls }, drf := d, leaseQ := s.leaseQ ++ c.tiles.map fun t =>
        { who := mgmt, tile := t, hart := 0, mode := .free } } : State).stopCourses (readerIn c.harts))
    c.harts HartState.leaveCall HartState.leaveCall_leaveCall
  refine ⟨v, _, _, _, _, Eq.trans ?_ hv, hget⟩
  exact congrArg (fun u : State => (u.stopCourses (readerIn c.harts)).forEach c.harts
    fun s h => s.modHart h HartState.leaveCall) hd

/-- An exception takes its hart to the trap handler; when it ends an extension call, the hart is halted there too (R406,
R416). Tiles and Icefield stay as they are. -/
theorem State.trap_spec (s : State) (h : Hart) (cause : Nat) (tval : Word) :
    ((s.trap h cause tval).hart h = (s.hart h).takeTrap false cause tval ∨
      (s.trap h cause tval).hart h = ((s.hart h).takeTrap false cause tval).leaveCall) ∧
      (s.trap h cause tval).tiles = s.tiles ∧ (s.trap h cause tval).ice = s.ice := by
  have hnone : (s.modHart h (·.takeTrap false cause tval)).hart h = (s.hart h).takeTrap false cause tval :=
    State.modHart_hart s h _
  simp only [State.trap]
  split
  · unfold State.extFault
    split
    · exact ⟨.inl hnone, rfl, rfl⟩
    · next c _ =>
      dsimp only
      split
      · exact ⟨.inl hnone, rfl, rfl⟩
      · obtain ⟨v, d, m, o, q, heq, hget⟩ := State.endCall_frame (s.modHart h (·.takeTrap false cause tval)) c 0x0B
          [((s.modHart h (·.takeTrap false cause tval)).hart h).trap.mcause,
            ((s.modHart h (·.takeTrap false cause tval)).hart h).trap.mepc,
            ((s.modHart h (·.takeTrap false cause tval)).hart h).trap.mtval]
        rw [heq, ← hnone]
        exact ⟨hget h, rfl, rfl⟩
  · exact ⟨.inl hnone, rfl, rfl⟩

/-- Settles O4: the trap of decode's code, and a full queue. -/
theorem decodeFaultTrapsAndAFullQueueStalls : Obligations.DecodeFaultTrapsAndAFullQueueStalls := by
  refine ⟨fun c h x code s hc ha hx hq => ?_, fun c h x s hc hq => ?_⟩
  · obtain ⟨h1, h5⟩ := xcheck_code _ _ _ _ _ _ _ hx
    refine ⟨_, (exec_issues c h x s hc).trans (congrArg _ (State.issue_refused ha hx hq)), h1, h5, ?_⟩
    obtain ⟨hhart, htiles, hice⟩ := State.trap_spec s h 24 (BitVec.ofNat 32 code)
    rw [htiles, hice]
    obtain hh | hh := hhart <;>
    · rw [hh]
      exact ⟨rfl, rfl, rfl, rfl, rfl, rfl, rfl, rfl, rfl, rfl, rfl, rfl, rfl, rfl⟩
  · rw [exec_issues c h x s hc, State.issue_full x hq]

end Sys2Proof.Machine

/-! # Event waits, and reads that wait for retirement -/

namespace Sys2Proof.Machine

/-- A hart that can act is in a powered engine and does not wait. -/
theorem State.canAct_hart {s : State} {h : Hart} (ha : s.canAct (Hart.reader h) = true) :
    s.powered = true ∧ (s.hart h).wait = .run := by
  have hh : Reader.hart? (Hart.reader h) = some h := dif_pos h.isLt
  simp only [State.canAct, hh, Bool.and_eq_true, beq_iff_eq] at ha
  exact ⟨ha.1, ha.2.1.2⟩

/-- A command of a powered engine that acts on a condition. -/
theorem next_if_pos {c : Prop} [Decidable c] {s t : State} (hc : c) :
    (.next (if c then t else s) : Host.Outcome State Fault Refusal) = .next t := by
  rw [if_pos hc]

/-- WFI moves on and waits unless something wakes its hart (R412). -/
theorem State.wfi_eq (s : State) {h : Hart} (hrun : (s.hart h).wait = .run) :
    s.wfi h = s.modHart h fun t =>
      { t with pc := t.pc + 4, instret := t.instret + 1
               wait := if s.evpend h &&& t.csr.even ≠ 0 ∨ (t.csr.vfV = true ∧ t.trap.mieReg.getLsbD 16 = true) then .run
                       else .wfi } := by
  have hw := wakes_iff s h
  unfold State.wfi
  split
  · next hwake =>
    refine State.modHart_congr s h ?_
    simp only [id_eq]
    rw [if_pos (hw.mp hwake), ← hrun]
    rfl
  · next hwake =>
    refine State.modHart_congr s h ?_
    simp only
    rw [if_neg fun hc => hwake (hw.mpr hc)]
    rfl

/-- Settles O16: what wakes a hart is the condition of R412, at WFI and at WFI_WAKE. -/
theorem eventWaitAndItsEnd : Obligations.EventWaitAndItsEnd := by
  refine ⟨fun h s ha => ?_, fun h s hp hwait => ?_⟩
  · change Host.Outcome.next (if s.canAct (Hart.reader h) then (s.wfi h).pruneCycles else s) = _
    rw [if_pos ha, State.wfi_eq s (State.canAct_hart ha).2]
  · change Host.Outcome.next (if s.powered && (s.hart h).wait == .wfi && s.wakes h then _ else s) = _
    simp only [hp, hwait, beq_self_eq_true, Bool.true_and, wakes_iff]
    split <;> rfl

/-! ## Reads of CSRs -/

/-- A read of R129, R194 or R548 waits while an instruction of the hart has not retired (log entry 136), and otherwise gives
the CSR and ends the instruction. -/
theorem State.waitingRead_eq {s : State} {h : Hart} {num : BitVec 12} {v : Word} (ha : s.canAct (Hart.reader h) = true)
    (hnum : csrWaits num = true) (hv : s.engineCsr h num = some v) (rd : BitVec 5) :
    s.waitingRead h num rd = if (s.hart h).issued = (s.hart h).retired then
      s.modHart h fun t => { t.setX rd v with pc := t.pc + 4, instret := t.instret + 1 } else s := by
  simp only [State.waitingRead, HartState.readWaits, ha, hnum, hv, Bool.not_true, Bool.false_or, Bool.true_and, bne_iff_ne,
    Option.getD_some, ite_not]
  split
  · refine State.modHart_congr s h ?_
    simp only [HartState.setX]
    split <;> rfl
  · rfl

/-- The fields of the word of CSRRS rd, num, x0, for the two halves of the summary. -/
theorem csrReadWord_fields : ∀ (num : BitVec 12) (rd : BitVec 5), num = 0xCC0 ∨ num = 0xCC1 →
    let w := encI num 0 2 rd 0x73
    w.extractLsb' 0 2 = 3 ∧ ifield w 0 7 = 0x73 ∧ w.extractLsb' 20 12 = num ∧ iF3 w = 2 ∧ iRs1 w = 0 ∧ iRd w = rd := by
  rintro num rd (rfl | rfl) <;> revert rd <;> decide

/-- A half of the summary is read by any mode, and its read waits. -/
theorem csrRead_open (t : HartState) {num : BitVec 12} (hnum : num = 0xCC0 ∨ num = 0xCC1) :
    csrForbidden t.mode num false = false ∧ t.counterShut num = false ∧ csrWaits num = true := by
  obtain rfl | rfl := hnum <;> refine ⟨?_, ?_, rfl⟩ <;> simp [csrForbidden, HartState.counterShut]

/-- CSRRS rd, num, x0 reads a half of the summary, or waits (R129). -/
theorem State.executeBits_csrRead {s : State} {h : Hart} {num : BitVec 12} {v : Word} (hnum : num = 0xCC0 ∨ num = 0xCC1)
    (hv : s.engineCsr h num = some v) (rd : BitVec 5) (met : Word) :
    s.executeBits h (encI num 0 2 rd 0x73) met =
      if (s.hart h).issued = (s.hart h).retired then
        s.modHart h fun t => { t.setX rd v with pc := t.pc + 4, instret := t.instret + 1 }
      else s := by
  obtain ⟨h2, h7, hn, hf3, hrs, hrd⟩ := csrReadWord_fields num rd hnum
  obtain ⟨hallowed, hcounter, hwaits⟩ := csrRead_open (s.hart h) hnum
  have hread : s.readCsr h num = some v := by simp only [State.readCsr, hv]
  have hcsr : s.executeBits h (encI num 0 2 rd 0x73) met = s.csrInstr h (encI num 0 2 rd 0x73) 4 met := by
    rw [State.executeBits, if_pos h2, State.execute, h7]
    simp only [hf3]
    rfl
  have hset : (2 % 4 == 1) = false := rfl
  rw [hcsr]
  simp only [State.csrInstr, hn, hf3, hrs, hrd, hset, bne_self_eq_false, hallowed, hcounter, hread, HartState.readWaits, hwaits,
    Bool.or_self, Bool.false_eq_true, if_false, Bool.true_and, bne_iff_ne, ite_not, Bool.false_and, Bool.not_false]
  split
  · refine State.modHart_congr s h ?_
    simp only [HartState.setX]
    split <;> rfl
  · rfl

/-- Settles O19: the registers that wait are those of `csrWaits`, and each read gives the register that its number names. -/
theorem summaryReadsWaitForRetirement : Obligations.SummaryReadsWaitForRetirement := by
  have hsum : ∀ (s : State) (h : Hart) (high : Bool), s.engineCsr h (if high then 0xCC1 else 0xCC0) =
      some (if high then (s.hart h).summary.extractLsb' 32 32 else (s.hart h).summary.extractLsb' 0 32) := by
    intro s h high
    cases high <;> rfl
  refine ⟨fun h high rd s ha => ?_, fun h high rd met s ha => ?_⟩
  · have hp := (State.canAct_hart ha).1
    have hS : exec (.summaryRead h high rd) s = _ := (next_if_pos hp).trans (congrArg _ (State.waitingRead_eq ha (by cases high <;> rfl) (hsum s h high) rd))
    have hF : exec (.vflagsRead h rd) s = _ := (next_if_pos hp).trans (congrArg _ (State.waitingRead_eq (num := 0x8C5) ha rfl rfl rd))
    have hQ : exec (.mquotaRead h rd) s = _ := (next_if_pos hp).trans (congrArg _ (State.waitingRead_eq (num := 0xCC7) ha rfl rfl rd))
    refine ⟨fun heq => ?_, fun hne => ?_⟩
    · simp only [if_pos heq] at hS hF hQ
      refine ⟨hS.trans ?_, hF.trans ?_, hQ.trans ?_⟩ <;> exact congrArg _ (State.modHart_congr s h rfl)
    · simp only [if_neg hne] at hS hF hQ
      exact ⟨hS, hF, hQ⟩
  · have hnum : (if high then 0xCC1 else 0xCC0 : BitVec 12) = 0xCC0 ∨ (if high then 0xCC1 else 0xCC0 : BitVec 12) = 0xCC1 := by
      cases high <;> simp
    have hbits := State.executeBits_csrRead hnum (hsum s h high) rd met
    have hexec : exec (.rv32Instruction h (some (encI (if high then 0xCC1 else 0xCC0) 0 2 rd 0x73)) met) s =
        .next (s.executeBits h (encI (if high then 0xCC1 else 0xCC0) 0 2 rd 0x73) met).pruneCycles := by
      have h7 : (encI (if high then 0xCC1 else 0xCC0) 0 2 rd 0x73).extractLsb' 0 7 ≠ 0x3F := fun e => by
        have hf := (csrReadWord_fields _ rd hnum).2.1
        rw [ifield, e] at hf
        exact absurd hf (by decide)
      change Host.Outcome.next (if !s.canAct (Hart.reader h) then s else if _ then s else _) = _
      rw [ha, if_neg h7]
      rfl
    refine ⟨fun heq => hexec.trans ?_, fun hne => hexec.trans ?_⟩
    · rw [hbits, if_pos heq]
      exact congrArg (fun u : State => Host.Outcome.next u.pruneCycles) (State.modHart_congr s h rfl)
    · rw [hbits, if_neg hne]

end Sys2Proof.Machine

/-! # Scalar loads and stores -/

namespace Sys2Proof.Machine

/-- Ending reservations changes reservations of other harts alone. -/
theorem State.snoop_frame (s : State) (h : Hart) (a : Word) :
    ∃ v, s.snoop h a = { s with harts := v } ∧ v.get h = s.hart h := by
  unfold State.snoop State.forEach
  have hl : ∀ g ∈ (fins 16).filter fun g => g != h, g ≠ h := fun g hg => by simpa using (List.mem_filter.mp hg).2
  generalize (fins 16).filter (fun g => g != h) = l at hl
  induction l generalizing s with
  | nil => exact ⟨_, rfl, rfl⟩
  | cons g r ih =>
    obtain ⟨v, hv, hget⟩ := ih (s.modHart g fun t =>
      { t with reservation := t.reservation.filter fun r => r.extractLsb' 2 30 != a.extractLsb' 2 30 })
      fun k hk => hl k (List.mem_cons_of_mem g hk)
    refine ⟨v, hv, hget.trans (State.modHart_hart_ne _ _ fun e => hl g List.mem_cons_self e.symm)⟩

/-- A clean word of the local store is read as it was written (R404). -/
theorem State.readLs_clean {s : State} {i : Nat} {d : Word} (hd : sget 0 s.ks.store i = encodeClean d) (who : Src) :
    s.readLs who i = (s, some d) := by
  simp only [State.readLs, hd, classify_encodeClean, cwData_encodeClean]

/-- An aligned load of a clean word of the local store that the PMP allows (R401, R404). -/
theorem State.load_store_word {s : State} {h : Hart} {addr d : Word} (halign : addr.toNat % 4 = 0)
    (hlow : addr.toNat < 0x80000) (hpmp : (s.hart h).mayData addr.toNat 4 0 = true)
    (hd : sget 0 s.ks.store (addr.toNat / 4) = encodeClean d) (rd : BitVec 5) :
    s.load h .lw rd addr 4 = s.modHart h fun t => { t.setX rd d with pc := t.pc + 4, instret := t.instret + 1 } := by
  have hstore : inStore addr = true := decide_eq_true hlow
  have hbyte : ¬addr.toNat % loadSize .lw ≠ 0 := fun hne => hne halign
  have hvalue : loadValue .lw d 0 = d := by simp [loadValue]
  rw [State.load, if_neg hbyte, show loadSize .lw = 4 from rfl, hpmp]
  simp only [Bool.not_true, Bool.false_eq_true, if_false, hstore, if_true, State.readLs_clean hd, halign, hvalue]
  refine State.modHart_congr s h ?_
  simp only [HartState.setX]
  split <;> rfl

/-- An aligned store of a word of the local store that the PMP allows (R401, R404). -/
theorem State.store_store_word {s : State} {h : Hart} {addr : Word} (halign : addr.toNat % 4 = 0)
    (hlow : addr.toNat < 0x80000) (hpmp : (s.hart h).mayData addr.toNat 4 1 = true) (val met : Word) :
    s.store h .sw addr val 4 met = ((s.writeLs (addr.toNat / 4) val).snoop h addr).done h 4 := by
  have hstore : inStore addr = true := decide_eq_true hlow
  have hbyte : ¬addr.toNat % storeSize .sw ≠ 0 := fun hne => hne halign
  have hmask : storeMask .sw 0 = 0xF := rfl
  rw [State.store, if_neg hbyte, show storeSize .sw = 4 from rfl, hpmp]
  simp [hstore, halign, hmask, State.mergeLs]

/-- An address of the Icefield window is none of the local store and of the engine registers (R401). -/
theorem windowAddress_elsewhere {addr : Word} (hw : addr.extractLsb' 28 4 = 1) :
    inWindow addr = true ∧ inStore addr = false ∧ regOffset addr = none := by
  have hnat : addr.toNat / 2 ^ 28 % 2 ^ 4 = 1 := by
    have hn := congrArg BitVec.toNat hw
    simpa [BitVec.extractLsb'_toNat, Nat.shiftRight_eq_div_pow] using hn
  refine ⟨by simp [inWindow, hw], decide_eq_false fun hlt => ?_, if_neg fun hreg => ?_⟩
  · omega
  · have hn := congrArg BitVec.toNat hreg
    simp only [BitVec.extractLsb'_toNat, Nat.shiftRight_eq_div_pow] at hn
    change addr.toNat / 2 ^ 16 % 2 ^ 16 = 0x100 at hn
    omega

/-- An aligned load of the Icefield window that the PMP allows presents its word (R137). -/
theorem State.load_window_word {s : State} {h : Hart} {addr : Word} (halign : addr.toNat % 4 = 0)
    (hw : addr.extractLsb' 28 4 = 1) (hpmp : (s.hart h).mayData addr.toNat 4 0 = true) (rd : BitVec 5) :
    s.load h .lw rd addr 4 = s.presentScalar h addr false fun id => .load .lw rd addr id 4 := by
  obtain ⟨hwin, hstore, hreg⟩ := windowAddress_elsewhere hw
  have hbyte : ¬addr.toNat % loadSize .lw ≠ 0 := fun hne => hne halign
  rw [State.load, if_neg hbyte, show loadSize .lw = 4 from rfl, hpmp]
  simp [hstore, hreg, hwin]

/-- Settles O20: the word of the local store that the address names, and the window word that it presents. -/
theorem scalarAccessesReachTheirMemory : Obligations.ScalarAccessesReachTheirMemory := by
  refine ⟨fun h rd addr val d s ha hcanon halign hlow => ⟨fun hpmp hd => ?_, fun hpmp => ?_⟩,
    fun h rd addr s ha halign hw hpmp hq => ?_⟩
  · exact (next_if_pos ha).trans (by rw [State.load_store_word halign hlow hpmp hd])
  · obtain ⟨v, hsnoop, hget⟩ := State.snoop_frame (s.writeLs (addr.toNat / 4) val) h addr
    refine ⟨_, next_if_pos ha, ?_⟩
    rw [State.store_store_word halign hlow hpmp val 0, hsnoop]
    have hhart : ∀ (u : State) (f : HartState → HartState), ((u.done h 4 f).pruneCycles).hart h =
        { f (u.hart h) with pc := (u.hart h).pc + 4, instret := (f (u.hart h)).instret + 1 } :=
      fun u f => State.modHart_hart u h _
    refine ⟨fun i => sget_sset 0 s.ks.store (addr.toNat / 4) i (encodeClean val) hcanon, ?_, ?_, rfl, rfl⟩
    · rw [hhart]
      exact congrArg (fun t : HartState => t.pc + 4) hget
    · rw [hhart]
      exact (congrArg HartState.x hget : (v.get h).x = (s.hart h).x)
  · refine ⟨_, next_if_pos ha, ?_⟩
    have hload : s.load h .lw rd addr 4 = ((s.present (.scalar h)
        [{ lo := windowWord addr, hi := windowWord addr, write := false }]).1.modHart h fun t =>
          { t with wait := .load .lw rd addr s.ice.sb.nextId 4 }) := by
      rw [State.load_window_word halign hw hpmp rd, State.presentScalar, hq]
      rfl
    have hhart : ∀ (u : State) (f : HartState → HartState), (u.modHart h f).pruneCycles.hart h = f (u.hart h) :=
      fun u f => State.modHart_hart u h f
    rw [hload, hhart]
    exact ⟨rfl, rfl, rfl, rfl⟩

end Sys2Proof.Machine

/-! # A drift's access whose first read starts a recovery -/

namespace Sys2Proof.Machine

/-- An engine with a course pending, in which channel 0 runs an index drift from word 0 of floe 0; the set's access waits at
the scoreboard, and the stored word reads as uncorrectable. -/
def driftMeetsBadWord : State :=
  { State.reset with
    boot := { stage := 9, ready := true }
    mortar := { pend := some (0, mgmt), opCredits := 4 }
    drf := { State.reset.drf with
      ch := vset State.reset.drf.ch 0
        { state := 1, set := some { sb := some 0, descs := [{ ver := 3, dir := 3, isrc := true, ncol := 1, nrow := 1 }] } } }
    ice := { State.reset.ice with
      floes := vset State.reset.ice.floes 0 { state := .live, size := 1, res := 1 }
      cells := [(0, codeword (checkBits 0 ^^^ 0x011) 0)]
      sb := { waiting := [{ id := 0, who := .drift 0, ranges := [{ lo := 0, hi := 0, write := false }] }], nextId := 1 } } }

theorem driftMeetsBadWord_next : (driftMeetsBadWord.orderTogether 0).nextAccess =
    some { id := 0, who := .drift 0, ranges := [{ lo := 0, hi := 0, write := false }] } := by decide +kernel

/-- The channel reads its word as soon as its access is allocated, and the recovery that this read starts drops the pending
course (R247, R306, R470). -/
theorem driftMeetsBadWord_drops : (match exec (.sbAllocate 0) driftMeetsBadWord with
    | .next t => t.mortar.pend | _ => some (0, mgmt)) = none := by decide +kernel

/-- Refutes O24: the second part claims that the allocation of a drift's access leaves the sequencer and the ports as they
were, but the channel goes on in the same step, and a word that it reads may be uncorrectable, which starts a recovery: the
recovery drops the pending course. -/
theorem not_scoreboardAllocatesAndRetires : ¬ Obligations.ScoreboardAllocatesAndRetires := by
  intro h
  obtain ⟨-, hgoes, -⟩ := h
  obtain ⟨-, hdrift, -⟩ := hgoes _ 0 driftMeetsBadWord rfl driftMeetsBadWord_next
  obtain ⟨t, hexec, -, -, hmortar, -⟩ := hdrift 0 rfl
  have hdrops := driftMeetsBadWord_drops
  rw [hexec] at hdrops
  have hkept : t.mortar.pend = some (0, mgmt) := by rw [hmortar]; rfl
  exact absurd (hkept.symm.trans hdrops) (by decide)

end Sys2Proof.Machine

/-! # Acceptance by the vector unit -/

namespace Sys2Proof.Machine

/-! ## What acceptance changes -/

/-- An advance moves the step counter and with it the clock, the observation unit and the stage of start-up alone. -/
theorem State.advanceTo_stage (s : State) (n : Nat) :
    ∃ t o b, s.advanceTo n = { s with
      cycle := s.cycle + (n - s.cycle), time := t, obs := o, boot := { s.boot with stage := b } } := by
  obtain ⟨o, ho⟩ := s.advanceTo_frame n
  rw [ho]
  by_cases hn : n - s.cycle = 0
  · exact ⟨_, _, s.boot.stage, by rw [if_pos hn]⟩
  · exact ⟨_, _, s.boot.tick.stage, by rw [if_neg hn]; rfl⟩

/-- Occupying the vector unit moves the step counter and sets the last occupied step (R138). -/
theorem State.occupy_frame (s : State) (n k : Nat) :
    ∃ t o b, s.occupy n k = { s with
      cycle := s.cycle + (n - s.cycle), time := t, obs := o, boot := { s.boot with stage := b }
      vu := { s.vu with busyUntil := n + k - 1 } } := by
  obtain ⟨t, o, b, ha⟩ := s.advanceTo_stage n
  unfold State.occupy
  rw [ha]
  exact ⟨t, _, b, rfl⟩

/-- Counting an acceptance changes the observation unit alone. -/
theorem State.accepted_frame (s : State) (n : Nat) : ∃ o, s.accepted n = { s with obs := o } := by
  unfold State.accepted
  by_cases hodd : n % 2 = 1
  · exact ⟨_, if_pos hodd⟩
  · exact ⟨_, if_neg hodd⟩

/-- Counting an event changes the observation unit alone. -/
theorem State.countEvent_frame (s : State) (a : BitVec 8) (n : Nat) : ∃ o, s.countEvent a n = { s with obs := o } := ⟨_, rfl⟩

/-- Requesting Moraine lines changes the lines in transfer alone (R362). -/
theorem State.requestLines_frame (s : State) (id : Nat) (x : XIn) :
    ∃ l, s.requestLines id x = { s with ice := { s.ice with morLines := l } } := by
  unfold State.requestLines
  by_cases hw : (x.k.icefieldWrites && !x.adds) = true
  · exact ⟨_, if_pos hw⟩
  · exact ⟨_, if_neg hw⟩

theorem vmod_vmod {α : Type} {n : Nat} (v : Vector α n) (i : Fin n) (f g : α → α) :
    vmod (vmod v i f) i g = vmod v i fun x => g (f x) := by
  apply Vector.ext
  intro j hj
  have hl := vmod_get (vmod v i f) i ⟨j, hj⟩ g
  have hr := vmod_get v i ⟨j, hj⟩ fun x => g (f x)
  have hi := vmod_get v i ⟨j, hj⟩ f
  rw [vmod_get_same] at hl
  refine hl.trans (Eq.trans ?_ hr.symm)
  split
  · rfl
  · next hne => rw [hi, if_neg hne]

/-- A queue entry before it has presented its ranges. -/
def XEntry.unpresented (e : XEntry) : XEntry := { e with sb := none }

/-- Presenting the head of a vector queue gives its entry a number and adds to the waiting accesses (R136). -/
theorem State.presentHead_frame (s : State) (h : Hart) :
    ∃ l sb, s.presentHead h = { s with harts := vmod s.harts h fun t => { t with vqueue := l }, ice := { s.ice with sb := sb } } ∧
      l.map XEntry.unpresented = (s.hart h).vqueue.map XEntry.unpresented ∧ sb.alloc = s.ice.sb.alloc := by
  have hsame : s = { s with harts := vmod s.harts h fun t => { t with vqueue := (s.hart h).vqueue }
                            ice := { s.ice with sb := s.ice.sb } } := by
    rw [vmod_eq_self s.harts h (fun t => { t with vqueue := (s.hart h).vqueue }) rfl]
  unfold State.presentHead
  cases hq : (s.hart h).vqueue with
  | nil => exact ⟨_, _, hsame, by rw [hq], rfl⟩
  | cons e r =>
    dsimp only
    split
    · split
      · exact ⟨_, _, hsame, by rw [hq], rfl⟩
      · exact ⟨{ e with sb := some s.ice.sb.nextId } :: r, _, rfl, rfl, rfl⟩
    · exact ⟨_, _, hsame, by rw [hq], rfl⟩

/-- The accepted instruction that a queue entry becomes (R134, R138, R139). -/
def State.acceptedAs (s : State) (h : Hart) (e : XEntry) : Inflight :=
  let f := s.inflightOf h e
  let x := s.xinOf f
  let od := x.timing s
  { f with
    accepted := s.nextFree, occ := od.1, done := s.nextFree + od.1 - 1 + od.2, waitFor := s.ice.sb.alloc.map (·.id)
    groups := s.activeGroups
    mor := !(s.morAddrs e.floe (if x.k.icefield then windowWords x.touchWords else [])).isEmpty
    morIssued := x.k.icefieldWrites && !x.adds }

/-- The scoreboard once the access of an entry is allocated (R136). -/
def Scoreboard.allocated (sb : Scoreboard) (id : Option Nat) : List Access :=
  match id with
  | some i => sb.alloc ++ sb.waiting.filter fun a => a.id == i
  | none => sb.alloc

/-- The steps of an acceptance that occupy the vector unit and put the instruction in it (R134, R138). -/
def State.enterUnit (s : State) (h : Hart) (e : XEntry) : State :=
  let u := s.occupy s.nextFree ((s.xinOf (s.inflightOf h e)).timing s).1
  { u with vu := { u.vu with rr := h + 1, inflight := u.vu.inflight ++ [s.acceptedAs h e] } }

/-- The scoreboard allocates the access of an accepted instruction, and its Moraine lines are requested (R136, R362). -/
def State.takeAccess (s : State) (e : XEntry) (x : XIn) : State :=
  match e.sb with
  | some id => (s.allocate id).requestLines id x
  | none => s

/-- The head of a hart's queue leaves it, is counted, and the next one presents its ranges (R136). -/
def State.takeNext (s : State) (h : Hart) (x : XIn) : State :=
  let s := s.modHart h fun t => { t with vqueue := t.vqueue.drop 1 }
  (((s.accepted 1).countEvent 0x04 (x.conflictSteps s)).countEvent 0x05 (x.skipped (Config.lanes s.cfg))).presentHead h

theorem State.accept_eq (s : State) (h : Hart) (e : XEntry) :
    s.accept h e = ((s.enterUnit h e).takeAccess e (s.xinOf (s.inflightOf h e))).takeNext h (s.xinOf (s.inflightOf h e)) := rfl

/-- Entering the unit moves the step counter and adds to the instructions in flight. -/
theorem State.enterUnit_frame (s : State) (h : Hart) (e : XEntry) :
    ∃ t o b, s.enterUnit h e = { s with
      cycle := s.cycle + (s.nextFree - s.cycle), time := t, obs := o, boot := { s.boot with stage := b }
      vu := { s.vu with
        rr := h + 1, inflight := s.vu.inflight ++ [s.acceptedAs h e]
        busyUntil := s.nextFree + ((s.xinOf (s.inflightOf h e)).timing s).1 - 1 } } := by
  obtain ⟨t, o, b, hocc⟩ := s.occupy_frame s.nextFree ((s.xinOf (s.inflightOf h e)).timing s).1
  unfold State.enterUnit
  exact ⟨t, o, b, by rw [hocc]⟩

/-- Taking an access changes the scoreboard and the Moraine lines alone. -/
theorem State.takeAccess_frame (s : State) (e : XEntry) (x : XIn) :
    ∃ sb m, s.takeAccess e x = { s with ice := { s.ice with sb := sb, morLines := m } } ∧
      sb.alloc = s.ice.sb.allocated e.sb := by
  unfold State.takeAccess
  cases e.sb with
  | none => exact ⟨s.ice.sb, s.ice.morLines, rfl, rfl⟩
  | some id =>
    obtain ⟨m, hm⟩ := (s.allocate id).requestLines_frame id x
    exact ⟨(s.allocate id).ice.sb, m, hm, rfl⟩

/-- Taking the head of a queue changes that queue, the observation unit and the waiting accesses alone. -/
theorem State.takeNext_frame (s : State) (h : Hart) (x : XIn) :
    ∃ l sb o, s.takeNext h x =
        { s with harts := vmod s.harts h fun t => { t with vqueue := l }, obs := o, ice := { s.ice with sb := sb } } ∧
      l.map XEntry.unpresented = ((s.hart h).vqueue.drop 1).map XEntry.unpresented ∧ sb.alloc = s.ice.sb.alloc := by
  obtain ⟨o, ho⟩ := (s.modHart h fun t => { t with vqueue := t.vqueue.drop 1 }).accepted_frame 1
  unfold State.takeNext
  dsimp only
  rw [ho]
  obtain ⟨o', ho'⟩ := State.countEvent_frame { s.modHart h fun t => { t with vqueue := t.vqueue.drop 1 } with obs := o } 0x04
    (x.conflictSteps (s.modHart h fun t => { t with vqueue := t.vqueue.drop 1 }))
  rw [ho']
  obtain ⟨o'', ho''⟩ := State.countEvent_frame { s.modHart h fun t => { t with vqueue := t.vqueue.drop 1 } with obs := o' } 0x05
    (x.skipped (Config.lanes s.cfg))
  obtain ⟨l, sb, hp, hl, hsb⟩ :=
    State.presentHead_frame { s.modHart h fun t => { t with vqueue := t.vqueue.drop 1 } with obs := o'' } h
  refine ⟨l, sb, o'', (congrArg (State.presentHead · h) ho'').trans (hp.trans ?_), hl.trans ?_, hsb⟩
  · exact congrArg (fun v => ({ s with harts := v, obs := o'', ice := { s.ice with sb := sb } } : State))
      (vmod_vmod s.harts h (fun t => { t with vqueue := t.vqueue.drop 1 }) fun t => { t with vqueue := l })
  · exact congrArg (fun t : HartState => t.vqueue.map XEntry.unpresented) (State.modHart_hart s h _)

/-- Acceptance moves the step counter, takes the head off its hart's queue into the vector unit, allocates its access and
presents the next head's ranges; it changes nothing else but the clock, the observation unit and Moraine lines. -/
theorem State.accept_spec (s : State) (h : Hart) (e : XEntry) :
    ∃ l sb t o b m, s.accept h e = { s with
        cycle := s.cycle + (s.nextFree - s.cycle), time := t, obs := o, boot := { s.boot with stage := b }
        harts := vmod s.harts h fun t => { t with vqueue := l }
        vu := { s.vu with
          rr := h + 1, inflight := s.vu.inflight ++ [s.acceptedAs h e]
          busyUntil := s.nextFree + ((s.xinOf (s.inflightOf h e)).timing s).1 - 1 }
        ice := { s.ice with sb := sb, morLines := m } } ∧
      l.map XEntry.unpresented = ((s.hart h).vqueue.drop 1).map XEntry.unpresented ∧
      sb.alloc = s.ice.sb.allocated e.sb := by
  obtain ⟨t, o, b, hu⟩ := s.enterUnit_frame h e
  obtain ⟨sb, m, ha, hsb⟩ := (s.enterUnit h e).takeAccess_frame e (s.xinOf (s.inflightOf h e))
  obtain ⟨l, sb', o', hn, hl, hsb'⟩ :=
    ((s.enterUnit h e).takeAccess e (s.xinOf (s.inflightOf h e))).takeNext_frame h (s.xinOf (s.inflightOf h e))
  rw [State.accept_eq]
  rw [ha, hu] at hn hl hsb'
  rw [hu] at hsb
  refine ⟨l, sb', t, o', b, m, ?_, hl, hsb'.trans hsb⟩
  rw [ha, hu, hn]

/-! ## The turn of the harts (R134) -/

/-- The first element of a list, in order, that a function takes. -/
theorem findSome?_of_first {α β : Type} (f : α → Option β) (l : List α) (k : Nat) (hk : k < l.length) {b : β}
    (hb : f l[k] = some b) (hn : ∀ i, (hi : i < k) → f l[i] = none) : l.findSome? f = some b := by
  have hl : l = l.take k ++ l[k] :: l.drop (k + 1) := by rw [← List.drop_eq_getElem_cons hk, List.take_append_drop]
  refine List.findSome?_eq_some_iff.2 ⟨l.take k, l[k], l.drop (k + 1), hl, hb, fun a ha => ?_⟩
  obtain ⟨i, hi, rfl⟩ := List.mem_take_iff_getElem.1 ha
  exact hn i (by omega)

/-- The vector unit accepts the head of the first ready hart in cyclic order. -/
theorem State.vectorAccept_eq (s : State) (h : Hart) (k : Nat) (e : XEntry) (hm : s.mayAccept = true) (hk : k < 16)
    (hh : h.val = (s.vu.rr.val + k) % 16)
    (hfirst : ∀ (i : Nat) (g : Hart), i < k → g.val = (s.vu.rr.val + i) % 16 → s.readyHead g = none)
    (hready : s.readyHead h = some e) : s.vectorAccept = s.accept h e := by
  have hlen : k < (hartsFrom s.vu.rr).length := by simpa [hartsFrom] using hk
  have hturn : (hartsFrom s.vu.rr).findSome? (fun h => (s.readyHead h).map fun e => (h, e)) = some (h, e) := by
    refine findSome?_of_first _ _ k hlen ?_ fun i hi => ?_
    · have hg : (hartsFrom s.vu.rr)[k] = h := Fin.ext (by simp [hartsFrom, hh])
      rw [hg, hready]
      rfl
    · have hg : ((hartsFrom s.vu.rr)[i]'(by omega)).val = (s.vu.rr.val + i) % 16 := by simp [hartsFrom]
      rw [hfirst i _ hi hg]
      rfl
  unfold State.vectorAccept
  rw [hm, hturn]
  rfl

/-- A bond step that is ready has priority: the command has no effect then (log entry 44). -/
theorem State.exec_vectorAccept (s : State) (hp : s.powered = true) :
    exec .vectorAccept s = .next (if s.bondReady then s else s.vectorAccept) := by
  change Host.Outcome.next _ = _
  rw [hp]
  rfl

theorem State.mem_activeGroups (s : State) (g : Fin 17) :
    g ∈ s.activeGroups ↔ (s.err.lanes.get g).state = .active := by
  unfold State.activeGroups
  simp [mem_fins]

/-- The first free step lies after this one, after the last occupied one and after a fence (R134, R464). -/
theorem State.nextFree_gt (s : State) : s.cycle < s.nextFree ∧ s.vu.busyUntil < s.nextFree ∧ s.vu.fenceUntil < s.nextFree := by
  unfold State.nextFree
  omega

/-- Settles O5: the turn decides which head is accepted, and the frame of acceptance gives the rest. -/
theorem vectorUnitTakesTurns : Obligations.VectorUnitTakesTurns := by
  unfold Obligations.VectorUnitTakesTurns
  intro h k e s hm hk hh hfirst hready
  have hp : s.powered = true := by
    unfold State.mayAccept at hm
    simp only [Bool.and_eq_true] at hm
    exact hm.1.1.1
  rw [s.exec_vectorAccept hp]
  refine ⟨fun hb => by rw [if_pos hb], fun hb => ?_⟩
  rw [if_neg (by rw [hb]; decide), s.vectorAccept_eq h k e hm hk hh hfirst hready]
  obtain ⟨l, sb, t, o, b, m, heq, hl, hsb⟩ := s.accept_spec h e
  rw [heq]
  have hn := congrArg (List.map (·.n)) hl
  rw [List.map_map, List.map_map] at hn
  have hsame : State.hart { s with harts := vmod s.harts h fun t => { t with vqueue := l } } h =
    { s.hart h with vqueue := l } := State.modHart_hart s h _
  refine ⟨_, rfl, rfl, ?_, ⟨s.acceptedAs h e, rfl, rfl, rfl, rfl, rfl, rfl, rfl, rfl, s.mem_activeGroups, s.nextFree_gt⟩, ?_,
    fun g hg => State.modHart_hart_ne s _ hg, ?_⟩
  · exact (congrArg (fun t : HartState => t.vqueue.map (·.n)) hsame).trans hn
  · intro id hid a ha hai
    change a ∈ sb.alloc
    rw [hsb, hid]
    exact List.mem_append_right _ (List.mem_filter.2 ⟨ha, beq_iff_eq.2 hai⟩)
  · exact ⟨(congrArg HartState.x hsame :), (congrArg HartState.preds hsame :), (congrArg HartState.summary hsame :),
      (congrArg HartState.csr hsame :), (congrArg HartState.pc hsame :), rfl, rfl, rfl, rfl, rfl, rfl, rfl, rfl, rfl⟩

end Sys2Proof.Machine

/-! # Tile leases -/

namespace Sys2Proof.Machine

/-- A command of a reader that can act finds the engine powered. -/
theorem State.canAct_powered {s : State} {r : Reader} (ha : s.canAct r = true) : s.powered = true := by
  by_cases hp : s.powered = true
  · exact hp
  · rw [canAct_unpowered (Bool.not_eq_true _ ▸ hp)] at ha
    exact absurd ha (by decide)

@[simp] theorem hart?_reader (h : Hart) : Reader.hart? (Hart.reader h) = some h := dif_pos h.isLt

theorem State.exec_tileLease {s : State} (hp : s.powered = true) (r : Reader) (w : Word) (lost : List Hart) :
    exec (.tileLease r w lost) s = .next (s.tileLease r w lost) := congrArg _ (if_pos hp)

theorem State.exec_leaseEffect {s : State} (hp : s.powered = true) (t : TileReg) :
    exec (.leaseEffect t) s = .next (s.leaseEffect t) := congrArg _ (if_pos hp)

/-- A write that does not reach CE_TILE_LEASE is ignored (R506). -/
theorem State.tileLease_refused {s : State} {r : Reader} (hm : s.mayWrite r = false) (w : Word) (lost : List Hart) :
    s.tileLease r w lost = s := by
  unfold State.tileLease State.stateWrite State.leaseWrite
  simp only [hm]
  rfl

/-- A beaten write of CE_TILE_LEASE changes nothing (R431). -/
theorem State.tileLease_beaten {s : State} {r : Reader} {lost : List Hart} (hm : s.mayWrite r = true)
    (hs : stands r (s.reaching r lost) = false) (w : Word) : s.tileLease r w lost = s := by
  unfold State.reaching at hs
  unfold State.tileLease State.stateWrite
  simp only [hm, hs]
  rfl

/-- A write that stands counts those it beats and asks for its lease (R431). -/
theorem State.tileLease_stands {s : State} {r : Reader} {lost : List Hart} (hm : s.mayWrite r = true)
    (hs : stands r (s.reaching r lost) = true) (w : Word) :
    s.tileLease r w lost = (s.countPreempt (s.reaching r lost)).leaseWrite r w := by
  unfold State.reaching at hs ⊢
  unfold State.tileLease State.stateWrite
  simp only [hm, hs]
  rfl

/-- The request that a word of CE_TILE_LEASE makes (R110). -/
def leaseReqOf (r : Reader) (w : Word) (m : LeaseMode) : LeaseReq :=
  { who := r, tile := (w.extractLsb' 0 6).toFin, hart := (w.extractLsb' 8 4).toFin, mode := m }

/-- A write that may be made asks for its lease: the change waits for a register that something names (R112). -/
theorem State.leaseWrite_eq {s : State} {r : Reader} {w : Word} {m : LeaseMode} (hm : s.mayWrite r = true)
    (hw : leaseMode (w.extractLsb' 16 2) = some m) :
    s.leaseWrite r w =
      if s.tileBusy (leaseReqOf r w m).tile || s.leaseQ.any fun p => p.tile == (leaseReqOf r w m).tile then
        match Reader.hart? r with
        | some h => ({ s with leaseQ := s.leaseQ ++ [leaseReqOf r w m] } : State).modHart h fun t => { t with wait := .lease }
        | none => { s with leaseQ := s.leaseQ ++ [leaseReqOf r w m] }
      else s.setLease (leaseReqOf r w m) := by
  unfold State.leaseWrite
  rw [hm, hw]
  rfl

/-- A lease change of a register that nothing names takes effect at once (R112). -/
theorem State.leaseWrite_free {s : State} {r : Reader} {w : Word} {m : LeaseMode} (hm : s.mayWrite r = true)
    (hw : leaseMode (w.extractLsb' 16 2) = some m) (hb : s.tileBusy (leaseReqOf r w m).tile = false)
    (hq : ∀ q ∈ s.leaseQ, q.tile ≠ (leaseReqOf r w m).tile) : s.leaseWrite r w = s.setLease (leaseReqOf r w m) := by
  have hany : (s.leaseQ.any fun p => p.tile == (leaseReqOf r w m).tile) = false :=
    List.any_eq_false.2 fun q hmem => by simpa using hq q hmem
  rw [State.leaseWrite_eq hm hw, hb, hany]
  rfl

/-- A lease change of a register that something names waits, and so does the hart that writes it (R112). -/
theorem State.leaseWrite_busy {s : State} {h : Hart} {w : Word} {m : LeaseMode} (hm : s.mayWrite (Hart.reader h) = true)
    (hw : leaseMode (w.extractLsb' 16 2) = some m) (hb : s.tileBusy (leaseReqOf (Hart.reader h) w m).tile = true) :
    s.leaseWrite (Hart.reader h) w =
      ({ s with leaseQ := s.leaseQ ++ [leaseReqOf (Hart.reader h) w m] } : State).modHart h fun t => { t with wait := .lease } := by
  rw [State.leaseWrite_eq hm hw, hb, hart?_reader]
  rfl

/-- Lease changes wait while something names their register (R112). -/
theorem State.leaseEffect_busy {s : State} {t : TileReg} (hb : s.tileBusy t = true) : s.leaseEffect t = s := if_pos hb

/-- The only change that waits for a free register takes effect, and the hart that wrote it goes on (R112). -/
theorem State.leaseEffect_single {s : State} {t : TileReg} {q : LeaseReq} {h : Hart} (hb : s.tileBusy t = false)
    (hq : s.leaseQ = [q]) (ht : q.tile = t) (hw : q.who = Hart.reader h) (hwait : (s.hart h).wait = .lease)
    (hd : (s.hart h).dlock = none) :
    s.leaseEffect t = ({ s.setLease q with leaseQ := [] } : State).modHart h fun x => { x with wait := .run } := by
  have hmine : (s.leaseQ.filter fun q => q.tile == t) = [q] := by rw [hq]; simp [ht]
  have hrest : ((s.setLease q).leaseQ.filter fun q => q.tile != t) = [] := by
    change (s.leaseQ.filter fun q => q.tile != t) = []
    rw [hq]
    simp [ht]
  have hrun : ({ s.setLease q with leaseQ := [] } : State).modHart h (fun x => if x.wait == .lease then { x with wait := .run } else x) =
      ({ s.setLease q with leaseQ := [] } : State).modHart h fun x => { x with wait := .run } :=
    State.modHart_congr _ h (if_pos (by rw [beq_iff_eq]; exact hwait))
  have hdl : ((({ s.setLease q with leaseQ := [] } : State).modHart h fun x => { x with wait := .run }).hart h).dlock = none := by
    rw [State.modHart_hart]
    exact hd
  unfold State.leaseEffect
  rw [if_neg (by rw [hb]; decide), hmine]
  dsimp only [State.forEach, List.foldl]
  rw [hrest, hw, hart?_reader]
  dsimp only
  rw [hrun, State.takeDeadlock, hdl]

/-- Settles O7: the cases of the write of CE_TILE_LEASE and of its later effect. -/
theorem tileLeasesChangeWhenFree : Obligations.TileLeasesChangeWhenFree := by
  unfold Obligations.TileLeasesChangeWhenFree
  refine ⟨fun r w lost m s ha hw => ?_, fun t h q s hp => ?_⟩
  · have hp := State.canAct_powered ha
    rw [State.exec_tileLease hp]
    have hmay {b : Bool} (hb : s.privileged r = b) : s.mayWrite r = b := by
      unfold State.mayWrite
      rw [ha, hb]
      rfl
    refine ⟨fun hb => ?_, fun hb hs => ?_, fun hb hs hfree hq => ?_, fun h hr hb hs hbusy => ?_⟩
    · rw [State.tileLease_refused (hmay hb)]
    · rw [State.tileLease_beaten (hmay hb) hs]
    · rw [State.tileLease_stands (hmay hb) hs,
        State.leaseWrite_free (s := s.countPreempt (s.reaching r lost)) (hmay hb) hw hfree hq]
      rfl
    · subst hr
      rw [State.tileLease_stands (hmay hb) hs,
        State.leaseWrite_busy (s := s.countPreempt (s.reaching (Hart.reader h) lost)) (hmay hb) hw hbusy]
      refine ⟨_, rfl, rfl, ?_, rfl⟩
      rw [State.modHart_hart]
  · rw [State.exec_leaseEffect hp]
    refine ⟨fun hb => by rw [State.leaseEffect_busy hb], fun hb hq ht hw hwait hd => ?_⟩
    rw [State.leaseEffect_single hb hq ht hw hwait hd]
    refine ⟨_, rfl, rfl, ?_, State.modHart_hart _ h _, fun g hg => State.modHart_hart_ne _ _ hg, rfl⟩
    subst ht
    rfl

end Sys2Proof.Machine

/-! # The element results (a refutation) -/

namespace Sys2Proof.Machine

/-- A TOPK of INT8 values of one register whose COUNT of 4160 exceeds its span of 4096: rows 0 and 64 are active, no
element of TA is valid, and the payload group is the one register before the destination. -/
def topkBeyondSpan : XIn :=
  { k := .topk false false false
    e := { x := { op := 0, fn := 0, a := { fmta := 8, fmtd := 8, count := 4160, td := 1, tb := 0, ta := 8 } }, xarg := 1 }
    pred := 1 + (1 <<< 64), quota := 0, ts := Vector.replicate 64 { vr := 0 }, hart := {} }

/-- Row 0 has no candidate. -/
theorem topkBeyondSpan_no_candidate :
    ((rowIdx topkBeyondSpan.count 0).filter fun p => validAt topkBeyondSpan.ts topkBeyondSpan.oa p &&
      !(topkBeyondSpan.fa.decode (topkBeyondSpan.oa.get topkBeyondSpan.ts p).1).isNan) = [] := by
  decide +kernel

/-- The worst value of INT8 for the largest is -128 (R217). -/
theorem topkBeyondSpan_worst : (worstCode false topkBeyondSpan.fd).toNat % 2 ^ topkBeyondSpan.fd.width = 128 := by
  decide +kernel

/-- The index of row 64 goes past the payload register, into the container that holds the first destination element. -/
theorem topkBeyondSpan_overwrites :
    (readElem ((xEffect topkBeyondSpan).tiles topkBeyondSpan.ts) topkBeyondSpan.od.base topkBeyondSpan.fd 0).1.toNat = 255 := by
  decide +kernel

/-- Refutes O9, by its TOPK clause: COUNT is bounded by the elements of the destination group alone, and `topkBeyondSpan`
takes 4160 of 16384, while its payload group holds 4096. The write of the payload index of row 64 falls into the register
after that group, the destination, although the two groups are apart. -/
theorem not_elementResultsReadBack : ¬ Obligations.ElementResultsReadBack := by
  unfold Obligations.ElementResultsReadBack
  intro h
  obtain ⟨-, -, hselect, -⟩ := h
  obtain ⟨-, -, -, -, -, htopk, -⟩ := hselect topkBeyondSpan 0 (by decide +kernel) (by decide +kernel) (by decide +kernel)
    (by decide +kernel)
  obtain ⟨-, hworst⟩ := htopk false rfl (by decide +kernel) (by decide +kernel) (by decide +kernel) (by decide +kernel)
  have hnew := hworst (le_of_eq (congrArg List.length topkBeyondSpan_no_candidate))
  rw [topkBeyondSpan_overwrites, topkBeyondSpan_worst] at hnew
  exact absurd hnew (by decide)

end Sys2Proof.Machine

/-! # Completion and retirement -/

namespace Sys2Proof.Machine

/-! ## The Icefield words of an effect (R307) -/

/-- A word that lies in a bank is stored in its cell; every other cell keeps its codeword. -/
theorem State.writeResident_cells (s : State) (f : Fin 64) (w : Nat) (d : Word) (m : Bool) (hs : swf 0 s.ice.cells = true) :
    swf 0 (s.writeResident f w d m).ice.cells = true ∧
      ∀ c, sget 0 (s.writeResident f w d m).ice.cells c =
        if cellOf s f w = some c then encodeWord d m else sget 0 s.ice.cells c := by
  unfold State.writeResident cellOf
  cases s.place f w with
  | none => exact ⟨hs, fun c => rfl⟩
  | some p =>
    cases p with
    | moraine g a => exact ⟨hs, fun c => rfl⟩
    | phys p h =>
      refine ⟨swf_sset _ _ _ _ hs, fun c => (sget_sset _ _ _ _ _ hs).trans ?_⟩
      simp only [Option.some.injEq, eq_comm, State.bankLevel]

/-- Storing a word changes the cells and the waiting write-backs alone. -/
theorem State.writeResident_frame (s : State) (f : Fin 64) (w : Nat) (d : Word) (m : Bool) :
    ∃ cells wb, s.writeResident f w d m = { s with ice := { s.ice with cells := cells, writebacks := wb } } := by
  unfold State.writeResident
  split
  · exact ⟨_, _, rfl⟩
  · exact ⟨s.ice.cells, s.ice.writebacks, rfl⟩

/-- Where a word lies depends on the floe table, the spare maps and the configuration. -/
theorem cellOf_congr {s u : State} (hc : u.cfg = s.cfg) (hf : u.ice.floes = s.ice.floes) (hs : u.ice.spares = s.ice.spares)
    (f : Fin 64) (w : Nat) : cellOf u f w = cellOf s f w := by
  unfold cellOf State.place State.bankLevel State.cellAt State.sparedBy State.spare State.floe
  rw [hc, hf, hs]

/-- Storing words changes the cells and the waiting write-backs alone. -/
theorem State.writeMerged_frame (f : Fin 64) (ws : List IceWrite) (s : State) :
    ∃ cells wb, s.writeMerged f ws = { s with ice := { s.ice with cells := cells, writebacks := wb } } := by
  induction ws generalizing s with
  | nil => exact ⟨s.ice.cells, s.ice.writebacks, rfl⟩
  | cons w ws ih =>
    obtain ⟨c, wb, h⟩ := s.writeResident_frame f w.word w.data w.mark
    obtain ⟨c', wb', h'⟩ := ih (s.writeResident f w.word w.data w.mark)
    refine ⟨c', wb', h'.trans ?_⟩
    rw [h]

/-- The words of an effect that lie in banks, in different cells, are stored there, and every other cell keeps its
codeword. -/
theorem State.writeMerged_cells (f : Fin 64) (ws : List IceWrite) (s : State) (hs : swf 0 s.ice.cells = true)
    (hd : (ws.filterMap fun w => cellOf s f w.word).Nodup) :
    (∀ w ∈ ws, ∀ c, cellOf s f w.word = some c → sget 0 (s.writeMerged f ws).ice.cells c = encodeWord w.data w.mark) ∧
      ∀ c, (∀ w ∈ ws, cellOf s f w.word ≠ some c) → sget 0 (s.writeMerged f ws).ice.cells c = sget 0 s.ice.cells c := by
  induction ws generalizing s with
  | nil => exact ⟨fun w hw => absurd hw List.not_mem_nil, fun c _ => rfl⟩
  | cons w ws ih =>
    have hcells := s.writeResident_cells f w.word w.data w.mark hs
    have hcell (v : Nat) : cellOf (s.writeResident f w.word w.data w.mark) f v = cellOf s f v := by
      obtain ⟨c, wb, h⟩ := s.writeResident_frame f w.word w.data w.mark
      rw [h]
      exact cellOf_congr rfl rfl rfl f v
    have hrest : (ws.filterMap fun w => cellOf s f w.word).Nodup := by
      rw [List.filterMap_cons] at hd
      split at hd
      · exact hd
      · exact (List.nodup_cons.1 hd).2
    obtain ⟨hin, hout⟩ := ih (s.writeResident f w.word w.data w.mark) hcells.1 (by simpa only [hcell] using hrest)
    simp only [hcell] at hin hout
    refine ⟨fun v hv c hc => ?_, fun c hc => ?_⟩
    · rcases List.mem_cons.1 hv with rfl | hv
      · refine (hout c fun u hu huc => ?_).trans ((hcells.2 c).trans (if_pos hc))
        rw [List.filterMap_cons_some (f := fun w : IceWrite => cellOf s f w.word) hc] at hd
        exact (List.nodup_cons.1 hd).1 (List.mem_filterMap.2 ⟨u, hu, huc⟩)
      · exact hin v hv c hc
    · refine (hout c fun u hu => hc u (List.mem_cons_of_mem _ hu)).trans ((hcells.2 c).trans (if_neg ?_))
      exact hc w List.mem_cons_self

/-- The words that an effect stores depend on Icefield and the configuration alone. -/
theorem State.writeMerged_congr (f : Fin 64) (ws : List IceWrite) {s u : State} (hc : u.cfg = s.cfg) (hi : u.ice = s.ice) :
    u.writeMerged f ws = { u with ice := (s.writeMerged f ws).ice } := by
  induction ws generalizing s u with
  | nil => rw [show (s.writeMerged f []).ice = u.ice from hi.symm]; rfl
  | cons w ws ih =>
    have hone : u.writeResident f w.word w.data w.mark =
        { u with ice := (s.writeResident f w.word w.data w.mark).ice } := by
      unfold State.writeResident State.place State.bankLevel State.cellAt State.sparedBy State.spare State.floe State.setCell
      rw [hc, hi]
      split
      · rfl
      · rw [← hi, ← hc]
    obtain ⟨c, wb, hs⟩ := s.writeResident_frame f w.word w.data w.mark
    have hstep := ih (s := s.writeResident f w.word w.data w.mark) (u := u.writeResident f w.word w.data w.mark)
      (by rw [hone, hs, hc]) (by rw [hone])
    refine hstep.trans ?_
    rw [hone]
    rfl

/-! ## The end of an access (R299) -/

/-- Granting Firn entries changes the Firn buffer and its requests alone (R303). -/
theorem firnGrants_frame (l : List FirnAsk) (s : State) :
    ∃ firn q, firnGrants l s = { s with ice := { s.ice with firn := firn, firnQ := q } } := by
  induction l generalizing s with
  | nil => exact ⟨s.ice.firn, s.ice.firnQ, rfl⟩
  | cons a l ih =>
    unfold firnGrants
    split
    · obtain ⟨firn, q, h⟩ := ih (s.setFirn _ (some { acc := a.acc, who := a.who }))
      exact ⟨firn, q, h⟩
    · obtain ⟨firn, q, h⟩ := ih { s with ice := { s.ice with firnQ := s.ice.firnQ ++ [a] } }
      exact ⟨firn, q, h⟩

/-- The end of an access without a Firn entry changes the Firn buffer, its Moraine words and the scoreboard alone; with no
Moraine line in transfer its scoreboard access is free. -/
theorem State.endAccess_frame (s : State) (id : Nat) (hf : s.firnFor id = none) :
    ∃ firn q sb md mc, s.endAccess id =
        { s with ice := { s.ice with firn := firn, firnQ := q, sb := sb, morData := md, morClosing := mc } } ∧
      (s.ice.morLines = [] → ∀ a ∈ sb.alloc, a.id ≠ id) := by
  obtain ⟨firn, q, hg⟩ : ∃ firn q, s.firnDrop id = { s with ice := { s.ice with firn := firn, firnQ := q } } :=
    firnGrants_frame _ _
  have hflush : s.firnFlush id = s := by
    unfold State.firnFlush
    rw [hf]
  unfold State.endAccess
  rw [hflush, hg]
  by_cases hopen : s.ice.morLines.all (fun l => l.acc != id) = true
  · refine ⟨firn, q, _, _, _, if_pos hopen, fun _ a ha => ?_⟩
    simpa using (List.mem_filter.1 ha).2
  · refine ⟨firn, q, s.ice.sb, _, _, if_neg hopen, fun hm => absurd ?_ hopen⟩
    rw [hm]
    rfl

/-! ## What a hart takes (R127, R131, R139) -/

/-- The predicate, statistic bank and quota that an effect writes to its hart (R121, R194). -/
def XEffect.onHart (e : XEffect) (t : HartState) : HartState :=
  let t := match e.pred with | some (p, v) => t.setPred p v | none => t
  { t with bank := ssetMany {} t.bank e.bank, csr := { t.csr with mquota := e.quota.getD t.csr.mquota } }

theorem State.applyEffect_eq (s : State) (f : Inflight) (e : XEffect) :
    s.applyEffect f e = ({ s with tiles := e.tiles s.tiles } : State).modHart f.hart e.onHart := rfl

/-- What a retirement releases: the summary, the flags of a strict instruction, and its fault. -/
theorem HartState.retire_result (t : HartState) (pc : Word) (e : XEffect) (strict : Bool) :
    t.retire pc (e.result strict) = { t with
      summary := e.sum, retired := t.retired + 1
      csr := { t.csr with
        vflags := if strict then t.csr.vflags.or e.flags else t.csr.vflags
        vfOvf := t.csr.vfOvf || (e.fault.isSome && t.csr.vfV)
        vfV := t.csr.vfV || e.fault.isSome
        vfCode := if t.csr.vfV then t.csr.vfCode else e.fault.getD t.csr.vfCode
        vfpc := if t.csr.vfV ∨ e.fault = none then t.csr.vfpc else pc } } := by
  have hflags : t.csr.vflags.or (if strict then e.flags else {}) = if strict then t.csr.vflags.or e.flags else t.csr.vflags := by
    cases strict with
    | true => rfl
    | false => exact FpFlags.or_empty _
  unfold HartState.retire XEffect.result
  rw [hflags]
  cases e.fault with
  | none => simp
  | some c =>
    unfold HartState.vfault
    cases hv : t.csr.vfV <;> simp [hv]

/-- The results of an effect and what its retirement releases leave the hart as `hartRetired` says. -/
theorem hartRetired_eq (q : XEntry) (e : XEffect) (t : HartState) :
    (e.onHart t).retire q.pc (e.result q.x.a.s) = hartRetired q e t := by
  rw [HartState.retire_result]
  unfold XEffect.onHart hartRetired
  cases e.pred with
  | none => rfl
  | some w =>
    unfold HartState.setPred
    by_cases hw : w.1 = 0
    · simp only [if_pos hw]
    · simp only [if_neg hw]

/-! ## Completion (R139) -/

/-- The summary of an instruction is the order's last output or nothing: only the open orders may change (R425). -/
theorem State.noteVector_congr {s u : State} (hu : u.hods = s.hods) (h : Hart) (op : BitVec 6) (sum : DWord) :
    u.noteVector h op sum = { u with hods := (s.noteVector h op sum).hods } := by
  unfold State.noteVector State.kernelOf State.modOrder
  rw [hu]
  split
  · split
    · rfl
    · rw [← hu]
  · rw [← hu]

@[simp] theorem State.xinOf_count (s : State) (f : Inflight) : (s.xinOf f).count = f.e.x.a.count.toNat := by
  unfold State.xinOf
  dsimp only
  split <;> rfl

/-- The effect of an accepted instruction: none with COUNT = 0 (R122). -/
theorem State.effect_xinOf (s : State) (f : Inflight) (mem : Store (BitVec 33)) :
    (s.xinOf f).effect mem = if f.e.x.a.count = 0 then {} else xEffect { s.xinOf f with mem } := by
  unfold XIn.effect
  rw [State.xinOf_count]
  by_cases hc : f.e.x.a.count = 0
  · rw [if_pos hc, if_pos (by rw [hc]; rfl)]
  · rw [if_neg hc, if_neg (fun h => hc (BitVec.eq_of_toNat_eq h) : ¬f.e.x.a.count.toNat = 0)]

/-- An accepted instruction that has completed with an effect. -/
def Inflight.completed (f : Inflight) (e : XEffect) : Inflight := { f with result := some (e.result f.e.x.a.s) }

/-- An instruction whose reads leave the engine as it is completes with its effect. -/
theorem State.completeInflight_spec {s : State} {f : Inflight} {mem : Store (BitVec 33)} (hrun : s.err.stat = .running)
    (hread : (s.advanceTo f.done).readWords (Src.vector f.hart) (f.sb.getD 0) f.e.floe
      ((s.advanceTo f.done).xinOf f).readWords = (s.advanceTo f.done, mem)) {e : XEffect}
    (he : ((s.advanceTo f.done).xinOf f).effect mem = e) :
    ∃ t o b, s.completeInflight f = { s with
      cycle := s.cycle + (f.done - s.cycle), time := t, obs := o, boot := { s.boot with stage := b }
      tiles := e.tiles s.tiles, harts := vmod s.harts f.hart e.onHart
      ice := (s.writeMerged f.e.floe e.ice).ice
      vu := { s.vu with
        inflight := s.vu.inflight.map fun o => if o == f then f.completed e else o } } := by
  obtain ⟨t, o, b, hu⟩ := s.advanceTo_stage f.done
  have hstat : ((s.advanceTo f.done).err.stat == .recovering) = false := by
    rw [hu]
    change (s.err.stat == .recovering) = false
    rw [hrun]
    rfl
  have hwords : (s.advanceTo f.done).writeMerged f.e.floe e.ice =
      { s.advanceTo f.done with ice := (s.writeMerged f.e.floe e.ice).ice } :=
    State.writeMerged_congr _ _ (by rw [hu]) (by rw [hu])
  unfold State.completeInflight
  dsimp only
  rw [hread]
  dsimp only
  rw [he, hstat, hwords, hu]
  exact ⟨t, _, b, rfl⟩

/-! ## Retirement (R139) -/

/-- The access of an instruction, if it has one, ends. -/
def State.endOwn (s : State) (sb : Option Nat) : State :=
  match sb with | some id => s.endAccess id | none => s

theorem State.endOwn_frame (s : State) (acc : Option Nat) (hf : ∀ id, acc = some id → s.firnFor id = none) :
    ∃ firn q sb md mc, s.endOwn acc =
        { s with ice := { s.ice with firn := firn, firnQ := q, sb := sb, morData := md, morClosing := mc } } ∧
      ∀ id, acc = some id → s.ice.morLines = [] → ∀ a ∈ sb.alloc, a.id ≠ id := by
  cases acc with
  | none => exact ⟨s.ice.firn, s.ice.firnQ, s.ice.sb, s.ice.morData, s.ice.morClosing, rfl, fun id hid => absurd hid (by simp)⟩
  | some id =>
    obtain ⟨firn, q, sb, md, mc, h, ha⟩ := s.endAccess_frame id (hf id rfl)
    refine ⟨firn, q, sb, md, mc, h, fun id' hid => ?_⟩
    obtain rfl := Option.some.inj hid
    exact ha

theorem State.retireInflight_eq {s u : State} (hu : u.hods = s.hods) (f : Inflight) (r : XResult) :
    u.retireInflight f r = ({ u with
      hods := (s.noteVector f.hart f.e.x.op r.sum).hods, harts := vmod u.harts f.hart fun t => t.retire f.e.pc r
      vu := { u.vu with inflight := u.vu.inflight.erase f } } : State).endOwn f.sb := by
  unfold State.retireInflight
  rw [State.noteVector_congr hu]
  rfl

/-- Instructions of other harts stay where they are, and an instruction that has not completed holds the later ones. -/
theorem retireLeading_of_open (h : Hart) (l : List Inflight) (s : State)
    (hopen : ∀ g ∈ l, g.hart = h → g.result = none) : retireLeading h l s = s := by
  induction l with
  | nil => rfl
  | cons g l ih =>
    unfold retireLeading
    by_cases hg : g.hart = h
    · rw [if_pos hg, hopen g List.mem_cons_self hg]
    · rw [if_neg hg]
      exact ih fun k hk => hopen k (List.mem_cons_of_mem _ hk)

/-- The oldest instruction of a hart retires when it has completed, and no other with it when the later ones have not. -/
theorem retireLeading_oldest (h : Hart) (as bs : List Inflight) (f : Inflight) (r : XResult) (s : State)
    (has : ∀ g ∈ as, g.hart ≠ h) (hf : f.hart = h) (hr : f.result = some r)
    (hopen : ∀ g ∈ bs, g.hart = h → g.result = none) : retireLeading h (as ++ f :: bs) s = s.retireInflight f r := by
  induction as with
  | nil =>
    rw [List.nil_append]
    unfold retireLeading
    rw [if_pos hf, hr]
    exact retireLeading_of_open h bs _ hopen
  | cons g as ih =>
    rw [List.cons_append]
    unfold retireLeading
    rw [if_neg (has g List.mem_cons_self)]
    exact ih fun k hk => has k (List.mem_cons_of_mem _ hk)

/-- The oldest instruction of a hart stands behind instructions of other harts alone. -/
theorem State.oldest_split {s : State} {h : Hart} {f : Inflight} (ho : s.oldest h = some f) :
    f.hart = h ∧ ∃ as bs, s.vu.inflight = as ++ f :: bs ∧ ∀ g ∈ as, g.hart ≠ h := by
  obtain ⟨hf, as, bs, hl, has⟩ := List.find?_eq_some_iff_append.1 ho
  exact ⟨by simpa using hf, as, bs, hl, fun g hg => by simpa using has g hg⟩

/-- Replacing the one occurrence of an element of a list. -/
theorem map_replace_split {α : Type} [BEq α] [LawfulBEq α] {as bs : List α} {f : α} (g : α) (has : f ∉ as) (hbs : f ∉ bs) :
    ((as ++ f :: bs).map fun o => if o == f then g else o) = as ++ g :: bs := by
  have hkeep {l : List α} (hl : f ∉ l) : (l.map fun o => if o == f then g else o) = l := by
    refine (List.map_congr_left (g := id) fun o ho => if_neg ?_).trans (List.map_id l)
    rw [beq_iff_eq]
    rintro rfl
    exact hl ho
  rw [List.map_append, List.map_cons, hkeep has, hkeep hbs, if_pos (beq_self_eq_true f)]

/-- Erasing the first occurrence of an element of a list. -/
theorem erase_split {α : Type} [BEq α] [LawfulBEq α] {as bs : List α} {f : α} (has : f ∉ as) :
    (as ++ f :: bs).erase f = as ++ bs := by
  rw [List.erase_append_right _ has, List.erase_cons_head]

/-- INSTRUCTION_RETIRE of an engine that runs, when no check of R462 fails: the next instruction to complete completes, and
its hart's instructions retire as far as they have completed. -/
theorem State.exec_instructionRetire {s : State} {h : Hart} {f : Inflight} (hp : s.powered = true)
    (hrun : s.err.stat = .running) (hn : s.nextToComplete h = some f) (hup : (s.xinOf f).upsetRead = none) :
    exec (.instructionRetire h none) s = .next (retireLeading h (s.completeInflight f).vu.inflight (s.completeInflight f)) := by
  have hnot : (s.err.stat == .recovering) = false := by
    rw [hrun]
    rfl
  have hfin : s.finishing h = some f := by
    unfold State.finishing
    rw [hnot]
    exact hn
  refine congrArg _ ((if_pos hp).trans ?_)
  unfold State.instructionRetire State.upset residueOf
  simp only [hp, hfin, hnot, hup, Option.filter_none]
  rfl

/-- INSTRUCTION_RETIRE of a hart's oldest instruction, when it completes next and no check fails: its effect and what its
retirement releases. -/
theorem State.instructionRetire_eq {s : State} {h : Hart} {f : Inflight} {mem : Store (BitVec 33)} (hp : s.powered = true)
    (hrun : s.err.stat = .running) (ho : s.oldest h = some f) (hn : s.nextToComplete h = some f)
    (hopen : ∀ g ∈ s.vu.inflight, g ≠ f → g.hart = h → g.result = none) (hnd : s.vu.inflight.Nodup)
    (hup : (s.xinOf f).upsetRead = none)
    (hread : (s.advanceTo f.done).readWords (Src.vector h) (f.sb.getD 0) f.e.floe
      ((s.advanceTo f.done).xinOf f).readWords = (s.advanceTo f.done, mem)) {e : XEffect}
    (he : ((s.advanceTo f.done).xinOf f).effect mem = e) :
    ∃ t o b, exec (.instructionRetire h none) s = .next (({ s with
      cycle := s.cycle + (f.done - s.cycle), time := t, obs := o, boot := { s.boot with stage := b }
      tiles := e.tiles s.tiles, harts := vmod s.harts h (hartRetired f.e e)
      ice := (s.writeMerged f.e.floe e.ice).ice, hods := (s.noteVector h f.e.x.op e.sum).hods
      vu := { s.vu with inflight := s.vu.inflight.erase f } } : State).endOwn f.sb) := by
  obtain ⟨rfl, as, bs, hl, has⟩ := State.oldest_split ho
  obtain ⟨t, o, b, hc⟩ := State.completeInflight_spec hrun hread he
  have hfas : f ∉ as := fun hm => has f hm rfl
  have hfbs : f ∉ bs := by
    rw [hl] at hnd
    exact (List.nodup_cons.1 (List.nodup_append.1 hnd).2.1).1
  have hbs : ∀ g ∈ bs, g.hart = f.hart → g.result = none := fun g hg =>
    hopen g (by rw [hl]; exact List.mem_append_right _ (List.mem_cons_of_mem _ hg)) (fun hgf => hfbs (hgf ▸ hg))
  have hleft : (as ++ f.completed e :: bs).erase (f.completed e) = (as ++ f :: bs).erase f := by
    rw [erase_split (f := f.completed e) fun hm => has _ hm rfl, erase_split hfas]
  have hharts : vmod (vmod s.harts f.hart e.onHart) f.hart (fun t => t.retire f.e.pc (e.result f.e.x.a.s)) =
      vmod s.harts f.hart (hartRetired f.e e) := by
    rw [vmod_vmod]
    exact congrArg (vmod s.harts f.hart) (funext fun t => hartRetired_eq f.e e t)
  rw [State.exec_instructionRetire hp hrun hn hup, hc, hl, map_replace_split _ hfas hfbs]
  refine ⟨t, o, b, congrArg _ ?_⟩
  refine (retireLeading_oldest f.hart as bs (f.completed e) _ _ has rfl rfl hbs).trans ?_
  refine (State.retireInflight_eq (s := s) ?_ _ _).trans ?_
  · rfl
  · rw [← hleft, ← hharts]
    rfl

/-- Settles O6: what the retirement of the oldest instruction leaves, and the words that its effect stores. -/
theorem retirementGivesTheWholeEffect : Obligations.RetirementGivesTheWholeEffect := by
  unfold Obligations.RetirementGivesTheWholeEffect
  intro h f mem s u hp hrun ho hn hopen hnd hup hmor hcanon hfirn hu hread
  subst hu
  rw [← State.effect_xinOf]
  intro e hcells
  obtain ⟨t, o, b, hexec⟩ := State.instructionRetire_eq hp hrun ho hn hopen hnd hup hread (e := e) rfl
  obtain ⟨hin, hout⟩ := s.writeMerged_cells f.e.floe e.ice hcanon.1 hcells
  obtain ⟨cells, wb, hw⟩ := s.writeMerged_frame f.e.floe e.ice
  have hice : (s.writeMerged f.e.floe e.ice).ice = { s.ice with cells := cells, writebacks := wb } := congrArg State.ice hw
  obtain ⟨firn, q, sb, md, mc, hend, hfree⟩ := State.endOwn_frame { s with
      cycle := s.cycle + (f.done - s.cycle), time := t, obs := o, boot := { s.boot with stage := b }
      tiles := e.tiles s.tiles, harts := vmod s.harts h (hartRetired f.e e)
      ice := (s.writeMerged f.e.floe e.ice).ice, hods := (s.noteVector h f.e.x.op e.sum).hods
      vu := { s.vu with inflight := s.vu.inflight.erase f } } f.sb (by rw [hice]; exact hfirn)
  rw [hexec, hend]
  refine ⟨_, rfl, rfl, vmod_get_same _ _ _, fun g hg => vmod_get_ne _ _ hg, rfl, rfl, hin, hout, fun id hid hl => ?_, ?_,
    rfl, rfl, rfl, rfl, rfl⟩
  · exact hfree id hid ((congrArg Icefield.morLines hice :).trans hl)
  · exact (congrArg Icefield.floes hice :)

end Sys2Proof.Machine

/-! # An instruction from issue to retirement -/

namespace Sys2Proof.Machine

/-! ## Effects that write no Icefield word -/

theorem xRsum_ice (ax : Nat) (sq : Bool) (x : XIn) : (xRsum ax sq x).ice = [] := by
  unfold xRsum
  split <;> rfl

theorem xRmax_ice (ax : Nat) (m : Bool) (x : XIn) : (xRmax ax m x).ice = [] := by
  unfold xRmax
  split <;> rfl

theorem xRaccAcc_ice (k : Nat) (x : XIn) : (xRaccAcc k x).ice = [] := by
  unfold xRaccAcc
  dsimp only
  split <;> rfl

theorem xRacc_ice (k : Nat) (x : XIn) : (xRacc k x).ice = [] := by
  unfold xRacc
  split
  · rfl
  · split
    · exact xRaccAcc_ice k x
    · rfl

theorem xNorm_ice (k : Nat) (x : XIn) : (xNorm k x).ice = [] := by
  unfold xNorm
  dsimp only
  split <;> rfl

theorem XIn.place_ice (x : XIn) (pay : Bool) (ps : List Nat) (ms : List Moved) (exts payExts : ExtList) :
    (x.place pay ps ms exts payExts).ice = [] := by
  unfold XIn.place
  cases pay <;> rfl

theorem xUnique_ice (len : Bool) (x : XIn) : (xUnique len x).ice = [] := by
  unfold xUnique
  cases len <;> rfl

theorem xRoute_ice (chosen : Bool) (x : XIn) : (xRoute chosen x).ice = [] := by
  unfold xRoute
  dsimp only
  split <;> rfl

/-- An instruction that touches tiles, predicates and the statistic bank alone writes no Icefield word. -/
theorem tileEffect_ice (x : XIn) : (tileEffect x).ice = [] := by
  unfold tileEffect
  cases x.k with
  | rsum ax sq => exact xRsum_ice ax sq x
  | rmax ax m => exact xRmax_ice ax m x
  | racc k => exact xRacc_ice k x
  | norm k => exact xNorm_ice k x
  | sort d p => exact XIn.place_ice ..
  | merge d p => exact XIn.place_ice ..
  | unique l => exact xUnique_ice l x
  | route c => exact xRoute_ice c x
  | _ => rfl

/-- The effect of a kind that does not touch Icefield is one on tiles, predicates and the statistic bank. -/
theorem xEffect_eq_tileEffect {x : XIn} (hk : x.k.icefield = false) : xEffect x = tileEffect x := by
  unfold xEffect
  cases h : x.k with
  | ld | st _ | gather _ | scatter _ _ | mtrans =>
    rw [h] at hk
    exact nomatch (show true = false from hk)
  | _ => rfl

/-- Such a kind reads no Icefield word. -/
theorem XIn.readWords_of_tile {x : XIn} (hk : x.k.icefield = false) : x.readWords = [] := by
  unfold XIn.readWords XIn.adds
  cases h : x.k with
  | ld | st _ | gather _ | scatter _ _ | mtrans =>
    rw [h] at hk
    exact nomatch (show true = false from hk)
  | _ => rfl

/-- Such a kind presents no range to the scoreboard. -/
theorem State.xRanges_of_tile (s : State) {k : XKind} (hk : k.icefield = false) (e : XEntry) : s.xRanges k e = [] := by
  unfold State.xRanges
  dsimp only
  split
  · rfl
  · cases k with
    | ld | st _ | gather _ | scatter _ _ | mtrans => exact nomatch (show true = false from hk)
    | _ => rfl

/-- A decode check that passes gives the kind of the instruction. -/
theorem xkindOf_of_xcheck {h : Hart} {mp xarg scalar : Word} {ts : Vector Tile 64} {x : XInstr} {k : XKind}
    (hx : xcheck h mp xarg scalar ts x = .ok k) : xkindOf x = some k := by
  unfold xcheck at hx
  split at hx
  · cases hx
  · next k' hk' =>
    rw [hk']
    dsimp only at hx
    repeat' split at hx
    all_goals cases hx <;> rfl

end Sys2Proof.Machine

/-! # The three steps of an instruction on an idle engine -/

namespace Sys2Proof.Machine

/-! ## An accepted instruction of a kind that does not touch Icefield -/

/-- What such an instruction reads at its completion. -/
theorem State.xinOf_of_tile {s : State} {f : Inflight} {k : XKind} (hx : xkindOf f.e.x = some k) (hk : k.icefield = false) :
    s.xinOf f = { k, e := f.e, pred := f.predv, quota := f.quota, ts := s.tiles, hart := s.hart f.hart
                  floe := if (s.floe f.e.floe).used then some (s.floe f.e.floe).window else none
                  hashed := (s.floe f.e.floe).used && (s.floe f.e.floe).hash } := by
  unfold State.xinOf
  simp only [hx, Option.getD_some, hk]
  rfl

/-- No reviving segment holds it (R564). -/
theorem State.revivingHolds_of_tile (s : State) {x : XIn} (hk : x.k.icefield = false) : s.revivingHolds x = false := by
  unfold State.revivingHolds
  rw [hk]
  rfl

/-- It presents no ranges at the head of its queue. -/
theorem State.presentHead_of_tile {s : State} {h : Hart} {e : XEntry} {r : List XEntry} {k : XKind}
    (hq : (s.hart h).vqueue = e :: r) (hx : xkindOf e.x = some k) (hk : k.icefield = false) : s.presentHead h = s := by
  unfold State.presentHead
  rw [hq]
  dsimp only
  rw [hx]
  split
  · next k' _ hk' =>
    obtain rfl := Option.some.inj hk'
    rw [if_pos (by rw [s.xRanges_of_tile hk]; rfl)]
  · rfl

theorem State.presentHead_empty {s : State} {h : Hart} (hq : (s.hart h).vqueue = []) : s.presentHead h = s := by
  unfold State.presentHead
  rw [hq]

/-! ## Acceptance without a scoreboard access -/

/-- The last instruction of a queue, without a scoreboard access, enters the vector unit: nothing else changes but the step
counter, the clock, the stage of start-up and the observation unit. -/
theorem State.accept_last {s : State} {h : Hart} {e : XEntry} (hsb : e.sb = none) (hq : (s.hart h).vqueue = [e]) :
    ∃ t o b, s.accept h e = { s with
      cycle := s.cycle + (s.nextFree - s.cycle), time := t, obs := o, boot := { s.boot with stage := b }
      harts := vmod s.harts h fun t => { t with vqueue := t.vqueue.drop 1 }
      vu := { s.vu with
        rr := h + 1, inflight := s.vu.inflight ++ [s.acceptedAs h e]
        busyUntil := s.nextFree + ((s.xinOf (s.inflightOf h e)).timing s).1 - 1 } } := by
  obtain ⟨t, o, b, hu⟩ := s.enterUnit_frame h e
  have haccess : (s.enterUnit h e).takeAccess e (s.xinOf (s.inflightOf h e)) = s.enterUnit h e := by
    unfold State.takeAccess
    rw [hsb]
  rw [State.accept_eq, haccess]
  unfold State.takeNext
  dsimp only
  obtain ⟨o', ho'⟩ := ((s.enterUnit h e).modHart h fun t => { t with vqueue := t.vqueue.drop 1 }).accepted_frame 1
  rw [ho', State.presentHead_empty]
  · rw [hu]
    exact ⟨t, _, b, rfl⟩
  · change (((s.enterUnit h e).modHart h fun t => { t with vqueue := t.vqueue.drop 1 }).hart h).vqueue = []
    rw [State.modHart_hart, hu]
    change (s.hart h).vqueue.drop 1 = []
    rw [hq]
    rfl

/-! ## An engine that is idle but for a hart -/

/-- Without a running course no bond step is ready (R245). -/
theorem State.bondReady_idle {s : State} (hr : s.mortar.run = none) : s.bondReady = false := by
  unfold State.bondReady State.pieceReady State.prologueReady State.ringReady
  rw [hr]
  rfl

theorem State.mayAccept_idle {s : State} (hp : s.powered = true) (hrun : s.err.stat = .running) (hf : s.vu.fence = none)
    (hi : s.vu.inflight = []) : s.mayAccept = true := by
  unfold State.mayAccept
  rw [hp, hrun, hf, hi]
  rfl

/-- Nothing holds an instruction without a scoreboard access when nothing else runs. -/
theorem State.readyHead_idle {s : State} {h : Hart} {e : XEntry} {r : List XEntry} {k : XKind}
    (hq : (s.hart h).vqueue = e :: r) (hw : (s.hart h).wait = .run) (hi : s.vu.inflight = []) (hr : s.mortar.run = none)
    (hsb : e.sb = none) (hx : xkindOf e.x = some k) (hk : k.icefield = false) : s.readyHead h = some e := by
  have hcourse : s.courseHolds h e = false := by
    unfold State.courseHolds Mortar.working
    rw [hr]
    simp
  have hrev : s.revivingHolds (s.xinOf (s.inflightOf h e)) = false :=
    s.revivingHolds_of_tile (by rw [State.xinOf_of_tile (f := s.inflightOf h e) hx hk]; exact hk)
  unfold State.readyHead
  rw [hq]
  simp only [hw, hi, hcourse, hsb, hrev]
  rfl

theorem State.readyHead_empty {s : State} {h : Hart} (hq : (s.hart h).vqueue = []) : s.readyHead h = none := by
  unfold State.readyHead
  rw [hq]

/-- The only hart with an instruction in its queue has its turn. -/
theorem State.vectorAccept_only {s : State} {h : Hart} {e : XEntry} (hm : s.mayAccept = true) (hready : s.readyHead h = some e)
    (hothers : ∀ g, g ≠ h → (s.hart g).vqueue = []) : s.vectorAccept = s.accept h e := by
  have hh := h.isLt
  have hrr := s.vu.rr.isLt
  refine s.vectorAccept_eq h ((h.val + 16 - s.vu.rr.val) % 16) e hm (Nat.mod_lt _ (by decide)) (by omega)
    (fun i g hi hg => State.readyHead_empty (hothers g ?_)) hready
  rintro rfl
  omega

/-- Nothing holds the only instruction in the unit, without a scoreboard access, when no access is allocated (R139, R182). -/
theorem State.held_idle {s : State} {f : Inflight} {k : XKind} (hi : s.vu.inflight = [f]) (ha : s.ice.sb.alloc = [])
    (hsb : f.sb = none) (hx : xkindOf f.e.x = some k) (hk : k.icefield = false) : s.held f = false := by
  have hsync : s.vsyncWaits f = false := by
    unfold State.vsyncWaits
    rw [hx, hi, ha]
    cases k with
    | vsync ice => simp
    | _ => rfl
  have hrev : s.revivingHolds (s.xinOf f) = false :=
    s.revivingHolds_of_tile (by rw [State.xinOf_of_tile hx hk]; exact hk)
  unfold State.held
  rw [hsync, hrev, hsb]
  rfl

/-- The only instruction in the unit completes next, and is its hart's oldest. -/
theorem State.nextToComplete_only {s : State} {f : Inflight} (hi : s.vu.inflight = [f]) (hres : f.result = none)
    (hwith : f.withheld = false) (hheld : s.held f = false) :
    s.nextToComplete f.hart = some f ∧ s.oldest f.hart = some f := by
  unfold State.nextToComplete State.oldest
  rw [hi]
  simp [hres, hwith, hheld]

/-- On an engine that is idle but for a hart, the vector unit accepts the hart's only instruction. -/
theorem State.vectorAccept_idle {s : State} {h : Hart} {e : XEntry} {k : XKind} (hp : s.powered = true)
    (hrun : s.err.stat = .running) (hf : s.vu.fence = none) (hi : s.vu.inflight = []) (hr : s.mortar.run = none)
    (hw : (s.hart h).wait = .run) (hq : (s.hart h).vqueue = [e]) (hothers : ∀ g, g ≠ h → (s.hart g).vqueue = [])
    (hsb : e.sb = none) (hx : xkindOf e.x = some k) (hk : k.icefield = false) :
    ∃ t o b n, exec .vectorAccept s = .next { s with
      cycle := s.cycle + (s.nextFree - s.cycle), time := t, obs := o, boot := { s.boot with stage := b }
      harts := vmod s.harts h fun t => { t with vqueue := t.vqueue.drop 1 }
      vu := { s.vu with rr := h + 1, inflight := [s.acceptedAs h e], busyUntil := n } } := by
  obtain ⟨t, o, b, haccept⟩ := State.accept_last hsb hq
  rw [s.exec_vectorAccept hp, State.bondReady_idle hr, if_neg (by decide),
    State.vectorAccept_only (State.mayAccept_idle hp hrun hf hi) (State.readyHead_idle hq hw hi hr hsb hx hk) hothers, haccept, hi]
  exact ⟨t, o, b, _, rfl⟩

/-- A hart whose instruction has entered its queue (R130). -/
def HartState.enqueue (t : HartState) (x : XInstr) : HartState :=
  { t with vqueue := t.vqueue ++ [t.entryOf x], pc := t.pc + 8, instret := t.instret + 1, issued := t.issued + 1 }

/-- An instruction that has gone through an empty queue has moved the pc and the counts alone. -/
theorem HartState.enqueue_drop {t : HartState} (hq : t.vqueue = []) (x : XInstr) :
    { t.enqueue x with vqueue := (t.enqueue x).vqueue.drop 1 } =
      { t with pc := t.pc + 8, instret := t.instret + 1, issued := t.issued + 1 } := by
  simp [HartState.enqueue, hq]

/-- On an engine that is idle but for a hart, the hart's instruction enters its empty queue and presents no range. -/
theorem State.issue_idle {s : State} {h : Hart} {x : XInstr} {k : XKind} (ha : s.canAct (Hart.reader h) = true)
    (hx : xcheck h (s.hart h).csr.mparam (s.hart h).csr.xarg ((s.hart h).xcScalar x) s.tiles x = .ok k)
    (hk : k.icefield = false) (hq : (s.hart h).vqueue = []) :
    s.issue h x = s.modHart h fun t => t.enqueue x := by
  refine (State.issue_accepted ha hx (by rw [hq]; decide)).trans ?_
  refine State.presentHead_of_tile (e := (s.hart h).entryOf x) (r := []) ?_ (xkindOf_of_xcheck hx) hk
  rw [State.modHart_hart]
  change (s.hart h).vqueue ++ _ = _
  rw [hq]
  rfl

/-- The only instruction of the vector unit, of a kind that does not touch Icefield and without a scoreboard access, retires
with the effect `e` on what it reads. -/
theorem State.instructionRetire_only {s : State} {f : Inflight} {k : XKind} (hp : s.powered = true)
    (hrun : s.err.stat = .running) (hi : s.vu.inflight = [f]) (ha : s.ice.sb.alloc = []) (hres : f.result = none)
    (hwith : f.withheld = false) (hsb : f.sb = none) (hx : xkindOf f.e.x = some k) (hk : k.icefield = false)
    (hup : (s.xinOf f).upsetRead = none) {e : XEffect} (he : (if f.e.x.a.count = 0 then {} else xEffect (s.xinOf f)) = e) :
    ∃ t o b, exec (.instructionRetire f.hart none) s = .next { s with
      cycle := s.cycle + (f.done - s.cycle), time := t, obs := o, boot := { s.boot with stage := b }
      tiles := e.tiles s.tiles, harts := vmod s.harts f.hart (hartRetired f.e e)
      hods := (s.noteVector f.hart f.e.x.op e.sum).hods, vu := { s.vu with inflight := [] } } := by
  obtain ⟨hn, ho⟩ := State.nextToComplete_only hi hres hwith (State.held_idle hi ha hsb hx hk)
  have hin : (s.advanceTo f.done).xinOf f = s.xinOf f := by
    obtain ⟨t, o, b, hu⟩ := s.advanceTo_stage f.done
    rw [State.xinOf_of_tile hx hk, State.xinOf_of_tile hx hk, hu]
    rfl
  have hmem : { s.xinOf f with mem := [] } = s.xinOf f := by
    rw [State.xinOf_of_tile hx hk]
  have hkind : (s.xinOf f).k.icefield = false := by
    rw [State.xinOf_of_tile hx hk]
    exact hk
  have hice : e.ice = [] := by
    subst he
    split
    · rfl
    · rw [xEffect_eq_tileEffect hkind]
      exact tileEffect_ice _
  obtain ⟨t, o, b, hexec⟩ := State.instructionRetire_eq (mem := []) (e := e) hp hrun ho hn
    (fun g hg hne => absurd (by simpa [hi] using hg) hne) (by rw [hi]; exact List.nodup_singleton f) hup
    (by rw [hin, XIn.readWords_of_tile hkind]; rfl) (by rw [State.effect_xinOf, hin, hmem, he])
  refine ⟨t, o, b, hexec.trans ?_⟩
  rw [hsb, hice, hi, List.erase_cons_head]
  rfl

/-- What an instruction of a kind that does not touch Icefield reads when it is accepted and completes. -/
def State.tileIn (s : State) (h : Hart) (q : XEntry) (k : XKind) (t : HartState) : XIn :=
  { k, e := q, pred := (s.hart h).getPred q.x.a.pred, quota := (s.hart h).csr.mquota, ts := s.tiles, hart := t
    floe := if (s.floe q.floe).used then some (s.floe q.floe).window else none
    hashed := (s.floe q.floe).used && (s.floe q.floe).hash }

/-- The acceptance and the retirement of the only instruction of an idle engine, with the queue that brings them. -/
theorem State.accept_retire {s : State} {h : Hart} {q : XEntry} {k : XKind} (hp : s.powered = true)
    (hrun : s.err.stat = .running) (hf : s.vu.fence = none) (hi : s.vu.inflight = []) (hr : s.mortar.run = none)
    (ha : s.ice.sb.alloc = []) (hw : (s.hart h).wait = .run) (hq : (s.hart h).vqueue = [q])
    (hothers : ∀ g, g ≠ h → (s.hart g).vqueue = []) (hsb : q.sb = none) (hx : xkindOf q.x = some k) (hk : k.icefield = false)
    {t : HartState} (ht : { s.hart h with vqueue := (s.hart h).vqueue.drop 1 } = t)
    (hup : (s.tileIn h q k t).upsetRead = none) {e : XEffect}
    (he : (if q.x.a.count = 0 then {} else xEffect (s.tileIn h q k t)) = e)
    (hpend : s.pending = [.vectorAccept, .instructionRetire h none]) :
    ∃ s2 c ti o b v, step s = .next s2 ∧ v.inflight = [] ∧ step s2 = .next { s with
      pending := [], cycle := c, time := ti, obs := o, boot := { s.boot with stage := b }, tiles := e.tiles s.tiles
      harts := vset s.harts h (hartRetired q e t)
      hods := (s.noteVector h q.x.op e.sum).hods, vu := v } := by
  obtain ⟨t2, o2, b2, n, haccept⟩ := State.vectorAccept_idle (s := { s with pending := [.instructionRetire h none] })
    hp hrun hf hi hr hw hq hothers hsb hx hk
  have hart : (vmod s.harts h fun t => { t with vqueue := t.vqueue.drop 1 }).get h = t := (vmod_get_same _ _ _).trans ht
  let f := State.acceptedAs { s with pending := [.instructionRetire h none] } h q
  let u : State := { s with
      pending := [], cycle := s.cycle + (s.nextFree - s.cycle), time := t2, obs := o2, boot := { s.boot with stage := b2 }
      harts := vmod s.harts h fun t => { t with vqueue := t.vqueue.drop 1 }
      vu := { s.vu with rr := h + 1, inflight := [f], busyUntil := n } }
  have hin : u.xinOf f = s.tileIn h q k t := by
    rw [State.xinOf_of_tile (f := f) hx hk, ← hart]
    rfl
  obtain ⟨ti, o, b, hretire⟩ := State.instructionRetire_only (s := u) (f := f) hp hrun rfl ha rfl rfl hsb hx hk
    (e := e) (by rw [hin]; exact hup) (by rw [hin]; exact he)
  refine ⟨{ u with pending := [.instructionRetire h none] }, u.cycle + (f.done - u.cycle), ti, o, b, { u.vu with inflight := [] },
    (stepRunsTheFrontCommand _ _ s hpend).trans haccept, rfl,
    ((stepRunsTheFrontCommand (.instructionRetire h none) [] { u with pending := [.instructionRetire h none] } rfl).trans
      hretire).trans (congrArg _ ?_)⟩
  have hharts : vmod (vmod s.harts h fun t => { t with vqueue := t.vqueue.drop 1 }) h (hartRetired q e) =
      vset s.harts h (hartRetired q e t) := by
    rw [vmod_vmod]
    exact congrArg (fun t => vset s.harts h (hartRetired q e t)) ht
  have hhods : (u.noteVector h q.x.op e.sum).hods = (s.noteVector h q.x.op e.sum).hods :=
    (congrArg State.hods (State.noteVector_congr (s := s) (u := u) rfl h q.x.op e.sum) :)
  rw [← hharts, ← hhods]
  rfl

/-- Settles O12: the three steps are the issue, the acceptance and the retirement of the only instruction. -/
theorem xcaladInstructionRunsToItsEffect : Obligations.XcaladInstructionRunsToItsEffect := by
  unfold Obligations.XcaladInstructionRunsToItsEffect
  intro c h x k s hc hpend ha hquiet hx hk q t i e hup
  obtain ⟨hrun, hinflight, hfence, hcourse, halloc, hqueues⟩ := hquiet
  obtain ⟨hp, hwait⟩ := State.canAct_hart ha
  have hissue : step s = .next (({ s with pending := [.vectorAccept, .instructionRetire h none] } : State).modHart h
      fun t => t.enqueue x) :=
    (stepRunsTheFrontCommand c _ s hpend).trans
      ((exec_issues c h x _ hc).trans (congrArg _ (State.issue_idle ha hx hk (hqueues h))))
  have hhart : (({ s with pending := [.vectorAccept, .instructionRetire h none] } : State).modHart h
      fun t => t.enqueue x).hart h = (s.hart h).enqueue x := State.modHart_hart _ h _
  have hqueue : ((s.hart h).enqueue x).vqueue = [q] := by
    change (s.hart h).vqueue ++ [q] = [q]
    rw [hqueues h]
    rfl
  have hin : State.tileIn (({ s with pending := [.vectorAccept, .instructionRetire h none] } : State).modHart h
      fun t => t.enqueue x) h q k t = i := by
    unfold State.tileIn
    rw [hhart]
    rfl
  obtain ⟨s2, cy, ti, o, b, v, hstep2, hv, hstep3⟩ := State.accept_retire
    (s := ({ s with pending := [.vectorAccept, .instructionRetire h none] } : State).modHart h fun t => t.enqueue x)
    (h := h) (q := q) (k := k) (t := t) (e := e) hp hrun hfence hinflight hcourse halloc (by rw [hhart]; exact hwait)
    (by rw [hhart]; exact hqueue) (fun g hg => by rw [State.modHart_hart_ne _ _ hg]; exact hqueues g) rfl
    (xkindOf_of_xcheck hx) hk (by rw [hhart]; exact HartState.enqueue_drop (hqueues h) x) (by rw [hin]; exact hup)
    (by rw [hin]; rfl) rfl
  refine ⟨_, s2, _, hissue, hstep2, hstep3, rfl, rfl, ?_, fun g hg => ?_, hv, rfl, rfl, rfl, rfl, ?_, rfl, rfl, rfl⟩
  · exact vset_get_same _ _ _
  · exact (vset_get_ne _ _ hg).trans (vmod_get_ne s.harts _ hg)
  · exact (congrArg State.hods (State.noteVector_congr (s := s)
      (u := ({ s with pending := [.vectorAccept, .instructionRetire h none] } : State).modHart h fun t => t.enqueue x)
      rfl h x.op e.sum) :)

end Sys2Proof.Machine

/-! # The predicate instructions -/

namespace Sys2Proof.Machine

/-! ## Bits of a predicate -/

/-- The sum of the powers of two below `2 ^ n` that a test selects has the selected bits and no others. -/
theorem foldl_two_pow_bits (f : Nat → Bool) (n : Nat) :
    (List.range n).foldl (fun a r => if f r then a + 2 ^ r else a) 0 < 2 ^ n ∧
      ∀ r, r < n → ((List.range n).foldl (fun a r => if f r then a + 2 ^ r else a) 0).testBit r = f r := by
  induction n with
  | zero => exact ⟨Nat.one_pos, fun r hr => absurd hr r.not_lt_zero⟩
  | succ n ih =>
    obtain ⟨hlt, hbits⟩ := ih
    rw [List.range_succ, List.foldl_append, List.foldl_cons, List.foldl_nil]
    have htop := Nat.testBit_lt_two_pow hlt
    by_cases hf : f n = true
    · rw [if_pos hf, Nat.add_comm]
      refine ⟨by rw [Nat.pow_succ]; omega, fun r hr => ?_⟩
      rcases Nat.lt_succ_iff_lt_or_eq.mp hr with hr | rfl
      · rw [Nat.testBit_two_pow_add_gt hr, hbits r hr]
      · rw [Nat.testBit_two_pow_add_eq, htop, hf]
        rfl
    · rw [if_neg hf]
      refine ⟨by rw [Nat.pow_succ]; omega, fun r hr => ?_⟩
      rcases Nat.lt_succ_iff_lt_or_eq.mp hr with hr | rfl
      · exact hbits r hr
      · rw [htop, Bool.eq_false_of_not_eq_true hf]

theorem predOf_getLsbD (f : Nat → Bool) {r : Nat} (hr : r < 256) : (predOf f).getLsbD r = f r := by
  unfold predOf
  rw [BitVec.getLsbD_ofNat, (foldl_two_pow_bits f 256).2 r hr, decide_eq_true hr, Bool.true_and]

/-! ## Predicates of a hart after a write and after a retirement -/

/-- The written predicate reads back, p0 as all ones (R114). -/
theorem HartState.setPred_getPred_same (t : HartState) (p : BitVec 3) (v : BitVec 256) :
    (t.setPred p v).getPred p = if p = 0 then BitVec.allOnes 256 else v := by
  unfold HartState.getPred HartState.setPred
  by_cases hp : p = 0
  · rw [if_pos hp, if_pos hp]
  · rw [if_neg hp, if_neg hp, if_neg hp]
    exact vset_get_same _ _ _

theorem HartState.setPred_getPred_ne (t : HartState) {p m : BitVec 3} (hm : m ≠ p) (v : BitVec 256) :
    (t.setPred p v).getPred m = t.getPred m := by
  unfold HartState.getPred HartState.setPred
  by_cases hp : p = 0
  · rw [if_pos hp]
  · have hfin : m.toFin ≠ p.toFin := fun h => hm (BitVec.eq_of_toFin_eq h)
    rw [if_neg hp, vset_get_ne _ _ hfin]

theorem hartRetired_getPred_of_write {e : XEffect} {p : BitVec 3} {v : BitVec 256} (he : e.pred = some (p, v)) (q : XEntry)
    (t : HartState) (m : BitVec 3) : (hartRetired q e t).getPred m = (t.setPred p v).getPred m := by
  unfold hartRetired HartState.getPred HartState.setPred
  simp only [he]
  by_cases hp : p = 0
  · rw [if_pos hp, if_pos hp]
  · rw [if_neg hp, if_neg hp]

theorem hartRetired_getPred_of_none {e : XEffect} (he : e.pred = none) (q : XEntry) (t : HartState) (m : BitVec 3) :
    (hartRetired q e t).getPred m = t.getPred m := by
  unfold hartRetired
  rw [he]
  rfl

/-! ## Instructions whose effect is a predicate write -/

/-- The effect of the instruction is to write `v` to the predicate that TD names, and with COUNT zero nothing (R122). -/
def XIn.WritesPred (x : XIn) (v : BitVec 256) : Prop :=
  x.effect x.mem = if x.count = 0 then {} else x.predEffect v

theorem XIn.writesPred_of_tile {x : XIn} {v : BitVec 256} (hk : x.k.icefield = false) (h : tileEffect x = x.predEffect v) :
    x.WritesPred v := by
  unfold XIn.WritesPred XIn.effect
  rw [← h, ← xEffect_eq_tileEffect hk]

/-- PAND, POR, PANDN and PXOR. -/
theorem XIn.writesPred_plogic {x : XIn} {k : Nat} {v : BitVec 256} (hk : x.k = .plogic k)
    (h : xPlogic k x = x.predEffect v) : x.WritesPred v :=
  XIn.writesPred_of_tile (by rw [hk]; rfl) (by rw [tileEffect, hk]; exact h)

theorem XIn.writesPred_plt {x : XIn} (hk : x.k = .plt) :
    x.WritesPred (predOf fun r => decide (r < x.e.scalar.toNat)) :=
  XIn.writesPred_of_tile (by rw [hk]; rfl) (by rw [tileEffect, hk]; rfl)

theorem XIn.writesPred_pany {x : XIn} (hk : x.k = .pany) :
    x.WritesPred (predOf fun r => x.rows.contains r && (x.validIdx r).any fun i => nonzero x.fa (x.oa.get x.ts i).1) :=
  XIn.writesPred_of_tile (by rw [hk]; rfl) (by rw [tileEffect, hk]; rfl)

theorem XIn.writesPred_pall {x : XIn} (hk : x.k = .pall) :
    x.WritesPred (predOf fun r => x.rows.contains r && !(x.validIdx r).isEmpty &&
      (x.validIdx r).all fun i => nonzero x.fa (x.oa.get x.ts i).1) :=
  XIn.writesPred_of_tile (by rw [hk]; rfl) (by rw [tileEffect, hk]; rfl)

/-- A row's bit of PANY's predicate, in the words of R165. -/
theorem XIn.pany_bit (x : XIn) {r : Nat} (hr : r < 256) :
    (predOf fun r => x.rows.contains r && (x.validIdx r).any fun i => nonzero x.fa (x.oa.get x.ts i).1).getLsbD r =
      decide (r ∈ x.rows ∧ ∃ i ∈ rowIdx x.count r, validAt x.ts x.oa i = true ∧
        nonzero x.fa (x.oa.get x.ts i).1 = true) := by
  rw [predOf_getLsbD _ hr, Bool.eq_iff_iff]
  simp only [XIn.validIdx, Bool.and_eq_true, List.contains_iff_mem, List.any_filter, List.any_eq_true, decide_eq_true_eq]

/-- A row's bit of PALL's predicate, in the words of R165. -/
theorem XIn.pall_bit (x : XIn) {r : Nat} (hr : r < 256) :
    (predOf fun r => x.rows.contains r && !(x.validIdx r).isEmpty &&
        (x.validIdx r).all fun i => nonzero x.fa (x.oa.get x.ts i).1).getLsbD r =
      decide (r ∈ x.rows ∧ (∃ i ∈ rowIdx x.count r, validAt x.ts x.oa i = true) ∧
        ∀ i ∈ rowIdx x.count r, validAt x.ts x.oa i = true → nonzero x.fa (x.oa.get x.ts i).1 = true) := by
  have hsome : (!(x.validIdx r).isEmpty) = true ↔ ∃ i ∈ rowIdx x.count r, validAt x.ts x.oa i = true := by
    simp [XIn.validIdx]
  have hall : ((x.validIdx r).all fun i => nonzero x.fa (x.oa.get x.ts i).1) = true ↔
      ∀ i ∈ rowIdx x.count r, validAt x.ts x.oa i = true → nonzero x.fa (x.oa.get x.ts i).1 = true := by
    simp only [XIn.validIdx, List.all_eq_true, List.mem_filter, and_imp]
  rw [predOf_getLsbD _ hr, Bool.eq_iff_iff, Bool.and_eq_true, Bool.and_eq_true, List.contains_iff_mem, hsome, hall,
    decide_eq_true_eq, and_assoc]

/-! ## What a predicate write leaves in a row and in the rest of the hart -/

/-- The bit of a row in the effect, and in the predicate that TD names after the retirement. -/
theorem XIn.WritesPred.row {x : XIn} {v : BitVec 256} {r : Nat} {b : Bool} (h : x.WritesPred v) (hr : r < 256)
    (hb : v.getLsbD r = b) :
    ((x.effect x.mem).pred.map fun w => w.2.getLsbD r) = (if x.count = 0 then none else some b) ∧
      ((hartRetired x.e (x.effect x.mem) x.hart).getPred (x.a.td.setWidth 3)).getLsbD r =
        (if x.count = 0 then (x.hart.getPred (x.a.td.setWidth 3)).getLsbD r
          else decide (x.a.td.setWidth 3 = (0 : BitVec 3)) || b) := by
  rw [show x.effect x.mem = _ from h]
  by_cases hc : x.count = 0
  · rw [if_pos hc, if_pos hc, if_pos hc, hartRetired_getPred_of_none rfl]
    exact ⟨rfl, rfl⟩
  · rw [if_neg hc, if_neg hc, if_neg hc, hartRetired_getPred_of_write rfl, HartState.setPred_getPred_same]
    refine ⟨congrArg some hb, ?_⟩
    by_cases hn : x.a.td.setWidth 3 = (0 : BitVec 3)
    · rw [if_pos hn, BitVec.getLsbD_allOnes, decide_eq_true hr, decide_eq_true hn, Bool.true_or]
    · rw [if_neg hn, hb, decide_eq_false hn, Bool.false_or]

/-- It writes no other predicate, and no element, extent, Icefield word or bank entry. -/
theorem XIn.WritesPred.frame {x : XIn} {v : BitVec 256} (h : x.WritesPred v) :
    (x.effect x.mem).pred.map (·.1) = (if x.count = 0 then none else some (x.a.td.setWidth 3)) ∧
      (∀ m, m ≠ x.a.td.setWidth 3 → (hartRetired x.e (x.effect x.mem) x.hart).getPred m = x.hart.getPred m) ∧
      (x.effect x.mem).writes = [] ∧ (x.effect x.mem).exts = [] ∧ (x.effect x.mem).ice = [] ∧
      (x.effect x.mem).bank = [] := by
  rw [show x.effect x.mem = _ from h]
  by_cases hc : x.count = 0
  · rw [if_pos hc, if_pos hc]
    exact ⟨rfl, fun m _ => hartRetired_getPred_of_none rfl _ _ m, rfl, rfl, rfl, rfl⟩
  · rw [if_neg hc, if_neg hc]
    exact ⟨rfl, fun m hm => (hartRetired_getPred_of_write rfl _ _ m).trans (x.hart.setPred_getPred_ne hm v),
      rfl, rfl, rfl, rfl⟩

/-- Settles O10: each of the seven is a predicate write whose word has the table's bit in every row. -/
theorem predicateInstructionsCombineRows : Obligations.PredicateInstructionsCombineRows := by
  unfold Obligations.PredicateInstructionsCombineRows
  intro x r hr p q e n after result
  refine ⟨fun hk => ?_, fun hk => ?_, fun hk => ?_, fun hk => ?_, fun hk => ?_, fun hk => ?_, fun hk => ?_, fun hk => ?_⟩
  · exact (XIn.writesPred_plogic (v := p &&& q) hk rfl).row hr BitVec.getLsbD_and
  · exact (XIn.writesPred_plogic (v := p ||| q) hk rfl).row hr BitVec.getLsbD_or
  · exact (XIn.writesPred_plogic (v := p &&& ~~~q) hk rfl).row hr (by
      rw [BitVec.getLsbD_and, BitVec.getLsbD_not, decide_eq_true hr, Bool.true_and])
  · exact (XIn.writesPred_plogic (v := p ^^^ q) hk rfl).row hr BitVec.getLsbD_xor
  · exact (XIn.writesPred_plt hk).row hr (predOf_getLsbD _ hr)
  · exact (XIn.writesPred_pany hk).row hr (x.pany_bit hr)
  · exact (XIn.writesPred_pall hk).row hr (x.pall_bit hr)
  · rcases hk with ⟨k, hk⟩ | hk | hk | hk
    · exact (XIn.writesPred_plogic hk rfl).frame
    · exact (XIn.writesPred_plt hk).frame
    · exact (XIn.writesPred_pany hk).frame
    · exact (XIn.writesPred_pall hk).frame

end Sys2Proof.Machine

/-! # Starting, stopping and dropping courses -/

namespace Sys2Proof.Machine

/-! ## Course commands (R242, R247, R519) -/

/-- A start at an address that no course block has (R519). -/
theorem State.courseStart_misaligned {addr : Word} (ha : addr.toNat % 16 ≠ 0) (s : State) (r : Reader) :
    s.courseStart r addr = s.bondLast r 2 := if_pos ha

/-- A start on a free pending slot (R242). -/
theorem State.courseStart_free {s : State} {addr : Word} (ha : addr.toNat % 16 = 0) (hp : s.mortar.pend = none)
    (r : Reader) : s.courseStart r addr = (s.modMortar fun m => { m with pend := some (addr, r) }).bondLast r 0 := by
  simp [State.courseStart, ha, hp]

/-- A start behind a pending course waits its turn while no course runs, and is refused otherwise (R242, R519). -/
theorem State.courseStart_behind {s : State} {addr : Word} {q : Word × Reader} (ha : addr.toNat % 16 = 0)
    (hp : s.mortar.pend = some q) (r : Reader) :
    s.courseStart r addr = if s.mortar.run = none ∧ s.mortar.waiting = none then
      (s.modMortar fun m => { m with waiting := some (addr, r) }).bondLast r 0 else s.bondLast r 1 := by
  simp [State.courseStart, ha, hp]

theorem State.courseStop_running {s : State} {c : CourseRun} (hrun : s.mortar.run = some c) (r : Reader) :
    s.courseStop r = if s.privileged r = true ∨ c.who = r then (s.modRun CourseRun.stop).bondLast r 0
      else s.bondLast r 2 := by
  simp [State.courseStop, hrun]

theorem State.modRun_running {s : State} {c : CourseRun} (hrun : s.mortar.run = some c) (f : CourseRun → CourseRun) :
    s.modRun f = { s with mortar := { s.mortar with run := some (f c) } } := by
  simp [State.modRun, State.modMortar, hrun]

/-- A drop of the pending course by one who may drop it (R247). -/
theorem State.courseDrop_pending {s : State} {r : Reader} {c : Word × Reader} (hp : s.mortar.pend = some c)
    (hw : s.mortar.waiting = none) (hr : s.privileged r = true ∨ c.2 = r) :
    s.courseDrop r =
      (s.modMortar fun m => { m with pend := none, dropped := m.dropped ++ [c] }).bondLast r 0 := by
  simp [State.courseDrop, State.dropPending, State.modMortar, Mortar.pending, hp, hw, hr]

/-- Settles O25: each command by the case of the sequencer's slots that it meets. -/
theorem courseCommandsChangeTheSequencer : Obligations.CourseCommandsChangeTheSequencer := by
  refine ⟨fun r addr s hr ha hp => ?_, fun r addr q s hr ha hp => ?_, fun r addr s hr ha => ?_,
    fun r c s hr hrun => ?_, fun r c s hr hp hw hmay => ?_⟩
  · exact (next_if_pos hr).trans (congrArg _ (State.courseStart_free ha hp r))
  · refine (next_if_pos hr).trans ((congrArg _ (State.courseStart_behind ha hp r)).trans ?_)
    split <;> rfl
  · exact (next_if_pos hr).trans (congrArg _ (State.courseStart_misaligned ha s r))
  · refine (next_if_pos hr).trans ((congrArg _ (State.courseStop_running hrun r)).trans ?_)
    split
    · rw [State.modRun_running hrun]
      rfl
    · rfl
  · exact (next_if_pos hr).trans (congrArg _ (State.courseDrop_pending hp hw hmay))

/-! ## The beginning of a course (R242, R243) -/

/-- A block that has been read is at hand. -/
theorem State.mortarRead_block {s : State} {key : Nat} {b : Store (BitVec 33)} (hb : s.mortar.block key = some b)
    (at' : Cursor) (base : Word) (os : List Nat) : s.mortarRead key at' base os = (s, some b) := by
  unfold State.mortarRead
  rw [hb]

/-- The course in the words of a course block and of a parameter block. -/
def courseIn (b p : Store (BitVec 33)) : CourseDesc :=
  courseOf (fun o => contData (sget 0 b o)) fun o => contData (sget 0 p o)

/-- The course that COURSE_BEGIN starts, by what its checks answer: it is checked, or finished with the status of the first
check that fails (R243). -/
def State.begun (s : State) (addr : Word) (who : Reader) (fs : Vector OpForm 4) (d : CourseDesc) :
    Option (BitVec 4) → CourseRun
  | none =>
    let first : Cursor := { j := d.firstCol 0 (d.cols 1) 0 }
    { addr, who, slot := s.mortar.slot, forms := fs, d, checked := true, free := s.freeCtr, send := first, at' := first
      since := s.time }
  | some c => { addr, who, slot := s.mortar.slot, forms := fs, d, status := c, finished := true, free := s.freeCtr }

theorem State.begun_spec (s : State) (addr : Word) (who : Reader) (fs : Vector OpForm 4) (d : CourseDesc)
    (failed : Option (BitVec 4)) :
    let r := s.begun addr who fs d failed
    r.addr = addr ∧ r.who = who ∧ r.d = d ∧ r.credits = 4 ∧
      match failed with
      | none => r.checked = true ∧ r.finished = false
      | some c => r.checked = false ∧ r.finished = true ∧ r.status = c := by
  cases failed with
  | none => exact ⟨rfl, rfl, rfl, rfl, rfl, rfl⟩
  | some c => exact ⟨rfl, rfl, rfl, rfl, rfl, rfl, rfl⟩

/-- A course whose blocks are at hand begins (R243). -/
theorem State.courseBegin_eq {s : State} {addr : Word} {who : Reader} {b p : Store (BitVec 33)}
    (hrun : s.mortar.run = none) (hpend : s.mortar.pend = some (addr, who))
    (hgood : ∀ o < 16, s.wordBad (floePart addr) (wordPart addr + o) = none)
    (hb : s.mortar.block keyCourse = some b) (hs : (s.mortar.block keyStatus).isSome = true)
    (hp : s.mortar.block keyParam = some p) (fs : Vector OpForm 4) :
    s.courseBegin fs = (s.modMortar fun m =>
      { m.shift with
        run := some (s.begun addr who fs (courseIn b p) (s.courseCheck who (courseIn b p) fs (contData (sget 0 b 10))))
        slot := !m.slot }).fresh := by
  have hreach : (List.range 16).any (fun o => (s.wordBad (floePart addr) (wordPart addr + o)).isSome) = false := by
    simp only [List.any_eq_false, List.mem_range]
    intro o ho
    simp [hgood o ho]
  unfold State.courseBegin
  simp only [hrun, hpend, hreach, hs, State.mortarRead_block hb, State.mortarRead_block hp, Bool.false_eq_true, if_false,
    if_true, Bool.not_true]
  rfl

/-- Settles O26: the blocks at hand give the course, and its checks whether it runs or has finished. -/
theorem courseStartsWithItsChecks : Obligations.CourseStartsWithItsChecks := by
  intro addr who b p a0 a1 a2 a3 s hpow hstat hrun hpend hgood hb hs hp
  have hgo : (s.powered && s.err.stat == .running) = true := by rw [hpow, hstat]; rfl
  have heq := State.courseBegin_eq hrun hpend hgood hb hs hp #v[a0, a1, a2, a3]
  exact ⟨_, (next_if_pos hgo).trans (congrArg _ heq), rfl, rfl, rfl, rfl, rfl, _, rfl,
    s.begun_spec addr who #v[a0, a1, a2, a3] (courseIn b p) _⟩

end Sys2Proof.Machine

/-! # What an uncorrectable fault changes -/

namespace Sys2Proof.Machine

/-- Nothing but the ports, the windows and the scoreboard changes. -/
def PortsOnly (s t : State) : Prop := ∃ nbr sb, t = { s with nbr := nbr, ice := { s.ice with sb := sb } }

theorem PortsOnly.refl (s : State) : PortsOnly s s := ⟨s.nbr, s.ice.sb, rfl⟩

theorem PortsOnly.trans {s t u : State} (h : PortsOnly s t) (h' : PortsOnly t u) : PortsOnly s u := by
  obtain ⟨_, _, rfl⟩ := h
  obtain ⟨nbr, sb, rfl⟩ := h'
  exact ⟨nbr, sb, rfl⟩

theorem PortsOnly.forEach {α : Type} {s t : State} {f : State → α → State} (h : PortsOnly s t)
    (hf : ∀ u x, PortsOnly u (f u x)) (l : List α) : PortsOnly s (t.forEach l f) := by
  unfold State.forEach
  induction l generalizing t with
  | nil => exact h
  | cons x l ih => exact ih (h.trans (hf t x))

theorem PortsOnly.modPort (s : State) (p : Fin 4) (f : Port → Port) : PortsOnly s (s.modPort p f) := ⟨_, _, rfl⟩

/-- Discarding the arrivals of a window (R378, R381). -/
theorem State.lateArrivals_portsOnly (s : State) (w : Fin 64) : PortsOnly s (s.lateArrivals w) := by
  refine (PortsOnly.refl s).forEach (fun u p => ?_) _
  refine ((PortsOnly.modPort u p _).forEach (fun v a => ?_) _).trans (PortsOnly.modPort _ p _)
  dsimp only
  split <;> exact ⟨_, _, rfl⟩

/-- Closing windows (R381). -/
theorem State.closeWindows_portsOnly (s : State) (sel : Window → Bool) : PortsOnly s (s.closeWindows sel) := by
  refine (PortsOnly.refl s).forEach (fun u w => ?_) _
  split
  · exact PortsOnly.trans ⟨_, _, rfl⟩ (State.lateArrivals_portsOnly _ w)
  · exact .refl u

/-- Event 3 of a recovery: channels, courses and sends stop and windows close (R470). -/
theorem State.stopWork_eq (s : State) :
    ∃ ch nbr sb, s.stopWork = { s with
      drf := { s.drf with ch := ch }, mortar := (s.stopCourses fun _ => true).mortar, nbr := nbr
      ice := { s.ice with sb := sb } } := by
  obtain ⟨ch, nbr, sb, hstop, -⟩ := s.stopEngines_eq
  obtain ⟨nbr', sb', hclose⟩ := s.stopEngines.closeWindows_portsOnly fun _ => true
  refine ⟨ch, nbr', sb', ?_⟩
  rw [State.stopWork, hclose, hstop]

/-- The record that the first uncorrectable fault of a running engine starts (R474). -/
def State.firstFault (s : State) (code : BitVec 8) (who : Src) (loc loc2 : Word) : FaultRec :=
  { code, src := who.src, unit := who.unit, loc, loc2, time := s.nanos, step := s.cycle, jobs := s.openJobs
    ranges := ((s.ice.sb.alloc.filter fun a => a.who.cutShort).flatMap (·.ranges)).filter (·.write)
    marks := s.vu.inflight.flatMap s.wouldMark }

/-- An uncorrectable fault of a running engine halts the harts, stops the work and starts the recovery with its record
(R470). -/
theorem State.uncorrectable_running {s : State} (hstage : 8 ≤ s.boot.stage.toNat) (hstat : s.err.stat = .running)
    (code : BitVec 8) (who : Src) (loc loc2 : Word) :
    ∃ harts ch nbr sb, s.uncorrectable code who loc loc2 = { s with
        err := { s.err with stat := .recovering, recovery := some (s.firstFault code who loc loc2) }
        harts := harts, drf := { s.drf with ch := ch }, mortar := (s.stopCourses fun _ => true).mortar, nbr := nbr
        ice := { s.ice with sb := sb } } ∧
      ∀ h, harts.get h = s.hart h ∨ harts.get h = { s.hart h with halted := true } := by
  obtain ⟨harts, hhalt, hharts⟩ := State.forEach_modHart
    { s with err := { s.err with stat := .recovering, recovery := some (s.firstFault code who loc loc2) } } (fins 16)
    (fun t => { t with halted := true }) fun _ => rfl
  obtain ⟨ch, nbr, sb, hstop⟩ := State.stopWork_eq
    (({ s with err := { s.err with stat := .recovering, recovery := some (s.firstFault code who loc loc2) } } : State).haltAll)
  refine ⟨harts, ch, nbr, sb, ?_, hharts⟩
  have hlate : ¬s.boot.stage.toNat < 8 := Nat.not_lt.mpr hstage
  unfold State.uncorrectable
  simp only [if_neg hlate, hstat]
  refine hstop.trans ?_
  rw [State.haltAll, hhalt]
  rfl

/-! # What the accesses of the sequencer leave -/

/-- The work that a course has done: it stands when the course meets a fault, is asked to stop, writes or ends. -/
def CourseRun.done (r : CourseRun) : CourseRun :=
  { r with fault := none, stopping := false, status := 1, out := [], sum := {}, finished := false }

/-- A hart but for its halt. -/
def HartState.awake (t : HartState) : HartState := { t with halted := false }

/-- What no access to Icefield words changes, not even one that meets an uncorrectable word and starts a recovery: the
step counter, the harts but for their halt, and the work of the running course. -/
structure Standing where
  cycle : Nat
  harts : Hart → HartState
  run : Option CourseRun

/-- What stands of a state. -/
def State.standing (s : State) : Standing :=
  { cycle := s.cycle, harts := fun h => (s.hart h).awake, run := s.mortar.run.map CourseRun.done }

theorem State.hart_of_standing {s t : State} (e : t.standing = s.standing) (h : Hart) :
    (t.hart h).awake = (s.hart h).awake := congrFun (congrArg Standing.harts e) h

theorem standing_foldl {α : Type} {f : State → α → State} (hf : ∀ u x, (f u x).standing = u.standing) (l : List α)
    (s : State) : (l.foldl f s).standing = s.standing := by
  induction l generalizing s with
  | nil => rfl
  | cons x l ih => exact (ih (f s x)).trans (hf s x)

theorem State.forEach_standing {α : Type} {f : State → α → State} (hf : ∀ u x, (f u x).standing = u.standing)
    (l : List α) (s : State) : (s.forEach l f).standing = s.standing := standing_foldl hf l s

theorem standing_fst_ite {α : Type} {c : Prop} [Decidable c] {a b : State × α} {v : Standing} (ha : a.1.standing = v)
    (hb : b.1.standing = v) : (if c then a else b).1.standing = v := by
  split
  · exact ha
  · exact hb

theorem standing_ite {c : Prop} [Decidable c] {a b : State} {v : Standing} (ha : a.standing = v) (hb : b.standing = v) :
    (if c then a else b).standing = v := by
  split
  · exact ha
  · exact hb

/-- Changes of the running course that leave its work. -/
theorem State.modRun_standing (s : State) (f : CourseRun → CourseRun) (hf : ∀ r, (f r).done = r.done) :
    (s.modRun f).standing = s.standing := by
  have hcomp : CourseRun.done ∘ f = CourseRun.done := funext hf
  simp [State.modRun, State.modMortar, State.standing, State.hart, hcomp]

/-- Changes of the sequencer that leave the running course. -/
theorem State.modMortar_standing (s : State) (f : Mortar → Mortar) (hf : ∀ m, (f m).run = m.run) :
    (s.modMortar f).standing = s.standing := by
  simp [State.modMortar, State.standing, State.hart, hf]

/-- Changes of the harts that only halt them. -/
theorem standing_of_halts {s t : State} (hc : t.cycle = s.cycle)
    (hr : t.mortar.run.map CourseRun.done = s.mortar.run.map CourseRun.done)
    (hh : ∀ h, t.hart h = s.hart h ∨ t.hart h = { s.hart h with halted := true }) : t.standing = s.standing := by
  unfold State.standing
  rw [hc, hr]
  congr 1
  funext h
  obtain e | e := hh h
  · rw [e]
  · rw [e]
    rfl

/-! ## Reports and faults -/

theorem State.postOut_standing (s : State) (h : Fin 3) (ws : List Word) : (s.postOut h ws).standing = s.standing :=
  standing_ite rfl rfl

theorem State.reportNow_standing (s : State) (op : BitVec 8) (ws : List Word) : (s.reportNow op ws).standing = s.standing :=
  State.postOut_standing _ _ _

theorem State.report_standing (s : State) (op : BitVec 8) (ws : List Word) : (s.report op ws).standing = s.standing :=
  standing_ite (s.reportNow_standing op ws) rfl

/-- An uncorrectable fault halts the harts and asks the running course to stop, in whatever state it is met. -/
theorem State.uncorrectable_standing (s : State) (code : BitVec 8) (who : Src) (loc loc2 : Word) :
    (s.uncorrectable code who loc loc2).standing = s.standing := by
  by_cases hstage : s.boot.stage.toNat < 8
  · unfold State.uncorrectable
    simp only [if_pos hstage]
    rfl
  · cases hstat : s.err.stat with
    | running =>
      obtain ⟨harts, ch, nbr, sb, heq, hharts⟩ := State.uncorrectable_running (Nat.not_lt.mp hstage) hstat code who loc loc2
      rw [heq]
      refine standing_of_halts rfl ?_ hharts
      change (s.mortar.run.map CourseRun.stop).map CourseRun.done = _
      rw [Option.map_map]
      rfl
    | recovering =>
      unfold State.uncorrectable
      simp only [if_neg hstage, hstat]
      cases s.err.recovery <;> rfl
    | stopped =>
      unfold State.uncorrectable
      simp only [if_neg hstage, hstat]
      exact State.reportNow_standing _ _ _

/-! ## Stored words -/

theorem State.triggerSparing_standing (s : State) (bank row : Nat) :
    (s.triggerSparing bank row).standing = s.standing :=
  standing_ite rfl (standing_ite (s.report_standing _ _) rfl)

theorem State.countCorrection_standing (s : State) (bank q : Nat) :
    (s.countCorrection bank q).standing = s.standing :=
  standing_ite (State.triggerSparing_standing _ _ _) rfl

theorem State.readLevel_standing (s : State) (who : Src) (bank q : Nat) :
    (s.readLevel who bank q).1.standing = s.standing := by
  unfold State.readLevel
  dsimp only
  generalize classify (sget 0 s.ice.cells (s.cellAt bank q)) = found
  cases found with
  | clean | slush | poisoned => rfl
  | single pos v => exact State.countCorrection_standing _ _ _
  | bad => exact State.uncorrectable_standing _ _ _ _ _

theorem State.writeResident_standing (s : State) (f : Fin 64) (w : Nat) (d : Word) (mark : Bool) :
    (s.writeResident f w d mark).standing = s.standing := by
  unfold State.writeResident
  split <;> rfl

theorem State.writeBytes_standing (s : State) (who : Src) (f : Fin 64) (w : Nat) (mask : BitVec 4) (d : Word) (mark : Bool) :
    (s.writeBytes who f w mask d mark).standing = s.standing := by
  refine standing_ite rfl (standing_ite (s.writeResident_standing f w d mark) ?_)
  split
  · exact (State.writeResident_standing _ _ _ _ _).trans (State.readLevel_standing _ _ _ _)
  · rfl

/-! ## The Firn buffer -/

theorem State.firnFlush_standing (s : State) (acc : Nat) : (s.firnFlush acc).standing = s.standing := by
  unfold State.firnFlush
  split
  · rfl
  · split
    · exact standing_foldl (fun u w => u.writeBytes_standing _ _ _ _ _ _) _ _
    · rfl

theorem State.firnOpen_standing (s : State) (acc : Nat) (f : Fin 64) (w : Nat) :
    (s.firnOpen acc f w).standing = s.standing := by
  unfold State.firnOpen
  split
  · rfl
  · exact standing_ite rfl (s.firnFlush_standing acc)

theorem State.gather_standing (s : State) (who : Src) (acc : Nat) (f : Fin 64) (w : IceWrite) :
    (s.gather who acc f w).standing = s.standing := by
  unfold State.gather
  split
  · exact s.firnOpen_standing acc f w.word
  · exact s.writeBytes_standing who f w.word w.mask w.data w.mark

theorem State.writeWords_standing (s : State) (who : Src) (acc : Nat) (f : Fin 64) (ws : List IceWrite) :
    (s.writeWords who acc f ws).standing = s.standing :=
  standing_foldl (fun u w => u.gather_standing who acc f w) ws s

theorem firnGrants_standing (l : List FirnAsk) (s : State) : (firnGrants l s).standing = s.standing := by
  obtain ⟨firn, q, h⟩ := firnGrants_frame l s
  rw [h]
  rfl

theorem State.firnAsk_standing (s : State) (acc : Nat) (who : Requester) : (s.firnAsk acc who).standing = s.standing :=
  standing_ite rfl (firnGrants_standing _ _)

theorem State.firnDrop_standing (s : State) (acc : Nat) : (s.firnDrop acc).standing = s.standing :=
  firnGrants_standing _ _

theorem State.endAccess_standing (s : State) (acc : Nat) : (s.endAccess acc).standing = s.standing := by
  have hdrop : (((s.firnFlush acc).firnDrop acc).morDrop acc).standing = s.standing :=
    (State.firnDrop_standing _ _).trans (s.firnFlush_standing acc)
  unfold State.endAccess
  generalize ((s.firnFlush acc).firnDrop acc).morDrop acc = u at hdrop ⊢
  exact standing_ite hdrop hdrop

/-! ## Accesses of the sequencer (R239) -/

theorem State.courseFault_standing (s : State) (at' : Cursor) (codes : List (BitVec 4)) :
    (s.courseFault at' codes).standing = s.standing := by
  cases codes with
  | nil => rfl
  | cons c l =>
    refine s.modRun_standing _ fun r => ?_
    cases r.fault with
    | none => rfl
    | some q =>
      dsimp only
      split <;> rfl

theorem State.mortarEnd_standing (s : State) (key id : Nat) : (s.mortarEnd key id).standing = s.standing :=
  (State.modMortar_standing _ _ fun _ => rfl).trans (s.endAccess_standing id)

theorem State.mortarForget_standing (s : State) (key : Nat) : (s.mortarForget key).standing = s.standing := by
  unfold State.mortarForget
  split
  · exact s.mortarEnd_standing key _
  · rfl

theorem State.mortarPresent_standing (s : State) (key : Nat) (ws : List Nat) (write : Bool) :
    (s.mortarPresent key ws write).1.standing = s.standing := by
  unfold State.mortarPresent
  split <;> rfl

theorem State.mortarAccess_standing (s : State) (key : Nat) (f : Fin 64) (ws : List Nat) (write : Bool) :
    (s.mortarAccess key f ws write).1.standing = s.standing := by
  unfold State.mortarAccess
  have hpresent := s.mortarPresent_standing key ws write
  generalize s.mortarPresent key ws write = p at hpresent ⊢
  obtain ⟨u, a⟩ := p
  have hasked (c d : Bool) : (if c then (if d then u.allocate a.id else u).firnAsk a.id .mortar
      else if d then u.allocate a.id else u).standing = s.standing :=
    standing_ite ((State.firnAsk_standing _ _ _).trans (standing_ite hpresent hpresent)) (standing_ite hpresent hpresent)
  refine standing_fst_ite hpresent (standing_fst_ite (hasked _ _) ?_)
  dsimp only
  split
  · exact standing_fst_ite (hasked _ _) (hasked _ _)
  · exact standing_fst_ite (hasked _ _) (hasked _ _)

/-- The write of output words leaves the work of the course, whether it is done or must wait. -/
theorem State.mortarWrite_standing (s : State) (key : Nat) (at' : Cursor) (o : OutWords) :
    (s.mortarWrite key at' o).1.standing = s.standing := by
  have hfault := s.courseFault_standing at' (o.ws.filterMap fun w => s.wordBad o.floe w.1)
  unfold State.mortarWrite
  dsimp only
  generalize s.courseFault at' (o.ws.filterMap fun w => s.wordBad o.floe w.1) = u at hfault ⊢
  refine standing_fst_ite ((u.mortarForget_standing key).trans hfault) ?_
  have haccess := u.mortarAccess_standing key o.floe
    ((o.ws.filter fun w => (s.wordBad o.floe w.1).isNone).map (·.1)) true
  generalize u.mortarAccess key o.floe _ true = p at haccess ⊢
  obtain ⟨v, _ | id⟩ := p
  · exact haccess.trans hfault
  · dsimp only
    rw [State.modMortar_standing, State.mortarEnd_standing, State.writeWords_standing, State.modRun_standing]
    · exact haccess.trans hfault
    · exact fun _ => rfl
    · exact fun _ => rfl

/-! ## Output words and the end of a course (R246) -/

theorem State.mortarFlush_standing (s : State) (at' : Cursor) (os : List OutWords) :
    (s.mortarFlush at' os).1.standing = s.standing := by
  induction os generalizing s with
  | nil => rfl
  | cons o os ih =>
    have hwrite := s.mortarWrite_standing keyOut at' o
    unfold State.mortarFlush
    generalize s.mortarWrite keyOut at' o = p at hwrite ⊢
    obtain ⟨u, _ | _⟩ := p
    · exact hwrite
    · have hrest := u.modRun_standing (fun r => { r with out := os }) fun r => rfl
      exact (ih _).trans (hrest.trans hwrite)

theorem State.mortarSettle_standing (s : State) : s.mortarSettle.standing = s.standing := by
  unfold State.mortarSettle
  split
  · rfl
  · exact standing_ite (s.modRun_standing _ fun r => rfl) rfl

theorem State.mortarOut_standing (s : State) : s.mortarOut.standing = s.standing := by
  unfold State.mortarOut
  split
  · rfl
  · next r _ =>
    have hflush := s.mortarFlush_standing r.outAt r.out
    generalize s.mortarFlush r.outAt r.out = p at hflush ⊢
    obtain ⟨u, _ | _⟩ := p
    · exact hflush
    · exact (State.mortarSettle_standing u).trans hflush

end Sys2Proof.Machine

/-! # Transfers and the end of a course -/

namespace Sys2Proof.Machine

/-! ## The end of a course (R244, R246) -/

theorem regAt_injOn (b : TileReg) : ∀ i ∈ List.range 8, ∀ j ∈ List.range 8, regAt b i = regAt b j → i = j := by
  intro i hi j hj h
  have hv : (b.val + i) % 64 = (b.val + j) % 64 := congrArg Fin.val h
  simp only [List.mem_range] at hi hj
  omega

/-- Changing some registers, each once. -/
theorem State.forEach_modTile (s : State) (l : List Nat) (g : Nat → TileReg) (f : Tile → Tile) :
    s.forEach l (fun s i => s.modTile (g i) f) =
      { s with tiles := (l.map g).foldl (fun v t => vmod v t f) s.tiles } := by
  unfold State.forEach
  induction l generalizing s with
  | nil => rfl
  | cons i l ih => exact ih _

/-- A register that holds zero with clear slush bits and the full extent (R244). -/
def Tile.cleared (t : Tile) : Tile := { t with data := [], upset := [], vr := 256, vc := 64 }

/-- The working registers of a course that ends are cleared, and nothing else changes (R244). -/
theorem State.clearWorking_eq (s : State) (d : CourseDesc) :
    ∃ tiles, s.clearWorking d = { s with tiles := tiles } ∧
      ∀ i < 8, tiles.get (regAt d.wreg.toFin i) = (s.tiles.get (regAt d.wreg.toFin i)).cleared := by
  refine ⟨_, s.forEach_modTile (List.range 8) (regAt d.wreg.toFin) Tile.cleared, fun i hi => ?_⟩
  have hnodup : ((List.range 8).map (regAt d.wreg.toFin)).Nodup :=
    List.Nodup.map_on (regAt_injOn _) List.nodup_range
  rw [foldl_vmod_get _ _ hnodup, if_pos (List.mem_map_of_mem (List.mem_range.mpr hi))]

theorem Hart.hart?_reader (h : Hart) : Reader.hart? (Hart.reader h) = some h := dif_pos h.isLt

/-- Noting a course for its order changes the orders alone. -/
theorem State.noteCourse_eq (s : State) (c : CourseRun) : ∃ hods, s.noteCourse c = { s with hods := hods } := by
  unfold State.noteCourse
  split
  · split
    · exact ⟨_, rfl⟩
    · exact ⟨s.hods, rfl⟩
  · exact ⟨s.hods, rfl⟩

/-- What a course that completes leaves to its hart: its flags, and the statistics of its last row band (R246). -/
def CourseRun.onHart (c : CourseRun) (t : HartState) : HartState :=
  { t with csr := { t.csr with vflags := t.csr.vflags.or c.flags }
           bank := if c.checked && c.status == 1 then ssetMany {} t.bank c.bank else t.bank }

/-- The sequencer after a course has left it: its accesses are ended and its blocks forgotten. -/
def State.courseLeaves (s : State) : State :=
  (s.forEach s.mortar.acc fun s a => s.endAccess a.id).modMortar fun m => { m with run := none, acc := [], aux := [] }

/-- A finished course of a hart whose SUMMARY and STATUS are written (R246). -/
theorem State.courseComplete_done {s s1 : State} {c : CourseRun} {h : Hart} (hdrop : s.mortar.dropped = [])
    (hrun : s.mortar.run = some c) (hfin : c.finished = true) (hchk : c.checked = true) (hwho : c.who = Hart.reader h)
    (hdone : s.mortarDone (doneWords c.addr c.sum.toWord c.status) = (s1, true)) :
    s.courseComplete =
      (((s1.courseLeaves.clearWorking c.d).modHart h c.onHart).noteCourse c).raiseEvent h 1 := by
  have hh : Reader.hart? c.who = some h := by rw [hwho, Hart.hart?_reader]
  unfold State.courseComplete State.raiseFor
  rw [hdrop]
  dsimp only
  rw [hrun]
  dsimp only
  rw [hdone, hh, if_neg (by simp [hfin])]
  dsimp only
  rw [if_pos hchk]
  rfl

/-- A course does not complete before every line of its writes is acknowledged (R246, R363). -/
theorem State.courseComplete_unsettled {s : State} {c : CourseRun} (hdrop : s.mortar.dropped = [])
    (hrun : s.mortar.run = some c) (hopen : s.mortarSettled = false) : s.courseComplete = s := by
  have hdone (o : OutWords) : s.mortarDone o = (s, false) := by simp [State.mortarDone, hopen]
  unfold State.courseComplete
  rw [hdrop]
  dsimp only
  rw [hrun]
  dsimp only
  rw [hdone, ite_self]

theorem State.courseLeaves_hart (s : State) (h : Hart) : (s.courseLeaves.hart h).awake = (s.hart h).awake := by
  have hloop : (s.forEach s.mortar.acc fun s a => s.endAccess a.id).standing = s.standing :=
    State.forEach_standing (f := fun s (a : MortarAcc) => s.endAccess a.id) (fun u a => u.endAccess_standing a.id) _ s
  unfold State.courseLeaves
  generalize (s.forEach s.mortar.acc fun s a => s.endAccess a.id) = u at hloop ⊢
  exact State.hart_of_standing hloop h

/-- What the completion of a course leaves (R244, R246, R410). -/
theorem State.courseComplete_spec {s s1 : State} {c : CourseRun} {h : Hart} (hdrop : s.mortar.dropped = [])
    (hrun : s.mortar.run = some c) (hfin : c.finished = true) (hchk : c.checked = true) (hwho : c.who = Hart.reader h)
    (hdone : s.mortarDone (doneWords c.addr c.sum.toWord c.status) = (s1, true)) :
    let t := s.courseComplete
    t.mortar.run = none ∧
      (∀ i < 8, ∃ u : Tile, t.tiles.get (regAt c.d.wreg.toFin i) = u.cleared) ∧
      (t.hart h).csr.evpend.getLsbD 1 = true ∧ (t.hart h).csr.vflags = (s1.hart h).csr.vflags.or c.flags ∧
      (t.hart h).x = (s1.hart h).x ∧ (t.hart h).pc = (s1.hart h).pc := by
  intro t
  obtain ⟨tiles, hclear, hregs⟩ := s1.courseLeaves.clearWorking_eq c.d
  obtain ⟨hods, hnote⟩ := ((s1.courseLeaves.clearWorking c.d).modHart h c.onHart).noteCourse_eq c
  have ht : t = State.raiseEvent
      { ({ s1.courseLeaves with tiles := tiles } : State).modHart h c.onHart with hods := hods } h 1 :=
    (State.courseComplete_done hdrop hrun hfin hchk hwho hdone).trans (by rw [hnote, hclear])
  have hhart : t.hart h = { c.onHart (s1.courseLeaves.hart h) with
      csr := { (c.onHart (s1.courseLeaves.hart h)).csr with
        evpend := (c.onHart (s1.courseLeaves.hart h)).csr.evpend ||| 2 } } := by
    have hon : State.hart { ({ s1.courseLeaves with tiles := tiles } : State).modHart h c.onHart with hods := hods } h =
        c.onHart (s1.courseLeaves.hart h) := State.modHart_hart _ _ _
    rw [ht, State.raiseEvent, State.modHart_hart, hon]
    rfl
  have hkept := s1.courseLeaves_hart h
  rw [hhart]
  refine ⟨by rw [ht]; rfl, fun i hi => ⟨_, by rw [ht]; exact hregs i hi⟩, by simp, ?_, ?_, ?_⟩
  · exact (congrArg (fun t : HartState => t.csr.vflags.or c.flags) hkept :)
  · exact (congrArg HartState.x hkept :)
  · exact (congrArg HartState.pc hkept :)

/-- A ring that lacks records ends with PEER when its time is over (R273). -/
theorem State.peerTimeout_missing {s : State} {r : CourseRun} (hrun : s.mortar.run = some r) (hbn : r.d.bn = 15)
    (hchk : r.checked = true) (hfin : r.finished = false)
    (hmiss : (s.win r.d.ringWin).arr.toNat < (r.d.ring - 1) * r.d.m) :
    s.peerTimeout = (s.timeTo (r.since + 1000 * (r.d.par 1).toNat)).modRun fun r =>
      { r with finished := true, out := [], status := 8 } := by
  simp [State.peerTimeout, State.ringArrivals, hrun, hbn, hchk, hfin, hmiss]

/-- Settles O27: a course completes once its words are acknowledged, and PEER_TIMEOUT ends one that lacks records. -/
theorem coursesEndWithStatusAndEvent : Obligations.CoursesEndWithStatusAndEvent := by
  refine ⟨fun c h s1 s hpow hdrop hrun hfin hchk hwho => ⟨fun hopen => ?_, fun hdone => ?_⟩,
    fun r s hpow hrun hbn hchk hfin hmiss => ?_⟩
  · exact (next_if_pos hpow).trans (congrArg _ (State.courseComplete_unsettled hdrop hrun hopen))
  · obtain ⟨hnone, hregs, hrest⟩ := State.courseComplete_spec hdrop hrun hfin hchk hwho hdone
    refine ⟨_, next_if_pos hpow, hnone, fun i hi => ?_, hrest⟩
    obtain ⟨u, hu⟩ := hregs i hi
    rw [hu]
    exact ⟨rfl, rfl, rfl⟩
  · refine (next_if_pos hpow).trans (congrArg _ ?_)
    rw [State.peerTimeout_missing hrun hbn hchk hfin hmiss, State.modRun_running (c := r) (by exact hrun)]
    rfl

end Sys2Proof.Machine

/-! # Operand and result transfers -/

namespace Sys2Proof.Machine

/-! ## Bond steps of the vector unit (R138, R245) -/

/-- The step counter is moved to `n`, which changes the clock, the steps of start-up, the vector unit and the observation
unit alone. -/
def PassesTo (n : Nat) (s t : State) : Prop :=
  ∃ time obs boot vu, t = { s with cycle := n, time := time, obs := obs, boot := boot, vu := vu }

theorem PassesTo.trans {n m : Nat} {s t u : State} (h : PassesTo n s t) (h' : PassesTo m t u) : PassesTo m s u := by
  obtain ⟨_, _, _, _, rfl⟩ := h
  obtain ⟨time, obs, boot, vu, rfl⟩ := h'
  exact ⟨time, obs, boot, vu, rfl⟩

theorem State.advanceTo_passes {s : State} {n : Nat} (h : s.cycle ≤ n) : PassesTo n s (s.advanceTo n) := by
  obtain ⟨obs, heq⟩ := s.advanceTo_frame n
  rw [Nat.add_sub_cancel' h] at heq
  exact ⟨_, _, _, _, heq⟩

/-- Work that the vector unit takes up at a step. -/
theorem State.occupy_passes {s : State} {n : Nat} (h : s.cycle ≤ n) (steps : Nat) :
    PassesTo n s ((s.occupy n steps).accepted 1) := by
  obtain ⟨time, obs, boot, vu, heq⟩ := State.advanceTo_passes h
  unfold State.occupy
  rw [heq]
  exact ⟨_, _, _, _, rfl⟩

/-- A bond step that the vector unit takes moves the step counter to its last step (R138, R245). -/
theorem State.bondTake_passes (s : State) (o : Nat) :
    PassesTo (if o = 0 then s.cycle else s.nextFree + o - 1) s (s.bondTake o) := by
  unfold State.bondTake
  by_cases ho : o = 0
  · rw [if_pos ho, if_pos ho]
    exact ⟨s.time, s.obs, s.boot, s.vu, rfl⟩
  · rw [if_neg ho, if_neg ho]
    have hfree : s.cycle ≤ s.nextFree := Nat.le_trans (Nat.le_succ _) (Nat.le_max_left _ _)
    have hocc := State.occupy_passes hfree o
    have hcycle : ((s.occupy s.nextFree o).accepted 1).cycle = s.nextFree := by
      obtain ⟨time, obs, boot, vu, heq⟩ := hocc
      rw [heq]
    exact hocc.trans (State.advanceTo_passes (by rw [hcycle]; omega))

/-- A bond step that meets no check does its work on the state in which it has been taken. -/
theorem State.bondChecked_unchecked {s : State} {r : CourseRun} {steps : Nat} {check : Option LaneCheck}
    {withhold : CourseRun → CourseRun} {work : State → State} (h : s.bondFails check = none) :
    s.bondChecked r steps check withhold work = work (s.bondTake steps) := by
  obtain ⟨time, obs, boot, vu, htake⟩ := s.bondTake_passes steps
  have hsame : (s.bondTake steps).bondFails check = s.bondFails check := by rw [htake]; rfl
  unfold State.bondChecked
  dsimp only
  rw [hsame, h]

/-! ## Operand transfers (R232, R233, R236) -/

/-- The next transfer of a course that is neither held up nor over, while the quadrant has a credit for it. -/
theorem State.nextTransfer_ready {s : State} {r : CourseRun} {c : Cursor} {t : Send}
    (hc : c = r.d.nextSend (r.d.cols 1 + r.d.cols 2 + 4) r.send) (hchk : r.checked = true) (hfin : r.finished = false)
    (hstop : r.stopping = false) (hlost : r.lost = false) (hover : r.d.over c = false) (hfault : r.fault = none)
    (hcred : s.mortar.opCredits ≠ 0) (ht : r.d.sendAt c.band c.sweep c.j c.ph = some t) :
    s.nextTransfer r = some (c, t) := by
  subst hc
  have hcred' : (s.mortar.opCredits == 0) = false := beq_eq_false_iff_ne.mpr hcred
  simp only [State.nextTransfer, hchk, hfin, hstop, hlost, hover, hfault, hcred', ht]
  rfl

/-- What a transfer of an operand tile leaves: a credit less, and the tile with its tag at the port. -/
theorem State.sendOperand_spec (s : State) (slot : Bool) (c : Cursor) {t : Send} (hk : t.kind ≠ 4) (o : OpTile) :
    (s.sendOperand slot c t o).mortar.opCredits = s.mortar.opCredits - 1 ∧
      (s.sendOperand slot c t o).mortar.sent = some (opTag slot o, o) ∧
      (s.sendOperand slot c t o).tiles = s.tiles ∧ (s.sendOperand slot c t o).harts = s.harts := by
  have hk' : (t.kind == 4) = false := beq_eq_false_iff_ne.mpr hk
  simp only [State.sendOperand, hk', Bool.false_eq_true, if_false, State.toggleObs, State.countEvent, State.dropBlocks,
    State.modRun, State.modMortar, and_self]

/-- A transfer whose tile is read goes out, with the vector unit's steps where a prologue applies to it. -/
theorem State.operandTransfer_sends {s s1 : State} {r : CourseRun} {c : Cursor} {t : Send} {o : OpTile}
    (hrun : s.mortar.run = some r) (hnext : s.nextTransfer r = some (c, t)) (htile : s.transferTile r c t = (s1, some o))
    (hpro : r.prologue t = true → s1.mayAccept = true) :
    s.operandTransfer = (if r.prologue t = true then s1.bondTake (s1.bondSteps 4) else s1).sendOperand r.slot c t o := by
  unfold State.operandTransfer
  rw [hrun]
  dsimp only
  rw [hnext]
  dsimp only
  rw [htile]
  dsimp only
  by_cases hp : r.prologue t = true
  · simp [hp, hpro hp, State.bondChecked_unchecked (check := none) (s := s1) rfl]
  · simp [hp]

theorem State.operandTransfer_spec {s s1 : State} {r : CourseRun} {c : Cursor} {t : Send} {o : OpTile}
    (hrun : s.mortar.run = some r) (hnext : s.nextTransfer r = some (c, t)) (hk : t.kind ≠ 4)
    (htile : s.operandTile { r with send := c } t = (s1, some o)) (hpro : r.prologue t = true → s1.mayAccept = true) :
    s.operandTransfer.mortar.opCredits = s1.mortar.opCredits - 1 ∧
      s.operandTransfer.mortar.sent = some (opTag r.slot o, o) ∧ s.operandTransfer.tiles = s1.tiles ∧
      s.operandTransfer.harts = s1.harts := by
  have htile' : s.transferTile r c t = (s1, some o) := by
    rw [State.transferTile, if_neg (by simpa using hk), htile]
  obtain ⟨time, obs, boot, vu, htake⟩ := s1.bondTake_passes (s1.bondSteps 4)
  rw [State.operandTransfer_sends hrun hnext htile' hpro]
  split
  · rw [htake]
    exact State.sendOperand_spec _ r.slot c hk o
  · exact State.sendOperand_spec s1 r.slot c hk o

/-! ## Result transfers (R233, R236, R460) -/

/-- The tag check is that of R233 and of log entry 159. -/
theorem CourseRun.tagOk_eq_true {r : CourseRun} {tag : DWord} (hslot : tag.extractLsb' 0 2 = if r.slot then 1 else 0)
    (hfmt : tag.extractLsb' 5 4 = if r.intResult (tag.extractLsb' 2 3) then 6 else 0) (hresv : tag.getLsbD 63 = false)
    (howed : tagKey tag ∈ r.owed) : r.tagOk tag = true := by
  have hfmt' : tag.extractLsb' 5 4 = if r.intResult (tagKey tag).1 then Fmt.int32.code else Fmt.fp32.code := hfmt
  simp only [CourseRun.tagOk, hslot, hfmt', hresv, List.contains_iff_mem.mpr howed, beq_self_eq_true, Bool.not_false,
    Bool.and_self]

/-- A result tile that is owed lands while a landing credit is out. -/
theorem State.resultTransfer_lands {s : State} {r : CourseRun} {tag : DWord} (hrun : s.mortar.run = some r)
    (hcred : r.credits ≠ 0) (hok : r.tagOk tag = true) (payload : List Word) (slush : List Nat) :
    ∃ u r', s.resultTransfer tag payload slush = u ∧ u.mortar.run = some r' ∧ r'.credits = r.credits - 1 ∧
      r'.landed.length = r.landed.length + 1 ∧ r'.owed = r.owed.erase (tagKey tag) ∧
      u.tiles = s.tiles ∧ u.ice = s.ice ∧ u.harts = s.harts := by
  unfold State.resultTransfer
  rw [hrun]
  dsimp only
  rw [hok, if_neg (by simp), if_neg hcred, State.modRun_running hrun]
  exact ⟨_, _, rfl, rfl, rfl, by simp, rfl, rfl, rfl, rfl⟩

/-- A result whose tag fails its check, or that no course awaits, is the fault MORTAR with the tag as its place. -/
theorem State.resultTransfer_refused {s : State} {tag : DWord} (hbad : ∀ r, s.mortar.run = some r → r.tagOk tag = false)
    (payload : List Word) (slush : List Nat) :
    s.resultTransfer tag payload slush = s.uncorrectable 0x08 .mortar (tag.extractLsb' 0 32) (tag.extractLsb' 32 32) := by
  unfold State.resultTransfer
  cases hrun : s.mortar.run with
  | none => rfl
  | some r => simp [hbad r hrun]

/-- A byte that counts holds 255 once it reaches it (R508). -/
theorem incSat_byte (b : BitVec 8) : incSat b = if b = 255 then 255 else b + 1 := by
  change (if b = 255 then b else b + 1) = _
  by_cases h : b = 255
  · rw [if_pos h, if_pos h, h]
  · rw [if_neg h, if_neg h]

/-- Settles O28: transfers of operands, landings, refused tags, and returned credits. -/
theorem transfersUseTheirCredits : Obligations.TransfersUseTheirCredits := by
  refine ⟨?_, ?_, ?_, fun s hpow => (next_if_pos hpow).trans ?_⟩
  · intro r c t o s1 s hpow hrun hc hchk hfin hstop hlost hover hfault hcred ht hk htile hpro
    exact ⟨_, next_if_pos hpow, State.operandTransfer_spec hrun
      (State.nextTransfer_ready hc hchk hfin hstop hlost hover hfault hcred ht) hk htile hpro⟩
  · intro r tag payload slush s hpow hrun hcred hslot hfmt hresv howed
    obtain ⟨u, r', hu, hspec⟩ := State.resultTransfer_lands hrun hcred
      (CourseRun.tagOk_eq_true hslot hfmt hresv howed) payload slush
    exact ⟨u, r', (next_if_pos hpow).trans (congrArg _ hu), hspec⟩
  · intro tag payload slush s hpow hstat hstage hbad
    obtain ⟨harts, ch, nbr, sb, hfault, -⟩ := State.uncorrectable_running hstage hstat 0x08 .mortar
      (tag.extractLsb' 0 32) (tag.extractLsb' 32 32)
    refine ⟨_, (next_if_pos hpow).trans (congrArg _ ((State.resultTransfer_refused hbad payload slush).trans hfault)), ?_⟩
    exact ⟨rfl, rfl, rfl, rfl⟩
  · simp only [State.operandCredit, State.modMortar, incSat_byte]

end Sys2Proof.Machine

/-! # The pieces of bond work -/

namespace Sys2Proof.Machine

/-- The bonds with result tiles, each with its command (R249). -/
def bondCommands (check : Option LaneCheck) : List (Nat × Instr) :=
  [(0, .b00Stack check), (1, .b01Running check), (2, .b02Header check), (3, .b03Stretcher check), (4, .b04Soldier check),
    (5, .b05Flemish check), (6, .b06English check), (7, .b07Dutch check), (8, .b08Monk check), (9, .b09Sailor check),
    (10, .b10Rowlock check), (11, .b11Garden check), (12, .b12Basket check), (13, .b13Quoin check), (14, .b14Coping check)]

theorem State.mayAccept_powered {s : State} (h : s.mayAccept = true) : s.powered = true := by
  simp only [State.mayAccept, Bool.and_eq_true] at h
  obtain ⟨⟨⟨hp, -⟩, -⟩, -⟩ := h
  exact hp

/-- A prologue's command takes a result tile of its own course first (R253, R254). -/
theorem State.prologueStep_mine {s : State} {r : CourseRun} {bond : Nat} (hrun : s.mortar.run = some r) (hbn : r.d.bn = bond)
    (hready : r.ready = true) (hl : r.landed ≠ []) (gather : Bool) (check : Option LaneCheck) :
    s.prologueStep bond gather check = s.bondStep bond check := by
  unfold State.prologueStep
  rw [hrun]
  simp [hbn, hready, hl]

/-- The command of a bond is a step of its course. -/
theorem exec_bondCommand {check : Option LaneCheck} {n : Nat} {c : Instr} {r : CourseRun} {s : State}
    (hc : (n, c) ∈ bondCommands check) (hp : s.powered = true) (hrun : s.mortar.run = some r) (hbn : r.d.bn = n)
    (hready : r.ready = true) (hl : n = 3 ∨ n = 4 → r.landed ≠ []) : exec c s = .next (s.bondStep n check) := by
  simp only [bondCommands, List.mem_cons, Prod.mk.injEq, List.not_mem_nil, or_false] at hc
  rcases hc with ⟨rfl, rfl⟩ | ⟨rfl, rfl⟩ | ⟨rfl, rfl⟩ | ⟨rfl, rfl⟩ | ⟨rfl, rfl⟩ | ⟨rfl, rfl⟩ | ⟨rfl, rfl⟩ | ⟨rfl, rfl⟩ |
    ⟨rfl, rfl⟩ | ⟨rfl, rfl⟩ | ⟨rfl, rfl⟩ | ⟨rfl, rfl⟩ | ⟨rfl, rfl⟩ | ⟨rfl, rfl⟩ | ⟨rfl, rfl⟩
  iterate 3 exact next_if_pos hp
  · exact (next_if_pos hp).trans (congrArg _ (State.prologueStep_mine hrun hbn hready (hl (.inl rfl)) false check))
  · exact (next_if_pos hp).trans (congrArg _ (State.prologueStep_mine hrun hbn hready (hl (.inr rfl)) true check))
  all_goals exact next_if_pos hp

/-- Blocks that are all at hand are read without a change. -/
theorem State.mortarReads_atHand {s : State} (at' : Cursor) {l : List (Nat × Word × List Nat)}
    (h : ∀ q ∈ l, (s.mortar.block q.1).isSome = true) : s.mortarReads at' l = (s, true) := by
  induction l with
  | nil => rfl
  | cons q l ih =>
    obtain ⟨key, base, os⟩ := q
    obtain ⟨b, hb⟩ := Option.isSome_iff_exists.mp (h (key, base, os) List.mem_cons_self)
    unfold State.mortarReads
    rw [State.mortarRead_block hb]
    exact ih fun q hq => h q (List.mem_cons_of_mem _ hq)

/-- A step of a course with no outputs waiting, whose result tiles and blocks are at hand, does a piece of its work. -/
theorem State.bondStep_piece {s : State} {r : CourseRun} {n : Nat} (hp : s.powered = true) (hrun : s.mortar.run = some r)
    (hbn : r.d.bn = n) (hchk : r.checked = true) (hfin : r.finished = false) (hrep : r.replay = false) (hout : r.out = [])
    (hcut : r.cut = false) (hkept : r.kept = [] ∨ r.d.ends r.at' = false) (hready : r.ready = true)
    (haux : ∀ q ∈ r.auxOf, (s.mortar.block q.1).isSome = true) (check : Option LaneCheck) :
    s.bondStep n check = s.bondPiece r check := by
  have hgo : (!s.powered || !r.checked || r.finished || r.d.bn != n) = false := by simp [hp, hchk, hfin, hbn]
  have hspent : r.spent = false := by simp [CourseRun.spent, hcut, hready]
  have hkeep : (!r.kept.isEmpty && (r.spent || r.d.ends r.at')) = false := by
    obtain h | h := hkept <;> simp [h, hspent]
  unfold State.bondStep
  rw [hrun]
  dsimp only
  rw [hgo, hout]
  unfold State.bondWork
  rw [hrep, hkeep, hcut, hready, State.mortarReads_atHand r.at' haux]
  dsimp only
  rw [hrun]
  rfl

/-- A check that does not fail does not fail where it is left out for work beside the vector unit either. -/
theorem State.bondFails_filter {s : State} {check : Option LaneCheck} (h : s.bondFails check = none) (works : Bool) :
    s.bondFails (check.filter fun _ => works) = none := by
  cases works with
  | true =>
    cases check with
    | none => rfl
    | some c => exact h
  | false => simp [State.bondFails]

/-- A piece of work that meets no failed check: its steps are taken, the course moves on, and its outputs go out. -/
theorem State.bondPiece_eq {s : State} {r : CourseRun} {check : Option LaneCheck} (ha : s.mayAccept = true)
    (hbusy : s.workingBusy = false) (hf : s.bondFails check = none) :
    let w := r.work fun key o => sget 0 ((s.mortar.block key).getD []) o
    s.bondPiece r check = (((s.bondTake (s.bondSteps (r.steps w))).modRun fun _ => { w.advance with outAt := r.at' }).dropBlocks
      fun k => decide (k < keyIndex)).mortarOut := by
  intro w
  have hmay : (!s.mayBond || s.workingBusy) = false := by simp [State.mayBond, ha, hbusy]
  unfold State.bondPiece
  rw [hmay, if_neg Bool.false_ne_true]
  exact State.bondChecked_unchecked (State.bondFails_filter hf r.works)

/-- What the outputs of a piece leave of its course: its work, and, where there are none, its SUMMARY. -/
theorem State.mortarOut_run {s : State} {r : CourseRun} (hrun : s.mortar.run = some r) :
    ∃ r2, s.mortarOut.mortar.run = some r2 ∧ r2.done = r.done ∧ (r.out = [] → r2.sum = r.sum) := by
  have hwork : s.mortarOut.mortar.run.map CourseRun.done = some r.done := by
    refine (congrArg Standing.run s.mortarOut_standing).trans ?_
    change s.mortar.run.map CourseRun.done = _
    rw [hrun]
    rfl
  obtain ⟨r2, hr2, hdone⟩ := Option.map_eq_some_iff.mp hwork
  refine ⟨r2, hr2, hdone, fun hout => ?_⟩
  have hsettle : s.mortarOut = s.mortarSettle := by
    unfold State.mortarOut
    rw [hrun]
    dsimp only
    rw [hout]
    rfl
  rw [hsettle] at hr2
  unfold State.mortarSettle at hr2
  rw [hrun] at hr2
  dsimp only at hr2
  split at hr2
  · rw [State.modRun_running hrun] at hr2
    rw [← Option.some.inj hr2]
    rfl
  · rw [hrun] at hr2
    rw [Option.some.inj hr2]

/-- Settles O29: the command is a step of its course, the step a piece of work, and neither the vector unit's steps nor the
writes of outputs change what the piece gives. -/
theorem bondStepDoesTheNextPieceOfWork : Obligations.BondStepDoesTheNextPieceOfWork := by
  intro check n c r s hc ha hrun hbn hchk hfin hrep hout hcut hkept hbusy hready hl haux hf w r1 o
  have hp := State.mayAccept_powered ha
  have hexec : exec c s = .next (s.bondPiece r check) :=
    (exec_bondCommand hc hp hrun hbn hready hl).trans
      (congrArg _ (State.bondStep_piece hp hrun hbn hchk hfin hrep hout hcut hkept hready haux check))
  have hpiece := State.bondPiece_eq (r := r) ha hbusy hf
  obtain ⟨time, obs, boot, vu, htake⟩ := s.bondTake_passes o
  have htaken : (s.bondTake o).mortar.run = some r := by rw [htake]; exact hrun
  have hmod := State.modRun_running htaken fun _ => { r1 with outAt := r.at' }
  have hcycle : (((s.bondTake o).modRun fun _ => { r1 with outAt := r.at' }).dropBlocks
      fun k => decide (k < keyIndex)).mortarOut.cycle = (if o = 0 then s.cycle else s.nextFree + o - 1) := by
    refine (congrArg Standing.cycle (State.mortarOut_standing _)).trans ?_
    rw [hmod, htake]
    rfl
  obtain ⟨r2, hr2, hdone, hsum⟩ := State.mortarOut_run
    (s := ((s.bondTake o).modRun fun _ => { r1 with outAt := r.at' }).dropBlocks fun k => decide (k < keyIndex))
    (r := { r1 with outAt := r.at' }) (by rw [hmod]; rfl)
  exact ⟨_, r2, hexec.trans (congrArg _ hpiece), hr2, (congrArg CourseRun.at' hdone :), (congrArg CourseRun.rows hdone :),
    (congrArg CourseRun.acc hdone :), (congrArg CourseRun.stat hdone :), (congrArg CourseRun.made hdone :),
    (congrArg CourseRun.kept hdone :), hsum, (congrArg CourseRun.flags hdone :), (congrArg CourseRun.landed hdone :),
    (congrArg CourseRun.credits hdone :), hcycle⟩

end Sys2Proof.Machine

/-! # The elements of stack bonds, and the probabilities of the backward bond -/

namespace Sys2Proof.Machine

/-! ## Elements of B00 to B02 (R251) -/

/-- An INT32 element that no stage touches is converted as it is. -/
theorem CourseRun.outElem_int {r : CourseRun} {l : Landed} (hs : r.d.staged = false) (hi : l.int = true) (aux : Aux) (p : Nat) :
    r.outElem aux l p =
      let v := convert .int32 r.d.fo r.d.sat ((contData (sget 0 l.elems p)).setWidth 64)
      (EWrite.of p v (contMark (sget 0 l.elems p)), v.flags) := by
  unfold CourseRun.outElem
  dsimp only
  rw [hs, hi]
  rfl

/-- An FP32 element that no stage touches is converted from its container. -/
theorem CourseRun.outElem_fp {r : CourseRun} {l : Landed} (hs : r.d.staged = false) (hi : l.int = false) (aux : Aux) (p : Nat) :
    r.outElem aux l p =
      let v := (FW.ofCont (sget 0 l.elems p)).to r.d.fo r.d.sat
      (EWrite.of p v (contMark (sget 0 l.elems p)), v.flags) := by
  have hfp : l.fp p = FW.ofCont (sget 0 l.elems p) := by
    unfold Landed.fp
    rw [hi]
    rfl
  unfold CourseRun.outElem
  dsimp only
  rw [hs, hi, hfp]
  rfl

/-- An element of a bond with stages passes through them in FP32. -/
theorem CourseRun.outElem_staged {r : CourseRun} (hs : r.d.staged = true) (aux : Aux) (l : Landed) (p : Nat) :
    r.outElem aux l p =
      let z := r.stages aux (p % 64) (l.fp p)
      (EWrite.of p (z.to r.d.fo r.d.sat) z.mark, (z.to r.d.fo r.d.sat).flags) := by
  unfold CourseRun.outElem
  dsimp only
  rw [hs, Bool.not_true, Bool.and_false]
  rfl

/-- The stages of a stack bond: the scale of the row or τ, the bias, the activation (R251). -/
theorem CourseRun.stages_stack {r : CourseRun} (hbn : r.d.bn < 3) (aux : Aux) (c : Nat) (x : FW) :
    r.stages aux c x =
      let g := 64 * r.at'.j + c
      let x := if r.d.scv = true then x.op .mul r.d.s (FW.ofCont (aux 0 g))
        else if r.d.bias = true ∨ r.d.tau ≠ 0x3F800000 then x.op .mul r.d.s (FW.const r.d.tau) else x
      let y := if r.d.bias = true then x.op .add r.d.s (FW.ofCont (aux 1 g)) else x
      activate r.d.s ((r.d.par 0).extractLsb' 0 3).toNat y := by
  unfold CourseRun.stages
  simp only [Bool.or_eq_true, bne_iff_ne, if_pos hbn]

/-- A stack bond is staged when it has a scale, a bias, a τ other than one, or an activation. -/
theorem CourseDesc.staged_stack {d : CourseDesc} (hbn : d.bn < 3) (h : d.scv = true ∨ d.bias = true ∨ d.tau ≠ 0x3F800000 ∨
    (d.par 0).extractLsb' 0 3 ≠ 0) : d.staged = true := by
  simp only [CourseDesc.staged, if_pos hbn, Bool.or_eq_true, bne_iff_ne, or_assoc]
  exact h

/-! ## Probabilities of B07 (R262) -/

section
variable {lse x : FW} (strict : Bool) (k : Option Nat)

theorem dutchP_nan (h : lse.val.isNan = true) : (dutchP strict lse x k).w = nanF.w := by
  simp [dutchP, h]

theorem dutchP_negInf (h : lse.val = .inf true) : (dutchP strict lse x k).w = 0 := by
  simp [dutchP, h, Num.isNan, FW.const]

theorem dutchP_inf (h : lse.val = .inf false) (hx : x.val = .inf false) : (dutchP strict lse x k).w = oneF.w := by
  simp [dutchP, h, hx, Num.isNan]

/-- The probabilities under an LSE that is a number. -/
theorem dutchP_number (hn : lse.val.isNan = false) (ht : lse.val ≠ .inf true) (hf : lse.val ≠ .inf false) :
    (x.val = .inf true → (dutchP strict lse x none).w = 0) ∧
      (x.val ≠ .inf true → dutchP strict lse x none = (x.op .sub strict lse).sfu .exp strict) := by
  constructor <;> intro hx <;> simp [dutchP, hn, ht, hf, hx, FW.const]

/-- The probabilities of a row whose LSE source is the count `n` of its +infinity scores (log entry 161). -/
theorem dutchP_count (hn : lse.val.isNan = false) (ht : lse.val ≠ .inf true) (hf : lse.val ≠ .inf false) (n : Nat) :
    (x.val = .inf false → (dutchP strict lse x (some n)).w = oneOver n) ∧
      (x.val ≠ .inf false → x.val.isNan = false → (dutchP strict lse x (some n)).w = 0) := by
  constructor
  · intro hx
    simp [dutchP, hn, ht, hf, hx, FW.const]
  · intro hx hxn
    simp [dutchP, hn, ht, hf, hx, hxn, FW.const]

end

/-- Settles O30: elements with and without stages, and the cases of R262. -/
theorem stackConvertsEachElement : Obligations.StackConvertsEachElement := by
  refine ⟨fun r aux l p _ hs hi => CourseRun.outElem_fp hs hi aux p,
    fun r aux l p _ hs hi => CourseRun.outElem_int hs hi aux p, fun r aux l p hbn h => ?_, fun strict lse x n => ⟨dutchP_nan strict none, dutchP_negInf strict none,
      dutchP_inf strict none, fun hn ht hf => (dutchP_number strict hn ht hf).1,
      fun hn ht hf => (dutchP_number strict hn ht hf).2, fun hn ht hf => dutchP_count strict hn ht hf n⟩⟩
  rw [CourseRun.outElem_staged (CourseDesc.staged_stack hbn h), CourseRun.stages_stack hbn]

end Sys2Proof.Machine

/-! # The ring of B15 and a block out of reach -/

namespace Sys2Proof.Machine

/-- A checked B15 course of one row, whose blocks are named in a floe that is not in use. -/
def unreachableRing : CourseRun :=
  { addr := 0, who := 0, forms := Vector.replicate 4 { fmt := .bf16 }, d := { bond := 15, m := 1 }, checked := true }

/-- The engine after reset with that course at work. -/
def unreachableRingState : State :=
  { State.reset with mortar := { State.reset.mortar with run := some unreachableRing } }

/-- What the statement calls the read of the own records and their write, with the place of a fault at sweep 1. -/
theorem ownRecords_unreachable :
    let os := offs (1024 * unreachableRing.own) (16 * extentOf unreachableRing.d.m unreachableRing.own)
    let home := unreachableRing.d.par 2 + BitVec.ofNat 32 (16 * unreachableRing.d.m * unreachableRing.d.rank)
    ∃ s1 s2 m, unreachableRingState.mortarRead keyIndex {} unreachableRing.d.out os = (s1, some m) ∧
      s1.mortarWrite keyOut {} { floe := floePart home, ws := os.map fun i => (wordPart home + i, sget 0 m i, 0xF) } =
        (s2, true) ∧ s2.mortar.run = some { unreachableRing with fault := some (5, {}) } :=
  ⟨_, _, _, rfl, rfl, rfl⟩

/-- B15 itself makes the copy before any sweep: a fault that the copy meets stands at sweep 0. -/
theorem exec_b15Lintel_unreachable :
    ∃ t : State, exec (.b15Lintel none) unreachableRingState = .next t ∧
      t.mortar.run = some { unreachableRing with fault := some (5, { sweep := 0 }), own := 1 } :=
  ⟨_, rfl, rfl⟩

/-- Refutes O31: the copy of the own records to a place out of reach is a fault of the course at sweep 0, while the
statement reads and writes them at sweep 1. In the engine after reset with a B15 course of one row, no floe is in use: the
fault BOUND (status 5) that the command records stands at sweep 0, and the one of the statement at sweep 1. -/
theorem not_prologuesAndRingHeads : ¬ Obligations.ProloguesAndRingHeads := by
  intro h
  obtain ⟨hcopy, -, -⟩ := h.2 none unreachableRing unreachableRingState (by decide) rfl rfl rfl rfl rfl rfl rfl rfl
  obtain ⟨s1, s2, m, hread, hwrite, hrun⟩ := ownRecords_unreachable
  obtain ⟨t, ht, htrun, -⟩ := hcopy (by decide) s1 s2 _ m hread hwrite hrun
  obtain ⟨u, hu, hurun⟩ := exec_b15Lintel_unreachable
  obtain rfl : t = u := Host.Outcome.next.inj (ht.symm.trans hu)
  have hfault : some ((5 : BitVec 4), ({} : Cursor)) = some (5, { sweep := 0 }) :=
    congrArg CourseRun.fault (Option.some.inj (htrun.symm.trans hurun))
  exact absurd hfault (by decide)

end Sys2Proof.Machine

/-! # The symbol code of a stored word -/

namespace Sys2Proof.Machine

/-! ## The field of the symbols (R304) -/

/-- A product by the bits of its second factor. -/
theorem gfMul_bits (a b : BitVec 4) :
    gfMul a b = (if b.getLsbD 0 then a else 0) ^^^ (if b.getLsbD 1 then gfAlpha a else 0) ^^^
      (if b.getLsbD 2 then gfAlpha (gfAlpha a) else 0) ^^^ (if b.getLsbD 3 then gfAlpha (gfAlpha (gfAlpha a)) else 0) := rfl

theorem gfAlpha_gfMul : ∀ a b : BitVec 4, gfAlpha (gfMul a b) = gfMul a (gfAlpha b) := by decide

theorem gfMul_zero : ∀ a : BitVec 4, gfMul a 0 = 0 := by decide

/-- Both sides are sums over the bits of the last factor. -/
theorem gfMul_assoc (a b c : BitVec 4) : gfMul a (gfMul b c) = gfMul (gfMul a b) c := by
  rw [gfMul_bits b c, gfMul_bits (gfMul a b) c]
  simp only [gfMul_xor_right, apply_ite (gfMul a), gfMul_zero, gfAlpha_gfMul]

theorem gfMul_left_comm (a b c : BitVec 4) : gfMul a (gfMul b c) = gfMul b (gfMul a c) := by
  rw [gfMul_assoc, gfMul_comm a b, ← gfMul_assoc]

theorem eq_zero_of_gfMul_eq_zero : ∀ a b : BitVec 4, gfMul a b = 0 → a = 0 ∨ b = 0 := by decide

theorem gfAlpha_eq : ∀ a : BitVec 4, gfAlpha a = gfMul 2 a := by decide

/-! ## Powers of α -/

theorem gfPow_add (m n : Nat) : gfPow (m + n) = gfMul (gfPow m) (gfPow n) := by
  induction n with
  | zero => exact ((by decide : ∀ a, a = gfMul a 1) _)
  | succ n ih => rw [← Nat.add_assoc, gfPow, gfPow, ih, gfAlpha_gfMul]

theorem gfPow_mod (n : Nat) : gfPow (n % 15) = gfPow n := by
  have hperiod : ∀ k, gfPow (15 * k + n % 15) = gfPow (n % 15) := by
    intro k
    induction k with
    | zero => simp
    | succ k ih =>
      rw [show 15 * (k + 1) + n % 15 = 15 * k + n % 15 + 15 by omega, gfPow_add, ih]
      exact (by decide : ∀ a, gfMul a (gfPow 15) = a) _
  rw [← hperiod (n / 15), Nat.div_add_mod]

/-- The code positions have different powers. -/
theorem gfPow_injOn : ∀ p q : Fin 11, gfPow p.val = gfPow q.val → p = q := by decide

/-! ## Multiples of the generator -/

/-- The coefficient at a code position of the generator times x^i: 1, 0x7, 0xE and 0x8 from the highest on (R304). -/
def generatorCoeff (i p : Nat) : BitVec 4 :=
  if p = i then 0x8 else if p = i + 1 then 0xE else if p = i + 2 then 0x7 else if p = i + 3 then 1 else 0

/-- The coefficient at a code position of the generator times a polynomial. -/
def generatorMultiple (m : Fin 8 → BitVec 4) (p : Nat) : BitVec 4 :=
  (List.finRange 8).foldl (fun a i => a ^^^ gfMul (m i) (generatorCoeff i.val p)) 0

/-- A codeword is a multiple of the generator. -/
def GeneratorDivides (c : BitVec 44) : Prop := ∃ m : Fin 8 → BitVec 4, ∀ p, p < 11 → cwSymbol c p = generatorMultiple m p

theorem generatorMultiple_xor (m n : Fin 8 → BitVec 4) (p : Nat) :
    generatorMultiple (fun i => m i ^^^ n i) p = generatorMultiple m p ^^^ generatorMultiple n p := by
  have hsum : ∀ k : Fin 8 → BitVec 4, generatorMultiple k p =
      ((List.finRange 8).map fun i => gfMul (k i) (generatorCoeff i.val p)).foldl (· ^^^ ·) 0 := fun k => by
    rw [generatorMultiple, List.foldl_map]
  simp only [hsum, gfMul_xor, foldl_xor_map]

theorem GeneratorDivides.xor {c d : BitVec 44} (hc : GeneratorDivides c) (hd : GeneratorDivides d) :
    GeneratorDivides (c ^^^ d) := by
  obtain ⟨m, hm⟩ := hc
  obtain ⟨n, hn⟩ := hd
  exact ⟨fun i => m i ^^^ n i, fun p hp => by rw [cwSymbol_xor, hm p hp, hn p hp, generatorMultiple_xor]⟩

/-- The quotients of the powers of x by the generator: the coefficient `n` places below the first. -/
def quotientCoeff : Nat → BitVec 4
  | 0 => 1
  | 1 => 7
  | 2 => gfMul 7 7 ^^^ 0xE
  | n + 3 => gfMul 7 (quotientCoeff (n + 2)) ^^^ gfMul 0xE (quotientCoeff (n + 1)) ^^^ gfMul 8 (quotientCoeff n)

/-- The codeword of one data symbol by the generator. -/
def symbolQuotient (i : Fin 8) (v : BitVec 4) (j : Fin 8) : BitVec 4 :=
  if j ≤ i then gfMul v (quotientCoeff (i.val - j.val)) else 0

theorem cwSymbol_symbolAt : ∀ (i : Fin 8) (p : Fin 11) (v : BitVec 4),
    cwSymbol (encodeClean (symbolAt i.val v)) p.val = generatorMultiple (symbolQuotient i v) p.val := by
  decide

theorem generatorDivides_symbolAt (i : Fin 8) (v : BitVec 4) : GeneratorDivides (encodeClean (symbolAt i.val v)) :=
  ⟨symbolQuotient i v, fun p hp => cwSymbol_symbolAt i ⟨p, hp⟩ v⟩

/-- A word's codeword is the sum of its symbols' codewords. -/
theorem generatorDivides_encodeClean (d : Word) : GeneratorDivides (encodeClean d) := by
  rw [word_symbols d]
  simp only [encodeClean_xor]
  exact (((((((generatorDivides_symbolAt 0 _).xor (generatorDivides_symbolAt 1 _)).xor (generatorDivides_symbolAt 2 _)).xor
    (generatorDivides_symbolAt 3 _)).xor (generatorDivides_symbolAt 4 _)).xor (generatorDivides_symbolAt 5 _)).xor
    (generatorDivides_symbolAt 6 _)).xor (generatorDivides_symbolAt 7 _)

/-! ## The symbols of a codeword -/

theorem cwSymbol_encodeClean_data (d : Word) {i : Nat} (hi : i < 8) :
    cwSymbol (encodeClean d) (i + 3) = d.extractLsb' (4 * i) 4 := by
  rw [cwSymbol, if_neg (by omega), Nat.add_sub_cancel]
  refine BitVec.eq_of_getLsbD_eq fun k hk => ?_
  have hin : 4 * i + k < 32 := by omega
  have hdata : (encodeClean d).getLsbD (4 * i + k) = d.getLsbD (4 * i + k) := by
    rw [encodeClean, codeword, BitVec.getLsbD_append, if_pos hin]
  simp only [BitVec.getLsbD_extractLsb', hdata]

/-- The syndrome is the codeword's polynomial at a power of α. -/
theorem syndrome_eq (c : BitVec 44) (j : Nat) :
    syndrome c j = (List.range 11).foldl (fun a p => a ^^^ gfMul (cwSymbol c p) (gfPow (j * p))) 0 := by
  rw [syndrome, positions, List.foldl_map]
  simp only [gfPow_mod]

/-! ## Wrong symbols -/

theorem syndrome_symbolError : ∀ (p : Fin 11) (j : Fin 3) (v : BitVec 4),
    syndrome (symbolError p.val v) j.val = gfMul v (gfPow (j.val * p.val)) := by
  decide

theorem classify_symbolError : ∀ (p : Fin 11) (v : BitVec 4), v ≠ 0 → classify (symbolError p.val v) = .single p.val v := by
  decide

/-- Correcting a wrong symbol takes its error off. -/
theorem correctAt_symbolError (c : BitVec 44) (p : Nat) (v : BitVec 4) : correctAt (c ^^^ symbolError p v) p v = c := by
  rw [correctAt, ← symbolError, BitVec.xor_assoc, BitVec.xor_self, BitVec.xor_zero]

/-- The syndromes of a clean word and of one with a single error are in geometric progression (R306). -/
theorem geometric_of_classify {c : BitVec 44} (h : classify c = .clean ∨ ∃ k z, classify c = .single k z) :
    gfMul (syndrome c 0) (syndrome c 2) = gfMul (syndrome c 1) (syndrome c 1) := by
  unfold classify at h
  dsimp only at h
  split at h
  · next hclean =>
    simp only [Bool.and_eq_true, decide_eq_true_eq] at hclean
    obtain ⟨⟨h0, h1⟩, h2⟩ := hclean
    rw [h0, h1, h2]
  · split at h
    · simp at h
    · split at h
      · simp at h
      · split at h
        · next hgeo =>
          simp only [Bool.and_eq_true, decide_eq_true_eq] at hgeo
          exact hgeo.2.symm
        · simp at h

theorem gfMul_gfMul_comm (a b c d : BitVec 4) : gfMul (gfMul a b) (gfMul c d) = gfMul (gfMul a c) (gfMul b d) := by
  rw [← gfMul_assoc, gfMul_left_comm b, gfMul_assoc]

/-- The cross terms of a square cancel. -/
theorem gfMul_self_xor (a b : BitVec 4) : gfMul (a ^^^ b) (a ^^^ b) = gfMul a a ^^^ gfMul b b := by
  simp only [gfMul_xor, gfMul_xor_right, gfMul_comm b a]
  rw [BitVec.xor_assoc, ← BitVec.xor_assoc (gfMul a b), BitVec.xor_self, BitVec.zero_xor]

/-- How far the syndromes of two errors, of values `v` and `w` at the powers `x` and `y`, are from a geometric progression:
what is left of the products is the two with both `v` and `w`. -/
theorem syndromes_of_two (v w x y : BitVec 4) :
    gfMul (v ^^^ w) (gfMul v (gfMul x x) ^^^ gfMul w (gfMul y y)) =
      gfMul (gfMul v x ^^^ gfMul w y) (gfMul v x ^^^ gfMul w y) ^^^ gfMul (gfMul v w) (gfMul (x ^^^ y) (x ^^^ y)) := by
  have hv : gfMul (gfMul v x) (gfMul v x) = gfMul v (gfMul v (gfMul x x)) := by rw [gfMul_gfMul_comm, ← gfMul_assoc]
  have hw : gfMul (gfMul w y) (gfMul w y) = gfMul w (gfMul w (gfMul y y)) := by rw [gfMul_gfMul_comm, ← gfMul_assoc]
  rw [gfMul_self_xor (gfMul v x), gfMul_self_xor x, hv, hw]
  simp only [gfMul_xor, gfMul_xor_right, ← gfMul_assoc, gfMul_left_comm w v]
  ac_rfl

/-- Two wrong symbols never look like a clean word or a single error. -/
theorem classify_two_errors {p q : Fin 11} {v w : BitVec 4} (hpq : p ≠ q) (hv : v ≠ 0) (hw : w ≠ 0) :
    ¬(classify (symbolError p.val v ^^^ symbolError q.val w) = .clean ∨
      ∃ k z, classify (symbolError p.val v ^^^ symbolError q.val w) = .single k z) := by
  intro h
  have hgeo := geometric_of_classify h
  have hone : ∀ a, gfMul a 1 = a := by decide
  have hs : ∀ j : Fin 3, syndrome (symbolError p.val v ^^^ symbolError q.val w) j.val =
      gfMul v (gfPow (j.val * p.val)) ^^^ gfMul w (gfPow (j.val * q.val)) := fun j => by
    rw [syndrome_xor, syndrome_symbolError, syndrome_symbolError]
  have h0 := hs 0
  have h1 := hs 1
  have h2 := hs 2
  simp only [Fin.val_zero, Fin.val_one, Fin.val_two, Nat.zero_mul, Nat.one_mul, Nat.two_mul, gfPow_add, gfPow, hone]
    at h0 h1 h2
  rw [h0, h1, h2, syndromes_of_two] at hgeo
  have hzero : gfMul (gfMul v w) (gfMul (gfPow p.val ^^^ gfPow q.val) (gfPow p.val ^^^ gfPow q.val)) = 0 :=
    (by decide : ∀ a b : BitVec 4, a ^^^ b = a → b = 0) _ _ hgeo
  have hpow : gfPow p.val ^^^ gfPow q.val ≠ 0 := fun e => hpq (gfPow_injOn p q (BitVec.xor_eq_zero_iff.mp e))
  obtain e | e := eq_zero_of_gfMul_eq_zero _ _ hzero
  · exact (eq_zero_of_gfMul_eq_zero _ _ e).elim hv hw
  · exact (eq_zero_of_gfMul_eq_zero _ _ e).elim hpow hpow

/-! ## The statement -/

/-- Settles O11: the field, the clean codewords as multiples of the generator, and the errors by their syndromes. -/
theorem symbolCodeCorrectsOneAndDetectsTwo : Obligations.SymbolCodeCorrectsOneAndDetectsTwo := by
  refine ⟨⟨fun a b c => ⟨gfMul_comm a b, gfMul_xor_right a b c, gfMul_assoc a b c, ?_⟩, by decide, by decide, by decide, rfl,
    fun n => gfAlpha_eq _⟩, fun d => ⟨fun i hi => cwSymbol_encodeClean_data d hi, fun j hj => if_pos hj,
    generatorDivides_encodeClean d, fun j hj => ?_, fun s i who hs => ⟨?_, ?_⟩⟩, fun d p q v w hp hq hpq hv hw => ?_⟩
  · exact (by decide : ∀ a, gfMul a 1 = a) a
  · rw [← syndrome_eq]
    exact syndrome_encodeClean d ⟨j, hj⟩
  · exact (sget_sset 0 _ i i _ hs).trans (if_pos rfl)
  · exact congrArg Prod.snd (State.readLs_clean ((sget_sset 0 _ i i _ hs).trans (if_pos rfl)) who)
  · have hsingle := classify_symbolError ⟨p, hp⟩ v hv
    have htwo := classify_two_errors (p := ⟨p, hp⟩) (q := ⟨q, hq⟩) (fun e => hpq (congrArg Fin.val e)) hv hw
    rw [BitVec.xor_assoc, classify_pattern, classify_pattern]
    exact ⟨classify_encodeClean d, ⟨hsingle, correctAt_symbolError _ p v, cwData_encodeClean d⟩,
      fun k z e => htwo (.inr ⟨k, z, e⟩), fun e => htwo (.inl e)⟩

end Sys2Proof.Machine

/-! # The scrub of the local store -/

namespace Sys2Proof.Machine

/-- A word with one wrong symbol is read corrected, written back and counted (R404, R468). -/
theorem State.readLs_single {s : State} {i p : Nat} {d : Word} {v : BitVec 4} (hp : p < 11) (hv : v ≠ 0)
    (hd : sget 0 s.ks.store i = encodeClean d ^^^ symbolError p v) (who : Src) :
    s.readLs who i =
      (({ s with err := { s.err with ksCe := incSat s.err.ksCe } } : State).setLs i (encodeClean d), some d) := by
  simp only [State.readLs, hd, classify_pattern, classify_symbolError ⟨p, hp⟩ v hv, correctAt_symbolError,
    cwData_encodeClean]

/-- The symbol at bit 4k of a codeword, data symbols first, by its code position (R304). -/
theorem symbolError_of_bits (k : Fin 11) (v : BitVec 4) :
    v.setWidth 44 <<< (4 * k.val) = symbolError (if k.val < 8 then k.val + 3 else k.val - 8) v := by
  revert k v
  decide

/-- The state in which the scrubber reads: its position is on the next word. -/
def State.scrubMoved (s : State) : State := { s with ks := { s.ks with scrubAt := (s.ks.scrubAt + 1) % 131072 } }

theorem exec_localStoreScrub {s : State} (hp : s.powered = true) :
    exec .localStoreScrub s = .next (s.scrubMoved.readLs .scrubber s.ks.scrubAt).1 :=
  congrArg _ (if_pos hp)

/-- Settles O60: the word at the scrub position is read, which corrects it where one symbol is wrong. -/
theorem localStoreScrubCorrects : Obligations.LocalStoreScrubCorrects := by
  intro d k v s hp hs hv
  refine ⟨fun hd => ?_, fun hd => ?_⟩
  · rw [exec_localStoreScrub hp, State.readLs_clean (s := s.scrubMoved) hd]
    rfl
  · have hpos : (if k.val < 8 then k.val + 3 else k.val - 8) < 11 := by split <;> omega
    rw [symbolError_of_bits] at hd
    rw [exec_localStoreScrub hp, State.readLs_single (s := s.scrubMoved) hpos hv hd]
    exact ⟨_, rfl, rfl, fun i => sget_sset 0 _ _ i _ hs, rfl, rfl, rfl⟩

end Sys2Proof.Machine

/-! # Commits of the floe table -/

namespace Sys2Proof.Machine

/-! ## Messages in a hod -/

theorem State.postOut_eq (s : State) (h : Fin 3) (ws : List Word) :
    ∃ hod outQ, s.postOut h ws = { s with hods := { s.hods with hod := hod, outQ := outQ } } := by
  unfold State.postOut
  split
  · exact ⟨_, s.hods.outQ, rfl⟩
  · exact ⟨s.hods.hod, _, rfl⟩

theorem State.reply_eq (s : State) (hod : Fin 3) (op : BitVec 8) (tag job st : BitVec 16) (ws : List Word) :
    ∃ hod' outQ, s.reply hod op tag job st ws = { s with hods := { s.hods with hod := hod', outQ := outQ } } := by
  unfold State.reply
  split
  · exact ⟨_, _, rfl⟩
  · exact s.postOut_eq _ _

theorem State.endOrder_eq (s : State) (o : OpenOrder) (st : BitVec 16) (ws : List Word) :
    ∃ hod outQ, s.endOrder o st ws = { s with hods := { s.hods with
      hod := hod, outQ := outQ, openOrders := s.hods.openOrders.filter fun p => p.id != o.id } } := by
  obtain ⟨hod, outQ, h⟩ := s.reply_eq o.hod o.op o.tag o.job st ws
  exact ⟨hod, outQ, by rw [State.endOrder, h]; rfl⟩

/-- A report goes to Hod 0, or before READY to those that are held (R424, R489). -/
theorem State.report_eq (s : State) (op : BitVec 8) (ws : List Word) :
    ∃ hod outQ seq held, s.report op ws = { s with
      hods := { s.hods with hod := hod, outQ := outQ, reportSeq := seq }, boot := { s.boot with held := held } } := by
  unfold State.report
  split
  · obtain ⟨hod, outQ, h⟩ := State.postOut_eq
      { s with hods := { s.hods with reportSeq := s.hods.reportSeq + 1 } } 0
      (msgHeader op true 0 s.hods.reportSeq (s.hods.hod.get 0).neg 0 0 0 ++ ws)
    exact ⟨hod, outQ, _, _, h⟩
  · exact ⟨_, _, _, _, rfl⟩

/-! ## Who writes CE_ICE_FCMD (R288, R431) -/

theorem foldl_vset_get {α : Type} {n : Nat} (l : List (Fin n)) (x : α) (v : Vector α n) (j : Fin n) :
    (l.foldl (fun v i => vset v i x) v).get j = if j ∈ l then x else v.get j := by
  induction l generalizing v with
  | nil => simp
  | cons i l ih => rw [List.foldl_cons, ih, vset_get]; by_cases hi : j = i <;> simp [hi]

theorem State.forEach_setFstat (s : State) (l : List Reader) (c : BitVec 4) :
    (s.forEach l fun s q => s.setFstat q c) =
      { s with ice := { s.ice with fstat := l.foldl (fun v q => vset v q c) s.ice.fstat } } := by
  unfold State.forEach
  induction l generalizing s with
  | nil => rfl
  | cons q l ih => exact ih (s.setFstat q c)

/-- The outcomes of the readers, with PREEMPTED for those whose write of the step is not taken. -/
def State.preempted (s : State) (r : Reader) (others : List Reader) : Vector (BitVec 4) 17 :=
  (s.losers r others).foldl (fun v q => vset v q 8) s.ice.fstat

theorem State.preempted_get (s : State) (r : Reader) (others : List Reader) (q : Reader) :
    (s.preempted r others).get q = if q ∈ s.losers r others then 8 else s.ice.fstat.get q := foldl_vset_get _ _ _ _

theorem State.fcmdWrite_taken {s : State} {r : Reader} {others : List Reader} (hm : s.mayWrite r = true)
    (ht : s.takes r others = true) (f : State → State) :
    s.fcmdWrite r others f = f { s with ice := { s.ice with fstat := s.preempted r others } } := by
  rw [State.fcmdWrite, hm, if_neg (by decide), if_pos ht, fsPreempted, State.forEach_setFstat]
  rfl

theorem State.fcmdWrite_beaten {s : State} {r : Reader} {others : List Reader} (hm : s.mayWrite r = true)
    (ht : s.takes r others = false) (f : State → State) : s.fcmdWrite r others f = s.setFstat r 8 := by
  rw [State.fcmdWrite, hm, if_neg (by decide), ht, if_neg (by decide), fsPreempted]

theorem exec_floeCommit {s : State} (hp : s.powered = true) (r : Reader) (f : Fin 64) (others : List Reader) :
    exec (.floeCommit r f others) s = .next (s.fcmdWrite r others fun s => s.floeCommit r f) := congrArg _ (if_pos hp)

theorem exec_floeRead {s : State} (hp : s.powered = true) (r : Reader) (f : Fin 64) (others : List Reader) :
    exec (.floeRead r f others) s = .next (s.fcmdWrite r others fun s => s.floeRead r f) := congrArg _ (if_pos hp)

theorem exec_floeCommitEffect {s : State} (hp : s.powered = true) : exec .floeCommitEffect s = .next s.commitEffect :=
  congrArg _ (if_pos hp)

/-! ## Checking and accepting a commit (R285, R286) -/

/-- The checks of a commit read the configuration, the floe table and the commit that runs. -/
theorem State.commitCheck_congr {s t : State} (hc : t.cfg = s.cfg) (hf : t.ice.floes = s.ice.floes)
    (hk : t.ice.commit = s.ice.commit) (f : Fin 64) (resv : Bool) (e : FloeEntry) :
    t.commitCheck f resv e = s.commitCheck f resv e := by
  have hfloe : t.floe = s.floe := funext fun g => by rw [State.floe, State.floe, hf]
  simp only [State.commitCheck, hc, hfloe, hk]

/-- A commit but for its access at the scoreboard. -/
def Commit.unpresented (c : Commit) : Commit := { c with sb := none }

/-- A commit that is presented gets its access, among the waiting ones. -/
theorem State.presentCommit_eq (s : State) :
    ∃ commit waiting nextId, s.presentCommit = { s with ice := { s.ice with
        commit := commit, sb := { s.ice.sb with waiting := waiting, nextId := nextId } } } ∧
      commit.map Commit.unpresented = s.ice.commit.map Commit.unpresented := by
  unfold State.presentCommit
  split
  · next c hc =>
    split
    · exact ⟨s.ice.commit, _, _, rfl, rfl⟩
    · exact ⟨_, _, _, rfl, by rw [hc]; rfl⟩
  · exact ⟨s.ice.commit, _, _, rfl, rfl⟩

theorem State.commitFloe_refused {s : State} {f : Fin 64} {w : Vector Word 8} {code : BitVec 4}
    (h : s.commitCheck f (floeReserved w) (FloeEntry.ofWords w) = some code) (r : Reader) (order : Option Nat) :
    s.commitFloe r f w order = (s.setFstat r code, code) := by
  simp only [State.commitFloe, h]

/-- An accepted commit is held, and its reader's outcome is PENDING. -/
theorem State.commitFloe_accepted {s : State} {f : Fin 64} {w : Vector Word 8}
    (h : s.commitCheck f (floeReserved w) (FloeEntry.ofWords w) = none) (r : Reader) (order : Option Nat) :
    ∃ commit waiting nextId, s.commitFloe r f w order = ({ s with ice := { s.ice with
        fstat := vset s.ice.fstat r 9, commit := commit
        sb := { s.ice.sb with waiting := waiting, nextId := nextId } } }, 9) ∧
      commit.map Commit.unpresented = some { floe := f, entry := FloeEntry.ofWords w, who := r, order } := by
  obtain ⟨commit, waiting, nextId, hp, hc⟩ := State.presentCommit_eq { s.setFstat r fsPending with
    ice := { (s.setFstat r fsPending).ice with commit := some { floe := f, entry := FloeEntry.ofWords w, who := r, order } } }
  refine ⟨commit, waiting, nextId, ?_, hc⟩
  simp only [State.commitFloe, h]
  rw [hp]
  rfl

/-- Whether it accepts a commit or not, the check changes the reader's outcome, the commit and the waiting accesses. -/
theorem State.commitFloe_eq (s : State) (r : Reader) (f : Fin 64) (w : Vector Word 8) (order : Option Nat) :
    ∃ fstat commit waiting nextId, (s.commitFloe r f w order).1 = { s with ice := { s.ice with
        fstat := fstat, commit := commit, sb := { s.ice.sb with waiting := waiting, nextId := nextId } } } := by
  cases h : s.commitCheck f (floeReserved w) (FloeEntry.ofWords w) with
  | none =>
    obtain ⟨commit, waiting, nextId, heq, -⟩ := State.commitFloe_accepted h r order
    exact ⟨_, commit, waiting, nextId, by rw [heq]⟩
  | some code => exact ⟨_, _, _, _, by rw [State.commitFloe_refused h]; rfl⟩

/-! ## The end of a commit (R286, R288, R294) -/

/-- The end of a commit for its order changes orders and channels, and opens no order. -/
theorem State.replyCommit_eq (s : State) (order : Option Nat) (code : BitVec 4) :
    ∃ hods drf, s.replyCommit order code = { s with hods := hods, drf := drf } ∧
      ∀ o ∈ hods.openOrders, o ∈ s.hods.openOrders := by
  have hend : ∀ o st ws, ∃ hods drf, s.endOrder o st ws = { s with hods := hods, drf := drf } ∧
      ∀ o ∈ hods.openOrders, o ∈ s.hods.openOrders := fun o st ws =>
    let ⟨_, _, h⟩ := s.endOrder_eq o st ws
    ⟨_, _, h, fun _ ho => (List.mem_filter.mp ho).1⟩
  have hpush : ∀ o, ∃ hods drf, s.pushStart o = { s with hods := hods, drf := drf } ∧
      ∀ o ∈ hods.openOrders, o ∈ s.hods.openOrders := fun o => by
    unfold State.pushStart
    split
    · exact hend _ _ _
    · split
      · exact hend _ _ _
      · exact ⟨_, _, rfl, fun _ ho => ho⟩
  unfold State.replyCommit
  split
  · exact ⟨_, _, rfl, fun _ ho => ho⟩
  · split
    · exact ⟨_, _, rfl, fun _ ho => ho⟩
    · dsimp only
      split
      · split
        · exact hpush _
        · exact hend _ _ _
      · exact hend _ _ _

/-- The state that a commit leaves with its code, which goes to the order `ref` unless it is PENDING. -/
def answerCommit (q : State × BitVec 4) (ref : Option Nat) : State :=
  if q.2 = fsPending then q.1 else q.1.replyCommit ref q.2

theorem answerCommit_eq (q : State × BitVec 4) (ref : Option Nat) :
    ∃ hods drf, answerCommit q ref = { q.1 with hods := hods, drf := drf } := by
  unfold answerCommit
  split
  · exact ⟨_, _, rfl⟩
  · obtain ⟨hods, drf, h, -⟩ := q.1.replyCommit_eq ref q.2
    exact ⟨hods, drf, h⟩

/-- The words that a weight push commits (R294). -/
def State.pushWords (s : State) (o : OpenOrder) : Vector Word 8 :=
  ({ s.floe o.floe with wepoch := if o.phase = 0 then 0xFFFF else o.wepoch } : FloeEntry).toWords

theorem State.pushCommit_answer (s : State) (o : OpenOrder) :
    s.pushCommit o = answerCommit ((s.modOrder o.id fun p => { p with phase := p.phase + 1 }).commitFloe (Hart.reader 0) o.floe
      (s.pushWords o) (some o.id)) (some o.id) := rfl

theorem State.pushCommit_eq (s : State) (o : OpenOrder) :
    ∃ hods drf fstat commit waiting nextId, s.pushCommit o = { s with hods := hods, drf := drf, ice := { s.ice with
        fstat := fstat, commit := commit, sb := { s.ice.sb with waiting := waiting, nextId := nextId } } } := by
  obtain ⟨fstat, commit, waiting, nextId, h⟩ := (s.modOrder o.id fun p => { p with phase := p.phase + 1 }).commitFloe_eq
    (Hart.reader 0) o.floe (s.pushWords o) (some o.id)
  rw [State.pushCommit_answer]
  obtain ⟨hods, drf, hanswer⟩ := answerCommit_eq ((s.modOrder o.id fun p => { p with phase := p.phase + 1 }).commitFloe
    (Hart.reader 0) o.floe (s.pushWords o) (some o.id)) (some o.id)
  exact ⟨hods, drf, fstat, commit, waiting, nextId, by rw [hanswer, h]; rfl⟩

theorem State.retryPush_eq (s : State) :
    ∃ hods drf fstat commit waiting nextId, s.retryPush = { s with hods := hods, drf := drf, ice := { s.ice with
        fstat := fstat, commit := commit, sb := { s.ice.sb with waiting := waiting, nextId := nextId } } } := by
  unfold State.retryPush
  split
  · exact ⟨_, _, _, _, _, _, rfl⟩
  · split
    · exact ⟨_, _, _, _, _, _, rfl⟩
    · exact s.pushCommit_eq _

/-- Without a weight push no commit follows (R294). -/
theorem State.retryPush_of_none {s : State} (h : ∀ o ∈ s.hods.openOrders, o.op ≠ 0x21) : s.retryPush = s := by
  have hnone : s.hods.openOrders.find? s.mayPush = none := by
    refine List.find?_eq_none.mpr fun o ho hpush => h o ho ?_
    simp only [State.mayPush, Bool.and_eq_true, beq_iff_eq] at hpush
    exact hpush.1
  simp only [State.retryPush, hnone, ite_self]

/-- The allocated accesses without the commit's own (R286). -/
def Commit.freed (c : Commit) (l : List Access) : List Access :=
  match c.sb with
  | some id => l.filter fun a => a.id != id
  | none => l

theorem Commit.mem_freed {c : Commit} {id : Nat} (hid : c.sb = some id) {l : List Access} {a : Access} (ha : a ∈ c.freed l) :
    a.id ≠ id := by
  simp only [Commit.freed, hid, List.mem_filter, bne_iff_ne] at ha
  exact ha.2

/-- The reader's outcome when its commit retires, unless it has written CE_ICE_FCMD since (R288). -/
def State.retiredFstat (s : State) (c : Commit) : Vector (BitVec 4) 17 :=
  if s.ice.fstat.get c.who = 9 then vset s.ice.fstat c.who (if c.revived then 0 else 0xA) else s.ice.fstat

/-- The commit has retired, and neither its order nor a weight push has gone on yet. -/
def State.retired (s : State) (c : Commit) : State :=
  { s with ice := { s.ice with
      fstat := s.retiredFstat c, commit := none, revival := none
      sb := { s.ice.sb with alloc := c.freed s.ice.sb.alloc, waiting := c.freed s.ice.sb.waiting } } }

theorem State.retireCommit_retired {s : State} {c : Commit} (hc : s.ice.commit = some c) :
    s.retireCommit = ((s.retired c).replyCommit c.order (if c.revived then 0 else 0xA)).retryPush := by
  have hfstat : ∀ u : State, u.ice.fstat = s.ice.fstat →
      (if u.ice.fstat.get c.who == fsPending then u.setFstat c.who (if c.revived then fsDone else fsRevive) else u) =
        { u with ice := { u.ice with fstat := s.retiredFstat c } } := fun u hu => by
    unfold State.retiredFstat
    rw [← hu]
    by_cases h : u.ice.fstat.get c.who = 9
    · rw [if_pos h]
      exact if_pos (beq_iff_eq.mpr h)
    · rw [if_neg h]
      exact if_neg fun e => h (beq_iff_eq.mp e)
  simp only [State.retireCommit, hc]
  refine congrArg (fun u : State => (u.replyCommit c.order (if c.revived then 0 else 0xA)).retryPush) ?_
  unfold State.retired Commit.freed
  cases c.sb with
  | none => exact hfstat { s with ice := { s.ice with commit := none, revival := none } } rfl
  | some id => exact hfstat { s.release id with ice := { (s.release id).ice with commit := none, revival := none } } rfl

/-- The retirement of a commit frees its entries and ends the revival; then its order goes on, and a weight push that waited
may commit at once. -/
theorem State.retireCommit_eq {s : State} {c : Commit} (hc : s.ice.commit = some c) :
    ∃ hods drf fstat commit waiting nextId, s.retireCommit = { s with
        hods := hods, drf := drf
        ice := { s.ice with
          fstat := fstat, commit := commit, revival := none
          sb := { alloc := c.freed s.ice.sb.alloc, waiting := waiting, nextId := nextId } } } ∧
      ((∀ o ∈ s.hods.openOrders, o.op ≠ 0x21) → commit = none ∧ fstat = s.retiredFstat c) := by
  obtain ⟨hods, drf, hreply, horders⟩ := (s.retired c).replyCommit_eq c.order (if c.revived then 0 else 0xA)
  obtain ⟨hods', drf', fstat, commit, waiting, nextId, hpush⟩ :=
    ((s.retired c).replyCommit c.order (if c.revived then 0 else 0xA)).retryPush_eq
  by_cases hno : ∀ o ∈ s.hods.openOrders, o.op ≠ 0x21
  · have hquiet : ∀ o ∈ ((s.retired c).replyCommit c.order (if c.revived then 0 else 0xA)).hods.openOrders, o.op ≠ 0x21 := by
      rw [hreply]
      exact fun o ho => hno o (horders o ho)
    refine ⟨hods, drf, s.retiredFstat c, none, c.freed s.ice.sb.waiting, s.ice.sb.nextId, ?_, fun _ => ⟨rfl, rfl⟩⟩
    rw [State.retireCommit_retired hc, State.retryPush_of_none hquiet, hreply]
    rfl
  · refine ⟨hods', drf', fstat, commit, waiting, nextId, ?_, fun h => absurd h hno⟩
    rw [State.retireCommit_retired hc, hpush, hreply]
    rfl

/-! ## The segments of a commit (R290, R291) -/

theorem State.forEach_setSeg (s : State) (l : List (Fin 64)) (g : Fin 64 → SegState) :
    ∃ segs, (s.forEach l fun s i => s.setSeg i (g i)) = { s with ice := { s.ice with segs := segs } } := by
  unfold State.forEach
  induction l generalizing s with
  | nil => exact ⟨_, rfl⟩
  | cons i l ih =>
    obtain ⟨segs, h⟩ := ih (s.setSeg i (g i))
    exact ⟨segs, h⟩

/-- What a commit does to segments is a matter of their states, the melts and the revival. -/
theorem State.enterSegments_eq (s : State) (e : FloeEntry) :
    ∃ segs meltQ revival, s.enterSegments e = { s with ice := { s.ice with
      segs := segs, meltQ := meltQ, revival := revival } } := by
  unfold State.enterSegments
  dsimp only
  split
  · obtain ⟨segs, h⟩ := State.forEach_setSeg { s with ice := { s.ice with
      meltQ := s.ice.meltQ ++ (e.segs.filter s.hasSeg).filter fun g => s.ice.segs.get g != SegState.melted } }
      (e.segs.filter s.hasSeg) fun _ => .melted
    exact ⟨segs, _, _, h⟩
  · obtain ⟨segs, h⟩ := s.forEach_setSeg (e.segs.filter s.hasSeg) fun g =>
      if ((e.segs.filter s.hasSeg).filter fun g => s.ice.segs.get g == .melted).contains g then .reviving else e.state.seg
    rw [h]
    split
    · exact ⟨segs, _, _, rfl⟩
    · exact ⟨segs, _, _, rfl⟩

/-! ## The effect of a commit (R286) -/

/-- The state in which the ranges of a commit are allocated and its entry is in the floe table. -/
def State.entered (s : State) (c : Commit) (id : Nat) : State :=
  { s.allocate id with ice := { (s.allocate id).ice with floes := vset s.ice.floes c.floe c.entry } }

theorem State.commitEffect_ready {s : State} {c : Commit} {id : Nat} (hc : s.ice.commit = some c) (hid : c.sb = some id)
    (hready : s.ice.sb.ready id = true) :
    s.commitEffect =
      let u := if c.entry.used then (s.entered c id).enterSegments c.entry else s.entered c id
      if u.ice.revival.isNone then u.retireCommit else u := by
  have hpresent : s.presentCommit = s := by simp only [State.presentCommit, hc, hid, Option.isSome_some, Bool.true_or, if_true]
  simp only [State.commitEffect, hpresent, hc, hid, hready]
  rfl

/-- The effect of a commit on the field is its entry alone; what it does to segments is apart. -/
theorem State.commitEffect_frame {s : State} {c : Commit} {id : Nat} (hc : s.ice.commit = some c) (hid : c.sb = some id)
    (hready : s.ice.sb.ready id = true) :
    s.commitEffect.ice.floes = vset s.ice.floes c.floe c.entry ∧ s.commitEffect.ice.cells = s.ice.cells ∧
      s.commitEffect.tiles = s.tiles ∧ s.commitEffect.harts = s.harts := by
  obtain ⟨segs, meltQ, revival, hseg⟩ := (s.entered c id).enterSegments_eq c.entry
  have hu : ∃ segs meltQ revival, (if c.entry.used then (s.entered c id).enterSegments c.entry else s.entered c id) =
      { s.entered c id with ice := { (s.entered c id).ice with segs := segs, meltQ := meltQ, revival := revival } } := by
    split
    · exact ⟨segs, meltQ, revival, hseg⟩
    · exact ⟨_, _, _, rfl⟩
  obtain ⟨segs, meltQ, revival, hu⟩ := hu
  rw [State.commitEffect_ready hc hid hready, hu]
  dsimp only
  split
  · obtain ⟨hods, drf, fstat, commit, waiting, nextId, hretire, -⟩ := State.retireCommit_eq (s :=
      { s.entered c id with ice := { (s.entered c id).ice with segs := segs, meltQ := meltQ, revival := revival } }) (c := c) hc
    rw [hretire]
    exact ⟨rfl, rfl, rfl, rfl⟩
  · exact ⟨rfl, rfl, rfl, rfl⟩

/-! ## The statement -/

theorem State.not_mem_losers (s : State) (r : Reader) (others : List Reader) : r ∉ s.losers r others := by
  simp [State.losers]

/-- Settles O21: who is taken, the checks, the effect, and the copy of an entry. -/
theorem floeTableCommandsActAndAnswer : Obligations.FloeTableCommandsActAndAnswer := by
  refine ⟨fun r f others s ha hpr => ?_, fun r f others s ha hpr ht hcheck => ?_, fun c id s hp hc hid hready => ?_,
    fun r f others s ha hpr ht => ?_⟩
  · have hm : s.mayWrite r = true := by rw [State.mayWrite, ha, hpr]; rfl
    have hp := State.canAct_powered ha
    refine ⟨fun ht => ⟨?_, ?_⟩, fun code ht hcheck => ?_⟩
    · rw [exec_floeCommit hp, State.fcmdWrite_beaten hm ht]
      rfl
    · rw [exec_floeRead hp, State.fcmdWrite_beaten hm ht]
      rfl
    · rw [exec_floeCommit hp, State.fcmdWrite_taken hm ht, State.floeCommit, State.commitFloe_refused (code := code) (by
        rw [← hcheck]; exact State.commitCheck_congr rfl rfl rfl _ _ _)]
      exact ⟨_, rfl, vset_get_same _ _ _, fun q hq => (vset_get_ne _ _ hq).trans (s.preempted_get r others q), rfl⟩
  · have hm : s.mayWrite r = true := by rw [State.mayWrite, ha, hpr]; rfl
    obtain ⟨commit, waiting, nextId, haccept, hcommit⟩ := State.commitFloe_accepted
      (s := { s with ice := { s.ice with fstat := s.preempted r others } }) (f := f) (w := s.ice.fstage.get r) (by
        rw [← hcheck]; exact State.commitCheck_congr rfl rfl rfl _ _ _) r none
    have hmap := congrArg (Option.map fun c : Commit => (c.floe, c.entry, c.who)) hcommit
    rw [Option.map_map] at hmap
    rw [exec_floeCommit (State.canAct_powered ha), State.fcmdWrite_taken hm ht, State.floeCommit, haccept]
    exact ⟨_, rfl, hmap, vset_get_same _ _ _, rfl, rfl, rfl, rfl, rfl⟩
  · obtain ⟨hfloes, hcells, htiles, hharts⟩ := State.commitEffect_frame hc hid hready
    refine ⟨_, exec_floeCommitEffect hp, ?_, fun g hg => ?_, hcells, htiles, hharts⟩
    · rw [State.floe, hfloes, vset_get_same]
    · rw [State.floe, hfloes, vset_get_ne _ _ hg, State.floe]
  · have hm : s.mayWrite r = true := by rw [State.mayWrite, ha, hpr]; rfl
    rw [exec_floeRead (State.canAct_powered ha), State.fcmdWrite_taken hm ht]
    exact ⟨_, rfl, vset_get_same _ _ _, vset_get_same _ _ _, fun q hq =>
      ⟨vset_get_ne _ _ hq, (vset_get_ne _ _ hq).trans (s.preempted_get r others q)⟩, rfl, rfl, rfl, rfl⟩

end Sys2Proof.Machine

/-! # Segments that melt and come back -/

namespace Sys2Proof.Machine

/-! ## Cells and spare rows -/

theorem exec_segmentMelt {s : State} (hp : s.powered = true) (g : Fin 64) :
    exec (.segmentMelt g) s = .next (s.segmentMelt g) := congrArg _ (if_pos hp)

theorem exec_revivalRampEnd {s : State} (hp : s.powered = true) : exec .revivalRampEnd s = .next s.rampEnd :=
  congrArg _ (if_pos hp)

theorem exec_segmentSelftestEnd {s : State} (hp : s.powered = true) (failed bad : List (Nat × Nat)) :
    exec (.segmentSelftestEnd failed bad) s = .next (s.selftestEnd failed bad) := congrArg _ (if_pos hp)

theorem exec_segmentFillEnd {s : State} (hp : s.powered = true) : exec .segmentFillEnd s = .next s.fillEnd :=
  congrArg _ (if_pos hp)

/-- A segment without contents reads zero, and the other cells as before (R291, log entry 49). -/
theorem State.zeroSegment_cells {s : State} (hs : swf 0 s.ice.cells = true) (g : Fin 64) (cell : Nat) :
    sget 0 (s.zeroSegment g).ice.cells cell = if s.cellInSeg g cell then 0 else sget 0 s.ice.cells cell := by
  refine (sget_filter 0 (fun k => !s.cellInSeg g k) s.ice.cells cell hs).trans ?_
  cases s.cellInSeg g cell <;> rfl

/-- What is written reads back where it is no default, whatever the order of the store. -/
theorem sget_sset_same {α : Type} [DecidableEq α] {d v : α} (hv : v ≠ d) (i : Nat) (m : Store α) :
    sget d (sset d m i v) i = v := by
  induction m with
  | nil => simp [sset, hv, sget]
  | cons p r ih =>
    obtain ⟨k, w⟩ := p
    simp only [sset, if_neg hv]
    split
    · simp [sget]
    · next hne =>
      split
      · simp [sget]
      · next hnlt => simp only [sget, if_neg hne, if_neg hnlt, ih]

theorem State.setSpare_spare (s : State) (bank n row : Nat) :
    (s.setSpare bank n { row := BitVec.ofNat 10 row, used := true }).spare bank n =
      { row := BitVec.ofNat 10 row, used := true, bad := false } :=
  sget_sset_same (by simp) _ _

theorem State.dropSpare_eq (s : State) (bank row : Nat) :
    ∃ spares, s.dropSpare bank row = { s with ice := { s.ice with spares := spares } } := by
  unfold State.dropSpare
  split <;> exact ⟨_, rfl⟩

/-- A row that takes a free spare row before a fill: its entry of the spare map, and its line of the log (R292). -/
theorem State.spareBlank_free {s : State} {bank n : Nat} (hn : s.freeSpare bank = some n) (row : Nat) :
    ∃ spares log, s.spareBlank bank row = some ({ s with ice := { s.ice with spares := spares, log := log } }, n) ∧
      sget {} spares (bank * Config.spareRows + n) = { row := BitVec.ofNat 10 row, used := true, bad := false } := by
  obtain ⟨spares, hdrop⟩ := s.dropSpare_eq bank row
  exact ⟨_, _, by rw [State.spareBlank, hn, hdrop]; rfl,
    State.setSpare_spare { s with ice := { s.ice with spares := spares } } bank n row⟩

theorem State.spareFailing_free {s : State} {bank n : Nat} (hn : s.freeSpare bank = some n) (row : Nat) :
    ∃ spares log hods boot, s.spareFailing [(bank, row)] =
        ({ s with ice := { s.ice with spares := spares, log := log }, hods := hods, boot := boot }, true) ∧
      sget {} spares (bank * Config.spareRows + n) = { row := BitVec.ofNat 10 row, used := true, bad := false } := by
  obtain ⟨spares, log, hblank, hget⟩ := State.spareBlank_free hn row
  obtain ⟨hod, outQ, seq, held, hreport⟩ := State.report_eq { s with ice := { s.ice with spares := spares, log := log } } 0xC2
    [BitVec.ofNat 32 bank, BitVec.ofNat 32 row, BitVec.ofNat 32 n]
  refine ⟨spares, log, { s.hods with hod := hod, outQ := outQ, reportSeq := seq }, { s.boot with held := held }, ?_, hget⟩
  simp only [State.spareFailing, hblank, State.spareReport, hreport]

theorem State.spareFailing_none {s : State} {bank : Nat} (hn : s.freeSpare bank = none) (row : Nat) :
    ∃ hod outQ seq held, s.spareFailing [(bank, row)] = ({ s with
      hods := { s.hods with hod := hod, outQ := outQ, reportSeq := seq }, boot := { s.boot with held := held } }, false) := by
  obtain ⟨hod, outQ, seq, held, hreport⟩ := s.report_eq 0xC3 [BitVec.ofNat 32 bank, BitVec.ofNat 32 row]
  have hblank : s.spareBlank bank row = none := by rw [State.spareBlank, hn]; rfl
  refine ⟨hod, outQ, seq, held, ?_⟩
  simp only [State.spareFailing, hblank, State.spareOut, hreport]

/-! ## The next segment of a revival (R292) -/

theorem State.nextRevival_more {r : Revival} {g k : Fin 64} {rest : List (Fin 64)} (hr : r.segs = g :: k :: rest) (s : State) :
    s.nextRevival r = { s with ice := { s.ice with
      revival := some { r with segs := k :: rest, ramped := r.ramped - 1, tested := false } } } := by
  simp only [State.nextRevival, hr, List.drop_succ_cons, List.drop_zero]

theorem State.nextRevival_last {r : Revival} {g : Fin 64} (hr : r.segs = [g]) (s : State) :
    s.nextRevival r = s.retireCommit := by
  simp only [State.nextRevival, hr, List.drop_succ_cons, List.drop_nil]

/-- A commit retires from any state that has its revival's outcome and the orders and outcomes of `s`. -/
theorem commitRetires_retireCommit {s u : State} {c : Commit} (hc : u.ice.commit = some c)
    (ho : u.hods.openOrders = s.hods.openOrders) (hf : u.ice.fstat = s.ice.fstat) : commitRetires c s u.retireCommit := by
  obtain ⟨hods, drf, fstat, commit, waiting, nextId, hretire, hquiet⟩ := State.retireCommit_eq hc
  rw [hretire]
  refine ⟨rfl, fun id hid a ha => Commit.mem_freed hid ha, fun hno => ?_⟩
  obtain ⟨hnone, hfstat⟩ := hquiet (ho ▸ hno)
  exact ⟨hnone, by rw [hfstat, State.retiredFstat, hf]⟩

theorem State.retireCommit_field (s : State) :
    s.retireCommit.ice.segs = s.ice.segs ∧ s.retireCommit.ice.spares = s.ice.spares ∧
      s.retireCommit.ice.cells = s.ice.cells := by
  cases hc : s.ice.commit with
  | none => simp only [State.retireCommit, hc, and_self]
  | some c =>
    obtain ⟨hods, drf, fstat, commit, waiting, nextId, hretire, -⟩ := State.retireCommit_eq hc
    rw [hretire]
    exact ⟨rfl, rfl, rfl⟩

/-- Going on to the next segment leaves the segments, the spare rows and the words. -/
theorem State.nextRevival_field (s : State) (r : Revival) :
    (s.nextRevival r).ice.segs = s.ice.segs ∧ (s.nextRevival r).ice.spares = s.ice.spares ∧
      (s.nextRevival r).ice.cells = s.ice.cells := by
  unfold State.nextRevival
  split
  · exact s.retireCommit_field
  · exact ⟨rfl, rfl, rfl⟩

/-! ## The self-test of a segment (R292) -/

/-- The state in which the revival `r` has found what its self-test says. -/
def Revival.testedWith (r : Revival) (g : Fin 64) (q : State × Bool) : State :=
  if q.2 then { q.1 with ice := { q.1.ice with revival := some { r with tested := true } } }
  else (({ q.1 with ice := { q.1.ice with commit := q.1.ice.commit.map fun c => { c with revived := false } } } : State).setSeg g
    .melted).nextRevival r

theorem State.selftestEnd_passed {s : State} {r : Revival} {g : Fin 64} {rest : List (Fin 64)} (hr : s.ice.revival = some r)
    (hs : r.segs = g :: rest) (hramp : r.ramped ≠ 0) (htest : r.tested = false) :
    s.selftestEnd [] [] = r.testedWith g (s, true) := by
  simp [State.selftestEnd, hr, hs, hramp, htest, State.badSpares, State.spareFailing, Revival.testedWith]

theorem State.selftestEnd_row {s : State} {r : Revival} {g : Fin 64} {rest : List (Fin 64)} (hr : s.ice.revival = some r)
    (hs : r.segs = g :: rest) (hramp : r.ramped ≠ 0) (htest : r.tested = false) {bank row : Nat}
    (hrow : segOfLevel s.cfg (16 * row) = g) :
    s.selftestEnd [(bank, row)] [] = r.testedWith g (s.spareFailing [(bank, row)]) := by
  have hdups : [(bank, row)].eraseDups = [(bank, row)] := by simp [List.eraseDups_cons]
  simp [State.selftestEnd, hr, hs, hramp, htest, hrow, hdups, State.badSpares, Revival.testedWith]

/-- A segment whose failing row finds no spare row is melted again, and the revival goes on without it or ends (R292). -/
theorem State.selftestEnd_melted {s : State} {r : Revival} {g : Fin 64} {rest : List (Fin 64)} (hr : s.ice.revival = some r)
    (hs : r.segs = g :: rest) (hramp : r.ramped ≠ 0) (htest : r.tested = false) {bank row : Nat}
    (hrow : segOfLevel s.cfg (16 * row) = g) (hn : s.freeSpare bank = none) :
    ∃ u : State, s.selftestEnd [(bank, row)] [] = u.nextRevival r ∧ u.ice.segs = vset s.ice.segs g .melted ∧
      u.ice.spares = s.ice.spares ∧ u.ice.cells = s.ice.cells ∧ u.ice.fstat = s.ice.fstat ∧
      u.hods.openOrders = s.hods.openOrders ∧ u.ice.commit = s.ice.commit.map fun c => { c with revived := false } := by
  obtain ⟨hod, outQ, seq, held, hspare⟩ := State.spareFailing_none hn row
  rw [State.selftestEnd_row hr hs hramp htest hrow, hspare]
  exact ⟨_, rfl, rfl, rfl, rfl, rfl, rfl, rfl⟩

/-! ## The fill of a segment (R292) -/

theorem State.fillEnd_tested {s : State} {r : Revival} {g : Fin 64} {rest : List (Fin 64)} (hr : s.ice.revival = some r)
    (hs : r.segs = g :: rest) (htest : r.tested = true) :
    s.fillEnd = ((s.zeroSegment g).setSeg g r.target).nextRevival { r with filled := r.filled ++ [g] } := by
  simp only [State.fillEnd, hr, hs, htest, if_true]

/-! ## The statement -/

/-- Settles O22: a melt clears the cells of its segment, and a revival goes on segment by segment. -/
theorem segmentsMeltAndRevive : Obligations.SegmentsMeltAndRevive := by
  refine ⟨fun g s hp hs hg => ?_, fun r g rest s hp hs hr hsegs => ⟨?_, fun hramp htest => ⟨?_, fun bank row hrow =>
    ⟨fun n hn => ?_, fun hn => ?_⟩⟩, fun htest => ?_⟩⟩
  · rw [exec_segmentMelt hp, State.segmentMelt, if_pos (List.contains_iff_mem.mpr hg)]
    exact ⟨_, rfl, State.zeroSegment_cells hs.1 g, rfl, rfl, rfl, rfl⟩
  · rw [exec_revivalRampEnd hp, State.rampEnd, hr]
    have hlength : r.segs.length = rest.length + 1 := by rw [hsegs, List.length_cons]
    exact ⟨_, rfl, rfl, by rw [← hlength]⟩
  · rw [exec_segmentSelftestEnd hp, State.selftestEnd_passed hr hsegs hramp htest]
    exact ⟨_, rfl, rfl, rfl⟩
  · obtain ⟨spares, log, hods, boot, hspare, hget⟩ := State.spareFailing_free hn row
    rw [exec_segmentSelftestEnd hp, State.selftestEnd_row hr hsegs hramp htest hrow, hspare]
    exact ⟨_, rfl, hget, rfl, rfl, rfl⟩
  · obtain ⟨u, hu, husegs, huspares, hucells, hufstat, huorders, hucommit⟩ :=
      State.selftestEnd_melted hr hsegs hramp htest hrow hn
    obtain ⟨hsegs', hspares', hcells'⟩ := u.nextRevival_field r
    refine ⟨u.nextRevival r, by rw [exec_segmentSelftestEnd hp, hu], hsegs'.trans husegs, hspares'.trans huspares,
      hcells'.trans hucells, fun hrest => ?_, fun hrest c hc => ?_⟩
    · obtain ⟨k, l, rfl⟩ := List.exists_cons_of_ne_nil hrest
      rw [State.nextRevival_more hsegs]
      exact ⟨rfl, hucommit⟩
    · rw [State.nextRevival_last (hrest ▸ hsegs)]
      exact commitRetires_retireCommit (by rw [hucommit, hc]; rfl) huorders hufstat
  · obtain ⟨hsegs', -, hcells'⟩ := ((s.zeroSegment g).setSeg g r.target).nextRevival_field { r with filled := r.filled ++ [g] }
    refine ⟨_, by rw [exec_segmentFillEnd hp, State.fillEnd_tested hr hsegs htest], ?_, fun k hk => ?_, fun cell => ?_,
      fun hrest => ?_, fun hrest c hc => ?_⟩
    · rw [hsegs']
      exact vset_get_same _ _ _
    · rw [hsegs']
      exact vset_get_ne _ _ hk
    · rw [hcells']
      exact State.zeroSegment_cells hs.1 g cell
    · obtain ⟨k, l, rfl⟩ := List.exists_cons_of_ne_nil hrest
      rw [State.nextRevival_more (r := { r with filled := r.filled ++ [g] }) hsegs]
      exact ⟨rfl, rfl⟩
    · rw [State.nextRevival_last (r := { r with filled := r.filled ++ [g] }) (hrest ▸ hsegs)]
      exact commitRetires_retireCommit hc rfl rfl

end Sys2Proof.Machine

/-! # Scrubbing, write-backs and row sparing -/

namespace Sys2Proof.Machine

/-! ## What a recovery leaves of the field -/

/-- The floe table, the segments and the tiles stand, and accesses are at most freed by their numbers. -/
structure FieldStands (s t : State) : Prop where
  floes : t.ice.floes = s.ice.floes
  segs : t.ice.segs = s.ice.segs
  tiles : t.tiles = s.tiles
  alloc : ∃ keep : Nat → Bool, t.ice.sb.alloc = s.ice.sb.alloc.filter fun a => keep a.id

theorem FieldStands.of_alloc {s t : State} (hf : t.ice.floes = s.ice.floes) (hs : t.ice.segs = s.ice.segs)
    (ht : t.tiles = s.tiles) (ha : t.ice.sb.alloc = s.ice.sb.alloc) : FieldStands s t :=
  ⟨hf, hs, ht, fun _ => true, by rw [ha, List.filter_true]⟩

theorem FieldStands.refl (s : State) : FieldStands s s := .of_alloc rfl rfl rfl rfl

theorem FieldStands.trans {s t u : State} (h : FieldStands s t) (h' : FieldStands t u) : FieldStands s u := by
  obtain ⟨keep, ha⟩ := h.alloc
  obtain ⟨keep', ha'⟩ := h'.alloc
  refine ⟨h'.floes.trans h.floes, h'.segs.trans h.segs, h'.tiles.trans h.tiles, fun n => keep n && keep' n, ?_⟩
  rw [ha', ha, List.filter_filter]
  exact List.filter_congr fun a _ => Bool.and_comm _ _

theorem FieldStands.forEach {α : Type} {f : State → α → State} (hf : ∀ u x, FieldStands u (f u x)) (l : List α) (s : State) :
    FieldStands s (s.forEach l f) := by
  unfold State.forEach
  induction l generalizing s with
  | nil => exact .refl s
  | cons x l ih => exact (hf s x).trans (ih (f s x))

theorem FieldStands.ite {s a b : State} {c : Prop} [Decidable c] (ha : FieldStands s a) (hb : FieldStands s b) :
    FieldStands s (if c then a else b) := by
  split
  · exact ha
  · exact hb

theorem State.release_stands (s : State) (id : Nat) : FieldStands s (s.release id) := ⟨rfl, rfl, rfl, fun n => n != id, rfl⟩

theorem State.report_stands (s : State) (op : BitVec 8) (ws : List Word) : FieldStands s (s.report op ws) := by
  obtain ⟨hod, outQ, seq, held, h⟩ := s.report_eq op ws
  rw [h]
  exact .of_alloc rfl rfl rfl rfl

theorem State.postOut_stands (s : State) (h : Fin 3) (ws : List Word) : FieldStands s (s.postOut h ws) := by
  obtain ⟨hod, outQ, heq⟩ := s.postOut_eq h ws
  rw [heq]
  exact .of_alloc rfl rfl rfl rfl

theorem State.modPort_stands (s : State) (p : Fin 4) (f : Port → Port) : FieldStands s (s.modPort p f) :=
  .of_alloc rfl rfl rfl rfl

theorem State.lateArrivals_stands (s : State) (w : Fin 64) : FieldStands s (s.lateArrivals w) := by
  refine .forEach (fun u p => ?_) _ _
  refine .trans ?_ (State.modPort_stands _ p Port.settleAck)
  refine .trans (u.modPort_stands p _) (.forEach (fun v a => ?_) _ _)
  exact .ite ⟨rfl, rfl, rfl, fun n => n != a.sb, rfl⟩ ⟨rfl, rfl, rfl, fun n => n != a.sb, rfl⟩

theorem State.closeWindows_stands (s : State) (sel : Window → Bool) : FieldStands s (s.closeWindows sel) := by
  refine .forEach (fun u w => .ite (.trans ?_ (State.lateArrivals_stands _ w)) (.refl u)) _ _
  exact .of_alloc rfl rfl rfl rfl

theorem State.dropReading_stands (s : State) (sel : Reader → Bool) : FieldStands s (s.dropReading sel) := by
  refine .trans ?_ (.forEach (fun (u : State) (a : SendRead) => u.release_stands a.sb) _ _)
  exact .of_alloc rfl rfl rfl rfl

theorem State.stopCourses_stands (s : State) (sel : Reader → Bool) : FieldStands s (s.stopCourses sel) :=
  .of_alloc rfl rfl rfl rfl

/-- A recovery that stops the engine's work frees the accesses of discarded arrivals and of reads of send descriptors
(R381, R470). -/
theorem State.stopWork_stands (s : State) : FieldStands s s.stopWork := by
  refine .trans ?_ (State.closeWindows_stands _ _)
  refine .trans ?_ (.forEach (fun u p => u.modPort_stands p _) _ _)
  refine .trans ?_ (State.dropReading_stands _ _)
  refine .trans (.forEach (fun u c => ?_) _ _) (State.stopCourses_stands _ _)
  exact .of_alloc rfl rfl rfl rfl

theorem State.haltAll_stands (s : State) : FieldStands s s.haltAll := by
  refine .forEach (fun u h => ?_) _ _
  exact .of_alloc rfl rfl rfl rfl

theorem State.sendFault_stands (s : State) (ws : List Word) : FieldStands s (s.sendFault ws) := by
  refine .trans ?_ (State.postOut_stands _ _ _)
  exact .of_alloc rfl rfl rfl rfl

theorem State.uncorrectable_stands (s : State) (code : BitVec 8) (who : Src) (loc loc2 : Word) :
    FieldStands s (s.uncorrectable code who loc loc2) := by
  unfold State.uncorrectable
  refine .ite (.of_alloc rfl rfl rfl rfl) ?_
  cases s.err.stat with
  | running =>
    refine .trans (.trans ?_ (State.haltAll_stands _)) (State.stopWork_stands _)
    exact .of_alloc rfl rfl rfl rfl
  | recovering =>
    cases s.err.recovery with
    | none => exact .refl s
    | some r => exact .of_alloc rfl rfl rfl rfl
  | stopped => exact s.sendFault_stands _

/-! ## Reads of a level (R306) -/

theorem State.triggerSparing_stands (s : State) (bank row : Nat) : FieldStands s (s.triggerSparing bank row) :=
  .ite (.refl s) (.ite (s.report_stands _ _) (.of_alloc rfl rfl rfl rfl))

theorem State.countCorrection_stands (s : State) (bank q : Nat) : FieldStands s (s.countCorrection bank q) := by
  unfold State.countCorrection
  generalize logRow bank (q / 16) s.ice.log = found
  refine .ite (.trans ?_ (State.triggerSparing_stands _ _ _)) ?_
  · exact .of_alloc rfl rfl rfl rfl
  · exact .of_alloc rfl rfl rfl rfl

/-- Whatever a read of a level finds, the floe table, the segments and the tiles stand. -/
theorem State.readLevel_stands (s : State) (who : Src) (bank q : Nat) (atOnce : Bool) :
    FieldStands s (s.readLevel who bank q atOnce).1 := by
  unfold State.readLevel
  dsimp only
  generalize classify (sget 0 s.ice.cells (s.cellAt bank q)) = found
  cases found with
  | clean | slush => exact .refl s
  | poisoned => exact .of_alloc rfl rfl rfl rfl
  | single pos v =>
    refine .trans (.ite ?_ ?_) (State.countCorrection_stands _ _ _)
    · exact .of_alloc rfl rfl rfl rfl
    · exact .of_alloc rfl rfl rfl rfl
  | bad =>
    refine .trans ?_ (State.uncorrectable_stands _ _ _ _ _)
    exact .of_alloc rfl rfl rfl rfl

/-- A word that reads as clean or with slush is left alone. -/
theorem State.readLevel_unchanged {s : State} {bank q : Nat}
    (h : classify (s.codewordAt bank q) = .clean ∨ classify (s.codewordAt bank q) = .slush) (who : Src) (atOnce : Bool) :
    (s.readLevel who bank q atOnce).1 = s := by
  unfold State.codewordAt at h
  unfold State.readLevel
  obtain h | h := h <;> simp only [h]

/-! ## The scrubber (R309, R527) -/

theorem exec_scrubVisit {s : State} (hp : s.powered = true) : exec .scrubVisit s = .next s.scrubVisit :=
  congrArg _ (if_pos hp)

theorem exec_correctedWriteback {s : State} (hp : s.powered = true) : exec .correctedWriteback s = .next s.writeback :=
  congrArg _ (if_pos hp)

theorem exec_fieldSparing {s : State} (hp : s.powered = true) : exec .fieldSparing s = .next s.fieldSparing :=
  congrArg _ (if_pos hp)

theorem State.scrubVisit_stopped {s : State} (hf : s.ice.scrubInForce = 0) (hper : s.ice.scrubPeriod = 0) :
    s.scrubVisit = s := by
  simp only [State.scrubVisit, hf, hper, decide_true, Bool.and_self, Bool.true_or, if_true]

/-- The state in which the scrubber reads a level: the written period is in force. -/
def State.scrubbing (s : State) : State :=
  ({ s with ice := { s.ice with scrubInForce := s.ice.scrubPeriod } } : State).toggleObs 0x74

/-- The levels of some banks, read one after the other, are left alone when all are clean or with slush. -/
theorem State.forEach_readLevel_unchanged {s : State} {q : Nat} (l : List Nat)
    (h : ∀ b ∈ l, classify (s.codewordAt b q) = .clean ∨ classify (s.codewordAt b q) = .slush) :
    (s.forEach l fun s b => (s.readLevel .scrubber b q true).1) = s := by
  unfold State.forEach
  induction l with
  | nil => rfl
  | cons b l ih =>
    rw [List.foldl_cons, State.readLevel_unchanged (h b List.mem_cons_self)]
    exact ih fun k hk => h k (List.mem_cons_of_mem b hk)

theorem State.scrubVisit_clean {s : State} {q : Nat} (hp : s.powered = true)
    (hon : s.ice.scrubInForce ≠ 0 ∨ s.ice.scrubPeriod ≠ 0) (hq : s.scrubNext = some q)
    (h : ∀ b, b < Config.banks s.cfg → classify (s.codewordAt b q) = .clean ∨ classify (s.codewordAt b q) = .slush) :
    s.scrubVisit = { s.scrubbing with ice := { s.scrubbing.ice with scrubLevel := (q + 1) % Config.levels s.cfg } } := by
  have hgo : ((decide (s.ice.scrubInForce = 0) && decide (s.ice.scrubPeriod = 0)) || !s.powered) = false := by
    rw [hp]
    simpa [or_iff_not_imp_left] using hon
  have hnext : ({ s with ice := { s.ice with scrubInForce := s.ice.scrubPeriod } } : State).scrubNext = some q := hq
  have hread : ((s.scrubbing).forEach ((List.range (Config.banks s.cfg)).filter fun b => s.codewordAt b q != 0)
      fun s b => (s.readLevel .scrubber b q true).1) = s.scrubbing :=
    State.forEach_readLevel_unchanged _ fun b hb => h b (List.mem_range.mp (List.mem_filter.mp hb).1)
  unfold State.scrubVisit
  rw [if_neg (by rw [hgo]; decide)]
  dsimp only
  rw [hnext]
  exact congrArg (fun u : State => { u with ice := { u.ice with scrubLevel := (q + 1) % Config.levels u.cfg } }) hread

/-! ## Row sparing (R313) -/

theorem State.copyRow_stands (s : State) (bank row n : Nat) : FieldStands s (s.copyRow bank row n) := by
  refine .forEach (fun u c => .trans (u.readLevel_stands .control bank (16 * row + c) true) ?_) _ _
  exact .of_alloc rfl rfl rfl rfl

/-- Events 3 to 5 of a sparing: the entry of the spare map, the log and the report. -/
theorem State.mapRow_spec (s : State) (bank row n : Nat) :
    FieldStands s ((((s.dropSpare bank row).setSpare bank n { row := BitVec.ofNat 10 row, used := true }).unlogRow bank
        row).spareReport bank row n) ∧
      ((((s.dropSpare bank row).setSpare bank n { row := BitVec.ofNat 10 row, used := true }).unlogRow bank
        row).spareReport bank row n).spare bank n = { row := BitVec.ofNat 10 row, used := true, bad := false } := by
  obtain ⟨spares, hdrop⟩ := s.dropSpare_eq bank row
  rw [hdrop]
  obtain ⟨hod, outQ, seq, held, hreport⟩ := State.report_eq
    ((({ s with ice := { s.ice with spares := spares } } : State).setSpare bank n
      { row := BitVec.ofNat 10 row, used := true }).unlogRow bank row) 0xC2
    [BitVec.ofNat 32 bank, BitVec.ofNat 32 row, BitVec.ofNat 32 n]
  rw [State.spareReport, hreport]
  exact ⟨.of_alloc rfl rfl rfl rfl, State.setSpare_spare { s with ice := { s.ice with spares := spares } } bank n row⟩

/-- A sparing gives the row the free spare row, whatever its copy meets. -/
theorem State.spareRow_free {s : State} {bank n : Nat} (hn : s.freeSpare bank = some n) (row : Nat) :
    FieldStands s (s.spareRow bank row) ∧
      (s.spareRow bank row).spare bank n = { row := BitVec.ofNat 10 row, used := true, bad := false } := by
  have hcopy := s.copyRow_stands bank row n
  obtain ⟨hmap, hspare⟩ := (s.copyRow bank row n).mapRow_spec bank row n
  simp only [State.spareRow, hn]
  exact ⟨hcopy.trans hmap, hspare⟩

/-- The lock of a sparing retires. -/
def State.unlocked (s : State) (bank row : Nat) : State :=
  match s.lockOf bank row with
  | some a => s.release a.id
  | none => s

theorem State.unlocked_stands (s : State) (bank row : Nat) : FieldStands s (s.unlocked bank row) := by
  unfold State.unlocked
  split
  · exact s.release_stands _
  · exact .refl s

theorem State.unlocked_spare (s : State) (bank row k n : Nat) : (s.unlocked bank row).spare k n = s.spare k n := by
  unfold State.unlocked
  split <;> rfl

/-- The access of a lock is gone once the lock has retired, also when a recovery has freed accesses before. -/
theorem State.unlocked_alloc {s u : State} (hu : FieldStands s u) {bank row : Nat} {a : Access}
    (ha : s.lockOf bank row = some a) : ∀ b ∈ (u.unlocked bank row).ice.sb.alloc, b.id ≠ a.id := by
  obtain ⟨keep, halloc⟩ := hu.alloc
  obtain ⟨hlock, as, bs, hsplit, hfirst⟩ := List.find?_eq_some_iff_append.mp ha
  intro b hb
  cases hkeep : keep a.id with
  | true =>
    have hfound : u.lockOf bank row = some a := by
      refine List.find?_eq_some_iff_append.mpr ⟨hlock, as.filter fun x => keep x.id, bs.filter fun x => keep x.id, ?_,
        fun x hx => hfirst x (List.mem_filter.mp hx).1⟩
      rw [halloc, hsplit, List.filter_append, List.filter_cons_of_pos (p := fun x : Access => keep x.id) hkeep]
    simp only [State.unlocked, hfound] at hb
    exact bne_iff_ne.mp (List.mem_filter.mp hb).2
  | false =>
    obtain ⟨keep', halloc'⟩ := (u.unlocked_stands bank row).alloc
    rw [halloc', halloc] at hb
    intro e
    have hin := (List.mem_filter.mp (List.mem_filter.mp hb).1).2
    rw [e, hkeep] at hin
    exact Bool.false_ne_true hin

/-- The oldest sparing runs when its lock is allocated, and a commit that waited for it presents its ranges. -/
theorem State.fieldSparing_eq {s : State} {bank row : Nat} {q : List (Nat × Nat)} {a : Access}
    (hq : s.ice.sparing = (bank, row) :: q) (ha : s.lockOf bank row = some a) :
    s.fieldSparing = ({ (s.spareRow bank row).unlocked bank row with ice :=
      { ((s.spareRow bank row).unlocked bank row).ice with sparing :=
          ((s.spareRow bank row).unlocked bank row).ice.sparing.filter fun p => p != (bank, row) } } : State).presentCommit := by
  have hfind : (s.ice.sparing.find? fun p => (s.lockOf p.1 p.2).isSome) = some (bank, row) := by
    rw [hq, List.find?_cons_of_pos]
    simp [ha]
  simp only [State.fieldSparing, hfind]
  rfl

/-- Whatever its copy meets, a sparing maps its row, frees its lock, and leaves the floe table, the segments and the tiles. -/
theorem State.fieldSparing_spec {s : State} {bank row n : Nat} {q : List (Nat × Nat)} {a : Access}
    (hq : s.ice.sparing = (bank, row) :: q) (ha : s.lockOf bank row = some a) (hn : s.freeSpare bank = some n) :
    s.fieldSparing.spare bank n = { row := BitVec.ofNat 10 row, used := true, bad := false } ∧
      (∀ b ∈ s.fieldSparing.ice.sb.alloc, b.id ≠ a.id) ∧ s.fieldSparing.ice.floes = s.ice.floes ∧
      s.fieldSparing.ice.segs = s.ice.segs ∧ s.fieldSparing.tiles = s.tiles := by
  obtain ⟨hrow, hspare⟩ := State.spareRow_free hn row
  have hunlocked := hrow.trans ((s.spareRow bank row).unlocked_stands bank row)
  have halloc := State.unlocked_alloc hrow ha
  rw [← (s.spareRow bank row).unlocked_spare bank row] at hspare
  rw [State.fieldSparing_eq hq ha]
  generalize (s.spareRow bank row).unlocked bank row = u at *
  obtain ⟨commit, waiting, nextId, hpresent, -⟩ := State.presentCommit_eq
    { u with ice := { u.ice with sparing := u.ice.sparing.filter fun p => p != (bank, row) } }
  rw [hpresent]
  exact ⟨hspare, halloc, hunlocked.floes, hunlocked.segs, hunlocked.tiles⟩

/-! ## The statement -/

/-- Settles O23: the scrubber, the write-back and the sparing, each by what it does to the words and to the locks. -/
theorem maintenanceKeepsTheWords : Obligations.MaintenanceKeepsTheWords := by
  refine ⟨fun q s hp => ⟨fun hf hper => ?_, fun hon hq h => ?_⟩, fun cell c l s hp hs hl => ?_,
    fun bank row n q a s hp hq ha hn => ⟨_, exec_fieldSparing hp, State.fieldSparing_spec hq ha hn⟩⟩
  · rw [exec_scrubVisit hp, State.scrubVisit_stopped hf hper]
  · rw [exec_scrubVisit hp, State.scrubVisit_clean hp hon hq h]
    exact ⟨_, rfl, rfl, rfl, rfl, rfl⟩
  · rw [exec_correctedWriteback hp, State.writeback, hl]
    exact ⟨_, rfl, fun k => sget_sset 0 _ _ k _ hs.1, rfl, rfl, rfl, rfl⟩

end Sys2Proof.Machine

/-! # Work orders that start a drift, a commit or a window command -/

namespace Sys2Proof.Machine

/-! ## Taking an order up, opening it and ending it (R421, R430) -/

theorem State.serves.serve {s t : State} {o : Order} {op : BitVec 8} (h : s.serves o op t) (k : State → Order → State)
    (alt : State → State) : s.serve op k alt = k t o := by
  obtain ⟨hop, hserving, horders, ht, hrefusal⟩ := h
  rw [ht] at hrefusal ⊢
  simp only [State.serve, horders, hop, hserving, hrefusal, if_true, Bool.not_true, Bool.false_eq_true, if_false]

/-- Firmware takes no order up during a recovery (R470). -/
theorem State.serves.not_recovering {s t : State} {o : Order} {op : BitVec 8} (h : s.serves o op t) :
    (t.err.stat == .recovering) = false := by
  obtain ⟨-, hserving, -, ht, -⟩ := h
  rw [ht]
  simp only [State.serving, Bool.and_eq_true, bne_iff_ne] at hserving
  exact beq_eq_false_iff_ne.mpr hserving.1.1.2

/-- An open order more. -/
def State.withOrder (s : State) (p : OpenOrder) : State :=
  { s with hods := { s.hods with openOrders := s.hods.openOrders ++ [p] } }

/-- The number of the next order is taken. -/
def State.numbered (s : State) : State := { s with hods := { s.hods with nextOrder := s.hods.nextOrder + 1 } }

/-- The open order that an order of a hod becomes, but for what its operation adds. -/
def State.asOpen (s : State) (o : Order) : OpenOrder :=
  { id := s.hods.nextOrder, hod := o.hod, op := o.op, tag := o.tag, job := o.job }

theorem State.openOrder_eq (s : State) (o : Order) (f : OpenOrder → OpenOrder) :
    s.openOrder o f = s.numbered.withOrder (f (s.asOpen o)) := rfl

theorem State.withOrder_orderOf {s : State} {p : OpenOrder} (hp : ∀ q ∈ s.hods.openOrders, q.id ≠ p.id) :
    (s.withOrder p).orderOf p.id = some p := by
  have hno : s.hods.openOrders.find? (fun q => q.id == p.id) = none := by simpa using hp
  show (s.hods.openOrders ++ [p]).find? _ = _
  rw [List.find?_append, hno]
  simp

/-- A reply reads and changes nothing of the open orders. -/
theorem State.withOrder_reply (s : State) (p : OpenOrder) (hod : Fin 3) (op : BitVec 8) (tag job st : BitVec 16)
    (ws : List Word) : (s.withOrder p).reply hod op tag job st ws = (s.reply hod op tag job st ws).withOrder p := by
  have hpost : ∀ ws, (s.withOrder p).postOut hod ws = (s.postOut hod ws).withOrder p := fun ws =>
    (apply_ite (State.withOrder · p) _ (s.modHod hod (·.post ws))
      { s with hods := { s.hods with outQ := s.hods.outQ ++ [(hod, ws)] } }).symm
  simp only [State.reply, apply_ite (State.withOrder · p), ← hpost]
  rfl

theorem State.withOrder_closeOrder {s : State} {p : OpenOrder} (hp : ∀ q ∈ s.hods.openOrders, q.id ≠ p.id) :
    (s.withOrder p).closeOrder p.id = s := by
  have hall : s.hods.openOrders.filter (fun q => q.id != p.id) = s.hods.openOrders := by simpa using hp
  have horders : (s.hods.openOrders ++ [p]).filter (fun q => q.id != p.id) = s.hods.openOrders := by
    rw [List.filter_append, hall]
    simp
  exact congrArg (fun l => { s with hods := { s.hods with openOrders := l } }) horders

/-- The end of an order that was opened last: its reply, and the open orders as they were. -/
theorem State.withOrder_endOrder {s : State} {p : OpenOrder} (hp : ∀ q ∈ s.hods.openOrders, q.id ≠ p.id) (st : BitVec 16)
    (ws : List Word) : (s.withOrder p).endOrder p st ws = s.reply p.hod p.op p.tag p.job st ws := by
  obtain ⟨hod, outQ, hreply⟩ := s.reply_eq p.hod p.op p.tag p.job st ws
  rw [State.endOrder, State.withOrder_reply]
  refine State.withOrder_closeOrder ?_
  rw [hreply]
  exact hp

/-! ## MOVE -/

theorem State.moveOrder_no_channel {s : State} {ch : BitVec 5} (h : s.hasCh ch.toNat = false) (o : Order) (list : BitVec 48) :
    s.moveOrder o list ch = s.answer o 5 := by
  simp only [State.moveOrder, h, Bool.not_false, if_true, stParam]

theorem State.moveOrder_busy {s : State} {ch : BitVec 5} (h : s.hasCh ch.toNat = true) (hfree : s.chanFree ch = false)
    (o : Order) (list : BitVec 48) : s.moveOrder o list ch = s.answer o 7 := by
  simp only [State.moveOrder, h, hfree, Bool.not_true, Bool.not_false, Bool.false_eq_true, if_true, if_false, stBusy]

theorem State.moveOrder_starts {s : State} {ch : BitVec 5} (h : s.hasCh ch.toNat = true) (hfree : s.chanFree ch = true)
    (o : Order) (list : BitVec 48) :
    s.moveOrder o list ch = (s.numbered.withOrder { s.asOpen o with chans := [ch.toFin] }).startChain ch.toFin false
      (list.toNat / 64 * 64) {} none (some s.hods.nextOrder) := by
  simp only [State.moveOrder, h, hfree, Bool.not_true, Bool.false_eq_true, if_false]
  rfl

/-! ## FLOE_SET (R285, R423) -/

/-- The codes of the checks of a commit are 1 to 7 (R285). -/
theorem State.commitCheck_code {s : State} {f : Fin 64} {resv : Bool} {e : FloeEntry} {code : BitVec 4}
    (h : s.commitCheck f resv e = some code) : code ∈ [1, 2, 3, 4, 5, 6, 7] := by
  unfold State.commitCheck at h
  dsimp only at h
  repeat' split at h
  all_goals cases h
  all_goals decide

/-- The status of the order whose commit is refused: BUSY while another commit runs, REFUSED otherwise (R423). -/
def refusedStatus (code : BitVec 4) : BitVec 16 := if code = 7 then 7 else 5

/-- A refused commit ends its order, whatever its operation. -/
theorem State.replyCommit_refused {s : State} {n : Nat} {p : OpenOrder} {code : BitVec 4}
    (hs : (s.err.stat == .recovering) = false) (hp : s.orderOf n = some p) (hcode : code ∈ [1, 2, 3, 4, 5, 6, 7]) :
    s.replyCommit (some n) code = s.endOrder p (refusedStatus code) [code.setWidth 32] := by
  have hok : (code == fsDone || code == fsRevive) = false := by
    revert code
    decide
  simp only [State.replyCommit, hs, Bool.false_eq_true, if_false, hp, hok, Bool.and_false]
  rfl

/-- A refused commit for the order that was opened last ends it. -/
theorem answerCommit_refused {s : State} {p : OpenOrder} {code : BitVec 4} (hs : (s.err.stat == .recovering) = false)
    (hp : ∀ q ∈ s.hods.openOrders, q.id ≠ p.id) (hcode : code ∈ [1, 2, 3, 4, 5, 6, 7]) :
    answerCommit (s.withOrder p, code) (some p.id) =
      s.reply p.hod p.op p.tag p.job (refusedStatus code) [code.setWidth 32] := by
  have hdone : code ≠ fsPending := by
    revert code
    decide
  exact (if_neg hdone).trans ((State.replyCommit_refused (s := s.withOrder p) hs
    (State.withOrder_orderOf hp) hcode).trans (State.withOrder_endOrder hp _ _))

theorem State.floeSet_answer (s : State) (o : Order) (f : Fin 64) (e : Vector Word 8) :
    s.floeSet o f e = answerCommit ((s.numbered.withOrder (s.asOpen o)).commitFloe (Hart.reader 0) f e
      (some s.hods.nextOrder)) (some s.hods.nextOrder) := rfl

theorem State.floeSet_refused {s : State} {o : Order} {f : Fin 64} {e : Vector Word 8} {code : BitVec 4}
    (hs : (s.err.stat == .recovering) = false) (hid : ∀ p ∈ s.hods.openOrders, p.id ≠ s.hods.nextOrder)
    (h : s.commitCheck f (floeReserved e) (FloeEntry.ofWords e) = some code) :
    s.floeSet o f e = (s.numbered.setFstat 0 code).answer o (refusedStatus code) [code.setWidth 32] := by
  have h' : (s.numbered.withOrder (s.asOpen o)).commitCheck f (floeReserved e) (FloeEntry.ofWords e) = some code :=
    (State.commitCheck_congr rfl rfl rfl f _ _).trans h
  rw [State.floeSet_answer, State.commitFloe_refused h']
  exact answerCommit_refused (s := s.numbered.setFstat 0 code) (p := s.asOpen o) hs hid (State.commitCheck_code h)

/-- A FLOE_SET whose commit is accepted stays open, and the commit runs for it (log entry 140). -/
theorem State.floeSet_accepted {s : State} {o : Order} {f : Fin 64} {e : Vector Word 8}
    (h : s.commitCheck f (floeReserved e) (FloeEntry.ofWords e) = none) :
    ∃ commit waiting nextId, s.floeSet o f e = { s.numbered.withOrder (s.asOpen o) with ice := { s.ice with
        fstat := vset s.ice.fstat (Hart.reader 0) 9, commit := commit
        sb := { s.ice.sb with waiting := waiting, nextId := nextId } } } ∧
      commit.map Commit.unpresented =
        some { floe := f, entry := FloeEntry.ofWords e, who := Hart.reader 0, order := some s.hods.nextOrder } := by
  have h' : (s.numbered.withOrder (s.asOpen o)).commitCheck f (floeReserved e) (FloeEntry.ofWords e) = none :=
    (State.commitCheck_congr rfl rfl rfl f _ _).trans h
  obtain ⟨commit, waiting, nextId, heq, hc⟩ := State.commitFloe_accepted h' (Hart.reader 0) (some s.hods.nextOrder)
  exact ⟨commit, waiting, nextId, by rw [State.floeSet_answer, heq]; rfl, hc⟩

/-! ## WEIGHT_PUSH (R294) -/

theorem FloeEntry.ofWords_toWords_wepoch (e : FloeEntry) : (FloeEntry.ofWords e.toWords).wepoch = e.wepoch := by
  show (e.wepoch.setWidth 32).extractLsb' 0 16 = e.wepoch
  apply BitVec.eq_of_getLsbD_eq
  intro i hi
  simp [hi]
  omega

/-- The first hart that runs no kernel (R433). -/
theorem State.find?_idleHart {s : State} {h : Hart} (hidle : s.idleHart h = true)
    (hfirst : ∀ g : Hart, g < h → s.idleHart g = false) : (fins 16).find? s.idleHart = some h := by
  rw [fins, ← Fin.find?_eq_find?_finRange]
  exact Fin.find?_eq_some_iff.mpr ⟨hidle, fun g hg => hfirst g hg⟩

theorem State.withOrder_modOrder {s : State} {p : OpenOrder} (hp : ∀ q ∈ s.hods.openOrders, q.id ≠ p.id)
    (g : OpenOrder → OpenOrder) : (s.withOrder p).modOrder p.id g = s.withOrder (g p) := by
  have hmap : s.hods.openOrders.map (fun q => if q.id == p.id then g q else q) = s.hods.openOrders :=
    (List.map_congr_left fun q hq => if_neg fun h => hp q hq (beq_iff_eq.mp h)).trans (List.map_id _)
  have horders : (s.hods.openOrders ++ [p]).map (fun q => if q.id == p.id then g q else q) = s.hods.openOrders ++ [g p] := by
    rw [List.map_append, hmap]
    simp
  exact congrArg (fun l => { s with hods := { s.hods with openOrders := l } }) horders

/-- An order that reads no floe holds back no weight push (R32). -/
theorem State.withOrder_epochRead (s : State) {p : OpenOrder} (hp : p.reads = 0xFFFF) (e : BitVec 16) :
    (s.withOrder p).epochRead e = s.epochRead e := by
  by_cases he : e = 0xFFFF
  · simp [State.epochRead, he]
  · have hne : (p.reads == e) = false := by rw [hp]; exact beq_false_of_ne (Ne.symm he)
    simp [State.epochRead, State.withOrder, hne]

/-- The open order of a weight push before its first commit. -/
def State.pushAsked (s : State) (o : Order) (f : Fin 64) (list : BitVec 48) (ch : BitVec 5) : OpenOrder :=
  { s.asOpen o with floe := f, wepoch := o.wepoch (s.negOf o), list, chans := [ch.toFin] }

/-- The hart of a weight push owns its channel (R433, log entry 167). -/
def State.pushOwned (s : State) (ch : BitVec 5) (h : Hart) : State :=
  s.numbered.modCh ch.toFin fun x => { x with owner := h }

theorem State.weightPush_opens {s : State} {o : Order} {f : Fin 64} {list : BitVec 48} {ch : BitVec 5} {h : Hart}
    (hused : (s.floe f).used = true) (he : o.wepoch (s.negOf o) ≠ 0xFFFF) (hch : s.hasCh ch.toNat = true)
    (hfree : s.chanFree ch = true) (hh : (fins 16).find? s.idleHart = some h)
    (hid : ∀ p ∈ s.hods.openOrders, p.id ≠ s.hods.nextOrder) :
    s.weightPush o f list ch =
      let u := (s.pushOwned ch h).withOrder (s.pushAsked o f list ch)
      if u.mayPush (s.pushAsked o f list ch) then u.pushCommit (s.pushAsked o f list ch) else u := by
  have horder : ((s.pushOwned ch h).withOrder (s.pushAsked o f list ch)).orderOf s.hods.nextOrder =
      some (s.pushAsked o f list ch) := State.withOrder_orderOf (p := s.pushAsked o f list ch) hid
  simp only [State.weightPush, hused, he, hch, hfree, hh, Bool.not_true, decide_false, Bool.or_false,
    Bool.false_eq_true, if_false]
  exact (congrArg (fun q : Option OpenOrder => match q with
    | some p => if ((s.pushOwned ch h).withOrder (s.pushAsked o f list ch)).mayPush p then
        ((s.pushOwned ch h).withOrder (s.pushAsked o f list ch)).pushCommit p else
        (s.pushOwned ch h).withOrder (s.pushAsked o f list ch)
    | none => (s.pushOwned ch h).withOrder (s.pushAsked o f list ch)) horder)

/-- The first commit of a weight push clears the tag of its floe, once no request that runs reads the floe (R294). -/
theorem State.mayPush_asked (s : State) {o : Order} (hop : o.op = 0x21) (f : Fin 64) (list : BitVec 48) (ch : BitVec 5)
    (h : Hart) : ((s.pushOwned ch h).withOrder (s.pushAsked o f list ch)).mayPush (s.pushAsked o f list ch) =
      !s.epochRead (s.floe f).wepoch := by
  have hop' : ((s.pushAsked o f list ch).op == 0x21) = true := beq_iff_eq.mpr hop
  have hread := State.withOrder_epochRead (s.pushOwned ch h) (p := s.pushAsked o f list ch) rfl (s.floe f).wepoch
  simp only [State.mayPush, hop', Bool.true_and]
  exact congrArg not hread

theorem State.withOrder_pushCommit {s : State} {p : OpenOrder} (hp : ∀ q ∈ s.hods.openOrders, q.id ≠ p.id) :
    (s.withOrder p).pushCommit p = answerCommit ((s.withOrder { p with phase := p.phase + 1 }).commitFloe (Hart.reader 0)
      p.floe (s.pushWords p) (some p.id)) (some p.id) := by
  rw [State.pushCommit_answer, State.withOrder_modOrder hp]
  rfl

theorem State.withOrder_pushCommit_refused {s : State} {p : OpenOrder} {code : BitVec 4}
    (hs : (s.err.stat == .recovering) = false) (hp : ∀ q ∈ s.hods.openOrders, q.id ≠ p.id)
    (h : s.commitCheck p.floe (floeReserved (s.pushWords p)) (FloeEntry.ofWords (s.pushWords p)) = some code) :
    (s.withOrder p).pushCommit p =
      (s.setFstat 0 code).reply p.hod p.op p.tag p.job (refusedStatus code) [code.setWidth 32] := by
  have h' : (s.withOrder { p with phase := p.phase + 1 }).commitCheck p.floe (floeReserved (s.pushWords p))
      (FloeEntry.ofWords (s.pushWords p)) = some code := (State.commitCheck_congr rfl rfl rfl _ _ _).trans h
  rw [State.withOrder_pushCommit hp, State.commitFloe_refused h']
  exact answerCommit_refused (s := s.setFstat 0 code) (p := { p with phase := p.phase + 1 }) hs hp (State.commitCheck_code h)

theorem State.withOrder_pushCommit_accepted {s : State} {p : OpenOrder} (hp : ∀ q ∈ s.hods.openOrders, q.id ≠ p.id)
    (h : s.commitCheck p.floe (floeReserved (s.pushWords p)) (FloeEntry.ofWords (s.pushWords p)) = none) :
    ∃ commit waiting nextId, (s.withOrder p).pushCommit p =
        { s.withOrder { p with phase := p.phase + 1 } with ice := { s.ice with
          fstat := vset s.ice.fstat (Hart.reader 0) 9, commit := commit
          sb := { s.ice.sb with waiting := waiting, nextId := nextId } } } ∧
      commit.map Commit.unpresented =
        some { floe := p.floe, entry := FloeEntry.ofWords (s.pushWords p), who := Hart.reader 0, order := some p.id } := by
  have h' : (s.withOrder { p with phase := p.phase + 1 }).commitCheck p.floe (floeReserved (s.pushWords p))
      (FloeEntry.ofWords (s.pushWords p)) = none := (State.commitCheck_congr rfl rfl rfl _ _ _).trans h
  obtain ⟨commit, waiting, nextId, heq, hc⟩ := State.commitFloe_accepted h' (Hart.reader 0) (some p.id)
  exact ⟨commit, waiting, nextId, by rw [State.withOrder_pushCommit hp, heq]; rfl, hc⟩

section
variable {s : State} {o : Order} {f : Fin 64} {list : BitVec 48} {ch : BitVec 5} {h : Hart}

theorem State.pushOwned_chan (s : State) (ch : BitVec 5) (h : Hart) :
    (s.pushOwned ch h).chan ch.toFin = { s.chan ch.toFin with owner := h } := State.modCh_chan _ _ _

theorem State.pushOwned_chan_ne (s : State) {ch : BitVec 5} {c : Fin 32} (hc : c ≠ ch.toFin) (h : Hart) :
    (s.pushOwned ch h).chan c = s.chan c := State.modCh_chan_ne _ _ hc

/-- The commit of a push reads the entries and the commit that runs, which its order and its channel leave. -/
theorem State.pushOwned_commitCheck (s : State) (ch : BitVec 5) (h : Hart) (f : Fin 64) (resv : Bool) (e : FloeEntry) :
    (s.pushOwned ch h).commitCheck f resv e = s.commitCheck f resv e := State.commitCheck_congr rfl rfl rfl _ _ _

/-- The entry of a floe without its tag (R294). -/
def State.untagged (s : State) (f : Fin 64) : FloeEntry := { s.floe f with wepoch := 0xFFFF }

theorem State.pushWords_asked (s : State) (o : Order) (f : Fin 64) (list : BitVec 48) (ch : BitVec 5) (h : Hart) :
    (s.pushOwned ch h).pushWords (s.pushAsked o f list ch) = (s.untagged f).toWords := rfl

/-- What a weight push that is opened leaves: its channel's owner, and, when no request reads the floe, the commit that takes
the floe's tag away. -/
theorem State.withOrder_push_spec (hs : (s.err.stat == .recovering) = false) (hop : o.op = 0x21)
    (hid : ∀ p ∈ s.hods.openOrders, p.id ≠ s.hods.nextOrder) :
    let v := (s.pushOwned ch h).withOrder (s.pushAsked o f list ch)
    let u := if v.mayPush (s.pushAsked o f list ch) then v.pushCommit (s.pushAsked o f list ch) else v
    u.drf = (s.pushOwned ch h).drf ∧ u.ice.floes = s.ice.floes ∧ u.harts = s.harts ∧ u.tiles = s.tiles ∧
      (s.epochRead (s.floe f).wepoch = true →
        u.ice = s.ice ∧ u.hods.openOrders = s.hods.openOrders ++ [s.pushAsked o f list ch]) ∧
      (s.epochRead (s.floe f).wepoch = false →
        s.commitCheck f (floeReserved (s.untagged f).toWords) (FloeEntry.ofWords (s.untagged f).toWords) = none →
        u.ice.commit.map (fun c => (c.floe, c.entry.wepoch, c.order)) = some (f, 0xFFFF, some s.hods.nextOrder) ∧
          u.hods.openOrders = s.hods.openOrders ++ [{ s.pushAsked o f list ch with phase := 1 }]) := by
  dsimp only
  rw [State.mayPush_asked s hop]
  cases hread : s.epochRead (s.floe f).wepoch with
  | true => exact ⟨rfl, rfl, rfl, rfl, fun _ => ⟨rfl, rfl⟩, fun hno => absurd hno (by decide)⟩
  | false =>
    rw [Bool.not_false, if_pos rfl]
    cases hcheck : s.commitCheck f (floeReserved (s.untagged f).toWords) (FloeEntry.ofWords (s.untagged f).toWords) with
    | none =>
      obtain ⟨commit, waiting, nextId, hpush, hcommit⟩ := State.withOrder_pushCommit_accepted (s := s.pushOwned ch h)
        (p := s.pushAsked o f list ch) hid ((s.pushOwned_commitCheck ch h f _ _).trans hcheck)
      have hmap := congrArg (Option.map fun c : Commit => (c.floe, c.entry.wepoch, c.order)) hcommit
      rw [Option.map_map, Option.map_some, State.pushWords_asked, FloeEntry.ofWords_toWords_wepoch] at hmap
      rw [hpush]
      exact ⟨rfl, rfl, rfl, rfl, fun hyes => absurd hyes (by decide), fun _ _ => ⟨hmap, rfl⟩⟩
    | some code =>
      obtain ⟨hod, outQ, hreply⟩ := ((s.pushOwned ch h).setFstat 0 code).reply_eq o.hod o.op o.tag o.job (refusedStatus code)
        [code.setWidth 32]
      have hpush := (State.withOrder_pushCommit_refused (s := s.pushOwned ch h) (p := s.pushAsked o f list ch) hs hid
        ((s.pushOwned_commitCheck ch h f _ _).trans hcheck)).trans hreply
      rw [hpush]
      exact ⟨rfl, rfl, rfl, rfl, fun hyes => absurd hyes (by decide), fun _ hno => absurd hno (by simp)⟩

end

/-! ## WINDOW (R375, R423) -/

/-- Firmware's new window command reports for no close that is not firmware's. -/
theorem State.forgetCloses_of_none {s : State} {r : Reader} (h : ∀ c ∈ s.nbr.closers, c.2.1 ≠ some r) :
    s.forgetCloses r = s := by
  have hmap : s.nbr.closers.map (fun c => if c.2.1 == some r then (c.1, none, c.2.2) else c) = s.nbr.closers :=
    (List.map_congr_left fun c hc => if_neg fun he => h c hc (beq_iff_eq.mp he)).trans (List.map_id _)
  exact congrArg (fun l => { s with nbr := { s.nbr with closers := l } }) hmap

/-- The WINDOW order that was opened last is replied to and closed. -/
theorem State.withOrder_replyWindow {s : State} {p : OpenOrder} (hp : ∀ q ∈ s.hods.openOrders, q.id ≠ p.id) (code : BitVec 4) :
    (s.withOrder p).replyWindow (some p.id) code =
      s.reply p.hod p.op p.tag p.job (if code = wsDone then 0 else 5) [code.setWidth 32] := by
  simp only [State.replyWindow, State.withOrder_orderOf hp]
  exact State.withOrder_endOrder hp _ _

/-- A CLOSE or CREDIT of a closed window is refused with the code 5. -/
theorem State.windowOrder_closed {s : State} {o : Order} {w : Fin 64} (hid : ∀ p ∈ s.hods.openOrders, p.id ≠ s.hods.nextOrder)
    (hw : (s.win w).isOpen = false) (hc : ∀ c ∈ s.nbr.closers, c.2.1 ≠ some 0) (g : Vector Word 4) (credit : BitVec 24)
    {op : WindowOp} (hop : op ∈ ([.close, .credit] : List WindowOp)) :
    s.windowOrder o op w g credit = (s.numbered.setWstat 0 5).answer o 5 [5] := by
  have hw' : ((s.numbered.withOrder (s.asOpen o)).win w).isOpen = false := hw
  have hforget : (s.openOrder o).forgetCloses (Hart.reader 0) = s.numbered.withOrder (s.asOpen o) :=
    State.forgetCloses_of_none hc
  have hreply := State.withOrder_replyWindow (s := s.numbered.setWstat 0 5) (p := s.asOpen o) hid 5
  simp only [List.mem_cons, List.not_mem_nil, or_false] at hop
  obtain rfl | rfl := hop
  · simp only [State.windowOrder, hforget, State.windowClose, hw', Bool.not_false, if_true]
    exact hreply
  · simp only [State.windowOrder, hforget, State.windowCredit, hw', Bool.not_false, if_true]
    exact hreply

/-- The GRANT of a credit (R382). -/
def State.grantOf (s : State) (w : Fin 64) (credit : BitVec 24) : NbrMsg :=
  { type := 4, win := BitVec.ofNat 6 w.val, gen := (s.win w).gen, line := (s.win w).lines
    seq := (s.port (s.win w).port).txSeq, credit }

/-- The state in which a window has its credit and its port the GRANT. -/
def State.credited (s : State) (w : Fin 64) (credit : BitVec 24) : State :=
  ((s.modWin w fun v => { v with granted := addSat v.granted credit.toNat }).modPort (s.win w).port fun q =>
    { q with txSeq := q.txSeq + 1, unanswered := q.unanswered ++ [{ msg := s.grantOf w credit, desc := none }] }).tx
      (s.win w).port (s.grantOf w credit)

/-- A credit changes the neighbour alone: the window's grants, and what its port has sent. -/
theorem State.credited_eq (s : State) (w : Fin 64) (credit : BitVec 24) :
    ∃ nbr, s.credited w credit = { s with nbr := nbr } := ⟨_, rfl⟩

theorem State.credited_win (s : State) (w : Fin 64) (credit : BitVec 24) :
    (s.credited w credit).win w = { s.win w with granted := addSat (s.win w).granted credit.toNat } := vmod_get_same _ _ _

theorem State.credited_tx (s : State) (w : Fin 64) (credit : BitVec 24) :
    ((s.credited w credit).port (s.win w).port).tx = (s.port (s.win w).port).tx ++ [s.grantOf w credit] := by
  have hport : ∀ (u : State) (p : Fin 4) (f : Port → Port), (u.modPort p f).port p = f (u.port p) := fun u p f =>
    vmod_get_same _ _ _
  rw [State.credited, State.tx, hport, hport]
  rfl

/-- The outcome of a window command changes its reader's register alone. -/
theorem State.setWstat_eq (s : State) (r : Reader) (code : BitVec 4) :
    s.setWstat r code = { s with nbr := { s.nbr with regs := (s.setWstat r code).nbr.regs } } := rfl

theorem State.setWstat_wstat (s : State) (r : Reader) (code : BitVec 4) : ((s.setWstat r code).nbr.regs.get r).wstat = code :=
  congrArg NbrRegs.wstat (vmod_get_same _ _ _)

theorem State.windowCredit_open {s : State} {w : Fin 64} (hw : (s.win w).isOpen = true)
    (hup : (s.port (s.win w).port).state = .up) (hroom : (s.port (s.win w).port).unanswered.length < 32768)
    (hwait : (s.port (s.win w).port).txWait = []) (credit : BitVec 24) :
    s.windowCredit w credit = (s.credited w credit, 0) := by
  have hup' : s.up (s.win w).port = true := by rw [State.up, hup]; rfl
  have hgo : ((s.port (s.win w).port).txFull || !(s.port (s.win w).port).txWait.isEmpty) = false := by
    rw [hwait, Port.txFull, decide_eq_false (Nat.not_le.mpr hroom)]
    rfl
  simp only [State.windowCredit, hw, hup', Bool.not_true, Bool.false_eq_true, if_false]
  exact congrArg (·, (0 : BitVec 4)) (if_neg (ne_true_of_eq_false hgo))

theorem State.windowOrder_credit {s : State} {o : Order} {w : Fin 64}
    (hid : ∀ p ∈ s.hods.openOrders, p.id ≠ s.hods.nextOrder) (hc : ∀ c ∈ s.nbr.closers, c.2.1 ≠ some 0)
    (hw : (s.win w).isOpen = true) (hup : (s.port (s.win w).port).state = .up)
    (hroom : (s.port (s.win w).port).unanswered.length < 32768) (hwait : (s.port (s.win w).port).txWait = [])
    (g : Vector Word 4) (credit : BitVec 24) :
    s.windowOrder o .credit w g credit = ((s.numbered.credited w credit).setWstat 0 0).answer o 0 [0] := by
  have hforget : (s.openOrder o).forgetCloses (Hart.reader 0) = s.numbered.withOrder (s.asOpen o) :=
    State.forgetCloses_of_none hc
  have hcredit : (s.numbered.withOrder (s.asOpen o)).windowCredit w credit =
      ((s.numbered.withOrder (s.asOpen o)).credited w credit, 0) :=
    State.windowCredit_open (s := s.numbered.withOrder (s.asOpen o)) hw hup hroom hwait credit
  have hreply := State.withOrder_replyWindow (s := (s.numbered.credited w credit).setWstat 0 0) (p := s.asOpen o) hid 0
  simp only [State.windowOrder, hforget, hcredit]
  exact hreply

/-! ## A drift of one descriptor (R323 to R325) -/

/-- The checks of descriptors read nothing of the orders. -/
theorem State.checkDescs_hods (s : State) (hods : Hods) (c : Fin 32) (x : Channel) (firstLen n : Nat) (p : Bool)
    (ds : List Desc) :
    ({ s with hods := hods } : State).checkDescs c x firstLen n p ds = s.checkDescs c x firstLen n p ds := by
  induction ds generalizing n p x with
  | nil => rfl
  | cons d ds ih =>
    have hcheck : ({ s with hods := hods } : State).descCheck c x n firstLen p d = s.descCheck c x n firstLen p d := rfl
    simp only [State.checkDescs, hcheck, ih]

/-- The ranges of a set are a matter of its channel's bases and the flow buffers. -/
theorem State.setRanges_congr {s t : State} {c : Fin 32} (hb : (t.chan c).bases = (s.chan c).bases)
    (hfb : t.drf.fb = s.drf.fb) (ds : List Desc) : t.setRanges c ds = s.setRanges c ds := by
  have hspans : ∀ d, t.fetchSpans d c = s.fetchSpans d c := fun d => by rw [State.fetchSpans, State.fetchSpans, hfb]
  simp only [State.setRanges, hb, hspans]

theorem State.presentSet_ranges {s : State} {c : Fin 32} {st : DriftSet} (h : s.setRanges c st.descs ≠ []) :
    s.presentSet c st =
      ((s.present (.drift c) (s.setRanges c st.descs)).1, { st with sb := some s.ice.sb.nextId }) := by
  have hno : (s.setRanges c st.descs).isEmpty = false := by simpa using h
  simp only [State.presentSet, hno, Bool.false_eq_true, if_false]
  rfl

/-- After the set with LAST no set is asked for (R323). -/
theorem State.askFetch_of_ended {s : State} {c : Fin 32} {st : DriftSet} (hset : (s.chan c).set = some st)
    (hend : st.chainEnd = true) : s.askFetch c = s := by
  have hwants : (s.chan c).wantsSet = false := by simp [Channel.wantsSet, hset, hend]
  simp only [State.askFetch, hwants, Bool.not_false, Bool.true_or, if_true]

/-- The set of one last descriptor that has passed its checks. -/
def lastSet (d : Desc) : DriftSet := { descs := [d], chainEnd := true }

/-- A channel whose list has moved on by `step` behind a set of one last descriptor, but for the set itself (R323, R324). -/
def Channel.lastTaken (x : Channel) (d : Desc) (p : Bool) (step : Nat) : Channel :=
  { x with
    version := match x.version with | some v => some v | none => some d.ver
    firstLen := 1, persist := p, fetched := x.fetched + 1, fetchN := none, feeds := feedsOf x.feeds [d]
    listAddr := if x.listIce then (addWord (BitVec.ofNat 32 x.listAddr) (BitVec.ofNat 26 step)).toNat
      else (x.listAddr + step) % 2 ^ 48 }

/-- The state in which a channel has taken the set of one last descriptor in and is to present its ranges. -/
def State.lastTaken (s : State) (c : Fin 32) (d : Desc) (p : Bool) : State :=
  (s.countEvent 0x22 1).modCh c (·.lastTaken d p (if (s.chan c).listIce then 16 * 1 else 64 * 1))

/-- The place of a set in its channel, and what the channel does with it (R323). -/
def State.placeSet (s : State) (c : Fin 32) (st : DriftSet) : State :=
  (((s.presentSet c st).1.modCh c fun y =>
    if y.set.isNone then { y with set := some (s.presentSet c st).2 }
    else { y with next := some (s.presentSet c st).2 }).askFetch c).drive c

/-- The set of one last descriptor waits for its access. -/
def State.setWaiting (s : State) (c : Fin 32) (d : Desc) : State :=
  (s.present (.drift c) (s.setRanges c [d])).1.modCh c fun y =>
    { y with set := some { lastSet d with sb := some s.ice.sb.nextId } }

theorem State.placeSet_waits {s : State} {c : Fin 32} {d : Desc} (hset : (s.chan c).set = none)
    (hranges : s.setRanges c [d] ≠ []) (hid : ∀ a ∈ s.ice.sb.alloc, a.id ≠ s.ice.sb.nextId) :
    s.placeSet c (lastSet d) = s.setWaiting c d := by
  have hplace : ((s.present (.drift c) (s.setRanges c [d])).1.modCh c fun y =>
        if y.set.isNone then { y with set := some { lastSet d with sb := some s.ice.sb.nextId } }
        else { y with next := some { lastSet d with sb := some s.ice.sb.nextId } }) = s.setWaiting c d :=
    congrArg (fun x => { (s.present (.drift c) (s.setRanges c [d])).1 with
      drf := { s.drf with ch := vset s.drf.ch c x } }) (if_pos (Option.isNone_iff_eq_none.mpr hset))
  have hnow : ((s.setWaiting c d).chan c).set = some { lastSet d with sb := some s.ice.sb.nextId } := by
    rw [State.setWaiting, State.modCh_chan]
  rw [State.placeSet, State.presentSet_ranges (st := lastSet d) hranges]
  exact (congrArg (fun u : State => (u.askFetch c).drive c) hplace).trans ((congrArg (·.drive c)
    (State.askFetch_of_ended hnow rfl)).trans (State.drive_of_not_current (State.current_of_waiting hnow rfl hid)))

theorem State.enterSet_placeSet {s : State} {c : Fin 32} {d : Desc} {p : Bool} (hlast : d.last = true)
    (hfetched : (s.chan c).fetched = 0) (hpersist : (s.chan c).persist = false)
    (hcheck : s.checkDescs c (s.chan c) 1 0 false [d] = ([d], none, p)) :
    s.enterSet c [d] none = (s.lastTaken c d p).placeSet c (lastSet d) := by
  unfold State.enterSet
  simp only [hfetched, hpersist, List.length_singleton, if_true, hcheck, hlast, List.isEmpty_cons, Option.isNone_none,
    List.getLast?_singleton, Option.map_some, Option.getD_some, Bool.true_and, Bool.false_eq_true, if_false, List.head?_cons]
  rfl

theorem State.enterSet_last {s : State} {c : Fin 32} {d : Desc} {p : Bool} (hlast : d.last = true)
    (hfetched : (s.chan c).fetched = 0) (hpersist : (s.chan c).persist = false) (hset : (s.chan c).set = none)
    (hcheck : s.checkDescs c (s.chan c) 1 0 false [d] = ([d], none, p)) (hranges : s.setRanges c [d] ≠ [])
    (hid : ∀ a ∈ s.ice.sb.alloc, a.id ≠ s.ice.sb.nextId) :
    s.enterSet c [d] none = (s.lastTaken c d p).setWaiting c d := by
  have hchan : (s.lastTaken c d p).chan c = (s.chan c).lastTaken d p _ := State.modCh_chan _ _ _
  have hbases : ((s.lastTaken c d p).chan c).bases = (s.chan c).bases := by rw [hchan, Channel.lastTaken]
  have hranges' : (s.lastTaken c d p).setRanges c [d] ≠ [] := by
    rw [State.setRanges_congr hbases rfl]
    exact hranges
  have hset' : ((s.lastTaken c d p).chan c).set = none := by rw [hchan, Channel.lastTaken, hset]
  rw [State.enterSet_placeSet hlast hfetched hpersist hcheck]
  exact State.placeSet_waits hset' hranges' hid

theorem State.lastTaken_setWaiting_chan (s : State) (c : Fin 32) (d : Desc) (p : Bool) :
    ((s.lastTaken c d p).setWaiting c d).chan c =
      { (s.chan c).lastTaken d p (if (s.chan c).listIce then 16 * 1 else 64 * 1) with
        set := some { lastSet d with sb := some s.ice.sb.nextId } } :=
  (State.modCh_chan _ _ _).trans
    (congrArg (fun x : Channel => { x with set := some { lastSet d with sb := some s.ice.sb.nextId } }) (State.modCh_chan _ _ _))

theorem State.lastTaken_setWaiting_chan_ne (s : State) {c k : Fin 32} (hk : k ≠ c) (d : Desc) (p : Bool) :
    ((s.lastTaken c d p).setWaiting c d).chan k = s.chan k :=
  (State.modCh_chan_ne _ _ hk).trans (State.modCh_chan_ne _ _ hk)

/-- A set that waits has changed its channel, the counters of events and the waiting accesses. -/
theorem State.lastTaken_setWaiting_frame (s : State) (c : Fin 32) (d : Desc) (p : Bool) :
    ((s.lastTaken c d p).setWaiting c d).hods = s.hods ∧ ((s.lastTaken c d p).setWaiting c d).ice.cells = s.ice.cells ∧
      ((s.lastTaken c d p).setWaiting c d).harts = s.harts ∧ ((s.lastTaken c d p).setWaiting c d).tiles = s.tiles :=
  ⟨rfl, rfl, rfl, rfl⟩

/-! ## ICE_READ and ICE_WRITE (R423) -/

/-- The descriptor of an ICE_READ or ICE_WRITE: one row that copies words (log entry 115). -/
def State.iceDesc (s : State) (store : Bool) (words : Nat) (ice : Word) (fab : BitVec 48) : Desc :=
  copyDesc (if s.drf.vers.getLsbD 1 then 3 else 2) store words 1 ice fab

/-- The chain of an order runs on its channel, and the order is open. -/
def State.chainStarted (s : State) (o : Order) (c : Fin 32) : State :=
  (s.numbered.withOrder { s.asOpen o with chans := [c] }).modCh c fun x => chainOf x s.hods.nextOrder

theorem State.chainStarted_chan (s : State) (o : Order) (c : Fin 32) :
    (s.chainStarted o c).chan c = chainOf (s.chan c) s.hods.nextOrder := State.modCh_chan _ _ _

theorem State.chainStarted_chan_ne (s : State) (o : Order) {c k : Fin 32} (hk : k ≠ c) :
    (s.chainStarted o c).chan k = s.chan k := State.modCh_chan_ne _ _ hk

theorem State.iceOrder_starts {s : State} {words : Nat} {ch : BitVec 5} (hch : s.hasCh ch.toNat = true)
    (hfree : s.chanFree ch = true) (hpos : words ≠ 0) (hmax : words ≤ 16384) (o : Order) (store : Bool) (ice : Word)
    (fab : BitVec 48) :
    s.iceOrder o store ice words fab ch =
      (s.chainStarted o ch.toFin).enterSet ch.toFin [s.iceDesc store words ice fab] none := by
  simp only [State.iceOrder, hch, hfree, hpos, Nat.not_lt.mpr hmax, Bool.not_true, decide_false, Bool.or_false,
    Bool.false_eq_true, if_false]
  rfl

theorem State.iceOrder_waits {s : State} {words : Nat} {ch : BitVec 5} (hch : s.hasCh ch.toNat = true)
    (hfree : s.chanFree ch = true) (hpos : words ≠ 0) (hmax : words ≤ 16384) (o : Order) {store : Bool} {ice : Word}
    {fab : BitVec 48} {p : Bool}
    (hcheck : (s.modCh ch.toFin fun _ => chainOf (s.chan ch.toFin) s.hods.nextOrder).checkDescs ch.toFin
      (chainOf (s.chan ch.toFin) s.hods.nextOrder) 1 0 false [s.iceDesc store words ice fab] =
        ([s.iceDesc store words ice fab], none, p))
    (hranges : (s.modCh ch.toFin fun _ => chainOf (s.chan ch.toFin) s.hods.nextOrder).setRanges ch.toFin
      [s.iceDesc store words ice fab] ≠ []) (hid : ∀ a ∈ s.ice.sb.alloc, a.id ≠ s.ice.sb.nextId) :
    s.iceOrder o store ice words fab ch =
      ((s.chainStarted o ch.toFin).lastTaken ch.toFin (s.iceDesc store words ice fab) p).setWaiting ch.toFin
        (s.iceDesc store words ice fab) := by
  have hchan := s.chainStarted_chan o ch.toFin
  have hbases : ((s.chainStarted o ch.toFin).chan ch.toFin).bases =
      ((s.modCh ch.toFin fun _ => chainOf (s.chan ch.toFin) s.hods.nextOrder).chan ch.toFin).bases := by
    rw [hchan, State.modCh_chan]
  rw [State.iceOrder_starts hch hfree hpos hmax]
  refine State.enterSet_last rfl ?_ ?_ ?_ ?_ ?_ hid
  · rw [hchan, chainOf]
  · rw [hchan, chainOf]
  · rw [hchan, chainOf]
  · rw [hchan]
    exact (State.checkDescs_hods (s.modCh ch.toFin fun _ => chainOf (s.chan ch.toFin) s.hods.nextOrder) _ _ _ _ _ _ _).trans
      hcheck
  · rw [State.setRanges_congr (t := s.chainStarted o ch.toFin) hbases rfl]
    exact hranges

theorem State.iceOrder_spec {s : State} {words : Nat} {ch : BitVec 5} (hch : s.hasCh ch.toNat = true)
    (hfree : s.chanFree ch = true) (hpos : words ≠ 0) (hmax : words ≤ 16384) (o : Order) {store : Bool} {ice : Word}
    {fab : BitVec 48} {p : Bool}
    (hcheck : (s.modCh ch.toFin fun _ => chainOf (s.chan ch.toFin) s.hods.nextOrder).checkDescs ch.toFin
      (chainOf (s.chan ch.toFin) s.hods.nextOrder) 1 0 false [s.iceDesc store words ice fab] =
        ([s.iceDesc store words ice fab], none, p))
    (hranges : (s.modCh ch.toFin fun _ => chainOf (s.chan ch.toFin) s.hods.nextOrder).setRanges ch.toFin
      [s.iceDesc store words ice fab] ≠ []) (hid : ∀ a ∈ s.ice.sb.alloc, a.id ≠ s.ice.sb.nextId) :
    let u := s.iceOrder o store ice words fab ch
    u.hods.openOrders = s.hods.openOrders ++ [{ s.asOpen o with chans := [ch.toFin] }] ∧
      (u.chan ch.toFin).state = 1 ∧ (u.chan ch.toFin).order = some s.hods.nextOrder ∧
      (u.chan ch.toFin).set = some { lastSet (s.iceDesc store words ice fab) with sb := some s.ice.sb.nextId } ∧
      (∀ k, k ≠ ch.toFin → u.chan k = s.chan k) ∧ u.ice.cells = s.ice.cells ∧ u.harts = s.harts ∧ u.tiles = s.tiles := by
  have hchan := s.chainStarted_chan o ch.toFin
  obtain ⟨hhods, hcells, hharts, htiles⟩ :=
    (s.chainStarted o ch.toFin).lastTaken_setWaiting_frame ch.toFin (s.iceDesc store words ice fab) p
  have hself := (s.chainStarted o ch.toFin).lastTaken_setWaiting_chan ch.toFin (s.iceDesc store words ice fab) p
  dsimp only
  rw [State.iceOrder_waits hch hfree hpos hmax o hcheck hranges hid]
  refine ⟨by rw [hhods]; rfl, ?_, ?_, ?_,
    fun k hk => (State.lastTaken_setWaiting_chan_ne _ hk _ _).trans (s.chainStarted_chan_ne o hk), hcells, hharts, htiles⟩
  · rw [hself, hchan, chainOf, Channel.lastTaken]
  · rw [hself, hchan, chainOf, Channel.lastTaken]
  · rw [hself]
    rfl

/-! ## The statement -/

section
variable {s t : State} {o : Order}

theorem State.serves.exec_ordMove (h : s.serves o 0x2E t) (list : BitVec 48) (ch : BitVec 5) :
    exec (.ordMove list ch) s = .next (t.moveOrder o list ch) := congrArg Host.Outcome.next (h.serve _ _)

theorem State.serves.exec_ordIceRead (h : s.serves o 0x40 t) (ice : Word) (words : Nat) (fab : BitVec 48) (ch : BitVec 5) :
    exec (.ordIceRead ice words fab ch) s = .next (t.iceOrder o true ice words fab ch) :=
  congrArg Host.Outcome.next (h.serve _ _)

theorem State.serves.exec_ordIceWrite (h : s.serves o 0x41 t) (ice : Word) (words : Nat) (fab : BitVec 48) (ch : BitVec 5) :
    exec (.ordIceWrite ice words fab ch) s = .next (t.iceOrder o false ice words fab ch) :=
  congrArg Host.Outcome.next (h.serve _ _)

theorem State.serves.exec_ordFloeSet (h : s.serves o 0x20 t) (f : Fin 64) (e : Vector Word 8) :
    exec (.ordFloeSet f e) s = .next (t.floeSet o f e) := congrArg Host.Outcome.next (h.serve _ _)

theorem State.serves.exec_ordWeightPush (h : s.serves o 0x21 t) (f : Fin 64) (list : BitVec 48) (ch : BitVec 5) :
    exec (.ordWeightPush f list ch) s = .next (t.weightPush o f list ch) := congrArg Host.Outcome.next (h.serve _ _)

theorem State.serves.exec_ordWindow (h : s.serves o 0x2F t) {op : WindowOp} {w : Fin 64}
    (hgo : op ≠ .close ∨ s.courseUses w = false) (g : Vector Word 4) (credit : BitVec 24) :
    exec (.ordWindow op w g credit) s = .next (t.windowOrder o op w g credit) := by
  have hnot : ¬ ((op = .close && s.courseUses w) = true) := by
    obtain hop | huses := hgo
    · simp [hop]
    · simp [huses]
  exact congrArg Host.Outcome.next ((if_neg hnot).trans (h.serve _ _))

end

/-- Settles O50: each order is taken up as the model's function of its operation, whose cases the lemmas above give. -/
theorem workOrdersStartTheirUnits : Obligations.WorkOrdersStartTheirUnits := by
  refine ⟨fun list ch o s t h => ⟨fun hch => ?_, fun hch hfree => ?_, fun hch hfree => ?_⟩, ?_,
    fun f e o s t h hid => ⟨fun code hcode => ?_, fun hnone => ?_⟩, ?_, ?_, ?_⟩
  · rw [h.exec_ordMove, State.moveOrder_no_channel hch]
  · rw [h.exec_ordMove, State.moveOrder_busy hch hfree]
  · rw [h.exec_ordMove, State.moveOrder_starts hch hfree]
    refine ⟨_, rfl, rfl, ?_, ?_, ?_, ?_, ?_, ?_, fun d hd => State.modCh_chan_ne _ _ hd, rfl, rfl, rfl⟩
    all_goals rw [State.startChain, State.modCh_chan]
  · intro store c ice words fab ch o p s t hc h hch hfree hpos hmax d x hcheck hranges hid
    have hspec := State.iceOrder_spec hch hfree hpos hmax o (store := store) (ice := ice) (fab := fab) hcheck hranges hid
    refine ⟨t.iceOrder o store ice words fab ch, ?_, hspec⟩
    simp only [List.mem_cons, Prod.mk.injEq, List.not_mem_nil, or_false] at hc
    obtain ⟨rfl, rfl⟩ | ⟨rfl, rfl⟩ := hc
    · exact h.exec_ordIceRead ice words fab ch
    · exact h.exec_ordIceWrite ice words fab ch
  · rw [h.exec_ordFloeSet, State.floeSet_refused h.not_recovering hid hcode]
    rfl
  · obtain ⟨commit, waiting, nextId, hset, hc⟩ := State.floeSet_accepted (o := o) hnone
    have hmap := congrArg (Option.map fun c : Commit => (c.floe, c.entry, c.order)) hc
    rw [Option.map_map] at hmap
    rw [h.exec_ordFloeSet, hset]
    exact ⟨_, rfl, hmap, rfl, rfl, rfl, rfl, rfl⟩
  · intro f list ch h' o s t h hid hused he hch hfree hidle hfirst asked
    obtain ⟨hdrf, hfloes, hharts, htiles, hread, hfree'⟩ := State.withOrder_push_spec (f := f) (list := list) (ch := ch)
      (h := h') h.not_recovering h.1 hid
    rw [h.exec_ordWeightPush,
      State.weightPush_opens hused he hch hfree (State.find?_idleHart hidle hfirst) hid]
    refine ⟨_, rfl, ?_, fun c hc => ?_, hfloes, hharts, htiles, hread, hfree'⟩
    · rw [State.chan, hdrf]
      exact t.pushOwned_chan ch h'
    · rw [State.chan, hdrf]
      exact t.pushOwned_chan_ne hc h'
  · intro w g credit o s t h hid hw hup hroom hwait hc
    rw [h.exec_ordWindow (.inl (by decide)), State.windowOrder_credit hid hc hw hup hroom hwait]
    obtain ⟨nbr, hnbr⟩ := t.numbered.credited_eq w credit
    refine ⟨(t.numbered.credited w credit).setWstat 0 0, rfl, t.numbered.credited_win w credit,
      t.numbered.credited_tx w credit, State.setWstat_wstat _ _ _, ?_⟩
    rw [State.setWstat_eq, hnbr]
    rfl
  · intro w g credit o s t h huses hid hw hc op hop
    rw [h.exec_ordWindow (.inr huses), State.windowOrder_closed hid hw hc g credit hop]
    rfl

end Sys2Proof.Machine

/-! # A set with a slot that its descriptor does not name -/

namespace Sys2Proof.Machine

/-- A store of window word 1 of floe 0 to fabric address 0; it names no flow buffer. -/
def wordStore : Desc := { ver := 3, dir := 1, sfmt := 6, dfmt := 6, ncol := 1, nrow := 1, iaddr := 1 }

/-- A set of this store that holds the number of a slot without the access of one. -/
def slottedSet : DriftSet := { sb := some 0, slot := some 0, descs := [wordStore] }

/-- The access of the set. -/
def slottedAccess : Access := { id := 0, who := .drift 0, ranges := [{ lo := 1, hi := 1, write := false }] }

/-- Channel 0 runs the set, whose access waits at the scoreboard, over a floe whose word 1 holds 1. -/
def slotWithoutBuffer : State :=
  { State.reset with
    drf := { State.reset.drf with ch := vset State.reset.drf.ch 0 { state := 1, set := some slottedSet } }
    ice := { State.reset.ice with
      floes := vset State.reset.ice.floes 0 { state := .live, size := 1, res := 1 }
      cells := [(bankCells .c3l, encodeClean 1)]
      sb := { waiting := [slottedAccess], nextId := 1 } } }

/-- The state meets what the statement asks of a channel whose one descriptor moves one word. -/
theorem slotWithoutBuffer_ready :
    oneDescriptor (slotWithoutBuffer.chan 0) slottedSet wordStore ∧ oneWord wordStore ∧
      slotWithoutBuffer.descReviving wordStore 0 = false ∧ slotWithoutBuffer.descMelted wordStore 0 = false ∧
      slotWithoutBuffer.firnReady 0 (.drift 0) ∧ slotWithoutBuffer.place 0 (wordPart wordStore.iaddr) = some (.phys 1 false) ∧
      slotWithoutBuffer.codewordAt (slotWithoutBuffer.bankLevel 1 false).1 (slotWithoutBuffer.bankLevel 1 false).2 =
        encodeClean 1 := by
  refine ⟨?_, ?_, ?_, ?_, .inr ?_, ?_, ?_⟩ <;> decide +kernel

theorem slotWithoutBuffer_window : (slotWithoutBuffer.floe 0).used = true ∧
    (slotWithoutBuffer.floe 0).window.1 ≤ wordPart wordStore.iaddr ∧
    wordPart wordStore.iaddr < (slotWithoutBuffer.floe 0).window.2 ∧ ∀ g, g ≠ 0 → (slotWithoutBuffer.floe g).used = true →
      wordPart wordStore.iaddr < (slotWithoutBuffer.floe g).window.1 ∨
        (slotWithoutBuffer.floe g).window.2 ≤ wordPart wordStore.iaddr := by decide +kernel

/-- The access is the next one to be allocated, and no other store holds the set. -/
theorem slotWithoutBuffer_next : slotWithoutBuffer.nextAccess = some slottedAccess ∧
    (slotWithoutBuffer.allocate 0).storeHeld 0 slottedSet wordStore = false := by decide +kernel

/-- The channel reads at the base of the slot, which is word 0 of buffer 0, and sends four bytes of zero (R347). -/
theorem slotWithoutBuffer_sends : (match exec (.sbAllocate 0) slotWithoutBuffer with
    | .next t => (t.chan 0).set.map fun st => st.wlines.map (·.bytes)
    | _ => none) = some [[(0, 0), (1, 0), (2, 0), (3, 0)]] := by decide +kernel

/-- Refutes O39: the statement asks that the set holds no access of a slot, but not that it holds no slot. A set with the
number of a slot (SLOT_GRANT gives the number and the access together) moves its words at the base of that slot,
even where its descriptor names no flow buffer: the store sends the bytes of word 0 and not those of word 1. -/
theorem not_driftsAndMoraineMoveTheirWords : ¬ Obligations.DriftsAndMoraineMoveTheirWords := by
  intro h
  obtain ⟨hdrift, -⟩ := h
  obtain ⟨hone, hword, hrev, hmelt, hfirn, hplace, hcell⟩ := slotWithoutBuffer_ready
  obtain ⟨hused, hlo, hhi, hothers⟩ := slotWithoutBuffer_window
  obtain ⟨hnext, hheld⟩ := slotWithoutBuffer_next
  obtain ⟨-, hstore⟩ := hdrift 0 slottedSet wordStore 0 1 0 false slotWithoutBuffer rfl ⟨rfl, rfl⟩ hone hword rfl hrev hmelt
    rfl hfirn hused hlo hhi hothers hplace
  obtain ⟨t, hexec, hset, -⟩ := hstore slottedAccess 1 rfl hnext rfl rfl hheld hcell
  have hsends := slotWithoutBuffer_sends
  rw [hexec] at hsends
  simp only [hset] at hsends
  exact absurd hsends (by decide)

end Sys2Proof.Machine

/-! # The descriptor in progress of a channel -/

namespace Sys2Proof.Machine

/-! ## The descriptor in progress -/

/-- The descriptor in progress belongs to a running channel whose set is allocated. -/
theorem State.current_eq_some {s : State} {c : Fin 32} {st : DriftSet} {d : Desc} :
    s.current c = some (st, d) ↔
      (s.chan c).state = 1 ∧ (s.chan c).halting = false ∧ (s.chan c).stopping = false ∧ (s.chan c).set = some st ∧
        (∀ id, st.sb = some id → (s.ice.sb.alloc.any fun a => a.id == id) = true) ∧ st.descs[st.cur]? = some d := by
  unfold State.current
  cases hset : (s.chan c).set with
  | none => simp [hset]
  | some u =>
    cases hsb : u.sb with
    | none =>
      simp [hset, hsb]
      grind
    | some id =>
      simp [hset, hsb]
      grind

/-- Two changes of a channel are one. -/
theorem State.modCh_modCh (s : State) (c : Fin 32) (f g : Channel → Channel) :
    (s.modCh c f).modCh c g = s.modCh c fun x => g (f x) :=
  congrArg (fun v => { s with drf := { s.drf with ch := v } }) (vmod_vmod s.drf.ch c f g)

theorem State.modSet_chan {s : State} {c : Fin 32} {st : DriftSet} (h : (s.chan c).set = some st)
    (f : DriftSet → DriftSet) : (s.modSet c f).chan c = { s.chan c with set := some (f st) } := by
  rw [State.modSet, State.modCh_chan, h]
  rfl

theorem State.modSet_chan_ne (s : State) {c k : Fin 32} (hk : k ≠ c) (f : DriftSet → DriftSet) :
    (s.modSet c f).chan k = s.chan k := State.modCh_chan_ne _ _ hk

theorem State.modSet_modSet (s : State) (c : Fin 32) (f g : DriftSet → DriftSet) :
    (s.modSet c f).modSet c g = s.modSet c fun t => g (f t) := by
  have h := vmod_vmod s.drf.ch c (fun x => { x with set := x.set.map f }) fun x => { x with set := x.set.map g }
  simp only [Option.map_map] at h
  exact congrArg (fun v => { s with drf := { s.drf with ch := v } }) h

/-- A change of a set says no more than what it makes of the set at hand. -/
theorem State.modSet_congr {s : State} {c : Fin 32} {st : DriftSet} (h : (s.chan c).set = some st)
    {f g : DriftSet → DriftSet} (hfg : f st = g st) : s.modSet c f = s.modSet c g := by
  have hx : (s.chan c).set.map f = (s.chan c).set.map g := by rw [h, Option.map_some, Option.map_some, hfg]
  exact congrArg (fun o => { s with drf := { s.drf with ch := vset s.drf.ch c { s.chan c with set := o } } }) hx

/-- A change of a set that leaves its access and its place leaves its descriptor in progress. -/
theorem State.current_modSet {s : State} {c : Fin 32} {st : DriftSet} {d : Desc} (h : s.current c = some (st, d))
    {f : DriftSet → DriftSet} (hf : (f st).sb = st.sb ∧ (f st).descs = st.descs ∧ (f st).cur = st.cur) :
    (s.modSet c f).current c = some (f st, d) := by
  obtain ⟨h1, hhalt, hstop, hset, hsb, hd⟩ := State.current_eq_some.mp h
  obtain ⟨hfsb, hfdescs, hfcur⟩ := hf
  rw [State.current_eq_some, State.modSet_chan hset, hfsb, hfdescs, hfcur]
  exact ⟨h1, hhalt, hstop, rfl, hsb, hd⟩

theorem State.driveN_of_none {s : State} {c : Fin 32} (h : s.driveStep c = none) (n : Nat) : s.driveN c n = s := by
  cases n with
  | zero => rfl
  | succ n => rw [State.driveN, h]

theorem State.drive_of_none {s : State} {c : Fin 32} (h : s.driveStep c = none) : s.drive c = s := State.driveN_of_none h _

theorem State.driveN_of_some {s t : State} {c : Fin 32} (h : s.driveStep c = some t) (n : Nat) :
    s.driveN c (n + 1) = t.driveN c n := by
  rw [State.driveN, h]

theorem State.drive_of_some {s t : State} {c : Fin 32} (h : s.driveStep c = some t) : s.drive c = t.driveN c 127 :=
  State.driveN_of_some h 127

/-! ## A load that asks for its lines (R355) -/

theorem Desc.rebase_fixed {d : Desc} (h : d.rel = false) (b : Bases) : d.rebase b = d := by
  simp [Desc.rebase, h]

theorem Desc.isStore_of_isLoad {d : Desc} (h : d.isLoad = true) :
    d.isStore = false ∧ d.isCopy = false ∧ d.isIndex = false := by
  have hdir : d.dir = 0 := by simpa [Desc.isLoad] using h
  simp [Desc.isStore, Desc.isCopy, Desc.isIndex, hdir]

theorem Desc.iceReads_load {d : Desc} (h : d.isLoad = true) (st : DriftSet) (base src : Int) : d.iceReads st base src = [] := by
  obtain ⟨h1, h2, h3⟩ := Desc.isStore_of_isLoad h
  simp [Desc.iceReads, h1, h2, h3]

/-- The descriptor in progress of a channel is a load without a flow buffer that no segment and no Moraine line holds. -/
structure State.LoadOpen (s : State) (c : Fin 32) (st : DriftSet) (d : Desc) : Prop where
  current : s.current c = some (st, d)
  rel : d.rel = false
  empty : d.empty = false
  buffered : d.buffered = false
  isLoad : d.isLoad = true
  unmoved : st.performed = false
  reviving : s.descReviving d c = false
  melted : s.descMelted d c = false
  moraine : s.morDone (s.driftAcc st) = true

/-- Such a load has the indices that it takes. -/
structure State.LoadGoes (s : State) (c : Fin 32) (st : DriftSet) (d : Desc) : Prop extends s.LoadOpen c st d where
  indexed : (d.indexed && decide (st.idxs.length < d.indexCount)) = false

theorem State.LoadOpen.set {s : State} {c : Fin 32} {st : DriftSet} {d : Desc} (h : s.LoadOpen c st d) :
    (s.chan c).set = some st := by
  obtain ⟨-, -, -, hset, -⟩ := State.current_eq_some.mp h.current
  exact hset

/-- A load that lacks indices takes them from its queue (R343, R344). -/
theorem State.LoadOpen.driveStep_indices {s : State} {c : Fin 32} {st : DriftSet} {d : Desc} (h : s.LoadOpen c st d)
    (hidx : d.indexed = true) (hlt : st.idxs.length < d.indexCount) :
    s.driveStep c = if (s.chan c).queue.isEmpty then none else some (s.takeIdx c (d.indexCount - st.idxs.length)) := by
  rw [State.driveStep, h.current]
  simp only [Desc.rebase_fixed h.rel, h.empty, h.unmoved, h.buffered, h.reviving, h.melted, hidx, hlt, decide_true,
    Bool.false_eq_true, if_false, Bool.false_and, Bool.true_and, if_true]

/-- What a load that may request its lines does next depends on the lines that it needs alone. -/
theorem State.LoadGoes.driveStep {s : State} {c : Fin 32} {st : DriftSet} {d : Desc} (h : s.LoadGoes c st d) :
    s.driveStep c = match st.need with
      | none => some (s.modSet c fun t => { t with need := some (d.readLines st.idxs (rowsFrom st.startRow d.pr)) })
      | some l =>
        if l.all fun a => st.got.any fun g => g.1 == a then
          s.withFirn (s.driftAcc st) (.drift c) d (s.doLoad c st d (s.descBases c st d).1)
        else if s.mayIssue c st l = 0 then none
        else some (s.modSet c fun t => { t with issued := t.issued + s.mayIssue c st l }) := by
  have hmor : s.morWords [] = [] := rfl
  rw [State.driveStep, h.current]
  simp only [Desc.rebase_fixed h.rel, h.empty, h.unmoved, h.buffered, h.reviving, h.melted, h.indexed, h.moraine,
    Desc.iceReads_load h.isLoad, hmor, h.isLoad, Desc.needs, Bool.false_eq_true, if_false, Bool.false_and, List.isEmpty_nil,
    Bool.not_true, Bool.and_false, Bool.true_or, if_true]
  cases st.need <;> rfl

/-- What a load needs, has requested and has received does not hold it up. -/
theorem State.LoadGoes.modSet {s : State} {c : Fin 32} {st : DriftSet} {d : Desc} (h : s.LoadGoes c st d)
    {f : DriftSet → DriftSet} (hf : f st = { st with need := (f st).need, issued := (f st).issued, got := (f st).got }) :
    (s.modSet c f).LoadGoes c (f st) d where
  current := State.current_modSet h.current (by rw [hf]; exact ⟨rfl, rfl, rfl⟩)
  rel := h.rel
  empty := h.empty
  buffered := h.buffered
  isLoad := h.isLoad
  unmoved := by rw [hf]; exact h.unmoved
  reviving := h.reviving
  melted := h.melted
  indexed := by rw [hf]; exact h.indexed
  moraine := by rw [hf]; exact h.moraine

/-- The lines outstanding on the fabric, of all channels (R355). -/
def State.linesOut (s : State) : Nat := ((fins 32).map fun c => (s.chan c).outstanding).sum

/-- Of the outstanding lines, a change of one channel changes that channel's. -/
theorem State.linesOut_congr {s t : State} {c : Fin 32} (h : ∀ k, k ≠ c → t.chan k = s.chan k) :
    t.linesOut + (s.chan c).outstanding = s.linesOut + (t.chan c).outstanding := by
  have hsum : ∀ u : State, u.linesOut = ∑ k : Fin 32, (u.chan k).outstanding := fun u => by
    rw [State.linesOut, Fin.sum_univ_def]
    rfl
  have hrest : ∑ k ∈ Finset.univ.erase c, (t.chan k).outstanding = ∑ k ∈ Finset.univ.erase c, (s.chan k).outstanding :=
    Finset.sum_congr rfl fun k hk => by rw [h k (Finset.ne_of_mem_erase hk)]
  rw [hsum, hsum, ← Finset.add_sum_erase _ _ (Finset.mem_univ c), hrest,
    ← Finset.add_sum_erase _ (fun k => (s.chan k).outstanding) (Finset.mem_univ c)]
  omega

theorem State.mayIssue_eq (s : State) (c : Fin 32) (st : DriftSet) (l : List Nat) :
    s.mayIssue c st l = min (l.length - st.issued) (min (2048 - (s.chan c).outstanding) (16384 - s.linesOut)) := rfl

theorem State.firstIssue_eq (s : State) (l : List Nat) :
    s.firstIssue l = min l.length (min 2048 (16384 - s.linesOut)) := rfl

/-- A set that knows the lines it needs, and one that has requested further lines. -/
def DriftSet.asking (st : DriftSet) (l : List Nat) : DriftSet := { st with need := some l }

def DriftSet.issuing (st : DriftSet) (k : Nat) : DriftSet := { st with issued := st.issued + k }

theorem State.outstanding_of_set {s : State} {c : Fin 32} {st : DriftSet} (h : (s.chan c).set = some st) :
    (s.chan c).outstanding = st.issued - st.got.length := by
  simp only [Channel.outstanding, h]

/-- Once as many lines as may be are outstanding, no further line is requested. -/
theorem State.mayIssue_issued {s : State} {c : Fin 32} {st : DriftSet} {l : List Nat} (hset : (s.chan c).set = some st)
    (hgot : st.got = []) (hissued : st.issued = 0) :
    s.mayIssue c st l = s.firstIssue l ∧
      (s.modSet c (·.issuing (s.firstIssue l))).mayIssue c (st.issuing (s.firstIssue l)) l = 0 := by
  have hafter := State.modSet_chan hset (·.issuing (s.firstIssue l))
  have hout : (s.chan c).outstanding = 0 := by simp [State.outstanding_of_set hset, hissued]
  have hout' : ((s.modSet c (·.issuing (s.firstIssue l))).chan c).outstanding = s.firstIssue l := by
    rw [hafter]
    simp [Channel.outstanding, DriftSet.issuing, hgot, hissued]
  have hlines := State.linesOut_congr (s := s) (t := s.modSet c (·.issuing (s.firstIssue l))) fun k hk => s.modSet_chan_ne hk _
  rw [hout, hout'] at hlines
  have hissued' : (st.issuing (s.firstIssue l)).issued = s.firstIssue l := by simp [DriftSet.issuing, hissued]
  have hfirst := s.firstIssue_eq l
  rw [State.mayIssue_eq, State.mayIssue_eq, hout, hout', hissued, hissued']
  omega

/-- A load of whose lines none has arrived requests as many as it may. -/
theorem State.LoadGoes.driveStep_asked {s : State} {c : Fin 32} {st : DriftSet} {d : Desc} (h : s.LoadGoes c st d)
    {l : List Nat} (hneed : st.need = some l) (hgot : st.got = []) (hne : l ≠ []) :
    s.driveStep c = if s.mayIssue c st l = 0 then none else some (s.modSet c (·.issuing (s.mayIssue c st l))) := by
  have hopen : (l.all fun a => ([] : List (Nat × LineResult)).any fun g => g.1 == a) = false := by
    obtain ⟨a, r, rfl⟩ := List.exists_cons_of_ne_nil hne
    rfl
  rw [h.driveStep, hneed, hgot]
  simp only [hopen, Bool.false_eq_true, if_false]
  rfl

/-- A load that has requested nothing requests as many of its lines as it may, and waits for them. -/
theorem State.LoadGoes.driveN {s : State} {c : Fin 32} {st : DriftSet} {d : Desc} (h : s.LoadGoes c st d)
    (hneed : st.need = none) (hgot : st.got = []) (hissued : st.issued = 0) {l : List Nat}
    (hl : d.readLines st.idxs (rowsFrom st.startRow d.pr) = l) (hne : l ≠ []) {n : Nat} (hn : 3 ≤ n) :
    s.driveN c n = s.modSet c fun t => { t with need := some l, issued := s.firstIssue l } := by
  obtain ⟨n, rfl⟩ := Nat.exists_eq_add_of_le' hn
  have hask : s.driveStep c = some (s.modSet c (·.asking l)) := by
    rw [h.driveStep, hneed, hl]
    rfl
  have hasked : (s.modSet c (·.asking l)).LoadGoes c (st.asking l) d := h.modSet rfl
  have hfirst : (s.modSet c (·.asking l)).firstIssue l = s.firstIssue l := by
    have hlines := State.linesOut_congr (s := s) (t := s.modSet c (·.asking l)) fun k hk => s.modSet_chan_ne hk _
    have hsame : (st.asking l).issued - (st.asking l).got.length = st.issued - st.got.length := rfl
    rw [State.outstanding_of_set h.set, State.outstanding_of_set hasked.set, hsame] at hlines
    rw [State.firstIssue_eq, State.firstIssue_eq]
    omega
  obtain ⟨hmay, hwait⟩ := State.mayIssue_issued (l := l) hasked.set hgot hissued
  rw [hfirst] at hmay hwait
  have hissue := hasked.driveStep_asked rfl hgot hne
  have hissuing := (hasked.modSet (f := (·.issuing (s.firstIssue l))) rfl).driveStep_asked rfl hgot hne
  rw [hmay] at hissue
  rw [if_pos hwait] at hissuing
  have hend : (s.modSet c (·.asking l)).modSet c (·.issuing (s.firstIssue l)) =
      s.modSet c fun t => { t with need := some l, issued := s.firstIssue l } := by
    rw [State.modSet_modSet]
    refine State.modSet_congr h.set ?_
    simp [DriftSet.issuing, DriftSet.asking, hissued]
  rw [State.driveN_of_some hask, ← hend]
  by_cases hk : s.firstIssue l = 0
  · rw [State.driveN_of_none (by rw [hissue, if_pos hk]), State.modSet_modSet, hk]
    rfl
  · rw [State.driveN_of_some (by rw [hissue, if_neg hk])]
    exact State.driveN_of_none hissuing (n + 1)

end Sys2Proof.Machine

/-! # Index queues and deadlocks -/

namespace Sys2Proof.Machine

/-! ## Indices from a queue (R343 to R345) -/

/-- A channel whose queue is used up and whose set has some indices. -/
def State.withIdxs (s : State) (c : Fin 32) (idxs : List Int) : State :=
  (s.modCh c fun x => { x with queue := [] }).modSet c fun t => { t with idxs }

theorem State.withIdxs_chan {s : State} {c : Fin 32} {st : DriftSet} (h : (s.chan c).set = some st) (idxs : List Int) :
    (s.withIdxs c idxs).chan c = { s.chan c with queue := [], set := some { st with idxs } } := by
  have hset : ((s.modCh c fun x => { x with queue := [] }).chan c).set = some st := by rw [State.modCh_chan, h]
  rw [State.withIdxs, State.modSet_chan hset, State.modCh_chan]

theorem State.withIdxs_chan_ne (s : State) {c k : Fin 32} (hk : k ≠ c) (idxs : List Int) :
    (s.withIdxs c idxs).chan k = s.chan k :=
  (State.modSet_chan_ne _ hk _).trans (State.modCh_chan_ne _ _ hk)

/-- A load that is given all its indices may request its lines. -/
theorem State.LoadOpen.withIdxs {s : State} {c : Fin 32} {st : DriftSet} {d : Desc} (h : s.LoadOpen c st d)
    {idxs : List Int} (hlen : d.indexCount ≤ idxs.length) : (s.withIdxs c idxs).LoadGoes c { st with idxs } d where
  current := by
    obtain ⟨h1, hhalt, hstop, -, hsb, hd⟩ := State.current_eq_some.mp h.current
    rw [State.current_eq_some, State.withIdxs_chan h.set]
    exact ⟨h1, hhalt, hstop, rfl, hsb, hd⟩
  rel := h.rel
  empty := h.empty
  buffered := h.buffered
  isLoad := h.isLoad
  unmoved := h.unmoved
  reviving := h.reviving
  melted := h.melted
  moraine := h.moraine
  indexed := by simp [Nat.not_lt.mpr hlen]

theorem State.withIdxs_firstIssue {s : State} {c : Fin 32} {st : DriftSet} (h : (s.chan c).set = some st) (idxs : List Int)
    (l : List Nat) : (s.withIdxs c idxs).firstIssue l = s.firstIssue l := by
  have hlines := State.linesOut_congr (s := s) (t := s.withIdxs c idxs) fun k hk => s.withIdxs_chan_ne hk idxs
  have hset : ((s.withIdxs c idxs).chan c).set = some { st with idxs } := by rw [State.withIdxs_chan h]
  rw [State.outstanding_of_set h, State.outstanding_of_set hset] at hlines
  dsimp only at hlines
  rw [State.firstIssue_eq, State.firstIssue_eq]
  omega

/-- A queue that holds just the indices that a load lacks is used up. -/
theorem State.takeIdx_all {s : State} {c : Fin 32} {st : DriftSet} (h : (s.chan c).set = some st) {n : Nat}
    (hn : (s.chan c).queue.length = n) : s.takeIdx c n = s.withIdxs c (st.idxs ++ (s.chan c).queue) := by
  have hset : ((s.modCh c fun x => { x with queue := [] }).chan c).set = some st := by rw [State.modCh_chan, h]
  rw [State.takeIdx, List.drop_eq_nil_of_le hn.le, List.take_of_length_le hn.le]
  exact State.modSet_congr hset rfl

theorem State.withIdxs_of_empty {s : State} {c : Fin 32} (hq : (s.chan c).queue = [])
    (idxs : List Int) : s.withIdxs c idxs = s.modSet c fun t => { t with idxs } := by
  have hch : vmod s.drf.ch c (fun x => { x with queue := [] }) = s.drf.ch := by
    refine vmod_eq_self _ _ _ ?_
    change ({ s.chan c with queue := [] } : Channel) = s.chan c
    rw [← hq]
  rw [State.withIdxs, State.modCh, hch]

/-- A channel is not stalled on the index queue of a load that has its indices. -/
theorem State.LoadGoes.stall {s : State} {c : Fin 32} {st : DriftSet} {d : Desc} (h : s.LoadGoes c st d) :
    s.stall c = none := by
  obtain ⟨-, -, hindex⟩ := Desc.isStore_of_isLoad h.isLoad
  have hidx := h.indexed
  simp only [State.stall, h.current, h.empty, h.buffered, hindex, h.unmoved, Bool.false_eq_true, if_false, Bool.false_and,
    Bool.not_false, Bool.and_true, hidx]

theorem State.LoadOpen.stall {s : State} {c : Fin 32} {st : DriftSet} {d : Desc} (h : s.LoadOpen c st d)
    (hidx : d.indexed = true) (hlt : st.idxs.length < d.indexCount) (hq : (s.chan c).queue = []) :
    s.stall c = some (.queueEmpty d.coupled) := by
  obtain ⟨-, -, hindex⟩ := Desc.isStore_of_isLoad h.isLoad
  simp only [State.stall, h.current, h.empty, h.buffered, hindex, h.unmoved, hidx, hlt, hq, Bool.false_eq_true, if_false,
    Bool.false_and, Bool.not_false, Bool.and_true, decide_true, List.isEmpty_nil, if_true]

theorem State.indexResume_of_moving {s u : State} {c : Fin 32} (hdrive : s.drive c = u) (hstall : u.stall c = none) :
    s.indexResume c = u := by
  unfold State.indexResume
  rw [hdrive]
  dsimp only
  rw [hstall]

theorem State.indexResume_of_ended {s : State} {c k : Fin 32} {st : DriftSet} {d : Desc} (hdrive : s.drive c = s)
    (hstall : s.stall c = some (.queueEmpty k)) (hcur : s.current c = some (st, d)) (hret : s.indexRetired k = true) :
    s.indexResume c = (s.modSet c fun t =>
      { t with idxs := t.idxs ++ List.replicate (d.indexCount - st.idxs.length) (-2) }).drive c := by
  unfold State.indexResume
  rw [hdrive]
  dsimp only
  rw [hstall, hcur]
  exact if_pos hret

/-- The state in which a load has its indices and has requested its lines. -/
def State.linesAsked (s : State) (c : Fin 32) (idxs : List Int) (l : List Nat) : State :=
  (s.withIdxs c idxs).modSet c fun t => { t with need := some l, issued := s.firstIssue l }

theorem State.linesAsked_rest (s : State) (c : Fin 32) (idxs : List Int) (l : List Nat) :
    (s.linesAsked c idxs l).ice = s.ice ∧ (s.linesAsked c idxs l).harts = s.harts ∧
      (s.linesAsked c idxs l).tiles = s.tiles := ⟨rfl, rfl, rfl⟩

theorem State.linesAsked_chan {s : State} {c : Fin 32} {st : DriftSet} (h : (s.chan c).set = some st) (idxs : List Int)
    (l : List Nat) : (s.linesAsked c idxs l).chan c =
      { s.chan c with queue := [], set := some { st with idxs, need := some l, issued := s.firstIssue l } } := by
  have hset : ((s.withIdxs c idxs).chan c).set = some { st with idxs } := by rw [State.withIdxs_chan h]
  rw [State.linesAsked, State.modSet_chan hset, State.withIdxs_chan h]

section
variable {s : State} {c : Fin 32} {st : DriftSet} {d : Desc} (h : s.LoadOpen c st d) (hidx : d.indexed = true)
  (hlt : st.idxs.length < d.indexCount) (hneed : st.need = none) (hgot : st.got = []) (hissued : st.issued = 0)
  {idxs : List Int} (hlen : idxs.length = d.indexCount) {l : List Nat}
  (hl : d.readLines idxs (rowsFrom st.startRow d.pr) = l) (hne : l ≠ [])
include h hneed hgot hissued hlen hl hne

theorem State.LoadOpen.driveN_withIdxs {n : Nat} (hn : 3 ≤ n) :
    (s.withIdxs c idxs).driveN c n = s.linesAsked c idxs l := by
  rw [(h.withIdxs hlen.ge).driveN hneed hgot hissued hl hne hn, State.withIdxs_firstIssue h.set]
  rfl

include hidx hlt

/-- A load whose queue holds the indices that it lacks takes them and requests its lines. -/
theorem State.LoadOpen.indexResume_queued (hi : idxs = st.idxs ++ (s.chan c).queue) :
    s.indexResume c = s.linesAsked c idxs l := by
  have hlenq : (s.chan c).queue.length = d.indexCount - st.idxs.length := by
    rw [hi, List.length_append] at hlen
    omega
  have hq : (s.chan c).queue.isEmpty = false := by
    cases hqueue : (s.chan c).queue with
    | nil => rw [hqueue, List.length_nil] at hlenq; omega
    | cons x q => rfl
  have htake : s.driveStep c = some (s.withIdxs c idxs) := by
    rw [h.driveStep_indices hidx hlt, hq, State.takeIdx_all h.set hlenq, ← hi]
    rfl
  have hdrive : s.drive c = s.linesAsked c idxs l :=
    (State.drive_of_some htake).trans (h.driveN_withIdxs hneed hgot hissued hlen hl hne (by decide))
  have hgoes : (s.linesAsked c idxs l).LoadGoes c { st with idxs, need := some l, issued := s.firstIssue l } d :=
    (h.withIdxs hlen.ge).modSet rfl
  exact State.indexResume_of_moving hdrive hgoes.stall

/-- A load whose index channel has ended takes padding for the indices that it lacks (R345). -/
theorem State.LoadOpen.indexResume_padded (hq : (s.chan c).queue = []) (hret : s.indexRetired d.coupled = true)
    (hi : idxs = st.idxs ++ List.replicate (d.indexCount - st.idxs.length) (-2)) :
    s.indexResume c = s.linesAsked c idxs l := by
  have hstays : s.drive c = s := State.drive_of_none (by rw [h.driveStep_indices hidx hlt, hq]; rfl)
  have hpad : (s.modSet c fun t => { t with idxs := t.idxs ++ List.replicate (d.indexCount - st.idxs.length) (-2) }) =
      s.withIdxs c idxs := by
    rw [State.withIdxs_of_empty hq]
    exact State.modSet_congr h.set (by rw [hi])
  rw [State.indexResume_of_ended hstays (h.stall hidx hlt hq) h.current hret, hpad]
  exact h.driveN_withIdxs hneed hgot hissued hlen hl hne (by decide)

end

theorem exec_indexQueueResume {s : State} (hp : s.powered = true) (c : Fin 32) :
    exec (.indexQueueResume c) s = .next (s.indexResume c).pruneCycles := congrArg _ (if_pos hp)

/-! ## Deadlocks (R366 to R368) -/

theorem exec_deadlock {s : State} (hp : s.powered = true) (p : Party) : exec (.deadlock p) s = .next (s.deadlock p) :=
  congrArg _ (if_pos hp)

/-- The harts of a cycle as the bits of CE_DRF_DLCK (R531). -/
theorem hartBit_getLsbD : ∀ g h : Hart, (BitVec.ofNat 16 (2 ^ h.val)).getLsbD g.val = (g == h) := by decide

theorem hartMask_getLsbD (l : List Hart) (m : BitVec 16) (g : Hart) :
    (l.foldl (fun (m : BitVec 16) h => m ||| BitVec.ofNat 16 (2 ^ h.val)) m).getLsbD g.val =
      (m.getLsbD g.val || l.contains g) := by
  induction l generalizing m with
  | nil => simp
  | cons h l ih =>
    rw [List.foldl_cons, ih, BitVec.getLsbD_or, hartBit_getLsbD, List.contains_cons, Bool.or_assoc]

/-- A deadlock that is recorded, before its party's hart faults. -/
def State.cycleNoted (s : State) (p : Party) (l : List Hart) : State :=
  { s with drf := { s.drf with
      dlckHarts := l.foldl (fun (m : BitVec 16) h => m ||| BitVec.ofNat 16 (2 ^ h.val)) 0
      dlckParty := (s.partyCode p).1, dlckKind := (s.partyCode p).2, dlckV := true
      watch := { s.drf.watch with cycles := s.drf.watch.cycles ++ [l] } } }

theorem State.pruneCycles_hart (s : State) (h : Hart) : s.pruneCycles.hart h = s.hart h := rfl

theorem State.cycleNoted_frame (s : State) (p : Party) (l : List Hart) (h : Hart) (f : HartState → HartState) :
    let t := ((s.pruneCycles.cycleNoted p l).modHart h f).pruneCycles
    t.drf.dlckHarts = l.foldl (fun (m : BitVec 16) h => m ||| BitVec.ofNat 16 (2 ^ h.val)) 0 ∧ t.drf.ch = s.drf.ch ∧
      t.drf.fb = s.drf.fb ∧ t.ice = s.ice ∧ t.tiles = s.tiles := by
  refine ⟨?_, ?_, ?_, ?_, ?_⟩ <;> dsimp only [State.pruneCycles, State.modHart, State.cycleNoted]

/-- The hart of a blocked party faults now, or at the end of its window access or lease write (R368). -/
def HartState.deadlocked (t : HartState) (v : Word) : HartState :=
  if t.wait = .run ∨ t.wait = .wfi then t.takeTrap false 25 v else { t with dlock := some v }

theorem State.deadlock_standing {s : State} {p : Party} {l : List Hart} (hl : s.pruneCycles.cycleOf p = some l)
    (h : l ∈ s.pruneCycles.drf.watch.cycles ∨ s.pruneCycles.closer l ≠ some p) : s.deadlock p = s.pruneCycles := by
  have hno : (s.pruneCycles.drf.watch.cycles.contains l || s.pruneCycles.closer l != some p ||
      !s.pruneCycles.powered) = true := by
    obtain h | h := h <;> simp [h]
  simp only [State.deadlock, hl, hno, if_true]

/-- The hart of the party that closes a new cycle faults at once, or when its access ends. -/
theorem State.deadlock_noted {s : State} {p : Party} {l : List Hart} (hp : s.powered = true)
    (hl : s.pruneCycles.cycleOf p = some l) (hnew : l ∉ s.pruneCycles.drf.watch.cycles)
    (hcloses : s.pruneCycles.closer l = some p) :
    s.deadlock p = State.pruneCycles
      (if ((s.hart (s.partyHart p)).wait == .run || (s.hart (s.partyHart p)).wait == .wfi) = true then
        (s.pruneCycles.cycleNoted p l).trap (s.partyHart p) 25
          ((0 : BitVec 25) ++ BitVec.ofBool (s.partyCode p).2 ++ (s.partyCode p).1)
      else (s.pruneCycles.cycleNoted p l).modHart (s.partyHart p) fun t =>
        { t with dlock := some ((0 : BitVec 25) ++ BitVec.ofBool (s.partyCode p).2 ++ (s.partyCode p).1) }) := by
  have hgo : (s.pruneCycles.drf.watch.cycles.contains l || s.pruneCycles.closer l != some p || !s.pruneCycles.powered) =
      false := by
    have hpow : s.pruneCycles.powered = true := hp
    simp [hnew, hcloses, hpow]
  unfold State.deadlock
  dsimp only
  rw [hl]
  dsimp only
  rw [hgo, if_neg Bool.false_ne_true]
  rfl

theorem State.deadlock_closes {s : State} {p : Party} {l : List Hart} (hp : s.powered = true)
    (hl : s.pruneCycles.cycleOf p = some l) (hcall : s.callOf (s.partyHart p) = none)
    (hnew : l ∉ s.pruneCycles.drf.watch.cycles) (hcloses : s.pruneCycles.closer l = some p) :
    s.deadlock p = ((s.pruneCycles.cycleNoted p l).modHart (s.partyHart p) (·.deadlocked
      ((0 : BitVec 25) ++ BitVec.ofBool (s.partyCode p).2 ++ (s.partyCode p).1))).pruneCycles := by
  have hcall' : (s.pruneCycles.cycleNoted p l).callOf (s.partyHart p) = none := hcall
  have hmod : ∀ {f g : HartState → HartState}, f (s.hart (s.partyHart p)) = g (s.hart (s.partyHart p)) →
      (s.pruneCycles.cycleNoted p l).modHart (s.partyHart p) f = (s.pruneCycles.cycleNoted p l).modHart (s.partyHart p) g :=
    fun h => congrArg (fun x => { s.pruneCycles.cycleNoted p l with harts := vset s.harts (s.partyHart p) x }) h
  rw [State.deadlock_noted hp hl hnew hcloses]
  congr 1
  by_cases hnow : (s.hart (s.partyHart p)).wait = .run ∨ (s.hart (s.partyHart p)).wait = .wfi
  · rw [if_pos (by simpa using hnow), State.trap_of_callOf_none hcall']
    exact hmod (if_pos hnow).symm
  · rw [if_neg (by simpa using hnow)]
    exact hmod (if_neg hnow).symm

/-- The party that closes a new cycle records it and faults its hart (R368). -/
theorem exec_deadlock_closes {s : State} {p : Party} {l : List Hart} (hp : s.powered = true)
    (hl : s.pruneCycles.cycleOf p = some l) (hcall : s.callOf (s.partyHart p) = none)
    (hnew : l ∉ s.pruneCycles.drf.watch.cycles) (hcloses : s.pruneCycles.closer l = some p) :
    let h := s.partyHart p
    let v : Word := (0 : BitVec 25) ++ BitVec.ofBool (s.partyCode p).2 ++ (s.partyCode p).1
    ∃ t, exec (.deadlock p) s = .next t ∧ t.drf.dlckV = true ∧ t.drf.dlckParty = (s.partyCode p).1 ∧
      t.drf.dlckKind = (s.partyCode p).2 ∧ (∀ g : Hart, t.drf.dlckHarts.getLsbD g.val = l.contains g) ∧
      t.hart h = (s.hart h).deadlocked v ∧ (∀ g, g ≠ h → t.hart g = s.hart g) ∧ t.drf.ch = s.drf.ch ∧ t.drf.fb = s.drf.fb ∧
      t.ice = s.ice ∧ t.tiles = s.tiles := by
  intro h v
  have hexec : exec (.deadlock p) s =
      .next ((s.pruneCycles.cycleNoted p l).modHart h (·.deadlocked v)).pruneCycles := by
    rw [exec_deadlock hp, State.deadlock_closes hp hl hcall hnew hcloses]
  obtain ⟨hmask, hch, hfb, hice, htiles⟩ := s.cycleNoted_frame p l h (·.deadlocked v)
  refine ⟨_, hexec, rfl, rfl, rfl, fun g => ?_, ?_, fun g hg => ?_, hch, hfb, hice, htiles⟩
  · rw [hmask, hartMask_getLsbD]
    simp
  · rw [State.pruneCycles_hart, State.modHart_hart]
    rfl
  · rw [State.pruneCycles_hart, State.modHart_hart_ne _ _ hg]
    rfl

/-- Settles O38: a load takes the indices that it lacks and requests its lines, and the party that closes a new cycle faults its
hart. -/
theorem indicesAndDeadlocks : Obligations.IndicesAndDeadlocks := by
  refine ⟨?_, fun p l s hp hl hcall => ⟨fun h => ?_, fun hnew hcloses => exec_deadlock_closes hp hl hcall hnew hcloses⟩⟩
  · intro c st d l idxs s hp hcur hrel hempty hbuf hload hidx hperf hneed hgot hissued hrow hrev hmelt hmor hlt hidxs hl hne
    have h : s.LoadOpen c st d := ⟨hcur, hrel, hempty, hbuf, hload, hperf, hrev, hmelt, hmor⟩
    have hindexed : d.indexed = true := by simp [Desc.indexed, hidx, hload]
    have hresume : s.indexResume c = s.linesAsked c idxs l := by
      rw [← hrow] at hl
      obtain ⟨hi, hlen⟩ | ⟨hq, hret, hi⟩ := hidxs
      · exact h.indexResume_queued hindexed hlt hneed hgot hissued hlen hl hne hi
      · refine h.indexResume_padded hindexed hlt hneed hgot hissued ?_ hl hne hq hret hi
        rw [hi, List.length_append, List.length_replicate]
        omega
    have hchan := State.linesAsked_chan h.set idxs l
    refine ⟨(s.linesAsked c idxs l).pruneCycles, ?_, ?_, ?_, s.linesAsked_rest c idxs l⟩
    · rw [exec_indexQueueResume hp, hresume]
    · exact congrArg Channel.queue hchan
    · exact congrArg Channel.set hchan
  · rw [exec_deadlock hp, State.deadlock_standing hl h]

end Sys2Proof.Machine

/-! # The start of a chain -/

namespace Sys2Proof.Machine

/-! ## The writes of one step that start chains (R354) -/

/-- Writes of GO act in the order of R354, whichever of them the command stands for. -/
theorem goes_ordered : ∀ q r : Reader, Reader.before q r = true → q ≠ r →
    (readerOrder.flatMap fun p => [(r, false), (q, false)].filter fun w => w.1 == p) = [(q, false), (r, false)] ∧
    (readerOrder.flatMap fun p => [(q, false), (r, false)].filter fun w => w.1 == p) = [(q, false), (r, false)] := by
  decide

/-- The writes of one reader come together, behind those of the readers before it. -/
theorem readerOrder_flatMap {r : Reader} {w : Reader × Bool} {met : List (Reader × Bool)} (hw : w.1 = r)
    (hmet : ∀ m ∈ met, m.1 ≠ r) :
    ∃ as bs, (readerOrder.flatMap fun q => (w :: met).filter fun m => m.1 == q) = as ++ w :: bs ∧
      (∀ m ∈ as, m ∈ met) ∧ ∀ m ∈ bs, m ∈ met := by
  obtain ⟨l1, l2, hl⟩ := List.append_of_mem (mem_readerOrder r)
  have hnd := readerOrder_nodup
  rw [hl, List.nodup_append, List.nodup_cons] at hnd
  obtain ⟨-, ⟨hr2, -⟩, hdis⟩ := hnd
  have hothers : ∀ l : List Reader, r ∉ l →
      ∀ m ∈ l.flatMap (fun q => (w :: met).filter fun m => m.1 == q), m ∈ met := by
    intro l hr m hm
    obtain ⟨q, hq, hm⟩ := List.mem_flatMap.mp hm
    obtain ⟨hmem, heq⟩ := List.mem_filter.mp hm
    obtain rfl | hmem := List.mem_cons.mp hmem
    · have hrq : r = q := hw.symm.trans (beq_iff_eq.mp heq)
      exact absurd (hrq ▸ hq) hr
    · exact hmem
  have hown : ((w :: met).filter fun m => m.1 == r) = [w] := by
    rw [List.filter_cons_of_pos (by simpa using hw), List.filter_eq_nil_iff.mpr fun m hm => by simpa using hmet m hm]
  refine ⟨_, _, ?_, hothers l1 fun h => hdis r h r List.mem_cons_self rfl, hothers l2 hr2⟩
  rw [hl, List.flatMap_append, List.flatMap_cons, hown]
  rfl

/-- Of writes of which one reader alone can act, that reader's GO acts. -/
theorem State.chainWrites_go {s : State} {r : Reader} {c : BitVec 5} {met : List (Reader × Bool)} (hal : alone r met s)
    (hact : ∀ q, (s.drfGo r c).canAct q = s.canAct q) :
    s.chainWrites c ((r, false) :: met.filter fun w => w.1 != r) = s.drfGo r c := by
  have hrest : ∀ w ∈ met.filter fun w => w.1 != r, w.1 ≠ r ∧ s.canAct w.1 = false := fun w hw => by
    obtain ⟨hmem, hne⟩ := List.mem_filter.mp hw
    exact ⟨bne_iff_ne.mp hne, (hal w hmem).resolve_left (bne_iff_ne.mp hne)⟩
  obtain ⟨as, bs, hl, has, hbs⟩ := readerOrder_flatMap (w := (r, false)) rfl fun m hm => (hrest m hm).1
  have h1 := State.chainWrites_idle (s := s) (fun w hw => (hrest w (has w hw)).2) c
  have h2 := State.chainWrites_idle (s := s.drfGo r c) (fun w hw => (hact w.1).trans (hrest w (hbs w hw)).2) c
  change State.forEach s (readerOrder.flatMap _) _ = _
  unfold State.forEach at h1 h2 ⊢
  rw [hl, List.foldl_append, h1]
  exact h2

theorem exec_drfGo {s : State} (hp : s.powered = true) (r : Reader) (c : BitVec 5) (met : List (Reader × Bool)) :
    exec (.drfGo r c met) s = .next (s.chainWrites c ((r, false) :: met.filter fun w => w.1 != r)).pruneCycles :=
  congrArg _ (if_pos hp)

theorem exec_drfGo_pair {s : State} (hp : s.powered = true) {q r : Reader} (hb : Reader.before q r = true) (hne : q ≠ r)
    (c : BitVec 5) :
    exec (.drfGo r c [(q, false)]) s = .next ((s.drfGo q c).drfGo r c).pruneCycles ∧
      exec (.drfGo q c [(r, false)]) s = .next ((s.drfGo q c).drfGo r c).pruneCycles := by
  obtain ⟨h1, h2⟩ := goes_ordered q r hb hne
  have hq : ([(q, false)].filter fun w => w.1 != r) = [(q, false)] := by simp [hne]
  have hr : ([(r, false)].filter fun w => w.1 != q) = [(r, false)] := by simp [hne.symm]
  rw [exec_drfGo hp, exec_drfGo hp, hq, hr]
  constructor
  · exact congrArg (fun l => Host.Outcome.next (State.pruneCycles (State.forEach s l _))) h1
  · exact congrArg (fun l => Host.Outcome.next (State.pruneCycles (State.forEach s l _))) h2

/-! ## What GO answers (R320) -/

/-- The address of a reader's descriptor list: of 16 words in Icefield, or of a line of chip memory (R320). -/
def DriftRegs.listAt (g : DriftRegs) : Nat :=
  if g.lsrc then g.list.toNat / 16 * 16 else (g.listh ++ g.list).toNat / 64 * 64

section
variable {s : State} {r : Reader} {c : BitVec 5} (hr : s.canAct r = true)
include hr

theorem State.drfGo_noChannel (h : Config.driftCh s.cfg ≤ c.toNat) : s.drfGo r c = s.setRstat r 4 := by
  simp [State.drfGo, hr, State.hasCh, Nat.not_lt.mpr h]

variable (hch : c.toNat < Config.driftCh s.cfg)
include hch

theorem State.drfGo_notOwner (ho : s.ownsCh r c.toFin = false) : s.drfGo r c = s.setRstat r 5 := by
  simp [State.drfGo, hr, State.hasCh, hch, ho]

variable (ho : s.ownsCh r c.toFin = true)
include ho

theorem State.drfGo_busy (h : (s.chan c.toFin).state = 1 ∨ (s.chan c.toFin).state = 5) : s.drfGo r c = s.setRstat r 2 := by
  have hb : ((s.chan c.toFin).state == 1 || (s.chan c.toFin).state == 5) = true := by simpa using h
  simp only [State.drfGo, hr, State.hasCh, hch, ho, hb, decide_true, Bool.not_true, Bool.false_eq_true, if_false, if_true]

theorem State.drfGo_starts (h1 : (s.chan c.toFin).state ≠ 1) (h5 : (s.chan c.toFin).state ≠ 5) :
    s.drfGo r c = ((s.startChain c.toFin (s.drf.regs.get r).lsrc (s.drf.regs.get r).listAt (s.basesOf r) (some r)
      none).askFetch c.toFin).setRstat r 0 := by
  have hb : ((s.chan c.toFin).state == 1 || (s.chan c.toFin).state == 5) = false := by
    simp only [Bool.or_eq_false_iff, beq_eq_false_iff_ne]
    exact ⟨h1, h5⟩
  simp only [State.drfGo, hr, State.hasCh, hch, ho, hb, decide_true, Bool.not_true, Bool.false_eq_true, if_false]
  rfl

end

/-! ## The first set of a chain is asked for (R323) -/

/-- A channel is what it is with its own fetch access. -/
theorem Channel.eq_with_fetchSb {x y : Channel} {o : Option Nat} (h : x = { y with fetchSb := o }) :
    x = { y with fetchSb := x.fetchSb } := by
  subst h
  rfl

/-- A chain that has begun: of the channel's fields it keeps the owner, BATCH and the extent. -/
def Channel.begun (x : Channel) (ice : Bool) (addr : Nat) (bases : Bases) (starter : Option Reader) : Channel :=
  { x with state := 1, hcause := 0, posDesc := 0, posRow := 0, marksRd := 0, marksWr := 0, idxbad := 0, bases
           shadow := none, starter, fetchN := none, fetchSb := none, fetchFail := none, listIce := ice
           listAddr := addr, version := none, fetched := 0
           set := none, next := none, cached := none, marked := false, stopping := false, halting := false
           persist := false, firstLen := 0, feeds := [], order := none }

theorem State.startChain_chan (s : State) (c : Fin 32) (ice : Bool) (addr : Nat) (b : Bases) (starter : Option Reader) :
    (s.startChain c ice addr b starter none).chan c = (s.chan c).begun ice addr b starter := State.modCh_chan _ _ _

/-- A channel that wants a set and has asked for none asks for one under the BATCH of now: a fetch from Icefield also presents
its read range. -/
theorem State.askFetch_wants {s : State} {c : Fin 32} (hw : (s.chan c).wantsSet = true) (hn : (s.chan c).fetchN = none) :
    ∃ sb fsb, sb.alloc = s.ice.sb.alloc ∧ s.askFetch c = (s.modSb fun _ => sb).modCh c fun x =>
      { x with fetchN := some (s.chan c).batchLen, fetchSb := fsb } := by
  have hask : (!(s.chan c).wantsSet || (s.chan c).fetchN.isSome) = false := by rw [hw, hn]; rfl
  simp only [State.askFetch, hask, Bool.false_eq_true, if_false]
  split
  · exact ⟨(s.present (.drift c) _).1.ice.sb, some s.ice.sb.nextId, rfl, State.modCh_modCh (s.present (.drift c) _).1 c _ _⟩
  · exact ⟨s.ice.sb, (s.chan c).fetchSb, rfl, rfl⟩

/-- GO on a channel that neither runs nor is halted begins its chain, asks for the first set and answers OK. -/
theorem State.drfGo_begins {s : State} {r : Reader} {c : BitVec 5} (hr : s.canAct r = true)
    (hch : c.toNat < Config.driftCh s.cfg) (ho : s.ownsCh r c.toFin = true) (h1 : (s.chan c.toFin).state ≠ 1)
    (h5 : (s.chan c.toFin).state ≠ 5) :
    ∃ sb fsb, sb.alloc = s.ice.sb.alloc ∧
      s.drfGo r c = ((s.modSb fun _ => sb).modCh c.toFin fun x =>
        { x.begun (s.drf.regs.get r).lsrc (s.drf.regs.get r).listAt (s.basesOf r) (some r) with
          fetchN := some (s.chan c.toFin).batchLen, fetchSb := fsb }).setRstat r 0 := by
  have hchan := s.startChain_chan c.toFin (s.drf.regs.get r).lsrc (s.drf.regs.get r).listAt (s.basesOf r) (some r)
  obtain ⟨sb, fsb, halloc, hask⟩ := State.askFetch_wants (c := c.toFin) (congrArg Channel.wantsSet hchan)
    (congrArg Channel.fetchN hchan)
  refine ⟨sb, fsb, halloc, ?_⟩
  rw [State.drfGo_starts hr hch ho h1 h5, hask, hchan]
  exact congrArg (State.setRstat · r 0) (State.modCh_modCh (s.modSb fun _ => sb) c.toFin _ _)

/-- What GO changes: channels, a reader's registers and accesses that wait. -/
theorem State.drfGo_frame (s : State) (r : Reader) (c : BitVec 5) :
    ∃ ch regs sb, s.drfGo r c = { s with drf := { s.drf with ch, regs }, ice := { s.ice with sb } } := by
  by_cases hr : s.canAct r = true
  case neg => exact ⟨_, _, _, if_pos (by simpa using hr)⟩
  by_cases hch : c.toNat < Config.driftCh s.cfg
  case neg => exact ⟨_, _, _, State.drfGo_noChannel hr (Nat.le_of_not_lt hch)⟩
  by_cases ho : s.ownsCh r c.toFin = true
  case neg => exact ⟨_, _, _, State.drfGo_notOwner hr hch (by simpa using ho)⟩
  by_cases hb : (s.chan c.toFin).state = 1 ∨ (s.chan c.toFin).state = 5
  case pos => exact ⟨_, _, _, State.drfGo_busy hr hch ho hb⟩
  obtain ⟨h1, h5⟩ := not_or.mp hb
  obtain ⟨sb, fsb, -, h⟩ := State.drfGo_begins hr hch ho h1 h5
  exact ⟨_, _, _, h⟩

theorem State.canAct_drfGo (s : State) (r : Reader) (c : BitVec 5) (q : Reader) : (s.drfGo r c).canAct q = s.canAct q := by
  obtain ⟨ch, regs, sb, h⟩ := s.drfGo_frame r c
  rw [h]
  rfl

/-- A GO with which no other write of its step acts. -/
theorem exec_drfGo_alone {s : State} {r : Reader} (c : BitVec 5) {met : List (Reader × Bool)} (hr : s.canAct r = true)
    (hal : alone r met s) : exec (.drfGo r c met) s = .next (s.drfGo r c).pruneCycles := by
  rw [exec_drfGo (State.canAct_powered hr), State.chainWrites_go hal (s.canAct_drfGo r c)]

/-- Settles O32, part by part: the answers without a chain, the order of the writes of one step, and the chain that begins. -/
theorem goStartsAChain : Obligations.GoStartsAChain := by
  refine ⟨fun r c met s hr hal => ⟨fun hch => ?_, fun hch ho => ?_⟩, fun q r c s hp hb hne => exec_drfGo_pair hp hb hne c,
    fun r c met s hr hal hch ho => ⟨fun h1 h5 => ?_, fun hb => ?_⟩⟩
  · rw [exec_drfGo_alone c hr hal, State.drfGo_noChannel hr hch]
  · rw [exec_drfGo_alone c hr hal, State.drfGo_notOwner hr hch ho]
  · obtain ⟨sb, fsb, halloc, hgo⟩ := State.drfGo_begins hr hch ho h1 h5
    rw [exec_drfGo_alone c hr hal, hgo]
    exact ⟨_, rfl, Channel.eq_with_fetchSb
        (y := { (s.chan c.toFin).begun (s.drf.regs.get r).lsrc (s.drf.regs.get r).listAt (s.basesOf r) (some r) with
          fetchN := some (s.chan c.toFin).batchLen })
        (State.modCh_chan (s.modSb fun _ => sb) c.toFin _),
      fun d hd => State.modCh_chan_ne (s.modSb fun _ => sb) _ hd, rfl, rfl, halloc⟩
  · rw [exec_drfGo_alone c hr hal, State.drfGo_busy hr hch ho hb]

end Sys2Proof.Machine

/-! # Flow buffers -/

namespace Sys2Proof.Machine

/-! ## Writes of a buffer's registers (R347) -/

/-- A write of FB_CONFIG that stands, after those it beats. -/
theorem exec_fbConfig {s : State} {r : Reader} (hw : s.mayWrite r = true) (b : Fin 16) (word : Fin 5) (v : Word)
    (lost : List Hart) :
    exec (.fbConfig r b word v lost) s = .next (if stands r (s.reaching r lost) then
      ((s.countPreempt (s.reaching r lost)).fbConfig r b word v).pruneCycles else s) := by
  refine congrArg Host.Outcome.next ((if_pos hw).trans ?_)
  simp only [State.stateWrite, hw, Bool.not_true, Bool.false_eq_true, if_false, State.reaching]

theorem State.fbConfig_mayWrite {s : State} {r : Reader} (hw : s.mayWrite r = true) (b : Fin 16) (word : Fin 5) (v : Word) :
    s.fbConfig r b word v = if s.bufferNamed b then s.setRstat r 2
      else { s with drf := { s.drf with fb := vmod s.drf.fb b fun x => x.write word v } } := by
  simp only [State.fbConfig, hw, Bool.not_true, Bool.false_eq_true, if_false]

/-! ## POST and RELEASE (R349) -/

/-- The end of a buffer that POST or RELEASE moves, and the party that moves it. -/
def FlowBuf.party (x : FlowBuf) (post : Bool) : BitVec 6 := if post then x.prod else x.cons

/-- A buffer after POST or RELEASE. -/
def FlowBuf.advanced (x : FlowBuf) (post : Bool) : FlowBuf :=
  if post then { x with head := x.head + 1 } else { x with tail := x.tail + 1 }

/-- A hart moves the end of a buffer that is its own, and no other. -/
theorem State.fbAdvance_hart {s : State} {h : Hart} (ha : s.canAct (Hart.reader h) = true) (b : Fin 16) (post : Bool) :
    s.fbAdvance (Hart.reader h) b post = { s with drf := { s.drf with
      fb := if ((s.drf.fb.get b).party post).toNat = 32 + h.val then
          vset s.drf.fb b ((s.drf.fb.get b).advanced post)
        else s.drf.fb } } := by
  have hparty : (if post then (s.drf.fb.get b).prod else (s.drf.fb.get b).cons) = (s.drf.fb.get b).party post := rfl
  simp only [State.fbAdvance, hart?_reader, ha, hparty, Bool.not_true, Bool.false_or, bne_iff_ne, ne_eq, ite_not]
  split <;> rfl

/-! ## The grant of a slot (R348) -/

section
variable {s : State} {c : Fin 32} {st : DriftSet} {d : Desc} (hcur : s.current c = some (st, d)) (hrel : d.rel = false)
  (hempty : d.empty = false) (hbuf : d.buffered = true)
include hcur hrel hempty hbuf

/-- A descriptor without a slot whose buffer is open gets the slot of its end, and the slot's words are presented. -/
theorem State.slotGrant_open {p : Bool} (hslot : st.slot = none) (hrole : d.role (s.drf.fb.get d.buf) c = some p)
    (hopen : (s.drf.fb.get d.buf).open p = true) :
    let b := s.drf.fb.get d.buf
    let n := if p then b.head.toNat else b.tail.toNat
    s.slotGrant c = (s.present (.drift c) (clipRange (b.slotBase n) (b.slotBase n + b.slot.toNat - 1) p)).1.modSet c
      fun t => { t with slot := some n, slotSb := some s.ice.sb.nextId } := by
  simp only [State.slotGrant, hcur, Desc.rebase_fixed hrel, hrole, hempty, hbuf, hslot, hopen, Option.isSome_none,
    Bool.not_true, Bool.false_eq_true, if_false, Bool.or_self]
  rfl

/-- A descriptor waits until its slot's words are allocated. -/
theorem State.driveStep_of_slot_waiting {id : Nat} (hperf : st.performed = false) (hsb : st.slotSb = some id)
    (hid : ∀ a ∈ s.ice.sb.alloc, a.id ≠ id) : s.driveStep c = none := by
  have hwait : (s.ice.sb.alloc.any fun a => a.id == id) = false := by
    simpa [List.any_eq_false] using hid
  rw [State.driveStep, hcur]
  simp only [Desc.rebase_fixed hrel, hempty, hperf, hbuf, hsb, hwait, Bool.not_false, Bool.and_self, Bool.false_eq_true,
    if_false, if_true]

end

/-- Settles O35, part by part: FB_CONFIG, POST and RELEASE, and the grant of a slot. -/
theorem flowBuffersCountAndGrantSlots : Obligations.FlowBuffersCountAndGrantSlots := by
  refine ⟨fun r b word v lost s ha hpriv => ?_, fun h b s ha => ⟨?_, ?_⟩,
    fun c st d p s hp hcur hrel hempty hbuf hperf hslot hslotSb hrole hopen hid => ?_⟩
  · have hw : s.mayWrite r = true := by rw [State.mayWrite, ha, hpriv]; rfl
    rw [exec_fbConfig hw, State.fbConfig_mayWrite (s := s.countPreempt _) hw]
    have hnamed : (s.countPreempt (s.reaching r lost)).bufferNamed b = s.bufferNamed b := rfl
    rw [hnamed]
    by_cases hst : stands r (s.reaching r lost) = true
    · by_cases hn : s.bufferNamed b = true
      · simp only [hst, hn, if_true, Bool.true_eq_false, if_false]
      · simp only [hst, hn, if_true, Bool.true_eq_false, if_false]
        rfl
    · rw [if_neg hst, if_pos (by simpa using hst)]
  · have hexec : exec (.fbPost (Hart.reader h) b) s = .next (s.fbAdvance (Hart.reader h) b true).pruneCycles :=
      congrArg _ (if_pos (State.canAct_powered ha))
    rw [hexec, State.fbAdvance_hart ha]
    exact ⟨_, rfl, rfl, rfl⟩
  · have hexec : exec (.fbRelease (Hart.reader h) b) s = .next (s.fbAdvance (Hart.reader h) b false).pruneCycles :=
      congrArg _ (if_pos (State.canAct_powered ha))
    rw [hexec, State.fbAdvance_hart ha]
    exact ⟨_, rfl, rfl, rfl⟩
  · have hexec : exec (.slotGrant c) s = .next ((s.slotGrant c).drive c).pruneCycles := congrArg _ (if_pos hp)
    have hgrant := State.slotGrant_open hcur hrel hempty hbuf hslot hrole hopen
    intro b n
    rw [hexec, hgrant]
    let s1 := (s.present (.drift c) (clipRange (b.slotBase n) (b.slotBase n + b.slot.toNat - 1) p)).1
    have hcur1 : s1.current c = some (st, d) := hcur
    obtain ⟨-, -, -, hset, -⟩ := State.current_eq_some.mp hcur1
    have hgranted := State.current_modSet hcur1 (f := fun t => { t with slot := some n, slotSb := some s.ice.sb.nextId })
      ⟨rfl, rfl, rfl⟩
    have hwait := State.driveStep_of_slot_waiting hgranted hrel hempty hbuf hperf rfl hid
    exact ⟨_, congrArg (fun t => Host.Outcome.next (State.pruneCycles t)) (State.drive_of_none hwait),
      congrArg Channel.set (State.modSet_chan hset _), rfl, rfl, rfl, rfl, rfl, rfl⟩

end Sys2Proof.Machine

/-! # The end of chains and of accesses -/

namespace Sys2Proof.Machine

/-! ## What the answer of a command and the watch for deadlocks leave -/

theorem State.pruneCycles_chan (s : State) (c : Fin 32) : s.pruneCycles.chan c = s.chan c := rfl
theorem State.pruneCycles_ice (s : State) : s.pruneCycles.ice = s.ice := rfl
theorem State.pruneCycles_tiles (s : State) : s.pruneCycles.tiles = s.tiles := rfl
theorem State.pruneCycles_harts (s : State) : s.pruneCycles.harts = s.harts := rfl
theorem State.setRstat_ice (s : State) (r : Reader) (k : BitVec 4) : (s.setRstat r k).ice = s.ice := rfl
theorem State.setRstat_tiles (s : State) (r : Reader) (k : BitVec 4) : (s.setRstat r k).tiles = s.tiles := rfl
theorem State.setRstat_harts (s : State) (r : Reader) (k : BitVec 4) : (s.setRstat r k).harts = s.harts := rfl
theorem State.modSet_ice (s : State) (c : Fin 32) (f : DriftSet → DriftSet) : (s.modSet c f).ice = s.ice := rfl
theorem State.modSet_tiles (s : State) (c : Fin 32) (f : DriftSet → DriftSet) : (s.modSet c f).tiles = s.tiles := rfl
theorem State.modSet_harts (s : State) (c : Fin 32) (f : DriftSet → DriftSet) : (s.modSet c f).harts = s.harts := rfl

/-! ## The end of a chain (R321, R322) -/

/-- A hart that differs from another in its pending events alone. -/
def HartState.ButEvents (a b : HartState) : Prop := a = { b with csr := { b.csr with evpend := a.csr.evpend } }

theorem HartState.ButEvents.refl (a : HartState) : a.ButEvents a := rfl

theorem HartState.ButEvents.trans {a b c : HartState} (hab : a.ButEvents b) (hbc : b.ButEvents c) : a.ButEvents c := by
  rw [HartState.ButEvents] at hab hbc ⊢
  rw [hbc] at hab
  exact hab

theorem HartState.ButEvents.vflags {a b : HartState} (h : a.ButEvents b) : a.csr.vflags = b.csr.vflags := by rw [h]
theorem HartState.ButEvents.drw {a b : HartState} (h : a.ButEvents b) : a.csr.drw = b.csr.drw := by rw [h]
theorem HartState.ButEvents.x {a b : HartState} (h : a.ButEvents b) : a.x = b.x := by rw [h]
theorem HartState.ButEvents.pc {a b : HartState} (h : a.ButEvents b) : a.pc = b.pc := by rw [h]

/-- The drift event changes pending events alone, and sets the owner's bit when the owner has selected the channel. -/
theorem State.driftEvent_harts (s : State) (c : Fin 32) :
    ∃ harts, s.driftEvent c = { s with harts } ∧ (∀ h, (harts.get h).ButEvents (s.hart h)) ∧
      ((s.hart (s.chan c).owner).csr.drw.getLsbD c.val = true →
        (harts.get (s.chan c).owner).csr.evpend.getLsbD 0 = true) := by
  by_cases hd : (s.hart (s.chan c).owner).csr.drw.getLsbD c.val = true
  · refine ⟨(s.raiseEvent (s.chan c).owner 0).harts, if_pos hd, fun h => ?_, fun _ => ?_⟩
    · change ((s.raiseEvent (s.chan c).owner 0).hart h).ButEvents _
      by_cases he : h = (s.chan c).owner
      · rw [he, State.raiseEvent, State.modHart_hart]
        rfl
      · rw [State.raiseEvent, State.modHart_hart_ne _ _ he]
        rfl
    · change ((s.raiseEvent (s.chan c).owner 0).hart (s.chan c).owner).csr.evpend.getLsbD 0 = true
      rw [State.raiseEvent, State.modHart_hart]
      simp
  · exact ⟨s.harts, if_neg hd, fun h => rfl, fun h => absurd h hd⟩

/-- A channel whose chain has ended in a state, at a descriptor where the state is an error. -/
def Channel.endedAs (code : BitVec 4) (desc : Nat) (x : Channel) : Channel :=
  { x with state := code, set := none, next := none, shadow := none
           posDesc := if 7 ≤ code.toNat then BitVec.ofNat 12 desc else x.posDesc
           posRow := if 7 ≤ code.toNat then 0 else x.posRow }

/-- A chain that ends MARKED marks at most the order of the kernel that started it (R425). -/
theorem State.noteMarked_frame (s : State) (c : Fin 32) (st : BitVec 4) :
    ∃ hods, s.noteMarked c st = { s with hods } := by
  unfold State.noteMarked
  split
  · split
    · split
      · exact ⟨_, rfl⟩
      · exact ⟨_, rfl⟩
    · exact ⟨_, rfl⟩
  · exact ⟨_, rfl⟩

/-- A chain that serves no order ends: its channel, its event, and nothing else of the engine. -/
theorem State.endChain_unordered {s : State} {c : Fin 32} (ho : (s.chan c).order = none) (code : BitVec 4) (desc : Nat) :
    ∃ harts hods, s.endChain c code desc = { s.modCh c (Channel.endedAs code desc) with harts, hods } ∧
      (∀ h, (harts.get h).ButEvents (s.hart h)) ∧
      ((s.hart (s.chan c).owner).csr.drw.getLsbD c.val = true →
        (harts.get (s.chan c).owner).csr.evpend.getLsbD 0 = true) := by
  obtain ⟨harts, hev, hbut, hbit⟩ := (s.modCh c (Channel.endedAs code desc)).driftEvent_harts c
  obtain ⟨hods, hnote⟩ := ({ s.modCh c (Channel.endedAs code desc) with harts } : State).noteMarked_frame c code
  have hchan := State.modCh_chan s c (Channel.endedAs code desc)
  rw [hchan] at hbit
  refine ⟨harts, hods, ?_, hbut, hbit⟩
  have hend : s.endChain c code desc = (((s.modCh c (Channel.endedAs code desc)).driftEvent c).noteMarked c code).chainOrder c :=
    rfl
  rw [hend, hev, hnote, State.chainOrder]
  have horder : (({ s.modCh c (Channel.endedAs code desc) with harts, hods } : State).chan c).order = none :=
    (congrArg Channel.order hchan).trans ho
  simp only [horder]

/-! ## The end of an access whose words are whole (R301, R302) -/

/-- Whole words are written without a read. -/
theorem State.writeBytes_whole (f : Fin 64) (who : Src) {ws : List IceWrite} (hw : ∀ w ∈ ws, w.mask = 0xF) (s : State) :
    ∃ cells wb, ws.foldl (fun s w => s.writeBytes who f w.word w.mask w.data w.mark) s =
      { s with ice := { s.ice with cells, writebacks := wb } } := by
  induction ws generalizing s with
  | nil => exact ⟨_, _, rfl⟩
  | cons w ws ih =>
    obtain ⟨cells, wb, h⟩ := s.writeResident_frame f w.word w.data w.mark
    have hone : s.writeBytes who f w.word w.mask w.data w.mark = s.writeResident f w.word w.data w.mark := by
      rw [State.writeBytes, hw w List.mem_cons_self, if_neg (by decide), if_pos rfl]
    rw [List.foldl_cons, hone, h]
    exact ih (fun w hm => hw w (List.mem_cons_of_mem _ hm)) _

/-- The Firn entries of a state are among those of another, or hold nothing to write. -/
def State.FirnWithin (s t : State) : Prop :=
  ∀ i e, t.ice.firn.get i = some e → s.ice.firn.get i = some e ∨ e.write = []

theorem State.FirnWithin.trans {s t u : State} (hst : s.FirnWithin t) (htu : t.FirnWithin u) : s.FirnWithin u :=
  fun i e he => (htu i e he).elim (hst i e) .inr

theorem State.FirnWithin.idle {s t : State} (h : s.FirnWithin t) {id : Nat} (hi : s.firnIdle id) : t.firnIdle id :=
  fun i e he ha => (h i e he).elim (fun hs => hi i e hs ha) fun hn => hn

theorem State.firnWhole_of_idle {s : State} {id : Nat} (h : s.firnIdle id) : s.firnWhole id := fun i e he ha w hw => by
  rw [h i e he ha] at hw
  exact absurd hw List.not_mem_nil

theorem State.firnFor_some {s : State} {id : Nat} {i : Fin 64} {e : FirnEntry} (hf : s.firnFor id = some i)
    (he : s.ice.firn.get i = some e) : e.acc = id := by
  have h := List.find?_some hf
  rw [he] at h
  exact beq_iff_eq.mp h

/-- A flush of whole words counts itself and writes cells. -/
theorem State.firnFlush_whole {s : State} {id : Nat} (hw : s.firnWhole id) :
    ∃ obs cells wb firn, s.firnFlush id = { s with obs, ice := { s.ice with cells, writebacks := wb, firn } } ∧
      (∀ i e, firn.get i = some e → s.ice.firn.get i = some e ∨ e.write = []) ∧
      (s.firnIdle id → cells = s.ice.cells) := by
  unfold State.firnFlush
  split
  · exact ⟨_, _, _, _, rfl, fun i e he => .inl he, fun _ => rfl⟩
  next i hf =>
  split
  next e he =>
    have hacc := State.firnFor_some hf he
    have hmask : ∀ w ∈ e.writes, w.mask = 0xF := fun w hm => by
      unfold FirnEntry.writes at hm
      split at hm
      · obtain ⟨q, hq, rfl⟩ := List.mem_map.mp hm
        exact hw i e he hacc q hq
      · exact absurd hm List.not_mem_nil
    obtain ⟨cells, wb, h⟩ := State.writeBytes_whole ((e.line.map (·.1)).getD 0) e.who.src hmask
      (s.countEvent 0x10 (if e.writes.isEmpty then 0 else 1))
    refine ⟨(s.countEvent 0x10 (if e.writes.isEmpty then 0 else 1)).obs, cells, wb,
      vset s.ice.firn i (some { e with line := none, read := [], write := [] }), ?_, fun j x hx => ?_, fun hidle => ?_⟩
    · dsimp only
      rw [h]
      rfl
    · by_cases hj : j = i
      · rw [hj, vset_get_same] at hx
        obtain rfl := Option.some.inj hx
        exact .inr rfl
      · exact .inl (by rwa [vset_get_ne _ _ hj] at hx)
    · have hnone : e.writes = [] := by
        unfold FirnEntry.writes
        rw [hidle i e he hacc]
        split <;> rfl
      rw [hnone] at h
      exact (congrArg (fun t : State => t.ice.cells) h).symm
  · exact ⟨_, _, _, _, rfl, fun i e he => .inl he, fun _ => rfl⟩

theorem firnGrants_within (l : List FirnAsk) (s : State) :
    ∃ firn q, firnGrants l s = { s with ice := { s.ice with firn, firnQ := q } } ∧
      ∀ i e, firn.get i = some e → s.ice.firn.get i = some e ∨ e.write = [] := by
  induction l generalizing s with
  | nil => exact ⟨_, _, rfl, fun i e he => .inl he⟩
  | cons a l ih =>
    unfold firnGrants
    split
    next i hf =>
      obtain ⟨firn, q, h, hin⟩ := ih (s.setFirn i (some { acc := a.acc, who := a.who }))
      refine ⟨firn, q, h, fun j e he => ?_⟩
      refine (hin j e he).elim (fun hj => ?_) .inr
      change (vset s.ice.firn i _).get j = some e at hj
      by_cases hji : j = i
      · rw [hji, vset_get_same] at hj
        obtain rfl := Option.some.inj hj
        exact .inr rfl
      · exact .inl (by rwa [vset_get_ne _ _ hji] at hj)
    · obtain ⟨firn, q, h, hin⟩ := ih { s with ice := { s.ice with firnQ := s.ice.firnQ ++ [a] } }
      exact ⟨firn, q, h, hin⟩

theorem State.firnDrop_within (s : State) (id : Nat) :
    ∃ firn q, s.firnDrop id = { s with ice := { s.ice with firn, firnQ := q } } ∧
      ∀ i e, firn.get i = some e → s.ice.firn.get i = some e ∨ e.write = [] := by
  obtain ⟨firn, q, h, hin⟩ := firnGrants_within (s.ice.firnQ.filter fun q => q.acc != id)
    { s with ice := { s.ice with firn := s.ice.firn.map fun e => e.filter fun x => x.acc != id, firnQ := [] } }
  refine ⟨firn, q, h, fun i e he => (hin i e he).elim (fun hm => .inl ?_) .inr⟩
  have hget : (s.ice.firn.map fun e => e.filter fun x => x.acc != id).get i =
      (s.ice.firn.get i).filter fun x => x.acc != id := by simp [Vector.get]
  change (s.ice.firn.map fun e => e.filter fun x => x.acc != id).get i = some e at hm
  rw [hget, Option.filter_eq_some_iff] at hm
  exact hm.1

/-- An access whose Firn entry holds whole words ends with no line in transfer: its words are written, and its entries go. -/
theorem State.endAccess_whole {s : State} {id : Nat} (hw : s.firnWhole id) (hm : s.morDone id = true) :
    ∃ obs wb firn q md, s.endAccess id = { s with
        obs
        ice := { s.ice with
          cells := (s.firnFlush id).ice.cells, writebacks := wb, firn, firnQ := q, morData := md
          sb := { s.ice.sb with
            alloc := s.ice.sb.alloc.filter fun a => a.id != id
            waiting := s.ice.sb.waiting.filter fun a => a.id != id } } } ∧
      s.FirnWithin (s.endAccess id) := by
  obtain ⟨obs, cells, wb, firn, hflush, hin, -⟩ := State.firnFlush_whole hw
  obtain ⟨firn', q, hdrop, hin'⟩ := (s.firnFlush id).firnDrop_within id
  rw [hflush] at hdrop hin'
  have heq : s.endAccess id = (({ s with obs, ice := { s.ice with cells, writebacks := wb, firn := firn', firnQ := q } } :
      State).morDrop id).release id := by
    rw [State.endAccess, hflush, hdrop]
    exact if_pos hm
  refine ⟨obs, wb, firn', q, s.ice.morData.filter fun m => m.acc != id, ?_, ?_⟩
  · rw [heq, hflush]
    rfl
  · intro i e he
    rw [heq] at he
    exact (hin' i e he).elim (hin i e) .inr

end Sys2Proof.Machine

/-! # Retiring sets and the lines of the fabric -/

namespace Sys2Proof.Machine

/-! ## The retirement of a set (R325) -/

/-- The access of a set ends. -/
def State.setFreed (s : State) (st : DriftSet) : State := match st.sb with | some id => s.endAccess id | none => s

/-- The extent that the last load of a set records (R334). -/
def State.setExtent (s : State) (c : Fin 32) (st : DriftSet) : State :=
  match (st.descs.filter fun d => d.isLoad && !d.empty).getLast? with
  | some d => s.modCh c fun y => { y with extVr := d.extent.1, extVc := d.extent.2 }
  | none => s

/-- What the retirement of a set does before its chain ends or goes on. -/
def State.setDone (s : State) (c : Fin 32) (st : DriftSet) : State :=
  let s := (((s.setFreed st).setExtent c st).raiseFlags (s.chan c).owner st.flags)
  if st.descs.any (·.evt) then s.driftEvent c else s

theorem State.setFreed_whole {s : State} {st : DriftSet}
    (h : ∀ id, st.sb = some id → s.morDone id = true ∧ s.firnWhole id) :
    ∃ obs ice, s.setFreed st = { s with obs, ice } ∧
      ice.cells = (match st.sb with | some id => (s.firnFlush id).ice.cells | none => s.ice.cells) ∧
      ∀ id, st.sb = some id → ∀ a ∈ ice.sb.alloc, a.id ≠ id := by
  unfold State.setFreed
  split
  next id hsb =>
    obtain ⟨hm, hw⟩ := h id hsb
    obtain ⟨obs, wb, firn, q, md, hend, -⟩ := State.endAccess_whole hw hm
    refine ⟨_, _, hend, rfl, fun id' he a ha => ?_⟩
    obtain rfl := Option.some.inj (hsb.symm.trans he)
    simpa using (List.mem_filter.mp ha).2
  next hsb => exact ⟨_, _, rfl, rfl, fun id he => absurd (hsb.symm.trans he) nofun⟩

theorem State.setExtent_frame (s : State) (c : Fin 32) (st : DriftSet) :
    ∃ vr vc, s.setExtent c st = s.modCh c fun y => { y with extVr := vr, extVc := vc } := by
  unfold State.setExtent
  split
  · exact ⟨_, _, rfl⟩
  · refine ⟨(s.chan c).extVr, (s.chan c).extVc, ?_⟩
    exact (congrArg (fun v => { s with drf := { s.drf with ch := v } }) (vmod_eq_self s.drf.ch c
      (fun y => { y with extVr := (s.chan c).extVr, extVc := (s.chan c).extVc }) rfl)).symm

/-- What a set whose access holds whole words leaves when it is done. -/
theorem State.setDone_whole {s : State} {c : Fin 32} {st : DriftSet}
    (h : ∀ id, st.sb = some id → s.morDone id = true ∧ s.firnWhole id) :
    ∃ obs ice vr vc harts, s.setDone c st =
        { s.modCh c (fun y => { y with extVr := vr, extVc := vc }) with obs, ice, harts } ∧
      ice.cells = (match st.sb with | some id => (s.firnFlush id).ice.cells | none => s.ice.cells) ∧
      (∀ id, st.sb = some id → ∀ a ∈ ice.sb.alloc, a.id ≠ id) ∧
      (∀ k, (harts.get k).ButEvents ((s.raiseFlags (s.chan c).owner st.flags).hart k)) := by
  obtain ⟨obs, ice, hfree, hcells, halloc⟩ := State.setFreed_whole h
  obtain ⟨vr, vc, hext⟩ := (s.setFreed st).setExtent_frame c st
  rw [hfree] at hext
  obtain ⟨harts, hev, hbut, -⟩ := ((({ s with obs, ice } : State).modCh c fun y =>
    { y with extVr := vr, extVc := vc }).raiseFlags (s.chan c).owner st.flags).driftEvent_harts c
  have hdone : s.setDone c st = if st.descs.any (·.evt) then
      ((({ s with obs, ice } : State).modCh c fun y => { y with extVr := vr, extVc := vc }).raiseFlags (s.chan c).owner
        st.flags).driftEvent c
      else (({ s with obs, ice } : State).modCh c fun y => { y with extVr := vr, extVc := vc }).raiseFlags (s.chan c).owner
        st.flags := by
    rw [State.setDone, hfree, hext]
  by_cases he : st.descs.any (·.evt) = true
  · rw [hdone, if_pos he, hev]
    exact ⟨obs, ice, vr, vc, harts, rfl, hcells, halloc, hbut⟩
  · rw [hdone, if_neg he]
    exact ⟨obs, ice, vr, vc, (s.raiseFlags (s.chan c).owner st.flags).harts, rfl, hcells, halloc, fun k => .refl _⟩

/-- The retirement of a set that is done ends its chain or goes on to the next set. -/
theorem State.retireSet_done {s : State} {c : Fin 32} {st : DriftSet} (hset : (s.chan c).set = some st) (n : Nat) :
    s.retireSet c (n + 1) =
      if st.cur < st.descs.length || (s.chan c).halting || (s.chan c).stopping || (s.chan c).state != 1 then s
      else match st.failCode with
        | some k => (s.setDone c st).endChain c k (st.first + st.descs.length)
        | none =>
          if st.chainEnd then
            if Config.rearm (s.setDone c st).cfg && (s.chan c).persist then
              ((s.setDone c st).modCh c fun y =>
                { y with state := 4, set := none, cached := some { descs := st.descs } }).driftEvent c
            else (s.setDone c st).endChain c (if (s.chan c).marked then 3 else 2) 0
          else (((s.setDone c st).modCh c fun y =>
            { y with set := y.next, next := none
                     halting := y.next.isNone && y.fetchFail.isSome }).askFetch c).retireSet c n := by
  simp only [State.retireSet, hset]
  rfl

/-- The descriptors of a running channel's set are done, and the set is the last of a chain that is not kept for another pass;
its access holds whole words and no line in transfer. -/
structure State.LastSet (s : State) (c : Fin 32) (st : DriftSet) : Prop where
  running : (s.chan c).state = 1
  halting : (s.chan c).halting = false
  stopping : (s.chan c).stopping = false
  set : (s.chan c).set = some st
  done : st.descs.length ≤ st.cur
  passed : st.failCode = none
  last : st.chainEnd = true
  once : Config.rearm s.cfg = false ∨ (s.chan c).persist = false
  whole : ∀ id, st.sb = some id → s.morDone id = true ∧ s.firnWhole id

/-- The last set of a chain ends the chain. -/
theorem State.LastSet.retireSet {s : State} {c : Fin 32} {st : DriftSet} (h : s.LastSet c st) (n : Nat) :
    s.retireSet c (n + 1) = (s.setDone c st).endChain c (if (s.chan c).marked then 3 else 2) 0 := by
  have hkeep : (Config.rearm s.cfg && (s.chan c).persist) = false := by
    rcases h.once with h | h <;> simp [h]
  have hcfg : (s.setDone c st).cfg = s.cfg := by
    obtain ⟨obs, ice, vr, vc, harts, hdone, -⟩ := State.setDone_whole (c := c) h.whole
    rw [hdone]
    rfl
  have hgo : (decide (st.cur < st.descs.length) || (s.chan c).halting || (s.chan c).stopping ||
      (s.chan c).state != 1) = false := by
    simp [Nat.not_lt.mpr h.done, h.halting, h.stopping, h.running]
  rw [State.retireSet_done h.set, hgo, h.passed, h.last, hcfg, hkeep]
  rfl

/-- A set whose descriptors are done has none in progress. -/
theorem State.LastSet.current {s : State} {c : Fin 32} {st : DriftSet} (h : s.LastSet c st) : s.current c = none := by
  by_contra hne
  obtain ⟨⟨st', d⟩, hc⟩ := Option.ne_none_iff_exists'.mp hne
  obtain ⟨-, -, -, hst, -, hd⟩ := State.current_eq_some.mp hc
  obtain rfl := Option.some.inj (h.set.symm.trans hst)
  rw [List.getElem?_eq_none h.done] at hd
  exact absurd hd nofun

/-! ## A descriptor that waits for lines (R355) -/

/-- Whether a step that moves words happens does not depend on what it does. -/
theorem State.withFirn_isNone (s : State) (acc : Nat) (who : Requester) (d : Desc) (go : State) :
    (s.withFirn acc who d go).isNone =
      (!(!d.touches || (s.firnFor acc).isSome) && s.ice.firnQ.any fun q => q.acc == acc) := by
  unfold State.withFirn
  split
  next h => rw [h]; rfl
  next h =>
    rw [Bool.eq_false_iff.mpr h]
    split
    next hq => rw [hq]; rfl
    next hq => rw [Bool.eq_false_iff.mpr hq]; rfl

theorem State.mayIssue_of_all_issued {st : DriftSet} {l : List Nat} (h : st.issued = l.length) (s : State) (c : Fin 32) :
    s.mayIssue c st l = 0 := by
  simp [State.mayIssue, h]

/-- Nothing that holds up a descriptor of the channel, but for its lines, differs between two states. -/
structure State.SameWork (s t : State) (c : Fin 32) : Prop where
  ice : t.ice = s.ice
  fb : t.drf.fb = s.drf.fb
  state : (t.chan c).state = (s.chan c).state
  halting : (t.chan c).halting = (s.chan c).halting
  stopping : (t.chan c).stopping = (s.chan c).stopping
  bases : (t.chan c).bases = (s.chan c).bases
  queue : ∀ k, (t.chan k).queue = (s.chan k).queue
  others : ∀ k, k ≠ c → t.chan k = s.chan k

section
variable {s t : State} {c : Fin 32} (h : s.SameWork t c)
include h

theorem State.SameWork.storeHeld (st : DriftSet) (g : List (Nat × LineResult)) (d : Desc) :
    t.storeHeld c { st with got := g } d = s.storeHeld c st d := by
  unfold State.storeHeld
  rw [h.ice]
  refine List.any_congr rfl fun k => ?_
  by_cases hk : k = c
  · simp [hk]
  · rw [h.others k hk]

/-- A descriptor whose lines are all requested and not all there goes on as its words and its access allow. -/
theorem State.SameWork.driveStep_isNone {st : DriftSet} {d : Desc} {l : List Nat} {g : List (Nat × LineResult)}
    (hs : s.current c = some (st, d)) (ht : t.current c = some ({ st with got := g }, d)) (hneed : st.need = some l)
    (hissued : st.issued = l.length) (hs' : (l.all fun a => st.got.any fun g => g.1 == a) = false)
    (ht' : (l.all fun a => g.any fun g => g.1 == a) = false) : (t.driveStep c).isNone = (s.driveStep c).isNone := by
  have hmay : ∀ u : State, u.mayIssue c st l = 0 := fun u => State.mayIssue_of_all_issued hissued u c
  have hmay' : ∀ u : State, u.mayIssue c { st with need := some l, got := g } l = 0 := fun u =>
    State.mayIssue_of_all_issued hissued u c
  have hneeds : ∀ d : Desc, d.needs { st with got := g } = d.needs st := fun _ => rfl
  have hreads : ∀ (d : Desc) (a b : Int), d.iceReads { st with got := g } a b = d.iceReads st a b := fun _ _ _ => rfl
  have hbases : ∀ d, t.descBases c { st with got := g } d = s.descBases c st d := fun d => by
    unfold State.descBases; rw [h.fb]
  have hacc : t.driftAcc { st with got := g } = s.driftAcc st := by unfold State.driftAcc; rw [h.ice]
  have hspans : ∀ d, t.fetchSpans d c = s.fetchSpans d c := fun d => by unfold State.fetchSpans; rw [h.fb]
  have hspanIn : t.spanIn = s.spanIn := by unfold State.spanIn State.floe; rw [h.ice]
  have hreviving : t.reviving = s.reviving := by unfold State.reviving; rw [h.ice]
  have hrev : ∀ d, t.descReviving d c = s.descReviving d c := fun d => by
    unfold State.descReviving; rw [hspans, hspanIn, hreviving]
  have hmelt : ∀ d, t.descMelted d c = s.descMelted d c := fun d => by unfold State.descMelted; rw [hspans, hspanIn]
  have hmor : ∀ ws, t.morWords ws = s.morWords ws := fun ws => by
    have hplace : t.place = s.place := by unfold State.place State.floe; rw [h.ice]
    have hfloe : t.floeOf = s.floeOf := by unfold State.floeOf State.floe; rw [h.ice]
    unfold State.morWords
    rw [hplace, hfloe]
  have hdone : ∀ a, t.morDone a = s.morDone a := fun a => by unfold State.morDone; rw [h.ice]
  have hfirn : ∀ a, t.firnFor a = s.firnFor a := fun a => by unfold State.firnFor; rw [h.ice]
  simp only [State.driveStep, hs, ht, h.bases, h.queue, hbases, hacc, hrev, hmelt, hmor, hdone, hneeds, hreads, h.ice,
    h.storeHeld]
  cases hn : (d.rebase (s.chan c).bases).needs st <;>
    simp only [hneed, hs', ht', hmay, hmay', h.ice, hfirn, apply_ite Option.isNone, State.withFirn_isNone,
      Option.isNone_some, Bool.false_eq_true, if_false, if_true]

/-- A channel that waits for lines waits on while some of them are missing. -/
theorem State.SameWork.driveStep_none {st : DriftSet} {l : List Nat} {g : List (Nat × LineResult)}
    (hset : (s.chan c).set = some st) (hset' : (t.chan c).set = some { st with got := g }) (hneed : st.need = some l)
    (hissued : st.issued = l.length) (hmiss : (l.all fun a => st.got.any fun g => g.1 == a) = false)
    (hmiss' : (l.all fun a => g.any fun g => g.1 == a) = false) (hnone : s.driveStep c = none) : t.driveStep c = none := by
  have hcur : t.current c = (s.current c).map fun q => ({ st with got := g }, q.2) := by
    simp only [State.current, h.state, h.halting, h.stopping, hset, hset', h.ice, apply_ite (Option.map _), Option.map_map,
      Option.map_none]
    rfl
  cases hs : s.current c with
  | none =>
    rw [hs] at hcur
    rw [State.driveStep, hcur]
    rfl
  | some q =>
    obtain ⟨st', d⟩ := q
    obtain ⟨-, -, -, hst, -⟩ := State.current_eq_some.mp hs
    obtain rfl := Option.some.inj (hset.symm.trans hst)
    rw [hs] at hcur
    rw [← Option.isNone_iff_eq_none, h.driveStep_isNone hs hcur hneed hissued hmiss hmiss', hnone]
    rfl

end

/-! ## The lines of the fabric (R355 to R357) -/

theorem exec_fabricReadLine {s : State} (hp : s.powered = true) (c : Fin 32) (addr : BitVec 48) (res : LineResult) :
    exec (.fabricReadLine c addr res) s = .next (s.readLine c addr.toNat res).pruneCycles := congrArg _ (if_pos hp)

theorem exec_fabricWriteResponse {s : State} (hp : s.powered = true) (c : Fin 32) (res : WriteResult) :
    exec (.fabricWriteResponse c res) s = .next (s.writeResponse c res).pruneCycles := congrArg _ (if_pos hp)

/-- A line that has come for a set. -/
def State.lineCame (s : State) (c : Fin 32) (addr : Nat) (res : LineResult) : State :=
  (s.countEvent 0x20 1).modSet c fun t => { t with got := t.got ++ [(addr, res)] }

theorem State.lineCame_chan {s : State} {c : Fin 32} {st : DriftSet} (hset : (s.chan c).set = some st) (addr : Nat)
    (res : LineResult) :
    (s.lineCame c addr res).chan c = { s.chan c with set := some { st with got := st.got ++ [(addr, res)] } } :=
  State.modSet_chan (s := s.countEvent 0x20 1) hset _

/-- A failed line of a channel is recorded, and counts in MARKS. -/
def State.lineMarked (s : State) (c : Fin 32) (k : FabricFault) (rd wr : Nat) : State :=
  (s.fabricFault c.val false k false).markLines c rd wr

/-- A channel waits for a line that its set needs, and for another one besides; every line is requested. -/
structure State.Awaits (s : State) (c : Fin 32) (st : DriftSet) (l : List Nat) (addr : Nat) : Prop where
  set : (s.chan c).set = some st
  need : st.need = some l
  issued : st.issued = l.length
  needed : addr ∈ l
  new : ∀ g ∈ st.got, g.1 ≠ addr
  stays : s.driveStep c = none
  missing : ∃ a ∈ l, a ≠ addr ∧ ∀ g ∈ st.got, g.1 ≠ a

section
variable {s : State} {c : Fin 32} {st : DriftSet} {l : List Nat} {addr : Nat} (h : s.Awaits c st l addr)
include h

/-- A line that comes is there, and its failure halts a format 2 chain or counts (R357, R358). -/
theorem State.Awaits.readLine (res : LineResult) :
    s.readLine c addr res = match res with
      | .ok _ => (s.lineCame c addr res).drive c
      | .fail k =>
        if (s.chan c).version = some 2 then
          ((s.lineCame c addr res).fabricFault c.val false k false).modCh c fun x => { x with halting := true }
        else ((s.lineCame c addr res).lineMarked c k 1 0).drive c := by
  have htake : l.take st.issued = l := by rw [h.issued, List.take_length]
  have hgo : (!l.contains addr || st.got.any fun g => g.1 == addr) = false := by
    simpa [h.needed] using fun a b hg => h.new (a, b) hg
  have hver : ((s.lineCame c addr res).chan c).version = (s.chan c).version := by
    rw [State.lineCame_chan h.set]
  unfold State.readLine
  rw [State.drive_of_none h.stays]
  dsimp only
  rw [h.set]
  dsimp only
  rw [h.need]
  dsimp only
  rw [htake, hgo]
  refine (if_neg Bool.false_ne_true).trans ?_
  cases res with
  | ok ws => rfl
  | fail k =>
    by_cases hv : (s.chan c).version = some 2
    · exact (if_pos (beq_iff_eq.mpr (hver.trans hv))).trans (if_pos hv).symm
    · exact (if_neg fun h => hv (hver.symm.trans (beq_iff_eq.mp h))).trans (if_neg hv).symm

end

/-- A transferred descriptor waits for the answers of its write lines. -/
theorem State.driveStep_writing {s : State} {c : Fin 32} {st : DriftSet} {w : WLine} {l : List WLine}
    (hset : (s.chan c).set = some st) (hw : st.wlines = w :: l) (hperf : st.performed = true) (hidx : st.idxs = [])
    (hfull : ∀ d ∈ st.descs, d.empty = false) : s.driveStep c = none := by
  cases hs : s.current c with
  | none => rw [State.driveStep, hs]
  | some q =>
    obtain ⟨st', d⟩ := q
    obtain ⟨-, -, -, hst, -, hd⟩ := State.current_eq_some.mp hs
    obtain rfl := Option.some.inj (hset.symm.trans hst)
    have hempty : (d.rebase (s.chan c).bases).empty = false := by
      have h : (d.rebase (s.chan c).bases).empty = d.empty := by unfold Desc.rebase; split <;> rfl
      rw [h, hfull d (List.mem_of_getElem? hd)]
    rw [State.driveStep, hs]
    simp only [hempty, hperf, hidx, hw, List.isEmpty_nil, List.isEmpty_cons, Bool.not_true, Bool.and_false,
      Bool.false_and, Bool.false_eq_true, if_false, if_true]

/-- The oldest write line of a set is answered. -/
theorem State.writeResponse_oldest {s : State} {c : Fin 32} {st : DriftSet} {w : WLine} {l : List WLine}
    (hset : (s.chan c).set = some st) (hw : st.wlines = w :: l) (hnone : s.driveStep c = none) :
    s.writeResponse c .ack = (s.modSet c fun t => { t with wlines := l }).drive c ∧
      ∀ k, (s.chan c).version ≠ some 2 → s.writeResponse c (.fail k) =
        ((s.modSet c fun t => { t with wlines := l }).lineMarked c k 0 (if w.poison.isEmpty then 1 else 0)).drive c := by
  have hver : ((s.modSet c fun t => { t with wlines := l }).chan c).version = (s.chan c).version := by
    rw [State.modSet_chan hset]
  unfold State.writeResponse
  rw [State.drive_of_none hnone]
  dsimp only
  rw [hset]
  dsimp only
  rw [hw]
  exact ⟨rfl, fun k hv => if_neg fun h => hv (hver.symm.trans (beq_iff_eq.mp h))⟩

/-- A channel some of whose lines count as failed. -/
def Channel.markedBy (rd wr : Nat) (x : Channel) : Channel :=
  { x with marksRd := min 65535 (x.marksRd + rd), marksWr := min 65535 (x.marksWr + wr)
           marked := x.marked || rd != 0 || wr != 0 }

theorem Channel.markedBy_marksRd (x : Channel) (rd wr : Nat) : (x.markedBy rd wr).marksRd = min 65535 (x.marksRd + rd) := rfl
theorem Channel.markedBy_marksWr (x : Channel) (rd wr : Nat) : (x.markedBy rd wr).marksWr = min 65535 (x.marksWr + wr) := rfl
theorem Channel.markedBy_set (x : Channel) (rd wr : Nat) : (x.markedBy rd wr).set = x.set := rfl

theorem State.lineMarked_chan (s : State) (c : Fin 32) (k : FabricFault) (rd wr : Nat) :
    (s.lineMarked c k rd wr).chan c = (s.chan c).markedBy rd wr := State.modCh_chan (s.fabricFault _ _ _ _) c _

theorem State.lineMarked_words (s : State) (c : Fin 32) (k : FabricFault) (rd wr : Nat) :
    (s.lineMarked c k rd wr).ice = s.ice ∧ (s.lineMarked c k rd wr).tiles = s.tiles := ⟨rfl, rfl⟩

theorem State.lineCame_words (s : State) (c : Fin 32) (addr : Nat) (res : LineResult) :
    (s.lineCame c addr res).ice = s.ice ∧ (s.lineCame c addr res).tiles = s.tiles := ⟨rfl, rfl⟩

theorem State.lineMarked_chan_ne (s : State) {c d : Fin 32} (hd : d ≠ c) (k : FabricFault) (rd wr : Nat) :
    (s.lineMarked c k rd wr).chan d = s.chan d := State.modCh_chan_ne (s.fabricFault _ _ _ _) _ hd

/-- A channel's lines and marks hold up no descriptor but its own. -/
theorem State.SameWork.of_chan {s t : State} {c : Fin 32} {o : Option DriftSet} {rd wr : Nat} {m : Bool}
    (hice : t.ice = s.ice) (hfb : t.drf.fb = s.drf.fb) (hothers : ∀ k, k ≠ c → t.chan k = s.chan k)
    (hchan : t.chan c = { s.chan c with set := o, marksRd := rd, marksWr := wr, marked := m }) : s.SameWork t c where
  ice := hice
  fb := hfb
  state := by rw [hchan]
  halting := by rw [hchan]
  stopping := by rw [hchan]
  bases := by rw [hchan]
  queue := fun k => by
    by_cases hk : k = c
    · rw [hk, hchan]
    · rw [hothers k hk]
  others := hothers

section
variable {s : State} {c : Fin 32} {st : DriftSet} {l : List Nat} {addr : Nat} (h : s.Awaits c st l addr)
include h

/-- While another line is missing, a line that comes starts nothing, and neither does its mark. -/
theorem State.Awaits.drive (res : LineResult) :
    (s.lineCame c addr res).drive c = s.lineCame c addr res ∧
      ∀ k rd wr, ((s.lineCame c addr res).lineMarked c k rd wr).drive c = (s.lineCame c addr res).lineMarked c k rd wr := by
  obtain ⟨a, ha, hne, hnew⟩ := h.missing
  have hbefore : (l.all fun a => st.got.any fun g => g.1 == a) = false :=
    List.all_eq_false.mpr ⟨a, ha, by simpa using fun x hx => hnew (a, x) hx rfl⟩
  have hafter : (l.all fun a => (st.got ++ [(addr, res)]).any fun g => g.1 == a) = false :=
    List.all_eq_false.mpr ⟨a, ha, by simpa using ⟨fun x hx => hnew (a, x) hx rfl, hne.symm⟩⟩
  have hchan := State.lineCame_chan h.set addr res
  have hothers : ∀ d, d ≠ c → (s.lineCame c addr res).chan d = s.chan d := fun d hd =>
    State.modSet_chan_ne (s.countEvent 0x20 1) hd _
  constructor
  · have hsame : s.SameWork (s.lineCame c addr res) c := .of_chan rfl rfl hothers hchan
    exact State.drive_of_none (hsame.driveStep_none h.set (by rw [hchan]) h.need h.issued hbefore hafter h.stays)
  · intro k rd wr
    have hmarked := (s.lineCame c addr res).lineMarked_chan c k rd wr
    have hsame : s.SameWork ((s.lineCame c addr res).lineMarked c k rd wr) c :=
      .of_chan rfl rfl (fun d hd => (State.lineMarked_chan_ne _ hd k rd wr).trans (hothers d hd))
        (by rw [hmarked, hchan]; rfl)
    exact State.drive_of_none
      (hsame.driveStep_none h.set (by rw [hmarked, hchan]; rfl) h.need h.issued hbefore hafter h.stays)

end

/-! ## The answers of a set's lines and its end -/

section
variable {s : State} {c : Fin 32} {st : DriftSet} (hp : s.powered = true) (h : s.LastSet c st)
include hp h

/-- The last set of a chain that serves no order retires. -/
theorem State.LastSet.exec_setRetire (ho : ((s.setDone c st).chan c).order = none) :
    exec (.setRetire c) s =
      .next ((s.setDone c st).endChain c (if (s.chan c).marked then 3 else 2) 0).pruneCycles := by
  have hexec : exec (.setRetire c) s = .next (s.setRetire c).pruneCycles := congrArg _ (if_pos hp)
  have hret : s.setRetire c = (((s.drive c).retireSet c 3).drive c) := if_neg (by rw [hp]; decide)
  obtain ⟨harts, hods, hchain, -⟩ := State.endChain_unordered ho (if (s.chan c).marked then 3 else 2) 0
  rw [hexec, hret, State.drive_of_not_current h.current, h.retireSet, State.drive_of_not_current]
  refine State.current_of_not_running ?_
  rw [hchain]
  have hstate' : (({ (s.setDone c st).modCh c (Channel.endedAs (if (s.chan c).marked then 3 else 2) 0) with
      harts, hods } : State).chan c).state = if (s.chan c).marked then 3 else 2 :=
    congrArg Channel.state (State.modCh_chan (s.setDone c st) c _)
  rw [hstate']
  split <;> decide

/-- What the last set of a chain leaves when it retires. -/
theorem State.LastSet.setRetire (ho : (s.chan c).order = none) :
    ∃ t, exec (.setRetire c) s = .next t ∧ (t.chan c).state = (if (s.chan c).marked then 3 else 2) ∧
      (t.chan c).set = none ∧ (∀ d, d ≠ c → t.chan d = s.chan d) ∧
      t.ice.cells = (match st.sb with | some id => (s.firnFlush id).ice.cells | none => s.ice.cells) ∧
      (∀ id, st.sb = some id → ∀ a ∈ t.ice.sb.alloc, a.id ≠ id) ∧ t.tiles = s.tiles ∧
      (∀ k, (t.hart k).ButEvents ((s.raiseFlags (s.chan c).owner st.flags).hart k)) ∧
      ((s.hart (s.chan c).owner).csr.drw.getLsbD c.val = true → (t.hart (s.chan c).owner).csr.evpend.getLsbD 0 = true) := by
  obtain ⟨obs, ice, vr, vc, harts, hdone, hcells, halloc, hbut⟩ := State.setDone_whole (c := c) h.whole
  have hchan : (s.setDone c st).chan c = { s.chan c with extVr := vr, extVc := vc } := by
    rw [hdone]
    exact State.modCh_chan s c _
  have hothers : ∀ d, d ≠ c → (s.setDone c st).chan d = s.chan d := fun d hd => by
    rw [hdone]
    exact State.modCh_chan_ne s _ hd
  have ho' : ((s.setDone c st).chan c).order = none := by rw [hchan]; exact ho
  have hhart : ∀ k, ((s.setDone c st).hart k).ButEvents ((s.raiseFlags (s.chan c).owner st.flags).hart k) := fun k => by
    rw [hdone]
    exact hbut k
  obtain ⟨harts', hods, hchain, hbut', hbit⟩ := State.endChain_unordered ho' (if (s.chan c).marked then 3 else 2) 0
  have hown : ((s.setDone c st).chan c).owner = (s.chan c).owner := by rw [hchan]
  have hdrw : ((s.setDone c st).hart (s.chan c).owner).csr.drw = (s.hart (s.chan c).owner).csr.drw := by
    rw [(hhart _).drw, State.raiseFlags, State.modHart_hart]
  rw [hown, hdrw] at hbit
  have hend' := State.modCh_chan (s.setDone c st) c (Channel.endedAs (if (s.chan c).marked then 3 else 2) 0)
  have hrest : (s.setDone c st).ice = ice ∧ (s.setDone c st).tiles = s.tiles := by
    rw [hdone]
    exact ⟨rfl, rfl⟩
  obtain ⟨hice, htiles⟩ := hrest
  refine ⟨_, h.exec_setRetire hp ho', ?_⟩
  rw [hchain]
  refine ⟨congrArg Channel.state hend', congrArg Channel.set hend',
    fun d hd => (State.modCh_chan_ne (s.setDone c st) _ hd).trans (hothers d hd),
    (congrArg Icefield.cells hice).trans hcells, ?_, htiles, fun k => (hbut' k).trans (hhart k), hbit⟩
  rw [← hice] at halloc
  exact halloc

end

section
variable {s : State} {c : Fin 32} {addr : BitVec 48} {st : DriftSet} {l : List Nat} (hp : s.powered = true)
  (h : s.Awaits c st l addr.toNat)
include hp h

theorem State.Awaits.fabricReadLine_failed {k : FabricFault} (hv : (s.chan c).version ≠ some 2) :
    ∃ t, exec (.fabricReadLine c addr (.fail k)) s = .next t ∧
      t.chan c = Channel.markedBy 1 0 { s.chan c with set := some { st with got := st.got ++ [(addr.toNat, .fail k)] } } ∧
      t.ice = s.ice ∧ t.tiles = s.tiles := by
  have hline : s.readLine c addr.toNat (.fail k) = (s.lineCame c addr.toNat (.fail k)).lineMarked c k 1 0 :=
    (h.readLine (.fail k)).trans ((if_neg hv).trans ((h.drive (.fail k)).2 k 1 0))
  have hmarked := (s.lineCame c addr.toNat (.fail k)).lineMarked_chan c k 1 0
  rw [State.lineCame_chan h.set] at hmarked
  rw [exec_fabricReadLine hp, hline]
  refine ⟨_, rfl, (State.pruneCycles_chan _ c).trans hmarked, ?_⟩
  rw [State.pruneCycles_ice, State.pruneCycles_tiles, (State.lineMarked_words _ _ _ _ _).1,
    (State.lineMarked_words _ _ _ _ _).2]
  exact s.lineCame_words c addr.toNat (.fail k)

theorem State.Awaits.fabricReadLine_halting {k : FabricFault} (hv : (s.chan c).version = some 2) :
    ∃ t, exec (.fabricReadLine c addr (.fail k)) s = .next t ∧
      t.chan c = { s.chan c with set := some { st with got := st.got ++ [(addr.toNat, .fail k)] }, halting := true } ∧
      t.ice = s.ice ∧ t.tiles = s.tiles := by
  have hline : s.readLine c addr.toNat (.fail k) =
      ((s.lineCame c addr.toNat (.fail k)).fabricFault c.val false k false).modCh c fun x => { x with halting := true } :=
    (h.readLine (.fail k)).trans (if_pos hv)
  have hchan := State.modCh_chan ((s.lineCame c addr.toNat (.fail k)).fabricFault c.val false k false) c fun x =>
    { x with halting := true }
  have hcame : ((s.lineCame c addr.toNat (.fail k)).fabricFault c.val false k false).chan c =
    { s.chan c with set := some { st with got := st.got ++ [(addr.toNat, .fail k)] } } := State.lineCame_chan h.set _ _
  rw [hcame] at hchan
  rw [exec_fabricReadLine hp, hline]
  refine ⟨_, rfl, (State.pruneCycles_chan _ c).trans hchan, ?_⟩
  rw [State.pruneCycles_ice, State.pruneCycles_tiles, State.modCh_ice, State.modCh_tiles]
  exact s.lineCame_words c addr.toNat (.fail k)

end

section
variable {s : State} {c : Fin 32} {st : DriftSet} {w v : WLine} {l : List WLine} (hp : s.powered = true)
  (hset : (s.chan c).set = some st) (hw : st.wlines = w :: v :: l) (hperf : st.performed = true) (hidx : st.idxs = [])
  (hfull : ∀ d ∈ st.descs, d.empty = false)
include hp hset hw hperf hidx hfull

theorem fabricWriteResponse_acked : exec (.fabricWriteResponse c .ack) s =
    .next (s.modSet c fun t => { t with wlines := v :: l }).pruneCycles := by
  obtain ⟨hack, -⟩ := State.writeResponse_oldest hset hw (State.driveStep_writing hset hw hperf hidx hfull)
  have hset' : ((s.modSet c fun t => { t with wlines := v :: l }).chan c).set = some { st with wlines := v :: l } := by
    rw [State.modSet_chan hset]
  rw [exec_fabricWriteResponse hp, hack, State.drive_of_none (State.driveStep_writing hset' rfl hperf hidx hfull)]

theorem fabricWriteResponse_failed (k : FabricFault) (hv : (s.chan c).version ≠ some 2) :
    ∃ t, exec (.fabricWriteResponse c (.fail k)) s = .next t ∧
      t.chan c = Channel.markedBy 0 (if w.poison.isEmpty then 1 else 0)
        { s.chan c with set := some { st with wlines := v :: l } } ∧
      t.ice = s.ice ∧ t.tiles = s.tiles := by
  obtain ⟨-, hfailed⟩ := State.writeResponse_oldest hset hw (State.driveStep_writing hset hw hperf hidx hfull)
  have hmarked := (s.modSet c fun t => { t with wlines := v :: l }).lineMarked_chan c k 0 (if w.poison.isEmpty then 1 else 0)
  rw [State.modSet_chan hset] at hmarked
  have hset' : (((s.modSet c fun t => { t with wlines := v :: l }).lineMarked c k 0
      (if w.poison.isEmpty then 1 else 0)).chan c).set = some { st with wlines := v :: l } := by
    rw [hmarked, Channel.markedBy_set]
  rw [exec_fabricWriteResponse hp, hfailed k hv, State.drive_of_none (State.driveStep_writing hset' rfl hperf hidx hfull)]
  refine ⟨_, rfl, (State.pruneCycles_chan _ c).trans hmarked, ?_⟩
  rw [State.pruneCycles_ice, State.pruneCycles_tiles, (State.lineMarked_words _ _ _ _ _).1,
    (State.lineMarked_words _ _ _ _ _).2]
  exact ⟨rfl, rfl⟩

end

/-- Settles O37, part by part: the retirement of the last set, a read line, and the answer of a write line. -/
theorem setsRetireAndLinesAreAnswered : Obligations.SetsRetireAndLinesAreAnswered := by
  refine ⟨fun c st s hp hstate hhalt hstop hset hcur hfail hend honce ho hfree => ?_,
    fun c addr st l s hp hset hneed hissued hmem hnew hnone hmiss => ⟨fun words => ?_, fun k hv => ?_, fun k hv => ?_⟩,
    fun c st w v l s hp hset hw hperf hidx hfull =>
      ⟨fabricWriteResponse_acked hp hset hw hperf hidx hfull, fun k hv => ?_⟩⟩
  · obtain ⟨t, hexec, hst, hset', hothers, hcells, halloc, htiles, hhart, hbit⟩ := State.LastSet.setRetire hp
      ⟨hstate, hhalt, hstop, hset, hcur, hfail, hend, honce, hfree⟩ ho
    refine ⟨t, hexec, hst, ?_, hset', halloc, hbit, hcells, htiles, hothers, fun h => ?_⟩
    · rw [(hhart _).vflags, State.raiseFlags, State.modHart_hart]
    · rw [(hhart h).x, (hhart h).pc, State.raiseFlags, State.modHart_harts_get]
      split
      next e => rw [e]; exact ⟨rfl, rfl⟩
      next => exact ⟨rfl, rfl⟩
  · have h : s.Awaits c st l addr.toNat := ⟨hset, hneed, hissued, hmem, hnew, hnone, hmiss⟩
    have hline : s.readLine c addr.toNat (.ok words) = s.lineCame c addr.toNat (.ok words) :=
      (h.readLine (.ok words)).trans (h.drive (.ok words)).1
    rw [exec_fabricReadLine hp, hline]
    rfl
  · obtain ⟨t, hexec, hchan, hice, htiles⟩ := State.Awaits.fabricReadLine_failed hp
      ⟨hset, hneed, hissued, hmem, hnew, hnone, hmiss⟩ (k := k) hv
    refine ⟨t, hexec, ?_, ?_, ?_, by rw [hice], htiles⟩
    · rw [hchan, Channel.markedBy_marksRd]
    · rw [hchan, Channel.markedBy]
      simp
    · rw [hchan, Channel.markedBy_set]
  · obtain ⟨t, hexec, hchan, hice, htiles⟩ := State.Awaits.fabricReadLine_halting hp
      ⟨hset, hneed, hissued, hmem, hnew, hnone, hmiss⟩ (k := k) hv
    exact ⟨t, hexec, by rw [hchan], by rw [hchan], by rw [hice], htiles⟩
  · obtain ⟨t, hexec, hchan, hice, htiles⟩ := fabricWriteResponse_failed hp hset hw hperf hidx hfull k hv
    refine ⟨t, hexec, ?_, ?_, by rw [hice], htiles⟩
    · rw [hchan, Channel.markedBy_set]
    · rw [hchan, Channel.markedBy_marksWr]

end Sys2Proof.Machine

/-! # Owners, stops, halts and resumes -/

namespace Sys2Proof.Machine

/-! ## Owners and stops (R319, R360) -/

theorem exec_drfOwn {s : State} {r : Reader} (ha : s.canAct r = true) (c : Fin 32) (h : Hart) :
    exec (.drfOwn r c h) s = .next (s.drfOwn r c h).pruneCycles := congrArg _ (if_pos ha)

theorem exec_drfStop {s : State} {r : Reader} (ha : s.canAct r = true) (c : Fin 32) :
    exec (.drfStop r c) s = .next (s.drfStop r c).pruneCycles := congrArg _ (if_pos (State.canAct_powered ha))

theorem exec_drfResume {s : State} {r : Reader} (ha : s.canAct r = true) (c : BitVec 5) :
    exec (.drfResume r c) s = .next (s.drfResume r c).pruneCycles := congrArg _ (if_pos (State.canAct_powered ha))

/-- A channel that runs, is armed or is halted. -/
def Channel.live (x : Channel) : Bool := x.state == 1 || x.state == 4 || x.state == 5

theorem Channel.live_iff (x : Channel) : x.live = true ↔ x.state = 1 ∨ x.state = 4 ∨ x.state = 5 := by
  simp [Channel.live, or_assoc]

theorem State.ownsCh_of_privileged {s : State} {r : Reader} (h : s.privileged r = true) (c : Fin 32) : s.ownsCh r c = true := by
  rw [State.ownsCh, h, Bool.true_or]

section
variable {s : State} {r : Reader} {c : Fin 32} (hch : c.val < Config.driftCh s.cfg)
include hch

theorem State.drfOwn_present (h : Hart) : s.drfOwn r c h =
    if s.privileged r then (if (s.chan c).live then s.setRstat r 2 else s.modCh c fun x => { x with owner := h })
    else s.setRstat r 5 := by
  simp only [State.drfOwn, State.hasCh, hch, decide_true, Bool.not_true, Bool.false_eq_true, if_false]
  cases s.privileged r <;> rfl

theorem State.drfStop_present (ha : s.canAct r = true) : s.drfStop r c =
    if s.ownsCh r c then s.stopChannel c else s.setRstat r 5 := by
  simp only [State.drfStop, State.hasCh, ha, hch, decide_true, Bool.not_true, Bool.or_false, Bool.false_eq_true, if_false]
  cases s.ownsCh r c <;> rfl

end

theorem State.stopChannel_live {s : State} {c : Fin 32} (h : (s.chan c).live = true) :
    s.stopChannel c = s.modCh c fun x => { x with stopping := true } := by
  have hx : (if (s.chan c).live then { s.chan c with stopping := true } else s.chan c) =
      { s.chan c with stopping := true } := if_pos h
  exact congrArg (fun x => { s with drf := { s.drf with ch := vset s.drf.ch c x } }) hx

/-! ## RESUME (R359) -/

section
variable {s : State} {r : Reader} {c : BitVec 5} (ha : s.canAct r = true) (hch : c.toNat < Config.driftCh s.cfg)
  (ho : s.ownsCh r c.toFin = true)
include ha hch ho

theorem State.drfResume_owned : s.drfResume r c =
    if (s.chan c.toFin).state == 5 && !(s.chan c.toFin).stopping then (s.resumeCh c.toFin).setRstat r 0 else s := by
  simp only [State.drfResume, State.hasCh, ha, hch, ho, decide_true, Bool.not_true, Bool.false_eq_true, if_false]

end

/-- The page requests of a channel are over (R429). -/
def State.pagesOver (s : State) (c : Fin 32) : State :=
  { s with hods := { s.hods with pageReqs := s.hods.pageReqs.filter fun q => q.1 != c } }

/-- The state in which a halted channel goes on. -/
def State.resumed (s : State) (c : Fin 32) : State :=
  (s.modCh c fun x => { x with state := 1, fetchFail := none }).pagesOver c

/-- A halted channel whose set ends its chain runs again, and asks for nothing. -/
theorem State.resumeCh_ended {s : State} {c : Fin 32} {st : DriftSet} (h5 : (s.chan c).state = 5)
    (hset : (s.chan c).set = some st) (hend : st.chainEnd = true) :
    s.resumeCh c = (s.resumed c).drive c := by
  have hset' : ((s.modCh c fun x => { x with state := 1, fetchFail := none }).chan c).set = some st := by
    rw [State.modCh_chan]
    exact hset
  rw [State.resumeCh, if_pos (beq_iff_eq.mpr h5), State.askFetch_of_ended hset' hend]
  rfl

theorem State.firstIssue_congr {s t : State} (h : ∀ k, (t.chan k).outstanding = (s.chan k).outstanding) (l : List Nat) :
    t.firstIssue l = s.firstIssue l := by
  simp only [State.firstIssue, h]

theorem State.resumed_chan (s : State) (c : Fin 32) :
    (s.resumed c).chan c = { s.chan c with state := 1, fetchFail := none } := State.modCh_chan s c _

theorem State.resumed_chan_ne (s : State) {c k : Fin 32} (hk : k ≠ c) : (s.resumed c).chan k = s.chan k :=
  State.modCh_chan_ne s _ hk

theorem State.resumed_rest (s : State) (c : Fin 32) :
    (s.resumed c).ice = s.ice ∧ (s.resumed c).tiles = s.tiles ∧ (s.resumed c).harts = s.harts := ⟨rfl, rfl, rfl⟩

theorem State.resumed_firstIssue (s : State) (c : Fin 32) (l : List Nat) : (s.resumed c).firstIssue l = s.firstIssue l := by
  refine State.firstIssue_congr (fun k => ?_) l
  by_cases hk : k = c
  · rw [hk, State.resumed_chan]
    rfl
  · rw [State.resumed_chan_ne s hk]

/-- A halted load whose words are all at hand goes on at its row: it requests its lines again. -/
theorem State.resumeCh_load {s : State} {c : Fin 32} {st : DriftSet} {d : Desc} {l : List Nat}
    (h5 : (s.chan c).state = 5) (hend : st.chainEnd = true) (hissued : st.issued = 0) (hneed : st.need = none)
    (hgot : st.got = []) (hload : (s.resumed c).LoadGoes c st d)
    (hl : d.readLines st.idxs (rowsFrom st.startRow d.pr) = l) (hne : l ≠ []) :
    s.resumeCh c = (s.resumed c).modSet c fun t => { t with need := some l, issued := s.firstIssue l } := by
  have hset := hload.set
  rw [State.resumed_chan] at hset
  have hdrive := hload.driveN hneed hgot hissued hl hne (n := 128) (by decide)
  rw [State.resumed_firstIssue] at hdrive
  rw [State.resumeCh_ended h5 hset hend]
  exact hdrive

/-! ## The end of a stopped channel (R360) -/

/-- A stopped access whose Firn entry holds nothing to write goes without a trace in Icefield. -/
theorem State.stopAccess_idle {s : State} {a : Nat} (hidle : s.firnIdle a) (hm : s.morDone a = true) :
    ∃ obs ice, (s.firnStop a).endAccess a = { s with obs, ice } ∧ ice.cells = s.ice.cells ∧
      ice.morLines = s.ice.morLines ∧ ice.sb.alloc = s.ice.sb.alloc.filter (fun x => x.id != a) ∧
      s.FirnWithin ({ s with obs, ice } : State) := by
  obtain ⟨obs, ice, hflush, hcells, hmor, hsb, hin⟩ : ∃ obs ice,
      (if Config.stoppedWritten s.freeCtr ((((s.firnFor a).bind fun i => s.ice.firn.get i).bind (·.line)).map (·.2) |>.getD 0)
        then s.firnFlush a else s) = { s with obs, ice } ∧ ice.cells = s.ice.cells ∧ ice.morLines = s.ice.morLines ∧
      ice.sb = s.ice.sb ∧ s.FirnWithin ({ s with obs, ice } : State) := by
    split
    · obtain ⟨obs, cells, wb, firn, h, hin, hcells⟩ := State.firnFlush_whole (State.firnWhole_of_idle hidle)
      exact ⟨obs, _, h, hcells hidle, rfl, rfl, hin⟩
    · exact ⟨s.obs, s.ice, rfl, rfl, rfl, rfl, fun i e he => .inl he⟩
  obtain ⟨firn, q, hdrop, hin'⟩ := ({ s with obs, ice } : State).firnDrop_within a
  have hstop : s.firnStop a = { s with obs, ice := { ice with firn, firnQ := q } } := by
    rw [← hdrop, ← hflush]
    rfl
  have hwithin : s.FirnWithin (s.firnStop a) := by
    rw [hstop]
    exact hin.trans hin'
  have hidle' : (s.firnStop a).firnIdle a := hwithin.idle hidle
  have hmor' : (s.firnStop a).morDone a = true := by
    rw [hstop, State.morDone]
    dsimp only
    rw [hmor]
    exact hm
  obtain ⟨obs', wb, firn', q', md, hend, hin''⟩ := State.endAccess_whole (State.firnWhole_of_idle hidle') hmor'
  obtain ⟨_, _, _, _, hflush', -, hcells'⟩ := State.firnFlush_whole (State.firnWhole_of_idle hidle')
  have hkeep : ((s.firnStop a).firnFlush a).ice.cells = (s.firnStop a).ice.cells := by
    rw [hflush']
    exact hcells' hidle'
  refine ⟨obs', ((s.firnStop a).endAccess a).ice, ?_, ?_, ?_, ?_, ?_⟩
  · rw [hend, hstop]
  · rw [hend]
    dsimp only
    rw [hkeep, hstop]
    exact hcells
  · rw [hend, hstop]
    exact hmor
  · rw [hend, hstop]
    dsimp only
    rw [hsb]
  · exact hwithin.trans hin''

/-- Stopped accesses whose Firn entries hold nothing to write go without a trace in Icefield. -/
theorem State.stopAccesses_idle {l : List Nat} {s : State} (h : ∀ a ∈ l, s.morDone a = true ∧ s.firnIdle a) :
    ∃ obs ice, s.forEach l (fun s a => (s.firnStop a).endAccess a) = { s with obs, ice } ∧ ice.cells = s.ice.cells ∧
      ∀ x ∈ ice.sb.alloc, x ∈ s.ice.sb.alloc ∧ x.id ∉ l := by
  induction l generalizing s with
  | nil => exact ⟨s.obs, s.ice, rfl, rfl, fun x hx => ⟨hx, List.not_mem_nil⟩⟩
  | cons a l ih =>
    obtain ⟨hm, hidle⟩ := h a List.mem_cons_self
    obtain ⟨obs, ice, hstop, hcells, hmor, halloc, hin⟩ := State.stopAccess_idle hidle hm
    obtain ⟨obs', ice', hrest, hcells', halloc'⟩ := ih (s := { s with obs, ice }) fun b hb => by
      obtain ⟨hm', hidle'⟩ := h b (List.mem_cons_of_mem a hb)
      refine ⟨?_, hin.idle hidle'⟩
      rw [State.morDone]
      dsimp only
      rw [hmor]
      exact hm'
    refine ⟨obs', ice', ?_, hcells'.trans hcells, fun x hx => ?_⟩
    · rw [State.forEach, List.foldl_cons, hstop]
      exact hrest
    · obtain ⟨hmem, hnot⟩ := halloc' x hx
      change x ∈ ice.sb.alloc at hmem
      rw [halloc, List.mem_filter] at hmem
      obtain ⟨hmem, hne⟩ := hmem
      exact ⟨hmem, fun hc => (List.mem_cons.mp hc).elim (bne_iff_ne.mp hne) hnot⟩

theorem State.writeWin_nil (s : State) (who : Src) (acc : Nat) : s.writeWin who acc [] = s := by
  have h : ∀ (l : List (Fin 64)), l.foldl (fun s _ => s) s = s := fun l => by
    induction l with
    | nil => rfl
    | cons _ _ ih => exact ih
  exact h (fins 64)

/-- A stopped channel none of whose lines is out, in state STOPPED. -/
def Channel.stopped (x : Channel) : Channel :=
  { x with state := 6, set := none, next := none, cached := none, shadow := none, fetchN := none, fetchSb := none
           fetchFail := none, stopping := false, halting := false }

theorem State.stopAccesses_waiting {s : State} {c : Fin 32} (h : ∀ st, (s.chan c).set = some st → st.need = none) :
    s.stopAccesses c = s.fresh.forEach (s.chan c).accesses fun s a => (s.firnStop a).endAccess a := by
  unfold State.stopAccesses
  dsimp only
  split
  next st hset =>
    have hwords : s.stoppedWords c st = [] := by
      unfold State.stoppedWords
      split
      · rfl
      · exact if_pos (by simp [h st hset])
    rw [hwords, State.writeWin_nil]
  next => rfl

theorem exec_channelStopped {s : State} (hp : s.powered = true) (c : Fin 32) :
    exec (.channelStopped c) s = .next (s.channelStopped c).pruneCycles := congrArg _ (if_pos hp)

/-- A stopped channel none of whose lines is out ends its accesses, enters STOPPED and raises its event. -/
theorem State.channelStopped_drained {s : State} {c : Fin 32} (hstop : (s.chan c).stopping = true)
    (hburst : (s.chan c).burstOut = false)
    (hset : ∀ st, (s.chan c).set = some st → st.wlines = [] ∧ st.need = none ∧ st.issued ≤ st.got.length)
    (hacc : ∀ a ∈ (s.chan c).accesses, s.morDone a = true) :
    s.channelStopped c =
      ((((s.stopAccesses c).modCh c Channel.stopped).pagesOver c).driftEvent c).stoppedOrder c := by
  have hout : (match (s.chan c).set with | some st => !st.drained | none => false) = false := by
    split
    next st h =>
      obtain ⟨hw, -, hgot⟩ := hset st h
      simp [DriftSet.drained, hw, hgot]
    next => rfl
  have hlines : ((s.chan c).accesses.any fun a => !s.morDone a) = false := by
    simpa [List.any_eq_false] using hacc
  have hgo : (!(s.chan c).stopping || (match (s.chan c).set with | some st => !st.drained | none => false) ||
      (s.chan c).burstOut || (s.chan c).accesses.any fun a => !s.morDone a) = false := by
    rw [hstop, hout, hburst, hlines]
    rfl
  exact if_neg (ne_true_of_eq_false hgo)

theorem State.stoppedOrder_none {s : State} {c : Fin 32} (h : (s.chan c).order = none) : s.stoppedOrder c = s := by
  unfold State.stoppedOrder
  rw [h]

/-- What a stopped channel that serves no order leaves, where its accesses hold no words to write. -/
theorem channelStopped_idle {s : State} {c : Fin 32} (hp : s.powered = true) (hstop : (s.chan c).stopping = true)
    (ho : (s.chan c).order = none) (hburst : (s.chan c).burstOut = false)
    (hset : ∀ st, (s.chan c).set = some st → st.wlines = [] ∧ st.need = none ∧ st.issued ≤ st.got.length)
    (hacc : ∀ a ∈ (s.chan c).accesses, s.morDone a = true ∧ s.firnIdle a) :
    ∃ t, exec (.channelStopped c) s = .next t ∧ t.chan c = (s.chan c).stopped ∧
      (∀ id ∈ (s.chan c).accesses, ∀ a ∈ t.ice.sb.alloc, a.id ≠ id) ∧ t.ice.cells = s.ice.cells ∧
      t.tiles = s.tiles ∧
      ((s.hart (s.chan c).owner).csr.drw.getLsbD c.val = true →
        (t.hart (s.chan c).owner).csr.evpend.getLsbD 0 = true) := by
  obtain ⟨obs, ice, hends, hcells, halloc⟩ := State.stopAccesses_idle (s := s.fresh) hacc
  have hstopped : s.stopAccesses c = { s.fresh with obs, ice } :=
    (State.stopAccesses_waiting fun st h => (hset st h).2.1).trans hends
  have hend := State.channelStopped_drained hstop hburst hset fun a ha => (hacc a ha).1
  rw [hstopped] at hend
  have hchan := State.modCh_chan ({ s.fresh with obs, ice } : State) c Channel.stopped
  have hrest : ((({ s.fresh with obs, ice } : State).modCh c Channel.stopped).pagesOver c).ice = ice ∧
      ((({ s.fresh with obs, ice } : State).modCh c Channel.stopped).pagesOver c).tiles = s.tiles ∧
      ((({ s.fresh with obs, ice } : State).modCh c Channel.stopped).pagesOver c).harts = s.harts := ⟨rfl, rfl, rfl⟩
  have hchan' : ((({ s.fresh with obs, ice } : State).modCh c Channel.stopped).pagesOver c).chan c = (s.chan c).stopped := hchan
  generalize (({ s.fresh with obs, ice } : State).modCh c Channel.stopped).pagesOver c = u at hend hchan' hrest
  obtain ⟨hice, htiles, hharts⟩ := hrest
  obtain ⟨harts, hev, -, hbit⟩ := u.driftEvent_harts c
  have hown : (u.chan c).owner = (s.chan c).owner := by rw [hchan']; rfl
  have hhart : u.hart (s.chan c).owner = s.hart (s.chan c).owner :=
    congrArg (fun v : Vector HartState 16 => v.get (s.chan c).owner) hharts
  have horder : (({ u with harts } : State).chan c).order = none := (congrArg Channel.order hchan').trans ho
  rw [hown, hhart] at hbit
  rw [hev, State.stoppedOrder_none horder] at hend
  rw [exec_channelStopped hp, hend]
  refine ⟨_, rfl, hchan', ?_, ?_, htiles, hbit⟩
  · rw [State.pruneCycles_ice]
    exact fun id hid a ha he => (halloc a (by rw [← hice]; exact ha)).2 (he ▸ hid)
  · rw [State.pruneCycles_ice]
    exact (congrArg Icefield.cells hice).trans hcells

/-! ## The halt of a store (R358) -/

theorem exec_channelHalt {s : State} (hp : s.powered = true) (c : Fin 32) :
    exec (.channelHalt c) s = .next (s.channelHalt c).pruneCycles := congrArg _ (if_pos hp)

theorem Desc.rebase_store {d : Desc} (h : d.isStore = true) (b : Bases) :
    (d.rebase b).isStore = true ∧ (d.rebase b).pr = d.pr := by
  unfold Desc.rebase
  split
  · exact ⟨h, rfl⟩
  · exact ⟨h, rfl⟩

/-- A set whose descriptor in progress is to start again at a row. -/
def DriftSet.haltedAt (st : DriftSet) (row : Nat) : DriftSet :=
  { st with startRow := row, need := none, issued := 0, got := [], performed := false, wlines := [], fail := none
            morAsked := false }

/-- A set whose descriptor is a store ends its transfer at a row: its access keeps its scoreboard entries. -/
theorem State.haltSet_store {s : State} {c : Fin 32} {st : DriftSet} {d : Desc} (hd : d.isStore = true)
    (hidle : s.firnIdle (s.driftAcc st)) (row : Nat) :
    ∃ obs ice, s.haltSet c st d row = ({ s with obs, ice } : State).modSet c (·.haltedAt row) ∧
      ice.cells = s.ice.cells ∧ ice.sb = s.ice.sb := by
  have hload : d.isLoad = false := by
    have hdir : d.dir = 1 := by simpa [Desc.isStore] using hd
    simp [Desc.isLoad, hdir]
  have hrows : st.haltRows d row = [] := by simp [DriftSet.haltRows, hload]
  obtain ⟨obs, cells, wb, firn, hflush, -, hcells⟩ := State.firnFlush_whole (State.firnWhole_of_idle hidle)
  obtain ⟨firn', q, hdrop, -⟩ := (s.firnFlush (s.driftAcc st)).firnDrop_within (s.driftAcc st)
  rw [hflush] at hdrop
  have hhalt : s.haltSet c st d row =
      (((s.firnFlush (s.driftAcc st)).firnDrop (s.driftAcc st)).morDrop (s.driftAcc st)).modSet c (·.haltedAt row) := by
    unfold State.haltSet
    rw [hrows]
    rfl
  rw [hflush, hdrop] at hhalt
  exact ⟨obs, _, hhalt, hcells hidle, rfl⟩

/-- A channel that is HALTED. -/
def Channel.haltedAt (desc row : Nat) (cause : BitVec 3) (x : Channel) : Channel :=
  { x with state := 5, halting := false, hcause := cause, posDesc := BitVec.ofNat 12 desc, posRow := BitVec.ofNat 20 row }

/-- A channel that enters HALTED and serves no order raises its event. -/
theorem State.enterHalt_unordered {s : State} {c : Fin 32} (ho : (s.chan c).order = none) (desc row : Nat) (cause : BitVec 3)
    (line : Nat) :
    ∃ harts, s.enterHalt c desc row cause line = { s.modCh c (Channel.haltedAt desc row cause) with harts } ∧
      ((s.hart (s.chan c).owner).csr.drw.getLsbD c.val = true →
        (harts.get (s.chan c).owner).csr.evpend.getLsbD 0 = true) := by
  have hchan := State.modCh_chan s c (Channel.haltedAt desc row cause)
  obtain ⟨harts, hev, -, hbit⟩ := (s.modCh c (Channel.haltedAt desc row cause)).driftEvent_harts c
  rw [hchan] at hbit
  refine ⟨harts, ?_, hbit⟩
  have henter : s.enterHalt c desc row cause line =
      ((s.modCh c (Channel.haltedAt desc row cause)).driftEvent c).haltOrder c line := rfl
  have horder : (({ s.modCh c (Channel.haltedAt desc row cause) with harts } : State).chan c).order = none :=
    (congrArg Channel.order hchan).trans ho
  rw [henter, hev, State.haltOrder]
  simp only [horder]

/-- A store with a failed line ends its transfer at the line's row. -/
theorem State.haltDesc_store {s : State} {c : Fin 32} {st : DriftSet} {d : Desc} {row addr : Nat} {cause : BitVec 3}
    (hstore : d.isStore = true) (hfail : st.fail = some (row, cause, addr)) (hcause : cause ≠ 0) (hrow : row < d.pr) :
    s.haltDesc c st d = (s.haltSet c st d row).enterHalt c (st.first + st.cur) row cause addr := by
  have hload : d.isLoad = false := by
    have hdir : d.dir = 1 := by simpa [Desc.isStore] using hstore
    simp [Desc.isLoad, hdir]
  have hpoint : st.haltPoint d = (row, cause, addr) := by
    simp [DriftSet.haltPoint, hstore, hfail]
  have hrows : st.haltRows d row = [] := by simp [DriftSet.haltRows, hload]
  simp only [State.haltDesc, hpoint, hrows, hcause, List.isEmpty_nil, Bool.not_true, Bool.false_and, Bool.false_eq_true, if_false,
    Nat.not_le.mpr hrow, decide_false, Nat.add_zero]

/-- A running channel is to halt at a row of its store whose line has failed, and nothing that it issued is out. -/
structure State.StoreHalts (s : State) (c : Fin 32) (st : DriftSet) (d : Desc) (row : Nat) (cause : BitVec 3) (addr : Nat) :
    Prop where
  set : (s.chan c).set = some st
  desc : st.descs[st.cur]? = some d
  store : d.isStore = true
  halting : (s.chan c).halting = true
  stopping : (s.chan c).stopping = false
  running : (s.chan c).state = 1
  burst : (s.chan c).burstOut = false
  answered : st.wlines = []
  arrived : st.issued ≤ st.got.length
  fail : st.fail = some (row, cause, addr)
  cause_ne : cause ≠ 0
  inside : row < d.pr
  moraine : s.morDone (s.driftAcc st) = true

section
variable {s : State} {c : Fin 32} {st : DriftSet} {d : Desc} {row addr : Nat} {cause : BitVec 3}
  (h : s.StoreHalts c st d row cause addr)
include h

/-- The channel of a store with a failed line halts at the line's row (R358). -/
theorem State.StoreHalts.channelHalt :
    s.channelHalt c = (s.haltSet c st (d.rebase (s.chan c).bases) row).enterHalt c (st.first + st.cur) row cause addr := by
  obtain ⟨hstore, hpr⟩ := Desc.rebase_store h.store (s.chan c).bases
  have hcur : ¬st.descs.length ≤ st.cur := fun hle => by
    have hd := h.desc
    rw [List.getElem?_eq_none hle] at hd
    exact absurd hd nofun
  have hdrained : st.drained = true := by simp [DriftSet.drained, h.answered, h.arrived]
  rw [← State.haltDesc_store hstore h.fail h.cause_ne (by rw [hpr]; exact h.inside)]
  simp only [State.channelHalt, h.halting, h.stopping, h.running, h.burst, h.set, hcur, h.desc, hdrained, h.moraine, Bool.not_true,
    Bool.or_self, bne_self_eq_false, Bool.false_eq_true, if_false]

/-- What a store with a failed line leaves when its channel halts, where its access holds no words to write. -/
theorem State.StoreHalts.exec_channelHalt (hp : s.powered = true) (ho : (s.chan c).order = none)
    (hidle : s.firnIdle (s.driftAcc st)) :
    ∃ t, exec (.channelHalt c) s = .next t ∧
      t.chan c = Channel.haltedAt (st.first + st.cur) row cause { s.chan c with set := some (st.haltedAt row) } ∧
      ((s.hart (s.chan c).owner).csr.drw.getLsbD c.val = true → (t.hart (s.chan c).owner).csr.evpend.getLsbD 0 = true) ∧
      t.ice.cells = s.ice.cells ∧ t.ice.sb = s.ice.sb ∧ t.tiles = s.tiles := by
  obtain ⟨hstore, -⟩ := Desc.rebase_store h.store (s.chan c).bases
  obtain ⟨obs, ice, hsets, hcells, hsb⟩ := State.haltSet_store (c := c) hstore hidle row
  have hhalts := h.channelHalt
  have hchan := State.modSet_chan (s := { s with obs, ice }) h.set (·.haltedAt row)
  have hrest : (({ s with obs, ice } : State).modSet c (·.haltedAt row)).ice = ice ∧
      (({ s with obs, ice } : State).modSet c (·.haltedAt row)).tiles = s.tiles ∧
      (({ s with obs, ice } : State).modSet c (·.haltedAt row)).harts = s.harts := ⟨rfl, rfl, rfl⟩
  rw [hsets] at hhalts
  generalize ({ s with obs, ice } : State).modSet c (·.haltedAt row) = u at hhalts hchan hrest
  obtain ⟨hice, htiles, hharts⟩ := hrest
  have ho' : (u.chan c).order = none := by rw [hchan]; exact ho
  obtain ⟨harts, henter, hbit⟩ := State.enterHalt_unordered ho' (st.first + st.cur) row cause addr
  have hown : (u.chan c).owner = (s.chan c).owner := by rw [hchan]; rfl
  have hhart : u.hart (s.chan c).owner = s.hart (s.chan c).owner :=
    congrArg (fun v : Vector HartState 16 => v.get (s.chan c).owner) hharts
  have hchan' := State.modCh_chan u c (Channel.haltedAt (st.first + st.cur) row cause)
  rw [hown, hhart] at hbit
  rw [hchan] at hchan'
  rw [Machine.exec_channelHalt hp, hhalts, henter]
  refine ⟨_, rfl, hchan', hbit, ?_, ?_, htiles⟩
  · rw [State.pruneCycles_ice]
    exact (congrArg Icefield.cells hice).trans hcells
  · rw [State.pruneCycles_ice]
    exact (congrArg Icefield.sb hice).trans hsb

end

/-- A halted load goes on at its row. -/
theorem drfResume_load {s : State} {r : Reader} {c : BitVec 5} {st : DriftSet} {d : Desc} {l : List Nat}
    (ha : s.canAct r = true) (hch : c.toNat < Config.driftCh s.cfg) (ho : s.ownsCh r c.toFin = true)
    (h5 : (s.chan c.toFin).state = 5) (hstop : (s.chan c.toFin).stopping = false)
    (hend : st.chainEnd = true) (hissued : st.issued = 0) (hneed : st.need = none)
    (hgot : st.got = []) (hload : (s.resumed c.toFin).LoadGoes c.toFin st d)
    (hl : d.readLines st.idxs (rowsFrom st.startRow d.pr) = l) (hne : l ≠ []) :
    ∃ t, exec (.drfResume r c) s = .next t ∧
      t.chan c.toFin = { s.chan c.toFin with
        state := 1, fetchFail := none
        set := some { st with need := some l, issued := s.firstIssue l } } ∧
      (t.drf.regs.get r).rstat = 0 ∧ (∀ k, k ≠ c.toFin → t.chan k = s.chan k) ∧ t.ice = s.ice ∧ t.tiles = s.tiles ∧
      t.harts = s.harts := by
  have hgo : ((s.chan c.toFin).state == 5 && !(s.chan c.toFin).stopping) = true := by rw [h5, hstop]; rfl
  have hres := State.drfResume_owned ha hch ho
  rw [if_pos hgo, State.resumeCh_load h5 hend hissued hneed hgot hload hl hne] at hres
  have hchan := State.modSet_chan hload.set fun t => { t with need := some l, issued := s.firstIssue l }
  rw [State.resumed_chan] at hchan
  rw [exec_drfResume ha, hres]
  refine ⟨_, rfl, hchan, State.setRstat_rstat _ r 0, fun k hk => ?_, ?_⟩
  · exact (State.modSet_chan_ne (s.resumed c.toFin) hk _).trans (s.resumed_chan_ne hk)
  · rw [State.pruneCycles_ice, State.pruneCycles_tiles, State.pruneCycles_harts, State.setRstat_ice, State.setRstat_tiles,
      State.setRstat_harts, State.modSet_ice, State.modSet_tiles, State.modSet_harts]
    exact s.resumed_rest c.toFin

/-- Settles O34, part by part: owners and stops, RESUME of a load and of a channel that is not halted, the end of a stopped
channel, and the halt of a store. -/
theorem channelsAreOwnedStoppedAndResumed : Obligations.ChannelsAreOwnedStoppedAndResumed := by
  refine ⟨fun r c h s ha hch => ⟨fun hpriv h1 h4 h5 => ?_, fun hpriv hlive => ⟨?_, ?_⟩, fun ho => ⟨?_, ?_⟩⟩,
    fun r c st d id l s ha hch ho h5 hstop hhalt hset hend hissued hmelt hsb hslot hid hd hload hrel hempty hbuf hidx hperf
      hneed hgot hrev hm hl hne => ?_,
    fun r c s ha hch ho h5 => ?_,
    fun c s hp hstop ho hburst hset hacc => ?_,
    fun c st d row addr cause s hp hset hd hstore hhalt hstop h1 hburst hw hfail hcause hrow ho hgot hm hidle => ?_⟩
  · have hlive : (s.chan c).live = false :=
      Bool.eq_false_iff.mpr fun h => ((s.chan c).live_iff.mp h).elim h1 (·.elim h4 h5)
    rw [exec_drfOwn ha, State.drfOwn_present hch, if_pos hpriv, hlive]
    rfl
  · rw [exec_drfOwn ha, State.drfOwn_present hch, if_pos hpriv, if_pos ((s.chan c).live_iff.mpr hlive)]
  · rw [exec_drfStop ha, State.drfStop_present hch ha, if_pos (State.ownsCh_of_privileged hpriv c),
      State.stopChannel_live ((s.chan c).live_iff.mpr hlive)]
  · have hpriv : ¬s.privileged r = true := fun h => by
      rw [State.ownsCh_of_privileged h] at ho
      exact absurd ho (by decide)
    rw [exec_drfOwn ha, State.drfOwn_present hch, if_neg hpriv]
  · rw [exec_drfStop ha, State.drfStop_present hch ha, if_neg (by rw [ho]; decide)]
  · have hload' : (s.resumed c.toFin).LoadGoes c.toFin st d :=
      { current := State.current_eq_some.mpr (by
          rw [State.resumed_chan, (s.resumed_rest c.toFin).1]
          refine ⟨rfl, hhalt, hstop, hset, fun i hi => ?_, hd⟩
          rwa [← Option.some.inj (hsb.symm.trans hi)])
        rel := hrel
        empty := hempty
        buffered := hbuf
        isLoad := hload
        unmoved := hperf
        reviving := hrev
        melted := hmelt
        moraine := by
          have hacc : (s.resumed c.toFin).driftAcc st = id := by simp [State.driftAcc, hslot, hsb]
          rw [hacc]
          exact hm
        indexed := by simp [Desc.indexed, hidx] }
    exact drfResume_load ha hch ho h5 hstop hend hissued hneed hgot hload' hl hne
  · have hres := State.drfResume_owned ha hch ho
    rw [if_neg (by rw [beq_false_of_ne h5]; exact Bool.false_ne_true)] at hres
    rw [exec_drfResume ha, hres]
  · obtain ⟨t, hexec, hchan, halloc, hcells, htiles, hbit⟩ := channelStopped_idle hp hstop ho hburst hset hacc
    refine ⟨t, hexec, ?_, ?_, ?_, ?_, ?_, ?_, halloc, hcells, htiles, hbit⟩ <;> rw [hchan] <;> rfl
  · have h : s.StoreHalts c st d row cause addr :=
      ⟨hset, hd, hstore, hhalt, hstop, h1, hburst, hw, hgot, hfail, hcause, hrow, hm⟩
    obtain ⟨t, hexec, hchan, hbit, hcells, hsb, htiles⟩ := h.exec_channelHalt hp ho hidle
    refine ⟨t, hexec, ?_, ?_, ?_, ?_, ?_, hbit, hcells, hsb, htiles⟩ <;> rw [hchan] <;> rfl

end Sys2Proof.Machine

/-! # What no advance of a channel changes -/

namespace Sys2Proof.Machine

/-! ## The tally of a state -/

/-- The tile registers, and the read lines that each channel has counted as failed (R357): no drift changes them before its set
retires but by counting. -/
structure Tally where
  tiles : Vector Tile 64
  marks : Fin 32 → Nat

def State.tally (s : State) : Tally := { tiles := s.tiles, marks := fun k => (s.chan k).marksRd }

theorem State.tiles_of_tally {s t : State} (h : t.tally = s.tally) : t.tiles = s.tiles := congrArg Tally.tiles h

theorem State.marksRd_of_tally {s t : State} (h : t.tally = s.tally) (k : Fin 32) : (t.chan k).marksRd = (s.chan k).marksRd :=
  congrFun (congrArg Tally.marks h) k

theorem State.tally_of_channels {s t : State} (ht : t.tiles = s.tiles) (hc : ∀ k, (t.chan k).marksRd = (s.chan k).marksRd) :
    t.tally = s.tally := by
  rw [State.tally, State.tally, ht, funext hc]

theorem tally_ite {p : Prop} [Decidable p] {a b : State} {v : Tally} (ha : a.tally = v) (hb : b.tally = v) :
    (if p then a else b).tally = v := by
  split
  · exact ha
  · exact hb

theorem tally_foldl {α : Type} {f : State → α → State} (hf : ∀ u x, (f u x).tally = u.tally) (l : List α) (s : State) :
    (l.foldl f s).tally = s.tally := by
  induction l generalizing s with
  | nil => rfl
  | cons x l ih => exact (ih (f s x)).trans (hf s x)

theorem State.modCh_tally {s : State} {c : Fin 32} {f : Channel → Channel}
    (h : (f (s.chan c)).marksRd = (s.chan c).marksRd) : (s.modCh c f).tally = s.tally :=
  State.tally_of_channels rfl fun k => by
    by_cases hk : k = c
    · rw [hk, State.modCh_chan, h]
    · rw [State.modCh_chan_ne s f hk]

theorem State.modSet_tally (s : State) (c : Fin 32) (f : DriftSet → DriftSet) : (s.modSet c f).tally = s.tally :=
  State.modCh_tally rfl

/-! ## Reports and faults -/

theorem State.postOut_tally (s : State) (h : Fin 3) (ws : List Word) : (s.postOut h ws).tally = s.tally := tally_ite rfl rfl

theorem State.reportNow_tally (s : State) (op : BitVec 8) (ws : List Word) : (s.reportNow op ws).tally = s.tally :=
  State.postOut_tally _ _ _

theorem State.report_tally (s : State) (op : BitVec 8) (ws : List Word) : (s.report op ws).tally = s.tally :=
  tally_ite (s.reportNow_tally op ws) rfl

/-- Stopping the engine's work asks channels to stop, and counts nothing. -/
theorem State.stopWork_tally (s : State) : s.stopWork.tally = s.tally := by
  obtain ⟨ch, nbr, sb, hstop, hget⟩ := s.stopEngines_eq
  obtain ⟨nbr', sb', hclose⟩ := s.stopEngines.closeWindows_portsOnly fun _ => true
  rw [State.stopWork, hclose, hstop]
  refine State.tally_of_channels rfl fun k => ?_
  change (ch.get k).marksRd = _
  rw [hget, Channel.askedToStop]
  split <;> rfl

theorem State.haltAll_tally (s : State) : s.haltAll.tally = s.tally := by
  obtain ⟨harts, h, -⟩ := s.forEach_modHart (fins 16) (fun t => { t with halted := true }) fun _ => rfl
  rw [State.haltAll, h]
  rfl

theorem State.uncorrectable_tally (s : State) (code : BitVec 8) (who : Src) (loc loc2 : Word) :
    (s.uncorrectable code who loc loc2).tally = s.tally := by
  unfold State.uncorrectable
  refine tally_ite rfl ?_
  cases s.err.stat with
  | running => exact (State.stopWork_tally _).trans (State.haltAll_tally _)
  | recovering =>
    dsimp only
    split <;> rfl
  | stopped => exact State.reportNow_tally _ _ _

/-! ## Stored words -/

theorem State.triggerSparing_tally (s : State) (bank row : Nat) : (s.triggerSparing bank row).tally = s.tally :=
  tally_ite rfl (tally_ite (s.report_tally _ _) rfl)

theorem State.countCorrection_tally (s : State) (bank q : Nat) : (s.countCorrection bank q).tally = s.tally :=
  tally_ite (State.triggerSparing_tally _ _ _) rfl

theorem State.readLevel_tally (s : State) (who : Src) (bank q : Nat) : (s.readLevel who bank q).1.tally = s.tally := by
  unfold State.readLevel
  dsimp only
  generalize classify (sget 0 s.ice.cells (s.cellAt bank q)) = found
  cases found with
  | clean | slush | poisoned => rfl
  | single pos v => exact State.countCorrection_tally _ _ _
  | bad => exact State.uncorrectable_tally _ _ _ _ _

theorem State.readPhys_tally (s : State) (who : Src) (p : Nat) (hash : Bool) : (s.readPhys who p hash).1.tally = s.tally :=
  s.readLevel_tally who _ _

theorem State.writeResident_tally (s : State) (f : Fin 64) (w : Nat) (d : Word) (mark : Bool) :
    (s.writeResident f w d mark).tally = s.tally := by
  obtain ⟨cells, wb, h⟩ := s.writeResident_frame f w d mark
  rw [h]
  rfl

theorem State.writeBytes_tally (s : State) (who : Src) (f : Fin 64) (w : Nat) (mask : BitVec 4) (d : Word) (mark : Bool) :
    (s.writeBytes who f w mask d mark).tally = s.tally := by
  refine tally_ite rfl (tally_ite (s.writeResident_tally f w d mark) ?_)
  split
  · exact (State.writeResident_tally _ _ _ _ _).trans (State.readPhys_tally _ _ _ _)
  · rfl

/-! ## The Firn buffer and the Moraine -/

theorem State.firnFlush_tally (s : State) (acc : Nat) : (s.firnFlush acc).tally = s.tally := by
  unfold State.firnFlush
  split
  · rfl
  · split
    · exact tally_foldl (fun u w => u.writeBytes_tally _ _ _ _ _ _) _ _
    · rfl

theorem State.firnOpen_tally (s : State) (acc : Nat) (f : Fin 64) (w : Nat) : (s.firnOpen acc f w).tally = s.tally := by
  unfold State.firnOpen
  split
  · rfl
  · exact tally_ite rfl (s.firnFlush_tally acc)

theorem State.firnRead_tally (s : State) (who : Src) (i : Fin 64) (w p : Nat) (h : Bool) :
    (s.firnRead who i w p h).1.tally = s.tally := by
  unfold State.firnRead
  split
  · rfl
  · dsimp only
    split
    · rfl
    · split
      · rfl
      · exact s.readPhys_tally who p h

theorem State.readWord_tally (s : State) (who : Src) (acc : Nat) (f : Fin 64) (w : Nat) :
    (s.readWord who acc f w).1.tally = s.tally := by
  unfold State.readWord
  split
  · split
    · exact (State.firnRead_tally _ _ _ _ _ _).trans (s.firnOpen_tally acc f w)
    · exact s.readPhys_tally who _ _
  · rfl
  · rfl

theorem State.readWin_tally (s : State) (who : Src) (acc : Nat) (ws : List Nat) : (s.readWin who acc ws).1.tally = s.tally := by
  induction ws generalizing s with
  | nil => rfl
  | cons w ws ih =>
    have hone : (match s.floeOf w with
        | some f => s.readWord who acc f w
        | none => (s, 0, .clean)).1.tally = s.tally := by
      split
      · exact s.readWord_tally who acc _ w
      · rfl
    exact (ih _).trans hone

theorem State.gather_tally (s : State) (who : Src) (acc : Nat) (f : Fin 64) (w : IceWrite) :
    (s.gather who acc f w).tally = s.tally := by
  unfold State.gather
  split
  · exact s.firnOpen_tally acc f w.word
  · exact s.writeBytes_tally who f w.word w.mask w.data w.mark

theorem State.writeWords_tally (s : State) (who : Src) (acc : Nat) (f : Fin 64) (ws : List IceWrite) :
    (s.writeWords who acc f ws).tally = s.tally :=
  tally_foldl (fun u w => u.gather_tally who acc f w) ws s

theorem State.writeWin_tally (s : State) (who : Src) (acc : Nat) (ws : List IceWrite) :
    (s.writeWin who acc ws).tally = s.tally :=
  tally_foldl (fun u f => tally_ite rfl (u.writeWords_tally who acc f _)) _ s

theorem firnGrants_tally (l : List FirnAsk) (s : State) : (firnGrants l s).tally = s.tally := by
  obtain ⟨firn, q, h⟩ := firnGrants_frame l s
  rw [h]
  rfl

theorem State.firnAsk_tally (s : State) (acc : Nat) (who : Requester) : (s.firnAsk acc who).tally = s.tally :=
  tally_ite rfl (firnGrants_tally _ _)

theorem State.firnDrop_tally (s : State) (acc : Nat) : (s.firnDrop acc).tally = s.tally := firnGrants_tally _ _

theorem State.endAccess_tally (s : State) (acc : Nat) : (s.endAccess acc).tally = s.tally := by
  have hdrop : (((s.firnFlush acc).firnDrop acc).morDrop acc).tally = s.tally :=
    (State.firnDrop_tally _ _).trans (s.firnFlush_tally acc)
  unfold State.endAccess
  generalize ((s.firnFlush acc).firnDrop acc).morDrop acc = u at hdrop ⊢
  exact tally_ite hdrop hdrop

theorem State.morReadWin_tally (s : State) (acc : Nat) (ws : List Nat) : (s.morReadWin acc ws).tally = s.tally := by
  unfold State.morReadWin
  refine tally_foldl (fun u f => ?_) _ s
  dsimp only
  split <;> rfl

/-! ## Transfers -/

theorem State.driftFlags_tally (s : State) (c : Fin 32) (d : Desc) (f : FpFlags) : (s.driftFlags c d f).tally = s.tally :=
  tally_ite (s.modSet_tally c _) rfl

theorem State.countBad_tally (s : State) (c : Fin 32) (n : Nat) : (s.countBad c n).tally = s.tally := State.modCh_tally rfl

/-- A count of write lines alone leaves a count of read lines that is within its bound. -/
theorem State.markLines_tally {s : State} {c : Fin 32} (h : (s.chan c).marksRd ≤ 65535) (wr : Nat) :
    (s.markLines c 0 wr).tally = s.tally := State.modCh_tally (Nat.min_eq_right h)

theorem State.doLoad_tally (s : State) (c : Fin 32) (st : DriftSet) (d : Desc) (base : Int) :
    (s.doLoad c st d base).tally = s.tally :=
  (State.modSet_tally _ _ _).trans ((State.writeWin_tally _ _ _ _).trans
    ((State.countBad_tally _ _ _).trans (s.driftFlags_tally c d _)))

theorem State.doCopy_tally (s : State) (c : Fin 32) (st : DriftSet) (d : Desc) (base src : Int) :
    (s.doCopy c st d base src).tally = s.tally := by
  have hread := s.readWin_tally (Src.drift c) (s.driftAcc st) (d.copyReads src)
  unfold State.doCopy
  dsimp only
  generalize s.readWin (Src.drift c) (s.driftAcc st) (d.copyReads src) = q at hread ⊢
  obtain ⟨u, mem⟩ := q
  exact tally_ite hread ((State.modSet_tally _ _ _).trans ((State.writeWin_tally _ _ _ _).trans
    ((u.driftFlags_tally c d _).trans hread)))

theorem State.doIndex_tally (s : State) (c : Fin 32) (st : DriftSet) (d : Desc) (base : Int) :
    (s.doIndex c st d base).tally = s.tally := by
  have hread := s.readWin_tally (Src.drift c) (s.driftAcc st) (d.indexReads base)
  unfold State.doIndex
  dsimp only
  generalize s.readWin (Src.drift c) (s.driftAcc st) (d.indexReads base) = q at hread ⊢
  obtain ⟨u, mem⟩ := q
  exact tally_ite (tally_ite hread ((u.modSet_tally c _).trans hread)) (s.modSet_tally c _)

theorem State.doStore_tally {s : State} {c : Fin 32} (h : (s.chan c).marksRd ≤ 65535) (st : DriftSet) (d : Desc) (base : Int) :
    (s.doStore c st d base).tally = s.tally := by
  have hread := s.readWin_tally (Src.drift c) (s.driftAcc st) (d.storeReads base (rowsFrom st.startRow d.nrow))
  unfold State.doStore
  dsimp only
  generalize s.readWin (Src.drift c) (s.driftAcc st) (d.storeReads base (rowsFrom st.startRow d.nrow)) = q at hread ⊢
  obtain ⟨u, mem⟩ := q
  have hu : (u.chan c).marksRd ≤ 65535 := by rw [State.marksRd_of_tally hread]; exact h
  have hcount (fl : FpFlags) (n : Nat) : ((u.driftFlags c d fl).countBad c n).tally = u.tally :=
    (State.countBad_tally _ c n).trans (u.driftFlags_tally c d fl)
  have hmark (fl : FpFlags) (n w : Nat) : (((u.driftFlags c d fl).countBad c n).markLines c 0 w).tally = s.tally :=
    (State.markLines_tally (by rw [State.marksRd_of_tally (hcount fl n)]; exact hu) w).trans ((hcount fl n).trans hread)
  exact tally_ite hread (tally_ite ((State.modCh_tally rfl).trans ((State.modSet_tally _ c _).trans (hmark _ _ _)))
    ((State.modSet_tally _ c _).trans (hmark _ _ _)))

/-! ## The end of chains -/

theorem State.driftEvent_tally (s : State) (c : Fin 32) : (s.driftEvent c).tally = s.tally := tally_ite rfl rfl

theorem State.noteMarked_tally (s : State) (c : Fin 32) (st : BitVec 4) : (s.noteMarked c st).tally = s.tally := by
  obtain ⟨hods, h⟩ := s.noteMarked_frame c st
  rw [h]
  rfl

theorem State.endOrder_tally (s : State) (o : OpenOrder) (st : BitVec 16) (ws : List Word) :
    (s.endOrder o st ws).tally = s.tally := by
  obtain ⟨hod, outQ, h⟩ := s.endOrder_eq o st ws
  rw [h]
  rfl

/-- A commit of a weight push that is refused ends the push: its drift starts after a commit that is done (R294). -/
theorem State.replyCommit_tally {s : State} {n : Nat} {code : BitVec 4} (hcode : code ∈ [1, 2, 3, 4, 5, 6, 7]) :
    (s.replyCommit (some n) code).tally = s.tally := by
  cases hs : s.err.stat == .recovering with
  | true => simp only [State.replyCommit, hs, if_true]
  | false =>
    cases hp : s.orderOf n with
    | none => simp only [State.replyCommit, hs, hp, Bool.false_eq_true, if_false]
    | some p =>
      rw [State.replyCommit_refused hs hp hcode]
      exact s.endOrder_tally p _ _

theorem State.pushCommit_tally (s : State) (o : OpenOrder) : (s.pushCommit o).tally = s.tally := by
  have hnext : (s.modOrder o.id fun p => { p with phase := p.phase + 1 }).tally = s.tally := rfl
  rw [State.pushCommit_answer]
  generalize s.modOrder o.id (fun p => { p with phase := p.phase + 1 }) = u at hnext ⊢
  rw [← hnext]
  cases hcheck : u.commitCheck o.floe (floeReserved (s.pushWords o)) (FloeEntry.ofWords (s.pushWords o)) with
  | none =>
    obtain ⟨commit, waiting, nextId, h, -⟩ := State.commitFloe_accepted hcheck (Hart.reader 0) (some o.id)
    rw [h]
    rfl
  | some code =>
    rw [State.commitFloe_refused hcheck]
    exact tally_ite rfl (State.replyCommit_tally (s := u.setFstat _ code) (State.commitCheck_code hcheck))

theorem State.retryPush_tally (s : State) : s.retryPush.tally = s.tally := by
  unfold State.retryPush
  refine tally_ite rfl ?_
  split
  · rfl
  · exact s.pushCommit_tally _

theorem State.stageImage_tally (s : State) (o : OpenOrder) : (s.stageImage o).tally = s.tally := rfl

theorem State.chainOrder_tally (s : State) (c : Fin 32) : (s.chainOrder c).tally = s.tally := by
  unfold State.chainOrder
  dsimp only
  split
  · rfl
  · have hgone : (s.modCh c fun x => { x with order := none }).tally = s.tally := State.modCh_tally rfl
    generalize s.modCh c (fun x => { x with order := none }) = u at hgone ⊢
    split
    · exact hgone
    · refine tally_ite ((State.retryPush_tally _).trans hgone) (tally_ite ((u.stageImage_tally _).trans hgone)
        ((u.endOrder_tally _ _ _).trans hgone))

theorem State.endChain_tally (s : State) (c : Fin 32) (st : BitVec 4) (desc : Nat) :
    (s.endChain c st desc).tally = s.tally :=
  (State.chainOrder_tally _ c).trans ((State.noteMarked_tally _ c st).trans ((State.driftEvent_tally _ c).trans
    (State.modCh_tally rfl)))

theorem State.meltChain_tally (s : State) (c : Fin 32) (st : DriftSet) : (s.meltChain c st).tally = s.tally :=
  (State.endChain_tally _ c _ _).trans (tally_foldl (fun u a => u.endAccess_tally a) _ s)

/-! ## Advances -/

theorem State.takeIdx_tally (s : State) (c : Fin 32) (n : Nat) : (s.takeIdx c n).tally = s.tally :=
  (State.modSet_tally _ c _).trans (State.modCh_tally rfl)

theorem State.pushIdx_tally (s : State) (c k : Fin 32) (st : DriftSet) : (s.pushIdx c k st).tally = s.tally :=
  (State.modSet_tally _ c _).trans (State.modCh_tally rfl)

theorem State.nextDesc_tally (s : State) (c : Fin 32) (st : DriftSet) (d : Desc) : (s.nextDesc c st d).tally = s.tally := by
  unfold State.nextDesc
  dsimp only
  refine (State.modSet_tally _ c _).trans ?_
  have hslot : (match st.slot, d.role (s.drf.fb.get d.buf) c with
      | some _, some p => ({ s with drf := { s.drf with fb := vmod s.drf.fb d.buf fun b =>
          if p then { b with head := b.head + 1 } else { b with tail := b.tail + 1 } } } : State)
      | _, _ => s).tally = s.tally := by
    split <;> rfl
  split
  · exact (State.endAccess_tally _ _).trans hslot
  · exact hslot

/-- An advance, if there is one, leaves the tally. -/
def State.Tallied (s : State) (o : Option State) : Prop := ∀ t, o = some t → t.tally = s.tally

theorem State.Tallied.none {s : State} : s.Tallied none := fun _ h => nomatch h

theorem State.Tallied.some {s t : State} (h : t.tally = s.tally) : s.Tallied (some t) := fun _ e => Option.some.inj e ▸ h

theorem State.Tallied.ite {s : State} {p : Prop} [Decidable p] {a b : Option State} (ha : s.Tallied a) (hb : s.Tallied b) :
    s.Tallied (if p then a else b) := by
  split
  · exact ha
  · exact hb

theorem State.withFirn_tallied {s t : State} (h : t.tally = s.tally) (acc : Nat) (who : Requester) (d : Desc) :
    s.Tallied (s.withFirn acc who d t) :=
  .ite (.some h) (.ite .none (.some (s.firnAsk_tally acc who)))

/-- An advance of a channel within its bound leaves the tally. -/
theorem State.driveStep_tallied {s : State} {c : Fin 32} (h : (s.chan c).marksRd ≤ 65535) : s.Tallied (s.driveStep c) := by
  unfold State.driveStep
  split
  · exact .none
  next st d0 _ =>
    dsimp only
    refine .ite (.some (s.nextDesc_tally c st _)) (.ite
      (.ite (.ite (.some (s.pushIdx_tally c _ st)) .none) (.ite (.some (s.nextDesc_tally c st _)) .none))
      (.ite .none (.ite .none (.ite (.some (s.meltChain_tally c st)) (.ite (.ite .none (.some (s.takeIdx_tally c _)))
        (.ite (.some ((State.modSet_tally _ c _).trans (s.morReadWin_tally _ _))) (.ite .none ?_)))))))
    split
    · exact .some (s.modSet_tally c _)
    · exact .ite (State.withFirn_tallied (tally_ite (s.doLoad_tally c st _ _) (s.doIndex_tally c st _ _)) _ _ _)
        (.ite .none (.some (s.modSet_tally c _)))
    · exact .ite (.ite .none (State.withFirn_tallied (State.doStore_tally h st _ _) _ _ _))
        (.ite (State.withFirn_tallied (s.doCopy_tally c st _ _ _) _ _ _)
          (State.withFirn_tallied (s.doIndex_tally c st _ _) _ _ _))

theorem State.driveN_tally {s : State} {c : Fin 32} (h : (s.chan c).marksRd ≤ 65535) (n : Nat) :
    (s.driveN c n).tally = s.tally := by
  induction n generalizing s with
  | zero => rfl
  | succ n ih =>
    cases hstep : s.driveStep c with
    | none => rw [State.driveN_of_none hstep]
    | some t =>
      have ht := State.driveStep_tallied h t hstep
      rw [State.driveN_of_some hstep]
      exact (ih (by rw [State.marksRd_of_tally ht]; exact h)).trans ht

theorem State.drive_tally {s : State} {c : Fin 32} (h : (s.chan c).marksRd ≤ 65535) : (s.drive c).tally = s.tally :=
  State.driveN_tally h 128

/-! ## Sets that come and go -/

theorem State.presentSet_tally (s : State) (c : Fin 32) (st : DriftSet) : (s.presentSet c st).1.tally = s.tally := by
  unfold State.presentSet
  dsimp only
  split <;> rfl

theorem State.askFetch_tally (s : State) (c : Fin 32) : (s.askFetch c).tally = s.tally := by
  unfold State.askFetch
  dsimp only
  have hone : (s.modCh c fun y => { y with fetchN := some (s.chan c).batchLen }).tally = s.tally := State.modCh_tally rfl
  refine tally_ite rfl (tally_ite ((State.modCh_tally rfl).trans hone) hone)

theorem State.setDone_tally (s : State) (c : Fin 32) (st : DriftSet) : (s.setDone c st).tally = s.tally := by
  have hfree : (s.setFreed st).tally = s.tally := by
    unfold State.setFreed
    split
    · exact s.endAccess_tally _
    · rfl
  obtain ⟨vr, vc, hextent⟩ := (s.setFreed st).setExtent_frame c st
  have hextent' : ((s.setFreed st).setExtent c st).tally = s.tally := by
    rw [hextent]
    exact (State.modCh_tally rfl).trans hfree
  exact tally_ite ((State.driftEvent_tally _ c).trans hextent') hextent'

theorem State.retireSet_tally (s : State) (c : Fin 32) (n : Nat) : (s.retireSet c n).tally = s.tally := by
  induction n generalizing s with
  | zero => rfl
  | succ n ih =>
    cases hset : (s.chan c).set with
    | none => simp only [State.retireSet, hset]
    | some st =>
      have hdone := s.setDone_tally c st
      rw [State.retireSet_done hset]
      refine tally_ite rfl ?_
      cases st.failCode with
      | some k => exact (State.endChain_tally _ c _ _).trans hdone
      | none =>
        exact tally_ite (tally_ite ((State.driftEvent_tally _ c).trans ((State.modCh_tally rfl).trans hdone))
          ((State.endChain_tally _ c _ _).trans hdone))
          ((ih _).trans ((State.askFetch_tally _ c).trans ((State.modCh_tally rfl).trans hdone)))

theorem Channel.placed_marksRd (y : Channel) (st : DriftSet) :
    (if y.set.isNone then { y with set := some st } else { y with next := some st }).marksRd = y.marksRd := by
  split <;> rfl

/-- A set that enters a channel within its bound leaves the tally. -/
theorem State.enterSet_tally {s : State} {c : Fin 32} (h : (s.chan c).marksRd ≤ 65535) (ds : List Desc)
    (short : Option (BitVec 4)) : (s.enterSet c ds short).tally = s.tally := by
  have hgo : ∀ (ok : List Desc) (u : State), u.tally = s.tally →
      (if ok.isEmpty then u.retireSet c 2 else u.drive c).tally = s.tally := fun ok u hu =>
    tally_ite ((u.retireSet_tally c 2).trans hu)
      ((State.drive_tally (by rw [State.marksRd_of_tally hu]; exact h)).trans hu)
  unfold State.enterSet
  dsimp only
  exact hgo _ _ ((State.askFetch_tally _ c).trans ((State.modCh_tally (Channel.placed_marksRd _ _)).trans
    ((State.presentSet_tally _ c _).trans (State.modCh_tally rfl))))

end Sys2Proof.Machine

/-! # The arrival of a descriptor set -/

namespace Sys2Proof.Machine

/-! ## What the checks of descriptors read (R324) -/

/-- Nothing that the checks of a channel's descriptors read differs between two states. -/
structure State.SameChecks (s t : State) : Prop where
  cfg : t.cfg = s.cfg
  ice : t.ice = s.ice
  fb : t.drf.fb = s.drf.fb
  vers : t.drf.vers = s.drf.vers
  feeds : ∀ k, (t.chan k).feeds = (s.chan k).feeds

section
variable {s t : State} (h : s.SameChecks t)
include h

theorem State.SameChecks.descCheck (c : Fin 32) {x y : Channel} (hv : y.version = x.version) (hb : y.bases = x.bases)
    (n firstLen : Nat) (p : Bool) (d : Desc) : t.descCheck c y n firstLen p d = s.descCheck c x n firstLen p d := by
  have hspans : ∀ d, t.fetchSpans d c = s.fetchSpans d c := fun d => by unfold State.fetchSpans; rw [h.fb]
  have hslot : ∀ d, t.slotExtent d c = s.slotExtent d c := fun d => by unfold State.slotExtent; rw [h.fb]
  have hspanIn : t.spanIn = s.spanIn := by unfold State.spanIn State.floe; rw [h.ice]
  have hextent : t.spanExtent = s.spanExtent := by unfold State.spanExtent State.floe; rw [h.ice]
  have hver : t.badVersion = s.badVersion := by unfold State.badVersion; rw [h.vers]
  have hcoupling : ∀ d, t.badCoupling c d = s.badCoupling c d := fun d => by simp only [State.badCoupling, h.feeds]
  have hfloe : t.floe = s.floe := by unfold State.floe; rw [h.ice]
  unfold State.descCheck
  dsimp only
  rw [hv, hb, hspans, hslot, hspanIn, hextent, hver, hcoupling, hfloe, h.cfg, h.fb]

theorem State.SameChecks.checkDescs (c : Fin 32) {x y : Channel} (hv : y.version = x.version) (hb : y.bases = x.bases)
    (n firstLen : Nat) (p : Bool) (ds : List Desc) : t.checkDescs c y firstLen n p ds = s.checkDescs c x firstLen n p ds := by
  induction ds generalizing n p x y with
  | nil => rfl
  | cons d ds ih =>
    have hrest : t.checkDescs c { y with version := some d.ver } firstLen (n + 1) (p || d.persist) ds =
        s.checkDescs c { x with version := some d.ver } firstLen (n + 1) (p || d.persist) ds
        := ih (x := { x with version := some d.ver }) (y := { y with version := some d.ver }) rfl hb _ _
    simp only [State.checkDescs, h.descCheck c hv hb, hrest]

end

theorem State.markLines_sameChecks (s : State) (c : Fin 32) (rd wr : Nat) : s.SameChecks (s.markLines c rd wr) where
  cfg := rfl
  ice := rfl
  fb := rfl
  vers := rfl
  feeds := fun k => by
    by_cases hk : k = c
    · rw [hk, State.markLines, State.modCh_chan]
    · rw [State.markLines, State.modCh_chan_ne s _ hk]

theorem State.checkDescs_first_fails {s : State} {c : Fin 32} {x : Channel} {n firstLen : Nat} {p : Bool} {d : Desc}
    {r : List Desc} {code : BitVec 4} (h : s.descCheck c x n firstLen p d = some code) :
    s.checkDescs c x firstLen n p (d :: r) = ([], some code, p) := by
  simp only [State.checkDescs, h]

/-! ## A burst that has come (R323) -/

theorem exec_descriptorSetFetch {s : State} (hp : s.powered = true) (c : Fin 32) (res : FetchResult) :
    exec (.descriptorSetFetch c res) s = .next (s.fetchSet c res).pruneCycles := congrArg _ (if_pos hp)

theorem State.fetchSet_burst {s : State} {c : Fin 32} {ls got : List LineResult} (hp : s.powered = true)
    (h : burstFor c ls got s) : s.fetchSet c (.lines ls) = s.fetchBurst c got := by
  obtain ⟨hstate, hice, hset, hnext, hstop, hhalt, hfail, n, hn, htake⟩ := h
  have hwants : (s.chan c).wantsSet = true := by
    simp [Channel.wantsSet, hstate, hset, hnext, hstop, hhalt, hfail]
  simp only [State.fetchSet, hp, hice, hn, Option.bind_some, htake, hwants, Bool.not_true, Bool.false_eq_true, if_false, if_true]

theorem State.fetchBurst_clean {s : State} {c : Fin 32} {got : List LineResult} (h : failedLines got = []) :
    s.fetchBurst c got = (s.markLines c 0 0).enterSet c (got.map descOf) none := by
  unfold State.fetchBurst
  rw [h]
  dsimp only
  split
  next h' =>
    exfalso
    split at h' <;> exact absurd h' nofun
  next => rfl

/-! ## The set of a burst enters its channel (R323, R324) -/

/-- The number of descriptors of a channel's first set, once it takes a set in. -/
def Channel.lenOf (x : Channel) (ds : List Desc) : Nat := if x.fetched = 0 then ds.length else x.firstLen

/-- A channel whose list has moved on behind a set, but for the set itself. -/
def Channel.taken (x : Channel) (ds ok : List Desc) (p : Bool) (firstLen step : Nat) : Channel :=
  { x with
    version := match x.version with | some v => some v | none => ds.head?.map (·.ver)
    firstLen, persist := p, fetched := x.fetched + ds.length, fetchN := none, feeds := feedsOf x.feeds ok
    listAddr := if x.listIce then (addWord (BitVec.ofNat 32 x.listAddr) (BitVec.ofNat 26 step)).toNat
      else (x.listAddr + step) % 2 ^ 48 }

/-- The state in which a channel has taken a set of chip memory in and is to present its ranges. -/
def State.taken (s : State) (c : Fin 32) (ds ok : List Desc) (p : Bool) : State :=
  (s.countEvent 0x22 1).modCh c (·.taken ds ok p ((s.chan c).lenOf ds) (64 * ds.length))

theorem State.taken_chan (s : State) (c : Fin 32) (ds ok : List Desc) (p : Bool) :
    (s.taken c ds ok p).chan c = (s.chan c).taken ds ok p ((s.chan c).lenOf ds) (64 * ds.length) := State.modCh_chan _ _ _

theorem State.taken_chan_ne (s : State) {c k : Fin 32} (hk : k ≠ c) (ds ok : List Desc) (p : Bool) :
    (s.taken c ds ok p).chan k = s.chan k := State.modCh_chan_ne _ _ hk

/-- Two changes of a channel that make the same of it are the same. -/
theorem State.modCh_congr {s : State} {c : Fin 32} {f g : Channel → Channel} (h : f (s.chan c) = g (s.chan c)) :
    s.modCh c f = s.modCh c g :=
  congrArg (fun x => { s with drf := { s.drf with ch := vset s.drf.ch c x } }) h

/-- Behind a set with a failed descriptor no set is asked for (R324). -/
theorem State.askFetch_of_failed {s : State} {c : Fin 32} {st : DriftSet} {code : BitVec 4} (hset : (s.chan c).set = some st)
    (hfail : st.failCode = some code) : s.askFetch c = s := by
  have hwants : (s.chan c).wantsSet = false := by simp [Channel.wantsSet, hset, hfail]
  simp only [State.askFetch, hwants, Bool.not_false, Bool.true_or, if_true]

/-- A set that has passed its checks, behind its list. -/
def passedSet (first : Nat) (ds : List Desc) : DriftSet :=
  { first, descs := ds, chainEnd := (ds.getLast?.map (·.last)).getD false }

section
variable {s : State} {c : Fin 32} {ds : List Desc} {p : Bool} (hice : (s.chan c).listIce = false)
include hice

theorem State.enterSet_passed (hne : ds ≠ [])
    (hcheck : s.checkDescs c (s.chan c) ((s.chan c).lenOf ds) (s.chan c).fetched (s.chan c).persist ds = (ds, none, p)) :
    s.enterSet c ds none = (s.taken c ds ds p).placeSet c (passedSet (s.chan c).fetched ds) := by
  have hlen : (if (s.chan c).fetched = 0 then ds.length else (s.chan c).firstLen) = (s.chan c).lenOf ds := rfl
  have hfull : ds.isEmpty = false := by simpa using hne
  unfold State.enterSet
  simp only [hlen, hcheck, hice, hfull, Option.isNone_none, Bool.true_and, Bool.false_eq_true, if_false]
  rfl

/-- A set whose first descriptor fails holds no descriptor and asks for no other set. -/
theorem State.enterSet_refused {code : BitVec 4} (hset : (s.chan c).set = none)
    (hcheck : s.checkDescs c (s.chan c) ((s.chan c).lenOf ds) (s.chan c).fetched (s.chan c).persist ds = ([], some code, p)) :
    s.enterSet c ds none = ((s.taken c ds [] p).modCh c fun y =>
      { y with set := some { first := (s.chan c).fetched, failCode := some code } }).retireSet c 2 := by
  have hlen : (if (s.chan c).fetched = 0 then ds.length else (s.chan c).firstLen) = (s.chan c).lenOf ds := rfl
  have hpresent (u : State) (st : DriftSet) (h : st.descs = []) : u.presentSet c st = (u, st) := by
    simp only [State.presentSet, h, State.setRanges_nil, List.isEmpty_nil, if_true]
  have henter : s.enterSet c ds none = (((s.taken c ds [] p).modCh c fun y =>
      if y.set.isNone then { y with set := some { first := (s.chan c).fetched, failCode := some code } }
      else { y with next := some { first := (s.chan c).fetched, failCode := some code } }).askFetch c).retireSet c 2 := by
    unfold State.enterSet
    simp only [hlen, hcheck, hice, hpresent, List.isEmpty_nil, Option.isNone_some, Bool.false_and, Bool.false_eq_true, if_false,
      if_true]
    rfl
  have hset' : ((s.taken c ds [] p).chan c).set = none := by rw [State.taken_chan, Channel.taken, hset]
  rw [henter]
  generalize s.taken c ds [] p = u at hset'
  have hplace := State.modCh_congr (s := u) (c := c)
    (f := fun y => if y.set.isNone then { y with set := some { first := (s.chan c).fetched, failCode := some code } }
      else { y with next := some { first := (s.chan c).fetched, failCode := some code } })
    (g := fun y => { y with set := some { first := (s.chan c).fetched, failCode := some code } })
    (if_pos (Option.isNone_iff_eq_none.mpr hset'))
  have hfailed : ((u.modCh c fun y => { y with set := some { first := (s.chan c).fetched, failCode := some code } }).chan c).set =
      some { first := (s.chan c).fetched, failCode := some code } := by rw [State.modCh_chan]
  rw [hplace, State.askFetch_of_failed hfailed rfl]

end

/-- Of a list in chip memory the next set is asked for without a range. -/
theorem State.askFetch_fabric {s : State} {c : Fin 32} (hice : (s.chan c).listIce = false) :
    ∃ o, s.askFetch c = s.modCh c fun y => { y with fetchN := o } := by
  unfold State.askFetch
  dsimp only
  split
  · exact ⟨(s.chan c).fetchN, (congrArg (fun v => { s with drf := { s.drf with ch := v } })
      (vmod_eq_self s.drf.ch c (fun y => { y with fetchN := (s.chan c).fetchN }) rfl)).symm⟩
  · refine ⟨_, if_neg ?_⟩
    simp [hice]

/-- A channel that holds a set of chip memory, and asks for the next one or not. -/
def Channel.holding (x : Channel) (st : DriftSet) (o : Option Nat) : Channel := { x with set := some st, fetchN := o }

/-- A set of chip memory takes its place; the channel may ask for the next one. -/
theorem State.askFetch_placed {s : State} {c : Fin 32} (hset : (s.chan c).set = none) (hice : (s.chan c).listIce = false)
    (st : DriftSet) :
    ∃ o, (s.modCh c fun y => if y.set.isNone then { y with set := some st } else { y with next := some st }).askFetch c =
      s.modCh c (·.holding st o) := by
  have hplace := State.modCh_congr (s := s) (c := c)
    (f := fun y => if y.set.isNone then { y with set := some st } else { y with next := some st })
    (g := fun y => { y with set := some st }) (if_pos (Option.isNone_iff_eq_none.mpr hset))
  have hice' : ((s.modCh c fun y => { y with set := some st }).chan c).listIce = false := by rw [State.modCh_chan, hice]
  obtain ⟨o, hask⟩ := State.askFetch_fabric hice'
  refine ⟨o, ?_⟩
  rw [hplace, hask]
  exact State.modCh_modCh s c _ _

/-- A set of chip memory that is placed waits for its access. -/
theorem State.placeSet_fabric {s : State} {c : Fin 32} {st : DriftSet} (hset : (s.chan c).set = none)
    (hice : (s.chan c).listIce = false) (hranges : s.setRanges c st.descs ≠ [])
    (hid : ∀ a ∈ s.ice.sb.alloc, a.id ≠ s.ice.sb.nextId) :
    ∃ o, s.placeSet c st = (s.present (.drift c) (s.setRanges c st.descs)).1.modCh c
      (·.holding { st with sb := some s.ice.sb.nextId } o) := by
  have hset' : ((s.present (.drift c) (s.setRanges c st.descs)).1.chan c).set = none := hset
  have hice' : ((s.present (.drift c) (s.setRanges c st.descs)).1.chan c).listIce = false := hice
  have hid' : ∀ a ∈ (s.present (.drift c) (s.setRanges c st.descs)).1.ice.sb.alloc, a.id ≠ s.ice.sb.nextId := hid
  rw [State.placeSet, State.presentSet_ranges hranges]
  dsimp only
  generalize (s.present (.drift c) (s.setRanges c st.descs)).1 = u at hset' hice' hid'
  obtain ⟨o, hask⟩ := State.askFetch_placed hset' hice' { st with sb := some s.ice.sb.nextId }
  refine ⟨o, ?_⟩
  rw [hask]
  have hholds : ((u.modCh c (·.holding { st with sb := some s.ice.sb.nextId } o)).chan c).set =
      some { st with sb := some s.ice.sb.nextId } := by rw [State.modCh_chan, Channel.holding]
  exact State.drive_of_not_current (State.current_of_waiting hholds rfl hid')

/-- The chain of a set whose first descriptor fails ends with the descriptor's code and place. -/
theorem State.retireSet_failed {s : State} {c : Fin 32} {first : Nat} {code : BitVec 4}
    (hset : (s.chan c).set = some { first, failCode := some code }) (hstate : (s.chan c).state = 1)
    (hhalt : (s.chan c).halting = false) (hstop : (s.chan c).stopping = false) (n : Nat) :
    s.retireSet c (n + 1) = s.endChain c code first := by
  simp [State.retireSet, hset, hhalt, hstop, hstate, State.raiseFlags_empty]

/-! ## The failed lines of a burst (R357, R358) -/

/-- Failed lines are recorded in the fault registers alone. -/
theorem State.forEach_fabricFault (s : State) (c : Nat) (bad : List (FabricFault × Nat)) :
    ∃ err, s.forEach bad (fun s q => s.fabricFault c false q.1 false) = { s with err } := by
  induction bad generalizing s with
  | nil => exact ⟨s.err, rfl⟩
  | cons q bad ih => exact ih (s.fabricFault c false q.1 false)

/-- The fault registers after the failed lines of a burst, and nothing else. -/
theorem State.fetchBurst_failed {s : State} {c : Fin 32} {got : List LineResult} {k : FabricFault} {i : Nat}
    {rest : List (FabricFault × Nat)} (h : failedLines got = (k, i) :: rest) :
    ∃ err, s.fetchBurst c got = if (s.chan c).burstVersion got = some 2 then
      ({ s with err } : State).modCh c fun y =>
        { y with fetchN := none, fetchFail := some (faultCause k, (y.listAddr + 64 * i) % 2 ^ 48), halting := true }
      else (({ s with err } : State).markLines c (rest.length + 1) 0).enterSet c (got.map descOf) none := by
  obtain ⟨err, herr⟩ := s.forEach_fabricFault c.val ((k, i) :: rest)
  refine ⟨err, ?_⟩
  unfold State.fetchBurst
  rw [h]
  dsimp only
  rw [herr]
  by_cases hv : (s.chan c).burstVersion got = some 2
  · rw [if_pos hv, if_pos (beq_iff_eq.mpr hv)]
    rfl
  · rw [if_neg hv, if_neg fun h => hv (beq_iff_eq.mp h)]
    rfl

/-- The state in which a channel takes the set of a burst in differs from the one before in the channel's counts of failed lines,
which saturate. -/
structure State.Counted (s m : State) (c : Fin 32) : Prop where
  chan : m.chan c = (s.chan c).markedBy 0 0
  others : ∀ d, d ≠ c → m.chan d = s.chan d
  ice : m.ice = s.ice
  fb : m.drf.fb = s.drf.fb
  harts : m.harts = s.harts
  tiles : m.tiles = s.tiles
  checks : s.SameChecks m

theorem State.markLines_counted (s : State) (c : Fin 32) : s.Counted (s.markLines c 0 0) c where
  chan := State.modCh_chan s c _
  others := fun _ hd => State.modCh_chan_ne s _ hd
  ice := rfl
  fb := rfl
  harts := rfl
  tiles := rfl
  checks := s.markLines_sameChecks c 0 0

section
variable {s m : State} {c : Fin 32} (h : s.Counted m c)
include h

theorem State.Counted.checkDescs (ds : List Desc) :
    m.checkDescs c (m.chan c) ((m.chan c).lenOf ds) (m.chan c).fetched (m.chan c).persist ds =
      s.checkDescs c (s.chan c) ((s.chan c).lenOf ds) (s.chan c).fetched (s.chan c).persist ds := by
  rw [h.chan]
  exact h.checks.checkDescs c (x := s.chan c) (y := (s.chan c).markedBy 0 0) rfl rfl _ _ _ ds

/-- The set of a burst whose descriptors all pass waits for its access. -/
theorem State.Counted.enterSet_passed {ds : List Desc} {p : Bool} (hice : (s.chan c).listIce = false)
    (hset : (s.chan c).set = none) (hne : ds ≠ [])
    (hcheck : s.checkDescs c (s.chan c) ((s.chan c).lenOf ds) (s.chan c).fetched (s.chan c).persist ds = (ds, none, p))
    (hranges : s.setRanges c ds ≠ []) (hid : ∀ a ∈ s.ice.sb.alloc, a.id ≠ s.ice.sb.nextId) :
    ∃ o, m.enterSet c ds none = ((m.taken c ds ds p).present (.drift c) (s.setRanges c ds)).1.modCh c
      (·.holding { passedSet (s.chan c).fetched ds with sb := some s.ice.sb.nextId } o) := by
  have hfetched : (m.chan c).fetched = (s.chan c).fetched := by rw [h.chan]; rfl
  have hchan := m.taken_chan c ds ds p
  have hset' : ((m.taken c ds ds p).chan c).set = none := by
    rw [hchan, Channel.taken, h.chan]
    exact hset
  have hice' : ((m.taken c ds ds p).chan c).listIce = false := by
    rw [hchan, Channel.taken, h.chan]
    exact hice
  have hbases : ((m.taken c ds ds p).chan c).bases = (s.chan c).bases := by
    rw [hchan, Channel.taken, h.chan]
    rfl
  have hranges' : (m.taken c ds ds p).setRanges c ds = s.setRanges c ds := State.setRanges_congr hbases h.fb ds
  have hsb : (m.taken c ds ds p).ice.sb = s.ice.sb := congrArg Icefield.sb h.ice
  have henter := State.enterSet_passed (by rw [h.chan]; exact hice) hne ((h.checkDescs ds).trans hcheck)
  rw [hfetched] at henter
  obtain ⟨o, hplace⟩ := State.placeSet_fabric (st := passedSet (s.chan c).fetched ds) hset' hice'
    (by rw [passedSet, hranges']; exact hranges) (by rw [hsb]; exact hid)
  have hdescs : (passedSet (s.chan c).fetched ds).descs = ds := rfl
  rw [hdescs, hranges', hsb] at hplace
  exact ⟨o, henter.trans hplace⟩

end

/-- What a burst leaves whose descriptors all pass: its set waits for its access, and the list has moved on. -/
theorem descriptorSetFetch_passed {s : State} {c : Fin 32} {ls got : List LineResult} {ds : List Desc} {p : Bool}
    (hp : s.powered = true) (hburst : burstFor c ls got s) (hgood : failedLines got = []) (hds : ds = got.map descOf)
    (hne : ds ≠ [])
    (hcheck : s.checkDescs c (s.chan c) ((s.chan c).lenOf ds) (s.chan c).fetched (s.chan c).persist ds = (ds, none, p))
    (hranges : s.setRanges c ds ≠ []) (hid : ∀ a ∈ s.ice.sb.alloc, a.id ≠ s.ice.sb.nextId) :
    ∃ t o, exec (.descriptorSetFetch c (.lines ls)) s = .next t ∧
      t.chan c = (((s.chan c).markedBy 0 0).taken ds ds p ((s.chan c).lenOf ds) (64 * ds.length)).holding
        { passedSet (s.chan c).fetched ds with sb := some s.ice.sb.nextId } o ∧
      t.ice.sb.alloc = s.ice.sb.alloc ∧
      t.ice.sb.waiting = s.ice.sb.waiting ++ [{ id := s.ice.sb.nextId, who := .drift c, ranges := s.setRanges c ds }] ∧
      (∀ d, d ≠ c → t.chan d = s.chan d) ∧ t.harts = s.harts ∧ t.tiles = s.tiles ∧ t.ice.cells = s.ice.cells := by
  obtain ⟨-, hice, hset, -⟩ := id hburst
  have hfetch := (State.fetchSet_burst hp hburst).trans (State.fetchBurst_clean hgood)
  have hcount := s.markLines_counted c
  rw [← hds] at hfetch
  generalize s.markLines c 0 0 = m at hfetch hcount
  obtain ⟨o, henter⟩ := hcount.enterSet_passed hice hset hne hcheck hranges hid
  have hchan := m.taken_chan c ds ds p
  have hothers : ∀ d, d ≠ c → (m.taken c ds ds p).chan d = s.chan d := fun d hd =>
    (m.taken_chan_ne hd ds ds p).trans (hcount.others d hd)
  have hrest : (m.taken c ds ds p).ice = s.ice ∧ (m.taken c ds ds p).harts = s.harts ∧ (m.taken c ds ds p).tiles = s.tiles :=
    ⟨hcount.ice, hcount.harts, hcount.tiles⟩
  rw [hcount.chan] at hchan
  generalize m.taken c ds ds p = u at henter hchan hothers hrest
  obtain ⟨hice', hharts, htiles⟩ := hrest
  rw [henter] at hfetch
  rw [exec_descriptorSetFetch hp, hfetch]
  have hchan' := State.modCh_chan (u.present (.drift c) (s.setRanges c ds)).1 c
    (·.holding { passedSet (s.chan c).fetched ds with sb := some s.ice.sb.nextId } o)
  have hlen : ((s.chan c).markedBy 0 0).lenOf ds = (s.chan c).lenOf ds := rfl
  have hsame : (u.present (.drift c) (s.setRanges c ds)).1.chan c = u.chan c := rfl
  rw [hsame, hchan, hlen] at hchan'
  have hsb : u.ice.sb = s.ice.sb := congrArg Icefield.sb hice'
  have halloc : u.ice.sb.alloc = s.ice.sb.alloc := congrArg Scoreboard.alloc hsb
  have hwaiting : u.ice.sb.waiting ++ [{ id := u.ice.sb.nextId, who := .drift c, ranges := s.setRanges c ds }] =
    s.ice.sb.waiting ++ [{ id := s.ice.sb.nextId, who := .drift c, ranges := s.setRanges c ds }] := by rw [hsb]
  have hcells : u.ice.cells = s.ice.cells := congrArg Icefield.cells hice'
  refine ⟨_, o, rfl, hchan', halloc, hwaiting, fun d hd => ?_, hharts, htiles, hcells⟩
  · rw [State.pruneCycles_chan]
    exact (State.modCh_chan_ne _ _ hd).trans (hothers d hd)

/-- A channel that holds a set whose first descriptor has failed. -/
def Channel.refusing (x : Channel) (first : Nat) (code : BitVec 4) : Channel :=
  { x with set := some { first, failCode := some code } }

/-- What a burst leaves whose first descriptor fails: the chain has ended with its code and its place. -/
theorem descriptorSetFetch_refused {s : State} {c : Fin 32} {ls got : List LineResult} {d : Desc} {r : List Desc}
    {code : BitVec 4} (hp : s.powered = true) (hburst : burstFor c ls got s) (hgood : failedLines got = [])
    (hds : got.map descOf = d :: r) (ho : (s.chan c).order = none)
    (hcheck : s.descCheck c (s.chan c) (s.chan c).fetched ((s.chan c).lenOf (d :: r)) (s.chan c).persist d = some code) :
    ∃ t x, exec (.descriptorSetFetch c (.lines ls)) s = .next t ∧
      t.chan c = Channel.endedAs code (s.chan c).fetched x ∧ t.ice.cells = s.ice.cells ∧ t.tiles = s.tiles ∧
      ((s.hart (s.chan c).owner).csr.drw.getLsbD c.val = true →
        (t.hart (s.chan c).owner).csr.evpend.getLsbD 0 = true) := by
  obtain ⟨hstate, hice, hset, -, hstop, hhalt, -⟩ := id hburst
  have hfetch := (State.fetchSet_burst hp hburst).trans (State.fetchBurst_clean hgood)
  have hcount := s.markLines_counted c
  rw [hds] at hfetch
  generalize s.markLines c 0 0 = m at hfetch hcount
  have hfetched : (m.chan c).fetched = (s.chan c).fetched := by rw [hcount.chan]; rfl
  have henter := State.enterSet_refused (s := m) (by rw [hcount.chan]; exact hice) (by rw [hcount.chan]; exact hset)
    ((hcount.checkDescs (d :: r)).trans (State.checkDescs_first_fails hcheck))
  rw [hfetched] at henter
  have htaken := m.taken_chan c (d :: r) [] (s.chan c).persist
  have hrest : (m.taken c (d :: r) [] (s.chan c).persist).ice = s.ice ∧
      (m.taken c (d :: r) [] (s.chan c).persist).harts = s.harts ∧
      (m.taken c (d :: r) [] (s.chan c).persist).tiles = s.tiles := ⟨hcount.ice, hcount.harts, hcount.tiles⟩
  rw [hcount.chan] at htaken
  generalize m.taken c (d :: r) [] (s.chan c).persist = u at henter htaken hrest
  obtain ⟨hice', hharts, htiles⟩ := hrest
  have hchan := State.modCh_chan u c (·.refusing (s.chan c).fetched code)
  have hrefusing : (u.modCh c (·.refusing (s.chan c).fetched code)).ice = s.ice ∧
      (u.modCh c (·.refusing (s.chan c).fetched code)).harts = s.harts ∧
      (u.modCh c (·.refusing (s.chan c).fetched code)).tiles = s.tiles := ⟨hice', hharts, htiles⟩
  change m.enterSet c (d :: r) none = (u.modCh c (·.refusing (s.chan c).fetched code)).retireSet c 2 at henter
  rw [htaken] at hchan
  generalize u.modCh c (·.refusing (s.chan c).fetched code) = v at henter hchan hrefusing
  obtain ⟨hice'', hharts', htiles'⟩ := hrefusing
  have hretire := State.retireSet_failed (s := v) (c := c) (first := (s.chan c).fetched) (code := code)
    (by rw [hchan]; rfl) (by rw [hchan]; exact hstate) (by rw [hchan]; exact hhalt) (by rw [hchan]; exact hstop) 1
  obtain ⟨harts, hods, hend, -, hbit⟩ := State.endChain_unordered (s := v) (c := c) (by rw [hchan]; exact ho) code
    (s.chan c).fetched
  have hown : (v.chan c).owner = (s.chan c).owner := by rw [hchan]; rfl
  have hhart : v.hart (s.chan c).owner = s.hart (s.chan c).owner :=
    congrArg (fun w : Vector HartState 16 => w.get (s.chan c).owner) hharts'
  rw [hown, hhart] at hbit
  rw [exec_descriptorSetFetch hp, hfetch, henter, hretire, hend]
  have hcells : v.ice.cells = s.ice.cells := congrArg Icefield.cells hice''
  exact ⟨_, _, rfl, State.modCh_chan v c _, hcells, htiles', hbit⟩

/-- What a burst with a failed line leaves in a format 2 chain (R358). -/
theorem descriptorSetFetch_halts {s : State} {c : Fin 32} {ls got : List LineResult} {k : FabricFault} {i : Nat}
    {rest : List (FabricFault × Nat)} (hp : s.powered = true) (hburst : burstFor c ls got s)
    (hbad : failedLines got = (k, i) :: rest) (hv : (s.chan c).burstVersion got = some 2) :
    ∃ t, exec (.descriptorSetFetch c (.lines ls)) s = .next t ∧
      t.chan c = { s.chan c with fetchN := none, halting := true
                                 fetchFail := some (faultCause k, ((s.chan c).listAddr + 64 * i) % 2 ^ 48) } ∧
      (∀ d, d ≠ c → t.chan d = s.chan d) ∧ t.ice = s.ice ∧ t.harts = s.harts ∧ t.tiles = s.tiles := by
  obtain ⟨err, hfetch⟩ := State.fetchBurst_failed hbad
  rw [if_pos hv] at hfetch
  rw [exec_descriptorSetFetch hp, State.fetchSet_burst hp hburst, hfetch]
  refine ⟨_, rfl, ?_, fun d hd => ?_, ?_, ?_, ?_⟩
  · rw [State.pruneCycles_chan]
    exact State.modCh_chan ({ s with err } : State) c _
  · rw [State.pruneCycles_chan]
    exact State.modCh_chan_ne ({ s with err } : State) _ hd
  · rw [State.pruneCycles_ice, State.modCh_ice]
  · rw [State.pruneCycles_harts, State.modCh_harts]
  · rw [State.pruneCycles_tiles, State.modCh_tiles]

/-- The failed lines of a burst of a format 3 chain count in MARKS, whatever its descriptors do (R357). -/
theorem descriptorSetFetch_counts {s : State} {c : Fin 32} {ls got : List LineResult} {k : FabricFault} {i : Nat}
    {rest : List (FabricFault × Nat)} (hp : s.powered = true) (hburst : burstFor c ls got s)
    (hbad : failedLines got = (k, i) :: rest) (hv : (s.chan c).burstVersion got ≠ some 2) :
    ∃ t, exec (.descriptorSetFetch c (.lines ls)) s = .next t ∧
      (t.chan c).marksRd = min 65535 ((s.chan c).marksRd + (rest.length + 1)) ∧ t.tiles = s.tiles := by
  obtain ⟨err, hfetch⟩ := State.fetchBurst_failed hbad
  rw [if_neg hv] at hfetch
  have hmarks : ((({ s with err } : State).markLines c (rest.length + 1) 0).chan c).marksRd =
      min 65535 ((s.chan c).marksRd + (rest.length + 1)) := by
    rw [State.markLines, State.modCh_chan]
    rfl
  have htiles : (({ s with err } : State).markLines c (rest.length + 1) 0).tiles = s.tiles := rfl
  rw [exec_descriptorSetFetch hp, State.fetchSet_burst hp hburst, hfetch]
  generalize ({ s with err } : State).markLines c (rest.length + 1) 0 = u at hmarks htiles
  have htally := State.enterSet_tally (s := u) (c := c) (by rw [hmarks]; exact Nat.min_le_left _ _) (got.map descOf) none
  refine ⟨_, rfl, ?_, ?_⟩
  · rw [State.pruneCycles_chan, State.marksRd_of_tally htally, hmarks]
  · rw [State.pruneCycles_tiles, State.tiles_of_tally htally, htiles]

/-- A line that has failed reads as a descriptor of zeros (R357). -/
theorem descOf_fail (k : FabricFault) : descOf (.fail k) = Desc.ofWords (List.replicate 16 0) := by
  have hzero : (fun n => ([] : List Word).getD n 0) = fun n => (List.replicate 16 (0 : Word)).getD n 0 := funext fun n => by
    rw [List.getD_eq_getElem?_getD, List.getD_eq_getElem?_getD, List.getElem?_replicate]
    split <;> rfl
  rw [descOf, Desc.ofWords, Desc.ofWords, hzero]

/-- Settles O36, part by part: a burst whose descriptors pass, one whose first descriptor fails, and one with failed lines. -/
theorem descriptorSetsAreCheckedOnArrival : Obligations.DescriptorSetsAreCheckedOnArrival := by
  refine ⟨fun c ls got ds p s hp hburst hgood hds hne hcheck hranges hid => ?_,
    fun c ls got d r code s hp hburst hgood hds ho hcheck hcode => ?_,
    fun c ls got k i rest s hp hburst hbad =>
      ⟨descriptorSetFetch_halts hp hburst hbad, descriptorSetFetch_counts hp hburst hbad, descOf_fail k⟩⟩
  · obtain ⟨t, o, hexec, hchan, halloc, hwaiting, hothers, hharts, htiles, hcells⟩ :=
      descriptorSetFetch_passed hp hburst hgood hds hne hcheck hranges hid
    obtain ⟨hstate, hice, -⟩ := hburst
    refine ⟨t, hexec, ?_, ?_, ?_, ?_, halloc, hwaiting, hothers, hharts, htiles, hcells⟩
    · rw [hchan]
      rfl
    · rw [hchan]
      rfl
    · rw [hchan]
      exact if_neg (ne_true_of_eq_false hice)
    · rw [hchan]
      exact hstate
  · obtain ⟨t, x, hexec, hchan, hcells, htiles, hbit⟩ := descriptorSetFetch_refused hp hburst hgood hds ho hcheck
    refine ⟨t, hexec, ?_, ?_, ?_, hcells, htiles, hbit⟩
    · rw [hchan]
      rfl
    · rw [hchan]
      exact if_pos hcode
    · rw [hchan]
      rfl

end Sys2Proof.Machine

/-! # Ports, windows and the readers' neighbour registers -/

namespace Sys2Proof.Machine

/-! ## One port, one window, one reader -/

@[simp] theorem State.modPort_port (s : State) (p : Fin 4) (f : Port → Port) : (s.modPort p f).port p = f (s.port p) :=
  vmod_get_same _ _ _

theorem State.modPort_port_ne (s : State) {p q : Fin 4} (hq : q ≠ p) (f : Port → Port) : (s.modPort p f).port q = s.port q :=
  vmod_get_ne _ _ hq

@[simp] theorem State.modPort_win (s : State) (p : Fin 4) (f : Port → Port) (w : Fin 64) : (s.modPort p f).win w = s.win w := rfl

@[simp] theorem State.modWin_win (s : State) (w : Fin 64) (f : Window → Window) : (s.modWin w f).win w = f (s.win w) :=
  vmod_get_same _ _ _

theorem State.modWin_win_ne (s : State) {w v : Fin 64} (hv : v ≠ w) (f : Window → Window) : (s.modWin w f).win v = s.win v :=
  vmod_get_ne _ _ hv

@[simp] theorem State.modWin_port (s : State) (w : Fin 64) (f : Window → Window) (p : Fin 4) :
    (s.modWin w f).port p = s.port p := rfl

theorem State.modPort_modPort (s : State) (p : Fin 4) (f g : Port → Port) :
    (s.modPort p f).modPort p g = s.modPort p fun q => g (f q) :=
  congrArg (fun v => { s with nbr := { s.nbr with ports := v } }) (vmod_vmod _ _ _ _)

theorem State.modPort_congr {s : State} {p : Fin 4} {f g : Port → Port} (h : f (s.port p) = g (s.port p)) :
    s.modPort p f = s.modPort p g :=
  congrArg (fun x => { s with nbr := { s.nbr with ports := vset s.nbr.ports p x } }) h

theorem State.modPort_self {s : State} {p : Fin 4} {f : Port → Port} (h : f (s.port p) = s.port p) : s.modPort p f = s :=
  congrArg (fun v => { s with nbr := { s.nbr with ports := v } }) (vmod_eq_self _ _ _ h)

theorem State.up_of_state {s : State} {p : Fin 4} (h : (s.port p).state = .up) : s.up p = true := beq_iff_eq.mpr h

theorem State.linked_of_up {s : State} {p : Fin 4} (h : (s.port p).state = .up) : s.linked p = true := by
  rw [State.linked, State.up_of_state h, Bool.true_or]

theorem State.linked_of_test {s : State} {p : Fin 4} (h : (s.port p).state = .test) : s.linked p = true := by
  rw [State.linked, h, beq_self_eq_true, Bool.or_true]

@[simp] theorem State.setWstat_regs (s : State) (r : Reader) (c : BitVec 4) :
    (s.setWstat r c).nbr.regs.get r = { s.nbr.regs.get r with wstat := c } := vmod_get_same _ _ _

theorem State.setWstat_regs_ne (s : State) {r q : Reader} (hq : q ≠ r) (c : BitVec 4) :
    (s.setWstat r c).nbr.regs.get q = s.nbr.regs.get q := vmod_get_ne _ _ hq

/-! ## Sequenced messages (R373, R389, R390) -/

/-- A port that has sent a sequenced message. -/
def Port.sent (q : Port) (m : NbrMsg) (desc : Option Nat) : Port :=
  { q with txSeq := q.txSeq + 1, unanswered := q.unanswered ++ [{ msg := { m with seq := q.txSeq }, desc }]
           tx := q.tx ++ [{ m with seq := q.txSeq }] }

/-- A message that need not wait goes out at once. -/
theorem State.txSeq_sent {s : State} {p : Fin 4} (h : maySend s p) (m : NbrMsg) (desc : Option Nat) :
    s.txSeq p m desc = s.modPort p fun q => q.sent m desc := by
  obtain ⟨hroom, hwait⟩ := h
  have hgo : ((s.port p).txFull || !(s.port p).txWait.isEmpty) = false := by
    rw [hwait, Port.txFull, decide_eq_false (Nat.not_le.mpr hroom)]
    rfl
  rw [State.txSeq]
  refine (if_neg (ne_true_of_eq_false hgo)).trans ?_
  rw [State.tx, State.modPort_modPort]
  exact State.modPort_congr rfl

/-- Nothing waits behind the limit of R390. -/
theorem State.txDrain_empty {s : State} {p : Fin 4} (h : (s.port p).txWait = []) : s.txDrain p = s := by
  have hself : s.modPort p (fun q => { q with txWait := [] }) = s :=
    State.modPort_self (by rw [← h])
  rw [State.txDrain, h, hself]
  rfl

/-- A descriptor whose messages are all answered completes with its final status (R386, R387). -/
def SendDesc.settled (d : SendDesc) : SendDesc :=
  if (d.phase == .sending || d.phase == .presented) && d.doneSending && d.outstanding == 0 then
    { d with status := d.final, phase := .complete }
  else d

theorem State.settleSends_eq (s : State) (p : Fin 4) :
    s.settleSends p = s.modPort p fun q => { q with sends := q.sends.map SendDesc.settled } := rfl

/-- With no line left to send a port only settles its descriptors. -/
theorem State.pump_idle {s : State} {p : Fin 4} (hwait : (s.port p).txWait = [])
    (h : ∀ d ∈ (s.port p).sends, d.nlines ≤ d.nextLine) : s.pump p = s.settleSends p := by
  have hzero : ((s.port p).sends.map fun d => d.nlines - d.nextLine).sum = 0 := by
    rw [List.sum_eq_zero_iff]
    intro n hn
    obtain ⟨d, hd, rfl⟩ := List.mem_map.mp hn
    exact Nat.sub_eq_zero_of_le (h d hd)
  rw [State.pump, State.txDrain_empty hwait]
  rw [hzero]
  rfl

/-- The next expected number is taken while the receive queue has room (R389). -/
theorem State.takeSeq_next {s : State} {p : Fin 4} {seq : BitVec 16} (hseq : (s.port p).rxSeq = seq)
    (hroom : (s.port p).arrivals.length < 128) (win : Fin 64) (gen : BitVec 16) :
    s.takeSeq p win gen seq = (s.modPort p fun q => { q with rxSeq := seq + 1 }, true) := by
  have hfull : ¬128 ≤ (s.port p).arrivals.length := Nat.not_le.mpr hroom
  have hmod : (s.modPort p fun q => { q with rxSeq := q.rxSeq + 1 }) = s.modPort p fun q => { q with rxSeq := seq + 1 } :=
    State.modPort_congr (by rw [hseq])
  simp only [State.takeSeq, hseq, BitVec.sub_self, hfull, decide_false, Bool.and_false, hmod]
  rfl

/-- The next expected number meets a full receive queue (R389). -/
theorem State.takeSeq_full {s : State} {p : Fin 4} {seq : BitVec 16} (hseq : (s.port p).rxSeq = seq)
    (hfull : 128 ≤ (s.port p).arrivals.length) (win : Fin 64) (gen : BitVec 16) :
    s.takeSeq p win gen seq = (s.sendRefuse p win gen seq .retry, false) := by
  simp [State.takeSeq, hseq, hfull]

/-- A number out of sequence is acknowledged again when it is a duplicate, and dropped otherwise (R389). -/
theorem State.takeSeq_outOfSequence {s : State} {p : Fin 4} {seq : BitVec 16} (hseq : (s.port p).rxSeq ≠ seq) (win : Fin 64)
    (gen : BitVec 16) :
    s.takeSeq p win gen seq = (if ((s.port p).rxSeq - seq).toNat ≤ 32768 then s.sendAck p else s, false) := by
  have hd : (s.port p).rxSeq - seq ≠ 0 := fun h => hseq (sub_eq_zero.mp h)
  simp only [State.takeSeq, hd, decide_false, Bool.false_and, Bool.false_eq_true, if_false]
  split <;> rfl

theorem State.sendAck_eq (s : State) (p : Fin 4) :
    s.sendAck p = s.modPort p fun q => { q with tx := q.tx ++ [{ type := 2, seq := (s.port p).landed }], unacked := 0 } :=
  State.modPort_modPort _ _ _ _

theorem State.sendRefuse_eq (s : State) (p : Fin 4) (win : Fin 64) (gen seq : BitVec 16) (why : Reason) :
    s.sendRefuse p win gen seq why = s.modPort p fun q =>
      { q with tx := q.tx ++ [{ type := 3, win := BitVec.ofNat 6 win.val, gen, seq, reason := reasonBits why }] } := rfl

/-- What has landed moves the numbers that an ACK carries alone (R389). -/
theorem Port.settleAck_frame (q : Port) : ∃ landed ahead, q.settleAck = { q with landed, ahead } := by
  unfold Port.settleAck
  split <;> exact ⟨_, _, rfl⟩

/-- A port on which a sequenced message has landed (R389). -/
def Port.landedNext (q : Port) (seq : BitVec 16) : Port :=
  Port.settleAck { q with unacked := q.unacked + 1, ahead := q.ahead ++ [seq] }

theorem Port.landedNext_frame (q : Port) (seq : BitVec 16) :
    ∃ landed ahead, q.landedNext seq = { q with unacked := q.unacked + 1, landed, ahead } :=
  Port.settleAck_frame _

/-- Before the thirty-second message that is not acknowledged nothing is sent. -/
theorem State.landedOne_quiet {s : State} {p : Fin 4} (h : (s.port p).unacked < 31) (seq : BitVec 16) :
    s.landedOne p seq = s.modPort p fun q => q.landedNext seq := by
  have hquiet : ¬32 ≤ ((s.modPort p fun q => q.landedNext seq).port p).unacked := by
    obtain ⟨landed, ahead, heq⟩ := (s.port p).landedNext_frame seq
    rw [State.modPort_port, heq]
    exact Nat.not_le.mpr (Nat.succ_lt_succ h)
  exact if_neg hquiet

end Sys2Proof.Machine

/-! # Late arrivals, and a port that goes DOWN -/

namespace Sys2Proof.Machine

/-! ## The arrivals that a closing window discards (R378, R381) -/

/-- Discarding arrivals leaves each port its arrivals but for some, answers, and moves the number that an ACK carries. -/
def Port.Discarding (q q' : Port) : Prop :=
  ∃ arrivals tx landed ahead, q' = { q with arrivals, tx, landed, ahead } ∧ arrivals ⊆ q.arrivals

theorem Port.Discarding.refl (q : Port) : q.Discarding q := ⟨q.arrivals, q.tx, q.landed, q.ahead, rfl, fun _ h => h⟩

theorem Port.Discarding.trans {q q' q'' : Port} (h : q.Discarding q') (h' : q'.Discarding q'') : q.Discarding q'' := by
  obtain ⟨_, _, _, _, rfl, hsub⟩ := h
  obtain ⟨arrivals, tx, landed, ahead, rfl, hsub'⟩ := h'
  exact ⟨arrivals, tx, landed, ahead, rfl, fun a ha => hsub (hsub' ha)⟩

/-- What discarding arrivals may change: the ports, the count of late messages and the scoreboard, in which nothing waits
that did not wait before. -/
structure ArrivalsDropped (s t : State) : Prop where
  eq : ∃ ports late sb, t = { s with nbr := { s.nbr with ports, late }, ice := { s.ice with sb } }
  port : ∀ p, (s.port p).Discarding (t.port p)
  waiting : t.ice.sb.waiting ⊆ s.ice.sb.waiting

theorem ArrivalsDropped.refl (s : State) : ArrivalsDropped s s :=
  ⟨⟨_, _, _, rfl⟩, fun _ => .refl _, fun _ h => h⟩

theorem ArrivalsDropped.trans {s t u : State} (h : ArrivalsDropped s t) (h' : ArrivalsDropped t u) : ArrivalsDropped s u where
  eq := by
    obtain ⟨_, _, _, rfl⟩ := h.eq
    obtain ⟨ports, late, sb, rfl⟩ := h'.eq
    exact ⟨ports, late, sb, rfl⟩
  port p := (h.port p).trans (h'.port p)
  waiting _ hx := h.waiting (h'.waiting hx)

theorem ArrivalsDropped.forEach {α : Type} {f : State → α → State} (hf : ∀ u x, ArrivalsDropped u (f u x)) (l : List α)
    (s : State) : ArrivalsDropped s (s.forEach l f) := by
  unfold State.forEach
  induction l generalizing s with
  | nil => exact .refl s
  | cons x l ih => exact (hf s x).trans (ih (f s x))

theorem ArrivalsDropped.modPort (s : State) (p : Fin 4) {f : Port → Port} (hf : (s.port p).Discarding (f (s.port p))) :
    ArrivalsDropped s (s.modPort p f) where
  eq := ⟨_, _, _, rfl⟩
  port q := by
    by_cases hq : q = p
    · rw [hq, State.modPort_port]
      exact hf
    · rw [State.modPort_port_ne s hq]
      exact .refl _
  waiting _ h := h

/-- One arrival is counted late, leaves the scoreboard, and is refused while its port is UP. -/
def State.dropLate (w : Fin 64) (p : Fin 4) (s : State) (a : Arrival) : State :=
  let s := ({ s with nbr := { s.nbr with late := incSat s.nbr.late } } : State).release a.sb
  if s.up p then s.sendRefuse p w (s.win w).gen a.seq .late else s

theorem State.dropLate_dropped (w : Fin 64) (p : Fin 4) (s : State) (a : Arrival) : ArrivalsDropped s (s.dropLate w p a) := by
  have hrel : ArrivalsDropped s (({ s with nbr := { s.nbr with late := incSat s.nbr.late } } : State).release a.sb) :=
    ⟨⟨_, _, _, rfl⟩, fun _ => .refl _, fun _ h => (List.mem_filter.mp h).1⟩
  unfold State.dropLate
  dsimp only
  split
  · exact hrel.trans (.modPort _ p ⟨_, _, _, _, rfl, fun _ h => h⟩)
  · exact hrel

/-- The arrivals of a window at a port that are not allocated. -/
def State.lateAt (s : State) (w : Fin 64) (p : Fin 4) : List Arrival :=
  (s.port p).arrivals.filter fun a => a.win == w && s.ice.sb.waiting.any fun x => x.id == a.sb

/-- The queue of a port without its late arrivals. -/
def State.queueLeft (s : State) (w : Fin 64) (p : Fin 4) : State :=
  s.modPort p fun q => { q with arrivals := q.arrivals.filter fun a => !(s.lateAt w p).contains a }

/-- One port discards the late arrivals of a window. -/
def State.lateAtPort (w : Fin 64) (s : State) (p : Fin 4) : State :=
  ((s.queueLeft w p).forEach (s.lateAt w p) (State.dropLate w p)).settleAck p

theorem State.queueLeft_dropped (s : State) (w : Fin 64) (p : Fin 4) : ArrivalsDropped s (s.queueLeft w p) :=
  .modPort s p ⟨_, _, _, _, rfl, fun _ h => (List.mem_filter.mp h).1⟩

theorem State.settleAck_dropped (s : State) (p : Fin 4) : ArrivalsDropped s (s.settleAck p) := by
  obtain ⟨landed, ahead, h⟩ := (s.port p).settleAck_frame
  exact .modPort s p ⟨_, _, _, _, h, fun _ h => h⟩

theorem State.lateAtPort_dropped (w : Fin 64) (s : State) (p : Fin 4) : ArrivalsDropped s (s.lateAtPort w p) :=
  ((s.queueLeft_dropped w p).trans (.forEach (State.dropLate_dropped w p) _ _)).trans (State.settleAck_dropped _ p)

theorem State.lateArrivals_dropped (s : State) (w : Fin 64) : ArrivalsDropped s (s.lateArrivals w) :=
  .forEach (State.lateAtPort_dropped w) _ s

/-- Every arrival of a window at a port is allocated. -/
def State.AllAllocated (s : State) (w : Fin 64) (p : Fin 4) : Prop :=
  ∀ a ∈ (s.port p).arrivals, a.win = w → (s.ice.sb.waiting.any fun x => x.id == a.sb) = false

theorem ArrivalsDropped.allAllocated {s t : State} (h : ArrivalsDropped s t) {w : Fin 64} {p : Fin 4}
    (hs : s.AllAllocated w p) : t.AllAllocated w p := by
  obtain ⟨_, _, _, _, heq, hsub⟩ := h.port p
  intro a ha hw
  rw [heq] at ha
  rw [List.any_eq_false]
  exact fun x hx => List.any_eq_false.mp (hs a (hsub ha) hw) x (h.waiting hx)

theorem State.queueLeft_allAllocated (s : State) (w : Fin 64) (p : Fin 4) : (s.queueLeft w p).AllAllocated w p := by
  intro a ha hw
  rw [State.queueLeft, State.modPort_port, List.mem_filter] at ha
  obtain ⟨hmem, hleft⟩ := ha
  by_contra hwait
  have hlate : a ∈ s.lateAt w p :=
    List.mem_filter.mpr ⟨hmem, Bool.and_eq_true_iff.mpr ⟨beq_iff_eq.mpr hw, Bool.eq_true_of_not_eq_false hwait⟩⟩
  rw [List.contains_iff_mem.mpr hlate] at hleft
  exact absurd hleft (by decide)

theorem State.lateAtPort_allAllocated (w : Fin 64) (s : State) (p : Fin 4) : (s.lateAtPort w p).AllAllocated w p :=
  ((ArrivalsDropped.forEach (State.dropLate_dropped w p) _ _).trans (State.settleAck_dropped _ p)).allAllocated
    (s.queueLeft_allAllocated w p)

/-- A closing window keeps the arrivals alone that are allocated already (R381). -/
theorem State.lateArrivals_allAllocated (s : State) (w : Fin 64) (p : Fin 4) : (s.lateArrivals w).AllAllocated w p := by
  have hall : ∀ (l : List (Fin 4)) (u : State), p ∈ l → (u.forEach l (State.lateAtPort w)).AllAllocated w p := by
    intro l
    induction l with
    | nil => exact fun u h => absurd h List.not_mem_nil
    | cons q l ih =>
      intro u h
      by_cases hl : p ∈ l
      · exact ih (u.lateAtPort w q) hl
      · obtain rfl := (List.mem_cons.mp h).resolve_right hl
        exact (ArrivalsDropped.forEach (State.lateAtPort_dropped w) l _).allAllocated (u.lateAtPort_allAllocated w p)
  exact hall (fins 4) s (mem_fins p)

/-! ## A port that goes DOWN (R396) -/

/-- A descriptor of a port that goes DOWN. -/
def SendDesc.lost (d : SendDesc) : SendDesc :=
  if d.phase == .complete then d else { d with status := 6, outstanding := 0, phase := .complete }

/-- A port that has gone DOWN. -/
def Port.lost (q : Port) (cause : BitVec 4) : Port :=
  { q with state := .down, ver := 0, cause, unanswered := [], unacked := 0, retryPending := false, txWait := [], ahead := []
           arrivals := q.arrivals.map fun a => { a with stale := true }
           mirror := Vector.replicate 64 {}, sends := q.sends.map SendDesc.lost, echoes := 0 }

/-- A window of a port that goes DOWN closes, without a REVOKE. -/
def State.closeLost (p : Fin 4) (s : State) (w : Fin 64) : State :=
  if (s.win w).isOpen && (s.win w).port == p then
    (s.modWin w fun v => { v with closing := true, silent := true }).lateArrivals w
  else s

theorem State.portDown_eq (s : State) (p : Fin 4) (cause : BitVec 4) :
    s.portDown p cause = ((s.modPort p fun q => q.lost cause).forEach (fins 64) (State.closeLost p)).report 0xC5
      [BitVec.ofNat 32 p.val, cause.setWidth 32] := rfl

/-- A window that a port which goes DOWN leaves. -/
def Window.lost (p : Fin 4) (v : Window) : Window :=
  if v.isOpen = true ∧ v.port = p then { v with closing := true, silent := true } else v

/-- Closing windows with their port touches the windows, the arrivals and the scoreboard alone. -/
structure ClosedWith (p : Fin 4) (l : List (Fin 64)) (s t : State) : Prop where
  eq : ∃ ports windows late sb, t = { s with nbr := { s.nbr with ports, windows, late }, ice := { s.ice with sb } }
  port : ∀ q, (s.port q).Discarding (t.port q)
  win : ∀ w, t.win w = if w ∈ l then (s.win w).lost p else s.win w

theorem ArrivalsDropped.win {s t : State} (h : ArrivalsDropped s t) (w : Fin 64) : t.win w = s.win w := by
  obtain ⟨_, _, _, rfl⟩ := h.eq
  rfl

theorem State.closeLost_closedWith (p : Fin 4) (s : State) (w : Fin 64) : ClosedWith p [w] s (s.closeLost p w) := by
  unfold State.closeLost
  split
  next hc =>
    have hcond : (s.win w).isOpen = true ∧ (s.win w).port = p := by
      rwa [Bool.and_eq_true_iff, beq_iff_eq] at hc
    have hdrop := (s.modWin w fun v => { v with closing := true, silent := true }).lateArrivals_dropped w
    refine ⟨?_, hdrop.port, fun v => ?_⟩
    · obtain ⟨ports, late, sb, heq⟩ := hdrop.eq
      exact ⟨ports, _, late, sb, heq⟩
    · rw [hdrop.win v]
      by_cases hv : v = w
      · rw [hv, State.modWin_win, if_pos List.mem_cons_self, Window.lost, if_pos hcond]
      · rw [State.modWin_win_ne s hv, if_neg fun hm => hv (List.mem_singleton.mp hm)]
  next hc =>
    have hcond : ¬((s.win w).isOpen = true ∧ (s.win w).port = p) := by
      rwa [Bool.and_eq_true_iff, beq_iff_eq] at hc
    refine ⟨⟨_, _, _, _, rfl⟩, fun q => .refl _, fun v => ?_⟩
    by_cases hv : v = w
    · rw [hv, Window.lost, if_neg hcond, ite_self]
    · rw [if_neg fun hm => hv (List.mem_singleton.mp hm)]

theorem ClosedWith.trans {p : Fin 4} {l m : List (Fin 64)} {s t u : State} (h : ClosedWith p l s t) (h' : ClosedWith p m t u)
    (hlm : ∀ w ∈ l, w ∉ m) : ClosedWith p (l ++ m) s u where
  eq := by
    obtain ⟨_, _, _, _, rfl⟩ := h.eq
    obtain ⟨ports, windows, late, sb, rfl⟩ := h'.eq
    exact ⟨ports, windows, late, sb, rfl⟩
  port q := (h.port q).trans (h'.port q)
  win w := by
    rw [h'.win w, h.win w]
    by_cases hl : w ∈ l
    · rw [if_neg (hlm w hl), if_pos hl, if_pos (List.mem_append_left m hl)]
    · simp only [List.mem_append, hl, if_false, false_or]

theorem State.forEach_closeLost (p : Fin 4) {l : List (Fin 64)} (hl : l.Nodup) (s : State) :
    ClosedWith p l s (s.forEach l (State.closeLost p)) := by
  unfold State.forEach
  induction l generalizing s with
  | nil => exact ⟨⟨_, _, _, _, rfl⟩, fun q => .refl _, fun w => rfl⟩
  | cons w l ih =>
    obtain ⟨hw, hl⟩ := List.nodup_cons.mp hl
    exact (s.closeLost_closedWith p w).trans (ih hl (s.closeLost p w)) fun v hv => List.mem_singleton.mp hv ▸ hw

/-- A report changes the hods and what is held for READY alone. -/
theorem State.report_nbr (s : State) (op : BitVec 8) (ws : List Word) :
    (s.report op ws).nbr = s.nbr ∧ (s.report op ws).ice = s.ice ∧ (s.report op ws).harts = s.harts ∧
      (s.report op ws).tiles = s.tiles := by
  obtain ⟨hod, outQ, seq, held, h⟩ := s.report_eq op ws
  rw [h]
  exact ⟨rfl, rfl, rfl, rfl⟩

theorem State.portDown_lostPort (s : State) (p : Fin 4) (cause : BitVec 4) : lostPort p cause s (s.portDown p cause) := by
  have hclosed := (s.modPort p fun q => q.lost cause).forEach_closeLost p (fins_nodup 64)
  rw [State.portDown_eq]
  generalize (s.modPort p fun q => q.lost cause).forEach (fins 64) (State.closeLost p) = u at hclosed
  obtain ⟨hnbr, hice, hharts, htiles⟩ := u.report_nbr 0xC5 [BitVec.ofNat 32 p.val, cause.setWidth 32]
  generalize u.report 0xC5 [BitVec.ofNat 32 p.val, cause.setWidth 32] = t at hnbr hice hharts htiles
  have hport : ∀ q, t.port q = u.port q := fun q => congrArg (fun n : Neighbours => n.ports.get q) hnbr
  have hwin : ∀ w, t.win w = u.win w := fun w => congrArg (fun n : Neighbours => n.windows.get w) hnbr
  obtain ⟨_, _, _, _, heq⟩ := hclosed.eq
  obtain ⟨_, _, _, _, hp, hsub⟩ := hclosed.port p
  rw [State.modPort_port] at hp hsub
  have hsends : (s.port p).sends.map SendDesc.lost = (s.port p).sends.map (fun d =>
      if d.phase = .complete then d else { d with status := 6, outstanding := 0, phase := .complete }) :=
    List.map_congr_left fun d _ => by
      unfold SendDesc.lost
      simp only [beq_iff_eq]
  refine ⟨?_, ?_, ?_, ?_, fun a ha => ?_, ?_, fun w => ?_, fun q hq => ?_, ?_, ?_, ?_⟩
  · rw [hport, hp]; rfl
  · rw [hport, hp]; rfl
  · rw [hport, hp]; rfl
  · rw [hport, hp]; rfl
  · rw [hport, hp] at ha
    obtain ⟨b, _, rfl⟩ := List.mem_map.mp (hsub ha)
    rfl
  · rw [hport, hp, ← hsends]; rfl
  · rw [hwin, hclosed.win w, if_pos (mem_fins w)]
    rfl
  · obtain ⟨_, _, _, _, hother, -⟩ := hclosed.port q
    rw [State.modPort_port_ne s hq] at hother
    rw [hport, hother]
    exact ⟨rfl, rfl, rfl⟩
  · rw [hice, heq]; rfl
  · rw [hharts, heq]; rfl
  · rw [htiles, heq]; rfl

theorem exec_portSilence {s : State} {p : Fin 4} (hp : s.powered = true) (hup : (s.port p).state = .up) :
    exec (.portSilence p) s = .next (s.portDown p 2) := by
  have hgo : (s.powered && s.up p) = true := by rw [hp, State.up_of_state hup]; rfl
  exact congrArg Host.Outcome.next (if_pos hgo)

theorem State.mayWin_of {s : State} {r : Reader} (ha : s.canAct r = true) (hpr : s.privileged r = true) :
    s.mayWin r = true := by rw [State.mayWin, ha, hpr]; rfl

theorem exec_portDownCmd {s : State} {r : Reader} {p : Fin 4} (hm : s.mayWin r = true) (habs : (s.port p).state ≠ .absent)
    (hdown : (s.port p).state ≠ .down) : exec (.portDownCmd r p) s = .next (s.portDown p 3) := by
  have hgo : ((s.port p).state != .absent && (s.port p).state != .down) = true := by
    rw [Bool.and_eq_true_iff, bne_iff_ne, bne_iff_ne]
    exact ⟨habs, hdown⟩
  exact congrArg Host.Outcome.next ((if_pos hm).trans (if_pos hgo))

theorem exec_portRetryCmd {s : State} {r : Reader} {p : Fin 4} (hm : s.mayWin r = true) (hnov : (s.port p).state = .novers) :
    exec (.portRetryCmd r p) s = .next (s.modPort p fun q => { q with state := .down }) :=
  congrArg _ ((if_pos hm).trans (if_pos (beq_iff_eq.mpr hnov)))

/-! ## The STOP code (R386, R535) -/

/-- A read whose writer `r` has written CE_NBR_SEND again, with the STOP code of the port `p`. -/
def SendRead.stoppedBy (r : Reader) (p : Fin 4) (a : SendRead) : SendRead :=
  if a.who = r then { a with quiet := true, stops := p :: a.stops } else a

theorem SendRead.stoppedBy_mine {r : Reader} {a : SendRead} (h : a.who = r) (p : Fin 4) :
    a.stoppedBy r p = { a with quiet := true, stops := p :: a.stops } := if_pos h

theorem SendRead.stoppedBy_other {r : Reader} {a : SendRead} (h : a.who ≠ r) (p : Fin 4) : a.stoppedBy r p = a := if_neg h

theorem SendRead.stoppedBy_who (r : Reader) (p : Fin 4) (a : SendRead) : (a.stoppedBy r p).who = a.who := by
  unfold SendRead.stoppedBy
  split <;> rfl

/-- A descriptor of a port whose STOP code `r` has written. -/
def SendDesc.stoppedBy (r : Reader) (d : SendDesc) : SendDesc := if d.who = r ∧ d.bond = false then d.stopped else d

/-- The reads of a port's STOP code, in one pass over them. -/
theorem noted_quieted (r : Reader) (p : Fin 4) (l : List SendRead) :
    (l.map fun a => if a.who == r then { a with quiet := true } else a).map
        (fun a => if a.who == r then { a with stops := p :: a.stops } else a) = l.map (SendRead.stoppedBy r p) := by
  rw [List.map_map]
  refine List.map_congr_left fun a _ => ?_
  by_cases h : a.who = r
  · rw [SendRead.stoppedBy_mine h]
    simp only [Function.comp_apply, beq_iff_eq, h, if_true]
  · rw [SendRead.stoppedBy_other h]
    simp only [Function.comp_apply, beq_iff_eq, h, if_false]

theorem State.nbrStop_eq (s : State) (r : Reader) (p : Fin 4) :
    s.nbrStop r p = { s with nbr := { s.nbr with
      ports := vmod s.nbr.ports p fun q => { q with sends := q.sends.map (SendDesc.stoppedBy r) }
      regs := vmod s.nbr.regs r fun g => { g with sstat := 0 }
      reading := s.nbr.reading.map (SendRead.stoppedBy r p) } } := by
  have hstop : (fun d : SendDesc => if d.who == r && !d.bond then d.stopped else d) = SendDesc.stoppedBy r := by
    funext d
    simp only [SendDesc.stoppedBy, Bool.and_eq_true_iff, beq_iff_eq, Bool.not_eq_true']
  rw [← noted_quieted, ← hstop]
  rfl

theorem exec_nbrSendStop {s : State} {r : Reader} (ha : s.canAct r = true) (p : Fin 4) :
    exec (.nbrSendStop r p) s = .next (s.nbrStop r p) := congrArg _ (if_pos ha)

/-- The outcome of a read's write of CE_NBR_SEND reaches its writer's register alone. -/
theorem State.sendOutcome_port (s : State) (a : SendRead) (c : BitVec 2) (p : Fin 4) : (s.sendOutcome a c).port p = s.port p := by
  unfold State.sendOutcome
  split <;> rfl

theorem State.sendOutcome_sstat (s : State) (a : SendRead) (c : BitVec 2) :
    ((s.sendOutcome a c).nbr.regs.get a.who).sstat = if a.quiet = true then (s.nbr.regs.get a.who).sstat else c := by
  unfold State.sendOutcome
  split
  · rfl
  · rw [State.setSstat, State.modNbrRegs, vmod_get_same]

/-- A descriptor for an UP port with room enters its queue, stopped where its writer has stopped the port since. -/
theorem State.queueSend_room {s : State} {p : Fin 4} (hup : s.up p = true) (hroom : (s.port p).sends.length < 16)
    (a : SendRead) (d : SendDesc) :
    s.queueSend a p d = (s.modPort p fun q =>
      { q with sends := q.sends ++ [if p ∈ a.stops then d.stopped else d] }).sendOutcome a 0 := by
  simp only [State.queueSend, hup, Bool.not_true, Bool.false_eq_true, if_false, Nat.not_le.mpr hroom, List.contains_iff_mem]

/-- Settles O45: what takes a port DOWN, what RETRY leaves, and what the STOP code stops. -/
theorem portGoesDown : Obligations.PortGoesDown := by
  refine ⟨fun p s hp hup => ⟨_, exec_portSilence hp hup, s.portDown_lostPort p 2⟩,
    fun r p s ha hpr habs hdown => ⟨_, exec_portDownCmd (State.mayWin_of ha hpr) habs hdown, s.portDown_lostPort p 3⟩,
    fun r p s ha hpr hnov => exec_portRetryCmd (State.mayWin_of ha hpr) hnov,
    fun r p s ha => ⟨_, exec_nbrSendStop ha p, ?_⟩, fun r a p d s hup hroom => ⟨?_, fun hr => ?_⟩⟩
  · rw [State.nbrStop_eq]
    refine ⟨fun i a hi hr => ?_, ?_, fun a hr => ⟨fun h => ?_, fun h => ?_⟩, ?_, fun q hq => vmod_get_ne _ _ hq, rfl, rfl⟩
    · obtain ⟨b, _, rfl⟩ := List.mem_map.mp (List.mem_of_getElem? hi)
      rw [SendRead.stoppedBy_who] at hr
      rw [SendRead.stoppedBy_mine hr]
      exact ⟨rfl, List.mem_cons_self⟩
    · refine List.map_map.trans (List.map_congr_left fun a _ => ?_)
      rw [Function.comp_apply, SendRead.stoppedBy]
      split <;> rfl
    · obtain ⟨b, hb, rfl⟩ := List.mem_map.mp h
      rw [SendRead.stoppedBy_who] at hr
      rwa [SendRead.stoppedBy_other hr]
    · exact List.mem_map.mpr ⟨a, h, SendRead.stoppedBy_other hr p⟩
    · exact congrArg Port.sends (vmod_get_same _ _ _)
  · rw [State.queueSend_room hup hroom, State.sendOutcome_port, State.modPort_port]
  · rw [State.queueSend_room hup hroom, ← hr, State.sendOutcome_sstat]
    rfl

end Sys2Proof.Machine

/-! # Answers, grants and revokes -/

namespace Sys2Proof.Machine

/-! ## Answers to the last line of a descriptor (R386, R387, R389) -/

/-- The one unanswered message of an UP port is the last line of its one descriptor. -/
structure State.LastLine (s : State) (p : Fin 4) (u : Unanswered) (d : SendDesc) : Prop where
  up : (s.port p).state = .up
  unanswered : (s.port p).unanswered = [u]
  waits : (s.port p).txWait = []
  desc : u.desc = some d.id
  sends : (s.port p).sends = [d]
  phase : d.phase = .sending
  lines : d.nextLine = d.nlines
  outstanding : d.outstanding = 1
  status : d.status = 0

/-- A descriptor completes with the status that an answer to its last line leaves it. -/
def SendDesc.answeredWith (d : SendDesc) (landed : Nat) (status : BitVec 4) : SendDesc :=
  { d with outstanding := 0, landed, phase := .complete, status }

/-- The state in which the last line is answered. -/
def State.lastAnswered (s : State) (p : Fin 4) (d : SendDesc) : State :=
  s.modPort p fun q => { q with unanswered := [], sends := [d] }

section

variable {s : State} {p : Fin 4} {u : Unanswered} {d : SendDesc}

/-- The answer to the last line changes the descriptor, which then settles. -/
theorem State.LastLine.answered_pump (h : s.LastLine p u d) {f : SendDesc → SendDesc}
    (hlines : (f { d with outstanding := 0 }).nlines ≤ (f { d with outstanding := 0 }).nextLine) :
    ((s.modPort p fun q => { q with unanswered := [] }).answered p u f).pump p =
      s.lastAnswered p (f { d with outstanding := 0 }).settled := by
  have hanswered : (s.modPort p fun q => { q with unanswered := [] }).answered p u f =
      s.lastAnswered p (f { d with outstanding := 0 }) := by
    simp only [State.answered, h.desc, State.modSend, State.modPort_modPort, State.lastAnswered]
    refine State.modPort_congr ?_
    simp only [h.sends, List.map_cons, List.map_nil, beq_self_eq_true, if_true, h.outstanding]
  have hport : (s.lastAnswered p (f { d with outstanding := 0 })).port p =
      { s.port p with unanswered := [], sends := [f { d with outstanding := 0 }] } := State.modPort_port _ _ _
  rw [hanswered, State.pump_idle, State.settleSends_eq, State.lastAnswered, State.modPort_modPort]
  · rfl
  · rw [hport]
    exact h.waits
  · rw [hport]
    exact fun e he => List.mem_singleton.mp he ▸ hlines

/-- A status that an answer has given a descriptor stands, and a line that landed last completes it. -/
theorem State.LastLine.settled (h : s.LastLine p u d) (landed : Nat) (status : BitVec 4) :
    ({ d with outstanding := 0, landed, status } : SendDesc).settled =
      d.answeredWith landed (if status = 0 then (if d.marked then 8 else 1) else status) := by
  have hdone : ({ d with outstanding := 0, landed, status } : SendDesc).doneSending = true := by
    simp [SendDesc.doneSending, h.phase, h.lines]
  have hfinal : ({ d with outstanding := 0, landed, status } : SendDesc).final =
      if status = 0 then (if d.marked then 8 else 1) else status := by
    by_cases hs : status = 0 <;> simp [SendDesc.final, h.lines, hs]
  rw [SendDesc.settled, hdone, hfinal, h.phase]
  rfl

theorem ackedBy_single (u : Unanswered) : ackedBy u.msg.seq [u] = [u] := by
  simp [ackedBy, -BitVec.toNat_sub]

theorem State.LastLine.ackIn (h : s.LastLine p u d) :
    s.ackIn p u.msg.seq = s.lastAnswered p (d.answeredWith (d.landed + 1) (if d.marked then 8 else 1)) := by
  have hdrop : (s.modPort p fun q => { q with unanswered := q.unanswered.drop 1 }) =
      s.modPort p fun q => { q with unanswered := [] } := State.modPort_congr (by rw [h.unanswered]; rfl)
  have hsettled := h.settled (d.landed + 1) 0
  rw [if_pos rfl] at hsettled
  have hanswer := h.answered_pump (f := fun d => { d with landed := d.landed + 1 }) h.lines.ge
  rw [State.ackIn, State.linked_of_up h.up, if_neg (by decide), h.unanswered, ackedBy_single, ← hsettled]
  refine Eq.trans ?_ (hanswer.trans ?_)
  · rw [← hdrop]
    rfl
  · rw [← h.status]

/-- The status of a line that is refused for good (R386). -/
def refusedLine : Reason → BitVec 4
  | .late => 2 | .bound => 4 | _ => 5

theorem refusedLine_eq {why : Reason} : refusedLine why = if why = .late then 2 else if why = .bound then 4 else 5 := by
  cases why <;> rfl

theorem refusedLine_ne_zero (why : Reason) : refusedLine why ≠ 0 := by cases why <;> decide

theorem State.LastLine.find (h : s.LastLine p u d) :
    ((s.port p).unanswered.find? fun v => v.msg.seq == u.msg.seq) = some u := by
  rw [h.unanswered]
  exact List.find?_cons_of_pos (beq_self_eq_true u.msg.seq)

theorem State.LastLine.refuseIn (h : s.LastLine p u d) {why : Reason} (hwhy : why ≠ .retry) :
    s.refuseIn p u.msg.seq why = s.lastAnswered p (d.answeredWith d.landed (refusedLine why)) := by
  have hdrop : (s.modPort p fun q => { q with unanswered := q.unanswered.filter fun v => v.msg.seq != u.msg.seq }) =
      s.modPort p fun q => { q with unanswered := [] } := State.modPort_congr (by rw [h.unanswered]; simp)
  have hsettled := h.settled d.landed (refusedLine why)
  rw [if_neg (refusedLine_ne_zero why)] at hsettled
  have hanswer := h.answered_pump
    (f := fun d => { d with status := if d.status == 0 || (refusedLine why == 2 && d.status != 2) then refusedLine why else d.status })
    h.lines.ge
  simp only [State.refuseIn, h.find, State.linked_of_up h.up, Bool.not_true, Bool.false_eq_true, if_false,
    beq_eq_false_iff_ne.mpr hwhy, hdrop]
  rw [← hsettled]
  refine hanswer.trans ?_
  simp only [h.status, beq_self_eq_true, Bool.true_or, if_true]

theorem State.LastLine.refuseIn_retry (h : s.LastLine p u d) :
    s.refuseIn p u.msg.seq .retry = s.modPort p fun q => { q with retryPending := true } := by
  simp only [State.refuseIn, h.find, State.linked_of_up h.up, Bool.not_true, Bool.false_eq_true, if_false, beq_self_eq_true,
    if_true]

end

/-! ## Resending (R390) -/

/-- A port that has handed its unanswered messages to the link again. -/
def Port.resent (q : Port) : Port :=
  { q with tx := q.tx ++ q.unanswered.map (·.msg), unanswered := q.unanswered.map fun u => { u with resends := u.resends + 1 } }

/-- Resending counts itself and changes its port alone. -/
theorem State.resend_spec (s : State) (p : Fin 4) : ∃ obs, s.resend p = { s.modPort p Port.resent with obs } := ⟨_, rfl⟩

theorem exec_ack {s : State} (hp : s.powered = true) (p : Fin 4) (seq : BitVec 16) :
    exec (.ack p seq) s = .next (s.ackIn p seq) := congrArg _ (if_pos hp)

theorem exec_refuse {s : State} (hp : s.powered = true) (p : Fin 4) (seq : BitVec 16) (why : Reason) :
    exec (.refuse p seq why) s = .next (s.refuseIn p seq why) := congrArg _ (if_pos hp)

theorem exec_retryResend {s : State} {p : Fin 4} (hp : s.powered = true) (hl : s.linked p = true)
    (hr : (s.port p).retryPending = true) :
    exec (.retryResend p) s = .next ((s.modPort p fun q => { q with retryPending := false }).resend p) := by
  have hgo : (s.powered && s.linked p && (s.port p).retryPending) = true := by rw [hp, hl, hr]; rfl
  exact congrArg Host.Outcome.next (if_pos hgo)

theorem exec_resendTimeout {s : State} (hp : s.powered = true) (p : Fin 4) :
    exec (.resendTimeout p) s = .next (s.resendTimeout p) := congrArg _ (if_pos hp)

/-- The oldest message waits for its answer too long: it is sent again, eight times, and then its port goes DOWN. -/
theorem State.resendTimeout_up {s : State} {p : Fin 4} {u : Unanswered} {l : List Unanswered} (hup : (s.port p).state = .up)
    (hu : (s.port p).unanswered = u :: l) :
    s.resendTimeout p = if 8 ≤ u.resends then s.portDown p 1 else s.resend p := by
  simp only [State.resendTimeout, hu, State.linked_of_up hup, State.up_of_state hup, Bool.not_true, Bool.false_eq_true, if_false,
    if_true]

/-! ## GRANT and REVOKE (R385, R388) -/

/-- A mirror window after a GRANT. -/
def Mirror.granted (m : Mirror) (gen : BitVec 16) (lines : BitVec 20) (credit : BitVec 24) : Mirror :=
  if m.gen = gen ∧ m.isOpen = true then { m with credit := addSat m.credit credit.toNat }
  else { isOpen := true, gen, lines, credit }

/-- A mirror window after a REVOKE. -/
def Mirror.revoked (m : Mirror) (gen : BitVec 16) : Mirror := if m.gen = gen then { m with isOpen := false } else m

/-- A port on which the next number has landed, with one mirror window changed. -/
def Port.mirrored (q : Port) (w : Fin 64) (m : Mirror) : Port :=
  Port.settleAck { q with rxSeq := q.rxSeq + 1, unacked := q.unacked + 1, ahead := q.ahead ++ [q.rxSeq]
                          mirror := vset q.mirror w m }

/-- A GRANT or REVOKE can be taken at once, and no descriptor waits for it. -/
structure State.TakesNext (s : State) (p : Fin 4) : Prop where
  up : (s.port p).state = .up
  sends : (s.port p).sends = []
  unacked : (s.port p).unacked < 31
  arrivals : (s.port p).arrivals.length < 128
  waits : (s.port p).txWait = []

section

variable {s : State} {p : Fin 4}

/-- A change of the mirror lands with the next number and leaves no line to send. -/
theorem State.TakesNext.lands (h : s.TakesNext p) (w : Fin 64) (m : Mirror) {f : Port → Port}
    (hf : f { s.port p with rxSeq := (s.port p).rxSeq + 1 } =
      { s.port p with rxSeq := (s.port p).rxSeq + 1, mirror := vset (s.port p).mirror w m }) :
    (((s.modPort p fun q => { q with rxSeq := (s.port p).rxSeq + 1 }).modPort p f).landedOne p (s.port p).rxSeq).pump p =
      s.modPort p fun q => q.mirrored w m := by
  have hone : (s.modPort p fun q => { q with rxSeq := (s.port p).rxSeq + 1 }).modPort p f =
      s.modPort p fun q => { q with rxSeq := q.rxSeq + 1, mirror := vset q.mirror w m } := by
    rw [State.modPort_modPort]
    exact State.modPort_congr hf
  have hland : ((s.modPort p fun q => { q with rxSeq := (s.port p).rxSeq + 1 }).modPort p f).landedOne p (s.port p).rxSeq =
      s.modPort p fun q => q.mirrored w m := by
    rw [hone, State.landedOne_quiet (by rw [State.modPort_port]; exact h.unacked), State.modPort_modPort]
    exact State.modPort_congr rfl
  obtain ⟨landed, ahead, heq⟩ := Port.settleAck_frame { s.port p with
    rxSeq := (s.port p).rxSeq + 1, unacked := (s.port p).unacked + 1, ahead := (s.port p).ahead ++ [(s.port p).rxSeq]
    mirror := vset (s.port p).mirror w m }
  have hport : (s.modPort p fun q => q.mirrored w m).port p =
      { s.port p with rxSeq := (s.port p).rxSeq + 1, unacked := (s.port p).unacked + 1, landed, ahead
                      mirror := vset (s.port p).mirror w m } := by
    rw [State.modPort_port]
    exact heq
  have hsends : ((s.modPort p fun q => q.mirrored w m).port p).sends = [] := by
    rw [hport]
    exact h.sends
  rw [hland, State.pump_idle (by rw [hport]; exact h.waits) (by rw [hsends]; exact fun d hd => absurd hd List.not_mem_nil),
    State.settleSends_eq]
  refine State.modPort_self ?_
  rw [hsends, List.map_nil, ← hsends]

theorem State.TakesNext.grantIn (h : s.TakesNext p) (w : Fin 64) (gen : BitVec 16) (lines : BitVec 20) (credit : BitVec 24) :
    s.grantIn p w gen lines (s.port p).rxSeq credit =
      s.modPort p fun q => q.mirrored w ((q.mirror.get w).granted gen lines credit) := by
  have hland := h.lands w (((s.port p).mirror.get w).granted gen lines credit)
    (f := fun q => { q with mirror := vmod q.mirror w fun m =>
      if m.gen == gen && m.isOpen then { m with credit := addSat m.credit credit.toNat }
      else { isOpen := true, gen, lines, credit } })
    (by simp only [vmod, Mirror.granted, Bool.and_eq_true_iff, beq_iff_eq])
  rw [State.grantIn, State.up_of_state h.up, if_neg (by decide), State.takeSeq_next rfl h.arrivals]
  exact hland.trans (State.modPort_congr rfl)

theorem State.TakesNext.revokeIn (h : s.TakesNext p) (w : Fin 64) (gen : BitVec 16) :
    s.revokeIn p w gen (s.port p).rxSeq = s.modPort p fun q => q.mirrored w ((q.mirror.get w).revoked gen) := by
  rw [State.revokeIn, State.up_of_state h.up, if_neg (by decide), State.takeSeq_next rfl h.arrivals]
  refine (h.lands w (((s.port p).mirror.get w).revoked gen) ?_).trans (State.modPort_congr rfl)
  simp only [h.sends, List.map_nil, vmod, Mirror.revoked, beq_iff_eq]

theorem exec_grant (hp : s.powered = true) (w : Fin 64) (gen : BitVec 16) (lines : BitVec 20) (seq : BitVec 16)
    (credit : BitVec 24) : exec (.grant p w gen lines seq credit) s = .next (s.grantIn p w gen lines seq credit) :=
  congrArg _ (if_pos hp)

theorem exec_revoke (hp : s.powered = true) (w : Fin 64) (gen seq : BitVec 16) :
    exec (.revoke p w gen seq) s = .next (s.revokeIn p w gen seq) := congrArg _ (if_pos hp)

end

theorem Port.settleAck_no_arrivals {q : Port} (h : q.arrivals = []) (n : BitVec 16) :
    Port.settleAck { q with ahead := q.ahead ++ [n] } = { q with landed := n, ahead := [] } := by
  simp [Port.settleAck, h, List.getLastD_eq_getLast?]

/-- Settles O43: the answers to a last line, what is sent again, and what a GRANT and a REVOKE do to the mirror. -/
theorem answersGrantsAndRevokesAreTaken : Obligations.AnswersGrantsAndRevokesAreTaken := by
  refine ⟨fun p u d s hp hup hu hwait hdesc hsends hphase hlines hout hstatus => ?_,
    fun p w gen lines credit s hp hup hsends hacked harr hwait => ?_⟩
  · have h : s.LastLine p u d := ⟨hup, hu, hwait, hdesc, hsends, hphase, hlines, hout, hstatus⟩
    have hport : ∀ e, (s.lastAnswered p e).port p = { s.port p with unanswered := [], sends := [e] } := fun e =>
      State.modPort_port _ _ _
    refine ⟨⟨_, (exec_ack hp p _).trans (congrArg _ h.ackIn), ?_, ?_, rfl⟩,
      fun why hwhy => ⟨_, (exec_refuse hp p _ why).trans (congrArg _ (h.refuseIn hwhy)), ?_, ?_, rfl⟩,
      (exec_refuse hp p _ .retry).trans (congrArg _ h.refuseIn_retry), fun hretry => ?_, fun hfew => ?_, fun hmany => ?_⟩
    · rw [hport]
    · rw [hport]
      rfl
    · rw [hport]
    · rw [hport, refusedLine_eq]
      rfl
    · obtain ⟨obs, heq⟩ := (s.modPort p fun q => { q with retryPending := false }).resend_spec p
      refine ⟨_, (exec_retryResend hp (State.linked_of_up hup) hretry).trans (congrArg _ heq), ?_⟩
      have hq : (({ (s.modPort p fun q => { q with retryPending := false }).modPort p Port.resent with obs } : State)).port p =
          Port.resent { s.port p with retryPending := false } := by
        rw [State.modPort_modPort]
        exact State.modPort_port _ _ _
      rw [hq, Port.resent, hu]
      exact ⟨rfl, rfl, rfl, rfl, rfl, rfl⟩
    · obtain ⟨obs, heq⟩ := s.resend_spec p
      have hgo := (State.resendTimeout_up hup hu).trans ((if_neg (Nat.not_le.mpr hfew)).trans heq)
      refine ⟨_, (exec_resendTimeout hp p).trans (congrArg _ hgo), ?_⟩
      have hq : (({ s.modPort p Port.resent with obs } : State)).port p = (s.port p).resent := State.modPort_port _ _ _
      rw [hq, Port.resent, hu]
      exact ⟨rfl, rfl, hup, rfl, rfl, rfl⟩
    · obtain ⟨hstate, hcause, -⟩ := s.portDown_lostPort p 1
      have hgo := (State.resendTimeout_up hup hu).trans (if_pos hmany)
      exact ⟨_, (exec_resendTimeout hp p).trans (congrArg _ hgo), hstate, hcause⟩
  · have h : s.TakesNext p := ⟨hup, hsends, hacked, harr, hwait⟩
    refine ⟨⟨_, (exec_grant hp w gen lines _ credit).trans (congrArg _ (h.grantIn w gen lines credit)), State.modPort_port _ _ _,
        fun q hq => State.modPort_port_ne s hq _, rfl⟩,
      ⟨_, (exec_revoke hp w gen _).trans (congrArg _ (h.revokeIn w gen)), State.modPort_port _ _ _,
        fun q hq => State.modPort_port_ne s hq _, rfl⟩,
      fun harrivals n => Port.settleAck_no_arrivals harrivals n⟩

end Sys2Proof.Machine

/-! # A port comes up through its echoes -/

namespace Sys2Proof.Machine

/-! ## The echoes of a test (R395) -/

/-- Messages that need not wait go out in their order, under the next numbers. -/
theorem State.forEach_txSeq {s : State} {p : Fin 4} (m : Nat → NbrMsg) (hwait : (s.port p).txWait = []) {n : Nat}
    (hroom : (s.port p).unanswered.length + n ≤ 32768) :
    ∃ unanswered, unanswered.length = (s.port p).unanswered.length + n ∧
      (s.forEach (List.range n) fun s j => s.txSeq p (m j)) = s.modPort p fun q =>
        { q with txSeq := q.txSeq + BitVec.ofNat 16 n, unanswered
                 tx := q.tx ++ (List.range n).map fun j => { m j with seq := q.txSeq + BitVec.ofNat 16 j } } := by
  induction n with
  | zero =>
    refine ⟨(s.port p).unanswered, rfl, (State.modPort_self (s := s) ?_).symm⟩
    simp
  | succ n ih =>
    obtain ⟨unanswered, hlen, heq⟩ := ih (Nat.le_of_succ_le hroom)
    have hone : (s.forEach (List.range (n + 1)) fun s j => s.txSeq p (m j)) =
        (s.forEach (List.range n) fun s j => s.txSeq p (m j)).txSeq p (m n) := by
      rw [State.forEach, List.range_succ, List.foldl_append]
      rfl
    refine ⟨unanswered ++ [{ msg := { m n with seq := (s.port p).txSeq + BitVec.ofNat 16 n } }], ?_, ?_⟩
    · rw [List.length_append, hlen]
      rfl
    · rw [hone, heq, State.txSeq_sent, State.modPort_modPort]
      · refine State.modPort_congr ?_
        simp [Port.sent, List.range_succ, BitVec.add_assoc, BitVec.ofNat_add]
      · rw [maySend, State.modPort_port]
        exact ⟨by dsimp only; omega, hwait⟩

/-- A DOWN port that meets its partner's HELLO: its numbers begin again, and its test runs. -/
def Port.testing (q : Port) (lo hi : Nat) : Port :=
  { q with state := .test, txSeq := 0, rxSeq := 0, unanswered := [], landed := 0xFFFF, ahead := [], txWait := [], unacked := 0
           echoes := 0, partnerLo := lo, partnerHi := hi }

theorem State.helloIn_down {s : State} {p : Fin 4} (hdown : (s.port p).state = .down) (lo hi : Nat) :
    ∃ unanswered, s.helloIn p lo hi = s.modPort p fun q =>
      { q.testing lo hi with
        txSeq := 64, unanswered
        tx := q.tx ++ (List.range 64).map fun j =>
          { type := 7, seq := BitVec.ofNat 16 j, payload := (List.range 16).map (echoWord j) } } := by
  have hport : (s.modPort p fun q => q.testing lo hi).port p = (s.port p).testing lo hi := State.modPort_port _ _ _
  obtain ⟨unanswered, -, heq⟩ := State.forEach_txSeq (s := s.modPort p fun q => q.testing lo hi) (p := p) (n := 64)
    (fun j => { type := tEcho, payload := (List.range 16).map (echoWord j) }) (by rw [hport]; rfl)
    (by rw [hport]; exact Nat.le_of_ble_eq_true rfl)
  refine ⟨unanswered, ?_⟩
  rw [State.helloIn, hdown, if_neg (by decide)]
  refine heq.trans ((State.modPort_modPort _ _ _ _).trans (State.modPort_congr ?_))
  simp [Port.testing, tEcho]

/-! ## An ECHO in a test (R395, log entry 36) -/

section

variable {s : State} {p : Fin 4} {seq : BitVec 16} (htest : (s.port p).state = .test) (hseq : (s.port p).rxSeq = seq)
  (hacked : (s.port p).unacked < 31) (harr : (s.port p).arrivals.length < 128)

include htest hseq hacked harr

/-- An echo of the partner's test goes back, and lands. -/
theorem State.echoIn_partner (hmay : maySend s p) (hlt : seq.toNat < 64) (pl : Vector Word 16) (rtt : BitVec 20) :
    s.echoIn p seq pl rtt = s.modPort p fun q =>
      (({ q with rxSeq := seq + 1 } : Port).sent { type := 7, payload := pl.toList } none).landedNext seq := by
  have hsent := State.txSeq_sent (s := s.modPort p fun q => { q with rxSeq := seq + 1 }) (p := p)
    (by rw [maySend, State.modPort_port]; exact hmay) { type := 7, payload := pl.toList } none
  have hgo : ((s.port p).state != .test || decide (seq.toNat < 64)) = true := by rw [decide_eq_true hlt, Bool.or_true]
  simp only [State.echoIn, State.takeSeq_next hseq harr]
  rw [htest, if_neg (by decide)]
  rw [htest] at hgo
  refine (if_pos hgo).trans ?_
  change State.landedOne (State.txSeq _ p { type := 7, payload := pl.toList } none) p seq = _
  rw [hsent, State.modPort_modPort, State.landedOne_quiet (by rw [State.modPort_port]; exact hacked), State.modPort_modPort]

/-- The last own echo lands, and the versions are settled. -/
theorem State.echoIn_last (hle : 64 ≤ seq.toNat) {pl : Vector Word 16}
    (hpl : pl.toList = (List.range 16).map (echoWord (s.port p).echoes)) (hlast : (s.port p).echoes = 63) (rtt : BitVec 20) :
    s.echoIn p seq pl rtt = (s.modPort p fun q =>
      ({ q with rxSeq := seq + 1, echoes := q.echoes + 1 } : Port).landedNext seq).negotiate p rtt := by
  have hgo : ((s.port p).state != .test || decide (seq.toNat < 64)) = false := by
    rw [htest, decide_eq_false (Nat.not_lt.mpr hle)]
    rfl
  have hland : ((s.modPort p fun q => { q with rxSeq := seq + 1 }).modPort p fun q => { q with echoes := q.echoes + 1 }).landedOne
      p seq = s.modPort p fun q => ({ q with rxSeq := seq + 1, echoes := q.echoes + 1 } : Port).landedNext seq := by
    rw [State.modPort_modPort, State.landedOne_quiet (by rw [State.modPort_port]; exact hacked), State.modPort_modPort]
  have hechoes : ((s.modPort p fun q =>
      ({ q with rxSeq := seq + 1, echoes := q.echoes + 1 } : Port).landedNext seq).port p).echoes = 64 := by
    obtain ⟨landed, ahead, heq⟩ := Port.landedNext_frame { s.port p with rxSeq := seq + 1, echoes := (s.port p).echoes + 1 } seq
    rw [State.modPort_port, heq]
    exact congrArg (· + 1) hlast
  simp only [State.echoIn, State.takeSeq_next hseq harr]
  rw [htest, if_neg (by decide)]
  rw [htest] at hgo
  refine (if_neg (ne_true_of_eq_false hgo)).trans ?_
  rw [if_neg (by rw [hpl, bne_self_eq_false]; decide), hland, if_pos hechoes]

end

/-! ## Settling the versions (R395, R397) -/

/-- The port comes UP in the highest common version, with its numbers at 0. -/
theorem State.negotiate_some {s : State} {p : Fin 4} {v : Nat}
    (hv : commonVersion (s.versEn p) (s.port p).partnerLo (s.port p).partnerHi = some v) (rtt : BitVec 20) :
    ((s.negotiate p rtt).port p).rtt = rtt ∧ ((s.negotiate p rtt).port p).state = .up ∧
      ((s.negotiate p rtt).port p).ver = BitVec.ofNat 2 v ∧ ((s.negotiate p rtt).port p).txSeq = 0 ∧
      ((s.negotiate p rtt).port p).rxSeq = 0 ∧ (s.negotiate p rtt).harts = s.harts ∧ (s.negotiate p rtt).ice = s.ice ∧
      (s.negotiate p rtt).tiles = s.tiles := by
  simp only [State.negotiate, hv]
  generalize hu : s.modPort p _ = u
  obtain ⟨hnbr, hice, hharts, htiles⟩ := u.report_nbr 0xC4 [BitVec.ofNat 32 p.val, BitVec.ofNat 32 v, rtt.setWidth 32]
  rw [State.port, hnbr, hice, hharts, htiles, ← hu, State.modPort, vmod_get_same]
  exact ⟨rfl, rfl, rfl, rfl, rfl, rfl, rfl, rfl⟩

/-- Without a common version the port stays out of use. -/
theorem State.negotiate_none {s : State} {p : Fin 4}
    (hv : commonVersion (s.versEn p) (s.port p).partnerLo (s.port p).partnerHi = none) (rtt : BitVec 20) :
    ((s.negotiate p rtt).port p).rtt = rtt ∧ ((s.negotiate p rtt).port p).state = .novers ∧
      (s.negotiate p rtt).harts = s.harts ∧ (s.negotiate p rtt).ice = s.ice ∧ (s.negotiate p rtt).tiles = s.tiles := by
  simp only [State.negotiate, hv]
  generalize hu : s.modPort p _ = u
  generalize hw : ([_, _, _] : List Word) = w
  obtain ⟨hnbr, hice, hharts, htiles⟩ := u.report_nbr 0xC7 w
  rw [State.port, hnbr, hice, hharts, htiles, ← hu, State.modPort, vmod_get_same]
  exact ⟨rfl, rfl, rfl, rfl, rfl⟩

/-- A test that fails takes its port DOWN and is reported once. -/
theorem State.echoFail_spec (s : State) (p : Fin 4) :
    ((s.echoFail p).port p).state = .down ∧ ((s.echoFail p).port p).failReported = true ∧
      (s.echoFail p).harts = s.harts ∧ (s.echoFail p).ice = s.ice ∧ (s.echoFail p).tiles = s.tiles := by
  unfold State.echoFail
  dsimp only
  generalize hu : s.modPort p _ = u
  have hport : (u.port p).state = .down ∧ (u.port p).failReported = true ∧ u.harts = s.harts ∧ u.ice = s.ice ∧
      u.tiles = s.tiles := by
    rw [← hu, State.modPort_port]
    exact ⟨rfl, rfl, rfl, rfl, rfl⟩
  split
  · exact hport
  · obtain ⟨hnbr, hice, hharts, htiles⟩ := u.report_nbr 0xC6 [BitVec.ofNat 32 p.val]
    rw [State.port, hnbr, hice, hharts, htiles]
    exact hport

/-! ## The commands -/

theorem exec_helloMsg {s : State} (hp : s.powered = true) (p : Fin 4) (lo hi : Nat) :
    exec (.helloMsg p lo hi) s = .next (s.helloIn p lo hi) := congrArg _ (if_pos hp)

theorem exec_echo {s : State} (hp : s.powered = true) (p : Fin 4) (seq : BitVec 16) (pl : Vector Word 16) (rtt : BitVec 20) :
    exec (.echo p seq pl rtt) s = .next (s.echoIn p seq pl rtt) := congrArg _ (if_pos hp)

theorem exec_echoTimeout {s : State} {p : Fin 4} (hp : s.powered = true) (htest : (s.port p).state = .test) :
    exec (.echoTimeout p) s = .next (s.echoFail p) := by
  have hgo : (s.powered && (s.port p).state == .test) = true := by rw [hp, htest]; rfl
  exact congrArg Host.Outcome.next (if_pos hgo)

theorem exec_helloTimer {s : State} {p : Fin 4} (hp : s.powered = true)
    (hstate : (s.port p).state = .down ∨ (s.port p).state = .up) :
    exec (.helloTimer p) s = .next (s.sendHello p) := by
  have hgo : (s.powered && ((s.port p).state == .down || s.up p)) = true := by
    rw [hp, State.up]
    obtain h | h := hstate <;> rw [h] <;> rfl
  exact congrArg Host.Outcome.next (if_pos hgo)

theorem exec_ackTimer {s : State} {p : Fin 4} (hp : s.powered = true) (hl : s.linked p = true)
    (hacked : (s.port p).unacked ≠ 0) : exec (.ackTimer p) s = .next (s.sendAck p) := by
  have hgo : (s.powered && s.linked p && (s.port p).unacked != 0) = true := by
    rw [hp, hl, bne_iff_ne.mpr hacked]
    rfl
  exact congrArg Host.Outcome.next (if_pos hgo)

/-- Settles O44: a partner's HELLO, the echoes of both tests, the versions, and the timers of a port. -/
theorem portComesUpThroughItsEchoes : Obligations.PortComesUpThroughItsEchoes := by
  refine ⟨fun p lo hi s hp hdown => ?_, fun p seq pl rtt s hp htest hseq hacked harr hmay =>
      ⟨fun hlt => ?_, fun hle hpl hlast => ?_, ⟨_, exec_echoTimeout hp htest, s.echoFail_spec p⟩⟩,
    fun p s hp hstate => exec_helloTimer hp hstate, fun p s hp hstate hacked => ?_⟩
  · obtain ⟨unanswered, heq⟩ := State.helloIn_down hdown lo hi
    refine ⟨_, (exec_helloMsg hp p lo hi).trans (congrArg _ heq), ?_⟩
    rw [State.modPort_port]
    exact ⟨rfl, rfl, rfl, rfl, rfl, rfl, fun q hq => State.modPort_port_ne s hq _, rfl⟩
  · refine ⟨_, (exec_echo hp p seq pl rtt).trans (congrArg _ (State.echoIn_partner htest hseq hacked harr hmay hlt pl rtt)), ?_⟩
    obtain ⟨landed, ahead, heq⟩ := Port.landedNext_frame
      (({ s.port p with rxSeq := seq + 1 } : Port).sent { type := 7, payload := pl.toList } none) seq
    rw [State.modPort_port, heq]
    exact ⟨htest, rfl⟩
  · refine ⟨_, (exec_echo hp p seq pl rtt).trans (congrArg _ (State.echoIn_last htest hseq hacked harr hle hpl hlast rtt)), ?_⟩
    generalize hu : (s.modPort p fun q => ({ q with rxSeq := seq + 1, echoes := q.echoes + 1 } : Port).landedNext seq) = u
    have hrest : u.versEn p = s.versEn p ∧ u.harts = s.harts ∧ u.ice = s.ice ∧ u.tiles = s.tiles := by
      rw [← hu]
      exact ⟨rfl, rfl, rfl, rfl⟩
    have hpartner : (u.port p).partnerLo = (s.port p).partnerLo ∧ (u.port p).partnerHi = (s.port p).partnerHi := by
      obtain ⟨landed, ahead, heq⟩ :=
        Port.landedNext_frame { s.port p with rxSeq := seq + 1, echoes := (s.port p).echoes + 1 } seq
      rw [← hu, State.modPort_port, heq]
      exact ⟨rfl, rfl⟩
    obtain ⟨hvers, hharts, hice, htiles⟩ := hrest
    obtain ⟨hlo, hhi⟩ := hpartner
    rw [← hvers, ← hlo, ← hhi, ← hharts, ← hice, ← htiles]
    cases hv : commonVersion (u.versEn p) (u.port p).partnerLo (u.port p).partnerHi with
    | some v =>
      obtain ⟨hrtt, hstate, hver, htx, hrx, hframe⟩ := State.negotiate_some hv rtt
      exact ⟨hrtt, ⟨hstate, hver, htx, hrx⟩, hframe⟩
    | none =>
      obtain ⟨hrtt, hstate, hframe⟩ := State.negotiate_none hv rtt
      exact ⟨hrtt, hstate, hframe⟩
  · rw [exec_ackTimer hp (hstate.elim State.linked_of_up State.linked_of_test) hacked, State.sendAck_eq]

end Sys2Proof.Machine

/-! # The window commands -/

namespace Sys2Proof.Machine

/-! ## Who writes CE_NBR_WCMD (R288, R375, R431) -/

/-- A close that reports to one of some readers reports to it no more. -/
def closeForgotten (sel : Reader → Bool) (c : Fin 64 × Option Reader × Option Nat) : Fin 64 × Option Reader × Option Nat :=
  if c.2.1.any sel then (c.1, none, c.2.2) else c

theorem closeForgotten_closeForgotten (a b : Reader → Bool) (c : Fin 64 × Option Reader × Option Nat) :
    closeForgotten b (closeForgotten a c) = closeForgotten (fun q => a q || b q) c := by
  obtain ⟨w, o, n⟩ := c
  cases o with
  | none => rfl
  | some q => cases ha : a q <;> simp [closeForgotten, ha]

theorem State.forgetCloses_eq (s : State) (r : Reader) :
    s.forgetCloses r = { s with nbr := { s.nbr with closers := s.nbr.closers.map (closeForgotten fun q => q == r) } } := by
  have hdrop : (fun c : Fin 64 × Option Reader × Option Nat => if c.2.1 == some r then (c.1, none, c.2.2) else c) =
      closeForgotten fun q => q == r := by
    funext ⟨w, o, n⟩
    cases o <;> simp [closeForgotten]
  rw [← hdrop]
  rfl

theorem foldl_vmod_get_of_idem {α : Type} {n : Nat} {f : α → α} (hf : ∀ x, f (f x) = f x) (l : List (Fin n)) (v : Vector α n)
    (j : Fin n) : (l.foldl (fun v i => vmod v i f) v).get j = if j ∈ l then f (v.get j) else v.get j := by
  induction l generalizing v with
  | nil => rfl
  | cons i l ih =>
    rw [List.foldl_cons, ih, vmod_get]
    by_cases hj : j = i
    · subst hj
      simp [hf]
    · simp [hj]

/-- The outcome of a reader whose write of CE_NBR_WCMD is not taken. -/
def NbrRegs.preempted (g : NbrRegs) : NbrRegs := { g with wstat := 8 }

/-- The writes of some readers are lost. -/
theorem State.forEach_preempt (s : State) (l : List Reader) :
    (s.forEach l fun s q => (s.forgetCloses q).setWstat q wsPreempted) =
      { s with nbr := { s.nbr with
        regs := l.foldl (fun v q => vmod v q NbrRegs.preempted) s.nbr.regs
        closers := s.nbr.closers.map (closeForgotten fun q => l.contains q) } } := by
  unfold State.forEach
  induction l generalizing s with
  | nil =>
    have hid : s.nbr.closers.map (closeForgotten fun q => ([] : List Reader).contains q) = s.nbr.closers := by
      refine (List.map_congr_left fun c _ => ?_).trans (List.map_id _)
      obtain ⟨w, o, n⟩ := c
      cases o <;> rfl
    rw [hid]
    rfl
  | cons q l ih =>
    have hclosers : (s.nbr.closers.map (closeForgotten fun x => x == q)).map (closeForgotten fun x => l.contains x) =
        s.nbr.closers.map (closeForgotten fun x => (q :: l).contains x) := by
      rw [List.map_map]
      refine List.map_congr_left fun c _ => (closeForgotten_closeForgotten _ _ c).trans ?_
      simp only [List.contains_cons]
    rw [List.foldl_cons, ih, State.forgetCloses_eq, ← hclosers]
    rfl

theorem closesLeft_eq (r : Reader) (others : List Reader) (s : State) :
    closesLeft r others s = s.nbr.closers.map (closeForgotten fun q => q == r || (s.losers r others).contains q) := by
  refine List.map_congr_left fun c _ => ?_
  obtain ⟨w, o, n⟩ := c
  cases o <;> simp [closeForgotten]

/-- The state in which the write of `r` is taken and those of the others are lost. -/
def State.wcmdTaken (s : State) (r : Reader) (others : List Reader) : State :=
  { s with nbr := { s.nbr with
      regs := (s.losers r others).foldl (fun v q => vmod v q NbrRegs.preempted) s.nbr.regs
      closers := closesLeft r others s } }

section

variable {s : State} {r : Reader} {others : List Reader}

theorem State.wcmdWrite_taken (hm : s.mayWin r = true) (ht : s.takes r others = true) (f : State → State) :
    s.wcmdWrite r others f = f (s.wcmdTaken r others) := by
  have htakes : (s.forgetCloses r).takes r others = true := ht
  have hlosers : (s.forgetCloses r).losers r others = s.losers r others := rfl
  have hclosers : (s.nbr.closers.map (closeForgotten fun q => q == r)).map
      (closeForgotten fun q => (s.losers r others).contains q) = closesLeft r others s := by
    rw [closesLeft_eq, List.map_map]
    exact List.map_congr_left fun c _ => closeForgotten_closeForgotten _ _ c
  rw [State.wcmdWrite, hm, if_neg (by decide)]
  dsimp only
  rw [if_pos htakes, hlosers, State.forEach_preempt, State.wcmdTaken, ← hclosers, State.forgetCloses_eq]

theorem State.wcmdWrite_beaten (hm : s.mayWin r = true) (ht : s.takes r others = false) (f : State → State) :
    s.wcmdWrite r others f = (s.forgetCloses r).setWstat r 8 := by
  have htakes : ¬(s.forgetCloses r).takes r others = true := ne_true_of_eq_false ht
  rw [State.wcmdWrite, hm, if_neg (by decide)]
  exact if_neg htakes

theorem State.wcmdTaken_get (q : Reader) : (s.wcmdTaken r others).nbr.regs.get q =
    if q ∈ s.losers r others then { s.nbr.regs.get q with wstat := 8 } else s.nbr.regs.get q :=
  foldl_vmod_get_of_idem (f := NbrRegs.preempted) (fun _ => rfl) _ _ _

theorem State.wcmdTaken_mine : (s.wcmdTaken r others).nbr.regs.get r = s.nbr.regs.get r := by
  rw [State.wcmdTaken_get, if_neg (s.not_mem_losers r others)]

/-- What the command of `r` leaves in its own registers and in those of the others. -/
theorem othersPreempted_of_mod {u : State} (hregs : u.nbr.regs = (s.wcmdTaken r others).nbr.regs) (f : NbrRegs → NbrRegs) :
    (u.modNbrRegs r f).nbr.regs.get r = f (s.nbr.regs.get r) ∧ othersPreempted r others s (u.modNbrRegs r f) := by
  refine ⟨?_, fun q hq => ?_⟩
  · rw [State.modNbrRegs, vmod_get_same, hregs, State.wcmdTaken_mine]
  · rw [State.modNbrRegs, vmod_get_ne _ _ hq, hregs, State.wcmdTaken_get]

end

/-! ## OPEN (R375, R376) -/

/-- The lines that the staging registers give a window. -/
def stagedLines (g : Vector Word 4) : BitVec 20 := (g.get 1).extractLsb' 0 20
/-- The port that they give it. -/
def stagedPort (g : Vector Word 4) : Fin 4 := ((g.get 1).extractLsb' 20 2).toFin
/-- The credit that they hold. -/
def stagedCredit (g : Vector Word 4) : BitVec 24 := (g.get 2).extractLsb' 0 24
/-- The credit that the first GRANT carries: that of the registers, or one for each line. -/
def grantedCredit (g : Vector Word 4) : BitVec 24 :=
  if stagedCredit g = 0 then (stagedLines g).setWidth 24 else stagedCredit g

/-- A window in its next generation. -/
def Window.opened (v : Window) (g : Vector Word 4) : Window :=
  { isOpen := true, closing := false, silent := false, addr := g.get 0, lines := stagedLines g, port := stagedPort g
    credit0 := stagedCredit g, gen := v.gen + 1, arr := 0, granted := grantedCredit g }

/-- The state in which a window is open and its port has sent the GRANT. -/
def State.opened (s : State) (w : Fin 64) (g : Vector Word 4) : State :=
  (s.modWin w fun v => v.opened g).modPort (stagedPort g) fun q =>
    q.sent { type := 4, win := BitVec.ofNat 6 w.val, gen := (s.win w).gen + 1, line := stagedLines g
             credit := grantedCredit g } none

theorem State.opened_eq (s : State) (w : Fin 64) (g : Vector Word 4) : ∃ nbr, s.opened w g = { s with nbr := nbr } := ⟨_, rfl⟩

theorem State.opened_win (s : State) (w : Fin 64) (g : Vector Word 4) : (s.opened w g).win w = (s.win w).opened g :=
  State.modWin_win s w _

theorem State.opened_win_ne (s : State) {w v : Fin 64} (hv : v ≠ w) (g : Vector Word 4) : (s.opened w g).win v = s.win v :=
  State.modWin_win_ne s hv _

theorem State.opened_port (s : State) (w : Fin 64) (g : Vector Word 4) :
    (s.opened w g).port (stagedPort g) = (s.port (stagedPort g)).sent
      { type := 4, win := BitVec.ofNat 6 w.val, gen := (s.win w).gen + 1, line := stagedLines g
        credit := grantedCredit g } none := State.modPort_port _ _ _

theorem State.opened_port_ne (s : State) (w : Fin 64) {g : Vector Word 4} {q : Fin 4} (hq : q ≠ stagedPort g) :
    (s.opened w g).port q = s.port q := State.modPort_port_ne _ hq _

theorem State.windowOpen_refused {s : State} {w : Fin 64} {g : Vector Word 4} {code : BitVec 4}
    (h : s.openCheck w g = some code) : s.windowOpen w g = (s, code) := by
  simp only [State.windowOpen, h]

theorem State.windowOpen_accepted {s : State} {w : Fin 64} {g : Vector Word 4} (h : s.openCheck w g = none)
    (hmay : maySend s (stagedPort g)) : s.windowOpen w g = (s.opened w g, 0) := by
  have hsent := State.txSeq_sent (s := s.modWin w fun v => v.opened g) (p := stagedPort g) hmay
    { type := 4, win := BitVec.ofNat 6 w.val, gen := ((s.modWin w fun v => v.opened g).win w).gen, line := stagedLines g
      credit := grantedCredit g } none
  rw [State.modWin_win] at hsent
  simp only [State.windowOpen, h]
  refine congrArg (·, (0 : BitVec 4)) ((Eq.trans ?_ hsent).trans rfl)
  rw [← State.modWin_win s w fun v => v.opened g]
  rfl

theorem State.credited_win_ne (s : State) {w v : Fin 64} (hv : v ≠ w) (credit : BitVec 24) :
    (s.credited w credit).win v = s.win v := State.modWin_win_ne s hv _

/-! ## CLOSE (R381) -/

/-- The state in which a window is closing, and what was not allocated of its arrivals is late. -/
def State.closing (s : State) (w : Fin 64) : State := (s.modWin w fun v => { v with closing := true }).lateArrivals w

/-- A further close that waits for its effect. -/
def State.withCloser (s : State) (c : Fin 64 × Option Reader × Option Nat) : State :=
  { s with nbr := { s.nbr with closers := s.nbr.closers ++ [c] } }

theorem State.windowClose_open {s : State} {w : Fin 64} (h : (s.win w).isOpen = true) (r : Reader) :
    s.windowClose w r none = ((s.closing w).withCloser (w, some r, none), 9) := by
  rw [State.windowClose, h, if_neg (by decide)]
  rfl

/-- A closing window keeps everything but its own mark, its late arrivals and their accesses. -/
theorem State.closing_eq (s : State) (w : Fin 64) : ∃ ports late sb, s.closing w =
    { s with nbr := { s.nbr with windows := (s.modWin w fun v => { v with closing := true }).nbr.windows, ports, late }
             ice := { s.ice with sb } } :=
  ((s.modWin w fun v => { v with closing := true }).lateArrivals_dropped w).eq

theorem State.windowClose_closed {s : State} {w : Fin 64} (h : (s.win w).isOpen = false) (r : Reader) (order : Option Nat) :
    s.windowClose w r order = (s, 5) := by
  rw [State.windowClose, h]
  rfl

theorem State.windowCredit_closed {s : State} {w : Fin 64} (h : (s.win w).isOpen = false) (c : BitVec 24) :
    s.windowCredit w c = (s, 5) := by
  simp only [State.windowCredit, h, Bool.not_false, if_true]

/-- A window whose close has taken effect. -/
def Window.closed (v : Window) : Window := { v with isOpen := false, closing := false, silent := false }

/-- The state in which a window is closed and its port has sent the REVOKE. -/
def State.revoked (s : State) (w : Fin 64) : State :=
  (s.modWin w Window.closed).modPort (s.win w).port fun q =>
    q.sent { type := 5, win := BitVec.ofNat 6 w.val, gen := (s.win w).gen } none

/-- The closes of a window are answered. -/
def State.closesAnswered (s : State) (w : Fin 64) : State :=
  ({ s with nbr := { s.nbr with closers := s.nbr.closers.filter fun c => c.1 != w } } : State).forEach
    (s.nbr.closers.filter fun c => c.1 == w) fun s c =>
      (match c.2.1 with | some r => s.setWstat r wsDone | none => s).replyWindow c.2.2 wsDone

theorem State.closeEffect_eq (s : State) (w : Fin 64) : s.closeEffect w =
    if !(s.win w).closing || (fins 4).any (fun p => (s.port p).arrivals.any fun a => a.win == w) then s
    else
      (if (s.modWin w Window.closed).up (s.win w).port && !(s.win w).silent then
        (s.modWin w Window.closed).txSeq (s.win w).port { type := 5, win := BitVec.ofNat 6 w.val, gen := (s.win w).gen }
      else s.modWin w Window.closed).closesAnswered w := rfl

theorem State.closeEffect_waits {s : State} {w : Fin 64} {p : Fin 4} {a : Arrival} (ha : a ∈ (s.port p).arrivals)
    (hw : a.win = w) : s.closeEffect w = s := by
  have hany : ((fins 4).any fun p => (s.port p).arrivals.any fun a => a.win == w) = true :=
    List.any_eq_true.mpr ⟨p, mem_fins p, List.any_eq_true.mpr ⟨a, ha, beq_iff_eq.mpr hw⟩⟩
  simp only [State.closeEffect, hany, Bool.or_true, if_true]

/-- With its arrivals retired a window closes, its port sends the REVOKE, and its one close answers DONE. -/
theorem State.closeEffect_done {s : State} {w : Fin 64} {r : Reader} (hc : (s.win w).closing = true)
    (hsilent : (s.win w).silent = false) (harr : ∀ p : Fin 4, ∀ a ∈ (s.port p).arrivals, a.win ≠ w)
    (hclosers : s.nbr.closers = [(w, some r, none)]) (hup : (s.port (s.win w).port).state = .up)
    (hmay : maySend s (s.win w).port) :
    s.closeEffect w =
      ({ s.revoked w with nbr := { (s.revoked w).nbr with closers := [] } } : State).setWstat r 0 := by
  have hany : ((fins 4).any fun p => (s.port p).arrivals.any fun a => a.win == w) = false :=
    List.any_eq_false.mpr fun p _ => ne_true_of_eq_false
      (List.any_eq_false.mpr fun a ha => ne_true_of_eq_false (beq_eq_false_iff_ne.mpr (harr p a ha)))
  have hsent := State.txSeq_sent (s := s.modWin w Window.closed) (p := (s.win w).port) hmay
    { type := 5, win := BitVec.ofNat 6 w.val, gen := (s.win w).gen } none
  have hup' : (s.modWin w Window.closed).up (s.win w).port = true := State.up_of_state (s := s.modWin w Window.closed) hup
  have hrev : (s.revoked w).nbr.closers = [(w, some r, none)] := hclosers
  have hnone : ([(w, some r, none)] : List (Fin 64 × Option Reader × Option Nat)).filter (fun c => c.1 != w) = [] := by simp
  have hmine : ([(w, some r, none)] : List (Fin 64 × Option Reader × Option Nat)).filter (fun c => c.1 == w) =
      [(w, some r, none)] := by simp
  rw [State.closeEffect_eq, if_neg (by rw [hc, hany]; decide), if_pos (by rw [hup', hsilent]; rfl), hsent]
  change (s.revoked w).closesAnswered w = _
  rw [State.closesAnswered, hrev, hnone, hmine]
  rfl

/-! ## The commands -/

section

variable {s : State} (hp : s.powered = true)

include hp

theorem exec_windowOpen (r : Reader) (w : Fin 64) (others : List Reader) :
    exec (.windowOpen r w others) s = .next (s.wcmdWrite r others fun s => s.openCmd r w) := congrArg _ (if_pos hp)

theorem exec_windowRead (r : Reader) (w : Fin 64) (others : List Reader) :
    exec (.windowRead r w others) s = .next (s.wcmdWrite r others fun s => s.windowRead r w) := congrArg _ (if_pos hp)

theorem exec_windowCredit (r : Reader) (w : Fin 64) (others : List Reader) :
    exec (.windowCredit r w others) s = .next (s.wcmdWrite r others fun s => s.creditCmd r w) := congrArg _ (if_pos hp)

theorem exec_windowClose (r : Reader) (w : Fin 64) (others : List Reader) :
    exec (.windowClose r w others) s = .next (s.wcmdWrite r others fun s => s.closeCmd r w) := congrArg _ (if_pos hp)

theorem exec_windowCloseEffect (w : Fin 64) : exec (.windowCloseEffect w) s = .next (s.closeEffect w) := congrArg _ (if_pos hp)

end

section

variable {s : State} {r : Reader} {others : List Reader} (ha : s.canAct r = true) (hm : s.mayWin r = true)
  (ht : s.takes r others = true) (w : Fin 64)

include ha hm ht

/-- A refused OPEN writes its code alone. -/
theorem exec_windowOpen_refused {code : BitVec 4} (hc : s.openCheck w (s.nbr.regs.get r).stage = some code) :
    exec (.windowOpen r w others) s = .next ((s.wcmdTaken r others).setWstat r code) := by
  have hcheck : (s.wcmdTaken r others).openCheck w (s.nbr.regs.get r).stage = some code := hc
  rw [exec_windowOpen (State.canAct_powered ha), State.wcmdWrite_taken hm ht, State.openCmd, State.wcmdTaken_mine,
    State.windowOpen_refused hcheck]

theorem exec_windowOpen_accepted (hc : s.openCheck w (s.nbr.regs.get r).stage = none)
    (hmay : maySend s (stagedPort (s.nbr.regs.get r).stage)) :
    exec (.windowOpen r w others) s =
      .next (((s.wcmdTaken r others).opened w (s.nbr.regs.get r).stage).setWstat r 0) := by
  have hcheck : (s.wcmdTaken r others).openCheck w (s.nbr.regs.get r).stage = none := hc
  rw [exec_windowOpen (State.canAct_powered ha), State.wcmdWrite_taken hm ht, State.openCmd, State.wcmdTaken_mine,
    State.windowOpen_accepted hcheck hmay]

/-- CREDIT and CLOSE of a closed window. -/
theorem exec_windowCommand_closed (hw : (s.win w).isOpen = false) {c : Instr}
    (hc : c ∈ ([.windowClose r w others, .windowCredit r w others] : List Instr)) :
    exec c s = .next ((s.wcmdTaken r others).setWstat r 5) := by
  have hw' : ((s.wcmdTaken r others).win w).isOpen = false := hw
  rw [List.mem_cons, List.mem_singleton] at hc
  obtain rfl | rfl := hc
  · rw [exec_windowClose (State.canAct_powered ha), State.wcmdWrite_taken hm ht, State.closeCmd, State.windowClose_closed hw']
  · rw [exec_windowCredit (State.canAct_powered ha), State.wcmdWrite_taken hm ht, State.creditCmd,
      State.windowCredit_closed hw']

theorem exec_windowCredit_open (hw : (s.win w).isOpen = true) (hup : (s.port (s.win w).port).state = .up)
    (hmay : maySend s (s.win w).port) :
    exec (.windowCredit r w others) s =
      .next (((s.wcmdTaken r others).credited w (s.nbr.regs.get r).wcred).setWstat r 0) := by
  obtain ⟨hroom, hwait⟩ := hmay
  have hcredit := State.windowCredit_open (s := s.wcmdTaken r others) (w := w) hw hup hroom hwait (s.nbr.regs.get r).wcred
  rw [exec_windowCredit (State.canAct_powered ha), State.wcmdWrite_taken hm ht, State.creditCmd, State.wcmdTaken_mine, hcredit]

theorem exec_windowClose_open (hw : (s.win w).isOpen = true) :
    exec (.windowClose r w others) s =
      .next ((((s.wcmdTaken r others).closing w).withCloser (w, some r, none)).setWstat r 9) := by
  have hclose := State.windowClose_open (s := s.wcmdTaken r others) (w := w) hw r
  rw [exec_windowClose (State.canAct_powered ha), State.wcmdWrite_taken hm ht, State.closeCmd, hclose]

end

theorem exec_windowOpen_beaten {s : State} {r : Reader} {others : List Reader} (ha : s.canAct r = true)
    (hm : s.mayWin r = true) (ht : s.takes r others = false) (w : Fin 64) :
    exec (.windowOpen r w others) s = .next ((s.forgetCloses r).setWstat r 8) := by
  rw [exec_windowOpen (State.canAct_powered ha), State.wcmdWrite_beaten hm ht]

/-- What a CREDIT of an open window leaves. -/
theorem exec_windowCredit_spec {s : State} {r : Reader} {others : List Reader} (ha : s.canAct r = true)
    (hm : s.mayWin r = true) (ht : s.takes r others = true) {w : Fin 64} (hw : (s.win w).isOpen = true)
    (hup : (s.port (s.win w).port).state = .up) (hmay : maySend s (s.win w).port) :
    ∃ t, exec (.windowCredit r w others) s = .next t ∧
      t.win w = { s.win w with granted := addSat (s.win w).granted (s.nbr.regs.get r).wcred.toNat } ∧
      (t.port (s.win w).port).tx = (s.port (s.win w).port).tx ++ [s.grantOf w (s.nbr.regs.get r).wcred] ∧
      (t.nbr.regs.get r).wstat = 0 ∧ (∀ v, v ≠ w → t.win v = s.win v) ∧ othersPreempted r others s t ∧
      t = { s with nbr := t.nbr } := by
  refine ⟨_, exec_windowCredit_open ha hm ht w hw hup hmay, ?_⟩
  have hwin := (s.wcmdTaken r others).credited_win w (s.nbr.regs.get r).wcred
  have htx := (s.wcmdTaken r others).credited_tx w (s.nbr.regs.get r).wcred
  have hne := fun v (hv : v ≠ w) => (s.wcmdTaken r others).credited_win_ne hv (s.nbr.regs.get r).wcred
  obtain ⟨nbr, heq⟩ := (s.wcmdTaken r others).credited_eq w (s.nbr.regs.get r).wcred
  have hregs : nbr.regs = (s.wcmdTaken r others).nbr.regs := congrArg (fun t : State => t.nbr.regs) heq.symm
  rw [heq] at hwin htx hne ⊢
  obtain ⟨hmine, hothers⟩ := othersPreempted_of_mod (u := { s.wcmdTaken r others with nbr := nbr }) hregs fun g =>
    { g with wstat := 0 }
  exact ⟨hwin, htx, congrArg NbrRegs.wstat hmine, hne, hothers, rfl⟩

/-- What a CLOSE of an open window leaves. -/
theorem exec_windowClose_spec {s : State} {r : Reader} {others : List Reader} (ha : s.canAct r = true)
    (hm : s.mayWin r = true) (ht : s.takes r others = true) {w : Fin 64} (hw : (s.win w).isOpen = true) :
    ∃ t, exec (.windowClose r w others) s = .next t ∧
      t.win w = { s.win w with closing := true } ∧ (∀ v, v ≠ w → t.win v = s.win v) ∧ (t.nbr.regs.get r).wstat = 9 ∧
      t.nbr.closers = closesLeft r others s ++ [(w, some r, none)] ∧ othersPreempted r others s t ∧
      (∀ p : Fin 4, ∀ a ∈ (t.port p).arrivals, a.win = w → (t.ice.sb.waiting.any fun x => x.id == a.sb) = false) ∧
      t.ice.cells = s.ice.cells ∧ t.harts = s.harts ∧ t.tiles = s.tiles := by
  refine ⟨_, exec_windowClose_open ha hm ht w hw, ?_⟩
  have hall := fun p => ((s.wcmdTaken r others).modWin w fun v => { v with closing := true }).lateArrivals_allAllocated w p
  change ∀ p, ((s.wcmdTaken r others).closing w).AllAllocated w p at hall
  obtain ⟨ports, late, sb, heq⟩ := (s.wcmdTaken r others).closing_eq w
  rw [heq] at hall ⊢
  obtain ⟨hmine, hothers⟩ := othersPreempted_of_mod (s := s) (r := r) (others := others) rfl fun g => { g with wstat := 9 }
  exact ⟨State.modWin_win s w _, fun v hv => State.modWin_win_ne s hv _, congrArg NbrRegs.wstat hmine, rfl, hothers, hall,
    rfl, rfl, rfl⟩

/-- Settles O40: who is taken, OPEN with its checks, READ, CREDIT and CLOSE, and the effect of a close. -/
theorem windowsOpenCreditReadAndClose : Obligations.WindowsOpenCreditReadAndClose := by
  refine ⟨fun r w others s ha hpr => ⟨fun ht => ?_, fun code ht hc => ?_, fun ht hc hmay => ?_⟩,
    fun r w others s ha hpr ht => ⟨?_, fun hw c hc => ?_,
      exec_windowCredit_spec ha (State.mayWin_of ha hpr) ht, exec_windowClose_spec ha (State.mayWin_of ha hpr) ht⟩,
    fun w p a s hmem hw => ?_, fun w r s hp hc hsilent harr hclosers hup hmay => ?_⟩
  · refine ⟨_, exec_windowOpen_beaten ha (State.mayWin_of ha hpr) ht w, ?_, rfl, rfl, fun q hq => ?_, rfl⟩
    · rw [State.setWstat_regs]
    · rw [State.setWstat_regs_ne _ hq]
      rfl
  · obtain ⟨hmine, hothers⟩ := othersPreempted_of_mod (s := s) (r := r) (others := others) rfl fun g => { g with wstat := code }
    exact ⟨_, exec_windowOpen_refused ha (State.mayWin_of ha hpr) ht w hc, hmine, hothers, rfl, rfl, rfl, rfl⟩
  · refine ⟨_, exec_windowOpen_accepted ha (State.mayWin_of ha hpr) ht w hc hmay, ?_⟩
    have hwin := (s.wcmdTaken r others).opened_win w (s.nbr.regs.get r).stage
    have hwins := fun v (hv : v ≠ w) => (s.wcmdTaken r others).opened_win_ne hv (s.nbr.regs.get r).stage
    have hport := (s.wcmdTaken r others).opened_port w (s.nbr.regs.get r).stage
    have hports := fun q (hq : q ≠ stagedPort (s.nbr.regs.get r).stage) => (s.wcmdTaken r others).opened_port_ne w hq
    obtain ⟨nbr, heq⟩ := (s.wcmdTaken r others).opened_eq w (s.nbr.regs.get r).stage
    have hregs : nbr.regs = (s.wcmdTaken r others).nbr.regs := congrArg (fun t : State => t.nbr.regs) heq.symm
    have hclosers : nbr.closers = closesLeft r others s := congrArg (fun t : State => t.nbr.closers) heq.symm
    rw [heq] at hwin hwins hport hports ⊢
    obtain ⟨hmine, hothers⟩ := othersPreempted_of_mod (u := { s.wcmdTaken r others with nbr := nbr }) hregs fun g =>
      { g with wstat := 0 }
    exact ⟨hwin, hwins, (congrArg Port.tx hport).trans rfl, (congrArg Port.txSeq hport).trans rfl,
      (congrArg Port.sends hport).trans rfl, hports, hmine, hothers, hclosers, rfl⟩
  · obtain ⟨hmine, hothers⟩ := othersPreempted_of_mod (s := s) (r := r) (others := others) rfl fun g =>
      { g with stage := #v[(s.win w).addr, (0 : BitVec 10) ++ BitVec.ofNat 2 (s.win w).port.val ++ (s.win w).lines,
                           (s.win w).credit0.setWidth 32, 0]
               wcred := (s.win w).granted, wstat := 0, infoOpen := (s.win w).isOpen, infoClosing := (s.win w).closing
               infoGen := (s.win w).gen, warr := (s.win w).arr }
    have hexec := (exec_windowRead (State.canAct_powered ha) r w others).trans
      (congrArg _ (State.wcmdWrite_taken (State.mayWin_of ha hpr) ht fun s => s.windowRead r w))
    exact ⟨_, hexec, rfl, congrArg NbrRegs.stage hmine, congrArg NbrRegs.infoOpen hmine, congrArg NbrRegs.infoGen hmine,
      congrArg NbrRegs.warr hmine, congrArg NbrRegs.wstat hmine, hothers, rfl⟩
  · obtain ⟨hmine, hothers⟩ := othersPreempted_of_mod (s := s) (r := r) (others := others) rfl fun g => { g with wstat := 5 }
    exact ⟨_, exec_windowCommand_closed ha (State.mayWin_of ha hpr) ht w hw hc, hmine, hothers, rfl, rfl, rfl, rfl⟩
  · have hexec : exec (.windowCloseEffect w) s = .next (if s.powered then s.closeEffect w else s) := rfl
    rw [hexec, State.closeEffect_waits hmem hw, ite_self]
  · refine ⟨_, (exec_windowCloseEffect hp w).trans (congrArg _ (State.closeEffect_done hc hsilent harr hclosers hup hmay)),
      ?_, fun v hv => State.modWin_win_ne s hv _, congrArg Port.tx (State.modPort_port _ _ _), ?_, rfl, rfl⟩
    · refine (State.modWin_win s w _).trans ?_
      rw [Window.closed, ← hsilent]
    · rw [State.setWstat_regs]

end Sys2Proof.Machine

/-! # Whole words that an access writes and reads through its Firn entry -/

namespace Sys2Proof.Machine

/-! ## Entries of a sparse store -/

theorem mem_sset_self {α : Type} [DecidableEq α] {d v : α} (hv : v ≠ d) (i : Nat) (m : Store α) :
    (i, v) ∈ sset d m i v := by
  induction m with
  | nil => simp [sset, hv]
  | cons a m ih =>
    obtain ⟨k, x⟩ := a
    rw [sset, if_neg hv, if_neg hv]
    split
    · exact List.mem_cons_self
    · split
      · exact List.mem_cons_self
      · exact List.mem_cons_of_mem _ ih

/-- A write keeps the entries of the other keys. -/
theorem mem_sset_of_ne {α : Type} [DecidableEq α] {d v : α} {i : Nat} {m : Store α} {a : Nat × α} (ha : a ∈ m) (hi : a.1 ≠ i) :
    a ∈ sset d m i v := by
  induction m with
  | nil => exact absurd ha List.not_mem_nil
  | cons b m ih =>
    obtain ⟨k, x⟩ := b
    rw [sset]
    by_cases hik : i = k
    · have hm : a ∈ m := (List.mem_cons.mp ha).resolve_left fun h => hi (by rw [h, hik])
      rw [if_pos hik]
      split
      · exact hm
      · exact List.mem_cons_of_mem _ hm
    · rw [if_neg hik]
      split
      · split
        · exact ha
        · exact List.mem_cons_of_mem _ ha
      · exact (List.mem_cons.mp ha).elim (fun h => h ▸ List.mem_cons_self) fun h => List.mem_cons_of_mem _ (ih h)

/-- A write brings its own entry alone. -/
theorem eq_or_mem_of_mem_sset {α : Type} [DecidableEq α] {d v : α} {i : Nat} {m : Store α} {a : Nat × α}
    (ha : a ∈ sset d m i v) : a = (i, v) ∨ a ∈ m := by
  induction m with
  | nil =>
    rw [sset] at ha
    split at ha
    · exact absurd ha List.not_mem_nil
    · exact .inl (List.mem_singleton.mp ha)
  | cons b m ih =>
    obtain ⟨k, x⟩ := b
    rw [sset] at ha
    split at ha
    · split at ha
      · exact .inr (List.mem_cons_of_mem _ ha)
      · exact (List.mem_cons.mp ha).imp_right (List.mem_cons_of_mem _)
    · split at ha
      · split at ha
        · exact .inr ha
        · exact List.mem_cons.mp ha
      · obtain h | h := List.mem_cons.mp ha
        · exact .inr (h ▸ List.mem_cons_self)
        · exact (ih h).imp_right (List.mem_cons_of_mem _)

/-- A key without an entry reads as the default. -/
theorem sget_of_not_mem {α : Type} {d : α} {m : Store α} {i : Nat} (h : ∀ v, (i, v) ∉ m) : sget d m i = d := by
  induction m with
  | nil => rfl
  | cons b m ih =>
    obtain ⟨k, x⟩ := b
    have hik : i ≠ k := fun e => h x (e ▸ List.mem_cons_self)
    rw [sget, if_neg hik]
    split
    · rfl
    · exact ih fun v hv => h v (List.mem_cons_of_mem _ hv)

/-- The keys of a canonical store rise. -/
theorem swfFrom_rising {α : Type} [DecidableEq α] {d : α} {m : Store α} {lo : Nat} (h : swfFrom d lo m = true) :
    m.Pairwise (fun a b => a.1 < b.1) ∧ ∀ a ∈ m, lo ≤ a.1 := by
  induction m generalizing lo with
  | nil => exact ⟨.nil, fun a ha => absurd ha List.not_mem_nil⟩
  | cons b m ih =>
    obtain ⟨k, x⟩ := b
    simp only [swfFrom, Bool.and_eq_true, decide_eq_true_eq] at h
    obtain ⟨⟨hlo, -⟩, hrest⟩ := h
    obtain ⟨hpair, hall⟩ := ih hrest
    refine ⟨List.pairwise_cons.mpr ⟨fun a ha => hall a ha, hpair⟩, fun a ha => ?_⟩
    obtain rfl | ha := List.mem_cons.mp ha
    · exact hlo
    · exact hlo.trans (Nat.le_of_succ_le (hall a ha))

/-! ## The entry that an access holds (R300, R303) -/

/-- An access holds a Firn entry. -/
structure State.HasFirn (s : State) (id : Nat) (i : Fin 64) (e : FirnEntry) : Prop where
  holds : s.firnFor id = some i
  value : s.ice.firn.get i = some e

theorem State.HasFirn.acc {s : State} {id : Nat} {i : Fin 64} {e : FirnEntry} (h : s.HasFirn id i e) : e.acc = id :=
  State.firnFor_some h.holds h.value

/-- An entry of the same access in its place. -/
theorem State.HasFirn.setFirn {s : State} {id : Nat} {i : Fin 64} {e e' : FirnEntry} (h : s.HasFirn id i e) (he : e'.acc = id) :
    (s.setFirn i (some e')).HasFirn id i e' := by
  refine ⟨Eq.trans ?_ h.holds, vset_get_same _ _ _⟩
  unfold State.firnFor
  congr 1
  funext j
  by_cases hj : j = i
  · simp only [hj, State.setFirn, vset_get_same, h.value, he, h.acc]
  · simp only [State.setFirn, vset_get_ne _ _ hj]

theorem State.HasFirn.of_firn {s t : State} {id : Nat} {i : Fin 64} {e : FirnEntry} (h : s.HasFirn id i e)
    (ht : t.ice.firn = s.ice.firn) : t.HasFirn id i e := by
  refine ⟨Eq.trans ?_ h.holds, by rw [ht]; exact h.value⟩
  unfold State.firnFor
  rw [ht]

/-- An entry with nothing in it. -/
structure FirnEntry.Empty (e : FirnEntry) : Prop where
  line : e.line = none
  read : e.read = []
  write : e.write = []

/-- An access that may have its entry has it, empty, once it has asked; nothing else changes (R301, R303). -/
theorem State.firnAsk_ready {s : State} {id : Nat} {who : Requester} (h : s.firnReady id who) :
    ∃ firn q i e, s.firnAsk id who = { s with ice := { s.ice with firn, firnQ := q } } ∧
      (s.firnAsk id who).HasFirn id i e ∧ e.Empty := by
  obtain ⟨i, e, hfor, hget, hline, hread, hwrite⟩ | ⟨hnone, hq, hfree⟩ := h
  · have hask : s.firnAsk id who = s := by
      rw [State.firnAsk, hfor]
      rfl
    rw [hask]
    exact ⟨_, _, i, e, rfl, ⟨hfor, hget⟩, hline, hread, hwrite⟩
  · obtain ⟨i, hi⟩ := Option.isSome_iff_exists.mp hfree
    have hfree' : ({ s with ice := { s.ice with firnQ := [] } } : State).firnFree who = some i := hi
    have hask : s.firnAsk id who =
        ({ s with ice := { s.ice with firnQ := [] } } : State).setFirn i (some { acc := id, who }) := by
      rw [State.firnAsk, hnone, hq, if_neg (by simp)]
      simp only [insertAsk, State.firnGrant, firnGrants, hfree']
    have hother : ∀ j x, s.ice.firn.get j = some x → x.acc ≠ id := fun j x hx he => by
      have hj := List.find?_eq_none.mp hnone j (mem_fins j)
      rw [hx] at hj
      exact hj (beq_iff_eq.mpr he)
    rw [hask]
    refine ⟨_, _, i, { acc := id, who }, rfl, ⟨?_, vset_get_same _ _ _⟩, rfl, rfl, rfl⟩
    cases hf : (({ s with ice := { s.ice with firnQ := [] } } : State).setFirn i (some { acc := id, who })).firnFor id with
    | none =>
      have hi' := List.find?_eq_none.mp hf i (mem_fins i)
      simp only [State.setFirn, vset_get_same] at hi'
      exact absurd (beq_self_eq_true id) hi'
    | some j =>
      have hj := List.find?_some hf
      by_cases hji : j = i
      · rw [hji]
      · simp only [State.setFirn, vset_get_ne _ _ hji] at hj
        split at hj
        next x hx => exact absurd (beq_iff_eq.mp hj) (hother j x hx)
        · exact absurd hj (by decide)

/-! ## Writing (R301, R302) -/

/-- A word of a shadow line as a write of the window. -/
def Shadow.asWrite (base : Nat) (q : Nat × Shadow) : IceWrite :=
  { word := base + q.1, data := q.2.data, mask := q.2.written, mark := decide (q.2.marked ≠ 0#4) }

theorem FirnEntry.writes_line {e : FirnEntry} {f : Fin 64} {base : Nat} (h : e.line = some (f, base)) :
    e.writes = e.write.map (Shadow.asWrite base) := by
  rw [FirnEntry.writes, h]
  rfl

/-- A whole word gathered afresh is the word. -/
theorem Shadow.gather_whole {w : IceWrite} (hw : w.mask = 0xF) {base k : Nat} (hk : base + k = w.word) :
    Shadow.asWrite base (k, ({} : Shadow).gather w) = w := by
  obtain ⟨word, data, mask, mark⟩ := w
  obtain rfl : mask = 0xF := hw
  have hall : maskBits 0xF = BitVec.allOnes 32 := by decide
  have hdata : (0#32 &&& ~~~(maskBits 0xF)) ||| (data &&& maskBits 0xF) = data := by
    rw [hall, BitVec.and_allOnes, BitVec.zero_and, BitVec.zero_or]
  have hmark : decide ((if mark then (0 : BitVec 4) ||| 0xF else 0 &&& ~~~0xF) ≠ 0#4) = mark := by cases mark <;> decide
  simp only [Shadow.asWrite, Shadow.gather, hk, hmark]
  exact congrArg (fun d => ({ word, data := d, mask := 0xF, mark } : IceWrite)) hdata

/-- The access `id` has written the words `done` of floe `f` since the state `s0`: each is held in its Firn entry `e` or
lies in its cell, and no other cell has changed. -/
structure State.Gathered (s0 s : State) (id : Nat) (f : Fin 64) (done : List IceWrite) (i : Fin 64) (e : FirnEntry) : Prop where
  frame : ∃ obs cells wb firn, s = { s0 with obs, ice := { s0.ice with cells, writebacks := wb, firn } }
  canonical : swf 0 s.ice.cells = true
  entry : s.HasFirn id i e
  keys : swf {} e.write = true
  line : ∀ g b, e.line = some (g, b) → g = f
  idle : e.line = none → e.write = []
  held : ∀ w ∈ e.writes, w ∈ done
  kept : ∀ w ∈ done, w ∈ e.writes ∨ ∀ c, cellOf s0 f w.word = some c → sget 0 s.ice.cells c = encodeWord w.data w.mark
  others : ∀ c, (∀ w ∈ done, cellOf s0 f w.word ≠ some c) → sget 0 s.ice.cells c = sget 0 s0.ice.cells c

/-- Two words of some that lie in one cell are one word. -/
def CellsApart (s : State) (f : Fin 64) (ws : List IceWrite) : Prop :=
  ∀ v ∈ ws, ∀ w ∈ ws, ∀ c, cellOf s f v.word = some c → cellOf s f w.word = some c → v = w

/-- Nothing is written yet. -/
theorem State.Gathered.start {s : State} {id : Nat} {i : Fin 64} {e : FirnEntry} (hc : swf 0 s.ice.cells = true)
    (h : s.HasFirn id i e) (he : e.Empty) (f : Fin 64) : s.Gathered s id f [] i e where
  frame := ⟨s.obs, s.ice.cells, s.ice.writebacks, s.ice.firn, rfl⟩
  canonical := hc
  entry := h
  keys := by rw [he.write]; rfl
  line g b hl := by rw [he.line] at hl; exact absurd hl (by simp)
  idle _ := he.write
  held w hw := by rw [FirnEntry.writes, he.line] at hw; exact hw
  kept w hw := absurd hw List.not_mem_nil
  others c _ := rfl

section

variable {s0 s : State} {id : Nat} {f : Fin 64} {done : List IceWrite} {i : Fin 64} {e : FirnEntry}

/-- A change of a port is none of the words. -/
theorem State.Gathered.modPort (h : s0.Gathered s id f done i e) (p : Fin 4) (g : Port → Port) :
    (s0.modPort p g).Gathered (s.modPort p g) id f done i e where
  frame := by
    obtain ⟨obs, cells, wb, firn, heq⟩ := h.frame
    exact ⟨obs, cells, wb, firn, by rw [heq]; rfl⟩
  canonical := h.canonical
  entry := h.entry.of_firn rfl
  keys := h.keys
  line := h.line
  idle := h.idle
  held := h.held
  kept := h.kept
  others := h.others

theorem State.Gathered.cellOf_eq (h : s0.Gathered s id f done i e) (w : Nat) : cellOf s f w = cellOf s0 f w := by
  obtain ⟨_, _, _, _, rfl⟩ := h.frame
  exact cellOf_congr rfl rfl rfl f w

theorem State.Gathered.place_eq (h : s0.Gathered s id f done i e) (g : Fin 64) (w : Nat) : s.place g w = s0.place g w := by
  obtain ⟨_, _, _, _, rfl⟩ := h.frame
  rfl

/-- The words that the entry holds lie in different cells. -/
theorem State.Gathered.nodup (h : s0.Gathered s id f done i e) (hd : CellsApart s0 f done) :
    (e.writes.filterMap fun w => cellOf s0 f w.word).Nodup := by
  cases hl : e.line with
  | none =>
    have hnil : e.writes = [] := by rw [FirnEntry.writes, hl]
    rw [hnil]
    exact .nil
  | some gb =>
    obtain ⟨g, base⟩ := gb
    have hheld := h.held
    rw [FirnEntry.writes_line hl] at hheld ⊢
    rw [List.Nodup, List.pairwise_filterMap, List.pairwise_map]
    refine (swfFrom_rising h.keys).1.imp_of_mem fun {a b} ha hb hlt c hc c' hc' hcc => ?_
    have hword := hd _ (hheld _ (List.mem_map_of_mem ha)) _ (hheld _ (List.mem_map_of_mem hb)) c hc (by rw [hcc]; exact hc')
    exact absurd (Nat.add_left_cancel (congrArg IceWrite.word hword)) (Nat.ne_of_lt hlt)

/-- Whole words go to their cells as they are. -/
theorem State.foldl_writeBytes_whole (who : Src) (f : Fin 64) {ws : List IceWrite} (hw : ∀ w ∈ ws, w.mask = 0xF) (s : State) :
    ws.foldl (fun s w => s.writeBytes who f w.word w.mask w.data w.mark) s = s.writeMerged f ws := by
  induction ws generalizing s with
  | nil => rfl
  | cons w ws ih =>
    have hone : s.writeBytes who f w.word w.mask w.data w.mark = s.writeResident f w.word w.data w.mark := by
      rw [State.writeBytes, hw w List.mem_cons_self, if_neg (by decide), if_pos rfl]
    rw [List.foldl_cons, hone, ih (fun w hm => hw w (List.mem_cons_of_mem _ hm))]
    rfl

/-- An entry whose line has gone to the banks. -/
def FirnEntry.flushed (e : FirnEntry) : FirnEntry := { e with line := none, read := [], write := [] }

theorem State.HasFirn.firnFlush (h : s.HasFirn id i e) : s.firnFlush id =
    (e.writes.foldl (fun s w => s.writeBytes e.who.src ((e.line.map (·.1)).getD 0) w.word w.mask w.data w.mark)
      (s.countEvent 0x10 (if e.writes.isEmpty then 0 else 1))).setFirn i (some e.flushed) := by
  simp only [State.firnFlush, h.holds, h.value]
  rfl

/-- A flush brings every word written so far to its cell (R302). -/
theorem State.Gathered.flush (h : s0.Gathered s id f done i e) (hd : CellsApart s0 f done) (hmask : ∀ w ∈ done, w.mask = 0xF) :
    s0.Gathered (s.firnFlush id) id f done i e.flushed := by
  have hwhole : ∀ w ∈ e.writes, w.mask = 0xF := fun w hw => hmask w (h.held w hw)
  have hfloe : e.writes.foldl (fun s w => s.writeBytes e.who.src ((e.line.map (·.1)).getD 0) w.word w.mask w.data w.mark)
      (s.countEvent 0x10 (if e.writes.isEmpty then 0 else 1)) =
      (s.countEvent 0x10 (if e.writes.isEmpty then 0 else 1)).writeMerged f e.writes := by
    cases hl : e.line with
    | none =>
      have hnil : e.writes = [] := by rw [FirnEntry.writes, hl]
      rw [hnil]
      rfl
    | some gb =>
      obtain ⟨g, base⟩ := gb
      obtain rfl : g = f := h.line g base hl
      exact State.foldl_writeBytes_whole _ _ hwhole _
  generalize hu : s.countEvent 0x10 (if e.writes.isEmpty then 0 else 1) = u at hfloe
  have hice : u.ice = s.ice := by rw [← hu]; rfl
  have hcell : ∀ w, cellOf u f w = cellOf s0 f w := fun w => by
    rw [← h.cellOf_eq w, ← hu]
    rfl
  obtain ⟨cells, wb, heq⟩ := State.writeMerged_frame f e.writes u
  obtain ⟨hin, hout⟩ := State.writeMerged_cells f e.writes u (by rw [hice]; exact h.canonical)
    (by simp only [hcell]; exact h.nodup hd)
  have hswf : swf 0 (u.writeMerged f e.writes).ice.cells = true := by
    have hall : ∀ (l : List IceWrite) (v : State), swf 0 v.ice.cells = true → swf 0 (v.writeMerged f l).ice.cells = true := by
      intro l
      induction l with
      | nil => exact fun v hv => hv
      | cons w l ih => exact fun v hv => ih _ (State.writeResident_cells v f w.word w.data w.mark hv).1
    exact hall _ _ (by rw [hice]; exact h.canonical)
  simp only [hcell, hice] at hin hout
  have hflush : s.firnFlush id = (u.writeMerged f e.writes).setFirn i (some e.flushed) := by
    rw [h.entry.firnFlush, hu, hfloe]
  have hcells : (s.firnFlush id).ice.cells = (u.writeMerged f e.writes).ice.cells := by rw [hflush]; rfl
  have hentry : (u.writeMerged f e.writes).HasFirn id i e := h.entry.of_firn (by rw [heq, ← hice])
  obtain ⟨obs0, cells0, wb0, firn0, hframe⟩ := h.frame
  refine ⟨?_, by rw [hcells]; exact hswf, by rw [hflush]; exact hentry.setFirn h.entry.acc, rfl,
    fun g b hl => absurd hl (by simp [FirnEntry.flushed]), fun _ => rfl, fun w hw => absurd hw List.not_mem_nil,
    fun w hw => .inr fun c hc => ?_, fun c hc => ?_⟩
  · rw [hflush, heq, ← hu, hframe]
    exact ⟨_, _, _, _, rfl⟩
  · rw [hcells]
    by_cases hmem : w ∈ e.writes
    · exact hin w hmem c hc
    · have hkept := (h.kept w hw).resolve_left hmem c hc
      by_cases hover : ∃ v ∈ e.writes, cellOf s0 f v.word = some c
      · obtain ⟨v, hv, hvc⟩ := hover
        exact absurd (hd v (h.held v hv) w hw c hvc hc ▸ hv) hmem
      · rw [hout c fun v hv hvc => hover ⟨v, hv, hvc⟩]
        exact hkept
  · rw [hcells, hout c fun w hw => hc w (h.held w hw)]
    exact h.others c hc

/-- Another content of the entry. -/
theorem State.Gathered.setEntry (h : s0.Gathered s id f done i e) {e' : FirnEntry} {done' : List IceWrite}
    (hacc : e'.acc = id) (hkeys : swf {} e'.write = true) (hline : ∀ g b, e'.line = some (g, b) → g = f)
    (hidle : e'.line = none → e'.write = []) (hheld : ∀ w ∈ e'.writes, w ∈ done')
    (hkept : ∀ w ∈ done', w ∈ e'.writes ∨ w ∈ done ∧ w ∉ e.writes) (hsub : ∀ w ∈ done, w ∈ done') :
    s0.Gathered (s.setFirn i (some e')) id f done' i e' where
  frame := by
    obtain ⟨obs, cells, wb, firn, rfl⟩ := h.frame
    exact ⟨_, _, _, _, rfl⟩
  canonical := h.canonical
  entry := h.entry.setFirn hacc
  keys := hkeys
  line := hline
  idle := hidle
  held := hheld
  kept w hw := (hkept w hw).imp_right fun hkd => (h.kept w hkd.1).resolve_left hkd.2
  others c hc := h.others c fun w hw => hc w (hsub w hw)

/-- A flushed entry with the line of a word. -/
def FirnEntry.opened (e : FirnEntry) (g : Fin 64) (w : Nat) : FirnEntry := { e.flushed with line := some (g, w / 16 * 16) }

/-- The entry keeps the line that it holds. -/
theorem State.firnOpen_same {g : Fin 64} {w : Nat} (h : s.HasFirn id i e) (hl : e.line = some (g, w / 16 * 16)) :
    s.firnOpen id g w = s := by
  simp only [State.firnOpen, h.holds, h.value, Option.bind_some, hl, beq_self_eq_true, if_true]

/-- The entry takes another line once it is flushed (R302). -/
theorem State.firnOpen_other {g : Fin 64} {w : Nat} (h : s.HasFirn id i e) (hl : e.line ≠ some (g, w / 16 * 16))
    (hf : (s.firnFlush id).HasFirn id i e.flushed) :
    s.firnOpen id g w = (s.firnFlush id).setFirn i (some (e.opened g w)) := by
  simp only [State.firnOpen, h.holds, h.value, Option.bind_some, beq_iff_eq, hl, if_false, hf.value, Option.map_some,
    FirnEntry.opened]

/-- The entry takes a line of the floe. -/
theorem State.Gathered.openLine (h : s0.Gathered s id f done i e) (hd : CellsApart s0 f done) (hmask : ∀ w ∈ done, w.mask = 0xF)
    (w : Nat) : ∃ e', s0.Gathered (s.firnOpen id f w) id f done i e' ∧ e'.line = some (f, w / 16 * 16) := by
  by_cases hl : e.line = some (f, w / 16 * 16)
  · refine ⟨e, ?_, hl⟩
    rw [State.firnOpen_same h.entry hl]
    exact h
  · have hf := h.flush hd hmask
    refine ⟨e.opened f w, ?_, rfl⟩
    rw [State.firnOpen_other h.entry hl hf.entry]
    exact hf.setEntry hf.entry.acc hf.keys (fun g b hgb => (congrArg Prod.fst (Option.some.inj hgb)).symm) nofun nofun
      (fun v hv => .inr ⟨hv, List.not_mem_nil⟩) fun v hv => hv

/-- The entry with one word more. -/
def FirnEntry.gathered (e : FirnEntry) (w : IceWrite) : FirnEntry :=
  { e with write := sset {} e.write (w.word % 16) (({} : Shadow).gather w) }

/-- A whole word that the entry did not hold joins those that it writes. -/
theorem FirnEntry.mem_gathered {g : Fin 64} {base : Nat} (hl : e.line = some (g, base)) {w : IceWrite} (hw : w.mask = 0xF)
    (hpos : base + w.word % 16 = w.word) (hnew : ∀ v, (w.word % 16, v) ∉ e.write) {v : IceWrite} :
    v ∈ (e.gathered w).writes ↔ v = w ∨ v ∈ e.writes := by
  have hne : ({} : Shadow).gather w ≠ {} := fun he => by
    have hwr : (0#4 ||| w.mask) = 0#4 := congrArg Shadow.written he
    rw [hw] at hwr
    exact absurd hwr (by decide)
  rw [FirnEntry.writes_line hl, FirnEntry.writes_line (show (e.gathered w).line = _ from hl), List.mem_map, List.mem_map]
  constructor
  · rintro ⟨a, ha, rfl⟩
    obtain rfl | ha := eq_or_mem_of_mem_sset ha
    · exact .inl (Shadow.gather_whole hw hpos)
    · exact .inr ⟨a, ha, rfl⟩
  · rintro (rfl | ⟨a, ha, rfl⟩)
    · exact ⟨_, mem_sset_self hne (v.word % 16) e.write, Shadow.gather_whole hw hpos⟩
    · exact ⟨a, mem_sset_of_ne ha fun hk => hnew a.2 (by rw [← hk]; exact ha), rfl⟩

/-- A whole word that is not among those written joins them. -/
theorem State.Gathered.gather (h : s0.Gathered s id f done i e) (hd : CellsApart s0 f done) (hmask : ∀ w ∈ done, w.mask = 0xF)
    {w : IceWrite} (hw : w.mask = 0xF) (hplace : ∃ p b, s0.place f w.word = some (.phys p b))
    (hfresh : ∀ v ∈ done, v.word ≠ w.word) (who : Src) :
    ∃ e', s0.Gathered (s.gather who id f w) id f (done ++ [w]) i e' := by
  obtain ⟨p, b, hplace⟩ := hplace
  obtain ⟨e', h', hl⟩ := h.openLine hd hmask w.word
  have hpos : w.word / 16 * 16 + w.word % 16 = w.word := Nat.div_add_mod' w.word 16
  have hnew : ∀ v, (w.word % 16, v) ∉ e'.write := fun v hv =>
    hfresh _ (h'.held _ (by rw [FirnEntry.writes_line hl]; exact List.mem_map_of_mem hv)) hpos
  have hgather : s.gather who id f w = (s.firnOpen id f w.word).setFirn i (some (e'.gathered w)) := by
    simp only [State.gather, h.entry.holds, h.place_eq, hplace, h'.entry.value, Option.map_some, sget_of_not_mem hnew,
      FirnEntry.gathered]
  have hmem := fun v => e'.mem_gathered hl hw hpos hnew (v := v)
  rw [hgather]
  refine ⟨_, h'.setEntry h'.entry.acc (swf_sset _ _ _ _ h'.keys) h'.line (fun hn => absurd (hl.symm.trans hn) nofun)
    (fun v hv => ?_) (fun v hv => ?_) fun v hv => List.mem_append_left _ hv⟩
  · obtain rfl | hv := (hmem v).mp hv
    · exact List.mem_append_right _ List.mem_cons_self
    · exact List.mem_append_left _ (h'.held v hv)
  · obtain hv | hv := List.mem_append.mp hv
    · by_cases hin : v ∈ e'.writes
      · exact .inl ((hmem v).mpr (.inr hin))
      · exact .inr ⟨hv, hin⟩
    · exact .inl ((hmem v).mpr (.inl (List.mem_singleton.mp hv)))

/-- Whole words of different cells join those written, one after another. -/
theorem State.Gathered.foldl (who : Src) {ws : List IceWrite} (h : s0.Gathered s id f done i e)
    (hd : CellsApart s0 f (done ++ ws)) (hmask : ∀ w ∈ done ++ ws, w.mask = 0xF)
    (hplace : ∀ w ∈ ws, ∃ p b, s0.place f w.word = some (.phys p b)) (hwords : ((done ++ ws).map (·.word)).Nodup) :
    ∃ e', s0.Gathered (ws.foldl (fun s w => s.gather who id f w) s) id f (done ++ ws) i e' := by
  induction ws generalizing s done e with
  | nil => exact ⟨e, by rw [List.append_nil]; exact h⟩
  | cons w ws ih =>
    have hfresh : ∀ v ∈ done, v.word ≠ w.word := by
      rw [List.map_append, List.nodup_append] at hwords
      exact fun v hv => hwords.2.2 _ (List.mem_map_of_mem hv) _ (by simp)
    obtain ⟨e', h'⟩ := h.gather (fun v hv u hu => hd v (List.mem_append_left _ hv) u (List.mem_append_left _ hu))
      (fun v hv => hmask v (List.mem_append_left _ hv)) (hmask w (by simp)) (hplace w List.mem_cons_self) hfresh who
    rw [List.append_cons] at hd hmask hwords ⊢
    exact ih h' hd hmask (fun v hv => hplace v (List.mem_cons_of_mem _ hv)) hwords

/-- Words of the banks make no Moraine lines. -/
theorem State.morWrite_phys {t : State} {ws : List IceWrite} (hplace : ∀ w ∈ ws, ∃ p b, t.place f w.word = some (.phys p b)) :
    t.morWrite id f ws = t := by
  unfold State.morWrite
  extract_lets bytes lines
  have hbytes : bytes = [] := List.flatMap_eq_nil_iff.mpr fun w hw => by
    obtain ⟨p, b, hpb⟩ := hplace w hw
    simp only [hpb]
  have hlines : lines = [] := by simp only [lines, hbytes, List.map_nil, List.eraseDups_nil]
  simp only [hlines, List.map_nil, List.append_nil]
  rfl

/-- An access with an empty entry writes whole words of different cells (R301, R302). -/
theorem State.writeWords_gathered {t : State} (hc : swf 0 t.ice.cells = true) (ht : t.HasFirn id i e) (he : e.Empty)
    (who : Src) {ws : List IceWrite} (hd : CellsApart t f ws) (hmask : ∀ w ∈ ws, w.mask = 0xF)
    (hplace : ∀ w ∈ ws, ∃ p b, t.place f w.word = some (.phys p b)) (hwords : (ws.map (·.word)).Nodup) :
    ∃ e', t.Gathered (t.writeWords who id f ws) id f ws i e' := by
  obtain ⟨e', h⟩ := (State.Gathered.start hc ht he f).foldl who (ws := ws) hd hmask hplace hwords
  refine ⟨e', ?_⟩
  rw [State.writeWords, State.morWrite_phys fun w hw => by rw [h.place_eq]; exact hplace w hw]
  exact h

/-- After the flush of its entry an access that waits for no line frees what it holds (R299). -/
theorem State.endAccess_flushed {obs : Observation} {cells : Store (BitVec 44)} {wb : List (Nat × BitVec 44)}
    {firn : Vector (Option FirnEntry) 64}
    (h : s.firnFlush id = { s0 with obs, ice := { s0.ice with cells, writebacks := wb, firn } }) (hm : s0.morDone id = true) :
    ∃ firn q md, s.endAccess id = { s0 with
      obs
      ice := { s0.ice with
        cells, writebacks := wb, firn, firnQ := q, morData := md
        sb := { s0.ice.sb with
          alloc := s0.ice.sb.alloc.filter fun a => a.id != id
          waiting := s0.ice.sb.waiting.filter fun a => a.id != id } } } := by
  obtain ⟨firn', q, hdrop, -⟩ := (s.firnFlush id).firnDrop_within id
  rw [h] at hdrop
  refine ⟨firn', q, s0.ice.morData.filter fun m => m.acc != id, ?_⟩
  rw [State.endAccess, h, hdrop]
  exact if_pos hm

/-- The end of the access brings its words to their cells (R299, R302). -/
theorem State.Gathered.endAccess (h : s0.Gathered s id f done i e) (hd : CellsApart s0 f done)
    (hmask : ∀ w ∈ done, w.mask = 0xF) (hm : s0.morDone id = true) :
    ∃ obs cells wb firn q md, s.endAccess id = { s0 with
        obs
        ice := { s0.ice with
          cells, writebacks := wb, firn, firnQ := q, morData := md
          sb := { s0.ice.sb with
            alloc := s0.ice.sb.alloc.filter fun a => a.id != id
            waiting := s0.ice.sb.waiting.filter fun a => a.id != id } } } ∧
      (∀ w ∈ done, ∀ c, cellOf s0 f w.word = some c → sget 0 cells c = encodeWord w.data w.mark) ∧
      ∀ c, (∀ w ∈ done, cellOf s0 f w.word ≠ some c) → sget 0 cells c = sget 0 s0.ice.cells c := by
  have hf := h.flush hd hmask
  obtain ⟨obs, cells, wb, firn, hflush⟩ := hf.frame
  obtain ⟨firn', q, md, hend⟩ := State.endAccess_flushed hflush hm
  have hcells : (s.firnFlush id).ice.cells = cells := by rw [hflush]
  refine ⟨obs, cells, wb, firn', q, md, hend, fun w hw c hc => ?_, fun c hc => ?_⟩
  · rw [← hcells]
    exact (hf.kept w hw).resolve_left List.not_mem_nil c hc
  · rw [← hcells]
    exact hf.others c hc

end

end Sys2Proof.Machine

/-! # Arriving DATA messages (R378 to R380, R389) -/

namespace Sys2Proof.Machine

/-! ## Words that cannot be reached -/

/-- The two codes of a word that cannot be reached are BOUND and MELTED (R276). -/
theorem State.wordBad_code {s : State} {f : Fin 64} {w : Nat} {c : BitVec 4} (h : s.wordBad f w = some c) : c = 5 ∨ c = 6 := by
  unfold State.wordBad at h
  split at h
  · exact .inl (Option.some.inj h).symm
  · split at h
    · exact .inr (Option.some.inj h).symm
    · exact absurd h nofun
  · exact absurd h nofun

theorem State.any_wordBad (s : State) (f : Fin 64) (base n : Nat) (c : BitVec 4) :
    ((List.range n).map (base + ·)).any (fun w => s.wordBad f w == some c) = true ↔ ∃ i < n, s.wordBad f (base + i) = some c := by
  simp

/-- No word of a run has a code that none of them has. -/
theorem State.any_wordBad_false {s : State} {f : Fin 64} {base n : Nat} {c : BitVec 4}
    (h : ∀ i < n, s.wordBad f (base + i) ≠ some c) :
    ¬((List.range n).map (base + ·)).any (fun w => s.wordBad f w == some c) = true := fun hany => by
  obtain ⟨i, hi, hc⟩ := (s.any_wordBad f base n c).mp hany
  exact h i hi hc

/-! ## Arrival (R378, R389) -/

/-- The state in which a port has taken the next expected number. -/
def State.nbrTaken (s : State) (p : Fin 4) (seq : BitVec 16) : State := s.modPort p fun q => { q with rxSeq := seq + 1 }

/-- A window cannot take a line of this port and generation (R378). -/
abbrev Window.Shut (v : Window) (p : Fin 4) (gen : BitVec 16) : Prop :=
  v.isOpen = false ∨ v.closing = true ∨ v.port ≠ p ∨ v.gen ≠ gen

theorem Window.shut_iff (v : Window) (p : Fin 4) (gen : BitVec 16) :
    (!v.isOpen || v.closing || v.port != p || v.gen != gen) = true ↔ v.Shut p gen := by
  simp [Window.Shut, or_assoc]

section

variable {s : State} {p : Fin 4} {w : Fin 64} {gen : BitVec 16} {line : BitVec 20} {seq wmask smark : BitVec 16}
  {pl : Vector Word 16}

theorem State.data_untaken {t : State} (hup : (s.port p).state = .up) (ht : s.takeSeq p w gen seq = (t, false)) :
    s.data p w gen line seq wmask smark pl = t := by
  rw [State.data, State.up_of_state hup, if_neg (by decide), ht]

/-- A line that is late is counted and refused (R378, R382). -/
theorem State.data_late (hup : (s.port p).state = .up) (ht : s.takeSeq p w gen seq = (s.nbrTaken p seq, true))
    (hshut : (s.win w).Shut p gen) : s.data p w gen line seq wmask smark pl =
      { s.nbrTaken p seq with nbr := { (s.nbrTaken p seq).nbr with late := incSat s.nbr.late } }.sendRefuse p w gen seq .late := by
  rw [State.data, State.up_of_state hup, if_neg (by decide), ht]
  exact if_pos ((Window.shut_iff _ _ _).mpr hshut)

section

variable (hup : (s.port p).state = .up) (ht : s.takeSeq p w gen seq = (s.nbrTaken p seq, true))
  (hopen : ¬(s.win w).Shut p gen)
include hup ht hopen

/-- A line beyond those of the window is refused (R378). -/
theorem State.data_beyond (hline : (s.win w).lines.toNat ≤ line.toNat) :
    s.data p w gen line seq wmask smark pl = (s.nbrTaken p seq).sendRefuse p w gen seq .bound := by
  rw [State.data, State.up_of_state hup, if_neg (by decide), ht]
  exact (if_neg (mt (Window.shut_iff _ _ _).mp hopen)).trans (if_pos hline)

variable (hline : line.toNat < (s.win w).lines.toNat)
include hline

/-- A line with a word outside the floe is refused (R378). -/
theorem State.data_bound {i : Nat} (hi : i < 16)
    (hbad : s.wordBad (floePart (s.win w).addr) (wordPart (s.win w).addr + 16 * line.toNat + i) = some 5) :
    s.data p w gen line seq wmask smark pl = (s.nbrTaken p seq).sendRefuse p w gen seq .bound := by
  rw [State.data, State.up_of_state hup, if_neg (by decide), ht]
  exact (if_neg (mt (Window.shut_iff _ _ _).mp hopen)).trans ((if_neg (Nat.not_le.mpr hline)).trans
    (if_pos ((s.any_wordBad _ _ _ _).mpr ⟨i, hi, hbad⟩)))

variable (hin : ∀ j < 16, s.wordBad (floePart (s.win w).addr) (wordPart (s.win w).addr + 16 * line.toNat + j) ≠ some 5)
include hin

/-- A line with a melted word is refused (R378). -/
theorem State.data_melted {i : Nat} (hi : i < 16)
    (hbad : s.wordBad (floePart (s.win w).addr) (wordPart (s.win w).addr + 16 * line.toNat + i) = some 6) :
    s.data p w gen line seq wmask smark pl = (s.nbrTaken p seq).sendRefuse p w gen seq .melted := by
  rw [State.data, State.up_of_state hup, if_neg (by decide), ht]
  exact (if_neg (mt (Window.shut_iff _ _ _).mp hopen)).trans ((if_neg (Nat.not_le.mpr hline)).trans
    ((if_neg (State.any_wordBad_false hin)).trans (if_pos ((s.any_wordBad _ _ _ _).mpr ⟨i, hi, hbad⟩))))

/-- A line of words that can be reached is presented (R378, R380). -/
theorem State.data_presented
    (hlive : ∀ j < 16, s.wordBad (floePart (s.win w).addr) (wordPart (s.win w).addr + 16 * line.toNat + j) ≠ some 6) :
    s.data p w gen line seq wmask smark pl =
      ((s.nbrTaken p seq).present (.arrival p)
        [{ lo := wordPart (s.win w).addr + 16 * line.toNat
           hi := wordPart (s.win w).addr + 16 * line.toNat + 15, write := true }]).1.modPort p fun q => { q with arrivals := q.arrivals ++
          [{ win := w, word := wordPart (s.win w).addr + 16 * line.toNat, seq, wmask, smark, payload := pl
             sb := s.ice.sb.nextId }] } := by
  rw [State.data, State.up_of_state hup, if_neg (by decide), ht]
  exact (if_neg (mt (Window.shut_iff _ _ _).mp hopen)).trans ((if_neg (Nat.not_le.mpr hline)).trans
    ((if_neg (State.any_wordBad_false hin)).trans (if_neg (State.any_wordBad_false hlive))))

end

end

/-- What a refusal of the number taken leaves. -/
theorem State.nbrTaken_sendRefuse (s : State) (p : Fin 4) (w : Fin 64) (gen seq : BitVec 16) (why : Reason) :
    ((s.nbrTaken p seq).sendRefuse p w gen seq why).port p = { s.port p with
      rxSeq := seq + 1
      tx := (s.port p).tx ++ [{ type := 3, win := BitVec.ofNat 6 w.val, gen, seq, reason := reasonBits why }] } := by
  rw [State.sendRefuse_eq, State.nbrTaken, State.modPort_modPort, State.modPort_port]

/-! ## Landing (R379, R380) -/

/-- The words that an arrival writes. -/
def Arrival.words (a : Arrival) : List IceWrite :=
  ((fins 16).filter fun i => a.wmask.getLsbD i.val).map fun i =>
    { word := a.word + i.val, data := a.payload.get i, mark := a.smark.getLsbD i.val }

theorem Arrival.mem_words {a : Arrival} {w : IceWrite} : w ∈ a.words ↔ ∃ i : Fin 16, a.wmask.getLsbD i.val = true ∧
    ({ word := a.word + i.val, data := a.payload.get i, mark := a.smark.getLsbD i.val } : IceWrite) = w := by
  simp [Arrival.words, mem_fins]

/-- An arrival whose words are written. -/
def Port.wrote (a : Arrival) (q : Port) : Port :=
  { q with arrivals := q.arrivals.map fun b => if b.sb == a.sb then { b with written := true } else b }

theorem State.writeArrival_eq (s : State) (p : Fin 4) (a : Arrival) : s.writeArrival p a =
    (s.writeWords (.port p) a.sb (floePart (s.win a.win).addr) a.words).modPort p (Port.wrote a) := rfl

/-- A window that has counted one line more. -/
def Window.arrived (v : Window) : Window := { v with arr := incSat v.arr }

/-- The oldest arrival leaves the queue and is counted (R379). -/
def State.countArrival (s : State) (p : Fin 4) (a : Arrival) : State :=
  (((s.dropArrival p a).countEvent 0x41 1).toggleObs (0x54 + BitVec.ofNat 8 p.val)).modWin a.win Window.arrived

/-- A landed arrival is acknowledged, unless its port has gone down since it came (R380, R396). -/
def State.ackArrival (s : State) (p : Fin 4) (a : Arrival) : State :=
  if a.stale then s.settleAck p else s.landedOne p a.seq true

theorem State.landedOne_frame (s : State) (p : Fin 4) (seq : BitVec 16) (b : Bool) :
    ∃ q, s.landedOne p seq b = s.modPort p (fun _ => q) ∧ q.arrivals = (s.port p).arrivals := by
  have hport : ∀ q : Port, q.settleAck.arrivals = q.arrivals := fun q => by
    obtain ⟨_, _, h⟩ := q.settleAck_frame
    rw [h]
  unfold State.landedOne
  extract_lets t
  split
  · exact ⟨_, (State.sendAck_eq t p).trans ((State.modPort_modPort _ _ _ _).trans (State.modPort_congr rfl)), hport _⟩
  · exact ⟨_, State.modPort_congr rfl, hport _⟩

theorem State.ackArrival_frame (s : State) (p : Fin 4) (a : Arrival) :
    ∃ q, s.ackArrival p a = s.modPort p (fun _ => q) ∧ q.arrivals = (s.port p).arrivals := by
  unfold State.ackArrival
  split
  · obtain ⟨landed, ahead, h⟩ := (s.port p).settleAck_frame
    exact ⟨(s.port p).settleAck, State.modPort_congr rfl, by rw [h]⟩
  · exact s.landedOne_frame p a.seq true

/-- An arrival that is allocated and whose words can be reached is written at once when it has its entry. -/
theorem State.arrivalLanded_written {s : State} {p : Fin 4} {a : Arrival} {l : List Arrival}
    (harr : (s.port p).arrivals = a :: l) (hnew : a.written = false)
    (hwait : (s.ice.sb.waiting.any fun x => x.id == a.sb) = false)
    (hrev : s.wordReviving (floePart (s.win a.win).addr) a.word = false)
    (hok : ∀ i : Fin 16, s.wordBad (floePart (s.win a.win).addr) (a.word + i.val) = none)
    {i : Fin 64} {e : FirnEntry} (hask : (s.firnAsk a.sb (.arrival p)).HasFirn a.sb i e)
    (hdone : ((s.firnAsk a.sb (.arrival p)).writeArrival p a).morDone a.sb = true) :
    s.arrivalLanded p = (((s.firnAsk a.sb (.arrival p)).writeArrival p a).countArrival p a).ackArrival p a := by
  have hbad : ∀ c : BitVec 4, ((List.range 16).any fun i =>
      s.wordBad (floePart (s.win a.win).addr) (a.word + i) == some c) = false := fun c => by
    refine List.any_eq_false.mpr fun i hi => ?_
    rw [hok ⟨i, List.mem_range.mp hi⟩]
    exact nofun
  have hfor : ((s.firnAsk a.sb (.arrival p)).firnFor a.sb).isNone = false := by rw [hask.holds]; rfl
  simp only [State.arrivalLanded, harr, hwait, hnew, hrev, hbad, Bool.false_and, Bool.not_false, Bool.true_and, Bool.or_false,
    Bool.false_eq_true, if_false, hfor, hdone, Bool.not_true]
  rfl

/-- The words that an arrival writes lie in different cells when those of its line do. -/
theorem Arrival.cellsApart {a : Arrival} {s : State} {f : Fin 64} (h : ∀ (i j : Fin 16) c, cellOf s f (a.word + i.val) = some c →
    cellOf s f (a.word + j.val) = some c → i = j) : CellsApart s f a.words := by
  intro v hv w hw c hcv hcw
  obtain ⟨i, -, rfl⟩ := Arrival.mem_words.mp hv
  obtain ⟨j, -, rfl⟩ := Arrival.mem_words.mp hw
  rw [h i j c hcv hcw]

theorem Arrival.words_nodup (a : Arrival) : (a.words.map (·.word)).Nodup := by
  rw [Arrival.words, List.map_map]
  exact List.Nodup.map (fun i j hij => Fin.ext (Nat.add_left_cancel hij)) ((fins_nodup 16).filter _)

/-- A port whose oldest arrival has left. -/
def Port.dropFirst (q : Port) : Port := { q with arrivals := q.arrivals.drop 1 }

theorem State.countEvent_toggleObs (s : State) (c d : BitVec 8) (n : Nat) :
    ∃ obs, (s.countEvent c n).toggleObs d = { s with obs } := ⟨_, rfl⟩

theorem State.modPort_modWin (s : State) (p : Fin 4) (g : Port → Port) (w : Fin 64) (f : Window → Window) (obs : Observation) :
    ({ s.modPort p g with obs } : State).modWin w f = ({ s.modWin w f with obs } : State).modPort p g := rfl

theorem State.countArrival_eq (s : State) (p : Fin 4) (a : Arrival) :
    ∃ obs, s.countArrival p a =
      ({ (s.endAccess a.sb).modWin a.win Window.arrived with obs } : State).modPort p Port.dropFirst := by
  obtain ⟨obs, h⟩ := (s.dropArrival p a).countEvent_toggleObs 0x41 (0x54 + BitVec.ofNat 8 p.val) 1
  refine ⟨obs, ?_⟩
  rw [State.countArrival, h]
  exact State.modPort_modWin _ _ _ _ _ _

/-- After its access an arrival changes its port, its window and the observation alone. -/
theorem State.countArrival_ack (s : State) (p : Fin 4) (a : Arrival) :
    ∃ obs q, (s.countArrival p a).ackArrival p a =
        ({ (s.endAccess a.sb).modWin a.win Window.arrived with obs } : State).modPort p (fun _ => q) ∧
      q.arrivals = ((s.endAccess a.sb).port p).arrivals.drop 1 := by
  obtain ⟨obs, hcount⟩ := s.countArrival_eq p a
  obtain ⟨q, hack, harr⟩ := (s.countArrival p a).ackArrival_frame p a
  refine ⟨obs, q, ?_, ?_⟩
  · rw [hack, hcount, State.modPort_modPort]
  · rw [harr, hcount, State.modPort_port]
    exact congrArg (fun q : Port => q.arrivals.drop 1) (State.modWin_port (s.endAccess a.sb) a.win Window.arrived p)

/-- A landed arrival has left the queue and freed its access, and its window has counted it; of the rest only ports and the
Icefield have changed (R379). -/
theorem State.Gathered.landed {s0 s : State} {a : Arrival} {f : Fin 64} {ws : List IceWrite} {i : Fin 64} {e : FirnEntry}
    (h : s0.Gathered s a.sb f ws i e) (hd : CellsApart s0 f ws) (hmask : ∀ w ∈ ws, w.mask = 0xF) (hm : s0.morDone a.sb = true)
    (p : Fin 4) :
    ∃ t, (s.countArrival p a).ackArrival p a = t ∧
      (∀ w ∈ ws, ∀ c, cellOf s0 f w.word = some c → sget 0 t.ice.cells c = encodeWord w.data w.mark) ∧
      (∀ c, (∀ w ∈ ws, cellOf s0 f w.word ≠ some c) → sget 0 t.ice.cells c = sget 0 s0.ice.cells c) ∧
      t.win a.win = { s0.win a.win with arr := incSat (s0.win a.win).arr } ∧ (∀ v, v ≠ a.win → t.win v = s0.win v) ∧
      (t.port p).arrivals = (s0.port p).arrivals.drop 1 ∧ (∀ b ∈ t.ice.sb.alloc, b.id ≠ a.sb) ∧
      t.harts = s0.harts ∧ t.tiles = s0.tiles := by
  obtain ⟨obs, cells, wb, firn, q, md, hend, hin, hout⟩ := h.endAccess hd hmask hm
  obtain ⟨obs', q', hack, harr⟩ := s.countArrival_ack p a
  have hcells : (s.endAccess a.sb).ice.cells = cells := by rw [hend]
  have halloc : (s.endAccess a.sb).ice.sb.alloc = s0.ice.sb.alloc.filter fun b => b.id != a.sb := by rw [hend]
  have hnbr : (s.endAccess a.sb).nbr = s0.nbr := by rw [hend]
  have hharts : (s.endAccess a.sb).harts = s0.harts := by rw [hend]
  have htiles : (s.endAccess a.sb).tiles = s0.tiles := by rw [hend]
  clear hend
  generalize s.endAccess a.sb = u at *
  have hwin : ∀ v, u.win v = s0.win v := fun v => congrArg (fun n : Neighbours => n.windows.get v) hnbr
  have hport : u.port p = s0.port p := congrArg (fun n : Neighbours => n.ports.get p) hnbr
  rw [← hcells] at hin hout
  refine ⟨_, hack, hin, hout, ?_, fun v hv => ?_, ?_, fun b hb => ?_, hharts, htiles⟩
  · rw [← hwin]
    exact State.modWin_win u a.win _
  · exact (State.modWin_win_ne u hv _).trans (hwin v)
  · rw [State.modPort_port, harr, hport]
  · change b ∈ u.ice.sb.alloc at hb
    rw [halloc] at hb
    exact bne_iff_ne.mp (List.mem_filter.mp hb).2

theorem cellOf_phys {s : State} {f : Fin 64} {w p : Nat} {h : Bool} (hp : s.place f w = some (.phys p h)) :
    cellOf s f w = some (s.cellAt (s.bankLevel p h).1 (s.bankLevel p h).2) := by rw [cellOf, hp]

/-- A word with a cell lies in a bank. -/
theorem place_of_cellOf {s : State} {f : Fin 64} {w c : Nat} (h : cellOf s f w = some c) :
    ∃ p b, s.place f w = some (.phys p b) := by
  unfold cellOf at h
  split at h
  next p b hp => exact ⟨p, b, hp⟩
  · exact absurd h nofun

/-- An arrival whose line lies in sixteen cells of the banks writes them as it selects and retires. -/
theorem State.arrivalLanded_lands {p : Fin 4} {a : Arrival} {l : List Arrival} {c : Fin 16 → Nat} {s : State}
    (hcanon : swf 0 s.ice.cells = true) (harr : (s.port p).arrivals = a :: l) (hnew : a.written = false)
    (hothers : ∀ b ∈ l, b.sb ≠ a.sb) (hwait : (s.ice.sb.waiting.any fun x => x.id == a.sb) = false)
    (hm : s.morDone a.sb = true) (hcell : ∀ i : Fin 16, cellOf s (floePart (s.win a.win).addr) (a.word + i.val) = some (c i))
    (hapart : ∀ i j, c i = c j → i = j)
    (hok : ∀ i : Fin 16, s.wordBad (floePart (s.win a.win).addr) (a.word + i.val) = none)
    (hrev : s.wordReviving (floePart (s.win a.win).addr) a.word = false) (hready : s.firnReady a.sb (.arrival p)) :
    ∃ t, s.arrivalLanded p = t ∧
      (∀ i : Fin 16, a.wmask.getLsbD i.val = true →
        sget 0 t.ice.cells (c i) = encodeWord (a.payload.get i) (a.smark.getLsbD i.val)) ∧
      (∀ cell, (∀ i : Fin 16, a.wmask.getLsbD i.val = true → cell ≠ c i) →
        sget 0 t.ice.cells cell = sget 0 s.ice.cells cell) ∧
      t.win a.win = { s.win a.win with arr := incSat (s.win a.win).arr } ∧ (∀ v, v ≠ a.win → t.win v = s.win v) ∧
      (t.port p).arrivals = l ∧ (∀ b ∈ t.ice.sb.alloc, b.id ≠ a.sb) ∧ t.harts = s.harts ∧ t.tiles = s.tiles := by
  obtain ⟨firn, fq, i, e, hask, hentry, hempty⟩ := State.firnAsk_ready hready
  have hland := State.arrivalLanded_written harr hnew hwait hrev hok hentry
  generalize s.firnAsk a.sb (.arrival p) = s1 at hask hentry hland
  have hwin : ∀ v, s1.win v = s.win v := fun v => by rw [hask]; rfl
  have hport : s1.port p = s.port p := by rw [hask]; rfl
  have hcells : s1.ice.cells = s.ice.cells := by rw [hask]
  have hm1 : s1.morDone a.sb = true := by rw [hask]; exact hm
  have hharts : s1.harts = s.harts := by rw [hask]
  have htiles : s1.tiles = s.tiles := by rw [hask]
  have hcell1 : ∀ i : Fin 16, cellOf s1 (floePart (s1.win a.win).addr) (a.word + i.val) = some (c i) := fun i => by
    rw [hwin, ← hcell i, hask]
    exact cellOf_congr rfl rfl rfl _ _
  clear hask
  have hd : CellsApart s1 (floePart (s1.win a.win).addr) a.words := Arrival.cellsApart fun i j d hi hj =>
    hapart i j (Option.some.inj ((hcell1 i).symm.trans (hi.trans (hj.symm.trans (hcell1 j)))))
  have hmask : ∀ w ∈ a.words, w.mask = 0xF := fun w hw => by
    obtain ⟨j, -, rfl⟩ := Arrival.mem_words.mp hw
    rfl
  have hplace : ∀ w ∈ a.words, ∃ p b, s1.place (floePart (s1.win a.win).addr) w.word = some (.phys p b) := fun w hw => by
    obtain ⟨j, -, rfl⟩ := Arrival.mem_words.mp hw
    exact place_of_cellOf (hcell1 j)
  obtain ⟨e', hwrote⟩ := State.writeWords_gathered (by rw [hcells]; exact hcanon) hentry hempty (.port p) hd hmask hplace
    a.words_nodup
  have hwrote := hwrote.modPort p (Port.wrote a)
  rw [← State.writeArrival_eq] at hwrote
  obtain ⟨t, ht, hin, hout, harrived, hwins, hleft, hfreed, hth, htt⟩ := hwrote.landed hd hmask hm1 p
  refine ⟨t, (hland ?_).trans ht, fun j hj => ?_, fun cell hcl => ?_, ?_, fun v hv => ?_, ?_, hfreed, hth.trans hharts,
    htt.trans htiles⟩
  · obtain ⟨obs, cells, wb, firn, hframe⟩ := hwrote.frame
    rw [hframe]
    exact hm1
  · exact hin _ (Arrival.mem_words.mpr ⟨j, hj, rfl⟩) _ (hcell1 j)
  · refine (hout cell fun w hw => ?_).trans (congrArg (sget 0 · cell) hcells)
    obtain ⟨j, hj, rfl⟩ := Arrival.mem_words.mp hw
    exact fun hc => hcl j hj (Option.some.inj (hc.symm.trans (hcell1 j)))
  · rw [harrived, State.modPort_win, hwin]
  · rw [hwins v hv, State.modPort_win, hwin]
  · have hkeep : l.map (fun b => if b.sb == a.sb then { b with written := true } else b) = l :=
      (List.map_congr_left fun b hb => if_neg (by simpa using hothers b hb)).trans (List.map_id' l)
    rw [hleft, State.modPort_port, hport, Port.wrote, harr]
    exact hkeep

/-- Settles O41: a message for a shut window, beyond the lines, or with a word that cannot be reached is refused, and one that
lands brings its words to their cells through its Firn entry. -/
theorem dataMessagesLandAndAreCounted : Obligations.DataMessagesLandAndAreCounted := by
  unfold Obligations.DataMessagesLandAndAreCounted
  refine ⟨fun p w gen line seq wmask smark pl s hp hup => ?_, ?_⟩
  · have hexec : exec (.data p w gen line seq wmask smark pl) s = .next (s.data p w gen line seq wmask smark pl) :=
      congrArg Host.Outcome.next (if_pos hp)
    rw [hexec]
    refine ⟨fun hseq hfull => ?_, fun hseq => ?_, fun hseq hroom => ?_⟩
    · rw [State.data_untaken hup (State.takeSeq_full hseq hfull w gen)]
      rfl
    · rw [State.data_untaken hup (State.takeSeq_outOfSequence hseq w gen), State.sendAck_eq]
    have ht : s.takeSeq p w gen seq = (s.nbrTaken p seq, true) := State.takeSeq_next hseq hroom w gen
    refine ⟨fun hshut => ⟨_, congrArg _ (State.data_late hup ht hshut), ?_⟩, fun hopen hclosing hport hgen => ?_⟩
    · have hport : (({ s.nbrTaken p seq with nbr := { (s.nbrTaken p seq).nbr with late := incSat s.nbr.late } } :
          State).sendRefuse p w gen seq .late).port p = _ := s.nbrTaken_sendRefuse p w gen seq .late
      rw [hport]
      exact ⟨rfl, rfl, rfl, rfl, rfl, rfl⟩
    have hnot : ¬(s.win w).Shut p gen := by simp [Window.Shut, hopen, hclosing, hport, hgen]
    refine ⟨fun hline => ⟨_, congrArg _ (State.data_beyond hup ht hnot hline), ?_⟩, fun code i hline hi hbad hfirst => ?_,
      fun hline hall => ⟨_, congrArg _ (State.data_presented hup ht hnot hline (fun j hj => by simp [hall j hj])
        fun j hj => by simp [hall j hj]), ?_⟩⟩
    · rw [State.nbrTaken_sendRefuse]
      exact ⟨rfl, rfl, rfl, rfl⟩
    · obtain rfl | rfl := State.wordBad_code hbad
      · refine ⟨_, congrArg _ (State.data_bound hup ht hnot hline hi hbad), ?_⟩
        rw [State.nbrTaken_sendRefuse]
        exact ⟨rfl, rfl, rfl, rfl⟩
      · refine ⟨_, congrArg _ (State.data_melted hup ht hnot hline (hfirst rfl) hi hbad), ?_⟩
        rw [State.nbrTaken_sendRefuse]
        exact ⟨rfl, rfl, rfl, rfl⟩
    · rw [State.modPort_port, show ∀ u rs, (State.present (s.nbrTaken p seq) u rs).1.port p = _ from
        fun _ _ => State.modPort_port s p _]
      exact ⟨rfl, rfl, rfl, rfl, rfl, rfl, rfl⟩
  · intro p a l at' s hp hcanon harr hnew hothers hwait hm f cell hplace hapart hok hrev hready
    have hexec : exec (.arrivalLanded p) s = .next (s.arrivalLanded p) := congrArg Host.Outcome.next (if_pos hp)
    obtain ⟨t, ht, hrest⟩ := State.arrivalLanded_lands (c := cell) hcanon.1 harr hnew hothers hwait hm
      (fun i => cellOf_phys (hplace i)) hapart hok hrev hready
    exact ⟨t, by rw [hexec, ht], hrest⟩

end Sys2Proof.Machine

/-! # Clean words that an access reads through its Firn entry (R301, R306) -/

namespace Sys2Proof.Machine

/-! ## Containers and shadows -/

theorem contData_mkCont (d : Word) (m : Bool) : contData (mkCont d m) = d := by
  rw [contData, mkCont, BitVec.setWidth_append]
  simp

theorem contMark_mkCont (d : Word) (m : Bool) : contMark (mkCont d m) = m := by
  rw [contMark, mkCont, BitVec.getLsbD_append]
  cases m <;> rfl

/-- A word with no byte written over it is the word read. -/
theorem Shadow.merge_unwritten (d : Word) : ({} : Shadow).merge (mkCont d false) = mkCont d false := by
  have hbits : maskBits 0 = 0#32 := by decide
  have hdata : (d &&& ~~~(maskBits 0)) ||| (0#32 &&& maskBits 0) = d := by
    rw [hbits, BitVec.and_zero, BitVec.or_zero, BitVec.not_zero, BitVec.and_allOnes]
  rw [Shadow.merge, contData_mkCont, contMark_mkCont, Bool.false_and, Bool.or_false]
  exact congrArg (mkCont · false) hdata

/-- An entry that is not the default is in the store. -/
theorem mem_of_sget {α : Type} {d v : α} {m : Store α} {i : Nat} (h : sget d m i = v) (hv : v ≠ d) : (i, v) ∈ m := by
  induction m with
  | nil => exact absurd h.symm hv
  | cons b m ih =>
    obtain ⟨k, x⟩ := b
    rw [sget] at h
    split at h
    next hik => rw [hik, h]; exact List.mem_cons_self
    · split at h
      · exact absurd h.symm hv
      · exact List.mem_cons_of_mem _ (ih h)

/-! ## Reading -/

/-- A word of a floe lies in a bank, clean. -/
def State.HoldsClean (s : State) (f : Fin 64) (w : Nat) (d : Word) : Prop :=
  ∃ p h, s.place f w = some (.phys p h) ∧ s.codewordAt (s.bankLevel p h).1 (s.bankLevel p h).2 = encodeClean d

/-- A read of a clean word leaves the state as it is. -/
theorem State.readPhys_clean {s : State} {p : Nat} {h : Bool} {d : Word}
    (hc : s.codewordAt (s.bankLevel p h).1 (s.bankLevel p h).2 = encodeClean d) (who : Src) :
    s.readPhys who p h = (s, d, .clean) := by
  unfold State.codewordAt at hc
  simp only [State.readPhys, State.readLevel, hc, classify_encodeClean, cwData_encodeClean]

/-- The access `id` has read words of floe `f` since the state `s0`, and its entry `e` holds them as they are: the word `w`
as `data w`. -/
structure State.Reading (s0 s : State) (id : Nat) (f : Fin 64) (data : Nat → Word) (i : Fin 64) (e : FirnEntry) : Prop where
  frame : ∃ obs firn, s = { s0 with obs, ice := { s0.ice with firn } }
  entry : s.HasFirn id i e
  unwritten : e.write = []
  held : ∀ g b, e.line = some (g, b) → ∀ k v, (k, some v) ∈ e.read → v = mkCont (data (b + k)) false

theorem State.Reading.start {s : State} {id : Nat} {i : Fin 64} {e : FirnEntry} (h : s.HasFirn id i e) (he : e.Empty)
    (f : Fin 64) (data : Nat → Word) : s.Reading s id f data i e where
  frame := ⟨s.obs, s.ice.firn, rfl⟩
  entry := h
  unwritten := he.write
  held _ _ hl := absurd (he.line.symm.trans hl) nofun

section

variable {s0 s : State} {id : Nat} {f : Fin 64} {data : Nat → Word} {i : Fin 64} {e : FirnEntry}

theorem State.Reading.place_eq (h : s0.Reading s id f data i e) (g : Fin 64) (w : Nat) : s.place g w = s0.place g w := by
  obtain ⟨_, _, rfl⟩ := h.frame
  rfl

theorem State.Reading.readPhys (h : s0.Reading s id f data i e) {p : Nat} {b : Bool} {d : Word}
    (hc : s0.codewordAt (s0.bankLevel p b).1 (s0.bankLevel p b).2 = encodeClean d) (who : Src) :
    s.readPhys who p b = (s, d, .clean) := by
  obtain ⟨_, _, rfl⟩ := h.frame
  apply State.readPhys_clean
  exact hc

/-- Another content of the entry. -/
theorem State.Reading.setEntry (h : s0.Reading s id f data i e) {e' : FirnEntry} (hacc : e'.acc = id) (hw : e'.write = [])
    (hheld : ∀ g b, e'.line = some (g, b) → ∀ k v, (k, some v) ∈ e'.read → v = mkCont (data (b + k)) false) :
    s0.Reading (s.setFirn i (some e')) id f data i e' where
  frame := by
    obtain ⟨obs, firn, rfl⟩ := h.frame
    exact ⟨_, _, rfl⟩
  entry := h.entry.setFirn hacc
  unwritten := hw
  held := hheld

/-- Nothing is written, so a flush only empties the entry. -/
theorem State.Reading.flush (h : s0.Reading s id f data i e) : s0.Reading (s.firnFlush id) id f data i e.flushed := by
  have hnil : e.writes = [] := by
    unfold FirnEntry.writes
    rw [h.unwritten]
    split <;> rfl
  have hcount : s0.Reading (s.countEvent 0x10 0) id f data i e := by
    obtain ⟨obs, firn, heq⟩ := h.frame
    exact ⟨⟨_, firn, by rw [heq]; rfl⟩, h.entry.of_firn rfl, h.unwritten, h.held⟩
  rw [h.entry.firnFlush, hnil]
  exact hcount.setEntry h.entry.acc rfl fun g b hl => absurd hl (by simp [FirnEntry.flushed])

/-- The entry takes the line of a word. -/
theorem State.Reading.openLine (h : s0.Reading s id f data i e) (w : Nat) :
    ∃ e', s0.Reading (s.firnOpen id f w) id f data i e' ∧ e'.line = some (f, w / 16 * 16) := by
  by_cases hl : e.line = some (f, w / 16 * 16)
  · refine ⟨e, ?_, hl⟩
    rw [State.firnOpen_same h.entry hl]
    exact h
  · refine ⟨e.opened f w, ?_, rfl⟩
    rw [State.firnOpen_other h.entry hl h.flush.entry]
    exact h.flush.setEntry h.entry.acc rfl fun g b _ k v hv => absurd hv List.not_mem_nil

/-- The entry with one word read more. -/
def FirnEntry.filled (e : FirnEntry) (w : Nat) (v : BitVec 33) : FirnEntry :=
  { e with read := sset none e.read (w % 16) (some v) }

/-- A clean word is read as it is. -/
theorem State.Reading.readWord (h : s0.Reading s id f data i e) {w : Nat} (hc : s0.HoldsClean f w (data w)) (who : Src) :
    ∃ t e', s.readWord who id f w = (t, mkCont (data w) false, .clean) ∧ s0.Reading t id f data i e' := by
  obtain ⟨p, b, hplace, hclean⟩ := hc
  obtain ⟨e', h', hl⟩ := h.openLine w
  have hpos : w / 16 * 16 + w % 16 = w := Nat.div_add_mod' w 16
  have hread : s.readWord who id f w = (s.firnOpen id f w).firnRead who i w p b := by
    simp only [State.readWord, h.place_eq, hplace, h.entry.holds]
  rw [hread]
  cases hg : sget none e'.read (w % 16) with
  | some v =>
    obtain rfl : v = mkCont (data w) false := by
      rw [h'.held _ _ hl _ v (mem_of_sget hg nofun), hpos]
    refine ⟨s.firnOpen id f w, e', ?_, h'⟩
    simp only [State.firnRead, h'.entry.value, h'.unwritten, sget, hg, Shadow.merge_unwritten]
    rfl
  | none =>
    refine ⟨(s.firnOpen id f w).setFirn i (some (e'.filled w (mkCont (data w) false))), _, ?_,
      h'.setEntry (e' := e'.filled w (mkCont (data w) false)) h'.entry.acc h'.unwritten fun g base hgb k v hv => ?_⟩
    · simp only [State.firnRead, h'.entry.value, h'.unwritten, sget, hg, h'.readPhys hclean, CwClass.marks,
        Shadow.merge_unwritten, Option.map_some, FirnEntry.filled]
      exact if_neg (by decide)
    · obtain rfl : w / 16 * 16 = base := congrArg Prod.snd (Option.some.inj (hl.symm.trans hgb))
      obtain hkv | hold := eq_or_mem_of_mem_sset hv
      · obtain ⟨rfl, hval⟩ := Prod.mk.inj hkv
        rw [Option.some.inj hval, hpos]
      · exact h'.held _ _ hl k v hold

/-- Clean words are read as they are. -/
theorem State.Reading.readWords (h : s0.Reading s id f data i e) (who : Src) {ws : List Nat}
    (hc : ∀ w ∈ ws, s0.HoldsClean f w (data w)) :
    ∃ t e' m, s.readWords who id f ws = (t, m) ∧ s0.Reading t id f data i e' ∧ swf 0 m = true ∧
      ∀ w ∈ ws, sget 0 m w = mkCont (data w) false := by
  induction ws generalizing s e with
  | nil => exact ⟨s, e, [], rfl, h, rfl, fun w hw => absurd hw List.not_mem_nil⟩
  | cons w ws ih =>
    obtain ⟨t, e', hread, h'⟩ := h.readWord (hc w List.mem_cons_self) who
    obtain ⟨u, e'', m, hrest, h'', hm, hval⟩ := ih h' fun v hv => hc v (List.mem_cons_of_mem _ hv)
    refine ⟨u, e'', sset 0 m w (mkCont (data w) false), ?_, h'', swf_sset _ _ _ _ hm, fun v hv => ?_⟩
    · rw [State.readWords, hread]
      simp only [hrest]
    · rw [sget_sset _ _ _ _ _ hm]
      split
      next hvw => rw [hvw]
      next hvw => exact hval v ((List.mem_cons.mp hv).resolve_left hvw)

/-- An access that has only read leaves the cells as they are (R299). -/
theorem State.Reading.endAccess (h : s0.Reading s id f data i e) (hm : s0.morDone id = true) :
    ∃ obs firn q md, s.endAccess id = { s0 with
      obs
      ice := { s0.ice with
        firn, firnQ := q, morData := md
        sb := { s0.ice.sb with
          alloc := s0.ice.sb.alloc.filter fun a => a.id != id
          waiting := s0.ice.sb.waiting.filter fun a => a.id != id } } } := by
  obtain ⟨obs, firn, hflush⟩ := h.flush.frame
  obtain ⟨firn', q, md, hend⟩ := State.endAccess_flushed (cells := s0.ice.cells) (wb := s0.ice.writebacks) hflush hm
  exact ⟨obs, firn', q, md, hend⟩

end

end Sys2Proof.Machine

/-! # Send descriptors (R383 to R387) -/

namespace Sys2Proof.Machine

/-! ## Reading a descriptor (R383, R384) -/

/-- Words of the banks request no Moraine lines. -/
theorem State.morRead_phys {s : State} {id : Nat} {f : Fin 64} {ws : List Nat}
    (h : ∀ w ∈ ws, ∃ p b, s.place f w = some (.phys p b)) : s.morRead id f ws = s := by
  have haddrs : s.morAddrs f ws = [] := List.filterMap_eq_nil_iff.mpr fun w hw => by
    obtain ⟨p, b, hp⟩ := h w hw
    simp only [hp]
  simp only [State.morRead, haddrs, List.map_nil, List.eraseDups_nil, List.append_nil]

/-- A descriptor is its words 0 to 4 and 7 (R383). -/
theorem sendOf_congr {v w : Nat → Word} (h : ∀ i < 8, v i = w i) (id : Nat) (addr : Word) (who : Reader) :
    sendOf id addr who v = sendOf id addr who w := by
  simp only [sendOf, h 0 (by decide), h 1 (by decide), h 2 (by decide), h 3 (by decide), h 4 (by decide), h 7 (by decide)]

/-- The read of a descriptor that a write of CE_NBR_SEND starts. -/
def State.newRead (s : State) (r : Reader) (addr : Word) : SendRead := { addr, who := r, sb := s.ice.sb.nextId }

/-- The state in which a descriptor waits for its words. -/
def State.reads (s : State) (r : Reader) (addr : Word) : State :=
  ({ (s.present (.departure 0) [{ lo := wordPart addr, hi := wordPart addr + 7, write := false }]).1 with
    nbr := { s.nbr with reading := [s.newRead r addr] } } : State).setSstat r 0

/-- A write of CE_NBR_SEND with no earlier descriptor being read takes its own at once, or waits. -/
theorem State.nbrSend_alone {s : State} {r : Reader} {addr : Word} (halign : wordPart addr % 8 = 0)
    (hok : s.wordsOk (floePart addr) (sendWords addr) = true) (hnone : s.nbr.reading = []) :
    s.nbrSend r addr = (s.reads r addr).takeReads [s.newRead r addr] := by
  have hquiet : s.quietSends r = s :=
    congrArg (fun l => { s with nbr := { s.nbr with reading := l } })
      (show s.nbr.reading.map _ = s.nbr.reading by rw [hnone]; rfl)
  have hgo : (decide (wordPart addr % 8 ≠ 0) || !s.wordsOk (floePart addr) (sendWords addr)) = false := by
    rw [hok, halign]
    rfl
  have hlist : s.nbr.reading ++ [s.newRead r addr] = [s.newRead r addr] := by rw [hnone]; rfl
  rw [State.nbrSend, hquiet, State.reads, ← hlist]
  exact if_neg (ne_true_of_eq_false hgo)

section

variable {s : State} {a : SendRead} {data : Nat → Word}

/-- The state in which the words of a descriptor are read: its access is allocated and has its Firn entry. -/
def State.asked (s : State) (a : SendRead) : State :=
  let t := (s.allocate a.sb).firnAsk a.sb (.departure 0)
  { t with nbr := { t.nbr with reading := t.nbr.reading.map fun x => if x.sb == a.sb then { x with asked := true } else x } }

/-- The descriptor leaves the reads and takes its number. -/
def State.readDone (s : State) (a : SendRead) : State :=
  { s with nbr := { s.nbr with reading := s.nbr.reading.filter fun x => x.sb != a.sb, nextSend := s.nbr.nextSend + 1 } }

/-- A descriptor that may be read is queued with the words read. -/
theorem State.takeRead_taken (hask : a.asked = false) (hwait : (s.ice.sb.waiting.any fun x => x.id == a.sb) = true)
    (hready : s.ice.sb.ready a.sb = true) (hrev : (sendWords a.addr).any (s.wordReviving (floePart a.addr)) = false)
    (hok : s.wordsOk (floePart a.addr) (sendWords a.addr) = true)
    (hmor : (s.asked a).morRead a.sb (floePart a.addr) (sendWords a.addr) = s.asked a)
    (hm : (s.asked a).morDone a.sb = true) (hfor : ((s.asked a).firnFor a.sb).isNone = false) {t u : State}
    {m : Store (BitVec 33)} (hread : (s.asked a).readWords a.src a.sb (floePart a.addr) (sendWords a.addr) = (t, m))
    (hend : t.endAccess a.sb = u) (hin : (u.nbr.reading.all fun x => x.sb != a.sb) = false) :
    s.takeRead a = ((u.readDone a).queueSend a
      (sendOf u.nbr.nextSend a.addr a.who fun i => contData (sget 0 m (wordPart a.addr + i))).1
      (sendOf u.nbr.nextSend a.addr a.who fun i => contData (sget 0 m (wordPart a.addr + i))).2, true) := by
  have hstay : ((s.ice.sb.waiting.any fun x => x.id == a.sb) && !s.ice.sb.ready a.sb ||
      (sendWords a.addr).any (s.wordReviving (floePart a.addr))) = false := by
    rw [hready, hrev, Bool.not_true, Bool.and_false, Bool.or_false]
  have hnotdone : (!(s.asked a).morDone a.sb || ((s.asked a).firnFor a.sb).isNone) = false := by
    rw [hm, hfor]
    rfl
  rw [State.takeRead]
  refine (if_neg (ne_true_of_eq_false hstay)).trans ((if_neg (by rw [hok]; decide)).trans ?_)
  simp only [hwait, hask, if_true, Bool.false_eq_true, if_false]
  generalize hv : State.morRead _ a.sb (floePart a.addr) (sendWords a.addr) = v
  obtain rfl : v = s.asked a := hv.symm.trans hmor
  rw [hnotdone]
  simp only [Bool.false_eq_true, if_false, hread, hend, hin]
  rfl

/-- Before it reads a descriptor changes its access, its Firn entry and its mark alone. -/
theorem State.asked_frame (h : (s.allocate a.sb).firnReady a.sb (.departure 0)) :
    ∃ firn fq sb reading i e, s.asked a = { s with
        ice := { s.ice with firn, firnQ := fq, sb }
        nbr := { s.nbr with reading } } ∧
      reading = (s.nbr.reading.map fun x => if x.sb == a.sb then { x with asked := true } else x) ∧
      (s.asked a).HasFirn a.sb i e ∧ e.Empty := by
  obtain ⟨firn, fq, i, e, hask, hentry, hempty⟩ := State.firnAsk_ready h
  have hfirn : (s.asked a).ice.firn = ((s.allocate a.sb).firnAsk a.sb (.departure 0)).ice.firn := rfl
  refine ⟨firn, fq, (s.allocate a.sb).ice.sb, _, i, e, ?_, rfl, hentry.of_firn hfirn, hempty⟩
  rw [State.asked, hask]
  rfl

/-- A descriptor of clean words of the banks is queued with them. -/
theorem State.takeRead_clean (hreading : s.nbr.reading = [a]) (hask : a.asked = false)
    (hwait : (s.ice.sb.waiting.any fun x => x.id == a.sb) = true) (hready : s.ice.sb.ready a.sb = true)
    (hrev : (sendWords a.addr).any (s.wordReviving (floePart a.addr)) = false)
    (hok : s.wordsOk (floePart a.addr) (sendWords a.addr) = true) (hm : s.morDone a.sb = true)
    (hfirn : (s.allocate a.sb).firnReady a.sb (.departure 0))
    (hclean : ∀ i < 8, s.HoldsClean (floePart a.addr) (wordPart a.addr + i) (data i)) :
    ∃ u : State, s.takeRead a = (u.queueSend a (sendOf s.nbr.nextSend a.addr a.who data).1
        (sendOf s.nbr.nextSend a.addr a.who data).2, true) ∧
      u.nbr = { s.nbr with reading := [], nextSend := s.nbr.nextSend + 1 } ∧ u.ice.cells = s.ice.cells ∧
      u.harts = s.harts ∧ u.tiles = s.tiles := by
  obtain ⟨firn, fq, sb, reading, i, e, heq, hmap, hentry, hempty⟩ := State.asked_frame hfirn
  have hclean' : ∀ w ∈ sendWords a.addr, (s.asked a).HoldsClean (floePart a.addr) w (data (w - wordPart a.addr)) := by
    intro w hw
    obtain ⟨k, hk, rfl⟩ := List.mem_map.mp hw
    rw [Nat.add_sub_cancel_left, heq]
    exact hclean k (List.mem_range.mp hk)
  have hm' : (s.asked a).morDone a.sb = true := by rw [heq]; exact hm
  have hmor : (s.asked a).morRead a.sb (floePart a.addr) (sendWords a.addr) = s.asked a := State.morRead_phys fun w hw => by
    obtain ⟨p, b, hp, -⟩ := hclean' w hw
    exact ⟨p, b, hp⟩
  obtain ⟨t, e', m, hread, hafter, -, hval⟩ := (State.Reading.start hentry hempty (floePart a.addr)
    fun w => data (w - wordPart a.addr)).readWords a.src hclean'
  obtain ⟨obs, firn', q, md, hend⟩ := hafter.endAccess hm'
  have hnbr : (t.endAccess a.sb).nbr = { s.nbr with reading } := by rw [hend, heq]
  have hcells : (t.endAccess a.sb).ice.cells = s.ice.cells := by rw [hend, heq]
  have hharts : (t.endAccess a.sb).harts = s.harts := by rw [hend, heq]
  have htiles : (t.endAccess a.sb).tiles = s.tiles := by rw [hend, heq]
  have hone : reading = [{ a with asked := true }] := by
    rw [hmap, hreading]
    simp
  have hin : ((t.endAccess a.sb).nbr.reading.all fun x => x.sb != a.sb) = false := by
    rw [hnbr, hone]
    simp
  have hwords : ∀ k < 8, contData (sget 0 m (wordPart a.addr + k)) = data k := fun k hk => by
    rw [hval _ (List.mem_map_of_mem (List.mem_range.mpr hk)), contData_mkCont, Nat.add_sub_cancel_left]
  have htaken := State.takeRead_taken hask hwait hready hrev hok hmor hm' (by rw [hentry.holds]; rfl) hread rfl hin
  rw [sendOf_congr hwords, hnbr] at htaken
  refine ⟨_, htaken, ?_, hcells, hharts, htiles⟩
  rw [State.readDone, hnbr, hone]
  simp

end

/-- A descriptor that a write of CE_NBR_SEND may read at once is queued on the port that it names. -/
theorem State.nbrSend_queued {s : State} {r : Reader} {addr : Word} {data : Nat → Word} (halign : wordPart addr % 8 = 0)
    (hok : s.wordsOk (floePart addr) (sendWords addr) = true) (hnone : s.nbr.reading = [])
    (hready : (s.present (.departure 0) [{ lo := wordPart addr, hi := wordPart addr + 7, write := false }]).1.ice.sb.ready
      s.ice.sb.nextId = true)
    (hrev : (sendWords addr).any (s.wordReviving (floePart addr)) = false) (hm : s.morDone s.ice.sb.nextId = true)
    (hfirn : s.firnReady s.ice.sb.nextId (.departure 0))
    (hclean : ∀ i < 8, s.HoldsClean (floePart addr) (wordPart addr + i) (data i)) :
    ∃ u : State, s.nbrSend r addr = u.queueSend (s.newRead r addr) (sendOf s.nbr.nextSend addr r data).1
        (sendOf s.nbr.nextSend addr r data).2 ∧
      u.nbr = { (s.reads r addr).nbr with reading := [], nextSend := s.nbr.nextSend + 1 } ∧ u.ice.cells = s.ice.cells ∧
      u.harts = s.harts ∧ u.tiles = s.tiles := by
  have hwait : ((s.reads r addr).ice.sb.waiting.any fun x => x.id == (s.newRead r addr).sb) = true :=
    List.any_eq_true.mpr ⟨_, List.mem_append_right _ List.mem_cons_self, beq_self_eq_true s.ice.sb.nextId⟩
  obtain ⟨u, htake, hrest⟩ := State.takeRead_clean (s := s.reads r addr) (a := s.newRead r addr) (data := data) rfl rfl hwait
    hready hrev hok hm hfirn hclean
  refine ⟨u, ?_, hrest⟩
  rw [State.nbrSend_alone halign hok hnone, State.takeReads, htake]
  rfl

end Sys2Proof.Machine

/-! # The head of a port's queue, and the status of a descriptor (R384, R386, R387) -/

namespace Sys2Proof.Machine

/-! ## The head of the queue (R384, R386) -/

section

variable {s : State} {p : Fin 4} {d : SendDesc} {l : List SendDesc}

/-- A change of the first descriptor of a port. -/
theorem State.modSend_head (hsends : (s.port p).sends = d :: l) (hl : ∀ e ∈ l, e.id ≠ d.id) (f : SendDesc → SendDesc) :
    s.modSend p d.id f = s.modPort p fun q => { q with sends := f d :: l } := by
  have hrest : (l.map fun e => if e.id == d.id then f e else e) = l :=
    (List.map_congr_left fun e he => if_neg (by simpa using hl e he)).trans (List.map_id' l)
  refine State.modPort_congr ?_
  rw [hsends, List.map_cons, hrest, if_pos (beq_self_eq_true d.id)]

/-- A first descriptor that does not send yet is next when no descriptor has messages outstanding. -/
theorem Port.nextHead_first {q : Port} (hsends : q.sends = d :: l) (hphase : d.phase = .queued ∨ d.phase = .presented)
    (hout : ∀ e ∈ d :: l, e.outstanding = 0) : q.nextHead = some d := by
  have hbusy : (d :: l).filter (fun e => e.outstanding != 0) = [] :=
    List.filter_eq_nil_iff.mpr fun e he => by simp [hout e he]
  have hdone : (!d.doneSending) = true := by obtain h | h := hphase <;> simp [SendDesc.doneSending, h]
  have hgo : ((d.phase == .queued || d.phase == .presented) && decide (0 < 4)) = true := by
    obtain h | h := hphase <;> simp [h]
  unfold Port.nextHead
  simp only [hsends, List.find?_cons, hdone, hbusy]
  exact if_pos hgo

/-- A descriptor of a port that stands before it: nothing is read, and it is next. -/
structure State.Next (s : State) (p : Fin 4) (d : SendDesc) (l : List SendDesc) : Prop where
  reading : s.nbr.reading = []
  sends : (s.port p).sends = d :: l
  ids : ∀ e ∈ l, e.id ≠ d.id
  quiet : ∀ e ∈ d :: l, e.outstanding = 0

/-- A descriptor that completes before it sends (R386). -/
def State.completes (s : State) (p : Fin 4) (d : SendDesc) (l : List SendDesc) (c : BitVec 4) : State :=
  s.modPort p fun q => { q with sends := { d with status := c, phase := .complete } :: l }

theorem State.Next.complete (h : s.Next p d l) (c : BitVec 4) :
    s.modSend p d.id (fun d => { d with status := c, phase := .complete }) = s.completes p d l c :=
  State.modSend_head h.sends h.ids _

section

variable (h : s.Next p d l) (hphase : d.phase = .queued) (hstop : d.stop = false)
include h hphase hstop

/-- A descriptor without lines is DONE. -/
theorem State.sendStart_empty (hn : d.nlines = 0) : s.sendStart p = s.completes p d l 1 := by
  have hstopped : (d.stop && d.phase == .queued) = false := by rw [hstop]; rfl
  rw [State.sendStart, h.reading, State.takeReads, Port.nextHead_first h.sends (.inl hphase) h.quiet]
  exact (if_neg (ne_true_of_eq_false hstopped)).trans ((if_pos (by rw [hphase]; rfl)).trans ((if_pos hn).trans (h.complete 1)))

/-- A descriptor that fails a check completes with its code. -/
theorem State.sendStart_failed (hn : d.nlines ≠ 0) {c : BitVec 4} (hc : s.sendCheck p d = some c) :
    s.sendStart p = s.completes p d l c := by
  have hstopped : (d.stop && d.phase == .queued) = false := by rw [hstop]; rfl
  rw [State.sendStart, h.reading, State.takeReads, Port.nextHead_first h.sends (.inl hphase) h.quiet]
  refine (if_neg (ne_true_of_eq_false hstopped)).trans ((if_pos (by rw [hphase]; rfl)).trans ((if_neg hn).trans ?_))
  rw [hc]
  exact h.complete c

/-- A descriptor that passes every check presents its source. -/
theorem State.sendStart_presented (hn : d.nlines ≠ 0) (hc : s.sendCheck p d = none) :
    s.sendStart p = (s.present (.departure p)
        [{ lo := wordPart d.src, hi := wordPart d.src + 16 * d.nlines - 1, write := false }]).1.modPort p fun q =>
      { q with sends := { d with sb := some s.ice.sb.nextId, phase := .presented } :: l } := by
  have hstopped : (d.stop && d.phase == .queued) = false := by rw [hstop]; rfl
  rw [State.sendStart, h.reading, State.takeReads, Port.nextHead_first h.sends (.inl hphase) h.quiet]
  refine (if_neg (ne_true_of_eq_false hstopped)).trans ((if_pos (by rw [hphase]; rfl)).trans ((if_neg hn).trans ?_))
  rw [hc]
  exact State.modSend_head (s := (s.present _ _).1) h.sends h.ids _

end

/-- A presented descriptor whose source has lost a word completes (R386, R564). -/
theorem State.sendStart_lost (h : s.Next p d l) (hphase : d.phase = .presented) {id : Nat} (hsb : d.sb = some id)
    (hwait : (s.ice.sb.waiting.any fun x => x.id == id) = false)
    (hrev : ∀ j < 16 * d.nlines, s.wordReviving (floePart d.src) (wordPart d.src + j) = false) {i : Nat}
    (hi : i < 16 * d.nlines) {c : BitVec 4} (hbad : s.wordBad (floePart d.src) (wordPart d.src + i) = some c)
    (hfirst : c = 6 → ∀ j < 16 * d.nlines, s.wordBad (floePart d.src) (wordPart d.src + j) ≠ some 5) :
    s.sendStart p = s.completes p d l (if c = 5 then 4 else 5) := by
  have hqueued : (d.phase == .queued) = false := by rw [hphase]; rfl
  have hstay : ((s.ice.sb.waiting.any fun x => x.id == id) && !s.ice.sb.ready id ||
      ((List.range (16 * d.nlines)).map (wordPart d.src + ·)).any (s.wordReviving (floePart d.src))) = false := by
    rw [hwait, Bool.false_and, Bool.false_or, List.any_map, List.any_eq_false]
    exact fun j hj => by simp [hrev j (List.mem_range.mp hj)]
  rw [State.sendStart, h.reading, State.takeReads, Port.nextHead_first h.sends (.inr hphase) h.quiet]
  refine (if_neg (by rw [hqueued, Bool.and_false]; decide)).trans ((if_neg (by rw [hqueued]; decide)).trans ?_)
  simp only [hsb]
  refine (if_neg (ne_true_of_eq_false hstay)).trans ?_
  obtain rfl | rfl := State.wordBad_code hbad
  · exact (if_pos ((s.any_wordBad _ _ _ _).mpr ⟨i, hi, hbad⟩)).trans (h.complete 4)
  · exact (if_neg (State.any_wordBad_false (hfirst rfl))).trans ((if_pos ((s.any_wordBad _ _ _ _).mpr ⟨i, hi, hbad⟩)).trans
      (h.complete 5))

end

/-! ## The status (R387) -/

/-- The words that a complete descriptor writes, LANDED first. -/
def SendDesc.statusWords (d : SendDesc) : List IceWrite :=
  [{ word := wordPart d.addr + 6, data := BitVec.ofNat 32 d.landed }, { word := wordPart d.addr + 5, data := d.status.setWidth 32 }]

theorem SendDesc.forall_statusWords (d : SendDesc) {P : IceWrite → Prop}
    (h6 : P { word := wordPart d.addr + 6, data := BitVec.ofNat 32 d.landed })
    (h5 : P { word := wordPart d.addr + 5, data := d.status.setWidth 32 }) : ∀ w ∈ d.statusWords, P w := by
  simp only [SendDesc.statusWords, List.forall_mem_cons]
  exact ⟨h6, h5, fun w hw => absurd hw List.not_mem_nil⟩

/-- The descriptor leaves its port. -/
def State.dropSend (s : State) (p : Fin 4) (d : SendDesc) : State :=
  s.modPort p fun q => { q with sends := q.sends.filter fun e => e.id != d.id }

section

variable {s : State} {p : Fin 4} {d : SendDesc} {l : List SendDesc} {id : Nat}

/-- A descriptor whose status words are granted writes them through its Firn entry. -/
theorem State.writeSend_granted (hok : s.wordsOk (floePart d.addr) [wordPart d.addr + 5, wordPart d.addr + 6] = true)
    (hdone : d.doneSb = some id) (hwait : (s.ice.sb.waiting.any fun x => x.id == id) = false)
    (hrev : s.wordReviving (floePart d.addr) (wordPart d.addr + 5) = false) {i : Fin 64} {e : FirnEntry}
    (hentry : (s.firnAsk id (.departure p)).HasFirn id i e) :
    s.writeSend p d = (((s.firnAsk id (.departure p)).writeWords (.port p) id (floePart d.addr) d.statusWords).endAccess id,
      true) := by
  have hfor : ((s.firnAsk id (.departure p)).firnFor id).isNone = false := by rw [hentry.holds]; rfl
  simp only [State.writeSend, hok, hdone, hwait, hrev, hfor, Bool.not_true, Bool.false_and, Bool.or_false, Bool.false_eq_true,
    if_false]
  rfl

/-- The oldest complete descriptor leaves its port once its status is written, and raises SEND under EVT. -/
theorem State.sendComplete_written (hsends : (s.port p).sends = d :: l) (hphase : d.phase = .complete) (hsb : d.sb = none)
    (hbond : d.bond = false) (hids : ∀ e ∈ l, e.id ≠ d.id) {t : State} (hwrite : s.writeSend p d = (t, true)) :
    s.sendComplete p = if d.evt then (t.dropSend p d).raiseFor d.who 2 else t.dropSend p d := by
  have hfind : (s.port p).sends.find? (fun d => d.phase == .complete) = some d := by
    rw [hsends, List.find?_cons, hphase]
    rfl
  have hsame : s.modSend p d.id (fun d => { d with sb := none }) = s := by
    have hd : ({ d with sb := none } : SendDesc) = d := by rw [← hsb]
    rw [State.modSend_head hsends hids, hd]
    exact State.modPort_self (by rw [← hsends])
  simp only [State.sendComplete, hfind, hsb, hsame, hbond, Bool.false_eq_true, if_false, hwrite]
  rfl

/-- The status words lie in different cells when their two words do. -/
theorem SendDesc.statusWords_apart {f : Fin 64} {c5 c6 : Nat} (h5 : cellOf s f (wordPart d.addr + 5) = some c5)
    (h6 : cellOf s f (wordPart d.addr + 6) = some c6) (hne : c5 ≠ c6) : CellsApart s f d.statusWords := by
  intro v hv w hw c hcv hcw
  simp only [SendDesc.statusWords, List.mem_cons, List.not_mem_nil, or_false] at hv hw
  obtain rfl | rfl := hv <;> obtain rfl | rfl := hw
  · rfl
  · exact absurd (Option.some.inj ((h5.symm.trans hcw).trans (hcv.symm.trans h6))) hne
  · exact absurd (Option.some.inj ((h5.symm.trans hcv).trans (hcw.symm.trans h6))) hne
  · rfl

/-- STATUS and LANDED reach their cells, and no other cell changes (R387). -/
theorem State.writeSend_lands {c5 c6 : Nat} (hcanon : swf 0 s.ice.cells = true) (hm : s.morDone id = true)
    (hok : s.wordsOk (floePart d.addr) [wordPart d.addr + 5, wordPart d.addr + 6] = true) (hdone : d.doneSb = some id)
    (hwait : (s.ice.sb.waiting.any fun x => x.id == id) = false)
    (hrev : s.wordReviving (floePart d.addr) (wordPart d.addr + 5) = false) (hready : s.firnReady id (.departure p))
    (h5 : cellOf s (floePart d.addr) (wordPart d.addr + 5) = some c5)
    (h6 : cellOf s (floePart d.addr) (wordPart d.addr + 6) = some c6) (hne : c5 ≠ c6) :
    ∃ t : State, s.writeSend p d = (t, true) ∧
      (∀ cell, sget 0 t.ice.cells cell = if cell = c5 then encodeClean (d.status.setWidth 32)
        else if cell = c6 then encodeClean (BitVec.ofNat 32 d.landed) else sget 0 s.ice.cells cell) ∧
      t.nbr = s.nbr ∧ t.harts = s.harts ∧ t.tiles = s.tiles := by
  obtain ⟨firn, fq, i, e, hask, hentry, hempty⟩ := State.firnAsk_ready hready
  have hwrite := State.writeSend_granted hok hdone hwait hrev hentry
  generalize s.firnAsk id (.departure p) = s1 at hask hentry hwrite
  have hcells : s1.ice.cells = s.ice.cells := by rw [hask]
  have hm1 : s1.morDone id = true := by rw [hask]; exact hm
  have hcell : ∀ w, cellOf s1 (floePart d.addr) w = cellOf s (floePart d.addr) w := fun w => by
    rw [hask]
    exact cellOf_congr rfl rfl rfl _ _
  have h5' := (hcell _).trans h5
  have h6' := (hcell _).trans h6
  have hd := SendDesc.statusWords_apart h5' h6' hne
  have hmask : ∀ w ∈ d.statusWords, w.mask = 0xF := d.forall_statusWords rfl rfl
  obtain ⟨e', hwrote⟩ := State.writeWords_gathered (by rw [hcells]; exact hcanon) hentry hempty (.port p) hd hmask
    (d.forall_statusWords (place_of_cellOf h6') (place_of_cellOf h5')) (by simp [SendDesc.statusWords])
  obtain ⟨obs, cells, wb, firn', q, md, hend, hin, hout⟩ := hwrote.endAccess hd hmask hm1
  rw [hend, hask] at hwrite
  refine ⟨_, hwrite, fun cell => ?_, rfl, rfl, rfl⟩
  change sget 0 cells cell = _
  split
  next hc => exact hc ▸ hin _ (List.mem_cons_of_mem _ List.mem_cons_self) c5 h5'
  · split
    next hc => exact hc ▸ hin _ List.mem_cons_self c6 h6'
    next hc5 hc6 =>
      rw [hout cell (d.forall_statusWords (fun hc => hc6 (Option.some.inj (hc.symm.trans h6')))
        fun hc => hc5 (Option.some.inj (hc.symm.trans h5'))), hcells]

end

/-- The event of a descriptor reaches the hart that wrote it under EVT, and nothing else (R387, R410). -/
theorem State.raiseSend (s : State) (h : Hart) (evt : Bool) :
    ∃ t : State, (if evt then s.raiseFor (Hart.reader h) 2 else s) = t ∧ t.ice = s.ice ∧ t.nbr = s.nbr ∧ t.tiles = s.tiles ∧
      (t.hart h).csr.evpend.getLsbD 2 = ((s.hart h).csr.evpend.getLsbD 2 || evt) ∧ (t.hart h).x = (s.hart h).x ∧
      (t.hart h).pc = (s.hart h).pc ∧ ∀ g, g ≠ h → t.hart g = s.hart g := by
  cases evt with
  | false => exact ⟨s, rfl, rfl, rfl, rfl, (Bool.or_false _).symm, rfl, rfl, fun _ _ => rfl⟩
  | true =>
    refine ⟨s.raiseEvent h 2, ?_, rfl, rfl, rfl, ?_, ?_, ?_, fun g hg => State.modHart_hart_ne s _ hg⟩
    · simp only [State.raiseFor, hart?_reader, if_true]
    all_goals rw [State.raiseEvent, State.modHart_hart]
    simp

theorem exec_sendDescriptorStart {s : State} (hp : s.powered = true) (p : Fin 4) :
    exec (.sendDescriptorStart p) s = .next (s.sendStart p) := congrArg Host.Outcome.next (if_pos hp)

/-- Settles O42: a descriptor is read through its Firn entry and queued, checked at the head of its queue, and its status words
reach their cells when it is complete. -/
theorem sendDescriptorsRunToTheirStatus : Obligations.SendDescriptorsRunToTheirStatus := by
  unfold Obligations.SendDescriptorsRunToTheirStatus
  refine ⟨?_, fun p d l s hp hread hsends hphase hstop hl hout => ?_, ?_, ?_⟩
  · intro r addr data s hact halign hok hread _ hready hrev hm hfirn hclean q hup hroom
    have hexec : exec (.nbrSend r addr) s = .next (s.nbrSend r addr) := congrArg Host.Outcome.next (if_pos hact)
    obtain ⟨u, hsend, hnbr, hcells, hharts, htiles⟩ := State.nbrSend_queued (r := r) halign hok hread hready hrev hm
      hfirn hclean
    have hport : ∀ k, u.port k = s.port k := fun k => (congrArg (fun n : Neighbours => n.ports.get k) hnbr).trans rfl
    rw [hexec, hsend, State.queueSend_room (State.up_of_state (by rw [hport]; exact hup)) (by rw [hport]; exact hroom)]
    refine ⟨_, rfl, ?_, ?_, fun k hk => ?_, hcells, hharts, htiles⟩
    · rw [State.sendOutcome_port, State.modPort_port, hport]
      rfl
    · exact State.sendOutcome_sstat _ (s.newRead r addr) 0
    · rw [State.sendOutcome_port, State.modPort_port_ne _ hk, hport]
  · have hnext : s.Next p d l := ⟨hread, hsends, fun e he => (hl e he).1,
      List.forall_mem_cons.mpr ⟨hout, fun e he => (hl e he).2⟩⟩
    rw [exec_sendDescriptorStart hp]
    refine ⟨?_, fun hn hc => ⟨_, congrArg _ (State.sendStart_presented hnext hphase hstop hn hc), ?_, rfl, rfl, rfl, rfl⟩⟩
    · rintro c (⟨hn, rfl⟩ | ⟨hn, hc⟩)
      · exact congrArg _ (State.sendStart_empty hnext hphase hstop hn)
      · exact congrArg _ (State.sendStart_failed hnext hphase hstop hn hc)
    · rw [State.modPort_port]
  · intro p d l id i c s hp hread hsends hphase hsb hwait hl hout hrev hi hbad hfirst
    have hnext : s.Next p d l := ⟨hread, hsends, fun e he => (hl e he).1,
      List.forall_mem_cons.mpr ⟨hout, fun e he => (hl e he).2⟩⟩
    rw [exec_sendDescriptorStart hp]
    exact congrArg _ (State.sendStart_lost hnext hphase hsb hwait hrev hi hbad hfirst)
  · intro p d l h id p5 p6 h5 h6 s hp hcanon hsends hphase hsb hbond hdone hwho hl hm hok hwait hrev hready hp5 hp6 c5 c6 hne
    have hexec : exec (.sendComplete p) s = .next (s.sendComplete p) := congrArg Host.Outcome.next (if_pos hp)
    obtain ⟨u, hwrite, hcells, hnbr, hharts, htiles⟩ := State.writeSend_lands hcanon.1 hm hok hdone hwait hrev hready
      (cellOf_phys hp5) (cellOf_phys hp6) hne
    obtain ⟨t, ht, hice, htn, htt, hev, hx, hpc, hothers⟩ := (u.dropSend p d).raiseSend h d.evt
    have hhart : ∀ g, (u.dropSend p d).hart g = s.hart g := fun g => congrArg (fun v : Vector HartState 16 => v.get g) hharts
    have hsame : (u.port p).sends = d :: l := by
      rw [← hsends]
      exact congrArg (fun n : Neighbours => (n.ports.get p).sends) hnbr
    refine ⟨t, ?_, fun cell => ?_, ?_, ?_, hx.trans (by rw [hhart]), hpc.trans (by rw [hhart]),
      fun g hg => (hothers g hg).trans (hhart g), htt.trans htiles⟩
    · rw [hexec, State.sendComplete_written hsends hphase hsb hbond hl hwrite, hwho, ht]
    · rw [hice]
      exact hcells cell
    · have hleft : (d :: l).filter (fun e => e.id != d.id) = l := by
        rw [List.filter_cons_of_neg (by simp), List.filter_eq_self]
        exact fun e he => bne_iff_ne.mpr (hl e he)
      calc (t.port p).sends = ((u.dropSend p d).port p).sends := congrArg (fun n : Neighbours => (n.ports.get p).sends) htn
        _ = (u.port p).sends.filter (fun e => e.id != d.id) := congrArg Port.sends (State.modPort_port _ _ _)
        _ = l := by rw [hsame, hleft]
    · rw [hev, hhart]

end Sys2Proof.Machine

/-! # The tile plan of a compute order -/

namespace Sys2Proof.Machine

/-- Halving from a power of two down to one stops at the largest power whose two slots fit (R427). -/
theorem planDepth_two_pow {tw stream : Nat} (hfit : 2 * tw ≤ stream) :
    ∀ {n a : Nat}, a ≤ n → ∃ j, planDepth tw stream n (2 ^ a) = 2 ^ j ∧ j ≤ a ∧ 2 * 2 ^ j * tw ≤ stream ∧
      ∀ i, i ≤ a → 2 * 2 ^ i * tw ≤ stream → i ≤ j
  | 0, a, ha => by
    obtain rfl : a = 0 := Nat.le_zero.mp ha
    exact ⟨0, rfl, Nat.le_refl 0, by simpa using hfit, fun i hi _ => hi⟩
  | n + 1, a, ha => by
    by_cases hslots : 2 * 2 ^ a * tw ≤ stream
    · exact ⟨a, if_pos hslots, Nat.le_refl a, hslots, fun i hi _ => hi⟩
    · obtain _ | b := a
      · exact absurd hfit (by simpa using hslots)
      · have hhalf : 2 ^ (b + 1) / 2 = 2 ^ b := by simp [Nat.pow_succ]
        obtain ⟨j, hj, hjb, hjfit, hmax⟩ := planDepth_two_pow hfit (n := n) (a := b) (by omega)
        refine ⟨j, ?_, by omega, hjfit, fun i hi hifit => hmax i ?_ hifit⟩
        · rw [planDepth, if_neg hslots, hhalf, hj]
        · have hne : i ≠ b + 1 := fun e => hslots (e ▸ hifit)
          omega

/-- Settles O49: the search from the largest power of two of tiles halves until two slots fit. -/
theorem tilePlanTakesTheDeepestRingThatFits : Obligations.TilePlanTakesTheDeepestRingThatFits := by
  unfold Obligations.TilePlanTakesTheDeepestRingThatFits
  intro m n k tw stream hk hmax htw
  refine ⟨fun hno => if_pos hno, fun hone htwo => ?_, fun htwo => ?_⟩
  · simp only [tilePlan, tilesOf, if_neg (Nat.not_lt.mpr hone), if_pos htwo]
  · have hkt : (k + 63) / 64 ≠ 0 := by omega
    have hlog : Nat.log2 ((k + 63) / 64) < 32 := (Nat.log2_lt hkt).mpr (by omega)
    obtain ⟨j, hj, hja, hfit, hdeepest⟩ := planDepth_two_pow htwo (Nat.le_of_lt hlog)
    refine ⟨j, ?_, (Nat.le_log2 hkt).mp hja, hfit, fun i hi hifit => hdeepest i ((Nat.le_log2 hkt).mpr hi) hifit⟩
    have hone : ¬stream < tw := by omega
    simp only [tilePlan, tilesOf, if_neg hone, if_neg (Nat.not_lt.mpr htwo), hj]

end Sys2Proof.Machine

/-! # Integer instructions -/

namespace Sys2Proof.Machine

/-! ## The fields of a word -/

/-- The slices of an R-type word, lowest first. -/
theorem rWord_slices (f7 : BitVec 7) (rs2 rs1 : BitVec 5) (f3 : BitVec 3) (rd : BitVec 5) (op : BitVec 7) :
    let w := f7 ++ rs2 ++ rs1 ++ f3 ++ rd ++ op
    w.extractLsb' 0 7 = op ∧ w.extractLsb' 7 5 = rd ∧ w.extractLsb' 12 3 = f3 ∧ w.extractLsb' 15 5 = rs1 ∧
      w.extractLsb' 20 5 = rs2 ∧ w.extractLsb' 25 7 = f7 := by
  simp [-Nat.reduceAdd, BitVec.extractLsb'_append_eq_of_le, BitVec.extractLsb'_append_eq_of_add_le]

/-- The slices of an I-type word, lowest first. -/
theorem iWord_slices (imm : BitVec 12) (rs1 : BitVec 5) (f3 : BitVec 3) (rd : BitVec 5) (op : BitVec 7) :
    let w := imm ++ rs1 ++ f3 ++ rd ++ op
    w.extractLsb' 0 7 = op ∧ w.extractLsb' 7 5 = rd ∧ w.extractLsb' 12 3 = f3 ∧ w.extractLsb' 15 5 = rs1 ∧
      w.extractLsb' 20 12 = imm := by
  simp [-Nat.reduceAdd, BitVec.extractLsb'_append_eq_of_le, BitVec.extractLsb'_append_eq_of_add_le]

/-- The slices of a U-type word, and the word without the lower two. -/
theorem uWord_slices (up : BitVec 20) (rd : BitVec 5) (op : BitVec 7) :
    let w := up ++ rd ++ op
    w.extractLsb' 0 7 = op ∧ w.extractLsb' 7 5 = rd ∧ w &&& (BitVec.allOnes 20 ++ (0 : BitVec 5) ++ (0 : BitVec 7)) =
      up ++ (0 : BitVec 5) ++ (0 : BitVec 7) := by
  refine ⟨?_, ?_, ?_⟩
  · simp [-Nat.reduceAdd, BitVec.extractLsb'_append_eq_of_add_le]
  · simp [-Nat.reduceAdd, BitVec.extractLsb'_append_eq_of_le, BitVec.extractLsb'_append_eq_of_add_le]
  · rw [BitVec.and_append, BitVec.and_append, BitVec.and_allOnes]
    exact congrArg₂ (fun (rd : BitVec 5) (op : BitVec 7) => up ++ rd ++ op) BitVec.and_zero BitVec.and_zero

/-- The fields of an R-type word. -/
theorem encR_fields (f7 : BitVec 7) (rs2 rs1 : BitVec 5) (f3 : BitVec 3) (rd : BitVec 5) (op : BitVec 7) :
    let w := encR f7 rs2 rs1 f3 rd op
    w.extractLsb' 0 7 = op ∧ iRd w = rd ∧ iF3 w = f3.toNat ∧ iRs1 w = rs1 ∧ iRs2 w = rs2 ∧ iF7 w = f7.toNat := by
  obtain ⟨hop, hrd, hf3, hrs1, hrs2, hf7⟩ := rWord_slices f7 rs2 rs1 f3 rd op
  exact ⟨hop, hrd, congrArg BitVec.toNat hf3, hrs1, hrs2, congrArg BitVec.toNat hf7⟩

/-- The fields of an I-type word. -/
theorem encI_fields (imm : BitVec 12) (rs1 : BitVec 5) (f3 : BitVec 3) (rd : BitVec 5) (op : BitVec 7) :
    let w := encI imm rs1 f3 rd op
    w.extractLsb' 0 7 = op ∧ iRd w = rd ∧ iF3 w = f3.toNat ∧ iRs1 w = rs1 ∧ immI w = imm.signExtend 32 := by
  obtain ⟨hop, hrd, hf3, hrs1, himm⟩ := iWord_slices imm rs1 f3 rd op
  exact ⟨hop, hrd, congrArg BitVec.toNat hf3, hrs1, congrArg (BitVec.signExtend 32) himm⟩

/-- The fields of a U-type word. -/
theorem encU_fields (up : BitVec 20) (rd : BitVec 5) (op : BitVec 7) :
    let w : Word := up ++ rd ++ op
    w.extractLsb' 0 7 = op ∧ iRd w = rd ∧ immU w = up ++ (0 : BitVec 12) := by
  obtain ⟨hop, hrd, hup⟩ := uWord_slices up rd op
  have hzero : (up ++ (0 : BitVec 5) ++ (0 : BitVec 7) : Word) = up ++ (0 : BitVec 12) := BitVec.append_assoc
  have hmask : (BitVec.allOnes 20 ++ (0 : BitVec 5) ++ (0 : BitVec 7) : Word) = 0xFFFFF000 := by decide
  exact ⟨hop, hrd, (congrArg _ hmask.symm).trans (hup.trans hzero)⟩

/-! ## Execution -/

/-- An instruction that writes a register goes on to the next one. -/
theorem State.done_setX (s : State) (h : Hart) (rd : BitVec 5) (v : Word) :
    s.done h 4 (·.setX rd v) =
      s.modHart h fun t => { t.setX rd v with pc := t.pc + 4, instret := t.instret + 1 } := by
  refine State.modHart_congr s h ?_
  simp only [HartState.setX]
  split <;> rfl

/-- A 32-bit word that is no Xcalad instruction is executed (R398). -/
theorem exec_rv32_word {s : State} {h : Hart} (ha : s.canAct (Hart.reader h) = true) {w : Word} {op : BitVec 7}
    (hop : w.extractLsb' 0 7 = op) (hlong : op.extractLsb' 0 2 = 3) (hx : op ≠ 0x3F) (met : Word) :
    exec (.rv32Instruction h (some w) met) s = .next (s.execute h w w 4 met).pruneCycles := by
  have h2 : w.extractLsb' 0 2 = 3 := by
    rw [← hlong, ← hop, BitVec.extractLsb'_extractLsb'_of_le (by decide)]
  change Host.Outcome.next (if !s.canAct (Hart.reader h) then s
    else if w.extractLsb' 0 7 = 0x3F then s else (s.executeBits h w met).pruneCycles) = _
  rw [ha, hop, if_neg hx, State.executeBits, if_pos h2]
  rfl

theorem State.execute_addi (s : State) (h : Hart) (imm : BitVec 12) (rs1 rd : BitVec 5) (raw met : Word) :
    s.execute h (encI imm rs1 0 rd 0x13) raw 4 met =
      s.done h 4 (·.setX rd ((s.hart h).getX rs1 + imm.signExtend 32)) := by
  obtain ⟨hop, hrd, hf3, hrs1, himm⟩ := encI_fields imm rs1 0 rd 0x13
  rw [State.execute, ifield, hop, hrd, hf3, hrs1, himm]
  rfl

theorem State.execute_add (s : State) (h : Hart) (rs2 rs1 rd : BitVec 5) (raw met : Word) :
    s.execute h (encR 0 rs2 rs1 0 rd 0x33) raw 4 met =
      s.done h 4 (·.setX rd ((s.hart h).getX rs1 + (s.hart h).getX rs2)) := by
  obtain ⟨hop, hrd, hf3, hrs1, hrs2, hf7⟩ := encR_fields 0 rs2 rs1 0 rd 0x33
  rw [State.execute, ifield, hop, hrd, hf3, hrs1, hrs2, hf7]
  rfl

theorem State.execute_lui (s : State) (h : Hart) (up : BitVec 20) (rd : BitVec 5) (raw met : Word) :
    s.execute h (up ++ rd ++ (0x37 : BitVec 7)) raw 4 met = s.done h 4 (·.setX rd (up ++ (0 : BitVec 12))) := by
  obtain ⟨hop, hrd, himm⟩ := encU_fields up rd 0x37
  rw [State.execute, ifield, hop, hrd, himm]
  rfl

/-- Settles O18: each word's fields select its operation, whose result `done` writes. -/
theorem integerInstructionsWriteTheirRegister : Obligations.IntegerInstructionsWriteTheirRegister := by
  unfold Obligations.IntegerInstructionsWriteTheirRegister
  intro h rd rs1 rs2 imm up met s ha
  refine ⟨?_, ?_, ?_⟩
  · refine (exec_rv32_word ha (encI_fields imm rs1 0 rd 0x13).1 (by decide) (by decide) met).trans ?_
    rw [State.execute_addi, State.done_setX]
    exact congrArg (fun u : State => Host.Outcome.next u.pruneCycles) (State.modHart_congr s h rfl)
  · refine (exec_rv32_word ha (encR_fields 0 rs2 rs1 0 rd 0x33).1 (by decide) (by decide) met).trans ?_
    rw [State.execute_add, State.done_setX]
    exact congrArg (fun u : State => Host.Outcome.next u.pruneCycles) (State.modHart_congr s h rfl)
  · refine (exec_rv32_word ha (encU_fields up rd 0x37).1 (by decide) (by decide) met).trans ?_
    rw [State.execute_lui, State.done_setX]

end Sys2Proof.Machine

/-! # Traps: ECALL, an illegal instruction and VFAULT -/

namespace Sys2Proof.Machine

section
variable {s : State} {h : Hart}

/-- An ECALL outside an extension call is an exception of its mode (R406). -/
theorem State.ecall_of_callOf_none (hc : s.callOf h = none) :
    s.ecall h = s.modHart h fun t => t.takeTrap false (if t.mode = .u then 8 else 11) 0 := by
  have hcall : (if (s.hart h).mode = .u ∧ (s.hart h).getX 17 = 0 then s.callOf h else none) = none := by rw [hc, ite_self]
  have htrap : s.ecall h = s.trap h (if (s.hart h).mode = .u then 8 else 11) 0 := by simp only [State.ecall, hcall]
  rw [htrap, State.trap_of_callOf_none hc]
  exact State.modHart_congr s h rfl

/-- The word 0 stands for no instruction (R406). -/
theorem exec_rv32_zero (ha : s.canAct (Hart.reader h) = true) (hc : s.callOf h = none) (met : Word) :
    exec (.rv32Instruction h (some 0) met) s = .next (s.modHart h fun t => t.takeTrap false 2 0).pruneCycles := by
  have hbits : s.executeBits h 0 met = s.trap h 2 0 := rfl
  change Host.Outcome.next (if !s.canAct (Hart.reader h) then s
    else if (0 : Word).extractLsb' 0 7 = 0x3F then s else (s.executeBits h 0 met).pruneCycles) = _
  rw [ha, if_neg (by decide : ¬(0 : Word).extractLsb' 0 7 = 0x3F), hbits, State.trap_of_callOf_none hc]
  rfl

/-- A VFAULT that is pending and enabled in mie is taken where mstatus.MIE or user mode allows it (R407). -/
theorem State.takeVfault_pending (hp : s.powered = true) (hrun : (s.hart h).halted = false)
    (hwait : (s.hart h).wait = .run ∨ (s.hart h).wait = .wfi) (hv : (s.hart h).csr.vfV = true)
    (hmie : (s.hart h).trap.mieReg.getLsbD 16 = true) (hc : s.callOf h = none) :
    s.takeVfault h = if (s.hart h).trap.mie = true ∨ (s.hart h).mode = .u then s.modHart h fun t => t.takeTrap true 16 0
      else s := by
  have hw : ((s.hart h).wait == .run || (s.hart h).wait == .wfi) = true := by simpa using hwait
  have hext : (s.modHart h fun t => t.takeTrap true 16 0).extFault h = s.modHart h fun t => t.takeTrap true 16 0 := by
    have hc' : (s.modHart h fun t => t.takeTrap true 16 0).callOf h = none := hc
    simp only [State.extFault, hc']
  have hready : s.vfaultReady h = true := by rw [State.vfaultReady, hv, hmie]; rfl
  simp only [State.takeVfault, hp, hrun, hw, hready, hext, ite_self, Bool.not_true, Bool.or_self, Bool.false_or]
  by_cases hmode : (s.hart h).mode = .u
  · simp [hmode]
  · cases hm : (s.hart h).trap.mie <;> simp [hmode]

end

/-- Settles O17: each of the three takes the trap of its cause, and no call's end follows. -/
theorem trapsAreTakenAsTheArchitectureSays : Obligations.TrapsAreTakenAsTheArchitectureSays := by
  unfold Obligations.TrapsAreTakenAsTheArchitectureSays
  refine ⟨fun h s ha hc => ?_, fun h met s ha hc => exec_rv32_zero ha hc met, fun h s hp hrun hwait hv hmie hc => ?_⟩
  · have hexec : exec (.ecall h) s = .next (s.ecall h).pruneCycles := next_if_pos ha
    rw [hexec, State.ecall_of_callOf_none hc]
    have hhart : (s.modHart h fun t => t.takeTrap false (if t.mode = .u then 8 else 11) 0).pruneCycles.hart h =
        (s.hart h).takeTrap false (if (s.hart h).mode = .u then 8 else 11) 0 := State.modHart_hart s h _
    have hcause : BitVec.ofNat 32 ((if (s.hart h).mode = .u then 8 else 11) + 0) =
        (if (s.hart h).mode = .u then 8 else 11 : Word) := apply_ite (BitVec.ofNat 32) _ 8 11
    refine ⟨_, rfl, ?_, ?_, ?_, ?_, ?_, ?_, ?_, ?_, ?_, ?_, fun g hg => State.modHart_hart_ne s _ hg, rfl⟩ <;> rw [hhart]
    · rfl
    · exact hcause
    all_goals rfl
  · have hexec : exec (.vfault h) s = .next (s.takeVfault h).pruneCycles := next_if_pos hp
    rw [hexec, State.takeVfault_pending hp hrun hwait hv hmie hc]

end Sys2Proof.Machine

/-! # Updates of the harts of a list, and the halted bits -/

namespace Sys2Proof.Machine

/-- An update of some harts changes the harts alone. -/
theorem State.forEach_modHart_eq (s : State) (l : List Hart) (f : HartState → HartState) :
    s.forEach l (fun s h => s.modHart h f) = { s with harts := l.foldl (fun v h => vmod v h f) s.harts } := by
  unfold State.forEach
  induction l generalizing s with
  | nil => rfl
  | cons h r ih => rw [List.foldl_cons, ih]; rfl

@[simp] theorem mem_maskHarts {m : BitVec 16} {h : Hart} : h ∈ maskHarts m ↔ m.getLsbD h.val = true := by
  simp [maskHarts]

theorem maskHarts_nodup (m : BitVec 16) : (maskHarts m).Nodup := (fins_nodup 16).filter _

/-- An update of the harts of a mask. -/
theorem State.forEach_maskHarts (s : State) (m : BitVec 16) (f : HartState → HartState) :
    ∃ v : Vector HartState 16, s.forEach (maskHarts m) (fun s h => s.modHart h f) = { s with harts := v } ∧
      ∀ h, v.get h = if m.getLsbD h.val then f (s.hart h) else s.hart h := by
  refine ⟨_, s.forEach_modHart_eq _ f, fun h => ?_⟩
  rw [foldl_vmod_get f _ (maskHarts_nodup m)]
  simp only [mem_maskHarts]
  rfl

theorem State.halt_spec (s : State) (m : BitVec 16) :
    ∃ v : Vector HartState 16, s.halt m = { s with harts := v } ∧
      ∀ h, v.get h = if m.getLsbD h.val then { s.hart h with halted := true } else s.hart h :=
  s.forEach_maskHarts m _

/-- From stage 8 on and outside a recovery harts resume (R470, R482). -/
theorem State.resume_spec {s : State} (hstage : 8 ≤ s.boot.stage.toNat) (hstat : s.err.stat ≠ .recovering) (m : BitVec 16) :
    ∃ v : Vector HartState 16, s.resume m = { s with harts := v } ∧
      ∀ h, v.get h = if m.getLsbD h.val then { s.hart h with halted := false } else s.hart h := by
  have hgo : ¬(s.boot.stage.toNat < 8 || s.err.stat == .recovering) = true := by
    simp [Nat.not_lt.mpr hstage, hstat]
  rw [State.resume, if_neg hgo]
  exact s.forEach_maskHarts m _

end Sys2Proof.Machine

/-! # Halts and resumes of harts, events and timers -/

namespace Sys2Proof.Machine

/-! ## CE_KS_HCTL (R431, R513) -/

/-- The harts of a mask that a write of CE_KS_HCTL reaches, when other writes of its step win the harts of `beaten`: the
management processor's write loses to none (R431). -/
def hctlReach (r : Reader) (mask beaten : BitVec 16) : BitVec 16 :=
  if r = mgmt then mask else mask &&& ~~~beaten

theorem hctlReach_getLsbD (r : Reader) (mask beaten : BitVec 16) (h : Hart) :
    (hctlReach r mask beaten).getLsbD h.val = true ↔
      mask.getLsbD h.val = true ∧ (r = mgmt ∨ beaten.getLsbD h.val = false) := by
  by_cases hr : r = mgmt <;> simp [hctlReach, hr]

/-- The halves of a word. -/
theorem halves_append (hi lo : BitVec 16) :
    ((hi ++ lo : Word).extractLsb' 0 16 = lo) ∧ ((hi ++ lo : Word).extractLsb' 16 16 = hi) :=
  ⟨BitVec.extractLsb'_append_eq_right, BitVec.extractLsb'_append_eq_left⟩

theorem State.resume_zero (s : State) : s.resume 0#16 = s := by
  have hnone : maskHarts 0#16 = [] := by decide
  rw [State.resume, hnone]
  exact ite_self s

theorem State.halt_zero (s : State) : s.halt 0#16 = s := by
  have hnone : maskHarts 0#16 = [] := by decide
  rw [State.halt, hnone]
  rfl

theorem State.hctl_halt (s : State) (r : Reader) (mask resumed : BitVec 16) :
    s.hctl r ((0 : BitVec 16) ++ mask) (resumed ++ (0 : BitVec 16)) = s.halt (hctlReach r mask resumed) := by
  have hzero : mask &&& 65535#16 = mask := BitVec.and_allOnes
  by_cases hr : r = mgmt <;>
    simp [State.hctl, hctlReach, hr, (halves_append _ _).1, (halves_append _ _).2, State.resume_zero, hzero]

theorem State.hctl_run (s : State) (r : Reader) (mask halted : BitVec 16) :
    s.hctl r (mask ++ (0 : BitVec 16)) ((0 : BitVec 16) ++ halted) = s.resume (hctlReach r mask halted) := by
  have hzero : mask &&& 65535#16 = mask := BitVec.and_allOnes
  by_cases hr : r = mgmt <;>
    simp [State.hctl, hctlReach, hr, (halves_append _ _).1, (halves_append _ _).2, State.halt_zero, hzero]

theorem exec_hctlHalt {r : Reader} {s : State} (ha : s.canAct r = true) (hp : s.privileged r = true)
    (mask resumed : BitVec 16) :
    exec (.hctlHalt r mask resumed) s = .next (s.halt (hctlReach r mask resumed)).pruneCycles := by
  rw [← State.hctl_halt]
  exact next_if_pos (Bool.and_eq_true_iff.mpr ⟨ha, hp⟩)

theorem exec_hctlRun {r : Reader} {s : State} (ha : s.canAct r = true) (hp : s.privileged r = true)
    (mask halted : BitVec 16) :
    exec (.hctlRun r mask halted) s = .next (s.resume (hctlReach r mask halted)).pruneCycles := by
  rw [← State.hctl_run]
  exact next_if_pos (Bool.and_eq_true_iff.mpr ⟨ha, hp⟩)

/-- User-mode code writes no CE_KS_HCTL (R506). -/
theorem exec_hctl_unprivileged {r : Reader} {s : State} (hp : s.privileged r = false) (mask other : BitVec 16) :
    exec (.hctlHalt r mask other) s = .next s ∧ exec (.hctlRun r mask other) s = .next s := by
  have hno : ¬s.mayWrite r = true := by simp [State.mayWrite, hp]
  exact ⟨congrArg Host.Outcome.next (if_neg hno), congrArg Host.Outcome.next (if_neg hno)⟩

/-! ## CE_KS_EVSET (R514) -/

theorem State.evset_spec (s : State) (m : BitVec 16) :
    ∃ v : Vector HartState 16, s.evset m = { s with harts := v } ∧
      ∀ h, v.get h = if m.getLsbD h.val then
        { s.hart h with csr := { (s.hart h).csr with evpend := (s.hart h).csr.evpend ||| 0x100 } } else s.hart h :=
  s.forEach_maskHarts m _

/-! ## Timers (R409, R517) -/

theorem exec_timerExpiry {s : State} (hp : s.powered = true) (n : Fin 4) :
    exec (.timerExpiry n) s = .next (s.timerExpiry n) := next_if_pos hp

/-- A disabled timer and the frost monitor's do not run down to an event (R409, R446). -/
theorem State.timerExpiry_still {s : State} {n : Fin 4}
    (h : (s.ks.timers.get n).en = false ∨ (s.ks.timers.get n).frost = true) : s.timerExpiry n = s := by
  obtain h | h := h <;> simp [State.timerExpiry, h]

/-- A timer after it has reached zero (R409). -/
def Timer.afterZero (t : Timer) : Timer :=
  if t.reload = 0 then { t with en := false, count := 0 } else { t with count := t.reload, since := t.zeroAt }

/-- A timer that counts down raises TMR at its owner when it reaches zero (R409). -/
theorem State.timerExpiry_owned {s : State} {n : Fin 4} (hen : (s.ks.timers.get n).en = true)
    (hfrost : (s.ks.timers.get n).frost = false) (howned : (s.ks.timers.get n).owned = true) :
    s.timerExpiry n = ((s.timeTo (s.ks.timers.get n).zeroAt).raiseEvent (s.ks.timers.get n).owner 5).modTimer n
      Timer.afterZero := by
  have howned' : ((s.timeTo (s.ks.timers.get n).zeroAt).ks.timers.get n).owned = true := howned
  simp only [State.timerExpiry, State.timerZero, hen, hfrost, howned', Bool.not_false, Bool.and_self, if_true]
  rfl

theorem readReg_timer (s : State) (r : Reader) (n : Fin 4) :
    s.readReg r (BitVec.ofNat 16 (0x128 + 16 * n.val)) = (s.ks.timers.get n).reload ∧
      s.readReg r (BitVec.ofNat 16 (0x124 + 16 * n.val)) = s.timerCount (s.ks.timers.get n) := by
  fin_cases n <;> exact ⟨rfl, rfl⟩

/-- Settles O54: the harts that a write reaches, by mask, and the timer that reaches zero. -/
theorem hartsEventsAndTimers : Obligations.HartsEventsAndTimers := by
  unfold Obligations.HartsEventsAndTimers
  refine ⟨fun r mask halted resumed s ha => ⟨fun hp => ⟨?_, fun hstage hstat => ?_⟩, fun hp => ?_, ?_⟩,
    fun n s hp => ⟨fun hno => ?_, fun hen hfrost howned => ?_, fun r => ?_⟩⟩
  · obtain ⟨v, hv, hget⟩ := s.halt_spec (hctlReach r mask resumed)
    rw [exec_hctlHalt ha hp, hv]
    exact ⟨_, rfl, rfl, fun h => (hget h).trans (by simp only [hctlReach_getLsbD])⟩
  · obtain ⟨v, hv, hget⟩ := State.resume_spec hstage hstat (hctlReach r mask halted)
    rw [exec_hctlRun ha hp, hv]
    exact ⟨_, rfl, rfl, fun h => (hget h).trans (by simp only [hctlReach_getLsbD])⟩
  · exact ⟨(exec_hctl_unprivileged hp mask resumed).1, (exec_hctl_unprivileged hp mask halted).2⟩
  · obtain ⟨v, hv, hget⟩ := s.evset_spec mask
    have hexec : exec (.evset r mask) s = .next (s.evset mask).pruneCycles := next_if_pos ha
    rw [hexec, hv]
    exact ⟨_, rfl, rfl, hget⟩
  · rw [exec_timerExpiry hp, State.timerExpiry_still hno]
  · rw [exec_timerExpiry hp, State.timerExpiry_owned hen hfrost howned]
    exact ⟨_, rfl, State.modHart_hart _ _ _, fun h hh => State.modHart_hart_ne _ _ hh, vmod_get_same _ _ _,
      fun m hm => vmod_get_ne _ _ hm, rfl⟩
  · exact readReg_timer s r n

end Sys2Proof.Machine

/-! # Pace, calibration and observation -/

namespace Sys2Proof.Machine

/-! ## Pace (R512) -/

theorem toNat_append_add {v w : Nat} (x : BitVec v) (y : BitVec w) : (x ++ y).toNat = x.toNat * 2 ^ w + y.toNat := by
  rw [BitVec.toNat_append, ← Nat.shiftLeft_add_eq_or_of_lt y.isLt, Nat.shiftLeft_eq]

/-- A word of one field of 12 bits. -/
theorem packW_low (lo : BitVec 12) : packW [(0, 12, lo.toNat)] = (0 : BitVec 20) ++ lo := by
  have hlo := lo.isLt
  apply BitVec.eq_of_toNat_eq
  refine Eq.trans ?_ (toNat_append_add (0 : BitVec 20) lo).symm
  have hzero : (0 : BitVec 20).toNat = 0 := rfl
  simp only [packW, List.foldl_cons, List.foldl_nil, BitVec.toNat_ofNat, hzero]
  omega

/-- A word of two fields of 12 bits, at bits 0 and 16. -/
theorem packW_pair (lo hi : BitVec 12) :
    packW [(0, 12, lo.toNat), (16, 12, hi.toNat)] = (0 : BitVec 4) ++ hi ++ (0 : BitVec 4) ++ lo := by
  have hlo := lo.isLt
  have hhi := hi.isLt
  apply BitVec.eq_of_toNat_eq
  refine Eq.trans ?_ (toNat_append_add ((0 : BitVec 4) ++ hi ++ (0 : BitVec 4)) lo).symm
  have hzero : (0 : BitVec 4).toNat = 0 := rfl
  rw [toNat_append_add, toNat_append_add]
  simp only [packW, List.foldl_cons, List.foldl_nil, BitVec.toNat_ofNat, hzero]
  omega

theorem State.readReg_pace (s : State) (r : Reader) :
    s.readReg r 0x8 = (0 : BitVec 4) ++ s.cal.min ++ (0 : BitVec 4) ++ s.cal.pace ∧
      s.readReg r 0xC = (0 : BitVec 20) ++ s.cal.max := ⟨packW_pair _ _, packW_low _⟩

theorem exec_registerWrite_pace {r : Reader} {s : State} (ha : s.canAct r = true) (hp : s.privileged r = true) (v met : Word)
    (lost : List Hart) :
    exec (.registerWrite r (.reg 0xC) v lost met) s =
      .next (if v.getLsbD 31 then { s with cal := { s.cal with min := 0xFFF, max := 0 } } else s).pruneCycles := by
  have hno : s.competes (0xC : BitVec 16).toNat v r = false := by simp [State.competes, State.reaches, offIn]
  have hwrite : s.applyWrite r (0xC : BitVec 16).toNat v met lost =
      if s.privileged r && v.getLsbD 31 then s.paceClear else s := rfl
  rw [exec_registerWrite_alone ha hno, hwrite, hp, Bool.true_and]
  rfl

/-! ## Observation outputs (R537, R551) -/

section
variable {r : Reader} {s : State} (ha : s.canAct r = true) (hp : s.privileged r = true)

include ha hp

theorem exec_paceClear :
    exec (.paceClear r) s = .next { s with cal := { s.cal with min := 0xFFF, max := 0 } } :=
  next_if_pos (Bool.and_eq_true_iff.mpr ⟨ha, hp⟩)

theorem exec_obsSelect (n : Fin 16) (code : BitVec 8) : exec (.obsSelect r n code) s = .next (s.obsSelect r n code) :=
  next_if_pos (Bool.and_eq_true_iff.mpr ⟨ha, hp⟩)

theorem exec_calTap (on : Bool) : exec (.calTap r on) s = .next (s.calTap r on) :=
  next_if_pos (Bool.and_eq_true_iff.mpr ⟨ha, hp⟩)

end

/-- The tap keeps an output that it holds (R433). -/
theorem State.obsSet_held {s : State} {n : Fin 16} (h : (s.obs.out.get n).src = 2) (code : BitVec 8) :
    s.obsSet n code = (s, false) := by
  simp only [State.obsSet, h, beq_self_eq_true, if_true]

/-- An output that shows a code, or none (R537). -/
def ObsOut.selected (x : ObsOut) (code : BitVec 8) : ObsOut := { x with code, src := if code = 0 then 0 else 1 }

theorem State.obsSet_free {s : State} {n : Fin 16} (h : (s.obs.out.get n).src ≠ 2) {code : BitVec 8}
    (hcode : obsCode code = true) :
    s.obsSet n code = ({ s with obs := { s.obs with out := vmod s.obs.out n (·.selected code) } }, true) := by
  have hsrc : ((s.obs.out.get n).src == 2) = false := beq_eq_false_iff_ne.mpr h
  simp only [State.obsSet, hsrc, hcode, Bool.not_true, Bool.false_eq_true, if_false]
  rfl

theorem State.obsSelect_held {s : State} {n : Fin 16} (h : (s.obs.out.get n).src = 2) (r : Reader) (code : BitVec 8) :
    s.obsSelect r n code = s.conflict (obsOff n) 4 r := by
  simp only [State.obsSelect, State.obsSet_held h]

theorem State.obsSelect_free {s : State} {n : Fin 16} (h : (s.obs.out.get n).src ≠ 2) (r : Reader) {code : BitVec 8}
    (hcode : obsCode code = true) :
    s.obsSelect r n code = { s with obs := { s.obs with out := vmod s.obs.out n (·.selected code) } } := by
  simp only [State.obsSelect, State.obsSet_free h hcode]

/-! ## The tap (R433, R536) -/

/-- The outputs of the tap. -/
def tapOutputs : List (Fin 16) := (fins 16).filter fun i => decide (12 ≤ i.val)

theorem mem_tapOutputs {i : Fin 16} : i ∈ tapOutputs ↔ 12 ≤ i.val := by simp [tapOutputs]

/-- An output that the tap takes or gives back. -/
def ObsOut.tapped (on : Bool) (x : ObsOut) : ObsOut := { x with src := if on then 2 else 0, code := 0 }

theorem State.calTap_moves {s : State} {on : Bool} (hfree : ∀ i : Fin 16, 12 ≤ i.val → (s.obs.out.get i).src ≠ 1)
    (hon : on ≠ s.cal.tapClaim) (r : Reader) :
    ∃ out : Vector ObsOut 16, s.calTap r on =
        { s with cal := { s.cal with tapClaim := on }, obs := { s.obs with out := out } } ∧
      ∀ i : Fin 16, out.get i = if 12 ≤ i.val then (s.obs.out.get i).tapped on else s.obs.out.get i := by
  have hany : (tapOutputs.any fun i => (s.obs.out.get i).src == 1) = false := by
    simpa [mem_tapOutputs] using hfree
  have hne : (on == s.cal.tapClaim) = false := beq_eq_false_iff_ne.mpr hon
  refine ⟨tapOutputs.foldl (fun v i => vmod v i (.tapped on)) s.obs.out, ?_, fun i => ?_⟩
  · refine (if_neg ?_).trans (if_neg (ne_true_of_eq_false hne))
    exact ne_true_of_eq_false ((congrArg (on && !s.cal.tapClaim && ·) hany).trans (Bool.and_false _))
  · rw [foldl_vmod_get _ tapOutputs ((fins_nodup 16).filter _)]
    simp only [mem_tapOutputs]

theorem State.calTap_refused {s : State} (hheld : ∃ i : Fin 16, 12 ≤ i.val ∧ (s.obs.out.get i).src = 1)
    (hoff : s.cal.tapClaim = false) (r : Reader) : s.calTap r true = s.conflict 0x1100 4 r := by
  have hany : (tapOutputs.any fun i => (s.obs.out.get i).src == 1) = true := by
    obtain ⟨i, hi, hsrc⟩ := hheld
    exact List.any_eq_true.mpr ⟨i, mem_tapOutputs.mpr hi, beq_iff_eq.mpr hsrc⟩
  have hcond : (true && !s.cal.tapClaim && tapOutputs.any fun i => (s.obs.out.get i).src == 1) = true := by
    rw [hoff, hany]
    rfl
  exact if_pos hcond

/-! ## Event counters (R538) -/

/-- The high words that readers have latched, after one of them reads the low word of a counter. -/
def Observation.latched (b : Observation) (r : Reader) (n : Fin 8) : List (Fin 8 × Reader × BitVec 16) :=
  (b.latch.filter fun l => !(l.1 == n && l.2.1 == r)) ++ [(n, r, (b.ev.get n).count.extractLsb' 32 16)]

theorem State.readEffect_low (s : State) (r : Reader) (n : Fin 8) :
    s.readEffect r (BitVec.ofNat 16 (0x1260 + 8 * n.val)) = { s with obs := { s.obs with latch := s.obs.latched r n } } := by
  fin_cases n <;> rfl

theorem State.readReg_low (s : State) (r : Reader) (n : Fin 8) :
    s.readReg r (BitVec.ofNat 16 (0x1260 + 8 * n.val)) = (s.obs.ev.get n).count.extractLsb' 0 32 := by
  fin_cases n <;> rfl

/-- The high word of a counter, as the latches of a reader give it. -/
def Observation.highWord (b : Observation) (r : Reader) (n : Fin 8) : Word :=
  match b.latch.find? fun l => l.1 == n && l.2.1 == r with
  | some l => l.2.2.setWidth 32
  | none => ((b.ev.get n).count.extractLsb' 32 16).setWidth 32

theorem State.readReg_high (s : State) (r : Reader) (n : Fin 8) :
    s.readReg r (BitVec.ofNat 16 (0x1264 + 8 * n.val)) = s.obs.highWord r n := by
  fin_cases n <;> rfl

theorem Observation.highWord_latched (b : Observation) (r : Reader) (n : Fin 8) :
    ({ b with latch := b.latched r n } : Observation).highWord r n = ((b.ev.get n).count.extractLsb' 32 16).setWidth 32 := by
  have hrest : (b.latch.filter fun l => !(l.1 == n && l.2.1 == r)).find? (fun l => l.1 == n && l.2.1 == r) = none := by
    rw [List.find?_eq_none]
    intro l hl
    have hno := (List.mem_filter.mp hl).2
    simpa [imp_iff_not_or] using hno
  have hfind : (b.latched r n).find? (fun l => l.1 == n && l.2.1 == r) =
      some (n, r, (b.ev.get n).count.extractLsb' 32 16) := by
    rw [Observation.latched, List.find?_append, hrest]
    simp
  simp only [Observation.highWord, hfind]

/-! ## Live calibration (R446) -/

/-- TMR3 begins the next calibration period. -/
def State.periodEnded (s : State) : State := s.modTimer 3 fun t => { t with count := t.reload, since := t.zeroAt }

theorem exec_calibPeriod {s : State} (hp : s.powered = true) (slacks : List Nat) (guarded : List (Fin 35)) :
    exec (.calibPeriod slacks guarded) s = .next (s.calibPeriod slacks guarded) := next_if_pos hp

/-- Every configuration has a first region (R444). -/
theorem State.region?_zero (s : State) : s.region? 0 = some 0 := by
  have hpos : 0 < Config.regions s.cfg := by cases s.cfg <;> decide
  simp only [State.region?, hpos, if_true]
  rfl

section
variable {s : State} (hon : s.cal.on = true) (hfrost : (s.ks.timers.get 3).frost = true)
  (hen : (s.ks.timers.get 3).en = true)

include hon hfrost hen

theorem State.calibPeriod_none : s.calibPeriod [] [] =
    (s.timeTo (s.ks.timers.get 3).zeroAt).periodEnded := by
  simp [State.calibPeriod, hon, hfrost, hen, State.forEach]
  rfl

/-- The first region takes its measurement, unless a guard increase reaches it (R446, R447). -/
theorem State.calibPeriod_first (hdown : s.regionDown 0 = false) (v : Nat) :
    s.calibPeriod [v] [] =
        ((s.timeTo (s.ks.timers.get 3).zeroAt).measure 0 v).periodEnded ∧
      s.calibPeriod [v] [0] = s.calibPeriod [] [] := by
  rw [State.calibPeriod_none hon hfrost hen]
  simp [State.calibPeriod, hon, hfrost, hen, s.region?_zero, hdown, State.forEach]
  exact ⟨rfl, rfl⟩

end

/-- What a measurement of slack makes of a tap (R446). -/
theorem tapAfter_toNat (t : BitVec 6) (v : Nat) :
    (tapAfter t v).toNat = if v < 5 then min 63 (t.toNat + 1) else if v ≤ 7 then t.toNat else t.toNat - 1 := by
  have hbits : ∀ t : BitVec 6, (incSat t).toNat = min 63 (t.toNat + 1) ∧
      (if t = 0 then t else t - 1).toNat = t.toNat - 1 := by decide
  unfold tapAfter
  split
  · exact (hbits t).1
  · by_cases hv : v ≤ 7
    · rw [if_neg (Nat.not_lt.mpr hv), if_pos hv]
    · rw [if_pos (Nat.not_le.mp hv), if_neg hv]
      exact (hbits t).2

/-- The tap and the slack of a region that a measurement of a step leaves. -/
def Region.measuredAt (tap : BitVec 6) (slack now : Nat) : Region :=
  { tap, slack := BitVec.ofNat 6 (min 63 slack), measured := some now }

theorem State.measure_eq (s : State) (g : Fin 35) (v : Nat) :
    ∃ obs, s.measure g v = { s with
      cal := { s.cal with regions := vset s.cal.regions g (.measuredAt (tapAfter (s.cal.regions.get g).tap v) v s.cycle) }
      obs := obs } := by
  unfold State.measure
  dsimp only
  split <;> exact ⟨_, rfl⟩

/-! ## The guard (R447, R448) -/

theorem exec_guardEvent {s : State} (hp : s.powered = true) (g : Fin 35) (v : Nat) :
    exec (.guardEvent g v) s = .next (s.guardEvent g v) := next_if_pos hp

/-- The slack stays too small at the highest tap: the fault MARGIN (R448). -/
def guardFails (tap : BitVec 6) (v : Nat) : Bool := tap == 63 || (addSat tap 4 == 63 && decide (v < 2))

theorem guardFails_iff (tap : BitVec 6) (v : Nat) :
    guardFails tap v = true ↔ tap.toNat = 63 ∨ 59 ≤ tap.toNat ∧ v < 2 := by
  have htaps : ∀ tap : BitVec 6, (tap = 63 ↔ tap.toNat = 63) ∧ (addSat tap 4 = 63 ↔ 59 ≤ tap.toNat) := by decide
  simp only [guardFails, Bool.or_eq_true, Bool.and_eq_true, beq_iff_eq, decide_eq_true_eq, (htaps tap).1, (htaps tap).2]

theorem addSat_four_toNat : ∀ t : BitVec 6, (addSat t 4).toNat = min 63 (t.toNat + 4) := by decide

/-- The state in which a guard has raised a region's tap. -/
def State.guarded (s : State) (g : Fin 35) (v : Nat) (obs : Observation) : State :=
  { s with
    cal := { s.cal with regions := vset s.cal.regions g (.measuredAt (addSat (s.cal.regions.get g).tap 4) v s.cycle)
                        emerg := incSat s.cal.emerg }
    obs := obs }

theorem State.guardEvent_eq {s : State} {g : Fin 35} (hg : g.val < Config.regions s.cfg) (hdown : s.regionDown g = false)
    (v : Nat) :
    ∃ obs, s.guardEvent g v = if guardFails (s.cal.regions.get g).tap v then
        (s.guarded g v obs).uncorrectable 0x05 (Src.frost g) (BitVec.ofNat 32 g.val)
          ((addSat (s.cal.regions.get g).tap 4).setWidth 32)
      else s.guarded g v obs := by
  have hregion : (s.region? g.val).isNone = false := by simp [State.region?, g.isLt, hg]
  unfold State.guardEvent
  rw [hregion, hdown]
  exact ⟨_, rfl⟩

/-- An uncorrectable fault of a running engine halts every hart (R470). -/
theorem State.uncorrectable_halts {s : State} (hstage : 8 ≤ s.boot.stage.toNat) (hstat : s.err.stat = .running)
    (code : BitVec 8) (who : Src) (loc loc2 : Word) (h : Hart) :
    ((s.uncorrectable code who loc loc2).hart h).halted = true := by
  let u : State :=
    { s with err := { s.err with stat := .recovering, recovery := some (s.firstFault code who loc loc2) } }
  have hfault : s.uncorrectable code who loc loc2 = u.haltAll.stopWork := by
    unfold State.uncorrectable
    simp only [if_neg (Nat.not_lt.mpr hstage), hstat]
    rfl
  obtain ⟨ch, nbr, sb, hstop⟩ := u.haltAll.stopWork_eq
  have hharts : (s.uncorrectable code who loc loc2).harts =
      (fins 16).foldl (fun v g => vmod v g fun t => { t with halted := true }) s.harts := by
    rw [hfault, hstop, State.haltAll, State.forEach_modHart_eq]
  rw [State.hart, hharts, foldl_fins_get]

/-- Settles O55: each clause by what its command does to the registers that it names. -/
theorem paceCalibrationAndObservation : Obligations.PaceCalibrationAndObservation := by
  unfold Obligations.PaceCalibrationAndObservation
  refine ⟨fun p s hp => ⟨next_if_pos hp, next_if_pos hp⟩, fun r on n code s ha hp => ⟨exec_paceClear ha hp, fun h => ?_,
      fun h hcode => ?_, fun hfree hon => ?_, fun hheld hoff => ?_⟩, fun r n s ha => ?_, fun r s => s.readReg_pace r,
    ⟨rfl, rfl, rfl⟩, fun r v met lost s ha hp => exec_registerWrite_pace ha hp v met lost,
    fun v s hp hon hfrost hen hdown => ?_, fun g v s hp hg hdown htap hslack => ?_,
    fun g v s hp hg hdown hfail hstage hstat => ?_⟩
  · rw [exec_obsSelect ha hp, State.obsSelect_held h]
    exact ⟨_, rfl, rfl, rfl, rfl, rfl, rfl⟩
  · rw [exec_obsSelect ha hp, State.obsSelect_free h r hcode]
    rfl
  · obtain ⟨out, hout, hget⟩ := State.calTap_moves hfree hon r
    rw [exec_calTap ha hp, hout]
    exact ⟨_, rfl, rfl, hget, rfl⟩
  · rw [exec_calTap ha hp, State.calTap_refused hheld hoff]
    exact ⟨_, rfl, rfl, rfl, rfl, rfl, rfl⟩
  · have hexec : exec (.eventCounterLowRead r n) s = .next (s.readEffect r (BitVec.ofNat 16 (0x1260 + 8 * n.val))) :=
      next_if_pos ha
    rw [hexec, s.readEffect_low r n]
    exact ⟨_, rfl, rfl, s.readReg_low r n, (State.readReg_high _ r n).trans (s.obs.highWord_latched r n)⟩
  · obtain ⟨hfirst, hguarded⟩ := State.calibPeriod_first hon hfrost hen hdown v
    obtain ⟨obs, hmeasure⟩ := (s.timeTo (s.ks.timers.get 3).zeroAt).measure_eq 0 v
    have htimer : ∀ u : State, (u.periodEnded.ks.timers.get 3) =
        { u.ks.timers.get 3 with count := (u.ks.timers.get 3).reload, since := (u.ks.timers.get 3).zeroAt } :=
      fun u => vmod_get_same _ _ _
    have hregion : (((s.timeTo (s.ks.timers.get 3).zeroAt).measure 0 v).cal.regions.get 0) =
        .measuredAt (tapAfter (s.cal.regions.get 0).tap v) v s.cycle := by
      rw [hmeasure]
      exact vset_get_same _ _ _
    rw [exec_calibPeriod hp, exec_calibPeriod hp, exec_calibPeriod hp, hguarded, hfirst]
    refine ⟨_, rfl, rfl, congrArg Region.slack hregion, ?_, fun g hg => ?_, ?_, ?_, ?_⟩
    · exact (congrArg (fun x : Region => x.tap.toNat) hregion).trans (tapAfter_toNat _ v)
    · rw [hmeasure]
      exact vset_get_ne _ _ hg
    · rw [htimer, hmeasure]
      rfl
    · rw [htimer, hmeasure]
      rfl
    · rw [hmeasure]
      exact ⟨rfl, rfl, rfl, rfl⟩
  · have hpass : guardFails (s.cal.regions.get g).tap v = false := by
      rw [Bool.eq_false_iff, Ne, guardFails_iff]
      omega
    obtain ⟨obs, hguard⟩ := State.guardEvent_eq hg hdown v
    rw [exec_guardEvent hp, hguard, hpass]
    refine ⟨_, rfl, ?_, rfl, fun k hk => vset_get_ne _ _ hk, rfl, rfl, rfl⟩
    exact (congrArg (fun x : Region => x.tap.toNat) (vset_get_same _ _ _)).trans (addSat_four_toNat _)
  · have hfails : guardFails (s.cal.regions.get g).tap v = true := by
      rw [guardFails_iff]
      obtain h | ⟨h, hv⟩ := hfail
      · exact .inl (congrArg BitVec.toNat h)
      · exact .inr ⟨by omega, hv⟩
    obtain ⟨obs, hguard⟩ := State.guardEvent_eq hg hdown v
    rw [exec_guardEvent hp, hguard, hfails, if_pos rfl]
    refine ⟨_, rfl, ?_, ?_, State.uncorrectable_halts (s := s.guarded g v obs) hstage hstat _ _ _ _⟩
    all_goals
      obtain ⟨harts, ch, nbr, sb, hfault, -⟩ := State.uncorrectable_running (s := s.guarded g v obs) hstage hstat 0x05
        (Src.frost g) (BitVec.ofNat 32 g.val) ((addSat (s.cal.regions.get g).tap 4).setWidth 32)
      rw [hfault]
    rfl

end Sys2Proof.Machine

/-! # Consecutive words of a store -/

namespace Sys2Proof.Machine

section
variable {α : Type} [DecidableEq α] {d : α} {m : Store α}

theorem ssetMany_cons (p : Nat × α) (ws : List (Nat × α)) : ssetMany d m (p :: ws) = ssetMany d (sset d m p.1 p.2) ws := rfl

/-- Keys that are not written read as before. -/
theorem sget_ssetMany_miss {ws : List (Nat × α)} {j : Nat} (hm : swf d m = true) (hj : ∀ p ∈ ws, p.1 ≠ j) :
    sget d (ssetMany d m ws) j = sget d m j := by
  induction ws generalizing m with
  | nil => rfl
  | cons p ws ih =>
    obtain ⟨hp, hws⟩ := List.forall_mem_cons.mp hj
    rw [ssetMany_cons, ih (swf_sset d m _ _ hm) hws, sget_sset d m _ _ _ hm, if_neg (Ne.symm hp)]

/-- A key that is written once reads what is written. -/
theorem sget_ssetMany_hit {ws : List (Nat × α)} {j : Nat} {v : α} (hm : swf d m = true) (hkeys : (ws.map (·.1)).Nodup)
    (hj : (j, v) ∈ ws) : sget d (ssetMany d m ws) j = v := by
  induction ws generalizing m with
  | nil => exact absurd hj List.not_mem_nil
  | cons p ws ih =>
    obtain ⟨hp, hws⟩ := List.nodup_cons.mp hkeys
    rw [ssetMany_cons]
    obtain rfl | hin := List.mem_cons.mp hj
    · have hmiss : ∀ q ∈ ws, q.1 ≠ j := fun q hq e => hp (List.mem_map.mpr ⟨q, hq, e⟩)
      rw [sget_ssetMany_miss (swf_sset d m _ _ hm) hmiss, sget_sset d m _ _ _ hm, if_pos rfl]
    · exact ih (swf_sset d m _ _ hm) hws hin

/-- The words of a list at the keys that `place` gives their positions. -/
def placedAt (place : Nat → Nat) (ws : List α) : List (Nat × α) := ws.zipIdx.map fun q => (place q.2, q.1)

omit [DecidableEq α] in
theorem placedAt_keys (place : Nat → Nat) (ws : List α) :
    (placedAt place ws).map (·.1) = (List.range ws.length).map place := by
  rw [placedAt, List.map_map, List.range_eq_range', ← List.zipIdx_map_snd 0 ws, List.map_map]
  rfl

omit [DecidableEq α] in
theorem mem_placedAt {place : Nat → Nat} {ws : List α} {i : Nat} (hi : i < ws.length) (v : α) :
    (place i, ws.getD i v) ∈ placedAt place ws := by
  refine List.mem_map.mpr ⟨(ws[i], i), List.mk_mem_zipIdx_iff_getElem?.mpr (List.getElem?_eq_getElem hi), ?_⟩
  rw [List.getD_eq_getElem _ _ hi]

/-- The words of a list read back at their places, when no two places are the same. -/
theorem sget_placedAt {place : Nat → Nat} {ws : List α} (hm : swf d m = true)
    (hplace : ∀ i < ws.length, ∀ k < ws.length, place i = place k → i = k) {i : Nat} (hi : i < ws.length) :
    sget d (ssetMany d m (placedAt place ws)) (place i) = ws.getD i d := by
  refine sget_ssetMany_hit hm ?_ (mem_placedAt hi d)
  rw [placedAt_keys]
  exact List.Nodup.map_on (fun i hi k hk => hplace i (List.mem_range.mp hi) k (List.mem_range.mp hk)) List.nodup_range

/-- The keys that are no word's place read as before. -/
theorem sget_placedAt_elsewhere {place : Nat → Nat} {ws : List α} (hm : swf d m = true) {j : Nat}
    (hj : ∀ i < ws.length, j ≠ place i) : sget d (ssetMany d m (placedAt place ws)) j = sget d m j := by
  refine sget_ssetMany_miss hm fun p hp e => ?_
  have hkey : j ∈ (placedAt place ws).map (·.1) := List.mem_map.mpr ⟨p, hp, e⟩
  rw [placedAt_keys] at hkey
  obtain ⟨i, hi, rfl⟩ := List.mem_map.mp hkey
  exact hj i (List.mem_range.mp hi) rfl

end

end Sys2Proof.Machine

/-! # Refusals of orders, and replies -/

namespace Sys2Proof.Machine

/-! ## Taking an order up -/

/-- Every command that serves an order takes it up unless it holds the order back. -/
theorem exec_orderCode {c : Instr} {op : BitVec 8} (hc : orderCode c = some op) {s : State} (hheld : orderHeld c s = false) :
    ∃ k alt, exec c s = .next (s.serve op k alt) := by
  cases c <;> cases hc
  case ordLoadExt => exact ⟨_, _, congrArg Host.Outcome.next (if_neg (ne_true_of_eq_false hheld))⟩
  case ordWindow op w stage credit =>
    refine ⟨_, id, congrArg Host.Outcome.next (if_neg ?_)⟩
    cases op
    · exact Bool.false_ne_true
    · exact ne_true_of_eq_false ((Bool.true_and _).trans hheld)
    · exact Bool.false_ne_true
  all_goals exact ⟨_, _, rfl⟩

/-- An order that is refused gets the refusal as its reply, and no more (R420). -/
theorem State.serve_refused {s : State} {o : Order} {r : List Order} {op : BitVec 8} {st : BitVec 16}
    (horders : s.hods.orders = o :: r) (hop : o.op = op) (hserving : s.serving = true)
    (hrefusal : ({ s with hods := { s.hods with orders := r } } : State).refusal o = some st) (k : State → Order → State)
    (alt : State → State) :
    s.serve op k alt = ({ s with hods := { s.hods with orders := r } } : State).answer o st := by
  simp only [State.serve, horders, hop, hserving, hrefusal, if_true, Bool.not_true, Bool.false_eq_true, if_false]

/-! ## Replies (R421, R422) -/

theorem slotsOf_eq (ws : List Word) : slotsOf ws = (ws.length + 15) / 16 := by
  rw [slotsOf, padSlots, List.length_append, List.length_replicate]
  omega

theorem padSlots_length (ws : List Word) : (padSlots ws).length = 16 * slotsOf ws := by
  rw [slotsOf_eq, padSlots, List.length_append, List.length_replicate]
  omega

/-- The padding words are zero. -/
theorem padSlots_getD (ws : List Word) (k : Nat) : (padSlots ws).getD k 0 = ws.getD k 0 := by
  rw [padSlots]
  by_cases hk : k < ws.length
  · rw [List.getD_append _ _ _ _ hk]
  · rw [List.getD_append_right _ _ _ _ (Nat.not_lt.mp hk), List.getD_eq_default _ _ (Nat.not_lt.mp hk)]
    rw [List.getD_eq_getElem?_getD, List.getElem?_getD_replicate_default_eq]

/-- The place in a ring of the word `k` behind an index. -/
def ringPlace (i : Word) (k : Nat) : Nat := (i.toNat % 64 * 16 + k) % 1024

theorem ringPlace_inj {i : Word} {j k : Nat} (hj : j < 1024) (hk : k < 1024) (h : ringPlace i j = ringPlace i k) : j = k := by
  simp only [ringPlace] at h
  omega

theorem Hod.post_eq (d : Hod) (ws : List Word) :
    d.post ws = { d with
      outSlots := ssetMany 0 d.outSlots (placedAt (ringPlace d.oprod) (padSlots ws))
      oprod := d.oprod + BitVec.ofNat 32 (slotsOf ws), notify := true } := rfl

/-- A message of at most a ring's words fills the slots behind OPROD, padded with zeros, and no others. -/
theorem Hod.post_outSlots {d : Hod} (hd : swf 0 d.outSlots = true) {ws : List Word} {n : Nat} (hn : slotsOf ws = n)
    (hfit : n ≤ 64) :
    (∀ k < 16 * n, sget 0 (d.post ws).outSlots (ringPlace d.oprod k) = ws.getD k 0) ∧
      ∀ i, (∀ k < 16 * n, i ≠ ringPlace d.oprod k) → sget 0 (d.post ws).outSlots i = sget 0 d.outSlots i := by
  subst hn
  rw [← padSlots_length, Hod.post_eq]
  have hlen : (padSlots ws).length ≤ 1024 := by
    rw [padSlots_length]
    omega
  refine ⟨fun k hk => ?_, fun i hi => sget_placedAt_elsewhere hd hi⟩
  rw [← padSlots_getD]
  exact sget_placedAt hd (fun i hi k hk => ringPlace_inj (by omega) (by omega)) hk

/-- A message goes to its hod at once when it has room there and none waits before it. -/
theorem State.postOut_room {s : State} {h : Fin 3} {ws : List Word} (hq : ∀ q ∈ s.hods.outQ, q.1 ≠ h)
    (hroom : (s.hods.hod.get h).room ws = true) : s.postOut h ws = s.modHod h (·.post ws) := by
  have hnone : (s.hods.outQ.all fun q => q.1 != h) = true := by simpa using hq
  rw [State.postOut, hnone, hroom]
  rfl

/-- The words of a reply: its header, with RSP, and what it carries (R419, R421). -/
def replyWords (o : Order) (neg : BitVec 4) (st : BitVec 16) (ws : List Word) : List Word :=
  msgHeader o.op true (BitVec.ofNat 2 (slotsOf (List.replicate 3 0 ++ ws) - 1)) o.tag neg st o.job 0 ++ ws

theorem replyWords_slots (o : Order) (neg : BitVec 4) (st : BitVec 16) (ws : List Word) :
    slotsOf (replyWords o neg st ws) = (3 + ws.length + 15) / 16 := by
  rw [slotsOf_eq, replyWords, List.length_append]
  rfl

/-- A reply is posted as one message, of one slot under version 1 (R422). -/
theorem State.answer_running {s : State} (hrun : s.err.stat ≠ .recovering) (o : Order) (st : BitVec 16) {ws : List Word}
    (hver : (s.hods.hod.get o.hod).neg = 2 ∨ ws.length ≤ 13) :
    s.answer o st ws = s.postOut o.hod (replyWords o (s.hods.hod.get o.hod).neg st ws) := by
  have hrun' : (s.err.stat == .recovering) = false := beq_eq_false_iff_ne.mpr hrun
  have hws : (if (s.hods.hod.get o.hod).neg = 2 then ws else ws.take 13) = ws := by
    obtain h | h := hver
    · exact if_pos h
    · rw [List.take_of_length_le h, ite_self]
  rw [State.answer, State.reply, hrun']
  simp only [Bool.false_eq_true, if_false, hws]
  rfl

theorem State.answer_recovering {s : State} (hrec : s.err.stat = .recovering) (o : Order) (st : BitVec 16) (ws : List Word) :
    s.answer o st ws = s := if_pos (beq_iff_eq.mpr hrec)

/-- Under another version than 2 a reply has one slot (R422). -/
theorem State.answer_take {s : State} {o : Order} (hver : (s.hods.hod.get o.hod).neg ≠ 2) (st : BitVec 16) (ws : List Word) :
    s.answer o st ws = s.answer o st (ws.take 13) := by
  simp only [State.answer, State.reply, if_neg hver, List.take_take, Nat.min_self]

/-- Settles O46: every order is taken up the same way, and its reply is one message in its hod's ring. -/
theorem ordersAreRefusedAndRepliedTo : Obligations.OrdersAreRefusedAndRepliedTo := by
  unfold Obligations.OrdersAreRefusedAndRepliedTo
  refine ⟨fun c op o r st s hc horders hop hserving hheld hrefusal => ?_, ?_,
    fun o st ws s => ⟨fun hver => State.answer_take hver st ws, fun hrec => State.answer_recovering hrec o st ws⟩⟩
  · obtain ⟨k, alt, hexec⟩ := exec_orderCode hc hheld
    rw [hexec, State.serve_refused horders hop hserving hrefusal]
  · intro o st ws n s hcanon hlen hrun hver hq hn hroom d t msg
    have hslots : slotsOf (replyWords o d.neg st ws) = n := (replyWords_slots _ _ _ _).trans hn.symm
    have hmsg : replyWords o d.neg st ws = msg := by
      have hcont : slotsOf (List.replicate 3 0 ++ ws) = n := by
        rw [slotsOf_eq, List.length_append, hn]
        rfl
      rw [replyWords, hcont]
      rfl
    have hfits : d.room (replyWords o d.neg st ws) = true := decide_eq_true (by rw [hslots]; exact hroom)
    have ht : t = s.modHod o.hod (·.post msg) := by
      rw [← hmsg]
      exact (State.answer_running hrun o st hver).trans (State.postOut_room hq hfits)
    have hown : t.hods.hod.get o.hod = d.post msg := by
      rw [ht]
      exact vmod_get_same _ _ _
    rw [hmsg] at hslots
    obtain ⟨hfilled, hothers⟩ := Hod.post_outSlots (hcanon o.hod).2 hslots (by omega)
    rw [hown]
    refine ⟨?_, rfl, hfilled, hothers, fun h hh => ?_, ?_⟩
    · rw [Hod.post_eq, hslots]
    · rw [ht]
      exact vmod_get_ne _ _ hh
    · rw [ht]
      rfl

end Sys2Proof.Machine

/-! # Indices of the hods, and the messages of a ring -/

namespace Sys2Proof.Machine

theorem State.modHod_congr {s : State} {h : Fin 3} {f g : Hod → Hod} (e : f (s.hods.hod.get h) = g (s.hods.hod.get h)) :
    s.modHod h f = s.modHod h g := by
  rw [State.modHod, State.modHod, vmod, vmod, e]

/-! ## Moves of an index (R418, R545) -/

/-- A move of an index that is counted and ignored. -/
abbrev moveRefused (old base v : Word) : Prop := 2 ^ 31 ≤ (v - old).toNat ∨ 64 < (v - base).toNat

theorem moveRefused_iff (old base v : Word) :
    (backward old v || decide (64 < (v - base).toNat)) = true ↔ moveRefused old base v := by
  simp [backward, moveRefused]

section
variable {s : State} {h : Fin 3} {v : Word}

theorem State.iprod_moves (hno : ¬moveRefused (s.hods.hod.get h).iprod (s.hods.hod.get h).icons v) :
    s.iprod h v = s.modHod h fun d => { d with iprod := v } :=
  if_neg fun hc => hno ((moveRefused_iff _ _ _).mp hc)

theorem State.iprod_refused (hr : moveRefused (s.hods.hod.get h).iprod (s.hods.hod.get h).icons v) :
    s.iprod h v = s.modHod h fun d => { d with ovf := incSat d.ovf } := if_pos ((moveRefused_iff _ _ _).mpr hr)

/-- OPROD that moves raises the notification line. -/
theorem State.oprod_moves (hno : ¬moveRefused (s.hods.hod.get h).oprod (s.hods.hod.get h).ocons v)
    (hv : v ≠ (s.hods.hod.get h).oprod) : s.oprod h v = s.modHod h fun d => { d with oprod := v, notify := true } := by
  have hline : ((s.hods.hod.get h).notify || v != (s.hods.hod.get h).oprod) = true := by simp [hv]
  refine (if_neg fun hc => hno ((moveRefused_iff _ _ _).mp hc)).trans (State.modHod_congr ?_)
  rw [hline]

theorem State.oprod_refused (hr : moveRefused (s.hods.hod.get h).oprod (s.hods.hod.get h).ocons v) :
    s.oprod h v = s.modHod h fun d => { d with ovf := incSat d.ovf } := if_pos ((moveRefused_iff _ _ _).mpr hr)

end

/-! ## Messages (R418) -/

/-- The words of the slot `k` behind the consumer index of a hod. -/
def Hod.slot (d : Hod) (k : Nat) : List Word :=
  (List.range 16).map fun j => sget 0 d.inSlots (ringPlace (d.icons + BitVec.ofNat 32 k) j)

/-- Slots follow each other in the ring. -/
theorem ringPlace_slot (i : Word) (k j : Nat) : ringPlace i (16 * k + j) = ringPlace (i + BitVec.ofNat 32 k) j := by
  simp only [ringPlace, BitVec.toNat_add, BitVec.toNat_ofNat]
  omega

theorem map_range_mul {α : Type} (w : Nat → α) (n : Nat) :
    (List.range (16 * n)).map w = (List.range n).flatMap fun k => (List.range 16).map fun j => w (16 * k + j) := by
  induction n with
  | zero => rfl
  | succ n ih =>
    rw [Nat.mul_succ, List.range_add, List.map_append, ih, List.range_succ (n := n), List.flatMap_append, List.map_map,
      List.flatMap_singleton]
    rfl

/-- The message at an index that IPROD has passed: as many slots as its header counts, as far as IPROD goes. -/
theorem Hod.messages_step {d : Hod} {k m : Nat} (hm : d.iprod = d.icons + BitVec.ofNat 32 (k + m)) (hpos : 0 < m)
    (hmax : k + m < 2 ^ 32) {c : Nat} (hc : min ((((d.slot k).getD 0 0).extractLsb' 9 2).toNat + 1) m = c) (fuel : Nat) :
    d.messages (fuel + 1) (d.icons + BitVec.ofNat 32 k) =
      (List.range c).flatMap (fun j => d.slot (k + j)) :: d.messages fuel (d.icons + BitVec.ofNat 32 (k + c)) := by
  have hleft : (d.iprod - (d.icons + BitVec.ofNat 32 k)).toNat = m := by
    rw [hm, BitVec.toNat_sub, BitVec.toNat_add, BitVec.toNat_add, BitVec.toNat_ofNat, BitVec.toNat_ofNat]
    omega
  have hne : d.icons + BitVec.ofNat 32 k ≠ d.iprod := fun e => by
    rw [e, BitVec.sub_self] at hleft
    exact hpos.ne hleft
  have hword (j : Nat) : sget 0 d.inSlots (((d.icons + BitVec.ofNat 32 k).toNat % 64 * 16 + j) % 1024) =
      sget 0 d.inSlots (ringPlace d.icons (16 * k + j)) := by rw [ringPlace_slot]; rfl
  rw [Hod.messages, if_neg hne]
  simp only [hleft]
  rw [show min ((BitVec.extractLsb' 9 2 (sget 0 d.inSlots
    (((d.icons + BitVec.ofNat 32 k).toNat % 64 * 16 + 0) % 1024))).toNat + 1) m = c from hc, map_range_mul]
  congr 1
  · refine List.flatMap_congr fun j _ => List.map_congr_left fun i _ => ?_
    rw [hword, ← Nat.add_assoc, ← Nat.mul_add, ringPlace_slot]
  · rw [BitVec.add_assoc, ← BitVec.ofNat_add]

theorem Hod.messages_done {d : Hod} {i : Word} (h : i = d.iprod) (fuel : Nat) : d.messages fuel i = [] := by
  cases fuel with
  | zero => rfl
  | succ n => exact if_pos h

/-- Messages of one slot each. -/
theorem Hod.messages_singles {d : Hod} {n : Nat} (hprod : d.iprod = d.icons + BitVec.ofNat 32 n) (hmax : n < 2 ^ 32)
    (hone : ∀ k < n, ((d.slot k).getD 0 0).extractLsb' 9 2 = 0) (fuel : Nat) :
    ∀ k m, k + m = n → m ≤ fuel → d.messages fuel (d.icons + BitVec.ofNat 32 k) = (List.range m).map fun j => d.slot (k + j) := by
  induction fuel with
  | zero =>
    rintro k m - hm
    rw [Nat.le_zero.mp hm]
    rfl
  | succ fuel ih =>
    rintro k m hkm hm
    cases m with
    | zero => exact Hod.messages_done (by rw [hprod, ← hkm, Nat.add_zero]) _
    | succ m =>
      have hfirst : min ((((d.slot k).getD 0 0).extractLsb' 9 2).toNat + 1) (m + 1) = 1 := by
        rw [hone k (by omega)]
        exact Nat.min_eq_left (Nat.le_add_left 1 m)
      rw [Hod.messages_step (hkm ▸ hprod) m.succ_pos (hkm ▸ hmax) hfirst, ih (k + 1) m (by omega) (by omega),
        List.range_succ_eq_map (n := m)]
      simp [Function.comp_def, Nat.add_assoc, Nat.add_comm 1]

/-- One message of up to four slots. -/
theorem Hod.messages_single {d : Hod} {c : Nat} (hprod : d.iprod = d.icons + BitVec.ofNat 32 (c + 1)) (hc : c ≤ 3)
    (hcont : (((d.slot 0).getD 0 0).extractLsb' 9 2).toNat = c) (fuel : Nat) :
    d.messages (fuel + 1) d.icons = [(List.range (c + 1)).flatMap d.slot] := by
  have hstep := Hod.messages_step (k := 0) (m := c + 1) (by rw [hprod, Nat.zero_add]) c.succ_pos (by omega)
    (c := c + 1) (by rw [hcont, Nat.min_self]) fuel
  simpa [Hod.messages_done (d := d) hprod.symm] using hstep

end Sys2Proof.Machine

/-! # A scan of the inbound rings (R430) -/

namespace Sys2Proof.Machine

/-! ## What replies leave of the hods -/

/-- A state after replies to orders that are not open, and after the indices and outputs that a scan changes. -/
def State.answeredAs (s t : State) : Prop :=
  (∃ v q b, t = { s with hods := { s.hods with hod := v, outQ := q }, obs := b }) ∧
    ∀ h, (t.hods.hod.get h).neg = (s.hods.hod.get h).neg ∧ (t.hods.hod.get h).versEn = (s.hods.hod.get h).versEn

theorem State.postOut_versions (s : State) (h : Fin 3) (ws : List Word) (g : Fin 3) :
    ((s.postOut h ws).hods.hod.get g).neg = (s.hods.hod.get g).neg ∧
      ((s.postOut h ws).hods.hod.get g).versEn = (s.hods.hod.get g).versEn := by
  unfold State.postOut
  split
  · obtain rfl | hne := eq_or_ne g h
    · simp [State.modHod, vmod_get_same, Hod.post_eq]
    · simp [State.modHod, vmod_get_ne _ _ hne]
  · exact ⟨rfl, rfl⟩

theorem State.answeredAs.answer {s t : State} (ht : s.answeredAs t) (o : Order) (st : BitVec 16) (ws : List Word) :
    s.answeredAs (t.answer o st ws) := by
  obtain ⟨⟨v, q, b, rfl⟩, hver⟩ := ht
  refine ⟨?_, fun g => ?_⟩
  · obtain ⟨v', q', h⟩ := State.reply_eq { s with hods := { s.hods with hod := v, outQ := q }, obs := b } o.hod o.op
      o.tag o.job st ws
    exact ⟨v', q', b, h⟩
  · rw [State.answer, State.reply]
    split
    · exact hver g
    · obtain ⟨hneg, hen⟩ := State.postOut_versions { s with hods := { s.hods with hod := v, outQ := q }, obs := b } o.hod
        (msgHeader o.op true (BitVec.ofNat 2 (slotsOf (List.replicate 3 0 ++ if (v.get o.hod).neg = 2 then ws else ws.take 13) - 1))
          o.tag (v.get o.hod).neg st o.job 0 ++ if (v.get o.hod).neg = 2 then ws else ws.take 13) g
      exact ⟨hneg.trans (hver g).1, hen.trans (hver g).2⟩

section
variable {s t : State} (ht : s.answeredAs t)
include ht

theorem State.answeredAs.orders : t.hods.orders = s.hods.orders := by
  obtain ⟨⟨v, q, b, rfl⟩, -⟩ := ht
  rfl

theorem State.answeredAs.negOf (o : Order) : t.negOf o = s.negOf o := (ht.2 o.hod).1

theorem State.answeredAs.helloVersion (o : Order) : t.helloVersion o = s.helloVersion o := by
  rw [State.helloVersion, State.helloVersion, (ht.2 o.hod).2]

theorem State.answeredAs.refusal (o : Order) : t.refusal o = s.refusal o := by
  have hneg := ht.negOf o
  obtain ⟨⟨v, q, b, rfl⟩, -⟩ := ht
  simp only [State.refusal, hneg]
  rfl

theorem State.answeredAs.unversioned (before : List Order) (o : Order) : t.unversioned before o = s.unversioned before o := by
  simp only [State.unversioned, State.negAfter, ht.negOf o, ht.helloVersion]

end

/-- A scan sets every ICONS to IPROD before it takes its orders in. -/
theorem State.forEach_modHod_eq (s : State) (f : Hod → Hod) :
    s.forEach (fins 3) (fun s h => s.modHod h f) = { s with hods := { s.hods with hod := s.hods.hod.map f } } := by
  have hfold (l : List (Fin 3)) (s : State) : l.foldl (fun s h => s.modHod h f) s =
      { s with hods := { s.hods with hod := l.foldl (fun v h => vmod v h f) s.hods.hod } } := by
    induction l generalizing s with
    | nil => rfl
    | cons h r ih => rw [List.foldl_cons, ih]; rfl
  have hmap : (fins 3).foldl (fun v h => vmod v h f) s.hods.hod = s.hods.hod.map f := by
    refine Vector.ext fun i hi => ?_
    have h := foldl_fins_get f s.hods.hod ⟨i, hi⟩
    simpa [Vector.get] using h
  rw [State.forEach, hfold, hmap]

/-! ## The orders that a scan keeps -/

/-- A kept message before place `i` that will run contradicts an order. -/
def State.beatenIn (s : State) (images : ImageIds) (keep : Nat → Bool) (i : Nat) (o : Order) : Bool :=
  (List.range i).any fun j => keep j && !s.scanStale j && s.scanned[j]?.any (o.contradicts images)

/-- The message at a place waits for its service: it will be refused with VERSION, or it is of an operation and no kept
order before it contradicts it. -/
def State.scanKeeps (s : State) (images : ImageIds) (i : Nat) : Bool :=
  s.scanned[i]?.any fun o => s.scanStale i || !(opHods o.op).isEmpty && !((List.finRange i).any fun j =>
    s.scanKeeps images j.val && !s.scanStale j.val && s.scanned[j.val]?.any (o.contradicts images))
termination_by i

theorem State.scanKeeps_eq {s : State} {images : ImageIds} {i : Nat} {o : Order} (ho : s.scanned[i]? = some o) :
    s.scanKeeps images i = (s.scanStale i || !(opHods o.op).isEmpty && !s.beatenIn images (s.scanKeeps images) i o) := by
  rw [State.scanKeeps, ho, Option.any_some, State.beatenIn, ← List.map_coe_finRange_eq_range, List.any_map]
  rfl

theorem State.beatenIn_eq_false {s : State} {images : ImageIds} {keep : Nat → Bool} {i : Nat} {o : Order} :
    s.beatenIn images keep i o = false ↔ ∀ (j : Nat) (p : Order), j < i → s.scanned[j]? = some p → keep j = true →
      s.scanStale j = false → o.contradicts images p = false := by
  rw [State.beatenIn, List.any_eq_false]
  constructor
  · intro h j p hj hp hkeep hlive
    have hjth := h j (List.mem_range.mpr hj)
    rw [hp, hkeep, hlive] at hjth
    simpa using hjth
  · intro h j hj hc
    simp only [Bool.and_eq_true, Bool.not_eq_true', Option.any_eq_true] at hc
    obtain ⟨⟨hkeep, hlive⟩, p, hp, hcon⟩ := hc
    rw [h j p (List.mem_range.mp hj) hp hkeep hlive] at hcon
    exact Bool.false_ne_true hcon

/-- An object that is a hod is the order's own. -/
theorem Order.object_other {images : ImageIds} {p : Order} {h : Fin 3} (e : (p.object images).1 = .other h) : p.hod = h := by
  simp only [Order.object] at e
  split_ifs at e
  case pos => split at e <;> cases e
  all_goals cases e
  rfl

/-- HELLO is kept: it changes its own hod alone (R422, R423). -/
theorem Order.contradicts_hello {images : ImageIds} {o p : Order} (ho : o.op = 0x01) : o.contradicts images p = false := by
  have hobj : (o.object images).1 = .other o.hod := by
    rw [Order.object, ho]
    rfl
  have hmeets : (o.object images).1.meets (p.object images).1 = true → p.hod = o.hod := fun h => by
    rw [hobj] at h
    exact Order.object_other (eq_of_beq h).symm
  rw [← Bool.not_eq_true]
  intro h
  simp only [Order.contradicts, Bool.and_eq_true, bne_iff_ne, ne_eq] at h
  obtain ⟨⟨⟨⟨hhods, -⟩, -⟩, hm⟩, -⟩ := h
  exact hhods (hmeets hm).symm

theorem State.scanKeeps_hello {s : State} {images : ImageIds} {i : Nat} {o : Order} (ho : s.scanned[i]? = some o)
    (hop : o.op = 0x01) : s.scanKeeps images i = true := by
  have hfree : s.beatenIn images (s.scanKeeps images) i o = false :=
    State.beatenIn_eq_false.mpr fun j p _ _ _ _ => Order.contradicts_hello hop
  rw [State.scanKeeps_eq ho, hfree, hop]
  exact Bool.or_true _

/-- The elements of a list at the places that `f` picks. -/
def pickAt {α : Type} (f : Nat → Bool) (l : List α) : List α := (l.zipIdx.filter fun q => f q.2).map (·.1)

theorem pickAt_concat {α : Type} (f : Nat → Bool) (l : List α) (a : α) :
    pickAt f (l ++ [a]) = if f l.length then pickAt f l ++ [a] else pickAt f l := by
  by_cases h : f l.length <;> simp [pickAt, List.zipIdx_append, h]

theorem mem_pickAt {α : Type} {f : Nat → Bool} {l : List α} {a : α} : a ∈ pickAt f l ↔ ∃ i, l[i]? = some a ∧ f i = true := by
  simp [pickAt, List.mem_zipIdx_iff_getElem?]

theorem State.negAfter_concat (s : State) (before : List Order) (p o : Order) : s.negAfter (before ++ [p]) o =
    if p.op == 0x01 && p.hod == o.hod && s.helloVersion p != 0 then BitVec.ofNat 4 (s.helloVersion p)
    else s.negAfter before o := by
  rw [State.negAfter, List.foldl_append, ← State.negAfter]
  rfl

/-- The orders left out of a scan settle no version. -/
theorem State.negAfter_pickAt {s : State} {keep : Nat → Bool} (o : Order) (before pre : List Order)
    (hkeep : ∀ (i : Nat) (p : Order), pre[i]? = some p → p.op = 0x01 → keep i = true) :
    s.negAfter (before ++ pickAt keep pre) o = s.negAfter (before ++ pre) o := by
  induction pre using List.reverseRecOn with
  | nil => rfl
  | append_singleton pre p ih =>
    have hpre := ih fun i q hi hop => hkeep i q (List.getElem?_append_left (List.getElem?_eq_some_iff.mp hi).1 ▸ hi) hop
    have hlast := hkeep pre.length p (by simp)
    rw [pickAt_concat, ← List.append_assoc, State.negAfter_concat]
    split
    · rw [← List.append_assoc, State.negAfter_concat, hpre]
    · rename_i hdrop
      have hop : (p.op == 0x01) = false := beq_eq_false_iff_ne.mpr fun e => hdrop (hlast e)
      rw [hpre, hop]
      rfl

/-- The orders that wait for their service. -/
def State.setOrders (s : State) (l : List Order) : State := { s with hods := { s.hods with orders := l } }

/-- The replies to the orders of a scan that are not kept. -/
def State.scanReplies (s : State) (images : ImageIds) (t : State) (l : List (Order × Nat)) : State :=
  (l.filter fun q => !s.scanKeeps images q.2).foldl (fun t q =>
    t.answer q.1 (if s.beatenIn images (s.scanKeeps images) q.2 q.1 then stPreempted else (s.refusal q.1).getD stUnknown)) t

section
variable {s : State} {images : ImageIds} {o : Order} {pre l : List Order} (hs : s.scanned = pre ++ o :: l)
include hs

theorem State.scanned_at : s.scanned[pre.length]? = some o := by simp [hs]

theorem State.scanStale_at : s.scanStale pre.length = s.unversioned (s.hods.orders ++ pickAt (s.scanKeeps images) pre) o := by
  have hpre (i : Nat) (p : Order) (hi : pre[i]? = some p) : s.scanned[i]? = some p := by
    rw [hs, List.getElem?_append_left (List.getElem?_eq_some_iff.mp hi).1, hi]
  rw [State.unversioned, State.negAfter_pickAt _ _ _ fun i p hi hop => State.scanKeeps_hello (hpre i p hi) hop,
    State.scanStale, State.scanned_at hs, Option.any_some, State.unversioned]
  simp [hs]

theorem State.beatenIn_at (keep : Nat → Bool) :
    s.beatenIn images keep pre.length o = (pickAt (fun j => keep j && !s.scanStale j) pre).any (o.contradicts images) := by
  rw [Bool.eq_iff_iff, State.beatenIn, List.any_eq_true, List.any_eq_true]
  have hlook {j : Nat} (hj : j < pre.length) : s.scanned[j]? = pre[j]? := by rw [hs, List.getElem?_append_left hj]
  constructor
  · rintro ⟨j, hj, hc⟩
    have hj := List.mem_range.mp hj
    simp only [hlook hj, Bool.and_eq_true, Option.any_eq_true] at hc
    obtain ⟨hlive, p, hp, hcon⟩ := hc
    exact ⟨p, mem_pickAt.mpr ⟨j, hp, by simpa using hlive⟩, hcon⟩
  · rintro ⟨p, hmem, hcon⟩
    obtain ⟨j, hp, hlive⟩ := mem_pickAt.mp hmem
    have hj := (List.getElem?_eq_some_iff.mp hp).1
    exact ⟨j, List.mem_range.mpr hj, by rw [hlook hj, hp, hlive, Option.any_some, hcon]; rfl⟩

end

/-- A scan keeps and replies to its orders one after the other. -/
theorem State.takeOrders_scan {s : State} (images : ImageIds) {l pre : List Order} (hs : s.scanned = pre ++ l) {t : State}
    (ht : s.answeredAs t) :
    t.takeOrders images (pickAt (s.scanKeeps images) pre)
        (pickAt (fun j => s.scanKeeps images j && !s.scanStale j) pre) l =
      (s.scanReplies images t (l.zipIdx pre.length)).setOrders (s.hods.orders ++ pickAt (s.scanKeeps images) s.scanned) := by
  induction l generalizing pre t with
  | nil =>
    rw [hs, List.append_nil, State.takeOrders, ht.orders]
    rfl
  | cons o l ih =>
    have hkeep := State.scanKeeps_eq (images := images) (State.scanned_at hs)
    have hstale := State.scanStale_at (images := images) hs
    have hbeaten := State.beatenIn_at (images := images) hs (s.scanKeeps images)
    have hnext {t : State} := ih (pre := pre ++ [o]) (by rw [hs, List.append_assoc]; rfl) (t := t)
    simp only [pickAt_concat, List.length_append, List.length_singleton] at hnext
    rw [State.takeOrders, ht.unversioned, ht.orders, ← hstale, ← hbeaten, List.zipIdx_cons]
    have hpass (h : s.scanKeeps images pre.length = true) : s.scanReplies images t ((o, pre.length) :: l.zipIdx (pre.length + 1)) = s.scanReplies images t (l.zipIdx (pre.length + 1)) := by
      simp [State.scanReplies, h]
    have hreply (h : s.scanKeeps images pre.length = false) : s.scanReplies images t ((o, pre.length) :: l.zipIdx (pre.length + 1)) = s.scanReplies images (t.answer o
        (if s.beatenIn images (s.scanKeeps images) pre.length o then stPreempted else (s.refusal o).getD stUnknown)) (l.zipIdx (pre.length + 1)) := by
      simp [State.scanReplies, h]
    cases h1 : s.scanStale pre.length with
    | true =>
      have hk : s.scanKeeps images pre.length = true := by rw [hkeep, h1]; rfl
      rw [hpass hk]
      simpa [h1, hk] using hnext ht
    | false =>
      cases h2 : s.beatenIn images (s.scanKeeps images) pre.length o with
      | true =>
        have hk : s.scanKeeps images pre.length = false := by rw [hkeep, h1, h2]; simp
        rw [hreply hk, h2]
        simpa [h1, hk] using hnext (ht.answer o stPreempted [])
      | false =>
        cases h3 : (opHods o.op).isEmpty with
        | true =>
          have hk : s.scanKeeps images pre.length = false := by rw [hkeep, h1, h2, h3]; rfl
          rw [hreply hk, h2, ht.refusal]
          simpa [h1, hk] using hnext (ht.answer o ((s.refusal o).getD stUnknown) [])
        | false =>
          have hk : s.scanKeeps images pre.length = true := by rw [hkeep, h1, h2, h3]; rfl
          rw [hpass hk]
          simpa [h1, hk] using hnext ht

/-- The state in which a scan takes its orders: every message counts as consumed. -/
def State.consumed (s : State) : State :=
  ({ s with hods := { s.hods with hod := s.hods.hod.map fun d => { d with icons := d.iprod } } } : State).toggleObs 0xC2

theorem State.consumed_hod (s : State) (g : Fin 3) :
    s.consumed.hods.hod.get g = { s.hods.hod.get g with icons := (s.hods.hod.get g).iprod } := by
  have hmap := Vector.getElem_map (fun d : Hod => { d with icons := d.iprod }) (xs := s.hods.hod) g.isLt
  exact hmap

theorem State.answeredAs_consumed (s : State) : s.answeredAs s.consumed :=
  ⟨⟨_, _, _, rfl⟩, fun h => by rw [State.consumed_hod]; exact ⟨rfl, rfl⟩⟩

theorem exec_hodScan {s : State} (hserving : s.serving = true) (images : ImageIds) :
    exec (.hodScan images) s = .next ((s.scanReplies images s.consumed s.scanned.zipIdx).setOrders
      (s.hods.orders ++ pickAt (s.scanKeeps images) s.scanned)) := by
  have hscan := State.takeOrders_scan images (s := s) (pre := []) rfl s.answeredAs_consumed
  refine (next_if_pos hserving).trans (congrArg _ (Eq.trans ?_ hscan))
  rw [State.scan, State.forEach_modHod_eq]
  rfl

/-- One new message in all rings. -/
theorem State.scanned_single {s : State} {h : Fin 3} (hprod : (s.hods.hod.get h).iprod = (s.hods.hod.get h).icons + 1)
    (hothers : ∀ g, g ≠ h → (s.hods.hod.get g).iprod = (s.hods.hod.get g).icons)
    (hcont : (nextOrder h (s.hods.hod.get h)).cont = 0) : s.scanned = [nextOrder h (s.hods.hod.get h)] := by
  have hwords : (nextOrder h (s.hods.hod.get h)).words = (s.hods.hod.get h).slot 0 := by
    rw [Hod.slot, BitVec.add_zero]
    rfl
  have hown : (s.hods.hod.get h).messages 64 (s.hods.hod.get h).icons = [(nextOrder h (s.hods.hod.get h)).words] := by
    have hzero : ((((s.hods.hod.get h).slot 0).getD 0 0).extractLsb' 9 2).toNat = 0 := by
      rw [← hwords]
      exact congrArg BitVec.toNat hcont
    rw [hwords, Hod.messages_single hprod (Nat.zero_le 3) hzero 63]
    simp
  have hnone (g : Fin 3) (hg : g ≠ h) : (s.hods.hod.get g).messages 64 (s.hods.hod.get g).icons = [] :=
    Hod.messages_done (hothers g hg).symm 64
  have hall (g : Fin 3) : ((s.hods.hod.get g).messages 64 (s.hods.hod.get g).icons).map (fun ws => ({ hod := g, words := ws } : Order)) =
      if g = h then [nextOrder h (s.hods.hod.get h)] else [] := by
    split
    · next e => subst e; rw [hown]; rfl
    · next e => rw [hnone g e]; rfl
  simp only [State.scanned, hall]
  fin_cases h <;> rfl

theorem State.canAct_privileged {s : State} {k : Hart} (hact : s.canAct (Hart.reader k) = true) (hm : (s.hart k).mode = .m) :
    (s.canAct (Hart.reader k) && s.privileged (Hart.reader k)) = true := by
  rw [hact, State.privileged, Hart.hart?_reader, Bool.true_and, beq_iff_eq]
  exact hm

/-- Settles O53: a scan's kept orders by one pass over its messages, the messages along the ring, and the moves of the
indices. -/
theorem messagesAreTakenIn : Obligations.MessagesAreTakenIn := by
  unfold Obligations.MessagesAreTakenIn
  refine ⟨fun h images s hserving hprod hothers hcont hop => ?_, fun d n c => ?_, fun images s hserving => ?_,
    fun h v s hp => ⟨fun hfwd hnear => ?_, fun hr => ?_⟩, fun h k v s hact hm => ⟨fun hfwd hnear hv => ?_, fun hr => ?_⟩⟩
  · have hscanned := State.scanned_single hprod hothers hcont
    have hkeep : s.scanKeeps images 0 = true := by
      rw [State.scanKeeps_eq (o := nextOrder h (s.hods.hod.get h)) (by rw [hscanned]; rfl), Bool.or_eq_true]
      exact .inr (by simpa [State.beatenIn] using hop)
    have hkept : pickAt (s.scanKeeps images) s.scanned = [nextOrder h (s.hods.hod.get h)] := by
      rw [hscanned]
      simp [pickAt, hkeep]
    have hreplies : s.scanReplies images s.consumed s.scanned.zipIdx = s.consumed := by
      rw [hscanned]
      simp [State.scanReplies, hkeep]
    exact ⟨_, exec_hodScan hserving images, congrArg _ hkept, by rw [hreplies]; exact s.consumed_hod,
      by rw [hreplies]; rfl, by rw [hreplies]; rfl⟩
  · intro place slot
    refine ⟨fun hn hprod hone => ?_, fun hc hprod hcont => Hod.messages_single hprod hc hcont 63⟩
    have hall := Hod.messages_singles hprod (by omega) hone 64 0 n (Nat.zero_add n) hn
    simp only [Nat.zero_add, BitVec.add_zero] at hall
    exact hall
  · refine ⟨s.scanKeeps images, fun i o ho => ?_, exec_hodScan hserving images⟩
    rw [State.scanKeeps_eq ho, ← State.beatenIn_eq_false]
    simp
  · exact (next_if_pos hp).trans (congrArg _ (State.iprod_moves (not_or.mpr ⟨by omega, by omega⟩)))
  · exact (next_if_pos hp).trans (congrArg _ (State.iprod_refused hr))
  · exact (next_if_pos (State.canAct_privileged hact hm)).trans (congrArg _ (State.oprod_moves (not_or.mpr ⟨by omega, by omega⟩) hv))
  · exact (next_if_pos (State.canAct_privileged hact hm)).trans (congrArg _ (State.oprod_refused hr))

end Sys2Proof.Machine

/-! # Orders of control and of registers -/

namespace Sys2Proof.Machine

/-! ## Control (R422, R423, R449, R477) -/

/-- The versions that both sides of a HELLO enable. -/
def State.bothEnable (s : State) (o : Order) (v : Nat) : Prop :=
  (s.hods.hod.get o.hod).versEn.getLsbD (v - 1) = true ∧ (o.w 3).toNat ≤ v ∧ v ≤ (o.w 4).toNat

/-- HELLO settles the highest version that both sides enable. -/
theorem State.helloVersion_cases (s : State) (o : Order) :
    (s.bothEnable o 2 → s.helloVersion o = 2) ∧ (¬s.bothEnable o 2 → s.bothEnable o 1 → s.helloVersion o = 1) ∧
      (¬s.bothEnable o 2 → ¬s.bothEnable o 1 → s.helloVersion o = 0) := by
  have hok (v : Nat) : ((s.hods.hod.get o.hod).versEn.getLsbD (v - 1) && decide ((o.w 3).toNat ≤ v) &&
      decide (v ≤ (o.w 4).toNat)) = true ↔ s.bothEnable o v := by
    simp [State.bothEnable, and_assoc]
  refine ⟨fun h => if_pos ((hok 2).mpr h), fun h2 h1 => ?_, fun h2 h1 => ?_⟩
  · exact (if_neg fun h => h2 ((hok 2).mp h)).trans (if_pos ((hok 1).mpr h1))
  · exact (if_neg fun h => h2 ((hok 2).mp h)).trans (if_neg fun h => h1 ((hok 1).mp h))

theorem State.hello_settled {s : State} {o : Order} {v : Nat} (h : s.helloVersion o = v) (hv : v ≠ 0) :
    s.hello o = (s.modHod o.hod fun d => { d with neg := BitVec.ofNat 4 v }).answer o 0 [BitVec.ofNat 32 v] := by
  rw [State.hello, h]
  exact if_neg hv

theorem State.hello_refused {s : State} {o : Order} (h : s.helloVersion o = 0) : s.hello o = s.answer o 3 := if_pos h

theorem extractLsb'_mask (w : Word) (h : Hart) : (w.extractLsb' 0 16).getLsbD h.val = w.getLsbD h.val := by
  simp [h.isLt]

theorem State.releaseOrder_running {s : State} (h : s.err.stat ≠ .stopped) (o : Order) : s.releaseOrder o = s.answer o 0 :=
  if_pos (bne_iff_ne.mpr h)

/-- RELEASE in a stopped engine. -/
theorem State.releaseOrder_stopped {s : State} (h : s.err.stat = .stopped) (o : Order) :
    s.releaseOrder o = if Config.groups s.cfg ≤ s.healthyLanes ∧ s.ice.sparing = [] then
      ({ s with err := { s.err with stat := .running } } : State).answer o 0 else s.answer o 7 := by
  simp only [State.releaseOrder, h, bne_self_eq_false, Bool.false_eq_true, if_false, Bool.and_eq_true, decide_eq_true_eq,
    List.isEmpty_iff]
  rfl

theorem State.calibOrder_off {s : State} {o : Order} (h : (o.w 3).getLsbD 0 = false) :
    s.calibOrder o = s.calOff.answer o 0 := by
  rw [State.calibOrder, h]
  rfl

/-- CALIB on: without effect when it is on, refused when timer 3 has an owner. -/
theorem State.calibOrder_on {s : State} {o : Order} (h : (o.w 3).getLsbD 0 = true) :
    s.calibOrder o = if s.cal.on then s.answer o 0
      else if (s.ks.timers.get 3).owned then (s.conflict (timerOff 3) 3 mgmt).answer o 8 else s.calOn.answer o 0 :=
  if_pos h

theorem State.obsOrder_held {s : State} {n : Fin 16} (h : (s.obs.out.get n).src = 2) (o : Order) (code : BitVec 8) :
    s.obsOrder o [(n, code)] = (s.conflict (obsOff n) 4 (Hart.reader 0)).answer o 8 := by
  simp [State.obsOrder, h, stConflict]

theorem State.obsOrder_free {s : State} {n : Fin 16} (h : (s.obs.out.get n).src ≠ 2) {code : BitVec 8}
    (hcode : obsCode code = true) (o : Order) :
    s.obsOrder o [(n, code)] = ({ s with obs := { s.obs with out := vmod s.obs.out n (·.selected code) } } : State).answer o 0 := by
  have hfree : [(n, code)].find? (fun q => (s.obs.out.get q.1).src == 2) = none := by simpa using h
  rw [State.obsOrder, hfree]
  exact congrArg (State.answer · o stDone) (congrArg Prod.fst (State.obsSet_free h hcode))

/-! ## Registers (R423, R506) -/

theorem State.regRead_register {s : State} {a : Word} (halign : a.toNat % 4 = 0) (ha : a.extractLsb' 16 16 = 0x0100)
    (o : Order) : s.regRead o a =
      (s.readEffect 0 (a.extractLsb' 0 16)).answer o 0 [s.readReg 0 (a.extractLsb' 0 16)] := by
  have hoff : regOffset a = some (a.extractLsb' 0 16) := if_pos ha
  simp only [State.regRead, halign, ne_eq, not_true_eq_false, if_false, hoff]
  rfl

/-- REG_READ of a word of the local store that reads clean. -/
theorem State.regRead_store {s : State} {a d : Word} (halign : a.toNat % 4 = 0) (ha : a.toNat < 0x80000)
    (hd : sget 0 s.ks.store (a.toNat / 4) = encodeClean d) (o : Order) : s.regRead o a = s.answer o 0 [d] := by
  have hoff : regOffset a = none := if_neg fun h => by
    have hhigh : a.toNat >>> 16 % 2 ^ 16 = 256 := (BitVec.extractLsb'_toNat ..).symm.trans (congrArg BitVec.toNat h)
    omega
  have hin : a.toNat / 4 < storeWords := by
    rw [storeWords]
    omega
  simp only [State.regRead, halign, ne_eq, not_true_eq_false, if_false, hoff, hin, if_true, State.readLs_clean hd]
  rfl

/-- A write of a register that no other write of its step meets. -/
theorem State.writeReg_unmet (s : State) (r : Reader) (off : BitVec 16) (v met : Word) :
    s.writeReg r off v met [] = s.applyWrite r off.toNat v met [] := by
  have hstands : stands r [] = true := Bool.or_true _
  have hcount : s.countPreempt [] = s := by simp [State.countPreempt, addSat_zero]
  simp only [State.writeReg, State.stateWrite, List.filter_nil, hstands, if_true, hcount, ite_self]

/-- Firmware's access leaves hart 0 as it was, where `f` does what `g` does and touches no hart. -/
theorem State.asFirmware_eq {s : State} {f : State → State} {u : State} (hu : u.harts = s.harts)
    (hf : f (s.modHart 0 fun x => { x with mode := .m, wait := .run }) =
      u.modHart 0 fun x => { x with mode := .m, wait := .run }) : s.asFirmware f = u := by
  have hback : vmod (vmod u.harts 0 fun x => { x with mode := .m, wait := .run }) 0 (fun x =>
      { x with mode := (s.hart 0).mode, wait := if x.wait == .run then (s.hart 0).wait else x.wait }) = u.harts := by
    rw [vmod_vmod]
    have hsame : (fun x : HartState => { x with
        mode := (s.hart 0).mode, wait := (s.hart 0).wait }) (u.harts.get 0) = u.harts.get 0 := by rw [hu]; rfl
    show vset u.harts 0 _ = _
    exact (congrArg (vset u.harts 0) hsame).trans (Vector.set_getElem_self _)
  rw [State.asFirmware, hf]
  exact congrArg (fun v => { u with harts := v }) hback

theorem State.applyWrite_vers {s : State} {r : Reader} (h : s.privileged r = true) (v met : Word) (lost : List Hart) :
    s.applyWrite r 0x624 v met lost = { s with drf := { s.drf with vers := v.extractLsb' 0 2 } } := if_pos h

/-- CE_DRF_VERS through REG_WRITE. -/
theorem State.regWrite_vers (s : State) (o : Order) (v : Word) :
    s.regWrite o 0x624 v = ({ s with drf := { s.drf with vers := v.extractLsb' 0 2 } } : State).answer o 0 := by
  have hwrite : ({ s with ks := { s.ks with confV := false } } : State).asFirmware
      (fun s => s.writeReg (Hart.reader 0) 0x624 v 0 []) =
      { s with ks := { s.ks with confV := false }, drf := { s.drf with vers := v.extractLsb' 0 2 } } := by
    refine State.asFirmware_eq rfl ?_
    rw [State.writeReg_unmet]
    exact State.applyWrite_vers (by simp [State.privileged]) v 0 []
  simp only [State.regWrite, hwrite]
  rfl

theorem State.regWrite_port {s : State} {v : Word} (hdown : v.extractLsb' 4 2 = 1) {w : Fin 64}
    (hopen : (s.win w).isOpen = true) (hport : (s.win w).port = (v.extractLsb' 0 2).toFin) (o : Order) :
    s.regWrite o 0x1074 v = (s.conflict 0x1074 5 (Hart.reader 0)).answer o 8 := by
  have hhas : s.portHasWindow (v.extractLsb' 0 2).toFin = true :=
    List.any_eq_true.mpr ⟨w, mem_fins w, by rw [hopen, hport]; simp⟩
  rw [State.regWrite, hdown, hhas]
  rfl

/-! ## FENCE (R423) -/

/-- The only FENCE that is open waits for the orders of its job before it. -/
theorem State.fenceDone_last {t : State} {l : List OpenOrder} {p : OpenOrder} (hl : t.hods.openOrders = l ++ [p])
    (hop : p.op = 0x31) (hnew : ∀ q ∈ l, q.op ≠ 0x31 ∧ q.id ≠ p.id) :
    t.fenceDone = if ∃ q ∈ l, q.job = p.job then t else t.endOrder p stDone [] := by
  have hnone : l.find? (fun q => q.op == 0x31 && (((l ++ [p]).takeWhile fun r => r != q).all fun r =>
      r.job != q.job || r.op == 0x31)) = none :=
    List.find?_eq_none.mpr fun q hq => by rw [beq_eq_false_iff_ne.mpr (hnew q hq).1]; exact Bool.false_ne_true
  have hbefore : (l ++ [p]).takeWhile (fun r => r != p) = l := by
    rw [List.takeWhile_append_of_pos fun q hq => bne_iff_ne.mpr fun e => (hnew q hq).2 (congrArg OpenOrder.id e)]
    simp
  have hjobs : (l.all fun q => q.job != p.job || q.op == 0x31) = true ↔ ¬∃ q ∈ l, q.job = p.job := by
    simp only [List.all_eq_true, Bool.or_eq_true, bne_iff_ne, beq_iff_eq, not_exists, not_and]
    exact forall₂_congr fun q hq => or_iff_left (hnew q hq).1
  have hfind : t.hods.openOrders.find? (fun q => q.op == 0x31 && ((t.hods.openOrders.takeWhile fun r => r != q).all fun r =>
      r.job != q.job || r.op == 0x31)) = if ∃ q ∈ l, q.job = p.job then none else some p := by
    rw [hl, List.find?_append, hnone, Option.none_or, List.find?_singleton, hbefore, hop, beq_self_eq_true, Bool.true_and]
    simp only [hjobs, ite_not]
  rw [State.fenceDone, hfind]
  split_ifs <;> rfl

/-- FENCE is answered at once when no order of its job is open. -/
theorem State.openOrder_fenceDone {s : State} {o : Order} (hop : o.op = 0x31)
    (hnew : ∀ p ∈ s.hods.openOrders, p.op ≠ 0x31 ∧ p.id ≠ s.hods.nextOrder) :
    (s.openOrder o).fenceDone =
      if ∃ p ∈ s.hods.openOrders, p.job = o.job then s.openOrder o else s.numbered.answer o 0 := by
  have hend : (s.openOrder o).endOrder (s.asOpen o) stDone [] = s.numbered.answer o 0 :=
    State.withOrder_endOrder (s := s.numbered) (fun q hq => (hnew q hq).2) stDone []
  rw [State.fenceDone_last (t := s.openOrder o) (p := s.asOpen o) rfl hop hnew, hend]
  rfl

/-- Settles O47: what each order does once it is served. -/
theorem controlAndRegisterOrdersAct : Obligations.ControlAndRegisterOrdersAct := by
  unfold Obligations.ControlAndRegisterOrdersAct
  refine ⟨fun o op s t h => ⟨?_, ?_, ?_, ?_, ?_, ?_, ?_, ?_⟩, fun o op s t h => ⟨?_, ?_, ?_⟩⟩
  · rintro rfl
    have hserve : exec .ordHello s = .next (t.hello o) := congrArg _ (h.serve _ _)
    rw [hserve]
    obtain ⟨h2, h1, h0⟩ := t.helloVersion_cases o
    refine ⟨fun v hv hen hlo hhi => ?_, fun hno => congrArg _ (State.hello_refused (h0 (hno 2 (.inr rfl)) (hno 1 (.inl rfl))))⟩
    obtain rfl | ⟨rfl, hnot⟩ := hv
    · exact congrArg _ (State.hello_settled (h2 ⟨hen, hlo, hhi⟩) (by decide))
    · exact congrArg _ (State.hello_settled (h1 hnot ⟨hen, hlo, hhi⟩) (by decide))
  · rintro rfl
    obtain ⟨v, hv, hharts⟩ := t.halt_spec ((o.w 3).extractLsb' 0 16)
    simp only [extractLsb'_mask] at hharts
    exact ⟨{ t with harts := v }, congrArg _ ((h.serve _ _).trans (congrArg (State.answer · o 0) hv)), rfl, hharts⟩
  · rintro rfl hstage
    obtain ⟨v, hv, hharts⟩ := State.resume_spec hstage (beq_eq_false_iff_ne.mp h.not_recovering) ((o.w 3).extractLsb' 0 16)
    simp only [extractLsb'_mask] at hharts
    exact ⟨{ t with harts := v }, congrArg _ ((h.serve _ _).trans (congrArg (State.answer · o 0) hv)), rfl, hharts⟩
  · rintro rfl
    have hserve : exec .ordRelease s = .next (t.releaseOrder o) := congrArg _ (h.serve _ _)
    rw [hserve]
    refine ⟨fun hrun => congrArg _ (State.releaseOrder_running hrun o), fun hstop hlanes hsparing => ?_, fun hstop hno => ?_⟩
    · rw [State.releaseOrder_stopped hstop, if_pos ⟨hlanes, hsparing⟩]
    · rw [State.releaseOrder_stopped hstop, if_neg]
      rintro ⟨hlanes, hsparing⟩
      exact hno.elim (Nat.not_lt.mpr hlanes) (absurd hsparing)
  · rintro rfl
    have hserve : exec .ordCalib s = .next (t.calibOrder o) := congrArg _ (h.serve _ _)
    rw [hserve]
    refine ⟨fun hoff => congrArg _ (State.calibOrder_off hoff), fun hon hcal howned => ?_, fun hon hcal howned => ?_⟩
    · rw [State.calibOrder_on hon, hcal, howned]
      rfl
    · rw [State.calibOrder_on hon, hcal, howned]
      exact ⟨_, rfl, rfl, rfl, rfl, rfl⟩
  · rintro rfl n code
    have hserve : exec (.ordObssel [(n, code)]) s = .next (t.obsOrder o [(n, code)]) := congrArg _ (h.serve _ _)
    rw [hserve]
    exact ⟨fun hsrc => ⟨_, congrArg _ (State.obsOrder_held hsrc o code), rfl, rfl, rfl⟩,
      fun hsrc hcode => congrArg _ (State.obsOrder_free hsrc hcode o)⟩
  · rintro rfl hon hcal
    refine congrArg _ ((h.serve _ _).trans ?_)
    rw [State.calibOrder_on hon, hcal]
    rfl
  · rintro rfl
    exact congrArg _ (h.serve _ _)
  · rintro rfl addr halign
    have hserve : exec (.ordRegRead addr) s = .next (t.regRead o addr) := congrArg _ (h.serve _ _)
    rw [hserve]
    exact ⟨fun hreg => congrArg _ (State.regRead_register halign hreg o),
      fun d hin hd => congrArg _ (State.regRead_store halign hin hd o)⟩
  · rintro rfl
    exact ⟨fun v => congrArg _ ((h.serve _ _).trans (State.regWrite_vers t o v)), fun v w hdown hopen hport =>
      ⟨t.conflict 0x1074 5 (Hart.reader 0), congrArg _ ((h.serve _ _).trans (State.regWrite_port hdown hopen hport o)), rfl, rfl, rfl, rfl, rfl⟩⟩
  · rintro rfl hnew
    have hserve : exec .ordFence s = .next (t.openOrder o).fenceDone := congrArg _ (h.serve _ _)
    rw [hserve, State.openOrder_fenceDone h.1 hnew]
    refine ⟨fun hnone => congrArg _ (if_neg ?_), fun hsome => congrArg _ (if_pos hsome)⟩
    rintro ⟨p, hp, hjob⟩
    exact hnone p hp hjob

end Sys2Proof.Machine

/-! # Compute orders -/

namespace Sys2Proof.Machine

/-! ## The checks of a start (R31, R420) -/

section
variable {t : State} {o : Order}

theorem State.epochCheck_missing (he : o.wepoch (t.negOf o) ≠ 0xFFFF)
    (hno : ∀ f : Fin 64, (t.floe f).used = true → (t.floe f).wepoch ≠ o.wepoch (t.negOf o)) (resident : Bool) :
    t.epochCheck o resident = some 6 := by
  have hheld : t.epochHeld (o.wepoch (t.negOf o)) = false := by
    rw [State.epochHeld, List.any_eq_false]
    intro f _ hf
    simp only [Bool.and_eq_true, beq_iff_eq] at hf
    exact hno f hf.1.1 hf.1.2
  simp only [State.epochCheck, if_neg he, hheld, Bool.false_eq_true, if_false]
  rfl

theorem State.epochCheck_held {resident : Bool} (h : o.wepoch (t.negOf o) = 0xFFFF ∧ resident = false ∨
    ∃ f : Fin 64, (t.floe f).used = true ∧ (t.floe f).wepoch = o.wepoch (t.negOf o) ∧ o.wepoch (t.negOf o) ≠ 0xFFFF ∧
      t.untagging f = false) : t.epochCheck o resident = none := by
  obtain ⟨he, rfl⟩ | ⟨f, hused, hepoch, hne, htag⟩ := h
  · exact if_pos he
  · have hheld : t.epochHeld (o.wepoch (t.negOf o)) = true :=
      List.any_eq_true.mpr ⟨f, mem_fins f, by simp [hused, hepoch, htag]⟩
    simp only [State.epochCheck, if_neg hne, hheld, if_true]

/-! ## Starts (R425, R427) -/

variable {sh : OrderShape} {bad : Bool}

theorem State.startProduct_malformed (h : bad = true ∨ sh.malformed = true ∨ sh.m = 0 ∨ sh.n = 0) (tiles : Nat)
    (work : OrderWork) : t.startProduct o sh bad tiles work = t.answer o 5 :=
  if_pos (by
    simp only [Bool.or_eq_true, decide_eq_true_eq, or_assoc]
    obtain h | h | h | h := h <;> simp [h])

theorem State.startVector_malformed (h : bad = true ∨ sh.malformed = true ∨ sh.m = 0 ∨ sh.n = 0) (vops : List (BitVec 6)) :
    t.startVector o sh bad vops = t.answer o 5 := if_pos (by simpa [or_assoc] using h)

section
variable (hbad : bad = false) (hform : sh.malformed = false) (hm : 0 < sh.m) (hn : 0 < sh.n)
include hbad hform hm hn

theorem State.startProduct_refused (hk : 0 < sh.k) (hfold : 0 < sh.fold) {st : BitVec 16}
    (he : t.epochCheck o sh.resident = some st) (tiles : Nat) (work : OrderWork) :
    t.startProduct o sh bad tiles work = t.answer o st := by
  simp only [State.startProduct, hbad, hform, hm.ne', hn.ne', hk.ne', hfold.ne', decide_false, Bool.or_self,
    Bool.false_eq_true, if_false, he]

theorem State.startProduct_opens (hk : 0 < sh.k) (hfold : 0 < sh.fold) (he : t.epochCheck o sh.resident = none)
    {plan : List Nat} (hplan : tilePlan (foldedRows sh) sh.n sh.k (tileWords sh.fmtB sh.block) sh.streamWords = some plan)
    (tiles : Nat) (work : OrderWork) :
    t.startProduct o sh bad tiles work = t.openCompute o plan tiles (some work) sh.kernel [] := by
  simp only [State.startProduct, hbad, hform, hm.ne', hn.ne', hk.ne', hfold.ne', decide_false, Bool.or_self,
    Bool.false_eq_true, if_false, he, hplan]

theorem State.startVector_refused {st : BitVec 16} (he : t.epochCheck o sh.resident = some st) (vops : List (BitVec 6)) :
    t.startVector o sh bad vops = t.answer o st := by
  simp only [State.startVector, hbad, hform, hm.ne', hn.ne', decide_false, Bool.or_self, Bool.false_eq_true, if_false, he]

theorem State.startVector_opens (he : t.epochCheck o sh.resident = none) (vops : List (BitVec 6)) :
    t.startVector o sh bad vops =
      t.openCompute o [(sh.m + 4 * sh.fmtB.rowsPer - 1) / (4 * sh.fmtB.rowsPer), tilesOf sh.n] sh.outTiles none sh.kernel
        (0x06 :: vops) := by
  simp only [State.startVector, hbad, hform, hm.ne', hn.ne', decide_false, Bool.or_self, Bool.false_eq_true, if_false, he]

end

end

/-- How an order of a product starts. -/
theorem startsOrder_product {c : Instr} {op : BitVec 8} {sh : OrderShape} {bad : Bool} {tiles : Nat} {work : OrderWork}
    (hc : ∀ s, exec c s = .next (s.productOrder op sh bad tiles work)) : startsOrder c op sh bad tiles (some work) [] := by
  intro o s t h
  have hstart : exec c s = .next (t.startProduct o sh bad tiles work) := (hc s).trans (congrArg _ (h.serve _ _))
  rw [hstart]
  refine ⟨fun hbad => congrArg _ (State.startProduct_malformed hbad _ _), fun hbad hform hm hn hk hfold => ?_⟩
  exact ⟨fun he hno => congrArg _ (State.startProduct_refused hbad hform hm hn hk hfold (State.epochCheck_missing he hno _) _ _),
    fun hheld plan hplan =>
      congrArg _ (State.startProduct_opens hbad hform hm hn hk hfold (State.epochCheck_held hheld) hplan _ _)⟩

/-- How an order of the vector unit alone starts. -/
theorem startsOrder_vector {c : Instr} {op : BitVec 8} {sh : OrderShape} {bad : Bool} {vops : List (BitVec 6)}
    (hc : ∀ s, exec c s = .next (s.vectorOrder op sh bad vops)) : startsOrder c op sh bad sh.outTiles none (0x06 :: vops) := by
  intro o s t h
  have hstart : exec c s = .next (t.startVector o sh bad vops) := (hc s).trans (congrArg _ (h.serve _ _))
  rw [hstart]
  refine ⟨fun hbad => congrArg _ (State.startVector_malformed hbad _), fun hbad hform hm hn _ _ => ?_⟩
  refine ⟨fun he hno => congrArg _ (State.startVector_refused hbad hform hm hn (State.epochCheck_missing he hno _) _),
    fun hheld plan hplan => ?_⟩
  obtain rfl := Option.some.inj hplan
  exact congrArg _ (State.startVector_opens hbad hform hm hn (State.epochCheck_held hheld) _)

/-- The bonds that MATMUL takes. -/
theorem matmulBond_contains (bond : BitVec 4) : ([0, 1, 2, 8, 11, 12] : List Nat).contains bond.toNat =
    ([0, 1, 2, 8, 11, 12] : List (BitVec 4)).contains bond := by
  revert bond
  decide

/-! ## ATTN_FWD (R427) -/

theorem messageFmt_some {b : BitVec 4} {f : Fmt} (hf : Fmt.ofCode b = some f)
    (hallowed : f ∉ ([.int4, .fp4, .e8m0] : List Fmt)) : messageFmt b = some f := by
  simp only [List.mem_cons, List.not_mem_nil, or_false, not_or] at hallowed
  obtain ⟨h1, h2, h3⟩ := hallowed
  rw [messageFmt, hf, Option.filter_some, bne_iff_ne.mpr h1, bne_iff_ne.mpr h2, bne_iff_ne.mpr h3]
  rfl

/-- An output format of ATTN_FWD. -/
theorem outFmt_some {g : Fmt} (hg : g ∈ ([.bf16, .fp16, .fp32] : List Fmt)) :
    (some g == some Fmt.bf16 || some g == some Fmt.fp16 || some g == some Fmt.fp32) = true := by
  simpa [or_assoc] using hg

/-- Heads times batches of an ATTN_FWD. -/
def attnHeads (o : Order) : Nat := ((o.w 14).extractLsb' 0 16).toNat * ((o.w 14).extractLsb' 16 16).toNat

/-- Heads and batches share K and V and are folded into the rows (R427). -/
def attnFolds (o : Order) : Bool := !(o.w 10).getLsbD 22 && o.w 15 == 0

/-- The shape of an ATTN_FWD, from its words. -/
def attnShape (o : Order) (stream : Nat) (kernel : List Hart) (f : Fmt) : OrderShape :=
  { m := (o.w 8).toNat, n := (o.w 9).toNat, k := ((o.w 10).extractLsb' 0 12).toNat
    fold := if attnFolds o then attnHeads o else min (attnHeads o) 1, causal := (o.w 10).getLsbD 22, fmtB := f
    streamWords := stream, kernel }

/-- What the courses of an ATTN_FWD hold. -/
def attnWork (o : Order) (f : Fmt) : OrderWork :=
  { bonds := [if (o.w 10).getLsbD 24 then 6 else 5], m := if attnFolds o then none else some (o.w 8).toNat
    n := some (o.w 9).toNat, k := some ((o.w 10).extractLsb' 0 12).toNat, s := (o.w 10).getLsbD 20, sat := (o.w 10).getLsbD 21
    fmto := some ((o.w 10).extractLsb' 16 4), causal := (o.w 10).getLsbD 22, mask := (o.w 10).getLsbD 23
    offset := some (o.w 11), tau := some (o.w 12), fmt := some f
    blocks := if attnFolds o ∨ attnHeads o = 1 then some #v[o.w 3, o.w 4, o.w 5, o.w 6, o.w 7, o.w 13] else none }

theorem State.startAttn_eq {o : Order} {f g : Fmt} (hf : messageFmt ((o.w 10).extractLsb' 12 4) = some f)
    (hg : messageFmt ((o.w 10).extractLsb' 16 4) = some g) (hout : g ∈ ([.bf16, .fp16, .fp32] : List Fmt))
    (hres : (o.w 10).extractLsb' 25 7 = 0) (t : State) (stream : Nat) (kernel : List Hart) :
    t.startAttn o stream kernel = t.startProduct o (attnShape o stream kernel f) false
      ((if attnFolds o then 1 else attnHeads o) * tilesOf (foldedRows (attnShape o stream kernel f)) *
        tilesOf ((o.w 10).extractLsb' 0 12).toNat) (attnWork o f) := by
  have hbad : ((some f).isNone || !(some g == some Fmt.bf16 || some g == some Fmt.fp16 || some g == some Fmt.fp32) ||
      (o.w 10).extractLsb' 25 7 != 0) = false := by
    rw [outFmt_some hout, hres]
    rfl
  simp only [State.startAttn, hf, hg, hbad, Bool.or_eq_true, decide_eq_true_eq]
  rfl

/-- Heads and batches are folded into the rows or computed one after the other (R427). -/
theorem foldedRows_attnShape {o : Order} (hheads : 0 < attnHeads o) (stream : Nat) (kernel : List Hart) (f : Fmt) :
    foldedRows (attnShape o stream kernel f) = if attnFolds o then (o.w 8).toNat * attnHeads o else (o.w 8).toNat := by
  cases hcausal : (o.w 10).getLsbD 22 with
  | true =>
    have hno : attnFolds o = false := by rw [attnFolds, hcausal]; rfl
    rw [hno]
    exact if_pos hcausal
  | false =>
    have hrows : foldedRows (attnShape o stream kernel f) = (o.w 8).toNat * (attnShape o stream kernel f).fold :=
      if_neg (by rw [attnShape, hcausal]; exact Bool.false_ne_true)
    rw [hrows, attnShape, Nat.min_eq_right hheads]
    split <;> simp

theorem attnShape_fold {o : Order} (hheads : 0 < attnHeads o) (stream : Nat) (kernel : List Hart) (f : Fmt) :
    0 < (attnShape o stream kernel f).fold := by
  rw [attnShape, Nat.min_eq_right hheads]
  split
  · exact hheads
  · exact Nat.one_pos

/-! ## The end of a compute order (R421, R425) -/

theorem State.serve_alt {s : State} {op : BitVec 8} (h : ∀ p r, s.hods.orders = p :: r → p.op ≠ op)
    (k : State → Order → State) (alt : State → State) : s.serve op k alt = alt s := by
  unfold State.serve
  split
  · next p r hp => exact if_neg (h p r hp)
  · rfl

/-- The status of an order that ends with the summary and the outcome of its last output. -/
theorem endStatus_eq (o : OpenOrder) (sum : DWord) (code : BitVec 4) :
    (if courseStatus code == stDone && (sumSlush sum != 0 || o.marked) then stMarked else courseStatus code) =
      if code = 1 then (if sum.extractLsb' 32 15 ≠ 0 ∨ o.marked = true then 1 else 0)
        else if code = 5 then 0x0C else if code = 7 then 9 else if code = 8 then 0x0E else 5 := by
  by_cases h : code = 1
  · subst h
    simp [courseStatus, stMarked, stDone, sumSlush]
  · have hdone : (courseStatus code == stDone) = false := by
      simp only [courseStatus, if_neg h]
      split_ifs <;> rfl
    rw [hdone, if_neg h, courseStatus, if_neg h]
    rfl

theorem State.finishCompute_done {s : State} {op : BitVec 8} {o : OpenOrder} {sum : DWord} {code : BitVec 4}
    (hserving : s.serving = true) (ho : s.hods.openOrders.find? (fun p => p.op == op && s.workDone p) = some o)
    (hlast : o.last = some (sum, code)) : s.finishCompute op = endedCompute o sum code s := by
  simp only [State.finishCompute, hserving, Bool.not_true, Bool.false_eq_true, if_false, ho, hlast]
  rw [endStatus_eq]
  rfl

/-- Settles O48: the starts of the orders with and without a product, ATTN_FWD's from its words, and the end that all
share. -/
theorem computeOrdersOpenAndEnd : Obligations.ComputeOrdersOpenAndEnd := by
  unfold Obligations.ComputeOrdersOpenAndEnd
  refine ⟨fun sh bond split ops => ?_, ?_, ?_⟩
  · intro rows rowTiles held badSplit
    refine ⟨startsOrder_product fun _ => rfl, startsOrder_product fun s => ?_, startsOrder_vector fun _ => rfl,
      startsOrder_vector fun _ => rfl, startsOrder_vector fun _ => rfl, startsOrder_product fun _ => rfl,
      startsOrder_product fun _ => rfl, startsOrder_product fun _ => rfl, startsOrder_vector fun _ => rfl,
      startsOrder_vector fun _ => rfl, startsOrder_vector fun _ => rfl⟩
    rw [← matmulBond_contains]
    rfl
  · intro stream kernel f g plan o s t h w heads hdim folds rows hf hallowed hg hout hres hrows hheads hn hdim0 he hrun hplan
    have hm : 0 < (o.w 8).toNat := Nat.pos_of_ne_zero fun e => by simp [rows, e] at hrows
    have hfmto : messageFmt (w.extractLsb' 16 4) = some g := messageFmt_some hg fun hin => by
      simp only [List.mem_cons, List.not_mem_nil, or_false] at hin hout
      obtain rfl | rfl | rfl := hin <;> simp at hout
    have hfolded : foldedRows (attnShape o stream kernel f) = rows := foldedRows_attnShape hheads ..
    have hopen := State.startProduct_opens (t := t) (o := o) (sh := attnShape o stream kernel f) (bad := false)
      rfl rfl hm (Nat.pos_of_ne_zero fun e => hn (BitVec.eq_of_toNat_eq e)) hdim0 (attnShape_fold hheads ..)
      (State.epochCheck_held (.inl ⟨he, rfl⟩)) (plan := plan) (by rw [hfolded]; exact hplan)
    refine congrArg _ ((h.serve _ _).trans ((State.startAttn_eq (messageFmt_some hf hallowed) hfmto hout hres t stream
      kernel).trans ((hopen _ _).trans ((if_pos hrun).trans ?_))))
    rw [hfolded]
    rfl
  · intro sh bond split stream ops kernel c op o sum code s hc hfront hserving ho hlast
    have hend : (s.finishCompute op) = endedCompute o sum code s := State.finishCompute_done hserving ho hlast
    rw [← hend]
    simp only [List.mem_cons, Prod.mk.injEq, List.not_mem_nil, or_false] at hc
    obtain ⟨rfl, rfl⟩ | ⟨rfl, rfl⟩ | ⟨rfl, rfl⟩ | ⟨rfl, rfl⟩ | ⟨rfl, rfl⟩ | ⟨rfl, rfl⟩ | ⟨rfl, rfl⟩ | ⟨rfl, rfl⟩ | ⟨rfl, rfl⟩ |
      ⟨rfl, rfl⟩ | ⟨rfl, rfl⟩ | ⟨rfl, rfl⟩ := hc
    all_goals exact congrArg _ (State.serve_alt hfront _ _)

end Sys2Proof.Machine

/-! # KILL, and the answers to page requests -/

namespace Sys2Proof.Machine

/-! ## What a KILL stops (R428) -/

theorem Channel.askedToStop_eq (x : Channel) :
    x.askedToStop = if x.state = 1 ∨ x.state = 4 ∨ x.state = 5 then { x with stopping := true } else x := by
  simp [Channel.askedToStop, or_assoc]

theorem Channel.askedToStop_askedToStop (x : Channel) : x.askedToStop.askedToStop = x.askedToStop := by
  rw [Channel.askedToStop_eq x]
  split
  · next h => rw [Channel.askedToStop_eq, if_pos h]
  · next h => rw [Channel.askedToStop_eq, if_neg h]

/-- Stopping some channels asks each of them to stop. -/
theorem State.forEach_stopChannel_eq (s : State) (l : List (Fin 32)) : s.forEach l State.stopChannel =
    { s with drf := { s.drf with ch := l.foldl (fun v c => vmod v c Channel.askedToStop) s.drf.ch } } := by
  unfold State.forEach
  induction l generalizing s with
  | nil => rfl
  | cons c r ih => rw [List.foldl_cons, ih]; rfl

theorem State.forEach_stopChannel_chan (s : State) (l : List (Fin 32)) (c : Fin 32) :
    (s.forEach l State.stopChannel).chan c = if c ∈ l ∧ ((s.chan c).state = 1 ∨ (s.chan c).state = 4 ∨ (s.chan c).state = 5)
      then { s.chan c with stopping := true } else s.chan c := by
  rw [State.forEach_stopChannel_eq]
  refine (foldl_vmod_get_of_idem Channel.askedToStop_askedToStop l s.drf.ch c).trans ?_
  rw [ite_and, Channel.askedToStop_eq]
  rfl

theorem State.dropReading_reading (s : State) (sel : Reader → Bool) : ∃ sb, s.dropReading sel =
    { s with nbr := { s.nbr with reading := s.nbr.reading.filter fun a => !sel a.who }, ice := { s.ice with sb := sb } } :=
  State.forEach_release { s with nbr := { s.nbr with reading := s.nbr.reading.filter fun a => !sel a.who } } _

/-- A STOP of one reader's sends leaves the reads of the others. -/
theorem State.nbrStop_others {s : State} {r : Reader} (h : ∀ a ∈ s.nbr.reading, a.who ≠ r) (p : Fin 4) :
    ∃ ports regs, s.nbrStop r p = { s with nbr := { s.nbr with ports := ports, regs := regs } } := by
  have hsame : s.nbr.reading.map (SendRead.stoppedBy r p) = s.nbr.reading :=
    (List.map_congr_left fun a ha => if_neg (h a ha)).trans (List.map_id _)
  have hstop := State.nbrStop_eq s r p
  rw [hsame] at hstop
  exact ⟨_, _, hstop⟩

theorem readerIn_reader (hs : List Hart) (h : Hart) : readerIn hs (Hart.reader h) = hs.contains h := by
  rw [readerIn, Hart.hart?_reader]

/-- Stopping the sends of some harts changes ports and registers alone, once no read of theirs is left. -/
theorem State.forEach_nbrStop {s : State} {hs : List Hart} (p : Fin 4) :
    ∀ l ⊆ hs, (∀ a ∈ s.nbr.reading, readerIn hs a.who = false) →
    ∃ ports regs, s.forEach l (fun s h => s.nbrStop (Hart.reader h) p) =
      { s with nbr := { s.nbr with ports := ports, regs := regs } } := by
  intro l
  unfold State.forEach
  induction l generalizing s with
  | nil => exact fun _ _ => ⟨_, _, rfl⟩
  | cons h r ih =>
    intro hsub hno
    have hwho : ∀ a ∈ s.nbr.reading, a.who ≠ Hart.reader h := fun a ha e => by
      have hin := hno a ha
      rw [e, readerIn_reader, List.contains_iff_mem.mpr (List.cons_subset.mp hsub).1] at hin
      exact Bool.false_ne_true hin.symm
    obtain ⟨ports, regs, hstop⟩ := State.nbrStop_others hwho p
    rw [List.foldl_cons, hstop]
    obtain ⟨ports', regs', hrest⟩ := ih (s := { s with nbr := { s.nbr with ports := ports, regs := regs } })
      (List.cons_subset.mp hsub).2 hno
    exact ⟨ports', regs', hrest⟩

/-- The sends of some harts stop at every port. -/
theorem State.forEach_ports_nbrStop {s : State} {hs : List Hart} (l : List (Fin 4))
    (h : ∀ a ∈ s.nbr.reading, readerIn hs a.who = false) :
    ∃ ports regs, s.forEach l (fun s p => s.forEach hs fun s h => s.nbrStop (Hart.reader h) p) =
      { s with nbr := { s.nbr with ports := ports, regs := regs } } := by
  unfold State.forEach
  induction l generalizing s with
  | nil => exact ⟨_, _, rfl⟩
  | cons p r ih =>
    obtain ⟨ports, regs, hstop⟩ := State.forEach_nbrStop p hs (List.Subset.refl hs) h
    rw [State.forEach] at hstop
    rw [List.foldl_cons, hstop]
    obtain ⟨ports', regs', hrest⟩ := ih (s := { s with nbr := { s.nbr with ports := ports, regs := regs } }) h
    exact ⟨ports', regs', hrest⟩

/-- The harts of the calls that a KILL ends. -/
def State.callHarts (s : State) (k : BitVec 16) : List Hart := (s.hods.calls.filter fun c => killMeans k c.job).flatMap (·.harts)

theorem State.mem_callHarts {s : State} {k : BitVec 16} {h : Hart} :
    h ∈ s.callHarts k ↔ ∃ c ∈ s.hods.calls, (k = 0xFFFF ∨ k = c.job) ∧ h ∈ c.harts := by
  simp [State.callHarts, killMeans, and_assoc]

/-- The state of a KILL once harts, courses and channels are asked to stop. -/
def State.killAsked (s : State) (o : Order) : State :=
  let t : State := { s with hods := { s.hods with kills := s.hods.kills ++ [(o.job, s.hods.nextOrder)] } }
  (((t.openOrder o).forEach (s.callHarts o.job) fun s h => s.modHart h fun t => { t with halted := true }).stopCourses
    (readerIn (s.jobHarts o.job))).forEach (s.jobChans o.job) State.stopChannel

theorem State.killAsked_eq (s : State) (o : Order) : s.killAsked o = { s with
    hods := { s.hods with
      kills := s.hods.kills ++ [(o.job, s.hods.nextOrder)], openOrders := s.hods.openOrders ++ [s.asOpen o]
      nextOrder := s.hods.nextOrder + 1 }
    harts := (s.callHarts o.job).foldl (fun v h => vmod v h fun t => { t with halted := true }) s.harts
    mortar := (s.stopCourses (readerIn (s.jobHarts o.job))).mortar
    drf := { s.drf with ch := (s.jobChans o.job).foldl (fun v c => vmod v c Channel.askedToStop) s.drf.ch } } := by
  simp only [State.killAsked, State.forEach_modHart_eq, State.forEach_stopChannel_eq]
  rfl

theorem State.killAsked_hart (s : State) (o : Order) (h : Hart) : (s.killAsked o).hart h =
    if ∃ c ∈ s.hods.calls, (o.job = 0xFFFF ∨ o.job = c.job) ∧ h ∈ c.harts then { s.hart h with halted := true }
    else s.hart h := by
  rw [State.killAsked_eq]
  refine (foldl_vmod_get_of_idem (f := fun t : HartState => { t with halted := true }) (fun t => rfl) (s.callHarts o.job)
    s.harts h).trans ?_
  simp only [State.mem_callHarts]
  rfl

theorem State.killAsked_chan (s : State) (o : Order) (c : Fin 32) : (s.killAsked o).chan c =
    if c ∈ s.jobChans o.job ∧ ((s.chan c).state = 1 ∨ (s.chan c).state = 4 ∨ (s.chan c).state = 5) then
      { s.chan c with stopping := true } else s.chan c := by
  rw [← State.forEach_stopChannel_chan, State.killAsked_eq, State.forEach_stopChannel_eq]
  rfl

/-- What a KILL changes beside them: the reads and the sends of its job's harts, and their accesses. -/
theorem State.kill_eq (s : State) (o : Order) : ∃ sb ports regs, s.kill o = { s.killAsked o with
    ice := { s.ice with sb := sb }
    nbr := { s.nbr with
      ports := ports, regs := regs, reading := s.nbr.reading.filter fun a => !readerIn (s.jobHarts o.job) a.who } } := by
  obtain ⟨sb, hdrop⟩ := (s.killAsked o).dropReading_reading (readerIn (s.jobHarts o.job))
  obtain ⟨ports, regs, hstop⟩ := State.forEach_ports_nbrStop (hs := s.jobHarts o.job) (fins 4)
    (s := (s.killAsked o).dropReading (readerIn (s.jobHarts o.job))) (by simp [hdrop])
  obtain ⟨v, hsettle⟩ := State.forEach_ports (((s.killAsked o).dropReading (readerIn (s.jobHarts o.job))).forEach (fins 4)
    fun s' p => s'.forEach (s.jobHarts o.job) fun s' h => s'.nbrStop (Hart.reader h) p) (fins 4)
    fun q => { q with sends := q.sends.map SendDesc.settled }
  refine ⟨sb, v, regs, Eq.trans hsettle ?_⟩
  rw [hstop, hdrop]
  have hice : (s.killAsked o).ice = s.ice := by rw [State.killAsked_eq]
  have hnbr : (s.killAsked o).nbr = s.nbr := by rw [State.killAsked_eq]
  rw [hice, hnbr]

/-! ## The end of a KILL (R428) -/

theorem killMeans_eq {k j : BitVec 16} (hk : k ≠ 0xFFFF) : killMeans k j = (j == k) := by
  have hall : (k == 0xFFFF) = false := beq_eq_false_iff_ne.mpr hk
  rw [killMeans, hall, Bool.false_or, BEq.comm]

/-- The KILL of a job without calls and with one open order. -/
theorem State.killDrained_single {s : State} {k : BitVec 16} {n : Nat} {p q : OpenOrder} (hkills : s.hods.kills = [(k, n)])
    (hdrained : s.drained k = true) (hk : k ≠ 0xFFFF) (hnew : k ∉ s.hods.killed) (hver : s.hods.verifying = none)
    (hcalls : ∀ c ∈ s.hods.calls, c.job ≠ k) (himage : p.imageSb = none)
    (hone : s.hods.openOrders.filter (fun r => r.job == k && r.op != 0x02) = [p]) (hq : (s.endOrder p 9 []).orderOf n = some q) :
    s.killDrained = ({ s.endOrder p 9 [] with
      hods := { (s.endOrder p 9 []).hods with kills := [], killed := s.hods.killed ++ [k] } } : State).endOrder q 0 [] := by
  have hfind : s.hods.kills.find? (fun k => s.drained k.1) = some (k, n) := by rw [hkills, List.find?_singleton, hdrained]; rfl
  have hnocalls : ∀ c ∈ s.hods.calls, killMeans k c.job = false := fun c hc => by
    rw [killMeans_eq hk]
    exact beq_eq_false_iff_ne.mpr (hcalls c hc)
  have hmine : s.hods.calls.filter (fun c => killMeans k c.job) = [] :=
    List.filter_eq_nil_iff.mpr fun c hc => by rw [hnocalls c hc]; exact Bool.false_ne_true
  have hrunning : s.hods.calls.filter (fun c => killMeans k c.job && c.ending.isNone) = [] :=
    List.filter_eq_nil_iff.mpr fun c hc => by rw [hnocalls c hc]; exact Bool.false_ne_true
  have hend : s.killDrained = s.endKill k n := by
    simp only [State.killDrained, hfind, hrunning, State.forEach, List.foldl_nil, hmine, List.all_nil, if_true]
  have hcontains : s.hods.killed.contains k = false := by simpa using hnew
  have hkept : s.hods.calls.filter (fun c => !(c.job == k)) = s.hods.calls :=
    List.filter_eq_self.mpr fun c hc => by rw [beq_eq_false_iff_ne.mpr (hcalls c hc)]; rfl
  have hgone : s.hods.kills.filter (fun x => x != (k, n)) = [] := by simp [hkills]
  obtain ⟨hod, outQ, hframe⟩ := s.endOrder_eq p 9 []
  have hended : s.endOrder p stKilled [] = s.endOrder p 9 [] := rfl
  rw [hend]
  simp only [State.endKill, killMeans_eq hk, hone, State.forEach, List.foldl_cons, List.foldl_nil, himage, hended]
  generalize s.endOrder p 9 [] = t at hframe hq ⊢
  subst hframe
  simp only [hgone, hkept, hcontains, hver, Bool.false_eq_true, if_false, Option.filter_none]
  simp only [State.orderOf] at hq ⊢
  rw [hq]
  rfl

/-! ## Page answers (R429) -/

section
variable {s : State} {c : Fin 32} {p : OpenOrder} {rtag : BitVec 16} (hreqs : s.hods.pageReqs = [(c, rtag)])
  (hhalted : (s.chan c).state = 5) (horder : (s.chan c).order = some p.id) (hone : s.hods.openOrders = [p])

include hreqs hhalted horder hone in
/-- A halted channel without its page is stopped, and the status of its order is settled. -/
theorem State.endHalted_single (st : BitVec 16) : s.endHalted c st =
    ({ s with hods := { s.hods with pageReqs := [], openOrders := [{ p with ending := some st }] } } : State).modCh c
      fun x => { x with stopping := true } := by
  have hlive : (s.chan c).live = true := (Channel.live_iff _).mpr (.inr (.inr hhalted))
  have hgone : [(c, rtag)].filter (fun q => q.1 != c) = [] := by simp
  simp only [State.endHalted, horder, State.modOrder, hone, List.map_cons, List.map_nil, beq_self_eq_true, if_true,
    State.dropPage, hreqs, hgone]
  exact State.stopChannel_live hlive

include hreqs in
theorem State.pageTimeout_asked : s.pageTimeout c = s.endHalted c stTimeout := by
  simp [State.pageTimeout, hreqs]

include hreqs in
theorem State.pageDone_unknown {o : Order} (h : o.tag ≠ rtag) (bound : Bool) : s.pageDone o bound = s.answer o 5 := by
  have hno : s.hods.pageReqs.find? (fun q => q.2 == o.tag) = none := by simpa [hreqs] using Ne.symm h
  rw [State.pageDone, hno]
  rfl

include hreqs in
theorem State.pageDone_known {o : Order} (h : o.tag = rtag) (bound : Bool) : s.pageDone o bound =
    (if bound then s.endHalted c stBound else (s.resumeCh c).pruneCycles).answer o 0 := by
  have hfind : s.hods.pageReqs.find? (fun q => q.2 == o.tag) = some (c, rtag) := by simp [hreqs, h]
  rw [State.pageDone, hfind]
  rfl

end

/-- Settles O51: what a KILL asks to stop, its end, and the answers to a page request. -/
theorem killsAndPageAnswersEndWork : Obligations.KillsAndPageAnswersEndWork := by
  unfold Obligations.KillsAndPageAnswersEndWork
  refine ⟨fun o s t h => ?_, fun k n p q s hserving hkills hdrained hk hnew hver hcalls himage hone hq => ?_,
    fun c p rtag s hp hreqs hhalted horder hone => ⟨?_, fun o t h => ⟨fun htag b => ?_, fun htag => ⟨?_, ?_⟩⟩⟩⟩
  · obtain ⟨sb, ports, regs, hkill⟩ := t.kill_eq o
    have hserve : exec .ordKill s = .next (t.kill o) := congrArg _ (h.serve _ _)
    rw [hserve, hkill]
    refine ⟨_, rfl, ?_, ?_, t.killAsked_hart o, t.killAsked_chan o, fun r hr => ?_, fun a => ?_, ?_, rfl, rfl, ?_⟩
    · rw [State.killAsked_eq]
    · rw [State.killAsked_eq]
      rfl
    · rw [State.killAsked_eq]
      refine (State.stopCourses_run _ _).trans ?_
      simp [hr, CourseRun.stop]
    · simp
    all_goals rw [State.killAsked_eq]
  · exact (next_if_pos hserving).trans
      (congrArg _ (State.killDrained_single hkills hdrained hk hnew hver hcalls himage hone hq))
  · have htimeout : exec (.pageTimeout c) s = .next (s.endHalted c stTimeout) :=
      (next_if_pos hp).trans (congrArg _ (State.pageTimeout_asked hreqs))
    rw [htimeout, State.endHalted_single hreqs hhalted horder hone]
    exact ⟨_, rfl, rfl, rfl, State.modCh_chan _ _ _, fun d hd => State.modCh_chan_ne _ _ hd, rfl⟩
  · obtain ⟨-, -, -, ht, -⟩ := id h
    have hserve : exec (.ordPageDone b) s = .next (t.pageDone o b) := congrArg _ (h.serve _ _)
    rw [hserve, State.pageDone_unknown (rtag := rtag) (c := c) (by rw [ht]; exact hreqs) htag]
  · obtain ⟨-, -, -, ht, -⟩ := id h
    have hserve : exec (.ordPageDone false) s = .next (t.pageDone o false) := congrArg _ (h.serve _ _)
    rw [hserve, State.pageDone_known (rtag := rtag) (c := c) (by rw [ht]; exact hreqs) htag]
    rfl
  · obtain ⟨-, -, -, ht, -⟩ := id h
    have hreqs' : t.hods.pageReqs = [(c, rtag)] := by rw [ht]; exact hreqs
    have hserve : exec (.ordPageDone true) s = .next (t.pageDone o true) := congrArg _ (h.serve _ _)
    rw [hserve, State.pageDone_known hreqs' htag, if_pos rfl, State.endHalted_single hreqs' (by rw [ht]; exact hhalted)
      (by rw [ht]; exact horder) (by rw [ht]; exact hone)]
    exact ⟨_, rfl, rfl, rfl, State.modCh_chan _ _ _, fun d hd => State.modCh_chan_ne _ _ hd⟩

end Sys2Proof.Machine

/-! # Extensions: LOAD_EXT to the verification (R413, R414) -/

namespace Sys2Proof.Machine

/-! ## LOAD_EXT -/

/-- An order's one descriptor waits for its access. -/
theorem State.orderDrift_waits {s : State} {c : Fin 32} {n : Nat} {d : Desc} {p : Bool} (hlast : d.last = true)
    (hcheck : (s.modCh c fun _ => chainOf (s.chan c) n).checkDescs c (chainOf (s.chan c) n) 1 0 false [d] = ([d], none, p))
    (hranges : (s.modCh c fun _ => chainOf (s.chan c) n).setRanges c [d] ≠ [])
    (hid : ∀ a ∈ s.ice.sb.alloc, a.id ≠ s.ice.sb.nextId) :
    s.orderDrift c n d = ((s.modCh c fun x => chainOf x n).lastTaken c d p).setWaiting c d := by
  have hchan : (s.modCh c fun x => chainOf x n).chan c = chainOf (s.chan c) n := State.modCh_chan _ _ _
  refine State.enterSet_last (s := s.modCh c fun x => chainOf x n) hlast ?_ ?_ ?_ ?_ hranges hid
  · rw [hchan, chainOf]
  · rw [hchan, chainOf]
  · rw [hchan, chainOf]
  · rw [hchan]
    exact hcheck

/-- The descriptor that copies an extension image to its staging floe (log entry 111). -/
def State.imageDesc (s : State) (o : Order) (f : Fin 64) (words : Nat) : Desc :=
  copyDesc (if s.drf.vers.getLsbD 0 then 2 else 3) false 16 (imageLines words)
    (BitVec.ofNat 6 f.val ++ BitVec.ofNat 26 (s.floe f).window.1) o.imageAddr

/-- The open order of a LOAD_EXT. -/
def State.loadOrder (s : State) (o : Order) (f : Fin 64) (words : Nat) (c : Fin 32) : OpenOrder :=
  { s.asOpen o with floe := f, image := words, chans := [c] }

section
variable {s : State} {o : Order} {f : Fin 64} {words : Nat} {ch : BitVec 5}

theorem State.hasCh_of_chanFree (h : s.chanFree ch = true) : s.hasCh ch.toNat = true := by
  simp only [State.chanFree, Bool.and_eq_true] at h
  exact h.1.1.1.1.1

theorem State.mayStage_iff : s.mayStage f words = true ↔
    (s.floe f).used = true ∧ 16 * ((words + 15) / 16) ≤ (s.floe f).res.toNat * 1024 := by
  rw [State.mayStage, Bool.and_eq_true]
  exact and_congr_right fun _ => decide_eq_true_iff

theorem State.loadExt_busy (h : s.chanFree ch = false ∨ words = 0 ∨ s.mayStage f words = false) :
    s.loadExt o f words ch = s.answer o 7 := if_pos (by obtain h | h | h := h <;> simp [h])

theorem State.loadExt_starts (hfree : s.chanFree ch = true) (hpos : 0 < words) (hstage : s.mayStage f words = true) :
    s.loadExt o f words ch = (s.numbered.withOrder (s.loadOrder o f words ch.toFin)).orderDrift ch.toFin s.hods.nextOrder
      (s.imageDesc o f words) := by
  simp only [State.loadExt, State.hasCh_of_chanFree hfree, hfree, hstage, hpos.ne', Bool.not_true, decide_false,
    Bool.or_self, Bool.false_eq_true, if_false]
  rfl

theorem State.loadExt_spec (hfree : s.chanFree ch = true) (hpos : 0 < words) (hstage : s.mayStage f words = true) {p : Bool}
    (hcheck : (s.modCh ch.toFin fun _ => chainOf (s.chan ch.toFin) s.hods.nextOrder).checkDescs ch.toFin
      (chainOf (s.chan ch.toFin) s.hods.nextOrder) 1 0 false [s.imageDesc o f words] = ([s.imageDesc o f words], none, p))
    (hranges : (s.modCh ch.toFin fun _ => chainOf (s.chan ch.toFin) s.hods.nextOrder).setRanges ch.toFin
      [s.imageDesc o f words] ≠ []) (hid : ∀ a ∈ s.ice.sb.alloc, a.id ≠ s.ice.sb.nextId) :
    let u := s.loadExt o f words ch
    u.hods = (s.numbered.withOrder (s.loadOrder o f words ch.toFin)).hods ∧
      (u.chan ch.toFin).state = 1 ∧ (u.chan ch.toFin).order = some s.hods.nextOrder ∧
      (u.chan ch.toFin).set = some { descs := [s.imageDesc o f words], chainEnd := true, sb := some s.ice.sb.nextId } ∧
      (∀ k, k ≠ ch.toFin → u.chan k = s.chan k) ∧ u.ice.cells = s.ice.cells := by
  let v := s.numbered.withOrder (s.loadOrder o f words ch.toFin)
  let w := v.modCh ch.toFin fun x => chainOf x s.hods.nextOrder
  have hdrift : s.loadExt o f words ch = (w.lastTaken ch.toFin (s.imageDesc o f words) p).setWaiting ch.toFin
      (s.imageDesc o f words) := (State.loadExt_starts hfree hpos hstage).trans (State.orderDrift_waits (s := v) rfl
    ((State.checkDescs_hods (s.modCh ch.toFin fun _ => chainOf (s.chan ch.toFin) s.hods.nextOrder) _ _ _ _ _ _ _).trans hcheck)
    ((State.setRanges_congr rfl rfl _).trans_ne hranges) hid)
  have hchan : w.chan ch.toFin = chainOf (s.chan ch.toFin) s.hods.nextOrder := State.modCh_chan _ _ _
  have hself := w.lastTaken_setWaiting_chan ch.toFin (s.imageDesc o f words) p
  obtain ⟨hhods, hcells, -, -⟩ := w.lastTaken_setWaiting_frame ch.toFin (s.imageDesc o f words) p
  dsimp only
  rw [hdrift]
  refine ⟨hhods, ?_, ?_, ?_,
    fun k hk => (State.lastTaken_setWaiting_chan_ne _ hk _ _).trans (State.modCh_chan_ne _ _ hk), hcells⟩
  · rw [hself, hchan, chainOf, Channel.lastTaken]
  · rw [hself, hchan, chainOf, Channel.lastTaken]
  · rw [hself]
    rfl

end

/-! ## The copied image (R414, log entry 188) -/

/-- Noting one thing about an open order keeps it the order of its number. -/
theorem State.modOrder_orderOf {s : State} {n : Nat} {o : OpenOrder} (h : s.orderOf n = some o) {g : OpenOrder → OpenOrder}
    (hg : ∀ p, (g p).id = p.id) : (s.modOrder n g).orderOf n = some (g o) := by
  have hkey : (fun p : OpenOrder => p.id == n) ∘ (fun p => if p.id == n then g p else p) = fun p => p.id == n := by
    funext p
    rw [Function.comp_apply]
    split
    · rw [hg]
    · rfl
  have hfind : s.hods.openOrders.find? (fun p => p.id == n) = some o := h
  have hid : (o.id == n) = true := List.find?_some (p := fun p : OpenOrder => p.id == n) hfind
  have hmap : (s.modOrder n g).orderOf n = (s.hods.openOrders.map fun p => if p.id == n then g p else p).find? fun p => p.id == n :=
    rfl
  rw [hmap, List.find?_map, hkey, hfind, Option.map_some, if_pos hid]

section
variable {s : State} {c : Fin 32} {o : OpenOrder}

/-- A chain that ends without a mark has copied the image of its LOAD_EXT. -/
theorem State.chainOrder_image (horder : (s.chan c).order = some o.id) (hstate : (s.chan c).state = 2)
    (hrun : s.err.stat ≠ .recovering) (ho : s.orderOf o.id = some o) (hop : o.op = 0x08) (hend : o.ending = none) :
    s.chainOrder c = (s.modCh c fun x => { x with order := none }).stageImage o := by
  have hrun' : (s.err.stat == .recovering) = false := beq_eq_false_iff_ne.mpr hrun
  have ho' : (s.modCh c fun x => { x with order := none }).orderOf o.id = some o := ho
  have hstat : ((s.modCh c fun x => { x with order := none }).err.stat == .recovering) = false := hrun'
  simp only [State.chainOrder, horder, hstate, hstat, Bool.false_eq_true, if_false, ho', hend, chainStatus, if_true, hop]
  rfl

/-- Hart 0 presents the range of a copied image. -/
theorem State.stageImage_spec {n : Nat} (ho : s.orderOf n = some o) (hn : o.id = n) :
    (s.stageImage o).ice.sb.waiting = s.ice.sb.waiting ++
        [{ id := s.ice.sb.nextId, who := .scalar 0
           ranges := [{ lo := (s.floe o.floe).window.1, hi := (s.floe o.floe).window.1 + o.image - 1, write := false }] }] ∧
      (s.stageImage o).orderOf n = some { o with imageSb := some s.ice.sb.nextId } ∧
      (s.stageImage o).ice.cells = s.ice.cells ∧ (s.stageImage o).harts = s.harts := by
  subst hn
  exact ⟨rfl, State.modOrder_orderOf (s := (s.present (.scalar 0) _).1) ho fun p => rfl, rfl, rfl⟩

end

/-! ## The image is read -/

section
variable {s : State} {id : Nat} {o : OpenOrder}

theorem exec_accessRetire_image (hp : s.powered = true) {a : Access} {h : Hart}
    (ha : s.ice.sb.alloc.find? (fun x => x.id == id) = some a) (hwho : a.who = .scalar h) (ho : s.imageOf id = some o) :
    exec (.accessRetire id) s = .next (s.imageRetire o id) := by
  refine (next_if_pos hp).trans (congrArg Host.Outcome.next ?_)
  simp only [State.accessRetire, ha, hwho, ho]

section
variable (hrun : s.err.stat ≠ .recovering)
include hrun

theorem State.imageRetire_running : s.imageRetire o id =
    if (s.imageWords o).any (s.wordReviving o.floe) then s
    else if (s.imageWords o).any fun w => (s.wordBad o.floe w).isSome then (s.endAccess id).endOrder o 0x0C []
    else s.takeImage o id := if_neg fun h => hrun (beq_iff_eq.mp h)

theorem State.imageRetire_reviving (h : ∃ w ∈ s.imageWords o, s.wordReviving o.floe w = true) : s.imageRetire o id = s := by
  rw [State.imageRetire_running hrun, if_pos (List.any_eq_true.mpr h)]

variable (hstands : ∀ w ∈ s.imageWords o, s.wordReviving o.floe w = false)
include hstands

theorem State.imageRetire_bound (h : ∃ w ∈ s.imageWords o, (s.wordBad o.floe w).isSome = true) :
    s.imageRetire o id = (s.endAccess id).endOrder o 0x0C [] := by
  have hno : ¬(s.imageWords o).any (s.wordReviving o.floe) = true := by simpa using hstands
  rw [State.imageRetire_running hrun, if_neg hno, if_pos (List.any_eq_true.mpr h)]

theorem State.imageRetire_taken (h : ∀ w ∈ s.imageWords o, s.wordBad o.floe w = none) :
    s.imageRetire o id = s.takeImage o id := by
  have hno : ¬(s.imageWords o).any (s.wordReviving o.floe) = true := by simpa using hstands
  have hgood : ¬((s.imageWords o).any fun w => (s.wordBad o.floe w).isSome) = true := by simpa using h
  rw [State.imageRetire_running hrun, if_neg hno, if_neg hgood]

end

/-- The words of an image as they were read. -/
def State.imageRead (s : State) (o : OpenOrder) (m : Store (BitVec 33)) : List Word :=
  (List.range o.image).map fun i => contData (sget 0 m ((s.floe o.floe).window.1 + i))

/-- Bytes that the extension of an image occupies. -/
def imageSize (image : List Word) : Nat := (extHeader image).code + (extHeader image).data + (extHeader image).bss

/-- An image that has been read is malformed or known, has no place, or goes to the security engine. -/
theorem State.takeImage_read {r : State} {m : Store (BitVec 33)}
    (hread : s.readWords (Src.hart 0) id o.floe (s.imageWords o) = (r, m)) (hrun : (r.endAccess id).err.stat ≠ .recovering) :
    s.takeImage o id =
      if (extHeader (s.imageRead o m)).bad = true ∨ ∃ e ∈ (r.endAccess id).hods.exts, e.id = (extHeader (s.imageRead o m)).id then
        (r.endAccess id).endOrder o 5 []
      else if 8 ≤ (r.endAccess id).hods.exts.length ∨
          0x40000 < ((r.endAccess id).hods.exts.map Extension.size).sum + imageSize (s.imageRead o m) ∨
          (r.endAccess id).extPlace (imageSize (s.imageRead o m)) = none then (r.endAccess id).endOrder o 7 []
      else { r.endAccess id with hods := { (r.endAccess id).hods with verifying := some (o.id, s.imageRead o m) } } := by
  have hrun' : ((r.endAccess id).err.stat == .recovering) = false := beq_eq_false_iff_ne.mpr hrun
  simp only [State.takeImage, hread, hrun', Bool.false_eq_true, if_false, Bool.or_eq_true, List.any_eq_true, beq_iff_eq,
    decide_eq_true_eq, Option.isNone_iff_eq_none, or_assoc]
  rfl

end

end Sys2Proof.Machine

/-! # Extensions: placement, removal, call and end (R414 to R416) -/

namespace Sys2Proof.Machine

/-! ## Words in the local store -/

theorem State.fillLs_eq (s : State) (base : Nat) (ws : List Word) : s.fillLs base ws =
    { s with ks := { s.ks with store := ssetMany 0 s.ks.store (placedAt (base + ·) (ws.map encodeClean)) } } := by
  have hpairs : ws.zipIdx.map (fun q => (base + q.2, encodeClean q.1)) = placedAt (base + ·) (ws.map encodeClean) := by
    rw [placedAt, List.zipIdx_map, List.map_map]
    rfl
  rw [← hpairs]
  rfl

theorem State.fillLs_in {s : State} (hm : swf 0 s.ks.store = true) (base : Nat) {ws : List Word} {i : Nat}
    (hi : i < ws.length) : sget 0 (s.fillLs base ws).ks.store (base + i) = encodeClean (ws.getD i 0) := by
  have hlen : i < (ws.map encodeClean).length := by rwa [List.length_map]
  rw [State.fillLs_eq]
  refine (sget_placedAt (place := (base + ·)) hm (fun i _ k _ h => Nat.add_left_cancel h) hlen).trans ?_
  rw [List.getD_eq_getElem _ _ hlen, List.getElem_map, List.getD_eq_getElem _ _ hi]

theorem State.fillLs_out {s : State} (hm : swf 0 s.ks.store = true) {base : Nat} {ws : List Word} {j : Nat}
    (hj : j < base ∨ base + ws.length ≤ j) : sget 0 (s.fillLs base ws).ks.store j = sget 0 s.ks.store j := by
  rw [State.fillLs_eq]
  refine sget_placedAt_elsewhere hm fun i hi => ?_
  rw [List.length_map] at hi
  omega

/-! ## EXT_VERIFIED (R414) -/

/-- Words of code and data of an image. -/
def imageCode (image : List Word) : Nat := ((extHeader image).code + (extHeader image).data) / 4

/-- The words that an extension has in the local store: code and data, then zeros. -/
def extWords (image : List Word) : List Word :=
  (image.drop 16).take (imageCode image) ++ List.replicate ((extHeader image).bss / 4) 0

/-- The extension of a verified image that is placed at `a`. -/
def placedExt (image : List Word) (a : Nat) : Extension :=
  { id := (extHeader image).id, codeAddr := a, codeLen := (extHeader image).code, dataAddr := a + (extHeader image).code
    dataLen := (extHeader image).data + (extHeader image).bss, entry := (extHeader image).entry
    nharts := (extHeader image).nharts, ntiles := (extHeader image).ntiles, nch := (extHeader image).nch
    caps := (extHeader image).caps }

section
variable {image : List Word} (hgood : (extHeader image).bad = false)
include hgood

/-- A well-formed image holds all its code and data behind its header (R413). -/
theorem imageCode_le : 16 + imageCode image ≤ image.length := by
  simp only [extHeader, Bool.or_eq_false_iff, decide_eq_false_iff_not, bne_eq_false_iff_eq] at hgood
  obtain ⟨⟨⟨⟨⟨⟨⟨⟨⟨-, hcode⟩, hdata⟩, -⟩, -⟩, -⟩, -⟩, -⟩, -⟩, hlen⟩ := hgood
  rw [imageCode]
  simp only [extHeader]
  omega

theorem extWords_length : (extWords image).length = imageCode image + (extHeader image).bss / 4 := by
  have hle := imageCode_le hgood
  rw [extWords, List.length_append, List.length_take, List.length_drop, List.length_replicate]
  omega

theorem extWords_code {i : Nat} (hi : i < imageCode image) : (extWords image).getD i 0 = image.getD (16 + i) 0 := by
  have hle := imageCode_le hgood
  have hin : i < ((image.drop 16).take (imageCode image)).length := by
    rw [List.length_take, List.length_drop]
    omega
  rw [extWords, List.getD_append _ _ _ _ hin, List.getD_eq_getElem _ _ hin, List.getElem_take, List.getElem_drop,
    List.getD_eq_getElem]

theorem extWords_bss {i : Nat} (hi : imageCode image ≤ i) : (extWords image).getD i 0 = 0 := by
  have hle := imageCode_le hgood
  have hout : ((image.drop 16).take (imageCode image)).length ≤ i := by
    rw [List.length_take]
    omega
  rw [extWords, List.getD_append_right _ _ _ _ hout, List.getD_eq_getElem?_getD, List.getElem?_getD_replicate_default_eq]

end

section
variable {s : State} {image : List Word} {p : OpenOrder} (hver : s.hods.verifying = some (p.id, image))
  (hone : s.hods.openOrders = [p])
include hone

theorem State.verifying_orderOf :
    ({ s with hods := { s.hods with verifying := none } } : State).orderOf p.id = some p := by
  simp [State.orderOf, hone]

include hver

theorem State.extVerified_refused (code : Word) : s.extVerified false code =
    (({ s with hods := { s.hods with verifying := none } } : State).report 0xC1 [code]).endOrder p 0x0A [] := by
  simp only [State.extVerified, hver, State.verifying_orderOf hone]
  rfl

/-- A verified extension is placed, and its only order ends. -/
theorem State.extVerified_placed {a : Nat} (hplace : s.extPlace (imageSize image) = some a) (code : Word) :
    s.extVerified true code = (({ s with hods := { s.hods with
        verifying := none, openOrders := [], exts := s.hods.exts ++ [placedExt image a] } } : State).fillLs (a / 4)
          (extWords image)).reply p.hod p.op p.tag p.job 0 [] := by
  have hplace' : ({ s with hods := { s.hods with verifying := none } } : State).extPlace
      ((extHeader image).code + (extHeader image).data + (extHeader image).bss) = some a := hplace
  simp only [State.extVerified, hver, State.verifying_orderOf hone, Bool.not_true, Bool.false_eq_true, if_false, hplace']
  rw [← State.withOrder_endOrder (fun q hq => absurd hq List.not_mem_nil)]
  refine congrArg (State.endOrder · p 0 []) ?_
  simp only [State.fillLs_eq, State.withOrder, List.nil_append, ← hone]
  rfl

end

/-! ## DROP_EXT (R423) -/

section
variable {s : State} {ext : BitVec 16}

theorem State.dropExt_unknown (h : ∀ e ∈ s.hods.exts, e.id ≠ ext) (o : Order) : s.dropExt o ext = s.answer o 5 :=
  if_pos (by simpa using h)

theorem State.dropExt_called (h : ∃ e ∈ s.hods.exts, e.id = ext) (hc : ∃ c ∈ s.hods.calls, c.ext = ext) (o : Order) :
    s.dropExt o ext = s.answer o 7 :=
  (if_neg (by simpa using h)).trans (if_pos (by simpa using hc))

theorem State.dropExt_idle (h : ∃ e ∈ s.hods.exts, e.id = ext) (hc : ∀ c ∈ s.hods.calls, c.ext ≠ ext) (o : Order) :
    s.dropExt o ext =
      ({ s with hods := { s.hods with exts := s.hods.exts.filter fun e => e.id != ext } } : State).answer o 0 :=
  (if_neg (by simpa using h)).trans (if_neg (by simpa using hc))

end

end Sys2Proof.Machine

/-! # The call of an extension and its end (R415, R416) -/

namespace Sys2Proof.Machine

/-! ## EXT_CALL -/

/-- The call that an EXT_CALL makes. -/
def State.callMade (s : State) (o : Order) (ext : BitVec 16) (h : Hart) (tile : TileReg) (ch : Fin 32) : ExtCall :=
  { ext, order := s.hods.nextOrder, reads := o.wepoch (s.negOf o), hod := o.hod, tag := o.tag, job := o.job, harts := [h]
    tiles := [tile], chans := [ch] }

/-- The resources of a call of one hart, one register and one channel are given, its parameters copied and its hart
started. -/
def State.callStarted (s : State) (o : Order) (e : Extension) (h : Hart) (tile : TileReg) (ch : Fin 32) (params : Word) :
    State :=
  (((s.modTile tile fun t => { t with lease := .exclusive, owner := h }).modCh ch fun x => { x with owner := h }).modHart h
    fun t => t.enter (s.callPmp e []) (BitVec.ofNat 32 (e.codeAddr + e.entry)) params 0).fillLs (params.toNat / 4) o.params

section
variable {s : State} {o : Order} {e : Extension} {h : Hart} {tile : TileReg} {ch : Fin 32} {params : Word}

/-- What a call of one hart, one register and one channel needs. -/
structure State.MayCall (s : State) (o : Order) (e : Extension) (h : Hart) (tile : TileReg) (ch : Fin 32) (params : Word) :
    Prop where
  exts : s.hods.exts = [e]
  nharts : e.nharts = 1
  ntiles : e.ntiles = 1
  nch : e.nch = 1
  hart : h ≠ 0
  idle : s.idleHart h = true
  epoch : o.wepoch (s.negOf o) = 0xFFFF
  lease : (s.tiles.get tile).lease = .free
  unused : s.tileBusy tile = false
  asked : ∀ q ∈ s.leaseQ, q.tile ≠ tile
  chan : s.chanFree (BitVec.ofNat 5 ch.val) = true
  align : params.toNat % 4 = 0
  room : params.toNat / 4 + o.params.length ≤ 0x20000

theorem State.extCall_single (hc : s.MayCall o e h tile ch params) : s.extCall o e.id [h] [tile] [ch] [] params =
    ({ s.callStarted o e h tile ch params with hods := { s.hods with
      calls := s.hods.calls ++ [s.callMade o e.id h tile ch] } } : State).openOrder o := by
  have hfind : s.hods.exts.find? (fun x => x.id == e.id) = some e := by simp [hc.exts]
  have hepoch : s.epochCheck o false = none := State.epochCheck_held (.inl ⟨hc.epoch, rfl⟩)
  have hno : (s.leaseQ.any fun q => q.tile == tile) = false := by simpa using hc.asked
  have hzero : ([h].contains 0) = false := by simpa using hc.hart.symm
  have hroom : ¬storeWords < params.toNat / 4 + o.params.length := Nat.not_lt.mpr hc.room
  have hpmp : ¬8 < (s.callPmp e []).length := by simp [State.callPmp, pmpRange]
  have hlease : ((s.tiles.get tile).lease != .free) = false := by simp [hc.lease]
  simp only [State.extCall, hfind, hepoch, hc.nharts, hc.ntiles, hc.nch, List.length_singleton, List.nodup_singleton,
    List.any_nil, List.any_cons, List.all_cons, List.all_nil, hc.idle, hc.align, hno, hzero, hroom, hpmp, hlease, hc.unused,
    hc.chan, ne_eq, not_true_eq_false, decide_true, decide_false, Bool.not_true, Bool.or_self, Bool.and_self,
    Bool.false_eq_true, if_false]
  rfl

/-- A call's start changes its hart, its register, its channel and the local store. -/
theorem State.callStarted_frame (s : State) (o : Order) (e : Extension) (h : Hart) (tile : TileReg) (ch : Fin 32)
    (params : Word) :
    (s.callStarted o e h tile ch params).tiles = vset s.tiles tile { s.tiles.get tile with lease := .exclusive, owner := h } ∧
      (s.callStarted o e h tile ch params).chan ch = { s.chan ch with owner := h } ∧
      ∀ c, c ≠ ch → (s.callStarted o e h tile ch params).chan c = s.chan c :=
  ⟨rfl, State.modCh_chan s ch _, fun _ hc => State.modCh_chan_ne s _ hc⟩

theorem State.callStarted_hart (s : State) (o : Order) (e : Extension) (h : Hart) (tile : TileReg) (ch : Fin 32)
    (params : Word) : (s.callStarted o e h tile ch params).hart h =
      (s.hart h).enter (s.callPmp e []) (BitVec.ofNat 32 (e.codeAddr + e.entry)) params 0 := State.modHart_hart s h _

theorem State.callStarted_hart_ne (s : State) (o : Order) (e : Extension) {h g : Hart} (hg : g ≠ h) (tile : TileReg)
    (ch : Fin 32) (params : Word) : (s.callStarted o e h tile ch params).hart g = s.hart g := State.modHart_hart_ne s _ hg

/-- The parameter words of the request stand in the local store. -/
theorem State.callStarted_store (hm : s.storeCanonical) (i : Nat) :
    sget 0 (s.callStarted o e h tile ch params).ks.store i =
      if params.toNat / 4 ≤ i ∧ i < params.toNat / 4 + o.params.length then
        encodeClean (o.words.getD (3 + (i - params.toNat / 4)) 0)
      else sget 0 s.ks.store i := by
  have hm' : swf 0 (((s.modTile tile fun t => { t with lease := .exclusive, owner := h }).modCh ch fun x =>
    { x with owner := h }).modHart h fun t => t.enter (s.callPmp e []) (BitVec.ofNat 32 (e.codeAddr + e.entry)) params
      0).ks.store = true := hm
  split
  · next hin =>
    obtain ⟨k, rfl⟩ := Nat.exists_eq_add_of_le hin.1
    refine (State.fillLs_in hm' _ (by omega)).trans ?_
    simp [Order.params]
  · next hout => exact State.fillLs_out hm' (by omega)

end

theorem HartState.getX_setX_same (t : HartState) {r : BitVec 5} (hr : r ≠ 0) (v : Word) : (t.setX r v).getX r = v := by
  rw [HartState.getX, if_neg hr, HartState.setX, if_neg hr]
  exact vset_get_same _ _ _

theorem HartState.getX_setX_ne (t : HartState) {r q : BitVec 5} (hq : q ≠ r) (v : Word) : (t.setX r v).getX q = t.getX q := by
  by_cases hr : r = 0
  · rw [HartState.setX, if_pos hr]
  · rw [HartState.getX, HartState.getX, HartState.setX, if_neg hr]
    have hne : q.toFin ≠ r.toFin := fun e => hq (BitVec.toFin_inj.mp e)
    rw [vset_get_ne _ _ hne]

/-- A hart that enters a call has its parameters' address and its number in the call, and its other registers as before. -/
theorem HartState.enter_getX (t : HartState) (pmp : List PmpEntry) (pc arg : Word) (index : Nat) :
    (t.enter pmp pc arg index).getX 10 = arg ∧ (t.enter pmp pc arg index).getX 11 = BitVec.ofNat 32 index ∧
      ∀ r : BitVec 5, r ≠ 10 → r ≠ 11 → (t.enter pmp pc arg index).getX r = t.getX r := by
  have hread (r : BitVec 5) : (t.enter pmp pc arg index).getX r = ((t.setX 10 arg).setX 11 (BitVec.ofNat 32 index)).getX r :=
    rfl
  refine ⟨?_, ?_, fun r h10 h11 => ?_⟩
  · rw [hread, HartState.getX_setX_ne _ (by decide), HartState.getX_setX_same _ (by decide)]
  · rw [hread, HartState.getX_setX_same _ (by decide)]
  · rw [hread, HartState.getX_setX_ne _ h11, HartState.getX_setX_ne _ h10]

/-! ## The end of a call (R416) -/

/-- The end of an extension call stops its channels and courses, asks for its registers and halts its harts. -/
theorem State.endCall_eq (s : State) (c : ExtCall) (st : BitVec 16) (ws : List Word) : s.endCall c st ws = { s with
    hods := { s.hods with
      calls := s.hods.calls.map fun d => if d.order == c.order then { d with ending := some (st, ws) } else d }
    leaseQ := s.leaseQ ++ c.tiles.map fun t => { who := mgmt, tile := t, hart := 0, mode := .free }
    drf := { s.drf with ch :=
      (c.chans.filter fun k => (s.chan k).starter != some mgmt).foldl (fun v k => vmod v k Channel.askedToStop) s.drf.ch }
    mortar := (s.stopCourses (readerIn c.harts)).mortar
    harts := c.harts.foldl (fun v h => vmod v h HartState.leaveCall) s.harts } := by
  simp only [State.endCall, State.forEach_stopChannel_eq]
  exact State.forEach_modHart_eq _ _ HartState.leaveCall

theorem State.endCall_chan (s : State) (c : ExtCall) (st : BitVec 16) (ws : List Word) (k : Fin 32) :
    (s.endCall c st ws).chan k = if k ∈ c.chans ∧ (s.chan k).starter ≠ some mgmt ∧
        ((s.chan k).state = 1 ∨ (s.chan k).state = 4 ∨ (s.chan k).state = 5) then { s.chan k with stopping := true }
      else s.chan k := by
  have hstop := State.forEach_stopChannel_chan s (c.chans.filter fun k => (s.chan k).starter != some mgmt) k
  simp only [List.mem_filter, bne_iff_ne, and_assoc] at hstop
  rw [← hstop, State.endCall_eq, State.forEach_stopChannel_eq]
  rfl

theorem State.endCall_hart (s : State) (c : ExtCall) (st : BitVec 16) (ws : List Word) (g : Hart) :
    (s.endCall c st ws).hart g = if g ∈ c.harts then (s.hart g).leaveCall else s.hart g := by
  rw [State.endCall_eq]
  exact foldl_vmod_get_of_idem HartState.leaveCall_leaveCall c.harts s.harts g

/-- A call of one hart whose hart has ended it. -/
def ExtCall.endedBy (c : ExtCall) (h : Hart) (result : Word) : ExtCall := { c with ended := c.ended ++ [h], result := result }

/-- The state in which the last hart of the only call has taken its ECALL. -/
def State.returning (s : State) (h : Hart) (c : ExtCall) : State :=
  ({ s with hods := { s.hods with calls := [c.endedBy h ((s.hart h).getX 10)] } } : State).modHart h fun t =>
    { t.takeTrap false 8 0 with halted := true }

section
variable {s : State} {h : Hart} {c : ExtCall}

/-- The ECALL that ends the only call of its engine. -/
theorem State.ecall_ends (hmode : (s.hart h).mode = .u) (ha7 : (s.hart h).getX 17 = 0) (hcalls : s.hods.calls = [c])
    (hharts : c.harts = [h]) : s.ecall h =
      (s.returning h c).endCall (c.endedBy h ((s.hart h).getX 10)) 0 [(s.hart h).getX 10] := by
  have hcall : (if (s.hart h).mode = .u ∧ (s.hart h).getX 17 = 0 then s.callOf h else none) = some c := by
    rw [if_pos ⟨hmode, ha7⟩, State.callOf, hcalls]
    simp [hharts]
  have hfirst : (if c.harts.head? = some h then (s.hart h).getX 10 else c.result) = (s.hart h).getX 10 := by simp [hharts]
  have hall : (c.harts.all (c.ended ++ [h]).contains) = true := by simp [hharts]
  simp only [State.ecall, hcall, hfirst, hall, if_true, hcalls, List.map_cons, List.map_nil, beq_self_eq_true]
  rfl

theorem State.returning_endCall_hart (hharts : c.harts = [h]) (result : Word) (g : Hart) :
    ((s.returning h c).endCall (c.endedBy h result) 0 [result]).hart g =
      if g = h then { (s.hart h).takeTrap false 8 0 with halted := true } else s.hart g := by
  rw [State.endCall_hart, show (c.endedBy h result).harts = [h] from hharts]
  simp only [List.mem_singleton]
  split
  · next hg =>
    rw [hg, State.returning, State.modHart_hart]
    rfl
  · next hg => exact State.modHart_hart_ne _ _ hg

theorem State.returning_endCall_hods (s : State) (h : Hart) (c : ExtCall) :
    ((s.returning h c).endCall (c.endedBy h ((s.hart h).getX 10)) 0 [(s.hart h).getX 10]).hods = { s.hods with
      calls := [{ c.endedBy h ((s.hart h).getX 10) with ending := some (0, [(s.hart h).getX 10]) }] } := by
  rw [State.endCall_eq]
  simp [State.returning, State.modHart]

/-- What a call that has ended held is given back. -/
theorem State.callSettled_iff : s.callSettled c = true ↔
    (∀ k ∈ c.chans, (s.chan k).stopping = false ∨ (s.chan k).starter = some mgmt) ∧
      (∀ r, s.mortar.run = some r → readerIn c.harts r.who = false) ∧
      (∀ d ∈ s.mortar.dropped, readerIn c.harts d.2 = false) ∧ (∀ h ∈ c.harts, (s.hart h).wait.inWindow = false) ∧
      ∀ t ∈ c.tiles, (s.tiles.get t).lease = .free ∧ ∀ q ∈ s.leaseQ, q.tile ≠ t := by
  simp [State.callSettled, and_assoc, Option.all_eq_true]

/-- Firmware replies to the only call once it is settled. -/
theorem State.finishCall_single (hserving : s.serving = true) (hcalls : s.hods.calls = [c]) {st : BitVec 16} {ws : List Word}
    (hend : c.ending = some (st, ws)) {p : OpenOrder} (hp : s.orderOf c.order = some p) :
    s.finishCall = if s.callSettled c then
      (({ s with hods := { s.hods with calls := [] } } : State).endOrder p st ws).retryPush else s := by
  have hp' : ({ s with hods := { s.hods with calls := [] } } : State).orderOf c.order = some p := hp
  cases hsettled : s.callSettled c <;>
    simp [State.finishCall, hserving, hcalls, hend, hsettled, hp']

end

/-- Settles O52: the steps of an extension from its load to the end of its call. -/
theorem extensionsLoadRunAndEnd : Obligations.ExtensionsLoadRunAndEnd := by
  unfold Obligations.ExtensionsLoadRunAndEnd
  refine ⟨fun f words ch p o s t h hnone => ?_, fun c o s horder hstate hrun ho hop hend => ?_,
    fun id h a o s hp ha hwho ho hrun => ?_, fun image p a code s hserving hm hver hone hgood hplace => ?_,
    fun ext o s t h => ?_, fun e h tile ch params o s t hs hm hexts hnh hnt hnc hh hidle hepoch hlease hunused hasked hchan
      halign hroom => ?_, fun h c s hact hmode ha7 hcalls hharts => ?_,
    fun ext harts tiles chans floes params c st ws p s hserving hfront hcalls hend hp => ?_⟩
  · have hno : ¬(s.hods.openOrders.any fun q => q.op == 0x08) = true := by
      obtain ⟨-, -, -, ht, -⟩ := h
      rw [ht] at hnone
      simpa using hnone
    have hexec : exec (.ordLoadExt f words ch) s = .next (t.loadExt o f words ch) :=
      congrArg Host.Outcome.next ((if_neg hno).trans (h.serve _ _))
    rw [hexec]
    refine ⟨fun hbusy => congrArg _ (State.loadExt_busy ?_), fun hfree hpos hused hfits => ?_⟩
    · rw [← Bool.not_eq_true (t.mayStage f words), State.mayStage_iff, not_and_or, Nat.not_le, Bool.not_eq_true]
      exact hbusy
    · intro d x hcheck hranges hid
      obtain ⟨hhods, hstate, horder, hset, hothers, hcells⟩ :=
        State.loadExt_spec (o := o) hfree hpos (State.mayStage_iff.mpr ⟨hused, hfits⟩) hcheck hranges hid
      exact ⟨_, rfl, congrArg Hods.openOrders hhods, hstate, horder, hset, hothers, hcells,
        (congrArg Hods.verifying hhods).trans rfl⟩
  · rw [State.chainOrder_image horder hstate hrun ho hop hend]
    exact State.stageImage_spec (s := s.modCh c fun x => { x with order := none }) ho rfl
  · intro ws
    rw [exec_accessRetire_image hp ha hwho ho]
    refine ⟨fun hrev => congrArg _ (State.imageRetire_reviving hrun hrev), fun hstands =>
      ⟨fun hbad => congrArg _ (State.imageRetire_bound hrun hstands hbad), fun r m hgood hread hrun' => ?_⟩⟩
    rw [State.imageRetire_taken hrun hstands hgood, State.takeImage_read hread hrun']
    intro u image size
    refine ⟨fun hbad => congrArg _ (if_pos hbad), fun hform hnew => ?_⟩
    have hok : ¬((extHeader image).bad = true ∨ ∃ e ∈ u.hods.exts, e.id = (extHeader image).id) := by
      rintro (hb | ⟨e, he, hid⟩)
      · exact Bool.false_ne_true (hform.symm.trans hb)
      · exact hnew e he hid
    refine ⟨fun hno => congrArg _ ((if_neg hok).trans (if_pos hno)), fun hlen hsum hroom =>
      congrArg _ ((if_neg hok).trans (if_neg ?_))⟩
    rintro (hl | hs | hn)
    · exact Nat.not_le.mpr hlen hl
    · exact Nat.not_lt.mpr hsum hs
    · exact Option.isSome_iff_ne_none.mp hroom hn
  · have hexec (ok : Bool) : exec (.extVerified ok code) s = .next (s.extVerified ok code) := next_if_pos hserving
    refine ⟨⟨_, (hexec true).trans (congrArg _ (State.extVerified_placed hver hone hplace code)), rfl, fun i hi => ?_,
      fun i hlo hhi => ?_, fun i hout => ?_, rfl, rfl⟩,
      (hexec false).trans (congrArg _ (State.extVerified_refused hver hone code))⟩
    · exact (State.fillLs_in hm (a / 4) (by rw [extWords_length hgood]; exact Nat.lt_add_right _ hi)).trans
        (congrArg encodeClean (extWords_code hgood hi))
    · exact (State.fillLs_in hm (a / 4) (by rw [extWords_length hgood]; exact hhi)).trans
        (congrArg encodeClean (extWords_bss hgood hlo))
    · exact State.fillLs_out hm (by rw [extWords_length hgood, ← Nat.add_assoc]; exact hout)
  · have hexec : exec (.ordDropExt ext) s = .next (t.dropExt o ext) := congrArg _ (h.serve _ _)
    rw [hexec]
    exact ⟨fun hno => congrArg _ (State.dropExt_unknown hno o), fun hsome =>
      ⟨fun hc => congrArg _ (State.dropExt_called hsome hc o), fun hc => congrArg _ (State.dropExt_idle hsome hc o)⟩⟩
  · have hlen : o.params.length = o.words.length - 3 := List.length_drop
    have hmay : t.MayCall o e h tile ch params := ⟨hexts, hnh, hnt, hnc, hh, hidle, hepoch, hlease, hunused, hasked, hchan,
      halign, by rw [hlen]; exact hroom⟩
    have hexec : exec (.ordExtCall e.id [h] [tile] [ch] [] params) s = .next (t.extCall o e.id [h] [tile] [ch] [] params) :=
      congrArg _ (hs.serve _ _)
    have hhart := t.callStarted_hart o e h tile ch params
    obtain ⟨h10, h11, hregs⟩ := (t.hart h).enter_getX (t.callPmp e []) (BitVec.ofNat 32 (e.codeAddr + e.entry)) params 0
    obtain ⟨htiles, hchan', hchans⟩ := t.callStarted_frame o e h tile ch params
    have hstore : t.storeCanonical := by
      obtain ⟨-, -, -, ht, -⟩ := hs
      rw [ht]
      exact hm
    rw [hexec, State.extCall_single hmay]
    refine ⟨_, rfl, congrArg HartState.mode hhart, congrArg HartState.halted hhart, congrArg HartState.pc hhart,
      (congrArg (HartState.getX · 10) hhart).trans h10, (congrArg (HartState.getX · 11) hhart).trans h11,
      fun r hr10 hr11 => (congrArg (HartState.getX · r) hhart).trans (hregs r hr10 hr11),
      fun g hg => t.callStarted_hart_ne o e hg tile ch params, htiles, hchan', hchans, fun i => ?_, ?_, rfl, rfl⟩
    · rw [← hlen]
      exact State.callStarted_store hstore i
    · rw [← hepoch]
      rfl
  · have hexec : exec (.ecall h) s = .next (s.ecall h).pruneCycles := next_if_pos hact
    rw [hexec, State.ecall_ends hmode ha7 hcalls hharts]
    have hhart := (State.returning_endCall_hart (s := s) hharts ((s.hart h).getX 10) h).trans (if_pos rfl)
    exact ⟨_, rfl, (congrArg HartState.mode hhart).trans rfl, congrArg HartState.halted hhart,
      (congrArg HartState.x hhart).trans rfl, s.returning_endCall_hods h c, by rw [State.endCall_eq]; rfl,
      State.endCall_chan _ _ _ _, fun g hg => (State.returning_endCall_hart hharts _ g).trans (if_neg hg)⟩
  · have hexec : exec (.ordExtCall ext harts tiles chans floes params) s = .next s.finishCall :=
      congrArg _ (State.serve_alt hfront _ _)
    rw [hexec, State.finishCall_single hserving hcalls hend hp]
    simp only [State.callSettled_iff]

end Sys2Proof.Machine
